-- ==== Sys2Proof/Word.lean ====
section
/-! DEFINITION. The words of the Fuvik: bytes, 64-bit registers and words, and the plain integers the
identifiers are counted in (R7, spec/00_scope.md). -/

namespace Sys2Proof

/-- One byte. -/
abbrev Byte := BitVec 8

/-- A word of R7: eight bytes; also the width of a register and of an address. -/
abbrev Word := BitVec 64

/-- Bits `[lo + len - 1 : lo]` of a word, as a number. -/
def bits {n : Nat} (w : BitVec n) (lo len : Nat) : Nat := (w.toNat >>> lo) % 2 ^ len

/-- Bit `i` of a word. -/
def bit {n : Nat} (w : BitVec n) (i : Nat) : Bool := w.toNat.testBit i

end Sys2Proof
end

