-- ==== Sys2Proof/Syntax.lean ====
section
/-! DEFINITION. The commands of the block: one constructor of `Instr` for each row of
spec/opcode_table.json, with the operands the spec gives the row. -/

namespace Sys2Proof

/-- The status codes of R308; no other value is used. -/
inductive Status where
  | ok | deferred | busy
  | badOpcode | badParam | auth | quorum
  | revoked | staleMap | fenced | translation
  | lapClosed | lapLimit
  | embIndex
  | gearLength | gearCode | gearCheck
  | ownerLost | lossLine
  | atomicRemote | misaligned
  | uncorrectable | timeout
deriving DecidableEq, Repr

/-- The 16-bit value of a status (R308). -/
def Status.code : Status → BitVec 16
  | .ok => 0x0000 | .deferred => 0x0001 | .busy => 0x0002
  | .badOpcode => 0x0010 | .badParam => 0x0011 | .auth => 0x0012 | .quorum => 0x0013
  | .revoked => 0x0020 | .staleMap => 0x0021 | .fenced => 0x0022 | .translation => 0x0023
  | .lapClosed => 0x0030 | .lapLimit => 0x0031
  | .embIndex => 0x0040
  | .gearLength => 0x0050 | .gearCode => 0x0051 | .gearCheck => 0x0052
  | .ownerLost => 0x0060 | .lossLine => 0x0061
  | .atomicRemote => 0x0070 | .misaligned => 0x0071
  | .uncorrectable => 0x0080 | .timeout => 0x0081

/-- Where a command packet comes from (R295, R309, R409). -/
inductive Src where
  | port
  | sideband
  | queue (q : BitVec 13)
deriving DecidableEq, Repr

/-- The 32-byte command header of R297, field by field (the opcode is the constructor's). -/
structure Hdr where
  src        : Src
  version    : BitVec 4
  flags      : BitVec 16
  rider      : BitVec 8
  chunk      : BitVec 8
  queue      : BitVec 16
  tag        : BitVec 32
  paramLen   : BitVec 16
  rsv        : BitVec 16
  payloadLen : BitVec 32
  epoch      : BitVec 32
  replyVa    : Word
deriving DecidableEq, Repr

/-- A command packet: its header, its parameters as 64-bit little-endian words, its payload. -/
structure Cmd where
  h       : Hdr
  params  : List Word
  payload : List Byte
deriving DecidableEq, Repr

/-- The two commands that accept chunks (R301). -/
inductive ChunkOp where
  | compose
  | prefetchSchedule
deriving DecidableEq, Repr

/-- A source of requests to a home (R24, R103, R145). -/
inductive ReqSrc where
  /-- a context of a tile of this module (tile identifier, context) -/
  | tile (t : BitVec 10) (c : BitVec 4)
  /-- a stream of a tile -/
  | stream (t : BitVec 10) (n : BitVec 5)
  /-- a command engine, near-memory or embedding operation of this module, for a rider -/
  | engine (rider : BitVec 6)
  /-- a registered caching agent of this module -/
  | agent (a : BitVec 10)
  /-- an edge agent known by its OXF SOURCE -/
  | edge (source : BitVec 16)
  /-- a logical device of a CXL port -/
  | cxl (port : Fin 24) (ld : BitVec 4)
  /-- another module, acting for a rider -/
  | remote (module : BitVec 6) (rider : BitVec 6)
deriving DecidableEq, Repr

/-- A request to a home: its source, the sender's own number for it, its OPA and the epoch it carries
(`none`: a request without an epoch field, R37). -/
structure Req where
  src   : ReqSrc
  txn   : BitVec 32
  opa   : Word
  epoch : Option (BitVec 32)
deriving DecidableEq, Repr

/-- The operation of an atomic request (R115): code, operand size in bytes, operands, addend format. -/
structure AtomOp where
  code : BitVec 4
  size : Nat
  a    : Word
  b    : Word
  fmt  : BitVec 4
deriving DecidableEq, Repr

/-- The kind of a request to a home (R106), with its data. -/
inductive ReqKind where
  | rdShared
  | rdOwn
  | upgrade
  | rdCur
  | wrFull (data : List Byte)
  | wrPart (mask : BitVec 64) (data : List Byte)
  | wrHint (mask : BitVec 64) (data : List Byte) (target : BitVec 10)
  | atomic (op : AtomOp)
  | wbM (data : List Byte)
  | evictClean
deriving DecidableEq, Repr

/-- A sequenced store packet of R258, R259. -/
structure StorePkt where
  source    : BitVec 24
  epoch     : BitVec 32
  seq       : BitVec 32
  lowest    : BitVec 32
  rider     : BitVec 6
  opa       : Word
  data      : List Byte
  flagged   : Bool
  coverFrom : BitVec 32
  peloton   : BitVec 8
deriving DecidableEq, Repr

/-- A source among all the pelotons: its number is unique in its own (R255, R258). -/
structure Sender where
  peloton : BitVec 8
  source  : BitVec 24
deriving DecidableEq, Repr

/-- A module of a peloton. -/
structure ModuleRef where
  peloton : BitVec 8
  module  : BitVec 6
deriving DecidableEq, Repr

/-- Who sends a store. -/
def StorePkt.sender (p : StorePkt) : Sender := { peloton := p.peloton, source := p.source }

/-- What is left of a store after its first `n` bytes. -/
def StorePkt.rest (p : StorePkt) (n : Nat) : StorePkt :=
  { p with opa := p.opa + BitVec.ofNat 64 n, data := p.data.drop n }

/-- A request that a module which hands over relays to its twin (R283), with its source, epoch and number unchanged. -/
inductive Relayed where
  | store (p : StorePkt)
  | req (r : Req) (k : ReqKind)
  | fence (source : BitVec 16) (txn seq epoch : BitVec 32)
deriving DecidableEq, Repr

/-- What a remote home answered to a load (data or a status). -/
structure RemoteRet where
  data   : List Byte
  status : Status
deriving DecidableEq, Repr

/-- A row of a table as its owner answers a request for it: its bytes, or why there are none (R225, R227, R230). -/
structure EmbRow where
  row    : Nat
  status : Status
  data   : List Byte
deriving DecidableEq, Repr

/-- Where an operation of a bundle issues: the tile and the context (R170). -/
structure At where
  tile : BitVec 10
  ctx  : BitVec 4
deriving DecidableEq, Repr

/-- The address operand of a memory operation: a scalar register and a signed immediate (R172). -/
structure AddrOp where
  base : BitVec 5
  imm  : BitVec 16
deriving DecidableEq, Repr

/-- An engine that can hold a translation (R59). -/
inductive EngineRef where
  | context (t : BitVec 10) (c : BitVec 4)
  | stream (t : BitVec 10) (n : BitVec 5)
  | op (id : Nat)
deriving DecidableEq, Repr

/-- How far the reads of one 16 KiB unit had to go (R91). -/
inductive UnitRead where
  | hard
  | soft
  | rebuilt
  | failed
deriving DecidableEq, Repr

/-- Where the flash layer puts a 16 KiB unit (R89): its die among the cluster's, its block, and the dies of the other
fifteen units of its stripe. -/
structure FlashUnit where
  die    : Nat
  block  : Nat
  stripe : List Nat
deriving DecidableEq, Repr

/-- A flash die: its cluster, and its number there. -/
structure FlashDie where
  cluster : Fin 4
  die     : Nat
deriving DecidableEq, Repr

/-- A program that ended, and the units in which its frame now lies. -/
structure ProgramDone where
  id    : Nat
  units : List FlashUnit
deriving DecidableEq, Repr

/-- A unit of a flash frame that has moved to a new place. -/
structure UnitMove where
  cluster : Fin 4
  frame   : Nat
  unit    : Fin 4
  place   : FlashUnit
deriving DecidableEq, Repr

/-- The source and the destination module of a fence request (R264). -/
structure FenceEnds where
  source : BitVec 16
  dst    : BitVec 6
deriving DecidableEq, Repr

/-- A flit that fails its FEC or CRC at a port: `again` where it is a replay of the flit that failed there last (R257). -/
structure FlitFail where
  port  : Fin 24
  again : Bool
deriving DecidableEq, Repr

/-- A store of a tile: its context, and its number there. -/
structure StoreRef where
  ctx : BitVec 4
  seq : Nat
deriving DecidableEq, Repr

/-- What the patrol met in a code word (R326). -/
inductive Ecc where
  | clean
  | correctable
  | uncorrectable
deriving DecidableEq, Repr

/-- The key that matches the commands of one embedding batch (R221), with the member (its index in the table) whose part
of the batch it names: the one a message is for. -/
structure BatchKey where
  member : Nat
  rider  : BitVec 6
  table  : BitVec 8
  batch  : BitVec 32
  update : Bool
deriving DecidableEq, Repr

/-- What heads a reply between members (R221): the batch, and the definition's tag. -/
structure EmbHead where
  key    : BatchKey
  defTag : BitVec 32
deriving DecidableEq, Repr

/-- A contribution of an index position (R228): sample, FP32 weight, row. -/
structure Contribution where
  sample : Nat
  weight : BitVec 32
  row    : Nat
deriving DecidableEq, Repr

/-- What version of a page a mirrored write goes to (R277, R278). -/
inductive MirVer where
  | latest
  | wlap
  | lap (n : BitVec 32)
deriving DecidableEq, Repr

/-- The metadata that travels with a mirrored extent (R278): its index on the twin, the laps that live on the primary,
the write lap (synchronous mode) with its rider, number and reservation, the laps held by stage marks, fence, loss-list
entries (rider, offset, agent, cause), and how many of its pages have still to be copied. -/
structure ExtMeta where
  idx      : Nat
  live     : Bool
  latest   : BitVec 32
  laps     : List (BitVec 32)
  wlap     : Option (BitVec 6 × BitVec 32 × Nat)
  marks    : List (BitVec 6 × BitVec 32 × BitVec 32)
  fenced   : Bool
  unlisted : Nat
  losses   : List (BitVec 6 × Nat × BitVec 10 × BitVec 16)
  missing  : Nat
deriving DecidableEq, Repr

/-- A message of the mirror channel: a write to a page of a mirror copy, or metadata with the sender's `RESYNC_LEFT`. -/
inductive MirMsg where
  | write (page : Nat) (offset : Nat) (data : List Byte) (ver : MirVer)
  | info (left : Nat) (exts : List ExtMeta)
deriving DecidableEq, Repr

/-- What waits for the twin link (R281): a command, or a store of a tile context. -/
inductive MirWaiter where
  | cmd (src : Src) (tag : BitVec 32)
  | ctx (t : BitVec 10) (c : BitVec 4)
deriving DecidableEq, Repr

/-- A firmware core of the module (spec/01, the firmware processors). -/
inductive FwCore where
  | security (h : Fin 2)
  | power (h : Fin 2)
  | scheduler (h : Fin 2)
  | wheel (w : Fin 16)
  | flash (s : Fin 4)
deriving DecidableEq, Repr

/-- What a boot meets that the module's own state does not decide (R353, R363). -/
structure BootInfo where
  pufOk        : Bool
  countersOk   : Bool
  failedUnits  : List (BitVec 16)
  standbyReady : Bool
deriving DecidableEq, Repr

/-- The causes that engage Brake (R378, R380, R384). -/
inductive BrakeCause where
  | supply
  | overVoltage
  | current
  | inputPower
  | brakeW
  | temperature (sensor : Fin 104)
deriving DecidableEq, Repr

/-- The sideband straps of R401. -/
structure StrapPins where
  recoveryN : Bool
  addrSel   : BitVec 2
  slotId    : BitVec 6
deriving DecidableEq, Repr

/-- The commands of the block: one constructor for each row of the table. -/
inductive Instr where
  -- port basics and registers
  | nop (c : Cmd)
  | hello (c : Cmd)
  | regRead (c : Cmd)
  | regWrite (c : Cmd)
  | crCohCtrlWrite (c : Cmd)
  | hsFabricCtrlWrite (c : Cmd)
  | lose (c : Cmd)
  | hsAlertClear (c : Cmd) (rising : BitVec 6)
  | crXlatStatusRead (c : Cmd)
  | crCohStatusRead (c : Cmd)
  | sbFtlHealthRead (c : Cmd)
  | crEmbStatusRead (c : Cmd)
  | crNmStatusRead (c : Cmd)
  | spTileCountersRead (c : Cmd)
  | hsErrStatusRead (c : Cmd)
  | dlPortStatusRead (c : Cmd)
  -- composition
  | commandChunk (op : ChunkOp) (c : Cmd)
  | compose (c : Cmd)
  | composeDrained
  | composeDrainLimit
  | epochHoldTimeout (i : Nat)
  -- rider reset, queues
  | riderReset (c : Cmd)
  | riderResetDrainLimit (rider : BitVec 6)
  | queueCreate (c : Cmd)
  | queueDestroy (c : Cmd)
  | doorbell (q : BitVec 13) (value : Word)
  | cqHeadUpdate (ring : Bool) (q : BitVec 13) (value : Word)
  | queueFetch (q : BitVec 13)
  | replyPost (q : BitVec 13)
  -- extents
  | extentAssign (c : Cmd)
  | extentRevoke (c : Cmd)
  | extentQuery (c : Cmd)
  | lossAck (c : Cmd)
  -- translation
  | ptBaseSet (c : Cmd)
  | mapRange (c : Cmd)
  | unmapRange (c : Cmd)
  | unmapEngineAck (id : Nat) (e : EngineRef)
  /-- a walker of a wheel: the walk whose entry has been read -/
  | walkReadReturn (wheel : Fin 16) (id : Nat)
  -- laps
  | lapOpen (c : Cmd)
  | lapBeginWrite (c : Cmd)
  | lapCommit (c : Cmd)
  | lapClose (c : Cmd)
  | stageMark (c : Cmd)
  | stageRollback (c : Cmd)
  -- tiers
  | objPlace (c : Cmd)
  | prefetchSchedule (c : Cmd)
  | pagePin (c : Cmd)
  | pageEvict (c : Cmd)
  | flashTrim (c : Cmd)
  -- embedding
  | embTableDefine (c : Cmd)
  | embLookup (c : Cmd)
  | embUpdate (c : Cmd)
  | embRequestRun (k : BatchKey) (defTag : BitVec 32) (from_ : Nat) (rows : List Nat) (contribs : List Contribution)
      (done : Bool)
  | embRowReply (h : EmbHead) (from_ : Nat) (rows : List EmbRow)
  | embPartial (h : EmbHead) (from_ : Nat) (key : Nat) (values : List (BitVec 32))
  | embVerdict (k : BatchKey) (from_ : Nat) (status : Status) (offset : Word)
  | embLimitExpiry (k : BatchKey)
  -- near memory
  | nmFill (c : Cmd)
  | nmCopy (c : Cmd)
  | nmCompare (c : Cmd)
  | nmReduce (c : Cmd)
  | engineBeatCompletion (id : Nat) (remote : Option RemoteRet)
  -- tile control, sync commands, bulk
  | tileLoad (c : Cmd)
  | tileStart (c : Cmd)
  | tileStop (c : Cmd)
  | syncSet (c : Cmd)
  | syncWait (c : Cmd)
  | syncWaitLimit (src : Src) (tag : BitVec 32)
  | bulkWrite (c : Cmd)
  | bulkRead (c : Cmd)
  -- firmware
  | fwStage (c : Cmd)
  | fwActivate (c : Cmd)
  | deferredActivationStart
  | fwActivationStepDone (ok : Bool)
  | activationHoldLimit
  | trialConfirmation
  | attest (c : Cmd)
  -- power, logs
  | powerPolicy (c : Cmd)
  | thermalQuery (c : Cmd)
  | errLogRead (c : Cmd)
  | inject (c : Cmd)
  | odometerRead (c : Cmd)
  | unitUnfence (c : Cmd)
  | unfenceCheckComplete (unit : BitVec 16) (failedStep : BitVec 3) (dirDouble : Bool)
  -- twin, quorum
  | tandemPair (c : Cmd)
  | partnerAttestReport (report : List Byte) (nonce : List Byte)
  | tandemHandover (c : Cmd)
  | handoverDrainDone
  /-- `port`: the one by which it came to the module that hands over -/
  | relayedRequest (m : Relayed) (port : Fin 24)
  | expel (c : Cmd)
  | admit_ (c : Cmd)
  | managerKeys (c : Cmd)
  | tripRead (c : Cmd)
  | timeSet (c : Cmd)
  | timeSetTimeout
  -- tile operations
  | ld (at_ : At) (size : BitVec 2) (sd : BitVec 5) (addr : AddrOp)
  | ldU (at_ : At) (size : BitVec 2) (sd : BitVec 5) (addr : AddrOp)
  | st (at_ : At) (size : BitVec 2) (ss : BitVec 5) (addr : AddrOp)
  | stF (at_ : At) (size : BitVec 2) (ss : BitVec 5) (addr : AddrOp)
  | atom (at_ : At) (code : BitVec 4) (size : BitVec 2) (sd : BitVec 5) (addr : AddrOp) (sa sb : BitVec 5)
  | fence (at_ : At)
  | acq (at_ : At) (sa sb : BitVec 5)
  | sigAdd (at_ : At) (obj : BitVec 14) (ss : BitVec 5)
  | sigSet (at_ : At) (obj : BitVec 14) (ss : BitVec 5)
  | wait (at_ : At) (obj : BitVec 14) (cmp : BitVec 2) (ss sa sb sl sd : BitVec 5)
  | ldP (at_ : At) (size : BitVec 2) (sd : BitVec 5) (addr : AddrOp)
  | stP (at_ : At) (size : BitVec 2) (ss : BitVec 5) (addr : AddrOp)
  | vldP (at_ : At) (vd : BitVec 5) (addr : AddrOp)
  | vstP (at_ : At) (vs : BitVec 5) (addr : AddrOp)
  | vpack (at_ : At) (vs : BitVec 5) (addr : AddrOp) (fmt : BitVec 4) (gear : BitVec 2)
  | xaSave (at_ : At) (xa : BitVec 3) (addr : AddrOp)
  | xaMerge (at_ : At) (xa : BitVec 3) (addr : AddrOp)
  | mma (at_ : At) (t : BitVec 5) (sd : BitVec 5)
  | mmaDequeue (tile : BitVec 10)
  | accRd (at_ : At) (vd : BitVec 5) (t : BitVec 5) (r : BitVec 4)
  | accWr (at_ : At) (t : BitVec 5) (r : BitVec 4) (vs : BitVec 5)
  | accClr (at_ : At) (t : BitVec 5)
  | dp (at_ : At) (cfg : BitVec 5) (vd va vb vc sa : BitVec 5)
  | scalarIntegerOperation (at_ : At) (code : BitVec 8) (sd sa sb : BitVec 5)
  | branch (at_ : At) (code : BitVec 4) (sa : BitVec 5) (target : BitVec 14)
  | loopCounter (at_ : At) (code : BitVec 4) (sa : BitVec 5) (target : BitVec 14)
  | yield_ (at_ : At)
  | halt (at_ : At)
  | id_ (at_ : At) (sd : BitVec 5)
  | strStart (at_ : At) (n : BitVec 5) (ss : BitVec 5)
  | strWait (at_ : At) (n : BitVec 5)
  | strStop (at_ : At) (n : BitVec 5)
  -- tile events
  | loadDataReturn (tile : BitVec 10) (ctx : BitVec 4) (remote : Option RemoteRet)
  | storeLandingAck (tile : BitVec 10) (store : StoreRef) (status : Status)
  | streamBeatCompletion (tile : BitVec 10) (n : BitVec 5) (remote : Option (List Byte × Status))
  | signalApply (tile : BitVec 10) (ctx : BitVec 4)
  | waitLimitExpiry (tile : BitVec 10) (ctx : BitVec 4)
  | tileIssueWatchdog (tile : BitVec 10)
  -- coherence
  | rdShared (r : Req)
  | rdOwn (r : Req)
  | upgrade (r : Req)
  | rdCur (r : Req)
  | wrFull (r : Req) (data : List Byte)
  | wrPart (r : Req) (mask : BitVec 64) (data : List Byte)
  | wrHint (r : Req) (mask : BitVec 64) (data : List Byte) (target : BitVec 10)
  | atomic (r : Req) (op : AtomOp)
  | wbM (r : Req) (data : List Byte)
  | evictClean (r : Req)
  | rspI (a : BitVec 10) (trk : Nat)
  | rspS (a : BitVec 10) (trk : Nat)
  | rspX (a : BitVec 10) (trk : Nat)
  | rspStashOk (a : BitVec 10) (trk : Nat)
  | rspStashRefuse (a : BitVec 10) (trk : Nat)
  | datFwd (a : BitVec 10) (trk : Nat) (data : List Byte) (keepsS : Bool)
  | cmpAck (a : BitVec 10) (trk : Nat)
  | memRd (trk : Nat)
  | memWr (trk : Nat)
  | memAtom (trk : Nat)
  | memRdata (trk : Nat)
  | memWack (trk : Nat)
  | snoopTimeout (a : BitVec 10) (trk : Nat)
  | grantAckTimeout (a : BitVec 10) (trk : Nat)
  | memoryTimeout (trk : Nat)
  | agentLossScanEnd (a : BitVec 10)
  -- fabric
  | remoteStoreArrival (p : StorePkt) (port : Fin 24)
  | flaggedStoreArrival (p : StorePkt) (port : Fin 24)
  | seqAck (source : BitVec 24) (dst : ModuleRef) (base : BitVec 32) (landed : List (BitVec 32))
      (refused : List (BitVec 32 × Status))
  | seqAckTimer (source : Sender)
  | fenceReq (ends : FenceEnds) (txn seq epoch : BitVec 32)
  | discardOrder (source : Sender) (fromModule : BitVec 6)
  | e2eLimitExpiry (source : BitVec 24) (dst : ModuleRef) (load : Option (BitVec 32))
  | windowRetentionExpiry (source : Sender)
  | packetAgeDiscard (port : Fin 24) (p : StorePkt)
  | gatewayFrame (fromPeloton : BitVec 8) (port : Fin 24) (records : List StorePkt)
  | gatewayBlockRead (opa : Word) (data : List Byte) (status : Status)
  | frameAgeExpiry (peloton : BitVec 8) (module : BitVec 6)
  | flitError (flit : FlitFail)
  | portTrained (port : Fin 24)
  | linkLoss (port : Fin 24)
  | portRetrainLimit (port : Fin 24)
  | portRetrainRetry (port : Fin 24)
  | cxlPortDownLimit (port : Fin 24)
  | identifyMemoryDevice (port : Fin 24) (ld : BitVec 4)
  | getSupportedLogs (port : Fin 24) (ld : BitVec 4)
  | getLog (port : Fin 24) (ld : BitVec 4) (log : BitVec 128) (offset length : BitVec 32)
  | getEventRecords (port : Fin 24) (ld : BitVec 4)
  | clearEventRecords (port : Fin 24) (ld : BitVec 4) (handles : List (BitVec 16))
  | getTimestamp (port : Fin 24) (ld : BitVec 4)
  | getDynamicCapacityConfiguration (port : Fin 24) (ld : BitVec 4)
  | getDynamicCapacityExtentList (port : Fin 24) (ld : BitVec 4) (start count : Nat)
  | setTimestamp (port : Fin 24) (ld : BitVec 4)
  | sanitize (port : Fin 24) (ld : BitVec 4)
  | secureErase (port : Fin 24) (ld : BitVec 4)
  | scanMedia (port : Fin 24) (ld : BitVec 4)
  | fmApiBind (port : Fin 24) (ld : BitVec 4) (unbind : Bool)
  | dynamicCapacityHostRequest (port : Fin 24) (ld : BitVec 4) (release : Bool)
  -- twin link
  | mirrorWrite (m : MirMsg)
  | landingMark (source : Sender) (epoch : BitVec 32) (seq : BitVec 32)
  | commitRecord (extents : List (Nat × BitVec 32)) (shadows : List (Nat × List Byte))
  | commitPreparedAck (extents : List (Nat × BitVec 32))
  | committedMark (extents : List (Nat × BitVec 32))
  | resyncPageCopy (page : Nat)
  | twinLinkDown
  | twinLinkUp (lanes : BitVec 32)
  -- tier mover, flash, schedules
  | granuleCopyComplete (id : Nat) (granule : Fin 16)
  | flashReadComplete (id : Nat) (units : List UnitRead)
  /-- the layer chose where the frame's four units lie (R89) -/
  | flashProgramComplete (p : ProgramDone)
  /-- a program on a block failed: a frame's, or (none) one of the layer itself or an erase -/
  | programFailure (die : FlashDie) (id : Option Nat) (block : Nat)
  | scheduleEntryStart (base : Nat)
  | scheduleFillComplete (base : Nat) (pass entry : Nat)
  | scheduleRelease (base : Nat) (pass entry : Nat)
  | readDisturbRelocation (die : FlashDie) (block : Nat) (units : Nat)
  | flashPatrol (die : FlashDie) (block : Nat) (needsSoft : Bool) (units : Nat)
  | relocationComplete (m : UnitMove)
  | dieFailure (cluster : Fin 4) (die : Nat)
  | rebuildComplete (cluster : Fin 4) (die : Nat)
  /-- the journal is rebuilt, or cannot be -/
  | clusterMountComplete (cluster : Fin 4) (mounts : Bool)
  | clusterMountTimeout (cluster : Fin 4)
  -- errors
  | memoryControllerTimeout (unit : BitVec 16)
  | interconnectHopFailure (unit : BitVec 16)
  | firmwareWatchdogExpiry (core : FwCore) (compartment : BitVec 32)
  | managementObservation (unit : BitVec 16) (code : BitVec 4)
  | memoryPatrol (offset : Word) (found : Ecc)
  | odometerRecordWrite (seq : Nat) (crcOk : Bool)
  | boot (b : BootInfo)
  -- power
  | supplyWarning (mv : Nat)
  | supplyRecovery (mv : Nat)
  | brownOut (mv : Nat)
  | overVoltage (mv : Nat)
  | converterStop (mv : Nat)
  | currentLimit (ma : Nat)
  | inputPowerLimit (w : Nat)
  | brakeRelease (w : Nat)
  | brakeThreshold (sensor : Fin 104) (temp : BitVec 16)
  | thermalTrip (sensor : Fin 104) (temp : BitVec 16)
  | temperatureShutdown (sensor : Fin 104) (temp : BitVec 16)
  | memoryOverTemperature (sensor : Fin 104) (temp : BitVec 16)
  | nandOverTemperature (cluster : Fin 4) (temp : BitVec 16)
  | vfLoopTick (spoke : Fin 16) (mhz : Nat) (pinW : Nat) (temp : BitVec 16)
  | linkWidthNarrow (tandem : Bool) (link : Fin 24) (queued : Bool)
  | coastIdleTimer
  | coastWake
  | freewheelWakeTimer
  | wakeN
  | resetN (low : Bool)
  | busbarEngage (mv : Nat)
  | ppsEdge
  | ppsLost
  -- sideband, JTAG
  | recoveryPiece (offset length : BitVec 32) (last : BitVec 8) (rsv : BitVec 56) (data : List Byte)
  | odometerRawRead (position count : BitVec 32)
  | setEndpointId (eid : BitVec 8)
  | getEndpointId
  | getMctpVersionSupport (msgType : BitVec 8)
  | getMessageTypeSupport
  | getVendorDefinedMessageSupport (selector : BitVec 8)
  | i3cDynamicAddressAssignment (addr : BitVec 7)
  | bypass (tap : Fin 12)
  | idcode (tap : Fin 12)
  | samplePreload (tap : Fin 12)
  | extest (tap : Fin 12)
  | extestPulse (tap : Fin 12)
  | extestTrain (tap : Fin 12)
  | clamp (tap : Fin 12)
  | highz (tap : Fin 12)
  | axfotikLaneFailure (lane : Fin 2)
  | axfotikLaneUp (lane : Fin 2)
  | mirrorWaitLimit (w : MirWaiter)
  | protocolEngineFault (unit : BitVec 16)
  | managementReportsFailure (unit : BitVec 16) (code : BitVec 4)
  | injectionDurationEnd (i : Nat)
  | activationPrimaryResume
  | supplyReturn (mv : Nat)
  | overVoltageRestart (mv : Nat)
  | aux3v3Change (present : Bool)
  | strapChange (pins : StrapPins)
  | memoryTemperatureFall (sensor : Fin 104) (temp : BitVec 16)
  | getPoisonList (port : Fin 24) (ld : BitVec 4)
  | injectPoison (port : Fin 24) (ld : BitVec 4)
  | clearPoison (port : Fin 24) (ld : BitVec 4)
  | partitionCommand (port : Fin 24) (ld : BitVec 4)
  | cdatDoeRequest (port : Fin 24) (ld : BitVec 4)
deriving DecidableEq, Repr

end Sys2Proof
end

