-- ==== Sys2Proof/Config.lean ====
section
/-! DEFINITION. What one module fixes (figures of R1, R29, R65) and the free values of the model: opaque
constants without a body, for the values the spec leaves open (notes/assumptions/4.md). -/

namespace Sys2Proof

/-- The part number of R1. -/
inductive Variant where
  /-- FV64-8192-192 -/
  | v192
  /-- FV64-8192-096 -/
  | v096
  /-- FV64-4096-000: no flash tier -/
  | v000
deriving DecidableEq, Repr

namespace Config

/-- LPDDR capacity in GiB, the field `LPDDR_GIB` of R4. -/
def lpddrGib : Variant → BitVec 16
  | .v192 => 0x2000 | .v096 => 0x2000 | .v000 => 0x1000

/-- Raw NAND in TiB, the field `NAND_TIB` of R4. -/
def nandTib : Variant → BitVec 16
  | .v192 => 0x00C0 | .v096 => 0x0060 | .v000 => 0x0000

/-- Frames of a tier (R65): 0 HBM, 1 LPDDR, 2 flash. -/
def tierFrames : Variant → Nat → Nat
  | _, 0 => 9437184
  | .v000, 1 => 67108864
  | _, 1 => 134217728
  | .v192, 2 => 2684354560
  | .v096, 2 => 1342177280
  | _, _ => 0

/-- Extents the flash tier adds to the capacity (R29). -/
def flashExtents : Variant → Nat
  | .v192 => 10240 | .v096 => 5120 | .v000 => 0

/-- Extent capacity of the memory tiers (R29). -/
def memExtents : Variant → Nat
  | .v000 => 292 | _ => 548

/-- Rated 64 KiB programs of a flash cluster (R97): a quarter of the module's 292,160 or 146,080 TiB. -/
def ratedWrites : Variant → Nat
  | .v192 => 73040 * 2 ^ 24 | .v096 => 36520 * 2 ^ 24 | .v000 => 0

/-- Dies of a flash cluster: chapter 5's capacity table gives 192 for FV64-8192-192; the 96 of
FV64-8192-096 follow from its half capacity (DEDUCED, log entry 121). -/
def flashDies : Variant → Nat
  | .v192 => 192 | .v096 => 96 | .v000 => 0

/-- FV64-4096-000 has no flash tier (R1, R3). -/
def hasFlash : Variant → Bool
  | .v000 => false | _ => true

/-! ### Free values -/

/-- A free value that is fresh at each use: applied to the counter `freeIdx` of the state. -/
opaque freeBits : Nat → BitVec 64

/-- The directory set of a line: a hash of its store offset (R109), not given by the spec. -/
opaque dirSet : Nat → Nat

/-- The set of a shared TLB that holds an entry (R54: 8-way), of its rider, its first page and its size; the spec gives no
index function. -/
opaque tlbSet : Nat → Nat → Nat → Nat

/-- The hash that chooses among up ports (R262, R423): of offset bits [47:6] and the number of choices. -/
opaque portHash : Nat → Nat → Nat

/-- The wheel that holds a source's receive window (R342): a hash of the source. -/
opaque windowWheel : BitVec 24 → Fin 16

/-- FNX unit (R186): a fixed function of the operation code and the FP32 input. It picks among the results that lie within 2
ulp of the true value, and is the whole result where there is no true FP32 value. -/
opaque fnx : BitVec 8 → BitVec 32 → BitVec 32

/-- The payload and sign of the NaN a datapath FP unit returns (R186 names none): of the operation and inputs. -/
opaque nanBits : BitVec 8 → BitVec 32 → BitVec 32 → BitVec 32 → BitVec 32

/-- Whether the CMP unit compares its operands as FP32 values or as signed integers (R186 does not say). -/
opaque cmpIsFloat : Bool

/-- Value of the results `less than` and `equal` of the CMP unit (R186 gives none). -/
opaque cmpOut : Bool → BitVec 32

/-- ALU shifts by 32 or more (R186 states no result): of the operation and both operands. -/
opaque aluShift : BitVec 8 → BitVec 32 → BitVec 32 → BitVec 32

/-- CVT into an integer format of a value outside its range without saturation, or of a NaN (R422 covers floating-point
destinations only): of the operation and the input. -/
opaque cvtOpen : BitVec 8 → BitVec 32 → BitVec 32

/-- Whether XLANE shift and rotate move lanes up (R186 names no direction), and what a shift leaves in an empty lane. -/
opaque laneUp : Bool
opaque laneFill : BitVec 32

/-- The output of a node whose operation makes none (XACC add, clear, lane sum). -/
opaque noOut : BitVec 32

/-- Result of a scalar integer operation (R170 names the class of operations, not the operations). -/
opaque scalarOp : BitVec 8 → Word → Word → Word

/-- Whether a branch is taken, from its condition code and scalar operand (R170). -/
opaque branchTaken : BitVec 4 → Word → Bool

/-- The loop counter after a loop-counter operation and whether it branches (R170). -/
opaque loopStep : BitVec 4 → Word → Word → Word × Bool

/-- The ML-DSA-44 signature the device key makes over a digest (R363, R364, R397): 2,420 bytes. -/
opaque deviceSign : BitVec 256 → List Byte

/-- The device public key of this module (R363): 1,312 bytes. -/
opaque deviceKey : List Byte

/-- Balnel's signature over the device public key (R364). -/
opaque deviceCert : List Byte

/-- `DEVICE_FP` of this module (R363). -/
opaque deviceFp : BitVec 64

/-- The SHA3-256 digest function of FIPS 202, used as a function only (00_scope: published standards). -/
opaque sha3 : List Byte → BitVec 256

/-- The digest of Balnel's firmware public key that the Headset ROM holds (R350). -/
opaque romKeyDigest : BitVec 256

/-- The digests of the components of the factory image, and its build number (R351): the spec gives neither. -/
opaque factoryDigest : Nat → BitVec 256
opaque factoryVersion : BitVec 64

/-- DevLoad, log pages and CDAT bytes a CXL reply carries beyond what the spec gives (R269). -/
opaque cxlBytes : Nat → Nat → List Byte

/-- The event code of a TYPE 0x000D record (R330 gives none): 0 retirement, 1 die failure, 2 rebuild start, 3 rebuild
end, 4 change of `STATE`. -/
opaque flashEvent : Nat → BitVec 32

end Config
end Sys2Proof
end

