-- ==== Sys2Proof/Machine/State.lean ====
section
/-! DEFINITION. The state of the block: every register, queue, buffer, counter, mode and pin the spec gives the
module, as plain data, one structure per chapter, and `State.reset` (INVENTORY.md, '## State', lists every field
with its rule and reset value). -/

namespace Sys2Proof.Machine

/-- No command of the block ends in a fault: R5 leaves no behaviour undefined, and misuse produces a status, a
record or a context fault, all of them next states. Nobody raises a fault (safe). -/
inductive Fault where
deriving DecidableEq, Repr

/-- Why a command is refused by the model. -/
inductive Refusal where
  /-- raised by an arm of `exec` whose command has no meaning yet (safe: the run stops) -/
  | notModelled (mnemonic : String)
deriving DecidableEq, Repr

/-- The outcome of a command. -/
abbrev Out (σ : Type) := Host.Outcome σ Fault Refusal

/-! ### Records, replies, messages -/

/-- A log record of R329 (its CRC is computed when it is read). -/
structure Rec where
  seq      : Nat
  time     : Word
  type     : BitVec 16
  status   : BitVec 16
  point    : BitVec 16
  unit     : BitVec 16
  rider    : BitVec 8
  severity : BitVec 8
  flags    : BitVec 8
  source   : BitVec 32
  addr     : Word
  va       : Word
  arg0     : Word
  arg1     : BitVec 32
deriving DecidableEq, Repr

/-- A log: the records still held, oldest first, and the next sequence number (R319, R331, R345). -/
structure Log where
  recs : List Rec
  next : Nat
deriving DecidableEq, Repr

/-- A reply of R298 with its payload. -/
structure Reply where
  src         : Src
  op          : BitVec 12
  h           : Hdr
  status      : Status
  chunk       : Nat
  payloadLost : Bool
  more        : Bool
  epoch       : BitVec 32
  result      : Word
  payload     : List Byte
deriving DecidableEq, Repr

/-- A command that has been accepted and has not been replied to: its opcode and header. -/
structure Open where
  op : BitVec 12
  h  : Hdr
deriving DecidableEq, Repr

/-- A command held back at the Headset (R358 hold, R371, R375): its opcode and packet. -/
structure HeldCmd where
  op : BitVec 12
  c  : Cmd
deriving DecidableEq, Repr

/-- What waits at ingress (R36, R37, R371, R376): a request to a home or a sequenced store. -/
inductive HeldWhat where
  | req (r : Req) (k : ReqKind)
  | store (p : StorePkt) (port : Fin 24)
  | fence (source : BitVec 16) (dst : BitVec 6) (txn seq : BitVec 32)
deriving DecidableEq, Repr

/-- A request held at ingress, with its own number and the epoch it came under. -/
structure Held where
  id    : Nat
  epoch : BitVec 32
  what  : HeldWhat
deriving DecidableEq, Repr

/-- A message the block sends (R106, R261, R282, R283): the output of the homes, ports and the twin link. -/
inductive OutMsg where
  | snpShared (a : BitVec 10) (trk : Nat) (line : Nat)
  | snpInv (a : BitVec 10) (trk : Nat) (line : Nat)
  | snpCur (a : BitVec 10) (trk : Nat) (line : Nat)
  | snpStash (a : BitVec 10) (trk : Nat) (line : Nat) (mask : BitVec 64) (data : List Byte)
  | datE (r : Req) (line : Nat) (data : List Byte)
  | datS (r : Req) (line : Nat) (data : List Byte)
  | datCur (r : Req) (line : Nat) (data : List Byte)
  | cmp (r : Req) (status : Status) (hintMissed : Bool)
  | memRd (trk : Nat)
  | memWr (trk : Nat)
  | memAtom (trk : Nat)
  | memRdata (trk : Nat) (status : Status)
  | memWack (trk : Nat) (status : Status)
  | seqAck (as_ : BitVec 8) (source : Sender) (base : BitVec 32) (landed : List (BitVec 32)) (refused : List (BitVec 32 × Status))
  | fenceCmp (source : BitVec 16) (txn : BitVec 32) (status : Status)
  | store (dst : BitVec 6) (port : Option (Fin 24)) (p : StorePkt)
  /-- a load of another module, with the rider it acts for and the epoch it was translated under (R24, R37) -/
  | load (dst : BitVec 6) (port : Option (Fin 24)) (txn : BitVec 32) (rider : BitVec 6) (epoch : BitVec 32) (opa : Word)
  | discard (dst : ModuleRef) (source : BitVec 24)
  | discardAck (dst : BitVec 6) (source : Sender)
  | gatewayFrame (peloton : BitVec 8) (dst : BitVec 6) (port : Option (Fin 24)) (records : List StorePkt)
  | gatewayRead (peloton : BitVec 8) (dst : BitVec 6) (port : Option (Fin 24)) (rider : BitVec 6) (epoch : BitVec 32) (block : Word)
  | cxl (port : Fin 24) (ld : BitVec 4) (what : String) (args : List Nat) (data : List Byte)
  | mirror (m : MirMsg)
  | landingMark (source : Sender) (epoch : BitVec 32) (seq : BitVec 32)
  | commitRecord (extents : List (Nat × BitVec 32)) (shadows : List (Nat × List Byte))
  | preparedAck (extents : List (Nat × BitVec 32))
  | committedMark (extents : List (Nat × BitVec 32))
  | attestNonce (nonce : List Byte)
  | attestReport (report : List Byte)
  | relayed (p : StorePkt)
  | relayedReq (r : Req) (k : ReqKind)
  | relayedFence (source : BitVec 16) (txn seq epoch : BitVec 32)
  | embRun (to_ : BitVec 8) (k : BatchKey) (defTag : BitVec 32) (from_ : Nat) (rows : List Nat)
      (contribs : List Contribution)
  | embRows (to_ : BitVec 8) (k : BatchKey) (defTag : BitVec 32) (from_ : Nat) (rows : List EmbRow)
  | embPartial (to_ : BitVec 8) (k : BatchKey) (defTag : BitVec 32) (from_ : Nat) (key : Nat) (values : List (BitVec 32))
  | embVerdict (to_ : BitVec 8) (k : BatchKey) (from_ : Nat) (status : Status) (offset : Word)
  | sideband (kind : BitVec 8) (status : Status) (data : List Byte)
  | mctp (what : String) (args : List Nat)
  | jtag (tap : Fin 12) (value : BitVec 32)
  | portUp (port : Fin 24) (up : Bool)
deriving DecidableEq, Repr

/-! ### Compositions (R30 to R33, R254, R255) -/

/-- A module entry of R31. -/
structure ModEntry where
  fp       : Word
  boot     : BitVec 32
  module   : BitVec 8
  twin     : BitVec 8
  gateways : BitVec 24
deriving DecidableEq, Repr

/-- A rider entry of R32. -/
structure RiderEntry where
  rider      : BitVec 6
  weight     : BitVec 8
  maxQueues  : BitVec 16
  maxStreams : BitVec 16
  syncBase   : BitVec 16
  syncCount  : BitVec 16
deriving DecidableEq, Repr

/-- An extent-run entry of R33. -/
structure Run where
  readers     : Word
  writers     : Word
  first       : BitVec 16
  count       : BitVec 16
  mirrorFirst : BitVec 16
  module      : BitVec 8
  flags       : BitVec 8
deriving DecidableEq, Repr

/-- A route entry of R254: its common bytes and the twelve type bytes as words. -/
structure Route where
  type   : BitVec 8
  module : BitVec 8
  port   : BitVec 8
  w0     : BitVec 32
  w1     : Word
deriving DecidableEq, Repr

/-- A composition record as installed (R30): `me` is this module's number. -/
structure Comp where
  epoch   : BitVec 32
  /-- `ISSUED_AT`, logged at the switch (notes/assumptions/110.md) -/
  issued  : Word
  peloton : BitVec 8
  me      : BitVec 8
  modules : List ModEntry
  riders  : List RiderEntry
  runs    : List Run
  routes  : List Route
deriving DecidableEq, Repr

/-- What carried an `ISSUED_AT`: a composition record by its epoch, an order or a key set by its number. -/
inductive IssuedBy where
  | record (epoch : BitVec 32)
  | order (seq : BitVec 32)
  | keys (seq : BitVec 32)
deriving DecidableEq, Repr

/-- A logged `ISSUED_AT`. -/
structure Issued where
  by_  : IssuedBy
  time : Word
deriving DecidableEq, Repr

/-- Where a `COMPOSE` stands (R35, R36). -/
inductive ComposeSt where
  | idle
  /-- checked; it closes when the revokes that were accepted before it, which are listed, have returned (R43) -/
  | waiting (cmd : Open) (c : Comp) (before : List Open)
  | draining (cmd : Open) (c : Comp)
deriving DecidableEq, Repr

/-- The kept composition of R424: its runs and the latest committed laps, and the pages with a flash home. -/
structure Kept where
  runs  : List Run
  laps  : List (Nat × BitVec 32)
  pages : List (Nat × Nat)
deriving DecidableEq, Repr

/-- `HS_DRAIN_STATUS` (R40). -/
structure Drain where
  done    : Bool
  forced  : BitVec 24
  engines : Bool
  queues  : Bool
  tandem  : BitVec 2
  ports   : BitVec 24
deriving DecidableEq, Repr

/-- The trip meters of one scope (R395). -/
structure Meter where
  tileLoaded : Nat
  tileActive : Nat
  rd         : Nat
  wr         : Nat
  fabric     : Nat
  flash      : Nat
deriving DecidableEq, Repr

/-- The meters of one composition (R395). -/
structure Trip where
  epoch    : BitVec 32
  from_    : Word
  to_      : Word
  stateNs  : List Nat
  /-- input energy in nJ (R395 counts mJ) -/
  energyNj : Nat
  all      : Meter
  riders   : List (BitVec 6 × Meter)
deriving DecidableEq, Repr

/-! ### Port, queues, event rings -/

/-- A chunk assembly of R301. -/
structure Assembly where
  src    : Src
  op     : ChunkOp
  tag    : BitVec 32
  params : List Word
  next   : Nat
  data   : List Byte
deriving DecidableEq, Repr

/-- The Axfotik port and the sideband's command path (R295, R296, R300, R410). -/
structure Port where
  version     : Option (BitVec 4)
  lanes       : List Bool
  outstanding : List Open
  tags        : List (BitVec 32 × Reply)
  assemblies  : List Assembly
  replies     : List Reply
  heldCmds    : List HeldCmd
  sbVersion   : Option (BitVec 4)
deriving DecidableEq, Repr

/-- A physical run of a pre-translated descriptor (R57): its first slot, its command's tag once it is fetched, the virtual
page, its OPA, write permission. -/
structure PreRun where
  slot  : Word
  tag   : Option (BitVec 32)
  page  : Word
  opa   : Word
  write : Bool
deriving DecidableEq, Repr

/-- A command queue (R310 to R316). -/
structure Queue where
  q        : BitVec 13
  rider    : BitVec 6
  ringVa   : Word
  dbVa     : Word
  cqVa     : Word
  ringLog2 : Nat
  cqLog2   : Nat
  pretrans : Bool
  version  : BitVec 4
  inflight : Nat
  sqTail   : Word
  sqHead   : Word
  cqHead   : Word
  cqTail   : Word
  started  : List Open
  waiting  : List HeldCmd
  done     : List Reply
  /-- physical runs that pre-translated descriptors carry (R57) -/
  runs     : List PreRun
  /-- on a `PRETRANSLATE` queue: descriptors below this slot have been walked and are ready for fetch (R57) -/
  preDone  : Word
  /-- entries whose pre-translation faulted, by their first slot (R57) -/
  preBad   : List Word
  error    : Bool
  closing  : Bool
deriving DecidableEq, Repr

/-- The client a translation is made for (R45, R54). -/
inductive XClient where
  | tile (t : BitVec 10)
  | stream (t : BitVec 10) (n : BitVec 5)
  | queue (q : BitVec 13)
  | ring (rider : BitVec 6)
deriving DecidableEq, Repr

/-- A counter update of a doorbell line whose line is being recalled: rider, translation client, source, address, data. -/
structure LateWrite where
  rider  : BitVec 6
  client : XClient
  source : BitVec 32
  va     : Word
  data   : List Byte
deriving DecidableEq, Repr

/-- A doorbell line in this module's store (R311): the queue or ring that it serves, its offset, and whether stores have landed
on its `SQ_TAIL` and its `CQ_HEAD` that are not taken up yet. -/
structure Bell where
  client : XClient
  off    : Nat
  tail   : Bool
  head   : Bool
deriving DecidableEq, Repr

/-- Where the rotation of fetch stands (R317): the rider served last and how many entries its turn still has, and the queue of
each rider that was served last. -/
structure Rotation where
  rider : Option (BitVec 6)
  left  : Nat
  last  : List (BitVec 6 × BitVec 13)
deriving DecidableEq, Repr

/-- An event record of R318 before it is written. -/
structure Event where
  type   : BitVec 16
  status : BitVec 16
  queue  : BitVec 16
  arg0   : Word
  arg1   : Word
deriving DecidableEq, Repr

/-- A rider's event ring (R310, R318). -/
structure Ring where
  rider   : BitVec 6
  dbVa    : Word
  cqVa    : Word
  cqLog2  : Nat
  cqHead  : Word
  cqTail  : Word
  dropped : Nat
  /-- records not yet written -/
  todo    : List (Event × Word)
deriving DecidableEq, Repr

/-! ### Store: frames, pages, laps, objects (chapters 2, 4, 7) -/

/-- A memory tier (R65). -/
inductive Tier where
  | hbm
  | lpddr
  | flash
deriving DecidableEq, Repr

/-- A frame in use: its number, tier, and for LPDDR which channel of each wheel it lies on (R14). -/
structure Frame where
  id   : Nat
  tier : Tier
  ch   : Bool
deriving DecidableEq, Repr

/-- A staging copy of a page (R66, R72). -/
structure Copy where
  frame  : Nat
  dirty  : Bool
  pinned : Bool
  order  : Nat
deriving DecidableEq, Repr

/-- The frame-map entry of a store page (R66): a page not listed is absent. -/
structure Page where
  n    : Nat
  home : Option Nat
  copy : Option Copy
deriving DecidableEq, Repr

/-- The open write lap of an extent (R132, R133). -/
structure WLap where
  rider    : BitVec 6
  num      : BitVec 32
  reserved : Nat
  shadows  : List (Nat × Nat)
  closed   : Bool
deriving DecidableEq, Repr

/-- A committed lap older than the latest, with the page versions it does not share with the latest
(`none`: the page was absent) (R130, R135). -/
structure OldLap where
  num   : BitVec 32
  pages : List (Nat × Option Nat)
deriving DecidableEq, Repr

/-- The state of an extent (R27, R41, R125, R128 to R135). `mirrorOf` names the twin's extent whose mirror copy
this is (R278). -/
structure Extent where
  idx      : Nat
  mirrorOf : Option Nat
  live     : Bool
  fenced   : Bool
  unlisted : Nat
  latest   : BitVec 32
  wlap     : Option WLap
  reads    : List (BitVec 6 × BitVec 32)
  holds    : List (Nat × BitVec 32)
  old      : List OldLap
deriving DecidableEq, Repr

/-- A stage mark (R141). -/
structure Mark where
  rider : BitVec 6
  surr  : Bool
  tag   : BitVec 32
  laps  : List (Nat × BitVec 32)
deriving DecidableEq, Repr

/-- A loss-list entry (R125). -/
structure Loss where
  line  : Nat
  seq   : Nat
  agent : BitVec 10
  cause : BitVec 16
deriving DecidableEq, Repr

/-- A rider's loss list (R125). -/
structure LossList where
  rider : BitVec 6
  next  : Nat
  ents  : List Loss
deriving DecidableEq, Repr

/-- A schedule entry of R84. -/
structure SchedEntry where
  firstPage : Nat
  pageCount : Nat
  trigValue : Nat
  relValue  : Nat
  passStep  : Nat
  trigRef   : Nat
  relSync   : Nat
  ready     : Option Nat
  trigger   : Nat
deriving DecidableEq, Repr

/-- A started entry of a pass: what it has copied, whether it has completed, whether it was released (R85). -/
structure SchedRun where
  pass     : Nat
  entry    : Nat
  copies   : List Nat
  done     : Bool
  released : Bool
deriving DecidableEq, Repr

/-- An installed prefetch schedule (R83, R85). -/
structure Sched where
  loop    : Bool
  entries : List SchedEntry
  started : Nat
  runs    : List SchedRun
deriving DecidableEq, Repr

/-- A placement object (R70). -/
structure Obj where
  base       : Nat
  pages      : Nat
  policy     : BitVec 8
  fmtGear    : BitVec 8
  priority   : BitVec 8
  stagePages : Nat
  stageTier  : Tier
  rider      : BitVec 6
  pins       : List Nat
  sched      : Option Sched
deriving DecidableEq, Repr

/-- Why a page is moved, read from or programmed to flash (R74, R78, R80, R425). -/
inductive MoveWhy where
  | place
  | pin
  | evict
  | demand
  | fill (base pass entry : Nat)
  | direct
deriving DecidableEq, Repr

/-- A tier move in progress between HBM and LPDDR (R74). -/
structure Move where
  id      : Nat
  page    : Nat
  src     : Nat
  dst     : Nat
  done    : List (Fin 16)
  staging : Bool
  why     : MoveWhy
deriving DecidableEq, Repr

/-- A flash read in progress (R78, R91, R425). -/
structure FlashRead where
  id      : Nat
  page    : Nat
  /-- the flash frame that is read -/
  src     : Nat
  /-- the frame it is read into; none: it has no frame yet, or the data is for the accesses held (R425) -/
  dst     : Option Nat
  why     : MoveWhy
deriving DecidableEq, Repr

/-- A flash program (R75, R90, R93): one that is held has not begun. -/
structure FlashProg where
  id       : Nat
  page     : Nat
  src      : Nat
  dst      : Nat
  restarts : Nat
  /-- a store landed on the page since it began -/
  stored   : Bool
  held     : Bool
  drop     : Bool
  why      : MoveWhy
deriving DecidableEq, Repr

/-- What a flash access of a page without a copy left for the accesses that waited for it (R81, R425). -/
inductive DirectEnd where
  | read
  | programmed
  | uncorrectable
  | fenced
deriving DecidableEq, Repr

/-- The end of a flash access: the frame, and the accesses it serves: home transactions, or one operation that writes the
whole page. -/
structure Direct where
  frame : Nat
  stage : DirectEnd
  held  : List Nat
  whole : Option (BitVec 32)
deriving DecidableEq, Repr

/-- A command that waits for the moves and programs it ordered (R73, R76, R79, R80): `failed` is the lowest page that failed. -/
structure TierCmd where
  cmd     : Open
  first   : Nat
  count   : Nat
  pending : List Nat
  status  : Status
  failed  : Nat
deriving DecidableEq, Repr

/-- A flash cluster (R98, R99). -/
structure Cluster where
  state     : BitVec 4
  /-- 64 KiB programs since manufacture, which `LIFE_USED` reports against the rating (R97) -/
  writes    : Nat
  spare     : BitVec 8
  retired   : BitVec 16
  scrubs    : BitVec 16
  /-- dies whose units are being rebuilt, and dies marked failed (R95) -/
  rebuilds  : List Nat
  failed    : List Nat
  /-- units queued for relocation (R94) -/
  relocs    : Nat
  /-- the retired-block list, the wear counts and the read-disturb counts, by die and block, which the journal keeps (R90) -/
  bad       : List (Nat × Nat)
  wear      : List ((Nat × Nat) × Nat)
  reads     : List ((Nat × Nat) × Nat)
  /-- blocks that have needed step 2 of R91 and are not retired (R95) -/
  soft      : List (Nat × Nat)
deriving DecidableEq, Repr

/-- The store of the module. -/
structure Store where
  extents   : List Extent
  frames    : List Frame
  nextFrame : Nat
  nextCh    : Bool
  pages     : List Page
  mem       : List Host.Cell
  bad       : List Nat
  /-- code words that an armed injection altered within what their code corrects (R344) -/
  soft      : List Nat
  /-- flash accesses that have ended and serve the accesses that waited for them -/
  direct    : List Direct
  /-- where the units of a flash frame lie (R89) -/
  units     : List (Nat × List FlashUnit)
  objects   : List Obj
  marks     : List Mark
  moves     : List Move
  reads     : List FlashRead
  progs     : List FlashProg
  tierCmds  : List TierCmd
  nextMove  : Nat
  nextCopy  : Nat
  /-- frames that a move left, kept until no `UNMAP_RANGE` covers their page (R60, R74): page and frame -/
  lateFree  : List (Nat × Nat)
deriving DecidableEq, Repr

/-! ### Translation (chapter 3) -/

/-- A TLB entry: one page or one whole run (R51, R55). -/
structure TlbEnt where
  wheel : Nat
  rider : BitVec 6
  va    : Nat
  size  : Nat
  opa   : Nat
  r     : Bool
  w     : Bool
deriving DecidableEq, Repr

/-- A walk-cache entry (R54): the next-level table of an address range of one level. -/
structure WalkEnt where
  wheel : Nat
  rider : BitVec 6
  level : Nat
  va    : Nat
  next  : Nat
deriving DecidableEq, Repr

/-- A memory access of a tile context that left the tile (R168, R172). -/
inductive AccKind where
  | load (size : Nat) (sd : BitVec 5) (cached : Bool)
  | store (data : List Byte) (flagged : Bool)
  | atom (op : AtomOp) (sd : BitVec 5)
deriving DecidableEq, Repr

/-- An access of a context, with the program counter it was issued at. -/
structure Access where
  tile : BitVec 10
  ctx  : BitVec 4
  pc   : Nat
  va   : Word
  kind : AccKind
  /-- made after a close step: it is held (R36, R283, R321) -/
  late : Bool
  /-- its translation has completed in its client's order (R55) -/
  done : Bool
deriving DecidableEq, Repr

/-- What a finished walk found, kept until its turn in its client's queue (R55). -/
inductive WalkOut where
  | leaf (e : Word) (lvl : Nat)
  | fault (reason lvl : Nat)
deriving DecidableEq, Repr

/-- A translation in its client's miss queue (R54, R55): the level it reads next and the table it reads from. -/
structure Walk where
  id     : Nat
  client : XClient
  rider  : BitVec 6
  va     : Word
  write  : Bool
  level  : Nat
  table  : Nat
  acc    : Option Access
  /-- a hit that waits behind an outstanding miss of its client: it needs no walker -/
  hit    : Bool
  /-- it holds one of the wheel's 32 walkers -/
  active : Bool
  /-- an invalidation over its address was accepted: it starts again from the root (R59 step 4) -/
  again  : Bool
  out    : Option WalkOut
deriving DecidableEq, Repr

/-- An `UNMAP_RANGE` or a whole-space invalidation in progress (R48, R58, R59). -/
structure Unmap where
  id       : Nat
  cmd      : Open
  rider    : BitVec 6
  base     : Nat
  len      : Nat
  waiting  : List EngineRef
  status   : Status
  result   : Word
  newRoot  : Option (Option Nat)
  /-- its leaf writes have not been made yet (R59 step 2) -/
  writing  : Bool
  /-- store pages behind the range: first page and count (R60) -/
  frozen   : List (Nat × Nat)
deriving DecidableEq, Repr

/-- The translation units (chapter 3). -/
structure Xlat where
  roots   : List (BitVec 6 × Nat)
  /-- the micro-TLBs, by client; the list order is the order of filling -/
  micro   : List (XClient × TlbEnt)
  /-- the shared TLBs -/
  tlb     : List TlbEnt
  wcache  : List WalkEnt
  walks   : List Walk
  /-- per wheel, the client that was given a walker last (R55) -/
  turn    : List (Nat × XClient)
  unmaps  : List Unmap
  nextId  : Nat
  faults  : List (BitVec 24)
deriving DecidableEq, Repr

/-! ### Coherence (chapter 6) -/

/-- Directory states of R110; a line without an entry is in I. -/
inductive DirSt where
  | p (agents : List (BitVec 10))
  | v (groups : List (BitVec 6))
  | xr (a : BitVec 10)
  | xw (a : BitVec 10)
deriving DecidableEq, Repr

/-- A directory entry; the list order of a home's entries is the order of use (R109). -/
structure DirEnt where
  line : Nat
  st   : DirSt
  /-- what its holders wrote belongs to a write lap that was abandoned (R138) -/
  dead : Bool
deriving DecidableEq, Repr

/-- Where a transaction stands (R106, R116). -/
inductive TrkPhase where
  /-- waits for snoop responses -/
  | snoop
  /-- `MEM_RD`, `MEM_WR` or `MEM_ATOM` sent, not yet received by the controller -/
  | memSent
  /-- the controller has done it; its return has not reached the home -/
  | memBack
  /-- a grant waits for its `CMP_ACK` -/
  | grant
  /-- a stash offer waits for its answer -/
  | stash
  /-- waits for the line: a conflicting transaction, or an agent-loss scan -/
  | wait
  /-- an engine's access stands at the front of its line's order: the engine's next attempt makes it -/
  | ready
  /-- an engine's write is in memory here; the twin's copy of it has not landed (R148) -/
  | mirror
deriving DecidableEq, Repr

/-- The home-order operation of a transaction (R106). -/
inductive MemOp where
  | rd
  | wr
  | atom
deriving DecidableEq, Repr

/-- The access of an engine of this module by which its transaction is known: its source (R329), its virtual address and
the store offset. -/
structure EngKey where
  source : BitVec 32
  va     : Word
  off    : Nat
deriving DecidableEq, Repr

/-- The lap a request reads or writes (R131). -/
inductive View where
  | latest
  | wlap
  | lap (n : BitVec 32)
deriving DecidableEq, Repr

/-- What a home transaction is for: a request, a recall made for the home itself (R113), or an access of an engine of this
module that could not be made at once (R102, R105); `full` says that it writes the whole line. -/
inductive TrkWhat where
  | req (r : Req) (k : ReqKind)
  | recall
  | eng (k : EngKey) (write full : Bool)
deriving DecidableEq, Repr

/-- Where a transaction stands to its rider's write lap (R137, R138). -/
inductive LapTag where
  /-- decided when it reaches the front of its line's order -/
  | front
  /-- accepted in a write lap that accepted writes -/
  | entered
  /-- accepted in a write lap that has been abandoned since -/
  | dead
deriving DecidableEq, Repr

/-- A transaction in a line-request tracker (R105). -/
structure Trk where
  id      : Nat
  line    : Nat
  rider   : BitVec 6
  what    : TrkWhat
  phase   : TrkPhase
  mem     : MemOp
  snoops  : List (BitVec 10)
  /-- dirty data a snooped agent returned, not yet in memory -/
  fwd     : Option (BitVec 10 × List Byte)
  /-- the snooped agent kept S -/
  keptS   : Option (BitVec 10)
  /-- data or old value read at the controller, and the status of the home-order operation -/
  data    : List Byte
  status  : Status
  /-- the atomic runs at the home unit, after a recall (R116) -/
  atHome  : Bool
  missed  : Bool
  /-- its write went to the twin, whose copy is awaited (R148, R281) -/
  mirror  : Bool
  /-- its extent was live when the home accepted it (R42) -/
  live    : Bool
  /-- the lap it acts on, fixed at the front of the line's order (R131) -/
  view    : Option View
  lap     : LapTag
deriving DecidableEq, Repr

/-- An agent-loss scan (R124). -/
structure Scan where
  agent : BitVec 10
  cause : BitVec 16
  rider : BitVec 6
deriving DecidableEq, Repr

/-- The homes of the module. -/
structure Coh where
  timeouts : List (BitVec 16)
  trackers : List (BitVec 8)
  dir      : List DirEnt
  recalls  : List (BitVec 24)
  trks     : List Trk
  nextTrk  : Nat
  lost     : List (BitVec 10 × BitVec 16)
  scans    : List Scan
  losses   : List LossList
deriving DecidableEq, Repr

/-! ### Sync objects (R192, R193, R305) -/

/-- Who waits on a sync object. -/
inductive Waiter where
  | ctx (t : BitVec 10) (c : BitVec 4)
  | cmd (o : Open)
deriving DecidableEq, Repr

/-- A registered wait. -/
structure Wait where
  who   : Waiter
  obj   : BitVec 14
  eq    : Bool
  value : Word
  /-- microseconds, 0 for no limit -/
  limit : Word
deriving DecidableEq, Repr

/-- The sync banks: values not listed are zero. -/
structure Sync where
  vals  : List (Nat × Word)
  waits : List Wait
deriving DecidableEq, Repr

/-! ### Tiles (chapter 9) -/

/-- A loaded program (R165). -/
structure Prog where
  rider     : BitVec 6
  bundles   : Nat
  /-- the instruction memory, two words for a bundle (R165, R170) -/
  code      : List Word
  configs   : List (List Word)
  streams   : Nat
  entry     : List (BitVec 16)
  accOwner  : List (BitVec 4)
  xaOwner   : List (BitVec 4)
  faultSync : BitVec 16
deriving DecidableEq, Repr

/-- The context states of R167. -/
inductive CtxSt where
  | idle
  | ready
  | running
  | blocked
  | halted
  | faulted
deriving DecidableEq, Repr

/-- What a blocked context waits for (R169). -/
inductive Block where
  | none
  | access (a : Access) (remote : Bool)
  | storeQueue
  | fence
  | sync (obj : BitVec 14) (base len : Nat) (limit : Nat) (sd : BitVec 5)
  | stream (n : BitVec 5) (restart : Option (BitVec 5))
deriving DecidableEq, Repr

/-- A store of a context that has not been acknowledged (R169). -/
structure StoreEnt where
  /-- issue order within the context -/
  seq     : Nat
  data    : List Byte
  va      : Word
  opa     : Word
  pc      : Nat
  remote  : Bool
  flagged : Bool
  /-- translated, and sent where it goes to another module -/
  ready   : Bool
  /-- issued after a close step: it is held (R36, R283, R321) -/
  late    : Bool
deriving DecidableEq, Repr

/-- A signal of a context not yet applied (R156, R193). -/
structure Signal where
  seq   : Nat
  obj   : BitVec 14
  add   : Bool
  value : Word
  pc    : Nat
deriving DecidableEq, Repr

/-- A store of a context that was refused (R152): its place in issue order, its status, the module it was for where that is
known, and the modules to which a flagged store has reported it since. Modules are numbered peloton × 256 + module. -/
structure Refused where
  seq    : Nat
  status : Status
  dst    : Option Nat
  told   : List Nat
deriving DecidableEq, Repr

/-- A context (R162, R167). -/
structure Ctx where
  st     : CtxSt
  pc     : Nat
  s      : List Word
  v      : List (Nat × BitVec 32)
  loop   : Word
  turn   : Bool
  jump   : Option Nat
  block  : Block
  stores : List StoreEnt
  sigs   : List Signal
  /-- the stores refused since the last fence, in issue order (R152) -/
  refused : List Refused
  nextSeq : Nat
  /-- the operations of the next bundle that have been given, until every slot that holds one has (R170) -/
  bundle : List Instr
  /-- a line that its load brings from another module is no longer to be kept (R154, R155) -/
  noFill : Bool
  /-- register results of the bundle being issued, written when it ends (R170) -/
  ws     : List (BitVec 5 × Word)
  wv     : List (BitVec 5 × List (BitVec 32))
  /-- its bundle is being issued -/
  mid    : Bool
  /-- the state the context takes when its bundle ends: idle after `HALT`, faulted when one of its operations failed -/
  ends   : Option CtxSt
  /-- program counter of the bundle that blocked it -/
  bpc    : Nat
deriving DecidableEq, Repr

/-- An exact accumulator (R117, R190): `sum` is the 320-bit two's complement integer. -/
structure Acc where
  sum   : BitVec 320
  count : BitVec 64
  ovf   : Bool
  nan   : Bool
  ninf  : Bool
  pinf  : Bool
deriving DecidableEq, Repr

/-- The tag of a pannier region (R179): `stream = none` when the tile wrote it last. -/
structure PTag where
  region : Nat
  stream : Option (BitVec 5)
  off    : Nat
deriving DecidableEq, Repr

/-- A line of the operand cache, tagged by virtual address (R154, R180). -/
structure CLine where
  va   : Nat
  data : List Byte
deriving DecidableEq, Repr

/-- A stream (R174 to R176). -/
structure Stream where
  n        : BitVec 5
  ctx      : BitVec 4
  va       : Word
  pannier  : Nat
  rowBytes : Nat
  rows     : Nat
  stride   : Int
  doneSync : BitVec 16
  toStore  : Bool
  next     : Nat
  /-- the next beat has gone to another module -/
  sent     : Bool
  running  : Bool
  stopping : Bool
  /-- the next beat belongs after a close step: it is held (R36, R283, R321) -/
  late     : Bool
  status   : Status
deriving DecidableEq, Repr

/-- A queued `MMA` (R182, R184). -/
structure MmaOp where
  ctx : BitVec 4
  t   : BitVec 5
  d0  : Word
  d1  : Word
  pc  : Nat
deriving DecidableEq, Repr

/-- A tile (R162). -/
structure Tile where
  id      : BitVec 10
  prog    : Option Prog
  ctxs    : List Ctx
  acc     : List (Nat × BitVec 32)
  xa      : List (Nat × Acc)
  pannier : List Host.Cell
  ptags   : List PTag
  cache   : List CLine
  streams : List Stream
  mmaq    : List MmaOp
  stall   : BitVec 32
  bank    : BitVec 16
  faults  : BitVec 16
deriving DecidableEq, Repr

/-! ### Engines (chapters 12, 13; R306) -/

/-- What an engine operation does. -/
inductive OpKind where
  | fill (pattern : Word)
  | copy
  | compare
  | reduce (op : BitVec 8) (srcFg outFg kind : BitVec 8) (srcs : List Word)
  | bulkWrite (data : List Byte)
  | bulkRead
deriving DecidableEq, Repr

/-- A near-memory or bulk operation in progress (R249, R250, R306). -/
structure EngOp where
  id       : Nat
  cmd      : Open
  rider    : BitVec 6
  virt     : Option (BitVec 13)
  kind     : OpKind
  dst      : Word
  src      : Word
  len      : Nat
  /-- bytes of the destination and of each source (R59) -/
  dstLen   : Nat
  srcLen   : Nat
  doneSync : BitVec 16
  next     : Nat
  /-- the next beat has gone to another module -/
  sent     : Bool
  stopped  : Bool
  /-- started after a close step: its requests are held (R36, R283) -/
  late     : Bool
  missAt   : Option Nat
  missN    : Nat
  readData : List Byte
  /-- operand data of the beat in progress, and how many of its operands it holds -/
  buf      : List Byte
  got      : Nat
  /-- bytes of the beat's result that have been written or sent -/
  put      : Nat
  /-- a beat has failed: its status and address, until the stores sent are acknowledged (R157) -/
  fault    : Option (Status × Word)
  epoch    : BitVec 32
deriving DecidableEq, Repr

/-- A segment entry of R218. -/
structure EmbSeg where
  base      : Nat
  stateBase : Nat
  rows      : Nat
deriving DecidableEq, Repr

/-- A member entry of R218. -/
structure EmbMember where
  firstRow : Nat
  rowCount : Nat
  module   : BitVec 8
  segs     : List EmbSeg
deriving DecidableEq, Repr

/-- An installed table definition (R217, R220) and the last update's BATCH_ID (R236). -/
structure EmbTable where
  /-- defined by a surrogate for the twin (R291) -/
  surr    : Bool
  rider   : BitVec 6
  table   : BitVec 8
  fmtGear : BitVec 8
  dim     : Nat
  stride  : Nat
  state   : Bool
  rows    : Nat
  defTag  : BitVec 32
  members : List EmbMember
  lastUpd : Option (BitVec 32)
deriving DecidableEq, Repr

/-- A run of row requests that arrived from a member (R227). -/
structure EmbRun where
  from_    : Nat
  defTag   : BitVec 32
  rows     : List Nat
  contribs : List Contribution
  done     : Bool
deriving DecidableEq, Repr

/-- A fault of a batch: its status and store offset (R230, R231). -/
structure EmbFault where
  status : Status
  off    : Word
deriving DecidableEq, Repr

/-- A batch in progress on this member (R221 to R236). -/
structure EmbBatch where
  key      : BatchKey
  cmd      : Open
  surr     : Bool
  /-- MODE, or RULE of an update -/
  mode     : BitVec 8
  /-- OUT_FORMAT_GEAR, or GRAD_MODE of an update -/
  outFg    : BitVec 8
  weighted : Bool
  indexN   : Nat
  samples  : Nat
  idxVa    : Word
  wgtVa    : Word
  bagVa    : Word
  /-- OUT_VA, or GRAD_VA of an update -/
  dataVa   : Word
  spillVa  : Word
  spill    : Nat
  lr       : BitVec 32
  eps      : BitVec 32
  opId     : Nat
  /-- the share has been read, sorted and its requests sent (R226) -/
  loaded   : Bool
  /-- non-null valid positions of the share: position, row, weight -/
  valid    : List (Nat × Nat × BitVec 32)
  bags     : List Nat
  /-- offending positions: position, missing -/
  badPos   : List (Nat × Bool)
  runs     : List EmbRun
  served   : Bool
  /-- rows received -/
  rows     : List EmbRow
  /-- members whose replies came under another `DEF_TAG` (R221) -/
  odd      : List Nat
  /-- partials received: member, sample (look-up) or row (update), values -/
  partials : List (Nat × Nat × List (BitVec 32))
  said     : Bool
  verdicts : List (Nat × EmbFault)
  own      : EmbFault
  /-- every verdict is clean and the writes are known -/
  ready    : Bool
  /-- writes still to make: address (look-up) or store offset (update), data -/
  todo     : List (Nat × List Byte)
  /-- rows of an update not yet begun -/
  left     : List Nat
  /-- what the row being written held before: it is put back when a write of it fails (R236) -/
  undo     : List (Nat × List Byte)
  /-- started after a close step: its requests are held (R36, R283) -/
  late     : Bool
deriving DecidableEq, Repr

/-- What another member sent before the local command started (R221). -/
structure EmbEarly where
  key    : BatchKey
  defTag : BitVec 32
  runs   : List EmbRun
  parts  : List (Nat × Nat × List (BitVec 32))
deriving DecidableEq, Repr

/-- The engines of the Chainrings. -/
structure Engines where
  ops       : List EngOp
  nextOp    : Nat
  tables    : List EmbTable
  batches   : List EmbBatch
  early     : List EmbEarly
  spillRuns : List (BitVec 16)
  coalesced : List (BitVec 32)
  failed    : List (BitVec 16)
  mib       : List (BitVec 32)
  written   : List Nat
deriving DecidableEq, Repr

/-! ### Fabric (chapter 14) -/

/-- The link state of a port (R257, R272). -/
structure FPort where
  mode       : BitVec 4
  wide       : Bool
  gateway    : Bool
  up         : Bool
  down       : Bool
  retraining : Bool
  lds        : BitVec 8
  width      : Nat
  /-- replays that the flit which failed last has failed -/
  replayRun  : Nat
  retrains   : BitVec 16
  replays    : BitVec 16
  dups       : BitVec 16
deriving DecidableEq, Repr

/-- A receive window (R259): numbers are kept as 32-bit sequence numbers. -/
structure Window where
  source  : Sender
  /-- a window of the expelled twin, for stores that name it (R290) -/
  surr    : Bool
  base    : BitVec 32
  marked  : List (BitVec 32)
  refused : List (BitVec 32 × Status)
  flagged : List (StorePkt × Fin 24)
  dropped : Bool
deriving DecidableEq, Repr

/-- An unacknowledged store of a sender, with the port it went out on (R258, R262). -/
structure Unacked where
  pkt  : StorePkt
  port : Option (Fin 24)
  done : Option (BitVec 10 × BitVec 4 × Nat)
deriving DecidableEq, Repr

/-- What a load to another module is for: a context, a stream's beat, an engine operation's beat. -/
inductive LoadBy where
  | ctx (tile : BitVec 10) (ctx : BitVec 4)
  | stream (tile : BitVec 10) (n : BitVec 5)
  | op (id : Nat)
deriving DecidableEq, Repr

/-- A load to another module whose data has not returned (R262); to another peloton, of the block `opa` (R265). -/
structure RLoad where
  txn     : BitVec 32
  peloton : BitVec 8
  rider   : BitVec 6
  dst     : BitVec 6
  opa     : Word
  port    : Option (Fin 24)
  by_     : LoadBy
deriving DecidableEq, Repr

/-- A send channel (R258, R263). `cover` is the next flagged store's COVER_FROM. -/
structure Chan where
  source  : BitVec 24
  peloton : BitVec 8
  dst     : BitVec 6
  next    : BitVec 32
  cover   : BitVec 32
  unacked : List Unacked
  closed  : Bool
  fenced  : Bool
  discard : Bool
deriving DecidableEq, Repr

/-- A gateway frame being filled (R265). -/
structure GFrame where
  peloton : BitVec 8
  dst     : BitVec 6
  bytes   : Nat
  records : List StorePkt
deriving DecidableEq, Repr

/-- A 4 KiB block read waiting at a gateway (R265): the contexts it serves. -/
structure GBlock where
  block   : Word
  txn     : BitVec 32
  rider   : BitVec 6
  port    : Option (Fin 24)
  waiting : List Access
deriving DecidableEq, Repr

/-- A CXL event record (R267): handle, port, LD, store offset, status. -/
structure CxlEvent where
  handle : BitVec 16
  port   : Fin 24
  ld     : BitVec 4
  off    : Word
  status : Status
deriving DecidableEq, Repr

/-- The fabric of the module. -/
structure Fabric where
  e2e      : BitVec 16
  frameAge : BitVec 8
  ports    : List FPort
  rx       : List Window
  /-- the last state of the windows that have been closed (R264; notes/assumptions/130.md) -/
  past     : List Window
  tx       : List Chan
  loads    : List RLoad
  nextTxn  : BitVec 32
  gframes  : List GFrame
  gblocks  : List GBlock
  events   : List CxlEvent
  nextEvt  : BitVec 16
deriving DecidableEq, Repr

/-! ### Twin and quorum (chapter 15) -/

/-- A commit-log entry on the twin (R282). -/
structure LogEnt where
  extents : List (Nat × BitVec 32)
deriving DecidableEq, Repr

/-- The pair (R276). -/
structure Pair where
  st       : BitVec 4
  surr     : Bool
  twin     : BitVec 8
  /-- twin-link lanes up, by their number (R15) -/
  lanes    : BitVec 32
  resync   : List Nat
  unsynced : List Nat
  peerLeft : Bool
  nonce    : List Byte
  cmd      : Option Open
  clog     : List LogEnt
  marks    : List (Sender × BitVec 32 × BitVec 32)
  /-- pages written to the mirror channel since the last tick (R281) -/
  inFlight : List Nat
  /-- the metadata last sent, and last received from the partner (R278) -/
  told     : Option MirMsg
  metas    : List ExtMeta
deriving DecidableEq, Repr

/-- Operations of the Headset that wait for others to end (R42, R137, R316, R321). -/
inductive Job where
  | revoke (cmd : Open) (exts : List Nat) (scrub : Bool)
  | commit (cmd : Open) (rider : BitVec 6) (exts : List (Nat × BitVec 32)) (step : Nat) (prepared : Bool)
  | rollback (cmd : Open) (rider : BitVec 6) (exts : List (Nat × BitVec 32)) (step : Nat) (prepared : Bool)
  | destroy (cmd : Open) (q : BitVec 13)
  | reset (cmd : Open) (rider : BitVec 6)
  | stop (cmd : Open) (tiles : List (BitVec 10)) (mask : BitVec 16) (unload : Bool)
  /-- a command whose own chapter makes it wait: tried again when what it waits for may have ended -/
  | rerun (c : HeldCmd)
deriving DecidableEq, Repr

/-! ### Boot flash, firmware, identity (chapter 18) -/

/-- The bounds of `POWER_POLICY` (R381). -/
structure Policy where
  flags    : BitVec 8
  ceilW    : Nat
  floorMhz : Nat
  ceilMhz  : Nat
  brakeW   : Nat
  width    : BitVec 8
  tempOff  : Nat
  coastUs  : Nat
deriving DecidableEq, Repr

/-- The configuration block in force (R361): its settings, and what its signature is checked by at a boot. -/
structure ConfigBlock where
  policy  : Policy
  seq     : BitVec 32
  signer  : BitVec 8
  digest  : BitVec 256
  sig     : List Byte
  /-- the block written at manufacture, which Balnel signed -/
  factory : Bool
deriving DecidableEq, Repr

/-- A measurement entry of R364. -/
structure Measure where
  component : BitVec 16
  core      : BitVec 8
  svn       : BitVec 32
  version   : Word
  digest    : BitVec 256
deriving DecidableEq, Repr

/-- The contents of an image slot or of the configuration staging area (R348): the factory image, whose bytes the
spec does not give, or bytes written by `FW_STAGE`, erased bytes reading zero. -/
structure Slot where
  factory : Bool
  cells   : List Host.Cell
deriving DecidableEq, Repr

/-- What the boot flash and the odometer keep through every reset (R287, R348, R349, R345, R424). -/
structure Nv where
  bootCount   : BitVec 32
  rollbackSvn : BitVec 32
  configSeq   : BitVec 32
  setSeq      : BitVec 32
  lastOrder   : BitVec 32
  keys        : List (Nat × List Byte)
  k           : BitVec 4
  members     : List Word
  activeSlot  : Bool
  trial       : Bool
  trialBoots  : BitVec 8
  slotA       : Slot
  slotB       : Slot
  staging     : Slot
  config      : Option ConfigBlock
  kept        : Option Kept
  odometer    : Log
  /-- ring positions written since manufacture, and those among them whose write failed (R345) -/
  odoPos      : Nat
  odoBad      : List Nat
  /-- the slot of an activation that the failure of both Headsets cut (R360) -/
  aborted     : Option Bool
deriving DecidableEq, Repr

/-- A firmware activation (R357 to R360). `step`: 0 none, 1 standby, 2 wheel and flash (`cores` done), 3 primary (`cores` done). -/
structure Act where
  st      : BitVec 4
  slot    : Bool
  prior   : Bool
  step    : Nat
  cores   : Nat
  cmd     : Option Open
  revert  : Bool
  waiting : Bool
  /-- the acting primary already runs the new image: the primary step is skipped (R360) -/
  skip    : Bool
  /-- when it began -/
  since   : Word
deriving DecidableEq, Repr

/-- Firmware and identity state of the running module. -/
structure Fw where
  identity   : Bool
  failedOver : Bool
  standby    : Bool
  act        : Act
  logL       : BitVec 256
  entries    : List Measure
  total      : Nat
  /-- the log digest before the first of `entries` (R364, `LOG_BASE`) -/
  logBase    : BitVec 256
  recBytes   : List Byte
  wdog       : List (FwCore × Word)
deriving DecidableEq, Repr

/-! ### Errors (chapter 17) -/

/-- An armed injection (R343, R344). -/
structure Inj where
  id       : Nat
  point    : BitVec 16
  unit     : BitVec 16
  mode     : BitVec 8
  left     : Nat
  target   : Word
deriving DecidableEq, Repr

/-- An unfence check that runs (R338). -/
structure Check where
  unit : BitVec 16
  cmd  : Open
deriving DecidableEq, Repr

/-- Error state of the module. -/
structure Errs where
  log       : Log
  faults    : List (BitVec 6 × Log)
  fences    : List (BitVec 16)
  mgmt      : List (BitVec 16)
  checks    : List Check
  inj       : List Inj
  nextInj   : Nat
  /-- the last accepted `AUTH_SEQ` since cold boot (R343) -/
  injSeq    : Option (BitVec 32)
  corrected : BitVec 32
  /-- per unit: time of its last TYPE 0x0001 record, corrected errors since (R333) -/
  corr      : List (BitVec 16 × Word × Nat)
  /-- uncorrectable code words met: unit, code word, time (R335, trigger 0x05) -/
  uncorr    : List (BitVec 16 × Nat × Word)
  /-- records the log writer is behind, and those it dropped since its last TYPE 0x0016 record (R333) -/
  behind    : Nat
  dropped   : Nat
deriving DecidableEq, Repr

/-! ### Power and time (chapter 19) -/

/-- The power states of R374. -/
inductive PState where
  | freewheel
  | coast
  | cruise
  | sprint
  | brake
  | kickstand
deriving DecidableEq, Repr

/-- The power state of the module. -/
structure Power where
  st       : PState
  policy   : Policy
  causes   : List BrakeCause
  /-- a temperature holds a tile clock below the floor (R380) -/
  slow     : Bool
  kick     : BitVec 4
  hold     : Bool
  mhz      : List Nat
  wakeMs   : Nat
  hot      : List (Fin 104)
  halfNand : List (Fin 4)
  stopNand : List (Fin 4)
  overV    : Bool
  /-- a temperature shutdown: the converters restart only after the input has been below 41.0 V (R416) -/
  hotStop  : Bool
  /-- when an emergency began last (R359, R378) -/
  emergAt  : Option Word
  tdWidth  : List Nat
  vinMv    : Nat
  iinMa    : Nat
  pinW     : Nat
  temps    : List (BitVec 16)
deriving DecidableEq, Repr

/-- The cadence counter and its alignment (R391 to R394). -/
structure Time where
  cadence  : Word
  locked   : Bool
  lost     : Bool
  error    : BitVec 32
  expected : Option Word
  good     : Nat
  lastEdge : Option Word
  /-- correction in ns per second, its fraction so far, the ns still to be corrected, and the rate of the last second -/
  slew     : Int
  frac     : Int
  owe      : Option Nat
  rate     : Int
  waiting  : List (Open × Word)
  setBack  : Bool
deriving DecidableEq, Repr

/-! ### Sideband, JTAG, pins (chapter 20) -/

/-- JTAG instructions of R412. -/
inductive JInstr where
  | bypass
  | idcode
  | samplePreload
  | extest
  | extestPulse
  | extestTrain
  | clamp
  | highz
deriving DecidableEq, Repr

/-- Sideband bridge, straps and JTAG. -/
structure Side where
  eid      : BitVec 8
  dynAddr  : Option (BitVec 7)
  ibi      : Bool
  ibiSent  : Nat
  pins     : StrapPins
  sampled  : StrapPins
  aux      : Bool
  resetLow : Bool
  pwrGood  : Bool
  alert    : BitVec 6
  jtag     : List JInstr
deriving DecidableEq, Repr

/-- Where the package stands between power and running firmware (R353, R403, R410). -/
inductive Phase where
  /-- converters not in regulation -/
  | off
  /-- `PWR_GOOD` high, `RESET_N` low -/
  | inReset
  /-- boot time 0: reset released, ROM about to run -/
  | released
  | running
  /-- the ROM waits for a recovery image -/
  | recoveryRom
  /-- the recovery image runs -/
  | recoveryImage
  /-- both Headsets failed -/
  | stopped
deriving DecidableEq, Repr

/-- Facts about the module that its own state does not decide: which signatures verify, the ROM's key digest, the
device fingerprint (notes/assumptions/3.md). -/
structure Env where
  sigs      : List (List Byte × BitVec 256 × List Byte)
  romDigest : BitVec 256
  fp        : Word
deriving DecidableEq, Repr

/-- The state of the block. -/
structure State where
  /-- commands that wait, first in, first out -/
  pending : List Instr
  variant : Variant
  phase   : Phase
  cause   : BitVec 32
  env     : Env
  freeIdx : Nat
  port    : Port
  comp    : Option Comp
  /-- `ISSUED_AT` of the records, orders and key sets accepted since reset (R30, R285, R366) -/
  issued  : List Issued
  compose : ComposeSt
  drain   : Drain
  ever    : Bool
  held    : List Held
  nextHeld : Nat
  trip    : Trip
  prevTrip : Option Trip
  reportSeq : Nat
  queues  : List Queue
  rota    : Rotation
  rings   : List Ring
  late    : List LateWrite
  bells   : List Bell
  jobs    : List Job
  resets  : List (BitVec 6)
  store   : Store
  flash   : List Cluster
  xlat    : Xlat
  coh     : Coh
  sync    : Sync
  tiles   : List Tile
  eng     : Engines
  fab     : Fabric
  pair    : Pair
  expelled : List (BitVec 8)
  /-- an expelled module whose twin took over, with that twin (R290) -/
  redirect : List (BitVec 8 × BitVec 8)
  nv      : Nv
  fw      : Fw
  err     : Errs
  power   : Power
  time    : Time
  side    : Side
  out     : List OutMsg
deriving DecidableEq, Repr

/-! ### Reset: boot time 0 of a module as it leaves the factory (R403, R419) -/

/-- The defaults of `POWER_POLICY` (R381). -/
def Policy.default : Policy :=
  { flags := 0x02, ceilW := 2800, floorMhz := 600, ceilMhz := 2400, brakeW := 3300, width := 1, tempOff := 0,
    coastUs := 1000000 }

def ConfigBlock.factory_ : ConfigBlock :=
  { policy := Policy.default, seq := 1, signer := 0xFF, digest := 0, sig := [], factory := true }

def Log.empty : Log := { recs := [], next := 0 }

def Meter.zero : Meter := { tileLoaded := 0, tileActive := 0, rd := 0, wr := 0, fabric := 0, flash := 0 }

/-- Meters from zero under an epoch (R395). -/
def Trip.start (epoch : BitVec 32) (now : Word) (riders : List (BitVec 6)) : Trip :=
  { epoch := epoch, from_ := now, to_ := now, stateNs := List.replicate 6 0, energyNj := 0, all := Meter.zero,
    riders := riders.map fun r => (r, Meter.zero) }

def Drain.zero : Drain :=
  { done := false, forced := 0, engines := false, queues := false, tandem := 0, ports := 0 }

/-- Both Axfotik lanes up, no version negotiated (R295, R296). -/
def Port.reset : Port :=
  { version := none, lanes := [true, true], outstanding := [], tags := [], assemblies := [], replies := [],
    heldCmds := [], sbVersion := none }

def Store.reset : Store :=
  { extents := [], frames := [], nextFrame := 0, nextCh := false, pages := [], mem := [], bad := [], soft := [], direct := [], units := [], objects := [],
    marks := [], moves := [], reads := [], progs := [], tierCmds := [], nextMove := 0, nextCopy := 0,
    lateFree := [] }

/-- `SB_FTL_HEALTH` at its reset values (R98). -/
def Cluster.reset : Cluster :=
  { state := 0, writes := 0, spare := 100, retired := 0, scrubs := 0, rebuilds := [], failed := [], relocs := 0,
    bad := [], wear := [], reads := [], soft := [] }

def Xlat.reset : Xlat :=
  { roots := [], micro := [], tlb := [], wcache := [], walks := [], turn := [], unmaps := [], nextId := 0, faults := List.replicate 16 0 }

/-- `CR_COH_CTRL` at its reset values (R120); nothing cached, nothing in progress. -/
def Coh.reset : Coh :=
  { timeouts := List.replicate 16 0x0FA0, trackers := List.replicate 16 0x80, dir := [],
    recalls := List.replicate 16 0, trks := [], nextTrk := 0, lost := [], scans := [], losses := [] }

def Sync.reset : Sync := { vals := [], waits := [] }

def Engines.reset : Engines :=
  { ops := [], nextOp := 0, tables := [], batches := [], early := [], spillRuns := List.replicate 16 0,
    coalesced := List.replicate 16 0, failed := List.replicate 16 0, mib := List.replicate 16 0,
    written := List.replicate 16 0 }

/-- A fabric port that the record does not list is off (R254). -/
def FPort.off : FPort :=
  { mode := 0, wide := false, gateway := false, up := false, down := false, retraining := false, lds := 0, width := 8,
    replayRun := 0, retrains := 0, replays := 0, dups := 0 }

/-- `HS_FABRIC_CTRL` at its reset values (R271). -/
def Fabric.reset : Fabric :=
  { e2e := 0x0064, frameAge := 0x14, ports := List.replicate 24 FPort.off, rx := [], past := [], tx := [], loads := [],
    nextTxn := 0, gframes := [], gblocks := [], events := [], nextEvt := 1 }

/-- `TD_PAIR_STATUS` at its reset values (R276). -/
def Pair.reset : Pair :=
  { st := 0, surr := false, twin := 0xFF, lanes := 0, resync := [], unsynced := [], peerLeft := false, nonce := [],
    cmd := none, clog := [], marks := [], inFlight := [], told := none, metas := [] }

/-- The boot flash and the odometer as the module leaves the factory (R419; notes/assumptions/5.md, 9.md). -/
def Nv.factory : Nv :=
  { bootCount := 1, rollbackSvn := 1, configSeq := 1, setSeq := 0, lastOrder := 0, keys := [], k := 0, members := [],
    activeSlot := false, trial := false, trialBoots := 0, slotA := { factory := true, cells := [] },
    slotB := { factory := false, cells := [] }, staging := { factory := false, cells := [] },
    config := some ConfigBlock.factory_, kept := none, odometer := Log.empty,
    odoPos := 0, odoBad := [], aborted := none }

def Act.none : Act :=
  { st := 0, slot := false, prior := false, step := 0, cores := 0, cmd := .none, revert := false, waiting := false,
    skip := false, since := 0 }

def Fw.reset : Fw :=
  { identity := false, failedOver := false, standby := false, act := Act.none, logL := 0,
    entries := [], total := 0, logBase := 0, recBytes := [], wdog := [] }

def Errs.reset : Errs :=
  { log := Log.empty, faults := [], fences := [], mgmt := [], checks := [], inj := [], nextInj := 0, injSeq := none,
    corrected := 0, corr := [], uncorr := [], behind := 0, dropped := 0 }

/-- `HS_POWER_STATUS` at its reset values (R387), the policy at its defaults (R381). -/
def Power.reset : Power :=
  { st := .cruise, policy := Policy.default, causes := [], slow := false, kick := 0, hold := false,
    mhz := List.replicate 16 0, wakeMs := 0, hot := [], halfNand := [], stopNand := [],
    overV := false, hotStop := false, emergAt := none, tdWidth := List.replicate 4 8, vinMv := 0, iinMa := 0, pinW := 0,
    temps := List.replicate 104 0x8000 }

/-- `HS_TIME_STATUS` and `HS_CADENCE` at their reset values (R394). -/
def Time.reset : Time :=
  { cadence := 0, locked := false, lost := true, error := 0, expected := none, good := 0, lastEdge := none,
    slew := 0, frac := 0, owe := some 0, rate := 0, waiting := [], setBack := false }

/-- Floating straps read one (R402). -/
def StrapPins.floating : StrapPins := { recoveryN := true, addrSel := 3, slotId := 63 }

def Side.reset : Side :=
  { eid := 0, dynAddr := none, ibi := false, ibiSent := 0, pins := StrapPins.floating, sampled := StrapPins.floating,
    aux := true, resetLow := false, pwrGood := true, alert := 0, jtag := List.replicate 12 .idcode }

/-- The machine at boot time 0: reset just released, `BOOT` not yet run, nothing composed. -/
def State.reset : State :=
  { pending := [], variant := .v192, phase := .released, cause := 1,
    env := { sigs := [], romDigest := Config.romKeyDigest, fp := Config.deviceFp },
    freeIdx := 0, port := Port.reset, comp := none, issued := [], compose := .idle, drain := Drain.zero, ever := false, held := [],
    nextHeld := 0, trip := Trip.start 0 0 [], prevTrip := none, reportSeq := 0, queues := [], rota := { rider := none, left := 0, last := [] }, rings := [], late := [], bells := [], jobs := [],
    resets := [], store := Store.reset, flash := List.replicate 4 Cluster.reset, xlat := Xlat.reset, coh := Coh.reset,
    sync := Sync.reset, tiles := [], eng := Engines.reset, fab := Fabric.reset, pair := Pair.reset, expelled := [],
    redirect := [],
    nv := Nv.factory, fw := Fw.reset, err := Errs.reset, power := Power.reset, time := Time.reset, side := Side.reset,
    out := [] }

end Sys2Proof.Machine
end

