-- ==== Sys2Proof/Machine/Bytes.lean ====
section
/-! DEFINITION. Little-endian bytes (R7), list updates, the byte memory in its canonical form, and the two CRCs
(R329, R200). -/

namespace Sys2Proof.Machine

/-! ### Bytes and numbers -/

/-- The low `n` bytes of a number, lowest first (R7). -/
def leBytes : Nat → Nat → List Byte
  | 0, _ => []
  | n + 1, v => BitVec.ofNat 8 v :: leBytes n (v / 256)

/-- The number that little-endian bytes spell (R7). -/
def leNat : List Byte → Nat
  | [] => 0
  | b :: bs => b.toNat + 256 * leNat bs

/-- `n` bytes at an offset of a byte list; bytes past its end read zero. -/
def sliceB (bs : List Byte) (off n : Nat) : List Byte :=
  let t := (bs.drop off).take n
  t ++ List.replicate (n - t.length) 0

/-- The number in `n` bytes at an offset. -/
def fieldB (bs : List Byte) (off n : Nat) : Nat := leNat ((bs.drop off).take n)

/-- Whether `n` bytes at an offset are all zero. -/
def zeroB (bs : List Byte) (off n : Nat) : Bool := ((bs.drop off).take n).all (· == 0)

def zeros (n : Nat) : List Byte := List.replicate n 0

def wordBytes (w : Word) : List Byte := leBytes 8 w.toNat

def bytesWord (bs : List Byte) : Word := BitVec.ofNat 64 (leNat (bs.take 8))

/-- The bytes of parameter words. -/
def paramBytes (ps : List Word) : List Byte := ps.flatMap wordBytes

/-- 32-bit values of a byte list, in order; `n` of them. -/
def words32 : Nat → List Byte → List (BitVec 32)
  | 0, _ => []
  | n + 1, bs => BitVec.ofNat 32 (leNat (bs.take 4)) :: words32 n (bs.drop 4)

/-- 64-bit words of a byte list, in order; `n` of them. -/
def words64 : Nat → List Byte → List Word
  | 0, _ => []
  | n + 1, bs => bytesWord bs :: words64 n (bs.drop 8)

/-- A byte list cut into `n` pieces of `k` bytes. -/
def chunksB (k : Nat) : Nat → List Byte → List (List Byte)
  | 0, _ => []
  | n + 1, bs => bs.take k :: chunksB k n (bs.drop k)

/-- A signed reading of the low `n` bits. -/
def sext (n : Nat) (v : Nat) : Int :=
  let x := v % 2 ^ n
  if x < 2 ^ (n - 1) then x else (x : Int) - 2 ^ n

/-- A number held at a largest value. -/
def satN (top v : Nat) : Nat := if v < top then v else top

/-- A saturating counter of a register field (access RC). -/
def bumpSat {n : Nat} (c : BitVec n) (k : Nat) : BitVec n := BitVec.ofNat n (satN (2 ^ n - 1) (c.toNat + k))

/-! ### Lists -/

/-- Change every element that satisfies a test. -/
def updIf {α : Type} (l : List α) (p : α → Bool) (f : α → α) : List α := l.map fun x => if p x then f x else x

/-- Change element `i`. -/
def updAt {α : Type} (l : List α) (i : Nat) (f : α → α) : List α := l.mapIdx fun j x => if j == i then f x else x

/-- Remove the elements that satisfy a test. -/
def dropIf {α : Type} (l : List α) (p : α → Bool) : List α := l.filter fun x => !p x

/-- The value kept for a key. -/
def lookupK {α β : Type} [DecidableEq α] (l : List (α × β)) (k : α) : Option β := (l.find? (·.1 = k)).map (·.2)

/-- Set the value of a key, keeping its place. -/
def setK {α β : Type} [DecidableEq α] (l : List (α × β)) (k : α) (v : β) : List (α × β) :=
  if l.any (·.1 = k) then l.map (fun x => if x.1 = k then (k, v) else x) else l ++ [(k, v)]

/-- Insert before the first element with a larger key. -/
def insBy {α : Type} (k : α → Nat) (x : α) : List α → List α
  | [] => [x]
  | y :: ys => if k x ≤ k y then x :: y :: ys else y :: insBy k x ys

/-- Sort by a key, equal keys in their order. -/
def sortBy {α : Type} (k : α → Nat) (l : List α) : List α := l.foldr (insBy k) []

/-- The numbers `a, a + 1, …` (`n` of them). -/
def seqFrom (a n : Nat) : List Nat := (List.range n).map (a + ·)

/-! ### The byte memory: addresses strictly rising, no entry zero (an unlisted address reads zero, R66) -/

/-- The byte at an address. -/
def memGet (m : List Host.Cell) (a : Nat) : Byte :=
  match m.find? (·.1 == a) with
  | some c => c.2
  | none => 0

/-- `n` bytes from an address upwards. -/
def memReadN (m : List Host.Cell) (a n : Nat) : List Byte := (seqFrom a n).map (memGet m)

/-- The cells of bytes laid from an address upwards; a zero byte has no cell. -/
def cellsOf : Nat → List Byte → List Host.Cell
  | _, [] => []
  | a, b :: bs => if b = 0 then cellsOf (a + 1) bs else (a, b) :: cellsOf (a + 1) bs

/-- Replace `n` bytes from an address upwards by given cells of that range. -/
def memReplace (m : List Host.Cell) (a n : Nat) (cs : List Host.Cell) : List Host.Cell :=
  m.filter (fun c => decide (c.1 < a)) ++ cs ++ m.filter (fun c => decide (a + n ≤ c.1))

/-- Write bytes from an address upwards. -/
def memWriteN (m : List Host.Cell) (a : Nat) (bs : List Byte) : List Host.Cell :=
  memReplace m a bs.length (cellsOf a bs)

/-- The cells of a range, moved to another start. -/
def memShift (m : List Host.Cell) (src n dst : Nat) : List Host.Cell :=
  (m.filter fun c => decide (src ≤ c.1) && decide (c.1 < src + n)).map fun c => (c.1 - src + dst, c.2)

/-- Copy a range over another. -/
def memCopyN (m : List Host.Cell) (src n dst : Nat) : List Host.Cell := memReplace m dst n (memShift m src n dst)

/-- Clear a range to zero. -/
def memClear (m : List Host.Cell) (a n : Nat) : List Host.Cell := memReplace m a n []

/-- The canonical form: addresses strictly rise and no entry is zero. -/
def Memory.wf : List Host.Cell → Bool
  | [] => true
  | [c] => decide (c.2 ≠ 0)
  | c :: d :: m => decide (c.2 ≠ 0) && decide (c.1 < d.1) && Memory.wf (d :: m)

/-! ### CRCs -/

/-- One bit step of a reflected CRC with polynomial `poly`. -/
def crcBit (poly : Nat) (c : Nat) : Nat := if c % 2 == 1 then (c / 2) ^^^ poly else c / 2

/-- One byte step of the reflected CRC-32. -/
def crc32Byte (c : Nat) (b : Byte) : Nat :=
  let p := crcBit 0xEDB88320
  p (p (p (p (p (p (p (p (c ^^^ b.toNat))))))))

/-- CRC-32 of IEEE 802.3 (R329). -/
def crc32 (bs : List Byte) : Nat := bs.foldl crc32Byte 0xFFFFFFFF ^^^ 0xFFFFFFFF

end Sys2Proof.Machine
end

