-- ==== Sys2Proof/Machine/Float.lean ====
section
/-! DEFINITION. Number formats (R70, R181, R200), exact values and their rounding (R115, R183, R186, R422), and the exact
accumulator (R117, R190, R191). -/

namespace Sys2Proof.Machine

/-! ### Formats -/

/-- Kinds of encodings: with infinities and NaNs, E4M3 (one NaN, no infinity), and the four- and six-bit formats, finite
only. -/
inductive FKind where
  | ieee
  | e4m3
  | finite
deriving DecidableEq, Repr

structure Fmt where
  kind : FKind
  eb   : Nat
  mb   : Nat
deriving DecidableEq, Repr

def Fmt.width (f : Fmt) : Nat := 1 + f.eb + f.mb
def Fmt.bias (f : Fmt) : Int := 2 ^ (f.eb - 1) - 1

def fp32 : Fmt := { kind := .ieee, eb := 8, mb := 23 }
def bf16 : Fmt := { kind := .ieee, eb := 8, mb := 7 }
def fp16 : Fmt := { kind := .ieee, eb := 5, mb := 10 }
def e4m3 : Fmt := { kind := .e4m3, eb := 4, mb := 3 }
def e5m2 : Fmt := { kind := .ieee, eb := 5, mb := 2 }
def e2m1 : Fmt := { kind := .finite, eb := 2, mb := 1 }
def e2m3 : Fmt := { kind := .finite, eb := 2, mb := 3 }

/-- The element format of a code of R70; INT8 and untyped have none. -/
def fmtOf (code : Nat) : Option Fmt :=
  match code with
  | 1 => some bf16
  | 2 => some fp16
  | 3 => some e4m3
  | 4 => some e5m2
  | 5 => some fp32
  | 6 => some e2m1
  | 7 => some e2m3
  | 8 => some e4m3
  | 9 => some e2m1
  | _ => none

/-! ### Values -/

/-- A value: a finite one is ±`mag` × 2^`exp`. -/
inductive FVal where
  | nan (neg : Bool)
  | inf (neg : Bool)
  | fin (neg : Bool) (mag : Nat) (exp : Int)
deriving DecidableEq, Repr

/-- The value that bits of a format spell. -/
def Fmt.decode (f : Fmt) (x : Nat) : FVal :=
  let man := x % 2 ^ f.mb
  let e := x / 2 ^ f.mb % 2 ^ f.eb
  let neg := x / 2 ^ (f.mb + f.eb) % 2 == 1
  let top := 2 ^ f.eb - 1
  if f.kind = .ieee && e == top then (if man = 0 then .inf neg else .nan neg)
  else if f.kind = .e4m3 && e == top && man == 2 ^ f.mb - 1 then .nan neg
  else if e = 0 then .fin neg man (1 - f.bias - f.mb)
  else .fin neg (2 ^ f.mb + man) (e - f.bias - f.mb)

/-- The largest finite encoding of a format, without its sign. -/
def Fmt.maxFin (f : Fmt) : Nat :=
  match f.kind with
  | .ieee => (2 ^ f.eb - 1) * 2 ^ f.mb - 1
  | .e4m3 => 2 ^ (f.eb + f.mb) - 2
  | .finite => 2 ^ (f.eb + f.mb) - 1

def Fmt.signed (f : Fmt) (neg : Bool) (x : Nat) : Nat := if neg then 2 ^ (f.eb + f.mb) + x else x

/-- Quiet NaN of a format, sign kept (R422). -/
def Fmt.qnan (f : Fmt) (neg : Bool) : Nat :=
  f.signed neg (match f.kind with
    | .ieee => (2 ^ f.eb - 1) * 2 ^ f.mb + 2 ^ (f.mb - 1)
    | _ => 2 ^ (f.eb + f.mb) - 1)

/-- Rounding of a conversion (R187, R422): to nearest even, toward zero, to nearest even with saturation. -/
inductive RMode where
  | rne
  | rtz
  | sat
deriving DecidableEq, Repr

/-- Divide by a power of two and round. -/
def shiftRound (mode : RMode) (n d : Nat) : Nat :=
  let q := n >>> d
  let r := n - q <<< d
  if mode = .rtz then q
  else if 2 ^ d < 2 * r || (2 * r == 2 ^ d && d != 0 && q % 2 == 1) then q + 1 else q

/-- Round a magnitude to a format: the encoding without its sign, as if exponents had no upper bound. -/
def Fmt.roundMag (f : Fmt) (mode : RMode) (mag : Nat) (exp : Int) : Nat :=
  if mag = 0 then 0
  else
    let emin : Int := 1 - f.bias - f.mb
    let q := max emin ((Nat.log2 mag : Int) + exp - f.mb)
    let n := if q ≤ exp then mag <<< (exp - q).toNat else shiftRound mode mag (q - exp).toNat
    -- a rounding that carries to 2^(mb+1) gives the next exponent with a zero mantissa by the same formula
    n + (q - emin).toNat * 2 ^ f.mb

/-- Encode a value in a format (R422). -/
def Fmt.encode (f : Fmt) (mode : RMode) (v : FVal) : Nat :=
  let infTo (neg : Bool) : Nat :=
    match f.kind with
    | .ieee => f.signed neg (f.maxFin + 1)
    | .e4m3 => f.qnan neg
    | .finite => f.signed neg f.maxFin
  match v with
  | .nan neg => f.qnan neg
  | .inf neg => if mode = .sat then f.signed neg f.maxFin else infTo neg
  | .fin neg mag exp =>
    let x := f.roundMag mode mag exp
    if x ≤ f.maxFin then f.signed neg x
    else if mode = .rne then infTo neg
    else f.signed neg f.maxFin

/-- A finite value overflows the format when rounded (R422). -/
def Fmt.overflows (f : Fmt) (v : FVal) : Bool :=
  match v with
  | .fin _ mag exp => decide (f.maxFin < f.roundMag .rne mag exp)
  | _ => false

/-! ### Exact arithmetic -/

/-- Finite value as a signed multiple of 2^`e`, for `e` at or below its exponent. -/
def scaled (neg : Bool) (mag : Nat) (exp e : Int) : Int :=
  let m : Int := mag * 2 ^ (exp - e).toNat
  if neg then -m else m

/-- The exact value of a signed integer times 2^`e`; `zneg` is the sign of a zero. -/
def ofInt (v : Int) (e : Int) (zneg : Bool) : FVal :=
  if v = 0 then .fin zneg 0 e else .fin (decide (v < 0)) v.natAbs e

/-- Exact sum; none: a NaN. -/
def FVal.add : FVal → FVal → Option FVal
  | .nan _, _ => none
  | _, .nan _ => none
  | .inf a, .inf b => if a = b then some (.inf a) else none
  | .inf a, .fin _ _ _ => some (.inf a)
  | .fin _ _ _, .inf b => some (.inf b)
  | .fin a m x, .fin b n y =>
    let e := min x y
    some (ofInt (scaled a m x e + scaled b n y e) e (a && b))

def FVal.neg : FVal → FVal
  | .nan a => .nan (!a)
  | .inf a => .inf (!a)
  | .fin a m x => .fin (!a) m x

/-- Exact product; none: a NaN. -/
def FVal.mul : FVal → FVal → Option FVal
  | .nan _, _ => none
  | _, .nan _ => none
  | .inf a, .inf b => some (.inf (a != b))
  | .inf a, .fin b n _ => if n = 0 then none else some (.inf (a != b))
  | .fin a m _, .inf b => if m = 0 then none else some (.inf (a != b))
  | .fin a m x, .fin b n y => some (.fin (a != b) (m * n) (x + y))

/-- The canonical quiet NaN of `FADD32` (R115). -/
def canonNan : BitVec 32 := 0x7FC00000

def dec32 (x : BitVec 32) : FVal := fp32.decode x.toNat

/-- Bits made to spell a NaN: sign and payload stay, a zero payload becomes one. -/
def asNan (x : BitVec 32) : BitVec 32 :=
  if x &&& 0x007FFFFF = 0 then x ||| 0x7F800001 else x ||| 0x7F800000

/-- Round to FP32, to nearest even; a NaN becomes the value given. -/
def enc32 (nan : BitVec 32) (v : Option FVal) : BitVec 32 :=
  match v with
  | none => nan
  | some (.nan _) => nan
  | some v => BitVec.ofNat 32 (fp32.encode .rne v)

/-- `FADD32` (R115). -/
def fadd32 (a b : BitVec 32) : BitVec 32 := enc32 canonNan ((dec32 a).add (dec32 b))

/-! ### The exact accumulator (R117) -/

/-- An accumulator as cleared. -/
def accZero : Acc := { sum := 0, count := 0, ovf := false, nan := false, ninf := false, pinf := false }

/-- Add a signed integer to `SUM`: overflow when the signed result leaves 320 bits. -/
def Acc.addInt (a : Acc) (v : Int) : Acc :=
  let r := a.sum.toInt + v
  { a with sum := BitVec.ofInt 320 r, ovf := a.ovf || decide (r < -(2 ^ 319)) || decide (2 ^ 319 ≤ r) }

/-- Add an addend of R117: finite values exactly, others set their flag; `COUNT` counts every addend. -/
def Acc.add (a : Acc) (v : FVal) : Acc :=
  let a := { a with count := bumpSat a.count 1 }
  match v with
  | .nan _ => { a with nan := true }
  | .inf true => { a with ninf := true }
  | .inf false => { a with pinf := true }
  | .fin neg mag exp => a.addInt (scaled neg mag exp (-149))

/-- The FP32 value that `ACC_READ` and an XACC read give (R117). -/
def Acc.read (a : Acc) : BitVec 32 :=
  if a.nan || a.ovf || (a.ninf && a.pinf) then canonNan
  else if a.pinf then 0x7F800000
  else if a.ninf then 0xFF800000
  else enc32 canonNan (some (ofInt a.sum.toInt (-149) false))

/-- The 8-byte result word of an accumulator atomic (R115). -/
def Acc.word (a : Acc) : Word := BitVec.ofNat 64 (min a.count.toNat (2 ^ 32 - 1) * 2 ^ 32 + a.read.toNat)

/-- The 64-byte object (R117). -/
def Acc.bytes (a : Acc) : List Byte :=
  leBytes 40 a.sum.toNat ++ leBytes 8 a.count.toNat ++
    [BitVec.ofNat 8 (a.ovf.toNat * 8 + a.nan.toNat * 4 + a.ninf.toNat * 2 + a.pinf.toNat)] ++ zeros 15

/-- Read an object; none: a reserved field is not zero. -/
def parseAcc (b : List Byte) : Option Acc :=
  let f := fieldB b 0x30 1
  if 16 ≤ f || !zeroB b 0x31 15 then none
  else some
    { sum := BitVec.ofNat 320 (fieldB b 0 40), count := BitVec.ofNat 64 (fieldB b 0x28 8), ovf := 8 ≤ f
      nan := f / 4 % 2 == 1, ninf := f / 2 % 2 == 1, pinf := f % 2 == 1 }

/-- The accumulator that 64 bytes spell, reserved bits ignored. -/
def accOf (b : List Byte) : Acc :=
  let f := fieldB b 0x30 1
  { sum := BitVec.ofNat 320 (fieldB b 0 40), count := BitVec.ofNat 64 (fieldB b 0x28 8), ovf := f / 8 % 2 == 1
    nan := f / 4 % 2 == 1, ninf := f / 2 % 2 == 1, pinf := f % 2 == 1 }

/-- Merge two accumulators (R191): sums added, counts saturating, flags by OR. -/
def Acc.merge (a b : Acc) : Acc :=
  let c := a.addInt b.sum.toInt
  { c with
    count := bumpSat a.count b.count.toNat
    ovf := c.ovf || b.ovf
    nan := a.nan || b.nan
    ninf := a.ninf || b.ninf
    pinf := a.pinf || b.pinf }

/-- Addend formats of R117: FP32, BF16, FP8-E4M3, FP8-E5M2. -/
def addendFmt (code : Nat) : Option Fmt :=
  match code with
  | 0 => some fp32
  | 1 => some bf16
  | 2 => some e4m3
  | 3 => some e5m2
  | _ => none

end Sys2Proof.Machine
end

