-- ==== Sys2Proof/Machine/Atom.lean ====
section
/-! DEFINITION. The operations of R115 on the bytes of a line (R115, R117, R118). -/

namespace Sys2Proof.Machine

/-- Operand size in bytes of an operation code: 4 or 8, 4 for `FADD32`, the 64-byte object for the accumulator codes. -/
def atomSizeOk (o : AtomOp) : Bool :=
  let c := o.code.toNat
  if c ≤ 9 then o.size == 4 || o.size == 8
  else if c = 10 then o.size == 4
  else if c ≤ 13 then o.size == 64
  else false

/-- Reserved code, size or addend format (check 4 of R118). -/
def atomForm (o : AtomOp) : Bool := atomSizeOk o && (o.code ≠ 0xB || decide (o.fmt.toNat ≤ 3))

/-- The accumulator codes. -/
def atomAcc (o : AtomOp) : Bool := o.code = 0xB || o.code = 0xC || o.code = 0xD

/-- Alignment (check 2): to the operand size, an accumulator object to its line. A reserved size asks for none: it is met
at check 4. -/
def atomAligned (o : AtomOp) (addr : Nat) : Bool :=
  if atomAcc o then addr % 64 == 0
  else if o.size = 4 || o.size = 8 then addr % o.size == 0
  else true

/-- Bytes the operation reads and writes at its address. -/
def atomLen (o : AtomOp) : Nat := if 11 ≤ o.code.toNat then 64 else o.size

/-- Signed reading of an operand of `n` bytes. -/
def signedN (n v : Nat) : Int := sext (8 * n) v

/-- The new value of a word operation (codes 0x0 to 0xA). -/
def atomWord (o : AtomOp) (old : Nat) : Nat :=
  let m := 2 ^ (8 * o.size)
  let a := o.a.toNat % m
  let b := o.b.toNat % m
  match o.code.toNat with
  | 0 => (old + a) % m
  | 1 => a
  | 2 => if old = a then b else old
  | 3 => if signedN o.size old ≤ signedN o.size a then old else a
  | 4 => if signedN o.size a ≤ signedN o.size old then old else a
  | 5 => min old a
  | 6 => max old a
  | 7 => old &&& a
  | 8 => old ||| a
  | 9 => old ^^^ a
  | _ => (fadd32 (BitVec.ofNat 32 old) (BitVec.ofNat 32 a)).toNat

/-- Run an operation on the bytes at its address: the returned value and the bytes written, none for an object whose
reserved field is not zero (R117). -/
def atomRun (o : AtomOp) (bs : List Byte) : Option (Word × List Byte) :=
  if o.code.toNat ≤ 10 then
    let old := leNat bs
    some (BitVec.ofNat 64 old, leBytes o.size (atomWord o old))
  else match parseAcc bs with
    | none => none
    | some a =>
      match o.code.toNat with
      | 11 => match addendFmt o.fmt.toNat with
        | some f => some (a.word, (a.add (f.decode (o.a.toNat % 2 ^ f.width))).bytes)
        | none => none
      | 12 => some (a.word, bs)
      | _ => some (a.word, zeros 64)

end Sys2Proof.Machine
end

