-- ==== Sys2Proof/Machine/Gear.lean ====
section
/-! DEFINITION. Gear compression (chapter 10): strides and headers (R199 to R203), the encoder of R205 and the checked
decoder of R207 and R208. -/

namespace Sys2Proof.Machine

/-- Code width of a gear (R199). -/
def gearK (gear : Nat) : Nat := gear + 1

/-- Element bits of a pairing (R200). -/
def gearW (f : Fmt) (gear : Nat) : Nat := 1 + gearK gear + f.mb

/-- Bytes of one block of 64 elements in a format and gear, gear none included (R203). -/
def blockBytes (f : Fmt) (gear : Nat) : Nat := if gear = 0 then 8 * f.width else 8 + 8 * gearW f gear

/-- Largest finite exponent field (R200). -/
def Fmt.maxExp (f : Fmt) : Nat := f.maxFin / 2 ^ f.mb

/-- Element size of a format without gear. -/
def elemBytes (code : Nat) : Nat := match fmtOf code with | some f => f.width / 8 | none => 1

def fgCode (fg : BitVec 8) : Nat := bits fg 4 4
def fgGear (fg : BitVec 8) : Nat := bits fg 0 2

/-- Bytes of `n` elements on one side. -/
def sideBytes (acc : Bool) (fg : BitVec 8) (n : Nat) : Nat :=
  if acc then 64 * n
  else if fgGear fg = 0 then elemBytes (fgCode fg) * n
  else match fmtOf (fgCode fg) with
    | some f => blockBytes f (fgGear fg) * ((n + 63) / 64)
    | none => 0

/-- One step of the CRC of R202. -/
def crc16Bit (c : Nat) : Nat := if 32768 ≤ c then (c * 2) % 65536 ^^^ 0x1021 else c * 2

def crc16Byte (c : Nat) (b : Byte) : Nat := (List.range 8).foldl (fun c _ => crc16Bit c) (c ^^^ b.toNat * 256)

def crc16 (bs : List Byte) : Nat := bs.foldl crc16Byte 0

/-- Elements packed one after another, `w` bits each, the first in the lowest bits. -/
def packBits (w : Nat) : List Nat → Nat
  | [] => 0
  | x :: xs => x % 2 ^ w + 2 ^ w * packBits w xs

def unpackBits (w : Nat) (x : Nat) : Nat → List Nat
  | 0 => []
  | n + 1 => x % 2 ^ w :: unpackBits w (x / 2 ^ w) n

/-- Exponent field and mantissa of an element. -/
def Fmt.expOf (f : Fmt) (x : Nat) : Nat := x / 2 ^ f.mb % 2 ^ f.eb
def Fmt.manOf (f : Fmt) (x : Nat) : Nat := x % 2 ^ f.mb
def Fmt.negOf (f : Fmt) (x : Nat) : Bool := x / 2 ^ (f.mb + f.eb) % 2 == 1
def Fmt.isZero (f : Fmt) (x : Nat) : Bool := f.expOf x == 0 && f.manOf x == 0

def Fmt.nonFinite (f : Fmt) (x : Nat) : Bool := decide (f.maxFin < x % 2 ^ (f.eb + f.mb))

/-- Header of a block without its CRC (R201). -/
def gearHeader (code gear base len clamps : Nat) : Nat :=
  code * 2 ^ 60 + gear * 2 ^ 58 + base * 2 ^ 50 + len * 2 ^ 39 + clamps * 2 ^ 32

/-- A block from its header fields and payload: the CRC goes in last (R202). -/
def gearBlock (hdr : Nat) (payload : List Byte) : List Byte :=
  let c := crc16 (payload ++ (leBytes 8 hdr).drop 4)
  leBytes 8 (hdr + c) ++ payload

/-- Encode 64 elements (R205); `clamps` counts the lanes already altered by a conversion. -/
def gearEncode (code gear clamps : Nat) (f : Fmt) (xs : List Nat) : List Byte :=
  let k := gearK gear
  let ones := 2 ^ k - 1
  let bad := (xs.filter f.nonFinite).length
  let xs := xs.map fun x => if f.nonFinite x then f.signed (f.negOf x) f.maxFin else x
  let base := xs.foldl (fun b x => if f.isZero x then b else max b (f.expOf x)) 0
  let flushed (x : Nat) : Bool := !f.isZero x && decide (ones - 1 < base - f.expOf x)
  let field (x : Nat) : Nat :=
    let (c, m) := if f.isZero x then (ones, 0) else if flushed x then (ones, 0) else (base - f.expOf x, f.manOf x)
    (if f.negOf x then 2 ^ (k + f.mb) else 0) + c * 2 ^ f.mb + m
  let w := gearW f gear
  gearBlock (gearHeader code gear base (64 * w) (clamps + bad + (xs.filter flushed).length))
    (leBytes (8 * w) (packBits w (xs.map field)))

/-- A fault of the decoder: its status and the check's order number (R207). -/
structure GearFault where
  status : Status
  order  : Nat
deriving DecidableEq, Repr

/-- Checks of R207 on a block, in order. -/
def gearCheck (code gear : Nat) (f : Fmt) (b : List Byte) : Option GearFault :=
  let h := leNat (b.take 8)
  let k := gearK gear
  let w := gearW f gear
  let base := h / 2 ^ 50 % 256
  let els := unpackBits w (leNat ((b.drop 8).take (8 * w))) 64
  let bad (x : Nat) : Bool :=
    let c := x / 2 ^ f.mb % 2 ^ k
    if c = 2 ^ k - 1 then f.manOf x != 0 else decide (base < c)
  if h / 2 ^ 60 ≠ code || h / 2 ^ 58 % 4 ≠ gear || h / 65536 % 65536 ≠ 0 || 64 < h / 2 ^ 32 % 128 || f.maxExp < base then
    some { status := .gearCode, order := 1 }
  else if h / 2 ^ 39 % 2048 ≠ 64 * w then some { status := .gearLength, order := 2 }
  else if els.any bad then some { status := .gearCode, order := 3 }
  else if h % 65536 ≠ crc16 ((b.drop 8).take (8 * w) ++ (b.take 8).drop 4) then some { status := .gearCheck, order := 4 }
  else none

/-- The elements of a block that passed (R208). -/
def gearElems (gear : Nat) (f : Fmt) (b : List Byte) : List Nat :=
  let base := leNat (b.take 8) / 2 ^ 50 % 256
  let k := gearK gear
  let w := gearW f gear
  (unpackBits w (leNat ((b.drop 8).take (8 * w))) 64).map fun x =>
    let c := x / 2 ^ f.mb % 2 ^ k
    f.signed (x / 2 ^ (k + f.mb) % 2 == 1) (if c = 2 ^ k - 1 then 0 else (base - c) * 2 ^ f.mb + f.manOf x)

/-- Decode a block of 64 elements, gear none as packed elements without a check. -/
def gearDecode (code gear : Nat) (f : Fmt) (b : List Byte) : GearFault ⊕ List Nat :=
  if gear = 0 then .inr (unpackBits f.width (leNat (b.take (8 * f.width))) 64)
  else match gearCheck code gear f b with
    | some e => .inl e
    | none => .inr (gearElems gear f b)

/-- Elements of R205's packer: FP32 lanes converted to the format by RNE with saturation; lanes altered by saturation
count in `CLAMPS`. -/
def packLanes (f : Fmt) (xs : List (BitVec 32)) : List Nat × Nat :=
  (xs.map fun x => f.encode .sat (dec32 x),
    if f = fp32 then 0 else (xs.filter fun x => match dec32 x with
      | .inf _ => true
      | v => f.overflows v).length)

/-- The block that a row of 64 FP32 lanes makes, gear none included (R189). -/
def packBlock (code gear : Nat) (f : Fmt) (xs : List (BitVec 32)) : List Byte :=
  let (es, clamps) := if f = fp32 then (xs.map (·.toNat), 0) else packLanes f xs
  if gear = 0 then leBytes (8 * f.width) (packBits f.width es) else gearEncode code gear clamps f es

end Sys2Proof.Machine
end

