-- ==== Sys2Proof/Machine/Ops.lean ====
section
/-! DEFINITION. The operations every chapter shares: free values, records and logs (R329 to R333), alerts (R406),
open commands and their replies (R298, R300, R301, R314). -/

namespace Sys2Proof

/-! ### Header fields (R297) -/

def Hdr.surrogate (h : Hdr) : Bool := bit h.flags 4
def Hdr.more (h : Hdr) : Bool := bit h.flags 3
def Hdr.notify (h : Hdr) : Bool := bit h.flags 2
def Hdr.ordered (h : Hdr) : Bool := bit h.flags 1

/-- The rider a command acts for (R24, R421): on a queue its owner, which the header must name. -/
def Hdr.r (h : Hdr) : BitVec 6 := h.rider.setWidth 6

/-- The parameter word `i` of a command; a missing word reads zero. -/
def Cmd.p (c : Cmd) (i : Nat) : Word := c.params.getD i 0

/-! ### Kinds of requests to a home (R106, R115) -/

def ReqKind.caching : ReqKind → Bool
  | .rdShared | .rdOwn | .upgrade | .wbM _ | .evictClean => true
  | _ => false

/-- The request needs the writer right of R27. -/
def ReqKind.needsWriter : ReqKind → Bool
  | .rdShared | .rdCur | .evictClean => false
  | _ => true

end Sys2Proof

namespace Sys2Proof.Machine

/-- The cadence counter: every timestamp is a reading of it (R391). -/
def State.now (s : State) : Word := s.time.cadence

/-- A fresh free value (notes/assumptions/4.md). -/
def takeFree (s : State) : Word × State := (Config.freeBits s.freeIdx, { s with freeIdx := s.freeIdx + 1 })

/-- Send a message (the block's output). -/
def emit (m : OutMsg) (s : State) : State := { s with out := s.out ++ [m] }

/-- Raise a sideband alert: set its bit of `HS_ALERT`; a bit that becomes set sends an in-band interrupt where the
controller has enabled them (R406). -/
def alert (i : Nat) (s : State) : State :=
  if bit s.side.alert i then s
  else
    { s with side := { s.side with
        alert := s.side.alert ||| BitVec.ofNat 6 (2 ^ i)
        ibiSent := if s.side.ibi then s.side.ibiSent + 1 else s.side.ibiSent } }

/-! ### Records -/

/-- The severity of a record type (R330). -/
def recSeverity (ty : Nat) : BitVec 8 :=
  if ty = 0x0001 then 0
  else if ty ∈ [0x0008, 0x0009, 0x000A, 0x000B, 0x000D] then 2
  else if ty ∈ [0x000E, 0x000F, 0x0010, 0x0011, 0x0012, 0x0013, 0x0016] then 3
  else 1

/-- The logs of a record type (R330): error log, fault log, odometer. -/
def recToErr (ty : Nat) : Bool := !(ty == 0x000E || ty == 0x0014)
def recToFault (ty : Nat) : Bool := ty ∈ [0x0002, 0x0004, 0x0005, 0x0006, 0x0007, 0x000B, 0x0014]
def recToOdo (ty : Nat) : Bool :=
  ty ∈ [0x0003, 0x0008, 0x0009, 0x000A, 0x000B, 0x000D, 0x000E, 0x000F, 0x0010, 0x0011, 0x0012, 0x0013]

/-- A record of a type with every other field zero and no rider (R329). -/
def Rec.blank (ty : BitVec 16) : Rec :=
  { seq := 0, time := 0, type := ty, status := 0, point := 0, unit := 0, rider := 0xFF,
    severity := recSeverity ty.toNat, flags := 0, source := 0, addr := 0, va := 0, arg0 := 0, arg1 := 0 }

/-- A rider as the record's byte. -/
def riderByte (r : BitVec 6) : BitVec 8 := r.setWidth 8

/-- Add a record to a log that holds `cap` records; the newest overwrites the oldest. -/
def Log.push (cap : Nat) (r : Rec) (l : Log) : Log :=
  let rs := if l.recs.length < cap then l.recs else l.recs.drop (l.recs.length + 1 - cap)
  { recs := rs ++ [{ r with seq := l.next }], next := l.next + 1 }

/-- A rider's fault log (R319). -/
def faultLog (s : State) (r : BitVec 6) : Log := (lookupK s.err.faults r).getD Log.empty

/-- The error log takes a record; one of severity 0 or 1 is dropped and counted while the log writer is more than 256
records behind (R333; notes/assumptions/108.md). -/
def logErr (r : Rec) (s : State) : State :=
  if r.severity.toNat < 2 && decide (256 < s.err.behind) then
    { s with err := { s.err with dropped := s.err.dropped + 1 } }
  else { s with err := { s.err with log := s.err.log.push 16384 r, behind := s.err.behind + 1 } }

/-- Write a record to every log that R330 marks for its type. The record's `TIME` is set here. -/
def writeRec (r : Rec) (s : State) : State :=
  let r := { r with time := s.now }
  let s := if recToErr r.type.toNat then logErr r s else s
  let s :=
    if recToFault r.type.toNat && decide (r.rider ≠ 0xFF) then
      let k : BitVec 6 := r.rider.setWidth 6
      { s with err := { s.err with faults := setK s.err.faults k ((faultLog s k).push 4096 r) } }
    else s
  if recToOdo r.type.toNat then
    { s with
      nv.odometer := s.nv.odometer.push 131072 r
      nv.odoPos := s.nv.odoPos + 1 }
  else s

/-- The number the next record of a rider's fault log gets. -/
def nextFaultSeq (s : State) (r : BitVec 6) : Nat := (faultLog s r).next

/-- The bytes of a record with its CRC (R329). -/
def Rec.bytes (r : Rec) : List Byte :=
  let b := leBytes 8 r.seq ++ wordBytes r.time ++ leBytes 2 r.type.toNat ++ leBytes 2 r.status.toNat ++
    leBytes 2 r.point.toNat ++ leBytes 2 r.unit.toNat ++ [r.rider, r.severity, r.flags, 0] ++
    leBytes 4 r.source.toNat ++ wordBytes r.addr ++ wordBytes r.va ++ wordBytes r.arg0 ++ leBytes 4 r.arg1.toNat
  b ++ leBytes 4 (crc32 b)

/-- Use an armed injection of a detector point and unit, if there is one: whether the event is injected, and the
state with the injection's event counted and the injection disarmed after its last (R344). -/
def takeInj (point unit : BitVec 16) (s : State) : Bool × State :=
  match s.err.inj.find? fun i => i.point = point && i.unit = unit with
  | none => (false, s)
  | some i =>
    let inj :=
      if i.mode = 2 then s.err.inj
      else if i.left ≤ 1 then dropIf s.err.inj (·.id == i.id)
      else updIf s.err.inj (·.id == i.id) fun j => { j with left := j.left - 1 }
    (true, { s with err := { s.err with inj := inj } })

/-- The mode of the injection that the next use of a detector point of a unit meets (R344). -/
def injMode (s : State) (point unit : BitVec 16) : Option (BitVec 8) :=
  (s.err.inj.find? fun i => i.point = point && i.unit = unit).map (·.mode)

/-- The next use meets an injected error beyond correction. -/
def injBad (s : State) (point unit : BitVec 16) : Bool :=
  match injMode s point unit with
  | some m => m = 1 || m = 2
  | none => false

/-- Write a record for an event a detector found; it carries `INJECTED` when an armed injection caused it (R344). -/
def detect (r : Rec) (s : State) : State :=
  let (i, s) := takeInj r.point r.unit s
  writeRec (if i then { r with flags := r.flags ||| 0x80 } else r) s

/-- A corrected error on a unit: it counts in `HS_ERR_STATUS` and writes at most one TYPE 0x0001 record per unit per
10 ms (R333, R339). -/
def corrected (point unit : BitVec 16) (addr : Word) (s : State) : State :=
  let (i, s) := takeInj point unit s
  let detect (r : Rec) (s : State) : State := writeRec (if i then { r with flags := 0x80 } else r) s
  let s := { s with err := { s.err with corrected := bumpSat s.err.corrected 1 } }
  match lookupK s.err.corr unit with
  | some (t, n) =>
    if s.now.toNat < t.toNat + 10000000 then
      { s with err := { s.err with corr := setK s.err.corr unit (t, n + 1) } }
    else
      let s := { s with err := { s.err with corr := setK s.err.corr unit (s.now, 0) } }
      detect { Rec.blank 0x0001 with point := point, unit := unit, addr := addr, arg0 := BitVec.ofNat 64 (n + 1) } s
  | none =>
    let s := { s with err := { s.err with corr := setK s.err.corr unit (s.now, 0) } }
    detect { Rec.blank 0x0001 with point := point, unit := unit, addr := addr, arg0 := 1 } s

/-! ### Units (R334) -/

def unitTile (t : BitVec 10) : BitVec 16 := BitVec.ofNat 16 (0x1000 + t.toNat)
def unitSpoke (w : Nat) : BitVec 16 := BitVec.ofNat 16 (0x2000 + w)
def unitChainring (w : Nat) : BitVec 16 := BitVec.ofNat 16 (0x3000 + w)
def unitCassette (w : Nat) : BitVec 16 := BitVec.ofNat 16 (0x4000 + w)
def unitHbm (w : Nat) : BitVec 16 := BitVec.ofNat 16 (0x5000 + w)
def unitLpddr (c : Nat) : BitVec 16 := BitVec.ofNat 16 (0x6000 + c)
def unitPort (p : Nat) : BitVec 16 := BitVec.ofNat 16 (0x7000 + p)
def unitTandem (t : Nat) : BitVec 16 := BitVec.ofNat 16 (0x8000 + t)
def unitSaddlebag (k : Nat) : BitVec 16 := BitVec.ofNat 16 (0x9000 + k)
def unitAgent (a : BitVec 10) : BitVec 16 := BitVec.ofNat 16 (0xA000 + a.toNat)

def unitFenced (s : State) (u : BitVec 16) : Bool := s.err.fences.contains u

/-- The data path fences a unit: logged with its trigger and `FLAGS` [5], and management writes its own view later (R335,
R337). -/
def markFence (u : BitVec 16) (trigger : Nat) (s : State) : State :=
  let s := { s with
    err.fences := s.err.fences ++ [u]
    err.mgmt := s.err.mgmt ++ [u] }
  detect { Rec.blank 0x0008 with unit := u, flags := 0x20, arg0 := BitVec.ofNat 64 trigger } s

/-- A wheel (R11) of a tile identifier (R12). -/
def tileWheel (t : BitVec 10) : Nat := bits t 6 4

/-- A tile is fenced by itself or with its Spoke die (R336). -/
def tileFenced (s : State) (t : BitVec 10) : Bool := unitFenced s (unitTile t) || unitFenced s (unitSpoke (tileWheel t))

/-- An existing tile: index 0 to 47 (R12). -/
def tileExists (t : BitVec 10) : Bool := decide (bits t 0 6 < 48)

/-- Core `i` of the wheel and flash step restarts now: wheel core `i`, or flash core `i - 16` (R358). -/
def coreRestarting (s : State) (i : Nat) : Bool := decide (s.fw.act.st = 2) && s.fw.act.step == 2 && s.fw.act.cores == i

/-! ### Open commands and replies -/

def epochNow (s : State) : BitVec 32 := match s.comp with | some c => c.epoch | none => 0

/-- Cut a reply whose payload exceeds a limit into reply chunks: `CHUNK` counts from zero, `MORE` is set in every chunk
but the last (R301, R409). -/
def splitReply (limit : Nat) (r : Reply) : List Reply :=
  if r.payload.length ≤ limit then [r]
  else
    let n := (r.payload.length + limit - 1) / limit
    (List.range n).map fun i =>
      { r with chunk := i, more := decide (i + 1 < n), payload := (r.payload.drop (i * limit)).take limit }

/-- Drop reply payloads, oldest first, until the rest is at most 1 MiB (R300). -/
def trimTags (top : Nat) : List (BitVec 32 × Reply) → List (BitVec 32 × Reply)
  | [] => []
  | t :: ts =>
    let total := ((t :: ts).map fun x => x.2.payload.length).sum
    if total ≤ top then t :: ts
    else (t.1, { t.2 with payload := [], payloadLost := t.2.payloadLost || !t.2.payload.isEmpty }) :: trimTags top ts

/-- Keep the tags of the last 4,096 commands completed on the port (R300). -/
def keepTag (r : Reply) (ts : List (BitVec 32 × Reply)) : List (BitVec 32 × Reply) :=
  let ts := ts ++ [(r.h.tag, r)]
  trimTags 1048576 (ts.drop (ts.length - 4096))

/-- The reply to a command (R298). -/
def mkReply (o : Open) (st : Status) (result : Word) (payload : List Byte) (s : State) : Reply :=
  { src := o.h.src, op := o.op, h := o.h, status := st, chunk := 0, payloadLost := false, more := false,
    epoch := epochNow s, result := result, payload := payload }

/-- Send a reply where its command came from: on the port and the sideband it is sent, on a queue it waits to be posted
(R314). -/
def sendReply (r : Reply) (s : State) : State :=
  match r.src with
  | .port => { s with port := { s.port with replies := s.port.replies ++ splitReply 65536 r } }
  | .sideband => { s with port := { s.port with replies := s.port.replies ++ splitReply 4096 r } }
  | .queue q => { s with queues := updIf s.queues (·.q = q) fun x => { x with done := x.done ++ [r] } }

/-- `COMPOSE` and `PREFETCH_SCHEDULE` accept chunks (R301). -/
def chunked (op : Nat) : Bool := op == 0x018 || op == 0x281

/-- The assemblies after a packet: chunks on a queue are consecutive entries, so another entry ends its queue's assembly
(R301). -/
def assembliesAfter (o : Open) (as : List Assembly) : List Assembly :=
  match o.h.src with
  | .queue _ => dropIf as fun a => a.src = o.h.src && (a.tag ≠ o.h.tag || !chunked o.op.toNat)
  | _ => as

/-- Record a command as open: accepted, not yet replied to. -/
def openCmd (o : Open) (s : State) : State :=
  match o.h.src with
  | .queue q => { s with
      queues := updIf s.queues (·.q = q) fun x => { x with started := x.started ++ [o] }
      port.assemblies := assembliesAfter o s.port.assemblies }
  | _ => { s with port := { s.port with outstanding := s.port.outstanding ++ [o] } }

def isOpen (o : Open) (s : State) : Bool :=
  match o.h.src with
  | .queue q => s.queues.any fun x => x.q = q && x.started.contains o
  | _ => s.port.outstanding.contains o

/-- Complete an open command: it is no longer open, its reply is sent, and the port keeps its tag (R298, R300). -/
def complete (o : Open) (st : Status) (result : Word) (payload : List Byte) (s : State) : State :=
  let r := mkReply o st result payload s
  match o.h.src with
  | .queue q =>
    sendReply r { s with queues := updIf s.queues (·.q = q) fun x => { x with started := x.started.erase o } }
  | .sideband =>
    sendReply r { s with port := { s.port with outstanding := s.port.outstanding.erase o } }
  | .port =>
    sendReply r { s with port := { s.port with outstanding := s.port.outstanding.erase o, tags := keepTag r s.port.tags } }

/-- Complete a command that may have ended already (R36, R321): nothing happens then. -/
def completeIf (o : Open) (st : Status) (result : Word) (payload : List Byte) (s : State) : State :=
  if isOpen o s then complete o st result payload s else s

/-! ### The effect of a command -/

/-- What a command's own chapter makes of it: the answer to send now, or none while it stays open. -/
structure Ans where
  status  : Status
  result  : Word
  payload : List Byte
deriving DecidableEq, Repr

structure Eff where
  st  : State
  ans : Option Ans

/-- Refused or completed with a status only. -/
def Eff.stat (st : Status) (s : State) : Eff := { st := s, ans := some { status := st, result := 0, payload := [] } }

def Eff.ok (s : State) : Eff := Eff.stat .ok s

def Eff.res (st : Status) (result : Word) (s : State) : Eff :=
  { st := s, ans := some { status := st, result := result, payload := [] } }

def Eff.data (st : Status) (result : Word) (payload : List Byte) (s : State) : Eff :=
  { st := s, ans := some { status := st, result := result, payload := payload } }

/-- The command stays open; a later event completes it. -/
def Eff.later (s : State) : Eff := { st := s, ans := none }

/-- Refuse at the first failing check of a list, in order (R9, R299): the command changes no state. -/
def firstFail : List (Bool × Status) → Option Status
  | [] => none
  | (ok, st) :: cs => if ok then firstFail cs else some st

/-- Run a body when every check of a list holds. -/
def checked (cs : List (Bool × Status)) (s : State) (body : Eff) : Eff :=
  match firstFail cs with
  | some st => Eff.stat st s
  | none => body

/-- An event row: it acts only while firmware runs the package (R353, R403). -/
def whenUp (s : State) (f : State → State) : State := if s.phase = .running then f s else s

end Sys2Proof.Machine
end

