-- ==== Sys2Proof/Machine/Addr.lean ====
section
/-! DEFINITION. Onaxiari physical addresses (R18 to R22), home wheels (R13), the lookups in the booted composition
record (R24 to R33), and the rights of a rider on an extent (R25, R27, R28). -/

namespace Sys2Proof.Machine

/-! ### Addresses -/

def opaSpace (a : Word) : Nat := bits a 62 2
def opaPeloton (a : Word) : Nat := bits a 54 8
def opaModule (a : Word) : Nat := bits a 48 6
def opaOffset (a : Word) : Nat := bits a 0 48

/-- The OPA of a store offset of a module. -/
def mkOpa (peloton module off : Nat) : Word := BitVec.ofNat 64 (peloton * 2 ^ 54 + module * 2 ^ 48 + off)

/-- The home wheel of a store offset: the exclusive-or of its nibbles from bit 12 to bit 47 (R13). -/
def homeWheel (off : Nat) : Nat :=
  [12, 16, 20, 24, 28, 32, 36, 40, 44].foldl (fun w b => w ^^^ ((off >>> b) % 16)) 0

/-- Store pages of 64 KiB, granules of 4 KiB, lines of 64 bytes, extents of 16 GiB. -/
def pageOf (off : Nat) : Nat := off / 65536
def granuleOf (off : Nat) : Nat := off % 65536 / 4096
def lineOf (off : Nat) : Nat := off / 64 * 64
def extentOf (off : Nat) : Nat := off / 2 ^ 34
def extentOfPage (n : Nat) : Nat := n / 262144

/-- Must-be-zero bits of R19. -/
def opaMbz (a : Word) : Bool :=
  match opaSpace a with
  | 0 => true
  | 1 => bits a 32 16 == 0
  | 2 => bits a 17 31 == 0 && bits a 0 3 == 0
  | _ => false

/-- The sync object an address of space 0b10 names (R19). -/
def opaSync (a : Word) : Nat := bits a 3 14

/-! ### The composition record -/

def State.me (s : State) : Nat := match s.comp with | some c => c.me.toNat | none => 255
def State.peloton (s : State) : Nat := match s.comp with | some c => c.peloton.toNat | none => 0

def riderEntry (s : State) (r : BitVec 6) : Option RiderEntry :=
  match s.comp with
  | some c => c.riders.find? (·.rider = r)
  | none => none

def moduleEntry (s : State) (m : Nat) : Option ModEntry :=
  match s.comp with
  | some c => c.modules.find? (·.module.toNat = m)
  | none => none

/-- The twin's module number (R31), 255 when unpaired. -/
def State.twinNo (s : State) : Nat := match moduleEntry s s.me with | some e => e.twin.toNat | none => 255

def Run.has (r : Run) (module idx : Nat) : Bool :=
  r.module.toNat == module && decide (r.first.toNat ≤ idx) && decide (idx < r.first.toNat + r.count.toNat)

def Run.shared (r : Run) : Bool := bit r.flags 0
def Run.lapped (r : Run) : Bool := bit r.flags 1
def Run.keep (r : Run) : Bool := bit r.flags 2
def Run.mirror (r : Run) : Nat := bits r.flags 3 2
def Run.heldFlag (r : Run) : Bool := bit r.flags 5
def Run.reader (r : Run) (x : BitVec 6) : Bool := bit r.readers x.toNat
def Run.writer (r : Run) (x : BitVec 6) : Bool := bit r.writers x.toNat

/-- Private to rider r: `SHARED` clear and `READERS` naming r alone (R27). -/
def Run.privateTo (r : Run) (x : BitVec 6) : Bool :=
  !r.shared && decide (r.readers.toNat = 2 ^ x.toNat)

/-- The run of an extent of a module. -/
def runOf (s : State) (module idx : Nat) : Option Run :=
  match s.comp with
  | some c => c.runs.find? (·.has module idx)
  | none => none

/-- The run that gives an extent of this module its properties: a mirror copy has its primary's run (R278, R290). -/
def extRun (s : State) (x : Extent) : Option Run :=
  match x.mirrorOf with
  | none => runOf s s.me x.idx
  | some i => runOf s s.twinNo i

/-- An extent of the module, mirror copies included, by its index on this module. -/
def findExt (s : State) (idx : Nat) : Option Extent := s.store.extents.find? (·.idx == idx)

def updExt (s : State) (idx : Nat) (f : Extent → Extent) : State :=
  { s with store.extents := updIf s.store.extents (·.idx == idx) f }

/-- The extent of this module that an index names: an own extent, or with the surrogate flag the mirror copy of the
twin's extent (R291). -/
def localIdx (s : State) (surr : Bool) (i : Nat) : Option Nat :=
  if surr then (s.store.extents.find? (·.mirrorOf == some i)).map (·.idx)
  else (s.store.extents.find? fun x => x.idx == i && x.mirrorOf.isNone).map (·.idx)

/-- The number by which an extent of this module is known to software: the twin's index for a mirror copy. -/
def Extent.name (x : Extent) : Nat := x.mirrorOf.getD x.idx

/-- Whether the extent is live for a rider (R25). -/
def extLive (s : State) (x : Extent) (r : BitVec 6) : Bool :=
  x.live && (match extRun s x with | some u => u.reader r | none => false)

def extWriter (s : State) (x : Extent) (r : BitVec 6) : Bool :=
  x.live && (match extRun s x with | some u => u.reader r && u.writer r | none => false)

def extLapped (s : State) (x : Extent) : Bool := match extRun s x with | some u => u.lapped | none => false

/-- The sync objects a rider holds on the module (R32). -/
def riderHasSync (s : State) (r : BitVec 6) (obj : Nat) : Bool :=
  match riderEntry s r with
  | some e => decide (e.syncBase.toNat ≤ obj) && decide (obj < e.syncBase.toNat + e.syncCount.toNat)
  | none => false

/-- The route entries that apply to a module (R254). -/
def routesOf (s : State) (m : BitVec 8) : List Route :=
  match s.comp with
  | some c => c.routes.filter (·.module = m)
  | none => []

/-- The route entries that apply to this module. -/
def myRoutes (s : State) : List Route := match s.comp with | some c => routesOf s c.me | none => []

/-- Those of the side that a request names: with `surr`, of the lost module that this one answers for (R290). -/
def sideRoutes (s : State) (surr : Bool) : List Route := if surr then routesOf s (BitVec.ofNat 8 s.twinNo) else myRoutes s

/-- `RIDER` of a type 0x2 or 0x3 entry (R255). -/
def Route.rider (x : Route) : BitVec 6 := BitVec.ofNat 6 (bits x.w0 16 6)

/-- The entry registers a caching agent (R104, R255). -/
def Route.caching (x : Route) : Bool := bit x.w1 15
def Route.agent (x : Route) : BitVec 10 := BitVec.ofNat 10 (bits x.w1 0 10)

/-- The route entry that registers a caching agent (R104). -/
def agentIn (rs : List Route) (a : BitVec 10) : Option Route :=
  rs.find? fun x => (x.type = 2 || x.type = 3) && x.caching && x.agent = a

def agentRoute (s : State) (a : BitVec 10) : Option Route := agentIn (myRoutes s) a

/-- The registered agents of the module. -/
def agentsOf (s : State) : List (BitVec 10) :=
  ((myRoutes s).filter fun x => (x.type = 2 || x.type = 3) && x.caching).map (·.agent)

/-- The entry of an edge agent known by its OXF `SOURCE` (R264). -/
def sourceIn (rs : List Route) (src : BitVec 16) : Option Route := rs.find? fun x => x.type = 2 && bits x.w0 0 16 == src.toNat

def sourceRoute (s : State) (src : BitVec 16) : Option Route := sourceIn (myRoutes s) src

/-- The entry of a logical device of a CXL port (R267). -/
def ldIn (rs : List Route) (port : Fin 24) (ld : BitVec 4) : Option Route :=
  rs.find? fun x => x.type = 3 && x.port.toNat == port.val && bits x.w0 0 8 == ld.toNat

def ldRoute (s : State) (port : Fin 24) (ld : BitVec 4) : Option Route := ldIn (myRoutes s) port ld

/-- Where a store or sync address leads: this module's own store offset, a sync object, another module, another
peloton, or a refusal (R20, R21, R290). -/
inductive Target where
  | off (o : Nat)
  | sync (obj : Nat)
  | reg
  | module (m : Nat)
  | peloton (p : Nat)
  | bad (st : Status)
deriving DecidableEq, Repr

/-- A peloton the route table reaches through a gateway (R21, R254). -/
def pelotonRouted (s : State) (p : Nat) : Bool :=
  match s.comp with
  | some c => c.routes.any fun x => x.type = 4 && x.module = c.me && bits x.w0 0 8 == p
  | none => false

/-- Module number L of a store request at its surrogate: the mirror copy of the extent, or `OWNER_LOST` for a run that
L held unmirrored (R290). -/
def surrogateOff (s : State) (off : Nat) : Target :=
  match localIdx s true (extentOf off) with
  | some i => .off (i * 2 ^ 34 + off % 2 ^ 34)
  | none => match runOf s s.twinNo (extentOf off) with
    | some _ => .bad .ownerLost
    | none => .bad .revoked

/-- Resolve an OPA (R18 to R21). -/
def target (s : State) (a : Word) : Target :=
  if !opaMbz a then .bad .translation
  else if s.comp.isNone then .bad .revoked
  else if opaPeloton a ≠ s.peloton then
    if pelotonRouted s (opaPeloton a) then .peloton (opaPeloton a) else .bad .translation
  else if opaModule a = s.me then
    match opaSpace a with
    | 0 =>
      -- a mirror copy is no extent of this module's own number, also after a takeover (R25, R290)
      if (findExt s (extentOf (opaOffset a))).any (·.mirrorOf.isSome) then .bad .revoked else .off (opaOffset a)
    | 2 => .sync (opaSync a)
    | _ => .reg
  else if s.pair.surr && opaModule a = s.twinNo && opaSpace a = 0 then surrogateOff s (opaOffset a)
  else if s.expelled.any (·.toNat == opaModule a) then
    match s.redirect.find? (·.1.toNat == opaModule a) with
    | some t => if s.expelled.contains t.2 then .bad .ownerLost else .module (opaModule a)
    | none => .bad .ownerLost
  else if (moduleEntry s (opaModule a)).isSome then .module (opaModule a)
  else .bad .translation

/-- The OPA names a module that this one does not act for (R103, R118 check 3). -/
def otherModule (s : State) (a : Word) : Bool :=
  decide (opaPeloton a ≠ s.peloton) ||
    (decide (opaModule a ≠ s.me) && !(s.pair.surr && decide (opaModule a = s.twinNo) && decide (opaSpace a = 0)))

/-! ### Fences of the memory units (R336) -/

/-- The home of an offset is fenced: its Chainring or its Cassette. -/
def homeFenced (s : State) (off : Nat) : Bool :=
  unitFenced s (unitChainring (homeWheel off)) || unitFenced s (unitCassette (homeWheel off))

/-- No page receives a new frame of a tier while one of its units is fenced (R336). -/
def tierStopped (s : State) : Tier → Bool
  | .hbm => (List.range 16).any fun w => unitFenced s (unitHbm w)
  | .lpddr => (List.range 32).any fun c => unitFenced s (unitLpddr c)
  | .flash => false

/-- The flash cluster of a page (R67). -/
def clusterOf (page : Nat) : Nat := homeWheel (page * 65536) % 4

/-- The frame of a granule lies on a fenced unit (R336). -/
def frameFenced (s : State) (f : Frame) (off : Nat) : Bool :=
  let w := homeWheel off
  match f.tier with
  | .hbm => unitFenced s (unitHbm w)
  | .lpddr => unitFenced s (unitLpddr (2 * w + f.ch.toNat))
  | .flash => unitFenced s (unitSaddlebag (clusterOf (pageOf off)))

/-! ### Rights of a request at its home -/

/-- Whether a rider may read or write at an offset: fenced home, then live for the rider (R25), then writer (R27), then
a fenced extent (R124), in that order (notes/assumptions/13.md). -/
def rightsAt (s : State) (r : BitVec 6) (off : Nat) (write : Bool) : Status ⊕ Extent :=
  if homeFenced s off then .inl .fenced
  else match findExt s (extentOf off) with
    | none => .inl .revoked
    | some x =>
      if !extLive s x r then .inl .revoked
      else if write && !extWriter s x r then .inl .revoked
      else if x.fenced then .inl .fenced
      else .inr x

end Sys2Proof.Machine
end

