-- ==== Sys2Proof/Machine/Store.lean ====
section
/-! DEFINITION. The store of the module: frames and their counts (R65 to R69), the page map (R66), objects (R70, R72),
the views of laps (R131), shadows (R133), and the read and the write of bytes at their home (R146, R325, R425). -/

namespace Sys2Proof.Machine

/-! ### Pages and frames -/

/-- The frame-map entry of a page; a page that is not listed is absent (R66). -/
def findPage (st : Store) (n : Nat) : Page :=
  (st.pages.find? (·.n == n)).getD { n := n, home := none, copy := none }

/-- Set a page's entry; an absent page without a copy is not listed. -/
def setPage (p : Page) (st : Store) : Store :=
  let rest := dropIf st.pages (·.n == p.n)
  { st with pages := if p.home.isNone && p.copy.isNone then rest else rest ++ [p] }

def findFrame (st : Store) (id : Nat) : Option Frame := st.frames.find? (·.id == id)

def frameTier (st : Store) (id : Nat) : Tier := match findFrame st id with | some f => f.tier | none => .lpddr

/-- LPDDR frames in use on one channel of every wheel (R14). -/
def channelUse (st : Store) (ch : Bool) : Nat := (st.frames.filter fun f => f.tier = .lpddr && f.ch == ch).length

/-- The channel of the next LPDDR frame: the one with more free frames, in turn when both have as many. The channels of a
wheel hold equally many frames, so consecutive free frames alternate and neither channel holds more than its half (R14). -/
def nextChannel (st : Store) : Bool :=
  if channelUse st false = channelUse st true then st.nextCh else decide (channelUse st true < channelUse st false)

/-- Take a free frame of a tier. DESIGN CHOICE (notes/assumptions/109.md): the sixteen granules of a page take the same
channel parity on every wheel, where R14 lets each wheel's frame map choose its own. -/
def newFrame (t : Tier) (st : Store) : Nat × Store :=
  (st.nextFrame,
    { st with
      frames := st.frames ++ [{ id := st.nextFrame, tier := t, ch := nextChannel st }]
      nextFrame := st.nextFrame + 1
      nextCh := if t = .lpddr then !nextChannel st else st.nextCh })

/-- Free a frame: its bytes and its bad code words are gone. -/
def freeFrame (id : Nat) (st : Store) : Store :=
  { st with
    frames := dropIf st.frames (·.id == id)
    mem := memClear st.mem (id * 65536) 65536
    bad := dropIf st.bad fun b => b / 65536 == id
    soft := dropIf st.soft fun b => b / 65536 == id
    units := dropIf st.units (·.1 == id) }

/-- Copy a frame's bytes to another frame. -/
def copyFrame (src dst : Nat) (st : Store) : Store :=
  { st with mem := memCopyN st.mem (src * 65536) 65536 (dst * 65536) }

def overlaps (a n lo hi : Nat) : Bool := decide (a < hi) && decide (lo < a + n)

/-- An invalidation in progress covers a page of a run (R60). -/
def frozenRun (s : State) (first count : Nat) : Bool :=
  s.xlat.unmaps.any fun u => u.frozen.any fun f => overlaps f.1 f.2 first (first + count)

/-- Work on a frame that is given up ends: its moves, with their destination frames, its reads and its programs. -/
def dropWork (f : Nat) (st : Store) : Store :=
  let gone := st.moves.filter (·.src == f)
  let reads := (st.reads.filter (·.src == f)).filterMap (·.dst)
  let st := { st with
    moves := dropIf st.moves (·.src == f)
    reads := dropIf st.reads (·.src == f)
    progs := dropIf st.progs fun p => p.src == f || p.dst == f
    direct := dropIf st.direct (·.frame == f) }
  (gone.map (·.dst) ++ reads).foldl (fun st d => freeFrame d st) st

/-- Release a frame of a page: not before no `UNMAP_RANGE` covers the page (R60). -/
def releaseFrame (page f : Nat) (s : State) : State :=
  let s := { s with store := dropWork f s.store }
  if frozenRun s page 1 then { s with store.lateFree := s.store.lateFree ++ [(page, f)] }
  else { s with store := freeFrame f s.store }

/-- Release frames, each with its page. -/
def releaseFrames (fs : List (Nat × Nat)) (s : State) : State := fs.foldl (fun s p => releaseFrame p.1 p.2 s) s

/-! ### Objects (R70, R72) -/

def Obj.covers (o : Obj) (n : Nat) : Bool := decide (o.base ≤ n) && decide (n < o.base + o.pages)
def pageObj (st : Store) (n : Nat) : Option Obj := st.objects.find? (·.covers n)

/-- The page is one of a streamed-window object. -/
def streamedPage (st : Store) (n : Nat) : Bool := st.objects.any fun o => o.covers n && decide (o.policy = 5)

/-- Home tier of a policy (R72). -/
def homeTier (policy : BitVec 8) : Tier :=
  if policy = 1 then .hbm else if policy = 3 || policy = 4 then .flash else .lpddr

def flashBacked (policy : BitVec 8) : Bool := policy = 3 || policy = 4

/-- Staging frames an object reserves (R72). -/
def Obj.stageCap (o : Obj) : Nat := if o.policy = 4 then o.pages else if o.policy = 3 || o.policy = 5 then o.stagePages else 0

/-- The object's pages that have an entry. -/
def objPages (st : Store) (o : Obj) : List Page := st.pages.filter fun p => o.covers p.n

/-- The object's staging copies, earliest made first (R78). -/
def objCopies (st : Store) (o : Obj) : List (Nat × Copy) :=
  sortBy (fun c => c.2.order) ((objPages st o).filterMap fun p => p.copy.map fun c => (p.n, c))

/-- Staging frames of the object taken by a page-in or a fill that has not ended. -/
def objPending (st : Store) (o : Obj) : Nat :=
  if flashBacked o.policy then (st.reads.filter fun r => o.covers r.page && r.dst.isSome).length else 0

/-- Shadows of a write lap that took the reserved home frames of absent pages of the object (R66, R133). -/
def objShadows (st : Store) (o : Obj) : Nat :=
  if flashBacked o.policy then 0
  else (st.extents.map fun x => match x.wlap with
    | some w => (w.shadows.filter fun p => o.covers p.1 && (findPage st p.1).home.isNone &&
        decide (frameTier st p.2 = homeTier o.policy)).length
    | none => 0).sum

/-- Home frames of the object taken by a move that has not ended. -/
def objMoving (st : Store) (o : Obj) : Nat :=
  (st.moves.filter fun m => o.covers m.page && !m.staging).length +
    (if flashBacked o.policy then 0 else (st.reads.filter fun r => o.covers r.page && r.dst.isSome).length)

/-- Home frames an object holds reserved and has not taken. -/
def Obj.homeLeft (st : Store) (o : Obj) : Nat :=
  if o.policy = 0 then 0
  else o.pages - ((objPages st o).filter fun p => match p.home with
    | some f => frameTier st f = homeTier o.policy
    | none => false).length - objMoving st o - objShadows st o

/-- Staging frames that the object holds reserved in its `STAGE_TIER` and that neither a copy nor a move of one into the tier
has taken (R72). -/
def Obj.stageLeft (st : Store) (o : Obj) : Nat :=
  let here := ((objCopies st o).filter fun c => frameTier st c.2.frame = o.stageTier).length
  let coming := (st.moves.filter fun m => o.covers m.page && m.staging && decide (frameTier st m.src ≠ o.stageTier)).length
  o.stageCap - here - coming - objPending st o

/-! ### Counts of frames (R65, R68, R69) -/

def tierIdx : Tier → Nat
  | .hbm => 0 | .lpddr => 1 | .flash => 2

/-- Frames of a tier that hold a page, a version or a copy. -/
def usedFrames (st : Store) (t : Tier) : Nat := (st.frames.filter (·.tier = t)).length

/-- Frames of a tier reserved by objects and not yet taken. -/
def reservedFrames (st : Store) (t : Tier) : Nat :=
  (st.objects.map fun o =>
    (if homeTier o.policy = t then o.homeLeft st else 0) + (if o.stageTier = t then o.stageLeft st else 0)).sum

/-- `FREE` of `HS_TIER_FRAMES_t` (R69). -/
def freeOf (s : State) (t : Tier) : Nat :=
  Config.tierFrames s.variant (tierIdx t) - usedFrames s.store t - reservedFrames s.store t

/-- `STAGING` of `HS_TIER_FRAMES_t` (R69). -/
def stagingOf (s : State) (t : Tier) : Nat :=
  if t = .flash then 0
  else (s.store.objects.map fun o => if o.stageTier = t then o.stageCap else 0).sum

/-- `RETAINED` (R135): versions held by older live laps that the latest lap does not share. -/
def lapRetained (st : Store) (x : Extent) : Nat :=
  ((x.old.flatMap fun l => l.pages.filterMap fun p =>
    if p.2.isSome && (findPage st p.1).home == p.2 then none else p.2).dedup).length

/-- Frames that the pages and page versions of an extent hold (R68). -/
def heldFrames (st : Store) (x : Extent) : Nat :=
  (st.pages.filter fun p => extentOfPage p.n == x.idx && p.home.isSome).length +
    (match x.wlap with | some w => w.shadows.length | none => 0) + lapRetained st x

/-- The need of an extent (R68): 262,144 less the frames held and the home frames reserved for its absent pages. -/
def extentNeed (st : Store) (x : Extent) : Nat :=
  let reserved := (st.objects.map fun o =>
    let lo := max o.base (x.idx * 262144)
    let hi := min (o.base + o.pages) ((x.idx + 1) * 262144)
    (hi - lo) - (st.pages.filter fun p => decide (lo ≤ p.n) && decide (p.n < hi) && p.home.isSome).length).sum
  262144 - heldFrames st x - reserved

/-- The module's outstanding need (R68). -/
def outstandingNeed (s : State) : Nat := (s.store.extents.map (extentNeed s.store)).sum

def freeTotal (s : State) : Nat := freeOf s .hbm + freeOf s .lpddr + freeOf s .flash

/-- A page receives no flash frame on a cluster that is read-only, failed or fenced (R99, R101, R336). -/
def clusterPassed (s : State) (k : Nat) : Bool :=
  let c := s.flash.getD k Cluster.reset
  !Config.hasFlash s.variant || decide (c.state = 3) || decide (c.state = 4) || unitFenced s (unitSaddlebag k)

/-- The flash frame of a page. -/
def Page.flashHome (st : Store) (p : Page) : Bool :=
  match p.home with
  | some f => frameTier st f = .flash
  | none => false

/-- Frames of a cluster that pages hold, or that objects hold reserved for pages bound to it (R67, R72). -/
def clusterTaken (st : Store) (k : Nat) : Nat :=
  (st.pages.filter fun p => clusterOf p.n == k && p.flashHome st).length +
    ((st.objects.filter fun o => flashBacked o.policy).map fun o =>
      ((List.range o.pages).filter fun i => clusterOf (o.base + i) == k && !(findPage st (o.base + i)).flashHome st).length).sum

/-- A flash cluster that can give a page its first frame (R66 step 3). -/
def clusterUsable (s : State) (k : Nat) : Bool :=
  !clusterPassed s k && decide (clusterTaken s.store k < Config.tierFrames s.variant 2 / 4)

/-- The tier of a first frame for a page in no object (R66 steps 2 to 4); none when every tier that has a frame is
stopped (R336). -/
def freeTier (s : State) (n : Nat) : Option Tier :=
  if freeOf s .lpddr > 0 && !tierStopped s .lpddr then some .lpddr
  else if clusterUsable s (clusterOf n) then some .flash
  else if freeOf s .hbm > 0 && !tierStopped s .hbm then some .hbm
  else none

/-! ### Views (R131) -/

/-- The view of a rider's request on an extent. -/
def viewOf (s : State) (x : Extent) (r : BitVec 6) : View :=
  if !extLapped s x then .latest
  else match x.wlap with
    | some w => if w.rider = r then .wlap else match lookupK x.reads r with
      | some k => .lap k
      | none => .latest
    | none => match lookupK x.reads r with
      | some k => .lap k
      | none => .latest

/-- The lap number of a view. -/
def viewLap (x : Extent) : View → BitVec 32
  | .latest => x.latest
  | .wlap => match x.wlap with | some w => w.num | none => x.latest
  | .lap k => k

/-- The view an operation holds (R131), if it has one on the extent. -/
def heldView (x : Extent) (op : Nat) : Option View :=
  (lookupK x.holds op).map fun k => match x.wlap with
    | some w => if w.num = k then .wlap else .lap k
    | none => .lap k

/-- Take the view of an operation on an extent, holding it until the operation completes (R131). -/
def takeView (s : State) (x : Extent) (op : Nat) (r : BitVec 6) : View × State :=
  match heldView x op with
  | some v => (v, s)
  | none =>
    let v := viewOf s x r
    if extLapped s x then (v, updExt s x.idx fun y => { y with holds := y.holds ++ [(op, viewLap x v)] }) else (v, s)

/-! ### Where a granule lies -/

inductive Loc where
  | absent
  /-- a frame in memory -/
  | frame (id : Nat)
  /-- a flash frame with no copy in memory -/
  | flash (id : Nat)
  /-- the lap named is no longer live -/
  | gone
deriving DecidableEq, Repr

/-- The frame that holds a granule of a page while a move runs: granules switch one by one (R74). -/
def movedFrame (st : Store) (page granule id : Nat) : Nat :=
  match st.moves.find? fun m => m.page == page && m.src == id && m.done.any (·.val == granule) with
  | some m => m.dst
  | none => id

def locOfHome (st : Store) (page granule : Nat) : Option Nat → Loc
  | none => .absent
  | some f => if frameTier st f = .flash then .flash f else .frame (movedFrame st page granule f)

/-- A granule of the latest version of a page: its copy where there is one, else its home frame (R66, R82). -/
def pageLoc (st : Store) (page granule : Nat) : Loc :=
  let p := findPage st page
  match p.copy with
  | some c => .frame (movedFrame st page granule c.frame)
  | none => locOfHome st page granule p.home

/-- A granule of a page in a view. -/
def viewLoc (st : Store) (x : Extent) (v : View) (page granule : Nat) : Loc :=
  match v with
  | .latest => pageLoc st page granule
  | .wlap => match x.wlap with
    | some w => match lookupK w.shadows page with
      | some f => locOfHome st page granule (some f)
      | none => pageLoc st page granule
    | none => .gone
  | .lap k =>
    if k = x.latest then pageLoc st page granule
    else match x.old.find? (·.num = k) with
      | none => .gone
      | some l => match l.pages.find? (·.1 == page) with
        | some (_, f) => locOfHome st page granule f
        | none => pageLoc st page granule

/-! ### Code words (R323, R325) -/

def codeWord (t : Tier) : Nat := if t = .hbm then 32 else 64

/-- A bad code word overlaps bytes `[a, a + n)` of the memory. -/
def badAt (st : Store) (t : Tier) (a n : Nat) : Bool :=
  st.bad.any fun b => decide (a < b + codeWord t) && decide (b < a + n)

/-- The written bytes of a masked write, from an address. -/
def maskCover (bs : List (Option Byte)) (a b n : Nat) : Bool :=
  (List.range n).all fun i =>
    decide (a ≤ b + i) && (match bs[b + i - a]? with | some (some _) => true | _ => false)

/-- A masked write at an address would need part of a bad code word (R325). -/
def partialBad (st : Store) (t : Tier) (a : Nat) (bs : List (Option Byte)) : Bool :=
  let cw := codeWord t
  st.bad.any fun b =>
    (List.range cw).any (fun i => decide (a ≤ b + i) && (match bs[b + i - a]? with | some (some _) => true | _ => false))
      && !maskCover bs a b cw

/-- Put masked bytes at an address: only bytes that are given are written; wholly covered bad code words are clean
(R325). -/
def putBytes (t : Tier) (a : Nat) (bs : List (Option Byte)) (st : Store) : Store :=
  let old := memReadN st.mem a bs.length
  let new := List.zipWith (fun (o : Option Byte) (b : Byte) => o.getD b) bs old
  { st with
    mem := memWriteN st.mem a new
    bad := dropIf st.bad fun b => maskCover bs a b (codeWord t)
    soft := dropIf st.soft fun b => maskCover bs a b (codeWord t) }

/-! ### Room for staging copies -/

def Obj.stageFull (st : Store) (o : Obj) : Bool := decide (o.stageCap ≤ (objCopies st o).length + objPending st o)

/-- A cluster that starts no program: fenced (R336), failed (R101) or read-only (R99). -/
def flashRefuses (s : State) (k : Nat) : Option Status :=
  let c := s.flash.getD k Cluster.reset
  if unitFenced s (unitSaddlebag k) || decide (c.state = 4) then some .fenced
  else if c.state = 3 then some .busy
  else none

/-- The unpinned copies of an object that are neither being written back nor moved, earliest made first. -/
def looseCopies (st : Store) (o : Obj) : List (Nat × Copy) :=
  (objCopies st o).filter fun c =>
    !c.2.pinned && !(o.pins.contains c.1) && !(st.progs.any (·.page == c.1)) && !(st.moves.any (·.page == c.1))

/-- The unpinned copy made earliest that is not already being written back (R78); on a cluster that starts no program
only clean copies are evicted (R99). -/
def victim (s : State) (o : Obj) : Option (Nat × Copy) :=
  (looseCopies s.store o).find? fun c => !c.2.dirty || (flashRefuses s (clusterOf c.1)).isNone

/-- Evictions of the object in progress, each of which frees a frame. -/
def evicting (st : Store) (o : Obj) : Nat := (st.progs.filter fun q => o.covers q.page && q.drop).length

/-- Page-ins and fills of the object that wait for a frame. -/
def frameless (st : Store) (o : Obj) : Nat :=
  (st.reads.filter fun r => o.covers r.page && r.dst.isNone && decide (r.why ≠ .direct)).length

/-- A miss that finds no copy to evict because the cluster of every unpinned one starts no program (R99). -/
def missBusy (s : State) (o : Obj) : Bool :=
  o.stageFull s.store && !(looseCopies s.store o).isEmpty && (victim s o).isNone && evicting s.store o == 0 &&
    !(s.store.reads.any fun r => o.covers r.page)

/-! ### Reading at the home -/

inductive RdRes where
  | data (bs : List Byte)
  /-- held for a page-in or a flash read (R78, R425) -/
  | wait
  | fail (st : Status)
deriving DecidableEq, Repr

/-- How the flash access that a transaction, or an operation that writes the whole page, waited for has ended. -/
def directEnd (st : Store) (f : Nat) (who : Option Nat) (whole : Option (BitVec 32)) : Option DirectEnd :=
  (st.direct.find? fun d => d.frame == f &&
    ((match who with | some t => d.held.contains t | none => false) || (whole.isSome && d.whole == whole))).map (·.stage)

/-- A page whose copy is made by a demand page-in (R78): the access is to its latest version. -/
def faultingPage (st : Store) (page f : Nat) : Option Obj :=
  (pageObj st page).filter fun o => decide (o.policy = 3) && (findPage st page).home == some f

/-- Read bytes of one line (or less) at an offset in a view, for the transaction `who`. -/
def readAt (s : State) (x : Extent) (v : View) (off len : Nat) (who : Option Nat) : RdRes :=
  let st := s.store
  match viewLoc st x v (pageOf off) (granuleOf off) with
  | .gone => .fail .lapClosed
  | .absent => .data (zeros len)
  | .frame f =>
    match findFrame st f with
    | none => .data (zeros len)
    | some fr =>
      if frameFenced s fr off then .fail .fenced
      else if badAt st fr.tier (f * 65536 + off % 65536) len then .fail .uncorrectable
      else .data (memReadN st.mem (f * 65536 + off % 65536) len)
  | .flash f =>
    if unitFenced s (unitSaddlebag (clusterOf (pageOf off))) then .fail .fenced
    else match directEnd st f who none with
      | none => if (faultingPage st (pageOf off) f).any (missBusy s) then .fail .busy else .wait
      | some .uncorrectable => .fail .uncorrectable
      | some .fenced => .fail .fenced
      | some _ => .data (memReadN st.mem (f * 65536 + off % 65536) len)

/-! ### Twin copies of writes (R277, R280, R281) -/

/-- The page of the twin's mirror copy of a page of a synchronous run, if there is one. -/
def syncMirror (s : State) (x : Extent) (page : Nat) : Option Nat :=
  match x.mirrorOf, extRun s x with
  | none, some u =>
    if u.mirror = 1 then some ((u.mirrorFirst.toNat + (x.idx - u.first.toNat)) * 262144 + page % 262144) else none
  | _, _ => none

/-- A copy of a page is still on its way to the twin: a write's, or the whole page since the link failed (R148, R281). -/
def mirrorLeft (s : State) (page : Nat) : Bool :=
  s.pair.inFlight.contains page || s.pair.unsynced.contains page || s.pair.resync.contains page

/-- A synchronous write is held before its home order while the link is down (R281). -/
def mirrorHeld (s : State) (x : Extent) (page : Nat) : Bool := decide (s.pair.st = 4) && (syncMirror s x page).isSome

/-- Send a write to the twin as it is applied; a page still to be resynced is carried by its later copy (R277, R280). -/
def mirrorWrite (x : Extent) (page off : Nat) (bs : List Byte) (lap : Bool) (s : State) : State :=
  match syncMirror s x page with
  | some m =>
    if (s.pair.st = 3 || s.pair.st = 6 || (s.pair.st = 2 && !s.pair.resync.contains page)) then
      let s := emit (.mirror (.write m off bs (if lap then .wlap else .latest))) s
      { s with pair.inFlight := s.pair.inFlight ++ [page] }
    else s
  | none => s

/-! ### Writing at the home -/

inductive WrRes where
  | done (s : State)
  /-- held: for a page-in, a program, a direct flash write or the twin link -/
  | wait
  | fail (st : Status)

/-- Programs of a cluster are held: supply hold, Brake, Coast, or a hot cluster (R75, R93, R371, R376, R384). -/
def progsHeld (s : State) (k : Nat) : Bool :=
  s.power.hold || decide (s.power.st = .brake) || decide (s.power.st = .coast) ||
    s.power.stopNand.any (·.val == k)

/-! ### Order of service (R77) -/

/-- Class of service: demand page-ins, schedule fills, commands. -/
def MoveWhy.class : MoveWhy → Nat
  | .demand => 0
  | .direct => 0
  | .fill _ _ _ => 1
  | _ => 2

/-- The order in which waiting work is served: class, higher `PRIORITY`, older first. -/
def serviceKey (st : Store) (page id : Nat) (why : MoveWhy) : Nat :=
  let prio := match pageObj st page with | some o => o.priority.toNat | none => 0
  (why.class * 4 + (3 - prio)) * 2 ^ 64 + id

/-- Work on a page may go on: no move of the page is under way, and no other work on it is served before. DESIGN CHOICE
(notes/assumptions/115.md): the spec does not say how much work the tier mover has under way at once; here the order of
service decides where work waits for the same page or for a staging frame. -/
def firstWork (st : Store) (page id : Nat) (why : MoveWhy) : Bool :=
  let me := serviceKey st page id why
  !(st.moves.any (fun m => m.page == page && m.id != id && (!m.done.isEmpty || decide (serviceKey st page m.id m.why < me))) ||
    st.reads.any (fun r => r.page == page && decide (serviceKey st page r.id r.why < me)) ||
    st.progs.any fun p => p.page == page && p.id != id && (!p.held || decide (serviceKey st page p.id p.why < me)))

/-- A program that may begin now: nothing holds it, and it is the first work on its page (R75, R77, R93). -/
def mayBegin (s : State) (p : FlashProg) : Bool :=
  !progsHeld s (clusterOf p.page) && firstWork s.store p.page p.id p.why

/-- Program a frame to flash: the program begins now, or when it may (R80, R93). -/
def startProg (page src dst : Nat) (drop : Bool) (why : MoveWhy) (s : State) : State :=
  let p : FlashProg :=
    { id := s.store.nextMove, page := page, src := src, dst := dst, restarts := 0, stored := false, held := true
      drop := drop, why := why }
  { s with store := { s.store with progs := s.store.progs ++ [{ p with held := !mayBegin s p }], nextMove := p.id + 1 } }

/-- Evict a copy: a clean copy is dropped, a dirty one is written back and dropped when programmed (R78, R80). -/
def evictCopy (s : State) (page : Nat) (c : Copy) (why : MoveWhy) : State :=
  let p := findPage s.store page
  if c.dirty then
    match p.home with
    | some h => startProg page c.frame h true why s
    | none => s
  else releaseFrame page c.frame { s with store := setPage { p with copy := none } s.store }

/-- Make room for one more copy of a flash-backed-faulting object; true when a frame is free now. Each page-in that waits for
a frame has one eviction (R78). -/
def roomForCopy (s : State) (o : Obj) : Bool × State :=
  if !o.stageFull s.store then (frameless s.store o == 0, s)
  else if frameless s.store o < evicting s.store o then (false, s)
  else match victim s o with
    | none => (false, s)
    | some (n, c) =>
      let s := evictCopy s n c .demand
      (!o.stageFull s.store && frameless s.store o == 0, s)

/-- Install a staging copy in a new frame of a tier. -/
def installCopy (page : Nat) (t : Tier) (dirty pinned : Bool) (st : Store) : Nat × Store :=
  let (f, st) := newFrame t st
  let p := findPage st page
  (f, { setPage { p with copy := some { frame := f, dirty := dirty, pinned := pinned, order := st.nextCopy } } st with
        nextCopy := st.nextCopy + 1 })

/-- A store lands on a page: a program of it that is under way is made again (R75). -/
def storedOn (page : Nat) (st : Store) : Store :=
  { st with progs := updIf st.progs (fun q => q.page == page && !q.held) fun q => { q with stored := true } }

/-- Masked bytes from an offset on take in a byte of the word at `w`. -/
def touches (off : Nat) (bs : List (Option Byte)) (w : Nat) : Bool :=
  (List.range 8).any fun i => decide (off ≤ w + i) && ((bs[w + i - off]?).bind id).isSome

/-- A write lands: the doorbell lines on whose `SQ_TAIL` or `CQ_HEAD` it lands take note of it (R148, R311). -/
def strike (off : Nat) (bs : List (Option Byte)) (bells : List Bell) : List Bell :=
  bells.map fun b =>
    { b with tail := b.tail || touches off bs b.off, head := b.head || touches off bs (b.off + 0x10) }

/-- The write lands in a frame; a copy of a flash-backed page becomes dirty, a streamed-window page keeps its home
frame and its copy equal (R80, R82), a program in progress sees the store (R75), and a doorbell is recognised (R148). -/
def applyBytes (s : State) (x : Extent) (v : View) (page f off : Nat) (bs : List (Option Byte)) : State :=
  let st := putBytes (frameTier s.store f) (f * 65536 + off % 65536) bs s.store
  let p := findPage st page
  let st :=
    if v = .wlap then st
    else match p.copy with
      | some c =>
        if streamedPage st page then
          match p.home with
          | some h =>
            let h' := movedFrame st page (granuleOf off) h
            putBytes (frameTier st h') (h' * 65536 + off % 65536) bs st
          | none => st
        else storedOn page (setPage { p with copy := some { c with dirty := true } } st)
      | none => st
  let s := { s with store := st, bells := if v = .latest then strike off bs s.bells else s.bells }
  let data := memReadN s.store.mem (f * 65536 + off % 65536) bs.length
  mirrorWrite x page (off % 65536) data (decide (v = .wlap)) s

/-! ### Shadows (R133) -/

/-- A free frame of a tier can be taken. -/
def canTake (s : State) (t : Tier) : Bool := decide (0 < freeOf s t) && !tierStopped s t

/-- The frame reserved for an absent page by its object can be taken (R66 step 1). -/
def reservedTier (s : State) (page : Nat) : Option Tier :=
  match pageObj s.store page with
  | some o =>
    if (findPage s.store page).home.isNone && !flashBacked o.policy && !tierStopped s (homeTier o.policy) then
      some (homeTier o.policy)
    else none
  | none => none

/-- The tier of a shadow (R133): the base page's own, for a flash-homed page `STAGE_TIER` or LPDDR; with no free frame there,
and for an absent page, the order of R66. -/
def shadowTier (s : State) (page : Nat) : Option Tier :=
  let backed := (pageObj s.store page).filter fun o => flashBacked o.policy
  let own : Option Tier := match (findPage s.store page).home with
    | some h =>
      if frameTier s.store h = .flash then some (match pageObj s.store page with | some o => o.stageTier | none => .lpddr)
      else some (frameTier s.store h)
    | none => backed.map (·.stageTier)
  match own.filter (canTake s), reservedTier s page with
  | some t, _ => some t
  | none, some t => some t
  | none, none =>
    if backed.isSome then (if canTake s .lpddr then some .lpddr else if canTake s .hbm then some .hbm else none)
    else freeTier s page

/-- Copy a page granule by granule, each from where it lies while a move runs (R74). -/
def copyPage (page src dst : Nat) (st : Store) : Store :=
  (List.range 16).foldl (fun st g =>
    { st with mem := memCopyN st.mem (movedFrame st page g src * 65536 + g * 4096) 4096 (dst * 65536 + g * 4096) }) st

/-- Why a page in memory cannot be copied: a granule on a fenced unit, or uncorrectable data. -/
def copyFails (s : State) (page f : Nat) : Option Status :=
  let at_ (g : Nat) : Nat := movedFrame s.store page g f
  if (List.range 16).any fun g => match findFrame s.store (at_ g) with
      | some fr => frameFenced s fr (page * 65536 + g * 4096)
      | none => true then some .fenced
  else if (List.range 16).any fun g => badAt s.store (frameTier s.store (at_ g)) (at_ g * 65536 + g * 4096) 4096 then
    some .uncorrectable
  else none

/-- The frame that holds the base version of a page: its copy, or its home. -/
def baseFrame (st : Store) (page : Nat) : Option Nat :=
  let p := findPage st page
  match p.copy with
  | some c => some c.frame
  | none => p.home

/-- Create the shadow of a page in a write lap (R133, R134): zero, or a copy of the base page unless one transfer
writes the whole page. -/
def makeShadow (s : State) (x : Extent) (w : WLap) (page : Nat) (whole : Bool) (who : Option Nat) : Nat × State ⊕ Option Status :=
  if w.reserved ≤ w.shadows.length then .inr (some .lapLimit)
  else match shadowTier s page with
    | none => .inr (some .fenced)
    | some t =>
      let add (copy : Nat → Store → Store) : Nat × State :=
        let (f, st) := newFrame t s.store
        (f, updExt { s with store := copy f st } x.idx fun y =>
          { y with wlap := y.wlap.map fun w => { w with shadows := w.shadows ++ [(page, f)] } })
      match baseFrame s.store page with
      | none => .inl (add fun _ st => st)
      | some b =>
        if whole then .inl (add fun f st => copyPage page b f st)
        else if frameTier s.store b = .flash then
          if unitFenced s (unitSaddlebag (clusterOf page)) then .inr (some .fenced)
          else match directEnd s.store b who none with
            | none => .inr none
            | some .uncorrectable => .inr (some .uncorrectable)
            | some .fenced => .inr (some .fenced)
            | some _ => .inl (add fun f st => copyFrame b f st)
        else match copyFails s page b with
          | some st => .inr (some st)
          | none => .inl (add fun f st => copyPage page b f st)

/-! ### First frames (R66) -/

/-- Where an absent page takes its first frame. -/
inductive First where
  /-- a frame in memory becomes its home -/
  | home (t : Tier)
  /-- its reserved flash frame becomes its home, and a staging copy takes the write -/
  | copy (o : Obj)
  /-- a flash frame becomes its home and is programmed -/
  | flash
  | fail (st : Status)
deriving DecidableEq, Repr

/-- The choice of R66. DEDUCED (notes/assumptions/117.md): where the cluster passes the reserved flash frame of a page over
(R99, R101), the page takes a free frame of HBM, as step 4 says, or of LPDDR. -/
def firstChoice (s : State) (page : Nat) : First :=
  match pageObj s.store page with
  | some o =>
    if flashBacked o.policy then
      if clusterPassed s (clusterOf page) then
        if canTake s .hbm then .home .hbm else if canTake s .lpddr then .home .lpddr else .fail .fenced
      else if tierStopped s o.stageTier then .fail .fenced
      else if o.policy = 3 && missBusy s o then .fail .busy
      else .copy o
    else if tierStopped s (homeTier o.policy) then .fail .fenced
    else .home (homeTier o.policy)
  | none => match freeTier s page with
    | none => .fail .fenced
    | some .flash => .flash
    | some t => .home t

/-- Give an absent page its first frame: the frame that the write goes to, a refusal, or none while it waits for room or for
flash. -/
def firstFrame (s : State) (page : Nat) : Nat × State ⊕ Option Status :=
  let p := findPage s.store page
  match firstChoice s page with
  | .fail st => .inr (some st)
  | .flash => .inr none
  | .home t =>
    let (f, st) := newFrame t s.store
    .inl (f, { s with store := setPage { p with home := some f } st })
  | .copy o =>
    if o.policy = 3 && (o.stageFull s.store || frameless s.store o != 0) then
      let (room, s) := roomForCopy s o
      if room then take o s else .inr none
    else take o s
where
  take (o : Obj) (s : State) : Nat × State ⊕ Option Status :=
    let (h, st) := newFrame .flash s.store
    let st := setPage { findPage st page with home := some h } st
    let (f, st) := installCopy page o.stageTier true (o.pins.contains page) st
    .inl (f, { s with store := st })

/-- A store to a page whose program has been restarted three times is held (R75). -/
def programHolds (st : Store) (page : Nat) : Bool := st.progs.any fun q => q.page == page && decide (3 ≤ q.restarts)

/-- Write to a flash frame (R425): the access waits until the frame has been read and programmed. -/
def writeFlash (s : State) (x : Extent) (v : View) (page f off : Nat) (bs : List (Option Byte)) (who : Option Nat)
    (whole : Option (BitVec 32)) : WrRes :=
  match flashRefuses s (clusterOf page), directEnd s.store f who whole with
  | some st, _ => .fail st
  | none, some .programmed => .done (applyBytes s x v page f off bs)
  | none, some .uncorrectable => .fail .uncorrectable
  | none, some .fenced => .fail .fenced
  | none, _ => .wait

/-- Write to a frame in memory. -/
def writeFrame (s : State) (x : Extent) (v : View) (page f off : Nat) (bs : List (Option Byte)) : WrRes :=
  if (match findFrame s.store f with | some fr => frameFenced s fr off | none => false) then .fail .fenced
  else if partialBad s.store (frameTier s.store f) (f * 65536 + off % 65536) bs then .fail .uncorrectable
  else .done (applyBytes s x v page f off bs)

/-- Write masked bytes of one line (or less) at an offset in a view, for the transaction `who`; `whole` names the operation
when one transfer writes the whole page (R133, R425). A write that the lap accepted before it closed is made (R137). -/
def writeAt (s : State) (x : Extent) (v : View) (off : Nat) (bs : List (Option Byte)) (whole : Option (BitVec 32))
    (who : Option Nat) (entered : Bool) : WrRes :=
  let page := pageOf off
  if mirrorHeld s x page then .wait
  else match v with
  | .lap _ => .fail .lapClosed
  | .wlap =>
    match x.wlap with
    | none => .fail .lapClosed
    | some w =>
      if w.closed && !entered then .fail .lapClosed
      else match lookupK w.shadows page with
        | some f =>
          if frameTier s.store f = .flash then writeFlash s x v page f off bs who whole
          else writeFrame s x v page f off bs
        | none =>
          match makeShadow s x w page whole.isSome who with
          | .inl (f, s) =>
            if frameTier s.store f = .flash then .wait else .done (applyBytes s x v page f off bs)
          | .inr (some st) => .fail st
          | .inr none => .wait
  | .latest =>
    if extLapped s x then .fail .lapClosed
    else if programHolds s.store page then .wait
    else match pageLoc s.store page (granuleOf off) with
      | .gone => .fail .lapClosed
      | .frame f => writeFrame s x v page f off bs
      | .flash f =>
        -- one operation that writes a whole page of a flash-backed-faulting object reads no flash (R245)
        match (faultingPage s.store page f).filter fun _ => whole.isSome && !(s.store.reads.any (·.page == page)) with
        | some o =>
          let (room, s) := roomForCopy s o
          if tierStopped s o.stageTier then .fail .fenced
          else if !room then (if missBusy s o then .fail .busy else .wait)
          else
            let (g, st) := installCopy page o.stageTier true (o.pins.contains page) s.store
            .done (applyBytes { s with store := copyFrame f g st } x v page g off bs)
        | none =>
          if (faultingPage s.store page f).any (missBusy s) then .fail .busy
          else if (faultingPage s.store page f).isSome then
            (match directEnd s.store f who none with
              | some .uncorrectable => .fail .uncorrectable
              | some .fenced => .fail .fenced
              | _ => .wait)
          else writeFlash s x v page f off bs who whole
      | .absent =>
        match firstFrame s page with
        | .inl (f, s) => .done (applyBytes s x v page f off bs)
        | .inr (some st) => .fail st
        | .inr none => .wait

/-! ### Page-ins and direct flash accesses (R78, R425) -/

def addRead (page src : Nat) (dst : Option Nat) (why : MoveWhy) (st : Store) : Store :=
  { st with
    reads := st.reads ++ [{ id := st.nextMove, page := page, src := src, dst := dst, why := why }]
    nextMove := st.nextMove + 1 }

/-- Start a demand page-in (R78), unless one runs; one that finds no frame waits for one. -/
def pageIn (o : Obj) (page h : Nat) (s : State) : State :=
  if s.store.reads.any (·.page == page) then s
  else
    let (room, s) := roomForCopy s o
    if room then
      let (f, st) := newFrame o.stageTier s.store
      { s with store := addRead page h (some f) .demand st }
    else { s with store := addRead page h none .demand s.store }

/-- Start what an access to a flash frame waits for (R425): its read, and for a write then its program. A transfer of all
64 KiB needs no read. -/
def awaitFlash (page f : Nat) (write : Bool) (whole : Option (BitVec 32)) (who : Option Nat) (s : State) : State :=
  let program (s : State) : State :=
    if s.store.progs.any fun q => q.page == page && q.dst == f then { s with store := storedOn page s.store }
    else startProg page f f false .direct s
  match directEnd s.store f who whole with
  | some .read => if write then program s else s
  | some _ => s
  | none =>
    if write && whole.isSome then
      program { s with store.direct := s.store.direct ++ [{ frame := f, stage := .read, held := [], whole := whole }] }
    else if s.store.reads.any fun r => r.src == f then s
    else { s with store := addRead page f none .direct s.store }

/-- Start what an access that must wait for its memory waits for: a page-in, a flash access, the first frame on flash, or
the shadow on flash. -/
def awaitMem (s : State) (x : Extent) (v : View) (off : Nat) (write : Bool) (whole : Option (BitVec 32)) (who : Option Nat) :
    State :=
  let page := pageOf off
  let zeroed (f : Nat) (s : State) : State :=
    awaitFlash page f true whole who { s with store.direct :=
      s.store.direct ++ [{ frame := f, stage := .read, held := who.toList, whole := whole }] }
  if write && mirrorHeld s x page then s
  else match viewLoc s.store x v page (granuleOf off) with
    | .flash f => match faultingPage s.store page f with
      | some o => if directEnd s.store f who none = none then pageIn o page f s else s
      | none => match v, x.wlap with
        | .wlap, some w =>
          if write && whole.isSome && (lookupK w.shadows page).isNone then newShadow w s
          else if write && (lookupK w.shadows page).isNone then base w f s
          else awaitFlash page f write whole who s
        | _, _ => awaitFlash page f write whole who s
    | .absent =>
      if !write then s
      else match v, x.wlap with
        | .wlap, some w => if (lookupK w.shadows page).isNone then newShadow w s else s
        | .latest, _ => match firstChoice s page with
          | .flash =>
            if who.isNone && whole.isNone then s
            else
              let (f, st) := newFrame .flash s.store
              zeroed f { s with store := setPage { findPage st page with home := some f } st }
          | .copy o => (roomForCopy s o).2
          | _ => s
        | _, _ => s
    | .frame _ => match v, x.wlap with
      | .wlap, some w => if write && (lookupK w.shadows page).isNone then newShadow w s else s
      | _, _ => s
    | .gone => s
where
  /-- The base page of a shadow is read; what has been read is copied, and the shadow programmed, where that lies on flash. -/
  base (w : WLap) (f : Nat) (s : State) : State :=
    match directEnd s.store f who none with
    | none => awaitFlash (pageOf off) f false none who s
    | some _ => newShadow w s
  newShadow (w : WLap) (s : State) : State :=
    match makeShadow s x w (pageOf off) whole.isSome who with
    | .inl (f, s') =>
      if frameTier s'.store f = .flash then
        awaitFlash (pageOf off) f true whole who { s' with store.direct :=
          s'.store.direct ++ [{ frame := f, stage := .read, held := who.toList, whole := whole }] }
      else s
    | .inr _ => s

/-! ### Laps -/

/-- A lap of an extent is live (R130): latest, write lap, held open, held by an operation or by a stage mark. -/
def lapHeld (st : Store) (x : Extent) (k : BitVec 32) : Bool :=
  x.reads.any (·.2 = k) || x.holds.any (·.2 = k) || st.marks.any fun m => m.laps.any fun e => e.1 == x.idx && e.2 = k

/-- A live lap of the extent shares a page version. -/
def versionUsed (st : Store) (x : Extent) (f : Nat) : Bool :=
  x.old.any (fun l => l.pages.any (·.2 == some f)) ||
    st.pages.any (fun p => p.home == some f || (match p.copy with | some c => c.frame == f | none => false)) ||
    (match x.wlap with | some w => w.shadows.any (·.2 == f) | none => false)

/-- Free the page versions that no live lap shares, subject to R60. -/
def releaseVersions (idx : Nat) (fs : List (Nat × Nat)) (s : State) : State :=
  match findExt s idx with
  | some x => releaseFrames ((fs.dedup).filter fun f => !versionUsed s.store x f.2) s
  | none => s

/-- Drop the older laps that nothing holds any more, freeing the versions that no other live lap shares (R130). -/
def reapLaps (idx : Nat) (s : State) : State :=
  match findExt s idx with
  | none => s
  | some x =>
    let (keep, gone) := x.old.partition fun l => lapHeld s.store x l.num
    if gone.isEmpty then s
    else
      releaseVersions idx (gone.flatMap fun l => l.pages.filterMap fun p => p.2.map fun f => (p.1, f))
        (updExt s idx fun y => { y with old := keep })

/-- Live laps of an extent (R130). -/
def liveLaps (x : Extent) : Nat := 1 + x.old.length + x.wlap.isSome.toNat

def nextLap (n : BitVec 32) : BitVec 32 := if n = 0xFFFFFFFF then 1 else n + 1

/-- `PRESENT` (R135). -/
def lapPresent (st : Store) (x : Extent) : Nat :=
  (st.pages.filter fun p => extentOfPage p.n == x.idx && p.home.isSome).length

/-- Abandon the write lap of an extent (R138): every shadow is freed with every write in it; writes in flight, and what agents
still hold, belong to no lap any more, and an operation that held the lap holds a lap that is not live (R131). -/
def abandonLap (idx : Nat) (s : State) : State :=
  match findExt s idx with
  | some x => match x.wlap with
    | some w =>
      let s := updExt s idx fun y => { y with wlap := none, holds := y.holds.map fun h => if h.2 = w.num then (h.1, 0) else h }
      let s := { s with
        coh.trks := updIf s.coh.trks (fun t => extentOf t.line == idx && decide (t.lap = .entered)) fun t => { t with lap := .dead }
        coh.dir := updIf s.coh.dir (fun d => extentOf d.line == idx) fun d => { d with dead := true } }
      releaseFrames w.shadows s
    | none => s
  | none => s

/-- The frame that keeps the latest version of a page once another replaces it: of a flash-backed page, its dirty copy or its
flash frame; and the frames that version needs no more. -/
def keptFrame (st : Store) (page : Nat) : Option Nat × List Nat :=
  let p := findPage st page
  match p.copy with
  | none => (p.home, [])
  | some c =>
    if streamedPage st page then (p.home, [])
    else if c.dirty then (some c.frame, p.home.toList)
    else (p.home, [c.frame])

/-- The entry of a page whose latest version becomes the one in a frame. A streamed-window copy takes the new contents (R86),
and goes with an absent page. DEDUCED (notes/assumptions/116.md): a shadow of a flash-backed page becomes a dirty staging copy
over a flash frame that its write-back will program (R72), as for a page that an object finds in memory. -/
def newVersion (s : State) (x : Extent) (page : Nat) (new : Option Nat) : Store :=
  let st := s.store
  let p := findPage st page
  let bare (st : Store) : Store := setPage { p with home := new, copy := none } st
  match new, p.copy with
  | some f, some c =>
    if streamedPage st page then setPage { p with home := new } (copyFrame f c.frame st) else backed f bare st
  | some f, none => backed f bare st
  | none, some c => if streamedPage st page then freeFrame c.frame (bare st) else bare st
  | none, none => bare st
where
  backed (f : Nat) (bare : Store → Store) (st : Store) : Store :=
    match pageObj st page with
    | some o =>
      if flashBacked o.policy && frameTier st f ≠ .flash && !(x.old.any fun l => l.pages.any (·.2 == some f)) &&
          !clusterPassed s (clusterOf page) then
        let (h, st) := newFrame .flash st
        let c : Copy := { frame := f, dirty := true, pinned := o.pins.contains page, order := st.nextCopy }
        { setPage { findPage st page with home := some h, copy := some c } st with nextCopy := st.nextCopy + 1 }
      else bare st
    | none => bare st

/-- Replace the latest version of a page, keeping the old one for the older laps that do not have their own (R135, R137);
the frames that may be free now are added to `freed`. -/
def switchPage (idx page : Nat) (new : Option Nat) (acc : State × List (Nat × Nat)) : State × List (Nat × Nat) :=
  let s := acc.1
  match findExt s idx with
  | none => acc
  | some x =>
    let (kept, spare) := keptFrame s.store page
    let old := x.old.map fun l => if l.pages.any (·.1 == page) then l else { l with pages := l.pages ++ [(page, kept)] }
    (updExt { s with store := newVersion s x page new } idx fun y => { y with old := old },
      acc.2 ++ (kept.toList ++ spare).map fun f => (page, f))

/-- Make a set of page versions the latest lap of an extent, under a new number (R137 switch). -/
def switchLap (idx : Nat) (num : BitVec 32) (vers : List (Nat × Option Nat)) (s : State) : State :=
  let s := updExt s idx fun x => { x with latest := num, old := x.old ++ [{ num := x.latest, pages := [] }] }
  let (s, freed) := vers.foldl (fun acc v => switchPage idx v.1 v.2 acc) (s, [])
  releaseVersions idx freed (reapLaps idx s)

/-- Commit the write lap of an extent (R137): its shadows become the latest version of their pages. -/
def commitLap (idx : Nat) (s : State) : State :=
  match findExt s idx with
  | some x => match x.wlap with
    | some w =>
      let s := updExt s idx fun y => { y with wlap := none }
      switchLap idx w.num (w.shadows.map fun p => (p.1, some p.2)) s
    | none => s
  | none => s

/-- Every lap that an ended operation held is released (R131). -/
def dropHolds (op : Nat) (s : State) : State :=
  let idxs := (s.store.extents.filter fun x => x.holds.any (·.1 == op)).map (·.idx)
  let s := { s with store.extents := s.store.extents.map fun x => { x with holds := dropIf x.holds (·.1 == op) } }
  idxs.foldl (fun s i => reapLaps i s) s

end Sys2Proof.Machine
end

