-- ==== Sys2Proof/Machine/Home.lean ====
section
/-! DEFINITION. The home of a line as the module's own engines meet it: the directory (R109, R110), recalls (R113), and
the reads and writes an engine, a walker or a command makes at the home (R102, R112, R131, R146, R323). -/

namespace Sys2Proof.Machine

/-! ### The directory -/

def dirOf (s : State) (line : Nat) : Option DirSt := (s.coh.dir.find? (·.line == line)).map (·.st)

/-- The entry of a line was made in a write lap that has been abandoned since (R138). -/
def dirDead (s : State) (line : Nat) : Bool := s.coh.dir.any fun d => d.line == line && d.dead

/-- Set the directory state of a line; `none` is state I: no entry. DESIGN CHOICE (notes/assumptions/122.md): a write of
the entry's state is what counts as a use for R109's choice of the least recently used. -/
def setDir (line : Nat) (d : Option DirSt) (s : State) : State :=
  let rest := dropIf s.coh.dir (·.line == line)
  { s with coh.dir := match d with | some st => rest ++ [{ line := line, st := st, dead := dirDead s line }] | none => rest }

/-- Agent group: agent number bits [9:4] (R104). -/
def agentGroup (a : BitVec 10) : BitVec 6 := BitVec.ofNat 6 (bits a 4 6)

def agentLost (s : State) (a : BitVec 10) : Bool := s.coh.lost.any (·.1 = a)

/-- The agents a directory state makes the home snoop: none that is lost (R111, R124). -/
def holders (s : State) (d : Option DirSt) : List (BitVec 10) :=
  let l := match d with
    | none => []
    | some (.p as) => as
    | some (.v gs) => (agentsOf s).filter fun a => gs.contains (agentGroup a)
    | some (.xr a) => [a]
    | some (.xw a) => [a]
  l.filter fun a => !agentLost s a

/-- The rider of a registered agent (R104). -/
def agentRider (s : State) (a : BitVec 10) : BitVec 6 := match agentRoute s a with | some x => x.rider | none => 0

/-- A new transaction. -/
def newTrk (t : Trk) (s : State) : State :=
  { s with coh.trks := s.coh.trks ++ [{ t with id := s.coh.nextTrk }], coh.nextTrk := s.coh.nextTrk + 1 }

def updTrk (id : Nat) (f : Trk → Trk) (s : State) : State :=
  { s with coh.trks := updIf s.coh.trks (·.id == id) f }

def endTrk (id : Nat) (s : State) : State := { s with coh.trks := dropIf s.coh.trks (·.id == id) }

def findTrk (s : State) (id : Nat) : Option Trk := s.coh.trks.find? (·.id == id)

def Trk.blank (line : Nat) (rider : BitVec 6) (what : TrkWhat) : Trk :=
  { id := 0, line := line, rider := rider, what := what, phase := .wait, mem := .rd, snoops := [], fwd := none,
    keptS := none, data := [], status := .ok, atHome := false, missed := false, mirror := false, live := true, view := none, lap := .front }

/-! ### The order of a line (R102) -/

/-- Requests to a lap-versioned extent by riders that do not hold its write lap: they meet committed laps, which no agent
holds lines of (R139). -/
def lapAgent (s : State) (x : Extent) (r : BitVec 6) : Bool :=
  extLapped s x && (match x.wlap with | some w => decide (w.rider ≠ r) | none => true)

/-- A write outside a write lap of the rider (R28). -/
def noWlap (s : State) (x : Extent) (r : BitVec 6) : Bool :=
  extLapped s x && (match x.wlap with | some w => decide (w.rider ≠ r) || w.closed | none => true)

/-- A transaction writes, takes ownership, operates or recalls (R102). DEDUCED (notes/assumptions/111.md): an `RD_SHARED`
takes the line alone where R111 may grant it in E, that is unless the line is in P or V. -/
def Trk.writes (s : State) (t : Trk) : Bool :=
  match t.what with
  | .recall => true
  | .eng _ w _ => w
  | .req _ .rdCur => false
  | .req _ .rdShared => match findExt s (extentOf t.line) with
    | some x => !lapAgent s x t.rider && (match dirOf s t.line with
      | some (.p _) => false
      | some (.v _) => false
      | _ => true)
    | none => false
  | .req _ _ => true

/-- A transaction on the line conflicts with an access (R102). -/
def lineBusy (s : State) (line : Nat) (write : Bool) : Bool :=
  s.coh.trks.any fun t => t.line == line && (write || t.writes s)

/-- An earlier transaction on the line, or one in progress, conflicts (R102). -/
def blocked (s : State) (t : Trk) : Bool :=
  s.coh.trks.any fun u => u.line == t.line && decide (u.id ≠ t.id) && (t.writes s || u.writes s) && !sameEngine t u &&
    (decide (u.id < t.id) || decide (u.phase ≠ .wait))
where
  /-- A tree command reads and writes one line under two transactions. -/
  sameEngine (t u : Trk) : Bool := match t.what, u.what with
    | .eng a _ _, .eng b _ _ => a = b
    | _, _ => false

/-- An access is held by an agent-loss scan: it touches an extent in which the lost agent's rider is a writer (R124). -/
def scanHolds (s : State) (off : Nat) : Bool :=
  match findExt s (extentOf off) with
  | some x => s.coh.scans.any fun c => extWriter s x c.rider
  | none => false

def startSnoop (t : Trk) (msg : BitVec 10 → OutMsg) (as : List (BitVec 10)) (s : State) : State :=
  let s := updTrk t.id (fun t => { t with phase := .snoop, snoops := as }) s
  { s with out := s.out ++ as.map msg }

/-- A recall at the front of its line's order: `SNP_INV` to every holder (R113); with no holder the entry is freed at
once. -/
def runRecall (t : Trk) (s : State) : State :=
  let hs := holders s (dirOf s t.line)
  if hs.isEmpty then setDir t.line none (endTrk t.id s) else startSnoop t (fun a => .snpInv a t.id t.line) hs s

/-- A recall of a line for the transaction at the front of its order, which waits until the recall ends (R113). -/
def recallNow (line : Nat) (s : State) : State :=
  let t := { Trk.blank line 0 .recall with id := s.coh.nextTrk }
  runRecall t (newTrk t s)

/-- Ask for a recall of a line (R113); it takes its turn in the line's order. -/
def startRecall (line : Nat) (s : State) : State :=
  if (dirOf s line).isNone || (s.coh.trks.any fun t => t.line == line && decide (t.what = .recall)) then s
  else
    let t := { Trk.blank line 0 .recall with id := s.coh.nextTrk }
    let s := newTrk t s
    if blocked s t || scanHolds s line then s else runRecall t s

/-! ### Trackers (R105) -/

/-- The caching agent that a source is registered as (R103, R104). -/
def reqAgent (s : State) : ReqSrc → Option (BitVec 10)
  | .agent a => if (agentRoute s a).isSome then some a else none
  | .edge src => match sourceRoute s src with
    | some x => if x.caching then some x.agent else none
    | none => none
  | .cxl port ld => match ldRoute s port ld with
    | some x => if x.caching then some x.agent else none
    | none => none
  | _ => none

/-- The rider of the program that a tile runs (R24). -/
def progRider (s : State) (t : BitVec 10) : Option (BitVec 6) :=
  (s.tiles.find? (·.id = t)).bind fun x => x.prog.map (·.rider)

/-- The rider a request acts for (R24); none: the source is not admitted (`AUTH`). A number that has no rider entry holds
no extent and meets `REVOKED` at the home (R25). -/
def srcRider (s : State) : ReqSrc → Option (BitVec 6)
  | .tile t _ => progRider s t
  | .stream t _ => progRider s t
  | .engine r => if (riderEntry s r).isSome then some r else none
  | .agent a => (agentRoute s a).map (·.rider)
  | .edge src => (sourceRoute s src).map (·.rider)
  | .cxl port ld => (ldRoute s port ld).map (·.rider)
  | .remote m r =>
    if (moduleEntry s m.toNat).isSome && !s.expelled.contains (m.setWidth 8) then some r else none

/-- Transactions at the home of a line. -/
def homeTrks (s : State) (wheel : Nat) : Nat := (s.coh.trks.filter fun t => homeWheel t.line == wheel).length

/-- Transactions of a rider at a home. -/
def riderTrks (s : State) (wheel : Nat) (r : BitVec 6) : Nat :=
  (s.coh.trks.filter fun t => homeWheel t.line == wheel && decide (t.rider = r)).length

/-- Riders with requests that wait for a tracker of a home. -/
def waitingRiders (s : State) (wheel : Nat) : List (BitVec 6) :=
  (s.held.filterMap fun h => match h.what with
    | .req r _ => match target s r.opa with
      | .off o => if homeWheel o = wheel then srcRider s r.src else none
      | _ => none
    | _ => none).dedup

/-- A tracker is free for a rider: `RIDER_TRACKERS` are held for each rider that has requests waiting at the home, and the
rest are shared. -/
def trackerFree (s : State) (wheel : Nat) (r : BitVec 6) : Bool :=
  let n := (s.coh.trackers.getD wheel 0).toNat
  let held := (((waitingRiders s wheel).filter (· ≠ r)).map fun x => n - riderTrks s wheel x).sum
  decide (homeTrks s wheel < 16384) && (decide (riderTrks s wheel r < n) || decide (homeTrks s wheel + held < 16384))

/-! ### Meters (R395) -/

def satAdd (a b : Nat) : Nat := satN (2 ^ 64 - 1) (a + b)

def addMeter (r : BitVec 6) (f : Meter → Meter) (s : State) : State :=
  { s with trip := { s.trip with all := f s.trip.all, riders := s.trip.riders.map fun x => if x.1 = r then (x.1, f x.2) else x } }

def meterRd (r : BitVec 6) (n : Nat) : State → State := addMeter r fun m => { m with rd := satAdd m.rd n }
def meterWr (r : BitVec 6) (n : Nat) : State → State := addMeter r fun m => { m with wr := satAdd m.wr n }
def meterFab (r : BitVec 6) (n : Nat) : State → State := addMeter r fun m => { m with fabric := satAdd m.fabric n }
def meterFlash (r : BitVec 6) (n : Nat) : State → State := addMeter r fun m => { m with flash := satAdd m.flash n }

/-! ### Engine accesses -/

/-- Who makes an access: its rider (R24), the operation that holds a view (R131), and what a record names (R329). -/
structure Rq where
  rider  : BitVec 6
  op     : Option Nat
  source : BitVec 32
  va     : Word

/-- A record of a refused access (TYPE 0x0014, R330). -/
def recRefused (rider : BitVec 6) (source : BitVec 32) (st : Status) (addr va : Word) (s : State) : State :=
  writeRec { Rec.blank 0x0014 with status := st.code, rider := riderByte rider, source := source, addr := addr, va := va } s

/-- An access that an OPA's form refuses is recorded in its rider's fault log (R20). -/
def badOpa (q : Rq) (st : Status) (opa : Word) (s : State) : State :=
  if opaMbz opa then s else recRefused q.rider q.source st opa q.va s

/-- The unit whose memory a store offset lies in. -/
def unitOf (s : State) (off : Nat) : BitVec 16 :=
  let w := homeWheel off
  match pageLoc s.store (pageOf off) (granuleOf off) with
  | .frame f => match findFrame s.store f with
    | some fr => match fr.tier with
      | .hbm => unitHbm w
      | .lpddr => unitLpddr (2 * w + fr.ch.toNat)
      | .flash => unitSaddlebag (clusterOf (pageOf off))
    | none => unitHbm w
  | _ => unitSaddlebag (clusterOf (pageOf off))

/-- The detector point of a memory unit (R322). -/
def memPoint (u : BitVec 16) : BitVec 16 := if bits u 12 4 = 5 then 5 else if bits u 12 4 = 6 then 6 else 7

/-- A code word beyond correction was met: 64 distinct ones within 1 s on one stack or channel fence it (R335, trigger
0x05). -/
def countUncorr (u : BitVec 16) (off : Nat) (s : State) : State :=
  let cw := if bits u 12 4 = 5 then off / 32 * 32 else lineOf off
  let recent := s.err.uncorr.filter fun e => decide (s.now.toNat < e.2.2.toNat + 1000000000)
  let all := if recent.any fun e => e.1 = u && e.2.1 == cw then recent else recent ++ [(u, cw, s.now)]
  let s := { s with err.uncorr := all }
  if (bits u 12 4 == 5 || bits u 12 4 == 6) && decide (64 ≤ (all.filter (·.1 = u)).length) && !unitFenced s u then
    markFence u 5 s
  else s

/-- Record an uncorrectable read with a requester (TYPE 0x0002, R323). -/
def recUncorr (q : Rq) (off : Nat) (s : State) : State :=
  let u := unitOf s off
  let pt := memPoint u
  countUncorr u off <| detect
    { Rec.blank 0x0002 with
      status := Status.uncorrectable.code, point := pt, unit := u, rider := riderByte q.rider, source := q.source
      addr := BitVec.ofNat 64 off, va := q.va } s

/-! ### Injected memory errors (R344) -/

/-- The armed injection at points 0x05 and 0x06 that a use of a store offset meets. -/
def injHit (s : State) (off : Nat) : Option Inj :=
  let u := unitOf s off
  let cw := if bits u 12 4 = 5 then 32 else 64
  if memPoint u = 7 then none
  else s.err.inj.find? fun i =>
    i.point = memPoint u && i.unit = u && (i.target = 0 || i.target.toNat / cw == off / cw)

/-- Alter the code word of a frame that holds a store offset. -/
def alterWord (soft : Bool) (f off : Nat) (s : State) : State :=
  let cw := codeWord (frameTier s.store f)
  let a := (f * 65536 + off % 65536) / cw * cw
  if soft then (if s.store.soft.contains a then s else { s with store.soft := s.store.soft ++ [a] })
  else if s.store.bad.contains a then s
  else { s with store.bad := s.store.bad ++ [a] }

/-- Read a view of a code word as the memory controller does: an armed injection acts at this use, and what the code
corrects is counted (R327, R344). -/
def memRead (s : State) (x : Extent) (v : View) (off len : Nat) (who : Option Nat) : RdRes × State :=
  if s.err.inj.isEmpty && s.store.soft.isEmpty then (readAt s x v off len who, s)
  else match viewLoc s.store x v (pageOf off) (granuleOf off) with
    | .frame f =>
      let hit := injHit s off
      let s := match hit with
        | some i => if i.target = 0 && i.mode.toNat < 2 then alterWord (i.mode = 0) f off s else s
        | none => s
      let a := f * 65536 + off % 65536
      match readAt s x v off len who with
      | .data bs =>
        if hit.any (·.mode = 2) then (.fail .uncorrectable, s)
        else if s.store.soft.any fun b => decide (a < b + codeWord (frameTier s.store f)) && decide (b < a + len) then
          (.data bs, corrected (memPoint (unitOf s off)) (unitOf s off) (BitVec.ofNat 64 off) s)
        else (.data bs, s)
      | r => (r, s)
    | _ => (readAt s x v off len who, s)

/-- An access uses the frame map of its home: where an injection makes both copies of an entry fail, the Cassette is fenced
(R328, R335 trigger 0x06). -/
def mapUse (off : Nat) (s : State) : State :=
  let u := unitCassette (homeWheel off)
  if !injBad s 0x04 u || unitFenced s u then s
  else
    let s := (takeInj 0x04 u s).2
    writeRec { Rec.blank 0x0008 with unit := u, flags := 0xA0, arg0 := 6 } { s with
      err.fences := s.err.fences ++ [u]
      err.mgmt := s.err.mgmt ++ [u] }

/-- The view of a request: held for an operation (R131), else fixed at the front of the line's order, else the rider's
own. -/
def viewFor (s : State) (x : Extent) (q : Rq) (fixed : Option View) : View × State :=
  match q.op, fixed with
  | some op, _ => takeView s x op q.rider
  | none, some v => (v, s)
  | none, none => (viewOf s x q.rider, s)

/-! ### An engine's access in its line's order (R102, R105, R112)

An access that meets nothing on its line is made at once. One that must wait takes a tracker (`TrkWhat.eng`) and its place
in the line's order; the engine tries again until its transaction is `ready`. -/

def Rq.key (q : Rq) (off : Nat) : EngKey := { source := q.source, va := q.va, off := off }

def findTicket (s : State) (k : EngKey) (write : Bool) : Option Trk :=
  s.coh.trks.find? fun t => match t.what with
    | .eng j w _ => decide (j = k) && w == write
    | _ => false

/-- The access has been made, or has failed: its transaction ends. -/
def dropTicket (k : EngKey) (write : Bool) (s : State) : State :=
  match findTicket s k write with
  | some t => endTrk t.id s
  | none => s

/-- The agents an access makes the home snoop: `RD_CUR` the holder of write ownership, a write every holder (R112). -/
def engSnoops (s : State) (x : Extent) (r : BitVec 6) (line : Nat) (write : Bool) : List (BitVec 10) :=
  if lapAgent s x r then []
  else match write, dirOf s line with
    | true, d => holders s d
    | false, some (.xw a) => holders s (some (.xw a))
    | false, _ => []

/-- The line is still listed for an abandoned write lap, and a transaction would meet it in another (R138). DEDUCED
(notes/assumptions/118.md): the copies that agents keep of it are recalled first. -/
def deadFor (s : State) (t : Trk) : Bool :=
  dirDead s t.line && (match findExt s (extentOf t.line) with | some x => !lapAgent s x t.rider | none => true)

/-- The access stands at the front of its line's order. -/
def readyTrk (t : Trk) (x : Extent) (write : Bool) (s : State) : State :=
  let s := if write && !lapAgent s x t.rider then setDir t.line none s else s
  updTrk t.id (fun u => { u with phase := .ready, view := some (viewOf s x t.rider) }) s

/-- Start a waiting engine access when it has come to the front of its line's order. -/
def startEng (t : Trk) (write : Bool) (s : State) : State :=
  if blocked s t || scanHolds s t.line then s
  else if deadFor s t then recallNow t.line s
  else match findExt s (extentOf t.line) with
    | none => updTrk t.id (fun u => { u with phase := .ready, status := .revoked }) s
    | some x =>
      let as := engSnoops s x t.rider t.line write
      if as.isEmpty then readyTrk t x write s
      else startSnoop t (fun a => if write then .snpInv a t.id t.line else .snpCur a t.id t.line) as s

/-- A transaction that is accepted now stands in its rider's write lap where that accepts writes (R137). -/
def lapTag (s : State) (x : Extent) (r : BitVec 6) : LapTag :=
  match x.wlap with
  | some w => if extLapped s x && w.rider = r && !w.closed then .entered else .front
  | none => .front

/-- A new transaction of an engine's access; none while no tracker is free. -/
def takeTicket (q : Rq) (x : Extent) (off : Nat) (write full : Bool) (phase : TrkPhase) (v : Option View) (s : State) : State :=
  if trackerFree s (homeWheel off) q.rider then
    newTrk { Trk.blank (lineOf off) q.rider (.eng (q.key off) write full) with
      phase := phase, view := v, lap := lapTag s x q.rider } s
  else s

inductive Turn where
  | now (view : Option View)
  | wait
  /-- the write was made; the twin's copy has landed since -/
  | made
  | fail (st : Status)
deriving DecidableEq, Repr

/-- Whether an access may be made now; `x` is its extent. -/
def engTurn (s : State) (x : Extent) (q : Rq) (off : Nat) (write full : Bool) : Turn × State :=
  let go (t : Trk) (s : State) : Turn × State :=
    match findTrk s t.id with
    | some u => if u.phase = .ready then (.now u.view, s) else (.wait, s)
    | none => (.wait, s)
  match findTicket s (q.key off) write with
  | some t => match t.phase with
    | .ready => (if t.status = .ok then .now t.view else .fail t.status, s)
    | .mirror => if mirrorLeft s (pageOf off) then (.wait, s) else (.made, s)
    | .wait => go t (startEng t write s)
    | _ => (.wait, s)
  | none =>
    if !lineBusy s (lineOf off) write && !scanHolds s off && !dirDead s (lineOf off) &&
        (engSnoops s x q.rider (lineOf off) write).isEmpty then
      (.now none, if write && !lapAgent s x q.rider then setDir (lineOf off) none s else s)
    else
      let s := takeTicket q x off write full .wait none s
      match findTicket s (q.key off) write with
      | some t => go t (startEng t write s)
      | none => (.wait, s)

/-- The rights of an access (R25, R27): what a revoke withdrew after the home accepted it does not count (R42). -/
def accessAt (s : State) (q : Rq) (off : Nat) (write : Bool) : Status ⊕ Extent :=
  let accepted := (findTicket s (q.key off) write).isSome
  if homeFenced s off then .inl .fenced
  else match findExt s (extentOf off) with
    | none => .inl .revoked
    | some x =>
      let y := if accepted then { x with live := true } else x
      if !extLive s y q.rider || (write && !extWriter s y q.rider) then .inl .revoked else .inr x

/-- An access waits for its memory (R119): it keeps its place, and what it waits for is started. -/
def holdAccess (q : Rq) (x : Extent) (off : Nat) (write full : Bool) (whole : Option (BitVec 32)) (v : View) (s : State) : State :=
  let s := if (findTicket s (q.key off) write).isSome then s else takeTicket q x off write full .ready (some v) s
  awaitMem s x v off write whole ((findTicket s (q.key off) write).map (·.id))

/-- Read bytes of one line of this module for an engine: `RD_CUR` at the home (R112). -/
def homeRead (s : State) (q : Rq) (off len : Nat) : RdRes × State :=
  let s := mapUse off s
  let drop := dropTicket (q.key off) false
  match accessAt s q off false with
  | .inl st => (.fail st, drop s)
  | .inr x => match engTurn s x q off false false with
    | (.wait, s) => (.wait, s)
    | (.made, s) => (.wait, s)
    | (.fail st, s) => (.fail st, drop s)
    | (.now fixed, s) =>
      if x.fenced then (.fail .fenced, drop s)
      else
        let (v, s) := viewFor s x q fixed
        match memRead s x v off len ((findTicket s (q.key off) false).map (·.id)) with
        | (.data bs, s) => (.data bs, drop (meterRd q.rider len s))
        | (.wait, s) => (.wait, holdAccess q x off false false none v s)
        | (.fail .uncorrectable, s) => (.fail .uncorrectable, drop (recUncorr q off s))
        | (.fail st, s) => (.fail st, drop s)

inductive WrOut where
  | done
  | wait
  | fail (st : Status)
deriving DecidableEq, Repr

/-- The write is in memory: it has landed, or it has when the twin's copy of a synchronously mirrored page has (R148). -/
def landWrite (q : Rq) (off : Nat) (full : Bool) (s : State) : WrOut × State :=
  if s.pair.inFlight.contains (pageOf off) then
    let s := dropTicket (q.key off) true s
    (.wait, newTrk { Trk.blank (lineOf off) q.rider (.eng (q.key off) true full) with phase := .mirror } s)
  else (.done, dropTicket (q.key off) true s)

/-- Write masked bytes of one line of this module for an engine: `WR_PART` or `WR_FULL` at the home (R112). DESIGN CHOICE
(notes/assumptions/112.md): the bytes of an access that lie in one line are written, and read, in one step, though R147
makes only the bytes of one aligned word indivisible. -/
def homeWrite (s : State) (q : Rq) (off : Nat) (bs : List (Option Byte)) (whole : Bool) : WrOut × State :=
  let s := mapUse off s
  let full := bs.length == 64 && bs.all (·.isSome)
  let drop := dropTicket (q.key off) true
  let mine := findTicket s (q.key off) true
  match accessAt s q off true with
  | .inl st => (.fail st, drop s)
  | .inr x =>
    if (noWlap s x q.rider && mine.isNone && q.op.isNone) || mine.any (fun t => decide (t.lap = .dead ∧ t.phase ≠ .mirror)) then
      (.fail .lapClosed, drop s)
    else if mine.isNone && (syncMirror s x (pageOf off)).isSome && !trackerFree s (homeWheel off) q.rider then (.wait, s)
    else match engTurn s x q off true full with
    | (.wait, s) => (.wait, s)
    | (.made, s) => (.done, drop s)
    | (.fail st, s) => (.fail st, drop s)
    | (.now fixed, s) =>
      if x.fenced then (.fail .fenced, drop s)
      else
        let (v, s) := viewFor s x q fixed
        let op := if whole then some q.source else none
        let now := findTicket s (q.key off) true
        match writeAt s x v off bs op (now.map (·.id)) (now.any fun t => decide (t.lap = .entered)) with
        | .done s => landWrite q off full (meterWr q.rider bs.length s)
        | .wait => (.wait, holdAccess q x off true full op v s)
        | .fail .uncorrectable => (.fail .uncorrectable, drop (recUncorr q off s))
        | .fail st => (.fail st, drop s)

/-- All bytes of a write given. -/
def allBytes (bs : List Byte) : List (Option Byte) := bs.map some

/-- Cut a range into its pieces per line: offset and length. `fuel` bounds the number of pieces. -/
def linePieces : Nat → Nat → Nat → List (Nat × Nat)
  | 0, _, _ => []
  | fuel + 1, a, n =>
    if n = 0 then []
    else
      let k := min n (64 - a % 64)
      (a, k) :: linePieces fuel (a + k) (n - k)

def piecesOf (a n : Nat) : List (Nat × Nat) := linePieces (n / 64 + 2) a n

/-- Read a range of this module line by line; the first line that waits or fails decides. -/
def homeReadN (s : State) (q : Rq) (off len : Nat) : RdRes × State :=
  (piecesOf off len).foldl (fun acc p =>
    match acc.1 with
    | .data bs =>
      let (r, s) := homeRead acc.2 q p.1 p.2
      match r with
      | .data b => (.data (bs ++ b), s)
      | x => (x, s)
    | _ => acc) (.data [], s)

/-- Write a range of this module line by line; the first line that waits or fails stops it. The number tells how many bytes
have been written. -/
def homeWriteN (s : State) (q : Rq) (off : Nat) (bs : List Byte) : WrOut × Nat × State :=
  (piecesOf off bs.length).foldl (fun acc p =>
    match acc with
    | (.done, n, s) => match homeWrite s q p.1 (allBytes ((bs.drop (p.1 - off)).take p.2)) false with
      | (.done, s) => (.done, n + p.2, s)
      | (r, s) => (r, n, s)
    | _ => acc) (.done, 0, s)

end Sys2Proof.Machine
end

