-- ==== Sys2Proof/Machine/Port.lean ====
section
/-! DEFINITION. How a command packet enters the module: the opcode table of R303 with R421, the header checks of R299,
versions (R296), duplicates (R300), holds (R313, R358, R371), Kickstand (R377), the sideband (R410) and the wake of a
sleeping module (R375). -/

namespace Sys2Proof.Machine

/-! ### The opcodes (R303, R421) -/

inductive PayloadLen where
  | none
  | fixed (n : Nat)
  | atLeast (n : Nat)
deriving DecidableEq, Repr

/-- A row of R303: the sources, the surrogate mark, the lengths, and whether it acts for a rider on the port. -/
structure OpInfo where
  fromP   : Bool
  fromQ   : Bool
  surr    : Bool
  params  : Nat
  payload : PayloadLen
  forR    : Bool
deriving DecidableEq, Repr

def pq (surr : Bool) (params : Nat) (payload : PayloadLen) (forR : Bool) : Option OpInfo :=
  some { fromP := true, fromQ := true, surr := surr, params := params, payload := payload, forR := forR }

def pOnly (surr : Bool) (params : Nat) (payload : PayloadLen) (forR : Bool) : Option OpInfo :=
  some { fromP := true, fromQ := false, surr := surr, params := params, payload := payload, forR := forR }

/-- The opcodes of R303; none: not defined. -/
def opInfo (op : Nat) : Option OpInfo :=
  match op with
  | 0x000 => pq false 0 .none false
  | 0x001 => pOnly false 8 .none false
  | 0x010 => pOnly false 8 .none false
  | 0x011 => pOnly false 16 .none false
  | 0x018 => pOnly false 8 (.atLeast 1) false
  | 0x019 => pOnly false 0 .none true
  | 0x020 => pq false 40 .none true
  | 0x021 => pq false 8 .none true
  | 0x100 => pOnly true 8 .none false
  | 0x101 => pOnly true 8 .none false
  | 0x102 => pq true 8 .none false
  | 0x103 => some { fromP := false, fromQ := true, surr := true, params := 16, payload := .none, forR := true }
  | 0x180 => pq false 8 .none true
  | 0x181 => pq false 32 .none true
  | 0x182 => pq false 24 .none true
  | 0x200 => pq true 8 .none true
  | 0x201 => pq true 8 .none true
  | 0x202 => pq true 8 (.atLeast 0) true
  | 0x203 => pq true 8 .none true
  | 0x204 => pq true 8 .none true
  | 0x205 => pq true 8 .none true
  | 0x280 => pq true 32 .none true
  | 0x281 => pq true 16 (.atLeast 0) true
  | 0x282 => pq true 16 .none true
  | 0x283 => pq true 16 .none true
  | 0x284 => pq true 16 .none true
  | 0x300 => pq true 0 (.atLeast 1) true
  | 0x301 => pq true 64 .none true
  | 0x302 => pq true 64 (.fixed 8) true
  | 0x380 => pq true 64 .none true
  | 0x381 => pq true 64 .none true
  | 0x382 => pq true 64 .none true
  | 0x383 => pq true 64 (.atLeast 0) true
  | 0x400 => pOnly false 16 .none true
  | 0x401 => pq false 16 .none true
  | 0x402 => pq false 16 .none true
  | 0x403 => pq false 16 .none false
  | 0x404 => pq false 24 .none false
  | 0x480 => pq true 8 (.atLeast 1) true
  | 0x481 => pq true 16 .none true
  | 0x500 => pOnly false 16 (.atLeast 1) false
  | 0x501 => pOnly false 8 .none false
  | 0x502 => pOnly false 32 .none false
  | 0x580 => pOnly false 64 .none false
  | 0x581 => pOnly false 0 .none false
  | 0x600 => pq false 16 .none false
  | 0x601 => pOnly false 32 (.fixed 2424) false
  | 0x602 => pOnly false 16 .none false
  | 0x603 => pOnly false 8 .none false
  | 0x680 => pOnly false 0 .none false
  | 0x681 => pOnly false 8 .none false
  | 0x682 => pOnly false 0 (.atLeast 1) false
  | 0x683 => pOnly false 0 (.atLeast 1) false
  | 0x684 => pOnly false 0 (.atLeast 1) false
  | 0x700 => pq false 8 .none false
  | 0x701 => pOnly false 16 .none false
  | _ => none

/-- Commands the sideband accepts while the package runs (R410): `ERR_LOG_READ` with scope 0 only. -/
def sidebandRuns (op : Nat) (c : Cmd) : Bool :=
  op ∈ [0x000, 0x001, 0x010, 0x011, 0x580, 0x581, 0x602, 0x603, 0x502] || (op == 0x600 && !bit (c.p 0) 0)

/-- Commands the recovery image serves (R354, R410). -/
def recoveryServes (op : Nat) : Bool := op ∈ [0x001, 0x500, 0x501, 0x502, 0x602]

/-- Commands a module in Kickstand runs (R377). -/
def kickstandRuns (s : State) (op : Nat) : Bool :=
  op ∈ [0x000, 0x001, 0x010, 0x011, 0x580, 0x581, 0x600, 0x602, 0x700, 0x701, 0x502, 0x680, 0x681, 0x682, 0x683] ||
    (op == 0x018 && s.power.kick = 3)

/-- The command acts for a rider (R421): `ERR_LOG_READ` does with scope 1. -/
def actsForRider (i : OpInfo) (op : Nat) (c : Cmd) : Bool := i.forR || (op == 0x600 && bit (c.p 0) 0)

/-! ### The header checks of R299 -/

def PayloadLen.ok (p : PayloadLen) (n : Nat) : Bool :=
  match p with
  | .none => n == 0
  | .fixed k => n == k
  | .atLeast k => decide (k ≤ n)

/-- The negotiated version of a source: the port's, the sideband's or the queue's. -/
def srcVersion (s : State) : Src → Option (BitVec 4)
  | .port => s.port.version
  | .sideband => s.port.sbVersion
  | .queue q => (s.queues.find? (·.q = q)).map (·.version)

/-- Check 1: version (a first `HELLO` meets none yet), reserved header fields and flags, length ranges; version 1 has neither `SURROGATE` nor `EPOCH`
(R296, R297). -/
def hdrForm (s : State) (op : Nat) (c : Cmd) : Bool :=
  let h := c.h
  (srcVersion s h.src == some h.version || (op == 0x001 && (srcVersion s h.src).isNone)) && bits h.flags 5 11 == 0 && !bit h.flags 0 && bits h.rider 6 2 == 0 &&
    bits h.chunk 4 4 == 0 && bits h.queue 13 3 == 0 && h.rsv = 0 &&
    (h.version ≠ 1 || (!h.surrogate && h.epoch = 0)) &&
    (match h.src with | .queue _ => true | _ => h.queue = 0 && h.replyVa = 0) &&
    decide (h.paramLen.toNat ≤ 1024) && h.paramLen.toNat % 8 == 0 && decide (h.payloadLen.toNat ≤ 65536) &&
    (match h.src with | .sideband => decide (h.payloadLen.toNat ≤ 4096) | _ => true)

/-- Check 3: source, owner and number of a queue, `RIDER` of a command that acts for none. -/
def hdrSource (s : State) (i : OpInfo) (op : Nat) (c : Cmd) : Bool :=
  match c.h.src with
  | .port => i.fromP && (actsForRider i op c || c.h.rider = 0)
  | .sideband =>
    i.fromP && (s.phase = .recoveryImage || sidebandRuns op c) && (actsForRider i op c || c.h.rider = 0)
  | .queue q =>
    i.fromQ && bits c.h.queue 0 13 == q.toNat &&
      (match s.queues.find? (·.q = q) with | some x => x.rider = c.h.r | none => false)

/-- Check 4: `MORE`, `CHUNK` (R301), `SURROGATE` (R302), `NOTIFY`. -/
def hdrFlags (s : State) (i : OpInfo) (op : Nat) (c : Cmd) : Bool :=
  (chunked op || (!c.h.more && c.h.chunk = 0)) &&
    (!c.h.surrogate || (decide (c.h.version = 2) && i.surr && s.pair.surr)) &&
    (!c.h.notify || (match c.h.src with | .queue _ => true | _ => false))

/-- Check 6: lengths fixed by R303; a chunk after the first carries no parameters (R301). -/
def hdrLens (i : OpInfo) (op : Nat) (c : Cmd) : Bool :=
  (c.h.paramLen.toNat == (if chunked op && c.h.chunk ≠ 0 then 0 else i.params)) && i.payload.ok c.h.payloadLen.toNat

/-- The checks of R299, in order; none when all pass. -/
def hdrChecks (s : State) (op : Nat) (c : Cmd) : Option Status :=
  if !hdrForm s op c then some .badParam
  else match opInfo op with
    | none => some .badOpcode
    | some i =>
      firstFail [(hdrSource s i op c, .auth), (hdrFlags s i op c, .badParam),
        (c.h.epoch = 0 || c.h.epoch = epochNow s, .staleMap), (hdrLens i op c, .badParam)]

/-- Busy states that refuse a command whose header is in order: Kickstand (R377) and a rider that is being reset
(R321). -/
def busyChecks (s : State) (op : Nat) (c : Cmd) : Option Status :=
  if s.power.st = .kickstand && !kickstandRuns s op then some .busy
  else match c.h.src with
    | .queue _ => none
    | _ => match opInfo op with
      | some i => if actsForRider i op c && s.resets.contains c.h.r then some .busy else none
      | none => none

/-! ### Running a command -/

abbrev Body := Cmd → State → Eff

def openOf (op : Nat) (c : Cmd) : Open := { op := BitVec.ofNat 12 op, h := c.h }

/-- Complete an effect: send its answer, or leave the command open. -/
def finish (o : Open) (e : Eff) : State :=
  match e.ans with
  | some a => complete o a.status a.result a.payload e.st
  | none => e.st

/-- The assembly of a chunk's source and tag is discarded (R301). -/
def dropAssembly (c : Cmd) (s : State) : State :=
  { s with port.assemblies := dropIf s.port.assemblies fun a => a.src = c.h.src && a.tag = c.h.tag }

/-- A command is refused by a header check. A chunk that is refused with `BAD_PARAM` takes its assembly with it, and an entry
between the chunks of a queue ends theirs (R301). -/
def refuseHdr (op : Nat) (c : Cmd) (st : Status) (s : State) : State :=
  let o := openOf op c
  let s := { s with port.assemblies := assembliesAfter o s.port.assemblies }
  complete o st 0 [] (if chunked op && st = .badParam then dropAssembly c s else s)

/-- Start a command: its header checks, the busy states, then its own chapter. -/
def startCmd (op : Nat) (c : Cmd) (body : Body) (s : State) : State :=
  let o := openOf op c
  match hdrChecks s op c with
  | some st => refuseHdr op c st s
  | none => match busyChecks s op c with
    | some st => complete o st 0 [] s
    | none => finish o (body c (openCmd o s))

/-- New port commands are held: supply hold (R371), the hold step of an activation (R358). -/
def portHeld (s : State) : Bool := s.power.hold || decide (2 ≤ s.fw.act.step)

def portOutstanding (s : State) : List Open := s.port.outstanding.filter fun o => o.h.src = .port

/-- A held or waiting command may start: an `ORDERED` one only after every earlier port command has returned (R313). -/
def mayStart (s : State) (c : Cmd) : Bool :=
  !portHeld s && (!c.h.ordered || (portOutstanding s).isEmpty)

/-- What becomes of a packet that reaches the port (R295, R296, R300). -/
inductive Admit where
  | drop
  | again (r : Reply)
  | refuse (st : Status)
  | mismatch
  | hold
  | run
deriving DecidableEq, Repr

def portAdmit (s : State) (op : Nat) (c : Cmd) : Admit :=
  if !(s.port.lanes.any id) then .drop
  else match (portOutstanding s).find? (·.h.tag = c.h.tag) with
    | some o => if o.op.toNat == op then .drop else .mismatch
    | none => match s.port.heldCmds.find? (·.c.h.tag = c.h.tag) with
      | some o => if o.op.toNat == op then .drop else .mismatch
      | none => match (s.port.tags.reverse.find? (·.1 = c.h.tag)).map (·.2) with
        | some r => if r.op.toNat == op then .again r else .mismatch
        | none =>
          if !chunked op && s.port.assemblies.any (fun a => a.src = .port && a.tag = c.h.tag) then .mismatch
          else if 1024 ≤ (portOutstanding s).length + s.port.heldCmds.length then .refuse .busy
          else if op == 0x001 && !((portOutstanding s).isEmpty && s.port.heldCmds.isEmpty) then .refuse .busy
          else if s.phase = .recoveryImage && !recoveryServes op then .refuse .badOpcode
          else if s.port.version.isNone && op ≠ 0x001 then .refuse .badOpcode
          else if !s.port.heldCmds.isEmpty || !mayStart s c then .hold
          else .run

/-- A kept reply is sent again; with its payload dropped it carries `PAYLOAD_LOST` (R300). -/
def sendAgain (r : Reply) (s : State) : State := sendReply r s

/-- The module leaves Freewheel or Coast for Cruise, or for Brake while a cause holds (R375); leaving Freewheel its links
begin to retrain, and each is up once it is trained (R257). -/
def wakeUp (s : State) : State :=
  let st : PState := if s.power.causes.isEmpty then .cruise else .brake
  match s.power.st with
  | .freewheel =>
    let s := { s with power.st := st, power.wakeMs := 0 }
    { s with fab.ports := s.fab.ports.mapIdx fun i p =>
        if p.mode ≠ 0 && !p.up && !unitFenced s (unitPort i) then
          { p with retraining := true, down := false, retrains := bumpSat p.retrains 1 }
        else p }
  | .coast => { s with power.st := st }
  | _ => s

/-- A command packet arrives, from wherever (R295, R312, R410). -/
def runPacket (op : Nat) (c : Cmd) (body : Body) (s : State) : State :=
  let o := openOf op c
  match c.h.src with
  | .queue q =>
    if s.phase = .running && s.queues.any (·.q = q) then startCmd op c body s else s
  | .sideband =>
    match s.phase with
    | .running =>
      if s.port.sbVersion.isNone && op ≠ 0x001 then complete o .badOpcode 0 [] s else startCmd op c body s
    | .recoveryImage =>
      if !recoveryServes op || (s.port.sbVersion.isNone && op ≠ 0x001) then complete o .badOpcode 0 [] s
      else startCmd op c body s
    | .off => if s.side.aux then complete o .busy 0 [] s else s
    | _ => complete o .busy 0 [] s
  | .port =>
    if s.phase ≠ .running && s.phase ≠ .recoveryImage then s
    else
      let s := wakeUp s
      match portAdmit s op c with
      | .drop => s
      | .again r => sendAgain r s
      | .mismatch => sendReply (mkReply o .badParam 0 [] s) s
      | .refuse st => complete o st 0 [] s
      | .hold => { s with port.heldCmds := s.port.heldCmds ++ [{ op := BitVec.ofNat 12 op, c := c }] }
      | .run => startCmd op c body s

/-- `NOP`: does nothing and returns `OK` (R303). -/
def bodyNop : Body := fun _ s => Eff.ok s

def execNop (c : Cmd) (s : State) : Out State := .next (runPacket 0x000 c bodyNop s)

/-! ### `HELLO` (R296) -/

/-- `HS_MODULE_ID` of a Headset (R4). -/
def moduleId (s : State) (position : Nat) : Word :=
  BitVec.ofNat 64 (0xF064 * 2 ^ 48 + (Config.lpddrGib s.variant).toNat * 2 ^ 32 +
    (Config.nandTib s.variant).toNat * 2 ^ 16 + 0xB000 + position)

/-- The acting primary's position: the standby's after a failover (R367). -/
def actingHeadset (s : State) : Nat := if s.fw.failedOver then 1 else 0

/-- The version chosen from a range: the highest of 1 and 2 that lies in it. -/
def chooseVersion (lo hi : Nat) : Option (BitVec 4) :=
  if lo ≤ 2 && 2 ≤ hi then some 2 else if lo ≤ 1 && 1 ≤ hi then some 1 else none

/-- The 32-byte payload of the `HELLO` reply. -/
def helloPayload (s : State) (v : BitVec 4) : List Byte :=
  wordBytes (moduleId s (actingHeadset s)) ++ wordBytes s.env.fp ++ leBytes 4 s.nv.bootCount.toNat ++
    leBytes 4 (epochNow s).toNat ++ [v.setWidth 8, BitVec.ofNat 8 s.me] ++ zeros 6

def bodyHello : Body := fun c s =>
  let p := c.p 0
  if bits p 16 48 ≠ 0 then Eff.stat .badParam s
  else match chooseVersion (bits p 0 8) (bits p 8 8) with
    | none => Eff.stat .badParam s
    | some v =>
      let s := match c.h.src with
        | .sideband => { s with port.sbVersion := some v }
        | _ => { s with port.version := some v }
      Eff.data .ok 0 (helloPayload s v) s

def execHello (c : Cmd) (s : State) : Out State := .next (runPacket 0x001 c bodyHello s)

end Sys2Proof.Machine
end

