-- ==== Sys2Proof/Machine/Xlat.lean ====
section
/-! DEFINITION. Address translation (chapter 3): the tree and its walk (R46 to R56), the TLBs (R54), and the commands
`PT_BASE_SET`, `MAP_RANGE` and `UNMAP_RANGE` (R48, R53, R58 to R61). -/

namespace Sys2Proof.Machine

/-! ### Entries (R46, R49, R50) -/

/-- Bytes that an entry of a level maps, as a power of two. -/
def lvlShift (lvl : Nat) : Nat := 16 + 9 * lvl

def ptIndex (va lvl : Nat) : Nat := (va >>> lvlShift lvl) % (if lvl = 4 then 32 else 512)

inductive EntRes where
  | fault (reason : Nat)
  | leaf
  | next (table : Nat)
deriving DecidableEq, Repr

/-- Reserved bits and encodings of a leaf, with the sync-object rule (R49). -/
def leafReserved (e : Word) (lvl : Nat) : Bool :=
  bits e 4 8 ≠ 0 || bits e 62 2 == 1 || bits e 62 2 == 3 || decide (9 < bits e 12 4) || (bit e 3 && !bit e 2) ||
    (bits e 62 2 == 2 && (decide (lvl ≠ 0) || decide (1 < bits e 12 4) || decide (1 < bits e 16 32)))

/-- Page and group alignment of a leaf (R49, R51). -/
def leafAligned (e : Word) (va lvl : Nat) : Bool :=
  let pn := bits e 16 32
  pn % 2 ^ (9 * lvl) == 0 && (pn >>> (9 * lvl)) % 2 ^ bits e 12 4 == ptIndex va lvl % 2 ^ bits e 12 4

/-- The checks of one entry, in the order of R55. -/
def checkEntry (e : Word) (va lvl : Nat) (write : Bool) : EntRes :=
  if !bit e 0 then .fault 0x3
  else if bit e 1 then
    if leafReserved e lvl then .fault 0x4
    else if 3 ≤ lvl then .fault 0x5
    else if !leafAligned e va lvl then .fault 0x6
    else if (if write then !bit e 3 else !bit e 2) then .fault 0x9
    else .leaf
  else if bits e 48 16 ≠ 0 || bits e 2 10 ≠ 0 then .fault 0x4
  else if lvl = 0 then .fault 0x5
  else .next (bits e 12 36 * 4096)

/-- The OPA that a leaf gives a virtual address. -/
def leafOpa (e : Word) (va lvl : Nat) : Word :=
  BitVec.ofNat 64 (bits e 48 16 * 2 ^ 48 + bits e 16 32 * 65536 + va % 2 ^ lvlShift lvl)

/-- The TLB entry that a leaf makes: its whole run (R51). -/
def leafTlb (wheel : Nat) (r : BitVec 6) (e : Word) (va lvl : Nat) : TlbEnt :=
  let n := bits e 12 4
  let size := 2 ^ (lvlShift lvl + n)
  let base := va / size * size
  { wheel := wheel, rider := r, va := base, size := size, opa := (leafOpa e va lvl).toNat - (va - base), r := bit e 2
    w := bit e 3 }

/-! ### Table pages (R47) -/

/-- The fault of a table page that breaks R47: 0x8 extent, 0x7 object. -/
def tablePageFault (s : State) (r : BitVec 6) (off : Nat) : Option Nat :=
  match findExt s (extentOf off) with
  | none => some 0x8
  | some x => match extRun s x with
    | none => some 0x8
    | some u =>
      if !x.live || !u.privateTo r || u.lapped || x.mirrorOf.isSome then some 0x8
      else match pageObj s.store (pageOf off) with
        | some o => if o.policy = 1 || o.policy = 2 then none else some 0x7
        | none => some 0x7

/-- Sources in a record (R329). -/
def srcTile (t : BitVec 10) (c : BitVec 4) : BitVec 32 := BitVec.ofNat 32 (0x10000000 + t.toNat * 16 + c.toNat)
def srcStream (t : BitVec 10) (n : BitVec 5) : BitVec 32 := BitVec.ofNat 32 (0x20000000 + t.toNat * 32 + n.toNat)
def srcQueue (q : BitVec 13) : BitVec 32 := BitVec.ofNat 32 (0x30000000 + q.toNat)
def srcAgent (a : BitVec 10) : BitVec 32 := BitVec.ofNat 32 (0x40000000 + a.toNat)
def srcFabric (f : BitVec 24) : BitVec 32 := BitVec.ofNat 32 (0x50000000 + f.toNat)
def srcEngine (n : Nat) : BitVec 32 := BitVec.ofNat 32 (0x60000000 + n % 2 ^ 28)

/-- The source that a record names for a client (R56): of a tile, the context of the access. DESIGN CHOICE
(notes/assumptions/14.md): an event ring, which has no queue number, is named by source 0; a `QUEUE_CREATE` names the queue
that it would create. -/
def clientSource (cl : XClient) (acc : Option Access) : BitVec 32 :=
  match cl with
  | .tile t => match acc with
    | some a => srcTile a.tile a.ctx
    | none => srcTile t 0
  | .stream t n => srcStream t n
  | .queue q => srcQueue q
  | .ring _ => 0

/-- Record a translation fault (R56): the fault log, and the count of the unit's register. -/
def xlatFault (wheel : Nat) (r : BitVec 6) (source : BitVec 32) (va : Word) (reason lvl : Nat) (s : State) : State :=
  let s := { s with xlat.faults := updAt s.xlat.faults wheel fun f => bumpSat f 1 }
  detect
    { Rec.blank 0x0005 with
      status := Status.translation.code, point := 0x0C, unit := unitChainring wheel, rider := riderByte r
      source := source, va := va, arg0 := BitVec.ofNat 64 reason, arg1 := BitVec.ofNat 32 lvl } s

/-! ### Clients (R45, R54) -/

/-- The wheel whose translation unit serves a client. -/
def clientWheel : XClient → Nat
  | .tile t => tileWheel t
  | .stream t _ => tileWheel t
  | .queue q => q.toNat % 16
  | .ring r => r.toNat % 16

/-- Entries of a client's micro-TLB. DESIGN CHOICE (notes/assumptions/14.md): an event ring's client has a queue's. -/
def microCap : XClient → Nat
  | .tile _ => 32
  | .stream _ _ => 4
  | .queue _ => 2
  | .ring _ => 2

/-- A TLB entry that translates an access. -/
def TlbEnt.hits (t : TlbEnt) (r : BitVec 6) (va : Nat) (write : Bool) : Bool :=
  t.rider = r && decide (t.va ≤ va) && decide (va < t.va + t.size) && (if write then t.w else t.r)

def TlbEnt.opaOf (t : TlbEnt) (va : Nat) : Word := BitVec.ofNat 64 (t.opa + (va - t.va))

def microHit (s : State) (cl : XClient) (r : BitVec 6) (va : Nat) (write : Bool) : Option TlbEnt :=
  (s.xlat.micro.find? fun e => e.1 = cl && e.2.hits r va write).map (·.2)

/-- An entry of the wheel's shared TLB that translates the access. -/
def tlbHit (s : State) (wheel : Nat) (r : BitVec 6) (va : Nat) (write : Bool) : Option TlbEnt :=
  s.xlat.tlb.find? fun t => t.wheel == wheel && t.hits r va write

/-- Keep an entry in a client's micro-TLB. DESIGN CHOICE (notes/assumptions/113.md): the entry filled first makes room. -/
def fillMicro (cl : XClient) (e : TlbEnt) (s : State) : State :=
  let mine := s.xlat.micro.filter (·.1 = cl)
  let rest := if mine.length < microCap cl then s.xlat.micro else match mine with
    | [] => s.xlat.micro
    | o :: _ => s.xlat.micro.erase o
  { s with xlat.micro := rest ++ [(cl, e)] }

def tlbSetOf (e : TlbEnt) : Nat := Config.tlbSet e.rider.toNat (e.va / e.size) e.size % 2048

/-- Keep an entry in the wheel's shared TLB of 2,048 sets of 8 ways (R54). DESIGN CHOICE (notes/assumptions/113.md): the
entry of a full set that was filled first makes room. -/
def fillTlb (e : TlbEnt) (s : State) : State :=
  let wheel := s.xlat.tlb.filter (·.wheel == e.wheel)
  let tlb :=
    if wheel.length < 8 then s.xlat.tlb
    else
      let mine := wheel.filter fun o => tlbSetOf o == tlbSetOf e
      if mine.length < 8 then s.xlat.tlb else match mine with
        | [] => s.xlat.tlb
        | o :: _ => s.xlat.tlb.erase o
  { s with xlat.tlb := tlb ++ [e] }

/-- A hit of the client's micro-TLB or of the shared TLB, which fills the micro-TLB. -/
def xlatHit (s : State) (cl : XClient) (r : BitVec 6) (va : Nat) (write : Bool) : Option (Word × State) :=
  match microHit s cl r va write with
  | some e => some (e.opaOf va, s)
  | none => (tlbHit s (clientWheel cl) r va write).map fun e => (e.opaOf va, fillMicro cl e s)

/-! ### Reading table entries at their home (R52) -/

inductive TabRes where
  | val (e : Word)
  | wait
  | fault (reason : Nat)
deriving DecidableEq, Repr

/-- The reason that the status of a table read gives (R56). -/
def readReason (st : Status) : Nat := if st = .uncorrectable then 0xB else 0xC

/-- What a read of a table entry would give now. The home snoops a holder of write ownership as for `RD_CUR` (R112); until
it has answered, the read waits. -/
def tablePeek (s : State) (q : Rq) (off : Nat) : TabRes :=
  let line := lineOf off
  if homeFenced s off then .fault 0xC
  else match findExt s (extentOf off) with
    | none => .fault 0x8
    | some x =>
      let out : TabRes := match readAt s x .latest off 8 none with
        | .data bs => .val (bytesWord bs)
        | .wait => .wait
        | .fail st => .fault (readReason st)
      let mine := (findTicket s (q.key line) false).orElse fun _ => findTicket s (q.key line) true
      if x.fenced then .fault 0xC
      else match mine with
        | some t =>
          if t.phase ≠ .ready then .wait else if t.status ≠ .ok then .fault (readReason t.status) else out
        | none =>
          if lineBusy s line false || scanHolds s off || !(engSnoops s x q.rider line false).isEmpty then .wait else out

/-- Take the place of a read, or of a write, in a table line's order. -/
def tableTurn (q : Rq) (write : Bool) (s : State) (line : Nat) : State :=
  match findExt s (extentOf line) with
  | none => s
  | some x => (engTurn s x q line write false).2

/-- An uncorrectable table read is logged as any other (R56, R323). -/
def logTable (q : Rq) (off reason : Nat) (s : State) : State := if reason = 0xB then recUncorr q off s else s

/-! ### The walk (R55) -/

inductive XRes where
  | ok (opa : Word)
  | wait
  | fault (reason lvl : Nat)
  /-- the translation unit is fenced (R336) -/
  | refused (st : Status)
deriving DecidableEq, Repr

/-- A pending invalidation covers an address (R59 step 1). -/
def unmapCovers (s : State) (r : BitVec 6) (va : Nat) : Bool :=
  s.xlat.unmaps.any fun u => u.rider = r && decide (u.base ≤ va) && decide (va < u.base + u.len)

def rootOf (s : State) (r : BitVec 6) : Option Nat := lookupK s.xlat.roots r

/-- The walk cache of a wheel: the next table below an entry of a level (R54). -/
def walkCacheHit (s : State) (wheel : Nat) (r : BitVec 6) (va lvl : Nat) : Option Nat :=
  (s.xlat.wcache.find? fun w => w.wheel == wheel && w.rider = r && w.level == lvl &&
    w.va == va / 2 ^ lvlShift lvl).map (·.next)

/-- Keep an entry in the wheel's walk cache of 512. DESIGN CHOICE (notes/assumptions/113.md): the oldest makes room. -/
def fillWalkCache (w : WalkEnt) (s : State) : State :=
  let mine := s.xlat.wcache.filter (·.wheel == w.wheel)
  let wc := if mine.length < 512 then s.xlat.wcache else match mine with
    | [] => s.xlat.wcache
    | o :: _ => s.xlat.wcache.erase o
  { s with xlat.wcache := wc ++ [w] }

/-- The requester that a walk's table reads have at a home. -/
def walkRq (w : Walk) : Rq :=
  { rider := w.rider, op := none, source := BitVec.ofNat 32 (0x70000000 + clientWheel w.client), va := w.va }

/-- What a walk comes to when it reads its next entry. -/
inductive StepOut where
  | next (w : Walk)
  | end_ (o : WalkOut)
  | wait
deriving DecidableEq, Repr

/-- A walk takes its next entry, from the walk cache or from the entry's home (R55). An injected error of the unit's checks
fails it as an entry that cannot be read does (R344; notes/assumptions/135.md). -/
def walkStep (w : Walk) (s : State) : StepOut × State :=
  let va := w.va.toNat
  let wheel := clientWheel w.client
  if injBad s 0x0C (unitChainring wheel) then (.end_ (.fault 0xB w.level), s)
  else match (if w.level = 0 then none else walkCacheHit s wheel w.rider va w.level) with
  | some t => (.next { w with level := w.level - 1, table := t }, s)
  | none => match tablePageFault s w.rider w.table with
    | some f => (.end_ (.fault f w.level), s)
    | none =>
      let off := w.table + ptIndex va w.level * 8
      let drop := dropTicket ((walkRq w).key (lineOf off)) false
      match tablePeek s (walkRq w) off with
      | .wait => (.wait, tableTurn (walkRq w) false s (lineOf off))
      | .fault f => (.end_ (.fault f w.level), drop (logTable (walkRq w) off f s))
      | .val e => match checkEntry e va w.level w.write with
        | .fault f => (.end_ (.fault f w.level), drop s)
        | .leaf => (.end_ (.leaf e w.level), drop s)
        | .next t =>
          (.next { w with level := w.level - 1, table := t },
            drop (fillWalkCache { wheel := wheel, rider := w.rider, level := w.level, va := va / 2 ^ lvlShift w.level, next := t } s))

/-- Walk on from an entry as far as the table reads allow. `fuel` bounds the levels left. -/
def walkOn : Nat → Walk → State → StepOut × State
  | 0, w, s => (.next w, s)
  | n + 1, w, s =>
    match walkStep w s with
    | (.next w, s) => walkOn n w s
    | (.wait, s) => (.next w, s)
    | r => r

/-- A leaf fills the shared TLB and the client's micro-TLB with its whole run (R51, R55). -/
def fillLeaf (w : Walk) (e : Word) (lvl : Nat) (s : State) : State :=
  let t := leafTlb (clientWheel w.client) w.rider e w.va.toNat lvl
  fillMicro w.client t (fillTlb t s)

/-! ### Miss queues and walkers (R54, R55) -/

def clientWalks (s : State) (cl : XClient) : List Walk := s.xlat.walks.filter (·.client = cl)

def findWalk (s : State) (cl : XClient) (va : Word) (write : Bool) (ctx : Option (BitVec 4)) : Option Walk :=
  s.xlat.walks.find? fun w => w.client = cl && w.va = va && w.write == write && w.acc.map (·.ctx) == ctx

/-- A translation that the client issued earlier has not completed: translations of one client complete in issue order. -/
def walksAhead (s : State) (cl : XClient) (mine : Option Walk) : Bool :=
  (clientWalks s cl).any fun w => w.out.isNone && (match mine with | some m => decide (w.id < m.id) | none => true)

/-- Outstanding misses of a client. -/
def missesOf (s : State) (cl : XClient) : Nat := ((clientWalks s cl).filter fun w => !w.hit && w.out.isNone).length

/-- Walkers of a wheel in use. -/
def walkersBusy (s : State) (wheel : Nat) : Nat :=
  (s.xlat.walks.filter fun w => w.active && clientWheel w.client == wheel).length

def updWalk (id : Nat) (f : Walk → Walk) (s : State) : State := { s with xlat.walks := updIf s.xlat.walks (·.id == id) f }

def dropWalk (id : Nat) (s : State) : State := { s with xlat.walks := dropIf s.xlat.walks (·.id == id) }

/-- The order in which a wheel's walkers go round its clients. -/
def clientNo : XClient → Nat
  | .tile t => t.toNat % 64
  | .stream t n => 64 + t.toNat % 64 * 32 + n.toNat
  | .queue q => 4096 + q.toNat
  | .ring r => 16384 + r.toNat

/-- The next walk of a wheel to get a walker: the oldest queued miss of the next client after the one served last, of the
clients that hold fewer than 4. -/
def nextWalk (s : State) (wheel : Nat) : Option Walk :=
  let last := match lookupK s.xlat.turn wheel with | some c => clientNo c | none => 0
  let ready := s.xlat.walks.filter fun w => clientWheel w.client == wheel && !w.active && !w.hit && w.out.isNone &&
    decide (((clientWalks s w.client).filter (·.active)).length < 4)
  match sortBy (fun w => (clientNo w.client + 32768 - last - 1) % 32768) ready with
  | [] => none
  | w :: _ => s.xlat.walks.find? fun x => x.client = w.client && !x.active && !x.hit && x.out.isNone

/-- Give free walkers of a wheel to queued misses. -/
def giveWalkers (wheel : Nat) : Nat → State → State
  | 0, s => s
  | n + 1, s =>
    if 32 ≤ walkersBusy s wheel then s
    else match nextWalk s wheel with
      | none => s
      | some w =>
        giveWalkers wheel n (updWalk w.id (fun w => { w with active := true }) { s with xlat.turn := setK s.xlat.turn wheel w.client })

/-- A translation enters its client's queue; nothing enters behind eight outstanding misses: the client stalls (R55). -/
def queueWalk (cl : XClient) (r : BitVec 6) (va : Word) (write hit : Bool) (lvl table : Nat) (acc : Option Access) (s : State) :
    State :=
  if 8 ≤ missesOf s cl then s
  else
    let w : Walk :=
      { id := s.xlat.nextId, client := cl, rider := r, va := va, write := write, level := lvl, table := table, acc := acc
        hit := hit, active := false, again := false, out := none }
    giveWalkers (clientWheel cl) 32 { s with xlat.walks := s.xlat.walks ++ [w], xlat.nextId := s.xlat.nextId + 1 }

/-- A walk that an invalidation covered starts again from the root as it stands (R59 step 4). -/
def Walk.fresh (root : Nat) (w : Walk) : Walk :=
  if w.again then { w with again := false, level := 4, table := root } else w

/-- Translate for a queue or an event ring (R45): a hit, or a walk. DEDUCED (notes/assumptions/113.md): a walk whose table
reads nothing holds back takes no time of its own; one that must wait keeps its place in the client's queue. -/
def translate (s : State) (cl : XClient) (r : BitVec 6) (va : Word) (write : Bool) : XRes × State :=
  let v := va.toNat
  let wheel := clientWheel cl
  if unitFenced s (unitChainring wheel) then (.refused .fenced, s)
  else if 2 ^ 57 ≤ v then (.fault 0x1 4, s)
  else match rootOf s r with
    | none => (.fault 0x2 4, s)
    | some root =>
      let mine := findWalk s cl va write none
      let drop (s : State) : State := match mine with | some w => giveWalkers wheel 32 (dropWalk w.id s) | none => s
      let enter (hit : Bool) (lvl table : Nat) (s : State) : State :=
        if mine.isSome then s else queueWalk cl r va write hit lvl table none s
      if unmapCovers s r v then (.wait, enter false 4 root s)
      else match xlatHit s cl r v write with
        | some (opa, s') => if walksAhead s cl mine then (.wait, enter true 4 root s) else (.ok opa, drop s')
        | none =>
          if walksAhead s cl mine || coreRestarting s wheel || (mine.any fun w => !w.active && w.out.isNone) ||
              (mine.isNone && (decide (32 ≤ walkersBusy s wheel) || (nextWalk s wheel).isSome)) then
            (.wait, updWalk (match mine with | some w => w.id | none => s.xlat.nextId) (fun w => { w with hit := false })
              (enter false 4 root s))
          else
            let w := (mine.map (Walk.fresh root)).getD
              { id := s.xlat.nextId, client := cl, rider := r, va := va, write := write, level := 4, table := root, acc := none
                hit := false, active := true, again := false, out := none }
            match walkOn 5 w s with
            | (.end_ (.leaf e lvl), s) => (.ok (leafOpa e v lvl), drop (fillLeaf w e lvl s))
            | (.end_ (.fault f l), s) => (.fault f l, drop s)
            | (.next w, s) =>
              (.wait, if mine.isSome then updWalk w.id (fun _ => w) s
                else updWalk s.xlat.nextId (fun u => { u with level := w.level, table := w.table }) (enter false 4 root s))
            | (.wait, s) => (.wait, s)

/-! ### Writing table entries -/

/-- The requester that a tree command is at a home: its place in the order of a table line is kept from one attempt to the
next. -/
def treeRq (c : Cmd) : Rq :=
  { rider := c.h.r, op := none, va := c.h.tag.setWidth 64
    source := BitVec.ofNat 32 (0x80000000 + match c.h.src with | .queue q => q.toNat + 2 | .sideband => 1 | .port => 0) }

/-- The source of a tree command in a record. -/
def treeSource (c : Cmd) : BitVec 32 := match c.h.src with | .queue q => srcQueue q | _ => 0

/-- The command gives up its places in the orders of table lines. -/
def treeDone (c : Cmd) (s : State) : State :=
  { s with coh.trks := dropIf s.coh.trks fun t => decide (t.phase = .ready ∨ t.phase = .wait) && (match t.what with
    | .eng k _ _ => k.source = (treeRq c).source && k.va = (treeRq c).va
    | _ => false) }

/-- A write of a table entry would wait: for its line's turn, or for its memory. -/
def tableWaits (s : State) (q : Rq) (off : Nat) : Bool :=
  match findExt s (extentOf off) with
  | none => false
  | some x =>
    !homeFenced s off && !x.fenced && (match findTicket s (q.key (lineOf off)) true with
      | some t => decide (t.phase ≠ .ready) || (decide (t.status = .ok) && mem x)
      | none => lineBusy s (lineOf off) true || scanHolds s off || (dirOf s (lineOf off)).isSome || mem x)
where
  mem (x : Extent) : Bool := match writeAt s x .latest off (allBytes (zeros 8)) none none false with | .wait => true | _ => false

/-- Write a table entry at its home, where it need not wait (R53, R58). -/
def tableWrite (s : State) (q : Rq) (off : Nat) (e : Word) : Option Status × State :=
  if homeFenced s off then (some .fenced, s)
  else match findExt s (extentOf off) with
    | none => (some .fenced, s)
    | some x =>
      if x.fenced then (some .fenced, s)
      else match findTicket s (q.key (lineOf off)) true with
        | some t => if t.status = .ok then put x else (some t.status, s)
        | none => put x
where
  put (x : Extent) : Option Status × State :=
    match writeAt s x .latest off (allBytes (wordBytes e)) none none false with
    | .done s => (none, s)
    | .wait => (some .busy, s)
    | .fail .uncorrectable => (some .uncorrectable, recUncorr q off s)
    | .fail _ => (some .fenced, s)

/-- Where the entry of a level for an address lies, by the tables above it. -/
inductive SlotAt where
  | at_ (slot : Nat)
  | missing
  /-- an upper table's entry must be waited for: its line -/
  | wait (line : Nat)
  | bad (off reason : Nat)
deriving DecidableEq, Repr

def slotOf (s : State) (q : Rq) (r : BitVec 6) (va lvl : Nat) : SlotAt :=
  match rootOf s r with
  | some root => down root 4
  | none => .missing
where
  down (table : Nat) : Nat → SlotAt
    | 0 => if (tablePageFault s r table).isSome then .missing else .at_ (table + ptIndex va 0 * 8)
    | l + 1 =>
      let off := table + ptIndex va (l + 1) * 8
      if (tablePageFault s r table).isSome then .missing
      else if l + 1 = lvl then .at_ off
      else match tablePeek s q off with
        | .val e => match checkEntry e va (l + 1) false with
          | .next t => down t l
          | _ => .missing
        | .wait => .wait (lineOf off)
        | .fault f => .bad off f

/-- Wait for lines and try the command again (R52): its places in their orders are taken now. -/
def waitLines (lines : List Nat) (write : Bool) (op : Nat) (c : Cmd) (s : State) : Eff :=
  let s := lines.foldl (tableTurn (treeRq c) write) s
  Eff.later { s with jobs := s.jobs ++ [.rerun { op := BitVec.ofNat 12 op, c := c }] }

/-- The command waits for an earlier one of its rider (R61). -/
def waitFor (op : Nat) (c : Cmd) (s : State) : Eff :=
  Eff.later { s with jobs := s.jobs ++ [.rerun { op := BitVec.ofNat 12 op, c := c }] }

/-- The range that a waiting tree command acts on. -/
def treeRange (h : HeldCmd) : Nat × Nat :=
  if h.op.toNat = 0x180 then (0, 2 ^ 57)
  else if h.op.toNat = 0x181 || h.op.toNat = 0x182 then ((h.c.p 0).toNat, (h.c.p 1).toNat)
  else (0, 0)

/-- An earlier tree command of the rider is in progress over a range (R61): of the waiting ones a command meets those that
were accepted before it. -/
def treeBusy (s : State) (r : BitVec 6) (o : Open) (lo hi : Nat) : Bool :=
  s.xlat.unmaps.any (fun u => u.rider = r && decide (u.cmd ≠ o) && overlaps u.base u.len lo hi) ||
    s.jobs.any fun j => match j with
      | .rerun h => h.c.h.r = r && overlaps (treeRange h).1 (treeRange h).2 lo hi
      | _ => false

/-! ### `MAP_RANGE` (R53) -/

/-- The largest run of a page inside `[lo, hi)` of page numbers that R51 allows, at most `n`. -/
def bestRun (vp tp lo hi : Nat) : Nat → Nat
  | 0 => 0
  | n + 1 =>
    let k := 2 ^ (n + 1)
    let b := vp / k * k
    if lo ≤ b && b + k ≤ hi && vp % k == tp % k then n + 1 else bestRun vp tp lo hi n

/-- The leaf of a page: target page number `tp` (64 KiB units of its size), run and permissions. -/
def mkLeaf (target : Word) (tp lvl run : Nat) (w r : Bool) : Word :=
  BitVec.ofNat 64 (bits target 48 16 * 2 ^ 48 + tp * 2 ^ lvlShift lvl + run * 4096 + w.toNat * 8 + r.toNat * 4 + 3)

/-- The slots of a range's leaves. -/
inductive MapSlots where
  | ok (slots : List Nat)
  /-- a table is missing, or an entry is valid -/
  | refuse
  | wait (lines : List Nat)
  /-- an upper table cannot be read: the page's index, the entry and the reason -/
  | bad (i off reason : Nat)
deriving DecidableEq, Repr

/-- The slots of the leaves of a range, one per page. `acc` and `ws` gather the slots and the lines to wait for. -/
def mapSlots (s : State) (q : Rq) (r : BitVec 6) (lvl va : Nat) : Nat → Nat → List Nat → List Nat → MapSlots
  | 0, _, acc, ws => if ws.isEmpty then .ok acc.reverse else .wait ws.dedup
  | n + 1, i, acc, ws =>
    match slotOf s q r (va + i * 2 ^ lvlShift lvl) lvl with
    | .missing => .refuse
    | .bad off f => .bad i off f
    | .wait l => mapSlots s q r lvl va n (i + 1) acc (l :: ws)
    | .at_ o => match tablePeek s q o with
      | .val e => if bit e 0 then .refuse else mapSlots s q r lvl va n (i + 1) (o :: acc) ws
      | .wait => mapSlots s q r lvl va n (i + 1) (o :: acc) (lineOf o :: ws)
      | .fault _ => mapSlots s q r lvl va n (i + 1) (o :: acc) ws

/-- Write the leaves of a range in order; the first failure stops: its index and status. -/
def writeLeaves (q : Rq) (leaf : Nat → Word) : List (Nat × Nat) → State → Option (Nat × Status) × State
  | [], s => (none, s)
  | (i, o) :: rest, s =>
    match tableWrite s q o (leaf i) with
    | (none, s) => writeLeaves q leaf rest s
    | (some st, s) => (some (i, st), s)

/-- The parameters of `MAP_RANGE` are in form (R53). -/
def mapForm (c : Cmd) : Bool :=
  let va := (c.p 0).toNat
  let len := (c.p 1).toNat
  let lvl := bits (c.p 3) 0 2
  let size := 2 ^ lvlShift lvl
  let sync := opaSpace (c.p 2) == 2
  bits (c.p 3) 4 60 == 0 && decide (lvl ≠ 3) && va % size == 0 && len % size == 0 && decide (len ≠ 0) &&
    decide (va + len ≤ 2 ^ 57) && (c.p 2).toNat % size == 0 && (!bit (c.p 3) 3 || bit (c.p 3) 2) &&
    (opaSpace (c.p 2) == 0 || sync) && decide (opaOffset (c.p 2) + len ≤ (if sync then 131072 else 2 ^ 48)) &&
    (!sync || lvl == 0)

/-- The leaf of page `i` of a `MAP_RANGE` whose groups end before page number `hi`. -/
def mapLeaf (c : Cmd) (hi i : Nat) : Word :=
  let lvl := bits (c.p 3) 0 2
  let size := 2 ^ lvlShift lvl
  let vp := (c.p 0).toNat / size
  let tp := opaOffset (c.p 2) / size
  mkLeaf (c.p 2) (tp + i) lvl (bestRun (vp + i) (tp + i) vp hi (if opaSpace (c.p 2) = 2 then 1 else 9)) (bit (c.p 3) 3)
    (bit (c.p 3) 2)

/-- The leaves go to their slots (R53): all, or those before the first write that fails, with the largest runs they still
form. -/
def mapWrite (c : Cmd) (slots : List Nat) (s : State) : Eff :=
  let va := (c.p 0).toNat
  let size := 2 ^ lvlShift (bits (c.p 3) 0 2)
  let n := slots.length
  let q := treeRq c
  match writeLeaves q (mapLeaf c (va / size + n)) ((List.range n).zip slots) s with
  | (none, s) => Eff.res .ok (BitVec.allOnes 64) (treeDone c s)
  | (some (i, st), s) =>
    let (_, s) := writeLeaves q (mapLeaf c (va / size + i)) ((List.range i).zip slots) s
    Eff.res st (BitVec.ofNat 64 (va + i * size)) (treeDone c s)

def bodyMapRange : Body := fun c s =>
  let va := (c.p 0).toNat
  let len := (c.p 1).toNat
  let lvl := bits (c.p 3) 0 2
  let size := 2 ^ lvlShift lvl
  if !mapForm c then Eff.stat .badParam s
  else if treeBusy s c.h.r (openOf 0x181 c) va (va + len) then waitFor 0x181 c s
  else match mapSlots s (treeRq c) c.h.r lvl va (len / size) 0 [] [] with
    | .refuse => Eff.stat .badParam (treeDone c s)
    -- DESIGN CHOICE (notes/assumptions/114.md): an upper table that cannot be read ends the command as a failed write does
    | .bad i off f =>
      Eff.res (if f = 0xB then .uncorrectable else .fenced) (BitVec.ofNat 64 (va + i * size))
        (treeDone c (logTable { treeRq c with source := treeSource c } off f s))
    | .wait ls => waitLines ls false 0x181 c s
    | .ok slots =>
      let held := slots.filter (tableWaits s (treeRq c))
      if held.isEmpty then mapWrite c slots s else waitLines (held.map lineOf).dedup true 0x181 c s

def execMapRange (c : Cmd) (s : State) : Out State := .next (runPacket 0x181 c bodyMapRange s)

/-! ### `UNMAP_RANGE` and `PT_BASE_SET` (R48, R58, R59) -/

/-- A valid leaf of the tree: the address it maps, its level, its slot and its word. -/
structure LeafAt where
  va   : Nat
  lvl  : Nat
  slot : Nat
  e    : Word

/-- What a tree holds over a range: a valid leaf, an entry that cannot be read (its address and reason), or one that must
be waited for (its line). -/
inductive Found where
  | leaf (l : LeafAt)
  | bad (va off reason : Nat)
  | wait (line : Nat)

/-- What lies below a table over `[lo, hi)`, in address order. -/
def leavesBelow (s : State) (q : Rq) (r : BitVec 6) (lo hi : Nat) : Nat → Nat → Nat → List Found
  | 0, table, base =>
    if (tablePageFault s r table).isSome then []
    else (List.range 512).filterMap fun i =>
      let a := base + i * 65536
      if a < hi && lo < a + 65536 then
        match tablePeek s q (table + i * 8) with
        | .val e => if bit e 0 && bit e 1 then some (.leaf { va := a, lvl := 0, slot := table + i * 8, e := e }) else none
        | .fault f => some (.bad a (table + i * 8) f)
        | .wait => some (.wait (lineOf (table + i * 8)))
      else none
  | l + 1, table, base =>
    if (tablePageFault s r table).isSome then []
    else (List.range (if l + 1 = 4 then 32 else 512)).flatMap fun i =>
      let size := 2 ^ lvlShift (l + 1)
      let a := base + i * size
      if a < hi && lo < a + size then
        match tablePeek s q (table + i * 8) with
        | .fault f => [.bad (max a lo) (table + i * 8) f]
        | .wait => [.wait (lineOf (table + i * 8))]
        | .val e =>
          if !bit e 0 then []
          else if bit e 1 then
            if l + 1 ≤ 2 then [.leaf { va := a, lvl := l + 1, slot := table + i * 8, e := e }] else []
          else leavesBelow s q r lo hi l (bits e 12 36 * 4096) a
      else []

def foundIn (s : State) (q : Rq) (r : BitVec 6) (lo hi : Nat) : List Found :=
  match rootOf s r with
  | some root => leavesBelow s q r lo hi 4 root 0
  | none => []

def leavesOf (fs : List Found) : List LeafAt := fs.filterMap fun f => match f with | .leaf l => some l | _ => none
def waitsOf (fs : List Found) : List Nat := (fs.filterMap fun f => match f with | .wait l => some l | _ => none).dedup

def LeafAt.size (l : LeafAt) : Nat := 2 ^ lvlShift l.lvl

/-- The entries outside `[lo, hi)` of the groups that the range cuts, with the largest runs they still form (R58). -/
def cutGroups (s : State) (q : Rq) (lo hi : Nat) (ls : List LeafAt) : List (Nat × Nat × Word) :=
  ls.flatMap fun l =>
    let n := bits l.e 12 4
    let k := 2 ^ n
    let vp := l.va / l.size
    let b := vp / k * k
    if lo ≤ b * l.size && (b + k) * l.size ≤ hi then []
    else (List.range k).filterMap fun j =>
      let pg := b + j
      let a := pg * l.size
      if lo ≤ a && a < hi then none
      else
        let slot := l.slot + 8 * pg - 8 * vp
        match tablePeek s q slot with
        | .val e =>
          if bit e 0 && bit e 1 then
            let run := outRun pg lo hi l.size (min n (bits e 12 4))
            let old := bits e 12 4
            some (a, slot, BitVec.ofNat 64 (e.toNat - old * 4096 + run * 4096))
          else none
        | _ => none
where
  /-- The largest run of a page wholly outside the range. -/
  outRun (q lo hi size : Nat) : Nat → Nat
    | 0 => 0
    | n + 1 =>
      let k := 2 ^ (n + 1)
      let b := q / k * k
      if (b + k) * size ≤ lo || hi ≤ b * size then n + 1 else outRun q lo hi size n

/-- Write a list of entries, going on past failures; the first failure decides: the address and the status. An entry
without a slot is one that cannot be read. -/
def writeAll (q : Rq) : List (Nat × Option (Nat × Word) × Nat × Nat) → State → Option (Nat × Status) × State
  | [], s => (none, s)
  | (va, some (slot, e), _, _) :: rest, s =>
    let (f, s) := tableWrite s q slot e
    let (g, s) := writeAll q rest s
    (match f with | some st => some (va, st) | none => g, s)
  | (va, none, off, reason) :: rest, s =>
    let (_, s) := writeAll q rest (logTable q off reason s)
    (some (va, if reason = 0xB then .uncorrectable else .fenced), s)

/-- Drop every TLB, walk-cache, operand-cache and pre-translated entry over a range of a rider; a walk over the range starts
again later (R59 step 4). -/
def dropXlat (r : BitVec 6) (lo hi : Nat) (s : State) : State :=
  { s with
    xlat.micro := dropIf s.xlat.micro fun t => t.2.rider = r && overlaps t.2.va t.2.size lo hi
    xlat.tlb := dropIf s.xlat.tlb fun t => t.rider = r && overlaps t.va t.size lo hi
    xlat.wcache := dropIf s.xlat.wcache fun w =>
      w.rider = r && overlaps (w.va * 2 ^ lvlShift w.level) (2 ^ lvlShift w.level) lo hi
    xlat.walks := updIf s.xlat.walks (fun w => w.rider = r && decide (lo ≤ w.va.toNat) && decide (w.va.toNat < hi)) fun w =>
      { w with again := true, out := none }
    queues := updIf s.queues (·.rider = r) fun q =>
      { q with runs := dropIf q.runs fun x => decide (lo ≤ x.page.toNat) && decide (x.page.toNat < hi) }
    tiles := updIf s.tiles (fun t => t.prog.any (·.rider = r)) fun t =>
      { t with
        cache := dropIf t.cache fun l => overlaps l.va 64 lo hi
        ctxs := t.ctxs.map fun k => match k.block with
          | .access a true => if overlaps (lineOf a.va.toNat) 64 lo hi then { k with noFill := true } else k
          | _ => k } }

/-- The context has an access or a store in flight under a translation in the range; one that is still to be translated
holds none. -/
def ctxHolds (c : Ctx) (lo hi : Nat) : Bool :=
  (match c.block with
    | .access a remote => remote && decide (lo ≤ a.va.toNat) && decide (a.va.toNat < hi)
    | _ => false) ||
    c.stores.any fun e => e.ready && decide (lo ≤ e.va.toNat) && decide (e.va.toNat < hi)

/-- The stream's addresses not yet transferred meet the range. -/
def streamHolds (x : Stream) (lo hi : Nat) : Bool :=
  x.running && (List.range x.rows).any fun i =>
    let a := ((x.va.toNat : Int) + x.stride * (i : Int)).toNat
    overlaps a x.rowBytes lo hi

/-- The operation's virtual operands meet the range. -/
def opHolds (o : EngOp) (lo hi : Nat) : Bool :=
  o.virt.isSome && !o.stopped &&
    (overlaps o.dst.toNat o.dstLen lo hi || overlaps o.src.toNat o.srcLen lo hi ||
      (match o.kind with
        | .reduce _ _ _ _ srcs => srcs.any fun a => overlaps a.toNat o.srcLen lo hi
        | _ => false))

/-- The virtual operands of an embedding operation meet the range. -/
def batchHolds (b : EmbBatch) (lo hi : Nat) : Bool :=
  (match b.cmd.h.src with | .queue _ => true | _ => false) && b.loaded &&
    [b.idxVa, b.wgtVa, b.bagVa, b.dataVa, b.spillVa].any fun a => decide (lo ≤ a.toNat) && decide (a.toNat < hi)

/-- The engines of the rider with transfers under a translation in a range (R59). -/
def enginesIn (s : State) (r : BitVec 6) (lo hi : Nat) : List EngineRef :=
  (s.tiles.flatMap fun t =>
    if t.prog.any (·.rider = r) then
      (t.ctxs.mapIdx fun i c => (i, c)).filterMap (fun p =>
        if ctxHolds p.2 lo hi then some (.context t.id (BitVec.ofNat 4 p.1)) else none) ++
      t.streams.filterMap fun x => if streamHolds x lo hi then some (.stream t.id x.n) else none
    else []) ++
  (s.eng.ops.filterMap fun o => if o.rider = r && opHolds o lo hi then some (.op o.id) else none) ++
  s.eng.batches.filterMap fun b => if b.key.rider = r && batchHolds b lo hi then some (.op b.opId) else none

/-- End an invalidation (R59 step 7): a new root is installed (R48), and the command returns. -/
def endUnmap (u : Unmap) (s : State) : State :=
  let s := { s with xlat.unmaps := dropIf s.xlat.unmaps (·.id == u.id) }
  let s := match u.newRoot with
    | some (some root) => { s with xlat.roots := setK s.xlat.roots u.rider root }
    | some none => { s with xlat.roots := dropIf s.xlat.roots (·.1 = u.rider) }
    | none => s
  completeIf u.cmd u.status u.result [] s

/-- The invalidation reaches the engines (R59 steps 3 to 6): with nobody to wait for it ends at once. -/
def runUnmap (u : Unmap) (s : State) : State :=
  let s := dropXlat u.rider u.base (u.base + u.len) s
  let u := { u with writing := false, waiting := enginesIn s u.rider u.base (u.base + u.len) }
  let s := { s with xlat.unmaps := updIf s.xlat.unmaps (·.id == u.id) fun _ => u }
  if u.waiting.isEmpty then endUnmap u s else s

/-- An accepted invalidation: its range is pending (R59 step 1). -/
def newUnmap (o : Open) (r : BitVec 6) (lo len : Nat) (root : Option (Option Nat)) (frozen : List (Nat × Nat)) (s : State) :
    Unmap × State :=
  let u : Unmap :=
    { id := s.xlat.nextId, cmd := o, rider := r, base := lo, len := len, waiting := [], status := .ok
      result := if root.isSome then 0 else BitVec.allOnes 64, newRoot := root, writing := true, frozen := frozen }
  (u, { s with xlat.unmaps := s.xlat.unmaps ++ [u], xlat.nextId := s.xlat.nextId + 1 })

/-- The store pages of this module behind leaves and behind translations already made (R60). -/
def pagesBehind (s : State) (r : BitVec 6) (lo hi : Nat) (ls : List LeafAt) : List (Nat × Nat) :=
  ls.filterMap (fun l =>
    match target s (leafOpa l.e l.va l.lvl) with
    | .off o => some (pageOf o, l.size / 65536)
    | _ => none) ++
  ((s.xlat.tlb ++ s.xlat.micro.map (·.2)).filter fun t => t.rider = r && overlaps t.va t.size lo hi).filterMap fun t =>
    match target s (BitVec.ofNat 64 t.opa) with
    | .off o => some (pageOf o, t.size / 65536)
    | _ => none

/-- `UNMAP_RANGE` commands in progress: pending, or accepted and waiting (R58, R63). -/
def unmapsOpen (s : State) : Nat :=
  (s.xlat.unmaps.filter (·.newRoot.isNone)).length + (s.jobs.filter fun j => match j with
    | .rerun h => decide (h.op.toNat = 0x182) && !(s.xlat.unmaps.any (·.cmd = openOf 0x182 h.c))
    | _ => false).length

/-- The leaf writes of `CLEAR` (R58): every leaf, and the rest of each group that the range cuts. -/
def clearWrites (s : State) (q : Rq) (lo hi : Nat) (fs : List Found) : List (Nat × Option (Nat × Word) × Nat × Nat) :=
  fs.filterMap (fun f => match f with
    | .leaf l => some (l.va, some (l.slot, (0 : Word)), 0, 0)
    | .bad va off reason => some (va, none, off, reason)
    | .wait _ => none) ++
  (cutGroups s q lo hi (leavesOf fs)).map fun g => (g.1, some (g.2.1, g.2.2), 0, 0)

/-- Go on with an accepted `UNMAP_RANGE` whose leaf writes are still to be made (R59 step 2). -/
def goUnmap (u : Unmap) (c : Cmd) (s : State) : Eff :=
  let q := treeRq c
  let hi := u.base + u.len
  if !bit (c.p 2) 0 then Eff.later (runUnmap u (treeDone c s))
  else
    let fs := foundIn s q u.rider u.base hi
    let ws := clearWrites s q u.base hi fs
    let held := ((ws.filterMap (·.2.1)).map (·.1)).filter (tableWaits s q)
    match waitsOf fs with
    | l :: ls => waitLines (l :: ls) false 0x182 c s
    | [] =>
      if !held.isEmpty then waitLines (held.map lineOf).dedup true 0x182 c s
      else
        let (f, s) := writeAll q ws s
        let u := match f with
          | some (va, st) => { u with status := st, result := BitVec.ofNat 64 va }
          | none => u
        Eff.later (runUnmap u (treeDone c s))

def bodyUnmapRange : Body := fun c s =>
  let lo := (c.p 0).toNat
  let len := (c.p 1).toNat
  let r := c.h.r
  let form := bits (c.p 2) 1 63 == 0 && lo % 65536 == 0 && len % 65536 == 0 && decide (len ≠ 0) && decide (lo + len ≤ 2 ^ 57)
  match s.xlat.unmaps.find? (·.cmd = openOf 0x182 c) with
  | some u => goUnmap u c s
  | none =>
    if !form then Eff.stat .badParam s
    else if 64 ≤ unmapsOpen s then Eff.stat .busy s
    else if treeBusy s r (openOf 0x182 c) lo (lo + len) then waitFor 0x182 c s
    else
      let fs := foundIn s (treeRq c) r lo (lo + len)
      match waitsOf fs with
      | l :: ls => waitLines (l :: ls) false 0x182 c s
      | [] =>
        if (leavesOf fs).any (fun l => l.va < lo || lo + len < l.va + l.size) then Eff.stat .badParam (treeDone c s)
        else
          let (u, s) := newUnmap (openOf 0x182 c) r lo len none (pagesBehind s r lo (lo + len) (leavesOf fs)) s
          goUnmap u c s

def execUnmapRange (c : Cmd) (s : State) : Out State := .next (runPacket 0x182 c bodyUnmapRange s)

/-- A root must be a 256-byte-aligned store offset in a table page of R47. -/
def bodyPtBaseSet : Body := fun c s =>
  let root := (c.p 0).toNat
  let r := c.h.r
  if root ≠ 0 && (root % 256 ≠ 0 || 2 ^ 48 ≤ root || (tablePageFault s r root).isSome) then Eff.stat .badParam s
  else if treeBusy s r (openOf 0x180 c) 0 (2 ^ 57) then waitFor 0x180 c s
  else
    let new := if root = 0 then none else some root
    match rootOf s r with
    | some _ =>
      let fs := foundIn s (treeRq c) r 0 (2 ^ 57)
      let (u, s) := newUnmap (openOf 0x180 c) r 0 (2 ^ 57) (some new) (pagesBehind s r 0 (2 ^ 57) (leavesOf fs)) s
      Eff.later (runUnmap u s)
    | none => match new with
      | some root => Eff.ok { s with xlat.roots := setK s.xlat.roots r root }
      | none => Eff.ok s

def execPtBaseSet (c : Cmd) (s : State) : Out State := .next (runPacket 0x180 c bodyPtBaseSet s)

/-- The engine's issued beats have finished: a context has no access left in the range; a stream or an operation stands
at a beat boundary after each of its beats. -/
def engineIdle (s : State) (u : Unmap) : EngineRef → Bool
  | .context t c => match s.tiles.find? (·.id = t) with
    | some x => match x.ctxs[c.toNat]? with
      | some k => !ctxHolds k u.base (u.base + u.len)
      | none => true
    | none => true
  | .stream t n => match s.tiles.find? (·.id = t) with
    | some x => !(x.streams.any fun z => z.n = n && z.sent)
    | none => true
  | .op id => !(s.eng.ops.any fun o => o.id == id && o.sent)

/-- An engine acknowledges an invalidation (R59 step 6); the last acknowledgement ends it (step 7). -/
def execUnmapEngineAck (id : Nat) (e : EngineRef) (s : State) : Out State :=
  .next (whenUp s fun s =>
    match s.xlat.unmaps.find? (·.id == id) with
    | none => s
    | some u =>
      if !u.waiting.contains e || !engineIdle s u e then s
      else
        let u := { u with waiting := u.waiting.erase e }
        let s := { s with xlat.unmaps := updIf s.xlat.unmaps (·.id == id) fun _ => u }
        if u.waiting.isEmpty then endUnmap u s else s)

/-- The physical run that a command's descriptor carries for an address (R57). -/
def queueRun (s : State) (q : BitVec 13) (tag : BitVec 32) (a : Word) (write : Bool) : Option Word :=
  match s.queues.find? (·.q = q) with
  | none => none
  | some x => (x.runs.find? fun e => e.tag == some tag && e.page.toNat == a.toNat / 65536 * 65536 && (!write || e.write)).map
      fun e => BitVec.ofNat 64 (e.opa.toNat + a.toNat % 65536)

/-- Translate for a command: an OPA on the port, a virtual address through the queue's client on a queue (R45, R57,
R306). -/
def cmdAddr (s : State) (h : Hdr) (a : Word) (write : Bool) : XRes × State :=
  match h.src with
  | .queue q =>
    if unitFenced s (unitChainring (clientWheel (.queue q))) then (.refused .fenced, s)
    else if unmapCovers s h.r a.toNat then (.wait, s)
    else match queueRun s q h.tag a write with
      | some opa => (.ok opa, s)
      | none => match translate s (.queue q) h.r a write with
        | (.fault f l, s) => (.fault f l, xlatFault (clientWheel (.queue q)) h.r (srcQueue q) a f l s)
        | x => x
  | _ => (.ok a, s)

end Sys2Proof.Machine
end

