-- ==== Sys2Proof/Machine/Queue.lean ====
section
/-! DEFINITION. Command queues, completion rings and event rings (R309 to R318): creation, doorbells, the entry format,
the posting of replies, queue errors, event records and destruction. -/

namespace Sys2Proof.Machine

/-! ### Reading and writing through a rider's tree -/

/-- Read bytes at a virtual address through a translation client, line by line. -/
def virtRead (s : State) (cl : XClient) (q : Rq) (va : Word) (len : Nat) : RdRes × State :=
  (piecesOf va.toNat len).foldl (fun acc p =>
    match acc.1 with
    | .data bs =>
      match translate acc.2 cl q.rider (BitVec.ofNat 64 p.1) false with
      | (.wait, s) => (.wait, s)
      | (.refused st, s) => (.fail st, s)
      | (.fault f l, s) => (.fail .translation, xlatFault (clientWheel cl) q.rider q.source (BitVec.ofNat 64 p.1) f l s)
      | (.ok opa, s) => match target s opa with
        | .off o => match homeRead s q o p.2 with
          | (.data b, s) => (.data (bs ++ b), s)
          | x => x
        | .bad st => (.fail st, badOpa q st opa s)
        | _ => (.fail .translation, s)
    | _ => acc) (.data [], s)

/-- Write bytes at a virtual address through a translation client, line by line. -/
def virtWrite (s : State) (cl : XClient) (q : Rq) (va : Word) (bs : List Byte) : WrOut × State :=
  (piecesOf va.toNat bs.length).foldl (fun acc p =>
    match acc.1 with
    | .done =>
      match translate acc.2 cl q.rider (BitVec.ofNat 64 p.1) true with
      | (.wait, s) => (.wait, s)
      | (.refused st, s) => (.fail st, s)
      | (.fault f l, s) => (.fail .translation, xlatFault (clientWheel cl) q.rider q.source (BitVec.ofNat 64 p.1) f l s)
      | (.ok opa, s) => match target s opa with
        | .off o => homeWrite s q o (allBytes ((bs.drop (p.1 - va.toNat)).take p.2)) false
        | .bad st => (.fail st, badOpa q st opa s)
        | _ => (.fail .translation, s)
    | _ => acc) (.done, s)

/-- Write a counter of a doorbell line; while its line is being recalled the write is kept and made later. -/
def writeCounter (cl : XClient) (q : Rq) (va : Word) (v : Word) (s : State) : State :=
  match virtWrite s cl q va (wordBytes v) with
  | (.wait, s) =>
    { s with late := s.late ++ [{ rider := q.rider, client := cl, source := q.source, va := va, data := wordBytes v }] }
  | (_, s) => s

/-- Make the counter writes that were kept, in their order. -/
def flushLate : List LateWrite → State → State
  | [], s => s
  | w :: rest, s =>
    let q : Rq := { rider := w.rider, op := none, source := w.source, va := 0 }
    match virtWrite s w.client q w.va w.data with
    | (.wait, s) => { s with late := s.late ++ w :: rest }
    | (_, s) => flushLate rest s

/-! ### Event rings (R318) -/

def eventBytes (e : Event) (time : Word) (phase : Bool) : List Byte :=
  leBytes 2 e.type.toNat ++ leBytes 2 e.status.toNat ++ [if phase then 1 else 0, 0] ++ leBytes 2 e.queue.toNat ++
    wordBytes time ++ wordBytes e.arg0 ++ wordBytes e.arg1

/-- `PHASE` of an entry: 1 in the first pass through the ring (R314). -/
def phaseOf (tail : Word) (log2 : Nat) : Bool := tail.toNat / 2 ^ log2 % 2 == 0

def updRing (r : BitVec 6) (f : Ring → Ring) (s : State) : State := { s with rings := updIf s.rings (·.rider = r) f }

def rqOf (r : BitVec 6) (source : BitVec 32) : Rq := { rider := r, op := none, source := source, va := 0 }

/-- The ring has no free entry. -/
def Ring.full (x : Ring) : Bool := decide (2 ^ x.cqLog2 ≤ x.cqTail.toNat - x.cqHead.toNat)

/-- Write one record into a ring and advance its `CQ_TAIL`. -/
def writeEvent (x : Ring) (e : Event) (time : Word) (s : State) : WrOut × State :=
  let q := rqOf x.rider 0
  let va := x.cqVa + BitVec.ofNat 64 (x.cqTail.toNat % 2 ^ x.cqLog2 * 32)
  match virtWrite s (.ring x.rider) q va (eventBytes e time (phaseOf x.cqTail x.cqLog2)) with
  | (.done, s) =>
    let s := updRing x.rider (fun y => { y with cqTail := y.cqTail + 1 }) s
    (.done, writeCounter (.ring x.rider) q (x.dbVa + 0x18) (x.cqTail + 1) s)
  | r => r

/-- Write the records a ring still has to take, oldest first; a record that finds the ring full, or that cannot be
written, is dropped and counted; one whose line is being recalled waits. -/
def flushRing : List (Event × Word) → BitVec 6 → State → State
  | [], r, s => updRing r (fun y => { y with todo := [] }) s
  | (e, t) :: rest, r, s =>
    match s.rings.find? (·.rider = r) with
    | none => s
    | some x =>
      if x.full then flushRing rest r (updRing r (fun y => { y with dropped := y.dropped + 1 }) s)
      else match writeEvent x e t s with
        | (.done, s) => flushRing rest r s
        | (.fail _, s) => flushRing rest r (updRing r (fun y => { y with dropped := y.dropped + 1 }) s)
        | (.wait, s) => updRing r (fun y => { y with todo := (e, t) :: rest }) s

/-- The record of type 0x0007 that counts dropped records is written first as soon as an entry is free (R318); while it cannot
be written, records that come are dropped and counted (notes/assumptions/147.md). -/
def lostEvent (x : Ring) : Event :=
  { type := 7, status := 0, queue := 0, arg0 := BitVec.ofNat 64 x.dropped, arg1 := 0 }

def serveRing (r : BitVec 6) (s : State) : State :=
  match s.rings.find? (·.rider = r) with
  | none => s
  | some x =>
    if decide (0 < x.dropped) && !x.full then
      match writeEvent x (lostEvent x) s.now s with
      | (.done, s) => flushRing x.todo r (updRing r (fun y => { y with dropped := y.dropped - x.dropped }) s)
      | (.fail _, s) => updRing r (fun y => { y with dropped := y.dropped + x.todo.length, todo := [] }) s
      | (.wait, s) => s
    else flushRing x.todo r s

/-- Post an event record to a rider's ring; a rider without one receives none. -/
def postEvent (r : BitVec 6) (e : Event) (s : State) : State :=
  serveRing r (updRing r (fun y => { y with todo := y.todo ++ [(e, s.now)] }) s)

/-! ### Queues -/

def findQueue (s : State) (q : BitVec 13) : Option Queue := s.queues.find? (·.q = q)
def updQueue (q : BitVec 13) (f : Queue → Queue) (s : State) : State := { s with queues := updIf s.queues (·.q = q) f }

/-- The queue enters the error state: fetch stops, an event record names the cause (R315, R318). -/
def queueError (q : BitVec 13) (cause : Nat) (st : Status) (s : State) : State :=
  match findQueue s q with
  | none => s
  | some x =>
    if x.error then s
    else
      postEvent x.rider
        { type := 6, status := st.code, queue := q.setWidth 16, arg0 := BitVec.ofNat 64 cause, arg1 := x.sqHead }
        (updQueue q (fun y => { y with error := true }) s)

/-- First queue number of a rider: the sum of `MAX_QUEUES` of every lower rider (R309). -/
def queueBase (s : State) (r : BitVec 6) : Nat :=
  match s.comp with
  | some c => ((c.riders.filter fun e => decide (e.rider.toNat < r.toNat)).map (·.maxQueues.toNat)).sum
  | none => 0

def maxQueues (s : State) (r : BitVec 6) : Nat := match riderEntry s r with | some e => e.maxQueues.toNat | none => 0

/-- The region of a descriptor at a physical place that R310 allows: private, live, not lap-versioned, pinned. -/
def regionPageOk (s : State) (r : BitVec 6) (opa : Word) : Bool :=
  match target s opa with
  | .off o => (tablePageFault s r o).isNone
  | _ => false

inductive RegionRes where
  | ok
  | wait
  | bad (st : Status)
deriving DecidableEq, Repr

/-- Check a region page by page: `TRANSLATION` when it does not translate for writing, `BAD_PARAM` elsewhere (R310). -/
def checkRegion (cl : XClient) (r : BitVec 6) : Nat → Nat → State → RegionRes × State
  | 0, _, s => (.ok, s)
  | n + 1, va, s =>
    match translate s cl r (BitVec.ofNat 64 va) true with
    | (.wait, s) => (.wait, s)
    | (.refused st, s) => (.bad st, s)
    | (.fault f l, s) => (.bad .translation, xlatFault (clientWheel cl) r (clientSource cl none) (BitVec.ofNat 64 va) f l s)
    | (.ok opa, s) => if regionPageOk s r opa then checkRegion cl r n (va + 65536) s else (.bad .badParam, s)

def regionPages (va len : Nat) : Nat := (va % 65536 + len + 65535) / 65536

/-- Check the regions in order. -/
def checkRegions (cl : XClient) (r : BitVec 6) : List (Nat × Nat) → State → RegionRes × State
  | [], s => (.ok, s)
  | (va, len) :: rest, s =>
    match checkRegion cl r (regionPages va len) (va / 65536 * 65536) s with
    | (.ok, s) => checkRegions cl r rest s
    | x => x

def rangesApart (a n b m : Nat) : Bool := decide (n = 0) || decide (m = 0) || decide (a + n ≤ b) || decide (b + m ≤ a)

/-- `INDEX`: the one named, or the lowest free one (R310). -/
def pickIndex (s : State) (r : BitVec 6) (index : Nat) : Status ⊕ Nat :=
  let base := queueBase s r
  let used (i : Nat) : Bool := s.queues.any fun x => x.q.toNat == base + i
  if index = 0xFFFF then
    match (List.range (maxQueues s r)).find? fun i => !used i with
    | some i => .inr i
    | none => .inl .busy
  else if maxQueues s r ≤ index then .inl .badParam
  else if used index then .inl .busy
  else .inr index

/-- The doorbell line of a queue or a ring is where its address translates to at creation (R310, R311). DESIGN CHOICE
(notes/assumptions/142.md): a later change of the tree does not move it. -/
def hangBell (cl : XClient) (r : BitVec 6) (va : Word) (s : State) : State :=
  match translate s cl r va true with
  | (.ok opa, s) => match target s opa with
    | .off o =>
      { s with bells := dropIf s.bells (·.client = cl) ++ [{ client := cl, off := o, tail := false, head := false }] }
    | _ => s
  | (_, s) => s

def bodyQueueCreate : Body := fun c s =>
  let ring := (c.p 0).toNat
  let db := (c.p 1).toNat
  let cq := (c.p 2).toNat
  let d := c.p 3
  let ringLog := bits d 0 8
  let cqLog := bits d 8 8
  let isRing := bits d 16 8 == 1
  let r := c.h.r
  let ringLen := if isRing then 0 else 2 ^ ringLog
  let cqLen := 32 * 2 ^ cqLog
  let form :=
    (riderEntry s r).isSome && decide (bits d 16 8 ≤ 1) && bits d 25 7 == 0 && (bits d 32 8 == 1 || bits d 32 8 == 2) &&
      decide (1 ≤ bits d 40 8) && decide (bits d 40 8 ≤ 64) && c.p 4 = 0 &&
      (if isRing then ring == 0 && ringLog == 0 else decide (16 ≤ ringLog) && decide (ringLog ≤ 24) && ring % 2 ^ ringLog == 0) &&
      db % 64 == 0 && decide (6 ≤ cqLog) && decide (cqLog ≤ 16) && cq % cqLen == 0 &&
      rangesApart ring ringLen db 64 && rangesApart ring ringLen cq cqLen && rangesApart db 64 cq cqLen
  if !form then Eff.stat .badParam s
  else
    let idx := pickIndex s r (bits d 48 16)
    let cl : XClient := match idx with
      | .inr i => if isRing then .ring r else .queue (BitVec.ofNat 13 (queueBase s r + i))
      | .inl _ => .ring r
    match checkRegions cl r [(ring, ringLen), (db, 64), (cq, cqLen)] s with
    | (.bad st, s) => Eff.stat st s
    | (.wait, s) => waitFor 0x020 c s
    | (.ok, s) =>
      if isRing then
        if s.rings.any (·.rider = r) then Eff.stat .busy s
        else
          let x : Ring :=
            { rider := r, dbVa := c.p 1, cqVa := c.p 2, cqLog2 := cqLog, cqHead := 0, cqTail := 0, dropped := 0
              todo := [] }
          Eff.ok (hangBell cl r (c.p 1) { s with rings := s.rings ++ [x] })
      else match idx with
        | .inl st => Eff.stat st s
        | .inr i =>
          let q := BitVec.ofNat 13 (queueBase s r + i)
          let x : Queue :=
            { q := q, rider := r, ringVa := c.p 0, dbVa := c.p 1, cqVa := c.p 2, ringLog2 := ringLog, cqLog2 := cqLog
              pretrans := bit d 24, version := BitVec.ofNat 4 (bits d 32 8), inflight := bits d 40 8, sqTail := 0
              sqHead := 0, cqHead := 0, cqTail := 0, started := [], waiting := [], done := [], runs := [], preDone := 0, preBad := []
              error := false, closing := false }
          Eff.res .ok (BitVec.ofNat 64 q.toNat) (hangBell cl r (c.p 1) { s with queues := s.queues ++ [x] })

def execQueueCreate (c : Cmd) (s : State) : Out State := .next (runPacket 0x020 c bodyQueueCreate s)

/-- Every command in progress on a queue has posted its reply (R316). -/
def queueIdle (s : State) (q : BitVec 13) : Bool :=
  match findQueue s q with
  | some x => x.started.isEmpty && x.waiting.isEmpty && x.done.isEmpty
  | none => true

/-- Finish a destruction whose queue is idle: free the queue and return (R316). -/
def tryDestroy (o : Open) (q : BitVec 13) (s : State) : Option State :=
  if queueIdle s q then some (completeIf o .ok 0 [] { s with queues := dropIf s.queues (·.q = q) }) else none

/-- `QUEUE_DESTROY` (R316). DESIGN CHOICE (notes/assumptions/143.md): from the port, a number outside the rider's range is a number
with no queue. -/
def bodyQueueDestroy : Body := fun c s =>
  let p := c.p 0
  let q := BitVec.ofNat 13 (bits p 0 13)
  let r := c.h.r
  if bits p 13 3 ≠ 0 || bits p 17 47 ≠ 0 then Eff.stat .badParam s
  else if bit p 16 then
    if s.rings.any (·.rider = r) then Eff.ok { s with rings := dropIf s.rings (·.rider = r) } else Eff.stat .badParam s
  else if c.h.src = .queue q then Eff.stat .badParam s
  else if q.toNat < queueBase s r || queueBase s r + maxQueues s r ≤ q.toNat then
    Eff.stat (match c.h.src with | .queue _ => .revoked | _ => .badParam) s
  else match findQueue s q with
    | none => Eff.stat .badParam s
    | some _ =>
      let s := updQueue q (fun x => { x with closing := true }) s
      match tryDestroy (openOf 0x021 c) q s with
      | some s => Eff.later s
      | none => Eff.later { s with jobs := s.jobs ++ [.destroy (openOf 0x021 c) q] }

def execQueueDestroy (c : Cmd) (s : State) : Out State := .next (runPacket 0x021 c bodyQueueDestroy s)

/-! ### Entries (R312) -/

/-- The command that an entry's bytes spell: its opcode, header, parameters and payload (R297). -/
def parseEntry (q : BitVec 13) (b : List Byte) : Nat × Cmd :=
  let op := fieldB b 0 2
  let pl := fieldB b 0x0C 2
  let yl := fieldB b 0x10 4
  let h : Hdr :=
    { src := .queue q, version := BitVec.ofNat 4 (op / 4096), flags := BitVec.ofNat 16 (fieldB b 2 2)
      rider := BitVec.ofNat 8 (fieldB b 4 1), chunk := BitVec.ofNat 8 (fieldB b 5 1)
      queue := BitVec.ofNat 16 (fieldB b 6 2), tag := BitVec.ofNat 32 (fieldB b 8 4), paramLen := BitVec.ofNat 16 pl
      rsv := BitVec.ofNat 16 (fieldB b 0x0E 2), payloadLen := BitVec.ofNat 32 yl
      epoch := BitVec.ofNat 32 (fieldB b 0x14 4), replyVa := BitVec.ofNat 64 (fieldB b 0x18 8) }
  (op % 4096, { h := h, params := words64 (pl / 8) (b.drop 32), payload := sliceB b (32 + pl) yl })

/-- Slots of 64 bytes of an entry. -/
def entrySlots (paramLen payloadLen : Nat) : Nat := (32 + paramLen + payloadLen + 63) / 64

/-- The lengths of an entry break check 1 of R299, or the entry is longer than the ring (R315). -/
def entryBad (x : Queue) (paramLen payloadLen : Nat) : Bool :=
  decide (1024 < paramLen) || decide (paramLen % 8 ≠ 0) || decide (65536 < payloadLen) ||
    decide (2 ^ x.ringLog2 < entrySlots paramLen payloadLen * 64)

def rqQueue (x : Queue) : Rq := rqOf x.rider (srcQueue x.q)

/-- Read bytes of the ring at a slot position, wrapping at its end (R312). -/
def ringRead (s : State) (x : Queue) (slot n : Nat) : RdRes × State :=
  let size := 2 ^ x.ringLog2
  let a := slot * 64 % size
  let k := min n (size - a)
  match virtRead s (.queue x.q) (rqQueue x) (x.ringVa + BitVec.ofNat 64 a) k with
  | (.data bs, s) =>
    if n ≤ k then (.data bs, s)
    else match virtRead s (.queue x.q) (rqQueue x) x.ringVa (n - k) with
      | (.data bs', s) => (.data (bs ++ bs'), s)
      | r => r
  | r => r

/-! ### Doorbells (R311) -/

/-- Ranges of an embedding command of a rider: the share, the output or the gradients, and the scratch region (R224, R233). -/
def embRanges (s : State) (op : Nat) (c : Cmd) : List (Nat × Nat × Bool) :=
  let n := bits (c.p 1) 0 32
  let samples := bits (c.p 1) 32 32
  let mode := bits (c.p 0) 8 8
  let fg := BitVec.ofNat 8 (bits (c.p 0) 16 8)
  match s.eng.tables.find? fun t => t.surr == c.h.surrogate && t.rider = c.h.r && t.table.toNat == bits (c.p 0) 0 8 with
  | none => []
  | some t =>
    let data : Nat × Nat × Bool :=
      if op = 0x302 then ((c.p 5).toNat, (if fg = 0 then n else samples) * (4 * t.dim), false)
      else if mode = 0 then ((c.p 5).toNat, n * t.stride, true)
      else ((c.p 5).toNat, samples * sideBytes false fg t.dim, true)
    [((c.p 2).toNat, 8 * n, false), ((c.p 3).toNat, if bit (c.p 0) 24 then 4 * n else 0, false),
     ((c.p 4).toNat, if op = 0x301 && mode == 0 then 0 else 4 * (samples + 1), false), data,
     ((c.p 6).toNat, if c.p 6 = 0 then 0 else bits (c.p 7) 0 32 * 4096, true)]

/-- The virtual ranges that a command's translated addresses name, with whether they are written (R57). -/
def cmdRanges (s : State) (op : Nat) (c : Cmd) : List (Nat × Nat × Bool) :=
  match op with
  | 0x480 => [((c.p 0).toNat, c.h.payloadLen.toNat, true)]
  | 0x481 => [((c.p 0).toNat, bits (c.p 1) 0 17, false)]
  | 0x380 => [((c.p 0).toNat, (c.p 2).toNat, true)]
  | 0x381 => [((c.p 0).toNat, (c.p 2).toNat, true), ((c.p 1).toNat, (c.p 2).toNat, false)]
  | 0x382 => [((c.p 0).toNat, (c.p 2).toNat, false), ((c.p 1).toNat, (c.p 2).toNat, false)]
  | 0x383 =>
    let side (i lo : Nat) : Nat := sideBytes (bit (c.p 3) i) (BitVec.ofNat 8 (bits (c.p 3) lo 8)) (c.p 2).toNat
    ((c.p 0).toNat, side 25 16, true) ::
      (words64 (bits (c.p 3) 32 8) c.payload).map fun a => (a.toNat, side 24 8, false)
  | 0x301 => embRanges s op c
  | 0x302 => embRanges s op c
  | _ => []

inductive PreRes where
  | done
  | wait
  | fault
deriving DecidableEq, Repr

/-- Walk the pages of a range that no earlier attempt has walked, and hold their runs (R57). -/
def preWalk (q : BitVec 13) (r : BitVec 6) (slot : Word) (write : Bool) : Nat → Nat → State → PreRes × State
  | 0, _, s => (.done, s)
  | n + 1, va, s =>
    let page := BitVec.ofNat 64 va
    if s.queues.any fun x => x.q = q && x.runs.any fun e => e.slot = slot && e.tag.isNone && e.page = page && e.write == write then
      preWalk q r slot write n (va + 65536) s
    else match translate s (.queue q) r page write with
      | (.ok opa, s) =>
        preWalk q r slot write n (va + 65536)
          (updQueue q (fun x => { x with runs := x.runs ++ [{ slot := slot, tag := none, page := page, opa := opa, write := write }] }) s)
      | (.wait, s) => (.wait, s)
      | (.refused _, s) => (.fault, s)
      | (.fault f l, s) => (.fault, xlatFault (clientWheel (.queue q)) r (srcQueue q) page f l s)

/-- Walk the ranges of a descriptor in order; the first that waits or faults decides. -/
def preWalks (q : BitVec 13) (r : BitVec 6) (slot : Word) : List (Nat × Nat × Bool) → State → PreRes × State
  | [], s => (.done, s)
  | g :: gs, s =>
    match preWalk q r slot g.2.2 (regionPages g.1 g.2.1) (g.1 / 65536 * 65536) s with
    | (.done, s) => preWalks q r slot gs s
    | x => x

/-- Pre-translate the entries below `SQ_TAIL` that are not ready yet, in order (R57); one that must wait is tried again. An
entry that the fetch will refuse needs no walk. `fuel` bounds the number of entries. -/
def preTranslate (q : BitVec 13) : Nat → State → State
  | 0, s => s
  | fuel + 1, s =>
    match findQueue s q with
    | none => s
    | some x =>
      let slot := x.preDone
      let ready (to_ : Word) (s : State) : State := updQueue q (fun y => { y with preDone := to_ }) s
      if !x.pretrans || x.error || x.sqTail.toNat ≤ slot.toNat then s
      else match ringRead s x slot.toNat 32 with
        | (.wait, s) => s
        | (.fail _, s) => ready x.sqTail s
        | (.data hb, s) =>
          let pl := fieldB hb 0x0C 2
          let yl := fieldB hb 0x10 4
          let next := slot + BitVec.ofNat 64 (entrySlots pl yl)
          if entryBad x pl yl then ready x.sqTail s
          else if x.sqTail.toNat < next.toNat then s
          else match ringRead s x slot.toNat (32 + pl + yl) with
            | (.wait, s) => s
            | (.fail _, s) => ready x.sqTail s
            | (.data b, s) =>
              let (op, c) := parseEntry q b
              match preWalks q x.rider slot (cmdRanges s op c) s with
              | (.wait, s) => s
              | (.done, s) => preTranslate q fuel (ready next s)
              | (.fault, s) =>
                preTranslate q fuel (ready next (updQueue q (fun y => { y with preBad := y.preBad ++ [slot] }) s))

/-- Go on with the pre-translation of a queue. -/
def pumpPre (q : BitVec 13) (s : State) : State :=
  match findQueue s q with
  | some x => preTranslate q (x.sqTail.toNat - x.preDone.toNat) s
  | none => s

/-- `SQ_TAIL` of a queue has a new value: it wakes a module in Coast, puts the queue in error when it breaks R311, else makes
entries available; a `PRETRANSLATE` queue walks their addresses (R57). -/
def tailStored (q : BitVec 13) (x : Queue) (value : Word) (s : State) : State :=
  let s := if s.power.st = .coast then wakeUp s else s
  if x.error then s
  else if value.toNat < x.sqTail.toNat || x.sqHead.toNat + 2 ^ x.ringLog2 / 64 < value.toNat then
    queueError q 1 .badParam s
  else
    pumpPre q (updQueue q (fun y => { y with sqTail := value }) s)

/-- A store lands on `SQ_TAIL`. -/
def ringDoorbell (q : BitVec 13) (value : Word) (s : State) : State :=
  match findQueue s q with
  | none => s
  | some x => tailStored q x value (writeCounter (.queue q) (rqQueue x) x.dbVa value s)

def execDoorbell (q : BitVec 13) (value : Word) (s : State) : Out State :=
  .next (whenUp s (ringDoorbell q value))

/-- A store lands on `CQ_HEAD` of a queue, or of the event ring of a rider: it frees completion entries. -/
def cqHeadStore (ring : Bool) (q : BitVec 13) (value : Word) (s : State) : State :=
  if ring then
    let r : BitVec 6 := q.setWidth 6
    match s.rings.find? (·.rider = r) with
    | none => s
    | some x =>
      let s := writeCounter (.ring r) (rqOf r 0) (x.dbVa + 0x10) value s
      serveRing r (updRing r (fun y => { y with cqHead := value }) s)
  else match findQueue s q with
    | none => s
    | some x =>
      let s := writeCounter (.queue q) (rqQueue x) (x.dbVa + 0x10) value s
      updQueue q (fun y => { y with cqHead := value }) s

/-- The value of a word of a doorbell line after the stores that have landed. -/
def bellWord (s : State) (off : Nat) : Option Word :=
  match (findExt s (extentOf off)).map fun x => readAt s x .latest off 8 none with
  | some (.data bs) => some (bytesWord bs)
  | _ => none

/-- The stores that have landed on a doorbell line are taken up: the values that count are those of the words after them
(R311). A line whose word the block itself is still to write waits. -/
def pumpBell (b : Bell) (s : State) : State :=
  if s.late.any fun w => decide (w.client = b.client) then s
  else
    let s := { s with bells := updIf s.bells (·.client = b.client) fun b => { b with tail := false, head := false } }
    let tail := if b.tail then bellWord s b.off else none
    let head := if b.head then bellWord s (b.off + 0x10) else none
    match b.client with
    | .queue q =>
      let s := match head with
        | some v => updQueue q (fun y => { y with cqHead := v }) s
        | none => s
      match tail, findQueue s q with
      | some v, some x => tailStored q x v s
      | _, _ => s
    | .ring r => match head with
      | some v => serveRing r (updRing r (fun y => { y with cqHead := v }) s)
      | none => s
    | _ => s

/-- Doorbells that have been recognised are taken up; a line whose queue or ring is gone is forgotten. -/
def pumpBells (s : State) : State :=
  let lives (b : Bell) : Bool := match b.client with
    | .queue q => (findQueue s q).isSome
    | .ring r => s.rings.any (·.rider = r)
    | _ => false
  let s := { s with bells := s.bells.filter lives }
  (s.bells.filter fun b => b.tail || b.head).foldl (fun s b => pumpBell b s) s

def execCqHeadUpdate (ring : Bool) (q : BitVec 13) (value : Word) (s : State) : Out State :=
  .next (whenUp s (cqHeadStore ring q value))

/-! ### Posting replies (R314) -/

def Queue.cqFull (x : Queue) : Bool := decide (2 ^ x.cqLog2 ≤ x.cqTail.toNat - x.cqHead.toNat)

/-- The 32 bytes of a reply (R298). -/
def replyBytes (r : Reply) (phase : Bool) : List Byte :=
  leBytes 2 (r.h.version.toNat * 4096 + r.op.toNat) ++ leBytes 2 r.status.code.toNat ++
    [r.h.rider, BitVec.ofNat 8 r.chunk] ++ leBytes 2 r.h.queue.toNat ++ leBytes 4 r.h.tag.toNat ++
    leBytes 2 (r.payloadLost.toNat * 8 + phase.toNat * 4 + r.h.surrogate.toNat * 2 + r.more.toNat) ++ zeros 2 ++
    leBytes 4 r.payload.length ++ leBytes 4 r.epoch.toNat ++ wordBytes r.result

/-- Step 1 of R314: the reply payload is written at `REPLY_VA`; none while the write waits. -/
def postPayload (x : Queue) (r : Reply) (s : State) : Option Reply × State :=
  if r.h.replyVa = 0 || r.payload.isEmpty || r.payloadLost then (some r, s)
  else match virtWrite s (.queue x.q) (rqQueue x) r.h.replyVa r.payload with
    | (.done, s) => (some r, s)
    | (.wait, s) => (none, s)
    | (.fail st, s) => (some { r with payloadLost := true }, queueError x.q 4 st s)

/-- Steps 2 to 4 of R314: the reply, `CQ_TAIL`, the event of `NOTIFY`. -/
def postEntry (x : Queue) (r : Reply) (s : State) : State :=
  let va := x.cqVa + BitVec.ofNat 64 (x.cqTail.toNat % 2 ^ x.cqLog2 * 32)
  let pop (s : State) : State := updQueue x.q (fun y => { y with done := y.done.drop 1 }) s
  match virtWrite s (.queue x.q) (rqQueue x) va (replyBytes r (phaseOf x.cqTail x.cqLog2)) with
  | (.wait, s) => s
  | (.fail st, s) => pop (queueError x.q 4 st s)
  | (.done, s) =>
    let s := pop (updQueue x.q (fun y => { y with cqTail := y.cqTail + 1 }) s)
    let s := writeCounter (.queue x.q) (rqQueue x) (x.dbVa + 0x18) (x.cqTail + 1) s
    if r.h.notify then
      postEvent x.rider
        { type := 1, status := r.status.code, queue := x.q.setWidth 16, arg0 := r.h.tag.setWidth 64
          arg1 := r.op.setWidth 64 } s
    else s

/-- The runs that a descriptor carries are released when it has completed (R57). -/
def releaseRuns (q : BitVec 13) (s : State) : State :=
  updQueue q (fun y => { y with runs := y.runs.filter fun e => match e.tag with
    | none => true
    | some t => y.started.any (·.h.tag = t) || y.waiting.any (·.c.h.tag = t) }) s

/-- Post the oldest completed reply of a queue; one that finds the completion ring full waits for an entry, in the error state
too (notes/assumptions/147.md). -/
def postReply (q : BitVec 13) (s : State) : State :=
  match findQueue s q with
  | none => s
  | some x => match x.done with
    | [] => s
    | r :: _ =>
      if x.cqFull then s
      else match postPayload x r s with
        | (none, s) => s
        | (some r, s) => releaseRuns q (postEntry x r s)

def execReplyPost (q : BitVec 13) (s : State) : Out State := .next (whenUp s (postReply q))

end Sys2Proof.Machine
end

