-- ==== Sys2Proof/Machine/Lap.lean ====
section
/-! DEFINITION. Lap and stage commands (chapter 7): `LAP_OPEN`, `LAP_BEGIN_WRITE`, `LAP_COMMIT`, `LAP_CLOSE`,
`STAGE_MARK`, `STAGE_ROLLBACK`, with the steps of a commit (R137, R282). -/

namespace Sys2Proof.Machine

/-! ### Extent runs and lap state entries (R136, R143) -/

def runFirst (p : Word) : Nat := bits p 0 14
def runCount (p : Word) : Nat := bits p 16 15

/-- Reserved bits of an extent-run word below bit 32, and its bounds (R303). -/
def runForm (p : Word) (top : Nat) : Bool :=
  bits p 14 2 == 0 && bits p 31 1 == 0 && decide (1 ≤ runCount p) && decide (runCount p ≤ top) &&
    decide (runFirst p + runCount p ≤ 16384)

/-- The extents of this module that a run names, in order; none for an index that names none (R291). -/
def runExts (s : State) (surr : Bool) (p : Word) : List (Option Nat) :=
  (seqFrom (runFirst p) (runCount p)).map (localIdx s surr)

/-- The lap state entry of an extent for a rider (R136). -/
def lapEntry (s : State) (r : BitVec 6) (surr : Bool) (idx : Nat) : List Byte :=
  match findExt s idx with
  | none => zeros 32
  | some x =>
    let w := x.wlap
    let marked := s.store.marks.any fun m => m.rider = r && m.surr == surr && m.laps.any (·.1 == idx)
    let mine := match w with | some w => decide (w.rider = r) | none => false
    let rd := lookupK x.reads r
    leBytes 4 x.latest.toNat ++ leBytes 4 (match w with | some w => w.num.toNat | none => 0) ++
      leBytes 4 (lapPresent s.store x) ++ leBytes 4 (match w with | some w => w.reserved | none => 0) ++
      leBytes 4 (match w with | some w => w.shadows.length | none => 0) ++ leBytes 4 (lapRetained s.store x) ++
      leBytes 2 x.name ++ [BitVec.ofNat 8 (liveLaps x)] ++
      [BitVec.ofNat 8 (marked.toNat * 4 + rd.isSome.toNat * 2 + mine.toNat)] ++
      leBytes 4 (match rd with | some k => k.toNat | none => 0)

def lapEntries (s : State) (r : BitVec 6) (surr : Bool) (idxs : List Nat) : List Byte :=
  idxs.flatMap (lapEntry s r surr)

/-- The extents that a mark covers: live, lap-versioned, with this rider as their only writer; with the surrogate flag
the twin's. -/
def markCovers (s : State) (r : BitVec 6) (surr : Bool) : List Extent :=
  s.store.extents.filter fun x =>
    x.live && x.mirrorOf.isSome == surr &&
      (match extRun s x with | some u => u.lapped && decide (u.writers.toNat = 2 ^ r.toNat) | none => false)

def findMark (s : State) (r : BitVec 6) (surr : Bool) : Option Mark :=
  s.store.marks.find? fun m => m.rider = r && m.surr == surr

/-- The extents that a waiting lap or stage command acts on. -/
def lapIdxs (s : State) (h : HeldCmd) : List Nat :=
  let r := h.c.h.r
  let surr := h.c.h.surrogate
  let marked := match findMark s r surr with | some m => m.laps.map (·.1) | none => []
  match h.op.toNat with
  | 0x204 => (if bit (h.c.p 0) 32 then [] else (markCovers s r surr).map (·.idx)) ++ marked
  | 0x205 => marked
  | n => if n / 4 = 0x80 then (runExts s surr (h.c.p 0)).filterMap id else []

/-- An earlier lap command on one of the extents, or a revoke of it, is in progress (R43, R128). -/
def lapBusy (s : State) (idxs : List Nat) : Bool :=
  idxs.any (fun i => coreRestarting s (homeWheel (i * 17179869184))) ||
    s.jobs.any fun j => match j with
      | .commit _ _ exts _ _ => exts.any fun e => idxs.contains e.1
      | .rollback _ _ exts _ _ => exts.any fun e => idxs.contains e.1
      | .rerun h => (lapIdxs s h).any idxs.contains
      | _ => false

/-- Checks 2 and 3 of R143: every extent live with the rider among its readers (or writers), and lap-versioned. -/
def lapRights (s : State) (r : BitVec 6) (write : Bool) (xs : List (Option Nat)) : Status ⊕ List Nat :=
  let ok := xs.all fun i => match i.bind (findExt s) with
    | some x => if write then extWriter s x r else extLive s x r
    | none => false
  if !ok then .inl .revoked
  else
    let idxs := xs.filterMap id
    if idxs.all fun i => match findExt s i with | some x => extLapped s x | none => false then .inr idxs
    else .inl .badParam

/-- Fence an extent of a rider (R124). -/
def fenceExt (r : BitVec 6) (idx : Nat) (s : State) : State :=
  match findExt s idx with
  | some x =>
    if x.fenced then s
    else
      postEvent r { type := 5, status := Status.fenced.code, queue := 0, arg0 := BitVec.ofNat 64 x.name, arg1 := 0 }
        (updExt s idx fun x => { x with fenced := true })
  | none => s

/-- A lap command uses the lap metadata of an extent: where an injection makes both copies fail, the extent is fenced with one
unlisted line and keeps its latest committed lap only (R328, R344; notes/assumptions/135.md). -/
def lapUse (r : BitVec 6) (idx : Nat) (s : State) : State :=
  let off := idx * 17179869184
  let u := unitCassette (homeWheel off)
  match injMode s 0x04 u with
  | none => s
  | some m =>
    if m = 0 then corrected 0x04 u (BitVec.ofNat 64 off) s
    else if m = 3 then s
    else
      let s := detect
        { Rec.blank 0x0002 with
          status := Status.uncorrectable.code, point := 0x04, unit := u, rider := riderByte r, addr := BitVec.ofNat 64 off } s
      let s := updExt (abandonLap idx s) idx fun x => { x with reads := [], holds := [], unlisted := 1 }
      fenceExt r idx (reapLaps idx s)

/-- Run a lap command over its extents: checks 1 to 3, the wait of R128, then its own part. -/
def lapCommand (op : Nat) (c : Cmd) (form write : Bool) (s : State) (body : List Nat → State → Eff) : Eff :=
  if !(runForm (c.p 0) 1024 && form) then Eff.stat .badParam s
  else match lapRights s c.h.r write (runExts s c.h.surrogate (c.p 0)) with
    | .inl st => Eff.stat st s
    | .inr idxs => if lapBusy s idxs then waitFor op c s else body idxs (idxs.foldl (fun s i => lapUse c.h.r i s) s)

/-- Answer with the lap state entries (R136). -/
def lapAnswer (st : Status) (c : Cmd) (idxs : List Nat) (s : State) : Eff :=
  Eff.data st 0 (lapEntries s c.h.r c.h.surrogate idxs) s

def forExts (idxs : List Nat) (s : State) (f : Nat → State → State) : State := idxs.foldl (fun s i => f i s) s

/-! ### `LAP_OPEN`, `LAP_BEGIN_WRITE`, `LAP_CLOSE` -/

/-- The lap named is a committed lap that is live on the extent (check 4). -/
def lapCommitted (s : State) (idx : Nat) (k : BitVec 32) : Bool :=
  match findExt s idx with
  | some x => x.latest = k || x.old.any (·.num = k)
  | none => false

def openLap (r : BitVec 6) (k : BitVec 32) (idx : Nat) (s : State) : State :=
  reapLaps idx (updExt s idx fun x => { x with reads := setK x.reads r (if k = 0 then x.latest else k) })

def bodyLapOpen : Body := fun c s =>
  let k := BitVec.ofNat 32 (bits (c.p 0) 32 32)
  lapCommand 0x200 c true false s fun idxs s =>
    if k ≠ 0 && !(idxs.all fun i => lapCommitted s i k) then lapAnswer .lapClosed c idxs s
    else lapAnswer .ok c idxs (forExts idxs s (openLap c.h.r k))

def execLapOpen (c : Cmd) (s : State) : Out State := .next (runPacket 0x200 c bodyLapOpen s)

/-- Check 5: another rider holds the write lap. -/
def wlapOther (s : State) (r : BitVec 6) (idx : Nat) : Bool :=
  match findExt s idx with
  | some x => match x.wlap with | some w => decide (w.rider ≠ r) | none => false
  | none => false

/-- Check 6: R135 refuses the reservation; one that is not larger than the rider's own needs no room. -/
def lapFull (s : State) (n : Nat) (idx : Nat) : Bool :=
  match findExt s idx with
  | none => false
  | some x =>
    let sum := decide (262144 < lapPresent s.store x + lapRetained s.store x + n)
    match x.wlap with
    | some w => decide (w.reserved < n) && (sum || decide (16 ≤ liveLaps x))
    | none => sum || decide (16 ≤ liveLaps x)

def beginLap (r : BitVec 6) (n : Nat) (idx : Nat) (s : State) : State :=
  updExt s idx fun x => match x.wlap with
    | some w => { x with wlap := some { w with reserved := max w.reserved n } }
    | none => { x with wlap := some { rider := r, num := nextLap x.latest, reserved := n, shadows := [], closed := false } }

def bodyLapBeginWrite : Body := fun c s =>
  let n := bits (c.p 0) 32 32
  lapCommand 0x201 c (decide (1 ≤ n) && decide (n ≤ 262144)) true s fun idxs s =>
    if idxs.any (wlapOther s c.h.r) then lapAnswer .busy c idxs s
    else if idxs.any (lapFull s n) then lapAnswer .lapLimit c idxs s
    else lapAnswer .ok c idxs (forExts idxs s (beginLap c.h.r n))

def execLapBeginWrite (c : Cmd) (s : State) : Out State := .next (runPacket 0x201 c bodyLapBeginWrite s)

def closeRead (r : BitVec 6) (idx : Nat) (s : State) : State :=
  reapLaps idx (updExt s idx fun x => { x with reads := dropIf x.reads (·.1 = r) })

/-- Abandon the write lap that a rider holds (R138 mode 1). -/
def abandonOwn (r : BitVec 6) (idx : Nat) (s : State) : State :=
  match findExt s idx with
  | some x => match x.wlap with
    | some w => if w.rider = r then abandonLap idx s else s
    | none => s
  | none => s

def bodyLapClose : Body := fun c s =>
  let mode := bit (c.p 0) 32
  lapCommand 0x203 c (bits (c.p 0) 33 31 == 0) mode s fun idxs s =>
    lapAnswer .ok c idxs (forExts idxs s (if mode then abandonOwn c.h.r else closeRead c.h.r))

def execLapClose (c : Cmd) (s : State) : Out State := .next (runPacket 0x203 c bodyLapClose s)

/-! ### Committing (R137, R282) -/

/-- The extents of the run that are mirrored on the twin while the pair mirrors, as the twin numbers them. -/
def commitMirror (s : State) (exts : List (Nat × BitVec 32)) : List (Nat × BitVec 32) :=
  exts.filterMap fun e => match findExt s e.1 with
    | some x => match x.mirrorOf, extRun s x with
      | none, some u => if u.mirror = 0 then none else some (u.mirrorFirst.toNat + (x.idx - u.first.toNat), e.2)
      | _, _ => none
    | none => none

/-- The shadow pages that a lap-mode extent sends with its commit record. -/
def commitShadows (s : State) (exts : List (Nat × BitVec 32)) : List (Nat × List Byte) :=
  exts.flatMap fun e => match findExt s e.1 with
    | some x => match x.mirrorOf, extRun s x, x.wlap with
      | none, some u, some w =>
        if u.mirror = 2 then
          w.shadows.map fun p =>
            ((u.mirrorFirst.toNat + (x.idx - u.first.toNat)) * 262144 + p.1 % 262144, memReadN s.store.mem (p.2 * 65536) 65536)
        else []
      | _, _, _ => []
    | none => []

/-- The pair mirrors at present, or will again when its link returns (R276, R281). -/
def pairMirrors (s : State) : Bool := s.pair.st = 2 || s.pair.st = 3 || s.pair.st = 4 || s.pair.st = 6

/-- The write lap named is still held by the rider on the extent. -/
def holdsLap (s : State) (r : BitVec 6) (e : Nat × BitVec 32) : Bool :=
  match findExt s e.1 with
  | some x => match x.wlap with | some w => w.rider = r && w.num = e.2 | none => false
  | none => false

def setClosed (b : Bool) (idx : Nat) (s : State) : State :=
  updExt s idx fun x => { x with wlap := x.wlap.map fun w => { w with closed := b } }

/-- Lines of a set of extents that the directory lists. -/
def dirLines (s : State) (idxs : List Nat) : List Nat :=
  (s.coh.dir.filter fun d => idxs.contains (extentOf d.line)).map (·.line)

/-- A transaction is in progress on a line of a set of extents. -/
def extsBusy (s : State) (idxs : List Nat) : Bool := s.coh.trks.any fun t => idxs.contains (extentOf t.line)

/-- Recall every listed line of a set of extents (R113); each recall takes its turn in its line's order. -/
def recallExts (idxs : List Nat) (s : State) : State := (dirLines s idxs).foldl (fun s l => startRecall l s) s

/-- An agent-loss scan that may abandon a write lap of the extents runs (R124, R137). -/
def scanning (s : State) (idxs : List Nat) : Bool := idxs.any fun i => scanHolds s (i * 2 ^ 34)

/-- The surrogate flag of an open command. -/
def Open.surr (o : Open) : Bool := o.h.surrogate

/-- Steps drain, recall, mirror, switch and return of a commit: the state, and the commit as it still stands, if it
does (R137). -/
def tryCommit (o : Open) (r : BitVec 6) (exts : List (Nat × BitVec 32)) (step : Nat) (prepared : Bool) (s : State) :
    State × Option Job :=
  let idxs := exts.map (·.1)
  if !(exts.all (holdsLap s r)) then
    let s := forExts idxs s (setClosed false)
    (completeIf o .lapClosed 0 (lapEntries s r o.surr idxs) s, none)
  else if scanning s idxs || extsBusy s idxs then (s, some (.commit o r exts step prepared))
  else if !(dirLines s idxs).isEmpty then (recallExts idxs s, some (.commit o r exts step prepared))
  else
    let mir := commitMirror s exts
    if pairMirrors s && !mir.isEmpty && !prepared then
      if s.pair.st = 4 || step = 1 then (s, some (.commit o r exts step prepared))
      else (emit (.commitRecord mir (commitShadows s exts)) s, some (.commit o r exts 1 false))
    else
      let s := forExts idxs s commitLap
      let s := if prepared then emit (.committedMark mir) s else s
      (completeIf o .ok 0 (lapEntries s r o.surr idxs) s, none)

/-- Put a job in the list, or nothing when it has ended. -/
def addJob (p : State × Option Job) : State :=
  match p.2 with
  | some j => { p.1 with jobs := p.1.jobs ++ [j] }
  | none => p.1

def bodyLapCommit : Body := fun c s =>
  let n := runCount (c.p 0)
  let nums := words32 n c.payload
  lapCommand 0x202 c (bits (c.p 0) 32 32 == 0 && c.payload.length == 4 * n) true s fun idxs s =>
    let exts := idxs.zip nums
    if !(exts.all (holdsLap s c.h.r)) then lapAnswer .lapClosed c idxs s
    else
      let s := forExts idxs s (setClosed true)
      Eff.later (addJob (tryCommit (openOf 0x202 c) c.h.r exts 0 false s))

def execLapCommit (c : Cmd) (s : State) : Out State := .next (runPacket 0x202 c bodyLapCommit s)

/-! ### Stage marks (R141, R142) -/

/-- Release a rider's mark: the laps it held may stop being live. -/
def releaseMark (r : BitVec 6) (surr : Bool) (s : State) : State :=
  match findMark s r surr with
  | none => s
  | some m =>
    let s := { s with store.marks := dropIf s.store.marks fun n => n.rider = r && n.surr == surr }
    forExts (m.laps.map (·.1)) s reapLaps

/-- Version 1 refuses a port reply above 64 KiB (R296). -/
def replyTooLong (c : Cmd) (n : Nat) : Bool :=
  c.h.src = .port && decide (c.h.version = 1) && decide (65536 < n)

def bodyStageMark : Body := fun c s =>
  let p := c.p 0
  let r := c.h.r
  let surr := c.h.surrogate
  if bits p 33 31 ≠ 0 then Eff.stat .badParam s
  else if bit p 32 then
    let idxs := match findMark s r surr with | some m => m.laps.map (·.1) | none => []
    if replyTooLong c (32 * idxs.length) then Eff.stat .badParam s
    else if lapBusy s idxs then waitFor 0x204 c s
    else lapAnswer .ok c idxs (releaseMark r surr s)
  else
    let xs := markCovers s r surr
    let idxs := xs.map (·.idx)
    if replyTooLong c (32 * idxs.length) then Eff.stat .badParam s
    else if lapBusy s idxs then waitFor 0x204 c s
    else
      let m : Mark := { rider := r, surr := surr, tag := BitVec.ofNat 32 (bits p 0 32), laps := xs.map fun x => (x.idx, x.latest) }
      let old := match findMark s r surr with | some m => m.laps.map (·.1) | none => []
      let s := { s with store.marks := dropIf s.store.marks (fun n => n.rider = r && n.surr == surr) ++ [m] }
      lapAnswer .ok c idxs (forExts old s reapLaps)

def execStageMark (c : Cmd) (s : State) : Out State := .next (runPacket 0x204 c bodyStageMark s)

/-- The covered extents that are still live. -/
def rollExts (s : State) (m : Mark) : List (Nat × BitVec 32) :=
  m.laps.filter fun e => match findExt s e.1 with | some x => x.live | none => false

/-- A rollback would exceed 16 live laps on an extent (R142). -/
def rollFull (s : State) (r : BitVec 6) (e : Nat × BitVec 32) : Bool :=
  match findExt s e.1 with
  | none => false
  | some x =>
    let own := match x.wlap with | some w => decide (w.rider = r) | none => false
    x.latest ≠ e.2 && decide (16 < liveLaps x - own.toNat + 1)

/-- Commit the marked lap's pages again under the next number (R142 step 2). -/
def rollLap (e : Nat × BitVec 32) (s : State) : State :=
  match findExt s e.1 with
  | none => s
  | some x =>
    if x.latest = e.2 then s
    else match x.old.find? (·.num = e.2) with
      | none => s
      | some l => switchLap e.1 (nextLap x.latest) l.pages s

/-- The mirrored extents that a rollback changes, as the twin numbers them. -/
def rollMirror (s : State) (exts : List (Nat × BitVec 32)) : List (Nat × BitVec 32) :=
  commitMirror s (exts.filter fun e => match findExt s e.1 with | some x => x.latest ≠ e.2 | none => false)

/-- The recall, mirror, switch and return steps of a rollback. -/
def tryRollback (o : Open) (r : BitVec 6) (exts : List (Nat × BitVec 32)) (step : Nat) (prepared : Bool) (s : State) :
    State × Option Job :=
  let idxs := exts.map (·.1)
  if scanning s idxs || extsBusy s idxs then (s, some (.rollback o r exts step prepared))
  else if !(dirLines s idxs).isEmpty then (recallExts idxs s, some (.rollback o r exts step prepared))
  else
    let mir := rollMirror s exts
    if pairMirrors s && !mir.isEmpty && !prepared then
      if s.pair.st = 4 || step = 1 then (s, some (.rollback o r exts step prepared))
      else (emit (.commitRecord mir []) s, some (.rollback o r exts 1 false))
    else
      let s := exts.foldl (fun s e => rollLap e s) s
      let s := if prepared then emit (.committedMark mir) s else s
      (completeIf o .ok 0 (lapEntries s r o.surr idxs) s, none)

def bodyStageRollback : Body := fun c s =>
  let p := c.p 0
  let r := c.h.r
  match findMark s r c.h.surrogate with
  | none => Eff.stat .badParam s
  | some m =>
    let exts := rollExts s m
    if bits p 32 32 ≠ 0 || m.tag.toNat ≠ bits p 0 32 || replyTooLong c (32 * exts.length) then Eff.stat .badParam s
    else if lapBusy s (exts.map (·.1)) then waitFor 0x205 c s
    else if exts.any (rollFull s r) then Eff.stat .lapLimit s
    else
      let s := forExts (exts.map (·.1)) s (abandonOwn r)
      Eff.later (addJob (tryRollback (openOf 0x205 c) r exts 0 false s))

def execStageRollback (c : Cmd) (s : State) : Out State := .next (runPacket 0x205 c bodyStageRollback s)

end Sys2Proof.Machine
end

