-- ==== Sys2Proof/Machine/TileBase.lean ====
section
/-! DEFINITION. What other chapters need of the tiles (chapter 9): contexts and their states (R167 to R169), context
faults (R196), the operand cache (R154, R155, R180) and the sync objects with their waiters (R192, R193, R156). -/

namespace Sys2Proof.Machine

/-- New requests of a rider's tiles, streams and engine operations are held: a composition drains (R36), the pair hands
over (R283), or the rider is being reset (R321). -/
def closedTo (s : State) (r : BitVec 6) : Bool :=
  (match s.compose with | .draining _ _ => true | _ => false) || decide (s.pair.st = 6) || s.resets.contains r

/-! ### Tiles and contexts -/

def findTile (s : State) (t : BitVec 10) : Option Tile := s.tiles.find? (·.id = t)

def updTile (t : BitVec 10) (f : Tile → Tile) (s : State) : State := { s with tiles := updIf s.tiles (·.id = t) f }

def updCtx (t : BitVec 10) (c : BitVec 4) (f : Ctx → Ctx) (s : State) : State :=
  updTile t (fun x => { x with ctxs := updAt x.ctxs c.toNat f }) s

def findCtx (s : State) (t : BitVec 10) (c : BitVec 4) : Option Ctx := (findTile s t).bind (·.ctxs[c.toNat]?)

/-- A context whose registers are clear (R166). -/
def Ctx.blank : Ctx :=
  { st := .idle, pc := 0, s := List.replicate 32 0, v := [], loop := 0, turn := false, jump := none, block := .none
    stores := [], sigs := [], refused := [], nextSeq := 0, bundle := [], noFill := false, ws := [], wv := [], mid := false
    ends := none, bpc := 0 }

/-- A tile without a program (R162). DESIGN CHOICE (notes/assumptions/123.md): accumulator tiles, `XA` registers and the
pannier of a tile that no unload has cleared yet hold zero. -/
def Tile.blank (t : BitVec 10) : Tile :=
  { id := t, prog := none, ctxs := List.replicate 16 Ctx.blank, acc := [], xa := [], pannier := [], ptags := []
    cache := [], streams := [], mmaq := [], stall := 0, bank := 0, faults := 0 }

/-- The rider a tile runs for (R24). -/
def tileRider (s : State) (t : BitVec 10) : Option (BitVec 6) := (findTile s t).bind fun x => x.prog.map (·.rider)

/-- The first ready context after `c` in increasing order, wrapping (R168). -/
def nextReady (x : Tile) (c : Nat) : Option Nat :=
  ((List.range 16).map fun i => (c + 1 + i) % 16).find? fun i => match x.ctxs[i]? with
    | some k => k.st = .ready
    | none => false

/-- When no context runs, the next ready context after `c` becomes the running one (R168). -/
def Tile.sched (x : Tile) (c : Nat) : Tile :=
  if x.ctxs.any (·.st = .running) then x
  else match nextReady x c with
    | some i => { x with ctxs := updAt x.ctxs i fun k => { k with st := .running } }
    | none => x

/-- A context leaves the running state for another; the next ready one takes its place. -/
def setCtxSt (t : BitVec 10) (c : BitVec 4) (st : CtxSt) (s : State) : State :=
  updTile t (fun x => Tile.sched { x with ctxs := updAt x.ctxs c.toNat fun k => { k with st := st } } c.toNat) s

/-- A blocked context becomes ready, and issues at once when no other runs (R169). -/
def makeReady (t : BitVec 10) (c : BitVec 4) (s : State) : State :=
  match findCtx s t c with
  | some k =>
    let s := updCtx t c (fun k => { k with block := .none }) s
    if k.st = .blocked then setCtxSt t c .ready s else s
  | none => s

/-- Write a scalar register; `S0` ignores writes (R162). -/
def Ctx.setS (k : Ctx) (r : BitVec 5) (v : Word) : Ctx := if r = 0 then k else { k with s := updAt k.s r.toNat fun _ => v }

def Ctx.getS (k : Ctx) (r : BitVec 5) : Word := if r = 0 then 0 else k.s.getD r.toNat 0

/-- A result reaches its register: at the end of the bundle being issued, else at once (R170). -/
def Ctx.putS (k : Ctx) (r : BitVec 5) (v : Word) : Ctx := if k.mid then { k with ws := k.ws ++ [(r, v)] } else k.setS r v

/-! ### Sync objects -/

def syncVal (s : State) (obj : Nat) : Word := (lookupK s.sync.vals obj).getD 0

def setSyncVal (obj : Nat) (v : Word) (s : State) : State :=
  { s with sync.vals := if v = 0 then dropIf s.sync.vals (·.1 == obj) else setK s.sync.vals obj v }

/-- The Chainring that holds a sync object is fenced (R192, R336). -/
def syncFenced (s : State) (obj : Nat) : Bool := unitFenced s (unitChainring (obj / 1024 % 16))

/-- What refuses a rider's use of a sync object (R192, R336). -/
def syncRefusal (s : State) (r : BitVec 6) (obj : Nat) : Option Status :=
  if !riderHasSync s r obj then some .revoked else if syncFenced s obj then some .fenced else none

def Wait.holds (w : Wait) (v : Word) : Bool := if w.eq then v = w.value else decide (w.value.toNat ≤ v.toNat)

/-- Drop the operand-cache lines that a range covers (R154); a line of the range that a load of another module will bring is
not kept when it comes. -/
def cacheDrop (va len : Nat) (x : Tile) : Tile :=
  { x with
    cache := dropIf x.cache fun l => overlaps l.va 64 va (va + len)
    ctxs := x.ctxs.map fun k => match k.block with
      | .access a true => if overlaps (lineOf a.va.toNat) 64 va (va + len) then { k with noFill := true } else k
      | _ => k }

/-- An acquire: a range above 64 KiB drops every line, an empty one none (R155). -/
def Tile.acquire (x : Tile) (base len : Nat) : Tile :=
  if len = 0 then x
  else if 65536 < len then cacheDrop 0 (2 ^ 65) x
  else cacheDrop base len x

/-- A context's `WAIT` ends: `Sd` says how, and a wait that held acquires its range (R193). -/
def endCtxWait (t : BitVec 10) (c : BitVec 4) (held : Bool) (s : State) : State :=
  match findCtx s t c with
  | none => s
  | some k => match k.block with
    | .sync _ base len _ sd =>
      let s := if held then updTile t (fun x => x.acquire base len) s else s
      makeReady t c (updCtx t c (fun k => k.putS sd (if held then 0 else 1)) s)
    | _ => s

/-- End a registered wait (R193, R305). -/
def endWait (held : Bool) (w : Wait) (s : State) : State :=
  match w.who with
  | .ctx t c => endCtxWait t c held s
  | .cmd o => completeIf o (if held then .ok else .timeout) (syncVal s w.obj.toNat) [] s

/-- Test every wait on an object after a change (R193). -/
def testWaits (obj : Nat) (s : State) : State :=
  let v := syncVal s obj
  let hit (w : Wait) : Bool := w.obj.toNat == obj && w.holds v
  let done := s.sync.waits.filter hit
  let s := { s with sync.waits := dropIf s.sync.waits hit }
  done.foldl (fun s w => endWait true w s) s

/-- Change a sync object's value and wake its waiters. -/
def syncPut (obj : Nat) (v : Word) (s : State) : State := testWaits obj (setSyncVal obj v s)

/-- A use of a sync object's entry in its bank: where an injection makes both copies fail, the object reads 0 and its waiters
are woken; the object's number is logged (R328, R344; notes/assumptions/135.md). -/
def syncUse (obj : Nat) (s : State) : State :=
  let u := unitChainring (obj / 1024 % 16)
  match injMode s 0x04 u with
  | none => s
  | some m =>
    if m = 0 then corrected 0x04 u (BitVec.ofNat 64 (2 ^ 63 + obj * 8)) s
    else if m = 3 then s
    else syncPut obj 0 (detect { Rec.blank 0x0003 with point := 0x04, unit := u, addr := BitVec.ofNat 64 (2 ^ 63 + obj * 8) } s)

/-- Write a sync object. -/
def syncWrite (obj : Nat) (v : Word) (s : State) : State := syncPut obj v (syncUse obj s)

/-- `SIG.ADD`: adds modulo 2^64 (R193). -/
def syncAdd (obj : Nat) (v : Word) (s : State) : State :=
  let s := syncUse obj s
  syncPut obj (syncVal s obj + v) s

/-- Zero an object at `COMPOSE` or `RIDER_RESET`: its waits end as if their limit had expired (R192). -/
def syncZero (obj : Nat) (s : State) : State :=
  let here (w : Wait) : Bool := w.obj.toNat == obj
  let ended := s.sync.waits.filter here
  let s := { s with sync.waits := dropIf s.sync.waits here }
  let s := ended.foldl (fun s w => endWait false w s) s
  setSyncVal obj 0 s

/-- A 16-bit field with an enable bit and a sync object that is incremented when an operation ends. -/
def signalField (f : Nat) (s : State) : State := if 32768 ≤ f then syncAdd (f % 16384) 1 s else s

/-- The words of sync objects from an object upwards (R19): whole words only. -/
def syncRead (s : State) (r : BitVec 6) (obj n : Nat) : Status ⊕ List Byte :=
  if n % 8 ≠ 0 then .inl .badParam
  else match (seqFrom obj (n / 8)).findSome? (syncRefusal s r) with
    | some st => .inl st
    | none => .inr ((seqFrom obj (n / 8)).flatMap fun i => wordBytes (syncVal s i))

def syncStore (s : State) (r : BitVec 6) (obj : Nat) (bs : List Byte) : Option Status × State :=
  if bs.length % 8 ≠ 0 then (some .badParam, s)
  else match (seqFrom obj (bs.length / 8)).findSome? (syncRefusal s r) with
    | some st => (some st, s)
    | none => (none, ((words64 (bs.length / 8) bs).mapIdx fun i w => (obj + i, w)).foldl (fun s p => syncWrite p.1 p.2 s) s)

/-! ### Context faults (R196) -/

/-- A context enters the faulted state before its next bundle: a bundle being issued is issued whole first, one of which only
some operations were given is not. What it has issued completes (R196). -/
def Ctx.faultNow (k : Ctx) : Ctx :=
  if k.mid then { k with ends := some .faulted } else { k with st := .faulted, bundle := [], ends := none }

def Ctx.isFaulted (k : Ctx) : Bool := k.st = .faulted || k.ends = some .faulted

/-- A context faults: its queued `MMA`s are dropped, the record, the notice and `FAULT_SYNC` follow (R196). -/
def ctxFaultAt (point : BitVec 16) (t : BitVec 10) (c : BitVec 4) (pc : Nat) (st : Status) (stream : Nat) (va off arg1 : Word) (s : State) :
    State :=
  match findTile s t with
  | none => s
  | some x => match x.prog with
    | none => s
    | some p =>
      if (x.ctxs[c.toNat]?).any (·.isFaulted) then s
      else
      let s := updTile t (fun x =>
        Tile.sched { x with
          ctxs := updAt x.ctxs c.toNat Ctx.faultNow
          mmaq := dropIf x.mmaq (·.ctx = c)
          faults := bumpSat x.faults 1 } c.toNat) s
      let seq := nextFaultSeq s p.rider
      let s := detect
        { Rec.blank 0x0004 with
          status := st.code, point := point, unit := unitTile t, rider := riderByte p.rider, source := srcTile t c
          addr := off, va := va, arg0 := BitVec.ofNat 64 (stream * 2 ^ 48 + pc % 8192), arg1 := arg1.setWidth 32 } s
      let s := postEvent p.rider
        { type := 2, status := st.code, queue := 0, arg0 := BitVec.ofNat 64 (t.toNat * 16 + c.toNat)
          arg1 := BitVec.ofNat 64 seq } s
      signalField p.faultSync.toNat s

/-- A fault that no detector of R322 names. -/
def ctxFault (t : BitVec 10) (c : BitVec 4) (pc : Nat) (st : Status) (stream : Nat) (va off arg1 : Word) (s : State) :
    State := ctxFaultAt 0 t c pc st stream va off arg1 s

end Sys2Proof.Machine
end

