-- ==== Sys2Proof/Machine/Tier.lean ====
section
/-! DEFINITION. Tiers and placement (chapter 4): objects, pins, evictions, moves between tiers, flash reads and programs,
prefetch schedules and trims (R64 to R87, R90, R91, R93, R96, R425), and the chunks of a long command (R301). -/

namespace Sys2Proof.Machine

/-! ### Chunks (R301) -/

/-- A chunk that is not the last leaves its command without a reply: it is not open. -/
def dropOpen (o : Open) (s : State) : State :=
  match o.h.src with
  | .queue q => { s with queues := updIf s.queues (·.q = q) fun x => { x with started := x.started.erase o } }
  | _ => { s with port.outstanding := s.port.outstanding.erase o }

def findAssembly (s : State) (c : Cmd) : Option Assembly :=
  s.port.assemblies.find? fun a => a.src = c.h.src && a.tag = c.h.tag

/-- Take one chunk of a command: the command runs with its last one. -/
def bodyChunked (cop : ChunkOp) (op : Nat) (body : Body) : Body := fun c s =>
  let keep (a : Assembly) : Eff :=
    Eff.later (dropOpen (openOf op c) { dropAssembly c s with
      port.assemblies := (dropAssembly c s).port.assemblies ++ [a] })
  match findAssembly s c with
  | none =>
    if c.h.chunk ≠ 0 then Eff.stat .badParam s
    else if !c.h.more then body c s
    else if c.payload.length ≠ 65536 then Eff.stat .badParam s
    else if c.h.src = .port && 4 ≤ (s.port.assemblies.filter (·.src = .port)).length then Eff.stat .busy s
    else keep { src := c.h.src, op := cop, tag := c.h.tag, params := c.params, next := 1, data := c.payload }
  | some a =>
    if a.op ≠ cop || c.h.chunk.toNat ≠ a.next || 15 < a.next || (c.h.more && c.payload.length ≠ 65536) then
      Eff.stat .badParam (dropAssembly c s)
    else if c.h.more then keep { a with next := a.next + 1, data := a.data ++ c.payload }
    else body { c with params := a.params, payload := a.data ++ c.payload } (dropAssembly c s)

/-! ### Runs of pages -/

/-- The page of this module at which a run named by store offset starts; with the surrogate flag the run is the
twin's (R291). None: the run is not on the module. -/
def localRun (s : State) (surr : Bool) (first count : Nat) : Option Nat :=
  let e0 := extentOfPage first
  match localIdx s surr e0 with
  | none => none
  | some l0 =>
    if (List.range (extentOfPage (first + count - 1) - e0 + 1)).all fun i => localIdx s surr (e0 + i) == some (l0 + i) then
      some (l0 * 262144 + first % 262144)
    else none

/-- The rider is a writer of every extent of a run. -/
def runWriter (s : State) (r : BitVec 6) (first count : Nat) : Bool :=
  let e0 := extentOfPage first
  (List.range (extentOfPage (first + count - 1) - e0 + 1)).all fun i => match findExt s (e0 + i) with
    | some x => extWriter s x r
    | none => false

def inRun (first count n : Nat) : Bool := decide (first ≤ n) && decide (n < first + count)

/-- The object that holds a whole run. -/
def runObj (st : Store) (first count : Nat) : Option Obj :=
  st.objects.find? fun o => o.covers first && o.covers (first + count - 1)

/-- Moves, reads or programs of a page of a run are in progress (R77). -/
def tierBusy (st : Store) (first count : Nat) : Bool :=
  st.moves.any (fun m => inRun first count m.page) || st.progs.any (fun p => inRun first count p.page) ||
    st.reads.any fun r => inRun first count r.page

/-! ### Starting moves, reads and programs -/

/-- What a command has ordered so far: the state, the numbers it waits for, the first failed page (R76). -/
structure Orders where
  st   : State
  ids  : List Nat
  fail : Option (Status × Nat)

def Orders.failAt (a : Orders) (st : Status) (page : Nat) : Orders :=
  match a.fail with
  | some _ => a
  | none => { a with fail := some (st, page) }

/-- A granule of a page's frame lies on a fenced unit. -/
def pageFenced (s : State) (frame page : Nat) : Bool :=
  match findFrame s.store frame with
  | some fr => (List.range 16).any fun g => frameFenced s fr (page * 65536 + g * 4096)
  | none => false

/-- Order a move of a page's home frame (or of its copy) to another memory tier (R74). -/
def ordMove (page src : Nat) (t : Tier) (staging : Bool) (why : MoveWhy) (a : Orders) : Orders :=
  if tierStopped a.st t || pageFenced a.st src page then a.failAt .fenced page
  else
    let (f, st) := newFrame t a.st.store
    let id := st.nextMove
    let m : Move := { id := id, page := page, src := src, dst := f, done := [], staging := staging, why := why }
    { a with st := { a.st with store := { st with moves := st.moves ++ [m], nextMove := id + 1 } }, ids := a.ids ++ [id] }

/-- Order the read of a page's flash frame into a frame of a tier (R74, R79); without one the read waits for a frame (R78). -/
def ordRead (page src : Nat) (t : Option Tier) (why : MoveWhy) (a : Orders) : Orders :=
  if unitFenced a.st (unitSaddlebag (clusterOf page)) || (match t with | some t => tierStopped a.st t | none => false) then
    a.failAt .fenced page
  else
    let (dst, st) := match t with
      | some t => (some (newFrame t a.st.store).1, (newFrame t a.st.store).2)
      | none => (none, a.st.store)
    { a with st := { a.st with store := addRead page src dst why st }, ids := a.ids ++ [st.nextMove] }

/-- Order the program of a page's copy to its flash frame (R75, R80); one that runs already is joined, and drops the copy
when this one would. -/
def ordProg (page src dst : Nat) (drop : Bool) (why : MoveWhy) (a : Orders) : Orders :=
  match a.st.store.progs.find? (·.page == page) with
  | some p =>
    let join (q : FlashProg) : FlashProg := { q with drop := q.drop || drop, why := if why = .place then .place else q.why }
    { a with st := { a.st with store := { a.st.store with progs := updIf a.st.store.progs (·.id == p.id) join } }
             ids := a.ids ++ [p.id] }
  | none => match flashRefuses a.st (clusterOf page) with
    | some st => a.failAt st page
    | none =>
      if pageFenced a.st src page then a.failAt .fenced page
      else { a with st := startProg page src dst drop why a.st, ids := a.ids ++ [a.st.store.nextMove] }

/-- The number of a page as software knows it: with the surrogate flag, the twin's (R290, R291). -/
def namedPage (s : State) (surr : Bool) (page : Nat) : Nat :=
  if surr then match findExt s (extentOfPage page) with
    | some x => x.name * 262144 + page % 262144
    | none => page
  else page

/-- `RESULT` of a tier command (R76): zero on `OK`, else the store offset of the first failed page. -/
def failResult (s : State) (surr : Bool) (st : Status) (page : Nat) : Word :=
  if st = .ok then 0 else BitVec.ofNat 64 (namedPage s surr page * 65536)

/-- Answer a command with what it ordered: at once when it waits for nothing. -/
def endOrders (op : Nat) (c : Cmd) (first count : Nat) (a : Orders) : Eff :=
  let (st, page) := a.fail.getD (.ok, 0)
  if a.ids.isEmpty then Eff.res st (failResult a.st c.h.surrogate st page) a.st
  else
    let t : TierCmd :=
      { cmd := openOf op c, first := first, count := count, pending := a.ids, status := st, failed := page }
    Eff.later { a.st with store.tierCmds := a.st.store.tierCmds ++ [t] }

/-- The commands that wait for nothing any more return. -/
def endTierCmds (s : State) : State :=
  (s.store.tierCmds.filter (·.pending.isEmpty)).foldl
    (fun s t => completeIf t.cmd t.status (failResult s t.cmd.h.surrogate t.status t.failed) [] s)
    { s with store.tierCmds := dropIf s.store.tierCmds (·.pending.isEmpty) }

/-- A move, read or program that a command waits for has ended; the lowest failed page decides (R76). -/
def tierEnd (id : Nat) (st : Status) (page : Nat) (s : State) : State :=
  endTierCmds { s with store.tierCmds := s.store.tierCmds.map fun t =>
    if t.pending.contains id then
      let t := { t with pending := t.pending.erase id }
      if st ≠ .ok && (t.status = .ok || decide (page < t.failed)) then { t with status := st, failed := page } else t
    else t }

/-- Work that ended with its frame, when a version or an object went, is waited for no more. -/
def sweepTier (s : State) : State :=
  let live (id : Nat) : Bool := s.store.moves.any (·.id == id) || s.store.reads.any (·.id == id) || s.store.progs.any (·.id == id)
  endTierCmds { s with store.tierCmds := s.store.tierCmds.map fun t => { t with pending := t.pending.filter live } }

/-! ### Copies and frames -/

/-- Every reference to a frame becomes one to another, the work that waits for it included. -/
def replaceFrame (src dst : Nat) (st : Store) : Store :=
  let f (x : Nat) : Nat := if x = src then dst else x
  { st with
    pages := st.pages.map fun p => { p with home := p.home.map f, copy := p.copy.map fun c => { c with frame := f c.frame } }
    moves := st.moves.map fun m => { m with src := f m.src }
    progs := st.progs.map fun p => { p with src := f p.src }
    extents := st.extents.map fun x =>
      { x with
        old := x.old.map fun l => { l with pages := l.pages.map fun p => (p.1, p.2.map f) }
        wlap := x.wlap.map fun w => { w with shadows := w.shadows.map fun p => (p.1, f p.2) } } }

/-- Free the frames whose pages no `UNMAP_RANGE` covers any more. -/
def flushFree (s : State) : State :=
  let ready := s.store.lateFree.filter fun p => !frozenRun s p.1 1
  let st := { s.store with lateFree := s.store.lateFree.filter fun p => frozenRun s p.1 1 }
  { s with store := ready.foldl (fun st p => freeFrame p.2 st) st }

/-- A copy becomes its page's home frame; the page's flash frame is released (R73, R87). -/
def copyToHome (page : Nat) (s : State) : State :=
  let p := findPage s.store page
  match p.copy with
  | none => s
  | some c =>
    let s := { s with store := setPage { p with home := some c.frame, copy := none } s.store }
    match p.home with
    | some h => releaseFrame page h s
    | none => s

/-- Drop a page's copy without writing it back. -/
def dropCopy (page : Nat) (s : State) : State :=
  let p := findPage s.store page
  match p.copy with
  | some c => releaseFrame page c.frame { s with store := setPage { p with copy := none } s.store }
  | none => s

/-- A page's copy is that frame, clean or dirty. -/
def setCopy (page f : Nat) (dirty pinned : Bool) (s : State) : State :=
  let p := findPage s.store page
  let c : Copy := { frame := f, dirty := dirty, pinned := pinned, order := s.store.nextCopy }
  { s with store := { setPage { p with copy := some c } s.store with nextCopy := s.store.nextCopy + 1 } }

/-- Something besides the fill waits for the read of a page: a command, or an access held at the home. -/
def readAwaited (s : State) (r : FlashRead) : Bool :=
  s.store.tierCmds.any (·.pending.contains r.id) || s.coh.trks.any fun t => pageOf t.line == r.page

/-- Stop a fill's reads: their frames are freed. A read that something else has joined goes on as a page-in. -/
def cancelFill (base pass entry : Nat) (s : State) : State :=
  let (mine, rest) := s.store.reads.partition fun r => decide (r.why = .fill base pass entry)
  let keep := (mine.filter (readAwaited s)).map fun r => { r with why := .demand }
  let fs := (mine.filter fun r => !readAwaited s r).filterMap (·.dst)
  { s with store := fs.foldl (fun st f => freeFrame f st) { s.store with reads := rest ++ keep } }

/-- Stop every move, read and program of a set of pages: a page stays where it is. -/
def cancelTier (mine : Nat → Bool) (s : State) : State :=
  let moves := s.store.moves.filter fun m => mine m.page
  let st := moves.foldl (fun (st : Store) m =>
    let st' := m.done.foldl (fun (x : Store) g =>
      { x with mem := memCopyN x.mem (m.dst * 65536 + g.val * 4096) 4096 (m.src * 65536 + g.val * 4096) }) st
    freeFrame m.dst st') { s.store with moves := dropIf s.store.moves fun m => mine m.page }
  let fs := (st.reads.filter fun r => mine r.page).filterMap (·.dst)
  let st := { st with
    reads := dropIf st.reads (fun r => mine r.page)
    progs := dropIf st.progs fun p => mine p.page }
  { s with store := fs.foldl (fun st f => freeFrame f st) st }

/-! ### Schedules (R83 to R86) -/

def findObj (st : Store) (base : Nat) : Option Obj := st.objects.find? (·.base == base)

def updObj (base : Nat) (f : Obj → Obj) (s : State) : State :=
  { s with store.objects := updIf s.store.objects (·.base == base) f }

def updSched (base : Nat) (f : Sched → Sched) (s : State) : State := updObj base (fun o => { o with sched := o.sched.map f }) s

/-- The pages of an entry. -/
def SchedEntry.covers (o : Obj) (e : SchedEntry) (n : Nat) : Bool := inRun (o.base + e.firstPage) e.pageCount n

/-- The entry of a run. -/
def Sched.entryOf (x : Sched) (r : SchedRun) : Option SchedEntry := x.entries[r.entry]?

/-- Another started and unreleased run of the schedule covers a page. -/
def heldByRun (o : Obj) (x : Sched) (pass entry n : Nat) : Bool :=
  x.runs.any fun r => !(r.pass == pass && r.entry == entry) && !r.released && (match x.entryOf r with
    | some e => e.covers o n
    | none => false)

/-- Drop the copies of a run: a dirty copy of a flash-backed page is written back, a pinned copy stays, and so does one that
another started run holds. -/
def dropRunCopies (o : Obj) (x : Sched) (r : SchedRun) (s : State) : State :=
  r.copies.foldl (fun s n =>
    if heldByRun o x r.pass r.entry n || o.pins.contains n then s
    else match (findPage s.store n).copy with
      | none => s
      | some c =>
        if o.policy = 3 && c.dirty then
          if s.store.progs.any (·.page == n) then
            { s with store.progs := updIf s.store.progs (·.page == n) fun q => { q with drop := true } }
          else if (flashRefuses s (clusterOf n)).isSome then s
          else evictCopy s n c (.fill o.base r.pass r.entry)
        else dropCopy n s) s

/-- Remove an object's schedule: its fills stop and its copies are released (R73 step 1, R83). -/
def removeSched (o : Obj) (s : State) : State :=
  match o.sched with
  | none => s
  | some x =>
    let s := x.runs.foldl (fun s r =>
      if r.released then s else dropRunCopies o { x with runs := [] } r (cancelFill o.base r.pass r.entry s)) s
    updObj o.base (fun o => { o with sched := none }) s

/-- Copies that a schedule of the object released are still being written back. -/
def releasing (st : Store) (base : Nat) : Bool :=
  st.progs.any fun p => match p.why with | .fill b _ _ => b == base | _ => false

/-- Remove an object altogether (R87): work on its pages stops, dirty copies become home frames, other copies are dropped. -/
def removeObj (o : Obj) (s : State) : State :=
  let s := cancelTier o.covers s
  let s := (objCopies s.store o).foldl (fun s c => if c.2.dirty then copyToHome c.1 s else dropCopy c.1 s) s
  { s with store.objects := dropIf s.store.objects (·.base == o.base) }

/-! ### `OBJ_PLACE` (R70 to R73) -/

/-- Formats and gears of a descriptor (R70). -/
def fmtGearOk (fg : BitVec 8) : Bool :=
  let f := bits fg 4 4
  let g := bits fg 0 2
  decide (f ≤ 10) && bits fg 2 2 == 0 && (g == 0 || (decide (1 ≤ f) && decide (f ≤ 5) && (g == 1 || f == 1 || f == 2 || f == 5)))

/-- The descriptor of `OBJ_PLACE`, its base as the command names it. -/
def descObj (c : Cmd) : Obj :=
  { base := (c.p 0).toNat / 65536, pages := bits (c.p 1) 0 32, policy := BitVec.ofNat 8 (bits (c.p 1) 32 8)
    fmtGear := BitVec.ofNat 8 (bits (c.p 1) 40 8), priority := BitVec.ofNat 8 (bits (c.p 1) 48 8)
    stagePages := bits (c.p 2) 0 32, stageTier := if bit (c.p 2) 32 then .lpddr else .hbm, rider := c.h.r, pins := []
    sched := none }

/-- Check 1 of R71. -/
def descForm (s : State) (c : Cmd) (o : Obj) : Bool :=
  decide (o.policy.toNat ≤ 5) && fmtGearOk o.fmtGear && decide (o.priority.toNat ≤ 3) && bits (c.p 1) 56 8 == 0 &&
    bits (c.p 2) 33 31 == 0 && c.p 3 = 0 && (c.p 0).toNat % 65536 == 0 && decide ((c.p 0).toNat < 2 ^ 48) &&
    decide (1 ≤ o.pages) && decide (o.base + o.pages ≤ 2 ^ 32) && (!flashBacked o.policy || Config.hasFlash s.variant) &&
    (decide (o.policy = 3) || decide (o.policy = 5) || o.stagePages == 0) &&
    (o.policy = 0 || o.policy = 3 || o.policy = 4 || o.stageTier = .hbm)

def objOverlaps (a b : Obj) : Bool := overlaps a.base a.pages b.base (b.base + b.pages)

/-- Check 4 of R71. -/
def stageOk (o : Obj) (old : Option Obj) : Bool :=
  match o.policy.toNat with
  | 3 =>
    decide (2 ≤ o.stagePages) && (match old with
      | some p => decide (p.policy ≠ 3) || decide (p.pins.length ≤ o.stagePages - 1)
      | none => true)
  | 5 => match old.bind (·.sched) with
    | some x => x.entries.all fun e => decide (e.pageCount ≤ o.stagePages)
    | none => true
  | _ => true

/-- Steps 1 to 4 of R73, but for what must be moved: the schedule goes, copies become homes, memory homes of a
flash-backed object become dirty copies, the descriptor is replaced. DESIGN CHOICE (notes/assumptions/29.md): those copies
count as made in ascending order of their pages. A page whose cluster gives no flash frame keeps its home (R99, R101). -/
def bookObj (o : Obj) (old : Option Obj) (s : State) : State :=
  let s := match old with | some p => removeSched p s | none => s
  let s := match old with
    | some p =>
      if flashBacked p.policy && !flashBacked o.policy then
        (objCopies s.store p).foldl (fun s (c : Nat × Copy) => copyToHome c.1 s) s
      else s
    | none => s
  let pins := match old with
    | some p => if p.policy = 3 && o.policy = 3 then p.pins else []
    | none => []
  let o := { o with pins := pins }
  let s := { s with store.objects := dropIf s.store.objects (·.base == o.base) ++ [o] }
  if !flashBacked o.policy then s
  else (sortBy (·.n) (objPages s.store o)).foldl (fun s p => match p.home with
    | some h =>
      if frameTier s.store h = .flash then
        match p.copy with
        | some c => { s with store := setPage { p with copy := some { c with pinned := pins.contains p.n } } s.store }
        | none => s
      else if clusterPassed s (clusterOf p.n) then s
      else
        let (f, st) := newFrame .flash s.store
        setCopy p.n h true false { s with store := setPage { p with home := some f, copy := none } st }
    | none => s) s

/-- Reservations fit: no tier, and no flash cluster, has more frames used and reserved than it has, and R68 holds where frames
are staged. -/
def fits (s : State) (o : Obj) : Bool :=
  ([Tier.hbm, .lpddr, .flash].all fun t =>
    decide (usedFrames s.store t + reservedFrames s.store t ≤ Config.tierFrames s.variant (tierIdx t))) &&
    (!flashBacked o.policy ||
      (List.range 4).all fun k => decide (clusterTaken s.store k ≤ Config.tierFrames s.variant 2 / 4)) &&
    (o.stageCap == 0 || decide (outstandingNeed s ≤ freeTotal s))

/-- What a placement orders: copies out of their tier are moved, excess copies are written back, homes go to the home
tier, resident-only pages are copied (R73 steps 2, 5 and 6). -/
def placeOrders (o : Obj) (s : State) : Orders :=
  let st := s.store
  let a : Orders := { st := s, ids := [], fail := none }
  let pages := sortBy (·.n) (objPages st o)
  if flashBacked o.policy then
    let loose := (objCopies st o).filter fun c => !(o.pins.contains c.1)
    let extra := if o.policy = 3 then (loose.take ((objCopies st o).length - o.stagePages)).map (·.1) else []
    pages.foldl (fun a p => match p.home, p.copy with
      | some h, some c =>
        if extra.contains p.n then
          if c.dirty then ordProg p.n c.frame h true .place a else { a with st := dropCopy p.n a.st }
        else if frameTier a.st.store c.frame ≠ o.stageTier then ordMove p.n c.frame o.stageTier true .place a
        else a
      | some h, none =>
        if frameTier a.st.store h ≠ .flash then a.failAt ((flashRefuses a.st (clusterOf p.n)).getD .fenced) p.n
        else if o.policy = 4 then ordRead p.n h (some o.stageTier) .place a
        else a
      | none, _ => a) a
  else
    pages.foldl (fun a p => match p.home with
      | some h =>
        let t := frameTier a.st.store h
        if t = homeTier o.policy then a
        else if t = .flash then ordRead p.n h (some (homeTier o.policy)) .place a
        else ordMove p.n h (homeTier o.policy) false .place a
      | none => a) a

/-- Unplace (R73): schedule and copies go, dirty copies are written back or become home frames. DESIGN CHOICE
(notes/assumptions/126.md): a dirty copy whose write-back its read-only cluster refuses with `BUSY` (R99) becomes the home
frame too, as R73 says of `UNCORRECTABLE` and `FENCED`, and the command returns `BUSY` for it. -/
def unplaceOrders (o : Obj) (s : State) : Orders :=
  let s := removeSched o s
  let copies := objCopies s.store o
  let a := copies.foldl (fun (a : Orders) (c : Nat × Copy) =>
    if !c.2.dirty then { a with st := dropCopy c.1 a.st }
    else match (findPage a.st.store c.1).home with
      | some h =>
        let b := ordProg c.1 c.2.frame h true .place a
        if b.ids.length = a.ids.length then { b with st := copyToHome c.1 b.st } else b
      | none => a) { st := s, ids := [], fail := none }
  { a with st := { a.st with store.objects := dropIf a.st.store.objects (·.base == o.base) } }

def bodyObjPlace : Body := fun c s =>
  let d := descObj c
  if !descForm s c d then Eff.stat .badParam s
  else match localRun s c.h.surrogate d.base d.pages with
    | none => Eff.stat .revoked s
    | some base =>
      if !runWriter s c.h.r base d.pages then Eff.stat .revoked s
      else
        let o := { d with base := base }
        let old := s.store.objects.find? fun p => p.base == base && p.pages == o.pages
        if s.store.objects.any fun p => objOverlaps p o && !(p.base == o.base && p.pages == o.pages) then
          Eff.stat .badParam s
        else if o.policy = 0 then
          match old with
          | none => Eff.ok s
          | some p =>
            if frozenRun s base o.pages || tierBusy s.store base o.pages then waitFor 0x280 c s
            else endOrders 0x280 c base o.pages (unplaceOrders p s)
        else if !stageOk o old then Eff.stat .badParam s
        else if 65536 ≤ s.store.objects.length then Eff.stat .busy s
        else if frozenRun s base o.pages || tierBusy s.store base o.pages then waitFor 0x280 c s
        else
          let b := bookObj o old s
          if !fits b o then Eff.stat .busy s
          else if releasing b.store base then
            waitFor 0x280 c (match old with | some p => removeSched p s | none => s)
          else
            let o := (findObj b.store base).getD o
            endOrders 0x280 c base o.pages (placeOrders o b)

def execObjPlace (c : Cmd) (s : State) : Out State := .next (runPacket 0x280 c bodyObjPlace s)

/-! ### `PAGE_PIN`, `PAGE_EVICT`, `FLASH_TRIM` (R79, R80, R96) -/

/-- The run of a page command: aligned, not empty, inside the store. -/
def pageRunForm (c : Cmd) (top : Nat) : Bool :=
  (c.p 0).toNat % 65536 == 0 && decide ((c.p 0).toNat < 2 ^ 48) && decide (1 ≤ bits (c.p 1) 0 32) &&
    decide ((c.p 0).toNat / 65536 + bits (c.p 1) 0 32 ≤ 2 ^ 32) && bits (c.p 1) top (64 - top) == 0

def bodyPagePin : Body := fun c s =>
  let n := bits (c.p 1) 0 32
  if !pageRunForm c 32 then Eff.stat .badParam s
  else match localRun s c.h.surrogate ((c.p 0).toNat / 65536) n with
    | none => Eff.stat .badParam s
    | some first => match runObj s.store first n with
      | none => Eff.stat .badParam s
      | some o =>
        if o.policy ≠ 3 then Eff.stat .badParam s
        else if !runWriter s c.h.r first n then Eff.stat .revoked s
        else if o.stagePages - 1 < o.pins.length + n - (o.pins.filter (inRun first n)).length then Eff.stat .busy s
        else
          let pins := o.pins ++ (seqFrom first n).filter fun p => !o.pins.contains p
          let s := updObj o.base (fun o => { o with pins := pins }) s
          let mark (p : Page) : Page := { p with copy := p.copy.map fun k => { k with pinned := true } }
          let s := { s with
            store.pages := updIf s.store.pages (fun p => inRun first n p.n) mark
            store.progs := updIf s.store.progs (fun q => inRun first n q.page) fun q => { q with drop := false } }
          let miss := (sortBy (·.n) s.store.pages).filter fun p => inRun first n p.n && p.flashHome s.store && p.copy.isNone
          let a := miss.foldl (fun (a : Orders) p =>
            match a.st.store.reads.find? (·.page == p.n) with
            | some r => { a with ids := a.ids ++ [r.id] }
            | none =>
              let o := (findObj a.st.store o.base).getD o
              let (room, s) := roomForCopy a.st o
              ordRead p.n (p.home.getD 0) (if room then some o.stageTier else none) .pin { a with st := s })
            { st := s, ids := [], fail := none }
          endOrders 0x282 c first n a

def execPagePin (c : Cmd) (s : State) : Out State := .next (runPacket 0x282 c bodyPagePin s)

def bodyPageEvict : Body := fun c s =>
  let n := bits (c.p 1) 0 32
  let keep := bit (c.p 1) 32
  if !pageRunForm c 33 then Eff.stat .badParam s
  else match localRun s c.h.surrogate ((c.p 0).toNat / 65536) n with
    | none => Eff.stat .badParam s
    | some first => match runObj s.store first n with
      | none => Eff.stat .badParam s
      | some o =>
        if !runWriter s c.h.r first n then Eff.stat .revoked s
        else if !(o.policy = 3 || (o.policy = 4 && keep)) then Eff.stat .badParam s
        else if frozenRun s first n then waitFor 0x283 c s
        else
          let s := if keep then s else
            updObj o.base (fun o => { o with pins := o.pins.filter fun p => !inRun first n p }) s
          let mine := (sortBy (·.n) s.store.pages).filter fun p => inRun first n p.n && p.copy.isSome
          let a := mine.foldl (fun (a : Orders) p => match p.copy, p.home with
            | some k, some h =>
              let k := if keep then k else { k with pinned := false }
              let a := { a with st := { a.st with store := setPage { p with copy := some k } a.st.store } }
              if k.dirty then ordProg p.n k.frame h (!keep) .evict a
              else if keep then a
              else { a with st := dropCopy p.n a.st }
            | _, _ => a) { st := s, ids := [], fail := none }
          endOrders 0x283 c first n a

def execPageEvict (c : Cmd) (s : State) : Out State := .next (runPacket 0x283 c bodyPageEvict s)

/-- A page that a trim releases: in no object, homed on flash, its extent not lap-versioned. -/
def trims (s : State) (n : Nat) : Bool :=
  (pageObj s.store n).isNone && (match findExt s (extentOfPage n) with | some x => !extLapped s x | none => false) &&
    (findPage s.store n).flashHome s.store

/-- Pages of a run in lap-versioned extents: all of them are skipped. -/
def lappedPages (s : State) (first n : Nat) : Nat :=
  ((s.store.extents.filter (extLapped s)).map fun x =>
    min (first + n) ((x.idx + 1) * 262144) - max first (x.idx * 262144)).sum

/-- Release the flash frames of a run and count (R96). DESIGN CHOICE (notes/assumptions/119.md): a page whose cluster is in
`STATE` 0x4 or whose Saddlebag is fenced is trimmed as any other; R101 and R336 name reads, page-ins, moves and write-backs. -/
def trimRun (first n : Nat) (s : State) : Nat × State :=
  let here := s.store.pages.filter fun p => inRun first n p.n
  let lapped (p : Page) : Bool := match findExt s (extentOfPage p.n) with | some x => extLapped s x | none => false
  let go := (here.filter fun p => trims s p.n).map (·.n)
  (((here.filter fun p => !lapped p).length - go.length) + lappedPages s first n,
    go.foldl (fun s p =>
      match (findPage s.store p).home with
      | some h => releaseFrame p h { s with store := setPage { n := p, home := none, copy := none } s.store }
      | none => s) s)

def bodyFlashTrim : Body := fun c s =>
  let n := bits (c.p 1) 0 32
  if !pageRunForm c 32 || !Config.hasFlash s.variant then Eff.stat .badParam s
  else match localRun s c.h.surrogate ((c.p 0).toNat / 65536) n with
    | none => Eff.stat .revoked s
    | some first =>
      if !runWriter s c.h.r first n then Eff.stat .revoked s
      else if s.power.st = .brake || s.power.hold || frozenRun s first n || tierBusy s.store first n then waitFor 0x284 c s
      else
        let (skipped, s) := trimRun first n s
        Eff.res .ok (BitVec.ofNat 64 ((n - skipped) * 2 ^ 32 + skipped)) s

def execFlashTrim (c : Cmd) (s : State) : Out State := .next (runPacket 0x284 c bodyFlashTrim s)

/-! ### Moves (R74, R76) -/

/-- The record of a move that cannot read its source. -/
def recMoveFail (page : Nat) (st : Status) (s : State) : State :=
  let r : BitVec 6 := match pageObj s.store page with | some o => o.rider | none => 0
  if st = .uncorrectable then recUncorr { rider := r, op := none, source := 0, va := 0 } (page * 65536) s else s

/-- A move that cannot read its source leaves the page where it is: granules already switched go back. -/
def failMove (m : Move) (st : Status) (s : State) : State :=
  let st' := m.done.foldl (fun x g =>
    { x with mem := memCopyN x.mem (m.dst * 65536 + g.val * 4096) 4096 (m.src * 65536 + g.val * 4096) }) s.store
  let s := { s with store := freeFrame m.dst { st' with moves := dropIf st'.moves (·.id == m.id) } }
  tierEnd m.id st m.page (recMoveFail m.page st s)

/-- A granule of a move is copied and switches; the sixteenth ends the move. -/
def execGranuleCopyComplete (id : Nat) (granule : Fin 16) (s : State) : Out State :=
  .next (whenUp s fun s =>
    match s.store.moves.find? (·.id == id) with
    | none => s
    | some m =>
      if m.done.contains granule || !(!m.done.isEmpty || firstWork s.store m.page id m.why) then s
      else
        let a := granule.val * 4096
        if tierStopped s (frameTier s.store m.dst) || (match findFrame s.store m.src with
            | some fr => frameFenced s fr (m.page * 65536 + a)
            | none => false) then failMove m .fenced s
        else if badAt s.store (frameTier s.store m.src) (m.src * 65536 + a) 4096 then failMove m .uncorrectable s
        else
          let st := { s.store with mem := memCopyN s.store.mem (m.src * 65536 + a) 4096 (m.dst * 65536 + a) }
          if m.done.length + 1 < 16 then
            let more (m : Move) : Move := { m with done := m.done ++ [granule] }
            { s with store := { st with moves := updIf st.moves (·.id == id) more } }
          else
            let st := replaceFrame m.src m.dst { st with moves := dropIf st.moves (·.id == id) }
            tierEnd id .ok m.page (releaseFrame m.page m.src { s with store := st }))

/-! ### Flash reads and programs (R78, R81, R90, R91, R93, R425) -/

/-- The rider for whose pages a program counts (R395). -/
def pageRider (s : State) (page : Nat) : BitVec 6 :=
  match pageObj s.store page with
  | some o => o.rider
  | none => match (findExt s (extentOfPage page)).bind (extRun s) with
    | some u => BitVec.ofNat 6 (((List.range 64).find? fun i => bit u.readers i).getD 0)
    | none => 0

/-- The accesses to a page that are held at its home for their memory. -/
def heldHere (s : State) (page : Nat) : List Nat :=
  (s.coh.trks.filter fun t => pageOf t.line == page && decide (t.phase = .ready ∨ t.phase = .memSent)).map (·.id)

/-- A flash access has ended: the accesses that it held see how. -/
def directDone (page frame : Nat) (st : DirectEnd) (s : State) : State :=
  let held := heldHere s page
  if held.isEmpty then s
  else { s with store.direct := s.store.direct ++ [{ frame := frame, stage := st, held := held, whole := none }] }

def directOf (st : Status) : DirectEnd := if st = .uncorrectable then .uncorrectable else .fenced

/-- A read that failed: its frame is freed, the accesses it held see the failure (R81), a command sees it (R76). -/
def failRead (r : FlashRead) (st : Status) (s : State) : State :=
  let s := { s with store.reads := dropIf s.store.reads (·.id == r.id) }
  let s := match r.dst with | some f => { s with store := freeFrame f s.store } | none => s
  tierEnd r.id st r.page (recMoveFail r.page st (directDone r.page r.src (directOf st) s))

/-- A read that succeeded into a frame: a copy of a flash-backed page, the new home of any other; the page has another version
now where the frame it read is not its home any more. -/
def installRead (r : FlashRead) (f : Nat) (s : State) : State :=
  let s := { s with store := copyFrame r.src f { s.store with reads := dropIf s.store.reads (·.id == r.id) } }
  let p := findPage s.store r.page
  let (backed, pinned) := match pageObj s.store r.page with
    | some o => (flashBacked o.policy, o.pins.contains r.page)
    | none => (false, false)
  let s :=
    if p.home ≠ some r.src || p.copy.isSome then { s with store := freeFrame f s.store }
    else if backed then setCopy r.page f false pinned s
    else releaseFrame r.page r.src { s with store := setPage { p with home := some f } s.store }
  tierEnd r.id .ok r.page s

/-- An event of a fitted, mounted cluster that is not fenced. -/
def onCluster (k : Fin 4) (s : State) (f : State → State) : State :=
  whenUp s fun s =>
    let c := s.flash.getD k.val Cluster.reset
    if !Config.hasFlash s.variant || c.state = 0 || c.state = 4 || unitFenced s (unitSaddlebag k.val) then s else f s

/-- Queue the relocation of a block (R94). -/
def queueReloc (k n : Nat) (s : State) : State :=
  { s with flash := updAt s.flash k fun c => { c with relocs := c.relocs + n } }

/-- What a read's units needed once an armed injection at point 0x07 has acted on the flash frame (R344): beyond correction
every unit fails, and stays failed until the page is programmed again. -/
def flashInj (page h : Nat) (units : List UnitRead) (s : State) : List UnitRead × State :=
  let u := unitSaddlebag (clusterOf page)
  let fail := units.map fun _ => UnitRead.failed
  if s.store.bad.contains (h * 65536) then (fail, s)
  else match s.err.inj.find? fun i => i.point = 0x07 && i.unit = u && (i.target = 0 || i.target.toNat / 65536 == page) with
    | none => (units, s)
    | some i =>
      if i.mode = 0 then (units, corrected 0x07 u (BitVec.ofNat 64 (page * 65536)) s)
      else if i.mode = 1 then (fail, { s with store.bad := s.store.bad ++ [h * 65536] })
      else (fail, s)

/-! ### Records of the flash layer (R95, R99) -/

/-- A record of the flash layer (R95). -/
def recFlash (k : Nat) (event : Nat) (arg : Nat) (s : State) : State :=
  detect
    { Rec.blank 0x000D with
      point := 0x07, unit := unitSaddlebag k, arg0 := BitVec.ofNat 64 arg, arg1 := Config.flashEvent event } s

/-- A cluster's `STATE` changes: logged, and raised as an alert (R99). -/
def setClusterState (k : Nat) (st : BitVec 4) (s : State) : State :=
  if (s.flash.getD k Cluster.reset).state = st then s
  else
    alert 1 (recFlash k 4 st.toNat { s with flash := updAt s.flash k fun c => { c with state := st } })

/-- The `STATE` that the spare blocks left give (R99). -/
def spareLevel (c : Cluster) : BitVec 4 := if c.spare.toNat < 2 then 3 else if c.spare.toNat < 10 then 2 else 1

/-- The spare blocks left decide `STATE`, which never falls (R99). -/
def spareState (k : Nat) (s : State) : State :=
  let c := s.flash.getD k Cluster.reset
  if c.state = 0 || c.state = 4 || decide ((spareLevel c).toNat ≤ c.state.toNat) then s
  else setClusterState k (spareLevel c) s

/-- What a read's four units needed is possible (R89, R91, R95): a unit of a failed die that is not rebuilt needs step 3, and
fails where its stripe has lost another die. -/
def unitsMayRead (s : State) (k frame : Nat) (units : List UnitRead) : Bool :=
  let lost := (s.flash.getD k Cluster.reset).rebuilds
  units.length == 4 && (match lookupK s.store.units frame with
    | none => true
    | some us => (us.zip units).all fun p =>
        if !lost.contains p.1.die then true
        else if p.1.stripe.any lost.contains then decide (p.2 = .failed)
        else decide (p.2 = .rebuilt ∨ p.2 = .failed))

def bumpK (k : Nat × Nat) (l : List ((Nat × Nat) × Nat)) : List ((Nat × Nat) × Nat) := setK l k ((lookupK l k).getD 0 + 1)

/-- Take spare space (R95): the share left is a free value no higher than before. -/
def takeSpare (k : Nat) (s : State) : State :=
  let (w, s) := takeFree s
  { s with flash := updAt s.flash k fun c => { c with spare := BitVec.ofNat 8 (min c.spare.toNat (w.toNat % 101)) } }

/-- Record a block as retired and replace it from spare space (R95); one that is retired already stays so. -/
def retireBlock (k die block : Nat) (s : State) : State :=
  if (s.flash.getD k Cluster.reset).bad.contains (die, block) then s
  else
    let s := takeSpare k { s with flash := updAt s.flash k fun c =>
      { c with retired := bumpSat c.retired 1, bad := c.bad ++ [(die, block)], soft := dropIf c.soft (· == (die, block)) } }
    spareState k (recFlash k 0 (die * 2 ^ 32 + block) s)

/-- A block needed step 2 of R91; one that needed it before is retired (R95). DESIGN CHOICE (notes/assumptions/120.md): twice
is repeatedly. -/
def softBlock (k die block : Nat) (s : State) : State :=
  if (s.flash.getD k Cluster.reset).soft.contains (die, block) then retireBlock k die block s
  else { s with flash := updAt s.flash k fun c => { c with soft := c.soft ++ [(die, block)] } }

/-- What a read leaves in the layer: the read-disturb counts of its blocks, and the blocks that needed step 2 or 3 queued for
relocation (R94). -/
def countRead (k frame : Nat) (units : List UnitRead) (s : State) : State :=
  let s := queueReloc k (units.filter fun u => u = .soft || u = .rebuilt).length s
  match lookupK s.store.units frame with
  | none => s
  | some us => (us.zip units).foldl (fun s p =>
      let s := { s with flash := updAt s.flash k fun c => { c with reads := bumpK (p.1.die, p.1.block) c.reads } }
      if p.2 = .soft then softBlock k p.1.die p.1.block s else s) s

/-- A flash read ends with what its four units needed (R91); a unit that needed step 2 or 3 has its block queued for
relocation (R94). -/
def execFlashReadComplete (id : Nat) (units : List UnitRead) (s : State) : Out State :=
  .next (whenUp s fun s =>
    match s.store.reads.find? (·.id == id) with
    | none => s
    | some r =>
      let k := clusterOf r.page
      if !firstWork s.store r.page id r.why || coreRestarting s (16 + k) || !unitsMayRead s k r.src units then s
      else if unitFenced s (unitSaddlebag k) || r.dst.any (fun f => tierStopped s (frameTier s.store f)) then failRead r .fenced s
      else if r.dst.isNone && r.why ≠ .direct then s
      else
        let (units, s) := flashInj r.page r.src units s
        let s := countRead k r.src units s
        if units.contains .failed then failRead r .uncorrectable s
        else match r.dst with
          | some f => installRead r f s
          | none => directDone r.page r.src .read { s with store.reads := dropIf s.store.reads (·.id == id) })

/-- A program that cannot be made: the copy stays dirty, or becomes the home of a page in no object (R73). -/
def failProg (p : FlashProg) (st : Status) (s : State) : State :=
  let s := { s with store.progs := dropIf s.store.progs (·.id == p.id) }
  let s := if (pageObj s.store p.page).isNone && p.why = .place then copyToHome p.page s else s
  let s := if p.why = .direct then
      { s with store.direct := updIf s.store.direct (·.frame == p.dst) fun d => { d with stage := directOf st } }
    else s
  tierEnd p.id st p.page (recMoveFail p.page st s)

/-- Held programs begin, in the order in which they were queued, once nothing holds them (R75, R77, R93); on a cluster that
starts none they fail (R99, R336). -/
def startProgs (s : State) : State :=
  (s.store.progs.filter (·.held)).foldl (fun s p =>
    match flashRefuses s (clusterOf p.page) with
    | some st => failProg p st s
    | none =>
      if mayBegin s p then { s with store.progs := updIf s.store.progs (·.id == p.id) fun q => { q with held := false } } else s) s

/-- Where the layer may put a unit (R89): on a good block, with the other fifteen dies of its stripe, none failed. -/
def unitOk (s : State) (k : Nat) (u : FlashUnit) : Bool :=
  let c := s.flash.getD k Cluster.reset
  u.stripe.length == 15 && (u.die :: u.stripe).dedup.length == 16 &&
    (u.die :: u.stripe).all (fun d => decide (d < Config.flashDies s.variant) && !c.failed.contains d) &&
    !c.bad.contains (u.die, u.block)

/-- A frame's four units sit on different channels, thus on different dies (R89). -/
def apart (us : List FlashUnit) : Bool := us.length == 4 && (us.map (·.die % 8)).dedup.length == 4

/-- Where the layer may put a frame's units. -/
def unitsOk (s : State) (k : Nat) (us : List FlashUnit) : Bool := apart us && us.all (unitOk s k)

/-- The mapping change of a program (R89, R90): the frame's units lie where the layer put them, and their blocks are worn. -/
def placeUnits (k frame : Nat) (us : List FlashUnit) (s : State) : State :=
  { s with
    store.units := setK s.store.units frame us
    store.bad := dropIf s.store.bad fun b => b / 65536 == frame
    flash := updAt s.flash k fun c =>
      { c with writes := c.writes + 1, wear := us.foldl (fun w u => bumpK (u.die, u.block) w) c.wear } }

/-- A program ends (R90): restarted when a store landed on its page (R75), else the flash frame holds the copy, which is
freed or clean (R80). -/
def execFlashProgramComplete (e : ProgramDone) (s : State) : Out State :=
  .next (whenUp s fun s =>
    let id := e.id
    let units := e.units
    match s.store.progs.find? (·.id == id) with
    | none => s
    | some p =>
      let k := clusterOf p.page
      if p.held || coreRestarting s (16 + k) || !unitsOk s k units then s
      else if unitFenced s (unitSaddlebag k) || pageFenced s p.src p.page then failProg p .fenced s
      else if p.why ≠ .direct && badAt s.store (frameTier s.store p.src) (p.src * 65536) 65536 then failProg p .uncorrectable s
      else
        let s := placeUnits k p.dst units (meterFlash (pageRider s p.page) 65536 s)
        if p.stored then
          let q := { p with stored := false, restarts := p.restarts + 1 }
          { s with store.progs := updIf s.store.progs (·.id == id) fun _ => { q with held := !mayBegin s q } }
        else
          let s := { s with store.progs := dropIf s.store.progs (·.id == id) }
          let s :=
            if p.why = .direct then
              { s with store.direct := updIf s.store.direct (fun d => d.frame == p.dst && decide (d.stage = .read)) fun d =>
                { d with stage := .programmed } }
            else
              let s := { s with store := copyFrame p.src p.dst s.store }
              if p.drop then dropCopy p.page s
              else
                let q := findPage s.store p.page
                { s with store := setPage { q with copy := q.copy.map fun c => { c with dirty := false } } s.store }
          tierEnd id .ok p.page s)

/-- A program or an erase failed on a die: the block is retired (R95), and a frame's program is repeated on another die, as a
new program (R93). -/
def execProgramFailure (at_ : FlashDie) (id : Option Nat) (block : Nat) (s : State) : Out State :=
  .next (onCluster at_.cluster s fun s =>
    let cluster := at_.cluster
    let die := at_.die
    match id with
    | none => retireBlock cluster.val die block s
    | some i => match s.store.progs.find? (·.id == i) with
      | none => s
      | some p =>
        if p.held || clusterOf p.page ≠ cluster.val then s
        else
          let s := retireBlock cluster.val die block s
          let wait := !mayBegin s p || (flashRefuses s cluster.val).isSome
          { s with store.progs := updIf s.store.progs (·.id == i) fun q => { q with held := wait } })

/-! ### Frames for waiting page-ins (R77, R78) -/

/-- The page-ins of an object that wait for a frame, in the order of service. -/
def waitingReads (st : Store) (o : Obj) : List FlashRead :=
  sortBy (fun r => serviceKey st r.page r.id r.why)
    (st.reads.filter fun r => o.covers r.page && r.dst.isNone && decide (r.why ≠ .direct))

/-- Give the free frames of a flash-backed-faulting object to the page-ins that wait, in the order of service; while more
wait than are being evicted, or more copies exist than its limit, the earliest unpinned copy is evicted. `fuel` bounds the
steps. -/
def giveFrames (o : Obj) : Nat → State → State
  | 0, s => s
  | n + 1, s =>
    let excess := (objCopies s.store o).length - o.stageCap
    let evict (s : State) : State := match victim s o with
      | some (page, c) => giveFrames o n (evictCopy s page c .demand)
      | none => s
    match waitingReads s.store o with
    | [] => if evicting s.store o < excess then evict s else s
    | r :: _ =>
      if o.stageFull s.store then (if evicting s.store o < frameless s.store o + excess then evict s else s)
      else
        let (f, st) := newFrame o.stageTier s.store
        giveFrames o n { s with store := { st with reads := updIf st.reads (·.id == r.id) fun r => { r with dst := some f } } }

/-- The tier mover goes on: held programs begin, frames go to the page-ins that wait, and what nothing waits for is forgotten. -/
def pumpTier (s : State) : State :=
  let s := startProgs s
  let s := (s.store.objects.filter (·.policy = 3)).foldl (fun s o =>
    giveFrames o ((objCopies s.store o).length + s.store.reads.length + 1) s) s
  let live (d : Direct) : Bool :=
    d.held.any (fun t => s.coh.trks.any (·.id == t)) ||
      (match d.whole with | some src => s.eng.ops.any fun o => srcEngine o.id = src | none => false)
  sweepTier { s with store.direct := s.store.direct.filter live }

/-! ### Schedule commands and events (R83 to R86) -/

/-- The entry of R84 that 32 bytes spell. -/
def parseSched (b : List Byte) : SchedEntry :=
  let ready := fieldB b 0x18 2
  { firstPage := fieldB b 0 4, pageCount := fieldB b 4 4, trigValue := fieldB b 8 4, relValue := fieldB b 0xC 4
    passStep := fieldB b 0x10 4, trigRef := fieldB b 0x14 2, relSync := fieldB b 0x16 2
    ready := if 32768 ≤ ready then some (ready % 16384) else none, trigger := fieldB b 0x1A 1 }

/-- Reserved fields and ranges of an entry. -/
def schedForm (o : Obj) (n i : Nat) (b : List Byte) : Bool :=
  let e := parseSched b
  decide (1 ≤ e.pageCount) && decide (e.pageCount ≤ o.stagePages) && decide (e.firstPage + e.pageCount ≤ o.pages) &&
    decide (e.trigger ≤ 2) && decide (e.relSync < 16384) && fieldB b 0x18 2 / 16384 % 2 == 0 && zeroB b 0x1B 5 &&
    (match e.trigger with
      | 1 => decide (e.trigRef < 16384)
      | 2 => decide (e.trigRef < n) && e.trigRef != i
      | _ => true)

/-- Sync objects that an entry names. -/
def SchedEntry.syncs (e : SchedEntry) : List Nat :=
  e.relSync :: (e.ready.toList ++ if e.trigger = 1 then [e.trigRef] else [])

def bodyPrefetchSchedule : Body := fun c s =>
  let n := bits (c.p 1) 0 13
  let form := (c.p 0).toNat % 65536 == 0 && decide ((c.p 0).toNat < 2 ^ 48) && bits (c.p 1) 13 3 == 0 &&
    bits (c.p 1) 17 47 == 0 && decide (n ≤ 4096) && c.payload.length == 32 * n
  if !form then Eff.stat .badParam s
  else match (localRun s c.h.surrogate ((c.p 0).toNat / 65536) 1).bind (findObj s.store) with
    | none => Eff.stat .badParam s
    | some o =>
      let es := chunksB 32 n c.payload
      if !(o.policy = 3 || o.policy = 5) then Eff.stat .badParam s
      else if !((es.mapIdx fun i b => schedForm o n i b).all id) then Eff.stat .badParam s
      else if !(es.all fun b => (parseSched b).syncs.all (riderHasSync s c.h.r)) then Eff.stat .revoked s
      else if frozenRun s o.base o.pages then waitFor 0x281 c s
      else
        let s := removeSched o s
        if releasing s.store o.base then waitFor 0x281 c s
        else if n = 0 then Eff.ok s
        else
          let x : Sched := { loop := bit (c.p 1) 16, entries := es.map parseSched, started := 0, runs := [] }
          Eff.ok (updObj o.base (fun o => { o with sched := some x }) s)

def execPrefetchSchedule (c : Cmd) (s : State) : Out State :=
  .next (runPacket 0x281 c (bodyChunked .prefetchSchedule 0x281 bodyPrefetchSchedule) s)

/-- The trigger of an entry is met in a pass (R85). -/
def trigMet (s : State) (x : Sched) (pass i : Nat) (e : SchedEntry) : Bool :=
  match e.trigger with
  | 0 => true
  | 1 => decide ((BitVec.ofNat 64 (e.trigValue + pass * e.passStep)).toNat ≤ (syncVal s e.trigRef).toNat)
  | _ =>
    let done (p : Nat) : Bool := x.runs.any fun r => r.pass == p && r.entry == e.trigRef && r.done
    if e.trigRef < i then done pass
    else if pass = 0 then true
    else done (pass - 1)

/-- A page of the object for which a started, unreleased run holds a frame. -/
def inStarted (o : Obj) (x : Sched) (n : Nat) : Bool :=
  x.runs.any fun r => !r.released && (match x.entryOf r with | some e => e.covers o n | none => false)

/-- Pages for which started runs hold frames, or which are pinned: each is counted once. -/
def schedTaken (o : Obj) (x : Sched) : Nat :=
  ((seqFrom o.base o.pages).filter fun n => o.pins.contains n || inStarted o x n).length

/-- Old runs that nothing refers to any more. -/
def pruneRuns (pass : Nat) (rs : List SchedRun) : List SchedRun :=
  rs.filter fun r => !(r.done && r.released && decide (r.pass + 1 < pass))

/-- The next entry of a schedule starts (R85); for a flash-backed object its page-ins start with it. -/
def execScheduleEntryStart (base : Nat) (s : State) : Out State :=
  .next (whenUp s fun s =>
    match findObj s.store base with
    | none => s
    | some o => match o.sched with
      | none => s
      | some x =>
        let n := x.entries.length
        let pass := x.started / n
        let i := x.started % n
        match x.entries[i]? with
        | none => s
        | some e =>
          if (1 ≤ pass && !x.loop) || !trigMet s x pass i e || o.stagePages < schedTaken o x + e.pageCount then s
          else
            let run : SchedRun := { pass := pass, entry := i, copies := [], done := false, released := false }
            let s := updSched base (fun x =>
              { x with started := x.started + 1, runs := pruneRuns pass x.runs ++ [run] }) s
            if o.policy = 5 then s
            else
              let miss := (objPages s.store o).filter fun p => e.covers o p.n && p.flashHome s.store && p.copy.isNone &&
                !(s.store.reads.any (·.page == p.n))
              (miss.foldl (fun (a : Orders) p =>
                let (room, s) := roomForCopy a.st o
                ordRead p.n (p.home.getD 0) (if room then some o.stageTier else none) (.fill base pass i) { a with st := s })
                { st := s, ids := [], fail := none }).st)

/-- Copy a page of a streamed window into HBM; a page that cannot be read or given a frame has no copy (R76). -/
def fillPage (p : Page) (s : State) : State :=
  match p.home with
  | none => s
  | some h =>
    if tierStopped s .hbm || pageFenced s h p.n then s
    else if badAt s.store (frameTier s.store h) (h * 65536) 65536 then recMoveFail p.n .uncorrectable s
    else
      let (f, st) := newFrame .hbm s.store
      setCopy p.n f false false { s with store := copyFrame h f st }

/-- A run completes: the copies of its pages are its own, but for those of another started run, and `READY_SYNC` is
incremented. -/
def completeRun (base : Nat) (o : Obj) (r : SchedRun) (e : SchedEntry) (s : State) : State :=
  let mine (k : SchedRun) : Bool := k.pass == r.pass && k.entry == r.entry
  let s :=
    if o.policy = 5 then
      ((objPages s.store o).filter fun p => e.covers o p.n && p.copy.isNone).foldl (fun s p => fillPage p s) s
    else s
  let others := match o.sched with
    | some x => (x.runs.filter fun k => !mine k && !k.released).flatMap fun (k : SchedRun) => k.copies
    | none => []
  let own := ((objPages s.store o).filter fun p => e.covers o p.n && p.copy.isSome && !others.contains p.n).map (·.n)
  let s := updSched base (fun x => { x with runs := updIf x.runs mine fun k => { k with copies := own, done := true } }) s
  match e.ready with
  | some obj => syncAdd obj 1 s
  | none => s

/-- A fill is done with every page: no page-in of one is pending, and no move of one is in progress (R67, R77). -/
def fillDone (st : Store) (o : Obj) (e : SchedEntry) : Bool :=
  !(st.reads.any fun r => e.covers o r.page) && !(st.moves.any fun m => e.covers o m.page)

def execScheduleFillComplete (base pass entry : Nat) (s : State) : Out State :=
  .next (whenUp s fun s =>
    match findObj s.store base with
    | none => s
    | some o => match o.sched with
      | none => s
      | some x => match x.runs.find? (fun r => r.pass == pass && r.entry == entry), x.entries[entry]? with
        | some r, some e => if r.done || !fillDone s.store o e then s else completeRun base o r e s
        | _, _ => s)

/-- A run that is released hands the copies that another started run holds over to that run. -/
def handOver (o : Obj) (x : Sched) (r : SchedRun) : List SchedRun :=
  let covers (k : SchedRun) (n : Nat) : Bool :=
    !(k.pass == r.pass && k.entry == r.entry) && !k.released && (match x.entryOf k with | some e => e.covers o n | none => false)
  r.copies.foldl (fun ks n => match ks.find? fun k => covers k n with
    | some h => updIf ks (fun k => k.pass == h.pass && k.entry == h.entry) fun k => { k with copies := k.copies ++ [n] }
    | none => ks) x.runs

/-- The release threshold of a run is met: its copies are dropped and its frames are free; a fill that has not completed
stops and counts as complete (R85). -/
def execScheduleRelease (base pass entry : Nat) (s : State) : Out State :=
  .next (whenUp s fun s =>
    match findObj s.store base with
    | none => s
    | some o => match o.sched with
      | none => s
      | some x => match x.runs.find? (fun r => r.pass == pass && r.entry == entry), x.entries[entry]? with
        | some r, some e =>
          let due := BitVec.ofNat 64 (e.relValue + pass * e.passStep)
          if r.released || (syncVal s e.relSync).toNat < due.toNat || frozenRun s (o.base + e.firstPage) e.pageCount then s
          else
            let mine (k : SchedRun) : Bool := k.pass == pass && k.entry == entry
            let s := dropRunCopies o x r (cancelFill base pass entry s)
            let s := updSched base (fun x =>
              { x with runs := updIf (handOver o x r) mine fun k => { k with done := true, released := true, copies := [] } }) s
            if r.done then s
            else match e.ready with
              | some obj => syncAdd obj 1 s
              | none => s
        | _, _ => s)

end Sys2Proof.Machine
end

