-- ==== Sys2Proof/Machine/Coh.lean ====
section
/-! DEFINITION. Coherence and atomics (chapter 6): the requests of R106 at their home, snoops and grants (R111 to R114,
R139, R427), atomics (R115 to R118), the timers of R119 and the loss of an agent (R122 to R127). -/

namespace Sys2Proof.Machine

/-! ### Sources -/

/-- An agent that is a CXL host: every exclusive grant to it is write ownership (R110). -/
def agentCxl (s : State) (a : BitVec 10) : Bool := match agentRoute s a with | some x => x.type = 3 | none => false

/-- The source of a record (R329). -/
def srcCode (s : State) (x : ReqSrc) : BitVec 32 :=
  match x with
  | .tile t c => srcTile t c
  | .stream t n => srcStream t n
  | .engine _ => srcEngine 0
  | .agent a => srcAgent a
  | .edge src => BitVec.ofNat 32 (0x50000000 + src.toNat)
  | .cxl _ _ => match reqAgent s x with | some a => srcAgent a | none => 0
  | .remote m _ => BitVec.ofNat 32 (0x50000000 + m.toNat * 2 ^ 16)

/-! ### Ending transactions -/

/-- Send the completion of a request. A refused or failed CXL access is also recorded for its rider and in a CXL event
record of its LD (R267). -/
def sendCmp (r : Req) (st : Status) (missed : Bool) (s : State) : State :=
  let s := emit (.cmp r st missed) s
  match r.src with
  | .cxl port ld =>
    if st = .ok then s
    else
      let e : CxlEvent :=
        { handle := s.fab.nextEvt, port := port, ld := ld, off := BitVec.ofNat 64 (opaOffset r.opa), status := st }
      let s := { s with
        fab.events := s.fab.events ++ [e]
        fab.nextEvt := if s.fab.nextEvt = 0xFFFF then 1 else s.fab.nextEvt + 1 }
      if st = .uncorrectable then s
      else recRefused ((srcRider s r.src).getD 0) (srcCode s r.src) st (BitVec.ofNat 64 (opaOffset r.opa)) 0 s
  | _ => s

def refuseReq (r : Req) (st : Status) (s : State) : State := sendCmp r st false s

/-- The agent a transaction's requester is. -/
def trkAgent (s : State) (t : Trk) : Option (BitVec 10) :=
  match t.what with
  | .req r _ => reqAgent s r.src
  | _ => none

/-- The requester has been declared lost (R127). -/
def trkLost (s : State) (t : Trk) : Bool := (trkAgent s t).any (agentLost s)

/-- End a transaction with a completion and no data; a lost agent's ends with `FENCED` (R127). An engine meets the status at
its next attempt. -/
def endWith (t : Trk) (st : Status) (s : State) : State :=
  match t.what with
  | .req r _ => sendCmp r (if trkLost s t then .fenced else st) t.missed (endTrk t.id s)
  | .recall => endTrk t.id s
  | .eng _ _ _ => updTrk t.id (fun u => { u with phase := .ready, status := st }) s

/-- Add an agent to the sharers of a line (R111). -/
def addSharer (a : BitVec 10) (d : Option DirSt) : DirSt :=
  match d with
  | some (.p as) =>
    if as.contains a then .p as
    else if as.length < 4 then .p (as ++ [a])
    else .v ((as ++ [a]).map agentGroup).dedup
  | some (.v gs) => .v (if gs.contains (agentGroup a) then gs else gs ++ [agentGroup a])
  | _ => .p [a]

def readRider (s : State) (t : Trk) : Rq :=
  match t.what with
  | .req r _ => { rider := t.rider, op := none, source := srcCode s r.src, va := 0 }
  | .recall => { rider := t.rider, op := none, source := 0, va := 0 }
  | .eng k _ _ => { rider := t.rider, op := none, source := k.source, va := k.va }

/-- Send a grant to a caching agent; the transaction ends with its `CMP_ACK` (R106). A lost agent gets none (R127). -/
def grant (t : Trk) (a : BitVec 10) (excl : Bool) (own : Bool) (data : List Byte) (s : State) : State :=
  let d : DirSt :=
    if !excl then addSharer a (match t.keptS with | some b => some (.p [b]) | none => dirOf s t.line)
    else if own || agentCxl s a then .xw a
    else .xr a
  if agentLost s a then endWith t .fenced s
  else
  let s := updTrk t.id (fun t => { t with phase := .grant, snoops := [a] }) (setDir t.line (some d) s)
  match t.what with
  | .req r _ => emit (if excl then .datE r t.line data else .datS r t.line data) (meterRd t.rider 64 s)
  | _ => s

/-! ### Steps at the memory controller -/

def sendMem (t : Trk) (op : MemOp) (s : State) : State :=
  emit (match op with | .rd => .memRd t.id | .wr => .memWr t.id | .atom => .memAtom t.id)
    (updTrk t.id (fun t => { t with phase := .memSent, mem := op }) s)

/-- The masked bytes of a line write. -/
def masked (mask : BitVec 64) (data : List Byte) : List (Option Byte) :=
  (List.range 64).map fun i => if bit mask i then some (data.getD i 0) else none

/-- Merge masked bytes into a line. -/
def mergeLine (mask : BitVec 64) (data old : List Byte) : List Byte :=
  (List.range 64).map fun i => if bit mask i then data.getD i 0 else old.getD i 0

/-- What a transaction's `MEM_WR` writes and for which rider: first the dirty data an agent returned, then the
request's own bytes. -/
def memBytes (s : State) (t : Trk) : BitVec 6 × List (Option Byte) :=
  let full (bs : List Byte) : List (Option Byte) := allBytes (bs.take 64 ++ zeros (64 - bs.length))
  match t.what with
  | .recall => dirty full
  | .eng _ _ _ => dirty full
  | .req _ k => match k, t.fwd with
    | .wrFull d, _ => (t.rider, full d)
    | .wrPart m d, some (_, old) => (t.rider, full (mergeLine m d old))
    | .wrPart m d, none => (t.rider, masked m d)
    | .wrHint m d _, some (_, old) => (t.rider, full (mergeLine m d old))
    | .wrHint m d _, none => (t.rider, masked m d)
    | .wbM d, _ => (t.rider, full d)
    | .atomic op, some (a, d) => if t.atHome && t.data.isEmpty then (agentRider s a, full d) else (t.rider, atomLine op d)
    | .atomic op, none => (t.rider, atomLine op t.data)
    | _, some (a, d) => (agentRider s a, full d)
    | _, none => (0, [])
where
  /-- The line that a snooped agent returned. -/
  dirty (full : List Byte → List (Option Byte)) : BitVec 6 × List (Option Byte) :=
    match t.fwd with
    | some (a, d) => (agentRider s a, full d)
    | none => (0, [])
  /-- The line after an atomic at its place, in the line the home read. -/
  atomLine (op : AtomOp) (line : List Byte) : List (Option Byte) :=
    match t.what with
    | .req r _ =>
      let o := r.opa.toNat % 64
      match atomRun op ((line.drop o).take (atomLen op)) with
      | some (_, new) => (List.replicate o none ++ new.map some) ++ List.replicate (64 - o - new.length) none
      | none => []
    | _ => []

/-- The lap a transaction reads: fixed at the front of the line's order (R131); one that is no longer live is resolved
anew. -/
def trkView (s : State) (x : Extent) (t : Trk) : View :=
  match t.view with
  | some v => if t.lap = .dead || viewLoc s.store x v (pageOf t.line) (granuleOf t.line) = .gone then viewOf s x t.rider else v
  | none => viewOf s x t.rider

/-- The home reads a line for a transaction; one that waits starts what it waits for. -/
def trkRead (s : State) (t : Trk) : RdRes × State :=
  match findExt s (extentOf t.line) with
  | none => (.fail .revoked, s)
  | some x =>
    if homeFenced s t.line then (.fail .fenced, s)
    else match memRead s x (trkView s x t) t.line 64 (some t.id) with
      | (.wait, s) => (.wait, awaitMem s x (trkView s x t) t.line false none (some t.id))
      | (.fail .uncorrectable, s) => (.fail .uncorrectable, recUncorr (readRider s t) t.line s)
      | r => r

/-- The dirty data that a transaction carries belongs to a write lap that has been abandoned (R138). -/
def fwdDead (s : State) (t : Trk) : Bool := t.fwd.isSome && (dirDead s t.line || t.lap = .dead)

/-- The home writes bytes of a line for a rider; one that waits starts what it waits for. Dirty lines, and writes accepted in
the write lap, still join a lap that a commit has closed (R137); in an abandoned one nothing is written (R138). -/
def trkWrite (s : State) (t : Trk) (r : BitVec 6) (bs : List (Option Byte)) : WrOut × State :=
  match findExt s (extentOf t.line) with
  | none => (.fail .revoked, s)
  | some x =>
    if homeFenced s t.line then (.fail .fenced, s)
    else if t.lap = .dead then (.fail .lapClosed, s)
    else
      let joins := t.lap = .entered || t.fwd.isSome || (match t.what with | .req _ (.wbM _) => true | _ => false)
      let v := viewOf s x r
      match writeAt s x v t.line bs none (some t.id) joins with
      | .done s =>
        (.done, if s.pair.inFlight.contains (pageOf t.line) then updTrk t.id (fun u => { u with mirror := true }) s else s)
      | .wait => (.wait, awaitMem s x v t.line true none (some t.id))
      | .fail st => (.fail st, s)

/-- The dirty data of an agent could not be applied (R427): it is discarded and recorded for the rider that held the
line; data of an abandoned write lap leaves no record. -/
def discardDirty (t : Trk) (r : BitVec 6) (st : Status) (s : State) : State :=
  if dirDead s t.line || t.lap = .dead then s
  else if st = .uncorrectable then
    recUncorr { rider := r, op := none, source := 0, va := 0 } t.line s
  else recRefused r 0 st (BitVec.ofNat 64 t.line) 0 s

/-! ### Starting a transaction (R111, R112, R114, R116, R139) -/

/-! ### The directory's sets (R109) -/

/-- The directory entries of the line's set, least recently used first. -/
def setEntries (s : State) (line : Nat) : List DirEnt :=
  s.coh.dir.filter fun d => homeWheel d.line == homeWheel line && Config.dirSet d.line % 262144 == Config.dirSet line % 262144

/-- The kind needs a directory entry that the line does not have. -/
def needsEntry (s : State) (line : Nat) (k : ReqKind) : Bool :=
  (dirOf s line).isNone && (match k with
    | .rdShared => true
    | .rdOwn => true
    | .upgrade => true
    | .wrHint _ _ a => (agentRoute s a).isSome && !agentLost s a
    | _ => false)

/-- Two lines share a directory set. -/
def sameSet (a b : Nat) : Bool :=
  homeWheel a == homeWheel b && Config.dirSet a % 262144 == Config.dirSet b % 262144

/-- Transactions in progress that will make an entry in the line's set: each has a way reserved. -/
def setReserved (s : State) (line : Nat) : Nat :=
  (s.coh.trks.filter fun u => sameSet u.line line && decide (u.phase ≠ .wait) &&
    (match u.what with | .req _ k => needsEntry s u.line k | _ => false)).length

def setFull (s : State) (line : Nat) : Bool := decide (16 ≤ (setEntries s line).length + setReserved s line)

/-- A request at the front of its line's order needs an entry in a full set: the least recently used entry that is in no
transaction is recalled, one for each such request (R109). -/
def evictDir (line : Nat) (s : State) : State :=
  let inSet (f : Trk → Bool) : Nat := (s.coh.trks.filter fun u => sameSet u.line line && f u).length
  let waiting := inSet fun u => decide (u.phase = .wait) && !blocked s u &&
    (match u.what with | .req _ k => needsEntry s u.line k | _ => false)
  if waiting ≤ inSet (fun u => u.what = .recall) then s
  else match (setEntries s line).find? fun d => !lineBusy s d.line true with
    | some d => startRecall d.line { s with coh.recalls := updAt s.coh.recalls (homeWheel line) fun r => bumpSat r 1 }
    | none => s

/-- The exclusive holder of a line. -/
def exclHolder (d : Option DirSt) : Option (BitVec 10 × Bool) :=
  match d with
  | some (.xr a) => some (a, false)
  | some (.xw a) => some (a, true)
  | _ => none

/-- Invalidate holders, then go on: with nobody to snoop the next step follows at once. -/
def invThen (t : Trk) (as : List (BitVec 10)) (next : State → State) (s : State) : State :=
  if as.isEmpty then next s else startSnoop t (fun a => .snpInv a t.id t.line) as s

/-- The agent's request, once nobody else holds the line as it must not: read and grant. -/
def cachingRead (t : Trk) (s : State) : State := sendMem t .rd s

/-- A completion without data that still waits for `CMP_ACK`: ownership granted on a held copy (R111). -/
def grantNoData (t : Trk) (r : Req) (a : BitVec 10) (s : State) : State :=
  if agentLost s a then endWith t .fenced s
  else
  let s := updTrk t.id (fun t => { t with phase := .grant, snoops := [a] }) (setDir t.line (some (.xw a)) s)
  sendCmp r .ok false s

def without (a : BitVec 10) (as : List (BitVec 10)) : List (BitVec 10) := as.filter (· ≠ a)

/-- The rights of a transaction (R25, R27): what a revoke withdrew after the home accepted it does not count (R42). -/
def trkRights (s : State) (t : Trk) (write : Bool) : Status ⊕ Extent :=
  if homeFenced s t.line then .inl .fenced
  else match findExt s (extentOf t.line) with
    | none => .inl .revoked
    | some x =>
      let y := if t.live then { x with live := true } else x
      if !extLive s y t.rider || (write && !extWriter s y t.rider) then .inl .revoked
      else if x.fenced then .inl .fenced
      else .inr x

/-- A `WB_M` that its home refuses: the dirty data is discarded, recorded where the sender held the line in XW, and the line
is in I (R427). -/
def refuseWb (t : Trk) (st : Status) (s : State) : State :=
  if dirOf s t.line = (trkAgent s t).map .xw then
    endWith t st (setDir t.line none (discardDirty t t.rider st s))
  else endWith t st s

/-- Refuse a transaction at the front of its line's order. -/
def refuseTrk (t : Trk) (k : ReqKind) (st : Status) (s : State) : State :=
  match k with
  | .wbM _ => refuseWb t st s
  | _ => endWith t st s

/-- Run the request at the front of its line's order, where its lap is fixed (R131). -/
def runReq (t : Trk) (r : Req) (k : ReqKind) (s : State) : State :=
  if trkLost s t then endWith t .fenced s
  else match trkRights s t k.needsWriter with
  | .inl st => refuseTrk t k st s
  | .inr x =>
    let t := { t with view := some (viewOf s x t.rider), lap := if t.lap = .front then lapTag s x t.rider else t.lap }
    let s := updTrk t.id (fun _ => t) s
    let d := dirOf s t.line
    let hs := holders s d
    if k.caching && lapAgent s x t.rider then
      match k with
      | .rdShared => sendMem t .rd s
      | .evictClean => endWith t .ok s
      | _ => refuseTrk t k .lapClosed s
    else if !k.caching && k.needsWriter && ((noWlap s x t.rider && decide (t.lap ≠ .entered)) || t.lap = .dead) then
      endWith t .lapClosed s
    else if needsEntry s t.line k && setFull s t.line then evictDir t.line s
    else match k with
      | .rdShared => match reqAgent s r.src, exclHolder d with
        | some a, some (b, _) =>
          if a = b || agentLost s b then cachingRead t s else startSnoop t (fun b => .snpShared b t.id t.line) [b] s
        | _, _ => cachingRead t s
      | .rdOwn => match reqAgent s r.src with
        | some a => invThen t (without a hs) (cachingRead t) s
        | none => endWith t .auth s
      | .upgrade => match reqAgent s r.src with
        | none => endWith t .auth s
        | some a =>
          let held := match d with
            | some (.p as) => as.contains a
            | some (.xr b) => a = b
            | some (.xw b) => a = b
            | _ => false
          if held then invThen { t with missed := false } (without a hs) (grantNoData t r a) s
          else invThen t (without a hs) (cachingRead t) s
      | .evictClean => match reqAgent s r.src with
        | none => endWith t .auth s
        | some a =>
          let d' := match d with
            | some (.p as) => if (without a as).isEmpty then none else some (DirSt.p (without a as))
            | some (.xr b) => if a = b then none else d
            | some (.xw b) => if a = b then none else d
            | x => x
          endWith t .ok (setDir t.line d' s)
      | .rdCur => match d with
        | some (.xw b) =>
          if agentLost s b || lapAgent s x t.rider then sendMem t .rd s
          else startSnoop t (fun b => .snpCur b t.id t.line) [b] s
        | _ => sendMem t .rd s
      | .wrFull _ => invThen t hs (sendMem t .wr) s
      | .wrPart _ _ => invThen t hs (sendMem t .wr) s
      | .wrHint m data a =>
        match d with
        | some (.xw b) =>
          if a = b && !agentLost s b then
            emit (.snpStash a t.id t.line m data) (updTrk t.id (fun t => { t with phase := .stash, snoops := [a] }) s)
          else invThen t hs (sendMem t .wr) s
        | _ => invThen t (without a hs) (sendMem t .wr) s
      | .atomic _ =>
        if d.isNone then sendMem t .atom s
        else
          let s := updTrk t.id (fun t => { t with atHome := true }) s
          invThen { t with atHome := true } hs (fun s => sendMem t .rd (setDir t.line none s)) s
      | .wbM _ => match reqAgent s r.src, d with
        | some a, some (.xw b) => if a = b then sendMem t .wr s else endWith t .ok s
        | _, _ => endWith t .ok s

/-- A request uses its line's directory entry and its tracker: where an injection makes both copies of an entry fail, it is
taken as state V with every group marked and the line is recalled; on a line without an entry the tracker fails, and the
transaction completes with `UNCORRECTABLE` (R328, R344; notes/assumptions/135.md). -/
def dirUse (t : Trk) (s : State) : State :=
  let u := unitChainring (homeWheel t.line)
  match injMode s 0x04 u with
  | none => s
  | some m =>
    if m = 0 then corrected 0x04 u (BitVec.ofNat 64 t.line) s
    else if m = 3 then s
    else if (dirOf s t.line).isNone then
      endWith t .uncorrectable (detect
        { Rec.blank 0x0002 with
          status := Status.uncorrectable.code, point := 0x04, unit := u, rider := riderByte t.rider
          source := (readRider s t).source, addr := BitVec.ofNat 64 t.line } s)
    else
      recallNow t.line (setDir t.line (some (.v ((List.range 64).map (BitVec.ofNat 6)))) (takeInj 0x04 u s).2)

/-- Start a waiting transaction when it has come to the front of its line's order and no agent-loss scan holds it. -/
def tryTrk (id : Nat) (s : State) : State :=
  match findTrk s id with
  | none => s
  | some t =>
    if t.phase ≠ .wait || blocked s t || scanHolds s t.line then s
    else match t.what with
      | .req r k =>
        let s := dirUse t (mapUse t.line s)
        if (findTrk s id).isNone || blocked s t then s
        else if deadFor s t && !(match k with | .wbM _ => true | _ => false) then recallNow t.line s
        else runReq t r k s
      | .recall => runRecall t s
      | .eng _ w _ => startEng t w s

/-- Start every waiting transaction that can start, in order of arrival. -/
def kick (s : State) : State :=
  ((s.coh.trks.filter (·.phase = .wait)).map (·.id)).foldl (fun s i => tryTrk i s) s

/-! ### Requests arrive (R37, R102, R103, R105, R118) -/

/-- Must the request wait at ingress: a closing composition or handover, Coast, a resetting rider, or a newer epoch (R36, R37, R283,
R321, R376). -/
def mustHold (s : State) (rider : BitVec 6) (epoch : Option (BitVec 32)) : Bool :=
  (match s.compose with | .draining _ _ => true | _ => false) || decide (s.pair.st = 6) || decide (s.power.st = .coast) || s.resets.contains rider ||
    (match epoch with | some e => decide (epochNow s < e) | none => false)

/-- The request came in through a fabric port. -/
def viaPort : ReqSrc → Bool
  | .edge _ => true
  | .cxl _ _ => true
  | .remote _ _ => true
  | _ => false

/-- A request at ingress must be held: also one from a fabric port during supply hold (R371). -/
def holdsReq (s : State) (r : Req) : Bool :=
  mustHold s ((srcRider s r.src).getD 0) r.epoch || (viaPort r.src && s.power.hold)

def holdAt (e : Option (BitVec 32)) (w : HeldWhat) (s : State) : State :=
  { s with
    held := s.held ++ [{ id := s.nextHeld, epoch := e.getD (epochNow s), what := w }]
    nextHeld := s.nextHeld + 1 }

/-- The forms that a sync object accepts (R194). -/
def syncForm (r : Req) : ReqKind → Bool
  | .rdCur => true
  | .wrFull _ => true
  | .wrPart m _ => decide (m.toNat = 255 * 2 ^ (r.opa.toNat % 64))
  | .atomic op => decide (op.code.toNat ≤ 9) && op.size == 8
  | _ => false

/-- A request to a sync object (R194): a load reads it, a whole-word store sets it, atomics 0x0 to 0x9 on 8 bytes. -/
def syncReq (r : Req) (k : ReqKind) (rider : BitVec 6) (obj : Nat) (s : State) : State :=
  if !syncForm r k then refuseReq r .badParam s
  else match syncRefusal s rider obj with
  | some st => refuseReq r st s
  | none =>
    let v := syncVal s obj
    let sh := r.opa.toNat % 64
    match k with
    | .rdCur => sendCmp r .ok false (emit (.datCur r (lineOf r.opa.toNat) (wordBytes v)) s)
    | .wrFull d => refuseReq r .ok (syncWrite obj (bytesWord d) s)
    | .wrPart _ d => refuseReq r .ok (syncWrite obj (bytesWord (d.drop sh)) s)
    | .atomic op => match atomRun op (wordBytes v) with
      | some (old, new) =>
        let s := if bytesWord new = v then setSyncVal obj v s else syncWrite obj (bytesWord new) s
        sendCmp r .ok false (emit (.datCur r (lineOf r.opa.toNat) (wordBytes old)) s)
      | none => refuseReq r .badParam s
    | _ => refuseReq r .badParam s

/-- The request was sent by another module (R118 check 3). -/
def fromRemote : ReqSrc → Bool
  | .remote _ _ => true
  | _ => false

/-- An extent of this module has a mirror copy on the twin. -/
def mirrored (s : State) (idx : Nat) : Bool :=
  match (findExt s idx).bind (extRun s) with | some u => u.mirror ≠ 0 | none => false

/-- A request that was not held: its source, its role, its address, then the line's order. -/
def routeReq (r : Req) (k : ReqKind) (s : State) : State :=
  match srcRider s r.src with
  | none => refuseReq r .auth s
  | some rider =>
    let a := reqAgent s r.src
    if (match a with | some a => agentLost s a | none => false) then refuseReq r .fenced s
    else if k.caching && a.isNone then refuseReq r .auth s
    else if s.power.st = .kickstand then refuseReq r (if s.power.kick = 3 then .ownerLost else .busy) s
    else if !opaMbz r.opa then route rider s
    else if k.caching && otherModule s r.opa then refuseReq r .auth s
    else match k with
      | .atomic op =>
        if !(atomAcc op && opaSpace r.opa = 2) && !atomAligned op r.opa.toNat then refuseReq r .misaligned s
        else if fromRemote r.src || otherModule s r.opa then refuseReq r .atomicRemote s
        else route rider s
      | _ => route rider s
where
  route (rider : BitVec 6) (s : State) : State :=
    match target s r.opa with
    | .bad st => refuseReq r st (if opaMbz r.opa then s else recRefused rider (srcCode s r.src) st r.opa 0 s)
    | .reg => refuseReq r .auth s
    | .module _ => emit (.relayedReq r k) s
    | .peloton _ => emit (.relayedReq r k) s
    | .sync obj => syncReq r k rider obj s
    | .off o =>
      if (match k with | .atomic op => !atomForm op | _ => false) then refuseReq r .badParam s
      else if s.pair.st = 7 then
        if mirrored s (extentOf o) then emit (.relayedReq r k) s else refuseReq r .ownerLost s
      else
        let id := s.coh.nextTrk
        let x := findExt s (extentOf o)
        tryTrk id (newTrk { Trk.blank (lineOf o) rider (.req r k) with
          live := x.any (·.live)
          lap := match x with | some x => lapTag s x rider | none => .front } s)

/-- The device physical address of an LD is a store offset of the module (R267). -/
def cxlReq (r : Req) (s : State) : Req :=
  match r.src with
  | .cxl _ _ => { r with opa := mkOpa s.peloton s.me (opaOffset r.opa) }
  | _ => r

/-- A tracker is free for a request that needs one (R105). -/
def reqRoom (s : State) (r : Req) : Bool :=
  match target s r.opa, srcRider s r.src with
  | .off o, some rider => trackerFree s (homeWheel o) rider
  | _, _ => true

/-- An earlier request of the same source waits for a tracker: its request channel has no credit (R105). -/
def srcWaits (s : State) (src : ReqSrc) (before : Nat) : Bool :=
  s.held.any fun h => decide (h.id < before) && (match h.what with | .req r _ => decide (r.src = src) && !holdsReq s r | _ => false)

/-- A request reaches the module. -/
def acceptReq (r : Req) (k : ReqKind) (s : State) : State :=
  let r := cxlReq r s
  if (match r.epoch with | some e => decide (e < epochNow s) | none => false) then refuseReq r .staleMap s
  else if holdsReq s r || srcWaits s r.src s.nextHeld || !reqRoom s r then holdAt r.epoch (.req r k) s
  else routeReq r k s

def execRdShared (r : Req) (s : State) : Out State := .next (whenUp s (acceptReq r .rdShared))
def execRdOwn (r : Req) (s : State) : Out State := .next (whenUp s (acceptReq r .rdOwn))
def execUpgrade (r : Req) (s : State) : Out State := .next (whenUp s (acceptReq r .upgrade))
def execRdCur (r : Req) (s : State) : Out State := .next (whenUp s (acceptReq r .rdCur))
def execWrFull (r : Req) (data : List Byte) (s : State) : Out State := .next (whenUp s (acceptReq r (.wrFull data)))
def execWrPart (r : Req) (mask : BitVec 64) (data : List Byte) (s : State) : Out State :=
  .next (whenUp s (acceptReq r (.wrPart mask data)))
def execWrHint (r : Req) (mask : BitVec 64) (data : List Byte) (a : BitVec 10) (s : State) : Out State :=
  .next (whenUp s (acceptReq r (.wrHint mask data a)))
def execAtomic (r : Req) (op : AtomOp) (s : State) : Out State := .next (whenUp s (acceptReq r (.atomic op)))
def execWbM (r : Req) (data : List Byte) (s : State) : Out State := .next (whenUp s (acceptReq r (.wbM data)))
def execEvictClean (r : Req) (s : State) : Out State := .next (whenUp s (acceptReq r .evictClean))

/-! ### After the snoops -/

/-- The access of an engine comes to the front of its line's order. -/
def engReady (t : Trk) (write : Bool) (s : State) : State :=
  match findExt s (extentOf t.line) with
  | some x => readyTrk t x write s
  | none => endWith t .revoked s

/-- Every snoop of a transaction is answered: what follows (R111 to R116). -/
def afterSnoops (t : Trk) (s : State) : State :=
  match t.what with
  | .eng _ w full => if t.fwd.isSome && !(w && full) then sendMem t .wr s else engReady t w s
  | .recall => if t.fwd.isSome then sendMem t .wr s else kick (setDir t.line none (endTrk t.id s))
  | .req r k =>
    match k with
    | .rdShared => if t.fwd.isSome then sendMem t .wr s else cachingRead t s
    | .rdOwn => if t.fwd.isSome then sendMem t .wr s else cachingRead t s
    | .upgrade =>
      let held := match reqAgent s r.src, dirOf s t.line with
        | some a, some (.p as) => as.contains a
        | _, _ => false
      match reqAgent s r.src with
      | some a => if held then grantNoData t r a s else if t.fwd.isSome then sendMem t .wr s else cachingRead t s
      | none => endWith t .auth s
    | .rdCur => if t.fwd.isSome then sendMem t .wr s else sendMem t .rd s
    | .atomic _ => if t.fwd.isSome then sendMem t .wr (setDir t.line none s) else sendMem t .rd (setDir t.line none s)
    | _ => sendMem t .wr s

/-- An agent's answer to a snoop of a transaction. -/
def answerSnoop (a : BitVec 10) (id : Nat) (f : Trk → Trk) (s : State) : State :=
  match findTrk s id with
  | none => s
  | some t =>
    if t.phase ≠ .snoop || !t.snoops.contains a then s
    else
      let t := f { t with snoops := t.snoops.erase a }
      let s := updTrk id (fun _ => t) s
      if t.snoops.isEmpty then afterSnoops t s else s

/-- The transaction snoops with `SNP_CUR` (R112). -/
def Trk.cur (t : Trk) : Bool := match t.what with
  | .req _ .rdCur => true
  | .eng _ w _ => !w
  | _ => false

/-- The transaction snooped with `SNP_SHARED` or `SNP_CUR`, whose answers may keep a copy. -/
def Trk.soft (t : Trk) : Bool := match t.what with
  | .req _ .rdShared => true
  | _ => t.cur

/-- `RSP_I`: the agent holds nothing now. After a `SNP_CUR` the line is in I (R112). -/
def rspI (a : BitVec 10) (id : Nat) (s : State) : State :=
  let s := match findTrk s id with
    | some t =>
      if t.cur && t.phase = .snoop && t.snoops.contains a && dirOf s t.line = some (.xw a) then setDir t.line none s else s
    | none => s
  answerSnoop a id (fun t => t) s

def execRspI (a : BitVec 10) (trk : Nat) (s : State) : Out State := .next (whenUp s (rspI a trk))

/-- `RSP_S`: the agent keeps a shared copy. -/
def execRspS (a : BitVec 10) (trk : Nat) (s : State) : Out State :=
  .next (whenUp s fun s =>
    match findTrk s trk with
    | some t => if t.soft then answerSnoop a trk (fun t => { t with keptS := some a }) s else s
    | none => s)

/-- `RSP_X`: the agent keeps its exclusive copy, clean; it answers `SNP_CUR` only. -/
def execRspX (a : BitVec 10) (trk : Nat) (s : State) : Out State :=
  .next (whenUp s fun s =>
    match findTrk s trk with
    | some t => if t.cur then answerSnoop a trk (fun t => t) s else s
    | none => s)

/-- `DAT_FWD`: the agent returns its dirty line, keeping S or nothing (for `SNP_CUR` its exclusive copy). -/
def execDatFwd (a : BitVec 10) (trk : Nat) (data : List Byte) (keepsS : Bool) (s : State) : Out State :=
  .next (whenUp s fun s =>
    match findTrk s trk with
    | some t =>
      if dirDead s t.line && t.phase = .snoop && t.snoops.contains a then
        -- data of an abandoned write lap is dropped, and so is the copy it came from (R138)
        rspI a trk (if t.soft then emit (.snpInv a trk t.line) s else s)
      else answerSnoop a trk (fun t =>
        { t with fwd := some (a, data), keptS := if keepsS && t.soft then some a else t.keptS }) s
    | none => s)

/-- The line's data has reached memory or was read: grant or answer. -/
def deliver (t : Trk) (data : List Byte) (s : State) : State :=
  match t.what with
  | .recall => kick (setDir t.line none (endTrk t.id s))
  | .eng _ w _ => kick (engReady t w s)
  | .req r k =>
    let lapped := match findExt s (extentOf t.line) with | some x => lapAgent s x t.rider | none => false
    if trkLost s t then kick (endWith t .fenced s)
    else match k, reqAgent s r.src with
    | .rdShared, some a =>
      if lapped then
        emit (.datS r t.line data)
          (updTrk t.id (fun t => { t with phase := .grant, snoops := [a] }) (meterRd t.rider 64 s))
      else match dirOf s t.line with
        | some (.p _) => grant t a false false data s
        | some (.v _) => grant t a false false data s
        | _ => if t.keptS.isSome then grant t a false false data s else grant t a true false data s
    | .rdOwn, some a => if lapped || t.lap = .dead then kick (endWith t .lapClosed s) else grant t a true true data s
    | .upgrade, some a => if lapped || t.lap = .dead then kick (endWith t .lapClosed s) else grant t a true true data s
    | .rdCur, _ =>
      kick (sendCmp r .ok false (emit (.datCur r t.line data) (endTrk t.id (meterRd t.rider 64 s))))
    | _, _ => kick (endWith t .ok s)

/-! ### Home-order messages -/

/-- `MEM_RD` reaches the controller: it reads the line and returns it. -/
def execMemRd (trk : Nat) (s : State) : Out State :=
  .next (whenUp s fun s =>
    match findTrk s trk with
    | none => s
    | some t =>
      if t.phase ≠ .memSent || t.mem ≠ .rd then s
      else match trkRead s t with
        | (.wait, s) => s
        | (.data bs, s) =>
          emit (.memRdata trk .ok) (updTrk trk (fun t => { t with phase := .memBack, data := bs, status := .ok }) s)
        | (.fail st, s) =>
          emit (.memRdata trk st) (updTrk trk (fun t => { t with phase := .memBack, status := st }) s))

/-- `MEM_WR` reaches the controller: it writes the line's bytes. -/
def execMemWr (trk : Nat) (s : State) : Out State :=
  .next (whenUp s fun s =>
    match findTrk s trk with
    | none => s
    | some t =>
      if t.phase ≠ .memSent || t.mem ≠ .wr then s
      else
        let (r, bs) := memBytes s t
        let back (st : Status) (s : State) : State :=
          emit (.memWack trk st) (updTrk trk (fun t => { t with phase := .memBack, status := st }) s)
        if fwdDead s t then back .lapClosed s
        else match trkWrite s t r bs with
          | (.wait, s) => s
          | (.done, s) => back .ok (meterWr r (bs.filter (·.isSome)).length s)
          | (.fail st, s) => back st s)

/-- `MEM_ATOM` reaches the controller: it reads, operates and writes. -/
def execMemAtom (trk : Nat) (s : State) : Out State :=
  .next (whenUp s fun s =>
    match findTrk s trk with
    | none => s
    | some t =>
      if t.phase ≠ .memSent || t.mem ≠ .atom then s
      else match t.what with
        | .req r (.atomic op) =>
          let back (st : Status) (data : List Byte) (s : State) : State :=
            emit (.memRdata trk st) (updTrk trk (fun t => { t with phase := .memBack, data := data, status := st }) s)
          match trkRead s t with
          | (.wait, s) => s
          | (.fail st, s) => back st [] s
          | (.data line, s) =>
            let o := r.opa.toNat % 64
            match atomRun op ((line.drop o).take (atomLen op)) with
            | none => back .badParam [] s
            | some (old, new) =>
              match trkWrite s t t.rider (List.replicate o none ++ new.map some ++ List.replicate (64 - o - new.length) none) with
              | (.wait, s) => s
              | (.done, s) => back .ok (wordBytes old) (meterWr t.rider new.length s)
              | (.fail st, s) => back st [] s
        | _ => s)

/-- A write of the transaction is in memory here, and the twin's copy of it is still on its way (R148). -/
def landing (s : State) (t : Trk) : Bool :=
  decide (t.mem ≠ .rd ∧ t.status = .ok) && t.mirror && mirrorLeft s (pageOf t.line)

/-- `MEM_RDATA` reaches the home. -/
def execMemRdata (trk : Nat) (s : State) : Out State :=
  .next (whenUp s fun s =>
    match findTrk s trk with
    | none => s
    | some t =>
      if t.phase ≠ .memBack || t.mem = .wr || landing s t then s
      else match t.what with
        | .req r (.atomic op) =>
          if t.status ≠ .ok then kick (endWith t t.status s)
          else if t.mem = .atom then
            kick (sendCmp r .ok false (emit (.datCur r t.line t.data) (endTrk trk s)))
          else match atomRun op ((t.data.drop (r.opa.toNat % 64)).take (atomLen op)) with
            | none => kick (endWith t .badParam s)
            | some _ => sendMem { t with fwd := none } .wr (updTrk trk (fun t => { t with fwd := none }) s)
        | .req _ _ => if t.status ≠ .ok then kick (endWith t t.status s) else deliver t t.data s
        | .eng _ w _ => kick (engReady t w s)
        | .recall => kick (setDir t.line none (endTrk trk s)))

/-- The dirty data could not be written (R427). -/
def dirtyLost (t : Trk) (a : BitVec 10) (s : State) : State :=
  let s := discardDirty t (agentRider s a) t.status s
  let keeps := t.keptS = some a || t.cur
  let s := if keeps then emit (.snpInv a t.id t.line) s else s
  kick (endWith t t.status (setDir t.line none s))

/-- The dirty data of a transaction, once it is in memory, or was dropped with its write lap, counts no more. -/
def dropFwd (t : Trk) (s : State) : State := updTrk t.id (fun t => { t with fwd := none, status := .ok }) s

/-- `MEM_WACK` reaches the home. -/
def execMemWack (trk : Nat) (s : State) : Out State :=
  .next (whenUp s fun s =>
    match findTrk s trk with
    | none => s
    | some t =>
      let done (st : Status) (s : State) : State := kick (endWith t st (setDir t.line none s))
      let lost (s : State) : State := match t.fwd with
        | some (a, _) => if t.status = .ok then s else discardDirty t (agentRider s a) t.status s
        | none => s
      if t.phase ≠ .memBack || t.mem ≠ .wr || landing s t then s
      else match t.what with
        | .recall => kick (setDir t.line none (endTrk trk (lost s)))
        | .eng _ w _ => match t.fwd with
          | some (a, _) =>
            if t.status = .ok || fwdDead s t then kick (engReady { t with fwd := none } w (dropFwd t s))
            else dirtyLost t a s
          | none => kick (engReady t w s)
        | .req r k => match k, t.fwd with
          | .wrFull _, _ => done t.status s
          | .wrPart _ _, _ => done t.status (lost s)
          | .wbM _, _ => done t.status (if t.status = .ok then s else discardDirty t t.rider t.status s)
          | .wrHint _ _ a, _ =>
            if t.status ≠ .ok then done t.status (lost s)
            else if (agentRoute s a).isNone || agentLost s a then
              kick (endWith { t with missed := true } .ok (setDir t.line none s))
            else if t.missed then done .ok s
            else match trkRead s t with
              | (.data line, s) =>
                emit (.snpStash a trk t.line (BitVec.allOnes 64) line)
                  (updTrk trk (fun t => { t with phase := .stash, snoops := [a] }) (setDir t.line none s))
              | (.wait, s) => s
              | (.fail _, s) => kick (endWith { t with missed := true } .ok (setDir t.line none s))
          | .atomic _, some (a, _) =>
            if t.lap = .dead then kick (endWith t .lapClosed s)
            else if t.status ≠ .ok then dirtyLost t a s
            else sendMem { t with fwd := none } .rd (dropFwd t s)
          | .atomic op, none =>
            if t.status ≠ .ok then kick (endWith t t.status s)
            else match atomRun op ((t.data.drop (r.opa.toNat % 64)).take (atomLen op)) with
              | some (old, _) => kick (sendCmp r .ok false (emit (.datCur r t.line (wordBytes old)) (endTrk trk s)))
              | none => kick (endWith t .badParam s)
          | _, some (a, d) =>
            if fwdDead s t then
              -- the data went with its write lap: the line is read from memory, and the agent keeps no copy of it
              let s := if t.keptS = some a || t.cur then emit (.snpInv a trk t.line) s else s
              sendMem { t with fwd := none, keptS := none } .rd
                (updTrk trk (fun t => { t with keptS := none }) (setDir t.line none (dropFwd t s)))
            else if t.status ≠ .ok then dirtyLost t a s
            else deliver { t with fwd := none } d (dropFwd t s)
          | _, none => kick (endWith t t.status s))

/-! ### Grants, stashes, timers -/

/-- `CMP_ACK`: the grant is installed and the transaction ends. -/
def execCmpAck (a : BitVec 10) (trk : Nat) (s : State) : Out State :=
  .next (whenUp s fun s =>
    match findTrk s trk with
    | some t => if t.phase = .grant && t.snoops.contains a then kick (endTrk trk s) else s
    | none => s)

/-- `RSP_STASH_OK`: a target that held the line in XW keeps its state; another installs the line in E (R114). -/
def execRspStashOk (a : BitVec 10) (trk : Nat) (s : State) : Out State :=
  .next (whenUp s fun s =>
    match findTrk s trk with
    | some t =>
      if t.phase ≠ .stash || !t.snoops.contains a then s
      else match dirOf s t.line with
        | some (.xw _) => kick (endWith t .ok s)
        | _ => kick (endWith t .ok (setDir t.line (some (if agentCxl s a then .xw a else .xr a)) s))
    | none => s)

/-- A stash offer is refused, or not answered (R114, R119): from XW the line is recalled and the bytes are merged and
written; otherwise the entry is in I. -/
def stashRefused (a : BitVec 10) (trk : Nat) (s : State) : State :=
  match findTrk s trk with
  | some t =>
    if t.phase ≠ .stash || !t.snoops.contains a then s
    else match dirOf s t.line with
      | some (.xw _) =>
        let t := { t with missed := true }
        let s := updTrk trk (fun _ => t) s
        if agentLost s a then sendMem t .wr s else startSnoop t (fun b => .snpInv b trk t.line) [a] s
      | _ => kick (endWith { t with missed := true } .ok (setDir t.line none s))
  | none => s

def execRspStashRefuse (a : BitVec 10) (trk : Nat) (s : State) : Out State := .next (whenUp s (stashRefused a trk))

/-! ### Losing an agent (R122 to R125) -/

def lossOf (s : State) (r : BitVec 6) : LossList :=
  (s.coh.losses.find? (·.rider = r)).getD { rider := r, next := 0, ents := [] }

def setLoss (l : LossList) (s : State) : State :=
  { s with coh.losses := dropIf s.coh.losses (·.rider = l.rider) ++ [l] }

/-- A line's store offset as software names it. -/
def nameLine (s : State) (line : Nat) : Nat :=
  match findExt s (extentOf line) with
  | some x => x.name * 2 ^ 34 + line % 2 ^ 34
  | none => line

/-- List a lost line (R125): a full list, or one without numbers left, counts it as unlisted. -/
def listLoss (r : BitVec 6) (a : BitVec 10) (cause : BitVec 16) (line : Nat) (s : State) : State :=
  let l := lossOf s r
  let idx := extentOf line
  if 65536 ≤ l.ents.length || 0xFFFFFFFF ≤ l.next then
    updExt s idx fun x => { x with unlisted := x.unlisted + 1 }
  else
    let s := setLoss { l with ents := l.ents ++ [{ line := line, seq := l.next, agent := a, cause := cause }], next := l.next + 1 } s
    postEvent r
      { type := 4, status := Status.lossLine.code, queue := 0, arg0 := BitVec.ofNat 64 (nameLine s line), arg1 := BitVec.ofNat 64 l.next } s

/-- Declare an agent lost (R122): recorded, its outstanding snoops count as `RSP_I`, its grants end, and its rider's extents
are held until the scans end (R124 steps 1 and 2). -/
def declareLost (a : BitVec 10) (cause : BitVec 16) (s : State) : State :=
  if agentLost s a || (agentRoute s a).isNone then s
  else
    let r := agentRider s a
    let s := { s with
      coh.lost := s.coh.lost ++ [(a, cause)]
      coh.scans := s.coh.scans ++ [{ agent := a, cause := cause, rider := r }] }
    let s := detect
      { Rec.blank 0x000B with
        status := Status.fenced.code, point := if cause = 1 then 0x0E else 0, unit := unitAgent a, rider := riderByte r, source := srcAgent a, arg0 := cause.setWidth 64
        arg1 := a.setWidth 32 } s
    let s := postEvent r
      { type := 3, status := Status.fenced.code, queue := 0, arg0 := a.setWidth 64, arg1 := cause.setWidth 64 } s
    let s := markFence (unitAgent a) 8 s
    let ids := (s.coh.trks.filter fun t => t.snoops.contains a).map (·.id)
    ids.foldl (fun s id => match findTrk s id with
      | some t =>
        if t.phase = .grant then kick (endTrk id s)
        else if scanHolds s t.line && (t.phase = .snoop || dirOf s t.line = some (.xw a)) then
          -- the access is held where it stands, until the scans end (R124 step 2)
          updTrk id (fun t => { t with phase := .wait, snoops := [] }) s
        else if t.phase = .snoop then rspI a id s
        else if t.phase = .stash then stashRefused a id s
        else s
      | none => s) s

/-- A snoop was not answered in time (R119). -/
def execSnoopTimeout (a : BitVec 10) (trk : Nat) (s : State) : Out State :=
  .next (whenUp s fun s =>
    match findTrk s trk with
    | some t => if (t.phase = .snoop || t.phase = .stash) && t.snoops.contains a then declareLost a 1 s else s
    | none => s)

def execGrantAckTimeout (a : BitVec 10) (trk : Nat) (s : State) : Out State :=
  .next (whenUp s fun s =>
    match findTrk s trk with
    | some t =>
      if t.phase = .grant && t.snoops.contains a then
        if agentLost s a then kick (endTrk trk s) else declareLost a 1 s
      else s
    | none => s)

/-- The memory limit of 50 ms: the request completes with `TIMEOUT`, the directory is unchanged, the error is logged. -/
def execMemoryTimeout (trk : Nat) (s : State) : Out State :=
  .next (whenUp s fun s =>
    match findTrk s trk with
    | some t =>
      if t.phase = .memSent || t.phase = .memBack || (t.phase = .ready && decide (t.status = .ok)) then
        let s := detect
          { Rec.blank 0x0007 with
            status := Status.timeout.code, point := 0x0D, unit := unitChainring (homeWheel t.line), rider := riderByte t.rider
            source := (readRider s t).source, addr := BitVec.ofNat 64 t.line, arg0 := 50000 } s
        kick (endWith t .timeout s)
      else s
    | none => s)

/-- What a scan does with one directory entry that names the agent (R124 step 3). -/
def scanEntry (a : BitVec 10) (cause : BitVec 16) (r : BitVec 6) (d : DirEnt) (s : State) : State :=
  if d.dead && d.st = .xw a then setDir d.line none s
  else match d.st with
  | .p as => if as.contains a then setDir d.line (if (without a as).isEmpty then none else some (.p (without a as))) s else s
  | .v _ => s
  | .xr b => if a = b then setDir d.line none s else s
  | .xw b =>
    if a ≠ b then s
    else
      let s := setDir d.line none s
      match findExt s (extentOf d.line) with
      | none => s
      | some x =>
        if extLapped s x then
          match x.wlap with
          | some w => if w.rider = r then abandonLap x.idx s else s
          | none => s
        else fenceExt r x.idx (listLoss r a cause d.line s)

/-- The scan of every home ends (R124 steps 3 to 5). -/
def execAgentLossScanEnd (a : BitVec 10) (s : State) : Out State :=
  .next (whenUp s fun s =>
    match s.coh.scans.find? (·.agent = a) with
    | none => s
    | some c =>
      let fencedBefore := (s.store.extents.filter (·.fenced)).map (·.idx)
      let s := s.coh.dir.foldl (fun s d => scanEntry a c.cause c.rider d s) s
      let newly := (s.store.extents.filter fun x => x.fenced && !fencedBefore.contains x.idx).map (·.idx)
      kick (recallExts newly { s with coh.scans := dropIf s.coh.scans (·.agent = a) }))

/-! ### Atomics of this module's own engines -/

inductive AtRes where
  | done (old : Word)
  | wait
  | fail (st : Status)

/-- An atomic of a tile context at this module's home (R116, R118 checks 4 to 7): its access takes its turn in the line's
order as a write does, and reads, operates and writes in one step. -/
def homeAtomic (s : State) (q : Rq) (off : Nat) (op : AtomOp) : AtRes × State :=
  let k := q.key off
  let drop := dropTicket k true
  let mine := findTicket s k true
  if !atomForm op then (.fail .badParam, s)
  else match accessAt s q off true with
    | .inl st => (.fail st, drop s)
    | .inr x =>
      if (noWlap s x q.rider && mine.isNone) || mine.any (fun t => decide (t.lap = .dead ∧ t.phase ≠ .mirror)) then
        (.fail .lapClosed, drop s)
      else match engTurn s x q off true false with
        | (.wait, s) => (.wait, s)
        | (.made, s) =>
          -- the old value waits in the transaction
          (.done (bytesWord ((findTicket s k true).map (·.data) |>.getD [])), drop s)
        | (.fail st, s) => (.fail st, drop s)
        | (.now fixed, s) =>
          let (v, s) := viewFor s x q fixed
          let now := findTicket s k true
          let hold (s : State) : AtRes × State := (.wait, holdAccess q x off true false none v s)
          if x.fenced then (.fail .fenced, drop s)
          else match memRead s x v off (atomLen op) (now.map (·.id)) with
            | (.wait, s) => hold s
            | (.fail .uncorrectable, s) => (.fail .uncorrectable, drop (recUncorr q off s))
            | (.fail st, s) => (.fail st, drop s)
            | (.data bs, s) => match atomRun op bs with
              | none => (.fail .badParam, drop s)
              | some (old, new) =>
                match writeAt s x v off (allBytes new) none (now.map (·.id)) (now.any fun t => decide (t.lap = .entered)) with
                | .done s => match landWrite q off false (meterWr q.rider new.length s) with
                  | (.done, s) => (.done old, s)
                  | (_, s) => (.wait, match findTicket s k true with
                    | some t => updTrk t.id (fun t => { t with data := wordBytes old }) s
                    | none => s)
                | .wait => hold s
                | .fail .uncorrectable => (.fail .uncorrectable, drop (recUncorr q off s))
                | .fail st => (.fail st, drop s)

end Sys2Proof.Machine
end

