-- ==== Sys2Proof/Machine/Extent.lean ====
section
/-! DEFINITION. Extents at run time: `EXTENT_ASSIGN`, `EXTENT_REVOKE`, `EXTENT_QUERY` (R41 to R44, R87, R307) and
`LOSS_ACK` (R126). -/

namespace Sys2Proof.Machine

/-- The extents that a run names on this module, all of them in the record (R41). -/
def namedExts (s : State) (c : Cmd) : Option (List Nat) :=
  let is := runExts s c.h.surrogate (c.p 0)
  if is.all (·.isSome) then some (is.filterMap id) else none

/-- A command that R43 orders before this one has not returned: a revoke of one of the extents, an `EXTENT_ASSIGN` or
`EXTENT_REVOKE` that waits itself, or a `COMPOSE` that was accepted before. -/
def revoking (s : State) (o : Open) (idxs : List Nat) : Bool :=
  (match s.compose with
    | .idle => false
    | .waiting _ _ before => !before.contains o
    | .draining _ _ => true) ||
  s.jobs.any fun j => match j with
    | .revoke _ exts _ => exts.any idxs.contains
    | .rerun h => h.op.toNat == 0x100 || h.op.toNat == 0x101
    | _ => false

def bodyExtentAssign : Body := fun c s =>
  if !runForm (c.p 0) 16384 || bits (c.p 0) 32 32 ≠ 0 then Eff.stat .badParam s
  else match namedExts s c with
    | none => Eff.stat .badParam s
    | some idxs =>
      if revoking s (openOf 0x100 c) idxs then waitFor 0x100 c s
      else Eff.ok (forExts idxs s fun i s => updExt s i fun x => { x with live := true })

def execExtentAssign (c : Cmd) (s : State) : Out State := .next (runPacket 0x100 c bodyExtentAssign s)

/-! ### Revocation (R42) -/

/-- A command waits for tier work in one of the extents. -/
def tierCmdIn (s : State) (idxs : List Nat) : Bool :=
  s.store.tierCmds.any fun t => idxs.any fun i => overlaps t.first t.count (i * 262144) ((i + 1) * 262144)

/-- An invalidation covers pages of one of the extents (R60). -/
def frozenExt (s : State) (idxs : List Nat) : Bool := idxs.any fun i => frozenRun s (i * 262144) 262144

/-- Fill the frames of an extent's pages with zero (R42 step 4); granules on fenced units stay (R336). -/
def scrubExt (idx : Nat) (s : State) : State :=
  let pages := s.store.pages.filter fun p => extentOfPage p.n == idx
  pages.foldl (fun s p => match p.home with
    | some f =>
      if pageFenced s f p.n then s
      else { s with store := { s.store with
          mem := memClear s.store.mem (f * 65536) 65536
          bad := dropIf s.store.bad fun b => b / 65536 == f
          soft := dropIf s.store.soft fun b => b / 65536 == f } }
    | none => s) s

/-- Remove the objects that touch an extent (R87). -/
def removeObjsIn (idx : Nat) (s : State) : State :=
  (s.store.objects.filter fun o => overlaps o.base o.pages (idx * 262144) ((idx + 1) * 262144)).foldl
    (fun s o => removeObj o s) s

/-- Steps 3 and 4 on one extent. -/
def revokeExt (scrub : Bool) (idx : Nat) (s : State) : State :=
  let s := abandonLap idx s
  let s := updExt s idx fun x => { x with reads := [], holds := [] }
  let s := { s with store.marks := s.store.marks.map fun m => { m with laps := dropIf m.laps (·.1 == idx) } }
  let s := removeObjsIn idx (cancelTier (fun n => extentOfPage n == idx) s)
  let s := reapLaps idx s
  if scrub then scrubExt idx s else s

/-- Operations that hold a lap on one of the extents are still in progress. -/
def extsHeld (s : State) (idxs : List Nat) : Bool :=
  s.store.extents.any fun x => idxs.contains x.idx && !x.holds.isEmpty

/-- A revoke that has not returned: recalls, then steps 3 to 5 once every accepted request is done. -/
def tryRevoke (o : Open) (idxs : List Nat) (scrub : Bool) (s : State) : State × Option Job :=
  let wait := some (Job.revoke o idxs scrub)
  if extsBusy s idxs then (s, wait)
  else if !(dirLines s idxs).isEmpty then (recallExts idxs s, wait)
  else if extsHeld s idxs || tierCmdIn s idxs || frozenExt s idxs then (s, wait)
  else (completeIf o .ok 0 [] (forExts idxs s (revokeExt scrub)), none)

def bodyExtentRevoke : Body := fun c s =>
  if !runForm (c.p 0) 16384 || bits (c.p 0) 33 31 ≠ 0 then Eff.stat .badParam s
  else match namedExts s c with
    | none => Eff.stat .badParam s
    | some idxs =>
      if revoking s (openOf 0x101 c) idxs then waitFor 0x101 c s
      else
        let s := forExts idxs s fun i s => updExt s i fun x => { x with live := false }
        Eff.later (addJob (tryRevoke (openOf 0x101 c) idxs (bit (c.p 0) 32) s))

def execExtentRevoke (c : Cmd) (s : State) : Out State := .next (runPacket 0x101 c bodyExtentRevoke s)

/-! ### `EXTENT_QUERY` (R44, R307) -/

/-- Home frames of an extent's latest pages in a tier. -/
def tierPages (st : Store) (idx : Nat) (t : Tier) : Nat :=
  (st.pages.filter fun p => extentOfPage p.n == idx && (match p.home with
    | some f => decide (frameTier st f = t)
    | none => false)).length

/-- Loss-list entries on an extent: one rider's, or every rider's. -/
def lossEntries (s : State) (rider : Option (BitVec 6)) (idx : Nat) : Nat :=
  ((s.coh.losses.filter fun l => match rider with | some r => l.rider = r | none => true).map fun l =>
    (l.ents.filter fun e => extentOf e.line == idx).length).sum

/-- The 48-byte entry of an extent; one that the querying rider does not read is reported as not live. -/
def queryEntry (s : State) (rider : Option (BitVec 6)) (index : Nat) (local_ : Option Nat) : List Byte :=
  let seen := (local_.bind (findExt s)).bind fun x => (extRun s x).bind fun u =>
    match rider with
    | some r => if u.reader r then some (x, u) else none
    | none => some (x, u)
  match seen with
  | none => leBytes 2 index ++ zeros 46
  | some (x, u) =>
    leBytes 2 index ++ [u.flags, BitVec.ofNat 8 (x.fenced.toNat * 2 + x.live.toNat)] ++
      leBytes 4 (if u.lapped then x.latest.toNat else 0) ++ wordBytes u.readers ++ wordBytes u.writers ++
      leBytes 4 (lossEntries s rider x.idx) ++ leBytes 4 (tierPages s.store x.idx .hbm) ++
      leBytes 4 (tierPages s.store x.idx .lpddr) ++ leBytes 4 (tierPages s.store x.idx .flash) ++ zeros 8

def bodyExtentQuery : Body := fun c s =>
  if !runForm (c.p 0) 1024 || bits (c.p 0) 32 32 ≠ 0 then Eff.stat .badParam s
  else
    let rider := match c.h.src with | .queue _ => some c.h.r | _ => none
    let is := seqFrom (runFirst (c.p 0)) (runCount (c.p 0))
    Eff.data .ok 0 (is.flatMap fun i => queryEntry s rider i (localIdx s c.h.surrogate i)) s

def execExtentQuery (c : Cmd) (s : State) : Out State := .next (runPacket 0x102 c bodyExtentQuery s)

/-! ### `LOSS_ACK` (R126) -/

/-- An extent of this module belongs to the side that a command names: the twin's with the surrogate flag (R291). -/
def sideExt (s : State) (surr : Bool) (idx : Nat) : Bool :=
  match findExt s idx with | some x => x.mirrorOf.isSome == surr | none => false

def lossBytes (s : State) (e : Loss) : List Byte :=
  leBytes 8 (nameLine s e.line) ++ leBytes 4 e.seq ++ leBytes 2 e.agent.toNat ++ leBytes 2 e.cause.toNat

/-- Highest `SEQ` of a set of entries, 0xFFFF_FFFF for none. -/
def topSeq (es : List Loss) : Nat := match es.getLast? with | some e => e.seq | none => 0xFFFFFFFF

/-- The rider's entries on a side, and on one extent. -/
def riderLosses (s : State) (r : BitVec 6) (surr : Bool) : List Loss :=
  (lossOf s r).ents.filter fun e => sideExt s surr (extentOf e.line)

def extLosses (s : State) (r : BitVec 6) (idx : Nat) : List Loss :=
  (lossOf s r).ents.filter fun e => extentOf e.line == idx

/-- The rider's fenced extents. -/
def fencedExts (s : State) (r : BitVec 6) (surr : Bool) : List Extent :=
  s.store.extents.filter fun x => x.fenced && x.mirrorOf.isSome == surr && (extRun s x).any (·.reader r)

def fencedBytes (s : State) (r : BitVec 6) (x : Extent) : List Byte :=
  leBytes 2 x.name ++ zeros 2 ++ leBytes 4 x.unlisted ++ leBytes 4 (topSeq (extLosses s r x.idx)) ++ zeros 4

/-- Mode 1: acknowledge an extent's losses and lift its fence. -/
def ackExt (s : State) (r : BitVec 6) (idx through : Nat) (accept : Bool) : Eff :=
  match findExt s idx with
  | none => Eff.stat .revoked s
  | some x =>
    if !(extRun s x).any (·.reader r) then Eff.stat .revoked s
    else if !x.fenced then Eff.ok s
    else
      let es := extLosses s r idx
      if (x.unlisted ≠ 0 && !accept) || (!es.isEmpty && through < topSeq es) then Eff.stat .badParam s
      else
        let l := lossOf s r
        Eff.ok (updExt (setLoss { l with ents := dropIf l.ents fun e => extentOf e.line == idx } s) idx fun x =>
          { x with fenced := false, unlisted := 0 })

def bodyLossAck : Body := fun c s =>
  let p := c.p 0
  let r := c.h.r
  let seq := bits (c.p 1) 0 32
  let n := bits p 32 13
  if bits p 1 7 ≠ 0 || bits p 9 7 ≠ 0 || bits p 30 2 ≠ 0 || bits p 45 19 ≠ 0 || bits (c.p 1) 32 32 ≠ 0 then Eff.stat .badParam s
  else if !bit p 0 then
    if n = 0 || 4096 < n then Eff.stat .badParam s
    else
      let es := riderLosses s r c.h.surrogate
      let sel := (es.filter fun e => decide (seq ≤ e.seq)).take n
      Eff.data .ok (BitVec.ofNat 64 (topSeq es))
        (sel.flatMap (lossBytes s) ++ (fencedExts s r c.h.surrogate).flatMap (fencedBytes s r)) s
  else match localIdx s c.h.surrogate (bits p 16 14) with
    | none => Eff.stat .revoked s
    | some idx => ackExt s r idx seq (bit p 8)

def execLossAck (c : Cmd) (s : State) : Out State := .next (runPacket 0x103 c bodyLossAck s)

end Sys2Proof.Machine
end

