-- ==== Sys2Proof/Machine/FabricBase.lean ====
section
/-! DEFINITION. The sending side of the fabric (chapter 14): paths and ports (R254, R262), sequenced stores and their
channels (R258, R263), loads and gateway frames and block reads (R262, R265, R266). -/

namespace Sys2Proof.Machine

def portAt (s : State) (p : Nat) : FPort := s.fab.ports.getD p FPort.off

def updPort (p : Nat) (f : FPort → FPort) (s : State) : State := { s with fab.ports := updAt s.fab.ports p f }

/-- An OXF port (R252). -/
def FPort.oxf (p : FPort) : Bool := p.mode = 1 || p.mode = 2

/-- A port carries traffic: up and not fenced. -/
def portUp (s : State) (p : Nat) : Bool := (portAt s p).up && !unitFenced s (unitPort p)

/-- The module that serves a module number: the twin of one that was taken over (R290). -/
def servedBy (s : State) (m : Nat) : Nat := ((s.redirect.find? (·.1.toNat == m)).map (·.2.toNat)).getD m

/-- The ports that reach a module of this peloton (R255): its type 0x5 entry, else every OXF port that is no gateway. -/
def pathPorts (s : State) (n : Nat) : List Nat :=
  let m := servedBy s n
  match (myRoutes s).find? fun x => x.type = 5 && bits x.w0 0 8 == m with
  | some x => (List.range 24).filter fun p => bit x.w1 p
  | none => (List.range 24).filter fun p => (portAt s p).oxf && !(portAt s p).gateway

/-- The type 0x4 entry of a peloton. -/
def pelotonRoute (s : State) (p : Nat) : Option Route := (myRoutes s).find? fun x => x.type = 4 && bits x.w0 0 8 == p

def gatePorts (s : State) (p : Nat) : List Nat :=
  match pelotonRoute s p with
  | some x => (List.range 24).filter fun i => bit x.w1 i
  | none => []

/-- The up port of a mask that an offset's hash chooses (R262). -/
def choosePort (s : State) (ports : List Nat) (off : Nat) : Option (Fin 24) :=
  let up := ports.filter (portUp s)
  match up with
  | [] => none
  | _ => (up[Config.portHash (off / 64) up.length % up.length]?).map fun p => Fin.ofNat 24 p

/-- The port for a destination module in a peloton. -/
def portFor (s : State) (peloton m off : Nat) : Option (Fin 24) :=
  choosePort s (if peloton = s.peloton then pathPorts s m else gatePorts s peloton) off

/-! ### Sources and channels (R258) -/

/-- The 24-bit source of an engine source of this module. -/
def engineSource (s : State) (n : Nat) : BitVec 24 := BitVec.ofNat 24 (s.me % 64 * 2 ^ 17 + n % 2 ^ 17)

/-- Sources: a tile context, a stream, an operation of the module. -/
def ctxSource (s : State) (t : BitVec 10) (c : BitVec 4) : BitVec 24 := engineSource s (t.toNat * 16 + c.toNat)
def streamSource (s : State) (t : BitVec 10) (n : BitVec 5) : BitVec 24 := engineSource s (2 ^ 14 + t.toNat * 32 + n.toNat)
def opSource (s : State) (id : Nat) : BitVec 24 := engineSource s (2 ^ 16 + id % 2 ^ 16)

/-- The address of the current beat's destination, or operand A. -/
def EngOp.here (o : EngOp) : Word :=
  match o.kind with
  | .reduce _ _ outf kind _ => o.dst + BitVec.ofNat 64 (sideBytes (bit kind 1) outf o.next)
  | _ => o.dst + BitVec.ofNat 64 o.next

def findChan (s : State) (source : BitVec 24) (peloton dst : Nat) : Option Chan :=
  s.fab.tx.find? fun c => c.source = source && c.peloton.toNat == peloton && c.dst.toNat == dst

/-- A channel on which nothing has been sent yet. -/
def Chan.open_ (source : BitVec 24) (peloton : BitVec 8) (dst : BitVec 6) : Chan :=
  { source := source, peloton := peloton, dst := dst, next := 0, cover := 0, unacked := [], closed := false, fenced := false
    discard := false }

def setChan (c : Chan) (s : State) : State :=
  { s with fab.tx :=
      dropIf s.fab.tx (fun x => x.source = c.source && x.peloton = c.peloton && x.dst = c.dst) ++ [c] }

/-- What became of a store given to the fabric. -/
inductive SendRes where
  | sent
  /-- the sender's limit of 4,096, or no window free: it waits -/
  | wait
  | fail (st : Status)
deriving DecidableEq, Repr

/-- The epoch a request to a peloton carries (R266). -/
def epochFor (s : State) (peloton : Nat) : BitVec 32 :=
  if peloton = s.peloton then epochNow s
  else match pelotonRoute s peloton with
    | some x => BitVec.ofNat 32 (bits x.w1 32 32)
    | none => epochNow s

/-- Bytes of a record in a gateway frame (notes/assumptions/34.md). -/
def recordBytes (p : StorePkt) : Nat := 32 + p.data.length

/-- Send a frame that has closed. -/
def closeFrame (f : GFrame) (s : State) : State :=
  let s := { s with fab.gframes := dropIf s.fab.gframes fun g => g.peloton = f.peloton && g.dst = f.dst }
  if f.records.isEmpty then s
  else emit (.gatewayFrame f.peloton f.dst (portFor s f.peloton.toNat f.dst.toNat 0) f.records) s

/-- Pack a store into the frame for its module (R265): the frame closes when it is full or the store is flagged. -/
def packRecord (peloton dst : Nat) (p : StorePkt) (s : State) : State :=
  let here (g : GFrame) : Bool := g.peloton.toNat == peloton && g.dst.toNat == dst
  let f := (s.fab.gframes.find? here).getD
    { peloton := BitVec.ofNat 8 peloton, dst := BitVec.ofNat 6 dst, bytes := 0, records := [] }
  let (f, s) :=
    if 65536 < f.bytes + recordBytes p then ({ f with bytes := 0, records := [] }, closeFrame f s) else (f, s)
  let f := { f with bytes := f.bytes + recordBytes p, records := f.records ++ [p] }
  if p.flagged || decide (65536 ≤ f.bytes) then closeFrame f s
  else { s with fab.gframes := dropIf s.fab.gframes here ++ [f] }

/-- Put a packet on the wire. -/
def sendPkt (peloton dst : Nat) (port : Option (Fin 24)) (p : StorePkt) (s : State) : State :=
  if peloton = s.peloton then emit (.store (BitVec.ofNat 6 dst) port p) s else packRecord peloton dst p s

/-- Send a store to another module: numbered, and kept until it is acknowledged (R258). A channel closed by the
end-to-end limit refuses stores until the source has fenced (R263). -/
def sendStore (source : BitVec 24) (peloton dst : Nat) (rider : BitVec 6) (opa : Word) (data : List Byte) (flagged : Bool)
    (done : Option (BitVec 10 × BitVec 4 × Nat)) (s : State) : SendRes × State :=
  let c := (findChan s source peloton dst).getD (Chan.open_ source (BitVec.ofNat 8 peloton) (BitVec.ofNat 6 dst))
  if c.closed && !c.fenced then (.fail .timeout, s)
  else if 4096 ≤ c.unacked.length then (.wait, s)
  else
    let c := if c.closed then { c with closed := false, fenced := false, discard := false, cover := c.next } else c
    let p : StorePkt :=
      { source := source, epoch := epochFor s peloton, seq := c.next
        lowest := (match c.unacked with | u :: _ => u.pkt.seq | [] => c.next), rider := rider, opa := opa, data := data
        flagged := flagged, coverFrom := c.cover, peloton := BitVec.ofNat 8 s.peloton }
    let port := portFor s peloton dst (opaOffset opa)
    let c := { c with
      next := c.next + 1
      cover := if flagged then c.next + 1 else c.cover
      unacked := c.unacked ++ [{ pkt := p, port := port, done := done }] }
    (.sent, sendPkt peloton dst port p (setChan c (meterFab rider data.length s)))

/-- A completed fence of a source (R150): it starts new cover ranges and lets closed channels open again (R259, R263). -/
def fenceDone (source : BitVec 24) (s : State) : State :=
  { s with fab.tx := updIf s.fab.tx (·.source = source) fun c =>
      { c with cover := if c.unacked.isEmpty then c.next else c.cover, fenced := c.closed } }

/-- Stores of a source that no acknowledgement covers yet. -/
def unackedOf (s : State) (source : BitVec 24) : Nat :=
  ((s.fab.tx.filter (·.source = source)).map (·.unacked.length)).sum

/-- A source with a record in a frame fences: the frame closes (R265). -/
def fenceFrames (source : BitVec 24) (s : State) : State :=
  (s.fab.gframes.filter fun g => g.records.any (·.source = source)).foldl (fun s g => closeFrame g s) s

/-! ### Loads (R262, R265) -/

/-- The aligned 4 KiB block of an OPA. -/
def blockOf (opa : Word) : Word := BitVec.ofNat 64 (opa.toNat / 4096 * 4096)

/-- Put a load on the wire: of a word or line, or of a block through a gateway. -/
def emitLoad (x : RLoad) (s : State) : State :=
  emit
    (if x.peloton.toNat = s.peloton then .load x.dst x.port x.txn x.rider (epochNow s) x.opa
    else .gatewayRead x.peloton x.dst x.port x.rider (epochFor s x.peloton.toNat) x.opa) s

/-- Send a load again, by the port that its destination has now; with none up it waits. -/
def resendLoad (x : RLoad) (s : State) : State :=
  let x := { x with port := portFor s x.peloton.toNat x.dst.toNat (opaOffset x.opa) }
  let s := { s with fab.loads := updIf s.fab.loads (·.txn = x.txn) fun _ => x }
  if x.port.isSome then emitLoad x s else s

/-- Loads that have been answered, or whose requester has ended. -/
def dropLoads (p : LoadBy → Bool) (s : State) : State := { s with fab.loads := dropIf s.fab.loads fun l => p l.by_ }

/-- Ask another module for the operand of an access or a beat; blocks already asked for at a gateway share their read. -/
def askRemote (peloton m : Nat) (r : BitVec 6) (opa : Word) (who : LoadBy) (s : State) : State :=
  let far := peloton != s.peloton
  let a := if far then blockOf opa else opa
  let x : RLoad :=
    { txn := s.fab.nextTxn, peloton := BitVec.ofNat 8 peloton, rider := r, dst := BitVec.ofNat 6 m, opa := a
      port := portFor s peloton m (opaOffset a), by_ := who }
  let shared := far && ((s.fab.gblocks.any fun g => g.block = a) || s.fab.loads.any fun l => l.opa = a)
  let s := { s with fab.loads := s.fab.loads ++ [x], fab.nextTxn := s.fab.nextTxn + 1 }
  if shared then s else emitLoad x s

/-- Ask a gateway for the block of a context's load to another peloton; loads to a block already asked for share its read
(R265). -/
def sendBlock (peloton : Nat) (r : BitVec 6) (opa : Word) (a : Access) (s : State) : State :=
  let b := blockOf opa
  let m := opaModule opa
  let port := portFor s peloton m (opaOffset b)
  if s.fab.gblocks.any (·.block = b) then
    { s with fab.gblocks := updIf s.fab.gblocks (·.block = b) fun g => { g with waiting := g.waiting ++ [a] } }
  else
    let shared := s.fab.loads.any fun l => l.opa = b
    let s1 := { s with
      fab.gblocks := s.fab.gblocks ++ [{ block := b, txn := s.fab.nextTxn, rider := r, port := port, waiting := [a] }]
      fab.nextTxn := s.fab.nextTxn + 1 }
    if shared then s1
    else emit (.gatewayRead (BitVec.ofNat 8 peloton) (BitVec.ofNat 6 m) port r (epochFor s peloton) b) s1

end Sys2Proof.Machine
end

