-- ==== Sys2Proof/Machine/Tile.lean ====
section
/-! DEFINITION. Issue and the accesses of tile contexts (chapters 8, 9): bundles (R168 to R171), loads, stores, atomics,
fences and signals (R149 to R158, R172, R173), and the walks behind them (R55, `WALK_READ_RETURN`). -/

namespace Sys2Proof.Machine

/-! ### Sparse tables: keys rising, zero entries left out -/

/-- The value of a key, `z` for a key that is not listed. -/
def sparseGet {α : Type} (z : α) (l : List (Nat × α)) (k : Nat) : α := (lookupK l k).getD z

/-- Replace the entries of keys `base, base + 1, …` by values. -/
def sparsePut {α : Type} [DecidableEq α] (z : α) (l : List (Nat × α)) (base : Nat) (vs : List α) : List (Nat × α) :=
  l.filter (fun e => decide (e.1 < base)) ++ ((seqFrom base vs.length).zip vs).filter (fun e => decide (e.2 ≠ z)) ++
    l.filter fun e => decide (base + vs.length ≤ e.1)

def Ctx.getV (k : Ctx) (r : BitVec 5) : List (BitVec 32) := (List.range 64).map fun i => sparseGet 0 k.v (r.toNat * 64 + i)

def Ctx.setV (k : Ctx) (r : BitVec 5) (v : List (BitVec 32)) : Ctx := { k with v := sparsePut 0 k.v (r.toNat * 64) v }

/-! ### Bundles (R168 to R171) -/

/-- The slots of a bundle, numbered in the order in which their operations take effect (R170, R178). -/
inductive BSlot where
  | memory
  | matrix
  | datapath
  | stream
  | control
deriving DecidableEq, Repr

def BSlot.all : List BSlot := [.memory, .matrix, .datapath, .stream, .control]

/-- The 128 bits of a bundle. -/
def Prog.bundle (p : Prog) (pc : Nat) : Nat := (p.code.getD (2 * pc) 0).toNat + (p.code.getD (2 * pc + 1) 0).toNat * 2 ^ 64

/-- The bits of a slot: all zero is a no-operation (R170). -/
def Prog.slotBits (p : Prog) (pc : Nat) (z : BSlot) : Nat :=
  let b := p.bundle pc
  match z with
  | .memory => b / 2 ^ 72 % 2 ^ 40
  | .matrix => b / 2 ^ 48 % 2 ^ 24
  | .datapath => b / 2 ^ 16 % 2 ^ 32
  | .stream => b % 2 ^ 16
  | .control => b / 2 ^ 112

/-- The slots of a bundle that hold an operation. -/
def Prog.slots (p : Prog) (pc : Nat) : List BSlot := BSlot.all.filter fun z => p.slotBits pc z != 0

/-- The next bundle that holds an operation: a bundle of no-operations only moves the program counter. -/
def Prog.skip (p : Prog) (pc : Nat) : Nat :=
  (((List.range (p.bundles - pc)).find? fun i => p.bundle (pc + i) != 0).map (pc + ·)).getD (max pc p.bundles)

/-- A bundle ends: its results are written and the program counter moves. -/
def Ctx.endBundle (k : Ctx) : Ctx :=
  let k := k.ws.foldl (fun k w => k.setS w.1 w.2) k
  let k := k.wv.foldl (fun k w => k.setV w.1 w.2) k
  { k with
    bpc := k.pc, pc := k.jump.getD (k.pc + 1), jump := none, mid := false, ws := [], wv := [], bundle := [], turn := false
    ends := none }

/-- Leave a wait without acquiring; the program counter stays on its bundle (R166). -/
def leaveWait (t : BitVec 10) (c : BitVec 4) (s : State) : State :=
  match findCtx s t c with
  | some k =>
    let out (s : State) : State := updCtx t c (fun k => { k with block := .none, pc := k.bpc }) s
    match k.block with
    | .sync _ _ _ _ _ => out { s with sync.waits := dropIf s.sync.waits (·.who == .ctx t c) }
    | .stream _ _ => out s
    | .storeQueue => updCtx t c (fun k => { k with block := .none }) s
    | _ => s
  | none => s

/-- The running context stands at its next bundle that holds an operation; one that reaches the end of its program faults
before it issues (R171). -/
def progEnd (t : BitVec 10) : Nat → State → State
  | 0, s => s
  | n + 1, s =>
    match findTile s t with
    | none => s
    | some x => match x.prog, x.ctxs.findIdx? (·.st = .running) with
      | some p, some i =>
        let c := BitVec.ofNat 4 i
        let pc := ((x.ctxs[i]?).map (·.pc)).getD 0
        if p.bundles ≤ p.skip pc then progEnd t n (ctxFault t c p.bundles .badParam 0 0 0 0 s)
        else if p.skip pc = pc then s
        else updCtx t c (fun k => { k with pc := p.skip pc }) s
      | _, _ => s

/-- Cycles that an interlock or a bank conflict holds a bundle (R171, R178): they depend on the tile's cycles, which the model
does not count (notes/assumptions/124.md). -/
def stallCycles (t : BitVec 10) (s : State) : State :=
  let (n, s) := takeFree s
  updTile t (fun x => { x with stall := bumpSat x.stall (n.toNat % 2 ^ 32) }) s

def bankCycles (t : BitVec 10) (s : State) : State :=
  let (n, s) := takeFree s
  updTile t (fun x => { x with bank := bumpSat x.bank (n.toNat % 2 ^ 16) }) s

/-- The operations of a bundle have issued: the context goes on, or takes the state that R169 gives. -/
def endIssue (a : At) (s : State) : State :=
  match findCtx s a.tile a.ctx with
  | none => s
  | some k =>
    let st : CtxSt := match k.ends with
      | some e => e
      | none => if k.block ≠ .none then .blocked else if k.turn then .ready else .running
    progEnd a.tile 17 (setCtxSt a.tile a.ctx st (updCtx a.tile a.ctx Ctx.endBundle (stallCycles a.tile s)))

/-- What one operation of a bundle makes of the state. -/
inductive SlotRes where
  | done (s : State)
  /-- an interlock holds the bundle (R171) -/
  | held
  /-- a reserved encoding, or an operand field that names nothing the context may use: no slot of the bundle takes effect
  (R171) -/
  | bad

/-- An operation of a bundle, on the tile, its program and the context. -/
abbrev SlotFn := Tile → Prog → Ctx → State → SlotRes

/-- The operation fails as it issues; the other slots of its bundle still issue (R168, R196). -/
def slotFault (a : At) (k : Ctx) (st : Status) (s : State) : SlotRes := .done (ctxFault a.tile a.ctx k.pc st 0 0 0 0 s)

/-- The operation ends the context's turn. -/
def endTurn (a : At) (s : State) : State := updCtx a.tile a.ctx (fun k => { k with turn := true }) s

def block (a : At) (b : Block) (s : State) : State := endTurn a (updCtx a.tile a.ctx (fun k => { k with block := b }) s)

def putReg (t : BitVec 10) (c : BitVec 4) (r : BitVec 5) (v : Word) (s : State) : State := updCtx t c (fun k => k.putS r v) s

def opSize (z : BitVec 2) : Nat := 2 ^ z.toNat

/-- An address: a scalar register and a signed immediate (R172). -/
def Ctx.addr (k : Ctx) (a : AddrOp) : Word := k.getS a.base + a.imm.signExtend 64

/-! ### Translation for tiles and streams (R45, R55, R56) -/

def AccKind.writes : AccKind → Bool
  | .load _ _ _ => false
  | _ => true

/-- Translate for a tile or a stream. Translations of one client complete in issue order: a hit behind an outstanding miss
waits for it (R55). -/
def clientXlat (s : State) (cl : XClient) (r : BitVec 6) (va : Word) (write : Bool) (acc : Option Access) : XRes × State :=
  let v := va.toNat
  let wheel := clientWheel cl
  let mine := findWalk s cl va write (acc.map (·.ctx))
  let drop (s : State) : State := match mine with | some w => giveWalkers wheel 32 (dropWalk w.id s) | none => s
  let enter (hit : Bool) (out : Option WalkOut) (s : State) : State :=
    if mine.isSome then s
    else updWalk s.xlat.nextId (fun w => { w with out := out }) (queueWalk cl r va write hit 4 ((rootOf s r).getD 0) acc s)
  let form : Option WalkOut :=
    if 2 ^ 57 ≤ v then some (.fault 0x1 4) else if (rootOf s r).isNone then some (.fault 0x2 4) else none
  if unitFenced s (unitChainring wheel) then (.refused .fenced, drop s)
  else if walksAhead s cl mine then
    (.wait, enter (form.isNone && !unmapCovers s r v && (xlatHit s cl r v write).isSome) form s)
  else match form.orElse fun _ => mine.bind (·.out) with
    | some (.fault f l) => (.fault f l, drop s)
    | some (.leaf e l) => (.ok (leafOpa e v l), drop s)
    | none =>
      if unmapCovers s r v || mine.any (fun w => !w.hit) then (.wait, enter false none s)
      else match xlatHit s cl r v write with
        | some (opa, s) => (.ok opa, drop s)
        | none => match mine with
          | some w => (.wait, giveWalkers wheel 32 (updWalk w.id (fun w => { w with hit := false }) s))
          | none => (.wait, enter false none s)

/-- Translate for an access: again where its translation has completed and its entry still stands. -/
def accXlat (s : State) (a : Access) (r : BitVec 6) (va : Word) (write : Bool) : XRes × State :=
  match (if a.done then xlatHit s (.tile a.tile) r va.toNat write else none) with
  | some (opa, s) => (.ok opa, s)
  | none => clientXlat s (.tile a.tile) r va write (some a)

/-! ### Operand cache (R154, R180) -/

def cacheGet (x : Tile) (line : Nat) : Option (List Byte) := (x.cache.find? (·.va == line)).map (·.data)

/-- Use or allocate a line: the last in the list is the most recently used; 128 sets of 8 ways. -/
def cachePut (line : Nat) (data : List Byte) (x : Tile) : Tile :=
  let rest := dropIf x.cache (·.va == line)
  let mine := rest.filter fun l => l.va / 64 % 128 == line / 64 % 128
  let rest := if mine.length < 8 then rest else match mine with
    | l :: _ => rest.erase l
    | [] => rest
  { x with cache := rest ++ [{ va := line, data := data }] }

/-- Whether an access lies inside one line. -/
def oneLine (va : Word) (len : Nat) : Bool := decide (va.toNat % 64 + len ≤ 64)

/-! ### Failing accesses (R173, R196) -/

def rqTile (t : BitVec 10) (c : BitVec 4) (r : BitVec 6) (va : Word) : Rq :=
  { rider := r, op := none, source := srcTile t c, va := va }

/-- Store entries and signals that a context has queued (R169). -/
def Ctx.queued (k : Ctx) : Nat := k.stores.length + k.sigs.length

/-- After an entry has left the store queue: a context that waited for room, or for its fence, goes on. -/
def afterStores (t : BitVec 10) (c : BitVec 4) (s : State) : State :=
  match findCtx s t c with
  | none => s
  | some k => match k.block with
    | .storeQueue => if k.queued < 16 then makeReady t c s else s
    | .fence =>
      if k.stores.isEmpty then
        makeReady t c (updCtx t c (fun k => { k with refused := [] }) (fenceDone (ctxSource s t c) s))
      else s
    | _ => s

def dropStore (t : BitVec 10) (c : BitVec 4) (seq : Nat) (s : State) : State :=
  afterStores t c (updCtx t c (fun k => { k with stores := dropIf k.stores (·.seq == seq) }) s)

/-- A module as `Refused` numbers it: where a store at an OPA goes. -/
def dstOf (s : State) (opa : Word) : Nat :=
  match target s opa with
  | .module m => s.peloton * 256 + m
  | .peloton p => p * 256 + opaModule opa
  | _ => s.peloton * 256 + s.me

/-- The status a flagged store takes from the earliest store it covers that was not applied (R152). -/
def Ctx.covered (k : Ctx) (seq dst : Nat) : Option Status :=
  (k.refused.find? fun r => decide (r.seq < seq) && (r.dst.isNone || r.dst == some dst) && !r.told.contains dst).map (·.status)

/-- A flagged store to a module has been applied or refused: a later one covers only what follows it. -/
def Ctx.tell (k : Ctx) (seq dst : Nat) : Ctx :=
  { k with refused := updIf k.refused (fun r => decide (r.seq < seq)) fun r => { r with told := r.told ++ [dst] } }

/-- A store is refused: it completes without being applied, and its context faults with its program counter (R173). -/
def refuseStore (t : BitVec 10) (c : BitVec 4) (e : StoreEnt) (st : Status) (dst : Option Nat) (s : State) : State :=
  let s := updCtx t c (fun k =>
    if e.flagged then (if st = .misaligned then k else match dst with | some d => k.tell e.seq d | none => k)
    else { k with refused := sortBy (·.seq) (k.refused ++ [{ seq := e.seq, status := st, dst := dst, told := [] }]) }) s
  ctxFault t c e.pc st 0 e.va (BitVec.ofNat 64 (opaOffset e.opa)) 0 (dropStore t c e.seq s)

/-- A load or an atomic fails: its context faults. -/
def failAcc (a : Access) (st : Status) (off : Nat) (s : State) : State :=
  match findCtx s a.tile a.ctx with
  | some k => match k.block with
    | .access b _ =>
      if a.pc = b.pc && a.va = b.va then ctxFault a.tile a.ctx a.pc st 0 a.va (BitVec.ofNat 64 off) 0 (updCtx a.tile a.ctx (fun k => { k with block := .none }) s)
      else s
    | _ => s
  | none => s

/-! ### Stores leave the context (R149, R151, R258) -/

/-- A flagged store is 1, 2, 4 or 8 bytes inside one aligned word (R151). -/
def flaggedForm (va : Word) (len : Nat) : Bool :=
  decide (va.toNat % 8 + len ≤ 8) && (len == 1 || len == 2 || len == 4 || len == 8)

/-- Translate the context's stores in issue order; a store to another module is sent. `fuel` bounds the number of
stores. -/
def pumpStores (t : BitVec 10) (c : BitVec 4) : Nat → State → State
  | 0, s => s
  | n + 1, s =>
    match findCtx s t c, tileRider s t with
    | some k, some r => match k.stores.find? fun e => !e.ready with
      | none => s
      | some e =>
        let acc : Access := { tile := t, ctx := c, pc := e.pc, va := e.va, kind := .store e.data e.flagged, late := false, done := false }
        match clientXlat s (.tile t) r e.va true (some acc) with
        | (.wait, s) => s
        | (.refused st, s) => pumpStores t c n (refuseStore t c e st none s)
        | (.fault f l, s) =>
          pumpStores t c n (refuseStore t c e .translation none (xlatFault (tileWheel t) r (srcTile t c) e.va f l s))
        | (.ok opa, s) =>
          let e := { e with opa := opa, ready := true }
          let dst := some (dstOf s opa)
          let keep (remote : Bool) (s : State) : State :=
            updCtx t c (fun k => { k with stores := updIf k.stores (·.seq == e.seq) fun _ => { e with remote := remote } }) s
          let send (peloton m : Nat) (s : State) : State :=
            match (if e.flagged then k.covered e.seq (dstOf s opa) else none) with
            | some st => pumpStores t c n (refuseStore t c e st dst s)
            | none =>
              match sendStore (ctxSource s t c) peloton m r opa e.data e.flagged (some (t, c, e.seq)) s with
              | (.sent, s) => pumpStores t c n (keep true (if e.flagged then updCtx t c (·.tell e.seq (dstOf s opa)) s else s))
              | (.wait, s) => s
              | (.fail st, s) => pumpStores t c n (refuseStore t c e st dst s)
          if e.late then pumpStores t c n (keep false s)
          else if e.flagged && !flaggedForm opa e.data.length then pumpStores t c n (refuseStore t c e .misaligned dst s)
          else match target s opa with
            | .bad st =>
              pumpStores t c n (refuseStore t c e st dst (badOpa (rqTile t c r e.va) st opa s))
            | .reg => pumpStores t c n (refuseStore t c e .auth dst s)
            | .module m => send s.peloton m s
            | .peloton p => send p (opaModule opa) s
            | _ => pumpStores t c n (keep false s)
    | _, _ => s

/-- Cut a plain store into the parts it has in each line (R147). -/
def storeParts (va : Word) (data : List Byte) (flagged : Bool) : List (Word × List Byte) :=
  if flagged then [(va, data)]
  else
    let k := 64 - va.toNat % 64
    if data.length ≤ k then [(va, data)] else [(va, data.take k), (va + BitVec.ofNat 64 k, data.drop k)]

/-- `ST` and `ST.F`: the store enters the context's store queue. -/
def doStore (a : At) (k : Ctx) (va : Word) (data : List Byte) (flagged : Bool) (s : State) : SlotRes :=
  let late := closedTo s ((tileRider s a.tile).getD 0)
  let s := updTile a.tile (cacheDrop va.toNat data.length) s
  let s := (storeParts va data flagged).foldl (fun s p =>
    updCtx a.tile a.ctx (fun k =>
      let e : StoreEnt :=
        { seq := k.nextSeq, data := p.2, va := p.1, opa := 0, pc := k.pc, remote := false, flagged := flagged, ready := false,
          late := late }
      { k with stores := k.stores ++ [e], nextSeq := k.nextSeq + 1 }) s) s
  let s := if 16 ≤ k.queued + 1 then block a .storeQueue s else endTurn a s
  .done (pumpStores a.tile a.ctx 32 s)

/-! ### Loads and atomics -/

/-- Bytes of an access. -/
def AccKind.len : AccKind → Nat
  | .load n _ _ => n
  | .store d _ => d.length
  | .atom op _ => atomLen op

/-- The lines of an access and of a store meet. -/
def linesMeet (a n b m : Nat) : Bool :=
  overlaps (lineOf a) (lineOf (a + n - 1) + 64 - lineOf a) (lineOf b) (lineOf (b + m - 1) + 64)

/-- An earlier store of the context to a line of an access has not landed, by the address both name. -/
def storesAhead (k : Ctx) (va : Word) (len : Nat) : Bool :=
  k.stores.any fun e => linesMeet e.va.toNat e.data.length va.toNat len

/-- The same by where both lie (R149): an access waits until the earlier stores are translated, and for those to its lines. -/
def storesBefore (k : Ctx) (opa : Word) (len : Nat) : Bool :=
  k.stores.any fun e => !e.ready || linesMeet e.opa.toNat e.data.length opa.toNat len

/-- A load or an atomic leaves the tile: it is translated, and a load from another module is sent there. -/
def issueAcc (t : BitVec 10) (c : BitVec 4) (s : State) : State :=
  match findCtx s t c, tileRider s t with
  | some k, some r => match k.block with
    | .access a false =>
      if a.late || a.done then s else
      match clientXlat s (.tile t) r a.va a.kind.writes (some a) with
      | (.wait, s) => s
      | (.refused st, s) => failAcc a st 0 s
      | (.fault f l, s) => failAcc a .translation 0 (xlatFault (tileWheel t) r (srcTile t c) a.va f l s)
      | (.ok opa, s) =>
        let a := { a with done := true }
        let s := updCtx t c (fun k => { k with block := .access a false }) s
        let away (send : State → State) (s : State) : State :=
          match a.kind with
          | .atom op _ => failAcc a (if atomAligned op opa.toNat then .atomicRemote else .misaligned) (opaOffset opa) s
          | _ => send (updCtx t c (fun k => { k with block := .access a true }) s)
        match target s opa with
        | .module m => away (askRemote s.peloton m r opa (.ctx t c)) s
        | .peloton p => away (sendBlock p r opa a) s
        | _ => s
    | _ => s
  | _, _ => s

/-- Read the bytes of an access where they lie; every part in its line. -/
def accRead (s : State) (a : Access) (r : BitVec 6) (va len : Nat) : RdRes × State :=
  (piecesOf va len).foldl (fun acc p =>
    match acc.1 with
    | .data bs =>
      let s := acc.2
      match accXlat s a r (BitVec.ofNat 64 p.1) false with
      | (.wait, s) => (.wait, s)
      | (.refused st, s) => (.fail st, s)
      | (.fault f l, s) =>
        (.fail .translation, xlatFault (tileWheel a.tile) r (srcTile a.tile a.ctx) (BitVec.ofNat 64 p.1) f l s)
      | (.ok opa, s) =>
        if (findCtx s a.tile a.ctx).any fun k => storesBefore k opa p.2 then (.wait, s)
        else match target s opa with
        | .off o => match homeRead s (rqTile a.tile a.ctx r a.va) o p.2 with
          | (.data b, s) => (.data (bs ++ b), s)
          | x => x
        | .sync obj =>
          match syncRefusal s r obj with
          | some st => (.fail st, s)
          | none => (.data (bs ++ sliceB (wordBytes (syncVal s obj)) 0 p.2), s)
        | .reg => (.fail .auth, s)
        | .bad st => (.fail st, badOpa (rqTile a.tile a.ctx r a.va) st opa s)
        | _ => (.wait, s)
    | _ => acc) (.data [], s)

/-- A load's value reaches its register and its context goes on; `line` is the line to keep. -/
def endLoad (a : Access) (sd : BitVec 5) (bs : List Byte) (line : Option (List Byte)) (s : State) : State :=
  let s := match line with
    | some d =>
      if (findCtx s a.tile a.ctx).any (·.noFill) then s else updTile a.tile (cachePut (lineOf a.va.toNat) d) s
    | none => s
  makeReady a.tile a.ctx (putReg a.tile a.ctx sd (bytesWord bs) s)

/-- A cached load reads its whole line; one that crosses a line, or that reads a sync object (R194), goes uncached. -/
def localLoad (a : Access) (r : BitVec 6) (n : Nat) (sd : BitVec 5) (cached : Bool) (s : State) : State :=
  let sync := match (accXlat s a r a.va false).1 with
    | .ok opa => opaSpace opa == 2
    | _ => false
  let whole := cached && oneLine a.va n && !sync
  let lo := if whole then lineOf a.va.toNat else a.va.toNat
  match accRead s a r lo (if whole then 64 else n) with
  | (.wait, s) => s
  | (.fail st, s) => failAcc a st 0 s
  | (.data bs, s) =>
    if whole then endLoad a sd (sliceB bs (a.va.toNat - lo) n) (some bs) s else endLoad a sd bs none s

/-- An atomic at its home on this module (R118, R194). -/
def localAtom (a : Access) (r : BitVec 6) (op : AtomOp) (sd : BitVec 5) (s : State) : State :=
  let done (old : Word) (s : State) : State := makeReady a.tile a.ctx (putReg a.tile a.ctx sd old s)
  match accXlat s a r a.va true with
  | (.wait, s) => s
  | (.refused st, s) => failAcc a st 0 s
  | (.fault f l, s) => failAcc a .translation 0 (xlatFault (tileWheel a.tile) r (srcTile a.tile a.ctx) a.va f l s)
  | (.ok opa, s) =>
    if (findCtx s a.tile a.ctx).any fun k => storesBefore k opa (atomLen op) then s
    else if !(atomAcc op && opaSpace opa = 2) && !atomAligned op opa.toNat then failAcc a .misaligned (opaOffset opa) s
    else match target s opa with
      | .off o => match homeAtomic s (rqTile a.tile a.ctx r a.va) o op with
        | (.done old, s) => done old s
        | (.wait, s) => s
        | (.fail st, s) => failAcc a st o s
      | .sync obj =>
        if !(op.code.toNat ≤ 9 && op.size == 8) then failAcc a .badParam (opaOffset opa) s
        else match syncRefusal s r obj, atomRun op (wordBytes (syncVal s obj)) with
          | some st, _ => failAcc a st (opaOffset opa) s
          | none, some (old, new) => done old (syncWrite obj (bytesWord new) s)
          | none, none => failAcc a .badParam (opaOffset opa) s
      | .reg => failAcc a .auth 0 s
      | .bad st =>
        if otherModule s opa && opaMbz opa then failAcc a .atomicRemote (opaOffset opa) s
        else failAcc a st 0 (badOpa (rqTile a.tile a.ctx r a.va) st opa s)
      | _ => failAcc a .atomicRemote (opaOffset opa) s

end Sys2Proof.Machine
end

