-- ==== Sys2Proof/Machine/TileMem.lean ====
section
/-! DEFINITION. The memory slot of a tile (R172): loads and stores of the store, atomics, fences, acquires, signals and
waits, and the events that complete them (R148 to R158, R169, R193). -/

namespace Sys2Proof.Machine

/-! ### Loads, stores, atomics -/

/-- A load: a hit of the operand cache answers at once, anything else leaves the tile. A line with an injected error is
dropped and fetched again (R180, R322 point 0x03). -/
def loadOp (a : At) (cached : Bool) (size : BitVec 2) (sd : BitVec 5) (addr : AddrOp) (x : Tile) (p : Prog) (k : Ctx)
    (s : State) : SlotRes :=
  let va := k.addr addr
  let n := opSize size
  let line := lineOf va.toNat
  let hit := if cached && oneLine va n && !storesAhead k va n then cacheGet x line else none
  let drop := hit.isSome && (injMode s 0x03 (unitTile a.tile)).isSome
  let s := if drop then corrected 0x03 (unitTile a.tile) 0 (updTile a.tile (cacheDrop line 64) s) else s
  match (if drop then none else hit) with
  | some d =>
    .done (putReg a.tile a.ctx sd (bytesWord (sliceB d (va.toNat - line) n)) (updTile a.tile (cachePut line d) s))
  | none =>
    let acc : Access :=
      { tile := a.tile, ctx := a.ctx, pc := k.pc, va := va, kind := .load n sd cached, late := closedTo s p.rider, done := false }
    .done (issueAcc a.tile a.ctx (updCtx a.tile a.ctx (fun k => { k with noFill := false }) (block a (.access acc false) s)))

def storeOp (a : At) (flagged : Bool) (size : BitVec 2) (ss : BitVec 5) (addr : AddrOp) (_x : Tile) (_p : Prog) (k : Ctx)
    (s : State) : SlotRes :=
  doStore a k (k.addr addr) (leBytes (opSize size) (k.getS ss).toNat) flagged s

/-- The atomic of a code, size and operands; the addend format of `ACC_ADD` comes with operand b
(notes/assumptions/19.md). -/
def tileAtom (code : BitVec 4) (size : BitVec 2) (va vb : Word) : AtomOp :=
  { code := code, size := if 11 ≤ code.toNat then 64 else opSize size, a := va, b := vb
    fmt := if code = 0xB then vb.setWidth 4 else 0 }

/-- An atomic: codes 0xE and 0xF are undefined encodings (R171). -/
def atomOp (a : At) (code : BitVec 4) (size : BitVec 2) (sd : BitVec 5) (addr : AddrOp) (sa sb : BitVec 5) (_x : Tile)
    (p : Prog) (k : Ctx) (s : State) : SlotRes :=
  if 14 ≤ code.toNat then .bad
  else
    let va := k.addr addr
    let op := tileAtom code size (k.getS sa) (k.getS sb)
    let acc : Access :=
      { tile := a.tile, ctx := a.ctx, pc := k.pc, va := va, kind := .atom op sd, late := closedTo s p.rider, done := false }
    let s := updTile a.tile (cacheDrop va.toNat (atomLen op)) s
    .done (issueAcc a.tile a.ctx (block a (.access acc false) s))

/-- The data of a load from another module: the bytes asked for, or the line they lie in. -/
def remoteLoad (a : Access) (n : Nat) (sd : BitVec 5) (cached : Bool) (ret : RemoteRet) (s : State) : State :=
  if ret.status ≠ .ok then failAcc a ret.status 0 s
  else if ret.data.length = 64 && oneLine a.va n then
    endLoad a sd (sliceB ret.data (a.va.toNat % 64) n) (if cached then some ret.data else none) s
  else endLoad a sd (sliceB ret.data 0 n) none s

/-- `LOAD_DATA_RETURN`: the access of a blocked context is performed at its home on this module, or the answer of another
module arrives. -/
def loadReturn (t : BitVec 10) (c : BitVec 4) (remote : Option RemoteRet) (s : State) : State :=
  match findCtx s t c, tileRider s t with
  | some k, some r => match k.block with
    | .access a true => match remote, a.kind with
      | some ret, .load n sd cached =>
        remoteLoad a n sd cached ret
          (dropLoads (· = .ctx t c) s)
      | _, _ => s
    | .access a false =>
      if a.late then s
      else
        let s := issueAcc t c s
        match (match findCtx s t c with | some k => k.block | none => Block.none) with
        | .access a false => if !a.done then s else match a.kind with
          | .load n sd cached => localLoad a r n sd cached s
          | .atom op sd => localAtom a r op sd s
          | .store _ _ => s
        | _ => s
    | _ => s
  | _, _ => s

def execLoadDataReturn (t : BitVec 10) (c : BitVec 4) (remote : Option RemoteRet) (s : State) : Out State :=
  .next (whenUp s (loadReturn t c remote))

/-! ### Landing of local stores (R148, R149, R151, R152, R194) -/

/-- A store of the context to this module, named by its place in issue order, reaches its home: stores to one line in issue
order (R149), a flagged store after every earlier one (R151). `status` is the answer of a memory controller that does not
answer in time or cannot read. -/
def landStore (t : BitVec 10) (c : BitVec 4) (seq : Nat) (status : Status) (s : State) : State :=
  let s := pumpStores t c 32 s
  match findCtx s t c, tileRider s t with
  | some k, some r => match k.stores.find? fun e => e.seq == seq && e.ready && !e.remote with
    | none => s
    | some e =>
      let me := s.peloton * 256 + s.me
      let earlier := k.stores.any fun o => decide (o.seq < seq) && !o.remote &&
        (e.flagged || linesMeet o.opa.toNat o.data.length e.opa.toNat e.data.length)
      if e.late || earlier then s else
      let landed (s : State) : State := dropStore t c seq (if e.flagged then updCtx t c (·.tell seq me) s else s)
      let refuse (st : Status) : State → State := refuseStore t c e st (some me)
      match (if e.flagged then k.covered seq me else none) with
      | some st => refuse st s
      | none =>
        if status = .timeout || status = .uncorrectable then refuse status s
        else match target s e.opa with
          | .off o => match homeWrite s (rqTile t c r e.va) o (allBytes e.data) false with
            | (.done, s) => landed s
            | (.wait, s) => s
            | (.fail st, s) => refuse st s
          | .sync obj =>
            if e.data.length ≠ 8 then refuse .badParam s
            else match syncRefusal s r obj with
              | some st => refuse st s
              | none => landed (syncWrite obj (bytesWord e.data) s)
          | .bad st => refuse st s
          | _ => refuse .staleMap s
  | _, _ => s

def execStoreLandingAck (t : BitVec 10) (store : StoreRef) (status : Status) (s : State) : Out State :=
  .next (whenUp s (landStore t store.ctx store.seq status))

/-! ### `FENCE`, `ACQ` -/

/-- A fence waits for the context's stores; the frames that carry them are closed (R150, R265). -/
def fenceOp (a : At) (_x : Tile) (_p : Prog) (k : Ctx) (s : State) : SlotRes :=
  let src := ctxSource s a.tile a.ctx
  let s := fenceFrames src s
  if k.stores.isEmpty then .done (updCtx a.tile a.ctx (fun k => { k with refused := [] }) (fenceDone src s))
  else .done (block a .fence s)

/-- An acquire drops the lines of its range; a context has no earlier load outstanding when it issues (R155). -/
def acqOp (a : At) (sa sb : BitVec 5) (_x : Tile) (_p : Prog) (k : Ctx) (s : State) : SlotRes :=
  .done (updTile a.tile (fun x => x.acquire (k.getS sa).toNat (k.getS sb).toNat) s)

/-! ### Signals and waits (R156, R193) -/

def signalOp (a : At) (add : Bool) (obj : BitVec 14) (ss : BitVec 5) (_x : Tile) (_p : Prog) (k : Ctx) (s : State) : SlotRes :=
  let g : Signal := { seq := k.nextSeq, obj := obj, add := add, value := k.getS ss, pc := k.pc }
  let s := updCtx a.tile a.ctx (fun k => { k with sigs := k.sigs ++ [g], nextSeq := k.nextSeq + 1 }) s
  .done (if 16 ≤ k.queued + 1 then block a .storeQueue s else endTurn a s)

/-- `SIGNAL_APPLY`: the context's oldest signal reaches the bank once its earlier stores have landed. -/
def applySignal (t : BitVec 10) (c : BitVec 4) (s : State) : State :=
  match findCtx s t c, tileRider s t with
  | some k, some r => match k.sigs with
    | [] => s
    | g :: rest =>
      if k.stores.any fun e => decide (e.seq < g.seq) then s
      else if k.refused.any fun e => decide (e.seq < g.seq) then
        -- an earlier store will never land, so the signal is never applied (R156)
        afterStores t c (updCtx t c (fun k => { k with sigs := rest }) s)
      else
        let s := updCtx t c (fun k => { k with sigs := rest }) s
        let obj := g.obj.toNat
        match syncRefusal s r obj with
        | some st => ctxFault t c g.pc st 0 0 0 0 (afterStores t c s)
        | none => afterStores t c (if g.add then syncAdd obj g.value s else syncWrite obj g.value s)
  | _, _ => s

def execSignalApply (t : BitVec 10) (c : BitVec 4) (s : State) : Out State := .next (whenUp s (applySignal t c))

/-- `WAIT`: the bank tests the condition at once; else the context blocks (R193). -/
def waitOp (a : At) (obj : BitVec 14) (cmp : BitVec 2) (ss sa sb sl sd : BitVec 5) (x : Tile) (p : Prog) (k : Ctx)
    (s : State) : SlotRes :=
  if 2 ≤ cmp.toNat then .bad
  else match syncRefusal s p.rider obj.toNat with
    | some st => slotFault a k st s
    | none =>
      let w : Wait := { who := .ctx a.tile a.ctx, obj := obj, eq := cmp = 1, value := k.getS ss, limit := k.getS sl }
      let base := (k.getS sa).toNat
      let len := (k.getS sb).toNat
      let _ := x
      if w.holds (syncVal s obj.toNat) then
        .done (endTurn a (putReg a.tile a.ctx sd 0 (updTile a.tile (fun x => x.acquire base len) s)))
      else
        .done (block a (.sync obj base len (k.getS sl).toNat sd) { s with sync.waits := s.sync.waits ++ [w] })

/-- The limit of a context's wait runs out: `Sd` receives 1 and nothing is acquired. -/
def waitExpires (t : BitVec 10) (c : BitVec 4) (s : State) : State :=
  match findCtx s t c with
  | some k => match k.block with
    | .sync _ _ _ limit _ =>
      if limit = 0 then s
      else endCtxWait t c false { s with sync.waits := dropIf s.sync.waits (·.who == .ctx t c) }
    | _ => s
  | none => s

def execWaitLimitExpiry (t : BitVec 10) (c : BitVec 4) (s : State) : Out State := .next (whenUp s (waitExpires t c))

end Sys2Proof.Machine
end

