-- ==== Sys2Proof/Machine/TileData.lean ====
section
/-! DEFINITION. The pannier (R177 to R179), its scalar and vector accesses, the packer (R189), exact accumulation (R190,
R191), and the scalar and control operations of a bundle (R168, R170). -/

namespace Sys2Proof.Machine

/-! ### The pannier -/

def pannierSize : Nat := 4194304

/-- Bytes that the tile itself writes: the regions' tags then name no stream (R179). -/
def pannierWrite (off : Nat) (bs : List Byte) (x : Tile) : Tile :=
  { x with
    pannier := memWriteN x.pannier off bs
    ptags := dropIf x.ptags fun g => overlaps (g.region * 4096) 4096 off (off + bs.length) }

/-- A stream beat writes the pannier from a store offset: the region's tag names the stream, and the store offset that the
region's first byte would have, modulo 2^48 (R179). -/
def pannierBeat (n : BitVec 5) (off store : Nat) (bs : List Byte) (x : Tile) : Tile :=
  let region := off / 4096
  { x with
    pannier := memWriteN x.pannier off bs
    ptags := dropIf x.ptags (·.region == region) ++
      [{ region := region, stream := some n, off := (store + 2 ^ 48 - off % 4096) % 2 ^ 48 }] }

/-- A read of the pannier meets an error that an injection makes: none, a corrected one, or an uncorrectable one (R177). -/
def pannierEcc (t : BitVec 10) (s : State) : Bool × State :=
  if injBad s 0x01 (unitTile t) then (true, s)
  else if injMode s 0x01 (unitTile t) = some 0 then (false, corrected 0x01 (unitTile t) 0 s)
  else (false, s)

/-- The banks of a range of the pannier (R177). -/
def banksOf (off n : Nat) : List Nat :=
  if 2048 ≤ n then List.range 32 else ((seqFrom (off / 64) ((off % 64 + n + 63) / 64)).map (· % 32)).dedup

/-! ### What the feeds read (R182) -/

def isMx (code : Nat) : Bool := decide (code ∈ [6, 7, 8])

/-- Bytes of a row of 64 elements. -/
def rowLen (code gear : Nat) : Nat :=
  match fmtOf code with
  | some f => if isMx code then 2 * (4 * f.width + 1) else blockBytes f gear
  | none => 64

/-- The fields of an `MMA` descriptor. -/
structure MmaDesc where
  aBase  : Nat
  bBase  : Nat
  panels : Nat
  aFmt   : Nat
  aGear  : Nat
  bFmt   : Nat
  bGear  : Nat
  clear  : Bool
  rsv    : Nat

def mmaDesc (d0 d1 : Word) : MmaDesc :=
  { aBase := bits d0 42 22, bBase := bits d0 20 22, panels := bits d0 0 20, aFmt := bits d1 60 4, aGear := bits d1 58 2
    bFmt := bits d1 54 4, bGear := bits d1 52 2, clear := bit d1 51, rsv := bits d1 0 51 }

/-- The banks that feed A and feed B of an `MMA` read. -/
def MmaDesc.banksA (d : MmaDesc) : List Nat := banksOf d.aBase (d.panels * 32 * rowLen d.aFmt d.aGear)
def MmaDesc.banksB (d : MmaDesc) : List Nat := banksOf d.bBase (d.panels * 32 * rowLen d.bFmt d.bGear)

/-- A scheduled access meets a bank that a feed may be reading: the cycles it loses count in `BANK_CONFLICTS` (R178). -/
def bankMeets (t : BitVec 10) (off n : Nat) (s : State) : State :=
  let fed := match findTile s t with
    | some x => x.mmaq.flatMap fun (m : MmaOp) => (mmaDesc m.d0 m.d1).banksA ++ (mmaDesc m.d0 m.d1).banksB
    | none => []
  if (banksOf off n).any fed.contains then bankCycles t s else s

/-! ### Accesses of the memory slot (R172, R177) -/

/-- A pannier access of `n` bytes: inside the pannier, aligned as the operation asks; a read meets the ECC. -/
def pannierOp (a : At) (k : Ctx) (addr : AddrOp) (n align : Nat) (read : Bool) (s : State) (f : Nat → State → State) : SlotRes :=
  let off := (k.addr addr).toNat
  if pannierSize < off + n then slotFault a k .badParam s
  else if off % align ≠ 0 then slotFault a k .misaligned s
  else
    let s := bankMeets a.tile off n s
    if !read then .done (f off s)
    else match pannierEcc a.tile s with
      | (true, s) => .done (ctxFaultAt 0x01 a.tile a.ctx k.pc .uncorrectable 0 (k.addr addr) 0 0 s)
      | (false, s) => .done (f off s)

def ldPSlot (a : At) (size : BitVec 2) (sd : BitVec 5) (addr : AddrOp) : SlotFn := fun x _ k s =>
  pannierOp a k addr (opSize size) 1 true s fun off s =>
    putReg a.tile a.ctx sd (bytesWord (memReadN x.pannier off (opSize size))) s

def stPSlot (a : At) (size : BitVec 2) (ss : BitVec 5) (addr : AddrOp) : SlotFn := fun _ _ k s =>
  pannierOp a k addr (opSize size) 1 false s fun off s =>
    updTile a.tile (pannierWrite off (leBytes (opSize size) (k.getS ss).toNat)) s

/-- A vector result waits for the end of its bundle (R170). -/
def putVec (a : At) (r : BitVec 5) (v : List (BitVec 32)) (s : State) : State :=
  updCtx a.tile a.ctx (fun k => { k with wv := k.wv ++ [(r, v)] }) s

def lanesBytes (v : List (BitVec 32)) : List Byte := v.flatMap fun x => leBytes 4 x.toNat

/-- `VPACK`: 64 lanes become one block (R189). -/
def vpackOp (a : At) (vs : BitVec 5) (addr : AddrOp) (fmt : BitVec 4) (gear : BitVec 2) (_x : Tile) (_p : Prog) (k : Ctx)
    (s : State) : SlotRes :=
  if !(decide (1 ≤ fmt.toNat) && decide (fmt.toNat ≤ 5)) || !fmtGearOk (BitVec.ofNat 8 (fmt.toNat * 16 + gear.toNat)) then
    .bad
  else match fmtOf fmt.toNat with
    | none => .bad
    | some f =>
      let b := packBlock fmt.toNat gear.toNat f (k.getV vs)
      pannierOp a k addr b.length 8 false s fun off s => updTile a.tile (pannierWrite off b) s

def vldPSlot (a : At) (vd : BitVec 5) (addr : AddrOp) : SlotFn := fun x _ k s =>
  pannierOp a k addr 256 64 true s fun off s => putVec a vd (words32 64 (memReadN x.pannier off 256)) s

def vstPSlot (a : At) (vs : BitVec 5) (addr : AddrOp) : SlotFn := fun _ _ k s =>
  pannierOp a k addr 256 64 false s fun off s => updTile a.tile (pannierWrite off (lanesBytes (k.getV vs))) s

/-! ### Exact accumulator registers (R190, R191) -/

def ownsXa (p : Prog) (c : BitVec 4) (r : Nat) : Bool := p.xaOwner[r]? == some c

def xaGet (x : Tile) (r : Nat) : List Acc := (List.range 64).map fun i => sparseGet accZero x.xa (r * 64 + i)
def xaPut (r : Nat) (v : List Acc) (x : Tile) : Tile := { x with xa := sparsePut accZero x.xa (r * 64) v }

def xaSaveOp (a : At) (r : BitVec 3) (addr : AddrOp) (x : Tile) (p : Prog) (k : Ctx) (s : State) : SlotRes :=
  if !ownsXa p a.ctx r.toNat then .bad
  else pannierOp a k addr 4096 64 false s fun off s =>
    updTile a.tile (pannierWrite off ((xaGet x r.toNat).flatMap Acc.bytes)) s

def xaMergeOp (a : At) (r : BitVec 3) (addr : AddrOp) (x : Tile) (p : Prog) (k : Ctx) (s : State) : SlotRes :=
  if !ownsXa p a.ctx r.toNat then .bad
  else pannierOp a k addr 4096 64 true s fun off s =>
    let objs := (chunksB 64 64 (memReadN x.pannier off 4096)).map accOf
    updTile a.tile (xaPut r.toNat (List.zipWith Acc.merge (xaGet x r.toNat) objs)) s

/-! ### Scalar and control operations (R168, R170) -/

def scalarSlot (a : At) (code : BitVec 8) (sd sa sb : BitVec 5) : SlotFn := fun _ _ k s =>
  .done (putReg a.tile a.ctx sd (Config.scalarOp code (k.getS sa) (k.getS sb)) s)

def setJump (a : At) (target : BitVec 14) (s : State) : State :=
  updCtx a.tile a.ctx (fun k => { k with jump := some target.toNat }) s

def branchSlot (a : At) (code : BitVec 4) (sa : BitVec 5) (target : BitVec 14) : SlotFn := fun _ _ k s =>
  .done (if Config.branchTaken code (k.getS sa) then setJump a target s else s)

def loopSlot (a : At) (code : BitVec 4) (sa : BitVec 5) (target : BitVec 14) : SlotFn := fun _ _ k s =>
  let r := Config.loopStep code (k.getS sa) k.loop
  let s := updCtx a.tile a.ctx (fun k => { k with loop := r.1 }) s
  .done (if r.2 then setJump a target s else s)

def yieldSlot (a : At) : SlotFn := fun _ _ _ s => .done (endTurn a s)

/-- `HALT`: the context is idle once its bundle ends, or faulted where another slot of it failed. -/
def haltSlot (a : At) : SlotFn := fun _ _ _ s =>
  .done (endTurn a (updCtx a.tile a.ctx (fun k => { k with ends := some (k.ends.getD .idle) }) s))

/-- `ID`: tile identifier × 16 + context. -/
def idSlot (a : At) (sd : BitVec 5) : SlotFn := fun _ _ _ s =>
  .done (putReg a.tile a.ctx sd (BitVec.ofNat 64 (a.tile.toNat * 16 + a.ctx.toNat)) s)

end Sys2Proof.Machine
end

