-- ==== Sys2Proof/Machine/Stream.lean ====
section
/-! DEFINITION. Streams between the store and the pannier (R174 to R176, R157) and the walks of tiles and streams
(`WALK_READ_RETURN`, R55, R56). -/

namespace Sys2Proof.Machine

/-! ### Streams -/

def findStream (x : Tile) (n : BitVec 5) : Option Stream := x.streams.find? (·.n = n)

def updStream (t : BitVec 10) (n : BitVec 5) (f : Stream → Stream) (s : State) : State :=
  updTile t (fun x => { x with streams := updIf x.streams (·.n = n) f }) s

/-- Beats of a stream, and where beat `i` lies in the store and in the pannier (R174, R175). -/
def Stream.beats (z : Stream) : Nat := z.rows * (z.rowBytes / 64)

def Stream.beatVa (z : Stream) (i : Nat) : Word :=
  let per := z.rowBytes / 64
  z.va + BitVec.ofInt 64 (z.stride * ((i / per : Nat) : Int)) + BitVec.ofNat 64 (i % per * 64)

def Stream.beatPannier (z : Stream) (i : Nat) : Nat := z.pannier + i * 64

/-- Read a descriptor; none when it breaks the table of R174. -/
def parseStream (n : BitVec 5) (c : BitVec 4) (b : List Byte) : Option Stream :=
  let va := fieldB b 0 8
  let pan := fieldB b 8 4
  let rowBytes := fieldB b 0x0C 4
  let rows := fieldB b 0x10 4
  let stride := sext 32 (fieldB b 0x14 4)
  let done := fieldB b 0x18 2
  let dir := fieldB b 0x1A 1
  if va % 64 == 0 && decide (pan < 2 ^ 22) && pan % 64 == 0 && rowBytes % 64 == 0 && decide (64 ≤ rowBytes) &&
      decide (rowBytes ≤ 4194304) && decide (1 ≤ rows) && decide (rows ≤ 65536) &&
      decide (rows * rowBytes ≤ 4194304 - pan) && decide (stride % 64 = 0) && done / 16384 % 2 == 0 &&
      decide (dir ≤ 1) && zeroB b 0x1B 5 then
    some
      { n := n, ctx := c, va := BitVec.ofNat 64 va, pannier := pan, rowBytes := rowBytes, rows := rows, stride := stride
        doneSync := BitVec.ofNat 16 done, toStore := dir == 1, next := 0, sent := false, running := true
        stopping := false, late := false, status := .ok }
  else none

/-- Start a stream for a context from its descriptor; a refusal faults the context. -/
def startStream (t : BitVec 10) (c : BitVec 4) (pc : Nat) (n : BitVec 5) (desc : Word) (s : State) : State :=
  match findTile s t with
  | none => s
  | some x => match x.prog with
    | none => s
    | some p =>
      let bad (st : Status) : State := ctxFault t c pc st n.toNat 0 0 0 s
      if desc.toNat % 32 ≠ 0 || pannierSize < desc.toNat + 32 then bad .badParam
      else match pannierEcc t (bankMeets t desc.toNat 32 s) with
      | (true, s) => ctxFaultAt 0x01 t c pc .uncorrectable 0 desc 0 0 s
      | (false, s) => match parseStream n c (memReadN x.pannier desc.toNat 32) with
        | none => ctxFault t c pc .badParam n.toNat 0 0 0 s
        | some z =>
          if bit z.doneSync 15 && !riderHasSync s p.rider (bits z.doneSync 0 14) then ctxFault t c pc .revoked n.toNat 0 0 0 s
          else updTile t (fun x =>
            { x with streams := dropIf x.streams (·.n = n) ++ [{ z with late := closedTo s p.rider }] }) s

/-- Contexts that wait for a stream go on; one that waited to start it again does so (R169). -/
def wakeStream (t : BitVec 10) (n : BitVec 5) (s : State) : State :=
  (List.range 16).foldl (fun s i =>
    let c := BitVec.ofNat 4 i
    match findCtx s t c with
    | some k => match k.block with
      | .stream m restart =>
        if m ≠ n then s
        else match restart with
          | none => makeReady t c s
          | some ss =>
            if ((findTile s t).bind fun x => findStream x n).any (·.running) then s
            else startStream t c k.bpc n (k.getS ss) (makeReady t c s)
      | _ => s
    | none => s) s

/-- A stream completes: `DONE_SYNC` follows a completion without failure (R175, R176). -/
def endStream (t : BitVec 10) (n : BitVec 5) (st : Status) (signal : Bool) (s : State) : State :=
  match (findTile s t).bind fun x => findStream x n with
  | none => s
  | some z =>
    let s := updStream t n (fun z => { z with running := false, sent := false, stopping := false, status := st })
      (dropLoads (· = .stream t n) s)
    let s := if signal then signalField z.doneSync.toNat s else s
    wakeStream t n s

/-- A beat fails: the stream stops there and its context faults (R176). -/
def failStream (t : BitVec 10) (n : BitVec 5) (st : Status) (s : State) : State :=
  match (findTile s t).bind fun x => findStream x n with
  | none => s
  | some z =>
    if !z.running then s else
    let pc := match findCtx s t z.ctx with | some k => k.pc | none => 0
    ctxFault t z.ctx pc st n.toNat (z.beatVa z.next) 0 0 (endStream t n st false s)

/-- A stopped stream ends at its beat boundary. -/
def stopIdle (t : BitVec 10) (s : State) : State :=
  match findTile s t with
  | none => s
  | some x =>
    (x.streams.filter fun z => z.running && z.stopping && !z.sent).foldl (fun s z => endStream t z.n .ok false s) s

/-- A beat has been transferred. -/
def nextBeat (t : BitVec 10) (z : Stream) (s : State) : State :=
  let late := closedTo s ((tileRider s t).getD 0)
  let s := updStream t z.n (fun z => { z with next := z.next + 1, sent := false, late := late }) s
  if z.beats ≤ z.next + 1 then endStream t z.n .ok true s else stopIdle t s

def rqStream (t : BitVec 10) (z : Stream) (r : BitVec 6) : Rq :=
  { rider := r, op := none, source := srcStream t z.n, va := z.beatVa z.next }

/-- A stream's next beat. Between this module's store and the pannier it is transferred; a beat to or from another module
is sent first, and its answer completes it. -/
def beat (t : BitVec 10) (z : Stream) (r : BitVec 6) (x : Tile) (ret : Option (List Byte × Status)) (s : State) : State :=
  let va := z.beatVa z.next
  let pan := z.beatPannier z.next
  if z.late then s else
  match clientXlat s (.stream t z.n) r va z.toStore none with
  | (.wait, s) => s
  | (.refused st, s) => failStream t z.n st s
  | (.fault f l, s) => failStream t z.n .translation (xlatFault (tileWheel t) r (srcStream t z.n) va f l s)
  | (.ok opa, s) =>
    let data := memReadN x.pannier pan 64
    let read (s : State) : Bool × State := if z.toStore && !z.sent then pannierEcc t s else (false, s)
    match read s with
    | (true, s) => failStream t z.n .uncorrectable s
    | (false, s) =>
    let away (peloton m : Nat) : State :=
      if !z.sent then
        let mark (s : State) : State := updStream t z.n (fun z => { z with sent := true }) s
        if z.toStore then
          match sendStore (streamSource s t z.n) peloton m r opa data false none s with
          | (.sent, s) => mark s
          | (.wait, s) => s
          | (.fail st, s) => failStream t z.n st s
        else
          mark (askRemote peloton m r opa (.stream t z.n) s)
      else match ret with
        | none => s
        | some (bs, st) =>
          let s := dropLoads (· = .stream t z.n) s
          if z.toStore && decide (0 < unackedOf s (streamSource s t z.n)) then s
          else if st ≠ .ok then failStream t z.n st s
          else if z.toStore then nextBeat t z s
          else nextBeat t z (updTile t (pannierBeat z.n pan (opaOffset opa) (sliceB bs 0 64)) s)
    match target s opa with
    | .off o =>
      if z.toStore then
        match homeWrite s (rqStream t z r) o (allBytes data) false with
        | (.done, s) => nextBeat t z s
        | (.wait, s) => s
        | (.fail st, s) => failStream t z.n st s
      else match homeRead s (rqStream t z r) o 64 with
        | (.data bs, s) => nextBeat t z (updTile t (pannierBeat z.n pan o bs) s)
        | (.wait, s) => s
        | (.fail st, s) => failStream t z.n st s
    | .sync _ => failStream t z.n .badParam s
    | .reg => failStream t z.n .auth s
    | .bad st => failStream t z.n st (badOpa (rqStream t z r) st opa s)
    | .module m => away s.peloton m
    | .peloton p => away p (opaModule opa)

def execStreamBeatCompletion (t : BitVec 10) (n : BitVec 5) (remote : Option (List Byte × Status)) (s : State) :
    Out State :=
  .next (whenUp s fun s =>
    match findTile s t, tileRider s t with
    | some x, some r => match findStream x n with
      | some z => if z.running then beat t z r x remote s else s
      | none => s
    | _, _ => s)

/-- A stream operation: a stream number at or above `STREAMS` is an operand that names no stream (R171). -/
def streamOp (n : BitVec 5) (f : Tile → Ctx → State → State) : SlotFn := fun x p k s =>
  if p.streams ≤ n.toNat then .bad else .done (f x k s)

def streamRunning (x : Tile) (n : BitVec 5) : Bool := (findStream x n).any (·.running)

def strStartSlot (a : At) (n ss : BitVec 5) : SlotFn := streamOp n fun x k s =>
  if streamRunning x n then block a (.stream n (some ss)) s else startStream a.tile a.ctx k.pc n (k.getS ss) s

def strWaitSlot (a : At) (n : BitVec 5) : SlotFn := streamOp n fun x _ s =>
  if streamRunning x n then block a (.stream n none) s else s

/-- `STR.STOP`: the stream stops at its next beat boundary, without `DONE_SYNC` (R175). -/
def strStopSlot (a : At) (n : BitVec 5) : SlotFn := streamOp n fun x _ s =>
  if streamRunning x n then stopIdle a.tile (updStream a.tile n (fun z => { z with stopping := true }) s) else s

/-! ### Walks (R55) -/

/-- What waited for a translation of a client tries again: of a tile every context's stores and access. A stream does so with
its next beat, a queue or a ring with its next step. -/
def wakeClient (cl : XClient) (s : State) : State :=
  match cl with
  | .tile t => (List.range 16).foldl (fun s i =>
      let c := BitVec.ofNat 4 i
      issueAcc t c (pumpStores t c 32 s)) s
  | _ => s

/-- A table entry read by a walk returns: the walk goes on to the next table, or ends at a leaf, which fills the TLBs, or in a
fault; its client takes what it found in issue order. A walk over a range that is being unmapped waits, and starts again
from the root once the range is free (R59). -/
def walkReturn (wheel : Nat) (id : Nat) (s : State) : State :=
  match s.xlat.walks.find? (·.id == id) with
  | none => s
  | some w =>
    let ends (w : Walk) (o : WalkOut) (s : State) : State :=
      wakeClient w.client (giveWalkers wheel 32 (updWalk id (fun _ => { w with out := some o, active := false }) s))
    if clientWheel w.client ≠ wheel || !w.active || w.out.isSome || coreRestarting s wheel || unmapCovers s w.rider w.va.toNat then s
    else if unitFenced s (unitChainring wheel) then wakeClient w.client s
    else match rootOf s w.rider with
      | none => ends w (.fault 0x2 4) s
      | some root => match walkStep (w.fresh root) s with
        | (.next w, s) => updWalk id (fun _ => w) s
        | (.wait, s) => updWalk id (Walk.fresh root) s
        | (.end_ (.leaf e lvl), s) => ends (w.fresh root) (.leaf e lvl) (fillLeaf w e lvl s)
        | (.end_ o, s) => ends (w.fresh root) o s

def execWalkReadReturn (wheel : Fin 16) (id : Nat) (s : State) : Out State := .next (whenUp s (walkReturn wheel.val id))

end Sys2Proof.Machine
end

