-- ==== Sys2Proof/Machine/Datapath.lean ====
section
/-! DEFINITION. The datapath (R186 to R188, R190, R422): units, nodes, configurations, and the `DP` operation. -/

namespace Sys2Proof.Machine

/-! ### Nodes (R187) -/

def nodeUnit (w : Word) : Nat := bits w 60 4
def nodeOp (w : Word) : Nat := bits w 52 8
def nodeSrc (w : Word) (i : Nat) : Nat := bits w (47 - 5 * i) 5
def nodeImm (w : Word) : BitVec 16 := BitVec.ofNat 16 (bits w 21 16)
def nodeOut (w : Word) : Bool := bit w 20

/-- CVT formats: R70 codes 0x1 to 0x5, 0xA (INT8), 0xB (INT32). -/
def cvtFmtOk (c : Nat) : Bool := decide (1 ≤ c ∧ c ≤ 5) || c == 10 || c == 11

/-- The operation codes of each unit (R186). -/
def nodeOpOk (w : Word) : Bool :=
  let op := nodeOp w
  let imm := (nodeImm w).toNat
  match nodeUnit w with
  | 0 => decide (op ≤ 3)
  | 1 => decide (op ≤ 8)
  | 2 => decide (op ≤ 8)
  | 3 => decide (op ≤ 5)
  | 4 => decide (op ≤ 4)
  | 5 => cvtFmtOk (op / 16) && cvtFmtOk (op % 16) && imm % 4 != 3
  | 6 => decide (op ≤ 3)
  | 7 => decide (op ≤ 1) || (op == 2 && decide (imm < 64)) || (op == 3 && decide (imm ∈ [1, 2, 4, 8, 16, 32]))
  | _ => false

/-- A source names a vector or scalar operand, a constant, or an earlier node that is not empty. -/
def srcOk (nodes : List Word) (n src : Nat) : Bool :=
  decide (src ≤ 5) || (decide (16 ≤ src) && decide (src - 16 < n) && nodeUnit (nodes.getD (src - 16) 0) != 15)

/-- A source code of an empty node: it is none of the reserved ones. -/
def emptySrc (src : Nat) : Bool := decide (src ≤ 5) || decide (16 ≤ src)

/-- The configuration rules of R187. An empty node uses no source, but its reserved bits and codes are refused too (R9). -/
def configOk (nodes : List Word) : Bool :=
  ((nodes.mapIdx fun n w =>
    bits w 0 20 == 0 && (if nodeUnit w = 15 then emptySrc (nodeSrc w 0) && emptySrc (nodeSrc w 1) && emptySrc (nodeSrc w 2)
      else nodeOpOk w && srcOk nodes n (nodeSrc w 0) && srcOk nodes n (nodeSrc w 1) &&
        srcOk nodes n (nodeSrc w 2))).all id) &&
    decide ((nodes.filter nodeOut).length ≤ 1)

/-! ### Units (R186, R422) -/

/-- Fraction bits of the fixed-point numbers with which FNX's true values are found. -/
def fixP : Nat := 320

/-- The natural logarithm of 2, as the sum of 1/(k 2^k). -/
def ln2Fix : Nat := (List.range fixP).foldl (fun t k => t + 2 ^ fixP / ((k + 1) * 2 ^ (k + 1))) 0

/-- The exponential of a fixed-point number below 1, by its series. -/
def expFix (y : Nat) : Nat :=
  ((List.range 90).foldl (fun (t : Nat × Nat) k => let u := t.1 * y / 2 ^ fixP / (k + 1); (u, t.2 + u)) (2 ^ fixP, 2 ^ fixP)).2

/-- The natural logarithm of a ratio between 1 and 2, by the series of the area tangent. -/
def lnFix (p q : Nat) : Nat :=
  let z := (p - q) * 2 ^ fixP / (p + q)
  let zz := z * z / 2 ^ fixP
  2 * ((List.range 110).foldl (fun (t : Nat × Nat) k => (t.1 * zz / 2 ^ fixP, t.2 + t.1 / (2 * k + 1))) (z, 0)).2

/-- Integer square root, a bit at a time. -/
def rootFix (n : Nat) : Nat :=
  (List.range (fixP + 1)).foldl (fun r i => let t := r + 2 ^ (fixP - i); if t * t ≤ n then t else r) 0

/-- A true value: its sign, a magnitude `mag` × 2^`exp` at or just below it, and whether that is it exactly. -/
structure TrueVal where
  neg   : Bool
  mag   : Nat
  exp   : Int
  exact : Bool

/-- 2 to a power. -/
def trueExp2 (neg : Bool) (m : Nat) (e : Int) : Option TrueVal :=
  if e + m.log2 ≥ 9 then (if neg then some { neg := false, mag := 1, exp := -512, exact := false } else none)
  else
    let x := scaled neg m e (-fixP)
    let f := (x % 2 ^ fixP).toNat
    some { neg := false, mag := expFix (f * ln2Fix / 2 ^ fixP), exp := x / 2 ^ fixP - fixP, exact := f = 0 }

/-- The logarithm to base 2 of a positive number. -/
def trueLog2 (m : Nat) (e : Int) : TrueVal :=
  let l := m.log2
  let v : Int := (e + l) * 2 ^ fixP + lnFix m (2 ^ l) * 2 ^ fixP / ln2Fix
  { neg := v < 0, mag := v.natAbs, exp := -fixP, exact := m = 2 ^ l }

/-- The hyperbolic tangent: just below its operand where that is small, just below 1 where it is large. -/
def trueTanh (neg : Bool) (m : Nat) (e : Int) : TrueVal :=
  if m = 0 then { neg := neg, mag := 0, exp := 0, exact := true }
  else if e + m.log2 < -20 then { neg := neg, mag := m * 2 ^ 40 - 1, exp := e - 40, exact := false }
  else if e + m.log2 ≥ 4 then { neg := neg, mag := 2 ^ 24 - 1, exp := -24, exact := false }
  else
    let t := (scaled false m (e + 1) (-fixP)).toNat
    let x := expFix (t % ln2Fix) * 2 ^ (t / ln2Fix)
    { neg := neg, mag := (x - 2 ^ fixP) * 2 ^ fixP / (x + 2 ^ fixP), exp := -fixP, exact := false }

/-- The reciprocal of a number that is not zero. -/
def trueRecip (neg : Bool) (m : Nat) (e : Int) : TrueVal :=
  { neg := neg, mag := 2 ^ fixP / m, exp := -e - fixP, exact := 2 ^ fixP % m = 0 }

/-- The reciprocal square root of a positive number. -/
def trueRsqrt (m : Nat) (e : Int) : TrueVal :=
  let m := if e % 2 = 0 then m else 2 * m
  let r := rootFix (2 ^ (2 * fixP) / m)
  { neg := false, mag := r, exp := -(e / 2) - fixP, exact := r * r * m = 2 ^ (2 * fixP) }

/-- The true value of an FNX operation; none where there is no finite one. -/
def fnxTrue (op : Nat) (v : FVal) : Option TrueVal :=
  match v with
  | .fin neg m e => match op with
    | 0 => trueExp2 neg m e
    | 1 => if m = 0 || neg then none else some (trueLog2 m e)
    | 2 => if m = 0 then none else some (trueRecip neg m e)
    | 3 => if m = 0 || neg then none else some (trueRsqrt m e)
    | _ => some (trueTanh neg m e)
  | _ => none

/-- FNX: some value within 2 ulp of the true one, always the same one for the same input. DESIGN CHOICE
(notes/assumptions/137.md): an ulp is a step from one FP32 value to the next, and where the true value is not finite or lies
beyond FP32's range, or the operand is not finite, the result is open. -/
def fnxUnit (op : Nat) (a : BitVec 32) : BitVec 32 :=
  let u := Config.fnx (BitVec.ofNat 8 op) a
  match fnxTrue op (dec32 a) with
  | none => u
  | some t =>
    let k := fp32.roundMag .rtz t.mag t.exp
    if fp32.maxFin < k then u
    else
      let j : Int := k + (if t.exact then (u.toNat % 5 : Nat) - 2 else (u.toNat % 4 : Nat) - 1)
      let x := min j.natAbs (fp32.maxFin + 1)
      if j = 0 then u &&& 0x80000000 else BitVec.ofNat 32 (fp32.signed (t.neg != decide (j < 0)) x)

/-- FMA: computed exactly and rounded once. -/
def fmaUnit (op : Nat) (a b c : BitVec 32) : BitVec 32 :=
  let nan := asNan (Config.nanBits (BitVec.ofNat 8 op) a b c)
  let x := dec32 a
  let y := dec32 b
  let z := dec32 c
  enc32 nan (match op with
    | 0 => (x.mul y).bind fun p => p.add z
    | 1 => x.mul y
    | 2 => x.add z
    | _ => x.add z.neg)

/-- ALU: operands a and b; shifts by 32 or more are open. -/
def aluUnit (op : Nat) (a b : BitVec 32) : BitVec 32 :=
  match op with
  | 0 => a + b
  | 1 => a - b
  | 2 => a &&& b
  | 3 => a ||| b
  | 4 => a ^^^ b
  | 8 => a * b
  | _ =>
    if 32 ≤ b.toNat then Config.aluShift (BitVec.ofNat 8 op) a b
    else match op with
      | 5 => a <<< b.toNat
      | 6 => a >>> b.toNat
      | _ => a.sshiftRight b.toNat

/-- `a < b` and `a = b` as FP32 values; none when one is a NaN. -/
def fpLess (a b : BitVec 32) : Option (Bool × Bool) :=
  match dec32 a, dec32 b with
  | .nan _, _ => none
  | _, .nan _ => none
  | .inf x, .inf y => some (x && !y, x == y)
  | .inf x, .fin _ _ _ => some (x, false)
  | .fin _ _ _, .inf y => some (!y, false)
  | .fin x m e, .fin y n f =>
    let k := min e f
    let p := scaled x m e k
    let q := scaled y n f k
    some (decide (p < q), decide (p = q))

/-- The comparison of the CMP unit. -/
def cmpLess (a b : BitVec 32) : Option (Bool × Bool) :=
  if Config.cmpIsFloat then fpLess a b else some (decide (a.toInt < b.toInt), decide (a = b))

/-- The smaller or larger of two operands; which of two equal ones of different bits, and what a NaN makes, is open. -/
def cmpPick (op : BitVec 8) (smaller : Bool) (a b : BitVec 32) : BitVec 32 :=
  match cmpLess a b with
  | none => Config.nanBits op a b 0
  | some (lt, eq) => if eq && decide (a ≠ b) then (if bit (Config.nanBits op a b 0) 0 then a else b) else if lt == smaller then a else b

def cmpUnit (op : Nat) (a b c : BitVec 32) : BitVec 32 :=
  let o : BitVec 8 := BitVec.ofNat 8 (0x30 + op)
  match op with
  | 0 => cmpPick o true a b
  | 1 => cmpPick o false a b
  | 2 => if c ≠ 0 then a else b
  | 3 => Config.cmpOut (match cmpLess a b with | some (lt, _) => lt | none => false)
  | 4 => Config.cmpOut (match cmpLess a b with | some (_, eq) => eq | none => false)
  | _ => cmpPick o true (cmpPick o false a b) c

/-- Rounding and saturation of CVT: `IMM` [1:0]. -/
def cvtMode (imm : BitVec 16) : RMode :=
  match imm.toNat % 4 with
  | 0 => .rne
  | 1 => .rtz
  | _ => .sat

/-- A finite magnitude as an integer, rounded as the mode says. -/
def roundInt (mode : RMode) (neg : Bool) (m : Nat) (e : Int) : Int :=
  let rm : RMode := if mode = .rtz then .rtz else .rne
  let k : Nat := if 0 ≤ e then m * 2 ^ e.toNat else shiftRound rm m (-e).toNat
  if neg then -(k : Int) else k

/-- CVT into an `n`-bit integer: what falls outside saturates in mode 0b10 and is open in the others, as a NaN is. -/
def cvtInt (mode : RMode) (n : Nat) (open_ : BitVec 32) (v : FVal) : BitVec 32 :=
  let lo : Int := -(2 ^ (n - 1))
  let hi : Int := 2 ^ (n - 1) - 1
  let put (v : Int) : BitVec 32 := BitVec.ofInt 32 v &&& BitVec.ofNat 32 (2 ^ n - 1)
  match v with
  | .nan _ => open_
  | .inf neg => if mode = .sat then put (if neg then lo else hi) else open_
  | .fin neg m e =>
    let r := roundInt mode neg m e
    if lo ≤ r ∧ r ≤ hi then put r else if mode = .sat then put (if r < lo then lo else hi) else open_

/-- CVT: source and destination formats, rounding and saturation (R422). -/
def cvtUnit (op : Nat) (imm : BitVec 16) (a : BitVec 32) : BitVec 32 :=
  let value : FVal := match op / 16 with
    | 10 => ofInt (sext 8 a.toNat) 0 false
    | 11 => ofInt a.toInt 0 false
    | c => match fmtOf c with
      | some f => f.decode (a.toNat % 2 ^ f.width)
      | none => .nan false
  match op % 16 with
  | 10 => cvtInt (cvtMode imm) 8 (Config.cvtOpen (BitVec.ofNat 8 op) a) value
  | 11 => cvtInt (cvtMode imm) 32 (Config.cvtOpen (BitVec.ofNat 8 op) a) value
  | c => match fmtOf c with
    | some f => BitVec.ofNat 32 (f.encode (cvtMode imm) value)
    | none => 0

/-- XLANE over the 64 lanes. -/
def xlaneUnit (op : Nat) (imm : BitVec 16) (a : List (BitVec 32)) : List (BitVec 32) :=
  let n := imm.toNat
  (List.range 64).map fun (i : Nat) =>
    match op with
    | 0 =>
      let src : Int := if Config.laneUp then (i : Int) - n else (i : Int) + n
      if 0 ≤ src ∧ src < 64 then a.getD src.toNat 0 else Config.laneFill
    | 1 => a.getD (if Config.laneUp then (i + 64 - n % 64) % 64 else (i + n) % 64) 0
    | 2 => a.getD n 0
    | _ => a.getD (i ^^^ n) 0

/-! ### Running a configuration -/

/-- What runs through the nodes: outputs so far, the `XA` lanes, the destination. -/
structure DpRun where
  outs : List (List (BitVec 32))
  xa   : List (Nat × Acc)
  dest : Option (List (BitVec 32))

/-- The immediate of a unit (R187): a BF16 value for the floating-point units, else sign-extended. -/
def immOf (unit : Nat) (imm : BitVec 16) : BitVec 32 :=
  if unit = 0 || unit = 4 || unit = 6 || (unit = 3 && Config.cmpIsFloat) then imm.setWidth 32 <<< 16 else imm.signExtend 32

/-- Lane sum: the exact sum of the lanes' `SUM`, modulo 2^320 with the overflow flag where it lies outside the range, the sum
of the counts saturating, and the OR of the flags (R190). -/
def laneSum (reg : List Acc) : Acc :=
  let sum : Int := (reg.map fun a => a.sum.toInt).sum
  { sum := BitVec.ofInt 320 sum, count := BitVec.ofNat 64 (satN (2 ^ 64 - 1) ((reg.map fun a => a.count.toNat).sum))
    ovf := (reg.any fun a => a.ovf) || decide (sum < -(2 ^ 319)) || decide (2 ^ 319 ≤ sum), nan := reg.any fun a => a.nan
    ninf := reg.any fun a => a.ninf, pinf := reg.any fun a => a.pinf }

/-- XACC on the 64 lanes of a register (R190). -/
def xaccUnit (op : Nat) (imm : BitVec 16) (a : List (BitVec 32)) (reg : List Acc) : List Acc × List (BitVec 32) :=
  let none_ := List.replicate 64 Config.noOut
  match op with
  | 0 => match addendFmt (imm.toNat / 16 % 4) with
    | some f => (List.zipWith (fun r x => r.add (f.decode (x.toNat % 2 ^ f.width))) reg a, none_)
    | none => (reg, none_)
  | 1 => (reg, reg.map Acc.read)
  | 2 => (List.replicate 64 accZero, none_)
  | _ => (laneSum reg :: List.replicate 63 accZero, none_)

/-- Evaluate one node. -/
def runNode (ops : List (List (BitVec 32))) (r : DpRun) (w : Word) : DpRun :=
  let u := nodeUnit w
  if u = 15 then { r with outs := r.outs ++ [List.replicate 64 0] }
  else
    let src (i : Nat) : List (BitVec 32) :=
      let c := nodeSrc w i
      if c ≤ 3 then ops.getD c []
      else if c = 4 then List.replicate 64 (immOf u (nodeImm w))
      else if 16 ≤ c then r.outs.getD (c - 16) []
      else List.replicate 64 0
    let op := nodeOp w
    let lanes (f : BitVec 32 → BitVec 32 → BitVec 32 → BitVec 32) : List (BitVec 32) :=
      (List.range 64).map fun i => f ((src 0).getD i 0) ((src 1).getD i 0) ((src 2).getD i 0)
    let n := (nodeImm w).toNat % 8
    let (out, xa) := match u with
      | 0 => (lanes (fmaUnit op), r.xa)
      | 1 => (lanes fun a b _ => aluUnit op a b, r.xa)
      | 2 => (lanes fun a b _ => aluUnit op a b, r.xa)
      | 3 => (lanes (cmpUnit op), r.xa)
      | 4 => (lanes fun a _ _ => fnxUnit op a, r.xa)
      | 5 => (lanes fun a _ _ => cvtUnit op (nodeImm w) a, r.xa)
      | 6 =>
        let reg := (List.range 64).map fun i => sparseGet accZero r.xa (n * 64 + i)
        let (reg, out) := xaccUnit op (nodeImm w) (src 0) reg
        (out, sparsePut accZero r.xa (n * 64) reg)
      | _ => (xlaneUnit op (nodeImm w) (src 0), r.xa)
    { outs := r.outs ++ [out], xa := xa, dest := if nodeOut w then some out else r.dest }

/-- The `XA` registers that a configuration names. -/
def configXas (nodes : List Word) : List Nat :=
  (nodes.filter fun w => nodeUnit w == 6).map fun w => (nodeImm w).toNat % 8

/-- `DP`: 64 lanes run through a configuration; every `XA` register it names must be the context's own. -/
def dpOp (a : At) (cfg vd va vb vc sa : BitVec 5) (x : Tile) (p : Prog) (k : Ctx) (s : State) : SlotRes :=
  match p.configs[cfg.toNat]? with
  | none => .bad
  | some nodes =>
    if !((configXas nodes).all fun r => ownsXa p a.ctx r) then .bad
    else
      let ops := [k.getV va, k.getV vb, k.getV vc, List.replicate 64 ((k.getS sa).setWidth 32)]
      let r := nodes.foldl (runNode ops) { outs := [], xa := x.xa, dest := none }
      let s := updTile a.tile (fun x => { x with xa := r.xa }) s
      .done (match r.dest with
        | some v => putVec a vd v s
        | none => s)

end Sys2Proof.Machine
end

