-- ==== Sys2Proof/Machine/Matrix.lean ====
section
/-! DEFINITION. The matrix slot (R181 to R185): `MMA` and its queue, the accumulator tile operations. -/

namespace Sys2Proof.Machine

/-! ### Ports (R181, R182) -/

/-- Rate classes of the port formats (R181): 1, 2 (FP4), 3 INT8, 4 BF16, 5 FP16. -/
def portClass (code : Nat) : Option Nat :=
  if code ∈ [3, 4, 8, 7] then some 1
  else if code ∈ [9, 6] then some 2
  else match code with
    | 10 => some 3
    | 1 => some 4
    | 2 => some 5
    | _ => none

/-- Gears that a format may use on a port. -/
def portGear (code gear : Nat) : Bool :=
  gear == 0 || ((code == 3 || code == 4) && gear == 1) || code == 1 || code == 2

/-- The pairs of formats that R181 allows. -/
def pairOk (a b : Nat) : Bool :=
  match portClass a, portClass b with
  | some x, some y => x == y || (x == 1 && y == 2) || (x == 2 && y == 1)
  | _, _ => false

def MmaDesc.ok (d : MmaDesc) : Bool :=
  d.rsv == 0 && decide (1 ≤ d.panels) && d.aBase % 8 == 0 && d.bBase % 8 == 0 && pairOk d.aFmt d.bFmt &&
    portGear d.aFmt d.aGear && portGear d.bFmt d.bGear &&
    decide (d.aBase + d.panels * 32 * rowLen d.aFmt d.aGear ≤ pannierSize) &&
    decide (d.bBase + d.panels * 32 * rowLen d.bFmt d.bGear ≤ pannierSize)

/-- Two products per cycle, summed before the rounding: both ports at FP4 rate (R183). -/
def MmaDesc.step (d : MmaDesc) : Nat := if portClass d.aFmt = some 2 && portClass d.bFmt = some 2 then 2 else 1

/-! ### Rows -/

/-- Scale a value by a power of two; a scale byte of 0xFF makes a NaN (R183). -/
def mxScale (scale : Nat) (v : FVal) : FVal :=
  if scale = 255 then .nan false
  else match v with
    | .fin n m e => .fin n m (e + ((scale : Int) - 127))
    | x => x

/-- The 64 values of a row, or its gear fault. -/
def rowVals (code gear : Nat) (b : List Byte) : GearFault ⊕ List FVal :=
  match fmtOf code with
  | none => .inr (b.map fun x => ofInt (sext 8 x.toNat) 0 false)
  | some f =>
    if isMx code then
      let n := 4 * f.width
      let half (b : List Byte) : List FVal :=
        (unpackBits f.width (leNat (b.take n)) 32).map fun x => mxScale (b.getD n 0).toNat (f.decode x)
      .inr (half (b.take (n + 1)) ++ half (b.drop (n + 1)))
    else match gearDecode code gear f b with
      | .inl e => .inl e
      | .inr xs => .inr (xs.map f.decode)

/-- A panel of 32 rows: their values, or the first row that fails a check, with its pannier offset. -/
def panelRows (x : Tile) (base code gear panel : Nat) : (Nat × GearFault) ⊕ List (List FVal) :=
  let n := rowLen code gear
  (List.range 32).foldl (fun acc r => match acc with
    | .inl e => .inl e
    | .inr rows =>
      let off := base + (panel * 32 + r) * n
      match rowVals code gear (memReadN x.pannier off n) with
      | .inl e => .inl (off, e)
      | .inr v => .inr (rows ++ [v])) (.inr [])

/-! ### The array (R183) -/

/-- The exact sum of the products of one cycle. -/
def prodSum (ps : List (FVal × FVal)) : Option FVal :=
  ps.foldl (fun acc p => match acc, p.1.mul p.2 with
    | none, _ => none
    | _, none => none
    | some a, some b => a.add b) (some (.fin true 0 0))

/-- Cut a list into groups of `k`; `fuel` bounds their number. -/
def groupsOf {α : Type} (k : Nat) : Nat → List α → List (List α)
  | 0, _ => []
  | n + 1, l => if l.isEmpty then [] else l.take k :: groupsOf k n (l.drop k)

/-- One cell over the k-steps of a panel. -/
def cellFp (step : Nat) (acc : BitVec 32) (ra rb : List FVal) : BitVec 32 :=
  (groupsOf step 64 (ra.zip rb)).foldl (fun acc g =>
    enc32 (asNan (Config.nanBits 0xFF acc 0 0)) ((prodSum g).bind fun p => (dec32 acc).add p)) acc

def fvalInt (v : FVal) : Int :=
  match v with
  | .fin n m e => scaled n m e 0
  | _ => 0

/-- An INT8 cell: 32-bit two's complement modulo 2^32. -/
def cellInt (acc : BitVec 32) (ra rb : List FVal) : BitVec 32 :=
  (ra.zip rb).foldl (fun acc p => acc + BitVec.ofInt 32 (fvalInt p.1 * fvalInt p.2)) acc

/-- The tile's 1,024 cells over one panel. -/
def panelStep (d : MmaDesc) (acc : List (BitVec 32)) (as bs : List (List FVal)) : List (BitVec 32) :=
  (List.range 1024).map fun n =>
    let ra := as.getD (n / 32) []
    let rb := bs.getD (n % 32) []
    let c := acc.getD n 0
    if d.aFmt = 10 then cellInt c ra rb else cellFp d.step c ra rb

def accGet (x : Tile) (t : Nat) : List (BitVec 32) := (List.range 1024).map fun i => sparseGet 0 x.acc (t * 1024 + i)
def accPut (t : Nat) (v : List (BitVec 32)) (x : Tile) : Tile := { x with acc := sparsePut 0 x.acc (t * 1024) v }

/-- Run the panels of an `MMA`: the accumulator tile, and the fault that stopped it (R185). -/
def runPanels (x : Tile) (d : MmaDesc) : Nat → Nat → List (BitVec 32) → List (BitVec 32) × Option (Nat × GearFault)
  | 0, _, acc => (acc, none)
  | n + 1, p, acc =>
    match panelRows x d.aBase d.aFmt d.aGear p, panelRows x d.bBase d.bFmt d.bGear p with
    | .inl e, _ => (acc, some e)
    | _, .inl e => (acc, some e)
    | .inr as, .inr bs => runPanels x d n (p + 1) (panelStep d acc as bs)

/-! ### Commands -/

def ownsAcc (p : Prog) (c : BitVec 4) (t : BitVec 5) : Bool := p.accOwner[t.toNat]? == some c

/-- An `MMA` on the tile is queued (R171). -/
def accBusy (x : Tile) (t : BitVec 5) : Bool := x.mmaq.any (·.t = t)

/-- `MMA`: the descriptor's registers are read and the operation enters the matrix queue, of depth 2. -/
def mmaOp (a : At) (t sd : BitVec 5) (x : Tile) (p : Prog) (k : Ctx) (s : State) : SlotRes :=
  let d0 := k.getS sd
  let d1 := k.getS (sd + 1)
  if !ownsAcc p a.ctx t || sd = 31 then .bad
  else if !(mmaDesc d0 d1).ok then slotFault a k .badParam s
  else if 2 ≤ x.mmaq.length then .held
  else
    .done (updTile a.tile (fun x =>
      { x with mmaq := x.mmaq ++ [{ ctx := a.ctx, t := t, d0 := d0, d1 := d1, pc := k.pc }] }) s)

/-- The store offset that the tag of a region gives a pannier offset, and its stream (R179). -/
def tagOf (x : Tile) (off : Nat) : Option (BitVec 5) × Nat :=
  match x.ptags.find? (·.region == off / 4096) with
  | some g => (g.stream, (g.off + off % 4096) % 2 ^ 48)
  | none => (none, 2 ^ 48 - 1)

/-- A row fails a gear check: its context faults and the stream that its region names stops (R185). -/
def gearFaultAt (t : BitVec 10) (m : MmaOp) (e : Nat × GearFault) (x : Tile) (s : State) : State :=
  let (st, off) := tagOf x e.1
  let s := match st with
    | some n => updTile t (fun x => { x with streams := updIf x.streams (·.n = n) fun z => { z with stopping := true } }) s
    | none => s
  ctxFaultAt 0x0B t m.ctx m.pc e.2.status (match st with | some n => n.toNat | none => 0xFFFF) (BitVec.ofNat 64 e.1)
    (BitVec.ofNat 64 off) (BitVec.ofNat 64 e.2.order) s

/-- `MMA_DEQUEUE`: the oldest `MMA` runs to its end. -/
def runMma (t : BitVec 10) (s : State) : State :=
  match findTile s t with
  | none => s
  | some x => match x.mmaq with
    | [] => s
    | m :: rest =>
      let d := mmaDesc m.d0 m.d1
      let acc := if d.clear then List.replicate 1024 0 else accGet x m.t.toNat
      let geared := decide (d.aGear ≠ 0) || decide (d.bGear ≠ 0)
      let s := if d.banksA.any d.banksB.contains then bankCycles t s else s
      let (ecc, s) := pannierEcc t s
      let (acc, fault) :=
        if ecc then (acc, none)
        else if geared && injBad s 0x0B (unitTile t) then
          (acc, some (if d.aGear ≠ 0 then d.aBase else d.bBase, { status := Status.gearCheck, order := 4 }))
        else runPanels x d d.panels 0 acc
      let s := updTile t (fun x => accPut m.t.toNat acc { x with mmaq := rest }) s
      if ecc then ctxFaultAt 0x01 t m.ctx m.pc .uncorrectable 0 (BitVec.ofNat 64 d.aBase) 0 0 s
      else match fault with
      | some e => stopIdle t (gearFaultAt t m e x s)
      | none => s

def execMmaDequeue (t : BitVec 10) (s : State) : Out State := .next (whenUp s (runMma t))

/-- An operation on an accumulator tile that its context owns; it is held while an `MMA` on it is queued (R171). -/
def accOp (a : At) (t : BitVec 5) (f : Tile → Ctx → State → State) (x : Tile) (p : Prog) (k : Ctx) (s : State) : SlotRes :=
  if !ownsAcc p a.ctx t then .bad
  else if accBusy x t then .held
  else .done (f x k s)

def accRdSlot (a : At) (vd t : BitVec 5) (r : BitVec 4) : SlotFn := accOp a t fun x _ s =>
  putVec a vd (((accGet x t.toNat).drop (64 * r.toNat)).take 64) s

def accWrSlot (a : At) (t : BitVec 5) (r : BitVec 4) (vs : BitVec 5) : SlotFn := accOp a t fun _ k s =>
  updTile a.tile (fun x => { x with acc := sparsePut 0 x.acc (t.toNat * 1024 + 64 * r.toNat) (k.getV vs) }) s

def accClrSlot (a : At) (t : BitVec 5) : SlotFn := accOp a t fun _ _ s =>
  updTile a.tile (accPut t.toNat (List.replicate 1024 0)) s

end Sys2Proof.Machine
end

