-- ==== Sys2Proof/Machine/TileIssue.lean ====
section
/-! DEFINITION. The issue of bundles (R168 to R171): the operations of a tile's slots, given one by one for the running
context's next bundle, which issues as one once every slot that holds an operation has it. -/

namespace Sys2Proof.Machine

/-- The slot that an operation belongs to, and what it does there (R170). -/
def slotFn : Instr → Option (BSlot × At × SlotFn)
  | .ld a size sd addr => some (.memory, a, loadOp a true size sd addr)
  | .ldU a size sd addr => some (.memory, a, loadOp a false size sd addr)
  | .st a size ss addr => some (.memory, a, storeOp a false size ss addr)
  | .stF a size ss addr => some (.memory, a, storeOp a true size ss addr)
  | .atom a code size sd addr sa sb => some (.memory, a, atomOp a code size sd addr sa sb)
  | .fence a => some (.memory, a, fenceOp a)
  | .acq a sa sb => some (.memory, a, acqOp a sa sb)
  | .sigAdd a obj ss => some (.memory, a, signalOp a true obj ss)
  | .sigSet a obj ss => some (.memory, a, signalOp a false obj ss)
  | .wait a obj cmp ss sa sb sl sd => some (.memory, a, waitOp a obj cmp ss sa sb sl sd)
  | .ldP a size sd addr => some (.memory, a, ldPSlot a size sd addr)
  | .stP a size ss addr => some (.memory, a, stPSlot a size ss addr)
  | .vldP a vd addr => some (.memory, a, vldPSlot a vd addr)
  | .vstP a vs addr => some (.memory, a, vstPSlot a vs addr)
  | .vpack a vs addr fmt gear => some (.memory, a, vpackOp a vs addr fmt gear)
  | .xaSave a r addr => some (.memory, a, xaSaveOp a r addr)
  | .xaMerge a r addr => some (.memory, a, xaMergeOp a r addr)
  | .mma a t sd => some (.matrix, a, mmaOp a t sd)
  | .accRd a vd t r => some (.matrix, a, accRdSlot a vd t r)
  | .accWr a t r vs => some (.matrix, a, accWrSlot a t r vs)
  | .accClr a t => some (.matrix, a, accClrSlot a t)
  | .dp a cfg vd va vb vc sa => some (.datapath, a, dpOp a cfg vd va vb vc sa)
  | .scalarIntegerOperation a code sd sa sb => some (.datapath, a, scalarSlot a code sd sa sb)
  | .strStart a n ss => some (.stream, a, strStartSlot a n ss)
  | .strWait a n => some (.stream, a, strWaitSlot a n)
  | .strStop a n => some (.stream, a, strStopSlot a n)
  | .branch a code sa target => some (.control, a, branchSlot a code sa target)
  | .loopCounter a code sa target => some (.control, a, loopSlot a code sa target)
  | .yield_ a => some (.control, a, yieldSlot a)
  | .halt a => some (.control, a, haltSlot a)
  | .id_ a sd => some (.control, a, idSlot a sd)
  | _ => none

/-- The operation that a list of operations has for a slot. -/
def slotOp (ops : List Instr) (z : BSlot) : Option SlotFn :=
  ops.findSome? fun i => match slotFn i with
    | some (y, _, f) => if y = z then some f else none
    | none => none

/-- Issue operations in the order of their slots, each on the tile as the slots before it left it; registers keep the values
that the bundle reads until it ends (R170). -/
def issueOps (a : At) : List SlotFn → State → SlotRes
  | [], s => .done s
  | f :: fs, s => match findTile s a.tile with
    | none => .done s
    | some x => match x.prog, x.ctxs[a.ctx.toNat]? with
      | some p, some k => match f x p k s with
        | .done s => issueOps a fs s
        | r => r
      | _, _ => .done s

/-- Issue a whole bundle: held, refused with `BAD_PARAM` as a whole, or issued (R171). A fetch that an injection makes
uncorrectable faults the context (R322, point 0x02). -/
def issueBundle (a : At) (k : Ctx) (ops : List Instr) (s : State) : State :=
  let u := unitTile a.tile
  if injBad s 0x02 u then ctxFaultAt 0x02 a.tile a.ctx k.pc .uncorrectable 0 0 0 0 s
  else
    let s := if injMode s 0x02 u = some 0 then corrected 0x02 u 0 s else s
    match issueOps a (BSlot.all.filterMap (slotOp ops)) (updCtx a.tile a.ctx (fun k => { k with mid := true }) s) with
    | .done s => endIssue a s
    | .held => updTile a.tile (fun x => { x with stall := bumpSat x.stall 1 }) s
    | .bad => ctxFault a.tile a.ctx k.pc .badParam 0 0 0 0 s

/-- An operation of the running context's next bundle is given. One for a slot that the bundle leaves empty, or has an
operation for already, is no operation of it and does nothing. DESIGN CHOICE (notes/assumptions/125.md): the spec gives the
slots' bits but no encoding inside them, so the command names the operation that a slot's bits hold. -/
def issue (i : Instr) (s : State) : State :=
  whenUp s fun s => match slotFn i with
    | none => s
    | some (z, a, _) =>
      let s := progEnd a.tile 17 s
      match findTile s a.tile with
      | none => s
      | some x => match x.prog, x.ctxs[a.ctx.toNat]? with
        | some p, some k =>
          let ops := k.bundle ++ [i]
          if k.st ≠ .running || !(p.slots k.pc).contains z || (slotOp k.bundle z).isSome then s
          else if (p.slots k.pc).all fun y => (slotOp ops y).isSome then issueBundle a k ops s
          else updCtx a.tile a.ctx (fun k => { k with bundle := ops }) s
        | _, _ => s

/-! ### The memory slot (R172) -/

def execLd (a : At) (size : BitVec 2) (sd : BitVec 5) (addr : AddrOp) (s : State) : Out State := .next (issue (.ld a size sd addr) s)

def execLdU (a : At) (size : BitVec 2) (sd : BitVec 5) (addr : AddrOp) (s : State) : Out State :=
  .next (issue (.ldU a size sd addr) s)

def execSt (a : At) (size : BitVec 2) (ss : BitVec 5) (addr : AddrOp) (s : State) : Out State := .next (issue (.st a size ss addr) s)

def execStF (a : At) (size : BitVec 2) (ss : BitVec 5) (addr : AddrOp) (s : State) : Out State :=
  .next (issue (.stF a size ss addr) s)

def execAtom (a : At) (code : BitVec 4) (size : BitVec 2) (sd : BitVec 5) (addr : AddrOp) (sa sb : BitVec 5) (s : State) :
    Out State :=
  .next (issue (.atom a code size sd addr sa sb) s)

def execFence (a : At) (s : State) : Out State := .next (issue (.fence a) s)

def execAcq (a : At) (sa sb : BitVec 5) (s : State) : Out State := .next (issue (.acq a sa sb) s)

def execSigAdd (a : At) (obj : BitVec 14) (ss : BitVec 5) (s : State) : Out State := .next (issue (.sigAdd a obj ss) s)

def execSigSet (a : At) (obj : BitVec 14) (ss : BitVec 5) (s : State) : Out State := .next (issue (.sigSet a obj ss) s)

def execWait (a : At) (obj : BitVec 14) (cmp : BitVec 2) (ss sa sb sl sd : BitVec 5) (s : State) : Out State :=
  .next (issue (.wait a obj cmp ss sa sb sl sd) s)

def execLdP (a : At) (size : BitVec 2) (sd : BitVec 5) (addr : AddrOp) (s : State) : Out State :=
  .next (issue (.ldP a size sd addr) s)

def execStP (a : At) (size : BitVec 2) (ss : BitVec 5) (addr : AddrOp) (s : State) : Out State :=
  .next (issue (.stP a size ss addr) s)

def execVldP (a : At) (vd : BitVec 5) (addr : AddrOp) (s : State) : Out State := .next (issue (.vldP a vd addr) s)

def execVstP (a : At) (vs : BitVec 5) (addr : AddrOp) (s : State) : Out State := .next (issue (.vstP a vs addr) s)

def execVpack (a : At) (vs : BitVec 5) (addr : AddrOp) (fmt : BitVec 4) (gear : BitVec 2) (s : State) : Out State :=
  .next (issue (.vpack a vs addr fmt gear) s)

def execXaSave (a : At) (r : BitVec 3) (addr : AddrOp) (s : State) : Out State := .next (issue (.xaSave a r addr) s)

def execXaMerge (a : At) (r : BitVec 3) (addr : AddrOp) (s : State) : Out State := .next (issue (.xaMerge a r addr) s)

/-! ### The matrix slot (R182, R185) -/

def execMma (a : At) (t sd : BitVec 5) (s : State) : Out State := .next (issue (.mma a t sd) s)

def execAccRd (a : At) (vd t : BitVec 5) (r : BitVec 4) (s : State) : Out State := .next (issue (.accRd a vd t r) s)

def execAccWr (a : At) (t : BitVec 5) (r : BitVec 4) (vs : BitVec 5) (s : State) : Out State := .next (issue (.accWr a t r vs) s)

def execAccClr (a : At) (t : BitVec 5) (s : State) : Out State := .next (issue (.accClr a t) s)

/-! ### The datapath slot (R170, R188) -/

def execDp (a : At) (cfg vd va vb vc sa : BitVec 5) (s : State) : Out State := .next (issue (.dp a cfg vd va vb vc sa) s)

def execScalarIntegerOperation (a : At) (code : BitVec 8) (sd sa sb : BitVec 5) (s : State) : Out State :=
  .next (issue (.scalarIntegerOperation a code sd sa sb) s)

/-! ### The control slot (R168, R170) -/

def execBranch (a : At) (code : BitVec 4) (sa : BitVec 5) (target : BitVec 14) (s : State) : Out State :=
  .next (issue (.branch a code sa target) s)

def execLoopCounter (a : At) (code : BitVec 4) (sa : BitVec 5) (target : BitVec 14) (s : State) : Out State :=
  .next (issue (.loopCounter a code sa target) s)

def execYield (a : At) (s : State) : Out State := .next (issue (.yield_ a) s)

def execHalt (a : At) (s : State) : Out State := .next (issue (.halt a) s)

def execId (a : At) (sd : BitVec 5) (s : State) : Out State := .next (issue (.id_ a sd) s)

/-! ### The stream slot (R174, R175) -/

def execStrStart (a : At) (n ss : BitVec 5) (s : State) : Out State := .next (issue (.strStart a n ss) s)

def execStrWait (a : At) (n : BitVec 5) (s : State) : Out State := .next (issue (.strWait a n) s)

def execStrStop (a : At) (n : BitVec 5) (s : State) : Out State := .next (issue (.strStop a n) s)

end Sys2Proof.Machine
end

