-- ==== Sys2Proof/Machine/TileCtl.lean ====
section
/-! DEFINITION. `TILE_LOAD`, `TILE_START`, `TILE_STOP` (R164 to R166), the unloading of tiles (R36, R321, R336), and
`SYNC_SET` and `SYNC_WAIT` (R305). -/

namespace Sys2Proof.Machine

/-! ### Tile sets (R303) -/

def tileId (w i : Nat) : BitVec 10 := BitVec.ofNat 10 (w * 64 + i)

/-- The tiles of a set: every set tile index on each set wheel. -/
def tileSet (p : Word) : List (BitVec 10) :=
  ((List.range 16).filter fun w => bit p (48 + w)).flatMap fun w =>
    ((List.range 48).filter fun i => bit p i).map (tileId w)

/-! ### `TILE_LOAD` (R164, R165) -/

/-- The program that a header and its sections spell; none when they break R165 or R187. -/
def parseProg (r : BitVec 6) (b : List Byte) : Option Prog :=
  let bundles := fieldB b 4 2
  let configs := fieldB b 6 1
  let streams := fieldB b 7 1
  let entry := (List.range 16).map fun c => BitVec.ofNat 16 (fieldB b (8 + 2 * c) 2)
  let acc := fieldB b 0x28 16
  let xa := fieldB b 0x38 4
  let fs := fieldB b 0x3C 2
  let cfg := (List.range configs).map fun i => words64 16 (b.drop (64 + 16 * bundles + 128 * i))
  if fieldB b 0 4 == 0x54500001 && decide (1 ≤ bundles) && decide (bundles ≤ 8192) && decide (configs ≤ 32) &&
      decide (streams ≤ 32) && entry.all (fun e => e = 0xFFFF || decide (e.toNat < bundles)) && fs / 16384 % 2 == 0 &&
      zeroB b 0x3E 2 && cfg.all configOk then
    some
      { rider := r, bundles := bundles, code := words64 (2 * bundles) (b.drop 64), configs := cfg, streams := streams
        entry := entry, accOwner := (List.range 32).map fun i => BitVec.ofNat 4 (acc >>> (4 * i))
        xaOwner := (List.range 8).map fun i => BitVec.ofNat 4 (xa >>> (4 * i)), faultSync := BitVec.ofNat 16 fs }
  else none

/-- Stream slots taken on a wheel, and by a rider on the module (R32, R54). -/
def wheelStreams (s : State) (w : Nat) : Nat :=
  ((s.tiles.filter fun x => tileWheel x.id == w).map fun x => match x.prog with | some p => p.streams | none => 0).sum

def riderStreams (s : State) (r : BitVec 6) : Nat :=
  (s.tiles.map fun x => match x.prog with | some p => if p.rider = r then p.streams else 0 | none => 0).sum

/-- Check 5: free stream slots on each wheel, and the rider's `MAX_STREAMS`. -/
def slotsFree (s : State) (r : BitVec 6) (ts : List (BitVec 10)) (n : Nat) : Bool :=
  ((List.range 16).all fun w => decide (wheelStreams s w + n * (ts.filter fun t => tileWheel t == w).length ≤ 1024)) &&
    decide (riderStreams s r + n * ts.length ≤ (match riderEntry s r with | some e => e.maxStreams.toNat | none => 0))

def tileLoaded (s : State) (t : BitVec 10) : Bool := (findTile s t).any (·.prog.isSome)

/-- Put a program into a tile. -/
def loadTile (p : Prog) (t : BitVec 10) (s : State) : State :=
  match findTile s t with
  | some _ => updTile t (fun x => { x with prog := some p }) s
  | none => { s with tiles := s.tiles ++ [{ Tile.blank t with prog := some p }] }

/-- Every byte of a range lies in extents live for the rider with the rider as a reader (check 2). -/
def imageLive (s : State) (r : BitVec 6) (off len : Nat) : Bool :=
  decide (off + len ≤ 2 ^ 48) &&
    (seqFrom (extentOf off) (extentOf (off + len - 1) - extentOf off + 1)).all fun i =>
      match findExt s i with | some x => x.mirrorOf.isNone && extLive s x r | none => false

/-- Checks 3 to 5 on an image that has been read, then the load. -/
def loadImage (ts : List (BitVec 10)) (r : BitVec 6) (b : List Byte) (s : State) : Eff :=
  match parseProg r b with
  | none => Eff.stat .badParam s
  | some p =>
    if ts.any (tileFenced s) then Eff.stat .fenced s
    else if ts.any (tileLoaded s) then Eff.stat .busy s
    else if !slotsFree s r ts p.streams then Eff.stat .busy s
    else Eff.ok (ts.foldl (fun s t => loadTile p t s) s)

def bodyTileLoad : Body := fun c s =>
  let ts := tileSet (c.p 0)
  let off := (c.p 1).toNat
  let r := c.h.r
  let q := rqOf r (srcEngine 0)
  if ts.isEmpty || 2 ^ 48 ≤ off then Eff.stat .badParam s
  else if !imageLive s r off 64 then Eff.stat .revoked s
  else match homeReadN s q off 64 with
    | (.wait, s) => waitFor 0x400 c s
    | (.fail st, s) => Eff.stat st s
    | (.data h, s) =>
      let len := 64 + 16 * fieldB h 4 2 + 128 * fieldB h 6 1
      let fs := fieldB h 0x3C 2
      if !imageLive s r off len || (32768 ≤ fs && !riderHasSync s r (fs % 16384)) then Eff.stat .revoked s
      else if 8192 < fieldB h 4 2 || 32 < fieldB h 6 1 then Eff.stat .badParam s
      else match homeReadN s q off len with
        | (.wait, s) => waitFor 0x400 c s
        | (.fail st, s) => Eff.stat st s
        | (.data b, s) => loadImage ts r b s

def execTileLoad (c : Cmd) (s : State) : Out State := .next (runPacket 0x400 c bodyTileLoad s)

/-! ### Stopping (R166) -/

/-- A context stops issuing at its next bundle boundary. -/
def haltCtx (t : BitVec 10) (c : BitVec 4) (s : State) : State :=
  match findCtx s t c with
  | none => s
  | some k =>
    match k.st with
    | .running =>
      setCtxSt t c .halted (updCtx t c (fun k => { k with bundle := [] }) s)
    | .ready => setCtxSt t c .halted s
    | .blocked => setCtxSt t c .halted (leaveWait t c s)
    | _ => s

/-- The context has no access, fence, store or signal in progress. -/
def Ctx.quiet (k : Ctx) : Bool :=
  k.stores.isEmpty && k.sigs.isEmpty && decide (k.st ≠ .running) &&
    (match k.block with | .access _ _ => false | .fence => false | _ => true)

/-- Unload a tile: everything it holds is cleared but its counters (R166 mode 1). -/
def unloadTile (t : BitVec 10) (s : State) : State :=
  let s := updTile t (fun x => { Tile.blank t with stall := x.stall, bank := x.bank, faults := x.faults }) s
  let mine (w : XClient) : Bool := match w with | .tile u => u = t | .stream u _ => u = t | _ => false
  { s with
    xlat.walks := dropIf s.xlat.walks fun w => mine w.client
    sync.waits := dropIf s.sync.waits fun w => match w.who with | .ctx u _ => u = t | .cmd _ => false
    fab.loads := dropIf s.fab.loads fun l => match l.by_ with | .ctx u _ | .stream u _ => u = t | .op _ => false
    fab.gblocks := s.fab.gblocks.map fun g => { g with waiting := dropIf g.waiting fun a => a.tile = t } }

/-- Stop every stream of a tile at its next beat boundary. -/
def stopStreams (t : BitVec 10) (s : State) : State :=
  stopIdle t (updTile t (fun x => { x with streams := updIf x.streams (·.running) fun z => { z with stopping := true } }) s)

/-- A stop that has not returned: it ends once the contexts, and for an unload the streams, are done. -/
def tryStop (o : Open) (ts : List (BitVec 10)) (mask : BitVec 16) (unload : Bool) (s : State) : State × Option Job :=
  let idle := ts.all fun t => match findTile s t with
    | some x => ((x.ctxs.mapIdx fun i k => !bit mask i || k.quiet).all id) && (!unload || x.streams.all fun z => !z.running)
    | none => true
  if !idle then (s, some (.stop o ts mask unload))
  else (completeIf o .ok 0 [] (if unload then ts.foldl (fun s t => unloadTile t s) s else s), none)

/-- The tiles of a command hold programs of its rider. -/
def tilesOf (s : State) (r : BitVec 6) (ts : List (BitVec 10)) : Bool := ts.all fun t => tileRider s t == some r

def maskCtxs (mask : BitVec 16) : List (BitVec 4) := ((List.range 16).filter fun i => bit mask i).map (BitVec.ofNat 4)

def bodyTileStop : Body := fun c s =>
  let ts := tileSet (c.p 0)
  let unload := bit (c.p 1) 16
  let mask : BitVec 16 := if unload then 0xFFFF else BitVec.ofNat 16 (bits (c.p 1) 0 16)
  if ts.isEmpty || bits (c.p 1) 17 47 ≠ 0 then Eff.stat .badParam s
  else if !tilesOf s c.h.r ts then Eff.stat .revoked s
  else
    let s := ts.foldl (fun s t => (maskCtxs mask).foldl (fun s k => haltCtx t k s) s) s
    let s := if unload then ts.foldl (fun s t => stopStreams t s) s else s
    Eff.later (addJob (tryStop (openOf 0x402 c) ts mask unload s))

def execTileStop (c : Cmd) (s : State) : Out State := .next (runPacket 0x402 c bodyTileStop s)

/-! ### Starting (R166) -/

/-- A masked context may be started: mode 0 an idle or halted one with an entry, mode 1 a halted one. -/
def startOk (s : State) (resume : Bool) (t : BitVec 10) (c : BitVec 4) : Bool :=
  match findTile s t with
  | none => false
  | some x => match x.prog, x.ctxs[c.toNat]? with
    | some p, some k =>
      if resume then decide (k.st = .halted)
      else (decide (k.st = .idle) || decide (k.st = .halted)) && decide (p.entry.getD c.toNat 0xFFFF ≠ 0xFFFF)
    | _, _ => false

/-- Start a context: at its entry with its registers cleared, or at the bundle it had not yet issued. -/
def startCtx (resume : Bool) (t : BitVec 10) (c : BitVec 4) (s : State) : State :=
  let entry := match (findTile s t).bind (·.prog) with | some p => (p.entry.getD c.toNat 0).toNat | none => 0
  let s := updCtx t c (fun k =>
    if resume then k
    else { Ctx.blank with pc := entry, stores := k.stores, sigs := k.sigs, nextSeq := k.nextSeq, refused := k.refused }) s
  match findCtx s t c with
  | some k => setCtxSt t c (if k.block = .none then .ready else .blocked) s
  | none => s

/-- New work is refused while a composition closes or the pair hands over (R36, R283). -/
def closing (s : State) : Bool :=
  (match s.compose with | .draining _ _ => true | _ => false) || decide (s.pair.st = 6)

def bodyTileStart : Body := fun c s =>
  let ts := tileSet (c.p 0)
  let resume := bit (c.p 1) 16
  let cs := maskCtxs (BitVec.ofNat 16 (bits (c.p 1) 0 16))
  if ts.isEmpty || bits (c.p 1) 17 47 ≠ 0 then Eff.stat .badParam s
  else if !tilesOf s c.h.r ts then Eff.stat .revoked s
  else if closing s then Eff.stat .busy s
  else if !(ts.all fun t => cs.all (startOk s resume t)) then Eff.stat .badParam s
  else
    let s := ts.foldl (fun s t => cs.foldl (fun s k => startCtx resume t k s) s) s
    Eff.ok (ts.foldl (fun s t => progEnd t 17 s) s)

def execTileStart (c : Cmd) (s : State) : Out State := .next (runPacket 0x401 c bodyTileStart s)

/-! ### Fenced tiles (R336) -/

/-- A tile is fenced: each active context faults with `FENCED`, then the tile is unloaded. -/
def fenceTile (t : BitVec 10) (s : State) : State :=
  match findTile s t with
  | none => s
  | some x =>
    if x.prog.isNone then s
    else
      let act := (List.range 16).filter fun i => match x.ctxs[i]? with
        | some k => k.st = .ready || k.st = .running || k.st = .blocked
        | none => false
      let s := act.foldl (fun s i =>
        let pc := match x.ctxs[i]? with | some k => k.pc | none => 0
        ctxFault t (BitVec.ofNat 4 i) pc .fenced 0 0 0 0 s) s
      unloadTile t s

/-! ### `SYNC_SET`, `SYNC_WAIT` (R305) -/

/-- What refuses a sync command: a queue may name only its rider's objects. -/
def syncCmdRefusal (s : State) (c : Cmd) (obj : Nat) : Option Status :=
  match c.h.src with
  | .queue _ => syncRefusal s c.h.r obj
  | _ => if syncFenced s obj then some .fenced else none

def bodySyncSet : Body := fun c s =>
  let obj := bits (c.p 0) 0 14
  if bits (c.p 0) 14 50 ≠ 0 then Eff.stat .badParam s
  else match syncCmdRefusal s c obj with
    | some st => Eff.stat st s
    | none => Eff.ok (syncWrite obj (c.p 1) s)

def execSyncSet (c : Cmd) (s : State) : Out State := .next (runPacket 0x403 c bodySyncSet s)

def bodySyncWait : Body := fun c s =>
  let p := c.p 0
  let obj := bits p 0 14
  if bits p 14 2 ≠ 0 || bits p 17 47 ≠ 0 then Eff.stat .badParam s
  else match syncCmdRefusal s c obj with
    | some st => Eff.stat st s
    | none =>
      let w : Wait := { who := .cmd (openOf 0x404 c), obj := BitVec.ofNat 14 obj, eq := bit p 16, value := c.p 1, limit := c.p 2 }
      if w.holds (syncVal s obj) then Eff.res .ok (syncVal s obj) s
      else Eff.later { s with sync.waits := s.sync.waits ++ [w] }

def execSyncWait (c : Cmd) (s : State) : Out State := .next (runPacket 0x404 c bodySyncWait s)

/-- The limit of a `SYNC_WAIT` runs out: `TIMEOUT` with the object's value. -/
def syncWaitExpires (src : Src) (tag : BitVec 32) (s : State) : State :=
  let mine (w : Wait) : Bool := decide (w.limit ≠ 0) && (match w.who with | .cmd o => o.h.src = src && o.h.tag = tag | .ctx _ _ => false)
  let ended := s.sync.waits.filter mine
  ended.foldl (fun s w => endWait false w s) { s with sync.waits := dropIf s.sync.waits mine }

def execSyncWaitLimit (src : Src) (tag : BitVec 32) (s : State) : Out State := .next (whenUp s (syncWaitExpires src tag))

end Sys2Proof.Machine
end

