-- ==== Sys2Proof/Machine/Fabric.lean ====
section
/-! DEFINITION. The receiving and acknowledging side of the fabric (chapter 14): windows (R259, R260), landing and
acknowledgement (R261), the end-to-end limit and the discard order (R263), edge agents' fences (R264), gateways (R265,
R266). -/

namespace Sys2Proof.Machine

/-! ### Distances and windows (R259, R260) -/

def seqDist (base x : BitVec 32) : Nat := (x - base).toNat

/-- An order of sequence numbers around a base: numbers below it come first. -/
def seqKey (base x : BitVec 32) : Nat := (x - base + 0x80000000).toNat

/-- A window's name: its source and that source's peloton (notes/assumptions/146.md), and whether it serves the expelled twin
(R290). -/
abbrev WKey := Sender × Bool

/-- The window a store belongs to. -/
def winKey (s : State) (p : StorePkt) : WKey :=
  (p.sender, s.pair.surr && opaModule p.opa == s.twinNo && opaSpace p.opa == 0)

def Window.key (w : Window) : WKey := (w.source, w.surr)

def findWin (s : State) (k : WKey) : Option Window := s.fab.rx.find? (·.key = k)

/-- The window of a source that has been closed. -/
def pastWin (s : State) (k : WKey) : Option Window := s.fab.past.find? (·.key = k)

def updWin (k : WKey) (f : Window → Window) (s : State) : State := { s with fab.rx := updIf s.fab.rx (·.key = k) f }

def Window.open_ (k : WKey) (base : BitVec 32) : Window :=
  { source := k.1, surr := k.2, base := base, marked := [], refused := [], flagged := [], dropped := false }

/-- The base passes every number that is marked. -/
def advance : Nat → Window → Window
  | 0, w => w
  | n + 1, w =>
    if w.marked.contains w.base then advance n { w with base := w.base + 1, marked := w.marked.erase w.base } else w

def markSeq (k : WKey) (x : BitVec 32) (refused : Option Status) (s : State) : State :=
  updWin k (fun w => advance 4096
    { w with
      marked := if w.marked.contains x then w.marked else w.marked ++ [x]
      refused := match refused with | some st => w.refused ++ [(x, st)] | none => w.refused }) s

/-- Acknowledge a window: base, landed numbers, refused numbers with their status (R261). -/
def sendAck (k : WKey) (s : State) : State :=
  match findWin s k with
  | some w =>
    emit (.seqAck (BitVec.ofNat 8 (if k.2 then s.twinNo else s.me)) w.source w.base w.marked w.refused) s
  | none => s

/-- Both Chainrings that hold a source's windows are fenced: its stores are neither applied nor refused (R342). -/
def windowStuck (s : State) (source : BitVec 24) : Bool :=
  let w := (Config.windowWheel source).val
  unitFenced s (unitChainring w) && unitFenced s (unitChainring ((w + 8) % 16))

/-- The twin learns which numbers have landed in an extent (R279). -/
def sendMark (p : StorePkt) (s : State) : State :=
  if opaSpace p.opa ≠ 0 then s
  else if s.pair.st = 2 || s.pair.st = 3 || s.pair.st = 6 then emit (.landingMark p.sender p.epoch p.seq) s else s

/-! ### Who sends (R24, R258, R264, R266) -/

def edgeSource (src : BitVec 16) : BitVec 24 := BitVec.ofNat 24 (2 ^ 23 + src.toNat)

/-- The rider that a store acts for, or its refusal: one of a listed module is taken as the request gives it. -/
def storeRider (s : State) (p : StorePkt) : Status ⊕ BitVec 6 :=
  if p.peloton.toNat ≠ s.peloton then
    match pelotonRoute s p.peloton.toNat with
    | some x => if bit x.w0 15 then .inr (BitVec.ofNat 6 (bits x.w0 8 6)) else .inl .auth
    | none => .inl .auth
  else if bit p.source 23 then
    match sourceIn (sideRoutes s (winKey s p).2) (BitVec.ofNat 16 (bits p.source 0 16)) with
    | some x => if x.caching && agentLost s x.agent then .inl .fenced else .inr x.rider
    | none => .inl .auth
  else
    let m := bits p.source 17 6
    if (moduleEntry s m).isNone || s.expelled.any (·.toNat == m) then .inl .auth
    else .inr p.rider

/-- The status with which a parked module answers a fabric request (R289, R377). -/
def kickStatus (s : State) : Status := if s.power.kick = 3 then .ownerLost else .busy

/-! ### Applying a store at its home -/

/-- Apply a store line by line: it lands, is refused, or waits after the bytes that the number tells (R147). -/
def applyStore (p : StorePkt) (s : State) : WrOut × Nat × State :=
  match storeRider s p with
  | .inl st => (.fail st, 0, s)
  | .inr r =>
    let q : Rq := { rider := r, op := none, source := srcFabric p.source, va := 0 }
    if s.power.st = .kickstand then (.fail (kickStatus s), 0, s)
    else match target s p.opa with
      | .off o => if s.pair.st = 7 then (.fail .ownerLost, 0, s) else homeWriteN s q o p.data
      | .sync obj => match syncStore s r obj p.data with
        | (some st, s) => (.fail st, 0, s)
        | (none, s) => (.done, p.data.length, s)
      | .reg => (.fail .auth, 0, s)
      | .bad st => (.fail st, 0, badOpa q st p.opa s)
      | _ => (.fail .translation, 0, s)

/-- A number lands or is refused: marked, acknowledged, and told to the twin. -/
def finishStore (p : StorePkt) (refused : Option Status) (s : State) : State :=
  let k := winKey s p
  let s := sendAck k (markSeq k p.seq refused s)
  if refused.isNone then sendMark p s else s

/-- The status of the lowest refused number of a cover range (R152, R259). -/
def coverRefusal (w : Window) (p : StorePkt) : Option Status :=
  let n := seqDist p.coverFrom p.seq
  let rs := w.refused.filter fun e => decide (seqDist p.coverFrom e.1 < n)
  ((sortBy (fun e => seqDist p.coverFrom e.1) rs).head?).map (·.2)

/-- Apply the held flagged stores that the base has reached (R151, R152). -/
def tryFlags (k : WKey) : Nat → State → State
  | 0, s => s
  | n + 1, s =>
    match findWin s k with
    | none => s
    | some w => match w.flagged.find? fun f => f.1.seq = w.base with
      | none => s
      | some f =>
        let p := f.1
        if windowStuck s p.source then s else
        let drop (s : State) : State := updWin k (fun w => { w with flagged := dropIf w.flagged (·.1.seq = p.seq) }) s
        if !flaggedForm p.opa p.data.length then tryFlags k n (finishStore p (some .misaligned) (drop s))
        else match coverRefusal w p with
          | some st => tryFlags k n (finishStore p (some st) (drop s))
          | none => match applyStore p s with
            | (.done, _, s) => tryFlags k n (finishStore p none (drop s))
            | (.fail st, _, s) => tryFlags k n (finishStore p (some st) (drop s))
            | (.wait, _, s) => s

/-! ### Arrival -/

/-- A copy of the store is already held at the module. -/
def storeHeld (s : State) (p : StorePkt) : Bool :=
  s.held.any (fun h => match h.what with | .store q _ => winKey s q = winKey s p && q.seq = p.seq | _ => false) ||
    (findWin s (winKey s p)).any fun w => w.flagged.any (·.1.seq = p.seq)

/-- A store that needs one more window than 65,536 is held back by credit (R259). -/
def noWindow (s : State) (p : StorePkt) : Bool := (findWin s (winKey s p)).isNone && decide (65536 ≤ s.fab.rx.length)

/-- The module's window for a source; none after a discard order for a copy of what was discarded (R263). The sender's lowest
unacknowledged number raises the base of a window taken over from a lost module, and of one whose other stores are relayed. -/
def openWin (p : StorePkt) (s : State) : Option (Window × State) :=
  match findWin s (winKey s p) with
  | none =>
    let k := winKey s p
    let w := { Window.open_ k p.lowest with refused := ((pastWin s k).map (·.refused)).getD [] }
    some (w, { s with fab.rx := s.fab.rx ++ [w], fab.past := dropIf s.fab.past (·.key = k) })
  | some w =>
    if (w.surr || s.pair.st = 7) && decide (seqDist w.base p.lowest < 2 ^ 31) then
      let w := advance 4096 { w with base := p.lowest, marked := w.marked.filter fun x => decide (seqDist p.lowest x < 2 ^ 31) }
      some (w, updWin (winKey s p) (fun _ => w) s)
    else if !w.dropped then some (w, s)
    else if p.lowest = p.seq && decide (seqDist w.base p.seq ≠ 0) && decide (seqDist w.base p.seq < 2 ^ 31) then
      let w := Window.open_ (winKey s p) p.lowest
      some (w, updWin (winKey s p) (fun _ => w) s)
    else none

/-- A store of the window that may be treated now: a flagged one joins the flags, a plain one is applied, and
what must wait of it is held. -/
def treatStore (p : StorePkt) (port : Fin 24) (s : State) : State :=
  if p.flagged then
    tryFlags (winKey s p) 4096 (updWin (winKey s p) (fun w => { w with flagged := w.flagged ++ [(p, port)] }) s)
  else match applyStore p s with
    | (.done, _, s) => tryFlags (winKey s p) 4096 (finishStore p none s)
    | (.fail st, _, s) => tryFlags (winKey s p) 4096 (finishStore p (some st) s)
    | (.wait, n, s) => holdAt (some p.epoch) (.store (p.rest n) port) s

/-- An earlier store of the source to the line is still held (R149). -/
def lineHeld (s : State) (p : StorePkt) : Bool :=
  s.held.any fun h => match h.what with
    | .store q _ => winKey s q = winKey s p && decide (seqDist q.seq p.seq ≠ 0) && decide (seqDist q.seq p.seq < 2 ^ 31) &&
        linesMeet q.opa.toNat q.data.length p.opa.toNat p.data.length
    | _ => false

/-- A store at ingress must be held (R36, R37, R371), or behind an earlier one of its source (R149). -/
def holdsStore (s : State) (p : StorePkt) : Bool :=
  s.power.hold || lineHeld s p || mustHold s (match storeRider s p with | .inr r => r | .inl _ => p.rider) (some p.epoch)

/-- A store that names another module goes on to it (R21), unless the module must refuse it; a module that relays sends its
mirrored runs' stores to its twin (R283). -/
def passesOn (s : State) (p : StorePkt) : Bool :=
  (storeRider s p).isRight && match target s p.opa with
    | .module _ | .peloton _ => true
    | .off o => decide (s.pair.st = 7) && mirrored s (extentOf o)
    | _ => false

/-- A store under an older epoch is refused; numbers count anew in each epoch, so no window of the current one has part in
it (R37, R258, R259). -/
def staleStore (p : StorePkt) (s : State) : State :=
  emit (.seqAck (BitVec.ofNat 8 (if (winKey s p).2 then s.twinNo else s.me)) p.sender p.lowest [] [(p.seq, .staleMap)]) s

/-- A sequenced store arrives (R259). -/
def storeArrives (p : StorePkt) (port : Fin 24) (s : State) : State :=
  if passesOn s p then emit (.relayed p) s
  else if storeHeld s p || windowStuck s p.source then s
  else if p.epoch < epochNow s then staleStore p s
  else if epochNow s < p.epoch || noWindow s p then holdAt (some p.epoch) (.store p port) s
  else match openWin p s with
    | none => s
    | some (w, s) =>
      let d := seqDist w.base p.seq
      if 2 ^ 31 ≤ d || w.marked.contains p.seq then
        sendAck (winKey s p) (updPort port.val (fun x => { x with dups := bumpSat x.dups 1 }) s)
      else if 4096 ≤ d then
        detect { Rec.blank 0x0015 with
          point := 0x0A, unit := unitPort port.val, source := srcFabric p.source, arg0 := p.source.setWidth 64
          arg1 := p.seq } s
      else if holdsStore s p then
        holdAt (some p.epoch) (.store p port) s
      else treatStore p port s

/-- A packet comes in through a port: the port must carry traffic. -/
def throughPort (port : Fin 24) (s : State) (f : State → State) : State :=
  whenUp s fun s => if portUp s port.val then f s else s

def execRemoteStoreArrival (p : StorePkt) (port : Fin 24) (s : State) : Out State :=
  .next (throughPort port s (storeArrives { p with flagged := false } port))

def execFlaggedStoreArrival (p : StorePkt) (port : Fin 24) (s : State) : Out State :=
  .next (throughPort port s (storeArrives { p with flagged := true } port))

/-- A gateway frame arrives: its records are treated one by one (R265, R266). -/
def execGatewayFrame (from_ : BitVec 8) (port : Fin 24) (records : List StorePkt) (s : State) : Out State :=
  .next (throughPort port s fun s =>
    records.foldl (fun s p => storeArrives { p with peloton := from_ } port s) s)

/-! ### Acknowledgements at the sender (R258, R261) -/

/-- A store of a context was refused at another module (R173). -/
def refuseRemote (t : BitVec 10) (c : BitVec 4) (seq : Nat) (st : Status) (s : State) : State :=
  match (findCtx s t c).bind fun k => k.stores.find? (·.seq == seq) with
  | some e => refuseStore t c e st (some (dstOf s e.opa)) s
  | none => s

/-- A store of an operation or of a stream was refused at another module: the operation ends with that status once its other
stores are acknowledged, and the stream stops (R157, R176). -/
def failSource (source : BitVec 24) (st : Status) (s : State) : State :=
  let s := { s with eng.ops := updIf s.eng.ops (fun o => opSource s o.id = source && o.fault.isNone) fun o =>
    { o with fault := some (st, o.here) } }
  let zs := s.tiles.flatMap fun x => (x.streams.filter fun z => streamSource s x.id z.n = source).map fun z => (x.id, z.n)
  zs.foldl (fun s z => failStream z.1 z.2 st s) s

/-- An unacknowledged store completes. -/
def endUnacked (u : Unacked) (st : Option Status) (s : State) : State :=
  match u.done, st with
  | some (t, c, seq), none => dropStore t c seq s
  | some (t, c, seq), some st => refuseRemote t c seq st s
  | none, none => s
  | none, some st => failSource u.pkt.source st s

/-- An acknowledgement covers every number below its base and those it lists. -/
def ackCovers (base : BitVec 32) (landed : List (BitVec 32)) (refused : List (BitVec 32 × Status)) (u : Unacked) : Bool :=
  decide (2 ^ 31 ≤ seqDist base u.pkt.seq) || landed.contains u.pkt.seq || refused.any (·.1 = u.pkt.seq)

/-- The stores of a channel that an acknowledgement covers complete, and what waited for them goes on. -/
def ackArrives (source : BitVec 24) (dst : ModuleRef) (base : BitVec 32) (landed : List (BitVec 32))
    (refused : List (BitVec 32 × Status)) (s : State) : State :=
  match findChan s source dst.peloton.toNat dst.module.toNat with
  | none => s
  | some c =>
    let (done, left) := c.unacked.partition (ackCovers base landed refused)
    let s := setChan { c with unacked := left } s
    let s := done.foldl (fun s u => endUnacked u (lookupK refused u.pkt.seq) s) s
    s.tiles.foldl (fun s x => (List.range 16).foldl (fun s i =>
      if ctxSource s x.id (BitVec.ofNat 4 i) = source then pumpStores x.id (BitVec.ofNat 4 i) 32 s else s) s) s

def execSeqAck (source : BitVec 24) (dst : ModuleRef) (base : BitVec 32) (landed : List (BitVec 32))
    (refused : List (BitVec 32 × Status)) (s : State) : Out State :=
  .next (whenUp s (ackArrives source dst base landed refused))

/-- The acknowledgement timer of a window (R261). -/
def execSeqAckTimer (source : Sender) (s : State) : Out State := .next (whenUp s fun s => sendAck (source, true) (sendAck (source, false) s))

/-! ### Fence requests of edge agents (R264) -/

/-- A fence request is for this module's windows, or for those of the lost module it answers for; none: it names neither. -/
def fenceSide (s : State) (dst : BitVec 6) : Option Bool :=
  if dst.toNat = s.me then some false else if s.pair.surr && dst.toNat == s.twinNo then some true else none

/-- The window that a fence request of a source is held against: the open one, or the last that was closed. -/
def fenceWin (s : State) (surr : Bool) (source : BitVec 16) : Option Window :=
  let k : WKey := ({ peloton := BitVec.ofNat 8 s.peloton, source := edgeSource source }, surr)
  (findWin s k).orElse fun _ => pastWin s k

/-- The fence request can be answered: every lower number of the source has landed or been refused. -/
def fenceReady (s : State) (surr : Bool) (source : BitVec 16) (seq : BitVec 32) : Bool :=
  match fenceWin s surr source with
  | some w => decide (seqDist w.base seq = 0) || decide (2 ^ 31 ≤ seqDist w.base seq)
  | none => seq == 0

def fenceStatus (s : State) (surr : Bool) (source : BitVec 16) (seq : BitVec 32) : Status :=
  match fenceWin s surr source with
  | some w =>
    let rs := w.refused.filter fun e => decide (seqKey w.base e.1 < seqKey w.base seq)
    match sortBy (fun e => seqKey w.base e.1) rs with
    | e :: _ => e.2
    | [] => .ok
  | none => .ok

/-- A fence request must wait at the module. -/
def fenceWaits (s : State) (x : Route) (surr : Bool) (source : BitVec 16) (seq epoch : BitVec 32) : Bool :=
  s.power.hold || mustHold s x.rider (some epoch) || !fenceReady s surr source seq

/-- A fence request reaches the module it names: refused where the source has no entry for that module, else answered when it
is ready; a module that relays sends it to its twin (R283). -/
def fenceArrives (source : BitVec 16) (dst : BitVec 6) (txn seq epoch : BitVec 32) (s : State) : State :=
  let say (st : Status) : State := emit (.fenceCmp source txn st) s
  match fenceSide s dst with
  | none => say .auth
  | some surr => match sourceIn (sideRoutes s surr) source with
    | none => say .auth
    | some x =>
      if epoch < epochNow s then say .staleMap
      else if s.pair.st = 7 then emit (.relayedFence source txn seq epoch) s
      else if fenceWaits s x surr source seq epoch then holdAt (some epoch) (.fence source dst txn seq) s
      else say (fenceStatus s surr source seq)

def execFenceReq (ends : FenceEnds) (txn seq epoch : BitVec 32) (s : State) : Out State :=
  .next (whenUp s (fenceArrives ends.source ends.dst txn seq epoch))

/-! ### The discard order, the end-to-end limit, retention (R259, R263) -/

/-- Every number of the channel that has not landed is discarded, held ones among them; the order is acknowledged. -/
def execDiscardOrder (source : Sender) (from_ : BitVec 6) (s : State) : Out State :=
  .next (whenUp s fun s =>
    let s := updWin (source, false) (fun w => { w with flagged := [], dropped := true }) s
    let s := { s with held := dropIf s.held fun h => match h.what with | .store p _ => winKey s p = (source, false) | _ => false }
    emit (.discardAck from_ source) s)

def recTimeout (rider : BitVec 8) (source : BitVec 32) (addr : Word) (us : Nat) (point unit : BitVec 16) (s : State) : State :=
  detect { Rec.blank 0x0007 with
    status := Status.timeout.code, point := point, unit := unit, rider := rider, source := source, addr := addr
    arg0 := BitVec.ofNat 64 us } s

/-- Close a channel: every unacknowledged store completes `TIMEOUT`, and the destination is ordered to discard (R263). -/
def closeChan (c : Chan) (s : State) : State :=
  let s := setChan { c with unacked := [], closed := true, fenced := false, discard := true } s
  let s := match c.unacked with
    | u :: _ => recTimeout (riderByte u.pkt.rider) (srcFabric c.source) u.pkt.opa (s.fab.e2e.toNat * 1000) 0x0F 0 s
    | [] => s
  let s := c.unacked.foldl (fun s u => endUnacked u (some .timeout) s) s
  emit (.discard { peloton := c.peloton, module := c.dst } c.source) s

/-- A window whose bitmap has been empty for 2 ms is closed (R259). -/
def retireWin (k : WKey) (s : State) : State :=
  match findWin s k with
  | some w =>
    if w.marked.isEmpty && w.flagged.isEmpty &&
        !(s.held.any fun h => match h.what with | .store p _ => winKey s p = k | _ => false) then
      { s with fab.rx := dropIf s.fab.rx (·.key = k), fab.past := dropIf s.fab.past (·.key = k) ++ [w] }
    else s
  | none => s

def execWindowRetentionExpiry (source : Sender) (s : State) : Out State :=
  .next (whenUp s fun s => retireWin (source, true) (retireWin (source, false) s))

/-- A packet older than 1 ms is discarded before it is treated: nothing changes (R259). -/
def execPacketAgeDiscard (_port : Fin 24) (_p : StorePkt) (s : State) : Out State := .next s

/-! ### Gateways at the sender (R265) -/

/-- A 4 KiB block arrives: it serves every load that waits for it, and is discarded. -/
def execGatewayBlockRead (opa : Word) (data : List Byte) (status : Status) (s : State) : Out State :=
  .next (whenUp s fun s =>
    match s.fab.gblocks.find? (·.block = blockOf opa) with
    | none => s
    | some g =>
      let s := { s with fab.gblocks := dropIf s.fab.gblocks (·.block = blockOf opa) }
      g.waiting.foldl (fun s a => match a.kind with
        | .load n sd cached =>
          let o := a.va.toNat % 4096
          let whole := oneLine a.va n
          let bs := if whole then sliceB data (o / 64 * 64) 64 else sliceB data o n
          match (findCtx s a.tile a.ctx).map (·.block) with
          | some b => if b = .access a true then remoteLoad a n sd cached { data := bs, status := status } s else s
          | none => s
        | _ => s) s)

/-- The oldest record of a frame is `FRAME_AGE` old: the frame closes. -/
def execFrameAgeExpiry (peloton : BitVec 8) (module : BitVec 6) (s : State) : Out State :=
  .next (whenUp s fun s =>
    match s.fab.gframes.find? fun g => g.peloton = peloton && g.dst = module with
    | some g => closeFrame g s
    | none => s)

end Sys2Proof.Machine
end

