-- ==== Sys2Proof/Machine/Links.lean ====
section
/-! DEFINITION. Links and ports (R257, R262, R423), CXL ports and their mailbox (R267 to R270). -/

namespace Sys2Proof.Machine

/-! ### Port states -/

/-- The port state a TYPE 0x000C record carries (notes/assumptions/25.md): bit 1 up, bit 0 down. -/
def portCode (p : FPort) : Nat := p.up.toNat * 2 + p.down.toNat

def recPort (p : Nat) (s : State) : State :=
  let x := portAt s p
  detect { Rec.blank 0x000C with
    point := 0x09, unit := unitPort p, arg0 := BitVec.ofNat 64 (portCode x), arg1 := x.retrains.setWidth 32 } s

/-- The port through which a message about a line reaches an edge agent (R423). -/
def agentPort (s : State) (line : Nat) : Option (Fin 24) :=
  choosePort s ((List.range 24).filter fun p => (portAt s p).oxf && !(portAt s p).gateway) line

/-- The agent sits on OXF. -/
def agentEdge (s : State) (a : BitVec 10) : Bool := match agentRoute s a with | some x => x.type = 2 | none => false

/-- The snoop that a transaction sends an agent. -/
def snoopMsg (t : Trk) (a : BitVec 10) : OutMsg :=
  match t.what with
  | .req _ .rdShared => .snpShared a t.id t.line
  | .req _ .rdCur => .snpCur a t.id t.line
  | _ => .snpInv a t.id t.line

/-- Snoops that went out through a port that is no longer up are sent again. -/
def resendSnoops (old : State) (p : Nat) (s : State) : State :=
  s.coh.trks.foldl (fun s t =>
    if t.phase = .snoop && (agentPort old t.line).any (·.val == p) then
      { s with out := s.out ++ (t.snoops.filter (agentEdge s)).map (snoopMsg t) }
    else s) s

/-- Stores and loads that went out through a port, and are not answered, go out again on another one; with none up they wait
(R262). -/
def resendFrom (gone : Option (Fin 24) → Bool) (s : State) : State :=
  let s := s.fab.tx.foldl (fun s c =>
    let move (u : Unacked) : Unacked :=
      if gone u.port then { u with port := portFor s c.peloton.toNat c.dst.toNat (opaOffset u.pkt.opa) } else u
    let c' := { c with unacked := c.unacked.map move }
    let again := (c.unacked.zip c'.unacked).filter fun p => gone p.1.port && p.2.port.isSome
    again.foldl (fun s p => sendPkt c.peloton.toNat c.dst.toNat p.2.port p.2.pkt s) (setChan c' s)) s
  let s := s.fab.loads.foldl (fun s x => if gone x.port then resendLoad x s else s) s
  (s.fab.gblocks.filter fun g => gone g.port && !g.waiting.isEmpty).foldl (fun s g =>
    let port := portFor s (opaPeloton g.block) (opaModule g.block) (opaOffset g.block)
    let s := { s with fab.gblocks := updIf s.fab.gblocks (·.txn = g.txn) fun y => { y with port := port } }
    if port.isSome then
      emit (.gatewayRead (BitVec.ofNat 8 (opaPeloton g.block)) (BitVec.ofNat 6 (opaModule g.block)) port g.rider
        (epochFor s (opaPeloton g.block)) g.block) s
    else s) s

/-- A port stops being up. -/
def portGone (p : Nat) (f : FPort → FPort) (s : State) : State :=
  let old := s
  let was := (portAt s p).up
  let s := updPort p (fun x => { f x with up := false }) s
  if !was then s
  else
    let s := emit (.portUp (Fin.ofNat 24 p) false) (recPort p s)
    resendSnoops old p (resendFrom (fun q => match q with | some i => i.val == p | none => false) s)

/-- The port retrains: counted, and not up meanwhile; a fenced port attempts none (R336). -/
def startRetrain (p : Nat) (s : State) : State :=
  if unitFenced s (unitPort p) then portGone p id s
  else portGone p (fun x => { x with retraining := true, retrains := bumpSat x.retrains 1, replayRun := 0 }) s

/-- The port is one of the composition's and not already as told. -/
def onPort (port : Fin 24) (s : State) (f : State → State) : State :=
  whenUp s fun s => if (portAt s port.val).mode = 0 then s else f s

/-- The port sends a flit again: one more replay, after as many failed ones of that flit. -/
def replayFlit (p : Nat) (failed : Nat) (s : State) : State :=
  updPort p (fun x => { x with replays := bumpSat x.replays 1, replayRun := failed }) s

/-- A flit fails its FEC or CRC: it is replayed, and one that fails 8 replays makes the port retrain (R257). -/
def execFlitError (flit : FlitFail) (s : State) : Out State :=
  .next (onPort flit.port s fun s =>
    let x := portAt s flit.port.val
    let failed := if flit.again then x.replayRun + 1 else 0
    if !x.up then s else if 8 ≤ failed then startRetrain flit.port.val s else replayFlit flit.port.val failed s)

/-- Training ends: the port is up, rejoins the spread, and stores and loads that waited go out. -/
def portComesUp (p : Nat) (s : State) : State :=
  if unitFenced s (unitPort p) || (portAt s p).up then s
  else
    let s := updPort p (fun x => { x with up := true, down := false, retraining := false, replayRun := 0 }) s
    let s := recPort p s
    resendFrom (fun q => q.isNone) (emit (.portUp (Fin.ofNat 24 p) true) s)

def execPortTrained (port : Fin 24) (s : State) : Out State := .next (onPort port s (portComesUp port.val))

def execLinkLoss (port : Fin 24) (s : State) : Out State := .next (onPort port s (startRetrain port.val))

/-- Not up 10 ms after its last retrain began: the port stays down (R257). -/
def execPortRetrainLimit (port : Fin 24) (s : State) : Out State :=
  .next (onPort port s fun s =>
    let x := portAt s port.val
    if x.up || x.down || !x.retraining then s
    else recPort port.val (updPort port.val (fun x => { x with down := true, retraining := false }) s))

/-- A port that is down tries to retrain every 100 ms. -/
def execPortRetrainRetry (port : Fin 24) (s : State) : Out State :=
  .next (onPort port s fun s =>
    let x := portAt s port.val
    if x.up || !x.down || unitFenced s (unitPort port.val) then s
    else updPort port.val (fun x => { x with retraining := true, retrains := bumpSat x.retrains 1 }) s)

/-- Agents bound to a port (R104). -/
def portAgents (s : State) (port : Fin 24) : List (BitVec 10) :=
  ((myRoutes s).filter fun x => x.type = 3 && x.caching && x.port.toNat == port.val).map (·.agent)

def isCxl (p : FPort) : Bool := p.mode = 3 || p.mode = 4

/-- A CXL port is not up again 100 ms after it left the up state: its agents are lost, cause 3 (R122, R270). -/
def execCxlPortDownLimit (port : Fin 24) (s : State) : Out State :=
  .next (onPort port s fun s =>
    let x := portAt s port.val
    if x.up || !isCxl x then s else (portAgents s port).foldl (fun s a => declareLost a 3 s) s)

/-! ### The CXL mailbox (R267, R269) -/

/-- A request to a logical device: its port is in a CXL mode and up, and the record binds the LD. -/
def onLd (port : Fin 24) (ld : BitVec 4) (s : State) (f : Route → State → State) : State :=
  whenUp s fun s =>
    if !isCxl (portAt s port.val) || !portUp s port.val then s
    else match ldRoute s port ld with
      | some x => f x s
      | none => s

def cxlSay (port : Fin 24) (ld : BitVec 4) (what : String) (args : List Nat) (data : List Byte) (s : State) : State :=
  emit (.cxl port ld what args data) s

/-- An unsupported mailbox command (R269). -/
def cxlRefuse (port : Fin 24) (ld : BitVec 4) (what : String) (s : State) : State :=
  onLd port ld s fun _ s => cxlSay port ld what [] [] s

/-- `CXL` replies: bytes the spec leaves to CXL 3.1 are free values. -/
def execIdentifyMemoryDevice (port : Fin 24) (ld : BitVec 4) (s : State) : Out State :=
  .next (onLd port ld s fun _ s => cxlSay port ld "identify" [2 ^ 48] (Config.cxlBytes 0 ld.toNat) s)

def execGetSupportedLogs (port : Fin 24) (ld : BitVec 4) (s : State) : Out State :=
  .next (onLd port ld s fun _ s => cxlSay port ld "supported logs" [] (Config.cxlBytes 1 ld.toNat) s)

def execGetLog (port : Fin 24) (ld : BitVec 4) (log : BitVec 128) (offset length : BitVec 32) (s : State) : Out State :=
  .next (onLd port ld s fun _ s =>
    cxlSay port ld "log" [log.toNat, offset.toNat, length.toNat]
      (sliceB (Config.cxlBytes 2 log.toNat) offset.toNat length.toNat) s)

/-- The event records of the LD (R267). -/
def ldEvents (s : State) (port : Fin 24) (ld : BitVec 4) : List CxlEvent :=
  s.fab.events.filter fun e => e.port = port && e.ld = ld

def execGetEventRecords (port : Fin 24) (ld : BitVec 4) (s : State) : Out State :=
  .next (onLd port ld s fun _ s =>
    cxlSay port ld "events" ((ldEvents s port ld).flatMap fun e => [e.handle.toNat, e.off.toNat, e.status.code.toNat]) [] s)

def execClearEventRecords (port : Fin 24) (ld : BitVec 4) (handles : List (BitVec 16)) (s : State) : Out State :=
  .next (onLd port ld s fun _ s =>
    cxlSay port ld "events cleared" [] []
      { s with fab.events := dropIf s.fab.events fun e => e.port = port && e.ld = ld && handles.contains e.handle })

/-- The timestamp is the cadence counter (R269). -/
def execGetTimestamp (port : Fin 24) (ld : BitVec 4) (s : State) : Out State :=
  .next (onLd port ld s fun _ s => cxlSay port ld "timestamp" [s.now.toNat] [] s)

/-- One region from DPA 0 to 256 TiB in blocks of 16 GiB (R267). -/
def execGetDynamicCapacityConfiguration (port : Fin 24) (ld : BitVec 4) (s : State) : Out State :=
  .next (onLd port ld s fun _ s => cxlSay port ld "dc configuration" [1, 0, 2 ^ 48, 2 ^ 34] [] s)

/-- One extent for each run of this module in which the LD's rider is a reader (R267). -/
def dcExtents (s : State) (r : BitVec 6) : List Run :=
  match s.comp with
  | some c => c.runs.filter fun u => u.module = c.me && u.reader r
  | none => []

def execGetDynamicCapacityExtentList (port : Fin 24) (ld : BitVec 4) (start count : Nat) (s : State) : Out State :=
  .next (onLd port ld s fun x s =>
    let es := ((dcExtents s x.rider).drop start).take count
    cxlSay port ld "dc extents" (es.flatMap fun u => [u.first.toNat * 2 ^ 34, u.count.toNat * 2 ^ 34]) [] s)

def execSetTimestamp (port : Fin 24) (ld : BitVec 4) (s : State) : Out State := .next (cxlRefuse port ld "unsupported" s)
def execSanitize (port : Fin 24) (ld : BitVec 4) (s : State) : Out State := .next (cxlRefuse port ld "unsupported" s)
def execSecureErase (port : Fin 24) (ld : BitVec 4) (s : State) : Out State := .next (cxlRefuse port ld "unsupported" s)
def execScanMedia (port : Fin 24) (ld : BitVec 4) (s : State) : Out State := .next (cxlRefuse port ld "unsupported" s)
def execPartitionCommand (port : Fin 24) (ld : BitVec 4) (s : State) : Out State := .next (cxlRefuse port ld "unsupported" s)
def execGetPoisonList (port : Fin 24) (ld : BitVec 4) (s : State) : Out State := .next (cxlRefuse port ld "unsupported" s)
def execInjectPoison (port : Fin 24) (ld : BitVec 4) (s : State) : Out State := .next (cxlRefuse port ld "unsupported" s)
def execClearPoison (port : Fin 24) (ld : BitVec 4) (s : State) : Out State := .next (cxlRefuse port ld "unsupported" s)

/-- LD binding is fixed by the record: Bind and Unbind are refused. -/
def execFmApiBind (port : Fin 24) (ld : BitVec 4) (unbind : Bool) (s : State) : Out State :=
  .next (whenUp s fun s =>
    if isCxl (portAt s port.val) then cxlSay port ld (if unbind then "unbind refused" else "bind refused") [] [] s else s)

/-- Extents are added at composition boot only: a host's add and release requests are refused. -/
def execDynamicCapacityHostRequest (port : Fin 24) (ld : BitVec 4) (release : Bool) (s : State) : Out State :=
  .next (onLd port ld s fun _ s => cxlSay port ld (if release then "release refused" else "add refused") [] [] s)

def execCdatDoeRequest (port : Fin 24) (ld : BitVec 4) (s : State) : Out State :=
  .next (onLd port ld s fun _ s => cxlSay port ld "cdat" [] (Config.cxlBytes 3 ld.toNat) s)

end Sys2Proof.Machine
end

