-- ==== Sys2Proof/Machine/Engine.lean ====
section
/-! DEFINITION. Operations of the Chainring engines beat by beat: near-memory operations (chapter 13) and bulk transfers
(R306), `ENGINE_BEAT_COMPLETION`. -/

namespace Sys2Proof.Machine

/-! ### Addresses of an operation -/

def EngOp.src_ (o : EngOp) : BitVec 32 := match o.virt with | some q => srcQueue q | none => srcEngine o.id

def EngOp.rq (o : EngOp) (va : Word) : Rq := { rider := o.rider, op := some o.id, source := o.src_, va := va }

def updOp (id : Nat) (f : EngOp → EngOp) (s : State) : State := { s with eng.ops := updIf s.eng.ops (·.id == id) f }

inductive Gather where
  | data (bs : List Byte)
  | wait
  | remote (peloton m : Nat) (opa : Word)
  | fail (st : Status) (addr : Word)

/-- Read an operand of a beat: line by line on this module; one on another module is asked for there. -/
def opRead (s : State) (o : EngOp) (addr : Word) (len : Nat) : Gather × State :=
  (piecesOf addr.toNat len).foldl (fun acc p =>
    match acc.1 with
    | .data bs =>
      let a := BitVec.ofNat 64 p.1
      match cmdAddr acc.2 o.cmd.h a false with
      | (.wait, s) => (.wait, s)
      | (.refused st, s) => (.fail st a, s)
      | (.fault _ _, s) => (.fail .translation a, s)
      | (.ok opa, s) => match target s opa with
        | .off off => match homeRead s (o.rq a) off p.2 with
          | (.data b, s) => (.data (bs ++ b), s)
          | (.wait, s) => (.wait, s)
          | (.fail st, s) => (.fail st a, s)
        | .sync obj => match syncRead s o.rider obj p.2 with
          | .inr b => (.data (bs ++ b), s)
          | .inl st => (.fail st a, s)
        | .reg => (.fail .auth a, s)
        | .bad st => (.fail st a, badOpa (o.rq a) st opa s)
        | .module m => (.remote s.peloton m opa, s)
        | .peloton q => (.remote q (opaModule opa) opa, s)
    | _ => acc) (.data [], s)

inductive Scatter where
  | done
  | sent
  | wait
  | fail (st : Status) (addr : Word)

/-- Write what is left of a beat's result: line by line on this module, sequenced stores to another one (R258). `whole` tells
the pieces of whole store pages that the operation writes (R133, R245). -/
def opWrite (s : State) (o : EngOp) (addr : Word) (bs : List Byte) (whole : Nat → Nat → Bool) : Scatter × State :=
  (piecesOf (addr.toNat + o.put) (bs.length - o.put)).foldl (fun acc p =>
    let go (s : State) : Scatter × State :=
      let a := BitVec.ofNat 64 p.1
      let from_ := p.1 - addr.toNat
      let data := (bs.drop from_).take p.2
      let given (r : Scatter) (s : State) : Scatter × State := (r, updOp o.id (fun x => { x with put := from_ + p.2 }) s)
      let send (peloton m : Nat) (opa : Word) (s : State) : Scatter × State :=
        match sendStore (opSource s o.id) peloton m o.rider opa data false none s with
        | (.sent, s) => given .sent s
        | (.wait, s) => (.wait, s)
        | (.fail st, s) => (.fail st a, s)
      match cmdAddr s o.cmd.h a true with
      | (.wait, s) => (.wait, s)
      | (.refused st, s) => (.fail st a, s)
      | (.fault _ _, s) => (.fail .translation a, s)
      | (.ok opa, s) => match target s opa with
        | .off off => match homeWrite s (o.rq a) off (allBytes data) (whole p.1 off) with
          | (.done, s) => given acc.1 s
          | (.wait, s) => (.wait, s)
          | (.fail st, s) => (.fail st a, s)
        | .sync obj => match syncStore s o.rider obj data with
          | (none, s) => given acc.1 s
          | (some st, s) => (.fail st a, s)
        | .reg => (.fail .auth a, s)
        | .bad st => (.fail st a, badOpa (o.rq a) st opa s)
        | .module m => send s.peloton m opa s
        | .peloton q => send q (opaModule opa) opa s
    match acc.1 with
    | .done => go acc.2
    | .sent => go acc.2
    | _ => acc) (if 0 < unackedOf s (opSource s o.id) then .sent else .done, s)

/-- The whole store page around a piece lies in the operation's range `[lo, lo + len)`. -/
def wholePage (lo len : Nat) (addr off : Nat) : Bool :=
  let base := addr - off % 65536
  decide (off % 65536 ≤ addr) && decide (lo ≤ base) && decide (base + 65536 ≤ lo + len)

/-! ### Reductions (R246, R247) -/

/-- Elements of a beat: one, or a block of 64 when either side is gear-coded. -/
def beatElems (srcFg outFg : BitVec 8) : Nat := if fgGear srcFg ≠ 0 || fgGear outFg ≠ 0 then 64 else 1

/-- R117's rule, rounded once into a format (R247). -/
def Acc.readTo (a : Acc) (f : Fmt) : Nat :=
  if a.nan || a.ovf || (a.ninf && a.pinf) then f.qnan false
  else if a.pinf then f.encode .rne (.inf false)
  else if a.ninf then f.encode .rne (.inf true)
  else f.encode .rne (ofInt a.sum.toInt (-149) false)

/-- An order of values with −0.0 below +0.0: `a` comes before `b`. -/
def fvalLess (a b : FVal) : Bool :=
  match a, b with
  | .inf x, .inf y => x && !y
  | .inf x, .fin _ _ _ => x
  | .fin _ _ _, .inf y => !y
  | .fin x m e, .fin y n f =>
    let k := min e f
    let p := scaled x m e k
    let q := scaled y n f k
    decide (p < q) || (decide (p = q) && m == 0 && x && !y)
  | _, _ => false

def FVal.isNan : FVal → Bool
  | .nan _ => true
  | _ => false

/-- The least or greatest of a list of values; a NaN makes the format's quiet NaN. -/
def pickVal (f : Fmt) (least : Bool) (vs : List FVal) : Nat :=
  if vs.any FVal.isNan then f.qnan false
  else match vs with
    | [] => 0
    | v :: rest => f.encode .rne (rest.foldl (fun a b => if (if least then fvalLess b a else fvalLess a b) then b else a) v)

/-- The values of one source's beat, or its gear fault. -/
def sourceVals (fg : BitVec 8) (n : Nat) (b : List Byte) : GearFault ⊕ List FVal :=
  match fmtOf (fgCode fg) with
  | none => .inr []
  | some f =>
    if fgGear fg = 0 then .inr ((unpackBits f.width (leNat b) n).map f.decode)
    else match gearDecode (fgCode fg) (fgGear fg) f b with
      | .inl e => .inl e
      | .inr xs => .inr (xs.map f.decode)

/-- Encode output elements. -/
def outBytes (fg : BitVec 8) (es : List Nat) : List Byte :=
  match fmtOf (fgCode fg) with
  | none => []
  | some f =>
    if fgGear fg = 0 then leBytes (es.length * (f.width / 8)) (packBits f.width es)
    else gearEncode (fgCode fg) (fgGear fg) 0 f es

/-- The output bytes of a beat of `n` elements from its sources' bytes, or the first faulted block: its source and
fault (R247). -/
def reduceBeat (op srcFg outFg kind : BitVec 8) (n : Nat) (srcs : List (List Byte)) : (Nat × GearFault) ⊕ List Byte :=
  if bit kind 0 then
    let accs := (List.range n).map fun e =>
      (srcs.map fun b => accOf (sliceB b (64 * e) 64)).foldl Acc.merge accZero
    .inr (finish accs)
  else
    let vals := (srcs.mapIdx fun i b => (i, sourceVals srcFg n b)).foldl (fun acc p =>
      match acc, p.2 with
      | .inl e, _ => .inl e
      | .inr _, .inl e => .inl (p.1, e)
      | .inr vs, .inr v => .inr (vs ++ [v])) (.inr [] : (Nat × GearFault) ⊕ List (List FVal))
    match vals with
    | .inl e => .inl e
    | .inr vs =>
      let col (e : Nat) : List FVal := vs.map fun v => v.getD e (.fin false 0 0)
      if op = 0 then .inr (finish ((List.range n).map fun e => (col e).foldl Acc.add accZero))
      else match fmtOf (fgCode outFg) with
        | none => .inr []
        | some f => .inr (outBytes outFg ((List.range n).map fun e => pickVal f (op = 1) (col e)))
where
  finish (accs : List Acc) : List Byte :=
    if bit kind 1 then accs.flatMap Acc.bytes
    else match fmtOf (fgCode outFg) with
      | some f => outBytes outFg (accs.map fun a => a.readTo f)
      | none => []

/-! ### A beat -/

/-- Progress units done: bytes, or elements of a reduction. -/
def EngOp.fin (o : EngOp) : Bool := decide (o.len ≤ o.next)

/-- Bytes of the current beat: the part of the range in one line of each operand. -/
def EngOp.step (o : EngOp) : Nat :=
  let k := min (o.len - o.next) (64 - (o.dst.toNat + o.next) % 64)
  match o.kind with
  | .copy => min k (64 - (o.src.toNat + o.next) % 64)
  | .compare => min k (64 - (o.src.toNat + o.next) % 64)
  | .reduce _ sf outf _ _ => beatElems sf outf
  | _ => k

/-- The operands that the current beat reads. -/
def EngOp.reads (o : EngOp) : List (Word × Nat) :=
  let at_ (a : Word) : Word := a + BitVec.ofNat 64 o.next
  match o.kind with
  | .fill _ => []
  | .bulkWrite _ => []
  | .copy => [(at_ o.src, o.step)]
  | .bulkRead => [(at_ o.dst, o.step)]
  | .compare => [(at_ o.dst, o.step), (at_ o.src, o.step)]
  | .reduce _ sf _ kind srcs =>
    let n := o.step
    srcs.map fun a => (a + BitVec.ofNat 64 (sideBytes (bit kind 0) sf o.next), sideBytes (bit kind 0) sf n)

/-- Bytes of the operation's destination or operand A. -/
def EngOp.total (o : EngOp) : Nat :=
  match o.kind with
  | .reduce _ _ outf kind _ => sideBytes (bit kind 1) outf o.len
  | _ => o.len

/-- The Chainring whose engine runs the current piece (R249); none while the piece's address has no translation
(notes/assumptions/84.md). -/
def pieceWheel (s : State) (o : EngOp) : Option Nat :=
  match (cmdAddr s o.cmd.h o.here false).1 with
  | .ok opa => some (homeWheel (opaOffset opa))
  | _ => none

/-- A near-memory operation; the bulk transfers run beats like one. -/
def isNm (o : EngOp) : Bool :=
  match o.kind with
  | .bulkWrite _ => false
  | .bulkRead => false
  | _ => true

/-- The pieces of a Chainring, oldest operation first. -/
def piecesOn (s : State) (w : Nat) : List EngOp := s.eng.ops.filter fun o => isNm o && decide (pieceWheel s o = some w)

/-- The piece of an operation runs: each Chainring runs at most 64 at once (R249). -/
def pieceRuns (s : State) (o : EngOp) : Bool :=
  !isNm o || (pieceWheel s o).all fun w => ((piecesOn s w).take 64).any fun x => x.id == o.id

/-- The Chainring of the current piece is fenced (R336). -/
def pieceFenced (s : State) (o : EngOp) : Bool := isNm o && (pieceWheel s o).any fun w => unitFenced s (unitChainring w)

/-- The unit of the Chainring of the current piece. -/
def pieceUnit (s : State) (o : EngOp) : BitVec 16 := unitChainring ((pieceWheel s o).getD 0)

/-- The result record of R250. -/
def nmRecord (o : EngOp) (ok : Bool) (faultAddr : Word) : List Byte :=
  let cmp := o.kind = .compare
  (if ok then leBytes 8 (2 ^ 64 - 1) else wordBytes o.here) ++ wordBytes (if ok then 0 else faultAddr) ++
    (match (if cmp then o.missAt else none) with | some n => leBytes 8 n | none => leBytes 8 (2 ^ 64 - 1)) ++
    leBytes 8 (if cmp then o.missN else 0)

/-- Remove an operation and answer its command. -/
def endOp (o : EngOp) (st : Status) (faultAddr : Word) (s : State) : State :=
  let s := dropLoads (· = .op o.id) (dropHolds o.id { s with eng.ops := dropIf s.eng.ops (·.id == o.id) })
  match o.kind with
  | .bulkWrite _ => completeIf o.cmd st (if st = .ok then BitVec.allOnes 64 else BitVec.ofNat 64 o.next) [] s
  | .bulkRead => completeIf o.cmd st (if st = .ok then BitVec.allOnes 64 else BitVec.ofNat 64 o.next) o.readData s
  | _ =>
    let s := if st = .ok && !(syncFenced s (bits o.doneSync 0 14)) then signalField o.doneSync.toNat s else s
    completeIf o.cmd st 0 (nmRecord o (st = .ok) faultAddr) s

/-- The first beat that fails stops the operation (R250); its status waits until the stores it has sent are acknowledged
(R157). -/
def failOp (o : EngOp) (st : Status) (addr : Word) (s : State) : State :=
  if 0 < unackedOf s (opSource s o.id) then updOp o.id (fun x => { x with fault := some (st, addr) }) s
  else match (pieceWheel s o).filter fun _ => isNm o with
    | some w => endOp o st addr { s with eng.failed := updAt s.eng.failed w fun f => bumpSat f 1 }
    | none => endOp o st addr s

/-- Count bytes a Chainring's pieces have written, in MiB (R251). -/
def countWritten (o : EngOp) (n : Nat) (s : State) : State :=
  match (pieceWheel s o).filter fun _ => isNm o with
  | none => s
  | some w =>
    let total := s.eng.written.getD w 0 + n
    { s with
      eng.written := updAt s.eng.written w fun _ => total % 1048576
      eng.mib := updAt s.eng.mib w fun m => bumpSat m (total / 1048576) }

/-- The beat is done: go on to the next one, or end. -/
def advanceOp (o : EngOp) (s : State) : State :=
  let o := { o with next := o.next + o.step, buf := [], got := 0, put := 0, sent := false }
  let s := updOp o.id (fun _ => o) s
  if o.fin then endOp o .ok 0 s else s

/-- Compare one beat's words (R243). -/
def compareBeat (o : EngOp) : EngOp :=
  let a := o.buf.take o.step
  let b := o.buf.drop o.step
  let diff := (List.range o.step).filter fun i => a.getD i 0 != b.getD i 0
  let words := ((diff.map (· / 8)).dedup).length
  { o with
    missAt := match o.missAt, diff with | none, i :: _ => some (o.next + i) | m, _ => m
    missN := o.missN + words }

/-- The pattern bytes of a fill beat. -/
def fillBytes (o : EngOp) (p : Word) : List Byte :=
  (List.range o.step).map fun i => (wordBytes p).getD ((o.next + i) % 8) 0

/-- Every operand of the beat has been read: form the result and write it. -/
def writeBeat (o : EngOp) (s : State) : State :=
  let put (bs : List Byte) : State :=
    match opWrite s o o.here bs (wholePage o.dst.toNat o.total) with
    | (.done, s) => advanceOp o (countWritten o bs.length s)
    | (.sent, s) => updOp o.id (fun x => { x with sent := true }) (countWritten o bs.length s)
    | (.wait, s) => s
    | (.fail st a, s) => failOp o st a s
  match o.kind with
  | .fill p => put (fillBytes o p)
  | .copy => put o.buf
  | .bulkWrite data => put ((data.drop o.next).take o.step)
  | .bulkRead => advanceOp { o with readData := o.readData ++ o.buf } s
  | .compare => advanceOp (compareBeat o) s
  | .reduce op sf outf kind srcs =>
    let n := sideBytes (bit kind 0) sf o.step
    match (if fgGear sf ≠ 0 && !bit kind 0 && injBad s 0x0B (pieceUnit s o) then
        .inl (0, { status := Status.gearCheck, order := 4 })
      else reduceBeat op sf outf kind o.step (chunksB n srcs.length o.buf)) with
    | .inr bs => put bs
    | .inl (i, e) =>
      let addr := (o.reads.getD i (0, 0)).1
      let off := match (cmdAddr s o.cmd.h addr false).1 with | .ok opa => BitVec.ofNat 64 (opaOffset opa) | _ => 0
      let s := detect
        { Rec.blank 0x0006 with
          status := e.status.code, point := 0x0B, unit := pieceUnit s o, rider := riderByte o.rider
          source := o.src_, addr := off, va := if o.virt.isSome then addr else 0, arg0 := BitVec.ofNat 64 e.order } s
      failOp o e.status off s

/-- Read the operands of a beat that are still missing, in order; then write. `fuel` bounds the operands. -/
def gatherBeat : Nat → EngOp → Option RemoteRet → State → State
  | 0, _, _, s => s
  | n + 1, o, ret, s =>
    match o.reads[o.got]? with
    | none => writeBeat o s
    | some (a, len) =>
      let take (bs : List Byte) (ret : Option RemoteRet) (s : State) : State :=
        let o := { o with buf := o.buf ++ sliceB bs 0 len, got := o.got + 1, sent := false }
        gatherBeat n o ret (updOp o.id (fun _ => o) s)
      match opRead s o a len with
      | (.data bs, s) => take bs ret s
      | (.wait, s) => s
      | (.fail st addr, s) => failOp o st addr s
      | (.remote peloton m opa, s) =>
        if !o.sent then
          askRemote peloton m o.rider opa (.op o.id) (updOp o.id (fun x => { x with sent := true }) s)
        else match ret with
          | none => s
          | some x =>
          let s := dropLoads (· = .op o.id) s
          if x.status ≠ .ok then failOp o x.status a s else take x.data none s

/-- The current piece of a near-memory operation has its place: its address translates, or the beat waits or fails (R249). -/
def placed (o : EngOp) (go : State → State) (s : State) : State :=
  if !isNm o then go s
  else match cmdAddr s o.cmd.h o.here (decide (o.kind ≠ .compare)) with
    | (.ok _, s) => go s
    | (.wait, s) => s
    | (.refused st, s) => failOp o st o.here s
    | (.fault _ _, s) => failOp o .translation o.here s

/-- The next beat of an operation. A beat whose stores went to another module waits for their acknowledgement. -/
def runBeat (o : EngOp) (ret : Option RemoteRet) (s : State) : State :=
  if let some (st, a) := o.fault then failOp o st a s
  else if pieceFenced s o then failOp o .fenced o.here s
  else if o.sent && decide (o.reads.length ≤ o.got) then
    match ret with
    | none => s
    | some x =>
      if 0 < unackedOf s (opSource s o.id) then s
      else if x.status ≠ .ok then failOp o x.status o.here s
      else advanceOp o s
  else placed o (gatherBeat 66 o ret) s

def execEngineBeatCompletion (id : Nat) (remote : Option RemoteRet) (s : State) : Out State :=
  .next (whenUp s fun s =>
    match s.eng.ops.find? (·.id == id) with
    | some o => if o.stopped || o.late || !pieceRuns s o then s else runBeat o remote s
    | none => s)

/-! ### Loads and stores that are not answered in time (R263) -/

/-- The source of a load. -/
def loadSource (s : State) : LoadBy → BitVec 24
  | .ctx t c => ctxSource s t c
  | .stream t n => streamSource s t n
  | .op id => opSource s id

/-- A load to another module ends without data: its context faults, or its stream or operation fails. -/
def failLoad (x : RLoad) (st : Status) (s : State) : State :=
  let s := { s with fab.loads := dropIf s.fab.loads (·.txn = x.txn) }
  match x.by_ with
  | .ctx t c => match (findCtx s t c).map fun (k : Ctx) => k.block with
    | some (Block.access a true) => failAcc a st (opaOffset x.opa) s
    | _ => s
  | .stream t n => failStream t n st s
  | .op id => match s.eng.ops.find? (·.id == id) with
    | some o => failOp o st (match o.reads[o.got]? with | some (a, _) => a | none => o.here) s
    | none => s

/-- The loads of a source that wait for a block at a gateway end without it. -/
def failBlock (source : BitVec 24) (b : GBlock) (st : Status) (s : State) : State :=
  let mine (a : Access) : Bool := ctxSource s a.tile a.ctx = source
  let s := { s with fab.gblocks := updIf s.fab.gblocks (·.txn = b.txn) fun g => { g with waiting := dropIf g.waiting mine } }
  (b.waiting.filter mine).foldl (fun s a => failAcc a st (opaOffset b.block) s) s

/-- Where a load, or a block asked for at a gateway, is sent. -/
def loadTo (x : RLoad) (dst : ModuleRef) : Bool := x.peloton = dst.peloton && x.dst = dst.module
def blockTo (g : GBlock) (dst : ModuleRef) : Bool :=
  opaPeloton g.block == dst.peloton.toNat && opaModule g.block == dst.module.toNat

/-- `E2E_LIMIT` runs out for a store of a channel or a load, and the channel is closed; stores whose destination has been
taken over by its twin go there instead and never time out. -/
def limitEnds (source : BitVec 24) (dst : ModuleRef) (load : Option (BitVec 32)) (s : State) : State :=
  let chan (s : State) : Option Chan := findChan s source dst.peloton.toNat dst.module.toNat
  let close (s : State) : State := closeChan ((chan s).getD (Chan.open_ source dst.peloton dst.module)) s
  if dst.peloton.toNat == s.peloton && s.redirect.any fun r => r.1.toNat == dst.module.toNat then s
  else match load with
    | some txn => match s.fab.loads.find? fun (x : RLoad) => x.txn = txn && loadTo x dst && loadSource s x.by_ = source with
      | some x => close (failLoad x .timeout s)
      | none => match s.fab.gblocks.find? fun g => g.txn = txn && blockTo g dst with
        | some g => close (failBlock source g .timeout s)
        | none => s
    | none => if (chan s).any fun (c : Chan) => !c.unacked.isEmpty then close s else s

def execE2eLimitExpiry (source : BitVec 24) (dst : ModuleRef) (load : Option (BitVec 32)) (s : State) : Out State :=
  .next (whenUp s (limitEnds source dst load))

/-! ### Starting an operation -/

def EngOp.blank (c : Cmd) (op : Nat) (kind : OpKind) : EngOp :=
  { id := 0, cmd := openOf op c, rider := c.h.r, virt := match c.h.src with | .queue q => some q | _ => none, kind := kind
    dst := c.p 0, src := c.p 1, len := (c.p 2).toNat, dstLen := (c.p 2).toNat, srcLen := 0, doneSync := 0, next := 0
    sent := false, stopped := false, late := false, missAt := none, missN := 0, readData := [], buf := [], got := 0, put := 0
    fault := none, epoch := 0 }

def startOp (o : EngOp) (s : State) : Eff :=
  Eff.later { s with
    eng.ops := s.eng.ops ++ [{ o with id := s.eng.nextOp, epoch := epochNow s, late := closedTo s o.rider }]
    eng.nextOp := s.eng.nextOp + 1 }

/-! ### `NM_*` (R238 to R241, R246) -/

/-- The fields of parameter word 3 (R238). -/
def nmDone (c : Cmd) : BitVec 16 := BitVec.ofNat 16 (bits (c.p 3) 48 16)

/-- Reserved fields common to the four commands. -/
def nmReserved (c : Cmd) : Bool :=
  bits (c.p 3) 40 8 == 0 && !bit (nmDone c) 14 && (List.range 4).all fun i => c.p (4 + i) = 0

/-- Checks 3 and 4, then the start. -/
def nmStart (c : Cmd) (op : Nat) (kind : OpKind) (nd ns : Nat) (form aligned : Bool) (s : State) : Eff :=
  if !form then Eff.stat .badParam s
  else if !aligned then Eff.stat .misaligned s
  else if bit (nmDone c) 15 && !riderHasSync s c.h.r (bits (nmDone c) 0 14) then Eff.stat .revoked s
  else if 1024 ≤ (s.eng.ops.filter isNm).length then Eff.stat .busy s
  else startOp { EngOp.blank c op kind with doneSync := nmDone c, dstLen := nd, srcLen := ns } s

/-- Parameters of fill, copy and compare: only `ADDR`, `LENGTH` and `DONE_SYNC` (R238, R239). -/
def nmPlain (c : Cmd) : Bool :=
  nmReserved c && bits (c.p 3) 0 40 == 0 && (c.p 2).toNat % 8 == 0 && decide (8 ≤ (c.p 2).toNat) &&
    decide ((c.p 2).toNat ≤ 2 ^ 40)

def bodyNmFill : Body := fun c s => nmStart c 0x380 (.fill (c.p 1)) (c.p 2).toNat 0 (nmPlain c) ((c.p 0).toNat % 8 == 0) s

def execNmFill (c : Cmd) (s : State) : Out State := .next (runPacket 0x380 c bodyNmFill s)

def bodyNmCopy : Body := fun c s =>
  let n := (c.p 2).toNat
  nmStart c 0x381 .copy n n (nmPlain c && rangesApart (c.p 0).toNat n (c.p 1).toNat n)
    ((c.p 0).toNat % 8 == 0 && (c.p 1).toNat % 8 == 0) s

def execNmCopy (c : Cmd) (s : State) : Out State := .next (runPacket 0x381 c bodyNmCopy s)

def bodyNmCompare : Body := fun c s =>
  nmStart c 0x382 .compare (c.p 2).toNat (c.p 2).toNat (nmPlain c) ((c.p 0).toNat % 8 == 0 && (c.p 1).toNat % 8 == 0) s

def execNmCompare (c : Cmd) (s : State) : Out State := .next (runPacket 0x382 c bodyNmCompare s)

/-- The combinations of R246. -/
def nmCombo (op srcFg outFg kind : BitVec 8) : Bool :=
  let s := fgCode srcFg
  let o := fgCode outFg
  let srcOk := decide (1 ≤ s) && decide (s ≤ 5) && fmtGearOk srcFg
  if op = 0 then
    (if bit kind 0 then srcFg = 0 else srcOk) &&
      (if bit kind 1 then outFg = 0 else (o == 1 || o == 2 || o == 5) && fmtGearOk outFg)
  else (op = 1 || op = 2) && kind = 0 && srcOk && o == s && fmtGearOk outFg

/-- Alignment of one side (R239). -/
def nmAlign (acc : Bool) (fg : BitVec 8) : Nat := if acc then 64 else if fgGear fg = 0 then elemBytes (fgCode fg) else 8

def bodyNmReduce : Body := fun c s =>
  let w := c.p 3
  let op := BitVec.ofNat 8 (bits w 0 8)
  let sf := BitVec.ofNat 8 (bits w 8 8)
  let outf := BitVec.ofNat 8 (bits w 16 8)
  let kind := BitVec.ofNat 8 (bits w 24 8)
  let n := bits w 32 8
  let len := (c.p 2).toNat
  let srcs := words64 n c.payload
  let ns := sideBytes (bit kind 0) sf len
  let nd := sideBytes (bit kind 1) outf len
  let dst := (c.p 0).toNat
  let unit (acc : Bool) (fg : BitVec 8) : Nat := sideBytes acc fg (if fgGear fg = 0 then 1 else 64)
  let same (a : Word) : Bool := a.toNat == dst && unit (bit kind 0) sf == unit (bit kind 1) outf && ns == nd
  let form :=
    nmReserved c && c.p 1 = 0 && bits kind 2 6 == 0 && decide (1 ≤ n) && decide (n ≤ 64) && c.payload.length == 8 * n &&
      decide (1 ≤ len) && decide (len ≤ 2 ^ 34) && nmCombo op sf outf kind &&
      (beatElems sf outf == 1 || len % 64 == 0) && decide (ns ≤ 2 ^ 40) && decide (nd ≤ 2 ^ 40) &&
      decide ((srcs.filter same).length ≤ 1) && srcs.all fun a => same a || rangesApart dst nd a.toNat ns
  let aligned := dst % nmAlign (bit kind 1) outf == 0 && srcs.all fun a => a.toNat % nmAlign (bit kind 0) sf == 0
  nmStart c 0x383 (.reduce op sf outf kind srcs) nd ns form aligned s

def execNmReduce (c : Cmd) (s : State) : Out State := .next (runPacket 0x383 c bodyNmReduce s)

/-! ### `BULK_WRITE`, `BULK_READ` (R306) -/

def bodyBulkWrite : Body := fun c s =>
  startOp { EngOp.blank c 0x480 (.bulkWrite c.payload) with len := c.payload.length, dstLen := c.payload.length } s

def execBulkWrite (c : Cmd) (s : State) : Out State := .next (runPacket 0x480 c bodyBulkWrite s)

def bodyBulkRead : Body := fun c s =>
  let n := bits (c.p 1) 0 17
  if bits (c.p 1) 17 47 ≠ 0 || n = 0 || 65536 < n then Eff.stat .badParam s
  else startOp { EngOp.blank c 0x481 .bulkRead with len := n, dstLen := n } s

def execBulkRead (c : Cmd) (s : State) : Out State := .next (runPacket 0x481 c bodyBulkRead s)

end Sys2Proof.Machine
end

