-- ==== Sys2Proof/Machine/Emb.lean ====
section
/-! DEFINITION. The embedding engine (chapter 12): table definitions, look-up and update batches as one member runs them,
the messages of the other members, verdicts, output and row updates. -/

namespace Sys2Proof.Machine

/-! ### FP32 arithmetic of an update (R235) -/

/-- The NaN of an embedding operation, its sign and payload free: R235 names none (notes/assumptions/4.md). -/
def embNan (code : Nat) (a b c : BitVec 32) : BitVec 32 := asNan (Config.nanBits (BitVec.ofNat 8 (0xE0 + code)) a b c)

/-- The exact quotient to more bits than any rounding needs, its last bit sticky; none: a NaN. -/
def FVal.div : FVal → FVal → Option FVal
  | .nan _, _ => none
  | _, .nan _ => none
  | .inf _, .inf _ => none
  | .inf a, .fin b _ _ => some (.inf (a != b))
  | .fin a _ _, .inf b => some (.fin (a != b) 0 0)
  | .fin a m e, .fin b n f =>
    if n = 0 then (if m = 0 then none else some (.inf (a != b)))
    else
      let q := m * 2 ^ 64 / n
      some (.fin (a != b) (2 * q + if m * 2 ^ 64 % n = 0 then 0 else 1) (e - f - 65))

/-- Square root by bits: the largest `r` below `2 ^ k` with `r * r ≤ n`. -/
def isqrt : Nat → Nat → Nat
  | 0, _ => 0
  | k + 1, n =>
    let r := 2 * isqrt k (n / 4)
    if (r + 1) * (r + 1) ≤ n then r + 1 else r

/-- The square root to more bits than any rounding needs, its last bit sticky; none: a NaN. -/
def FVal.sqrt : FVal → Option FVal
  | .nan _ => none
  | .inf neg => if neg then none else some (.inf false)
  | .fin neg m e =>
    if m = 0 then some (.fin neg 0 0)
    else if neg then none
    else
      let odd := (e % 2).toNat
      let n := m * 2 ^ (odd + 64)
      let r := isqrt 64 n
      some (.fin false (2 * r + if r * r = n then 0 else 1) ((e - odd - 64) / 2 - 1))

def fmul32 (a b : BitVec 32) : BitVec 32 := enc32 (embNan 0 a b 0) ((dec32 a).mul (dec32 b))
def eadd32 (a b : BitVec 32) : BitVec 32 := enc32 (embNan 1 a b 0) ((dec32 a).add (dec32 b))
def fdiv32 (a b : BitVec 32) : BitVec 32 := enc32 (embNan 2 a b 0) ((dec32 a).div (dec32 b))
def fsqrt32 (a : BitVec 32) : BitVec 32 := enc32 (embNan 3 a 0 0) (dec32 a).sqrt

/-- `a * b + c` with one rounding. -/
def fma32 (a b c : BitVec 32) : BitVec 32 :=
  enc32 (embNan 4 a b c) (((dec32 a).mul (dec32 b)).bind fun p => p.add (dec32 c))

def fneg32 (a : BitVec 32) : BitVec 32 := a ^^^ 0x80000000

/-- The product of a weight and a row element, rounded to FP32 (R228). -/
def prod32 (w : BitVec 32) (x : FVal) : FVal :=
  match (dec32 w).mul x with
  | some v => dec32 (enc32 0x7FC00000 (some v))
  | none => .nan false

/-- The exact sum of FP32 values rounded once to FP32 (R117). -/
def sum32 (xs : List (BitVec 32)) : BitVec 32 := (xs.foldl (fun (a : Acc) x => a.add (dec32 x)) accZero).read

/-- R117's rule into a format: finite sums to nearest even with saturation (R228). -/
def Acc.readSat (a : Acc) (f : Fmt) : Nat :=
  if a.nan || a.ovf || a.ninf || a.pinf then a.readTo f else f.encode .sat (ofInt a.sum.toInt (-149) false)

/-! ### Tables (R217 to R220) -/

def EmbTable.rowBytes (t : EmbTable) : Nat := sideBytes false t.fmtGear t.dim
def EmbTable.perGranule (t : EmbTable) : Nat := 4096 / t.stride

/-- The member that owns a row: its index. -/
def EmbTable.ownerOf (t : EmbTable) (row : Nat) : Option Nat :=
  t.members.findIdx? fun m => decide (m.firstRow ≤ row) && decide (row < m.firstRow + m.rowCount)

/-- The store offsets of a member's local row and of its state word (R219). -/
def EmbTable.segPlace (t : EmbTable) : List EmbSeg → Nat → Option (Nat × Nat)
  | [], _ => none
  | g :: gs, l =>
    if g.rows ≤ l then t.segPlace gs (l - g.rows)
    else some (g.base + l / t.perGranule * 4096 + l % t.perGranule * t.stride, g.stateBase + 4 * l)

/-- The offsets of a row that member `m` owns. -/
def EmbTable.place (t : EmbTable) (m row : Nat) : Option (Nat × Nat) :=
  match t.members[m]? with
  | some x => if t.ownerOf row = some m then t.segPlace x.segs (row - x.firstRow) else none
  | none => none

/-- Bytes of a segment's granules. -/
def EmbTable.segBytes (t : EmbTable) (g : EmbSeg) : Nat := (g.rows + t.perGranule - 1) / t.perGranule * 4096

/-- The ranges of a member: its segments and state arrays. -/
def EmbTable.ranges (t : EmbTable) (m : EmbMember) : List (Nat × Nat) :=
  m.segs.flatMap fun g => (g.base, t.segBytes g) :: (if t.state then [(g.stateBase, 4 * g.rows)] else [])

/-- No two ranges of a list overlap. -/
def allApart : List (Nat × Nat) → Bool
  | [] => true
  | r :: rs => (rs.all fun q => rangesApart r.1 r.2 q.1 q.2) && allApart rs

/-- Parse `n` segment entries. -/
def parseSegs : Nat → List Byte → List EmbSeg
  | 0, _ => []
  | n + 1, b =>
    { base := fieldB b 0 8, stateBase := fieldB b 8 8, rows := fieldB b 0x10 4 } :: parseSegs n (b.drop 32)

/-- Parse `n` member entries with their segments: the entries, whether their reserved fields are zero, the rest. -/
def parseMembers : Nat → List Byte → List EmbMember × Bool × List Byte
  | 0, b => ([], true, b)
  | n + 1, b =>
    let k := fieldB b 0x11 1
    let m : EmbMember :=
      { firstRow := fieldB b 0 8, rowCount := fieldB b 8 8, module := BitVec.ofNat 8 (fieldB b 0x10 1)
        segs := parseSegs k (b.drop 32) }
    let zero := zeroB b 0x12 14 && (List.range k).all fun i => zeroB b (32 * (i + 1) + 0x14) 12
    let (ms, ok, rest) := parseMembers n (b.drop (32 * (k + 1)))
    (m :: ms, zero && ok && decide (1 ≤ k) && decide (k ≤ 16) && decide (32 * (k + 1) ≤ b.length), rest)

/-- The members partition `[0, rows)` in ascending order. -/
def partitions : Nat → List EmbMember → Nat → Bool
  | a, [], rows => a == rows
  | a, m :: ms, rows => m.firstRow == a && decide (1 ≤ m.rowCount) && partitions (a + m.rowCount) ms rows

/-- The module an embedding command acts as (R291). -/
def embMe (s : State) (surr : Bool) : Nat := if surr then s.twinNo else s.me

/-- The store offset on this module of an offset of the member it acts as (R291). -/
def embOff (s : State) (surr : Bool) (off : Nat) : Option Nat :=
  if surr then (localIdx s true (extentOf off)).map fun i => i * 2 ^ 34 + off % 2 ^ 34 else some off

def embTable (s : State) (surr : Bool) (r : BitVec 6) (n : BitVec 8) : Option EmbTable :=
  s.eng.tables.find? fun t => t.surr == surr && t.rider = r && t.table = n

/-- A batch of a table is in progress. -/
def tableBusy (s : State) (t : EmbTable) : Bool :=
  s.eng.batches.any fun b => b.surr == t.surr && b.key.rider = t.rider && b.key.table = t.table

/-- Form of one member (R217, R218). -/
def memberForm (t : EmbTable) (m : EmbMember) : Bool :=
  ((m.segs.map (·.rows)).sum == m.rowCount) &&
    (m.segs.all fun g =>
      g.base % 4096 == 0 && decide (g.base < 2 ^ 48) && decide (1 ≤ g.rows) && g.stateBase % 4 == 0 &&
        (t.state || g.stateBase == 0)) &&
    allApart (t.ranges m)

/-- Every extent of a range is live for the rider (R220). -/
def rangeLive (s : State) (surr : Bool) (r : BitVec 6) (g : Nat × Nat) : Bool :=
  g.2 == 0 || (seqFrom (extentOf g.1) (extentOf (g.1 + g.2 - 1) - extentOf g.1 + 1)).all fun i =>
    match localIdx s surr i with
    | some j => (findExt s j).any fun x => extLive s x r
    | none => false

def setTable (t : EmbTable) (s : State) : State :=
  { s with eng.tables := (dropIf s.eng.tables fun u => u.surr == t.surr && u.rider = t.rider && u.table = t.table) ++ [t] }

def bodyEmbTableDefine : Body := fun c s =>
  let b := c.payload
  let fg : BitVec 8 := BitVec.ofNat 8 (fieldB b 1 1)
  let surr := c.h.surrogate
  let n := fieldB b 6 1
  let (ms, zero, rest) := parseMembers n (b.drop 32)
  let t : EmbTable :=
    { surr := surr, rider := c.h.r, table := BitVec.ofNat 8 (fieldB b 0 1), fmtGear := fg, dim := fieldB b 2 2
      stride := fieldB b 4 2, state := fieldB b 7 1 == 1, rows := fieldB b 8 8
      defTag := BitVec.ofNat 32 (fieldB b 0x10 4), members := ms, lastUpd := none }
  let old := embTable s surr c.h.r t.table
  let busy := (old.map (tableBusy s)).getD false
  let form :=
    decide (32 ≤ b.length) && zeroB b 0x14 12 && decide (fieldB b 7 1 ≤ 1) && decide (n ≤ 64) && zero && rest.isEmpty
  let full :=
    decide (1 ≤ fgCode fg) && decide (fgCode fg ≤ 5) && fmtGearOk fg && decide (1 ≤ t.dim) && decide (t.dim ≤ 2048) &&
      (fgGear fg == 0 || t.dim % 64 == 0) && t.stride % 8 == 0 && decide (t.rowBytes ≤ t.stride) &&
      decide (t.stride ≤ 4096) && decide (1 ≤ t.rows) && decide (t.rows ≤ 2 ^ 40) && partitions 0 ms t.rows &&
      ms.all (memberForm t) && decide (ms.map (·.module)).Nodup &&
      ms.any fun m => m.module.toNat == embMe s surr
  let mine := ms.filter fun m => m.module.toNat == embMe s surr
  let rs := mine.flatMap t.ranges
  let flash :=
    !Config.hasFlash s.variant && s.store.objects.any fun o =>
      flashBacked o.policy && rs.any fun g => overlaps (g.1 / 65536) ((g.2 + 65535) / 65536) o.base (o.base + o.pages)
  let drop (u : EmbTable) : Bool := u.surr == surr && u.rider = c.h.r && u.table = t.table
  if !form then Eff.stat .badParam s
  else if n = 0 then
    if busy then Eff.stat .busy s else Eff.ok { s with eng.tables := dropIf s.eng.tables drop }
  else if !full then Eff.stat .badParam s
  else if !rs.all (rangeLive s surr c.h.r) then Eff.stat .revoked s
  else if busy || (old.isNone && decide (256 ≤ s.eng.tables.length)) then Eff.stat .busy s
  else if flash then Eff.stat .badParam s
  else Eff.ok (setTable t s)

def execEmbTableDefine (c : Cmd) (s : State) : Out State := .next (runPacket 0x300 c bodyEmbTableDefine s)

/-! ### Batches -/

def updBatch (k : BatchKey) (f : EmbBatch → EmbBatch) (s : State) : State :=
  { s with eng.batches := updIf s.eng.batches (·.key = k) f }

def findBatch (s : State) (k : BatchKey) : Option EmbBatch := s.eng.batches.find? (·.key = k)

def batchTable (s : State) (b : EmbBatch) : Option EmbTable := embTable s b.surr b.key.rider b.key.table

/-- The rank of a status (R231): lower comes first. -/
def embRank : Status → Nat
  | .ok => 9
  | .ownerLost => 1
  | .timeout => 2
  | .uncorrectable => 4
  | .gearLength => 4
  | .gearCode => 4
  | .gearCheck => 4
  | .busy => 5
  | .badParam => 5
  | .embIndex => 6
  | _ => 3

/-- A member meets a fault: it keeps the first of the lowest rank (R230, R231). -/
def EmbBatch.meet (b : EmbBatch) (st : Status) (off : Nat) : EmbBatch :=
  if embRank st < embRank b.own.status then { b with own := { status := st, off := BitVec.ofNat 64 off } } else b

/-- The status a member completes with, and the member that reported it (R231). -/
def EmbBatch.verdict (b : EmbBatch) : Nat × EmbFault :=
  (sortBy (·.1) b.verdicts).foldl (fun a v => if embRank v.2.status < embRank a.2.status then v else a) (b.key.member, b.own)

/-- The fault record of R232. -/
def EmbBatch.record (b : EmbBatch) (from_ : Nat) (off : Word) : List Byte :=
  let bad := sortBy (·.1) b.badPos
  let slot (i : Nat) : List Byte :=
    match bad[i]? with
    | some (p, missing) => leBytes 8 (p + if missing then 2 ^ 63 else 0)
    | none => leBytes 8 (2 ^ 64 - 1)
  let mask := (if bad.any (·.2) then 2 else 0) + if bad.any (fun p => !p.2) then 1 else 0
  [BitVec.ofNat 8 from_, BitVec.ofNat 8 mask, 0, 0] ++ leBytes 4 bad.length ++ wordBytes off ++
    (List.range 16).flatMap slot ++ zeros 16

/-- A batch ends: its laps are released and its command is answered. -/
def endBatch (b : EmbBatch) (from_ : Nat) (f : EmbFault) (s : State) : State :=
  let s := dropHolds b.opId { s with eng.batches := dropIf s.eng.batches (·.key = b.key) }
  completeIf b.cmd f.status 0 (if f.status = .ok then [] else b.record from_ f.off) s

def EmbBatch.rq (b : EmbBatch) (va : Word) : Rq :=
  { rider := b.key.rider, op := some b.opId, va := va
    source := match b.cmd.h.src with | .queue q => srcQueue q | _ => srcEngine b.opId }

/-- The store offset an address of the command leads to; none while translation waits. Only this module's store is
reachable: any other address fails as R20 and R21 say, at rank 3 (R224). -/
def embAddr (s : State) (b : EmbBatch) (a : Word) (write : Bool) : Option (Status ⊕ Nat) × State :=
  match cmdAddr s b.cmd.h a write with
  | (.wait, s) => (none, s)
  | (.refused st, s) => (some (.inl st), s)
  | (.fault _ _, s) => (some (.inl .translation), s)
  | (.ok opa, s) => match target s opa with
    | .off o => (some (.inr o), s)
    | .bad st => (some (.inl (if st = .revoked then st else .translation)), badOpa (b.rq a) .translation opa s)
    | _ => (some (.inl .translation), s)

inductive EmbRd where
  | data (bs : List Byte)
  | wait
  | fail (st : Status) (off : Nat)

/-- Read an input of the command. -/
def embRead (s : State) (b : EmbBatch) (a : Word) (len : Nat) : EmbRd × State :=
  (piecesOf a.toNat len).foldl (fun acc p =>
    match acc.1 with
    | .data bs =>
      let va := BitVec.ofNat 64 p.1
      match embAddr acc.2 b va false with
      | (none, s) => (.wait, s)
      | (some (.inl st), s) => (.fail st 0, s)
      | (some (.inr o), s) => match homeRead s (b.rq va) o p.2 with
        | (.data x, s) => (.data (bs ++ x), s)
        | (.wait, s) => (.wait, s)
        | (.fail st, s) => (.fail st o, s)
    | _ => acc) (.data [], s)

inductive EmbWr where
  | done
  | wait
  | fail (st : Status) (off : Nat)

/-- Write an output of the command; the number tells how many bytes have been written. -/
def embWrite (s : State) (b : EmbBatch) (a : Nat) (bs : List Byte) : EmbWr × Nat × State :=
  (piecesOf a bs.length).foldl (fun acc p =>
    match acc with
    | (.done, n, s) =>
      let va := BitVec.ofNat 64 p.1
      match embAddr s b va true with
      | (none, s) => (.wait, n, s)
      | (some (.inl st), s) => (.fail st 0, n, s)
      | (some (.inr o), s) => match homeWrite s (b.rq va) o (allBytes ((bs.drop (p.1 - a)).take p.2)) false with
        | (.done, s) => (.done, n + p.2, s)
        | (.wait, s) => (.wait, n, s)
        | (.fail st, s) => (.fail st o, n, s)
    | _ => acc) (.done, 0, s)

/-- Read a list of inputs in order. -/
def embReads : List (Word × Nat) → EmbBatch → State → EmbRd × List (List Byte) × State
  | [], _, s => (.data [], [], s)
  | (a, n) :: rest, b, s =>
    match embRead s b a n with
    | (.data x, s) => match embReads rest b s with
      | (r, xs, s) => (r, x :: xs, s)
    | (r, s) => (r, [], s)

/-- The state after a failed try whose accesses wait: only what they started stays; meters and records are not counted
twice. -/
def retryLater (old new : State) : State :=
  { new with
    trip := old.trip
    err := old.err }

/-! ### Requester role (R225, R226) -/

/-- Slices of the share on the 16 Chainrings. -/
def sliceLen (n c : Nat) : Nat := (c + 1) * n / 16 - c * n / 16

/-- Sorted runs of so many entries when they exceed the sort buffer. -/
def sortRuns (n : Nat) : Nat := if 2097152 < n then (n + 2097151) / 2097152 else 0

/-- A share of so many positions may spill: its slices exceed the sort buffer (R226). -/
def spills (n : Nat) : Bool := (List.range 16).any fun c => decide (0 < sortRuns (sliceLen n c))

/-- Entries of a Chainring's slice: its non-null positions. -/
def sliceEntries (n c : Nat) (pos : List Nat) : Nat :=
  (pos.filter fun i => decide (c * n / 16 ≤ i) && decide (i < (c + 1) * n / 16)).length

/-- The sample of a position (R224). -/
def EmbBatch.sampleOf (b : EmbBatch) (pos : Nat) : Nat :=
  ((List.range b.samples).find? fun i => decide (b.bags.getD i 0 ≤ pos) && decide (pos < b.bags.getD (i + 1) 0)).getD 0

/-- The form of the bag offsets (R224). DESIGN CHOICE (notes/assumptions/144.md): offsets that break it end the batch with
`BAD_PARAM` at rank 5. -/
def bagsOk (bags : List Nat) (n : Nat) : Bool :=
  bags.head? == some 0 && bags.getLast? == some n && (bags.zip (bags.drop 1)).all fun p => decide (p.1 ≤ p.2)

/-- Unique rows of the share, ascending. -/
def EmbBatch.uniq (b : EmbBatch) : List Nat := sortBy id (b.valid.map (·.2.1)).dedup

/-- The unique rows that a member owns. -/
def EmbBatch.rowsAt (b : EmbBatch) (t : EmbTable) (m : Nat) : List Nat := b.uniq.filter fun r => t.ownerOf r == some m

/-- The contribution list of `MODE` 1 to an owner (R228). -/
def EmbBatch.contribsAt (b : EmbBatch) (t : EmbTable) (m : Nat) : List Contribution :=
  (b.valid.filter fun p => t.ownerOf p.2.1 == some m).map fun p =>
    { sample := b.sampleOf p.1, weight := p.2.2, row := p.2.1 }

/-- Whether the command needs its bag offsets: a pooled look-up, or an update with one gradient row per sample. -/
def EmbBatch.needsBags (b : EmbBatch) : Bool := if b.key.update then b.outFg = 1 else b.mode ≠ 0

/-- The gradient partials of the share, one per unique row (R234). -/
def EmbBatch.gradients (b : EmbBatch) (t : EmbTable) (grads : List Byte) : List (Nat × List (BitVec 32)) :=
  let row (i : Nat) : List (BitVec 32) := words32 t.dim (grads.drop (4 * t.dim * i))
  let contrib (p : Nat × Nat × BitVec 32) : List (BitVec 32) :=
    if b.outFg = 0 then row p.1 else (row (b.sampleOf p.1)).map fun x => fmul32 x p.2.2
  b.uniq.map fun r =>
    let cs := (b.valid.filter fun p => p.2.1 == r).map contrib
    (r, (List.range t.dim).map fun d => sum32 (cs.map fun v => v.getD d 0))

/-- Send one run to every owner (R227); this member's own run arrives at once. -/
def sendRuns (b : EmbBatch) (t : EmbTable) (s : State) : State :=
  let k := b.key
  (List.range t.members.length).foldl (fun s m =>
    let rows := b.rowsAt t m
    let cs := if !k.update && b.mode = 1 then b.contribsAt t m else []
    if m = k.member then
      let run : EmbRun := { from_ := m, defTag := t.defTag, rows := rows, contribs := cs, done := true }
      updBatch k (fun x => { x with runs := x.runs ++ [run] }) s
    else
      match t.members[m]? with
      | some e => emit (.embRun e.module { k with member := m } t.defTag k.member rows cs) s
      | none => s) s

/-- Send the gradient partials to their owners (R234). -/
def sendGradients (b : EmbBatch) (t : EmbTable) (gs : List (Nat × List (BitVec 32))) (s : State) : State :=
  let k := b.key
  gs.foldl (fun s g =>
    match t.ownerOf g.1 with
    | none => s
    | some m =>
      if m = k.member then updBatch k (fun x => { x with partials := x.partials ++ [(m, g.1, g.2)] }) s
      else match t.members[m]? with
        | some e => emit (.embPartial e.module { k with member := m } t.defTag k.member g.1 g.2) s
        | none => s) s

/-- Bytes that a spilled sort leaves in the scratch region: not given by the spec, so free values. -/
def spillBytes (n : Nat) (s : State) : List Byte × State :=
  ((List.range n).map fun i => (Config.freeBits (s.freeIdx + i)).setWidth 8, { s with freeIdx := s.freeIdx + n })

/-- Read the share, remove duplicates and send the requests, once every input can be read (R226). -/
def loadBatch (b : EmbBatch) (s : State) : State :=
  match batchTable s b with
  | none => s
  | some t =>
    let ins :=
      [(b.idxVa, 8 * b.indexN)] ++ (if b.weighted then [(b.wgtVa, 4 * b.indexN)] else []) ++
        (if b.needsBags then [(b.bagVa, 4 * (b.samples + 1))] else []) ++
        (if b.key.update then [(b.dataVa, 4 * t.dim * (if b.outFg = 0 then b.indexN else b.samples))] else [])
    let go (b : EmbBatch) (gs : List (Nat × List (BitVec 32))) (s : State) : State :=
      sendGradients b t gs (sendRuns b t (updBatch b.key (fun _ => { b with loaded := true }) s))
    match embReads ins b s with
    | (.wait, _, s1) => retryLater s s1
    | (.fail st off, _, s) => go (b.meet st off) [] s
    | (.data _, xs, s) =>
      let idx := words64 b.indexN (xs.getD 0 [])
      let w1 := if b.weighted then 1 else 0
      let wgt := if b.weighted then words32 b.indexN (xs.getD 1 []) else []
      let b1 := if b.needsBags then 1 else 0
      let bags := if b.needsBags then (words32 (b.samples + 1) (xs.getD (1 + w1) [])).map (·.toNat) else []
      let grads := if b.key.update then xs.getD (1 + w1 + b1) [] else []
      if b.needsBags && !bagsOk bags b.indexN then go (b.meet .badParam 0) [] s
      else
        let pos := idx.mapIdx fun i v => (i, v, if b.weighted then wgt.getD i 0 else 0x3F800000)
        let live := pos.filter fun p => p.2.1 ≠ BitVec.allOnes 64
        let bad := live.filter fun p => decide (t.rows ≤ p.2.1.toNat)
        let good := live.filter fun p => decide (p.2.1.toNat < t.rows)
        let b2 : EmbBatch :=
          { b with
            bags := bags
            valid := good.map fun p => (p.1, p.2.1.toNat, p.2.2)
            badPos := bad.map fun p => (p.1, false) }
        let b2 := if bad.isEmpty then b2 else b2.meet .embIndex 0
        let runs := (List.range 16).map fun c => sortRuns (sliceEntries b.indexN c (live.map (·.1)))
        let s := { s with eng.spillRuns := s.eng.spillRuns.mapIdx fun i r => bumpSat r (runs.getD i 0) }
        let gs := if b.key.update then b2.gradients t grads else []
        if runs.any (0 < ·) then
          let (bs, s1) := spillBytes (16 * live.length) s
          match embWrite s1 b2 b.spillVa.toNat bs with
          | (.wait, _, s2) => retryLater s s2
          | (.fail st off, _, s) => go (b2.meet st off) [] s
          | (.done, _, s) => go b2 gs s
        else go b2 gs s

/-! ### Owner role (R227, R228) -/

/-- Every member's run has arrived. -/
def EmbBatch.allRuns (b : EmbBatch) (t : EmbTable) : Bool :=
  (List.range t.members.length).all fun m => b.runs.any fun r => r.from_ == m && r.done

/-- The rows requested by a member; a run under another `DEF_TAG` requests none. -/
def EmbBatch.asked (b : EmbBatch) (t : EmbTable) (m : Nat) : List Nat :=
  (b.runs.filter fun r => r.from_ == m && r.defTag = t.defTag).flatMap (·.rows)

/-- The rows that the owner serves, ascending, with how many members asked for each. -/
def EmbBatch.askedRows (b : EmbBatch) (t : EmbTable) : List (Nat × Nat) :=
  let per := (List.range t.members.length).map fun m => (b.asked t m).dedup
  (sortBy id per.flatten.dedup).map fun r => (r, (per.filter fun l => l.contains r).length)

inductive RowGot where
  | data (bs : List Byte)
  | missing
  | wait
  | fail (st : Status) (off : Nat)

/-- The view of the batch on an extent. -/
def embView (s : State) (b : EmbBatch) (x : Extent) : View := (heldView x b.opId).getD (viewOf s x b.key.rider)

/-- Whether a row is there and may be used: a row to write needs the writer's right and the write lap (R233). -/
def rowCheck (s : State) (b : EmbBatch) (off : Nat) (write : Bool) : Option RowGot :=
  match rightsAt s b.key.rider off write with
  | .inl st => some (.fail st off)
  | .inr x =>
    if write && extLapped s x && !(x.wlap.any fun w => decide (w.rider = b.key.rider)) then some (.fail .lapClosed off)
    else match viewLoc s.store x (embView s b x) (pageOf off) (granuleOf off) with
      | .absent => some .missing
      | _ => none

/-- Read one row of this member (R219, R225), with its padding when it goes out as stored (R224). -/
def readRow (s : State) (b : EmbBatch) (t : EmbTable) (row : Nat) : RowGot × State :=
  match t.place b.key.member row with
  | none => (.missing, s)
  | some (o, _) => match embOff s b.surr o with
    | none => (.fail .revoked o, s)
    | some off => match rowCheck s b off false with
      | some r => (r, s)
      | none => match homeReadN s (b.rq 0) off (if b.mode = 0 then t.stride else t.rowBytes) with
        | (.data bs, s) => (.data bs, s)
        | (.wait, s) => (.wait, s)
        | (.fail st, s) => (.fail st off, s)

/-- The values of a row, decoded with the checks of R207, or the faulted block's place in the row. -/
def embVals (fg : BitVec 8) (dim : Nat) (bs : List Byte) : (Nat × GearFault) ⊕ List FVal :=
  match fmtOf (fgCode fg) with
  | none => .inr []
  | some f =>
    if fgGear fg = 0 then .inr ((unpackBits f.width (leNat (bs.take (dim * (f.width / 8)))) dim).map f.decode)
    else
      let k := blockBytes f (fgGear fg)
      ((chunksB k (dim / 64) bs).mapIdx fun i x => (i * k, x)).foldl (fun acc p =>
        match acc with
        | .inl e => .inl e
        | .inr vs => match gearDecode (fgCode fg) (fgGear fg) f p.2 with
          | .inl e => .inl (p.1, e)
          | .inr xs => .inr (vs ++ xs.map f.decode)) (.inr [] : (Nat × GearFault) ⊕ List FVal)

/-- A gear fault of the embedding engine is recorded (R207, R209). -/
def recGear (b : EmbBatch) (off : Nat) (e : GearFault) (s : State) : State :=
  detect
    { Rec.blank 0x0006 with
      status := e.status.code, point := 0x0B, unit := unitChainring (homeWheel off), rider := riderByte b.key.rider
      source := (b.rq 0).source, addr := BitVec.ofNat 64 off, arg0 := BitVec.ofNat 64 e.order } s

/-- Read the rows asked for, in ascending order. -/
def readRows (b : EmbBatch) (t : EmbTable) : List Nat → State → Option (List (Nat × RowGot)) × State
  | [], s => (some [], s)
  | r :: rs, s =>
    match readRow s b t r with
    | (.wait, s) => (none, s)
    | (g, s) => match readRows b t rs s with
      | (some gs, s) => (some ((r, g) :: gs), s)
      | x => x

/-- The store offset of a row of this member, zero when it has none. -/
def EmbBatch.rowOff (b : EmbBatch) (t : EmbTable) (row : Nat) : Nat := ((t.place b.key.member row).map (·.1)).getD 0

/-- The values of a row, with an injected fault of the decoder (R343). -/
def embRowVals (s : State) (t : EmbTable) (unit : BitVec 16) (bs : List Byte) : (Nat × GearFault) ⊕ List FVal :=
  if fgGear t.fmtGear ≠ 0 && injBad s 0x0B unit then .inl (0, { status := Status.gearCheck, order := 4 })
  else embVals t.fmtGear t.dim bs

/-- What the owner answers for a row it read, and the fault it meets: a row to pool is decoded, and one that fails its checks
is not delivered (R207, R210). -/
def answerRow (t : EmbTable) (p : Nat × RowGot) (acc : List EmbRow × EmbBatch × State) : List EmbRow × EmbBatch × State :=
  let (rows, b, s) := acc
  let add (st : Status) (bs : List Byte) : List EmbRow := rows ++ [{ row := p.1, status := st, data := bs }]
  match p.2 with
  | .fail st off => (add st [], b.meet st off, s)
  | .missing => (add .embIndex [], b.meet .embIndex 0, s)
  | .wait => acc
  | .data bs =>
    if b.mode = 0 then (add .ok bs, b, s)
    else match embRowVals s t (unitChainring (homeWheel (b.rowOff t p.1))) bs with
      | .inl (o, e) => (add e.status [], b.meet e.status (b.rowOff t p.1 + o), recGear b (b.rowOff t p.1 + o) e s)
      | .inr _ => (add .ok bs, b, s)

def findRow (rows : List EmbRow) (row : Nat) : Option EmbRow := rows.find? (·.row == row)

/-- The elements of a row that was delivered. -/
def rowOf (t : EmbTable) (rows : List EmbRow) (row : Nat) : List FVal :=
  match (findRow rows row).map fun r => embVals t.fmtGear t.dim r.data with
  | some (.inr v) => v
  | _ => []

/-- The partials of `MODE` 1 for one requester (R228): sample and values. -/
def ownerPartials (t : EmbTable) (rows : List EmbRow) (cs : List Contribution) : List (Nat × List (BitVec 32)) :=
  let samples := sortBy id (cs.map (·.sample)).dedup
  samples.map fun b =>
    let mine := (cs.filter fun c => c.sample == b).map fun c => (rowOf t rows c.row).map (prod32 c.weight)
    (b, (List.range t.dim).map fun d => ((mine.map fun v => v.getD d (.fin false 0 0)).foldl Acc.add accZero).read)

/-- Deliver rows or partials to a member: itself at once, another by a message. -/
def deliverRows (k : BatchKey) (t : EmbTable) (m : Nat) (rows : List EmbRow) (s : State) : State :=
  if m = k.member then updBatch k (fun x => { x with rows := x.rows ++ rows }) s
  else match t.members[m]? with
    | some e => emit (.embRows e.module { k with member := m } t.defTag k.member rows) s
    | none => s

def deliverPartial (k : BatchKey) (t : EmbTable) (m key : Nat) (vs : List (BitVec 32)) (s : State) : State :=
  if m = k.member then updBatch k (fun x => { x with partials := x.partials ++ [(k.member, key, vs)] }) s
  else match t.members[m]? with
    | some e => emit (.embPartial e.module { k with member := m } t.defTag k.member key vs) s
    | none => s

/-- Count the requests served by another request's read (R227, R237). -/
def countCoalesced (b : EmbBatch) (t : EmbTable) (rows : List (Nat × Nat)) (s : State) : State :=
  rows.foldl (fun s r =>
    let w := homeWheel (b.rowOff t r.1)
    { s with eng.coalesced := updAt s.eng.coalesced w fun c => bumpSat c (r.2 - 1) }) s

/-- Bytes staged beyond the sort buffers (R229): rows by Chainring. -/
def stagedOver (stride : Nat) (wheels : List Nat) : Nat :=
  ((List.range 16).map fun c => (wheels.filter (· == c)).length * stride - 33554432).sum

/-- Stage rows beyond the sort buffers in the scratch region: `BUSY` when it is too small. What the region then holds is
open (notes/assumptions/132.md). None: the write waits. -/
def stageRows (b : EmbBatch) (extra : Nat) (s : State) : Option EmbBatch × State :=
  if extra = 0 then (some b, s)
  else if b.spill * 4096 < extra then (some (b.meet .busy 0), s)
  else
    let (bs, s) := spillBytes extra s
    match embWrite s b b.spillVa.toNat bs with
    | (.wait, _, s) => (none, s)
    | (.fail st off, _, s) => (some (b.meet st off), s)
    | (.done, _, s) => (some b, s)

/-- What forbids a rider to update this member's segments: it must be a writer of each and hold its write lap (R233). -/
def updateRights (s : State) (b : EmbBatch) (t : EmbTable) : Option (Status × Nat) :=
  (((t.members[b.key.member]?).map t.ranges).getD []).findSome? fun g =>
    (seqFrom (extentOf g.1) (extentOf (g.1 + g.2 - 1) - extentOf g.1 + 1)).findSome? fun i =>
      match (embOff s b.surr (i * 2 ^ 34)).bind fun o => findExt s (extentOf o) with
      | none => some (.revoked, g.1)
      | some x =>
        if !extWriter s x b.key.rider then some (.revoked, g.1)
        else if noWlap s x b.key.rider then some (.lapClosed, g.1)
        else none

/-- The rows that a member asked for, as they are answered. -/
def EmbBatch.answers (b : EmbBatch) (t : EmbTable) (m : Nat) (rows : List EmbRow) : List EmbRow :=
  let asked := b.asked t m
  rows.filter fun r => asked.contains r.row

/-- Answer a look-up: rows, or partials and the rows that cannot be pooled. -/
def answerLookup (b : EmbBatch) (t : EmbTable) (rows : List EmbRow) (s : State) : State :=
  let k := b.key
  (List.range t.members.length).foldl (fun s m =>
    let mine := b.answers t m rows
    if b.mode = 1 then
      let good := rows.filter (·.status = .ok)
      let cs := (b.runs.filter fun r => r.from_ == m && r.defTag = t.defTag).flatMap (·.contribs)
      let s := deliverRows k t m (mine.filter (·.status ≠ .ok)) s
      (ownerPartials t good (cs.filter fun c => (findRow good c.row).isSome)).foldl (fun s p => deliverPartial k t m p.1 p.2 s) s
    else deliverRows k t m mine s) s

/-- A member whose definition has another `DEF_TAG` is part of the batch (R221). -/
def EmbBatch.oddTag (b : EmbBatch) (t : EmbTable) (m : Nat) : Bool :=
  b.odd.contains m || b.runs.any fun r => r.from_ == m && decide (r.defTag ≠ t.defTag)

/-- Serve the rows that every member asked for, once every run has arrived. -/
def serveBatch (b : EmbBatch) (s : State) : State :=
  match batchTable s b with
  | none => s
  | some t =>
    let rows := b.askedRows t
    let b := if (List.range t.members.length).any (b.oddTag t) then b.meet .badParam 0 else b
    let served (b : EmbBatch) (s : State) : State := countCoalesced b t rows (updBatch b.key (fun _ => { b with served := true }) s)
    if b.key.update then
      let b := match updateRights s b t with | some (st, off) => b.meet st off | none => b
      let got (r : Nat) : Option EmbFault :=
        match t.place b.key.member r with
        | none => some { status := .embIndex, off := 0 }
        | some (o, _) => match embOff s b.surr o with
          | none => some { status := .revoked, off := BitVec.ofNat 64 o }
          | some off => match rowCheck s b off true with
            | some (.fail st off) => some { status := st, off := BitVec.ofNat 64 off }
            | some .missing => some { status := .embIndex, off := 0 }
            | _ => none
      let bad := rows.filterMap fun r => (got r.1).map fun f => (r.1, f)
      let b := bad.foldl (fun b g => b.meet g.2.status g.2.off.toNat) b
      let gone := bad.map fun g => ({ row := g.1, status := g.2.status, data := [] } : EmbRow)
      (List.range t.members.length).foldl (fun s m => deliverRows b.key t m (b.answers t m gone) s) (served b s)
    else
      match readRows b t (rows.map (·.1)) s with
      | (none, s1) => retryLater s s1
      | (some gs, s1) =>
        let (out, b, s1) := gs.foldl (fun acc p => answerRow t p acc) ([], b, s1)
        let extra := if b.mode = 1 then stagedOver t.stride (rows.map fun r => homeWheel (b.rowOff t r.1)) else 0
        match stageRows b extra s1 with
        | (none, s2) => retryLater s s2
        | (some b, s) => answerLookup b t out (served b s)

/-! ### Verdicts (R230, R231) -/

/-- A member has reported a fault. -/
def EmbBatch.faulted (b : EmbBatch) (m : Nat) : Bool :=
  (lookupK b.verdicts m).any (fun v => v.status ≠ .ok) || (m == b.key.member && b.own.status ≠ .ok)

/-- Everything the member waits for from one other member has arrived. -/
def EmbBatch.collected (b : EmbBatch) (t : EmbTable) (m : Nat) : Bool :=
  b.faulted m || b.oddTag t m ||
    (if b.key.update then
      (b.asked t m).all fun r => b.partials.any fun p => p.1 == m && p.2.1 == r
    else if b.mode = 1 then
      (b.contribsAt t m).all fun c =>
        (b.partials.any fun p => p.1 == m && p.2.1 == c.sample) || (findRow b.rows c.row).any (·.status ≠ .ok)
    else (b.rowsAt t m).all fun r => (findRow b.rows r).isSome)

/-- Missing rows named in the replies make their positions missing (R225). -/
def EmbBatch.markMissing (b : EmbBatch) : EmbBatch :=
  let gone := (b.rows.filter (·.status = .embIndex)).map (·.row)
  let ps := (b.valid.filter fun p => gone.contains p.2.1 && !(b.badPos.any fun q => q.1 == p.1)).map fun p => (p.1, true)
  if ps.isEmpty then b else ({ b with badPos := b.badPos ++ ps }).meet .embIndex 0

/-- The rows that a requester pools are decoded as they arrive: a block that fails its checks is a fault of this member
(R207, R228, R231). -/
def checkReceived (b : EmbBatch) (t : EmbTable) (s : State) : EmbBatch × State :=
  if b.key.update || b.mode ≠ 2 then (b, s)
  else (b.rows.filter (·.status = .ok)).foldl (fun acc r =>
    let (b, s) := acc
    match embRowVals s t (unitChainring (r.row % 16)) r.data with
    | .inr _ => (b, s)
    | .inl (o, e) =>
      let off := ((t.ownerOf r.row).bind fun m => (t.place m r.row).map (·.1)).getD 0
      (b.meet e.status (off + o), recGear b (off + o) e s)) (b, s)

/-- Every other member's verdict has arrived. -/
def EmbBatch.heard (b : EmbBatch) (t : EmbTable) : Bool :=
  (List.range t.members.length).all fun m => m == b.key.member || (lookupK b.verdicts m).isSome

/-- Send this member's verdict to every other member. -/
def sayVerdict (b : EmbBatch) (s : State) : State :=
  match batchTable s b with
  | none => s
  | some t =>
    if !(List.range t.members.length).all (b.collected t) then s
    else
      let b := if (List.range t.members.length).any (b.oddTag t) then b.meet .badParam 0 else b
      let (b, s1) := checkReceived b.markMissing t s
      let extra := if !b.key.update && b.mode = 2 then stagedOver t.stride (b.uniq.map (· % 16)) else 0
      match stageRows b extra s1 with
      | (none, s2) => retryLater s s2
      | (some b, s) =>
        let s := updBatch b.key (fun _ => { b with said := true }) s
        (List.range t.members.length).foldl (fun s m =>
          if m = b.key.member then s
          else match t.members[m]? with
            | some e => emit (.embVerdict e.module { b.key with member := m } b.key.member b.own.status b.own.off) s
            | none => s) s

/-! ### Output and updates (R228, R230, R235) -/

/-- One pooled row (R228): the exact sum of the given lists, rounded once, encoded. -/
def pooledRow (outFg : BitVec 8) (dim : Nat) (terms : List (List FVal)) : List Byte :=
  match fmtOf (fgCode outFg) with
  | none => []
  | some f =>
    let es := (List.range dim).map fun d =>
      ((terms.map fun v => v.getD d (.fin false 0 0)).foldl Acc.add accZero).readSat f
    if fgGear outFg = 0 then leBytes (dim * (f.width / 8)) (packBits f.width es)
    else ((List.range (dim / 64)).map fun i => gearEncode (fgCode outFg) (fgGear outFg) 0 f ((es.drop (64 * i)).take 64)).flatten

/-- The products of the positions of a sample (`MODE` 2). -/
def EmbBatch.products (b : EmbBatch) (t : EmbTable) (sample : Nat) : List (List FVal) :=
  (b.valid.filter fun p => b.sampleOf p.1 == sample).map fun p => (rowOf t b.rows p.2.1).map (prod32 p.2.2)

/-- The writes of a look-up: addresses and data. -/
def EmbBatch.outputs (b : EmbBatch) (t : EmbTable) : List (Nat × List Byte) :=
  if b.mode = 0 then
    (List.range b.indexN).map fun i =>
      (b.dataVa.toNat + i * t.stride,
        match b.valid.find? fun p => p.1 == i with
        | some p => sliceB (((findRow b.rows p.2.1).map (·.data)).getD []) 0 t.stride
        | none => zeros t.stride)
  else
    let size := sideBytes false b.outFg t.dim
    (List.range b.samples).map fun i =>
      (b.dataVa.toNat + i * size,
        pooledRow b.outFg t.dim
          (if b.mode = 2 then b.products t i
           else (sortBy (·.1) (b.partials.filter fun p => p.2.1 == i)).map fun p => p.2.2.map dec32))

/-- The new row and state word of an update (R235). -/
def updateRow (b : EmbBatch) (t : EmbTable) (xs g : List (BitVec 32)) (st : BitVec 32) : List (BitVec 32) × BitVec 32 :=
  let pair := xs.mapIdx fun d x => (x, g.getD d 0)
  if b.mode = 0 then (pair.map fun p => eadd32 p.1 p.2, st)
  else if b.mode = 1 then (pair.map fun p => fma32 (fneg32 b.lr) p.2 p.1, st)
  else
    let m := sum32 (g.map fun x => fmul32 x x)
    let dim32 : BitVec 32 := enc32 0 (some (.fin false t.dim 0))
    let st := eadd32 st (fdiv32 m dim32)
    let q := eadd32 (fsqrt32 st) b.eps
    (pair.map fun p => fma32 (fneg32 b.lr) (fdiv32 p.2 q) p.1, st)

/-- The bytes of an updated row: converted with saturation, gear blocks encoded (R235). -/
def rowBack (fg : BitVec 8) (xs : List (BitVec 32)) : List Byte :=
  match fmtOf (fgCode fg) with
  | none => []
  | some f =>
    if fgGear fg = 0 then
      leBytes (xs.length * (f.width / 8)) (packBits f.width (if f = fp32 then xs.map (·.toNat) else (packLanes f xs).1))
    else ((List.range (xs.length / 64)).map fun i => packBlock (fgCode fg) (fgGear fg) f ((xs.drop (64 * i)).take 64)).flatten

/-- The writes of one updated row with what the row held before, or why there are none: the row is read first. -/
def rowUpdate (b : EmbBatch) (t : EmbTable) (row : Nat) (s : State) :
    (EmbWr × List (Nat × List Byte) × List (Nat × List Byte)) × State :=
  match t.place b.key.member row with
  | none => ((.done, [], []), s)
  | some (o, so) => match embOff s b.surr o, embOff s b.surr so with
    | some off, some soff =>
      let fail (st : Status) (s : State) : (EmbWr × List (Nat × List Byte) × List (Nat × List Byte)) × State :=
        ((.fail st off, [], []), s)
      match homeReadN s (b.rq 0) off t.rowBytes with
      | (.wait, s1) => ((.wait, [], []), retryLater s s1)
      | (.fail st, s) => fail st s
      | (.data bs, s1) => match embRowVals s1 t (unitChainring (homeWheel off)) bs with
        | .inl (i, e) => ((.fail e.status (off + i), [], []), recGear b (off + i) e s1)
        | .inr xs =>
          let g := (List.range t.dim).map fun d =>
            sum32 ((b.partials.filter fun p => p.2.1 == row).map fun p => p.2.2.getD d 0)
          let vals := xs.map fun v => enc32 (embNan 6 0 0 0) (match v with | .nan _ => none | x => some x)
          if b.mode = 2 then
            match homeReadN s1 (b.rq 0) soff 4 with
            | (.wait, s2) => ((.wait, [], []), retryLater s s2)
            | (.fail st, s) => fail st s
            | (.data w, s) =>
              let (ys, st) := updateRow b t vals g (BitVec.ofNat 32 (leNat w))
              ((.done, [(off, rowBack t.fmtGear ys), (soff, leBytes 4 st.toNat)], [(off, bs), (soff, w)]), s)
          else
            let (ys, _) := updateRow b t vals g 0
            ((.done, [(off, rowBack t.fmtGear ys)], [(off, bs)]), s1)
    | _, _ => ((.fail .revoked o, [], []), s)

/-- Make the writes of a list, in order; those that wait are kept. -/
def runWrites (b : EmbBatch) : List (Nat × List Byte) → State → EmbWr × List (Nat × List Byte) × State
  | [], s => (.done, [], s)
  | (a, bs) :: rest, s =>
    let r : EmbWr × Nat × State :=
      if b.key.update then
        match homeWriteN s (b.rq 0) a bs with
        | (.done, n, s) => (.done, n, s)
        | (.wait, n, s) => (.wait, n, s)
        | (.fail st, n, s) => (.fail st a, n, s)
      else embWrite s b a bs
    match r with
    | (.done, _, s) => runWrites b rest s
    | (x, n, s) => (x, (a + n, bs.drop n) :: rest, s)

/-- Apply the rows of an update one after another: what is left to write, what it replaces, and the rows after it. -/
def applyRows (b : EmbBatch) (t : EmbTable) :
    List Nat → State → EmbWr × List (Nat × List Byte) × List (Nat × List Byte) × List Nat × State
  | [], s => (.done, [], [], [], s)
  | r :: rs, s =>
    match rowUpdate b t r s with
    | ((.done, ws, old), s) => match runWrites b ws s with
      | (.done, _, s) => applyRows b t rs s
      | (x, ws, s) => (x, ws, old, rs, s)
    | ((x, _, _), s) => (x, [], [], r :: rs, s)

/-- A write of a row fails: the row keeps its previous contents, and the batch completes with the error (R236). -/
def failRow (b : EmbBatch) (undo : List (Nat × List Byte)) (st : Status) (off : Nat) (s : State) : State :=
  endBatch b b.key.member { status := st, off := BitVec.ofNat 64 off } (runWrites b undo s).2.2

/-- An earlier update of the table is still in progress (R236). -/
def updateBehind (s : State) (b : EmbBatch) : Bool :=
  b.key.update && s.eng.batches.any fun x =>
    x.key.update && x.surr == b.surr && x.key.rider = b.key.rider && x.key.table = b.key.table &&
      decide (x.key.batch.toNat < b.key.batch.toNat)

/-- Go on with the writes of a batch whose verdicts are all clean; then it completes. -/
def writeBatch (b : EmbBatch) (s : State) : State :=
  match batchTable s b with
  | none => s
  | some t =>
    let keep (ws undo : List (Nat × List Byte)) (left : List Nat) (s : State) : State :=
      updBatch b.key (fun x => { x with todo := ws, undo := undo, left := left }) s
    match runWrites b b.todo s with
    | (.fail st off, _, s) => failRow b b.undo st off s
    | (.wait, ws, s) => keep ws b.undo b.left s
    | (.done, _, s) => match applyRows b t b.left s with
      | (.fail st off, _, undo, _, s) => failRow b undo st off s
      | (.wait, ws, undo, left, s) => keep ws undo left s
      | (.done, _, _, _, s) => endBatch b b.key.member { status := .ok, off := 0 } s

/-- Every other member's verdict has arrived: the batch is faulted and completes, or its writes begin. -/
def judgeBatch (b : EmbBatch) (s : State) : State :=
  match batchTable s b with
  | none => s
  | some t =>
    if !b.heard t || updateBehind s b then s
    else
      let (m, f) := b.verdict
      if f.status ≠ .ok then endBatch b m f s
      else
        let b : EmbBatch :=
          if b.key.update then { b with ready := true, left := (b.askedRows t).map (·.1) }
          else { b with ready := true, todo := b.outputs t }
        writeBatch b (updBatch b.key (fun _ => b) s)

/-- Take a batch as far as it can go. -/
def pumpBatch (k : BatchKey) (s : State) : State :=
  let stage (p : EmbBatch → Bool) (f : EmbBatch → State → State) (s : State) : State :=
    match findBatch s k with
    | some b => if p b && !b.late then f b s else s
    | none => s
  let first (b : EmbBatch) : Bool := (s.eng.batches.find? fun x => !x.loaded) == some b
  let s := stage (fun b => !b.loaded && first b) loadBatch s
  let s := stage (fun b => b.loaded && !b.served && (batchTable s b).any b.allRuns) serveBatch s
  let s := stage (fun b => b.served && !b.said) sayVerdict s
  let s := stage (fun b => b.said && !b.ready) judgeBatch s
  stage (·.ready) writeBatch s

/-- Take every batch as far as it can go, in the order of acceptance. -/
def pumpBatches (s : State) : State := (s.eng.batches.map (·.key)).foldl (fun s k => pumpBatch k s) s

/-! ### The commands (R221 to R224, R233, R236) -/

/-- Take the laps of the member's own segments (R223). -/
def takeEmbViews (b : EmbBatch) (t : EmbTable) (s : State) : State :=
  let rs := ((t.members[b.key.member]?).map t.ranges).getD []
  let exts := (rs.flatMap fun g => seqFrom (extentOf g.1) (extentOf (g.1 + g.2 - 1) - extentOf g.1 + 1)).dedup
  exts.foldl (fun s i =>
    match embOff s b.surr (i * 2 ^ 34) with
    | some o => match findExt s (extentOf o) with
      | some x => (takeView s x b.opId b.key.rider).2
      | none => s
    | none => s) s

/-- The batch that a command's parameters spell. -/
def embBatch (c : Cmd) (update : Bool) (member : Nat) (opId : Nat) : EmbBatch :=
  let w := c.p 0
  { key := { member := member, rider := c.h.r, table := BitVec.ofNat 8 (bits w 0 8), batch := BitVec.ofNat 32 (bits w 32 32)
             update := update }
    cmd := openOf (if update then 0x302 else 0x301) c, surr := c.h.surrogate, mode := BitVec.ofNat 8 (bits w 8 8)
    outFg := BitVec.ofNat 8 (bits w 16 8), weighted := bit w 24, indexN := bits (c.p 1) 0 32, samples := bits (c.p 1) 32 32
    idxVa := c.p 2, wgtVa := c.p 3, bagVa := c.p 4, dataVa := c.p 5, spillVa := c.p 6, spill := bits (c.p 7) 0 32
    lr := BitVec.ofNat 32 (fieldB c.payload 0 4), eps := BitVec.ofNat 32 (fieldB c.payload 4 4), opId := opId
    loaded := false, valid := [], bags := [], badPos := [], runs := [], served := false, rows := [], odd := [], partials := []
    said := false, verdicts := [], own := { status := .ok, off := 0 }, ready := false, todo := [], left := [], undo := [], late := false }

/-- Fields that a look-up and an update share (R224, R226). -/
def embForm (c : Cmd) (b : EmbBatch) (pooled : Bool) : Bool :=
  bits (c.p 0) 25 7 == 0 && bits (c.p 7) 48 16 == 0 && bits (c.p 7) 32 16 != 0 && decide (b.indexN ≤ 268435456) &&
    (!pooled || decide (b.samples ≤ 16777216)) && b.spillVa.toNat % 4096 == 0 &&
    (!spills b.indexN || (b.spillVa ≠ 0 && decide (32 * b.indexN ≤ b.spill * 4096)))

/-- Acceptance (R222), then the batch starts: what arrived early joins it. -/
def startBatch (b : EmbBatch) (t : EmbTable) (s : State) : Eff :=
  if s.eng.batches.any fun x => x.key = b.key then Eff.stat .badParam s
  else if 8 ≤ s.eng.batches.length then Eff.stat .busy s
  else
    let early := s.eng.early.filter fun e => e.key = b.key
    let (known, odd) := early.partition fun e => e.parts.isEmpty || e.defTag = t.defTag
    let b := { b with runs := early.flatMap (·.runs), partials := known.flatMap (·.parts), odd := odd.flatMap fun e => e.parts.map (·.1), late := closedTo s b.key.rider }
    let s := { s with
      eng.batches := s.eng.batches ++ [b]
      eng.early := dropIf s.eng.early fun e => e.key = b.key
      eng.nextOp := s.eng.nextOp + 1 }
    Eff.later (pumpBatch b.key (takeEmbViews b t s))

/-- The table of a command and this module's member index in it. DESIGN CHOICE (notes/assumptions/144.md): without one the command
is refused with `BAD_PARAM`. -/
def embJoin (c : Cmd) (s : State) : Option (EmbTable × Nat) :=
  match embTable s c.h.surrogate c.h.r (BitVec.ofNat 8 (bits (c.p 0) 0 8)) with
  | none => none
  | some t => (t.members.findIdx? fun m => m.module.toNat == embMe s c.h.surrogate).map fun i => (t, i)

/-- `EMB_LOOKUP`. DESIGN CHOICE (notes/assumptions/131.md): gear blocks start on 8-byte boundaries (R204), so a pooled output
in a gear off such a boundary is refused with `MISALIGNED`. -/
def bodyEmbLookup : Body := fun c s =>
  match embJoin c s with
  | none => Eff.stat .badParam s
  | some (t, i) =>
    let b := embBatch c false i s.eng.nextOp
    let o := fgCode b.outFg
    let out := b.mode = 0 || ((o == 1 || o == 2 || o == 5) && fmtGearOk b.outFg && (fgGear b.outFg == 0 || t.dim % 64 == 0))
    if !embForm c b (b.mode ≠ 0) || 2 < b.mode.toNat || !out then Eff.stat .badParam s
    else if b.mode ≠ 0 && fgGear b.outFg ≠ 0 && b.dataVa.toNat % 8 ≠ 0 then Eff.stat .misaligned s
    else startBatch b t s

def execEmbLookup (c : Cmd) (s : State) : Out State := .next (runPacket 0x301 c bodyEmbLookup s)

/-- `EMB_UPDATE`. DESIGN CHOICE (notes/assumptions/145.md): a new definition of the table begins its `BATCH_ID` values anew. -/
def bodyEmbUpdate : Body := fun c s =>
  match embJoin c s with
  | none => Eff.stat .badParam s
  | some (t, i) =>
    let b := embBatch c true i s.eng.nextOp
    if !embForm c b true || 2 < b.mode.toNat || 1 < b.outFg.toNat || (b.mode = 2 && !t.state) then Eff.stat .badParam s
    else if t.lastUpd.any fun n => decide (b.key.batch.toNat ≤ n.toNat) then Eff.stat .badParam s
    else
      let e := startBatch b t s
      if e.ans.isSome then e
      else { e with st := { e.st with
        eng.tables := updIf e.st.eng.tables (fun u => u.surr == t.surr && u.rider = t.rider && u.table = t.table)
          fun u => { u with lastUpd := some b.key.batch } } }

def execEmbUpdate (c : Cmd) (s : State) : Out State := .next (runPacket 0x302 c bodyEmbUpdate s)

/-! ### Messages of the other members -/

/-- Keep what came before the local command (R221). -/
def addEarly (k : BatchKey) (defTag : BitVec 32) (runs : List EmbRun) (parts : List (Nat × Nat × List (BitVec 32)))
    (s : State) : State :=
  { s with eng.early := s.eng.early ++ [{ key := k, defTag := defTag, runs := runs, parts := parts }] }

def runArrives (k : BatchKey) (run : EmbRun) (s : State) : State :=
  match findBatch s k with
  | none => addEarly k run.defTag [run] [] s
  | some _ => pumpBatch k (updBatch k (fun b => { b with runs := b.runs ++ [run] }) s)

def execEmbRequestRun (k : BatchKey) (defTag : BitVec 32) (from_ : Nat) (rows : List Nat)
    (contribs : List Contribution) (done : Bool) (s : State) : Out State :=
  .next (whenUp s
    (runArrives k { from_ := from_, defTag := defTag, rows := rows, contribs := contribs, done := done }))

/-- A reply joins its batch; one under another `DEF_TAG` only tells of it. -/
def replyArrives (k : BatchKey) (defTag : BitVec 32) (from_ : Nat) (f : EmbBatch → EmbBatch) (b : EmbBatch) (s : State) : State :=
  let same := (batchTable s b).any fun t => decide (t.defTag = defTag)
  pumpBatch k (updBatch k (fun b => if same then f b else { b with odd := b.odd ++ [from_] }) s)

def rowsArrive (k : BatchKey) (defTag : BitVec 32) (from_ : Nat) (rows : List EmbRow) (s : State) : State :=
  match findBatch s k with
  | none => s
  | some b => replyArrives k defTag from_ (fun b => { b with rows := b.rows ++ rows }) b s

def execEmbRowReply (h : EmbHead) (from_ : Nat) (rows : List EmbRow) (s : State) : Out State :=
  .next (whenUp s (rowsArrive h.key h.defTag from_ rows))

def partialArrives (k : BatchKey) (defTag : BitVec 32) (from_ key : Nat) (values : List (BitVec 32)) (s : State) : State :=
  match findBatch s k with
  | none => addEarly k defTag [] [(from_, key, values)] s
  | some b => replyArrives k defTag from_ (fun b => { b with partials := b.partials ++ [(from_, key, values)] }) b s

def execEmbPartial (h : EmbHead) (from_ key : Nat) (values : List (BitVec 32)) (s : State) : Out State :=
  .next (whenUp s (partialArrives h.key h.defTag from_ key values))

def verdictArrives (k : BatchKey) (from_ : Nat) (f : EmbFault) (s : State) : State :=
  pumpBatch k (updBatch k (fun b => { b with verdicts := setK b.verdicts from_ f }) s)

def execEmbVerdict (k : BatchKey) (from_ : Nat) (status : Status) (offset : Word) (s : State) : Out State :=
  .next (whenUp s (verdictArrives k from_ { status := status, off := offset }))

/-- `LIMIT_MS` runs out on this member before everything it waits for has arrived (R231). -/
def limitExpires (k : BatchKey) (s : State) : State :=
  match findBatch s k with
  | none => s
  | some b =>
    if b.ready || (b.said && (batchTable s b).any b.heard) then s else endBatch b b.key.member { status := .timeout, off := 0 } s

def execEmbLimitExpiry (k : BatchKey) (s : State) : Out State := .next (whenUp s (limitExpires k))

/-- A member is lost, expelled or taken over (R231): a look-up that does not hold every clean verdict, and any update, completes
with `OWNER_LOST`. -/
def embLost (module : Nat) (s : State) : State :=
  s.eng.batches.foldl (fun s b =>
    match batchTable s b with
    | none => s
    | some t =>
      let clean := b.said && b.heard t && decide (b.verdict.2.status = .ok)
      if (t.members.any fun m => m.module.toNat == module) && (b.key.update || !clean) then
        endBatch b b.key.member { status := .ownerLost, off := 0 } s
      else s) s

/-- The embedding work of a rider, or of every rider, is discarded (R36, R321). -/
def dropEmb (r : Option (BitVec 6)) (s : State) : State :=
  let mine (x : BitVec 6) : Bool := r.all (· = x)
  let s := (s.eng.batches.filter fun b => mine b.key.rider).foldl (fun s b =>
    endBatch b b.key.member { status := .timeout, off := 0 } s) s
  { s with
    eng.tables := dropIf s.eng.tables fun t => mine t.rider
    eng.early := dropIf s.eng.early fun e => mine e.key.rider }

end Sys2Proof.Machine
end

