-- ==== Sys2Proof/Machine/Identity.lean ====
section
/-! DEFINITION. Signatures, measurements and attestation (R354, R363 to R365). Which signatures verify, and the SHA3-256
function, are facts about the module's surroundings (notes/assumptions/3.md). -/

namespace Sys2Proof.Machine

/-- The 32 bytes of a digest. -/
def digestBytes (d : BitVec 256) : List Byte := leBytes 32 d.toNat

/-- An ML-DSA-44 signature verifies under a public key. -/
def sigOk (s : State) (key : List Byte) (digest : BitVec 256) (sig : List Byte) : Bool :=
  s.env.sigs.contains (key, digest, sig)

/-- A signature by Balnel's firmware key, known by its digest in the ROM (R350). -/
def balnelOk (s : State) (digest : BitVec 256) (sig : List Byte) : Bool :=
  s.env.sigs.any fun e => Config.sha3 e.1 = s.env.romDigest && e.2.1 = digest && e.2.2 == sig

/-- The manager key of a slot (R284). -/
def mgrKey (s : State) (slot : Nat) : Option (List Byte) := lookupK s.nv.keys slot

/-- A signature by the manager key of a slot. -/
def mgrSigOk (s : State) (slot : Nat) (digest : BitVec 256) (sig : List Byte) : Bool :=
  match mgrKey s slot with
  | some k => sigOk s k digest sig
  | none => false

/-- The padded 2,424-byte signature's signature bytes. -/
def sigBytes (b : List Byte) : List Byte := b.take 2420

/-! ### Measurements (R354) -/

/-- A 48-byte measurement entry (R364). -/
def Measure.bytes (m : Measure) : List Byte :=
  leBytes 2 m.component.toNat ++ [m.core, 0] ++ leBytes 4 m.svn.toNat ++ wordBytes m.version ++ digestBytes m.digest

/-- Extend the attestation log by one started component; the last 32 entries are kept. -/
def measure (m : Measure) (s : State) : State :=
  let f := s.fw
  let f := { f with logL := Config.sha3 (digestBytes f.logL ++ m.bytes), total := f.total + 1, entries := f.entries ++ [m] }
  let f := match f.entries with
    | e :: rest =>
      if 32 < f.entries.length then { f with entries := rest, logBase := Config.sha3 (digestBytes f.logBase ++ e.bytes) } else f
    | [] => f
  { s with fw := f }

/-! ### Attestation (R363, R364) -/

/-- The fingerprint of a device public key (R363). -/
def fpOf (key : List Byte) : Word := (Config.sha3 key).setWidth 64

/-- The report, signed by the device key over everything before the signature. -/
def attestReport (s : State) (nonce : List Byte) : List Byte :=
  let n := s.fw.entries.length
  let body :=
    leBytes 4 0x0A77F064 ++ [BitVec.ofNat 8 n, if s.nv.activeSlot then 1 else 0, 0, 0] ++ wordBytes s.env.fp ++
      sliceB nonce 0 32 ++ leBytes 4 s.nv.bootCount.toNat ++ leBytes 4 (epochNow s).toNat ++
      leBytes 4 s.nv.rollbackSvn.toNat ++ leBytes 4 s.nv.configSeq.toNat ++ wordBytes s.now ++ leBytes 4 s.fw.total ++
      zeros 20 ++ digestBytes s.fw.logL ++ digestBytes s.fw.logBase ++ s.fw.entries.flatMap Measure.bytes ++
      Config.deviceKey ++ sliceB Config.deviceCert 0 2424
  body ++ sliceB (Config.deviceSign (Config.sha3 body)) 0 2424

/-- A partner's report verifies: its certificate, its signature, the nonce asked for, the fingerprint expected (R364). -/
def reportOk (s : State) (nonce : List Byte) (fp : Word) (r : List Byte) : Bool :=
  let n := fieldB r 4 1
  let k := 0xA0 + 48 * n
  let key := sliceB r k 1312
  let body := r.take (k + 1312 + 2424)
  decide (r.length = k + 1312 + 2424 + 2424) && decide (1 ≤ n) && decide (n ≤ 32) && fieldB r 0 4 == 0x0A77F064 &&
    sliceB r 0x10 32 == nonce && BitVec.ofNat 64 (fieldB r 8 8) = fp && fpOf key = fp &&
    balnelOk s (Config.sha3 key) (sigBytes (sliceB r (k + 1312) 2424)) &&
    sigOk s key (Config.sha3 body) (sigBytes (sliceB r (k + 1312 + 2424) 2424))

/-- Without an identity a command returns `AUTH` (R365). -/
def withIdentity (s : State) (e : Eff) : Eff := if s.fw.identity then e else Eff.stat .auth s

def bodyAttest : Body := fun c s =>
  withIdentity s (Eff.data .ok 0 (attestReport s (paramBytes c.params)) s)

def execAttest (c : Cmd) (s : State) : Out State := .next (runPacket 0x502 c bodyAttest s)

end Sys2Proof.Machine
end

