-- ==== Sys2Proof/Machine/Twin.lean ====
section
/-! DEFINITION. The pair (R273 to R283): the mirror channel at both ends, resync, the twin link, attested pairing, the
commit log, handover, takeover and relaying (R290, R291). -/

namespace Sys2Proof.Machine

/-- The pair enters a state; a change raises the alert (R406). -/
def setPair (st : BitVec 4) (s : State) : State :=
  if s.pair.st = st then s else alert 0 { s with pair.st := st }

/-- The link to the twin carries the mirror channel. -/
def mirroring (s : State) : Bool := s.pair.st = 2 || s.pair.st = 3 || s.pair.st = 6

/-- Resync is over on both modules (R280). -/
def checkPaired (s : State) : State :=
  if s.pair.st = 2 && s.pair.resync.isEmpty && !s.pair.peerLeft then setPair 3 s else s

/-- The own extents that are mirrored, with their runs and the index of the copy on the twin. -/
def mirrorExts (s : State) : List (Extent × Run × Nat) :=
  s.store.extents.filterMap fun x => match x.mirrorOf, extRun s x with
    | none, some u => if u.mirror = 0 then none else some (x, u, u.mirrorFirst.toNat + (x.idx - u.first.toNat))
    | _, _ => none

/-- The twin's page of an own page of a mirrored extent. -/
def twinPage (s : State) (page : Nat) : Option Nat :=
  ((mirrorExts s).find? fun e => e.1.idx == extentOfPage page).map fun e => e.2.2 * 262144 + page % 262144

/-! ### Metadata (R278) -/

def lossOffsets (s : State) (idx : Nat) : List (BitVec 6 × Nat × BitVec 10 × BitVec 16) :=
  s.coh.losses.flatMap fun l => (l.ents.filter fun e => extentOf e.line == idx).map fun e =>
    (l.rider, e.line % 2 ^ 34, e.agent, e.cause)

def extMeta (s : State) (e : Extent × Run × Nat) : ExtMeta :=
  let (x, u, i) := e
  { idx := i, live := x.live, latest := x.latest, laps := x.latest :: x.old.map (·.num)
    wlap := if u.mirror = 1 then x.wlap.map fun w => (w.rider, w.num, w.reserved) else none
    marks := s.store.marks.flatMap fun m =>
      if m.surr then [] else (m.laps.filter (·.1 == x.idx)).map fun l => (m.rider, m.tag, l.2)
    fenced := x.fenced, unlisted := x.unlisted, losses := lossOffsets s x.idx
    missing := ((s.pair.resync ++ s.pair.unsynced).filter fun p => extentOfPage p == x.idx).length }

/-- Tell the twin what has changed in the metadata of the mirrored extents. -/
def sendMeta (s : State) : State :=
  if !mirroring s then s
  else
    let m : MirMsg := .info s.pair.resync.length ((mirrorExts s).map (extMeta s))
    if s.pair.told = some m then s else emit (.mirror m) { s with pair.told := some m }

/-! ### The twin's end: mirrored writes (R277 to R279) -/

/-- The pseudo-operation that holds, on a mirror copy, the laps that live on the primary (R278). -/
def mirrorOp : Nat := 2 ^ 64

/-- The frame of a page of a mirror copy, taken in the order of R66 at its first write. -/
def mirrorFrame (page : Nat) (s : State) : Nat × State :=
  match (findPage s.store page).home with
  | some f => (f, s)
  | none =>
    let (f, st) := newFrame ((freeTier s page).getD .lpddr) s.store
    (f, { s with store := setPage { findPage st page with home := some f } st })

def putFrame (f off : Nat) (bs : List Byte) (s : State) : State :=
  { s with store := putBytes (frameTier s.store f) (f * 65536 + off) (allBytes bs) s.store }

/-- The shadow of a page in a mirror copy's write lap, made at its first write from the page's latest version. -/
def mirrorShadow (idx page : Nat) (s : State) : Nat × State :=
  let w := ((findExt s idx).bind (·.wlap)).getD { rider := 0, num := 0, reserved := 0, shadows := [], closed := false }
  match lookupK w.shadows page with
  | some f => (f, s)
  | none =>
    let (f, st) := newFrame ((shadowTier s page).getD .lpddr) s.store
    let st := match (findPage s.store page).home with
      | some b => copyFrame b f st
      | none => st
    (f, updExt { s with store := st } idx fun x => { x with wlap := x.wlap.map fun w => { w with shadows := w.shadows ++ [(page, f)] } })

/-- Give a mirror copy a write lap, unless it has one. -/
def openMirrorLap (idx : Nat) (r : BitVec 6) (num : BitVec 32) (reserved : Nat) (s : State) : State :=
  updExt s idx fun x =>
    if x.wlap.isSome then { x with wlap := x.wlap.map fun w => { w with rider := r, num := num, reserved := reserved } }
    else { x with wlap := some { rider := r, num := num, reserved := reserved, shadows := [], closed := false } }

/-- A mirrored write arrives (R279): applied in the order of the channel. -/
def mirrorArrives (page off : Nat) (data : List Byte) (ver : MirVer) (s : State) : State :=
  let idx := extentOfPage page
  match findExt s idx with
  | none => s
  | some x =>
    if x.mirrorOf.isNone || s.pair.surr then s
    else match ver with
      | .latest =>
        let (f, s) := mirrorFrame page s
        putFrame f off data s
      | .wlap =>
        let s := if x.wlap.isSome then s else openMirrorLap idx 0 (nextLap x.latest) 0 s
        let (f, s) := mirrorShadow idx page s
        putFrame f off data s
      | .lap k =>
        if !x.old.any (·.num = k) then s
        else
          let (f, st) := newFrame ((freeTier s page).getD .lpddr) s.store
          let s := putFrame f off data { s with store := st }
          updExt s idx fun x =>
            { x with old := updIf x.old (·.num = k) fun l => { l with pages := dropIf l.pages (·.1 == page) ++ [(page, some f)] } }

/-- The commit log names an extent: its switch follows the log, not the metadata. -/
def inLog (s : State) (idx : Nat) : Bool := s.pair.clog.any fun e => e.extents.any (·.1 == idx)

/-- Metadata of one extent arrives. -/
def metaArrives (m : ExtMeta) (s : State) : State :=
  match findExt s m.idx with
  | none => s
  | some x =>
    if x.mirrorOf.isNone || s.pair.surr then s
    else
      let logged := inLog s m.idx
      let s := updExt s m.idx fun x =>
        let latest := if logged then x.latest else m.latest
        let known (k : BitVec 32) : Bool := decide (k = latest) || x.old.any (·.num = k)
        { x with
          latest := latest
          old := x.old ++ (m.laps.filter fun k => !known k).map fun k => { num := k, pages := [] }
          holds := dropIf x.holds (·.1 == mirrorOp) ++ (m.laps.filter (· ≠ latest)).map fun k => (mirrorOp, k) }
      let s := if logged then s
        else match m.wlap with
          | some (r, n, k) => openMirrorLap m.idx r n k s
          | none => abandonLap m.idx s
      reapLaps m.idx s

def infoArrives (left : Nat) (exts : List ExtMeta) (s : State) : State :=
  let s := { s with
    pair.peerLeft := decide (left ≠ 0)
    pair.metas := exts }
  checkPaired (exts.foldl (fun s m => metaArrives m s) s)

/-- The twin link brings a message of the mirror channel. -/
def mirrorMsg (m : MirMsg) (s : State) : State :=
  match m with
  | .write page off data ver => mirrorArrives page off data ver s
  | .info left exts => infoArrives left exts s

def execMirrorWrite (m : MirMsg) (s : State) : Out State := .next (whenUp s (mirrorMsg m))

/-- A landing mark: the copy of the primary's window for the source (R279). -/
def execLandingMark (source : Sender) (epoch seq : BitVec 32) (s : State) : Out State :=
  .next (whenUp s fun s => { s with pair.marks := s.pair.marks ++ [(source, epoch, seq)] })

/-! ### The commit log (R282) -/

/-- A commit record arrives complete: its shadow pages make the pending lap, it is logged as prepared and acknowledged. -/
def recordArrives (exts : List (Nat × BitVec 32)) (shadows : List (Nat × List Byte)) (s : State) : State :=
  if !(exts.all fun e => (findExt s e.1).any (·.mirrorOf.isSome)) || s.pair.surr then s
  else
    let s := exts.foldl (fun s e =>
      let old := (findExt s e.1).bind (·.wlap)
      openMirrorLap e.1 ((old.map (·.rider)).getD 0) e.2 ((old.map (·.reserved)).getD 0) s) s
    let s := shadows.foldl (fun s p =>
      let (f, s) := mirrorShadow (extentOfPage p.1) p.1 s
      putFrame f 0 p.2 s) s
    emit (.preparedAck exts) { s with pair.clog := s.pair.clog ++ [{ extents := exts }] }

def execCommitRecord (exts : List (Nat × BitVec 32)) (shadows : List (Nat × List Byte)) (s : State) : Out State :=
  .next (whenUp s (recordArrives exts shadows))

/-- Switch a mirror copy to its pending lap; the lap it leaves lives until the primary frees it (R278). -/
def switchMirror (e : Nat × BitVec 32) (s : State) : State :=
  match findExt s e.1 with
  | some x =>
    let s := updExt s e.1 fun x => { x with holds := x.holds ++ [(mirrorOp, x.latest)] }
    match x.wlap with
    | some _ => commitLap e.1 s
    | none => switchLap e.1 e.2 [] s
  | none => s

/-- A committed mark: the twin switches its copies. -/
def markArrives (exts : List (Nat × BitVec 32)) (s : State) : State :=
  if !(s.pair.clog.any fun l => l.extents == exts) then s
  else
    let s := exts.foldl (fun s e => switchMirror e s) s
    { s with pair.clog := dropIf s.pair.clog fun l => l.extents == exts }

def execCommittedMark (exts : List (Nat × BitVec 32)) (s : State) : Out State := .next (whenUp s (markArrives exts))

/-- Go on with the jobs of the list one after another: each may end, change or stay. -/
def stepJobs (f : Job → State → State × Option Job) (s : State) : State :=
  s.jobs.foldl (fun s j => addJob (f j s)) { s with jobs := [] }

/-- The twin has prepared a record: the commit or rollback that waits for it switches (R137 mirror step). -/
def ackPrepared (exts : List (Nat × BitVec 32)) (s : State) : State :=
  stepJobs (fun j s => match j with
    | .commit o r es 1 false => if commitMirror s es == exts then tryCommit o r es 1 true s else (s, some j)
    | .rollback o r es 1 false => if rollMirror s es == exts then tryRollback o r es 1 true s else (s, some j)
    | _ => (s, some j)) s

def execCommitPreparedAck (exts : List (Nat × BitVec 32)) (s : State) : Out State :=
  .next (whenUp s (ackPrepared exts))

/-! ### Pairing and resync (R275, R280) -/

/-- The pages of the mirrored runs that are not absent, in ascending order. -/
def resyncPages (s : State) : List Nat :=
  let idxs := (mirrorExts s).map (·.1.idx)
  let own := (s.store.pages.filter fun p => idxs.contains (extentOfPage p.n) && p.home.isSome).map (·.n)
  let others := (mirrorExts s).flatMap fun e =>
    (match e.1.wlap with | some w => if e.2.1.mirror = 1 then w.shadows.map (·.1) else [] | none => []) ++
      e.1.old.flatMap fun l => l.pages.map (·.1)
  sortBy id (own ++ others).dedup

/-- Copy one page to the twin: its latest version, its shadow in synchronous mode, its versions in older laps. -/
def sendPage (page : Nat) (s : State) : State :=
  match (mirrorExts s).find? (fun e => e.1.idx == extentOfPage page), twinPage s page with
  | some (x, u, _), some m =>
    let put (f : Nat) (v : MirVer) (s : State) : State := emit (.mirror (.write m 0 (memReadN s.store.mem (f * 65536) 65536) v)) s
    let p := findPage s.store page
    let cur := match p.copy with | some c => some c.frame | none => p.home
    let s := match cur with | some f => put f .latest s | none => s
    let s := match x.wlap with
      | some w => match (if u.mirror = 1 then lookupK w.shadows page else none) with
        | some f => put f .wlap s
        | none => s
      | none => s
    x.old.foldl (fun s l => match l.pages.find? (·.1 == page) with
      | some (_, some f) => put f (.lap l.num) s
      | _ => s) s
  | _, _ => s

/-- The copy of the lowest page that is left completes (R280). -/
def resyncPage (page : Nat) (s : State) : State :=
  match s.pair.resync with
  | p :: rest =>
    if s.pair.st = 2 && p == page then checkPaired (sendMeta (sendPage page { s with pair.resync := rest })) else s
  | [] => s

def execResyncPageCopy (page : Nat) (s : State) : Out State := .next (whenUp s (resyncPage page))

/-- Start resync: every page of every mirrored run. -/
def startResync (s : State) : State :=
  let s := setPair 2 s
  checkPaired (sendMeta { s with
    pair.resync := resyncPages s
    pair.peerLeft := true
    pair.told := none })

/-- Four fresh words make a nonce. -/
def takeNonce (s : State) : List Byte × State :=
  (((List.range 4).flatMap fun i => wordBytes (Config.freeBits (s.freeIdx + i))), { s with freeIdx := s.freeIdx + 4 })

def bodyTandemPair : Body := fun c s =>
  withIdentity s (
    if s.pair.twin = 0xFF then Eff.stat .badParam s
    else if s.pair.st ≠ 1 || s.pair.cmd.isSome then Eff.stat .busy s
    else
      let (n, s) := takeNonce s
      Eff.later (emit (.attestNonce n) { s with
        pair.cmd := some (openOf 0x680 c)
        pair.nonce := n }))

def execTandemPair (c : Cmd) (s : State) : Out State := .next (runPacket 0x680 c bodyTandemPair s)

/-- The partner's report and nonce arrive: its nonce is answered; the report decides a pairing that waits for it. -/
def reportArrives (report nonce : List Byte) (s : State) : State :=
  let s := if s.fw.identity then emit (.attestReport (attestReport s nonce)) s else s
  match s.pair.cmd with
  | none => s
  | some o =>
    if s.pair.st ≠ 1 then s
    else
      let s := { s with pair.cmd := none }
      let fp := ((moduleEntry s s.pair.twin.toNat).map (·.fp)).getD 0
      if reportOk s s.pair.nonce fp report then startResync (completeIf o .ok 0 [] s) else completeIf o .auth 0 [] s

def execPartnerAttestReport (report nonce : List Byte) (s : State) : Out State :=
  .next (whenUp s (reportArrives report nonce))

/-! ### The twin link (R274, R281) -/

/-- A change of the link is recorded (TYPE 0x000C). -/
def recLink (lanes : Nat) (s : State) : State :=
  detect { Rec.blank 0x000C with point := 0x09, unit := unitTandem 0, arg0 := BitVec.ofNat 64 (if 0 < lanes then 2 else 1) } s

/-- No lane has been up for 10 ms. -/
def twinDown (s : State) : State :=
  if s.pair.lanes = 0 then s
  else
    let s := recLink 0 { s with pair.lanes := 0 }
    if s.pair.st = 2 || s.pair.st = 3 then
      setPair 4 { s with
        pair.unsynced := (s.pair.unsynced ++ s.pair.resync ++ s.pair.inFlight).dedup
        pair.resync := []
        pair.inFlight := [] }
    else s

def execTwinLinkDown (s : State) : Out State := .next (whenUp s twinDown)

/-- The lanes of a Tandem die (R15). -/
def dieLanes (t : Nat) : BitVec 32 := BitVec.ofNat 32 (0xFFFF * 2 ^ (16 * t))

/-- The lanes that fenced Tandem dies leave of a mask (R15, R336). -/
def tandemLanes (s : State) (lanes : BitVec 32) : BitVec 32 :=
  (List.range 2).foldl (fun m t => if unitFenced s (unitTandem t) then m &&& ~~~ dieLanes t else m) lanes

/-- `LANES_UP`: the lanes of a mask. -/
def laneCount (m : BitVec 32) : Nat := ((List.range 32).filter fun i => bit m i).length

/-- Lanes are trained: a link that was down comes back, and the unsynced pages are copied again. -/
def twinUp (lanes : BitVec 32) (s : State) : State :=
  let n := tandemLanes s lanes
  if n = 0 then s
  else
    let was := s.pair.lanes
    let s := { s with pair.lanes := n }
    let s := if was = 0 then recLink (laneCount n) s else s
    if s.pair.st = 4 then
      let s := setPair 2 s
      checkPaired (sendMeta { s with
        pair.resync := sortBy id s.pair.unsynced
        pair.unsynced := []
        pair.told := none })
    else s

def execTwinLinkUp (lanes : BitVec 32) (s : State) : Out State := .next (whenUp s (twinUp lanes))

/-- A synchronous write of a requester at a store offset is held before its home order; one that is made already, and waits for
the twin's copy, is not (R281). -/
def writeHeld (s : State) (q : Rq) (off : Nat) : Bool :=
  !((findTicket s (q.key off) true).any fun t => decide (t.phase = .mirror)) &&
    (rightsAt s q.rider off true).elim (fun _ => false) fun x => mirrorHeld s x (pageOf off)

/-- The same of a write by address; the offset where it is held. -/
def heldOff (s : State) (q : Rq) (opa : Word) : Option Nat :=
  match target s opa with
  | .off off => if writeHeld s q off then some off else none
  | _ => none

/-- The first store of a context that is held. -/
def storeStuck (s : State) (r : BitVec 6) (t : BitVec 10) (c : BitVec 4) (k : Ctx) : Option StoreEnt :=
  k.stores.find? fun e => !e.remote && e.ready && (heldOff s (rqTile t c r e.va) e.opa).isSome

/-- An atomic of a context that is held, and where. -/
def atomStuck (s : State) (r : BitVec 6) (t : BitVec 10) (c : BitVec 4) (k : Ctx) : Option (Access × Nat) :=
  match k.block with
  | .access a true | .access a false =>
    match a.kind, (accXlat s a r a.va true).1 with
    | .atom _ _, .ok opa => (heldOff s (rqTile t c r a.va) opa).map fun o => (a, o)
    | _, _ => none
  | _ => none

/-- The first stream of a context whose beat is held. -/
def streamStuck (s : State) (r : BitVec 6) (c : BitVec 4) (x : Tile) : Option Stream :=
  x.streams.find? fun z => decide (z.ctx = c) && z.running && z.toStore &&
    (match xlatHit s (.stream x.id z.n) r (z.beatVa z.next).toNat true with
    | some (opa, _) => (heldOff s (rqStream x.id z r) opa).isSome
    | none => false)

/-- The next write of an operation's beat is held. -/
def opStuck (s : State) (o : EngOp) : Bool :=
  let a := o.here + BitVec.ofNat 64 o.put
  decide (o.kind ≠ .compare) && decide (o.kind ≠ .bulkRead) && decide (o.reads.length ≤ o.got) &&
    (match (cmdAddr s o.cmd.h a true).1 with
    | .ok opa => (heldOff s (o.rq a) opa).isSome
    | _ => false)

/-- The next write of a batch is held, and where. -/
def batchStuck (s : State) (b : EmbBatch) : Option Nat :=
  match b.todo with
  | [] => none
  | (a, _) :: _ =>
    if b.key.update then (if writeHeld s (b.rq 0) a then some a else none)
    else match (embAddr s b (BitVec.ofNat 64 a) true).1 with
      | some (.inr o) => if writeHeld s (b.rq (BitVec.ofNat 64 a)) o then some o else none
      | _ => none

/-- `E2E_LIMIT` runs out for something that waits for the link (R281): a synchronous write of this module is not applied,
a lap-mode commit returns with its write lap open and held. -/
def mirrorWaitEnds (w : MirWaiter) (s : State) : State :=
  if s.pair.st ≠ 4 then s
  else match w with
    | .cmd src tag =>
      let here (o : Open) : Bool := decide (o.h.src = src) && decide (o.h.tag = tag)
      let s := stepJobs (fun j s => match j with
        | .commit o _ es _ _ =>
          if here o && !(commitMirror s es).isEmpty then
            let s := forExts (es.map (·.1)) s (setClosed false)
            (completeIf o .timeout 0 (lapEntries s o.h.r o.surr (es.map (·.1))) s, none)
          else (s, some j)
        | _ => (s, some j)) s
      match s.eng.ops.find? fun o => here o.cmd && opStuck s o with
      | some o => failOp o .timeout o.here s
      | none => match s.eng.batches.find? fun b => here b.cmd && b.ready with
        | some b => match batchStuck s b with
          | some off => failRow b b.undo .timeout off s
          | none => s
        | none => s
    | .ctx t c => match findTile s t, findCtx s t c, tileRider s t with
      | some x, some k, some r =>
        match storeStuck s r t c k with
        | some e => refuseStore t c e .timeout (some (s.peloton * 256 + s.me)) s
        | none => match atomStuck s r t c k, streamStuck s r c x with
          | some (a, o), _ => failAcc a .timeout o s
          | none, some z => failStream t z.n .timeout s
          | none, none => s
      | _, _, _ => s

def execMirrorWaitLimit (w : MirWaiter) (s : State) : Out State := .next (whenUp s (mirrorWaitEnds w))

/-! ### Takeover (R290) -/

/-- The twin's half of takeover for one mirror copy: it becomes the lost module's run. -/
def takeExt (clean : Bool) (x : Extent) (s : State) : State :=
  let info := s.pair.metas.find? (·.idx == x.idx)
  let u := extRun s x
  let missing := if clean then 0 else match info with
    | some m => m.missing
    | none => 262144
  let s := if u.any (·.mirror = 2) then abandonLap x.idx s else s
  let s := updExt s x.idx fun x =>
    { x with
      live := match info with | some m => m.live | none => u.any fun u => !u.heldFlag
      fenced := (match info with | some m => m.fenced | none => false) || decide (missing ≠ 0)
      unlisted := (match info with | some m => m.unlisted | none => 0) + missing }
  let marks := match info with | some m => m.marks | none => []
  let s := marks.foldl (fun s m =>
    let ms := s.store.marks
    let old := (ms.find? fun k => k.surr && k.rider = m.1).getD { rider := m.1, surr := true, tag := m.2.1, laps := [] }
    { s with store.marks :=
        (dropIf ms fun k => k.surr && k.rider = m.1) ++ [{ old with tag := m.2.1, laps := old.laps ++ [(x.idx, m.2.2)] }] }) s
  let losses := match info with | some m => m.losses | none => []
  let s := losses.foldl (fun s l =>
    let ll := lossOf s l.1
    setLoss { ll with
      ents := ll.ents ++ [{ line := x.idx * 2 ^ 34 + l.2.1, seq := ll.next, agent := l.2.2.1, cause := l.2.2.2 }]
      next := ll.next + 1 } s) s
  if missing = 0 then s
  else match u with
    | none => s
    | some u =>
      ((List.range 64).filter fun r => u.reader (BitVec.ofNat 6 r)).foldl (fun s r =>
        postEvent (BitVec.ofNat 6 r)
          { type := 5, status := Status.fenced.code, queue := 0, arg0 := BitVec.ofNat 64 x.name, arg1 := 0 } s) s

/-- The window of one source of the lost module, from the marks of its landed stores. A source has at most 4,096 stores
outstanding, so none lies 4,096 below the highest that landed; the first store resent raises the base to its sender's lowest
unacknowledged number (R258, R259; notes/assumptions/134.md). -/
def copiedWin (source : Sender) (seqs : List (BitVec 32)) : Window :=
  let top := seqs.foldl (fun h x => if seqDist h x < 2 ^ 31 then x else h) (seqs.headD 0)
  let w := Window.open_ (source, true) (top - 4095)
  { w with marked := (seqs.filter fun x => decide (seqDist w.base x < 4096)).dedup }

/-- The windows of the lost module's sources continue from their copies (R279, R290). -/
def takeWindows (s : State) : State :=
  let marks := s.pair.marks.filter fun m => decide (m.2.1 = epochNow s)
  let wins := (marks.map (·.1)).dedup.map fun src => copiedWin src ((marks.filter (·.1 = src)).map (·.2.2))
  { s with
    fab.rx := dropIf s.fab.rx (·.surr) ++ wins
    pair.marks := [] }

/-- The twin is expelled: nothing goes to it any more, and what waited for its copies has landed (R281). -/
def endMirror (s : State) : State := { s with
  pair.resync := []
  pair.unsynced := []
  pair.inFlight := [] }

/-- This module takes over its twin: logged records are finished, then it is the surrogate. `clean`: after a handover
nothing is fenced (R283). -/
def takeOver (clean : Bool) (s : State) : State :=
  if s.pair.surr then s
  else
    let s := s.pair.clog.foldl (fun s l => l.extents.foldl (fun s e => switchMirror e s) s) s
    let s := { s with pair.clog := [] }
    let s := (s.store.extents.filter (·.mirrorOf.isSome)).foldl (fun s x => takeExt clean x s) s
    let s := dropHolds mirrorOp s
    let s := endMirror { s with pair.surr := true }
    setPair 5 (takeWindows s)

/-! ### Handover (R283) -/

/-- Every tile is stopped and will be unloaded (`TILE_STOP` mode 1). -/
def stopAllTiles (s : State) : State :=
  (s.tiles.map (·.id)).foldl (fun s t =>
    stopStreams t ((List.range 16).foldl (fun s i => haltCtx t (BitVec.ofNat 4 i) s) s)) s

/-- Every tile is idle. -/
def tilesQuiet (s : State) : Bool := s.tiles.all fun x => x.ctxs.all Ctx.quiet && x.streams.all fun z => !z.running

def unloadAll (s : State) : State := (s.tiles.map (·.id)).foldl (fun s t => unloadTile t s) s

def bodyTandemHandover : Body := fun c s =>
  let allow := bit (c.p 0) 0
  if bits (c.p 0) 1 63 ≠ 0 then Eff.stat .badParam s
  else if s.pair.st ≠ 3 then Eff.stat .busy s
  else if !allow && s.store.extents.any (fun x => x.live && x.mirrorOf.isNone && (extRun s x).any (·.mirror = 0)) then
    Eff.stat .badParam s
  else
    let s := stopAllTiles s
    Eff.later (setPair 6 { s with pair.cmd := some (openOf 0x681 c) })

def execTandemHandover (c : Cmd) (s : State) : Out State := .next (runPacket 0x681 c bodyTandemHandover s)

/-- The command of an operation that is held since the close. -/
def lateCmd (s : State) (o : Open) : Bool :=
  s.eng.ops.any (fun x => x.late && decide (x.cmd = o)) || s.eng.batches.any fun x => x.late && decide (x.cmd = o)

/-- Nothing that was accepted is still in progress, but for the command given. -/
def drainedBut (o : Option Open) (s : State) : Bool :=
  tilesQuiet s && s.coh.trks.isEmpty && s.eng.ops.all (·.late) && s.eng.batches.all (·.late) && s.jobs.isEmpty &&
    s.xlat.walks.isEmpty && s.xlat.unmaps.isEmpty && s.store.tierCmds.isEmpty &&
    (s.queues.all fun q => q.started.all (lateCmd s) && q.done.isEmpty) &&
    (s.port.outstanding.all fun x => some x == o || lateCmd s x) && s.fab.tx.all (·.unacked.isEmpty) && s.fab.loads.isEmpty &&
    s.fab.gblocks.all (·.waiting.isEmpty) && s.pair.inFlight.isEmpty

/-- Drain and flush are done: on the module that hands over, lap-mode write laps are abandoned, relaying starts and the
command returns; on its twin, the mirrored runs are taken over with nothing fenced. -/
def handoverDone (s : State) : State :=
  if s.pair.st = 6 then
    if !drainedBut s.pair.cmd s then s
    else
      let s := ((mirrorExts s).filter fun e => e.2.1.mirror = 2).foldl (fun s e => abandonLap e.1.idx s) s
      let s := sendMeta (unloadAll s)
      let o := s.pair.cmd
      let s := setPair 7 { s with pair.cmd := none }
      match o with
      | some o => completeIf o .ok 0 [] s
      | none => s
  else if s.pair.st = 3 then takeOver true s
  else s

def execHandoverDrainDone (s : State) : Out State := .next (whenUp s handoverDone)

/-- The rider of a request that came in at the module whose surrogate this one is, by that module's routes. -/
def relayRider (s : State) (src : ReqSrc) : Option (BitVec 6) :=
  let rs := sideRoutes s true
  match src with
  | .agent a => (agentIn rs a).map (·.rider)
  | .edge x => (sourceIn rs x).map (·.rider)
  | .cxl port ld => (ldIn rs port ld).map (·.rider)
  | src => srcRider s src

/-- A relayed request arrives at the surrogate: a store or a fence with its source, epoch and sequence number unchanged, any
other request as one of the module that relays; an expelled module's relayed traffic is refused (R289). -/
def relayArrives (m : Relayed) (port : Fin 24) (s : State) : State :=
  let lost := s.expelled.any (·.toNat == s.twinNo)
  let twin := BitVec.ofNat 6 s.twinNo
  if !s.pair.surr then s
  else match m with
    | .store p =>
      if lost then emit (.seqAck (BitVec.ofNat 8 s.twinNo) p.sender p.lowest [] [(p.seq, .auth)]) s else storeArrives p port s
    | .req r k => match relayRider s r.src with
      | some rider => if lost then refuseReq r .auth s else acceptReq { r with src := .remote twin rider } k s
      | none => refuseReq r .auth s
    | .fence source txn seq epoch =>
      if lost then emit (.fenceCmp source txn .auth) s else fenceArrives source twin txn seq epoch s

def execRelayedRequest (m : Relayed) (port : Fin 24) (s : State) : Out State := .next (whenUp s (relayArrives m port))

end Sys2Proof.Machine
end

