-- ==== Sys2Proof/Machine/Errors.lean ====
section
/-! DEFINITION. Errors and containment (R322 to R347): the fences and their triggers, the management view, unfencing, the
patrol, the logs and the odometer, and error injection. -/

namespace Sys2Proof.Machine

/-! ### Units (R334) -/

def unitKind (u : BitVec 16) : Nat := bits u 12 4
def unitIdx (u : BitVec 16) : Nat := bits u 0 12

/-- A code that names a unit of this module. -/
def unitExists (s : State) (u : BitVec 16) : Bool :=
  let i := unitIdx u
  match unitKind u with
  | 1 => decide (i < 1024) && tileExists (BitVec.ofNat 10 i)
  | 2 => decide (i < 16)
  | 3 => decide (i < 16)
  | 4 => decide (i < 16)
  | 5 => decide (i < 16)
  | 6 => decide (i < 32)
  | 7 => decide (i < 24)
  | 8 => decide (i < 2)
  | 9 => decide (i < 4) && Config.hasFlash s.variant
  | 0xA => decide (i < 1024)
  | 0xB => decide (i < 2)
  | _ => false

/-! ### Fencing (R335, R336) -/

/-- Requests in flight at homes of a wheel complete with `FENCED`. -/
def endHome (w : Nat) (s : State) : State :=
  let ts := s.coh.trks.filter fun t => homeWheel t.line == w
  kick (ts.foldl (fun s t => endWith t .fenced s) s)

/-- The waits on the sync objects of a Chainring that is fenced. -/
def endSyncBank (w : Nat) (s : State) : State :=
  let mine (x : Wait) : Bool := x.obj.toNat / 1024 % 16 == w
  let ws := s.sync.waits.filter mine
  ws.foldl (fun s x => match x.who with
    | .cmd o => completeIf o .fenced 0 [] s
    | .ctx t c =>
      let pc := match findCtx s t c with | some k => k.pc | none => 0
      ctxFault t c pc .fenced 0 0 0 0 s) { s with sync.waits := dropIf s.sync.waits mine }

/-- A Chainring is fenced: its homes, its sync objects, its translation unit with the queues it serves. -/
def fenceChainring (w : Nat) (s : State) : State :=
  let s := endHome w s
  let s := endSyncBank w s
  let s := (s.xlat.walks.filter fun x => clientWheel x.client == w).foldl (fun s x => wakeClient x.client (dropWalk x.id s)) s
  ((s.queues.filter fun x => clientWheel (.queue x.q) == w).map (·.q)).foldl (fun s q => queueError q 3 .fenced s) s

/-- A fabric port is fenced: it is not up, and the flagged stores held at its Derailleur are discarded without an
acknowledgement (R342). -/
def fencePort (p : Nat) (s : State) : State :=
  let s := { s with
    fab.rx := s.fab.rx.map fun w => { w with flagged := w.flagged.filter fun (f : StorePkt × Fin 24) => f.2.val != p }
    held := dropIf s.held fun h => match h.what with | .store q i => q.flagged && i.val == p | _ => false }
  portGone p id s

/-- A Tandem die is fenced: its lanes are not up. -/
def fenceTandem (s : State) : State :=
  let n := tandemLanes s s.pair.lanes
  if n = 0 then twinDown s else { s with pair.lanes := n }

/-- A Saddlebag is fenced: reads and programs in progress on its cluster end. -/
def fenceSaddlebag (k : Nat) (s : State) : State :=
  let s := (s.store.reads.filter fun r => clusterOf r.page == k).foldl (fun s r => failRead r .fenced s) s
  (s.store.progs.filter fun p => clusterOf p.page == k).foldl (fun s p => failProg p .fenced s) s

/-- The tiles of a Spoke die. -/
def spokeTiles (w : Nat) : List (BitVec 10) := (List.range 48).map (tileId w)

/-- What R336 does to a unit whose fence has been marked. -/
def fenceEffects (u : BitVec 16) (s : State) : State :=
  let i := unitIdx u
  match unitKind u with
  | 1 => fenceTile (BitVec.ofNat 10 i) s
  | 2 => (spokeTiles i).foldl (fun s t => fenceTile t s) s
  | 3 => fenceChainring i s
  | 4 => endHome i s
  | 7 => fencePort i s
  | 8 => fenceTandem s
  | 9 => fenceSaddlebag i s
  | _ => s

/-- The data path fences a unit on a trigger of R335; a unit that is already fenced stays as it is. An agent is fenced only
by being declared lost. -/
def fenceUnit (u : BitVec 16) (trigger : Nat) (s : State) : State :=
  if unitFenced s u || !unitExists s u || unitKind u = 0xB then s
  else if unitKind u = 0xA then declareLost (BitVec.ofNat 10 (unitIdx u)) 1 s
  else fenceEffects u (markFence u trigger s)

/-- Trigger 0x01: a tile with a ready context issued nothing for 1 ms. -/
def execTileIssueWatchdog (tile : BitVec 10) (s : State) : Out State :=
  .next (whenUp s fun s =>
    match findTile s tile with
    | some x =>
      if x.prog.isSome && x.ctxs.any (fun k => k.st = .ready || k.st = .running) then fenceUnit (unitTile tile) 1 s else s
    | none => s)

/-- Trigger 0x04. -/
def execMemoryControllerTimeout (unit : BitVec 16) (s : State) : Out State :=
  .next (whenUp s fun s => if unitKind unit = 5 || unitKind unit = 6 then fenceUnit unit 4 s else s)

/-- Trigger 0x07. -/
def execProtocolEngineFault (unit : BitVec 16) (s : State) : Out State :=
  .next (whenUp s fun s => if unitKind unit = 7 || unitKind unit = 8 then fenceUnit unit 7 s else s)

/-! ### The management view (R337) -/

/-- A TYPE 0x000A record. -/
def recMgmt (unit : BitVec 16) (code : BitVec 4) (disagrees : Bool) (s : State) : State :=
  writeRec
    { Rec.blank 0x000A with
      unit := unit, flags := 0x40, arg0 := code.setWidth 64, arg1 := if disagrees then 1 else 0 } s

/-- Within 1 ms of a fence management writes its view of the unit; a healthy view raises an alert. -/
def mgmtSees (unit : BitVec 16) (code : BitVec 4) (s : State) : State :=
  if !s.err.mgmt.contains unit || code = 0 || 4 < code.toNat then s
  else
    let s := recMgmt unit code (code = 1) { s with err.mgmt := s.err.mgmt.erase unit }
    if code = 1 then alert 2 s else s

def execManagementObservation (unit : BitVec 16) (code : BitVec 4) (s : State) : Out State :=
  .next (whenUp s (mgmtSees unit code))

/-- Management reports a unit that carries traffic: nothing is fenced. -/
def execManagementReportsFailure (unit : BitVec 16) (code : BitVec 4) (s : State) : Out State :=
  .next (whenUp s fun s =>
    if unitFenced s unit || !unitExists s unit || code.toNat < 2 || 4 < code.toNat then s
    else alert 2 (recMgmt unit code true s))

/-! ### The patrol (R326) -/

/-- Where the latest version of a page lies in memory: its frame. -/
def latestFrame (s : State) (off : Nat) : Option Nat :=
  match pageLoc s.store (pageOf off) (granuleOf off) with
  | .frame f => some f
  | _ => none

/-- A code word beyond correction found without a requester: recorded, not rewritten, and nothing is fenced. -/
def recPatrol (u : BitVec 16) (off : Nat) (s : State) : State :=
  detect { Rec.blank 0x0003 with point := memPoint u, unit := u, addr := BitVec.ofNat 64 off } s

/-- The patrol reads the code word of a page at a store offset; a correctable error is corrected in memory. -/
def patrolWord (off : Nat) (found : Ecc) (s : State) : State :=
  match latestFrame s off with
  | none => s
  | some f =>
    let u := unitOf s off
    let cw := codeWord (frameTier s.store f)
    let a := (f * 65536 + off % 65536) / cw * cw
    let base := off / cw * cw
    if memPoint u = 7 || unitFenced s u || (findFrame s.store f).isNone then s
    else
      let hit := injHit s off
      let s := match hit with
        | some i => if i.target = 0 && i.mode.toNat < 2 then alterWord (i.mode = 0) f off s else s
        | none => s
      let s := if found = .uncorrectable then alterWord false f off s else s
      if s.store.bad.contains a || hit.any (·.mode = 2) then recPatrol u base s
      else if s.store.soft.contains a || found = .correctable then
        corrected (memPoint u) u (BitVec.ofNat 64 base) { s with store.soft := s.store.soft.erase a }
      else s

def execMemoryPatrol (offset : Word) (found : Ecc) (s : State) : Out State :=
  .next (whenUp s fun s =>
    if s.power.st = .cruise || s.power.st = .sprint then patrolWord offset.toNat found s else s)

/-! ### Unfencing (R338) -/

/-- The page whose bytes a frame holds: as home or copy, or as a shadow of a write lap. -/
def framePage (s : State) (f : Nat) : Option Nat :=
  match s.store.pages.find? (fun p => p.home == some f || p.copy.any (·.frame == f)) with
  | some p => some p.n
  | none => s.store.extents.findSome? fun x => x.wlap.bind fun w => (w.shadows.find? (·.2 == f)).map (·.1)

/-- The bad code words of a memory unit: their store offsets, in ascending order. -/
def badWords (s : State) (u : BitVec 16) : List Nat :=
  sortBy id (s.store.bad.filterMap fun b =>
    match findFrame s.store (b / 65536), framePage s (b / 65536) with
    | some fr, some n =>
      let off := n * 65536 + b % 65536
      let w := homeWheel off
      let v := if fr.tier = .hbm then unitHbm w else unitLpddr (2 * w + fr.ch.toNat)
      if fr.tier ≠ .flash && v = u then some off else none
    | _, _ => none)

/-- A TYPE 0x0009 record: the check's result. -/
def recUnfence (u : BitVec 16) (step : Nat) (s : State) : State :=
  writeRec { Rec.blank 0x0009 with unit := u, arg0 := BitVec.ofNat 64 step } s

/-- A mounted cluster takes the state its spare space gives (R99, R101). -/
def mountState (k : Nat) (s : State) : State := setClusterState k (spareLevel (s.flash.getD k Cluster.reset)) s

/-- Lift a fence: the unit serves again, and a unit with links comes back trained. -/
def liftFence (u : BitVec 16) (s : State) : State :=
  let s := { s with
    err.fences := s.err.fences.erase u
    err.uncorr := dropIf s.err.uncorr (·.1 = u) }
  let i := unitIdx u
  match unitKind u with
  | 7 => if (portAt s i).mode = 0 then s else portComesUp i s
  | 8 => twinUp (s.pair.lanes ||| dieLanes (unitIdx u)) s
  | 9 => if (s.flash.getD i Cluster.reset).state = 4 then mountState i s else s
  | 0xA => { s with coh.lost := dropIf s.coh.lost (·.1 = BitVec.ofNat 10 i) }
  | _ => s

/-- The directory slice of a wheel is cleared. -/
def clearSlice (w : Nat) (s : State) : State :=
  { s with coh.dir := dropIf s.coh.dir fun d => homeWheel d.line == w }

/-- The step a check failed at: a memory check fails at more than 4,096 bad code words. -/
def checkStep (s : State) (u : BitVec 16) (failed : Nat) : Nat :=
  if failed = 0 && (unitKind u = 5 || unitKind u = 6) && decide (4096 < (badWords s u).length) then 3 else failed

/-- A check ends: each bad code word it found is recorded, then the fence is lifted or stays. -/
def endCheck (x : Check) (failed : Nat) (dirDouble : Bool) (s : State) : State :=
  let u := x.unit
  let s := { s with err.checks := dropIf s.err.checks (·.unit = u) }
  let mem := unitKind u = 5 || unitKind u = 6
  let step := checkStep s u failed
  let s := if mem && decide (failed ≠ 1) then (badWords s u).foldl (fun s o => recPatrol u o s) s else s
  if step ≠ 0 then completeIf x.cmd .fenced 0 [] (recUnfence u step s)
  else
    let s := if unitKind u = 3 && dirDouble then
        clearSlice (unitIdx u) ((agentsOf s).foldl (fun s a => declareLost a 2 s) s)
      else s
    completeIf x.cmd .ok 0 [] (recUnfence u 0 (liftFence u s))

def execUnfenceCheckComplete (unit : BitVec 16) (failedStep : BitVec 3) (dirDouble : Bool) (s : State) : Out State :=
  .next (whenUp s fun s =>
    match s.err.checks.find? (·.unit = unit) with
    | some x => if 5 < failedStep.toNat then s else endCheck x failedStep.toNat dirDouble s
    | none => s)

/-- `UNIT_UNFENCE`: the check runs while the unit stays fenced; an agent has none (R127). -/
def bodyUnitUnfence : Body := fun c s =>
  let u := BitVec.ofNat 16 (bits (c.p 0) 0 16)
  if bits (c.p 0) 16 48 ≠ 0 || !unitExists s u || unitKind u = 0xB then Eff.stat .badParam s
  else if !unitFenced s u then Eff.ok s
  else if s.err.checks.any (·.unit = u) then Eff.stat .busy s
  else if unitKind u = 0xA then Eff.ok (recUnfence u 0 (liftFence u s))
  else Eff.later { s with err.checks := s.err.checks ++ [{ unit := u, cmd := openOf 0x603 c }] }

def execUnitUnfence (c : Cmd) (s : State) : Out State := .next (runPacket 0x603 c bodyUnitUnfence s)

/-! ### The logs (R331, R332, R345, R347) -/

/-- The highest sequence number a log holds; an empty log gives none, and the result is a free value. -/
def topOf (l : Log) (s : State) : Word × State :=
  match l.recs.getLast? with
  | some r => (BitVec.ofNat 64 r.seq, s)
  | none => takeFree s

/-- Read records from a first sequence number onwards. -/
def readLog (l : Log) (c : Cmd) (s : State) : Eff :=
  let rs := (l.recs.filter fun r => decide ((c.p 1).toNat ≤ r.seq)).take (bits (c.p 0) 32 32)
  let (top, s) := topOf l s
  Eff.data .ok top (rs.flatMap Rec.bytes) s

def bodyErrLogRead : Body := fun c s =>
  let p := c.p 0
  let n := bits p 32 32
  let queue := match c.h.src with | .queue _ => true | _ => false
  if bits p 1 31 ≠ 0 || n = 0 || 1024 < n then Eff.stat .badParam s
  else if !bit p 0 then (if queue then Eff.stat .auth s else readLog s.err.log c s)
  else readLog (faultLog s c.h.r) c s

def execErrLogRead (c : Cmd) (s : State) : Out State := .next (runPacket 0x600 c bodyErrLogRead s)

/-- The odometer's records that read back valid: entries whose write failed are skipped (R345, R346). -/
def odoValid (s : State) : Log :=
  let first := s.nv.odoPos - s.nv.odometer.recs.length
  { recs := ((s.nv.odometer.recs.mapIdx fun i r => (first + i, r)).filter fun e => !s.nv.odoBad.contains e.1).map (·.2)
    next := s.nv.odometer.next }

def bodyOdometerRead : Body := fun c s =>
  let n := bits (c.p 1) 0 32
  let top := match c.h.src with | .sideband => 64 | _ => 1024
  if bits (c.p 1) 32 32 ≠ 0 || n = 0 || top < n then Eff.stat .badParam s
  else
    let l := odoValid s
    let rs := (l.recs.filter fun r => decide ((c.p 0).toNat ≤ r.seq)).take n
    let (t, s) := topOf l s
    Eff.data .ok t (rs.flatMap Rec.bytes) s

def execOdometerRead (c : Cmd) (s : State) : Out State := .next (runPacket 0x602 c bodyOdometerRead s)

/-- Drop the oldest entries beyond a ring's capacity. -/
def newest {α : Type} (cap : Nat) (l : List α) : List α := l.drop (l.length - cap)

/-- A record in MRAM is read back: one that fails its check is written again at the next position (R345). -/
def odoWritten (seq : Nat) (crcOk : Bool) (s : State) : State :=
  let first := s.nv.odoPos - s.nv.odometer.recs.length
  match (s.nv.odometer.recs.mapIdx fun i r => (first + i, r)).reverse.find? (·.2.seq == seq) with
  | none => s
  | some (p, r) =>
    if crcOk || s.nv.odoBad.contains p then s
    else { s with
      nv.odometer.recs := newest 131072 (s.nv.odometer.recs ++ [r])
      nv.odoPos := s.nv.odoPos + 1
      nv.odoBad := (s.nv.odoBad ++ [p]).filter fun q => decide (s.nv.odoPos + 1 ≤ q + 131072) }

/-- The always-on domain writes the odometer whatever the package does. -/
def execOdometerRecordWrite (seq : Nat) (crcOk : Bool) (s : State) : Out State := .next (odoWritten seq crcOk s)

/-! ### Injection (R343, R344) -/

/-- The unit holds the point (notes/assumptions/48.md). -/
def pointUnit (s : State) (point : Nat) (u : BitVec 16) : Bool :=
  let k := unitKind u
  unitExists s u && (match point with
    | 0x01 => k = 1
    | 0x02 => k = 1
    | 0x03 => k = 1
    | 0x04 => k = 3 || k = 4
    | 0x05 => k = 5
    | 0x06 => k = 6
    | 0x07 => k = 9
    | 0x08 => k = 2 || k = 3 || k = 4 || k = 8 || k = 9
    | 0x09 => k = 7 || k = 8
    | 0x0A => k = 7
    | 0x0B => k = 1 || k = 3
    | 0x0C => k = 3
    | 0x0D => k = 3
    | 0x0E => k = 3 || k = 0xA
    | 0x0F => k = 1 || k = 3
    | 0x10 => k = 3 || k = 9 || k = 0xB
    | 0x11 => k = 1
    | 0x12 => k = 0xB
    | _ => false)

def injectForm (s : State) (c : Cmd) : Bool :=
  let w := c.p 0
  let mode := bits w 32 8
  let point := bits w 0 16
  let ms := bits (c.p 2) 32 32
  pointUnit s point (BitVec.ofNat 16 (bits w 16 16)) && decide (mode ≤ 3) &&
    (mode ≠ 3 || (decide (0x08 ≤ point) && decide (point ≤ 0x11))) && decide (1 ≤ bits w 40 8) && bits w 48 16 == 0 &&
    (if mode = 2 then decide (1 ≤ ms) && decide (ms ≤ 60000) else ms == 0) && c.p 3 == 0 && zeroB c.payload 1 3

/-- The authorisation verifies for this module and this boot, with a new sequence number. -/
def injectAuth (s : State) (c : Cmd) : Bool :=
  let digest := Config.sha3 (paramBytes c.params ++ wordBytes s.env.fp ++ leBytes 4 s.nv.bootCount.toNat)
  mgrSigOk s (fieldB c.payload 0 1) digest (sigBytes (c.payload.drop 4)) &&
    (match s.err.injSeq with | none => true | some n => decide (n.toNat < bits (c.p 2) 0 32))

/-- Arm an injection: recorded; a target of points 0x05 and 0x06 is altered at once. -/
def armInj (c : Cmd) (s : State) : State :=
  let w := c.p 0
  let seq := BitVec.ofNat 32 (bits (c.p 2) 0 32)
  let i : Inj :=
    { id := s.err.nextInj, point := BitVec.ofNat 16 (bits w 0 16), unit := BitVec.ofNat 16 (bits w 16 16)
      mode := BitVec.ofNat 8 (bits w 32 8), left := bits w 40 8, target := c.p 1 }
  let s := writeRec
    { Rec.blank 0x0013 with
      point := i.point, unit := i.unit, arg0 := BitVec.ofNat 64 (i.point.toNat + i.mode.toNat * 65536), arg1 := seq } s
  let s := { s with
    err.inj := s.err.inj ++ [i]
    err.nextInj := s.err.nextInj + 1
    err.injSeq := some seq }
  let off := i.target.toNat
  if off = 0 || (i.point ≠ 5 && i.point ≠ 6) || 1 < i.mode.toNat || unitOf s off ≠ i.unit then s
  else match latestFrame s off with
    | some f => alterWord (i.mode = 0) f off s
    | none => s

def bodyInject : Body := fun c s =>
  withIdentity s (checked [(injectForm s c, .badParam), (injectAuth s c, .auth), (decide (s.err.inj.length < 16), .busy)] s
    (Eff.ok (armInj c s)))

def execInject (c : Cmd) (s : State) : Out State := .next (runPacket 0x601 c bodyInject s)

/-- The `DURATION` of a mode 2 injection ends. -/
def execInjectionDurationEnd (i : Nat) (s : State) : Out State :=
  .next (whenUp s fun s => { s with err.inj := dropIf s.err.inj fun x => x.id == i && x.mode = 2 })

end Sys2Proof.Machine
end

