-- ==== Sys2Proof/Machine/Flash.lean ====
section
/-! DEFINITION. The flash layer's own events (R94, R95, R98 to R101): relocation, patrol, failed dies and their rebuild, and
mounting. -/

namespace Sys2Proof.Machine

/-- A block reached its read-disturb threshold: its valid units are queued for relocation, and its count starts anew. -/
def execReadDisturbRelocation (die : FlashDie) (block units : Nat) (s : State) : Out State :=
  .next (onCluster die.cluster s fun s =>
    let s := queueReloc die.cluster.val units s
    { s with flash := updAt s.flash die.cluster.val fun c => { c with reads := dropIf c.reads (·.1 == (die.die, block)) } })

/-- The patrol read a block: the read counts, and its units are queued when it needed step 2 of R91. -/
def execFlashPatrol (die : FlashDie) (block : Nat) (needsSoft : Bool) (units : Nat) (s : State) : Out State :=
  .next (onCluster die.cluster s fun s =>
    let k := die.cluster.val
    let s := { s with flash := updAt s.flash k fun c => { c with reads := bumpK (die.die, block) c.reads } }
    if needsSoft then softBlock k die.die block (queueReloc k units s) else s)

/-- Programs of the layer itself wait: while programs are held, and in state 0x3 (R93, R94, R99). -/
def layerHeld (s : State) (k : Nat) : Bool := progsHeld s k || decide ((s.flash.getD k Cluster.reset).state = 3)

/-- A frame whose units lie in a cluster: the home of a page of the cluster, or a version of one that a lap holds (R67). -/
def frameIn (s : State) (k frame : Nat) : Bool :=
  (s.store.pages.any fun p => p.home == some frame && clusterOf p.n == k) ||
    s.store.extents.any fun x => x.old.any fun l => l.pages.any fun p => p.2 == some frame && clusterOf p.1 == k

/-- The mapping of a relocated unit switches to its new place. -/
def moveUnit (k frame : Nat) (unit : Fin 4) (place : FlashUnit) (us : List FlashUnit) (s : State) : State :=
  { s with
    store.units := setK s.store.units frame (us.set unit.val place)
    flash := updAt s.flash k fun c =>
      { c with relocs := c.relocs - 1, scrubs := bumpSat c.scrubs 1, wear := bumpK (place.die, place.block) c.wear } }

/-- A queued relocation is done: the unit lies at its new place, and it counts in `SCRUBS`. A program of the frame in progress
wins: the relocated copy is discarded (R94). -/
def execRelocationComplete (m : UnitMove) (s : State) : Out State :=
  .next (onCluster m.cluster s fun s =>
    let k := m.cluster.val
    match lookupK s.store.units m.frame with
    | none => s
    | some us =>
      if layerHeld s k || (s.flash.getD k Cluster.reset).relocs = 0 || !frameIn s k m.frame || !unitOk s k m.place ||
          !apart (us.set m.unit.val m.place) then s
      else if s.store.progs.any fun p => p.dst == m.frame && !p.held then
        { s with flash := updAt s.flash k fun c => { c with relocs := c.relocs - 1 } }
      else moveUnit k m.frame m.unit m.place us s)

/-- A die fails: it is marked failed and its rebuild starts. -/
def execDieFailure (cluster : Fin 4) (die : Nat) (s : State) : Out State :=
  .next (onCluster cluster s fun s =>
    if (s.flash.getD cluster.val Cluster.reset).failed.contains die || Config.flashDies s.variant ≤ die then s
    else
      let s := { s with flash := updAt s.flash cluster.val fun c =>
        { c with failed := c.failed ++ [die], rebuilds := c.rebuilds ++ [die] } }
      recFlash cluster.val 2 die (recFlash cluster.val 1 die s))

/-- The units of a failed die are rebuilt into spare space; where the frames that touched it lie now is known no more
(notes/assumptions/136.md). -/
def execRebuildComplete (cluster : Fin 4) (die : Nat) (s : State) : Out State :=
  .next (onCluster cluster s fun s =>
    let k := cluster.val
    if layerHeld s k || !(s.flash.getD k Cluster.reset).rebuilds.contains die then s
    else
      let s := { s with
        store.units := s.store.units.filter fun e => !(frameIn s k e.1 && e.2.any fun u => (u.die :: u.stripe).contains die)
        flash := updAt s.flash k fun c => { c with rebuilds := c.rebuilds.erase die } }
      spareState k (recFlash k 3 die (takeSpare k s)))

/-- A cluster that does not mount: `STATE` 0x4, and its Saddlebag is fenced (R101, trigger 0x09). -/
def mountFails (k : Nat) (s : State) : State := fenceUnit (unitSaddlebag k) 9 (setClusterState k 4 s)

/-- A cluster's journal is rebuilt (R100), or cannot be: `STATE` is what the spare space that the journal keeps gives (R99). -/
def execClusterMountComplete (cluster : Fin 4) (mounts : Bool) (s : State) : Out State :=
  .next (whenUp s fun s =>
    if !Config.hasFlash s.variant || (s.flash.getD cluster.val Cluster.reset).state ≠ 0 then s
    else if mounts then mountState cluster.val s
    else mountFails cluster.val s)

/-- Not mounted 30 s after boot time 0. -/
def execClusterMountTimeout (cluster : Fin 4) (s : State) : Out State :=
  .next (whenUp s fun s =>
    if !Config.hasFlash s.variant || (s.flash.getD cluster.val Cluster.reset).state ≠ 0 then s
    else mountFails cluster.val s)

end Sys2Proof.Machine
end

