-- ==== Sys2Proof/Machine/Power.lean ====
section
/-! DEFINITION. Supply, power states, the safety limits and thermal limits (R370 to R388), reset and power-good (R403,
R404), with what survives a cold boot (R90, R404, R424). -/

namespace Sys2Proof.Machine

/-! ### What survives a reset (R90, R349, R404, R424) -/

/-- The kept composition as the journal has it now: the latest laps, and the pages of its runs with a flash home. -/
def keptNow (s : State) : Option Kept :=
  match s.nv.kept, s.comp with
  | some k, some _ =>
    let mine (i : Nat) : Bool := k.runs.any fun r => r.has s.me i
    some { k with
      laps := (s.store.extents.filter fun x => x.mirrorOf.isNone && mine x.idx).map fun x => (x.idx, x.latest)
      pages := s.store.pages.filterMap fun p =>
        match p.home with
        | some f => if frameTier s.store f = .flash && mine (extentOfPage p.n) then some (p.n, f) else none
        | none => none }
  | k, _ => k

/-- The store after memory is lost: the flash frames of the kept composition, with their contents. -/
def keptStore (k : Option Kept) (st : Store) : Store :=
  let ids := match k with | some k => k.pages.map (fun (p : Nat × Nat) => p.2) | none => []
  { Store.reset with
    frames := st.frames.filter fun f => ids.contains f.id
    nextFrame := st.nextFrame
    nextCh := st.nextCh
    mem := st.mem.filter fun c => ids.contains (c.1 / 65536)
    bad := st.bad.filter fun b => ids.contains (b / 65536)
    units := st.units.filter fun e => ids.contains e.1
    soft := st.soft.filter fun b => ids.contains (b / 65536) }

/-- A cluster through a reset: its journal keeps what it counts and what is due for relocation (R90); it must mount again. -/
def Cluster.again (c : Cluster) : Cluster := { c with state := 0, scrubs := 0 }

/-- The package is reset: everything but the boot flash, the odometer, the flash and the always-on sideband bridge. -/
def coldReset (cause : BitVec 32) (phase : Phase) (s : State) : State :=
  let k := keptNow s
  { State.reset with
    pending := s.pending
    variant := s.variant
    phase := phase
    cause := if s.phase = .stopped then 4 else cause
    env := s.env
    freeIdx := s.freeIdx
    store := keptStore k s.store
    flash := s.flash.map Cluster.again
    nv := { s.nv with kept := k }
    power.overV := s.power.overV
    power.hotStop := s.power.hotStop
    side := { s.side with alert := 0 }
    out := s.out }

/-- A program cut by a loss of power: TYPE 0x000E with its cluster and store offset (R90, R346). -/
def recCut (p : FlashProg) (s : State) : State :=
  writeRec
    { Rec.blank 0x000E with
      unit := unitSaddlebag (clusterOf p.page), addr := BitVec.ofNat 64 (p.page * 65536)
      arg0 := BitVec.ofNat 64 (clusterOf p.page) } s

/-- The sideband bridge loses its supply when neither source is present (R402). -/
def sideDark (s : State) : State :=
  if s.phase = .off && !s.side.aux then
    { s with side := { s.side with eid := 0, dynAddr := none, ibi := false, jtag := List.replicate 12 .idcode } }
  else s

/-- The package loses power. -/
def powerOff (cause : BitVec 32) (s : State) : State :=
  if s.phase = .off then s
  else
    let s := (s.store.progs.filter fun p => !p.held).foldl (fun s p => recCut p s) s
    let s := coldReset cause .off s
    sideDark { s with side.pwrGood := false }

/-- Boot time 0: the straps are sampled (R405). -/
def bootTimeZero (s : State) : State :=
  { s with
    phase := .released
    side.sampled := s.side.pins }

/-- The converters are in regulation: `PWR_GOOD` is released, and the package leaves reset unless `RESET_N` is low. -/
def powerOn (s : State) : State :=
  let s := { s with
    phase := .inReset
    side.pwrGood := true
    power.overV := false
    power.hotStop := false }
  if s.side.resetLow then s else bootTimeZero s

/-- Input falls through 41.0 V (R372, R404): the next boot reports cause 0x2. -/
def execBrownOut (mv : Nat) (s : State) : Out State :=
  .next (if 41000 < mv then s
    else if s.phase = .off then { s with power.overV := false, power.hotStop := false }
    else powerOff 2 s)

/-- Above 64.0 V the converters stop (R373). -/
def execConverterStop (mv : Nat) (s : State) : Out State :=
  .next (if mv ≤ 64000 || s.phase = .off then s
    else
      let s := powerOff 1 s
      { s with power.overV := true })

/-- 100 ms back in the operating range after an over-voltage stop (R373). -/
def execOverVoltageRestart (mv : Nat) (s : State) : Out State :=
  .next (if s.phase = .off && s.power.overV && decide (48000 ≤ mv) && decide (mv ≤ 60000) then powerOn s else s)

/-- The input rises through 48.0 V again (R403); an over-voltage stop ends by R373 only, and after a temperature shutdown the
input must have been below 41.0 V (R416). -/
def execSupplyReturn (mv : Nat) (s : State) : Out State :=
  .next (if s.phase = .off && !s.power.overV && !s.power.hotStop && decide (48000 ≤ mv) then powerOn s else s)

/-- The clip engages a live busbar (R400): power-on, cause 0x1. -/
def execBusbarEngage (mv : Nat) (s : State) : Out State :=
  .next (if s.phase = .off && decide (48000 ≤ mv) then powerOn { s with cause := 1 } else s)

/-- `RESET_N`: low for 1.2 µs resets the package as a cold boot, cause 0x3; its rise with `PWR_GOOD` high is boot time 0
(R403, R404). -/
def execResetN (low : Bool) (s : State) : Out State :=
  .next (if low then
      let s := if s.phase = .off then s else coldReset 3 .inReset s
      { s with side.resetLow := true }
    else
      let s := { s with side.resetLow := false }
      if s.phase = .inReset then bootTimeZero s else s)

/-! ### Status (R378, R380, R387) -/

def tempCause : BrakeCause → Bool
  | .temperature _ => true
  | _ => false

/-- `OVERRIDE` (R387): current, voltage, temperature, input power. -/
def overrideOf (s : State) : BitVec 4 :=
  let c := s.power.causes
  let cur := c.contains .current
  let volt := c.contains .supply || c.contains .overVoltage
  let temp := c.any tempCause || !s.power.hot.isEmpty || s.power.slow
  let pin := c.contains .inputPower
  BitVec.ofNat 4 (cur.toNat * 8 + volt.toNat * 4 + temp.toNat * 2 + pin.toNat)

/-- A power or thermal emergency is in force (R378). -/
def emergency (s : State) : Bool :=
  s.power.hold || !s.power.causes.isEmpty || decide (s.power.st = .brake) || decide (overrideOf s ≠ 0) ||
    (decide (s.power.st = .kickstand) && decide (s.power.kick = 2))

def PState.code : PState → Nat
  | .freewheel => 0
  | .coast => 1
  | .cruise => 2
  | .sprint => 3
  | .brake => 4
  | .kickstand => 5

/-- A TYPE 0x000F record (R388): event, limit, sensor and reading. -/
def recPower (event limit idx : Nat) (reading : BitVec 32) (s : State) : State :=
  writeRec { Rec.blank 0x000F with arg0 := BitVec.ofNat 64 (idx * 65536 + event * 256 + limit), arg1 := reading } s

/-! ### Brake (R375, R379, R383) -/

/-- Brake engages: clocks at 600 MHz; Kickstand takes precedence, and a sleeping module brakes when it wakes. -/
def brakeOn (s : State) : State :=
  let s := { s with power.mhz := List.replicate 16 600 }
  match s.power.st with
  | .kickstand => s
  | .freewheel => s
  | _ => { s with power.st := .brake }

/-- An emergency begins: its moment is kept (R359). -/
def emergencyBegins (s : State) : State := { s with power.emergAt := some s.now }

/-- A cause of Brake arises: recorded, and raised as an alert when it is a safety override (R380, notes/assumptions/50.md). -/
def engage (c : BrakeCause) (event limit idx : Nat) (reading : BitVec 32) (s : State) : State :=
  if s.power.causes.contains c then s
  else
    let s := recPower event limit idx reading (emergencyBegins { s with power.causes := s.power.causes ++ [c] })
    let s := if c = .brakeW then s else alert 3 s
    brakeOn s

/-- Brake releases once no cause is left. -/
def brakeOff (s : State) : State :=
  if s.power.causes.isEmpty && s.power.st = .brake then
    recPower 4 0 0 0 { s with power.st := .cruise }
  else s

/-- The limit code of a cause, and its sensor. -/
def causeLimit : BrakeCause → Nat × Nat
  | .supply => (2, 0)
  | .overVoltage => (2, 0)
  | .current => (1, 0)
  | .inputPower => (4, 0)
  | .brakeW => (5, 0)
  | .temperature i => (3, i.val)

/-- The end of an override is recorded and raised. -/
def endOverride (w : Nat) (c : BrakeCause) (s : State) : State :=
  if c = .brakeW then s
  else
    let (l, i) := causeLimit c
    alert 3 (recPower 6 l i (if l = 4 then BitVec.ofNat 32 w else 0) s)

/-- Every cause but supply hold has cleared, and the input stayed 10 % below `BRAKE_W` for 10 ms (R379). -/
def execBrakeRelease (w : Nat) (s : State) : Out State :=
  .next (whenUp s fun s =>
    if s.power.policy.brakeW * 9 < w * 10 then s
    else
      let gone := s.power.causes.filter (· ≠ .supply)
      let s := { s with
        power.causes := s.power.causes.filter (· = .supply)
        power.pinW := w }
      brakeOff (gone.foldl (fun s c => endOverride w c s) s))

/-! ### Supply (R370, R371, R373, R380) -/

/-- Input falls through 45.0 V: supply hold and Brake; a new fall through it is a new warning. -/
def execSupplyWarning (mv : Nat) (s : State) : Out State :=
  .next (whenUp s fun s =>
    if 45000 < mv then s
    else
      let s := { s with
        power.hold := true
        power.vinMv := mv }
      if s.power.causes.contains .supply then alert 3 (recPower 1 2 0 (BitVec.ofNat 32 mv) s)
      else engage .supply 1 2 0 (BitVec.ofNat 32 mv) s)

/-- Above 46.0 V for 10 ms: supply hold ends, and Brake with it unless another cause keeps it engaged. -/
def execSupplyRecovery (mv : Nat) (s : State) : Out State :=
  .next (whenUp s fun s =>
    if !s.power.hold || mv ≤ 46000 then s
    else
      let s := { s with
        power.hold := false
        power.vinMv := mv
        power.causes := s.power.causes.filter (· ≠ .supply) }
      brakeOff (alert 3 (recPower 2 0 0 0 s)))

def execOverVoltage (mv : Nat) (s : State) : Out State :=
  .next (whenUp s fun s =>
    if mv ≤ 62000 then s else engage .overVoltage 8 2 0 (BitVec.ofNat 32 mv) { s with power.vinMv := mv })

def execCurrentLimit (ma : Nat) (s : State) : Out State :=
  .next (whenUp s fun s =>
    if ma < 70000 then s else engage .current 5 1 0 (BitVec.ofNat 32 ma) { s with power.iinMa := ma })

/-- Input power above a limit of R380 for its time, or at `BRAKE_W` averaged over 1 ms (R379). -/
def execInputPowerLimit (w : Nat) (s : State) : Out State :=
  .next (whenUp s fun s =>
    let s := { s with power.pinW := w }
    let s := if 2800 < w then engage .inputPower 5 4 0 (BitVec.ofNat 32 w) s else s
    if s.power.policy.brakeW ≤ w then engage .brakeW 3 5 0 (BitVec.ofNat 32 w) s else s)

/-! ### Temperatures (R384 to R386, R416) -/

def sensorMem (i : Nat) : Bool := (decide (48 ≤ i) && decide (i < 64)) || (decide (80 ≤ i) && decide (i < 96))
def sensorNand (i : Nat) : Bool := decide (74 ≤ i) && decide (i < 78)

/-- The Brake threshold of a sensor in °C; none for a NAND cluster, the coolant and reserved readings. -/
def brakeAt (i : Nat) : Option Nat :=
  if 96 ≤ i || sensorNand i then none else if sensorMem i then some 95 else some 105

/-- The trip level of a sensor in °C. -/
def tripAt (i : Nat) : Option Nat := if 96 ≤ i then none else if sensorNand i then some 95 else if sensorMem i then some 105 else some 115

/-- A reading above a level. -/
def hotter (temp : BitVec 16) (deg : Nat) : Bool := temp ≠ 0x8000 && decide ((deg : Int) * 16 < temp.toInt)

def setTemp (i : Nat) (temp : BitVec 16) (s : State) : State :=
  { s with power.temps := updAt s.power.temps i fun _ => temp }

def reading16 (temp : BitVec 16) : BitVec 32 := temp.signExtend 32

/-- A sensor rises above its Brake threshold. -/
def execBrakeThreshold (sensor : Fin 104) (temp : BitVec 16) (s : State) : Out State :=
  .next (whenUp s fun s =>
    match brakeAt sensor.val with
    | none => s
    | some d =>
      if !hotter temp d then s
      else engage (.temperature sensor) 5 3 sensor.val (reading16 temp) (setTemp sensor.val temp s))

/-- The header under which the module itself stops tiles. -/
def selfOpen : Open :=
  { op := 0x402
    h :=
      { src := .sideband, version := 0, flags := 0, rider := 0, chunk := 0, queue := 0, tag := 0, paramLen := 0, rsv := 0
        payloadLen := 0, epoch := 0, replyVa := 0 } }

/-- The module enters Kickstand: every tile is unloaded as by `TILE_STOP` mode 1 (R377). A thermal trip replaces the cause
0x1 of a module that is parked already. -/
def enterKick (cause : BitVec 4) (s : State) : State :=
  if s.power.st = .kickstand then
    (if s.power.kick = 1 && cause ≠ 1 || cause = 3 then { s with power.kick := cause } else s)
  else
    let ts := (s.tiles.filter fun x => x.prog.isSome).map (·.id)
    let s := stopAllTiles { s with
      power.st := .kickstand
      power.kick := cause }
    if ts.isEmpty then s else addJob (tryStop selfOpen ts 0xFFFF true s)

/-- A sensor rises above its trip level: Kickstand, recorded and raised (R385). -/
def execThermalTrip (sensor : Fin 104) (temp : BitVec 16) (s : State) : Out State :=
  .next (whenUp s fun s =>
    match tripAt sensor.val with
    | none => s
    | some d =>
      if !hotter temp d || (sensorNand sensor.val && !Config.hasFlash s.variant) then s
      else alert 4 (recPower 7 3 sensor.val (reading16 temp) (emergencyBegins (enterKick 2 (setTemp sensor.val temp s)))))

/-- A die above 125 °C: the converters stop (R416). -/
def execTemperatureShutdown (sensor : Fin 104) (temp : BitVec 16) (s : State) : Out State :=
  .next (if s.phase = .off || 96 ≤ sensor.val || !hotter temp 125 then s
    else
      let s := powerOff 1 (recPower 7 3 sensor.val (reading16 temp) s)
      { s with power.hotStop := true })

/-- A memory device at 85 °C or above: its refresh runs at twice the base rate (R380). -/
def execMemoryOverTemperature (sensor : Fin 104) (temp : BitVec 16) (s : State) : Out State :=
  .next (whenUp s fun s =>
    if !sensorMem sensor.val || temp = 0x8000 || temp.toInt < 85 * 16 then s
    else
      let s := setTemp sensor.val temp s
      if s.power.hot.contains sensor then s
      else alert 3 (recPower 5 3 sensor.val (reading16 temp) (emergencyBegins { s with power.hot := s.power.hot ++ [sensor] })))

/-- A NAND cluster above 70 °C halves its programs, above 85 °C it holds them (R384). -/
def nandTemp (k : Fin 4) (temp : BitVec 16) (s : State) : State :=
  let s := setTemp (74 + k.val) temp s
  { s with
    power.halfNand := (s.power.halfNand.filter (· ≠ k)) ++ (if hotter temp 70 then [k] else [])
    power.stopNand := (s.power.stopNand.filter (· ≠ k)) ++ (if hotter temp 85 then [k] else []) }

def execNandOverTemperature (cluster : Fin 4) (temp : BitVec 16) (s : State) : Out State :=
  .next (whenUp s fun s => if Config.hasFlash s.variant && hotter temp 70 then nandTemp cluster temp s else s)

/-- A memory or NAND temperature falls back below its threshold. -/
def execMemoryTemperatureFall (sensor : Fin 104) (temp : BitVec 16) (s : State) : Out State :=
  .next (whenUp s fun s =>
    if sensorMem sensor.val then
      if 85 * 16 ≤ temp.toInt then s
      else
        let s := setTemp sensor.val temp s
        if !s.power.hot.contains sensor then s
        else alert 3 (recPower 6 3 sensor.val (reading16 temp) { s with power.hot := s.power.hot.erase sensor })
    else if sensorNand sensor.val && Config.hasFlash s.variant then nandTemp (Fin.ofNat 4 (sensor.val - 74)) temp s
    else s)

/-! ### The loops (R379) -/

/-- A sensor at most so many degrees below its target: the Spoke target is 95 °C less `TEMP_OFFSET`. -/
def spokeTarget (s : State) : Nat := 95 - s.power.policy.tempOff

/-- Sprint's conditions hold (R375). -/
def sprintOk (s : State) : Bool :=
  bit s.power.policy.flags 0 && decide (s.power.pinW + 200 ≤ s.power.policy.ceilW) &&
    (s.power.temps.take 16).all fun t => !hotter t (spokeTarget s - 5)

/-- A step of the loop on one Spoke die: the clock the loop finds, within the policy's bounds. Above target with the clock
at the floor the clock falls below it, and that override ends when the clock is back (R380). -/
def vfTick (spoke : Fin 16) (mhz pinW : Nat) (temp : BitVec 16) (s : State) : State :=
  let s := { setTemp spoke.val temp s with power.pinW := pinW }
  let p := s.power.policy
  if s.power.st ≠ .cruise && s.power.st ≠ .sprint then s
  else
    let top := if sprintOk s then p.ceilMhz else min 2400 p.ceilMhz
    let old := s.power.mhz.getD spoke.val 0
    let under := hotter temp (spokeTarget s) && decide (old ≤ p.floorMhz)
    let new := if under then min mhz p.floorMhz else max p.floorMhz (min mhz top)
    let all := (updAt s.power.mhz spoke.val fun _ => new / 100 * 100).map fun f => min f (max top p.floorMhz)
    let low := all.any fun f => decide (0 < f) && decide (f < p.floorMhz)
    let was := s.power.slow
    let s := { s with
      power.mhz := all
      power.slow := low
      power.st := if all.any fun f => decide (2400 < f) then .sprint else .cruise }
    if low && !was then alert 3 (recPower 5 3 spoke.val (reading16 temp) (emergencyBegins s))
    else if was && !low then alert 3 (recPower 6 3 spoke.val (reading16 temp) s)
    else s

def execVfLoopTick (spoke : Fin 16) (mhz pinW : Nat) (temp : BitVec 16) (s : State) : Out State :=
  .next (whenUp s (vfTick spoke mhz pinW temp))

/-- The narrowest width the policy allows. -/
def widthFloor (s : State) : Nat := if s.power.policy.width = 0 then 8 else if s.power.policy.width = 1 then 4 else 2

/-- A link below 25 % utilisation narrows one step, and widens to x8 for queued traffic; CXL ports are never narrowed. -/
def linkWidth (tandem : Bool) (i : Nat) (queued : Bool) (s : State) : State :=
  let step (w : Nat) : Nat := if queued then 8 else max (widthFloor s) (w / 2)
  if tandem then { s with power.tdWidth := updAt s.power.tdWidth i step }
  else if (portAt s i).oxf && portUp s i then updPort i (fun p => { p with width := step p.width }) s
  else s

def execLinkWidthNarrow (tandem : Bool) (link : Fin 24) (queued : Bool) (s : State) : Out State :=
  .next (whenUp s (linkWidth tandem link.val queued))

/-! ### Power states (R374 to R377) -/

/-- Nothing is accepted or in progress, and no context runs (notes/assumptions/51.md). -/
def moduleIdle (s : State) : Bool :=
  drainedBut none s && s.held.isEmpty && s.port.heldCmds.isEmpty && s.store.moves.isEmpty && s.store.reads.isEmpty &&
    s.store.progs.isEmpty && s.queues.all (fun q => q.waiting.isEmpty && q.sqHead = q.sqTail) &&
    s.tiles.all fun x => x.ctxs.all fun k => k.st ≠ .ready && k.st ≠ .running

/-- No request for `COAST_IDLE_US` with `COAST_AUTO` set. -/
def execCoastIdleTimer (s : State) : Out State :=
  .next (whenUp s fun s =>
    if s.power.st = .cruise && bit s.power.policy.flags 1 && moduleIdle s then { s with power.st := .coast } else s)

/-- A request at ingress wakes a module in Coast; what was held is then applied (R376). -/
def execCoastWake (s : State) : Out State :=
  .next (whenUp s fun s => if s.power.st = .coast then wakeUp s else s)

def execFreewheelWakeTimer (s : State) : Out State :=
  .next (whenUp s fun s => if s.power.st = .freewheel && s.power.wakeMs ≠ 0 then wakeUp s else s)

def execWakeN (s : State) : Out State := .next (whenUp s fun s => if s.power.st = .freewheel then wakeUp s else s)

/-- What refuses `STATE_REQ` 3. -/
def sleepBusy (s : State) : Bool :=
  s.tiles.any (·.prog.isSome) || s.queues.any (fun q => !q.started.isEmpty || !q.waiting.isEmpty || !q.done.isEmpty) ||
    s.store.objects.any (·.sched.isSome) || decide (s.pair.st = 2) || decide (s.pair.st = 6)

/-- The module goes to Freewheel: fabric and Tandem links down. -/
def goFreewheel (wakeMs : Nat) (s : State) : State :=
  let s := ((List.range 24).filter fun p => (portAt s p).up).foldl (fun s p => portGone p id s) s
  let s := twinDown s
  { s with
    power.st := .freewheel
    power.wakeMs := wakeMs }

/-- Every temperature is 10 °C or more below its Brake threshold (R377), a NAND cluster's below the level that stops its
programs (R384). -/
def cooled (s : State) : Bool :=
  (List.range 104).all fun i => match (if sensorNand i then some 85 else brakeAt i) with
    | some d => !hotter (s.power.temps.getD i 0x8000) (d - 10)
    | none => true

/-- The state a module wakes to: Brake while a cause holds. -/
def leaveKick (s : State) : State :=
  { s with
    power.st := if s.power.causes.isEmpty then .cruise else .brake
    power.kick := 0 }

/-- The effect of a `STATE_REQ`, or none where R375 to R377 do not allow it. -/
def stateReq (req wakeMs : Nat) (s : State) : Option State :=
  match req, s.power.st with
  | 0, _ => some s
  | 1, .kickstand => if s.power.kick = 1 || (s.power.kick = 2 && cooled s) then some (leaveKick s) else none
  | 1, .brake => none
  | 1, _ => some (wakeUp s)
  | 2, .cruise => some { s with power.st := .coast }
  | 2, .coast => some s
  | 3, .cruise => if sleepBusy s then none else some (goFreewheel wakeMs s)
  | 3, .coast => if sleepBusy s then none else some (goFreewheel wakeMs s)
  | 3, .freewheel => some { s with power.wakeMs := wakeMs }
  | 4, _ => some (enterKick 1 s)
  | _, _ => none

/-- The bounds that a parameter block spells (R381). -/
def parsePolicy (b : List Byte) : Policy :=
  { flags := BitVec.ofNat 8 (fieldB b 1 1), ceilW := fieldB b 2 2, floorMhz := fieldB b 4 2, ceilMhz := fieldB b 6 2
    brakeW := fieldB b 8 2, width := BitVec.ofNat 8 (fieldB b 10 1), tempOff := fieldB b 11 1, coastUs := fieldB b 12 4 }

/-- Every field lies in its range. -/
def policyForm (b : List Byte) : Bool :=
  let p := parsePolicy b
  let within (lo v hi : Nat) : Bool := decide (lo ≤ v) && decide (v ≤ hi)
  let req := fieldB b 0 1
  let wake := fieldB b 16 4
  decide (req ≤ 4) && bits p.flags 3 5 == 0 && within 600 p.ceilW 2800 && within 600 p.floorMhz 2400 &&
    p.floorMhz % 100 == 0 && within p.floorMhz p.ceilMhz 2800 && p.ceilMhz % 100 == 0 && within 1600 p.brakeW 3300 &&
    decide (p.width.toNat ≤ 2) && decide (p.tempOff ≤ 20) && within 100 p.coastUs 10000000 &&
    (wake == 0 || (req == 3 && within 1000 wake 86400000)) && zeroB b 20 44

/-- A tile clock within the bounds of a policy; an override holds it below the floor (R379, R380). -/
def boundClock (p : Policy) (slow : Bool) (f : Nat) : Nat :=
  let top := if bit p.flags 0 then p.ceilMhz else min 2400 p.ceilMhz
  if f = 0 then 0 else if slow then min f top else max p.floorMhz (min f top)

/-- New bounds apply (R381): the clocks that lie outside them move to the nearest; Brake's clocks stay. -/
def applyPolicy (p : Policy) (s : State) : State :=
  let s := { s with power.policy := p }
  if s.power.st ≠ .cruise && s.power.st ≠ .sprint then s
  else
    let all := s.power.mhz.map (boundClock p s.power.slow)
    { s with
      power.mhz := all
      power.st := if all.any fun f => decide (2400 < f) then .sprint else .cruise }

/-- `POWER_POLICY` (R381). -/
def bodyPowerPolicy : Body := fun c s =>
  let b := paramBytes c.params
  if !policyForm b then Eff.stat .badParam s
  else match stateReq (fieldB b 0 1) (fieldB b 16 4) s with
    | none => Eff.stat .busy s
    | some s => Eff.ok (applyPolicy (parsePolicy b) s)

def execPowerPolicy (c : Cmd) (s : State) : Out State := .next (runPacket 0x580 c bodyPowerPolicy s)

/-- The 240 bytes of `THERMAL_QUERY` (R386). -/
def thermalBytes (s : State) : List Byte :=
  leBytes 4 s.power.vinMv ++ leBytes 4 s.power.iinMa ++ leBytes 4 s.power.pinW ++
    [BitVec.ofNat 8 s.power.st.code, (overrideOf s).setWidth 8] ++ zeros 2 ++ wordBytes s.now ++ zeros 8 ++
    (s.power.temps.mapIdx fun i t => if sensorNand i && !Config.hasFlash s.variant then 0x8000 else t).flatMap fun t =>
      leBytes 2 t.toNat

def bodyThermalQuery : Body := fun _ s => Eff.data .ok 0 (thermalBytes s) s

def execThermalQuery (c : Cmd) (s : State) : Out State := .next (runPacket 0x581 c bodyThermalQuery s)

end Sys2Proof.Machine
end

