-- ==== Sys2Proof/Machine/Time.lean ====
section
/-! DEFINITION. The cadence counter and its alignment (R391 to R394), and the trip meters (R395 to R397). -/

namespace Sys2Proof.Machine

/-! ### The counter -/

def second : Nat := 1000000000

/-- One nanosecond of the counter: the correction in force adds or holds back a count; it never decreases (R391, R392). -/
def tickCadence (t : Time) : Time :=
  let acc := t.frac + t.slew
  let owe := t.owe.map fun n => n - 1
  if (second : Int) ≤ acc then
    { t with
      cadence := t.cadence + 2
      frac := acc - second
      owe := owe
      slew := if owe = some 0 then 0 else t.slew }
  else if acc ≤ -(second : Int) then
    { t with
      frac := acc + second
      owe := owe
      slew := if owe = some 0 then 0 else t.slew }
  else { t with
    cadence := t.cadence + 1
    frac := acc }

/-- A signed error as the register holds it, saturating (R394). -/
def satError (e : Int) : BitVec 32 :=
  BitVec.ofInt 32 (if 2147483647 < e then 2147483647 else if e < -2147483648 then -2147483648 else e)

/-- The counter and the rates after an edge with an error: slewed, stepped forward, or slowed. -/
def align (e : Int) (expected : Word) (t : Time) : Time :=
  if e < -10000 then
    { t with
      cadence := expected
      slew := 0
      frac := 0
      owe := some 0
      rate := 0 }
  else if 10000 < e then
    { t with
      slew := -1000000
      frac := 0
      owe := some (e.toNat - 10000)
      rate := -1000000 }
  else
    { t with
      slew := -e
      frac := 0
      owe := some e.natAbs
      rate := -e }

/-- `PPS_LOCKED`: after three consecutive edges within 100 ns; cleared by an error above 1 µs. -/
def lockOn (e : Int) (t : Time) : Time :=
  let good := if e.natAbs ≤ 100 then t.good + 1 else 0
  { t with
    good := good
    locked := if 1000 < e.natAbs then false else t.locked || decide (3 ≤ good)
    error := satError e }

/-- The expected value of an edge; after a loss the whole second nearest to the counter (notes/assumptions/53.md). -/
def expectedAt (t : Time) (x : Word) : Word :=
  if !t.lost then x
  else
    let d : Int := (t.cadence.toNat : Int) - x.toNat
    let k := (d + second / 2) / second
    x + BitVec.ofInt 64 (k * second)

/-- A rising edge that is no glitch aligns the counter. -/
def acceptEdge (t : Time) : Time :=
  let now := t.cadence
  let t := match t.expected with
    | none => t
    | some x =>
      let x := expectedAt t x
      let e : Int := (now.toNat : Int) - x.toNat
      lockOn e (align e x { t with expected := some (x + BitVec.ofNat 64 second) })
  { t with
    lost := false
    lastEdge := some t.cadence }

/-- The counter takes a value; edges then expect whole seconds after it. -/
def setCadence (v : Word) (t : Time) : Time :=
  { t with
    cadence := v
    expected := some (v + BitVec.ofNat 64 second)
    slew := 0
    frac := 0
    owe := some 0
    rate := 0
    setBack := t.setBack || decide (v.toNat < t.cadence.toNat) }

/-- The counter may take a value: a lower one once, before the first composition after a cold boot (R393). -/
def timeOk (s : State) (v : Word) : Bool :=
  decide (s.time.cadence.toNat ≤ v.toNat) || (!s.ever && !s.time.setBack)

/-- A waiting `TIME_SET` takes effect at an edge. -/
def setAtEdge (w : Open × Word) (s : State) : State :=
  if !timeOk s w.2 then completeIf w.1 .badParam 0 [] s
  else
    let e : Int := (s.time.cadence.toNat : Int) - w.2.toNat
    let t := lockOn e (setCadence w.2 s.time)
    completeIf w.1 .ok 0 [] { s with time := { t with
      lost := false
      lastEdge := some w.2 } }

/-- An edge less than 0.9 s after the last accepted one is a glitch. -/
def glitch (t : Time) : Bool :=
  match t.lastEdge with
  | some l => decide (t.cadence.toNat < l.toNat + 900000000)
  | none => false

/-- The counter has gone on from a value: the time is one of the power state that the module is in; a step back takes none
away (R395, R397). -/
def countTime (old : Word) (s : State) : State :=
  { s with trip.stateNs := updAt s.trip.stateNs s.power.st.code fun n => n + (s.now.toNat - old.toNat) }

/-- A rising edge. -/
def ppsEdge (s : State) : State :=
  if glitch s.time then s
  else countTime s.now (match s.time.waiting with
    | [] => { s with time := acceptEdge s.time }
    | ws => ws.foldl (fun s w => setAtEdge w s) { s with time.waiting := [] })

def execPpsEdge (s : State) : Out State := .next (whenUp s ppsEdge)

/-- No edge within 1.1 s of the last: the counter keeps the rate of its last second. -/
def execPpsLost (s : State) : Out State :=
  .next (whenUp s fun s =>
    { s with time := { s.time with
      lost := true
      good := 0
      slew := s.time.rate
      owe := none } })

/-- `TIME_SET` (R393). -/
def bodyTimeSet : Body := fun c s =>
  let v := c.p 0
  if bits (c.p 1) 1 63 ≠ 0 || !timeOk s v then Eff.stat .badParam s
  else if bit (c.p 1) 0 then Eff.ok (countTime s.now { s with time := setCadence v s.time })
  else Eff.later { s with time.waiting := s.time.waiting ++ [(openOf 0x701 c, v)] }

def execTimeSet (c : Cmd) (s : State) : Out State := .next (runPacket 0x701 c bodyTimeSet s)

/-- 1.1 s without an edge: a waiting `TIME_SET` times out. -/
def execTimeSetTimeout (s : State) : Out State :=
  .next (whenUp s fun s =>
    s.time.waiting.foldl (fun s w => completeIf w.1 .timeout 0 [] s) { s with time.waiting := [] })

/-! ### Trip meters -/

/-- A counter that saturates at 2^64 - 1 (R395). -/
def count64 (n : Nat) : List Byte := leBytes 8 (satN (2 ^ 64 - 1) n)

/-- The first 160 bytes of a report (R397). -/
def tripBytes (s : State) (t : Trip) (to_ : Word) (prev : Bool) (rider : Option (BitVec 6)) (m : Meter) : List Byte :=
  leBytes 4 0x7217F064 ++
    [BitVec.ofNat 8 (prev.toNat * 2 + rider.isSome.toNat), match rider with | some r => riderByte r | none => 0] ++ zeros 2 ++
    wordBytes s.env.fp ++ leBytes 4 s.nv.bootCount.toNat ++ leBytes 4 t.epoch.toNat ++ leBytes 8 s.reportSeq ++
    wordBytes t.from_ ++ wordBytes to_ ++ t.stateNs.flatMap count64 ++
    count64 (if rider.isSome then 0 else t.energyNj / 1000000) ++ count64 m.tileLoaded ++ count64 m.tileActive ++
    count64 m.rd ++ count64 m.wr ++ count64 m.fabric ++ count64 m.flash ++ zeros 8

/-- A signed report. -/
def tripReport (s : State) (t : Trip) (to_ : Word) (prev : Bool) (rider : Option (BitVec 6)) (m : Meter) : List Byte :=
  let b := tripBytes s t to_ prev rider m
  b ++ (Config.deviceSign (Config.sha3 b)).take 2420 ++ zeros 4

/-- Report a composition or one of its riders. -/
def readTrip (t : Trip) (to_ : Word) (prev : Bool) (rider : Option (BitVec 6)) (s : State) : Eff :=
  let s' := { s with reportSeq := s.reportSeq + 1 }
  match rider with
  | none => Eff.data .ok 0 (tripReport s' t to_ prev none t.all) s'
  | some r => match lookupK t.riders r with
    | none => Eff.stat .badParam s
    | some m => Eff.data .ok 0 (tripReport s' t to_ prev (some r) m) s'

/-- `TRIP_READ` (R396). -/
def bodyTripRead : Body := fun c s =>
  let p := c.p 0
  let rider := if bit p 8 then some (BitVec.ofNat 6 (bits p 0 6)) else none
  let mine := match c.h.src with | .queue _ => rider == some c.h.r | _ => true
  withIdentity s <|
    if bits p 6 2 ≠ 0 || bits p 10 54 ≠ 0 then Eff.stat .badParam s
    else if !mine then Eff.stat .auth s
    else if bit p 9 then
      match s.prevTrip with
      | some t => readTrip t t.to_ true rider s
      | none => Eff.stat .badParam s
    else readTrip s.trip s.now false rider s

def execTripRead (c : Cmd) (s : State) : Out State := .next (runPacket 0x700 c bodyTripRead s)

end Sys2Proof.Machine
end

