-- ==== Sys2Proof/Machine/Record.lean ====
section
/-! DEFINITION. The composition record (R30 to R33, R254, R255) and the checks of R34 with R29, R253, R256, R273, R287 and
R424. -/

namespace Sys2Proof.Machine

/-! ### Reading the record -/

/-- Cut `n` entries of `k` bytes from an offset. -/
def entriesAt (b : List Byte) (off k n : Nat) : List (List Byte) := (List.range n).map fun i => sliceB b (off + i * k) k

def parseMod (e : List Byte) : ModEntry :=
  { fp := BitVec.ofNat 64 (fieldB e 0 8), boot := BitVec.ofNat 32 (fieldB e 8 4), module := BitVec.ofNat 8 (fieldB e 0x0C 1)
    twin := BitVec.ofNat 8 (fieldB e 0x0D 1)
    gateways := BitVec.ofNat 24 (fieldB e 0x0E 1 * 65536 + fieldB e 0x10 2) }

def parseRider (e : List Byte) : RiderEntry :=
  { rider := BitVec.ofNat 6 (fieldB e 0 1), weight := BitVec.ofNat 8 (fieldB e 1 1)
    maxQueues := BitVec.ofNat 16 (fieldB e 2 2), maxStreams := BitVec.ofNat 16 (fieldB e 4 2)
    syncBase := BitVec.ofNat 16 (fieldB e 6 2), syncCount := BitVec.ofNat 16 (fieldB e 8 2) }

def parseRun (e : List Byte) : Run :=
  { readers := BitVec.ofNat 64 (fieldB e 0 8), writers := BitVec.ofNat 64 (fieldB e 8 8)
    first := BitVec.ofNat 16 (fieldB e 0x10 2), count := BitVec.ofNat 16 (fieldB e 0x12 2)
    mirrorFirst := BitVec.ofNat 16 (fieldB e 0x14 2), module := BitVec.ofNat 8 (fieldB e 0x16 1)
    flags := BitVec.ofNat 8 (fieldB e 0x17 1) }

def parseRoute (e : List Byte) : Route :=
  { type := BitVec.ofNat 8 (fieldB e 0 1), module := BitVec.ofNat 8 (fieldB e 1 1), port := BitVec.ofNat 8 (fieldB e 2 1)
    w0 := BitVec.ofNat 32 (fieldB e 4 4), w1 := BitVec.ofNat 64 (fieldB e 8 8) }

/-- The raw entries of the four tables. -/
structure RecTabs where
  mods   : List (List Byte)
  riders : List (List Byte)
  runs   : List (List Byte)
  routes : List (List Byte)

def recTabs (b : List Byte) : RecTabs :=
  let m := fieldB b 0x11 1
  let r := fieldB b 0x12 1
  let x := fieldB b 0x14 2
  { mods := entriesAt b 64 32 m, riders := entriesAt b (64 + 32 * m) 32 r, runs := entriesAt b (64 + 32 * (m + r)) 32 x
    routes := entriesAt b (64 + 32 * (m + r + x)) 16 (fieldB b 0x16 2) }

def recEpoch (b : List Byte) : BitVec 32 := BitVec.ofNat 32 (fieldB b 0x0C 4)

/-- Check 1. -/
def recShape (b : List Byte) : Bool :=
  let n := 64 + 32 * (fieldB b 0x11 1 + fieldB b 0x12 1 + fieldB b 0x14 2) + 16 * fieldB b 0x16 2 + 2424
  decide (b.length ≤ 1048576) && fieldB b 0 4 == 0x0C0AF064 && fieldB b 4 2 == 1 && fieldB b 8 4 == b.length && b.length == n

/-- Check 2: the signature over every preceding byte, by the manager key in slot `SIGNER`. -/
def recSigned (s : State) (b : List Byte) : Bool :=
  let body := b.take (b.length - 2424)
  mgrSigOk s (fieldB b 0x13 1) (Config.sha3 body) (sigBytes (b.drop (b.length - 2424)))

/-- The module entry of this module and this boot (check 4). -/
def recOwn (s : State) (mods : List ModEntry) : Option ModEntry := mods.find? fun m => m.fp = s.env.fp && m.boot = s.nv.bootCount

/-! ### Check 6 -/

/-- Every pair of a list, the earlier element first. -/
def pairsOk {α : Type} (ok : α → α → Bool) : List α → Bool
  | [] => true
  | x :: xs => xs.all (ok x) && pairsOk ok xs

/-- Header fields (R17, R30). -/
def hdrOk (b : List Byte) : Bool :=
  zeroB b 6 2 && zeroB b 0x20 32 && zeroB b (b.length - 4) 4 && decide (1 ≤ fieldB b 0x0C 4) && fieldB b 0x0C 4 != 0xFFFFFFFF &&
    decide (16 ≤ fieldB b 0x11 1) && decide (fieldB b 0x11 1 ≤ 64) && decide (1 ≤ fieldB b 0x12 1) &&
    decide (fieldB b 0x12 1 ≤ 64) && decide (fieldB b 0x13 1 ≤ 6) && decide (1 ≤ fieldB b 0x14 2) &&
    decide (fieldB b 0x14 2 ≤ 8192) && decide (fieldB b 0x16 2 ≤ 32768)

/-- Module entries and the twin relation (R31, R273). -/
def modsOk (es : List (List Byte)) : Bool :=
  let ms := es.map parseMod
  es.all (fun e => fieldB e 0x0F 1 == 0 && zeroB e 0x12 14) && ms.all (fun m => decide (m.module.toNat ≤ 63)) &&
    pairsOk (fun (a b : ModEntry) => a.module != b.module) ms &&
    ms.all fun m => m.twin = 0xFF || (m.twin != m.module && ms.any fun t => t.module = m.twin && t.twin = m.module)

/-- Rider entries, quotas and sync grants (R24, R32). DESIGN CHOICE (notes/assumptions/129.md): a grant ends at the last sync
object. -/
def ridersOk (es : List (List Byte)) : Bool :=
  let rs := es.map parseRider
  es.all (fun e => decide (fieldB e 0 1 ≤ 63) && zeroB e 0x0A 22) &&
    pairsOk (fun (a b : RiderEntry) => a.rider != b.rider) rs &&
    rs.all (fun r => r.weight ≠ 0 && decide (1 ≤ r.maxQueues.toNat) && decide (r.maxQueues.toNat ≤ 8192) &&
      decide (r.maxStreams.toNat ≤ 8192) && decide (r.syncBase.toNat < 16384) && decide (r.syncCount.toNat ≤ 16384) &&
      decide (r.syncBase.toNat + r.syncCount.toNat ≤ 16384)) &&
    decide ((rs.map (·.maxQueues.toNat)).sum ≤ 8192) && decide ((rs.map (·.maxStreams.toNat)).sum ≤ 8192) &&
    pairsOk (fun (a b : RiderEntry) => rangesApart a.syncBase.toNat a.syncCount.toNat b.syncBase.toNat b.syncCount.toNat) rs

/-- The riders named by a mask all have an entry. -/
def maskKnown (mask : Word) (rs : List RiderEntry) : Bool :=
  (List.range 64).all fun i => !bit mask i || rs.any (·.rider.toNat == i)

/-- One run entry (R27, R33, R273). -/
def runOk (ms : List ModEntry) (rs : List RiderEntry) (e : List Byte) : Bool :=
  let u := parseRun e
  zeroB e 0x18 8 && bits u.flags 6 2 == 0 && u.mirror != 3 && decide (u.first.toNat < 16384) && decide (1 ≤ u.count.toNat) &&
    decide (u.first.toNat + u.count.toNat ≤ 16384) && u.readers ≠ 0 && maskKnown u.readers rs && u.writers &&& ~~~u.readers = 0 &&
    (ms.any fun m => m.module = u.module) && (!u.shared || u.lapped) &&
    (u.shared || ((List.range 64).filter fun i => bit u.readers i).length == 1) && (u.mirror != 2 || u.lapped) &&
    (if u.mirror = 0 then u.mirrorFirst = 0
     else decide (u.mirrorFirst.toNat + u.count.toNat ≤ 16384) && ms.any fun m => m.module = u.module && m.twin ≠ 0xFF)

/-- Where a run and its mirror copy lie: module, first extent, count. -/
def runSpans (ms : List ModEntry) (u : Run) : List (Nat × Nat × Nat) :=
  (u.module.toNat, u.first.toNat, u.count.toNat) ::
    (if u.mirror = 0 then []
     else match ms.find? (·.module = u.module) with
       | some m => [(m.twin.toNat, u.mirrorFirst.toNat, u.count.toNat)]
       | none => [])

def runsOk (ms : List ModEntry) (rs : List RiderEntry) (es : List (List Byte)) : Bool :=
  es.all (runOk ms rs) &&
    pairsOk (fun (a b : Nat × Nat × Nat) => a.1 != b.1 || rangesApart a.2.1 a.2.2 b.2.1 b.2.2)
      ((es.map parseRun).flatMap (runSpans ms))

/-- The mode that a list of route entries gives a port of a module; none listed: off (R254, R256). -/
def modeIn (xs : List Route) (m : BitVec 8) (p : Nat) : Nat :=
  match xs.find? fun x => x.type = 1 && x.module = m && x.port.toNat == p with
  | some x => bits x.w0 0 8
  | none => 0

def oxfMode (n : Nat) : Bool := n == 1 || n == 2
def cxlMode (n : Nat) : Bool := n == 3 || n == 4

/-- The reserved fields and encodings of one route entry (R254, R255). -/
def routeForm (ms : List ModEntry) (rs : List RiderEntry) (e : List Byte) : Bool :=
  let x := parseRoute e
  let rider (byte : Nat) : Bool := rs.any (·.rider.toNat == byte)
  let agent := bits x.w1 10 5 == 0 && bits x.w1 16 48 == 0
  let ports := bits x.w1 24 8 == 0
  fieldB e 3 1 == 0 && (ms.any fun m => m.module = x.module) &&
    (if x.type = 1 then
      decide (x.port.toNat < 24) && decide (bits x.w0 0 8 ≤ 4) && decide (bits x.w0 8 8 ≤ 1) && bits x.w0 16 16 == 0 && x.w1 = 0
     else if x.type = 2 then x.port = 0 && rider (bits x.w0 16 8) && bits x.w0 24 8 == 0 && agent
     else if x.type = 3 then
      decide (x.port.toNat < 24) && decide (bits x.w0 0 8 ≤ 15) && bits x.w0 8 8 == 0 && rider (bits x.w0 16 8) &&
        bits x.w0 24 8 == 0 && agent
     else if x.type = 4 then
      x.port = 0 && rider (bits x.w0 8 6) && bits x.w0 14 1 == 0 && bits x.w0 16 16 == 0 && ports
     else if x.type = 5 then
      x.port = 0 && bits x.w0 8 24 == 0 && ports && bits x.w1 32 32 == 0 && ms.any fun m => m.module.toNat == bits x.w0 0 8
     else false)

/-- What R253 and R256 ask of one entry among all. -/
def routeFits (ms : List ModEntry) (xs : List Route) (x : Route) : Bool :=
  let mode (p : Nat) : Nat := modeIn xs x.module p
  let gate (p : Nat) : Bool := ms.any fun m => m.module = x.module && bit m.gateways p
  let inMask (ok : Nat → Bool) : Bool := (List.range 24).all fun p => !bit x.w1 p || ok p
  if x.type = 1 then
    bits x.w0 8 8 == 0 || (x.port.toNat % 3 == 0 && cxlMode (bits x.w0 0 8) &&
      !(xs.any fun y => y.type = 1 && y.module = x.module && y.port.toNat == x.port.toNat + 1))
  else if x.type = 3 then cxlMode (mode x.port.toNat) && !(x.caching && mode x.port.toNat == 4)
  else if x.type = 4 then inMask fun p => oxfMode (mode p) && gate p
  else if x.type = 5 then inMask fun p => oxfMode (mode p)
  else true

/-- Two entries do not clash (R256). -/
def routesApart (a b : Route) : Bool :=
  if a.module ≠ b.module then true
  else
    !((a.type = 2 || a.type = 3) && (b.type = 2 || b.type = 3) && a.caching && b.caching && decide (a.agent = b.agent)) &&
    (if a.type ≠ b.type then true
     else if a.type = 1 then a.port ≠ b.port
     else if a.type = 2 then bits a.w0 0 16 != bits b.w0 0 16
     else if a.type = 3 then a.port ≠ b.port || bits a.w0 0 8 != bits b.w0 0 8
     else bits a.w0 0 8 != bits b.w0 0 8)

def routesOk (ms : List ModEntry) (rs : List RiderEntry) (es : List (List Byte)) : Bool :=
  let xs := es.map parseRoute
  es.all (routeForm ms rs) && xs.all (routeFits ms xs) && pairsOk routesApart xs &&
    ms.all fun m => (List.range 24).all fun p => !bit m.gateways p || oxfMode (modeIn xs m.module p)

/-! ### Checks 7 and 8 -/

/-- The module's extent capacity, less that of its clusters in state 4 (R29, R101). -/
def extentCapacity (s : State) : Nat :=
  let per := Config.flashExtents s.variant / 4
  Config.memExtents s.variant +
    ((List.range 4).map fun k => if (s.flash.getD k Cluster.reset).state = 4 then 0 else per).sum

/-- Extents that a record places on a module: its runs and the mirror copies on it as a twin (R29). -/
def extentsOn (ms : List ModEntry) (us : List Run) (me : Nat) : Nat :=
  (((us.flatMap (runSpans ms)).filter fun p => p.1 == me).map fun (p : Nat × Nat × Nat) => p.2.2).sum

/-- A run matches one of the kept composition: module, extents, readers, writers and flags but `HELD` and `KEEP` (R36,
R424; notes/assumptions/54.md). -/
def keptRun (k : Option Kept) (u : Run) : Bool :=
  match k with
  | none => false
  | some k => k.runs.any fun v =>
      v.module = u.module && v.first = u.first && v.count = u.count && v.readers = u.readers && v.writers = u.writers &&
        v.flags &&& 0xDB = u.flags &&& 0xDB

/-- The record as it is installed on this module. -/
def recComp (b : List Byte) (me : BitVec 8) : Comp :=
  let t := recTabs b
  { epoch := recEpoch b, issued := BitVec.ofNat 64 (fieldB b 0x18 8), peloton := BitVec.ofNat 8 (fieldB b 0x10 1), me := me
    modules := t.mods.map parseMod
    riders := t.riders.map parseRider, runs := t.runs.map parseRun, routes := t.routes.map parseRoute }

/-- The checks of R34, in order: the refusal, or the composition to boot. -/
def checkRecord (s : State) (b : List Byte) : Status ⊕ Comp :=
  if !recShape b then .inl .badParam
  else if !recSigned s b then .inl .auth
  else if recEpoch b ≤ epochNow s then .inl .staleMap
  else
    let t := recTabs b
    let ms := t.mods.map parseMod
    let rs := t.riders.map parseRider
    let us := t.runs.map parseRun
    match recOwn s ms with
    | none => .inl .auth
    | some own =>
      let mine (u : Run) : Bool := decide (u.module = own.module)
      if !(ms.all fun m => s.nv.members.contains m.fp) then .inl .quorum
      else if !(hdrOk b && modsOk t.mods && ridersOk t.riders && runsOk ms rs t.runs && routesOk ms rs t.routes) then
        .inl .badParam
      else if extentCapacity s < extentsOn ms us own.module.toNat then .inl .badParam
      else if !(us.all fun u => !(u.keep && mine u) || keptRun s.nv.kept u) then .inl .badParam
      else .inr (recComp b own.module)

end Sys2Proof.Machine
end

