-- ==== Sys2Proof/Machine/Force.lean ====
section
/-! DEFINITION. What is still open on the module, the drained bits of `HS_DRAIN_STATUS`, and the force step that completes
it with a status (R36, R40, R321). -/

namespace Sys2Proof.Machine

/-! ### Whose work (R24, R421) -/

/-- The rider a command acts for. -/
def cmdRider (o : Open) : Option (BitVec 6) :=
  match o.h.src with
  | .queue _ => some o.h.r
  | _ => match opInfo o.op.toNat with
    | some i => if i.forR then some o.h.r else none
    | none => none

/-- The work a drain waits for: everything, or one rider's; `keep` is the draining command itself. Port commands count when
they were accepted before it. -/
structure Scope where
  rider : Option (BitVec 6)
  keep  : Open

def Scope.has (w : Scope) (r : BitVec 6) : Bool := w.rider.all (· = r)

def Scope.cmd (w : Scope) (s : State) (o : Open) : Bool :=
  (match w.rider with | none => true | some r => cmdRider o == some r) && o ≠ w.keep &&
    (match o.h.src with
     | .queue _ => true
     | _ => !(s.port.outstanding.contains w.keep) || (s.port.outstanding.takeWhile (· ≠ w.keep)).contains o)

def Scope.tile (w : Scope) (x : Tile) : Bool := match x.prog with | some p => w.has p.rider | none => false

/-- The command behind a job; a rider's reset is not waited for. -/
def jobCmd : Job → Option Open
  | .revoke o _ _ => some o
  | .commit o _ _ _ _ => some o
  | .rollback o _ _ _ _ => some o
  | .destroy o _ => some o
  | .reset _ _ => none
  | .stop o _ _ _ => some o
  | .rerun h => some (openOf h.op.toNat h.c)

/-- An `EXTENT_ASSIGN` or `EXTENT_REVOKE` that waits its turn. -/
def waitsTurn : Job → Bool
  | .rerun h => h.op.toNat == 0x100 || h.op.toNat == 0x101
  | _ => false

/-- A job of the scope. A drain of the whole module waits for no `EXTENT_ASSIGN` or `EXTENT_REVOKE` that waits for the
`COMPOSE` itself (R43). -/
def Scope.job (w : Scope) (s : State) (j : Job) : Bool := (jobCmd j).any (w.cmd s) && !(w.rider.isNone && waitsTurn j)

def Scope.wait (w : Scope) (s : State) (x : Wait) : Bool := match x.who with | .cmd o => w.cmd s o | .ctx _ _ => false

/-- A request transaction of the scope; recalls for the home itself are nobody's, and an engine's access is its operation's. -/
def Scope.trk (w : Scope) (t : Trk) : Bool := match t.what with | .req _ _ => w.has t.rider | _ => false

/-! ### Requests of tiles that were accepted before the close -/

def Ctx.open_ (k : Ctx) : Bool :=
  (match k.block with | .access a _ => !a.late | _ => false) || k.stores.any fun e => !e.late

def Stream.open_ (z : Stream) : Bool := z.running && (z.sent || !z.late)

def Tile.open_ (x : Tile) : Bool := x.ctxs.any Ctx.open_ || x.streams.any Stream.open_

/-! ### Ports in use (R40) -/

/-- The port a request came in by: a CXL port, or the one that answers to its OXF sender go out by (R423;
notes/assumptions/55.md). -/
def trkPort (s : State) (t : Trk) : Option (Fin 24) :=
  match t.what with
  | .req r _ => match r.src with
    | .cxl p _ => some p
    | .edge _ => agentPort s t.line
    | .remote m _ => portFor s s.peloton m.toNat t.line
    | _ => none
  | _ => none

/-- The ports that requests in progress use. -/
def openPorts (s : State) : List (Fin 24) :=
  s.coh.trks.filterMap (trkPort s) ++ s.fab.tx.flatMap (fun c => c.unacked.filterMap (·.port)) ++
    s.fab.loads.filterMap (·.port) ++ s.fab.rx.flatMap (fun x => x.flagged.map fun (f : StorePkt × Fin 24) => f.2) ++
    (s.fab.gblocks.filter fun g => !g.waiting.isEmpty).filterMap (·.port)

def portMask (ps : List (Fin 24)) : BitVec 24 :=
  BitVec.ofNat 24 (((List.range 24).map fun p => if ps.any (·.val == p) then 2 ^ p else 0).sum)

/-! ### Drained (R36, R40) -/

/-- Every fetched command of the scope's queues has replied; at a rider's reset it has completed. -/
def queuesDone (w : Scope) (s : State) : Bool :=
  s.queues.all fun q => !w.has q.rider || (q.started.isEmpty && q.waiting.isEmpty && (w.rider.isSome || q.done.isEmpty))

/-- Near-memory, embedding, lap, tier-mover and tile traffic of the scope is complete, and no command of it is open on the
module's working state. -/
def enginesDone (w : Scope) (s : State) : Bool :=
  !(s.eng.ops.any fun o => w.has o.rider && !o.late) && !(s.eng.batches.any fun b => w.has b.key.rider && !b.late) &&
    !(s.store.tierCmds.any fun t => w.cmd s t.cmd) && !(s.jobs.any (w.job s)) && !(s.xlat.unmaps.any fun u => w.cmd s u.cmd) &&
    !(s.sync.waits.any (w.wait s)) && !(s.tiles.any fun x => w.tile x && x.open_) &&
    (w.rider.isSome || (s.store.moves.isEmpty && s.store.reads.isEmpty && s.store.progs.all (·.held)))

/-- Fabric requests of the scope are complete. -/
def fabricDone (w : Scope) (s : State) : Bool :=
  !(s.coh.trks.any w.trk) && s.fab.tx.all (fun c => c.unacked.all fun u => !w.has u.pkt.rider) &&
    s.fab.rx.all fun x => x.flagged.all fun (f : StorePkt × Fin 24) =>
      match storeRider s f.1 with | .inr r => !w.has r | .inl _ => w.rider.isSome

/-- Nothing waits on the mirror channel. DESIGN CHOICE (notes/assumptions/128.md): its traffic is neither die's alone, and the
two bits of `TANDEM_DRAINED` move together. -/
def tandemDone (s : State) : Bool := s.pair.inFlight.isEmpty && s.pair.clog.isEmpty

def drained (w : Scope) (s : State) : Bool :=
  queuesDone w s && enginesDone w s && fabricDone w s && (w.rider.isSome || tandemDone s)

/-- `HS_DRAIN_STATUS` while a composition drains. -/
def drainNow (w : Scope) (s : State) : Drain :=
  { done := false, forced := 0, engines := enginesDone w s, queues := queuesDone w s
    tandem := if tandemDone s then 3 else 0, ports := ~~~portMask (openPorts s) }

/-! ### Force (R36, R321) -/

/-- Complete the commands of a scope that wait on the module's working state. -/
def endCmds (w : Scope) (st : Status) (s : State) : State :=
  let ts := s.store.tierCmds.filter fun t => w.cmd s t.cmd
  let us := s.xlat.unmaps.filter fun u => w.cmd s u.cmd
  let js := s.jobs.filter (w.job s)
  let ws := s.sync.waits.filter (w.wait s)
  let s' := { s with
    store.tierCmds := dropIf s.store.tierCmds fun t => w.cmd s t.cmd
    xlat.unmaps := dropIf s.xlat.unmaps fun u => w.cmd s u.cmd
    jobs := dropIf s.jobs (w.job s)
    sync.waits := dropIf s.sync.waits (w.wait s) }
  let s := ts.foldl (fun s t =>
    completeIf t.cmd st (failResult s t.cmd.h.surrogate t.status t.failed) [] s) s'
  let s := us.foldl (fun s u => completeIf u.cmd st u.result [] s) s
  let s := js.foldl (fun s j => match j with
    | .commit o _ es _ _ => completeIf o st 0 [] (forExts (es.map (·.1)) s (setClosed false))
    | j => match jobCmd j with | some o => completeIf o st 0 [] s | none => s) s
  ws.foldl (fun s x => endWait false x s) s

/-- End the engine operations and batches of a scope. -/
def endEngines (w : Scope) (late : Bool) (st : Status) (s : State) : State :=
  let s := (s.eng.ops.filter fun o => w.has o.rider && (late || !o.late)).foldl (fun s o => endOp o st o.here s) s
  (s.eng.batches.filter fun b => w.has b.key.rider && (late || !b.late)).foldl (fun s b =>
    endBatch b b.key.member { status := st, off := 0 } s) s

/-- The accesses, stores and beats of a tile's contexts complete with a status. -/
def forceTile (st : Status) (x : Tile) (s : State) : State :=
  let s := (List.range 16).foldl (fun s i =>
    let c := BitVec.ofNat 4 i
    match x.ctxs[i]? with
    | none => s
    | some k =>
      let s := match k.block with
        | .access a _ => if a.late then s else failAcc a st 0 s
        | _ => s
      (k.stores.filter fun e => !e.late).foldl (fun s e => refuseStore x.id c e st (some (dstOf s e.opa)) s) s) s
  (x.streams.filter Stream.open_).foldl (fun s z => failStream x.id z.n st s) s

/-- Stores to other modules that are not acknowledged: their channels are closed and the destination is ordered to discard
what has not landed (R263). -/
def forceChans (w : Scope) (st : Status) (s : State) : State :=
  (s.fab.tx.filter fun c => c.unacked.any fun u => w.has u.pkt.rider).foldl (fun s c =>
    let s := setChan { c with unacked := [], discard := true, cover := c.next } s
    emit (.discard { peloton := c.peloton, module := c.dst } c.source) (c.unacked.foldl (fun s u => endUnacked u (some st) s) s)) s

/-- Flagged stores held at the Derailleur, and transactions at the homes. -/
def forceFabric (w : Scope) (st : Status) (s : State) : State :=
  let mine (p : StorePkt) : Bool := match storeRider s p with | .inr r => w.has r | .inl _ => w.rider.isNone
  let fs := s.fab.rx.flatMap fun x => x.flagged.filter fun (f : StorePkt × Fin 24) => mine f.1
  let s := { s with fab.rx := s.fab.rx.map fun x => { x with flagged := x.flagged.filter fun (f : StorePkt × Fin 24) => !mine f.1 } }
  let s := fs.foldl (fun s (f : StorePkt × Fin 24) => finishStore f.1 (some st) s) s
  (s.coh.trks.filter w.trk).foldl (fun s t => endWith t st s) s

/-- Everything of a scope that is still open completes with a status; what remains of it is discarded. -/
def forceOpen (w : Scope) (st : Status) (s : State) : State :=
  let s := endEngines w false st (endCmds w st s)
  let s := { s with xlat.walks := dropIf s.xlat.walks fun x => w.has x.rider }
  let s := (s.tiles.filter w.tile).foldl (fun s x => forceTile st x s) s
  let s := forceChans w st s
  let s := dropLoads (fun b => match b with | .ctx t _ | .stream t _ => (tileRider s t).any w.has | .op _ => false) s
  kick (forceFabric w st s)

end Sys2Proof.Machine
end

