-- ==== Sys2Proof/Machine/Compose.lean ====
section
/-! DEFINITION. `COMPOSE` (R34 to R40, R43, R424), the requests held at ingress (R37, R371) and `RIDER_RESET` (R321). -/

namespace Sys2Proof.Machine

/-! ### Requests held at ingress (R36, R37) -/

/-- A request held under an older epoch, or one that no switch has freed, completes with a status. -/
def endHeld (h : Held) (st : Status) (s : State) : State :=
  match h.what with
  | .req r _ => refuseReq r st s
  | .store p _ =>
    emit (.seqAck (BitVec.ofNat 8 (if (winKey s p).2 then s.twinNo else s.me)) p.sender p.lowest [] [(p.seq, st)]) s
  | .fence src _ txn _ => emit (.fenceCmp src txn st) s

/-- A held request must still wait. -/
def stillHeld (s : State) (h : Held) : Bool :=
  match h.what with
  | .req r _ => holdsReq s r || srcWaits s r.src h.id || !reqRoom s r
  | .store p _ => holdsStore s p || noWindow s p
  | .fence src dst _ seq => match (fenceSide s dst).bind fun b => (sourceIn (sideRoutes s b) src).map fun x => (b, x) with
    | some (b, x) => s.pair.st ≠ 7 && fenceWaits s x b src seq h.epoch
    | none => false

/-- Try one held request again: refused when its epoch is past, kept, or applied. -/
def retryHeld (h : Held) (s : State) : State :=
  let out (s : State) : State := { s with held := dropIf s.held (·.id == h.id) }
  if h.epoch < epochNow s then endHeld h .staleMap (out s)
  else if stillHeld s h then s
  else match h.what with
    | .req r k => routeReq r k (out s)
    | .store p port => storeArrives p port (out s)
    | .fence src dst txn seq => fenceArrives src dst txn seq h.epoch (out s)

def retryHeldAll (s : State) : State := s.held.foldl (fun s h => retryHeld h s) s

/-- A request under a newer epoch waited 250 ms (R37). -/
def execEpochHoldTimeout (i : Nat) (s : State) : Out State :=
  .next (whenUp s fun s =>
    match s.held.find? fun h => h.id == i && decide (epochNow s < h.epoch) with
    | some h => endHeld h .timeout { s with held := dropIf s.held (·.id == i) }
    | none => s)

/-! ### Close (R36, R43) -/

/-- The commands in progress that R43 orders before a `COMPOSE` accepted now. -/
def revokesOpen (s : State) : List Open :=
  s.jobs.filterMap fun j => match j with
    | .revoke o _ _ => some o
    | j => if waitsTurn j then jobCmd j else none

/-- One of the listed commands has not returned. -/
def anyOpen (before : List Open) (s : State) : Bool := s.jobs.any fun j => (jobCmd j).any before.contains

/-- The close step: new requests are held from now on; the command counts as the last that was accepted before. -/
def closeFor (o : Open) (c : Comp) (s : State) : State :=
  { s with
    port.outstanding := s.port.outstanding.erase o ++ [o]
    compose := .draining o c
    drain := Drain.zero }

/-- A fitted cluster has not mounted (R100). -/
def notMounted (s : State) : Bool := Config.hasFlash s.variant && s.flash.any (·.state = 0)

def composing (s : State) : Bool :=
  s.compose ≠ .idle || s.port.assemblies.any fun a => a.op = .compose

/-- `COMPOSE` with its whole record. -/
def bodyCompose : Body := fun c s =>
  withIdentity s
    (if s.compose ≠ .idle then Eff.stat .busy s
     else
       let n := (c.p 0).toNat
       if n = 0 || 16 < n || n ≠ (c.payload.length + 65535) / 65536 then Eff.stat .badParam s
       else match checkRecord s c.payload with
         | .inl st => Eff.stat st s
         | .inr k =>
           let o := openOf 0x018 c
           let before := revokesOpen s
           Eff.later (if before.isEmpty then closeFor o k s else { s with compose := .waiting o k before }))

/-- A chunk of `COMPOSE`: refused with `BUSY` while another record is assembled, checked or drained (R35), or a cluster has not
mounted (R100). -/
def bodyComposeChunk : Body := fun c s =>
  if s.compose ≠ .idle || notMounted s || s.port.assemblies.any (fun a => a.op = .compose && a.tag ≠ c.h.tag) then Eff.stat .busy s
  else bodyChunked .compose 0x018 bodyCompose c s

def execCompose (c : Cmd) (s : State) : Out State := .next (runPacket 0x018 c bodyComposeChunk s)

/-- `COMMAND_CHUNK`: one chunk of `COMPOSE` or `PREFETCH_SCHEDULE` (R301). -/
def execCommandChunk (op : ChunkOp) (c : Cmd) (s : State) : Out State :=
  .next (match op with
    | .compose => runPacket 0x018 c bodyComposeChunk s
    | .prefetchSchedule => runPacket 0x281 c (bodyChunked .prefetchSchedule 0x281 bodyPrefetchSchedule) s)

/-! ### Apply (R36) -/

/-- The extents of `COUNT` that start at an index. -/
def runIdxs (first count : Nat) : List Nat := seqFrom first count

def Extent.fresh (idx : Nat) (mirrorOf : Option Nat) (live : Bool) (latest : BitVec 32) : Extent :=
  { idx := idx, mirrorOf := mirrorOf, live := live, fenced := false, unlisted := 0, latest := latest, wlap := none
    reads := [], holds := [], old := [] }

/-- The latest committed lap that a `KEEP` extent keeps: as it stands, or across a cold boot as it was kept. -/
def keptLap (s : State) (idx : Nat) : BitVec 32 :=
  if s.comp.isSome then match findExt s idx with | some x => x.latest | none => 1
  else match s.nv.kept with
    | some k => (lookupK k.laps idx).getD 1
    | none => 1

/-- The extents that a record gives this module: its own runs, and the mirror copies of its twin's. -/
def newExtents (c : Comp) (s : State) : List Extent :=
  let own := (c.runs.filter fun u => decide (u.module = c.me)).flatMap fun u =>
    (runIdxs u.first.toNat u.count.toNat).map fun i =>
      Extent.fresh i none (!u.heldFlag) (if u.keep then keptLap s i else 1)
  let twin := ((c.modules.find? (·.module = c.me)).map (·.twin)).getD 0xFF
  let mir := (c.runs.filter fun u => u.mirror != 0 && decide (u.module = twin) && decide (twin ≠ 0xFF)).flatMap fun u =>
    (List.range u.count.toNat).map fun i =>
      Extent.fresh (u.mirrorFirst.toNat + i) (some (u.first.toNat + i)) false 1
  own ++ mir

/-- The extents whose contents a record keeps. -/
def keepIdxs (c : Comp) : List Nat :=
  (c.runs.filter fun u => u.keep && decide (u.module = c.me)).flatMap fun u => runIdxs u.first.toNat u.count.toNat

/-- The store with nothing in progress on it: no move, no object, no write lap, no lap but the latest. -/
def settleStore (s : State) : State :=
  let s := cancelTier (fun _ => true) s
  let s := s.store.objects.foldl (fun s o => removeObj o s) s
  let s := (s.store.extents.map (·.idx)).foldl (fun s i => abandonLap i s) s
  { s with store := { s.store with
      marks := []
      tierCmds := []
      direct := []
      lateFree := []
      extents := s.store.extents.map fun x => { x with reads := [], holds := [], old := [] } } }

/-- The pages that the record keeps, with their home frames; across a cold boot those of the kept composition. -/
def keepPages (c : Comp) (s : State) : List Page :=
  let keep := keepIdxs c
  let mine (n : Nat) : Bool := keep.contains (extentOfPage n)
  if s.comp.isSome then
    (s.store.pages.filter fun p => mine p.n && p.home.isSome).map fun p => { p with copy := none }
  else match s.nv.kept with
    | some k => (k.pages.filter fun (p : Nat × Nat) => mine p.1).map fun p => { n := p.1, home := some p.2, copy := none }
    | none => []

/-- The store that the record leaves: only the frames of kept pages stay. -/
def newStore (c : Comp) (s : State) : Store :=
  let pages := keepPages c s
  let ids := pages.filterMap (·.home)
  { Store.reset with
    extents := newExtents c s
    pages := pages
    frames := s.store.frames.filter fun f => ids.contains f.id
    nextFrame := s.store.nextFrame
    nextCh := s.store.nextCh
    mem := s.store.mem.filter fun x => ids.contains (x.1 / 65536)
    bad := s.store.bad.filter fun b => ids.contains (b / 65536)
    soft := s.store.soft.filter fun b => ids.contains (b / 65536)
    units := s.store.units.filter fun e => ids.contains e.1
    nextMove := s.store.nextMove
    nextCopy := s.store.nextCopy }

/-- The lead port of the x16 pair that a record makes a port part of. -/
def widePair (c : Comp) (p : Nat) : Option Nat :=
  let wide (q : Nat) : Bool := c.routes.any fun x => x.type = 1 && x.module = c.me && x.port.toNat == q && bits x.w0 8 8 == 1
  if wide p then some p else if p % 3 = 1 && wide (p - 1) then some (p - 1) else none

/-- A port as the record sets it (R252 to R256): one whose mode stays keeps its link, any other must train. -/
def newPort (c : Comp) (fenced : Bool) (p : Nat) (x : FPort) : FPort :=
  let lead := (widePair c p).getD p
  let mode := BitVec.ofNat 4 (modeIn c.routes c.me lead)
  let wide := (widePair c p).isSome
  let gate := c.modules.any fun m => m.module = c.me && bit m.gateways p
  let lds := (c.routes.filter fun r => r.type = 3 && r.module = c.me && r.port.toNat == p).length
  let x := if x.mode = mode && x.wide == wide then x
    else { x with up := false, down := false, retraining := decide (mode ≠ 0) && !fenced, width := 8, replayRun := 0 }
  { x with mode := mode, wide := wide, gateway := gate, lds := BitVec.ofNat 8 lds }

def newPorts (c : Comp) (s : State) : List FPort :=
  s.fab.ports.mapIdx fun p x => newPort c (unitFenced s (unitPort p)) p x

/-- Ports that were up and are not any more: their state changes are logged (R257). -/
def recPorts (old : List FPort) (s : State) : State :=
  (List.range 24).foldl (fun s p => if (old.getD p FPort.off).up && !(portAt s p).up then recPort p s else s) s

/-- What remains when the drain is over ends: work of late commands with `STALE_MAP`, a reset that has nothing more to
clear, the pair's commands. -/
def endRest (o : Open) (s : State) : State :=
  let w : Scope := { rider := none, keep := o }
  let resets := s.jobs.filterMap fun j => match j with | .reset o _ => some o | _ => none
  let waiting := s.jobs.filter waitsTurn
  let s := { s with
    jobs := s.jobs.filter fun j => match j with
      | .reset _ _ => false
      | j => !waitsTurn j
    port.outstanding := s.port.outstanding.erase o ++ [o] }
  let s := endEngines w true .staleMap (endCmds w .staleMap s)
  let s := resets.foldl (fun s x => completeIf x .ok 0 [] s) s
  let s := match s.pair.cmd with
    | some x => completeIf x .timeout 0 [] { s with pair.cmd := none }
    | none => s
  { s with jobs := waiting, resets := [] }

/-- The working state that every composition starts with (R36, R62, R87, R104, R125, R144, R192, R220, R319). -/
def clearWork (s : State) : State :=
  let s := dropEmb none (unloadAll s)
  let ws := s.sync.waits
  let s := ws.foldl (fun s w => endWait false w s) { s with sync.waits := [] }
  { s with
    sync := Sync.reset
    queues := []
    rings := []
    late := []
    bells := []
    port.assemblies := s.port.assemblies.filter fun a => match a.src with | .queue _ => false | _ => true
    xlat := { Xlat.reset with nextId := s.xlat.nextId, faults := s.xlat.faults }
    coh := { Coh.reset with
      timeouts := s.coh.timeouts
      trackers := s.coh.trackers
      recalls := s.coh.recalls
      nextTrk := s.coh.nextTrk }
    eng.ops := []
    fab := { s.fab with rx := [], past := [], tx := [], loads := [], gframes := [], gblocks := [] }
    expelled := []
    redirect := []
    err.faults := []
    err.fences := s.err.fences.filter fun u => decide (unitKind u ≠ 0xA)
    err.mgmt := s.err.mgmt.filter fun u => decide (unitKind u ≠ 0xA) }

/-- The pair under a new record (R273, R275, R276). -/
def newPair (c : Comp) (s : State) : State :=
  let twin := ((c.modules.find? (·.module = c.me)).map (·.twin)).getD 0xFF
  setPair (if twin = 0xFF then 0 else 1)
    { s with pair := { Pair.reset with st := s.pair.st, lanes := s.pair.lanes, twin := twin } }

/-- The apply step: working state goes, the record is installed. -/
def applyComp (c : Comp) (s : State) : State :=
  let s := settleStore (clearWork s)
  let old := s.fab.ports
  let s := newPair c { s with
    store := newStore c s
    fab.ports := newPorts c s
    comp := some c }
  let s := recPorts old s
  if s.power.st = .kickstand && s.power.kick = 3 then leaveKick s else s

/-! ### Switch (R36, R395, R424) -/

/-- The kept composition of a booted one. -/
def keptOf (c : Comp) (s : State) : Kept :=
  let runs := c.runs.filter fun u => decide (u.module = c.me)
  let mine (i : Nat) : Bool := runs.any fun r => r.has c.me.toNat i
  { runs := runs
    laps := (s.store.extents.filter fun x => x.mirrorOf.isNone && mine x.idx).map fun x => (x.idx, x.latest)
    pages := s.store.pages.filterMap fun p => match p.home with
      | some f => if frameTier s.store f = .flash && mine (extentOfPage p.n) then some (p.n, f) else none
      | none => none }

/-- The switch step: the epoch is in force, meters start anew, the odometer and the kept composition are written, the
command returns; then held requests are refused or applied. -/
def switchComp (o : Open) (old : BitVec 32) (d : Drain) (c : Comp) (s : State) : State :=
  let s := { s with
    compose := .idle
    drain := { d with done := true }
    prevTrip := if s.ever then some { s.trip with to_ := s.now } else s.prevTrip
    trip := Trip.start c.epoch s.now (c.riders.map (·.rider))
    ever := true
    issued := s.issued ++ [{ by_ := .record c.epoch, time := c.issued }]
    nv.kept := some (keptOf c s) }
  let s := writeRec { Rec.blank 0x0010 with arg0 := c.epoch.setWidth 64, arg1 := old } s
  retryHeldAll (completeIf o .ok 0 [] s)

def bootComp (o : Open) (d : Drain) (c : Comp) (s : State) : State :=
  switchComp o (epochNow s) d c (applyComp c (endRest o s))

/-- The drain is over (`COMPOSE_DRAINED`). -/
def composeDrained (s : State) : State :=
  match s.compose with
  | .draining o c =>
    let w : Scope := { rider := none, keep := o }
    if drained w s then bootComp o (drainNow w s) c s else s
  | _ => s

def execComposeDrained (s : State) : Out State := .next (whenUp s composeDrained)

/-- The drain limit of 250 ms expires: force, apply and switch. -/
def composeLimit (s : State) : State :=
  match s.compose with
  | .draining o c =>
    let w : Scope := { rider := none, keep := o }
    bootComp o { drainNow w s with forced := portMask (openPorts s) } c (forceOpen w .timeout s)
  | _ => s

def execComposeDrainLimit (s : State) : Out State := .next (whenUp s composeLimit)

/-! ### `RIDER_RESET` (R321) -/

/-- The rider's tiles are stopped and unloaded; a store of theirs that is held at ingress goes with its tile, so that none is
made under the translation that ends (R62). -/
def clearTiles (r : BitVec 6) (s : State) : State :=
  (s.tiles.filter fun x => x.prog.any (·.rider = r)).foldl (fun s x => unloadTile x.id s) s

/-- The rider's laps and its stage marks (R144). -/
def clearLaps (r : BitVec 6) (s : State) : State :=
  let s := forExts (s.store.extents.map (·.idx)) s fun i s => closeRead r i (abandonOwn r i s)
  releaseMark r true (releaseMark r false s)

/-- The rider's tree and what the translation units hold of it (R62). -/
def clearXlat (r : BitVec 6) (s : State) : State :=
  { s with
    xlat.roots := dropIf s.xlat.roots (·.1 = r)
    xlat.micro := dropIf s.xlat.micro (·.2.rider = r)
    xlat.tlb := dropIf s.xlat.tlb (·.rider = r)
    xlat.wcache := dropIf s.xlat.wcache (·.rider = r)
    xlat.walks := dropIf s.xlat.walks (·.rider = r)
    xlat.unmaps := dropIf s.xlat.unmaps (·.rider = r) }

/-- The sync objects granted to the rider (R192). -/
def clearSync (r : BitVec 6) (s : State) : State :=
  match riderEntry s r with
  | none => s
  | some e =>
    let mine (n : Nat) : Bool := decide (e.syncBase.toNat ≤ n) && decide (n < e.syncBase.toNat + e.syncCount.toNat)
    let objs := ((s.sync.vals.map (·.1)) ++ s.sync.waits.map (·.obj.toNat)).dedup
    (objs.filter mine).foldl (fun s n => syncZero n s) s

/-- The schedules of the rider's objects, with their copies (R83). -/
def clearScheds (r : BitVec 6) (s : State) : State :=
  (s.store.objects.filter fun o => decide (o.rider = r)).foldl (fun s o => removeSched o s) s

/-- Clear and free: the rider is as it was when its composition booted. -/
def clearRider (o : Open) (r : BitVec 6) (s : State) : State :=
  let s := clearScheds r (dropEmb (some r) (clearSync r (clearXlat r (clearLaps r (clearTiles r s)))))
  let s := { s with
    queues := dropIf s.queues (·.rider = r)
    rings := dropIf s.rings (·.rider = r)
    late := dropIf s.late (·.rider = r)
    resets := s.resets.erase r }
  completeIf o .ok 0 [] (retryHeldAll s)

/-- A reset that has not returned. -/
def tryReset (o : Open) (r : BitVec 6) (s : State) : State × Option Job :=
  if drained { rider := some r, keep := o } s then (clearRider o r s, none) else (s, some (.reset o r))

def bodyRiderReset : Body := fun c s =>
  let r := c.h.r
  if (riderEntry s r).isNone then Eff.stat .badParam s
  else
    let o := openOf 0x019 c
    Eff.later (addJob (tryReset o r { s with resets := s.resets ++ [r] }))

def execRiderReset (c : Cmd) (s : State) : Out State := .next (runPacket 0x019 c bodyRiderReset s)

/-- The rider's drain limit of 250 ms expires. -/
def resetLimit (r : BitVec 6) (s : State) : State :=
  match s.jobs.findSome? fun j => match j with | .reset o x => if x = r then some o else none | _ => none with
  | none => s
  | some o =>
    let s := { s with jobs := s.jobs.filter fun j => match j with | .reset _ x => decide (x ≠ r) | _ => true }
    clearRider o r (forceOpen { rider := some r, keep := o } .timeout s)

def execRiderResetDrainLimit (rider : BitVec 6) (s : State) : Out State := .next (whenUp s (resetLimit rider))

end Sys2Proof.Machine
end

