-- ==== Sys2Proof/Machine/Quorum.lean ====
section
/-! DEFINITION. Quorum orders (R284 to R290): `ADMIT`, `EXPEL`, and `MANAGER_KEYS` (R366). -/

namespace Sys2Proof.Machine

/-! ### Signatures (R284, R285) -/

/-- The signature entries that follow a `SIG_COUNT`: key slot and signature. -/
def sigEntries (b : List Byte) (off n : Nat) : List (Nat × List Byte) :=
  (entriesAt b off 2424 n).map fun e => (fieldB e 0 1, e.drop 4)

/-- Bytes 1 to 3 of each entry are zero. -/
def sigForm (b : List Byte) (off n : Nat) : Bool := (entriesAt b off 2424 n).all fun e => zeroB e 1 3

/-- The slots that signed a digest: each is counted once, others are ignored. -/
def signers (s : State) (digest : BitVec 256) (es : List (Nat × List Byte)) : Nat :=
  (((es.filter fun e => mgrSigOk s e.1 digest e.2).map (·.1)).dedup).length

/-- k distinct valid signatures; with no key registered nothing is signed. -/
def quorum (s : State) (digest : BitVec 256) (es : List (Nat × List Byte)) : Bool :=
  !s.nv.keys.isEmpty && decide (s.nv.k.toNat ≤ signers s digest es)

/-! ### Orders (R285, R286) -/

structure Order where
  kind   : Nat
  module : BitVec 8
  seq    : BitVec 32
  epoch  : BitVec 32
  issued : Word
  fps    : List Word

def parseOrder (b : List Byte) : Order :=
  { kind := fieldB b 4 1, module := BitVec.ofNat 8 (fieldB b 5 1), seq := BitVec.ofNat 32 (fieldB b 8 4)
    epoch := BitVec.ofNat 32 (fieldB b 0x0C 4), issued := BitVec.ofNat 64 (fieldB b 0x10 8), fps := words64 (fieldB b 6 1) (b.drop 0x40) }

/-- Check 1. -/
def orderForm (admits : Bool) (b : List Byte) : Bool :=
  let n := fieldB b 6 1
  let k := fieldB b (0x40 + 8 * n) 8
  let kind := fieldB b 4 1
  fieldB b 0 4 == 0x0D0EF064 && (if admits then kind == 1 else kind == 2 || kind == 3) && zeroB b 7 1 && zeroB b 0x18 40 &&
    decide (1 ≤ fieldB b 8 4) && decide (1 ≤ k) && decide (k ≤ 7) && b.length == 0x40 + 8 * n + 8 + 2424 * k &&
    sigForm b (0x48 + 8 * n) k &&
    (if admits then decide (1 ≤ n) && decide (n ≤ 64) && fieldB b 5 1 == 0xFF && fieldB b 0x0C 4 == 0 else n == 1)

/-- Check 3: the signed portion is the header and the fingerprint list. -/
def orderSigned (s : State) (b : List Byte) : Bool :=
  let n := 0x40 + 8 * fieldB b 6 1
  quorum s (Config.sha3 (b.take n)) (sigEntries b (n + 8) (fieldB b n 8))

/-- An accepted order: `LAST_ORDER` first, then its odometer record; `ISSUED_AT` is logged. -/
def acceptOrder (o : Order) (s : State) : State :=
  writeRec { Rec.blank 0x0011 with arg0 := o.seq.setWidth 64, arg1 := BitVec.ofNat 32 o.kind }
    { s with
      nv.lastOrder := o.seq
      issued := s.issued ++ [{ by_ := .order o.seq, time := o.issued }] }

/-! ### `ADMIT` (R287) -/

/-- The fingerprints an order adds. -/
def newFps (s : State) (o : Order) : List Word := (o.fps.filter fun f => !s.nv.members.contains f).dedup

def bodyAdmit : Body := fun c s =>
  let b := c.payload
  let o := parseOrder b
  withIdentity s
    (checked
      [(orderForm true b, .badParam), (decide (s.nv.lastOrder < o.seq), .auth), (orderSigned s b, .quorum),
        (decide (s.nv.members.length + (newFps s o).length ≤ 128), .busy)] s
      (let s := acceptOrder o s
       Eff.ok { s with nv.members := s.nv.members ++ newFps s o }))

def execAdmit (c : Cmd) (s : State) : Out State := .next (runPacket 0x683 c bodyAdmit s)

/-! ### `EXPEL` (R289, R290) -/

/-- The module to which the beat in progress of an operation goes. -/
def opDest (s : State) (o : EngOp) : Option Nat :=
  if !o.sent then none
  else
    let a := match o.reads[o.got]? with | some (a, _) => a | none => o.here
    match (cmdAddr s o.cmd.h a (decide (o.reads.length ≤ o.got))).1 with
    | .ok opa => match target s opa with | .module m => some m | _ => none
    | _ => none

def streamDest (s : State) (x : Tile) (z : Stream) : Option Nat :=
  if !(z.running && z.sent) then none
  else match x.prog with
    | some p => match xlatHit s (.stream x.id z.n) p.rider (z.beatVa z.next).toNat z.toStore with
      | some (opa, _) => match target s opa with | .module m => some m | _ => none
      | none => none
    | none => none

/-- Requests to a module number go to a module: to it, or to the twin that they have been redirected to (R290). -/
def goesTo (s : State) (m d : Nat) : Bool := d == m || s.redirect.any fun x => x.1.toNat == d && x.2.toNat == m

/-- The channels to a module of this peloton. -/
def chanTo (s : State) (m : Nat) (c : Chan) : Bool := c.peloton.toNat == s.peloton && goesTo s m c.dst.toNat

/-- Every outstanding request to a module completes with `OWNER_LOST`; its channels are closed (R289 item 3). -/
def loseOwner (m : Nat) (s : State) : State :=
  let cs := s.fab.tx.filter (chanTo s m)
  let s := { s with fab.tx := dropIf s.fab.tx (chanTo s m) }
  let s := cs.foldl (fun s c => c.unacked.foldl (fun s u => endUnacked u (some .ownerLost) s) s) s
  let ls := s.fab.loads.filter fun l => l.peloton.toNat == s.peloton && goesTo s m l.dst.toNat
  let s := ls.foldl (fun s l => failLoad l .ownerLost s) s
  let ops := s.eng.ops.filter fun o => (opDest s o).any (goesTo s m)
  let zs := s.tiles.flatMap fun x => (x.streams.filter fun z => (streamDest s x z).any (goesTo s m)).map fun z => (x.id, z.n)
  let s := ops.foldl (fun s o => failOp o .ownerLost o.here s) s
  zs.foldl (fun s z => failStream z.1 z.2 .ownerLost s) s

/-- Requests to an expelled module go to its twin from now on: what is outstanding is sent there (R290). -/
def redirectTo (m : Nat) (twin : BitVec 8) (s : State) : State :=
  let s := { s with redirect := s.redirect ++ [(BitVec.ofNat 8 m, twin)] }
  let cs := s.fab.tx.filter (chanTo s m)
  let s := cs.foldl (fun s c =>
    let again (u : Unacked) : Unacked := { u with port := portFor s c.peloton.toNat c.dst.toNat (opaOffset u.pkt.opa) }
    let c : Chan := { c with unacked := c.unacked.map again }
    c.unacked.foldl (fun s u => if u.port.isSome then sendPkt c.peloton.toNat c.dst.toNat u.port u.pkt s else s) (setChan c s)) s
  (s.fab.loads.filter fun l => l.peloton.toNat == s.peloton && l.dst.toNat == m).foldl (fun s l => resendLoad l s) s

/-- The expelled module parks (R289). -/
def park (o : Open) (s : State) : State :=
  let s := forceOpen { rider := none, keep := o } .ownerLost s
  let s := endEngines { rider := none, keep := o } true .ownerLost s
  let hs := s.held
  let s := hs.foldl (fun s h => endHeld h .ownerLost s) { s with held := [] }
  setPair 8 (enterKick 3 (unloadAll s))

/-- The effects of an expel of module L on another module. -/
def expelOther (o : Order) (fp : Word) (twin : BitVec 8) (s : State) : State :=
  let m := o.module.toNat
  let was := s.expelled.contains o.module
  let mine := s.twinNo == m
  let s := { s with nv.members := s.nv.members.erase fp }
  let s := embLost m s
  if o.kind = 2 then
    let s := loseOwner m s
    let s := { s with
      expelled := if was then s.expelled else s.expelled ++ [o.module]
      redirect := dropIf s.redirect (·.1 = o.module) }
    if mine then setPair 5 (endMirror s) else s
  else
    let s := if mine then s else redirectTo m twin s
    let s := { s with expelled := if was then s.expelled else s.expelled ++ [o.module] }
    if mine then takeOver false s else s

/-- Checks 4 and 5 of an expel: the module entry it names. -/
def expelEntry (s : State) (o : Order) : Option ModEntry :=
  match s.comp with
  | some c => c.modules.find? fun m => m.module = o.module && some m.fp == o.fps.head?
  | none => none

def expelOk (s : State) (o : Order) : Bool :=
  match expelEntry s o with
  | some m => decide (o.kind ≠ 3) || (m.twin ≠ 0xFF && !s.expelled.contains m.twin)
  | none => false

def bodyExpel : Body := fun c s =>
  let b := c.payload
  let o := parseOrder b
  withIdentity s
    (checked
      [(orderForm false b, .badParam), (decide (s.nv.lastOrder < o.seq), .auth), (orderSigned s b, .quorum),
        (decide (o.epoch = epochNow s), .staleMap), (expelOk s o, .badParam)] s
      (let s := acceptOrder o s
       match expelEntry s o with
       | none => Eff.ok s
       | some m => Eff.ok (if o.module.toNat = s.me then park (openOf 0x682 c) s else expelOther o m.fp m.twin s)))

def execExpel (c : Cmd) (s : State) : Out State := .next (runPacket 0x682 c bodyExpel s)

/-! ### `MANAGER_KEYS` (R366) -/

def keySlots (b : List Byte) : List Nat := (List.range 7).filter fun i => bit (BitVec.ofNat 8 (fieldB b 4 1)) i

/-- Check 1. -/
def keysForm (b : List Byte) : Bool :=
  let n := (keySlots b).length
  let k := fieldB b 5 1
  let sigs := fieldB b 0x2400 8
  fieldB b 0 4 == 0x0E0EF064 && decide (fieldB b 4 1 < 128) && n != 1 &&
    (if n = 0 then k == 0 else decide (2 ≤ k) && decide (k ≤ n)) && zeroB b 6 2 && zeroB b 0x0C 12 &&
    ((List.range 7).all fun i => (keySlots b).contains i || zeroB b (0x20 + 1312 * i) 1312) && decide (sigs ≤ 7) &&
    b.length == 0x2408 + 2424 * sigs && sigForm b 0x2408 sigs

/-- Check 3: the first-installation rule, or the signatures counted against the installed set. -/
def keysSigned (s : State) (b : List Byte) : Bool :=
  if s.nv.keys.isEmpty then !s.ever
  else quorum s (Config.sha3 (b.take 0x2400)) (sigEntries b 0x2408 (fieldB b 0x2400 8))

def bodyManagerKeys : Body := fun c s =>
  let b := c.payload
  let seq := BitVec.ofNat 32 (fieldB b 8 4)
  withIdentity s
    (checked
      [(keysForm b, .badParam), (decide (s.nv.setSeq < seq), .auth), (keysSigned s b, .quorum)] s
      (Eff.ok (writeRec { Rec.blank 0x0012 with arg0 := 9, arg1 := seq } { s with
        nv.keys := (keySlots b).map fun i => (i, sliceB b (0x20 + 1312 * i) 1312)
        nv.k := BitVec.ofNat 4 (fieldB b 5 1)
        nv.setSeq := seq
        issued := s.issued ++ [{ by_ := .keys seq, time := BitVec.ofNat 64 (fieldB b 0x18 8) }] })))

def execManagerKeys (c : Cmd) (s : State) : Out State := .next (runPacket 0x684 c bodyManagerKeys s)

end Sys2Proof.Machine
end

