-- ==== Sys2Proof/Machine/Firmware.lean ====
section
/-! DEFINITION. Firmware images, staging and activation, trial, the configuration block, compartment restarts, Headset
failover, and the boot with its recovery image (R348 to R369). -/

namespace Sys2Proof.Machine

/-! ### Images (R350 to R352) -/

/-- A TYPE 0x0012 record (R369). -/
def recFw (event : Nat) (value : BitVec 32) (s : State) : State :=
  writeRec { Rec.blank 0x0012 with arg0 := BitVec.ofNat 64 event, arg1 := value } s

/-- A slot number as a record carries it. -/
def slotArg (b : Bool) : BitVec 32 := if b then 1 else 0

def fwSlot (s : State) (b : Bool) : Slot := if b then s.nv.slotB else s.nv.slotA

/-- `CORE` of a component (R351). -/
def coreOf (component : Nat) : BitVec 8 :=
  if component ≤ 2 then 0 else if component = 3 then 1 else if component = 4 then 2 else 3

/-- The six components of the factory image; its `SVN` is the first `ROLLBACK_SVN` (R419). -/
def factoryImage : List Measure :=
  (seqFrom 1 6).map fun i =>
    { component := BitVec.ofNat 16 i, core := coreOf i, svn := 1, version := Config.factoryVersion
      digest := Config.factoryDigest i }

def imageTop : Nat := 50331648

/-- The image header passes the table of R351. -/
def imageHeaderOk (b : List Byte) : Bool :=
  fieldB b 0 4 == 0x1F0AF064 && fieldB b 4 2 == 1 && fieldB b 6 2 == 6 && decide (fieldB b 8 4 ≤ imageTop) && zeroB b 0x18 40

/-- A component header passes the table: `SVN` and `VERSION` are the image's. -/
def componentHeaderOk (img b : List Byte) : Bool :=
  fieldB b 0 4 == 0x1F0CF064 && decide (1 ≤ fieldB b 4 2) && decide (fieldB b 4 2 ≤ 6) && decide (fieldB b 6 2 ≤ 3) &&
    decide (fieldB b 8 4 ≤ 8388608) && fieldB b 0x0C 4 == fieldB img 0x0C 4 && fieldB b 0x10 8 == fieldB img 0x10 8 &&
    zeroB b 0x18 40

/-- The component that starts at an offset, and where the next one starts. -/
def component (s : State) (x : Slot) (img key : List Byte) (pos : Nat) : Option (Measure × Nat) :=
  let h := memReadN x.cells pos 64
  let n := fieldB h 8 4
  let stop := pos + 64 + n + 2424
  if !componentHeaderOk img h || fieldB img 8 4 < stop then none
  else
    let digest := Config.sha3 (memReadN x.cells pos (64 + n))
    let sig := memReadN x.cells (pos + 64 + n) 2424
    if !sigOk s key digest (sigBytes sig) || !zeroB sig 2420 4 then none
    else
      some ({ component := BitVec.ofNat 16 (fieldB h 4 2), core := BitVec.ofNat 8 (fieldB h 6 2)
              svn := BitVec.ofNat 32 (fieldB h 0x0C 4), version := BitVec.ofNat 64 (fieldB h 0x10 8), digest := digest },
        (stop + 4095) / 4096 * 4096)

def components (s : State) (x : Slot) (img key : List Byte) : Nat → Nat → Option (List Measure)
  | 0, _ => some []
  | n + 1, pos =>
    match component s x img key pos with
    | none => none
    | some (m, next) => (components s x img key n next).map (m :: ·)

/-- The components of a valid slot in their order, or none (R352). -/
def imageOf (s : State) (x : Slot) : Option (List Measure) :=
  let ms :=
    if x.factory then some factoryImage
    else
      let img := memReadN x.cells 0 64
      let key := memReadN x.cells 64 1312
      if !imageHeaderOk img || Config.sha3 key ≠ s.env.romDigest then none
      else (components s x img key 6 4096).map (sortBy fun m => m.component.toNat)
  match ms with
  | some l =>
    if l.map (·.component.toNat) == seqFrom 1 6 && l.all (fun m => decide (s.nv.rollbackSvn.toNat ≤ m.svn.toNat)) then some l
    else none
  | none => none

def slotValid (s : State) (b : Bool) : Bool := (imageOf s (fwSlot s b)).isSome

/-- The components that start at a boot: without flash the flash component runs nowhere (R3). -/
def bootParts (s : State) : List Nat := if Config.hasFlash s.variant then seqFrom 1 6 else seqFrom 1 5

/-- Components of an image start: each is measured (R354). -/
def startParts (ms : Option (List Measure)) (parts : List Nat) (s : State) : State :=
  parts.foldl (fun s n => match (ms.getD []).find? (·.component.toNat == n) with
    | some m => measure m s
    | none => s) s

/-! ### Staging (R356) -/

/-- The slot of an activation that is deferred or in progress. -/
def actSlot (s : State) : Option Bool := if s.fw.act.st = 1 || s.fw.act.st = 2 then some s.fw.act.slot else none

/-- A piece written into a slot; offset 0 erases the slot first. -/
def Slot.write (x : Slot) (off : Nat) (bs : List Byte) : Slot :=
  { factory := false, cells := memWriteN (if off = 0 then [] else x.cells) off bs }

def bodyFwStage : Body := fun c s =>
  let slot := (c.p 0).toNat
  let off := (c.p 1).toNat
  let size := if slot = 2 then 524288 else imageTop
  if 3 ≤ slot || off % 4096 ≠ 0 || size < off + c.payload.length then Eff.stat .badParam s
  else if slot = 2 then Eff.ok { s with nv.staging := s.nv.staging.write off c.payload }
  else
    let b := slot == 1
    if s.nv.activeSlot == b || actSlot s == some b then Eff.stat .busy s
    else if b then Eff.ok { s with nv.slotB := s.nv.slotB.write off c.payload }
    else Eff.ok { s with nv.slotA := s.nv.slotA.write off c.payload }

def execFwStage (c : Cmd) (s : State) : Out State := .next (runPacket 0x500 c bodyFwStage s)

/-! ### The configuration block (R357, R361) -/

/-- No reserved field of the staged block is set, and its settings lie in their ranges. -/
def configForm (b : List Byte) : Bool :=
  let set := sliceB b 64 64
  let signer := fieldB b 0x0C 1
  fieldB b 0 4 == 0x1F0BF064 && fieldB b 4 4 == 128 && (signer == 0xFF || decide (signer ≤ 6)) && zeroB b 0x0D 51 &&
    policyForm set && fieldB set 0 1 == 0 && fieldB set 16 4 == 0 && zeroB b (128 + 2420) 4

/-- A block of 64 header bytes, 64 bytes of settings and its signature. -/
def parseConfig (b : List Byte) : ConfigBlock :=
  { policy := parsePolicy (sliceB b 64 64), seq := BitVec.ofNat 32 (fieldB b 8 4), signer := BitVec.ofNat 8 (fieldB b 0x0C 1)
    digest := Config.sha3 (b.take 128), sig := sigBytes (sliceB b 128 2424), factory := false }

/-- The signature verifies under the key that `SIGNER` names. -/
def configSigned (s : State) (b : ConfigBlock) : Bool :=
  b.factory || (if b.signer = 0xFF then balnelOk s b.digest b.sig else mgrSigOk s b.signer.toNat b.digest b.sig)

/-- `FW_ACTIVATE` of slot 2: the block in the staging area is verified and written. -/
def installConfig (s : State) : Eff :=
  let b := memReadN s.nv.staging.cells 0 (128 + 2424)
  let x := parseConfig b
  checked [(configForm b, .badParam), (configSigned s x, .auth), (decide (s.nv.configSeq < x.seq), .auth)] s
    (Eff.ok { s with
      nv.config := some x
      nv.configSeq := x.seq })

/-! ### Activation (R357 to R360) -/

/-- The steps of R358 start; without a ready standby the standby step is skipped (R360). -/
def beginAct (slot : Bool) (cmd : Option Open) (revert : Bool) (s : State) : State :=
  let ready := s.fw.standby
  { s with
    fw.standby := false
    fw.act :=
      { st := 2, slot := slot, prior := !slot, step := if ready then 1 else 2, cores := 0, cmd := cmd, revert := revert
        waiting := false, skip := false, since := s.now } }

/-- An activation of a new image starts: it is recorded. -/
def startAct (slot : Bool) (cmd : Option Open) (s : State) : State := beginAct slot cmd false (recFw 3 (slotArg slot) s)

/-- The module returns to the previous slot by the same steps (R358); a slot that is not valid any more is not run. -/
def revertTrial (s : State) : State :=
  if slotValid s (!s.nv.activeSlot) then beginAct (!s.nv.activeSlot) none true s
  else recFw 5 (slotArg (!s.nv.activeSlot)) s

/-- `FW_ACTIVATE` (R357). -/
def bodyFwActivate : Body := fun c s =>
  let n := (c.p 0).toNat
  if 3 ≤ n then Eff.stat .badParam s
  else if n = 2 then installConfig s
  else
    let slot := n == 1
    let a := s.fw.act
    if !slotValid s slot then Eff.stat .auth s
    else if s.nv.activeSlot == slot then
      Eff.ok (if a.st = 1 then { s with fw.act := Act.none } else s)
    else if a.st = 2 || a.st = 3 || composing s then Eff.stat .busy s
    else if emergency s then
      Eff.stat .deferred { s with fw.act := { Act.none with st := 1, slot := slot, prior := !slot } }
    else Eff.later (startAct slot (some (openOf 0x501 c)) s)

def execFwActivate (c : Cmd) (s : State) : Out State := .next (runPacket 0x501 c bodyFwActivate s)

/-- An event of the running firmware, the recovery image's too. -/
def whenFw (s : State) (f : State → State) : State :=
  if s.phase = .running || s.phase = .recoveryImage then f s else s

/-- No emergency is in force and the module is in Cruise. -/
def calm (s : State) : Bool := !emergency s && decide (s.power.st = .cruise)

/-- A deferred activation starts; it is dropped when its slot has become invalid (R357). -/
def startDeferred (s : State) : State :=
  if s.fw.act.st ≠ 1 || !calm s then s
  else if slotValid s s.fw.act.slot then startAct s.fw.act.slot none s
  else recFw 5 (slotArg s.fw.act.slot) { s with fw.act := Act.none }

def execDeferredActivationStart (s : State) : Out State := .next (whenFw s startDeferred)

/-- The policy of the configuration block, or the defaults where it does not verify at the boot, by the keys installed then
(R361, R381). -/
def bootConfig (s : State) : State :=
  match s.nv.config.filter fun b => configSigned s b && decide (b.seq = s.nv.configSeq) with
  | some b => { s with power.policy := b.policy }
  | none => recFw 7 2 { s with power.policy := Policy.default }

/-- The release step: the new slot is active, in trial, and held commands proceed; a return to the previous slot is
recorded (R358). -/
def release (s : State) : State :=
  let a := s.fw.act
  let s := if s.phase = .recoveryImage then bootConfig s else s
  let s := { s with
    phase := .running
    nv.activeSlot := a.slot
    nv.trial := !a.revert
    nv.trialBoots := 0
    fw.act := { Act.none with st := if a.revert then 4 else 3, slot := a.slot, prior := a.prior } }
  let s := if a.revert then recFw 5 (slotArg a.prior) s else s
  match a.cmd with
  | some o => completeIf o .ok 0 [] s
  | none => s

/-- The wheel and flash cores of the module: without flash the Saddlebags are powered down (R3). -/
def coreCount (s : State) : Nat := if Config.hasFlash s.variant then 20 else 16

/-- The core that restarts at a step has started its component. -/
def coreStarted (s : State) : State :=
  let a := s.fw.act
  let ms := imageOf s (fwSlot s a.slot)
  if a.step = 1 then startParts ms [2, 3, 4] s
  else if a.step = 2 then
    (if a.cores = 0 then startParts ms [5] s else if a.cores = 16 then startParts ms [6] s else s)
  else startParts ms [if a.cores = 0 then 2 else if a.cores = 1 then 4 else 3] s

/-- An emergency has begun since the activation did (R359). -/
def shaken (s : State) : Bool := s.power.emergAt.any fun t => decide (s.fw.act.since.toNat ≤ t.toNat)

/-- The next step of R358. The power core restarts only while no emergency is in force; one that began during the earlier
steps holds it too (R359). -/
def nextStep (s : State) : State :=
  let a := s.fw.act
  if a.step = 1 then { s with
    fw.standby := true
    fw.act := { a with step := 2, cores := 0 } }
  else if a.step = 2 then
    (if a.cores + 1 < coreCount s then { s with fw.act.cores := a.cores + 1 }
     else if a.skip then release s
     else { s with fw.act := { a with step := 3, cores := 0 } })
  else if a.cores = 0 then { s with fw.act.cores := 1 }
  else if a.cores = 1 then { s with fw.act := { a with cores := 2, waiting := emergency s || shaken s } }
  else release s

/-- A restart step of an activation is done, or its self-test fails: the module returns to the previous slot (R358). -/
def stepDone (ok : Bool) (s : State) : State :=
  let a := s.fw.act
  if a.st ≠ 2 || a.waiting then s
  else if ok then nextStep (coreStarted s)
  else if a.revert then s
  else beginAct (!a.slot) a.cmd true (if a.step = 1 then { s with fw.standby := true } else s)

def execFwActivationStepDone (ok : Bool) (s : State) : Out State := .next (whenFw s (stepDone ok))

/-- An activation held at its primary step goes on (R359). -/
def execActivationPrimaryResume (s : State) : Out State :=
  .next (whenFw s fun s =>
    if s.fw.act.st = 2 && s.fw.act.waiting && calm s then { s with fw.act.waiting := false } else s)

/-- Commands that firmware interprets and that are still open 250 ms after the hold step complete with `TIMEOUT`. -/
def holdLimit (s : State) : State :=
  if s.fw.act.st ≠ 2 || s.fw.act.step < 2 then s
  else
    let js := s.jobs.filter waitsTurn
    let s := endCmds { rider := none, keep := selfOpen } .timeout { s with jobs := dropIf s.jobs waitsTurn }
    let s := (js.filterMap jobCmd).foldl (fun s o => completeIf o .timeout 0 [] s) s
    let ts := s.time.waiting
    let cs := s.err.checks
    let p := s.pair.cmd
    let s := { s with
      time.waiting := []
      err.checks := []
      pair.cmd := none }
    let s := ts.foldl (fun s w => completeIf w.1 .timeout 0 [] s) s
    let s := cs.foldl (fun s x => completeIf x.cmd .timeout 0 [] s) s
    match p with
    | some o => completeIf o .timeout 0 [] s
    | none => s

def execActivationHoldLimit (s : State) : Out State := .next (whenFw s holdLimit)

/-- 10 s without a watchdog expiry, every core past its self-test: the image is confirmed (R358). -/
def confirmTrial (s : State) : State :=
  if s.fw.act.st ≠ 3 then s
  else
    let svn := match imageOf s (fwSlot s s.nv.activeSlot) with
      | some (m :: _) => m.svn
      | _ => s.nv.rollbackSvn
    let s := { s with
      nv.rollbackSvn := if s.nv.rollbackSvn < svn then svn else s.nv.rollbackSvn
      nv.trial := false
      nv.trialBoots := 0
      fw.act := Act.none }
    recFw 4 s.nv.rollbackSvn s

def execTrialConfirmation (s : State) : Out State := .next (whenFw s confirmTrial)

/-! ### Failover (R367) -/

/-- Both Headsets have failed: the package stops; an activation that was in progress is rejected at the next boot
(R360). -/
def packageStops (s : State) : State :=
  { s with
    phase := .stopped
    fw.standby := false
    nv.aborted := if s.fw.act.st = 2 && !s.fw.act.revert then some s.fw.act.slot else s.nv.aborted }

/-- The acting primary fails: the standby takes its place, the Axfotik lanes move and retrain (R367); an activation past its
standby step goes on without its primary step (R360). -/
def failover (s : State) : State :=
  let a := s.fw.act
  if !s.fw.standby then packageStops s
  else
    let s := alert 5 (recFw 6 0 { s with
      fw.failedOver := true
      fw.standby := false
      port.lanes := [false, false] })
    if a.st ≠ 2 then s
    else if a.step = 3 then release s
    else { s with fw.act.skip := true }

/-- A Headset fails: the acting primary, or the standby (R367). -/
def headsetFails (h : Nat) (s : State) : State :=
  if h = actingHeadset s then failover s
  else if s.fw.standby || (s.fw.act.st = 2 && s.fw.act.step = 1) then
    { s with
      fw.standby := false
      fw.act := if s.fw.act.st = 2 && s.fw.act.step = 1 then { s.fw.act with step := 2, cores := 0 } else s.fw.act }
  else s

/-- The Headset a core is part of. -/
def coreHeadset : FwCore → Option Nat
  | .security h => some h.val
  | .power h => some h.val
  | .scheduler h => some h.val
  | .wheel _ => none
  | .flash _ => none

/-- The component a core runs (R351). -/
def coreComponent : FwCore → Nat
  | .security _ => 2
  | .power _ => 3
  | .scheduler _ => 4
  | .wheel _ => 5
  | .flash _ => 6

/-- The core is one of this variant's, and its Headset is in service. -/
def coreRuns (s : State) (c : FwCore) : Bool :=
  match c with
  | .flash _ => Config.hasFlash s.variant
  | .wheel _ => true
  | c => (coreHeadset c) == some (actingHeadset s) || (s.fw.standby && !s.fw.failedOver)

/-- A core of an activation that has restarted already runs the new image. -/
def coreIsNew (a : Act) (c : FwCore) (acting : Nat) : Bool :=
  decide (a.st = 2) && (match c with
    | .wheel w => decide (3 ≤ a.step) || (a.step == 2 && decide (w.val < a.cores))
    | .flash k => decide (3 ≤ a.step) || (a.step == 2 && decide (16 + k.val < a.cores))
    | .security h => decide (2 ≤ a.step) && (h.val ≠ acting || (a.step == 3 && decide (1 ≤ a.cores)) || a.skip)
    | .scheduler h => decide (2 ≤ a.step) && (h.val ≠ acting || (a.step == 3 && decide (2 ≤ a.cores)) || a.skip)
    | .power h => decide (2 ≤ a.step) && (h.val ≠ acting || a.skip))

/-- The image a core runs. -/
def imageOfCore (s : State) (c : FwCore) : Option (List Measure) :=
  if coreIsNew s.fw.act c (actingHeadset s) then imageOf s (fwSlot s s.fw.act.slot)
  else if s.phase = .recoveryImage then imageOf s { factory := false, cells := cellsOf 0 s.fw.recBytes }
  else imageOf s (fwSlot s s.nv.activeSlot)

/-- A second expiry within 1 s (R335, trigger 0x03; R367). -/
def coreFails (c : FwCore) (s : State) : State :=
  match c with
  | .wheel w => fenceUnit (unitChainring w.val) 3 s
  | .flash k => fenceUnit (unitSaddlebag k.val) 3 s
  | c => match coreHeadset c with
    | some h => headsetFails h s
    | none => s

/-- A core's watchdog expires: its compartment restarts from its verified copy (R355), an image in trial goes back to the
previous slot (R358), and a second expiry within 1 s takes the core out of service. -/
def watchdog (c : FwCore) (compartment : BitVec 32) (s : State) : State :=
  if !coreRuns s c then s
  else
    let again := match lookupK s.fw.wdog c with
      | some t => decide (s.now.toNat < t.toNat + 1000000000)
      | none => false
    let s := startParts (imageOfCore s c) [coreComponent c] (recFw 8 compartment s)
    let s := { s with fw.wdog := setK s.fw.wdog c s.now }
    let s := if s.fw.act.st = 3 then revertTrial s else s
    if again then coreFails c s else s

def execFirmwareWatchdogExpiry (core : FwCore) (compartment : BitVec 32) (s : State) : Out State :=
  .next (whenFw s (watchdog core compartment))

/-- Trigger 0x02: a hop of the package interconnect fails and does not retrain: its die is fenced; a Headset fails over. -/
def hopFails (u : BitVec 16) (s : State) : State :=
  if !unitExists s u then s
  else match unitKind u with
    | 2 => fenceUnit u 2 s
    | 3 => fenceUnit u 2 s
    | 4 => fenceUnit u 2 s
    | 7 => (seqFrom (unitIdx u / 3 * 3) 3).foldl (fun s p => fenceUnit (unitPort p) 2 s) s
    | 8 => fenceUnit u 2 s
    | 9 => fenceUnit u 2 s
    | 0xB => headsetFails (unitIdx u) s
    | _ => s

def execInterconnectHopFailure (unit : BitVec 16) (s : State) : Out State := .next (whenFw s (hopFails unit))

/-! ### Boot (R349, R353, R354, R365) -/

/-- Counters and identity, at 1 ms. -/
def bootIdentity (b : BootInfo) (s : State) : State :=
  let s := { s with
    nv.bootCount := if b.countersOk then s.nv.bootCount + 1 else s.nv.bootCount
    fw.identity := b.pufOk && b.countersOk }
  if s.fw.identity then s else recFw 7 1 s

/-- An activation cut by the failure of both Headsets (R360). -/
def bootAborted (s : State) : State :=
  match s.nv.aborted with
  | some b => recFw 5 (slotArg b) { s with nv.aborted := none }
  | none => s

/-- Slot control: a trial boot is counted, and after three the previous slot is active again; an invalid active slot gives
way to the other (R353, R358). False: both slots are invalid. -/
def bootSlot (s : State) : Bool × State :=
  let s :=
    if !s.nv.trial then s
    else if 3 ≤ s.nv.trialBoots.toNat then
      recFw 5 (slotArg s.nv.activeSlot) { s with
        nv.activeSlot := !s.nv.activeSlot
        nv.trial := false
        nv.trialBoots := 0
        fw.act := { Act.none with st := 4, slot := !s.nv.activeSlot, prior := s.nv.activeSlot } }
    else { s with
      nv.trialBoots := s.nv.trialBoots + 1
      fw.act := { Act.none with st := 3, slot := s.nv.activeSlot, prior := !s.nv.activeSlot } }
  if slotValid s s.nv.activeSlot then (true, s)
  else
    let s := recFw 5 (slotArg s.nv.activeSlot) s
    if slotValid s (!s.nv.activeSlot) then
      (true, { s with
        nv.activeSlot := !s.nv.activeSlot
        nv.trial := false
        nv.trialBoots := 0
        fw.act := if s.nv.trial then { Act.none with st := 4, slot := !s.nv.activeSlot, prior := s.nv.activeSlot }
                  else s.fw.act })
    else (false, s)

/-- Units that fail training or self-test are fenced: trigger 0x04 for a memory, 0x09 for a flash cluster (R335). -/
def bootFences (us : List (BitVec 16)) (s : State) : State :=
  us.foldl (fun s u =>
    if unitKind u = 9 then (if unitExists s u then mountFails (unitIdx u) s else s)
    else fenceUnit u (if unitKind u = 5 || unitKind u = 6 then 4 else 0) s) s

/-- Firmware of a slot runs. -/
def startFirmware (ms : Option (List Measure)) (b : BootInfo) (s : State) : State :=
  let s := bootFences b.failedUnits (bootConfig (startParts ms (bootParts s) s))
  { s with
    phase := .running
    fw.standby := b.standbyReady }

/-- The ROM waits for a recovery image. -/
def awaitRecovery (b : BootInfo) (s : State) : State := { bootFences b.failedUnits s with phase := .recoveryRom }

/-- The boot of R353, from the release of reset to the first `HELLO`. -/
def bootUp (b : BootInfo) (s : State) : State :=
  let s := bootAborted (bootIdentity b (recFw 1 s.cause s))
  if !s.side.sampled.recoveryN then awaitRecovery b s
  else match bootSlot s with
    | (true, s) => startFirmware (imageOf s (fwSlot s s.nv.activeSlot)) b s
    | (false, s) =>
      awaitRecovery b { s with
        power.st := .kickstand
        power.kick := 4 }

def execBoot (b : BootInfo) (s : State) : Out State := .next (if s.phase = .released then bootUp b s else s)

/-! ### The recovery image (R353, R354, R409, R410) -/

/-- A piece of the recovery image: the answer, and the assembly after it. -/
def recoveryPiece (offset length : Nat) (last : BitVec 8) (rsv : BitVec 56) (data : List Byte) (s : State) : Status × State :=
  if s.phase ≠ .recoveryRom then (.busy, s)
  else if offset % 4096 ≠ 0 || length = 0 || 4096 < length || 1 < last.toNat || rsv ≠ 0 || data.length ≠ length then
    (.badParam, s)
  else if offset ≠ s.fw.recBytes.length then (.badParam, { s with fw.recBytes := [] })
  else
    let bs := s.fw.recBytes ++ data
    if last = 0 then (.ok, { s with fw.recBytes := bs })
    else match imageOf s { factory := false, cells := cellsOf 0 bs } with
      | none => (.auth, { s with fw.recBytes := [] })
      | some ms =>
        let (code, s) := takeFree s
        let s := writeRec { Rec.blank 0x0012 with arg0 := code } (startParts (some ms) (bootParts s) s)
        let s := if s.power.st = .kickstand && s.power.kick = 4 then leaveKick s else s
        (.ok, { s with
          phase := .recoveryImage
          fw.recBytes := bs })

def execRecoveryPiece (offset length : BitVec 32) (last : BitVec 8) (rsv : BitVec 56) (data : List Byte) (s : State) :
    Out State :=
  .next (
    if s.phase = .off && !s.side.aux then s
    else
      let (st, s) := recoveryPiece offset.toNat length.toNat last rsv data s
      emit (.sideband 0x82 st []) s)

end Sys2Proof.Machine
end

