-- ==== Sys2Proof/Machine/Sideband.lean ====
section
/-! DEFINITION. The sideband bridge, JTAG, the straps and the Axfotik lanes (R295, R402, R405 to R412). -/

namespace Sys2Proof.Machine

/-- The sideband bridge has a supply (R402, R410). -/
def bridgeUp (s : State) : Bool := s.side.aux || decide (s.phase ≠ .off)

def whenBridge (s : State) (f : State → State) : State := if bridgeUp s then f s else s

/-! ### Raw odometer reads (R345, R409) -/

/-- How often the ring position has been written: the number of its last record in the order of writing, if there is one. -/
def odoLast (s : State) (p : Nat) : Option Nat :=
  let n := s.nv.odoPos
  let a := if p < n % 131072 then n / 131072 * 131072 + p else n / 131072 * 131072 + p - 131072
  if p < n % 131072 || 131072 ≤ n then some a else none

/-- 64 free bytes: what a write that failed left. -/
def freeRecord (s : State) : List Byte × State :=
  (List.range 8).foldl (fun acc _ =>
    let (w, s) := takeFree acc.2
    (acc.1 ++ wordBytes w, s)) ([], s)

/-- The raw bytes of a ring position: a position never written reads zero (notes/assumptions/56.md). -/
def odoRaw (s : State) (p : Nat) : List Byte × State :=
  match odoLast s p with
  | none => (zeros 64, s)
  | some a =>
    if s.nv.odoBad.contains a then freeRecord s
    else match s.nv.odometer.recs[a - (s.nv.odoPos - s.nv.odometer.recs.length)]? with
      | some r => (r.bytes, s)
      | none => (zeros 64, s)

/-- `KIND` 0x03: `COUNT` raw records from a position, wrapping at 131,072. -/
def odoRead (position count : Nat) (s : State) : State :=
  if 131072 ≤ position || count = 0 || 64 < count then emit (.sideband 0x83 .badParam []) s
  else
    let (bs, s) := (seqFrom position count).foldl (fun acc p =>
      let (b, s) := odoRaw acc.2 (p % 131072)
      (acc.1 ++ b, s)) ([], s)
    emit (.sideband 0x83 .ok bs) s

def execOdometerRawRead (position count : BitVec 32) (s : State) : Out State :=
  .next (whenBridge s (odoRead position.toNat count.toNat))

/-! ### MCTP control and I3C (R407, R408) -/

/-- Set Endpoint ID: a unicast EID is taken (DSP0236: 0x08 to 0xFE); any other is refused. -/
def setEid (eid : BitVec 8) (s : State) : State :=
  if eid.toNat < 8 || eid = 0xFF then emit (.mctp "SET_ENDPOINT_ID" [2, s.side.eid.toNat]) s
  else emit (.mctp "SET_ENDPOINT_ID" [0, eid.toNat]) { s with side.eid := eid }

def execSetEndpointId (eid : BitVec 8) (s : State) : Out State := .next (whenBridge s (setEid eid))

def execGetEndpointId (s : State) : Out State :=
  .next (whenBridge s fun s => emit (.mctp "GET_ENDPOINT_ID" [0, s.side.eid.toNat]) s)

/-- Get MCTP Version Support: 1.3 for the base and the control messages; a message type that is not supported has
completion code 0x80 (DSP0236). -/
def mctpVersion (ty : BitVec 8) (s : State) : State :=
  if ty = 0xFF || ty = 0 then emit (.mctp "GET_MCTP_VERSION_SUPPORT" [0, 1, 3]) s
  else emit (.mctp "GET_MCTP_VERSION_SUPPORT" [0x80]) s

def execGetMctpVersionSupport (msgType : BitVec 8) (s : State) : Out State := .next (whenBridge s (mctpVersion msgType))

/-- Get Message Type Support: message type 0x7F. -/
def execGetMessageTypeSupport (s : State) : Out State :=
  .next (whenBridge s fun s => emit (.mctp "GET_MESSAGE_TYPE_SUPPORT" [0, 1, 0x7F]) s)

/-- Get Vendor Defined Message Support: one vendor, the IANA enterprise number of R409. -/
def vendorSupport (selector : BitVec 8) (s : State) : State :=
  if selector = 0 then emit (.mctp "GET_VENDOR_DEFINED_MESSAGE_SUPPORT" [0, 0xFF, 1, 0xF064, 0]) s
  else emit (.mctp "GET_VENDOR_DEFINED_MESSAGE_SUPPORT" [2]) s

def execGetVendorDefinedMessageSupport (selector : BitVec 8) (s : State) : Out State :=
  .next (whenBridge s (vendorSupport selector))

/-- The static address: 0x60 + `ADDR_SEL` (R408). -/
def staticAddr (s : State) : BitVec 7 := 0x60 + s.side.sampled.addrSel.setWidth 7

def execI3cDynamicAddressAssignment (addr : BitVec 7) (s : State) : Out State :=
  .next (whenBridge s fun s => { s with side.dynAddr := some addr })

/-! ### JTAG (R411, R412) -/

/-- `IDCODE` of a TAP of the chain. -/
def idcodeOf (tap : Fin 12) : BitVec 32 :=
  if tap.val < 2 then 0x1F06756B else if tap.val < 10 then 0x1F06456B else 0x1F06556B

/-- What an instruction acts as: those after `SAMPLE/PRELOAD` take effect only while `RESET_N` is low. -/
def actsAs (s : State) : JInstr → JInstr
  | .bypass => .bypass
  | .idcode => .idcode
  | .samplePreload => .samplePreload
  | i => if s.side.resetLow then i else .bypass

/-- A TAP takes an instruction. The register it then selects shifts out `IDCODE`, the zero of `BYPASS`, or the pin levels
that the boundary captures, which are free. -/
def loadTap (tap : Fin 12) (i : JInstr) (s : State) : State :=
  let s := { s with side.jtag := updAt s.side.jtag tap.val fun _ => i }
  match actsAs s i with
  | .idcode => emit (.jtag tap (idcodeOf tap)) s
  | .bypass => emit (.jtag tap 0) s
  | _ =>
    let (w, s) := takeFree s
    emit (.jtag tap (w.setWidth 32)) s

def execBypass (tap : Fin 12) (s : State) : Out State := .next (whenBridge s (loadTap tap .bypass))
def execIdcode (tap : Fin 12) (s : State) : Out State := .next (whenBridge s (loadTap tap .idcode))
def execSamplePreload (tap : Fin 12) (s : State) : Out State := .next (whenBridge s (loadTap tap .samplePreload))
def execExtest (tap : Fin 12) (s : State) : Out State := .next (whenBridge s (loadTap tap .extest))
def execExtestPulse (tap : Fin 12) (s : State) : Out State := .next (whenBridge s (loadTap tap .extestPulse))
def execExtestTrain (tap : Fin 12) (s : State) : Out State := .next (whenBridge s (loadTap tap .extestTrain))
def execClamp (tap : Fin 12) (s : State) : Out State := .next (whenBridge s (loadTap tap .clamp))
def execHighz (tap : Fin 12) (s : State) : Out State := .next (whenBridge s (loadTap tap .highz))

/-! ### Lanes, supply and straps (R295, R402, R404) -/

/-- A lane of the port goes down or comes up; either alone carries all traffic. -/
def setLane (lane : Fin 2) (up : Bool) (s : State) : State :=
  { s with port.lanes := updAt s.port.lanes lane.val fun _ => up }

def execAxfotikLaneFailure (lane : Fin 2) (s : State) : Out State := .next (setLane lane false s)
def execAxfotikLaneUp (lane : Fin 2) (s : State) : Out State := .next (setLane lane true s)

def execAux3v3Change (present : Bool) (s : State) : Out State := .next (sideDark { s with side.aux := present })

/-- A strap pin changes level: it is sampled at the next boot time 0. -/
def execStrapChange (pins : StrapPins) (s : State) : Out State := .next { s with side.pins := pins }

end Sys2Proof.Machine
end

