-- ==== Sys2Proof/Machine/Regs.lean ====
section
/-! DEFINITION. Register space (R10, R304): the registers by name, what they read as, what reads and writes do to them. -/

namespace Sys2Proof.Machine

/-! ### Addresses (R10, R304) -/

/-- A register with the die, tile, port or tier it belongs to. -/
inductive RegName where
  | moduleId (position : Nat)
  | mapEpoch
  | drainStatus
  | tierFrames (t : Tier)
  | agentCtrl
  | fabricCtrl
  | quorumStatus
  | errStatus
  | fenceMap0
  | fenceMap1
  | bootStatus
  | powerStatus
  | timeStatus
  | cadence
  | straps
  | alerts
  | tileStatus (t : BitVec 10)
  | tileCounters (t : BitVec 10)
  | cohCtrl (w : Nat)
  | cohStatus (w : Nat)
  | xlatStatus (w : Nat)
  | embStatus (w : Nat)
  | nmStatus (w : Nat)
  | portStatus (p : Nat)
  | pairStatus
  | ftlHealth (k : Nat)
deriving DecidableEq, Repr

/-- Dies of a class (R10). -/
def dieCount (cls : Nat) : Nat :=
  match cls with
  | 1 => 16
  | 2 => 16
  | 3 => 16
  | 4 => 8
  | 5 => 2
  | 6 => 4
  | 7 => 2
  | _ => 0

/-- The registers of a Headset. -/
def headsetReg (idx block off : Nat) : Option RegName :=
  match block, off with
  | 0x00, 0x00 => some (.moduleId idx)
  | 0x01, 0x00 => some .mapEpoch
  | 0x01, 0x10 => some .drainStatus
  | 0x02, 0x00 => some (.tierFrames .hbm)
  | 0x02, 0x08 => some (.tierFrames .lpddr)
  | 0x02, 0x10 => some (.tierFrames .flash)
  | 0x03, 0x00 => some .agentCtrl
  | 0x04, 0x00 => some .fabricCtrl
  | 0x05, 0x00 => some .quorumStatus
  | 0x06, 0x00 => some .errStatus
  | 0x06, 0x08 => some .fenceMap0
  | 0x06, 0x10 => some .fenceMap1
  | 0x07, 0x00 => some .bootStatus
  | 0x08, 0x00 => some .powerStatus
  | 0x09, 0x00 => some .timeStatus
  | 0x09, 0x08 => some .cadence
  | 0x0A, 0x00 => some .straps
  | 0x0A, 0x08 => some .alerts
  | _, _ => none

/-- The registers of a Chainring. -/
def chainringReg (w block off : Nat) : Option RegName :=
  match block, off with
  | 0x10, 0x00 => some (.cohCtrl w)
  | 0x10, 0x08 => some (.cohStatus w)
  | 0x18, 0x00 => some (.xlatStatus w)
  | 0x30, 0x00 => some (.embStatus w)
  | 0x38, 0x00 => some (.nmStatus w)
  | _, _ => none

/-- The register at a block and offset of a die, if they name one. -/
def regAt (cls idx block off : Nat) : Option RegName :=
  match cls with
  | 1 =>
    if 0x30 ≤ block then none
    else if off = 0 then some (.tileStatus (tileId idx block))
    else if off = 8 then some (.tileCounters (tileId idx block))
    else none
  | 2 => chainringReg idx block off
  | 4 => if 0x10 ≤ block && block ≤ 0x12 && off = 0 then some (.portStatus (3 * idx + (block - 0x10))) else none
  | 5 => if block = 0 && off = 0 then some .pairStatus else none
  | 6 => if block = 0x20 && off = 0 then some (.ftlHealth idx) else none
  | 7 => headsetReg idx block off
  | _ => none

/-- The registers an address names, in ascending die index, or the status that refuses it. -/
def regsOf (addr : Nat) (write : Bool) : Status ⊕ List (Nat × RegName) :=
  let cls := addr / 2 ^ 28 % 16
  let idx := addr / 2 ^ 24 % 16
  let block := addr / 2 ^ 16 % 256
  let off := addr % 2 ^ 16
  if 2 ^ 32 ≤ addr then .inl .badParam
  else if addr % 8 ≠ 0 then .inl .misaligned
  else if cls = 0xF then
    let rs := (List.range (dieCount idx)).filterMap fun d => (regAt idx d block off).map fun r => (d, r)
    if !write || rs.isEmpty then .inl .badParam else .inr rs
  else if dieCount cls ≤ idx then .inl .badParam
  else match regAt cls idx block off with
    | some r => .inr [(idx, r)]
    | none => .inl .badParam

/-- A register of die index 0 of class 0x7 after a failover (R367). -/
def failedHeadset (s : State) (cls : Nat) (d : Nat) : Bool := s.fw.failedOver && cls == 7 && d == 0

/-! ### Values -/

/-- The fields below bit `top`, highest first, each a low bit position and a value; a count or a measurement beyond its
field reads as the field's largest value (DESIGN CHOICE, notes/assumptions/58.md). -/
def packBelow (top : Nat) : List (Nat × Nat) → Nat
  | [] => 0
  | p :: fs => min p.2 (2 ^ (top - p.1) - 1) * 2 ^ p.1 + packBelow p.1 fs

/-- Pack the fields of a register, highest first. -/
def packReg (fs : List (Nat × Nat)) : Word := BitVec.ofNat 64 (packBelow 64 fs)

/-- A mask with bit i set where a test holds. -/
def maskOf (n : Nat) (f : Nat → Bool) : Nat := ((List.range n).map fun i => if f i then 2 ^ i else 0).sum

def drainWord (d : Drain) : Word :=
  packReg [(63, d.done.toNat), (32, d.forced.toNat), (29, d.engines.toNat), (28, d.queues.toNat), (26, d.tandem.toNat),
    (0, d.ports.toNat)]

/-- `HS_DRAIN_STATUS` (R40). -/
def drainStatus (s : State) : Drain :=
  match s.compose with
  | .draining o _ => drainNow { rider := none, keep := o } s
  | _ => s.drain

/-- Tiles fenced, alone or with their Spoke die (R339). -/
def tilesFenced (s : State) : Nat :=
  ((List.range 16).map fun w => ((spokeTiles w).filter (tileFenced s)).length).sum

/-- The lowest clock of the Spoke dies (R387). -/
def lowestMhz (s : State) : Nat :=
  match s.power.mhz with
  | [] => 0
  | f :: fs => fs.foldl min f

def ctxMask (x : Tile) (f : Ctx → Bool) : Nat := maskOf 16 fun i => (x.ctxs[i]?).any f

/-- `SP_TILE_STATUS` (R197). -/
def tileStatusWord (s : State) (t : BitVec 10) : Word :=
  match findTile s t with
  | none => 0
  | some x =>
    packReg [(63, x.prog.isSome.toNat), (50, match x.prog with | some p => p.rider.toNat | none => 0),
      (32, ctxMask x fun (k : Ctx) => k.st = .faulted),
      (16, ctxMask x fun (k : Ctx) => k.st = .ready || k.st = .running || k.st = .blocked),
      (0, ctxMask x fun (k : Ctx) => k.st = .blocked)]

/-- `SB_FTL_HEALTH` (R98); every field but `STATE` reads zero while the cluster mounts, and in state 0x4 (R101). DESIGN CHOICE
(notes/assumptions/127.md): `LIFE_USED` rounds down. -/
def ftlWord (rated : Nat) (c : Cluster) : Word :=
  if c.state = 0 || c.state = 4 then packReg [(32, c.state.toNat)]
  else
    packReg [(56, c.writes * 100 / rated), (48, c.spare.toNat), (39, (!c.rebuilds.isEmpty).toNat), (32, c.state.toNat),
      (16, c.retired.toNat), (0, c.scrubs.toNat)]

/-- `DL_PORT_STATUS` (R272). -/
def portWord (p : FPort) : Word :=
  packReg [(60, p.mode.toNat), (59, p.wide.toNat), (58, p.gateway.toNat), (57, p.up.toNat), (56, p.down.toNat),
    (48, p.lds.toNat), (32, p.retrains.toNat), (16, p.replays.toNat), (0, p.dups.toNat)]

/-- What a register reads as. -/
def regValue (s : State) : RegName → Word
  | .moduleId p => moduleId s p
  | .mapEpoch => packReg [(32, s.nv.bootCount.toNat), (0, (epochNow s).toNat)]
  | .drainStatus => drainWord (drainStatus s)
  | .tierFrames t => packReg [(32, freeOf s t), (0, if t = .flash then 0 else stagingOf s t)]
  | .agentCtrl => 0
  | .fabricCtrl => packReg [(32, s.fab.e2e.toNat), (8, s.fab.frameAge.toNat)]
  | .quorumStatus =>
    packReg [(32, s.nv.lastOrder.toNat), (16, s.nv.members.length), (8, s.nv.k.toNat), (0, s.nv.keys.length)]
  | .errStatus =>
    packReg [(54, tilesFenced s), (43, s.coh.lost.length), (32, s.err.inj.length), (0, s.err.corrected.toNat)]
  | .fenceMap0 =>
    packReg [(48, maskOf 16 fun i => unitFenced s (unitSpoke i)), (32, maskOf 16 fun i => unitFenced s (unitChainring i)),
      (16, maskOf 16 fun i => unitFenced s (unitCassette i)), (0, maskOf 16 fun i => unitFenced s (unitHbm i))]
  | .fenceMap1 =>
    packReg [(62, maskOf 2 fun i => unitFenced s (unitTandem i)), (58, maskOf 4 fun i => unitFenced s (unitSaddlebag i)),
      (32, maskOf 24 fun i => unitFenced s (unitPort i)), (0, maskOf 32 fun i => unitFenced s (unitLpddr i))]
  | .bootStatus =>
    packReg [(32, s.nv.rollbackSvn.toNat), (24, s.nv.trialBoots.toNat), (12, s.fw.act.st.toNat), (7, s.fw.identity.toNat),
      (6, (!s.side.sampled.recoveryN).toNat), (5, s.fw.failedOver.toNat), (4, s.fw.standby.toNat), (0, s.nv.activeSlot.toNat)]
  | .powerStatus =>
    packReg [(61, s.power.st.code), (60, (emergency s).toNat), (56, (overrideOf s).toNat), (52, s.power.kick.toNat),
      (36, min (lowestMhz s) 4095), (16, min s.power.pinW 65535), (0, s.power.vinMv / 10)]
  | .timeStatus => packReg [(63, s.time.locked.toNat), (62, s.time.lost.toNat), (0, s.time.error.toNat)]
  | .cadence => s.now
  | .straps =>
    packReg [(15, s.side.aux.toNat), (10, s.side.sampled.addrSel.toNat), (8, (!s.side.sampled.recoveryN).toNat),
      (0, s.side.sampled.slotId.toNat)]
  | .alerts => s.side.alert.setWidth 64
  | .tileStatus t => tileStatusWord s t
  | .tileCounters t => match findTile s t with
    | some x => packReg [(32, x.stall.toNat), (16, x.bank.toNat), (0, x.faults.toNat)]
    | none => 0
  | .cohCtrl w => packReg [(32, (s.coh.timeouts.getD w 0).toNat), (8, (s.coh.trackers.getD w 0).toNat)]
  | .cohStatus w =>
    packReg [(40, (s.coh.dir.filter fun d => homeWheel d.line == w).length),
      (24, (s.coh.trks.filter fun t => homeWheel t.line == w).length), (0, (s.coh.recalls.getD w 0).toNat)]
  | .xlatStatus w =>
    let mine := s.xlat.walks.filter fun x => clientWheel x.client == w
    packReg [(58, walkersBusy s w), (32, (mine.filter fun x => !x.hit && x.out.isNone).length), (24, unmapsOpen s),
      (0, (s.xlat.faults.getD w 0).toNat)]
  | .embStatus w =>
    packReg [(60, s.eng.batches.length), (32, (s.eng.spillRuns.getD w 0).toNat), (0, (s.eng.coalesced.getD w 0).toNat)]
  | .nmStatus w =>
    packReg [(57, min 64 (piecesOn s w).length), (32, (s.eng.failed.getD w 0).toNat),
      (0, (s.eng.mib.getD w 0).toNat)]
  | .portStatus p => portWord (portAt s p)
  | .pairStatus =>
    packReg [(60, s.pair.st.toNat), (59, s.pair.surr.toNat), (48, s.pair.twin.toNat), (32, laneCount s.pair.lanes),
      (0, s.pair.resync.length)]
  | .ftlHealth k => if Config.hasFlash s.variant then ftlWord (Config.ratedWrites s.variant) (s.flash.getD k Cluster.reset) else 0

/-- A read clears the fields of access RC. -/
def clearOnRead (r : RegName) (s : State) : State :=
  match r with
  | .errStatus => { s with err.corrected := 0 }
  | .tileCounters t => { s with tiles := updIf s.tiles (·.id = t) fun x => { x with stall := 0, bank := 0, faults := 0 } }
  | .cohStatus w => { s with coh.recalls := updAt s.coh.recalls w fun _ => 0 }
  | .xlatStatus w => { s with xlat.faults := updAt s.xlat.faults w fun _ => 0 }
  | .embStatus w => { s with
    eng.spillRuns := updAt s.eng.spillRuns w fun _ => 0
    eng.coalesced := updAt s.eng.coalesced w fun _ => 0 }
  | .nmStatus w => { s with
    eng.failed := updAt s.eng.failed w fun _ => 0
    eng.mib := updAt s.eng.mib w fun _ => 0 }
  | .portStatus p => updPort p (fun x => { x with retrains := 0, replays := 0, dups := 0 }) s
  | .ftlHealth k =>
    if (s.flash.getD k Cluster.reset).state = 0 || (s.flash.getD k Cluster.reset).state = 4 then s
    else { s with flash := updAt s.flash k fun c => { c with scrubs := 0 } }
  | _ => s

/-- The write of `CR_COH_CTRL` (R120). -/
def writeCohCtrl (w : Nat) (v : Word) (s : State) : State :=
  let t := bits v 32 16
  { s with
    coh.timeouts := updAt s.coh.timeouts w fun _ => BitVec.ofNat 16 (max t 100)
    coh.trackers := updAt s.coh.trackers w fun _ => BitVec.ofNat 8 (bits v 8 8) }

/-- The write of `HS_FABRIC_CTRL` (R271): values out of range are stored at the nearest one. -/
def writeFabricCtrl (v : Word) (s : State) : State :=
  { s with
    fab.e2e := BitVec.ofNat 16 (max 1 (min 1000 (bits v 32 16)))
    fab.frameAge := BitVec.ofNat 8 (max 1 (bits v 8 8)) }

/-- The write of `HS_AGENT_CTRL` (R122, R123): `LOSE` declares a registered agent lost. -/
def writeAgentCtrl (v : Word) (s : State) : State :=
  if bit v 63 then declareLost (BitVec.ofNat 10 (bits v 0 10)) 2 s else s

/-- The write of `HS_ALERT` (R406): ones clear their bits, but for those whose cause arises in the same cycle. -/
def writeAlert (v : Word) (rising : BitVec 6) (s : State) : State :=
  { s with side.alert := (s.side.alert &&& ~~~(BitVec.ofNat 6 (bits v 0 6))) ||| (s.side.alert &&& rising) }

/-- A write to a register; RO and reserved fields ignore it (R8, R304). -/
def writeReg (r : RegName) (v : Word) (s : State) : State :=
  match r with
  | .cohCtrl w => writeCohCtrl w v s
  | .fabricCtrl => writeFabricCtrl v s
  | .agentCtrl => writeAgentCtrl v s
  | .alerts => writeAlert v 0 s
  | _ => s

/-! ### `REG_READ` and `REG_WRITE` -/

/-- Read the register that a command names. -/
def readCmd (c : Cmd) (s : State) : Eff :=
  match regsOf (c.p 0).toNat false with
  | .inl st => Eff.stat st s
  | .inr rs => match rs with
    | (d, r) :: _ =>
      if failedHeadset s ((c.p 0).toNat / 2 ^ 28) d then Eff.stat .fenced s
      else Eff.res .ok (regValue s r) (clearOnRead r s)
    | [] => Eff.stat .badParam s

/-- Write the registers that a command names, in ascending die index; a die that is out of service takes nothing. -/
def writeCmd (f : RegName → Word → State → State) (c : Cmd) (s : State) : Eff :=
  match regsOf (c.p 0).toNat true with
  | .inl st => Eff.stat st s
  | .inr rs =>
    let cls := if (c.p 0).toNat / 2 ^ 28 = 0xF then (c.p 0).toNat / 2 ^ 24 % 16 else (c.p 0).toNat / 2 ^ 28
    let live := rs.filter fun (x : Nat × RegName) => !failedHeadset s cls x.1
    if live.isEmpty then Eff.stat .fenced s
    else Eff.ok (live.foldl (fun s (x : Nat × RegName) => f x.2 (c.p 1) s) s)

def bodyRegRead : Body := fun c s => readCmd c s
def execRegRead (c : Cmd) (s : State) : Out State := .next (runPacket 0x010 c bodyRegRead s)

def bodyRegWrite : Body := fun c s => writeCmd writeReg c s
def execRegWrite (c : Cmd) (s : State) : Out State := .next (runPacket 0x011 c bodyRegWrite s)

/-- `CR_COH_CTRL`, alone or broadcast (R120). -/
def bodyCrCohCtrlWrite : Body := fun c s => writeCmd writeReg c s
def execCrCohCtrlWrite (c : Cmd) (s : State) : Out State := .next (runPacket 0x011 c bodyCrCohCtrlWrite s)

/-- `HS_FABRIC_CTRL` (R271). -/
def bodyHsFabricCtrlWrite : Body := fun c s => writeCmd writeReg c s
def execHsFabricCtrlWrite (c : Cmd) (s : State) : Out State := .next (runPacket 0x011 c bodyHsFabricCtrlWrite s)

/-- `HS_AGENT_CTRL` with `LOSE` (R123). -/
def bodyLose : Body := fun c s => writeCmd writeReg c s
def execLose (c : Cmd) (s : State) : Out State := .next (runPacket 0x011 c bodyLose s)

/-- `HS_ALERT` (R406), with the bits whose causes arise in the cycle of the write. -/
def bodyHsAlertClear (rising : BitVec 6) : Body := fun c s =>
  writeCmd (fun r v s => match r with | .alerts => writeAlert v rising s | _ => writeReg r v s) c s

def execHsAlertClear (c : Cmd) (rising : BitVec 6) (s : State) : Out State :=
  .next (runPacket 0x011 c (bodyHsAlertClear rising) s)

/-- The reads of the registers with fields of access RC. -/
def bodyCrXlatStatusRead : Body := fun c s => readCmd c s
def execCrXlatStatusRead (c : Cmd) (s : State) : Out State := .next (runPacket 0x010 c bodyCrXlatStatusRead s)

def bodyCrCohStatusRead : Body := fun c s => readCmd c s
def execCrCohStatusRead (c : Cmd) (s : State) : Out State := .next (runPacket 0x010 c bodyCrCohStatusRead s)

def bodySbFtlHealthRead : Body := fun c s => readCmd c s
def execSbFtlHealthRead (c : Cmd) (s : State) : Out State := .next (runPacket 0x010 c bodySbFtlHealthRead s)

def bodyCrEmbStatusRead : Body := fun c s => readCmd c s
def execCrEmbStatusRead (c : Cmd) (s : State) : Out State := .next (runPacket 0x010 c bodyCrEmbStatusRead s)

def bodyCrNmStatusRead : Body := fun c s => readCmd c s
def execCrNmStatusRead (c : Cmd) (s : State) : Out State := .next (runPacket 0x010 c bodyCrNmStatusRead s)

def bodySpTileCountersRead : Body := fun c s => readCmd c s
def execSpTileCountersRead (c : Cmd) (s : State) : Out State := .next (runPacket 0x010 c bodySpTileCountersRead s)

def bodyHsErrStatusRead : Body := fun c s => readCmd c s
def execHsErrStatusRead (c : Cmd) (s : State) : Out State := .next (runPacket 0x010 c bodyHsErrStatusRead s)

def bodyDlPortStatusRead : Body := fun c s => readCmd c s
def execDlPortStatusRead (c : Cmd) (s : State) : Out State := .next (runPacket 0x010 c bodyDlPortStatusRead s)

end Sys2Proof.Machine
end

