-- ==== Sys2Proof/Machine/Settle.lean ====
section
/-! DEFINITION. Fetching queue entries (R312, R313, R315), the commands that were held, and what the block does by itself
between commands: everything that may go on goes on, and the clock ticks (notes/assumptions/57.md). -/

namespace Sys2Proof.Machine

/-! ### A command by its opcode -/

/-- The meaning of an opcode of R303, for an entry that is fetched and a command that was held. -/
def bodyOf (op : Nat) : Body :=
  match op with
  | 0x001 => bodyHello
  | 0x010 => bodyRegRead
  | 0x011 => bodyRegWrite
  | 0x018 => bodyComposeChunk
  | 0x019 => bodyRiderReset
  | 0x020 => bodyQueueCreate
  | 0x021 => bodyQueueDestroy
  | 0x100 => bodyExtentAssign
  | 0x101 => bodyExtentRevoke
  | 0x102 => bodyExtentQuery
  | 0x103 => bodyLossAck
  | 0x180 => bodyPtBaseSet
  | 0x181 => bodyMapRange
  | 0x182 => bodyUnmapRange
  | 0x200 => bodyLapOpen
  | 0x201 => bodyLapBeginWrite
  | 0x202 => bodyLapCommit
  | 0x203 => bodyLapClose
  | 0x204 => bodyStageMark
  | 0x205 => bodyStageRollback
  | 0x280 => bodyObjPlace
  | 0x281 => bodyChunked .prefetchSchedule 0x281 bodyPrefetchSchedule
  | 0x282 => bodyPagePin
  | 0x283 => bodyPageEvict
  | 0x284 => bodyFlashTrim
  | 0x300 => bodyEmbTableDefine
  | 0x301 => bodyEmbLookup
  | 0x302 => bodyEmbUpdate
  | 0x380 => bodyNmFill
  | 0x381 => bodyNmCopy
  | 0x382 => bodyNmCompare
  | 0x383 => bodyNmReduce
  | 0x400 => bodyTileLoad
  | 0x401 => bodyTileStart
  | 0x402 => bodyTileStop
  | 0x403 => bodySyncSet
  | 0x404 => bodySyncWait
  | 0x480 => bodyBulkWrite
  | 0x481 => bodyBulkRead
  | 0x500 => bodyFwStage
  | 0x501 => bodyFwActivate
  | 0x502 => bodyAttest
  | 0x580 => bodyPowerPolicy
  | 0x581 => bodyThermalQuery
  | 0x600 => bodyErrLogRead
  | 0x601 => bodyInject
  | 0x602 => bodyOdometerRead
  | 0x603 => bodyUnitUnfence
  | 0x680 => bodyTandemPair
  | 0x681 => bodyTandemHandover
  | 0x682 => bodyExpel
  | 0x683 => bodyAdmit
  | 0x684 => bodyManagerKeys
  | 0x700 => bodyTripRead
  | 0x701 => bodyTimeSet
  | _ => bodyNop

/-- Start a command that was held or has waited its turn. -/
def startHeld (h : HeldCmd) (s : State) : State := startCmd h.op.toNat h.c (bodyOf h.op.toNat) s

/-- Try a command again whose own chapter made it wait: its header has been checked, and its chunks are assembled. -/
def rerunCmd (h : HeldCmd) (s : State) : State :=
  let o := openOf h.op.toNat h.c
  if !isOpen o s then s
  else if h.c.h.epoch ≠ 0 && h.c.h.epoch ≠ epochNow s then completeIf o .staleMap 0 [] s
  else finish o ((if h.op.toNat = 0x281 then bodyPrefetchSchedule else bodyOf h.op.toNat) h.c s)

/-! ### Fetch (R312, R313, R315) -/

/-- Fetch from queues is stopped for the module (R36, R358, R371, R374, R377) or for a rider (R321). -/
def fetchStopped (s : State) (r : BitVec 6) : Bool :=
  portHeld s || s.resets.contains r || decide (s.power.st = .kickstand) || decide (s.power.st = .freewheel) ||
    (match s.compose with | .draining _ _ => true | _ => false)

/-- Every earlier command of the queue has returned its status. -/
def allReturned (x : Queue) : Bool := x.started.isEmpty && x.done.isEmpty

/-- Start the fetched commands that may start, in fetch order: an `ORDERED` one only after every earlier one has returned. -/
def pumpQueue (q : BitVec 13) : Nat → State → State
  | 0, s => s
  | n + 1, s =>
    match findQueue s q with
    | none => s
    | some x => match x.waiting with
      | [] => s
      | h :: rest =>
        if h.c.h.ordered && !allReturned x then s
        else pumpQueue q n (startHeld h (updQueue q (fun y => { y with waiting := rest }) s))

/-- Commands of the queue in progress (R310, R312). -/
def Queue.inProgress (x : Queue) : Nat := x.started.length + x.waiting.length

/-- A queue that may fetch: entries are enqueued and, on a `PRETRANSLATE` queue, walked (R57). -/
def mayFetch (s : State) (x : Queue) : Bool :=
  !x.error && !x.closing && !fetchStopped s x.rider && decide (x.inProgress < x.inflight) && !x.cqFull &&
    decide (x.sqHead.toNat < x.sqTail.toNat) && (!x.pretrans || decide (x.sqHead.toNat < x.preDone.toNat))

/-- The first of a list of numbers that follows one served last, going round. -/
def after (last : Option Nat) (ns : List Nat) : Option Nat :=
  let asc := sortBy id ns.dedup
  match last with
  | none => asc.head?
  | some l => (asc.find? fun n => decide (l < n)).orElse fun _ => asc.head?

/-- The rider and the queue whose turn it is: a rider keeps its turn for as many entries as its `WEIGHT`, the queues of one
rider take turns, and a queue that may not fetch yields (R317). DESIGN CHOICE (notes/assumptions/17.md): the weight counts
entries, and the rotation goes up the numbers. -/
def turnOf (s : State) : Option (BitVec 6 × BitVec 13) :=
  let ready := s.queues.filter (mayFetch s)
  let riders := ready.map (·.rider.toNat)
  let rider := match s.rota.rider with
    | some r => if 0 < s.rota.left && riders.contains r.toNat then some r.toNat else after (some r.toNat) riders
    | none => after none riders
  rider.bind fun r =>
    let r6 := BitVec.ofNat 6 r
    let qs := (ready.filter fun x => decide (x.rider = r6)).map (·.q.toNat)
    (after ((lookupK s.rota.last r6).map (·.toNat)) qs).map fun q => (r6, BitVec.ofNat 13 q)

/-- A queue has had its turn. -/
def takeTurn (r : BitVec 6) (q : BitVec 13) (s : State) : State :=
  let weight := match riderEntry s r with | some e => e.weight.toNat | none => 1
  let left := if s.rota.rider = some r && 0 < s.rota.left then s.rota.left - 1 else weight - 1
  { s with rota := { rider := some r, left := left, last := setK s.rota.last r q } }

/-- Take the entry whose bytes have been read: `SQ_HEAD` advances, the entry's pre-translated runs become its command's, and the
command starts when its turn comes; an entry whose pre-translation faulted completes without executing (R57). -/
def takeEntry (x : Queue) (slots : Nat) (b : List Byte) (s : State) : State :=
  let (op, c) := parseEntry x.q b
  let bad := x.preBad.contains x.sqHead
  let head := x.sqHead + BitVec.ofNat 64 slots
  let s := updQueue x.q (fun y =>
    { y with
      sqHead := head
      preBad := y.preBad.erase x.sqHead
      runs := updIf y.runs (fun e => e.slot = x.sqHead && e.tag.isNone) fun e => { e with tag := some c.h.tag } }) s
  let s := writeCounter (.queue x.q) (rqQueue x) (x.dbVa + 8) head s
  if bad then complete (openOf op c) .translation 0 [] s
  else
    pumpQueue x.q (x.waiting.length + 1)
      (updQueue x.q (fun y => { y with waiting := y.waiting ++ [{ op := BitVec.ofNat 12 op, c := c }] }) s)

/-- Fetch the entry at `SQ_HEAD` (R312) of the queue whose turn it is, while no port command can start (R317). -/
def fetchEntry (q : BitVec 13) (s : State) : State :=
  match findQueue s q with
  | none => s
  | some x =>
    if turnOf s ≠ some (x.rider, q) || (s.port.heldCmds.head?).any (fun h => mayStart s h.c) then s
    else
      let s := takeTurn x.rider q s
      match ringRead s x x.sqHead.toNat 32 with
      | (.wait, s) => s
      | (.fail st, s) => queueError q 3 st s
      | (.data hb, s) =>
        let pl := fieldB hb 0x0C 2
        let yl := fieldB hb 0x10 4
        let n := entrySlots pl yl
        if entryBad x pl yl then queueError q 2 .badParam s
        else if x.sqTail.toNat < x.sqHead.toNat + n then s
        else match ringRead s x x.sqHead.toNat (32 + pl + yl) with
          | (.wait, s) => s
          | (.fail st, s) => queueError q 3 st s
          | (.data b, s) => takeEntry x n b s

def execQueueFetch (q : BitVec 13) (s : State) : Out State := .next (whenUp s (fetchEntry q))

/-! ### What waits goes on -/

/-- Held port commands start in the order in which they arrived (R313, R358, R371). -/
def pumpPort : Nat → State → State
  | 0, s => s
  | n + 1, s =>
    match s.port.heldCmds with
    | [] => s
    | h :: rest =>
      if mayStart s h.c then pumpPort n (startHeld h { s with port.heldCmds := rest }) else s

/-- A job that waits for others to end. -/
def stepJob (j : Job) (s : State) : State × Option Job :=
  match j with
  | .revoke o es scrub => tryRevoke o es scrub s
  | .commit o r es k p => tryCommit o r es k p s
  | .rollback o r es k p => tryRollback o r es k p s
  | .destroy o q => match tryDestroy o q s with
    | some s => (s, none)
    | none => (s, some (.destroy o q))
  | .stop o ts m u => tryStop o ts m u s
  | .reset o r => (s, some (.reset o r))
  | .rerun h => (rerunCmd h s, none)

/-- Rider resets, which wait for every other command of their rider. -/
def stepResets (s : State) : State :=
  s.jobs.foldl (fun s j => match j with
    | .reset o r => addJob (tryReset o r { s with jobs := s.jobs.erase j })
    | _ => s) s

/-- A `COMPOSE` that waited behind a revoke closes the module (R43). -/
def stepCompose (s : State) : State :=
  match s.compose with
  | .waiting o c before => if anyOpen before s then s else closeFor o c s
  | _ => s

/-- A stream that is not held any more. -/
def unlateStream (z : Stream) : Stream := { z with late := false }

/-- A context's requests that are not held any more: they are translated again. -/
def unlateCtx (k : Ctx) : Ctx :=
  { k with
    block := match k.block with
      | .access a b => .access { a with late := false } b
      | b => b
    stores := k.stores.map fun e => if e.late then { e with late := false, ready := false } else e }

/-- Requests held by a close go on once it is over (R36, R283, R321). -/
def unlate (s : State) : State :=
  let free (r : BitVec 6) : Bool := !closedTo s r
  { s with
    tiles := s.tiles.map fun x =>
      if x.prog.any (fun p => free p.rider) then
        { x with ctxs := x.ctxs.map unlateCtx, streams := x.streams.map unlateStream }
      else x
    eng.ops := s.eng.ops.map fun o => if free o.rider then { o with late := false } else o
    eng.batches := s.eng.batches.map fun b => if free b.key.rider then { b with late := false } else b }

/-- The contexts of a tile go on with accesses and stores that waited for a translation. -/
def pumpTile (t : BitVec 10) (s : State) : State :=
  let s := (List.range 16).foldl (fun s i =>
    let c := BitVec.ofNat 4 i
    issueAcc t c (pumpStores t c 33 s)) s
  stopIdle t (progEnd t 17 s)

/-- A translation of a queue or an event ring goes on by itself: what asked for it finds its result in the TLB (R54, R55). -/
def pumpWalk (w : Walk) (s : State) : State :=
  let wheel := clientWheel w.client
  let drop (s : State) : State := giveWalkers wheel 32 (dropWalk w.id s)
  if unitFenced s (unitChainring wheel) then drop s
  else if walksAhead s w.client (some w) || coreRestarting s wheel || unmapCovers s w.rider w.va.toNat then s
  else if w.hit then drop s
  else if !w.active then s
  else match rootOf s w.rider with
    | none => drop s
    | some root => match walkOn 5 (w.fresh root) s with
      | (.end_ (.leaf e lvl), s) => drop (fillLeaf w e lvl s)
      | (.end_ (.fault _ _), s) => drop s
      | (.next w, s) => updWalk w.id (fun _ => w) s
      | (.wait, s) => s

def pumpWalks (s : State) : State :=
  (s.xlat.walks.filter fun w => match w.client with | .queue _ | .ring _ => true | _ => false).foldl (fun s w =>
    match s.xlat.walks.find? (·.id == w.id) with
    | some w => pumpWalk w s
    | none => s) s

/-- What made an engine's access still stands behind it: a context's access or store, a beat of a stream, a queue, a held store, an
operation or a batch, a walk, a tree command, a counter that is still to be written. -/
def accessLives (s : State) (k : EngKey) : Bool :=
  let n := k.source.toNat
  let i := n % 2 ^ 28
  (s.late.any fun w => decide (w.source = k.source)) ||
  match n / 2 ^ 28 with
  | 0 => !s.rings.isEmpty
  | 1 => (findCtx s (BitVec.ofNat 10 (i / 16)) (BitVec.ofNat 4 i)).any fun x =>
      (match x.block with | .access a _ => decide (a.va = k.va) | _ => false) || x.stores.any fun e => decide (e.va = k.va)
  | 2 => ((findTile s (BitVec.ofNat 10 (i / 32))).bind fun x => findStream x (BitVec.ofNat 5 i)).any fun z => z.running && decide (z.beatVa z.next = k.va)
  | 3 => (findQueue s (BitVec.ofNat 13 i)).isSome &&
      (k.va = 0 || (s.eng.ops.any fun o => decide (o.src_ = k.source)) || s.eng.batches.any fun b => decide ((b.rq 0).source = k.source))
  | 5 => (s.held.any fun h => match h.what with | .store p _ => decide (srcFabric p.source = k.source) | _ => false) ||
      s.fab.rx.any fun w => decide (srcFabric w.source.source = k.source) && !w.flagged.isEmpty
  | 6 => (s.eng.ops.any fun o => decide (o.src_ = k.source)) || s.eng.batches.any fun b => decide ((b.rq 0).source = k.source)
  | 7 => s.xlat.walks.any fun w => decide ((walkRq w).source = k.source) && decide (w.va = k.va)
  | 8 => s.jobs.any fun j => match j with
    | .rerun h => decide ((treeRq h.c).source = k.source) && decide ((treeRq h.c).va = k.va)
    | _ => false
  | _ => false

/-- Places in a line's order that nothing stands behind any more are given up. -/
def reapTickets (s : State) : State :=
  let dead (t : Trk) : Bool := match t.what with
    | .eng k _ _ => decide (t.phase = .ready ∨ t.phase = .wait ∨ t.phase = .mirror) && !accessLives s k
    | _ => false
  (s.coh.trks.filter dead).foldl (fun s t => endTrk t.id s) s

/-- Everything that was waiting and may go on goes on. DESIGN CHOICE (notes/assumptions/115.md): in this order, and as far as it
goes. -/
def settle (s : State) : State :=
  let s := kick (unlate (pumpTier (reapTickets s)))
  let s := s.tiles.foldl (fun s x => pumpTile x.id s) s
  let s := s.fab.rx.foldl (fun s w => tryFlags w.key (w.flagged.length + 1) s) s
  let s := flushFree (stepCompose (stepResets (stepJobs stepJob (pumpWalks s))))
  let s := pumpBatches (retryHeldAll s)
  let s := pumpBells (flushLate s.late { s with late := [] })
  let s := s.rings.foldl (fun s x => serveRing x.rider s) s
  let s := pumpPort s.port.heldCmds.length s
  let s := s.queues.foldl (fun s x => pumpPre x.q (releaseRuns x.q (pumpQueue x.q x.waiting.length s))) s
  sendMeta s

/-! ### The clock -/

/-- A context that is ready, running or blocked. -/
def Ctx.active (k : Ctx) : Bool := k.st = .ready || k.st = .running || k.st = .blocked

/-- One nanosecond of the trip meters but `STATE_NS` (R395). -/
def tickTrip (s : State) : Trip :=
  let t := s.trip
  let loaded (f : BitVec 6 → Bool) : Nat := (s.tiles.filter fun x => x.prog.any fun p => f p.rider).length
  let active (f : BitVec 6 → Bool) : Nat :=
    (s.tiles.filter fun x => x.prog.any (fun p => f p.rider) && x.ctxs.any Ctx.active).length
  let grow (f : BitVec 6 → Bool) (m : Meter) : Meter :=
    { m with tileLoaded := satAdd m.tileLoaded (loaded f), tileActive := satAdd m.tileActive (active f) }
  { t with
    energyNj := t.energyNj + s.power.pinW
    all := grow (fun _ => true) t.all
    riders := t.riders.map fun (x : BitVec 6 × Meter) => (x.1, grow (fun r => r = x.1) x.2) }

/-- The log writer catches up; what it dropped is recorded (R333). -/
def catchUp (s : State) : State :=
  let n := s.err.dropped
  let s := { s with err := { s.err with behind := 0, dropped := 0 } }
  if n = 0 then s else writeRec { Rec.blank 0x0016 with arg0 := BitVec.ofNat 64 n } s

/-- A tick of the clock: what was waiting goes on, a nanosecond passes, and what holds only while commands of one
moment run ends (notes/assumptions/57.md). -/
def tick (s : State) : State :=
  if s.phase = .off || s.phase = .inReset then s
  else
    let s := catchUp (whenUp s settle)
    countTime s.now { s with
      time := tickCadence s.time
      trip := tickTrip s
      pair.inFlight := [] }

end Sys2Proof.Machine
end

