-- ==== Sys2Proof/Machine/Dispatch.lean ====
section
/-! DEFINITION. The meaning of every command: one arm for each constructor of `Instr`, in the table's order. -/

namespace Sys2Proof.Machine

def exec (i : Instr) (s : State) : Host.Outcome State Fault Refusal :=
  match i with
  | .nop c => Sys2Proof.Machine.execNop c s
  | .hello c => Sys2Proof.Machine.execHello c s
  | .regRead c => Sys2Proof.Machine.execRegRead c s
  | .regWrite c => Sys2Proof.Machine.execRegWrite c s
  | .crCohCtrlWrite c => Sys2Proof.Machine.execCrCohCtrlWrite c s
  | .hsFabricCtrlWrite c => Sys2Proof.Machine.execHsFabricCtrlWrite c s
  | .lose c => Sys2Proof.Machine.execLose c s
  | .hsAlertClear c rising => Sys2Proof.Machine.execHsAlertClear c rising s
  | .crXlatStatusRead c => Sys2Proof.Machine.execCrXlatStatusRead c s
  | .crCohStatusRead c => Sys2Proof.Machine.execCrCohStatusRead c s
  | .sbFtlHealthRead c => Sys2Proof.Machine.execSbFtlHealthRead c s
  | .crEmbStatusRead c => Sys2Proof.Machine.execCrEmbStatusRead c s
  | .crNmStatusRead c => Sys2Proof.Machine.execCrNmStatusRead c s
  | .spTileCountersRead c => Sys2Proof.Machine.execSpTileCountersRead c s
  | .hsErrStatusRead c => Sys2Proof.Machine.execHsErrStatusRead c s
  | .dlPortStatusRead c => Sys2Proof.Machine.execDlPortStatusRead c s
  | .commandChunk op c => Sys2Proof.Machine.execCommandChunk op c s
  | .compose c => Sys2Proof.Machine.execCompose c s
  | .composeDrained => Sys2Proof.Machine.execComposeDrained s
  | .composeDrainLimit => Sys2Proof.Machine.execComposeDrainLimit s
  | .epochHoldTimeout held => Sys2Proof.Machine.execEpochHoldTimeout held s
  | .riderReset c => Sys2Proof.Machine.execRiderReset c s
  | .riderResetDrainLimit rider => Sys2Proof.Machine.execRiderResetDrainLimit rider s
  | .queueCreate c => Sys2Proof.Machine.execQueueCreate c s
  | .queueDestroy c => Sys2Proof.Machine.execQueueDestroy c s
  | .doorbell q value => Sys2Proof.Machine.execDoorbell q value s
  | .cqHeadUpdate ring q value => Sys2Proof.Machine.execCqHeadUpdate ring q value s
  | .queueFetch q => Sys2Proof.Machine.execQueueFetch q s
  | .replyPost q => Sys2Proof.Machine.execReplyPost q s
  | .extentAssign c => Sys2Proof.Machine.execExtentAssign c s
  | .extentRevoke c => Sys2Proof.Machine.execExtentRevoke c s
  | .extentQuery c => Sys2Proof.Machine.execExtentQuery c s
  | .lossAck c => Sys2Proof.Machine.execLossAck c s
  | .ptBaseSet c => Sys2Proof.Machine.execPtBaseSet c s
  | .mapRange c => Sys2Proof.Machine.execMapRange c s
  | .unmapRange c => Sys2Proof.Machine.execUnmapRange c s
  | .unmapEngineAck id e => Sys2Proof.Machine.execUnmapEngineAck id e s
  | .walkReadReturn wheel id => Sys2Proof.Machine.execWalkReadReturn wheel id s
  | .lapOpen c => Sys2Proof.Machine.execLapOpen c s
  | .lapBeginWrite c => Sys2Proof.Machine.execLapBeginWrite c s
  | .lapCommit c => Sys2Proof.Machine.execLapCommit c s
  | .lapClose c => Sys2Proof.Machine.execLapClose c s
  | .stageMark c => Sys2Proof.Machine.execStageMark c s
  | .stageRollback c => Sys2Proof.Machine.execStageRollback c s
  | .objPlace c => Sys2Proof.Machine.execObjPlace c s
  | .prefetchSchedule c => Sys2Proof.Machine.execPrefetchSchedule c s
  | .pagePin c => Sys2Proof.Machine.execPagePin c s
  | .pageEvict c => Sys2Proof.Machine.execPageEvict c s
  | .flashTrim c => Sys2Proof.Machine.execFlashTrim c s
  | .embTableDefine c => Sys2Proof.Machine.execEmbTableDefine c s
  | .embLookup c => Sys2Proof.Machine.execEmbLookup c s
  | .embUpdate c => Sys2Proof.Machine.execEmbUpdate c s
  | .embRequestRun k defTag from_ rows contribs done => Sys2Proof.Machine.execEmbRequestRun k defTag from_ rows contribs done s
  | .embRowReply h from_ rows => Sys2Proof.Machine.execEmbRowReply h from_ rows s
  | .embPartial h from_ key values => Sys2Proof.Machine.execEmbPartial h from_ key values s
  | .embVerdict k from_ status offset => Sys2Proof.Machine.execEmbVerdict k from_ status offset s
  | .embLimitExpiry k => Sys2Proof.Machine.execEmbLimitExpiry k s
  | .nmFill c => Sys2Proof.Machine.execNmFill c s
  | .nmCopy c => Sys2Proof.Machine.execNmCopy c s
  | .nmCompare c => Sys2Proof.Machine.execNmCompare c s
  | .nmReduce c => Sys2Proof.Machine.execNmReduce c s
  | .engineBeatCompletion id remote => Sys2Proof.Machine.execEngineBeatCompletion id remote s
  | .tileLoad c => Sys2Proof.Machine.execTileLoad c s
  | .tileStart c => Sys2Proof.Machine.execTileStart c s
  | .tileStop c => Sys2Proof.Machine.execTileStop c s
  | .syncSet c => Sys2Proof.Machine.execSyncSet c s
  | .syncWait c => Sys2Proof.Machine.execSyncWait c s
  | .syncWaitLimit src tag => Sys2Proof.Machine.execSyncWaitLimit src tag s
  | .bulkWrite c => Sys2Proof.Machine.execBulkWrite c s
  | .bulkRead c => Sys2Proof.Machine.execBulkRead c s
  | .fwStage c => Sys2Proof.Machine.execFwStage c s
  | .fwActivate c => Sys2Proof.Machine.execFwActivate c s
  | .deferredActivationStart => Sys2Proof.Machine.execDeferredActivationStart s
  | .fwActivationStepDone ok => Sys2Proof.Machine.execFwActivationStepDone ok s
  | .activationHoldLimit => Sys2Proof.Machine.execActivationHoldLimit s
  | .trialConfirmation => Sys2Proof.Machine.execTrialConfirmation s
  | .attest c => Sys2Proof.Machine.execAttest c s
  | .powerPolicy c => Sys2Proof.Machine.execPowerPolicy c s
  | .thermalQuery c => Sys2Proof.Machine.execThermalQuery c s
  | .errLogRead c => Sys2Proof.Machine.execErrLogRead c s
  | .inject c => Sys2Proof.Machine.execInject c s
  | .odometerRead c => Sys2Proof.Machine.execOdometerRead c s
  | .unitUnfence c => Sys2Proof.Machine.execUnitUnfence c s
  | .unfenceCheckComplete unit failedStep dirDouble => Sys2Proof.Machine.execUnfenceCheckComplete unit failedStep dirDouble s
  | .tandemPair c => Sys2Proof.Machine.execTandemPair c s
  | .partnerAttestReport report nonce => Sys2Proof.Machine.execPartnerAttestReport report nonce s
  | .tandemHandover c => Sys2Proof.Machine.execTandemHandover c s
  | .handoverDrainDone => Sys2Proof.Machine.execHandoverDrainDone s
  | .relayedRequest m port => Sys2Proof.Machine.execRelayedRequest m port s
  | .expel c => Sys2Proof.Machine.execExpel c s
  | .admit_ c => Sys2Proof.Machine.execAdmit c s
  | .managerKeys c => Sys2Proof.Machine.execManagerKeys c s
  | .tripRead c => Sys2Proof.Machine.execTripRead c s
  | .timeSet c => Sys2Proof.Machine.execTimeSet c s
  | .timeSetTimeout => Sys2Proof.Machine.execTimeSetTimeout s
  | .ld at_ size sd addr => Sys2Proof.Machine.execLd at_ size sd addr s
  | .ldU at_ size sd addr => Sys2Proof.Machine.execLdU at_ size sd addr s
  | .st at_ size ss addr => Sys2Proof.Machine.execSt at_ size ss addr s
  | .stF at_ size ss addr => Sys2Proof.Machine.execStF at_ size ss addr s
  | .atom at_ code size sd addr sa sb => Sys2Proof.Machine.execAtom at_ code size sd addr sa sb s
  | .fence at_ => Sys2Proof.Machine.execFence at_ s
  | .acq at_ sa sb => Sys2Proof.Machine.execAcq at_ sa sb s
  | .sigAdd at_ obj ss => Sys2Proof.Machine.execSigAdd at_ obj ss s
  | .sigSet at_ obj ss => Sys2Proof.Machine.execSigSet at_ obj ss s
  | .wait at_ obj cmp ss sa sb sl sd => Sys2Proof.Machine.execWait at_ obj cmp ss sa sb sl sd s
  | .ldP at_ size sd addr => Sys2Proof.Machine.execLdP at_ size sd addr s
  | .stP at_ size ss addr => Sys2Proof.Machine.execStP at_ size ss addr s
  | .vldP at_ vd addr => Sys2Proof.Machine.execVldP at_ vd addr s
  | .vstP at_ vs addr => Sys2Proof.Machine.execVstP at_ vs addr s
  | .vpack at_ vs addr fmt gear => Sys2Proof.Machine.execVpack at_ vs addr fmt gear s
  | .xaSave at_ xa addr => Sys2Proof.Machine.execXaSave at_ xa addr s
  | .xaMerge at_ xa addr => Sys2Proof.Machine.execXaMerge at_ xa addr s
  | .mma at_ t sd => Sys2Proof.Machine.execMma at_ t sd s
  | .mmaDequeue tile => Sys2Proof.Machine.execMmaDequeue tile s
  | .accRd at_ vd t r => Sys2Proof.Machine.execAccRd at_ vd t r s
  | .accWr at_ t r vs => Sys2Proof.Machine.execAccWr at_ t r vs s
  | .accClr at_ t => Sys2Proof.Machine.execAccClr at_ t s
  | .dp at_ cfg vd va vb vc sa => Sys2Proof.Machine.execDp at_ cfg vd va vb vc sa s
  | .scalarIntegerOperation at_ code sd sa sb => Sys2Proof.Machine.execScalarIntegerOperation at_ code sd sa sb s
  | .branch at_ code sa target => Sys2Proof.Machine.execBranch at_ code sa target s
  | .loopCounter at_ code sa target => Sys2Proof.Machine.execLoopCounter at_ code sa target s
  | .yield_ at_ => Sys2Proof.Machine.execYield at_ s
  | .halt at_ => Sys2Proof.Machine.execHalt at_ s
  | .id_ at_ sd => Sys2Proof.Machine.execId at_ sd s
  | .strStart at_ n ss => Sys2Proof.Machine.execStrStart at_ n ss s
  | .strWait at_ n => Sys2Proof.Machine.execStrWait at_ n s
  | .strStop at_ n => Sys2Proof.Machine.execStrStop at_ n s
  | .loadDataReturn tile ctx remote => Sys2Proof.Machine.execLoadDataReturn tile ctx remote s
  | .storeLandingAck tile store status => Sys2Proof.Machine.execStoreLandingAck tile store status s
  | .streamBeatCompletion tile n remote => Sys2Proof.Machine.execStreamBeatCompletion tile n remote s
  | .signalApply tile ctx => Sys2Proof.Machine.execSignalApply tile ctx s
  | .waitLimitExpiry tile ctx => Sys2Proof.Machine.execWaitLimitExpiry tile ctx s
  | .tileIssueWatchdog tile => Sys2Proof.Machine.execTileIssueWatchdog tile s
  | .rdShared r => Sys2Proof.Machine.execRdShared r s
  | .rdOwn r => Sys2Proof.Machine.execRdOwn r s
  | .upgrade r => Sys2Proof.Machine.execUpgrade r s
  | .rdCur r => Sys2Proof.Machine.execRdCur r s
  | .wrFull r data => Sys2Proof.Machine.execWrFull r data s
  | .wrPart r mask data => Sys2Proof.Machine.execWrPart r mask data s
  | .wrHint r mask data target => Sys2Proof.Machine.execWrHint r mask data target s
  | .atomic r op => Sys2Proof.Machine.execAtomic r op s
  | .wbM r data => Sys2Proof.Machine.execWbM r data s
  | .evictClean r => Sys2Proof.Machine.execEvictClean r s
  | .rspI a trk => Sys2Proof.Machine.execRspI a trk s
  | .rspS a trk => Sys2Proof.Machine.execRspS a trk s
  | .rspX a trk => Sys2Proof.Machine.execRspX a trk s
  | .rspStashOk a trk => Sys2Proof.Machine.execRspStashOk a trk s
  | .rspStashRefuse a trk => Sys2Proof.Machine.execRspStashRefuse a trk s
  | .datFwd a trk data keepsS => Sys2Proof.Machine.execDatFwd a trk data keepsS s
  | .cmpAck a trk => Sys2Proof.Machine.execCmpAck a trk s
  | .memRd trk => Sys2Proof.Machine.execMemRd trk s
  | .memWr trk => Sys2Proof.Machine.execMemWr trk s
  | .memAtom trk => Sys2Proof.Machine.execMemAtom trk s
  | .memRdata trk => Sys2Proof.Machine.execMemRdata trk s
  | .memWack trk => Sys2Proof.Machine.execMemWack trk s
  | .snoopTimeout a trk => Sys2Proof.Machine.execSnoopTimeout a trk s
  | .grantAckTimeout a trk => Sys2Proof.Machine.execGrantAckTimeout a trk s
  | .memoryTimeout trk => Sys2Proof.Machine.execMemoryTimeout trk s
  | .agentLossScanEnd a => Sys2Proof.Machine.execAgentLossScanEnd a s
  | .remoteStoreArrival p port => Sys2Proof.Machine.execRemoteStoreArrival p port s
  | .flaggedStoreArrival p port => Sys2Proof.Machine.execFlaggedStoreArrival p port s
  | .seqAck source dst base landed refused => Sys2Proof.Machine.execSeqAck source dst base landed refused s
  | .seqAckTimer source => Sys2Proof.Machine.execSeqAckTimer source s
  | .fenceReq ends txn seq epoch => Sys2Proof.Machine.execFenceReq ends txn seq epoch s
  | .discardOrder source fromModule => Sys2Proof.Machine.execDiscardOrder source fromModule s
  | .e2eLimitExpiry source dst load => Sys2Proof.Machine.execE2eLimitExpiry source dst load s
  | .windowRetentionExpiry source => Sys2Proof.Machine.execWindowRetentionExpiry source s
  | .packetAgeDiscard port p => Sys2Proof.Machine.execPacketAgeDiscard port p s
  | .gatewayFrame fromPeloton port records => Sys2Proof.Machine.execGatewayFrame fromPeloton port records s
  | .gatewayBlockRead opa data status => Sys2Proof.Machine.execGatewayBlockRead opa data status s
  | .frameAgeExpiry peloton module => Sys2Proof.Machine.execFrameAgeExpiry peloton module s
  | .flitError flit => Sys2Proof.Machine.execFlitError flit s
  | .portTrained port => Sys2Proof.Machine.execPortTrained port s
  | .linkLoss port => Sys2Proof.Machine.execLinkLoss port s
  | .portRetrainLimit port => Sys2Proof.Machine.execPortRetrainLimit port s
  | .portRetrainRetry port => Sys2Proof.Machine.execPortRetrainRetry port s
  | .cxlPortDownLimit port => Sys2Proof.Machine.execCxlPortDownLimit port s
  | .identifyMemoryDevice port ld => Sys2Proof.Machine.execIdentifyMemoryDevice port ld s
  | .getSupportedLogs port ld => Sys2Proof.Machine.execGetSupportedLogs port ld s
  | .getLog port ld log offset length => Sys2Proof.Machine.execGetLog port ld log offset length s
  | .getEventRecords port ld => Sys2Proof.Machine.execGetEventRecords port ld s
  | .clearEventRecords port ld handles => Sys2Proof.Machine.execClearEventRecords port ld handles s
  | .getTimestamp port ld => Sys2Proof.Machine.execGetTimestamp port ld s
  | .getDynamicCapacityConfiguration port ld => Sys2Proof.Machine.execGetDynamicCapacityConfiguration port ld s
  | .getDynamicCapacityExtentList port ld start count => Sys2Proof.Machine.execGetDynamicCapacityExtentList port ld start count s
  | .setTimestamp port ld => Sys2Proof.Machine.execSetTimestamp port ld s
  | .sanitize port ld => Sys2Proof.Machine.execSanitize port ld s
  | .secureErase port ld => Sys2Proof.Machine.execSecureErase port ld s
  | .scanMedia port ld => Sys2Proof.Machine.execScanMedia port ld s
  | .fmApiBind port ld unbind => Sys2Proof.Machine.execFmApiBind port ld unbind s
  | .dynamicCapacityHostRequest port ld release => Sys2Proof.Machine.execDynamicCapacityHostRequest port ld release s
  | .mirrorWrite m => Sys2Proof.Machine.execMirrorWrite m s
  | .landingMark source epoch seq => Sys2Proof.Machine.execLandingMark source epoch seq s
  | .commitRecord extents shadows => Sys2Proof.Machine.execCommitRecord extents shadows s
  | .commitPreparedAck extents => Sys2Proof.Machine.execCommitPreparedAck extents s
  | .committedMark extents => Sys2Proof.Machine.execCommittedMark extents s
  | .resyncPageCopy page => Sys2Proof.Machine.execResyncPageCopy page s
  | .twinLinkDown => Sys2Proof.Machine.execTwinLinkDown s
  | .twinLinkUp lanes => Sys2Proof.Machine.execTwinLinkUp lanes s
  | .granuleCopyComplete id granule => Sys2Proof.Machine.execGranuleCopyComplete id granule s
  | .flashReadComplete id units => Sys2Proof.Machine.execFlashReadComplete id units s
  | .flashProgramComplete p => Sys2Proof.Machine.execFlashProgramComplete p s
  | .programFailure die id block => Sys2Proof.Machine.execProgramFailure die id block s
  | .scheduleEntryStart base => Sys2Proof.Machine.execScheduleEntryStart base s
  | .scheduleFillComplete base pass entry => Sys2Proof.Machine.execScheduleFillComplete base pass entry s
  | .scheduleRelease base pass entry => Sys2Proof.Machine.execScheduleRelease base pass entry s
  | .readDisturbRelocation die block units => Sys2Proof.Machine.execReadDisturbRelocation die block units s
  | .flashPatrol die block needsSoft units => Sys2Proof.Machine.execFlashPatrol die block needsSoft units s
  | .relocationComplete m => Sys2Proof.Machine.execRelocationComplete m s
  | .dieFailure cluster die => Sys2Proof.Machine.execDieFailure cluster die s
  | .rebuildComplete cluster die => Sys2Proof.Machine.execRebuildComplete cluster die s
  | .clusterMountComplete cluster mounts => Sys2Proof.Machine.execClusterMountComplete cluster mounts s
  | .clusterMountTimeout cluster => Sys2Proof.Machine.execClusterMountTimeout cluster s
  | .memoryControllerTimeout unit => Sys2Proof.Machine.execMemoryControllerTimeout unit s
  | .interconnectHopFailure unit => Sys2Proof.Machine.execInterconnectHopFailure unit s
  | .firmwareWatchdogExpiry core compartment => Sys2Proof.Machine.execFirmwareWatchdogExpiry core compartment s
  | .managementObservation unit code => Sys2Proof.Machine.execManagementObservation unit code s
  | .memoryPatrol offset found => Sys2Proof.Machine.execMemoryPatrol offset found s
  | .odometerRecordWrite seq crcOk => Sys2Proof.Machine.execOdometerRecordWrite seq crcOk s
  | .boot b => Sys2Proof.Machine.execBoot b s
  | .supplyWarning mv => Sys2Proof.Machine.execSupplyWarning mv s
  | .supplyRecovery mv => Sys2Proof.Machine.execSupplyRecovery mv s
  | .brownOut mv => Sys2Proof.Machine.execBrownOut mv s
  | .overVoltage mv => Sys2Proof.Machine.execOverVoltage mv s
  | .converterStop mv => Sys2Proof.Machine.execConverterStop mv s
  | .currentLimit ma => Sys2Proof.Machine.execCurrentLimit ma s
  | .inputPowerLimit w => Sys2Proof.Machine.execInputPowerLimit w s
  | .brakeRelease w => Sys2Proof.Machine.execBrakeRelease w s
  | .brakeThreshold sensor temp => Sys2Proof.Machine.execBrakeThreshold sensor temp s
  | .thermalTrip sensor temp => Sys2Proof.Machine.execThermalTrip sensor temp s
  | .temperatureShutdown sensor temp => Sys2Proof.Machine.execTemperatureShutdown sensor temp s
  | .memoryOverTemperature sensor temp => Sys2Proof.Machine.execMemoryOverTemperature sensor temp s
  | .nandOverTemperature cluster temp => Sys2Proof.Machine.execNandOverTemperature cluster temp s
  | .vfLoopTick spoke mhz pinW temp => Sys2Proof.Machine.execVfLoopTick spoke mhz pinW temp s
  | .linkWidthNarrow tandem link queued => Sys2Proof.Machine.execLinkWidthNarrow tandem link queued s
  | .coastIdleTimer => Sys2Proof.Machine.execCoastIdleTimer s
  | .coastWake => Sys2Proof.Machine.execCoastWake s
  | .freewheelWakeTimer => Sys2Proof.Machine.execFreewheelWakeTimer s
  | .wakeN => Sys2Proof.Machine.execWakeN s
  | .resetN low => Sys2Proof.Machine.execResetN low s
  | .busbarEngage mv => Sys2Proof.Machine.execBusbarEngage mv s
  | .ppsEdge => Sys2Proof.Machine.execPpsEdge s
  | .ppsLost => Sys2Proof.Machine.execPpsLost s
  | .recoveryPiece offset length last rsv data => Sys2Proof.Machine.execRecoveryPiece offset length last rsv data s
  | .odometerRawRead position count => Sys2Proof.Machine.execOdometerRawRead position count s
  | .setEndpointId eid => Sys2Proof.Machine.execSetEndpointId eid s
  | .getEndpointId => Sys2Proof.Machine.execGetEndpointId s
  | .getMctpVersionSupport msgType => Sys2Proof.Machine.execGetMctpVersionSupport msgType s
  | .getMessageTypeSupport => Sys2Proof.Machine.execGetMessageTypeSupport s
  | .getVendorDefinedMessageSupport selector => Sys2Proof.Machine.execGetVendorDefinedMessageSupport selector s
  | .i3cDynamicAddressAssignment addr => Sys2Proof.Machine.execI3cDynamicAddressAssignment addr s
  | .bypass tap => Sys2Proof.Machine.execBypass tap s
  | .idcode tap => Sys2Proof.Machine.execIdcode tap s
  | .samplePreload tap => Sys2Proof.Machine.execSamplePreload tap s
  | .extest tap => Sys2Proof.Machine.execExtest tap s
  | .extestPulse tap => Sys2Proof.Machine.execExtestPulse tap s
  | .extestTrain tap => Sys2Proof.Machine.execExtestTrain tap s
  | .clamp tap => Sys2Proof.Machine.execClamp tap s
  | .highz tap => Sys2Proof.Machine.execHighz tap s
  | .axfotikLaneFailure lane => Sys2Proof.Machine.execAxfotikLaneFailure lane s
  | .axfotikLaneUp lane => Sys2Proof.Machine.execAxfotikLaneUp lane s
  | .mirrorWaitLimit w => Sys2Proof.Machine.execMirrorWaitLimit w s
  | .protocolEngineFault unit => Sys2Proof.Machine.execProtocolEngineFault unit s
  | .managementReportsFailure unit code => Sys2Proof.Machine.execManagementReportsFailure unit code s
  | .injectionDurationEnd held => Sys2Proof.Machine.execInjectionDurationEnd held s
  | .activationPrimaryResume => Sys2Proof.Machine.execActivationPrimaryResume s
  | .supplyReturn mv => Sys2Proof.Machine.execSupplyReturn mv s
  | .overVoltageRestart mv => Sys2Proof.Machine.execOverVoltageRestart mv s
  | .aux3v3Change present => Sys2Proof.Machine.execAux3v3Change present s
  | .strapChange pins => Sys2Proof.Machine.execStrapChange pins s
  | .memoryTemperatureFall sensor temp => Sys2Proof.Machine.execMemoryTemperatureFall sensor temp s
  | .getPoisonList port ld => Sys2Proof.Machine.execGetPoisonList port ld s
  | .injectPoison port ld => Sys2Proof.Machine.execInjectPoison port ld s
  | .clearPoison port ld => Sys2Proof.Machine.execClearPoison port ld s
  | .partitionCommand port ld => Sys2Proof.Machine.execPartitionCommand port ld s
  | .cdatDoeRequest port ld => Sys2Proof.Machine.execCdatDoeRequest port ld s

end Sys2Proof.Machine
end

