-- ==== Sys2Proof/Certificates/Slice0/Obligations.lean ====
section
/-! DEFINITION. The statements for the provers, one `def Obligations.<Name> : Prop` each (OBLIGATIONS.json lists them),
and the few predicates they share. A frame is written as an equation: `t = { s with port := t.port }` says that `t` and
`s` differ in the port only. -/

namespace Sys2Proof.Claims

open Sys2Proof.Machine

/-- The checks of R299 and the busy states pass; then the command is open. -/
def passes (op : Nat) (c : Cmd) (s : State) : Option State :=
  if (hdrChecks s op c).isNone && (busyChecks s op c).isNone then some (openCmd (openOf op c) s) else none

/-- The packet of opcode `op` reaches its own chapter: the state in which its chapter runs. None: it is refused, held,
dropped or answered from the kept tags (R295, R296, R299, R300, R312, R410). -/
def runsIn (op : Nat) (c : Cmd) (s : State) : Option State :=
  match c.h.src with
  | .queue q => if s.phase = .running && s.queues.any (·.q = q) then passes op c s else none
  | .sideband =>
    if (s.phase = .running || (s.phase = .recoveryImage && recoveryServes op)) &&
        (s.port.sbVersion.isSome || op == 0x001)
    then passes op c s else none
  | .port =>
    if (s.phase = .running || s.phase = .recoveryImage) && decide (portAdmit (wakeUp s) op c = .run)
    then passes op c (wakeUp s) else none

/-- The state after a command of opcode `op` is completed with a status, a result and a payload (R298). -/
def replied (op : Nat) (c : Cmd) (st : Status) (result : Word) (payload : List Byte) (u : State) : State :=
  complete (openOf op c) st result payload u

/-- An access of an engine of this module to bytes of one line meets nothing that makes it wait or refuses it: its rider has
the rights, the extent is not lap-versioned, the line has no other transaction and no directory entry, and no injection is
armed (R25, R27, R102, R112, R124, R344). -/
structure Quiet (s : State) (q : Rq) (off : Nat) (write : Bool) (x : Extent) : Prop where
  rights  : accessAt s q off write = .inr x
  unfenced : x.fenced = false
  plain   : extLapped s x = false
  single  : q.op.bind (heldView x) = none
  first   : findTicket s (q.key off) write = none
  free    : lineBusy s (lineOf off) write = false
  scanned : scanHolds s off = false
  uncached : dirOf s (lineOf off) = none
  clean   : s.err.inj = [] ∧ s.store.soft = []

/-- The frame of a granule is in memory, in service (R14, R66, R336). -/
structure InFrame (s : State) (off f : Nat) (fr : Frame) : Prop where
  frame : pageLoc s.store (pageOf off) (granuleOf off) = .frame f
  found : findFrame s.store f = some fr
  up    : frameFenced s fr off = false

/-- A read of `len` bytes of one line is answered at once: from an absent page, or from a frame whose code words can be read
(R66, R112, R323). -/
def Reads (s : State) (q : Rq) (off len : Nat) : Prop :=
  ∃ x, Quiet s q off false x ∧ (pageLoc s.store (pageOf off) (granuleOf off) = .absent ∨
    ∃ f fr, InFrame s off f fr ∧ badAt s.store fr.tier (f * 65536 + off % 65536) len = false)

/-- The bytes that the store holds at an offset, inside one granule: an absent page holds zeros. -/
def held (s : State) (off len : Nat) : List Byte :=
  match pageLoc s.store (pageOf off) (granuleOf off) with
  | .frame f => memReadN s.store.mem (f * 65536 + off % 65536) len
  | _ => zeros len

/-- The bytes that the store holds in a range. -/
def heldN (s : State) (off len : Nat) : List Byte := (piecesOf off len).flatMap fun p => held s p.1 p.2

/-- A write of bytes of one line lands at once in the frame `f`: its page has no staging copy, no program holds it, no code
word beyond correction is written in part, and it is not synchronously mirrored (R66, R75, R112, R148, R325). -/
structure Writes (s : State) (q : Rq) (off f : Nat) (fr : Frame) (bs : List Byte) (x : Extent) : Prop where
  quiet : Quiet s q off true x
  frame : InFrame s off f fr
  alone : (findPage s.store (pageOf off)).copy = none
  idle  : programHolds s.store (pageOf off) = false
  whole : partialBad s.store (frameTier s.store f) (f * 65536 + off % 65536) (allBytes bs) = false
  own   : syncMirror s x (pageOf off) = none
  sent  : s.pair.inFlight.contains (pageOf off) = false

/-- What such a write leaves: the bytes in the frame, a mark on the doorbell lines on which it landed (R148, R311), and the
rider's meter. -/
def written (q : Rq) (off f : Nat) (bs : List Byte) (s : State) : State :=
  meterWr q.rider bs.length
    { s with
      store := putBytes (frameTier s.store f) (f * 65536 + off % 65536) (allBytes bs) s.store
      bells := strike off (allBytes bs) s.bells }

/-- A translation that an entry of the client's micro-TLB gives, with no translation of the client outstanding (R54, R55). -/
structure Hits (s : State) (cl : XClient) (r : BitVec 6) (va : Word) (write : Bool) (opa : Word) : Prop where
  inService : unitFenced s (unitChainring (clientWheel cl)) = false
  inSpace   : va.toNat < 2 ^ 57
  rooted    : (rootOf s r).isSome = true
  mapped    : unmapCovers s r va.toNat = false
  quiet     : clientWalks s cl = []
  hit       : (microHit s cl r va.toNat write).map (·.opaOf va.toNat) = some opa

end Sys2Proof.Claims

open Sys2Proof Sys2Proof.Machine Sys2Proof.Claims

/-! ### The queue of commands -/

/-- A step takes the command at the front and runs `exec` on it with the queue's rest. -/
def Obligations.StepRunsFrontCommand : Prop :=
  ∀ (c : Instr) (rest : List Instr) (s : State),
    step { s with pending := c :: rest } = exec c { s with pending := rest }

/-- R5: no behaviour is left undefined; every step of every state answers a next state. On an empty queue the clock
ticks (the model's choice, notes/assumptions/57.md): nothing moves while the module is off or held in reset, and outside
the phase running only the clock, the meters, the log and what holds for one moment change; no byte of memory does. -/
def Obligations.EveryStepGoesOn : Prop :=
  (∀ s : State, ∃ t, step s = .next t) ∧
  (∀ s : State, s.pending = [] → s.phase = .off ∨ s.phase = .inReset → step s = .next s) ∧
  (∀ s : State, s.pending = [] → s.phase ≠ .off → s.phase ≠ .inReset → s.phase ≠ .running → ∃ t, step s = .next t ∧
    t = { s with time := tickCadence s.time, trip := t.trip, pair := t.pair, store := t.store, err := t.err } ∧
    t.err.fences = s.err.fences ∧
    t.store.mem = s.store.mem ∧ t.pair.inFlight = [] ∧ (s.comp = none → t.trip = s.trip))

/-! ### Packets: refusals, `NOP`, `HELLO` -/

/-- Command rows with their opcodes, part 1. -/
def Sys2Proof.Claims.packetRows1 : List (Nat × (Cmd → Instr)) :=
  [(0x000, .nop), (0x001, .hello), (0x010, .regRead), (0x011, .regWrite), (0x011, .crCohCtrlWrite),
    (0x011, .hsFabricCtrlWrite), (0x011, .lose), (0x010, .crXlatStatusRead), (0x010, .crCohStatusRead),
    (0x010, .sbFtlHealthRead), (0x010, .crEmbStatusRead), (0x010, .crNmStatusRead), (0x010, .spTileCountersRead),
    (0x010, .hsErrStatusRead), (0x010, .dlPortStatusRead)]

/-- Command rows with their opcodes, part 2. -/
def Sys2Proof.Claims.packetRows2 : List (Nat × (Cmd → Instr)) :=
  [(0x019, .riderReset), (0x020, .queueCreate), (0x021, .queueDestroy), (0x100, .extentAssign), (0x101, .extentRevoke),
    (0x102, .extentQuery), (0x103, .lossAck), (0x180, .ptBaseSet), (0x181, .mapRange), (0x182, .unmapRange),
    (0x200, .lapOpen), (0x201, .lapBeginWrite), (0x202, .lapCommit), (0x203, .lapClose), (0x204, .stageMark),
    (0x205, .stageRollback)]

/-- Command rows with their opcodes, part 3. -/
def Sys2Proof.Claims.packetRows3 : List (Nat × (Cmd → Instr)) :=
  [(0x280, .objPlace), (0x282, .pagePin), (0x283, .pageEvict), (0x284, .flashTrim), (0x300, .embTableDefine),
    (0x301, .embLookup), (0x302, .embUpdate), (0x380, .nmFill), (0x381, .nmCopy), (0x382, .nmCompare),
    (0x383, .nmReduce), (0x400, .tileLoad), (0x401, .tileStart), (0x402, .tileStop), (0x403, .syncSet),
    (0x404, .syncWait), (0x480, .bulkWrite), (0x481, .bulkRead)]

/-- Command rows with their opcodes, part 4. -/
def Sys2Proof.Claims.packetRows4 : List (Nat × (Cmd → Instr)) :=
  [(0x500, .fwStage), (0x501, .fwActivate), (0x502, .attest), (0x580, .powerPolicy), (0x581, .thermalQuery),
    (0x600, .errLogRead), (0x601, .inject), (0x602, .odometerRead), (0x603, .unitUnfence), (0x680, .tandemPair),
    (0x681, .tandemHandover), (0x682, .expel), (0x683, .admit_), (0x684, .managerKeys), (0x700, .tripRead),
    (0x701, .timeSet)]

/-- Every command row whose packet runs by its opcode alone, with that opcode. -/
def Sys2Proof.Claims.packetRows : List (Nat × (Cmd → Instr)) := packetRows1 ++ packetRows2 ++ packetRows3 ++ packetRows4

/-- R299: a port command whose header fails a check is completed with that check's status and changes nothing else (a
module that sleeps wakes to answer, R375). -/
def Sys2Proof.Claims.RefusedHeaderChangesNothing : Prop :=
  ∀ row ∈ packetRows, ∀ (c : Cmd) (s : State) (st : Status),
    c.h.src = .port → s.phase = .running → portAdmit (wakeUp s) row.1 c = .run →
    hdrChecks (wakeUp s) row.1 c = some st →
      exec (row.2 c) s = .next (complete (openOf row.1 c) st 0 [] (wakeUp s))

/-- R299: the order of the header checks; the first failing one gives the status. -/
def Sys2Proof.Claims.HeaderCheckOrder : Prop :=
  ∀ (s : State) (op : Nat) (c : Cmd),
    (hdrForm s op c = false → hdrChecks s op c = some .badParam) ∧
    (hdrForm s op c = true → opInfo op = none → hdrChecks s op c = some .badOpcode) ∧
    ∀ i, hdrForm s op c = true → opInfo op = some i →
      (hdrSource s i op c = false → hdrChecks s op c = some .auth) ∧
      (hdrSource s i op c = true → hdrFlags s i op c = false → hdrChecks s op c = some .badParam) ∧
      (hdrSource s i op c = true → hdrFlags s i op c = true → c.h.epoch ≠ 0 → c.h.epoch ≠ epochNow s →
        hdrChecks s op c = some .staleMap) ∧
      (hdrSource s i op c = true → hdrFlags s i op c = true → (c.h.epoch = 0 ∨ c.h.epoch = epochNow s) →
        hdrLens i op c = false → hdrChecks s op c = some .badParam) ∧
      (hdrSource s i op c = true → hdrFlags s i op c = true → (c.h.epoch = 0 ∨ c.h.epoch = epochNow s) →
        hdrLens i op c = true → hdrChecks s op c = none)

/-- R299, R375: the header checks, their order, and that a refused command changes nothing else. -/
def Obligations.HeaderChecks : Prop := RefusedHeaderChangesNothing ∧ HeaderCheckOrder

/-- R296, R303: `NOP` returns `OK` and does nothing; `HELLO` takes the highest version of 1 and 2 in the range that its
first parameter gives and answers the module's identity, boot count, epoch and number. -/
def Obligations.NopAndHelloComplete : Prop :=
  (∀ c s u, runsIn 0x000 c s = some u → exec (.nop c) s = .next (replied 0x000 c .ok 0 [] u)) ∧
  ∀ c s u v, runsIn 0x001 c s = some u → bits (c.p 0) 16 48 = 0 →
    chooseVersion (bits (c.p 0) 0 8) (bits (c.p 0) 8 8) = some v →
      (c.h.src = .port →
        exec (.hello c) s = .next (replied 0x001 c .ok 0
          (wordBytes (moduleId u (actingHeadset u)) ++ wordBytes u.env.fp ++ leBytes 4 u.nv.bootCount.toNat ++
            leBytes 4 (epochNow u).toNat ++ [v.setWidth 8, BitVec.ofNat 8 u.me] ++ List.replicate 6 0)
          { u with port.version := some v })) ∧
      (c.h.src = .sideband →
        exec (.hello c) s = .next (replied 0x001 c .ok 0
          (wordBytes (moduleId u (actingHeadset u)) ++ wordBytes u.env.fp ++ leBytes 4 u.nv.bootCount.toNat ++
            leBytes 4 (epochNow u).toNat ++ [v.setWidth 8, BitVec.ofNat 8 u.me] ++ List.replicate 6 0)
          { u with port.sbVersion := some v }))

/-! ### Registers -/

/-- The rows that read a register. -/
def Sys2Proof.Claims.regReadRows : List (Cmd → Instr) :=
  [.regRead, .crXlatStatusRead, .crCohStatusRead, .sbFtlHealthRead, .crEmbStatusRead, .crNmStatusRead,
    .spTileCountersRead, .hsErrStatusRead, .dlPortStatusRead]

/-- R304: a read of a register that the address names returns its value and clears its fields of access RC. -/
def Sys2Proof.Claims.RegisterReadCompletes : Prop :=
  ∀ row ∈ regReadRows, ∀ (c : Cmd) (s u : State) (d : Nat) (r : RegName),
    runsIn 0x010 c s = some u → regsOf (c.p 0).toNat false = .inr [(d, r)] →
    failedHeadset u ((c.p 0).toNat / 2 ^ 28) d = false →
      exec (row c) s = .next (replied 0x010 c .ok (regValue u r) [] (clearOnRead r u))

/-- R8, R120, R123, R271, R304, R406: what a write to a register leaves. Values out of range of `CR_COH_CTRL` and
`HS_FABRIC_CTRL` are stored at the nearest one; a register without a writable field takes nothing. -/
def Sys2Proof.Claims.RegisterWriteCompletes : Prop :=
  (∀ (c : Cmd) (s u : State) (d : Nat) (r : RegName),
    runsIn 0x011 c s = some u → regsOf (c.p 0).toNat true = .inr [(d, r)] →
    failedHeadset u ((c.p 0).toNat / 2 ^ 28) d = false → (c.p 0).toNat / 2 ^ 28 ≠ 0xF →
      exec (.regWrite c) s = .next (replied 0x011 c .ok 0 [] (writeReg r (c.p 1) u)) ∧
      (∀ w, r = .cohCtrl w → exec (.crCohCtrlWrite c) s = .next (replied 0x011 c .ok 0 []
        { u with
          coh.timeouts := updAt u.coh.timeouts w fun _ => BitVec.ofNat 16 (max (bits (c.p 1) 32 16) 100)
          coh.trackers := updAt u.coh.trackers w fun _ => BitVec.ofNat 8 (bits (c.p 1) 8 8) })) ∧
      (r = .fabricCtrl → exec (.hsFabricCtrlWrite c) s = .next (replied 0x011 c .ok 0 []
        { u with
          fab.e2e := BitVec.ofNat 16 (max 1 (min 1000 (bits (c.p 1) 32 16)))
          fab.frameAge := BitVec.ofNat 8 (max 1 (bits (c.p 1) 8 8)) })) ∧
      (r = .agentCtrl → bit (c.p 1) 63 = true → exec (.lose c) s = .next (replied 0x011 c .ok 0 []
        (declareLost (BitVec.ofNat 10 (bits (c.p 1) 0 10)) 2 u))) ∧
      (∀ rising : BitVec 6, r = .alerts → exec (.hsAlertClear c rising) s = .next (replied 0x011 c .ok 0 []
        { u with side.alert := (u.side.alert &&& ~~~(BitVec.ofNat 6 (bits (c.p 1) 0 6))) ||| (u.side.alert &&& rising) })) ∧
      (r ∉ [.agentCtrl, .fabricCtrl, .alerts] → (∀ w, r ≠ .cohCtrl w) → writeReg r (c.p 1) u = u))

/-- R8, R120, R123, R271, R304, R406: reads and writes of registers. -/
def Obligations.RegisterAccessComplete : Prop := RegisterReadCompletes ∧ RegisterWriteCompletes

/-- R39: the fields of `HS_MAP_EPOCH`, at address 0x7001_0000. A write changes none of them. -/
def Obligations.MapEpochRegister : Prop :=
  regsOf 0x70010000 false = .inr [(0, .mapEpoch)] ∧ bits (regValue State.reset .mapEpoch) 0 32 = 0 ∧
  ∀ s : State, bits (regValue s .mapEpoch) 32 32 = s.nv.bootCount.toNat ∧
    bits (regValue s .mapEpoch) 0 32 = (match s.comp with | some c => c.epoch.toNat | none => 0) ∧
    ∀ v, writeReg .mapEpoch v s = s

/-- R340: bit i of each field of `HS_FENCE_MAP0` is set while unit i of its kind is fenced. No unit is fenced after reset,
and a write changes nothing. -/
def Obligations.FenceMapRegister : Prop :=
  regsOf 0x70060008 false = .inr [(0, .fenceMap0)] ∧ regValue State.reset .fenceMap0 = 0 ∧
  (∀ (v : Word) (s : State), writeReg .fenceMap0 v s = s) ∧
  ∀ (s : State) (i : Nat), i < 16 →
    bit (regValue s .fenceMap0) (48 + i) = unitFenced s (unitSpoke i) ∧
    bit (regValue s .fenceMap0) (32 + i) = unitFenced s (unitChainring i) ∧
    bit (regValue s .fenceMap0) (16 + i) = unitFenced s (unitCassette i) ∧
    bit (regValue s .fenceMap0) i = unitFenced s (unitHbm i)

/-- R378: when a power or thermal emergency is in force; `EMERGENCY`, bit 60 of `HS_POWER_STATUS`, reports it; an
activation starts or is deferred by it, and ends early under it. -/
def Obligations.EmergencyInForce : Prop :=
  ∀ s : State, (emergency s = true ↔
    s.power.hold = true ∨ (s.power.causes ≠ [] ∨ s.power.st = .brake) ∨ overrideOf s ≠ 0 ∨
      (s.power.st = .kickstand ∧ s.power.kick = 2)) ∧
    bit (regValue s .powerStatus) 60 = emergency s ∧
    (emergency s = true → calm s = false)

/-- R120, R271, R387, R394, R406, R419: registers right after reset. -/
def Obligations.ResetRegisters : Prop :=
  (∀ w, w < 16 → regValue State.reset (.cohCtrl w) = 0x00000FA000008000 ∧ regValue State.reset (.cohStatus w) = 0) ∧
  regValue State.reset .fabricCtrl = 0x0000006400001400 ∧ regValue State.reset .alerts = 0 ∧
  bits (regValue State.reset .mapEpoch) 0 32 = 0 ∧ regValue State.reset .drainStatus = 0 ∧
  regValue State.reset .fenceMap0 = 0 ∧ regValue State.reset .fenceMap1 = 0 ∧
  regValue State.reset .timeStatus = 0x4000000000000000 ∧ regValue State.reset .cadence = 0 ∧
  State.reset.pending = []

/-! ### Power, supply, temperatures, resets -/

/-- R370, R371, R373, R378 to R380: supply warning, recovery, over-voltage, current and input-power limits and the release
of Brake. Only the power state, the logs, the odometer and the alerts change. -/
def Sys2Proof.Claims.SupplyEventsComplete : Prop :=
  ∀ s : State, s.phase = .running →
    (∀ mv, mv ≤ 45000 → ∃ t, exec (.supplyWarning mv) s = .next t ∧
      t = { s with power := t.power, err := t.err, nv := t.nv, side := t.side } ∧
      t.power.hold = true ∧ t.power.vinMv = mv ∧ BrakeCause.supply ∈ t.power.causes ∧ bit t.side.alert 3 = true ∧
      (BrakeCause.supply ∉ s.power.causes → s.power.st ≠ .kickstand → s.power.st ≠ .freewheel →
        t.power.st = .brake ∧ t.power.mhz = List.replicate 16 600)) ∧
    (∀ mv, s.power.hold = true → 46000 < mv → ∃ t, exec (.supplyRecovery mv) s = .next t ∧
      t = { s with power := t.power, err := t.err, nv := t.nv, side := t.side } ∧
      t.power.hold = false ∧ t.power.vinMv = mv ∧ t.power.causes = s.power.causes.filter (· ≠ .supply) ∧
      (s.power.st = .brake → t.power.st = if t.power.causes = [] then .cruise else .brake) ∧
      (s.power.st ≠ .brake → t.power.st = s.power.st)) ∧
    (∀ mv, 62000 < mv → ∃ t, exec (.overVoltage mv) s = .next t ∧
      t = { s with power := t.power, err := t.err, nv := t.nv, side := t.side } ∧
      t.power.vinMv = mv ∧ BrakeCause.overVoltage ∈ t.power.causes ∧ t.power.hold = s.power.hold) ∧
    (∀ ma, 70000 ≤ ma → ∃ t, exec (.currentLimit ma) s = .next t ∧
      t = { s with power := t.power, err := t.err, nv := t.nv, side := t.side } ∧
      t.power.iinMa = ma ∧ BrakeCause.current ∈ t.power.causes ∧ t.power.hold = s.power.hold) ∧
    (∀ w, ∃ t, exec (.inputPowerLimit w) s = .next t ∧
      t = { s with power := t.power, err := t.err, nv := t.nv, side := t.side } ∧ t.power.pinW = w ∧
      (2800 < w → BrakeCause.inputPower ∈ t.power.causes) ∧
      (s.power.policy.brakeW ≤ w → BrakeCause.brakeW ∈ t.power.causes)) ∧
    (∀ w, w * 10 ≤ s.power.policy.brakeW * 9 → ∃ t, exec (.brakeRelease w) s = .next t ∧
      t = { s with power := t.power, err := t.err, nv := t.nv, side := t.side } ∧ t.power.pinW = w ∧
      t.power.causes = s.power.causes.filter (· = .supply) ∧
      (s.power.st = .brake → t.power.st = if t.power.causes = [] then .cruise else .brake))

/-- R379, R380, R384, R385, R416: what sensors do. A sensor above its Brake threshold engages Brake; above its trip
level it puts the module into Kickstand with cause 0x2, and the store's memory keeps its contents; a die above 125 °C turns
the package off; memory at 85 °C refreshes twice as often and NAND above 70 °C halves, above 85 °C holds its programs. -/
def Sys2Proof.Claims.TemperatureEventsComplete : Prop :=
  ∀ (s : State) (temp : BitVec 16),
    (∀ i d, s.phase = .running → brakeAt i.val = some d → hotter temp d = true → s.power.temps.length = 104 →
      ∃ t, exec (.brakeThreshold i temp) s = .next t ∧
        t = { s with power := t.power, err := t.err, nv := t.nv, side := t.side } ∧
        BrakeCause.temperature i ∈ t.power.causes ∧ t.power.temps[i.val]? = some temp) ∧
    (∀ i d, s.phase = .running → tripAt i.val = some d → hotter temp d = true →
      (sensorNand i.val = true → Config.hasFlash s.variant = true) →
      ∃ t, exec (.thermalTrip i temp) s = .next t ∧ t.power.st = .kickstand ∧
        (s.power.st ≠ .kickstand → t.power.kick = 2) ∧ bit t.side.alert 4 = true ∧ t.store.mem = s.store.mem ∧
        t.err.log.recs.getLast?.map (·.type) = some 0x000F) ∧
    (∀ i : Fin 104, s.phase ≠ .off → i.val < 96 → hotter temp 125 = true →
      ∃ t, exec (.temperatureShutdown i temp) s = .next t ∧ t.phase = .off ∧ t.side.pwrGood = false ∧
        t.power.hotStop = true ∧
        t.tiles = [] ∧ t.comp = none ∧ t.variant = s.variant ∧ t.pending = s.pending) ∧
    (∀ i : Fin 104, s.phase = .running → sensorMem i.val = true → temp ≠ 0x8000 → 85 * 16 ≤ temp.toInt →
      ∃ t, exec (.memoryOverTemperature i temp) s = .next t ∧
        t = { s with power := t.power, err := t.err, nv := t.nv, side := t.side } ∧ i ∈ t.power.hot ∧
        t.power.st = s.power.st) ∧
    (∀ i : Fin 104, s.phase = .running → sensorMem i.val = true → temp.toInt < 85 * 16 → s.power.hot.Nodup →
      ∃ t, exec (.memoryTemperatureFall i temp) s = .next t ∧
        t = { s with power := t.power, err := t.err, nv := t.nv, side := t.side } ∧ i ∉ t.power.hot) ∧
    (∀ (i : Fin 104) (k : Fin 4), s.phase = .running → i.val = 74 + k.val → Config.hasFlash s.variant = true →
      ∃ t, exec (.memoryTemperatureFall i temp) s = .next t ∧ t = { s with power := t.power } ∧
        (k ∈ t.power.halfNand ↔ hotter temp 70 = true) ∧ (k ∈ t.power.stopNand ↔ hotter temp 85 = true)) ∧
    (∀ k : Fin 4, s.phase = .running → Config.hasFlash s.variant = true → hotter temp 70 = true →
      ∃ t, exec (.nandOverTemperature k temp) s = .next t ∧ t = { s with power := t.power } ∧
        k ∈ t.power.halfNand ∧ (k ∈ t.power.stopNand ↔ hotter temp 85 = true))

/-- R370, R371, R373, R378 to R380, R384, R385, R416: what the supply and the temperature sensors do. -/
def Obligations.SupplyAndTemperatureComplete : Prop := SupplyEventsComplete ∧ TemperatureEventsComplete

/-- R374, R375, R379: the frequency loop keeps a clock within the policy's bounds while the die is not above its target;
link widths; Coast, Freewheel and their wakes. -/
def Sys2Proof.Claims.PowerLoopsAndWakesComplete : Prop :=
  ∀ s : State, s.phase = .running →
    (∀ (k : Fin 16) (mhz w : Nat) (temp : BitVec 16),
      (s.power.st = .cruise ∨ s.power.st = .sprint) → hotter temp (spokeTarget s) = false →
      s.power.mhz.length = 16 → s.power.policy.floorMhz % 100 = 0 →
      ∃ t, exec (.vfLoopTick k mhz w temp) s = .next t ∧
        t = { s with power := t.power, err := t.err, nv := t.nv, side := t.side } ∧ t.power.pinW = w ∧
        (∃ f, t.power.mhz[k.val]? = some f ∧ s.power.policy.floorMhz ≤ f ∧
          f ≤ max s.power.policy.floorMhz s.power.policy.ceilMhz) ∧
        (t.power.st = .sprint ↔ ∃ f ∈ t.power.mhz, 2400 < f)) ∧
    (∀ (i : Fin 24) (queued : Bool), exec (.linkWidthNarrow true i queued) s = .next
        { s with power.tdWidth := updAt s.power.tdWidth i.val fun w => if queued then 8 else max (widthFloor s) (w / 2) }) ∧
    (∀ (i : Fin 24) (queued : Bool), (portAt s i.val).oxf = true → portUp s i.val = true →
      exec (.linkWidthNarrow false i queued) s = .next
        (updPort i.val (fun p => { p with width := if queued then 8 else max (widthFloor s) (p.width / 2) }) s)) ∧
    (s.power.st = .cruise → bit s.power.policy.flags 1 = true → moduleIdle s = true →
      exec .coastIdleTimer s = .next { s with power.st := .coast }) ∧
    (s.power.st = .coast →
      exec .coastWake s = .next { s with power.st := if s.power.causes = [] then .cruise else .brake }) ∧
    (s.power.st = .freewheel →
      ∃ t, exec .wakeN s = .next t ∧ (s.power.wakeMs ≠ 0 → exec .freewheelWakeTimer s = .next t) ∧
        t = { s with power := { s.power with wakeMs := 0, st := t.power.st }, fab.ports := t.fab.ports } ∧
        t.power.st = (if s.power.causes = [] then .cruise else .brake) ∧
        ∀ i p, s.fab.ports[i]? = some p → ∃ q, t.fab.ports[i]? = some q ∧ q.up = p.up ∧
          (p.mode ≠ 0 → p.up = false → unitFenced s (unitPort i) = false → q.retraining = true))

/-- R372, R373, R400, R403, R404: power lost and back, and `RESET_N`. A reset leaves the queue of commands, the variant
and the odometer's records, empties the tiles, the queues and the composition, and keeps memory only in flash frames. -/
def Sys2Proof.Claims.ResetAndSupplyComplete : Prop :=
  ∀ s : State,
    (∀ mv, mv ≤ 41000 → s.phase ≠ .off → ∃ t, exec (.brownOut mv) s = .next t ∧ t.phase = .off ∧
      t.cause = (if s.phase = .stopped then 4 else 2) ∧ t.side.pwrGood = false ∧ t.tiles = [] ∧ t.queues = [] ∧
      t.comp = none ∧ t.variant = s.variant ∧ t.nv.rollbackSvn = s.nv.rollbackSvn ∧
      (∀ a, memGet t.store.mem a = memGet s.store.mem a ∨ memGet t.store.mem a = 0)) ∧
    (∀ mv, 64000 < mv → s.phase ≠ .off → ∃ t, exec (.converterStop mv) s = .next t ∧ t.phase = .off ∧
      t.power.overV = true ∧ t.side.pwrGood = false ∧ t.tiles = [] ∧ t.comp = none) ∧
    (∀ mv, s.phase = .off → s.power.overV = true → s.side.resetLow = false → 48000 ≤ mv → mv ≤ 60000 →
      exec (.overVoltageRestart mv) s = .next
        { s with
          phase := .released
          power.overV := false
          power.hotStop := false
          side := { s.side with pwrGood := true, sampled := s.side.pins } }) ∧
    (∀ mv, s.phase = .off → s.side.resetLow = false → 48000 ≤ mv →
      (s.power.overV = false → s.power.hotStop = false → exec (.supplyReturn mv) s = .next
        { s with
          phase := .released
          power.overV := false
          power.hotStop := false
          side := { s.side with pwrGood := true, sampled := s.side.pins } }) ∧
      exec (.busbarEngage mv) s = .next
        { s with
          phase := .released
          cause := 1
          power.overV := false
          power.hotStop := false
          side := { s.side with pwrGood := true, sampled := s.side.pins } }) ∧
    (s.phase ≠ .off → ∃ t, exec (.resetN true) s = .next t ∧ t.phase = .inReset ∧
      t.cause = (if s.phase = .stopped then 4 else 3) ∧ t.side.resetLow = true ∧ t.tiles = [] ∧ t.queues = [] ∧
      t.comp = none ∧ t.nv.odometer = s.nv.odometer ∧ t.pending = s.pending) ∧
    (s.phase = .inReset → exec (.resetN false) s = .next
      { s with
        phase := .released
        side := { s.side with resetLow := false, sampled := s.side.pins } })

/-- R372 to R375, R379, R400, R403, R404: the loops, the wakes, the resets and the supply rails. -/
def Obligations.PowerAndResetComplete : Prop := PowerLoopsAndWakesComplete ∧ ResetAndSupplyComplete

/-- R381, R386: `POWER_POLICY` with `STATE_REQ` 0 takes the bounds and moves the clocks of Cruise and Sprint into them,
with `STATE_REQ` 2 it goes from Cruise to Coast, with `STATE_REQ` 4 it parks the module; `THERMAL_QUERY` answers 240 bytes and
changes nothing. -/
def Obligations.PowerCommandsComplete : Prop :=
  (∀ c s u, runsIn 0x580 c s = some u → policyForm (paramBytes c.params) = true → fieldB (paramBytes c.params) 0 1 = 0 →
    ∃ w, exec (.powerPolicy c) s = .next (replied 0x580 c .ok 0 [] w) ∧ w = { u with power := w.power } ∧
      w.power.policy = parsePolicy (paramBytes c.params) ∧ (u.power.st = .brake → w.power.mhz = u.power.mhz) ∧
      (u.power.st = .cruise ∨ u.power.st = .sprint → u.power.slow = false → ∀ f ∈ w.power.mhz, f = 0 ∨
        ((parsePolicy (paramBytes c.params)).floorMhz ≤ f ∧ f ≤ (parsePolicy (paramBytes c.params)).ceilMhz))) ∧
  (∀ c s u, runsIn 0x580 c s = some u → policyForm (paramBytes c.params) = true → fieldB (paramBytes c.params) 0 1 = 2 →
    u.power.st = .cruise → exec (.powerPolicy c) s = .next (replied 0x580 c .ok 0 []
      { u with power.st := .coast, power.policy := parsePolicy (paramBytes c.params) })) ∧
  (∀ c s u, runsIn 0x580 c s = some u → policyForm (paramBytes c.params) = true → fieldB (paramBytes c.params) 0 1 = 4 →
    ∃ w, exec (.powerPolicy c) s = .next (replied 0x580 c .ok 0 [] w) ∧ w.power.st = .kickstand ∧
      w.power.policy = parsePolicy (paramBytes c.params) ∧ w.store.mem = u.store.mem) ∧
  (∀ c s u, runsIn 0x581 c s = some u → u.power.temps.length = 104 → ∃ b, b.length = 240 ∧
    exec (.thermalQuery c) s = .next (replied 0x581 c .ok 0 b u) ∧
    fieldB b 0 4 = u.power.vinMv % 2 ^ 32 ∧ fieldB b 4 4 = u.power.iinMa % 2 ^ 32 ∧ fieldB b 12 1 = u.power.st.code ∧
    ∀ i, i < 104 → some (BitVec.ofNat 16 (fieldB b (32 + 2 * i) 2)) =
      if sensorNand i = true ∧ Config.hasFlash u.variant = false then some 0x8000 else u.power.temps[i]?)

/-! ### Time and metering -/

/-- R391 to R394: an edge while no `TIME_SET` waits; 1.1 s without an edge; `TIME_SET` at once and at an edge; its
time-out. -/
def Sys2Proof.Claims.TimeCommandsComplete : Prop :=
  (∀ s : State, s.phase = .running → glitch s.time = false → s.time.waiting = [] →
    ∃ t, exec .ppsEdge s = .next t ∧ t = countTime s.now { s with time := t.time } ∧ t.time.lost = false ∧
      s.time.cadence.toNat ≤ t.time.cadence.toNat ∧
      (∀ x, s.time.expected = some x → s.time.lost = false → x.toNat ≤ s.time.cadence.toNat →
        t.time.cadence = s.time.cadence) ∧
      (∀ x, s.time.expected = some x → s.time.lost = false → s.time.cadence.toNat + 10000 < x.toNat →
        t.time.cadence = x)) ∧
  (∀ s : State, s.phase = .running → glitch s.time = true → exec .ppsEdge s = .next s) ∧
  (∀ s : State, s.phase = .running → exec .ppsLost s = .next
    { s with time := { s.time with lost := true, good := 0, slew := s.time.rate, owe := none } }) ∧
  (∀ c s u, runsIn 0x701 c s = some u → bits (c.p 1) 1 63 = 0 → timeOk u (c.p 0) = true →
    (bit (c.p 1) 0 = true → ∃ w, exec (.timeSet c) s = .next (replied 0x701 c .ok 0 [] w) ∧
      w = countTime u.now { u with time := w.time } ∧ w.time.cadence = c.p 0) ∧
    (bit (c.p 1) 0 = false → exec (.timeSet c) s = .next
      { u with time.waiting := u.time.waiting ++ [(openOf 0x701 c, c.p 0)] })) ∧
  (∀ (s : State) (o : Open) (v : Word), s.phase = .running → s.time.waiting = [(o, v)] → isOpen o s = true →
    exec .timeSetTimeout s = .next (complete o .timeout 0 [] { s with time.waiting := [] }))

/-- R393: the counter is set to a lower value at most once, and only before the first composition after a cold boot. -/
def Obligations.TimeSetNeverBackTwice : Prop :=
  ∀ c s u, runsIn 0x701 c s = some u → (c.p 0).toNat < u.time.cadence.toNat → (u.ever = true ∨ u.time.setBack = true) →
    exec (.timeSet c) s = .next (replied 0x701 c .badParam 0 [] u)

/-- R396, R397: `TRIP_READ` of the current composition answers a signed report and counts it. -/
def Sys2Proof.Claims.TripReadCompletes : Prop :=
  ∀ c s u, runsIn 0x700 c s = some u → c.h.src = .port → u.fw.identity = true → bits (c.p 0) 6 58 = 0 →
    ∃ b, exec (.tripRead c) s = .next (replied 0x700 c .ok 0 b { u with reportSeq := u.reportSeq + 1 }) ∧
      fieldB b 0 4 = 0x7217F064 ∧ fieldB b 16 4 = u.nv.bootCount.toNat ∧ fieldB b 20 4 = u.trip.epoch.toNat ∧
      fieldB b 24 8 = (u.reportSeq + 1) % 2 ^ 64

/-- R391 to R394, R396, R397: time and the trip computer. -/
def Obligations.TimeAndTripComplete : Prop := TimeCommandsComplete ∧ TripReadCompletes

/-! ### Sideband, JTAG, lanes, straps -/

/-- R407, R408: the MCTP control messages and the dynamic address, while the bridge has a supply. -/
def Sys2Proof.Claims.MctpAndI3cComplete : Prop :=
  ∀ s : State, bridgeUp s = true →
    (∀ eid : BitVec 8, 8 ≤ eid.toNat → eid ≠ 0xFF →
      exec (.setEndpointId eid) s = .next
        { s with
          side.eid := eid
          out := s.out ++ [.mctp "SET_ENDPOINT_ID" [0, eid.toNat]] }) ∧
    exec .getEndpointId s = .next { s with out := s.out ++ [.mctp "GET_ENDPOINT_ID" [0, s.side.eid.toNat]] } ∧
    (∀ ty : BitVec 8, exec (.getMctpVersionSupport ty) s = .next
      { s with out := s.out ++ [.mctp "GET_MCTP_VERSION_SUPPORT" (if ty = 0xFF ∨ ty = 0 then [0, 1, 3] else [0x80])] }) ∧
    exec .getMessageTypeSupport s = .next
      { s with out := s.out ++ [.mctp "GET_MESSAGE_TYPE_SUPPORT" [0, 1, 0x7F]] } ∧
    (∀ sel : BitVec 8, exec (.getVendorDefinedMessageSupport sel) s = .next
      { s with out := s.out ++ [.mctp "GET_VENDOR_DEFINED_MESSAGE_SUPPORT"
        (if sel = 0 then [0, 0xFF, 1, 0xF064, 0] else [2])] }) ∧
    (∀ a : BitVec 7, exec (.i3cDynamicAddressAssignment a) s = .next { s with side.dynAddr := some a })

/-- R408: the static address is 0x60 + `ADDR_SEL`; both straps floating give 0x63. -/
def Obligations.StaticAddress : Prop :=
  (∀ s : State, (staticAddr s).toNat = 0x60 + s.side.sampled.addrSel.toNat) ∧ staticAddr State.reset = 0x63

/-- R411, R412: a TAP takes the instruction and shifts out: `IDCODE` its identifier, `BYPASS` a zero, and an instruction
that needs `RESET_N` low acts as `BYPASS` while it is high; what the boundary captures is free. -/
def Sys2Proof.Claims.JtagInstructionsComplete : Prop :=
  ∀ row ∈ ([(.bypass, .bypass), (.idcode, .idcode), (.samplePreload, .samplePreload), (.extest, .extest),
      (.extestPulse, .extestPulse), (.extestTrain, .extestTrain), (.clamp, .clamp), (.highz, .highz)] :
      List ((Fin 12 → Instr) × JInstr)), ∀ (tap : Fin 12) (s : State), bridgeUp s = true →
    ∃ w n, exec (row.1 tap) s = .next
        { s with
          side.jtag := updAt s.side.jtag tap.val fun _ => row.2
          freeIdx := n
          out := s.out ++ [.jtag tap w] } ∧
      (row.2 = .idcode → w = (if tap.val < 2 then 0x1F06756B else if tap.val < 10 then 0x1F06456B else 0x1F06556B) ∧
        n = s.freeIdx) ∧
      (row.2 = .bypass → w = 0 ∧ n = s.freeIdx) ∧
      (s.side.resetLow = false → row.2 ≠ .idcode → row.2 ≠ .samplePreload → w = 0 ∧ n = s.freeIdx)

/-- R345, R409: a raw odometer read of 1 to 64 positions below 131,072 answers 64 bytes for each. -/
def Sys2Proof.Claims.OdometerRawReadCompletes : Prop :=
  ∀ (s : State) (position count : BitVec 32), bridgeUp s = true → position.toNat < 131072 → 1 ≤ count.toNat →
    count.toNat ≤ 64 → ∃ bs n, bs.length = 64 * count.toNat ∧
      exec (.odometerRawRead position count) s = .next
        { s with
          freeIdx := n
          out := s.out ++ [.sideband 0x83 .ok bs] }

/-- R295, R402, R405: the port's lanes, the auxiliary supply and the strap pins. -/
def Sys2Proof.Claims.LanesAndPinsComplete : Prop :=
  ∀ s : State,
    (∀ l : Fin 2, exec (.axfotikLaneFailure l) s = .next
      { s with port.lanes := updAt s.port.lanes l.val fun _ => false }) ∧
    (∀ l : Fin 2, exec (.axfotikLaneUp l) s = .next { s with port.lanes := updAt s.port.lanes l.val fun _ => true }) ∧
    (∀ p : StrapPins, exec (.strapChange p) s = .next { s with side.pins := p }) ∧
    exec (.aux3v3Change true) s = .next { s with side.aux := true } ∧
    (s.phase ≠ .off → exec (.aux3v3Change false) s = .next { s with side.aux := false }) ∧
    (s.phase = .off → exec (.aux3v3Change false) s = .next
      { s with side := { s.side with
        aux := false
        eid := 0
        dynAddr := none
        ibi := false
        jtag := List.replicate 12 .idcode } })

/-- R295, R345, R402, R405, R407 to R409, R411, R412: the sideband, the JTAG port and the pins. -/
def Obligations.SidebandComplete : Prop := MctpAndI3cComplete ∧ JtagInstructionsComplete ∧ OdometerRawReadCompletes ∧ LanesAndPinsComplete

/-! ### Tiles: bundles, registers, the pannier, the matrix array, the datapath -/

namespace Sys2Proof.Claims

/-- Context `k` of tile `x` runs program `p`, and no other context of the tile runs (R168). -/
structure Runs (a : At) (s : State) (x : Tile) (p : Prog) (k : Ctx) : Prop where
  up      : s.phase = .running
  tile    : findTile s a.tile = some x
  prog    : x.prog = some p
  ctx     : x.ctxs[a.ctx.toNat]? = some k
  first   : x.ctxs.findIdx? (·.st = .running) = some a.ctx.toNat
  running : k.st = .running
  inProg  : k.pc < p.bundles
  clean   : injMode s 0x02 (unitTile a.tile) = none

/-- The bundle at the context's program counter holds an operation in slot `z` alone, and none has been given yet. -/
structure Lone (z : BSlot) (a : At) (s : State) (x : Tile) (p : Prog) (k : Ctx) : Prop where
  runs  : Runs a s x p k
  slot  : p.slots k.pc = [z]
  fresh : k.bundle = []

/-- The state in which the operations of a bundle act. -/
def inSlot (a : At) (s : State) : State := updCtx a.tile a.ctx (fun k => { k with mid := true }) s

/-- A pannier access of `n` bytes at the offset that `addr` gives: inside the pannier, aligned, no armed injection. -/
structure Pannier (a : At) (s : State) (k : Ctx) (addr : AddrOp) (n align : Nat) : Prop where
  inside  : (k.addr addr).toNat + n ≤ 4194304
  aligned : (k.addr addr).toNat % align = 0
  clean   : injMode s 0x01 (unitTile a.tile) = none

/-- That state after the access has lost cycles to the banks that the feeds read (R178). -/
def inPannier (a : At) (k : Ctx) (addr : AddrOp) (n : Nat) (s : State) : State :=
  bankMeets a.tile (k.addr addr).toNat n (inSlot a s)

/-- The access that a load, or an atomic, of a slot makes, with its translation done. -/
def accessOf (a : At) (k : Ctx) (addr : AddrOp) (kind : AccKind) : Access :=
  { tile := a.tile, ctx := a.ctx, pc := k.pc, va := k.addr addr, kind := kind, late := false, done := true }

/-- The store entry of a slot, translated to an address of this module. -/
def entryOf (k : Ctx) (addr : AddrOp) (size : BitVec 2) (ss : BitVec 5) (flagged : Bool) (opa : Word) : StoreEnt :=
  { seq := k.nextSeq, data := leBytes (2 ^ size.toNat) (k.getS ss).toNat, va := k.addr addr, opa := opa, pc := k.pc,
    remote := false, flagged := flagged, ready := true, late := false }

/-- The wait that a `SYNC_WAIT` command leaves. -/
def cmdWait (c : Cmd) : Wait :=
  { who := .cmd (openOf 0x404 c), obj := BitVec.ofNat 14 (bits (c.p 0) 0 14), eq := bit (c.p 0) 16, value := c.p 1,
    limit := c.p 2 }

/-- After a bundle the context goes on by itself: nothing else ends its turn, no other context is ready, and a bundle with an
operation lies at or after `pc`. -/
structure GoesOn (a : At) (x : Tile) (p : Prog) (k : Ctx) (pc : Nat) : Prop where
  stays : k.jump = none ∧ k.block = .none ∧ k.ends = none ∧ k.turn = false
  alone : ∀ j m, x.ctxs[j]? = some m → j ≠ a.ctx.toNat → m.st ≠ .running ∧ m.st ≠ .ready
  next  : p.skip pc < p.bundles

end Sys2Proof.Claims

/-- R162, R170: scalar and control operations. A scalar result, a branch and a halt take effect when the bundle ends. -/
def Sys2Proof.Claims.ScalarAndControlComplete : Prop :=
  ∀ (a : At) (s : State) (x : Tile) (p : Prog) (k : Ctx),
    (Lone .datapath a s x p k → ∀ code sd sa sb, exec (.scalarIntegerOperation a code sd sa sb) s =
      .next (endIssue a (putReg a.tile a.ctx sd (Config.scalarOp code (k.getS sa) (k.getS sb)) (inSlot a s)))) ∧
    (Lone .control a s x p k →
      (∀ code sa target, exec (.branch a code sa target) s =
        .next (endIssue a (if Config.branchTaken code (k.getS sa)
          then updCtx a.tile a.ctx (fun k => { k with jump := some target.toNat }) (inSlot a s) else inSlot a s))) ∧
      (∀ code sa target, exec (.loopCounter a code sa target) s =
        .next (endIssue a (if (Config.loopStep code (k.getS sa) k.loop).2
          then updCtx a.tile a.ctx (fun k => { k with jump := some target.toNat })
            (updCtx a.tile a.ctx (fun j => { j with loop := (Config.loopStep code (k.getS sa) k.loop).1 }) (inSlot a s))
          else updCtx a.tile a.ctx (fun j => { j with loop := (Config.loopStep code (k.getS sa) k.loop).1 })
            (inSlot a s)))) ∧
      exec (.yield_ a) s = .next (endIssue a (updCtx a.tile a.ctx (fun k => { k with turn := true }) (inSlot a s))) ∧
      (k.ends = none → exec (.halt a) s = .next (endIssue a
        (updCtx a.tile a.ctx (fun k => { k with turn := true, ends := some .idle }) (inSlot a s)))) ∧
      (∀ sd, exec (.id_ a sd) s = .next (endIssue a
        (putReg a.tile a.ctx sd (BitVec.ofNat 64 (a.tile.toNat * 16 + a.ctx.toNat)) (inSlot a s)))))

/-- R162: `S0` reads zero and ignores writes; another scalar register takes the value and no other changes. -/
def Sys2Proof.Claims.ScalarRegisterFile : Prop :=
  ∀ (k : Ctx) (r q : BitVec 5) (v : Word), k.s.length = 32 →
    k.getS 0 = 0 ∧ k.setS 0 v = k ∧ (r ≠ 0 → (k.setS r v).getS r = v) ∧ (q ≠ r → (k.setS r v).getS q = k.getS q)

/-- R168, R170: the end of a bundle writes its scalar results, in order, and moves the program counter to the next bundle, or
the branch target, past bundles that hold no operation; the context goes on running unless its turn ended, it blocked, or it
halts. No bundle's end changes a byte of the store. -/
def Sys2Proof.Claims.BundleEndMovesPc : Prop :=
  (∀ (a : At) (s : State), (endIssue a s).store = s.store) ∧
  ∀ (a : At) (s : State) (x : Tile) (p : Prog) (k : Ctx),
    findTile s a.tile = some x → x.prog = some p → x.ctxs[a.ctx.toNat]? = some k → k.st = .running →
      k.ends = none → k.block = .none → k.turn = false → p.skip (k.jump.getD (k.pc + 1)) < p.bundles →
      (∀ j m, x.ctxs[j]? = some m → m.st = .running → j = a.ctx.toNat) →
      ∃ m, findCtx (endIssue a s) a.tile a.ctx = some m ∧ m.pc = p.skip (k.jump.getD (k.pc + 1)) ∧ m.st = .running ∧
        m.mid = false ∧ m.ws = [] ∧ m.bundle = [] ∧ m.s = (k.ws.foldl (fun k w => k.setS w.1 w.2) k).s ∧
        endIssue a s = { s with tiles := (endIssue a s).tiles, freeIdx := s.freeIdx + 1 }

/-- R168, R170, R171: an operation for a slot of a bundle that holds several waits until each of them has been given; then
they issue together, in the order of their slots. A bundle that an interlock holds changes nothing but the stall count; one
with an operand that the context may not use has no effect but the context's `BAD_PARAM` fault. An operation that is none of
the bundle's does nothing. -/
def Sys2Proof.Claims.BundlesIssueWhole : Prop :=
  ∀ (i : Instr) (z : BSlot) (f : SlotFn) (a : At) (s : State) (x : Tile) (p : Prog) (k : Ctx),
    slotFn i = some (z, a, f) → Runs a s x p k → p.skip k.pc = k.pc →
    (z ∉ p.slots k.pc ∨ (slotOp k.bundle z).isSome = true → exec i s = .next s) ∧
    (z ∈ p.slots k.pc → slotOp k.bundle z = none →
      ((∃ y ∈ p.slots k.pc, slotOp (k.bundle ++ [i]) y = none) → exec i s = .next
        (updCtx a.tile a.ctx (fun k => { k with bundle := k.bundle ++ [i] }) s)) ∧
      ((∀ y ∈ p.slots k.pc, (slotOp (k.bundle ++ [i]) y).isSome = true) →
        match issueOps a (BSlot.all.filterMap (slotOp (k.bundle ++ [i]))) (inSlot a s) with
        | .done t => exec i s = .next (endIssue a t)
        | .held => exec i s = .next (updTile a.tile (fun x => { x with stall := bumpSat x.stall 1 }) s)
        | .bad => exec i s = .next (ctxFault a.tile a.ctx k.pc .badParam 0 0 0 0 s)))

/-- R162, R168, R170, R171: scalar and control operations, the registers they write, the end of a bundle. -/
def Obligations.ScalarComplete : Prop := ScalarAndControlComplete ∧ ScalarRegisterFile ∧ BundlesIssueWhole ∧ BundleEndMovesPc

/-- R177, R178, R189 to R191: loads and stores of the pannier, the packer, and the exact accumulator registers. -/
def Sys2Proof.Claims.PannierOperationsComplete : Prop :=
  ∀ (a : At) (s : State) (x : Tile) (p : Prog) (k : Ctx) (addr : AddrOp), Lone .memory a s x p k →
    (∀ size sd, Pannier a s k addr (2 ^ size.toNat) 1 → exec (.ldP a size sd addr) s = .next (endIssue a
      (putReg a.tile a.ctx sd (bytesWord (memReadN x.pannier (k.addr addr).toNat (2 ^ size.toNat)))
        (inPannier a k addr (2 ^ size.toNat) s)))) ∧
    (∀ size ss, Pannier a s k addr (2 ^ size.toNat) 1 → exec (.stP a size ss addr) s = .next (endIssue a
      (updTile a.tile (pannierWrite (k.addr addr).toNat (leBytes (2 ^ size.toNat) (k.getS ss).toNat))
        (inPannier a k addr (2 ^ size.toNat) s)))) ∧
    (∀ vd, Pannier a s k addr 256 64 → exec (.vldP a vd addr) s = .next (endIssue a
      (putVec a vd (words32 64 (memReadN x.pannier (k.addr addr).toNat 256)) (inPannier a k addr 256 s)))) ∧
    (∀ vs, Pannier a s k addr 256 64 → exec (.vstP a vs addr) s = .next (endIssue a
      (updTile a.tile (pannierWrite (k.addr addr).toNat (lanesBytes (k.getV vs))) (inPannier a k addr 256 s)))) ∧
    (∀ (vs : BitVec 5) (fmt : BitVec 4) (gear : BitVec 2) f, 1 ≤ fmt.toNat → fmt.toNat ≤ 5 →
      fmtGearOk (BitVec.ofNat 8 (fmt.toNat * 16 + gear.toNat)) = true → fmtOf fmt.toNat = some f →
      Pannier a s k addr (packBlock fmt.toNat gear.toNat f (k.getV vs)).length 8 →
        exec (.vpack a vs addr fmt gear) s = .next (endIssue a (updTile a.tile
          (pannierWrite (k.addr addr).toNat (packBlock fmt.toNat gear.toNat f (k.getV vs)))
          (inPannier a k addr (packBlock fmt.toNat gear.toNat f (k.getV vs)).length s)))) ∧
    (∀ r, ownsXa p a.ctx r.toNat = true → Pannier a s k addr 4096 64 →
      exec (.xaSave a r addr) s = .next (endIssue a (updTile a.tile
        (pannierWrite (k.addr addr).toNat ((xaGet x r.toNat).flatMap Acc.bytes)) (inPannier a k addr 4096 s))) ∧
      exec (.xaMerge a r addr) s = .next (endIssue a (updTile a.tile (xaPut r.toNat (List.zipWith Acc.merge
        (xaGet x r.toNat) ((chunksB 64 64 (memReadN x.pannier (k.addr addr).toNat 4096)).map accOf)))
        (inPannier a k addr 4096 s))))

/-- R166, R177, R196: a pannier access outside the pannier faults its context with `BAD_PARAM`, a misaligned vector
access with `MISALIGNED`. -/
def Sys2Proof.Claims.PannierFaults : Prop :=
  ∀ (a : At) (s : State) (x : Tile) (p : Prog) (k : Ctx) (addr : AddrOp) (v : BitVec 5), Lone .memory a s x p k →
    (4194304 < (k.addr addr).toNat + 256 →
      exec (.vldP a v addr) s = .next (endIssue a (ctxFault a.tile a.ctx k.pc .badParam 0 0 0 0 (inSlot a s))) ∧
      exec (.vstP a v addr) s = .next (endIssue a (ctxFault a.tile a.ctx k.pc .badParam 0 0 0 0 (inSlot a s)))) ∧
    ((k.addr addr).toNat + 256 ≤ 4194304 → (k.addr addr).toNat % 64 ≠ 0 →
      exec (.vldP a v addr) s = .next (endIssue a (ctxFault a.tile a.ctx k.pc .misaligned 0 0 0 0 (inSlot a s))) ∧
      exec (.vstP a v addr) s = .next (endIssue a (ctxFault a.tile a.ctx k.pc .misaligned 0 0 0 0 (inSlot a s))))

/-- R166, R177, R178, R189 to R191, R196: operations on a pannier and the faults of an address outside it. -/
def Obligations.PannierComplete : Prop := PannierOperationsComplete ∧ PannierFaults

/-- R181 to R185, R190: the matrix queue, the accumulator tiles and the datapath. -/
def Obligations.MatrixAndDatapathComplete : Prop :=
  (∀ (a : At) (s : State) (x : Tile) (p : Prog) (k : Ctx), Lone .matrix a s x p k →
    (∀ t sd, ownsAcc p a.ctx t = true → sd ≠ 31 → (mmaDesc (k.getS sd) (k.getS (sd + 1))).ok = true →
      (x.mmaq.length < 2 → exec (.mma a t sd) s = .next (endIssue a (updTile a.tile (fun x =>
        { x with mmaq := x.mmaq ++ [{ ctx := a.ctx, t := t, d0 := k.getS sd, d1 := k.getS (sd + 1), pc := k.pc }] })
        (inSlot a s)))) ∧
      (2 ≤ x.mmaq.length → exec (.mma a t sd) s =
        .next (updTile a.tile (fun x => { x with stall := bumpSat x.stall 1 }) s))) ∧
    (∀ t, ownsAcc p a.ctx t = true → (∀ m ∈ x.mmaq, m.t ≠ t) →
      (∀ vd r, exec (.accRd a vd t r) s = .next (endIssue a
        (putVec a vd (((accGet x t.toNat).drop (64 * r.toNat)).take 64) (inSlot a s)))) ∧
      (∀ r vs, exec (.accWr a t r vs) s = .next (endIssue a (updTile a.tile (fun x =>
        { x with acc := sparsePut 0 x.acc (t.toNat * 1024 + 64 * r.toNat) (k.getV vs) }) (inSlot a s)))) ∧
      exec (.accClr a t) s = .next (endIssue a
        (updTile a.tile (accPut t.toNat (List.replicate 1024 0)) (inSlot a s))))) ∧
  (∀ (a : At) (s : State) (x : Tile) (p : Prog) (k : Ctx) (cfg vd va vb vc sa : BitVec 5) nodes r,
    Lone .datapath a s x p k → p.configs[cfg.toNat]? = some nodes → (∀ n ∈ configXas nodes, ownsXa p a.ctx n = true) →
    r = nodes.foldl (runNode [k.getV va, k.getV vb, k.getV vc, List.replicate 64 ((k.getS sa).setWidth 32)])
      { outs := [], xa := x.xa, dest := none } →
      exec (.dp a cfg vd va vb vc sa) s = .next (endIssue a (match r.dest with
        | some v => putVec a vd v (updTile a.tile (fun x => { x with xa := r.xa }) (inSlot a s))
        | none => updTile a.tile (fun x => { x with xa := r.xa }) (inSlot a s)))) ∧
  (∀ (t : BitVec 10) (s : State) (x : Tile) (m : MmaOp) (rest : List MmaOp) (d : MmaDesc) (run : List (BitVec 32) × Option (Nat × GearFault)),
    s.phase = .running → findTile s t = some x → x.mmaq = m :: rest → s.err.inj = [] → d = mmaDesc m.d0 m.d1 →
    run = runPanels x d d.panels 0 (if d.clear then List.replicate 1024 0 else accGet x m.t.toNat) →
      exec (.mmaDequeue t) s = .next (match run.2 with
        | none => updTile t (fun x => accPut m.t.toNat run.1 { x with mmaq := rest })
            (if d.banksA.any d.banksB.contains then bankCycles t s else s)
        | some e => stopIdle t (gearFaultAt t m e x (updTile t (fun x => accPut m.t.toNat run.1 { x with mmaq := rest })
            (if d.banksA.any d.banksB.contains then bankCycles t s else s)))))

/-- Frame of the operations that stay inside their tile (R170, R177, R181): an operation alone in its bundle changes its tile
and the count of free values only, when its context goes on or halts; no byte of the store, no other tile, no sync object, no
log changes, and no other context of the tile. -/
def Obligations.TileLocalFrame : Prop :=
  ∀ (a : At) (s t : State) (i : Instr) (z : BSlot) (x : Tile) (p : Prog) (k : Ctx), Lone z a s x p k →
    GoesOn a x p k (k.pc + 1) → injMode s 0x01 (unitTile a.tile) = none →
    ((∃ sd, i = .id_ a sd) ∨ (∃ c d e f, i = .scalarIntegerOperation a c d e f) ∨
      (∃ c d e, i = .branch a c d e ∧ p.skip e.toNat < p.bundles) ∨
      (∃ c d e, i = .loopCounter a c d e ∧ p.skip e.toNat < p.bundles) ∨ i = .yield_ a ∨ i = .halt a ∨
      (∃ z d addr, i = .ldP a z d addr ∧ (k.addr addr).toNat + 2 ^ z.toNat ≤ 4194304) ∨
      (∃ z d addr, i = .stP a z d addr ∧ (k.addr addr).toNat + 2 ^ z.toNat ≤ 4194304) ∨
      (∃ d e, i = .acq a d e) ∨ (∃ q, i = .accClr a q ∧ ownsAcc p a.ctx q = true)) →
    exec i s = .next t → t = { s with tiles := t.tiles, freeIdx := t.freeIdx } ∧
      (∀ u, u ≠ a.tile → findTile t u = findTile s u) ∧
      ∀ c m, c ≠ a.ctx → findCtx s a.tile c = some m → m.block = .none → findCtx t a.tile c = some m

/-! ### Tiles: the memory slot -/

/-- R149 to R155, R172, R180: loads that hit the operand cache; loads and atomics that leave for their home on this module, or
on another (`issueAcc` sends them); acquires and fences, with stores outstanding or none. -/
def Sys2Proof.Claims.TileAccessesComplete : Prop :=
  ∀ (a : At) (s : State) (x : Tile) (p : Prog) (k : Ctx) (addr : AddrOp), Lone .memory a s x p k →
    (∀ size sd d, oneLine (k.addr addr) (2 ^ size.toNat) = true → storesAhead k (k.addr addr) (2 ^ size.toNat) = false →
      cacheGet x (lineOf (k.addr addr).toNat) = some d → injMode s 0x03 (unitTile a.tile) = none →
      exec (.ld a size sd addr) s = .next (endIssue a (putReg a.tile a.ctx sd
        (bytesWord (sliceB d ((k.addr addr).toNat - lineOf (k.addr addr).toNat) (2 ^ size.toNat)))
        (updTile a.tile (cachePut (lineOf (k.addr addr).toNat) d) (inSlot a s))))) ∧
    (∀ size sd acc, acc = { accessOf a k addr (.load (2 ^ size.toNat) sd true) with late := closedTo s p.rider, done := false } →
      cacheGet x (lineOf (k.addr addr).toNat) = none → exec (.ld a size sd addr) s = .next (endIssue a (issueAcc a.tile a.ctx
        (updCtx a.tile a.ctx (fun k => { k with noFill := false }) (block a (.access acc false) (inSlot a s)))))) ∧
    (∀ size sd acc, acc = { accessOf a k addr (.load (2 ^ size.toNat) sd false) with late := closedTo s p.rider, done := false } →
      exec (.ldU a size sd addr) s = .next (endIssue a (issueAcc a.tile a.ctx
        (updCtx a.tile a.ctx (fun k => { k with noFill := false }) (block a (.access acc false) (inSlot a s)))))) ∧
    (∀ size sd opa o, closedTo s p.rider = false → Hits s (.tile a.tile) p.rider (k.addr addr) false opa →
      target s opa = .off o →
      (cacheGet x (lineOf (k.addr addr).toNat) = none → exec (.ld a size sd addr) s = .next (endIssue a (block a
        (.access (accessOf a k addr (.load (2 ^ size.toNat) sd true)) false)
        (updCtx a.tile a.ctx (fun k => { k with noFill := false }) (inSlot a s))))) ∧
      exec (.ldU a size sd addr) s = .next (endIssue a (block a
        (.access (accessOf a k addr (.load (2 ^ size.toNat) sd false)) false)
        (updCtx a.tile a.ctx (fun k => { k with noFill := false }) (inSlot a s))))) ∧
    (∀ code size sd sa sb opa o, code.toNat < 14 → closedTo s p.rider = false →
      Hits s (.tile a.tile) p.rider (k.addr addr) true opa → target s opa = .off o →
      exec (.atom a code size sd addr sa sb) s = .next (endIssue a (block a (.access (accessOf a k addr (.atom (tileAtom code size (k.getS sa) (k.getS sb)) sd)) false)
        (updTile a.tile (cacheDrop (k.addr addr).toNat (atomLen (tileAtom code size (k.getS sa) (k.getS sb))))
          (inSlot a s))))) ∧
    (∀ sa sb, exec (.acq a sa sb) s = .next (endIssue a
      (updTile a.tile (fun x => x.acquire (k.getS sa).toNat (k.getS sb).toNat) (inSlot a s)))) ∧
    (k.stores = [] → exec (.fence a) s = .next (endIssue a (updCtx a.tile a.ctx (fun k => { k with refused := [] })
      (fenceDone (ctxSource s a.tile a.ctx) (fenceFrames (ctxSource s a.tile a.ctx) (inSlot a s)))))) ∧
    (k.stores ≠ [] → exec (.fence a) s = .next (endIssue a (block a .fence
      (fenceFrames (ctxSource s a.tile a.ctx) (inSlot a s)))))

/-- R149, R151, R172: a store enters the context's store queue, translated, ends the context's turn, and drops the lines it
touches from the operand cache; no byte of the store changes until it lands. -/
def Obligations.TileStoresQueue : Prop :=
  ∀ (a : At) (s : State) (x : Tile) (p : Prog) (k : Ctx) (addr : AddrOp) (size : BitVec 2) (ss : BitVec 5) (opa : Word)
      (o : Nat),
    Lone .memory a s x p k → closedTo s p.rider = false → k.stores = [] → k.sigs = [] →
    Hits s (.tile a.tile) p.rider (k.addr addr) true opa → target s opa = .off o →
    (oneLine (k.addr addr) (2 ^ size.toNat) = true → ∃ t, exec (.st a size ss addr) s = .next t ∧ t.store = s.store ∧
      t = endIssue a (updCtx a.tile a.ctx (fun j =>
        { j with turn := true, stores := [entryOf k addr size ss false opa], nextSeq := k.nextSeq + 1 })
        (updTile a.tile (cacheDrop (k.addr addr).toNat (2 ^ size.toNat)) (inSlot a s)))) ∧
    (flaggedForm opa (2 ^ size.toNat) = true → ∃ t, exec (.stF a size ss addr) s = .next t ∧ t.store = s.store ∧
      t = endIssue a (updCtx a.tile a.ctx (fun j =>
        { j with turn := true, stores := [entryOf k addr size ss true opa], nextSeq := k.nextSeq + 1 })
        (updTile a.tile (cacheDrop (k.addr addr).toNat (2 ^ size.toNat)) (inSlot a s))))

/-- R148, R149, R151, R169, R194: the data of a load reaches its register and the context goes on; a store of the context that
no earlier one to its line precedes lands in memory, or in its sync object, and leaves the queue. -/
def Sys2Proof.Claims.TileReturnsComplete : Prop :=
  (∀ (t : BitVec 10) (c : BitVec 4) (s : State) (k : Ctx) (r : BitVec 6) (a : Access) (n : Nat) (sd : BitVec 5)
      (opa : Word) (o : Nat),
    s.phase = .running → findCtx s t c = some k → tileRider s t = some r → k.block = .access a false → a.tile = t →
    a.ctx = c → a.kind = .load n sd false → a.late = false → a.done = true → 1 ≤ n → oneLine a.va n = true →
    storesBefore k opa n = false → Hits s (.tile t) r a.va false opa → target s opa = .off o →
    Reads s (rqTile t c r a.va) o n → exec (.loadDataReturn t c none) s =
      .next (makeReady t c (putReg t c sd (bytesWord (held s o n)) (meterRd r n s)))) ∧
  (∀ (t : BitVec 10) (c : BitVec 4) (s : State) (k : Ctx) (r : BitVec 6) (a : Access) (n : Nat) (sd : BitVec 5)
      (opa line : Word) (o : Nat),
    s.phase = .running → findCtx s t c = some k → tileRider s t = some r → k.block = .access a false → a.tile = t →
    a.ctx = c → a.kind = .load n sd true → a.late = false → a.done = true → oneLine a.va n = true →
    Hits s (.tile t) r a.va false opa → opaSpace opa = 0 → Hits s (.tile t) r (BitVec.ofNat 64 (lineOf a.va.toNat)) false line →
    storesBefore k line 64 = false → target s line = .off o → Reads s (rqTile t c r a.va) o 64 →
      exec (.loadDataReturn t c none) s = .next (endLoad a sd (sliceB (held s o 64) (a.va.toNat % 64) n) (some (held s o 64))
        (meterRd r 64 s))) ∧
  (∀ (t : BitVec 10) (c : BitVec 4) (s : State) (k : Ctx) (r : BitVec 6) (a : Access) (n : Nat) (sd : BitVec 5)
      (ret : RemoteRet),
    s.phase = .running → findCtx s t c = some k → tileRider s t = some r → k.block = .access a true → a.tile = t →
    a.ctx = c → a.kind = .load n sd false → ret.status = .ok → ret.data.length = n → n ≤ 8 →
      exec (.loadDataReturn t c (some ret)) s = .next (makeReady t c (putReg t c sd (bytesWord ret.data)
        (dropLoads (· = .ctx t c) s)))) ∧
  (∀ (t : BitVec 10) (c : BitVec 4) (s : State) (k : Ctx) (r : BitVec 6) (e : StoreEnt) (o f : Nat) (fr : Frame) (x : Extent),
    s.phase = .running → findCtx s t c = some k → tileRider s t = some r → k.stores = [e] → e.ready = true →
    e.remote = false → e.late = false → e.flagged = false → target s e.opa = .off o →
    Writes s (rqTile t c r e.va) o f fr e.data x → exec (.storeLandingAck t ⟨c, e.seq⟩ .ok) s =
      .next (dropStore t c e.seq (written (rqTile t c r e.va) o f e.data s))) ∧
  (∀ (t : BitVec 10) (c : BitVec 4) (s : State) (k : Ctx) (r : BitVec 6) (e : StoreEnt) (obj : Nat),
    s.phase = .running → findCtx s t c = some k → tileRider s t = some r → k.stores = [e] → e.ready = true →
    e.remote = false → e.late = false → e.flagged = false → target s e.opa = .sync obj → e.data.length = 8 →
    syncRefusal s r obj = none → exec (.storeLandingAck t ⟨c, e.seq⟩ .ok) s =
      .next (dropStore t c e.seq (syncWrite obj (bytesWord e.data) s)))

/-- R148 to R155, R169, R172, R180, R194: accesses of a tile to memory and their returns. -/
def Obligations.TileMemoryComplete : Prop := TileAccessesComplete ∧ TileReturnsComplete

/-- R156, R192, R193: signals wait behind the context's stores and then change their object; `WAIT` ends at once when
its condition holds and else blocks; its limit ends it with 1 in `Sd`. -/
def Sys2Proof.Claims.SignalsAndWaitsComplete : Prop :=
  (∀ (a : At) (s : State) (x : Tile) (p : Prog) (k : Ctx) (obj : BitVec 14), Lone .memory a s x p k →
    (∀ ss, k.queued + 1 < 16 →
      exec (.sigAdd a obj ss) s = .next (endIssue a (endTurn a (updCtx a.tile a.ctx (fun j =>
        { j with sigs := j.sigs ++ [{ seq := k.nextSeq, obj := obj, add := true, value := k.getS ss, pc := k.pc }],
                 nextSeq := j.nextSeq + 1 }) (inSlot a s)))) ∧
      exec (.sigSet a obj ss) s = .next (endIssue a (endTurn a (updCtx a.tile a.ctx (fun j =>
        { j with sigs := j.sigs ++ [{ seq := k.nextSeq, obj := obj, add := false, value := k.getS ss, pc := k.pc }],
                 nextSeq := j.nextSeq + 1 }) (inSlot a s))))) ∧
    (∀ (cmp : BitVec 2) (ss sa sb sl sd : BitVec 5), cmp.toNat < 2 → syncRefusal s p.rider obj.toNat = none →
      ((if cmp = 1 then syncVal s obj.toNat = k.getS ss else (k.getS ss).toNat ≤ (syncVal s obj.toNat).toNat) →
        exec (.wait a obj cmp ss sa sb sl sd) s = .next (endIssue a (endTurn a (putReg a.tile a.ctx sd 0
          (updTile a.tile (fun x => x.acquire (k.getS sa).toNat (k.getS sb).toNat) (inSlot a s)))))) ∧
      (¬ (if cmp = 1 then syncVal s obj.toNat = k.getS ss else (k.getS ss).toNat ≤ (syncVal s obj.toNat).toNat) →
        exec (.wait a obj cmp ss sa sb sl sd) s = .next (endIssue a (block a
          (.sync obj (k.getS sa).toNat (k.getS sb).toNat (k.getS sl).toNat sd)
          { inSlot a s with sync.waits := s.sync.waits ++
              [Wait.mk (.ctx a.tile a.ctx) obj (decide (cmp = 1)) (k.getS ss) (k.getS sl)] }))))) ∧
  (∀ (t : BitVec 10) (c : BitVec 4) (s : State) (k : Ctx) (r : BitVec 6) (g : Signal) (rest : List Signal),
    s.phase = .running → findCtx s t c = some k → tileRider s t = some r → k.sigs = g :: rest →
    (∀ e ∈ k.stores, g.seq ≤ e.seq) → (∀ e ∈ k.refused, g.seq ≤ e.seq) → syncRefusal s r g.obj.toNat = none →
    injMode s 0x04 (unitChainring (g.obj.toNat / 1024 % 16)) = none →
      exec (.signalApply t c) s = .next (afterStores t c (syncWrite g.obj.toNat
        (if g.add then syncVal s g.obj.toNat + g.value else g.value)
        (updCtx t c (fun k => { k with sigs := rest }) s)))) ∧
  (∀ (t : BitVec 10) (c : BitVec 4) (s : State) (k : Ctx) (obj : BitVec 14) (base len limit : Nat) (sd : BitVec 5),
    s.phase = .running → findCtx s t c = some k → k.block = .sync obj base len limit sd → limit ≠ 0 →
      exec (.waitLimitExpiry t c) s = .next (makeReady t c (updCtx t c (fun k => k.putS sd 1)
        { s with sync.waits := dropIf s.sync.waits (·.who == .ctx t c) })))

/-- R169, R174 to R176, R178: streams start from their descriptor in the pannier, wait, stop, and transfer 64 bytes a beat. -/
def Obligations.StreamsComplete : Prop :=
  (∀ (a : At) (s : State) (x : Tile) (p : Prog) (k : Ctx) (n : BitVec 5), Lone .stream a s x p k → n.toNat < p.streams →
    (∀ ss z, streamRunning x n = false → (k.getS ss).toNat % 32 = 0 → (k.getS ss).toNat + 32 ≤ 4194304 →
      injMode s 0x01 (unitTile a.tile) = none →
      parseStream n a.ctx (memReadN x.pannier (k.getS ss).toNat 32) = some z →
      (bit z.doneSync 15 = true → riderHasSync s p.rider (bits z.doneSync 0 14) = true) →
      exec (.strStart a n ss) s = .next (endIssue a (updTile a.tile (fun x =>
        { x with streams := dropIf x.streams (·.n = n) ++ [{ z with late := closedTo s p.rider }] })
        (bankMeets a.tile (k.getS ss).toNat 32 (inSlot a s))))) ∧
    (∀ ss, streamRunning x n = true →
      exec (.strStart a n ss) s = .next (endIssue a (block a (.stream n (some ss)) (inSlot a s)))) ∧
    (streamRunning x n = false → exec (.strWait a n) s = .next (endIssue a (inSlot a s)) ∧
      exec (.strStop a n) s = .next (endIssue a (inSlot a s))) ∧
    (streamRunning x n = true →
      exec (.strWait a n) s = .next (endIssue a (block a (.stream n none) (inSlot a s))) ∧
      exec (.strStop a n) s = .next (endIssue a (stopIdle a.tile
        (updStream a.tile n (fun z => { z with stopping := true }) (inSlot a s)))))) ∧
  (∀ (t : BitVec 10) (n : BitVec 5) (s : State) (x : Tile) (r : BitVec 6) (z : Stream) (opa : Word) (o : Nat),
    s.phase = .running → findTile s t = some x → tileRider s t = some r → findStream x n = some z → z.n = n →
    z.running = true → z.late = false → Hits s (.stream t n) r (z.beatVa z.next) z.toStore opa → target s opa = .off o →
    (z.toStore = false → Reads s (rqStream t z r) o 64 → exec (.streamBeatCompletion t n none) s = .next (nextBeat t z
        (updTile t (pannierBeat n (z.beatPannier z.next) o (held s o 64)) (meterRd r 64 s)))) ∧
    (∀ f fr e, z.toStore = true → z.sent = false →
      Writes s (rqStream t z r) o f fr (memReadN x.pannier (z.beatPannier z.next) 64) e →
      exec (.streamBeatCompletion t n none) s = .next (nextBeat t z
        (written (rqStream t z r) o f (memReadN x.pannier (z.beatPannier z.next) 64) s))))

/-! ### Tiles: loading, starting, stopping; sync commands -/

/-- R164 to R166, R305: `TILE_LOAD` puts the program into every tile of its set; `TILE_START` makes contexts ready at
their entries; `TILE_STOP` halts; `SYNC_SET` and `SYNC_WAIT`. -/
def Obligations.TileControlComplete : Prop :=
  (∀ c s u b pr, runsIn 0x400 c s = some u → tileSet (c.p 0) ≠ [] → (c.p 1).toNat < 2 ^ 48 →
    b = heldN u (c.p 1).toNat (64 + 16 * fieldB (heldN u (c.p 1).toNat 64) 4 2 + 128 * fieldB (heldN u (c.p 1).toNat 64) 6 1) →
    imageLive u c.h.r (c.p 1).toNat b.length = true →
    (∀ q ∈ piecesOf (c.p 1).toNat 64, Reads u (rqOf c.h.r (srcEngine 0)) q.1 q.2) →
    (∀ q ∈ piecesOf (c.p 1).toNat b.length, Reads u (rqOf c.h.r (srcEngine 0)) q.1 q.2) →
    parseProg c.h.r b = some pr → (32768 ≤ pr.faultSync.toNat → riderHasSync u c.h.r (pr.faultSync.toNat % 16384) = true) →
    (∀ t ∈ tileSet (c.p 0), tileFenced u t = false ∧ tileLoaded u t = false) →
    slotsFree u c.h.r (tileSet (c.p 0)) pr.streams = true →
      ∃ w, exec (.tileLoad c) s = .next (replied 0x400 c .ok 0 [] ((tileSet (c.p 0)).foldl (fun s t => loadTile pr t s) w)) ∧
        w = { u with trip := w.trip }) ∧
  (∀ c s u, runsIn 0x401 c s = some u → tileSet (c.p 0) ≠ [] → bits (c.p 1) 17 47 = 0 →
    tilesOf u c.h.r (tileSet (c.p 0)) = true → closing u = false →
    (∀ t ∈ tileSet (c.p 0), ∀ k ∈ maskCtxs (BitVec.ofNat 16 (bits (c.p 1) 0 16)), startOk u (bit (c.p 1) 16) t k = true) →
      exec (.tileStart c) s = .next (replied 0x401 c .ok 0 []
        ((tileSet (c.p 0)).foldl (fun s t => progEnd t 17 s)
          ((tileSet (c.p 0)).foldl (fun s t => (maskCtxs (BitVec.ofNat 16 (bits (c.p 1) 0 16))).foldl
            (fun s k => startCtx (bit (c.p 1) 16) t k s) s) u)))) ∧
  (∀ c s u t, runsIn 0x402 c s = some u → tileSet (c.p 0) = [t] → bits (c.p 1) 17 47 = 0 → bit (c.p 1) 16 = true →
    tileRider u t = some c.h.r → (∀ x, findTile u t = some x → x.ctxs.length = 16 ∧ x.streams = [] ∧
      ∀ k ∈ x.ctxs, (k.st = .idle ∨ k.st = .halted) ∧ k.stores = [] ∧ k.sigs = [] ∧ k.block = .none) →
      ∃ w, exec (.tileStop c) s = .next (replied 0x402 c .ok 0 [] w) ∧ tileLoaded w t = false ∧ w.store = u.store ∧
        w.port = u.port ∧ w.queues = u.queues) ∧
  (∀ c s u, runsIn 0x403 c s = some u → bits (c.p 0) 14 50 = 0 → syncCmdRefusal u c (bits (c.p 0) 0 14) = none →
    exec (.syncSet c) s = .next (replied 0x403 c .ok 0 [] (syncWrite (bits (c.p 0) 0 14) (c.p 1) u))) ∧
  (∀ c s u, runsIn 0x404 c s = some u → bits (c.p 0) 14 2 = 0 → bits (c.p 0) 17 47 = 0 →
    syncCmdRefusal u c (bits (c.p 0) 0 14) = none →
    ((if bit (c.p 0) 16 then syncVal u (bits (c.p 0) 0 14) = c.p 1
        else (c.p 1).toNat ≤ (syncVal u (bits (c.p 0) 0 14)).toNat) →
      exec (.syncWait c) s = .next (replied 0x404 c .ok (syncVal u (bits (c.p 0) 0 14)) [] u)) ∧
    (¬ (if bit (c.p 0) 16 then syncVal u (bits (c.p 0) 0 14) = c.p 1
        else (c.p 1).toNat ≤ (syncVal u (bits (c.p 0) 0 14)).toNat) →
      exec (.syncWait c) s = .next { u with sync.waits := u.sync.waits ++
        [cmdWait c] })) ∧
  (∀ (s : State) (o : Open) (obj : BitVec 14) (eq : Bool) (v limit : Word), s.phase = .running → limit ≠ 0 →
    isOpen o s = true →
    s.sync.waits = [{ who := .cmd o, obj := obj, eq := eq, value := v, limit := limit }] →
      exec (.syncWaitLimit o.h.src o.h.tag) s = .next
        (complete o .timeout (syncVal s obj.toNat) [] { s with sync.waits := [] }))

/-- R192, R193: a change of a sync object leaves its value in the object and in no other, and ends exactly the waits on
the object whose condition the value meets. -/
def Sys2Proof.Claims.SyncWriteEndsWaits : Prop :=
  ∀ (obj : Nat) (v : Word) (s : State), injMode s 0x04 (unitChainring (obj / 1024 % 16)) = none →
    syncVal (syncWrite obj v s) obj = v ∧ (∀ o, o ≠ obj → syncVal (syncWrite obj v s) o = syncVal s o) ∧
    (∀ w, w ∈ (syncWrite obj v s).sync.waits ↔ w ∈ s.sync.waits ∧ ¬ (w.obj.toNat = obj ∧ w.holds v = true)) ∧
    (syncWrite obj v s).store = s.store

/-- R156, R192, R193: signals, waits, and what ends them. -/
def Obligations.SignalsComplete : Prop := SignalsAndWaitsComplete ∧ SyncWriteEndsWaits

/-! ### Memory of the store (R66, R112, R146) -/

/-- R66, R112: what a masked write to a frame leaves: each byte given is written, every other byte of the memory keeps its
value; a later read of the written bytes gives them back. -/
def Obligations.FrameWriteStoresBytes : Prop :=
  ∀ (t : Tier) (a : Nat) (bs : List (Option Byte)) (st : Store) (x : Nat),
    memGet (putBytes t a bs st).mem x =
      (if a ≤ x ∧ x < a + bs.length then ((bs[x - a]?).bind id).getD (memGet st.mem x) else memGet st.mem x) ∧
    (putBytes t a bs st).frames = st.frames ∧ (putBytes t a bs st).pages = st.pages ∧
    (putBytes t a bs st).extents = st.extents

/-- R102, R112: an access of an engine to a line of this module that nothing holds back. A read answers the bytes that the
store holds and changes the rider's meter only; a write puts its bytes into the frame, where a read finds them, and no other
byte of the memory changes. -/
def Obligations.HomeWriteLands : Prop :=
  (∀ (s : State) (q : Rq) (off len : Nat), Reads s q off len → homeRead s q off len = (.data (held s off len), meterRd q.rider len s)) ∧
  ∀ (s : State) (q : Rq) (off f : Nat) (fr : Frame) (bs : List Byte) (x : Extent), Writes s q off f fr bs x →
    homeWrite s q off (allBytes bs) false = (.done, written q off f bs s) ∧
      (∀ i (h : i < bs.length), memGet (written q off f bs s).store.mem (f * 65536 + off % 65536 + i) = bs[i]) ∧
      (∀ b, b < f * 65536 + off % 65536 ∨ f * 65536 + off % 65536 + bs.length ≤ b →
        memGet (written q off f bs s).store.mem b = memGet s.store.mem b) ∧
      written q off f bs s = { s with
        store := (written q off f bs s).store, trip := (written q off f bs s).trip, bells := strike off (allBytes bs) s.bells } ∧
      (written q off f bs s).store.pages = s.store.pages ∧ (written q off f bs s).store.extents = s.store.extents

/-- R20, R25: an OPA whose must-be-zero bits are not zero resolves to `TRANSLATION`; an extent that is not live for a
rider, whatever the reason, is refused with `REVOKED` (at a home that is not fenced: the order of the two is the model's,
notes/assumptions/13.md). -/
def Obligations.AddressRefusals : Prop :=
  (∀ (s : State) (a : Word), (opaMbz a = false ∨ opaSpace a = 3) → target s a = .bad .translation) ∧
  ∀ (s : State) (r : BitVec 6) (off : Nat) (write : Bool), homeFenced s off = false →
    (findExt s (extentOf off) = none → rightsAt s r off write = .inl .revoked) ∧
    (∀ x, findExt s (extentOf off) = some x → extLive s x r = false → rightsAt s r off write = .inl .revoked) ∧
    (∀ x, findExt s (extentOf off) = some x → extLive s x r = true → extWriter s x r = false →
      rightsAt s r off true = .inl .revoked)

/-! ### Translation -/

namespace Sys2Proof.Claims

/-- A table entry that a tree command can read and write at once: in a memory frame of an extent that is not lap-versioned, its
line with no transaction and no directory entry (R47, R52, R53). -/
structure TableSlot (s : State) (q : Rq) (off f : Nat) (fr : Frame) (x : Extent) : Prop where
  ext   : findExt s (extentOf off) = some x
  plain : extLapped s x = false ∧ x.fenced = false ∧ homeFenced s off = false
  first : findTicket s (q.key (lineOf off)) true = none ∧ findTicket s (q.key (lineOf off)) false = none
  free  : lineBusy s (lineOf off) true = false ∧ scanHolds s off = false ∧ dirOf s (lineOf off) = none
  frame : InFrame s off f fr
  whole : partialBad s.store (frameTier s.store f) (f * 65536 + off % 65536) (allBytes (zeros 8)) = false
  idle  : programHolds s.store (pageOf off) = false ∧ mirrorHeld s x (pageOf off) = false

/-- The tree over a range holds leaves only, each in a table entry that can be written at once; none cuts the range's ends, as a
page or as a group (R51, R58). -/
structure ClearTree (s : State) (c : Cmd) (lo hi : Nat) : Prop where
  leaves : ∀ f ∈ foundIn s (treeRq c) c.h.r lo hi, ∃ l, f = .leaf l ∧ lo ≤ l.va ∧ l.va + l.size ≤ hi ∧
    ∃ g fr x, TableSlot s (treeRq c) l.slot g fr x
  groups : cutGroups s (treeRq c) lo hi (leavesOf (foundIn s (treeRq c) c.h.r lo hi)) = []

/-- The tree over a range holds leaves only that lie wholly inside it, and nothing there has to be waited for (R58). -/
structure WholeLeaves (s : State) (c : Cmd) (lo hi : Nat) : Prop where
  ready  : waitsOf (foundIn s (treeRq c) c.h.r lo hi) = []
  inside : ∀ l ∈ leavesOf (foundIn s (treeRq c) c.h.r lo hi), lo ≤ l.va ∧ l.va + l.size ≤ hi

/-- An `UNMAP_RANGE` in form that nothing holds back (R58, R61). -/
structure UnmapRuns (c : Cmd) (s u : State) : Prop where
  runs : runsIn 0x182 c s = some u
  form : (c.p 0).toNat % 65536 = 0 ∧ (c.p 1).toNat % 65536 = 0 ∧ 0 < (c.p 1).toNat ∧ (c.p 0).toNat + (c.p 1).toNat ≤ 2 ^ 57
  room : unmapsOpen u < 64
  new_ : ∀ x ∈ u.xlat.unmaps, x.cmd ≠ openOf 0x182 c ∧ x.id ≠ u.xlat.nextId
  turn : treeBusy u c.h.r (openOf 0x182 c) (c.p 0).toNat ((c.p 0).toNat + (c.p 1).toNat) = false

/-- No translation of a rider over a range is kept: none in a TLB, a micro-TLB, a queue or an operand cache (R59). -/
def Forgotten (s : State) (r : BitVec 6) (lo hi : Nat) : Prop :=
  (∀ t ∈ s.xlat.tlb, t.rider = r → overlaps t.va t.size lo hi = false) ∧
  (∀ t ∈ s.xlat.micro, t.2.rider = r → overlaps t.2.va t.2.size lo hi = false) ∧
  (∀ q ∈ s.queues, q.rider = r → ∀ x ∈ q.runs, x.page.toNat < lo ∨ hi ≤ x.page.toNat) ∧
  ∀ x ∈ s.tiles, x.prog.any (·.rider = r) = true → ∀ l ∈ x.cache, overlaps l.va 64 lo hi = false

end Sys2Proof.Claims

/-- R48, R53, R58, R59: `PT_BASE_SET`, on a rider without a root and on one with a root; `MAP_RANGE` whose leaves can all be
written; `UNMAP_RANGE`, without and with `CLEAR`, which ends at once when no engine has a transfer in the range and waits for
those that have; and the acknowledgement of an engine, the last of which ends it. -/
def Sys2Proof.Claims.TranslationCommandsComplete : Prop :=
  (∀ c s u, runsIn 0x180 c s = some u → treeBusy u c.h.r (openOf 0x180 c) 0 (2 ^ 57) = false →
    (∀ x ∈ u.xlat.unmaps, x.id ≠ u.xlat.nextId) →
    (c.p 0 ≠ 0 → (c.p 0).toNat % 256 = 0 ∧ (c.p 0).toNat < 2 ^ 48 ∧ tablePageFault u c.h.r (c.p 0).toNat = none) →
    (rootOf u c.h.r = none → exec (.ptBaseSet c) s = .next (replied 0x180 c .ok 0 []
      { u with xlat.roots := if c.p 0 = 0 then u.xlat.roots else setK u.xlat.roots c.h.r (c.p 0).toNat })) ∧
    (rootOf u c.h.r ≠ none → enginesIn u c.h.r 0 (2 ^ 57) = [] →
      ∃ w, exec (.ptBaseSet c) s = .next (replied 0x180 c .ok 0 [] w) ∧
        rootOf w c.h.r = (if c.p 0 = 0 then none else some (c.p 0).toNat) ∧ Forgotten w c.h.r 0 (2 ^ 57) ∧
        w.store = u.store ∧ w.xlat.unmaps = u.xlat.unmaps) ∧
    (rootOf u c.h.r ≠ none → enginesIn u c.h.r 0 (2 ^ 57) ≠ [] →
      ∃ t v, exec (.ptBaseSet c) s = .next t ∧ t.xlat.unmaps = u.xlat.unmaps ++ [v] ∧ v.cmd = openOf 0x180 c ∧
        v.waiting = enginesIn u c.h.r 0 (2 ^ 57) ∧ Forgotten t c.h.r 0 (2 ^ 57) ∧ t.store = u.store)) ∧
  (∀ c s u slots, runsIn 0x181 c s = some u → mapForm c = true →
    treeBusy u c.h.r (openOf 0x181 c) (c.p 0).toNat ((c.p 0).toNat + (c.p 1).toNat) = false →
    mapSlots u (treeRq c) c.h.r (bits (c.p 3) 0 2) (c.p 0).toNat ((c.p 1).toNat / 2 ^ lvlShift (bits (c.p 3) 0 2)) 0 [] [] =
      .ok slots → (∀ o ∈ slots, ∃ f fr x, TableSlot u (treeRq c) o f fr x) →
      exec (.mapRange c) s = .next (replied 0x181 c .ok (BitVec.allOnes 64) [] (treeDone c
        (writeLeaves (treeRq c) (mapLeaf c ((c.p 0).toNat / 2 ^ lvlShift (bits (c.p 3) 0 2) + slots.length))
          ((List.range slots.length).zip slots) u).2)) ∧
      ∀ o, slots = [o] → ∀ f fr x, TableSlot u (treeRq c) o f fr x → ∃ w,
        exec (.mapRange c) s = .next (replied 0x181 c .ok (BitVec.allOnes 64) [] w) ∧
        held w o 8 = wordBytes (mapLeaf c ((c.p 0).toNat / 2 ^ lvlShift (bits (c.p 3) 0 2) + 1) 0)) ∧
  (∀ c s u, UnmapRuns c s u → (c.p 2 = 0 ∧ WholeLeaves u c (c.p 0).toNat ((c.p 0).toNat + (c.p 1).toNat)) ∨
      (c.p 2 = 1 ∧ ClearTree u c (c.p 0).toNat ((c.p 0).toNat + (c.p 1).toNat)) →
    (enginesIn u c.h.r (c.p 0).toNat ((c.p 0).toNat + (c.p 1).toNat) = [] →
      ∃ w, exec (.unmapRange c) s = .next (replied 0x182 c .ok (BitVec.allOnes 64) [] w) ∧ w.xlat.roots = u.xlat.roots ∧
        w.xlat.unmaps = u.xlat.unmaps ∧ Forgotten w c.h.r (c.p 0).toNat ((c.p 0).toNat + (c.p 1).toNat) ∧
        (c.p 2 = 0 → w.store = u.store) ∧
        (c.p 2 = 1 → ∀ l, .leaf l ∈ foundIn u (treeRq c) c.h.r (c.p 0).toNat ((c.p 0).toNat + (c.p 1).toNat) →
          held w l.slot 8 = zeros 8)) ∧
    (enginesIn u c.h.r (c.p 0).toNat ((c.p 0).toNat + (c.p 1).toNat) ≠ [] →
      ∃ t v, exec (.unmapRange c) s = .next t ∧ t.xlat.unmaps = u.xlat.unmaps ++ [v] ∧ v.cmd = openOf 0x182 c ∧
        v.status = .ok ∧ v.waiting = enginesIn u c.h.r (c.p 0).toNat ((c.p 0).toNat + (c.p 1).toNat))) ∧
  (∀ (s : State) (id : Nat) (e : EngineRef) (u : Unmap), s.phase = .running →
    s.xlat.unmaps.find? (·.id == id) = some u → e ∈ u.waiting → engineIdle s u e = true →
    (u.waiting.erase e ≠ [] → exec (.unmapEngineAck id e) s = .next
      { s with xlat.unmaps := updIf s.xlat.unmaps (·.id == id) fun _ => { u with waiting := u.waiting.erase e } }) ∧
    (u.waiting = [e] → isOpen u.cmd s = true → ∃ w, exec (.unmapEngineAck id e) s =
        .next (complete u.cmd u.status u.result [] w) ∧ w.xlat.unmaps = dropIf s.xlat.unmaps (·.id == id) ∧
      (u.newRoot = none → w.xlat.roots = s.xlat.roots) ∧ w.store = s.store))

/-- R50, R54, R55, R56: the entry that a walk with a walker reads next: a walk-cache hit and a table entry lead one level down; a
leaf ends the walk and fills the TLBs; a fault ends it. Its client takes what it found. -/
def Sys2Proof.Claims.WalkReadCompletes : Prop :=
  ∀ (s : State) (wheel : Fin 16) (id root : Nat) (w : Walk), s.phase = .running →
    s.xlat.walks.find? (·.id == id) = some w → clientWheel w.client = wheel.val → w.active = true →
    w.out = none → w.again = false → coreRestarting s (clientWheel w.client) = false → unmapCovers s w.rider w.va.toNat = false →
    unitFenced s (unitChainring (clientWheel w.client)) = false → rootOf s w.rider = some root → s.err.inj = [] →
    let off := w.table + ptIndex w.va.toNat w.level * 8
    let ends (o : WalkOut) (s : State) : State := wakeClient w.client (giveWalkers (clientWheel w.client) 32
      (updWalk id (fun _ => { w with out := some o, active := false }) s))
    (∀ t, w.level ≠ 0 → walkCacheHit s (clientWheel w.client) w.rider w.va.toNat w.level = some t →
      exec (.walkReadReturn wheel id) s = .next (updWalk id (fun _ => { w with level := w.level - 1, table := t }) s)) ∧
    ((w.level = 0 ∨ walkCacheHit s (clientWheel w.client) w.rider w.va.toNat w.level = none) →
      (∀ f, tablePageFault s w.rider w.table = some f →
        exec (.walkReadReturn wheel id) s = .next (ends (.fault f w.level) s)) ∧
      (∀ e f fr x, tablePageFault s w.rider w.table = none → TableSlot s (walkRq w) off f fr x →
        badAt s.store fr.tier (f * 65536 + off % 65536) 8 = false → e = bytesWord (held s off 8) →
        (checkEntry e w.va.toNat w.level w.write = .leaf →
          exec (.walkReadReturn wheel id) s = .next (ends (.leaf e w.level) (fillLeaf w e w.level s))) ∧
        (∀ t, checkEntry e w.va.toNat w.level w.write = .next t → exec (.walkReadReturn wheel id) s = .next
          (updWalk id (fun _ => { w with level := w.level - 1, table := t }) (fillWalkCache
            { wheel := clientWheel w.client, rider := w.rider, level := w.level, va := w.va.toNat / 2 ^ lvlShift w.level, next := t }
            s))) ∧
        (∀ n, checkEntry e w.va.toNat w.level w.write = .fault n →
          exec (.walkReadReturn wheel id) s = .next (ends (.fault n w.level) s))))

/-- R48, R50, R53 to R56, R58, R59: translation commands and the walk. -/
def Obligations.TranslationComplete : Prop := TranslationCommandsComplete ∧ WalkReadCompletes

/-- R55: what the checks of one entry answer, in their order. -/
def Obligations.EntryChecks : Prop :=
  ∀ (e : Word) (va lvl : Nat) (write : Bool),
    (bit e 0 = false → checkEntry e va lvl write = .fault 0x3) ∧
    (bit e 0 = true → bit e 1 = true → leafReserved e lvl = true → checkEntry e va lvl write = .fault 0x4) ∧
    (bit e 0 = true → bit e 1 = true → leafReserved e lvl = false → 3 ≤ lvl → checkEntry e va lvl write = .fault 0x5) ∧
    (bit e 0 = true → bit e 1 = true → leafReserved e lvl = false → lvl < 3 → leafAligned e va lvl = true →
      (write = true → bit e 3 = false → checkEntry e va lvl write = .fault 0x9) ∧
      (write = true → bit e 3 = true → checkEntry e va lvl write = .leaf) ∧
      (write = false → bit e 2 = true → checkEntry e va lvl write = .leaf)) ∧
    (bit e 0 = true → bit e 1 = false → bits e 48 16 = 0 → bits e 2 10 = 0 → lvl ≠ 0 →
      checkEntry e va lvl write = .next (bits e 12 36 * 4096))

/-! ### Command queues and event rings -/

namespace Sys2Proof.Claims

/-- Bytes that a client writes inside one line land at once: translated by its micro-TLB, at offset `o` in the frame `f`. -/
def Lands (s : State) (cl : XClient) (q : Rq) (va : Word) (bs : List Byte) (o f : Nat) : Prop :=
  bs ≠ [] ∧ va.toNat % 64 + bs.length ≤ 64 ∧ ∃ opa fr x, Hits s cl q.rider va true opa ∧ target s opa = .off o ∧
    Writes s q o f fr bs x

/-- The parameters of a `QUEUE_CREATE` for a command queue are in form (R310). -/
structure QueueForm (c : Cmd) (u : State) : Prop where
  rider  : (riderEntry u c.h.r).isSome = true
  kind   : bits (c.p 3) 16 8 = 0 ∧ bits (c.p 3) 25 7 = 0 ∧ c.p 4 = 0
  proto  : bits (c.p 3) 32 8 = 1 ∨ bits (c.p 3) 32 8 = 2
  flight : 1 ≤ bits (c.p 3) 40 8 ∧ bits (c.p 3) 40 8 ≤ 64
  ring   : 16 ≤ bits (c.p 3) 0 8 ∧ bits (c.p 3) 0 8 ≤ 24 ∧ (c.p 0).toNat % 2 ^ bits (c.p 3) 0 8 = 0
  line   : (c.p 1).toNat % 64 = 0
  done   : 6 ≤ bits (c.p 3) 8 8 ∧ bits (c.p 3) 8 8 ≤ 16 ∧ (c.p 2).toNat % (32 * 2 ^ bits (c.p 3) 8 8) = 0
  apart  : rangesApart (c.p 0).toNat (2 ^ bits (c.p 3) 0 8) (c.p 1).toNat 64 = true ∧
    rangesApart (c.p 0).toNat (2 ^ bits (c.p 3) 0 8) (c.p 2).toNat (32 * 2 ^ bits (c.p 3) 8 8) = true ∧
    rangesApart (c.p 1).toNat 64 (c.p 2).toNat (32 * 2 ^ bits (c.p 3) 8 8) = true

/-- The parameters of a `QUEUE_CREATE` for an event ring are in form (R310). -/
structure RingForm (c : Cmd) (u : State) : Prop where
  rider : (riderEntry u c.h.r).isSome = true
  kind  : bits (c.p 3) 16 8 = 1 ∧ bits (c.p 3) 25 7 = 0 ∧ c.p 4 = 0 ∧ c.p 0 = 0 ∧ bits (c.p 3) 0 8 = 0
  proto : bits (c.p 3) 32 8 = 1 ∨ bits (c.p 3) 32 8 = 2
  flight : 1 ≤ bits (c.p 3) 40 8 ∧ bits (c.p 3) 40 8 ≤ 64
  line  : (c.p 1).toNat % 64 = 0
  done  : 6 ≤ bits (c.p 3) 8 8 ∧ bits (c.p 3) 8 8 ≤ 16 ∧ (c.p 2).toNat % (32 * 2 ^ bits (c.p 3) 8 8) = 0
  apart : rangesApart (c.p 1).toNat 64 (c.p 2).toNat (32 * 2 ^ bits (c.p 3) 8 8) = true

end Sys2Proof.Claims

/-- R309, R310: `QUEUE_CREATE` with a descriptor in form, whose regions pass their checks: the queue stands in the module, all
its counters zero, under the number that the result gives; or the rider has its event ring. A region that fails its check
gives its status and creates nothing. -/
def Sys2Proof.Claims.QueueCreateCompletes : Prop :=
  (∀ c s u i q run, runsIn 0x020 c s = some u → QueueForm c u → pickIndex u c.h.r (bits (c.p 3) 48 16) = .inr i →
    q = BitVec.ofNat 13 (queueBase u c.h.r + i) →
    run = checkRegions (.queue q) c.h.r [((c.p 0).toNat, 2 ^ bits (c.p 3) 0 8), ((c.p 1).toNat, 64),
      ((c.p 2).toNat, 32 * 2 ^ bits (c.p 3) 8 8)] u →
      (run.1 = .ok → exec (.queueCreate c) s = .next (replied 0x020 c .ok (BitVec.ofNat 64 q.toNat) [] (hangBell (.queue q) c.h.r (c.p 1) { run.2 with
        queues := run.2.queues ++ [{
          q := q, rider := c.h.r, ringVa := c.p 0, dbVa := c.p 1, cqVa := c.p 2, ringLog2 := bits (c.p 3) 0 8
          cqLog2 := bits (c.p 3) 8 8, pretrans := bit (c.p 3) 24, version := BitVec.ofNat 4 (bits (c.p 3) 32 8)
          inflight := bits (c.p 3) 40 8, sqTail := 0, sqHead := 0, cqHead := 0, cqTail := 0, started := [], waiting := []
          done := [], runs := [], preDone := 0, preBad := [], error := false, closing := false }] }))) ∧
      (∀ st, run.1 = .bad st → exec (.queueCreate c) s = .next (replied 0x020 c st 0 [] run.2))) ∧
  (∀ c s u st run, runsIn 0x020 c s = some u → QueueForm c u → pickIndex u c.h.r (bits (c.p 3) 48 16) = .inl st →
    run = checkRegions (.ring c.h.r) c.h.r [((c.p 0).toNat, 2 ^ bits (c.p 3) 0 8), ((c.p 1).toNat, 64),
      ((c.p 2).toNat, 32 * 2 ^ bits (c.p 3) 8 8)] u → run.1 = .ok →
      exec (.queueCreate c) s = .next (replied 0x020 c st 0 [] run.2)) ∧
  (∀ c s u run, runsIn 0x020 c s = some u → RingForm c u →
    run = checkRegions (.ring c.h.r) c.h.r [(0, 0), ((c.p 1).toNat, 64), ((c.p 2).toNat, 32 * 2 ^ bits (c.p 3) 8 8)] u →
    run.1 = .ok → (∀ x ∈ run.2.rings, x.rider ≠ c.h.r) →
      exec (.queueCreate c) s = .next (replied 0x020 c .ok 0 [] (hangBell (.ring c.h.r) c.h.r (c.p 1) { run.2 with
        rings := run.2.rings ++ [{
          rider := c.h.r, dbVa := c.p 1, cqVa := c.p 2, cqLog2 := bits (c.p 3) 8 8, cqHead := 0, cqTail := 0, dropped := 0
          todo := [] }] })))

/-- R316: `QUEUE_DESTROY` of a queue of the rider's own, by another way than the queue itself, frees an idle queue at once and
waits for the replies of a busy one; of an event ring, it frees the ring. -/
def Sys2Proof.Claims.QueueDestroyCompletes : Prop :=
  (∀ c s u q, runsIn 0x021 c s = some u → q = BitVec.ofNat 13 (bits (c.p 0) 0 13) → bits (c.p 0) 13 51 = 0 →
    c.h.src ≠ .queue q → queueBase u c.h.r ≤ q.toNat → q.toNat < queueBase u c.h.r + maxQueues u c.h.r →
    (findQueue u q).isSome = true →
      (queueIdle u q = true →
        exec (.queueDestroy c) s = .next (replied 0x021 c .ok 0 [] { u with queues := dropIf u.queues (·.q = q) })) ∧
      (queueIdle u q = false → exec (.queueDestroy c) s = .next { updQueue q (fun x => { x with closing := true }) u with
        jobs := u.jobs ++ [.destroy (openOf 0x021 c) q] })) ∧
  (∀ c s u, runsIn 0x021 c s = some u → bits (c.p 0) 13 3 = 0 → bit (c.p 0) 16 = true → bits (c.p 0) 17 47 = 0 →
    u.rings.any (·.rider = c.h.r) = true →
      exec (.queueDestroy c) s = .next (replied 0x021 c .ok 0 [] { u with rings := dropIf u.rings (·.rider = c.h.r) }))

/-- R148, R311, R315: a store that lands on a word of a doorbell line marks the line; when the line is taken up, the value of its
word after the store makes entries available, or puts the queue in error, or frees completion entries, as the stores that
`DOORBELL` and `CQ_HEAD_UPDATE` bring do. The line is found where its address translates to when the queue is created (the
model's choice, notes/assumptions/142.md). -/
def Sys2Proof.Claims.LandedStoresRing : Prop :=
  (∀ (s : State) (cl : XClient) (r : BitVec 6) (va : Word) (opa : Word) (o : Nat), Hits s cl r va true opa →
    target s opa = .off o → (hangBell cl r va s).bells = dropIf s.bells (·.client = cl) ++
      [{ client := cl, off := o, tail := false, head := false }]) ∧
  (∀ (bells : List Bell) (b : Bell) (off : Nat) (bs : List Byte), b ∈ bells →
    ∃ b' ∈ strike off (allBytes bs) bells, b'.client = b.client ∧ b'.off = b.off ∧
      (b'.tail = true ↔ b.tail = true ∨ ∃ a, b.off ≤ a ∧ a < b.off + 8 ∧ off ≤ a ∧ a < off + bs.length) ∧
      (b'.head = true ↔ b.head = true ∨ ∃ a, b.off + 16 ≤ a ∧ a < b.off + 24 ∧ off ≤ a ∧ a < off + bs.length)) ∧
  (∀ (s w : State) (b : Bell) (q : BitVec 13) (x : Queue) (v : Word), b.client = .queue q → findQueue s q = some x → x.q = q →
    (∀ l ∈ s.late, l.client ≠ b.client) → s.power.st ≠ .coast → x.error = false →
    w = { s with bells := updIf s.bells (·.client = b.client) fun b => { b with tail := false, head := false } } →
      (b.tail = true → b.head = false → bellWord s b.off = some v →
        ((v.toNat < x.sqTail.toNat ∨ x.sqHead.toNat + 2 ^ x.ringLog2 / 64 < v.toNat) → pumpBell b s = queueError q 1 .badParam w) ∧
        (x.pretrans = false → x.sqTail.toNat ≤ v.toNat → v.toNat ≤ x.sqHead.toNat + 2 ^ x.ringLog2 / 64 →
          pumpBell b s = updQueue q (fun y => { y with sqTail := v }) w)) ∧
      (b.tail = false → b.head = true → bellWord s (b.off + 16) = some v →
        pumpBell b s = updQueue q (fun y => { y with cqHead := v }) w))

/-- R311, R314, R315, R318: a store to `SQ_TAIL` is written in the doorbell line and makes entries available; one that goes back,
or past the ring, puts the queue in error; a queue in error takes it and no more. A store to `CQ_HEAD` frees completion
entries. -/
def Sys2Proof.Claims.DoorbellsComplete : Prop :=
  (∀ (s w : State) (q : BitVec 13) (value : Word) (x : Queue) (o f : Nat), s.phase = .running → findQueue s q = some x →
    x.q = q → Lands s (.queue q) (rqQueue x) x.dbVa (wordBytes value) o f →
    w = (let t := written (rqQueue x) o f (wordBytes value) s; if s.power.st = .coast then wakeUp t else t) →
      (x.error = true → exec (.doorbell q value) s = .next w) ∧
      (x.error = false → (value.toNat < x.sqTail.toNat ∨ x.sqHead.toNat + 2 ^ x.ringLog2 / 64 < value.toNat) →
        exec (.doorbell q value) s = .next (queueError q 1 .badParam w)) ∧
      (x.error = false → x.sqTail.toNat ≤ value.toNat → value.toNat ≤ x.sqHead.toNat + 2 ^ x.ringLog2 / 64 →
        (x.pretrans = false → exec (.doorbell q value) s = .next (updQueue q (fun y => { y with sqTail := value }) w)) ∧
        (x.pretrans = true →
          exec (.doorbell q value) s = .next (pumpPre q (updQueue q (fun y => { y with sqTail := value }) w))))) ∧
  (∀ (s : State) (q : BitVec 13) (value : Word) (x : Queue) (o f : Nat), s.phase = .running → findQueue s q = some x →
    x.q = q → Lands s (.queue q) (rqQueue x) (x.dbVa + 0x10) (wordBytes value) o f →
      exec (.cqHeadUpdate false q value) s = .next (updQueue q (fun y => { y with cqHead := value })
        (written (rqQueue x) o f (wordBytes value) s))) ∧
  (∀ (s : State) (r : BitVec 6) (value : Word) (x : Ring) (o f : Nat), s.phase = .running →
    s.rings.find? (·.rider = r) = some x → Lands s (.ring r) (rqOf r 0) (x.dbVa + 0x10) (wordBytes value) o f →
      (x.todo = [] → x.dropped = 0 → exec (.cqHeadUpdate true (r.setWidth 13) value) s = .next
        (updRing r (fun y => { y with cqHead := value, todo := [] }) (written (rqOf r 0) o f (wordBytes value) s))) ∧
      exec (.cqHeadUpdate true (r.setWidth 13) value) s = .next (serveRing r (updRing r (fun y => { y with cqHead := value })
        (written (rqOf r 0) o f (wordBytes value) s))))

/-- R314, R318: the posting of a queue's oldest reply: its payload first; then the completion entry with its `PHASE` bit,
`CQ_TAIL`, and the event that `NOTIFY` asks for. Nothing is posted into a full completion ring. -/
def Sys2Proof.Claims.ReplyPostCompletes : Prop :=
  ∀ (s : State) (q : BitVec 13) (x : Queue) (r : Reply) (rest : List Reply), s.phase = .running →
    findQueue s q = some x → x.q = q → x.done = r :: rest →
    (x.cqFull = true → exec (.replyPost q) s = .next s) ∧
    (x.cqFull = false →
      (exec (.replyPost q) s = .next (match postPayload x r s with
        | (none, u) => u
        | (some p, u) => releaseRuns q (postEntry x p u))) ∧
      ∀ o1 f1 o2 f2 v w, (r.h.replyVa = 0 ∨ r.payload = [] ∨ r.payloadLost = true) →
        Lands s (.queue q) (rqQueue x) (x.cqVa + BitVec.ofNat 64 (x.cqTail.toNat % 2 ^ x.cqLog2 * 32))
          (replyBytes r (phaseOf x.cqTail x.cqLog2)) o1 f1 →
        Lands s (.queue q) (rqQueue x) (x.dbVa + 0x18) (wordBytes (x.cqTail + 1)) o2 f2 →
        v = updQueue q (fun y => { y with done := y.done.drop 1, cqTail := y.cqTail + 1 })
          (written (rqQueue x) o1 f1 (replyBytes r (phaseOf x.cqTail x.cqLog2)) s) →
        w = written (rqQueue x) o2 f2 (wordBytes (x.cqTail + 1)) v →
          exec (.replyPost q) s = .next (releaseRuns q (if r.h.notify then postEvent x.rider
            { type := 1, status := r.status.code, queue := q.setWidth 16, arg0 := r.h.tag.setWidth 64
              arg1 := r.op.setWidth 64 } w else w)))

/-- R298, R314: the 32 bytes of a reply, with its `PHASE` bit. -/
def Sys2Proof.Claims.ReplyLayout : Prop :=
  ∀ (r : Reply) (phase : Bool), (replyBytes r phase).length = 32 ∧
    fieldB (replyBytes r phase) 0 2 = r.h.version.toNat * 4096 + r.op.toNat ∧
    fieldB (replyBytes r phase) 2 2 = r.status.code.toNat ∧ fieldB (replyBytes r phase) 8 4 = r.h.tag.toNat ∧
    (fieldB (replyBytes r phase) 12 2).testBit 2 = phase ∧ (fieldB (replyBytes r phase) 12 2).testBit 0 = r.more ∧
    (fieldB (replyBytes r phase) 12 2).testBit 3 = r.payloadLost ∧
    fieldB (replyBytes r phase) 20 4 = r.epoch.toNat ∧ fieldB (replyBytes r phase) 24 8 = r.result.toNat

/-- R148, R298, R309 to R311, R314 to R316, R318: queues, doorbells, completions and the layout of a reply. -/
def Obligations.QueuesComplete : Prop :=
  QueueCreateCompletes ∧ QueueDestroyCompletes ∧ DoorbellsComplete ∧ LandedStoresRing ∧ ReplyPostCompletes ∧ ReplyLayout

/-! ### Laps -/

namespace Sys2Proof.Claims

/-- A lap command whose run and rights pass, with no earlier lap command on its extents (R128, R143). -/
structure LapRuns (op : Nat) (c : Cmd) (write : Bool) (s u : State) (idxs : List Nat) : Prop where
  runs   : runsIn op c s = some u
  form   : runForm (c.p 0) 1024 = true
  rights : lapRights u c.h.r write (runExts u c.h.surrogate (c.p 0)) = .inr idxs
  free   : lapBusy u idxs = false
  clean  : u.err.inj = []

end Sys2Proof.Claims

/-- R131, R132, R136 to R138: `LAP_OPEN` opens the lap named (0: the latest) for reading on every extent of its run,
`LAP_BEGIN_WRITE` opens or enlarges the write lap, `LAP_CLOSE` closes the lap read, or abandons the write lap; each answers the
lap state entries. -/
def Sys2Proof.Claims.LapCommandsComplete : Prop :=
  (∀ c s u idxs, LapRuns 0x200 c false s u idxs →
    (bits (c.p 0) 32 32 = 0 ∨ ∀ i ∈ idxs, lapCommitted u i (BitVec.ofNat 32 (bits (c.p 0) 32 32)) = true) →
      ∃ w, exec (.lapOpen c) s = .next (replied 0x200 c .ok 0 (lapEntries w c.h.r c.h.surrogate idxs) w) ∧
        w = { u with store := w.store } ∧ w.store.pages = u.store.pages ∧
        ∀ i, i ∉ idxs → findExt w i = findExt u i) ∧
  (∀ c s u idxs, LapRuns 0x201 c true s u idxs → 1 ≤ bits (c.p 0) 32 32 → bits (c.p 0) 32 32 ≤ 262144 →
    (∀ i ∈ idxs, wlapOther u c.h.r i = false) → (∀ i ∈ idxs, lapFull u (bits (c.p 0) 32 32) i = false) →
      ∃ w, exec (.lapBeginWrite c) s = .next (replied 0x201 c .ok 0 (lapEntries w c.h.r c.h.surrogate idxs) w) ∧
        w = { u with store.extents := w.store.extents } ∧
        (∀ i x, i ∈ idxs → findExt u i = some x → x.wlap = none → ∃ y, findExt w i = some y ∧ y.latest = x.latest ∧
          y.wlap.map (fun l => (l.rider, l.num, l.shadows)) = some (c.h.r, nextLap x.latest, []) ∧
          y.wlap.any (fun l => decide (bits (c.p 0) 32 32 ≤ l.reserved)) = true)) ∧
  (∀ c s u idxs, LapRuns 0x203 c false s u idxs → bits (c.p 0) 33 31 = 0 → bit (c.p 0) 32 = false →
      ∃ w, exec (.lapClose c) s = .next (replied 0x203 c .ok 0 (lapEntries w c.h.r c.h.surrogate idxs) w) ∧
        w = { u with store := w.store } ∧
        ∀ i y, i ∈ idxs → findExt w i = some y → lookupK y.reads c.h.r = none) ∧
  (∀ c s u idxs, LapRuns 0x203 c true s u idxs → bits (c.p 0) 33 31 = 0 → bit (c.p 0) 32 = true →
      ∃ w, exec (.lapClose c) s = .next (replied 0x203 c .ok 0 (lapEntries w c.h.r c.h.surrogate idxs) w) ∧
        w = { u with store := w.store, coh := w.coh } ∧ w.store.pages = u.store.pages ∧
        ∀ i y l, i ∈ idxs → findExt w i = some y → y.wlap = some l → l.rider ≠ c.h.r)

/-- R128, R137: `LAP_COMMIT` of one extent that is not mirrored and that no agent caches: the write lap's number becomes
the latest, its shadows become the latest version of their pages (as home frame, or as the copy of a flash-backed page), and the write lap is gone. -/
def Sys2Proof.Claims.LapCommitCompletes : Prop :=
  ∀ c s u i (x : Extent) (l : WLap), LapRuns 0x202 c true s u [i] → bits (c.p 0) 32 32 = 0 →
    c.payload = leBytes 4 l.num.toNat → runCount (c.p 0) = 1 → findExt u i = some x → x.wlap = some l →
    l.rider = c.h.r → (l.shadows.map (·.1)).Nodup → extsBusy u [i] = false → dirLines u [i] = [] → scanning u [i] = false → pairMirrors u = false →
      ∃ w y, exec (.lapCommit c) s = .next (replied 0x202 c .ok 0 (lapEntries w c.h.r c.h.surrogate [i]) w) ∧
        findExt w i = some y ∧ y.latest = l.num ∧ y.wlap = none ∧ w = { u with store := w.store } ∧
        ∀ e ∈ l.shadows, (findPage w.store e.1).home = some e.2 ∨ (findPage w.store e.1).copy.map (·.frame) = some e.2

/-- R129: the next lap number is the latest plus 1, wraps from 0xFFFF_FFFF to 1, and is never 0. -/
def Sys2Proof.Claims.LapNumbers : Prop :=
  ∀ n : BitVec 32, nextLap n ≠ 0 ∧ (n ≠ 0xFFFFFFFF → (nextLap n).toNat = n.toNat + 1) ∧ nextLap 0xFFFFFFFF = 1

/-- R128, R129, R137: the commit of a Lap and the numbers of the Laps. -/
def Obligations.LapCommitsComplete : Prop := LapCommitCompletes ∧ LapNumbers

/-- R141, R142: `STAGE_MARK` takes a mark over the latest laps of the rider's extents, or releases it;
`STAGE_ROLLBACK` abandons the rider's write laps and makes the marked laps' pages the latest version again. -/
def Sys2Proof.Claims.StageCommandsComplete : Prop :=
  (∀ c s u, runsIn 0x204 c s = some u → bits (c.p 0) 32 32 = 0 →
    replyTooLong c (32 * (markCovers u c.h.r c.h.surrogate).length) = false →
    lapBusy u ((markCovers u c.h.r c.h.surrogate).map (·.idx)) = false → findMark u c.h.r c.h.surrogate = none →
      ∃ w, exec (.stageMark c) s = .next (replied 0x204 c .ok 0
          (lapEntries w c.h.r c.h.surrogate ((markCovers u c.h.r c.h.surrogate).map (·.idx))) w) ∧
        w = { u with store.marks := w.store.marks } ∧
        (findMark w c.h.r c.h.surrogate).map (fun m => (m.tag, m.laps)) = some (BitVec.ofNat 32 (bits (c.p 0) 0 32),
          (markCovers u c.h.r c.h.surrogate).map fun x => (x.idx, x.latest))) ∧
  (∀ c s u m, runsIn 0x204 c s = some u → bits (c.p 0) 33 31 = 0 → bit (c.p 0) 32 = true →
    findMark u c.h.r c.h.surrogate = some m → replyTooLong c (32 * m.laps.length) = false →
    lapBusy u (m.laps.map (·.1)) = false →
      ∃ w, exec (.stageMark c) s = .next (replied 0x204 c .ok 0 (lapEntries w c.h.r c.h.surrogate (m.laps.map (·.1))) w) ∧
        w = { u with store := w.store } ∧ findMark w c.h.r c.h.surrogate = none) ∧
  (∀ c s u m, runsIn 0x205 c s = some u → findMark u c.h.r c.h.surrogate = some m → bits (c.p 0) 32 32 = 0 →
    m.tag.toNat = bits (c.p 0) 0 32 → replyTooLong c (32 * (rollExts u m).length) = false →
    lapBusy u ((rollExts u m).map (·.1)) = false → extsBusy u ((rollExts u m).map (·.1)) = false →
    dirLines u ((rollExts u m).map (·.1)) = [] → scanning u ((rollExts u m).map (·.1)) = false → pairMirrors u = false →
    (∀ e ∈ rollExts u m, rollFull u c.h.r e = false) →
      ∃ w, exec (.stageRollback c) s = .next (replied 0x205 c .ok 0
          (lapEntries w c.h.r c.h.surrogate ((rollExts u m).map (·.1))) w) ∧
        w = (rollExts u m).foldl (fun s e => rollLap e s)
          (forExts ((rollExts u m).map (·.1)) u (abandonOwn c.h.r)))

/-- R131, R132, R136 to R138, R141, R142: Laps and stages. -/
def Obligations.LapsComplete : Prop := LapCommandsComplete ∧ StageCommandsComplete


/-! ### Tiers and placement -/

/-- R70 to R73: `OBJ_PLACE` over pages that hold nothing takes the object; only the object table changes. R79: `PAGE_PIN` of
pages that have their copies. R96: `FLASH_TRIM` releases the flash pages of no object and counts the others. -/
def Sys2Proof.Claims.PlacementCommandsComplete : Prop :=
  (∀ c s u base, runsIn 0x280 c s = some u → descForm u c (descObj c) = true → (descObj c).policy ≠ 0 →
    localRun u c.h.surrogate (descObj c).base (descObj c).pages = some base →
    runWriter u c.h.r base (descObj c).pages = true →
    (∀ p ∈ u.store.objects, objOverlaps p { descObj c with base := base } = false ∧ p.base ≠ base) →
    (∀ p ∈ u.store.pages, Obj.covers { descObj c with base := base } p.n = false) →
    stageOk { descObj c with base := base } none = true → u.store.objects.length < 65536 →
    frozenRun u base (descObj c).pages = false → tierBusy u.store base (descObj c).pages = false →
    releasing u.store base = false →
    fits { u with store.objects := u.store.objects ++ [{ descObj c with base := base }] } { descObj c with base := base }
      = true →
      exec (.objPlace c) s = .next (replied 0x280 c .ok 0 []
        { u with store.objects := u.store.objects ++ [{ descObj c with base := base }] })) ∧
  (∀ c s u first o, runsIn 0x282 c s = some u → pageRunForm c 32 = true →
    localRun u c.h.surrogate ((c.p 0).toNat / 65536) (bits (c.p 1) 0 32) = some first →
    runObj u.store first (bits (c.p 1) 0 32) = some o → o.policy = 3 → runWriter u c.h.r first (bits (c.p 1) 0 32) = true →
    o.pins.length + bits (c.p 1) 0 32 - (o.pins.filter (inRun first (bits (c.p 1) 0 32))).length ≤ o.stagePages - 1 →
    (∀ p ∈ u.store.pages, inRun first (bits (c.p 1) 0 32) p.n = true → p.home.isSome = true → p.copy.isSome = true) →
      ∃ w, exec (.pagePin c) s = .next (replied 0x282 c .ok 0 [] w) ∧
        w = { u with store.objects := w.store.objects, store.pages := w.store.pages, store.progs := w.store.progs } ∧
        (w.store.progs.map fun g => (g.id, g.page, g.src, g.dst)) = (u.store.progs.map fun g => (g.id, g.page, g.src, g.dst)) ∧
        (∀ p ∈ w.store.pages, inRun first (bits (c.p 1) 0 32) p.n = true → ∀ k, p.copy = some k → k.pinned = true) ∧
        ∀ q ∈ w.store.objects, q.base = o.base → ∀ n, n ∈ q.pins ↔ n ∈ o.pins ∨ inRun first (bits (c.p 1) 0 32) n = true) ∧
  (∀ c s u first, runsIn 0x284 c s = some u → pageRunForm c 32 = true → Config.hasFlash u.variant = true →
    localRun u c.h.surrogate ((c.p 0).toNat / 65536) (bits (c.p 1) 0 32) = some first →
    runWriter u c.h.r first (bits (c.p 1) 0 32) = true → u.power.st ≠ .brake → u.power.hold = false →
    frozenRun u first (bits (c.p 1) 0 32) = false → tierBusy u.store first (bits (c.p 1) 0 32) = false →
      ∃ w n, exec (.flashTrim c) s = .next (replied 0x284 c .ok (BitVec.ofNat 64 ((bits (c.p 1) 0 32 - n) * 2 ^ 32 + n)) [] w) ∧
        w = { u with store := w.store } ∧ w.store.objects = u.store.objects ∧
        (∀ p, inRun first (bits (c.p 1) 0 32) p = true → trims u p = true → (findPage w.store p).home = none) ∧
        (∀ p, inRun first (bits (c.p 1) 0 32) p = false ∨ trims u p = false → findPage w.store p = findPage u.store p))

/-- R80: `PAGE_EVICT` that keeps the copy of one dirty page starts the program of its flash frame and waits for it; with
no copy in the run it answers at once. -/
def Sys2Proof.Claims.PageEvictCompletes : Prop :=
  ∀ c s u first o, runsIn 0x283 c s = some u → pageRunForm c 33 = true →
    localRun u c.h.surrogate ((c.p 0).toNat / 65536) (bits (c.p 1) 0 32) = some first →
    runObj u.store first (bits (c.p 1) 0 32) = some o → (o.policy = 3 ∨ o.policy = 4) →
    runWriter u c.h.r first (bits (c.p 1) 0 32) = true → frozenRun u first (bits (c.p 1) 0 32) = false →
    bit (c.p 1) 32 = true →
    ((∀ p ∈ u.store.pages, inRun first (bits (c.p 1) 0 32) p.n = true → p.copy = none) →
      exec (.pageEvict c) s = .next (replied 0x283 c .ok 0 [] u)) ∧
    (∀ (p : Page) (k : Copy) (h : Nat),
      (u.store.pages.filter fun q => inRun first (bits (c.p 1) 0 32) q.n && q.copy.isSome) = [p] → p.copy = some k →
      p.home = some h → k.dirty = true → (∀ g ∈ u.store.progs, g.page ≠ p.n) → flashRefuses u (clusterOf p.n) = none →
      pageFenced u k.frame p.n = false →
        ∃ t, exec (.pageEvict c) s = .next t ∧ t.store.mem = u.store.mem ∧
          (t.store.progs.map fun g => (g.page, g.src, g.dst, g.drop)) =
            (u.store.progs.map fun g => (g.page, g.src, g.dst, g.drop)) ++ [(p.n, k.frame, h, false)] ∧
          (t.store.tierCmds.map fun q => q.pending) = (u.store.tierCmds.map fun q => q.pending) ++ [[u.store.nextMove]])

/-- R70 to R73, R79, R80, R96: placement, pins, trimming and eviction. -/
def Obligations.PlacementComplete : Prop := PlacementCommandsComplete ∧ PageEvictCompletes

/-- R74, R77: a granule of a move is copied, and nothing else in memory changes; the sixteenth moves the page. -/
def Sys2Proof.Claims.MovesComplete : Prop :=
  ∀ (s : State) (id : Nat) (m : Move) (g : Fin 16), s.phase = .running → s.store.moves.find? (·.id == id) = some m →
    g ∉ m.done → (m.done ≠ [] ∨ firstWork s.store m.page id m.why = true) →
    tierStopped s (frameTier s.store m.dst) = false →
    (∀ fr, findFrame s.store m.src = some fr → frameFenced s fr (m.page * 65536 + g.val * 4096) = false) →
    badAt s.store (frameTier s.store m.src) (m.src * 65536 + g.val * 4096) 4096 = false →
    (m.done.length + 1 < 16 → ∃ t, exec (.granuleCopyComplete id g) s = .next t ∧
      t = { s with store.mem := t.store.mem, store.moves := t.store.moves } ∧
      (∀ i, i < 4096 → memGet t.store.mem (m.dst * 65536 + g.val * 4096 + i) =
        memGet s.store.mem (m.src * 65536 + g.val * 4096 + i)) ∧
      (∀ a, a < m.dst * 65536 + g.val * 4096 ∨ m.dst * 65536 + g.val * 4096 + 4096 ≤ a →
        memGet t.store.mem a = memGet s.store.mem a)) ∧
    (m.done.length = 15 → ∀ p ∈ s.store.pages, p.n = m.page → p.home = some m.src → p.copy = none →
      ∃ t, exec (.granuleCopyComplete id g) s = .next t ∧
        (∀ q ∈ t.store.moves, q.id ≠ id) ∧ ∃ q ∈ t.store.pages, q.n = m.page ∧ q.home = some m.dst)

/-- R78, R90, R91, R425: a flash read whose units can be read gives its page a copy or a home, or serves the accesses that
wait for it. -/
def Sys2Proof.Claims.FlashReadsComplete : Prop :=
  ∀ (s : State) (id : Nat) (r : FlashRead) (units : List UnitRead), s.phase = .running →
    s.store.reads.find? (·.id == id) = some r → firstWork s.store r.page id r.why = true →
    coreRestarting s (16 + clusterOf r.page) = false → unitsMayRead s (clusterOf r.page) r.src units = true →
    unitFenced s (unitSaddlebag (clusterOf r.page)) = false → r.src * 65536 ∉ s.store.bad → s.err.inj = [] →
    UnitRead.failed ∉ units →
    (r.dst = none → r.why = .direct → exec (.flashReadComplete id units) s = .next (directDone r.page r.src .read
      { countRead (clusterOf r.page) r.src units s with store.reads := dropIf s.store.reads (·.id == id) })) ∧
    (∀ f, r.dst = some f → tierStopped s (frameTier s.store f) = false →
      (findPage s.store r.page).home = some r.src → (findPage s.store r.page).copy = none →
      (∀ o, pageObj s.store r.page = some o → flashBacked o.policy = true → ∃ t k,
        exec (.flashReadComplete id units) s = .next t ∧ (findPage t.store r.page).copy = some k ∧ k.frame = f ∧
        k.dirty = false ∧ ∀ i, i < 65536 → memGet t.store.mem (f * 65536 + i) = memGet s.store.mem (r.src * 65536 + i)) ∧
      ((∀ o, pageObj s.store r.page = some o → flashBacked o.policy = false) → ∃ t,
        exec (.flashReadComplete id units) s = .next t ∧ (findPage t.store r.page).home = some f))

/-- R75, R78, R80, R90, R93: a flash program ends; a store that landed meanwhile starts it again, else the flash frame holds
the copy, which is clean or gone. -/
def Sys2Proof.Claims.FlashProgramsComplete : Prop :=
  ∀ (s : State) (id : Nat) (p : FlashProg) (us : List FlashUnit), s.phase = .running →
    s.store.progs.find? (·.id == id) = some p → p.held = false → coreRestarting s (16 + clusterOf p.page) = false →
    unitsOk s (clusterOf p.page) us = true → unitFenced s (unitSaddlebag (clusterOf p.page)) = false →
    pageFenced s p.src p.page = false → p.why ≠ .direct →
    badAt s.store (frameTier s.store p.src) (p.src * 65536) 65536 = false →
    (p.stored = true → ∃ t, exec (.flashProgramComplete ⟨id, us⟩) s = .next t ∧ t.store.mem = s.store.mem ∧
      ∀ q ∈ t.store.progs, q.id = id → q.stored = false) ∧
    (p.stored = false → p.drop = false → ∃ t, exec (.flashProgramComplete ⟨id, us⟩) s = .next t ∧
      (∀ q ∈ t.store.progs, q.id ≠ id) ∧ lookupK t.store.units p.dst = some us ∧
      (∀ i, i < 65536 → memGet t.store.mem (p.dst * 65536 + i) = memGet s.store.mem (p.src * 65536 + i)) ∧
      (∀ k, (findPage t.store p.page).copy = some k → k.dirty = false)) ∧
    (p.stored = false → p.drop = true → ∃ t, exec (.flashProgramComplete ⟨id, us⟩) s = .next t ∧
      (∀ q ∈ t.store.progs, q.id ≠ id) ∧ (findPage t.store p.page).copy = none)

/-- R74, R75, R77, R78, R90, R425: what ends a granule of a move, a flash read, a flash program. -/
def Obligations.MovesAndFlashComplete : Prop := MovesComplete ∧ FlashReadsComplete ∧ FlashProgramsComplete

/-- R83 to R86, R301: a schedule is installed; its entries start, complete and are released. -/
def Obligations.SchedulesComplete : Prop :=
  (∀ c s u first o, runsIn 0x281 c s = some u → c.h.chunk = 0 → c.h.more = false → findAssembly u c = none →
    (c.p 0).toNat % 65536 = 0 → (c.p 0).toNat < 2 ^ 48 → bits (c.p 1) 13 3 = 0 → bits (c.p 1) 17 47 = 0 →
    1 ≤ bits (c.p 1) 0 13 → bits (c.p 1) 0 13 ≤ 4096 → c.payload.length = 32 * bits (c.p 1) 0 13 →
    localRun u c.h.surrogate ((c.p 0).toNat / 65536) 1 = some first → findObj u.store first = some o →
    (o.policy = 3 ∨ o.policy = 5) → o.sched = none →
    ((chunksB 32 (bits (c.p 1) 0 13) c.payload).mapIdx fun i b => schedForm o (bits (c.p 1) 0 13) i b).all id = true →
    (∀ b ∈ chunksB 32 (bits (c.p 1) 0 13) c.payload, (parseSched b).syncs.all (riderHasSync u c.h.r) = true) →
    frozenRun u o.base o.pages = false → releasing u.store o.base = false →
      exec (.prefetchSchedule c) s = .next (replied 0x281 c .ok 0 [] (updObj o.base (fun o =>
        { o with sched := some (Sched.mk (bit (c.p 1) 16)
            ((chunksB 32 (bits (c.p 1) 0 13) c.payload).map parseSched) 0 []) }) u))) ∧
  (∀ (s : State) (base : Nat) (o : Obj) (x : Sched) (e : SchedEntry), s.phase = .running →
    findObj s.store base = some o → o.sched = some x → x.entries[x.started % x.entries.length]? = some e →
    (x.started / x.entries.length = 0 ∨ x.loop = true) →
    trigMet s x (x.started / x.entries.length) (x.started % x.entries.length) e = true →
    schedTaken o x + e.pageCount ≤ o.stagePages →
      ∃ t p y, exec (.scheduleEntryStart base) s = .next t ∧ findObj t.store base = some p ∧ p.sched = some y ∧
        y.started = x.started + 1 ∧ y.entries = x.entries ∧
        SchedRun.mk (x.started / x.entries.length) (x.started % x.entries.length) [] false false ∈ y.runs) ∧
  (∀ (s : State) (base pass entry : Nat) (o : Obj) (x : Sched) (r : SchedRun) (e : SchedEntry), s.phase = .running →
    s.err.inj = [] → findObj s.store base = some o → o.sched = some x →
    x.runs.find? (fun r => r.pass == pass && r.entry == entry) = some r → x.entries[entry]? = some e →
    (r.done = false → fillDone s.store o e = true →
      ∃ t p y, exec (.scheduleFillComplete base pass entry) s = .next t ∧ findObj t.store base = some p ∧
        p.sched = some y ∧ (∀ q ∈ y.runs, q.pass = pass → q.entry = entry → q.done = true) ∧
        ∀ obj, e.ready = some obj → syncVal t obj = syncVal s obj + 1) ∧
    (r.released = false → frozenRun s (o.base + e.firstPage) e.pageCount = false →
      (BitVec.ofNat 64 (e.relValue + pass * e.passStep)).toNat ≤ (syncVal s e.relSync).toNat →
      ∃ t p y, exec (.scheduleRelease base pass entry) s = .next t ∧ findObj t.store base = some p ∧ p.sched = some y ∧
        (∀ q ∈ y.runs, q.pass = pass → q.entry = entry → q.released = true ∧ q.done = true ∧ q.copies = []) ∧
        ∀ obj, r.done = false → e.ready = some obj → syncVal t obj = syncVal s obj + 1))

/-! ### The flash layer -/

/-- R91, R94, R95: relocations, patrol reads, failed dies and their rebuild, in a mounted cluster. -/
def Sys2Proof.Claims.FlashUpkeepCompletes : Prop :=
  ∀ (s : State) (k : Fin 4) (c : Cluster), s.phase = .running → Config.hasFlash s.variant = true →
    s.flash[k.val]? = some c → c.state ≠ 0 → c.state ≠ 4 → unitFenced s (unitSaddlebag k.val) = false →
    (∀ die block units, exec (.readDisturbRelocation ⟨k, die⟩ block units) s = .next { s with
      flash := updAt s.flash k.val fun c => { c with
        relocs := c.relocs + units, reads := dropIf c.reads (·.1 == (die, block)) } }) ∧
    (∀ die block units, exec (.flashPatrol ⟨k, die⟩ block false units) s = .next { s with
      flash := updAt s.flash k.val fun c => { c with reads := bumpK (die, block) c.reads } }) ∧
    (∀ die block units, (die, block) ∉ c.soft → exec (.flashPatrol ⟨k, die⟩ block true units) s = .next { s with
      flash := updAt s.flash k.val fun c => { c with
        reads := bumpK (die, block) c.reads, relocs := c.relocs + units, soft := c.soft ++ [(die, block)] } }) ∧
    (∀ frame (unit : Fin 4) place us, lookupK s.store.units frame = some us → layerHeld s k.val = false → 0 < c.relocs →
      frameIn s k.val frame = true → unitOk s k.val place = true → apart (us.set unit.val place) = true →
      (∀ p ∈ s.store.progs, p.dst = frame → p.held = true) →
        exec (.relocationComplete ⟨k, frame, unit, place⟩) s = .next { s with
          store.units := setK s.store.units frame (us.set unit.val place)
          flash := updAt s.flash k.val fun c => { c with
            relocs := c.relocs - 1, scrubs := bumpSat c.scrubs 1, wear := bumpK (place.die, place.block) c.wear } }) ∧
    (∀ die, die ∉ c.failed → die < Config.flashDies s.variant → ∃ t, exec (.dieFailure k die) s = .next t ∧
      t = { s with flash := t.flash, err := t.err, nv := t.nv } ∧
      t.flash[k.val]? = some { c with failed := c.failed ++ [die], rebuilds := c.rebuilds ++ [die] }) ∧
    (∀ die, layerHeld s k.val = false → die ∈ c.rebuilds → ∃ t d, exec (.rebuildComplete k die) s = .next t ∧
      t.flash[k.val]? = some d ∧ d.rebuilds = c.rebuilds.erase die ∧ d.failed = c.failed ∧ d.spare.toNat ≤ c.spare.toNat ∧
      t.store = { s.store with units := t.store.units })

/-- R93, R95: a program or an erase that fails retires its block, and a frame's program goes on elsewhere. -/
def Sys2Proof.Claims.FlashFailuresComplete : Prop :=
  ∀ (s : State) (k : Fin 4) (c : Cluster) (die block : Nat), s.phase = .running → Config.hasFlash s.variant = true →
    s.flash[k.val]? = some c → c.state ≠ 0 → c.state ≠ 4 → unitFenced s (unitSaddlebag k.val) = false →
    (die, block) ∉ c.bad →
    (∃ t d, exec (.programFailure ⟨k, die⟩ none block) s = .next t ∧ t.store = s.store ∧ t.flash[k.val]? = some d ∧
      d.retired = bumpSat c.retired 1 ∧ d.bad = c.bad ++ [(die, block)] ∧ d.spare.toNat ≤ c.spare.toNat) ∧
    (∀ id p, s.store.progs.find? (·.id == id) = some p → p.held = false → clusterOf p.page = k.val →
      ∃ t d, exec (.programFailure ⟨k, die⟩ (some id) block) s = .next t ∧
        t.store = { s.store with progs := t.store.progs } ∧
        (t.store.progs.map fun g => (g.id, g.page, g.src, g.dst)) = (s.store.progs.map fun g => (g.id, g.page, g.src, g.dst)) ∧
        t.flash[k.val]? = some d ∧ d.retired = bumpSat c.retired 1 ∧ d.bad = c.bad ++ [(die, block)] ∧
        d.spare.toNat ≤ c.spare.toNat)

/-- R99 to R101: a cluster mounts in the state that its spare space gives; one that does not mount is fenced. -/
def Sys2Proof.Claims.MountsComplete : Prop :=
  ∀ (s : State) (k : Fin 4) (c : Cluster), s.phase = .running → Config.hasFlash s.variant = true →
    s.flash[k.val]? = some c → c.state = 0 →
    (∃ t, exec (.clusterMountComplete k true) s = .next t ∧ t.flash[k.val]? = some { c with state := spareLevel c } ∧
      bit t.side.alert 1 = true ∧ t.store = s.store) ∧
    (unitFenced s (unitSaddlebag k.val) = false → (∀ r ∈ s.store.reads, clusterOf r.page ≠ k.val) →
      (∀ p ∈ s.store.progs, clusterOf p.page ≠ k.val) →
      (∃ t, exec (.clusterMountComplete k false) s = .next t ∧ t.flash[k.val]? = some { c with state := 4 } ∧
        unitFenced t (unitSaddlebag k.val) = true) ∧
      (∃ t, exec (.clusterMountTimeout k) s = .next t ∧ t.flash[k.val]? = some { c with state := 4 } ∧
        unitFenced t (unitSaddlebag k.val) = true))

/-- R91, R93 to R95, R98 to R101: relocations, patrol, failed programs and dies, rebuilds, and mounting. -/
def Obligations.FlashLayerComplete : Prop := FlashUpkeepCompletes ∧ FlashFailuresComplete ∧ MountsComplete
/-! ### Errors and containment -/

/-- R334, R335, R336: each trigger marks its unit fenced and logs it; a memory unit's fence touches nothing else. A unit
that is fenced stays as it is. -/
def Obligations.FenceTriggersComplete : Prop :=
  ∀ (s : State) (u : BitVec 16), s.phase = .running → unitExists s u = true →
    (∀ trigger, ∃ r, markFence u trigger s = { s with err := (markFence u trigger s).err, nv := (markFence u trigger s).nv } ∧
      (markFence u trigger s).err.fences = s.err.fences ++ [u] ∧ (markFence u trigger s).err.mgmt = s.err.mgmt ++ [u] ∧
      (markFence u trigger s).err.log.recs.getLast? = some r ∧ r.type = 8 ∧ r.unit = u ∧ r.time = s.now ∧
      r.arg0 = BitVec.ofNat 64 trigger ∧ bit r.flags 5 = true) ∧
    (unitFenced s u = false →
      ((unitKind u = 5 ∨ unitKind u = 6) → exec (.memoryControllerTimeout u) s = .next (markFence u 4 s)) ∧
      (unitKind u = 7 → exec (.protocolEngineFault u) s = .next (fencePort (unitIdx u) (markFence u 7 s))) ∧
      (unitKind u = 8 → exec (.protocolEngineFault u) s = .next (fenceTandem (markFence u 7 s))) ∧
      (unitKind u ∈ [2, 3, 4, 8, 9] → exec (.interconnectHopFailure u) s = .next (fenceEffects u (markFence u 2 s))) ∧
      (∀ tile x, u = unitTile tile → findTile s tile = some x → x.prog.isSome = true →
        (∃ k ∈ x.ctxs, k.st = .ready ∨ k.st = .running) →
          exec (.tileIssueWatchdog tile) s = .next (fenceTile tile (markFence u 1 s)))) ∧
    (unitFenced s u = true →
      exec (.memoryControllerTimeout u) s = .next s ∧ exec (.protocolEngineFault u) s = .next s ∧
      (unitKind u ∈ [2, 3, 4, 8, 9] → exec (.interconnectHopFailure u) s = .next s) ∧
      ∀ tile, u = unitTile tile → exec (.tileIssueWatchdog tile) s = .next s)

/-- R337, R338: management writes its view once and a healthy view raises an alert; a report about a unit in service fences
nothing; `UNIT_UNFENCE` starts the check; a check that fails leaves the fence, one that passes lifts it. -/
def Sys2Proof.Claims.ManagementAndUnfenceComplete : Prop :=
  (∀ (s : State) (u : BitVec 16) (code : BitVec 4), s.phase = .running →
    (u ∈ s.err.mgmt → 1 ≤ code.toNat → code.toNat ≤ 4 → ∃ t, exec (.managementObservation u code) s = .next t ∧
      t = { s with err := t.err, nv := t.nv, side := t.side } ∧ t.err.mgmt = s.err.mgmt.erase u ∧
      t.err.fences = s.err.fences ∧ (code = 1 → bit t.side.alert 2 = true) ∧ (code ≠ 1 → t.side = s.side)) ∧
    (unitFenced s u = false → unitExists s u = true → 2 ≤ code.toNat → code.toNat ≤ 4 →
      ∃ t, exec (.managementReportsFailure u code) s = .next t ∧ t = { s with err := t.err, nv := t.nv, side := t.side } ∧
        t.err.fences = s.err.fences ∧ t.err.mgmt = s.err.mgmt ∧ bit t.side.alert 2 = true)) ∧
  (∀ (c : Cmd) (s u : State) (unit : BitVec 16), runsIn 0x603 c s = some u → bits (c.p 0) 16 48 = 0 →
    unit = BitVec.ofNat 16 (bits (c.p 0) 0 16) → unitExists u unit = true → unitKind unit ≠ 0xB →
    (unitFenced u unit = false → exec (.unitUnfence c) s = .next (replied 0x603 c .ok 0 [] u)) ∧
    (unitFenced u unit = true → unitKind unit ≠ 0xA → (∀ x ∈ u.err.checks, x.unit ≠ unit) →
      exec (.unitUnfence c) s = .next { u with err := { u.err with
        checks := u.err.checks ++ [{ unit := unit, cmd := openOf 0x603 c }] } })) ∧
  (∀ (s : State) (unit : BitVec 16) (x : Check), s.phase = .running → s.err.checks.find? (·.unit = unit) = some x →
    (∀ (step : BitVec 3) (dir : Bool), 1 ≤ step.toNat → step.toNat ≤ 5 → ∃ t,
      exec (.unfenceCheckComplete unit step dir) s = .next t ∧ t.err.fences = s.err.fences ∧
      (∀ y ∈ t.err.checks, y.unit ≠ unit) ∧
      (x.cmd.h.src = .port → x.cmd ∈ s.port.outstanding → ∃ r ∈ t.port.replies, r.status = .fenced ∧ r.h = x.cmd.h)) ∧
    (∀ dir, unitKind unit ∈ [1, 2, 4] → s.err.fences.count unit = 1 → ∃ t,
      exec (.unfenceCheckComplete unit 0 dir) s = .next t ∧ unitFenced t unit = false ∧
      (∀ v, v ≠ unit → unitFenced t v = unitFenced s v) ∧ ∀ y ∈ t.err.checks, y.unit ≠ unit))

/-- R326, R327, R339: the patrol corrects a code word in memory and counts it; a code word beyond correction is recorded
and stays bad; nothing is fenced. -/
def Sys2Proof.Claims.PatrolCompletes : Prop :=
  ∀ (s : State) (offset : Word) (f : Nat) (fr : Frame), s.phase = .running → (s.power.st = .cruise ∨ s.power.st = .sprint) →
    latestFrame s offset.toNat = some f → findFrame s.store f = some fr → memPoint (unitOf s offset.toNat) ≠ 7 →
    unitFenced s (unitOf s offset.toNat) = false → s.err.inj = [] →
    let cw := codeWord (frameTier s.store f)
    let a := (f * 65536 + offset.toNat % 65536) / cw * cw
    (a ∉ s.store.bad → ∃ t, exec (.memoryPatrol offset .correctable) s = .next t ∧
      t = { s with err := t.err, store := t.store } ∧ t.store = { s.store with soft := s.store.soft.erase a } ∧
      t.err.corrected = bumpSat s.err.corrected 1 ∧ t.err.fences = s.err.fences) ∧
    (a ∉ s.store.bad → a ∉ s.store.soft → exec (.memoryPatrol offset .clean) s = .next s) ∧
    (s.err.behind ≤ 256 → ∃ t r, exec (.memoryPatrol offset .uncorrectable) s = .next t ∧ t = { s with err := t.err, nv := t.nv, store := t.store } ∧
      a ∈ t.store.bad ∧ t.store.mem = s.store.mem ∧ t.err.fences = s.err.fences ∧
      t.err.log.recs.getLast? = some r ∧ r.type = 3 ∧ r.unit = unitOf s offset.toNat)

/-- R326, R327, R337 to R339: management of units, unfencing and the patrol. -/
def Obligations.ManagementComplete : Prop := ManagementAndUnfenceComplete ∧ PatrolCompletes

/-- R331, R345, R347: the logs are read by sequence number; a record of MRAM that fails its check is written again at the
next position. R343, R344: `INJECT` arms and is logged; the end of its duration removes it. -/
def Obligations.LogsAndInjectionComplete : Prop :=
  (∀ (c : Cmd) (s u : State) (r : Rec), runsIn 0x600 c s = some u → bits (c.p 0) 1 31 = 0 → 1 ≤ bits (c.p 0) 32 32 →
    bits (c.p 0) 32 32 ≤ 1024 →
    (bit (c.p 0) 0 = false → (∀ q, c.h.src ≠ .queue q) → u.err.log.recs.getLast? = some r →
      exec (.errLogRead c) s = .next (replied 0x600 c .ok (BitVec.ofNat 64 r.seq)
        (((u.err.log.recs.filter fun r => decide ((c.p 1).toNat ≤ r.seq)).take (bits (c.p 0) 32 32)).flatMap Rec.bytes) u)) ∧
    (bit (c.p 0) 0 = false → ∀ q, c.h.src = .queue q →
      exec (.errLogRead c) s = .next (replied 0x600 c .auth 0 [] u)) ∧
    (bit (c.p 0) 0 = true → (faultLog u c.h.r).recs.getLast? = some r →
      exec (.errLogRead c) s = .next (replied 0x600 c .ok (BitVec.ofNat 64 r.seq)
        ((((faultLog u c.h.r).recs.filter fun r => decide ((c.p 1).toNat ≤ r.seq)).take (bits (c.p 0) 32 32)).flatMap Rec.bytes) u))) ∧
  (∀ (c : Cmd) (s u : State) (r : Rec), runsIn 0x602 c s = some u → bits (c.p 1) 32 32 = 0 → 1 ≤ bits (c.p 1) 0 32 →
    bits (c.p 1) 0 32 ≤ (if c.h.src = .sideband then 64 else 1024) → (odoValid u).recs.getLast? = some r →
      exec (.odometerRead c) s = .next (replied 0x602 c .ok (BitVec.ofNat 64 r.seq)
        ((((odoValid u).recs.filter fun r => decide ((c.p 0).toNat ≤ r.seq)).take (bits (c.p 1) 0 32)).flatMap Rec.bytes) u)) ∧
  (∀ (s : State) (seq : Nat), exec (.odometerRecordWrite seq true) s = .next s ∧
    ∀ r, s.nv.odoBad = [] → s.nv.odometer.recs.getLast? = some r → r.seq = seq → s.nv.odometer.recs.length < 131072 →
      s.nv.odometer.recs.length ≤ s.nv.odoPos →
      exec (.odometerRecordWrite seq false) s = .next { s with nv := { s.nv with
        odometer := { s.nv.odometer with recs := s.nv.odometer.recs ++ [r] }, odoPos := s.nv.odoPos + 1
        odoBad := [s.nv.odoPos - 1] } }) ∧
  (∀ (c : Cmd) (s u : State), runsIn 0x601 c s = some u → u.fw.identity = true → injectForm u c = true →
    injectAuth u c = true → u.err.inj.length < 16 → ∃ w i, exec (.inject c) s = .next (replied 0x601 c .ok 0 [] w) ∧
      w = { u with err := w.err, nv := w.nv, store := w.store } ∧ w.store.mem = u.store.mem ∧ w.err.inj = u.err.inj ++ [i] ∧
      i.point = BitVec.ofNat 16 (bits (c.p 0) 0 16) ∧ i.unit = BitVec.ofNat 16 (bits (c.p 0) 16 16) ∧
      w.err.injSeq = some (BitVec.ofNat 32 (bits (c.p 2) 0 32))) ∧
  ∀ (s : State) (n : Nat), s.phase = .running → exec (.injectionDurationEnd n) s =
    .next { s with err := { s.err with inj := dropIf s.err.inj fun x => x.id == n && x.mode = 2 } }

/-! ### Composition, `RIDER_RESET`, extents -/

namespace Sys2Proof.Claims

/-- The whole `COMPOSE` record is at hand and none of the refusals of R35, R100 and R301 holds. -/
structure WholeRecord (c : Cmd) (u : State) : Prop where
  first   : c.h.chunk = 0
  last    : c.h.more = false
  fresh   : findAssembly u c = none
  idle    : u.compose = .idle
  mounted : notMounted u = false
  alone   : u.port.assemblies.any (fun a => a.op = .compose && a.tag ≠ c.h.tag) = false
  known   : u.fw.identity = true
  chunks  : 1 ≤ (c.p 0).toNat ∧ (c.p 0).toNat ≤ 16 ∧ (c.p 0).toNat = (c.payload.length + 65535) / 65536

end Sys2Proof.Claims

/-- R34, R36: `COMPOSE` with a record that fails a check returns that check's status and changes nothing; with one that
passes, it closes the module to new requests, at once or (R43) after the revokes and assignments accepted before it have
returned. R301: a chunk that is not the last is kept. -/
def Obligations.ComposeAccepted : Prop :=
  ∀ (c : Cmd) (s u : State), runsIn 0x018 c s = some u →
    (WholeRecord c u →
      (∀ st, checkRecord u c.payload = .inl st → exec (.compose c) s = .next (replied 0x018 c st 0 [] u) ∧
        exec (.commandChunk .compose c) s = .next (replied 0x018 c st 0 [] u)) ∧
      (∀ k, checkRecord u c.payload = .inr k → revokesOpen u ≠ [] →
        exec (.compose c) s = .next { u with compose := .waiting (openOf 0x018 c) k (revokesOpen u) } ∧
        exec (.commandChunk .compose c) s = .next { u with compose := .waiting (openOf 0x018 c) k (revokesOpen u) }) ∧
      (∀ k, checkRecord u c.payload = .inr k → revokesOpen u = [] → ∃ t, exec (.compose c) s = .next t ∧
        exec (.commandChunk .compose c) s = .next t ∧
        t = { u with port := t.port, queues := t.queues, compose := .draining (openOf 0x018 c) k, drain := Drain.zero })) ∧
    (u.compose ≠ .idle → exec (.compose c) s = .next (replied 0x018 c .busy 0 [] u)) ∧
    (c.h.chunk = 0 → c.h.more = true → findAssembly u c = none → u.compose = .idle → notMounted u = false →
      u.port.assemblies.any (fun a => a.op = .compose && a.tag ≠ c.h.tag) = false → c.payload.length = 65536 →
      (c.h.src = .port → (u.port.assemblies.filter (·.src = .port)).length < 4) →
      ∃ t, exec (.commandChunk .compose c) s = .next t ∧ exec (.compose c) s = .next t ∧
        t = { u with port := t.port, queues := t.queues } ∧ t.port.assemblies = u.port.assemblies ++
          [{ src := c.h.src, op := .compose, tag := c.h.tag, params := c.params, next := 1, data := c.payload }])

/-- R36, R40: the drain of a composition is over: the record is applied and switched to; the drain limit first completes with
`TIMEOUT` what is still open. -/
def Sys2Proof.Claims.DrainsComplete : Prop :=
  (∀ s o k, s.phase = .running → s.compose = .draining o k → drained { rider := none, keep := o } s = true →
    exec .composeDrained s = .next (bootComp o (drainNow { rider := none, keep := o } s) k s)) ∧
  (∀ s o k, s.phase = .running → s.compose = .draining o k →
    exec .composeDrainLimit s = .next (bootComp o
      { drainNow { rider := none, keep := o } s with forced := portMask (openPorts s) } k
      (forceOpen { rider := none, keep := o } .timeout s)))

/-- R36: what a composition leaves when it is applied and switched to: the record, its epoch, new meters, and in the store
the pages of the extents that the record keeps and nothing else. -/
def Obligations.CompositionSwitch : Prop :=
  DrainsComplete ∧
  (∀ k s, (applyComp k s).comp = some k ∧ (applyComp k s).queues = [] ∧
    (applyComp k s).sync.vals = [] ∧ (applyComp k s).xlat.roots = [] ∧ (applyComp k s).coh.dir = [] ∧
    (applyComp k s).coh.lost = [] ∧ (applyComp k s).store.objects = [] ∧ (applyComp k s).store.marks = [] ∧
    (∀ x ∈ (applyComp k s).store.extents, x.wlap = none ∧ x.reads = [] ∧ x.fenced = false) ∧
    (∀ p ∈ (applyComp k s).store.pages, extentOfPage p.n ∈ keepIdxs k ∧ p.copy = none) ∧
    ∀ a, memGet (applyComp k s).store.mem a ≠ 0 → ∃ p ∈ (applyComp k s).store.pages, p.home = some (a / 65536)) ∧
  ∀ o old d k s, s.held = [] →
    (switchComp o old d k s).comp = s.comp ∧ (switchComp o old d k s).compose = .idle ∧
    (switchComp o old d k s).drain = { d with done := true } ∧ (switchComp o old d k s).store = s.store ∧
    (switchComp o old d k s).trip = Trip.start k.epoch s.now (k.riders.map (·.rider)) ∧
    (switchComp o old d k s).prevTrip = (if s.ever then some { s.trip with to_ := s.now } else s.prevTrip) ∧
    (switchComp o old d k s).nv.kept = some (keptOf k s) ∧
    (switchComp o old d k s).issued = s.issued ++ [{ by_ := .record k.epoch, time := k.issued }]

/-- R312, R317: the queue whose turn it is, while no port command can start, fetches the entry at `SQ_HEAD` once its bytes can
be read: first of a short entry in a line that nothing holds back, then of any. -/
def Sys2Proof.Claims.QueueFetchCompletes : Prop :=
  ∀ (s : State) (q : BitVec 13) (x : Queue), s.phase = .running → findQueue s q = some x → x.q = q →
    turnOf s = some (x.rider, q) → (∀ h, s.port.heldCmds.head? = some h → mayStart s h.c = false) →
    (∀ va opa off pl yl, mayFetch s x = true → 6 ≤ x.ringLog2 → va % 64 = 0 →
      va = x.ringVa + BitVec.ofNat 64 (x.sqHead.toNat * 64 % 2 ^ x.ringLog2) →
      Hits s (.queue q) x.rider va false opa → target s opa = .off off → off % 64 = 0 → Reads s (rqQueue x) off 64 →
      pl = fieldB (held s off 32) 0x0C 2 → yl = fieldB (held s off 32) 0x10 4 → entryBad x pl yl = false → 32 + pl + yl ≤ 64 →
        exec (.queueFetch q) s = .next (takeEntry x 1 (held s off (32 + pl + yl))
          (meterRd x.rider (32 + pl + yl) (meterRd x.rider 32 (takeTurn x.rider q s))))) ∧
    (∀ hb b v w, v = ringRead (takeTurn x.rider q s) x x.sqHead.toNat 32 → v.1 = .data hb →
      entryBad x (fieldB hb 0x0C 2) (fieldB hb 0x10 4) = false →
      x.sqHead.toNat + entrySlots (fieldB hb 0x0C 2) (fieldB hb 0x10 4) ≤ x.sqTail.toNat →
      w = ringRead v.2 x x.sqHead.toNat (32 + fieldB hb 0x0C 2 + fieldB hb 0x10 4) → w.1 = .data b →
        exec (.queueFetch q) s = .next (takeEntry x (entrySlots (fieldB hb 0x0C 2) (fieldB hb 0x10 4)) b w.2))

/-- R37, R321: a request held under a newer epoch ends with `TIMEOUT`; `RIDER_RESET` closes the rider's ways in and waits for
what is open, or clears the rider at once; its drain limit forces it; a queue fetch takes the entry at `SQ_HEAD`. -/
def Obligations.HoldsAndResetsComplete : Prop :=
  (∀ (s : State) (h : Held), s.phase = .running →
    s.held.find? (fun x => x.id == h.id && decide (epochNow s < x.epoch)) = some h →
      exec (.epochHoldTimeout h.id) s = .next (endHeld h .timeout { s with held := dropIf s.held (·.id == h.id) }) ∧
      (∀ src dst txn seq, h.what = .fence src dst txn seq → exec (.epochHoldTimeout h.id) s =
        .next { s with held := dropIf s.held (·.id == h.id), out := s.out ++ [.fenceCmp src txn .timeout] })) ∧
  (∀ (c : Cmd) (s u : State), runsIn 0x019 c s = some u →
    ((riderEntry u c.h.r).isNone = true → exec (.riderReset c) s = .next (replied 0x019 c .badParam 0 [] u)) ∧
    ((riderEntry u c.h.r).isSome = true →
      (drained { rider := some c.h.r, keep := openOf 0x019 c } { u with resets := u.resets ++ [c.h.r] } = false →
        exec (.riderReset c) s = .next { u with
          resets := u.resets ++ [c.h.r], jobs := u.jobs ++ [.reset (openOf 0x019 c) c.h.r] }) ∧
      (drained { rider := some c.h.r, keep := openOf 0x019 c } { u with resets := u.resets ++ [c.h.r] } = true →
        exec (.riderReset c) s = .next (clearRider (openOf 0x019 c) c.h.r { u with resets := u.resets ++ [c.h.r] })))) ∧
  (∀ (s : State) (r : BitVec 6) (o : Open) (js : List Job), s.phase = .running → s.jobs = .reset o r :: js →
    (∀ p, Job.reset p r ∉ js) → exec (.riderResetDrainLimit r) s = .next
      (clearRider o r (forceOpen { rider := some r, keep := o } .timeout { s with jobs := js }))) ∧
  (∀ (r : BitVec 6) (s : State), (∀ x ∈ (clearXlat r s).xlat.tlb, x.rider ≠ r) ∧
    (∀ x ∈ (clearXlat r s).xlat.roots, x.1 ≠ r) ∧ clearXlat r s = { s with xlat := (clearXlat r s).xlat }) ∧
  QueueFetchCompletes

/-- R41 to R44, R307: an assigned extent is live and nothing else changes; a revoked one is not, and a scrubbed page reads zero;
a query changes nothing. -/
def Sys2Proof.Claims.ExtentCommandsComplete : Prop :=
  (∀ c s u idxs, runsIn 0x100 c s = some u → runForm (c.p 0) 16384 = true → bits (c.p 0) 32 32 = 0 →
    namedExts u c = some idxs → revoking u (openOf 0x100 c) idxs = false → ∃ w, exec (.extentAssign c) s = .next (replied 0x100 c .ok 0 [] w) ∧
      w = { u with store := { u.store with
        extents := u.store.extents.map fun x => if x.idx ∈ idxs then { x with live := true } else x } }) ∧
  (∀ c s u idxs, runsIn 0x101 c s = some u → runForm (c.p 0) 16384 = true → bits (c.p 0) 33 31 = 0 →
    namedExts u c = some idxs → revoking u (openOf 0x101 c) idxs = false →
    let v := forExts idxs u fun i s => updExt s i fun x => { x with live := false }
    (extsBusy v idxs = true → exec (.extentRevoke c) s = .next { v with
      jobs := v.jobs ++ [.revoke (openOf 0x101 c) idxs (bit (c.p 0) 32)] }) ∧
    (extsBusy v idxs = false → dirLines v idxs ≠ [] → exec (.extentRevoke c) s = .next
      (addJob (recallExts idxs v, some (.revoke (openOf 0x101 c) idxs (bit (c.p 0) 32))))) ∧
    (extsBusy v idxs = false → dirLines v idxs = [] → extsHeld v idxs = false → tierCmdIn v idxs = false →
      frozenExt v idxs = false → exec (.extentRevoke c) s =
        .next (completeIf (openOf 0x101 c) .ok 0 [] (forExts idxs v (revokeExt (bit (c.p 0) 32)))))) ∧
  (∀ (i : Nat) (v : State) (p : Page) (f : Nat), p ∈ v.store.pages → extentOfPage p.n = i → p.home = some f →
    pageFenced v f p.n = false → (∀ n, n < 65536 → memGet (scrubExt i v).store.mem (f * 65536 + n) = 0) ∧
      scrubExt i v = { v with store := (scrubExt i v).store }) ∧
  ∀ c s u, runsIn 0x102 c s = some u → runForm (c.p 0) 1024 = true → bits (c.p 0) 32 32 = 0 →
    exec (.extentQuery c) s = .next (replied 0x102 c .ok 0 ((seqFrom (runFirst (c.p 0)) (runCount (c.p 0))).flatMap fun i =>
      queryEntry u (match c.h.src with | .queue _ => some c.h.r | _ => none) i (localIdx u c.h.surrogate i)) u)

/-- R126: a read of the loss list changes nothing; an acknowledgement clears the extent's entries and lifts its fence. -/
def Sys2Proof.Claims.LossAckCompletes : Prop :=
  ∀ c s u, runsIn 0x103 c s = some u → bits (c.p 0) 1 7 = 0 → bits (c.p 0) 9 7 = 0 → bits (c.p 0) 30 2 = 0 →
    bits (c.p 0) 45 19 = 0 → bits (c.p 1) 32 32 = 0 →
    (bit (c.p 0) 0 = false → 1 ≤ bits (c.p 0) 32 13 → bits (c.p 0) 32 13 ≤ 4096 →
      exec (.lossAck c) s = .next (replied 0x103 c .ok (BitVec.ofNat 64 (topSeq (riderLosses u c.h.r c.h.surrogate)))
        ((((riderLosses u c.h.r c.h.surrogate).filter fun e => decide (bits (c.p 1) 0 32 ≤ e.seq)).take
          (bits (c.p 0) 32 13)).flatMap (lossBytes u) ++
          (fencedExts u c.h.r c.h.surrogate).flatMap (fencedBytes u c.h.r)) u)) ∧
    (∀ idx x, bit (c.p 0) 0 = true → localIdx u c.h.surrogate (bits (c.p 0) 16 14) = some idx → findExt u idx = some x →
      (extRun u x).any (·.reader c.h.r) = true → x.fenced = true → (x.unlisted ≠ 0 → bit (c.p 0) 8 = true) →
      (∀ e ∈ extLosses u c.h.r idx, e.seq ≤ bits (c.p 1) 0 32) → ∃ w,
        exec (.lossAck c) s = .next (replied 0x103 c .ok 0 [] w) ∧
        w = { u with store := { u.store with extents := w.store.extents }, coh := { u.coh with losses := w.coh.losses } } ∧
        extLosses w c.h.r idx = [] ∧ (∀ y ∈ w.store.extents, y.idx = idx → y.fenced = false ∧ y.unlisted = 0) ∧
        ∀ y ∈ u.store.extents, y.idx ≠ idx → y ∈ w.store.extents)

/-- R41 to R44, R126, R307: the extents and the acknowledgement of a loss. -/
def Obligations.ExtentsComplete : Prop := ExtentCommandsComplete ∧ LossAckCompletes

/-! ### The Chainring engines -/

namespace Sys2Proof.Claims

/-- The operation that an engine command starts. -/
def started (o : EngOp) (u : State) : State :=
  { u with eng := { u.eng with
    ops := u.eng.ops ++ [{ o with id := u.eng.nextOp, epoch := epochNow u, late := closedTo u o.rider }]
    nextOp := u.eng.nextOp + 1 } }

/-- The sync object of a near-memory command may be signalled, and fewer than 1,024 operations are in progress. -/
def nmFree (c : Cmd) (u : State) : Prop :=
  (bit (nmDone c) 15 = true → riderHasSync u c.h.r (bits (nmDone c) 0 14) = true) ∧ (u.eng.ops.filter isNm).length < 1024

/-- A source of `NM_REDUCE` is the destination itself, of the same size (R246). -/
def inPlace (c : Cmd) (sf outf kind : BitVec 8) (a : Word) : Bool :=
  a.toNat == (c.p 0).toNat &&
    sideBytes (bit kind 0) sf (if fgGear sf = 0 then 1 else 64) == sideBytes (bit kind 1) outf (if fgGear outf = 0 then 1 else 64) &&
    sideBytes (bit kind 0) sf (c.p 2).toNat == sideBytes (bit kind 1) outf (c.p 2).toNat

/-- The fields of `NM_REDUCE` (R246). -/
structure Reduces (c : Cmd) (op sf outf kind : BitVec 8) (n : Nat) : Prop where
  word     : op = BitVec.ofNat 8 (bits (c.p 3) 0 8) ∧ sf = BitVec.ofNat 8 (bits (c.p 3) 8 8) ∧
    outf = BitVec.ofNat 8 (bits (c.p 3) 16 8) ∧ kind = BitVec.ofNat 8 (bits (c.p 3) 24 8) ∧ n = bits (c.p 3) 32 8
  zero     : nmReserved c = true ∧ c.p 1 = 0 ∧ bits kind 2 6 = 0
  sources  : 1 ≤ n ∧ n ≤ 64 ∧ c.payload.length = 8 * n
  length   : 1 ≤ (c.p 2).toNat ∧ (c.p 2).toNat ≤ 2 ^ 34 ∧ (beatElems sf outf = 1 ∨ (c.p 2).toNat % 64 = 0)
  combo    : nmCombo op sf outf kind = true
  fits     : sideBytes (bit kind 0) sf (c.p 2).toNat ≤ 2 ^ 40 ∧ sideBytes (bit kind 1) outf (c.p 2).toNat ≤ 2 ^ 40
  apart    : (∀ a ∈ words64 n c.payload, inPlace c sf outf kind a = true ∨
    rangesApart (c.p 0).toNat (sideBytes (bit kind 1) outf (c.p 2).toNat) a.toNat (sideBytes (bit kind 0) sf (c.p 2).toNat) = true)
  once     : ((words64 n c.payload).filter (inPlace c sf outf kind)).length ≤ 1
  aligned  : (c.p 0).toNat % nmAlign (bit kind 1) outf = 0 ∧
    ∀ a ∈ words64 n c.payload, a.toNat % nmAlign (bit kind 0) sf = 0

/-- A command's address leads to an OPA at once: on a queue by its micro-TLB, else it is an OPA itself (R45, R57, R306). -/
def Leads (s : State) (h : Hdr) (a : Word) (write : Bool) (opa : Word) : Prop :=
  ((∀ q, h.src ≠ .queue q) ∧ opa = a) ∨
    ∃ q, h.src = .queue q ∧ queueRun s q h.tag a write = none ∧ Hits s (.queue q) h.r a write opa

/-- An operation whose next beat may begin: it runs on a Chainring in service, with nothing of the beat done (R249). -/
structure BeatFree (s : State) (o : EngOp) : Prop where
  running : s.phase = .running
  found   : s.eng.ops.find? (·.id == o.id) = some o
  free    : o.stopped = false ∧ o.late = false ∧ o.fault = none
  turn    : pieceRuns s o = true
  up      : pieceFenced s o = false
  fresh   : o.sent = false ∧ o.got = 0 ∧ o.put = 0 ∧ o.buf = []
  acked   : unackedOf s (opSource s o.id) = 0
  inRange : o.next < o.len ∧ o.dst.toNat + o.len < 2 ^ 64

end Sys2Proof.Claims

/-- R238 to R241, R246, R306: near-memory and bulk commands that pass their checks start an operation and answer nothing yet; a
misaligned one is refused. -/
def Sys2Proof.Claims.EngineStartsComplete : Prop :=
  (∀ c s u, runsIn 0x380 c s = some u → nmPlain c = true →
    ((c.p 0).toNat % 8 = 0 → nmFree c u → exec (.nmFill c) s = .next
      (started { EngOp.blank c 0x380 (.fill (c.p 1)) with doneSync := nmDone c } u)) ∧
    ((c.p 0).toNat % 8 ≠ 0 → exec (.nmFill c) s = .next (replied 0x380 c .misaligned 0 [] u))) ∧
  (∀ c s u, runsIn 0x381 c s = some u → nmPlain c = true →
    rangesApart (c.p 0).toNat (c.p 2).toNat (c.p 1).toNat (c.p 2).toNat = true → (c.p 0).toNat % 8 = 0 →
    (c.p 1).toNat % 8 = 0 → nmFree c u → exec (.nmCopy c) s = .next
      (started { EngOp.blank c 0x381 .copy with doneSync := nmDone c, srcLen := (c.p 2).toNat } u)) ∧
  (∀ c s u, runsIn 0x382 c s = some u → nmPlain c = true → (c.p 0).toNat % 8 = 0 → (c.p 1).toNat % 8 = 0 → nmFree c u →
    exec (.nmCompare c) s = .next
      (started { EngOp.blank c 0x382 .compare with doneSync := nmDone c, srcLen := (c.p 2).toNat } u)) ∧
  (∀ c s u op sf outf kind n, runsIn 0x383 c s = some u → Reduces c op sf outf kind n → nmFree c u →
    exec (.nmReduce c) s = .next
      (started { EngOp.blank c 0x383 (.reduce op sf outf kind (words64 n c.payload)) with
        doneSync := nmDone c, dstLen := sideBytes (bit kind 1) outf (c.p 2).toNat
        srcLen := sideBytes (bit kind 0) sf (c.p 2).toNat } u)) ∧
  (∀ c s u, runsIn 0x480 c s = some u → exec (.bulkWrite c) s = .next
    (started { EngOp.blank c 0x480 (.bulkWrite c.payload) with len := c.payload.length, dstLen := c.payload.length } u)) ∧
  (∀ c s u, runsIn 0x481 c s = some u → bits (c.p 1) 17 47 = 0 → 1 ≤ bits (c.p 1) 0 17 → bits (c.p 1) 0 17 ≤ 65536 →
    exec (.bulkRead c) s = .next
      (started { EngOp.blank c 0x481 .bulkRead with len := bits (c.p 1) 0 17, dstLen := bits (c.p 1) 0 17 } u))

/-- R249, R250, R306: the next beat of an operation. A beat of a fill or of `BULK_WRITE` writes its bytes and goes on; a beat of
`BULK_READ` keeps the bytes it reads and goes on; a fenced engine ends the operation. -/
def Sys2Proof.Claims.EngineBeatsComplete : Prop :=
  (∀ (s : State) (o : EngOp) (bs : List Byte) (opa : Word) (off f : Nat) (fr : Frame) (x : Extent) (ret : Option RemoteRet),
    BeatFree s o →
    ((∃ p, o.kind = .fill p ∧ bs = fillBytes o p) ∨
      ∃ d, o.kind = .bulkWrite d ∧ o.len ≤ d.length ∧ bs = (d.drop o.next).take o.step) →
    Leads s o.cmd.h o.here true opa → target s opa = .off off → Writes s (o.rq o.here) off f fr bs x →
      exec (.engineBeatCompletion o.id ret) s = .next (advanceOp o (countWritten o bs.length
        (updOp o.id (fun y => { y with put := bs.length }) (written (o.rq o.here) off f bs s))))) ∧
  (∀ (s : State) (o p : EngOp) (opa : Word) (off : Nat) (ret : Option RemoteRet), BeatFree s o → o.kind = .bulkRead →
    Leads s o.cmd.h o.here false opa → target s opa = .off off → Reads s (o.rq o.here) off o.step →
    p = { o with buf := sliceB (held s off o.step) 0 o.step, got := 1 } →
      exec (.engineBeatCompletion o.id ret) s = .next (advanceOp { p with readData := o.readData ++ p.buf }
        (updOp o.id (fun _ => p) (meterRd o.rider o.step s)))) ∧
  (∀ (s : State) (o : EngOp) (ret : Option RemoteRet), s.phase = .running → s.eng.ops.find? (·.id == o.id) = some o →
    o.stopped = false → o.late = false → pieceRuns s o = true → o.fault = none → pieceFenced s o = true →
      exec (.engineBeatCompletion o.id ret) s = .next (failOp o .fenced o.here s))

/-- R238 to R241, R246, R249, R250, R306: near-memory and bulk commands start operations, and their beats run. -/
def Obligations.EngineCommandsComplete : Prop := EngineStartsComplete ∧ EngineBeatsComplete

/-- R243: comparing a beat counts the 64-bit words in which the operands differ and keeps the place of the first byte that
differs. -/
def Obligations.CompareCounts : Prop :=
  ∀ (o : EngOp) (a b : List Byte), o.kind = .compare → a.length = o.step → b.length = o.step → o.buf = a ++ b →
    ((compareBeat o).missN = o.missN ↔ a = b) ∧ (compareBeat o).missN ≤ o.missN + (o.step + 7) / 8 ∧
    (o.missAt = none → ((compareBeat o).missAt = none ↔ a = b) ∧
      ∀ i, (compareBeat o).missAt = some (o.next + i) →
        a.getD i 0 ≠ b.getD i 0 ∧ ∀ j, j < i → a.getD j 0 = b.getD j 0)

/-! ### The embedding engine -/

namespace Sys2Proof.Claims

/-- A definition of `EMB_TABLE_DEFINE` that R217 to R220 accept. -/
structure DefinesTable (c : Cmd) (u : State) (t : EmbTable) : Prop where
  head    : 32 ≤ c.payload.length ∧ zeroB c.payload 0x14 12 = true ∧ fieldB c.payload 7 1 ≤ 1 ∧ fieldB c.payload 6 1 ≤ 64 ∧
    fieldB c.payload 6 1 ≠ 0
  parsed  : parseMembers (fieldB c.payload 6 1) (c.payload.drop 32) = (t.members, true, [])
  fields  : t = { surr := c.h.surrogate, rider := c.h.r, table := BitVec.ofNat 8 (fieldB c.payload 0 1)
                  fmtGear := BitVec.ofNat 8 (fieldB c.payload 1 1), dim := fieldB c.payload 2 2
                  stride := fieldB c.payload 4 2, state := fieldB c.payload 7 1 == 1, rows := fieldB c.payload 8 8
                  defTag := BitVec.ofNat 32 (fieldB c.payload 0x10 4), members := t.members, lastUpd := none }
  format  : 1 ≤ fgCode t.fmtGear ∧ fgCode t.fmtGear ≤ 5 ∧ fmtGearOk t.fmtGear = true ∧
    (fgGear t.fmtGear = 0 ∨ t.dim % 64 = 0)
  size    : 1 ≤ t.dim ∧ t.dim ≤ 2048 ∧ t.stride % 8 = 0 ∧ t.rowBytes ≤ t.stride ∧ t.stride ≤ 4096 ∧ 1 ≤ t.rows ∧ t.rows ≤ 2 ^ 40
  members : partitions 0 t.members t.rows = true ∧ t.members.all (memberForm t) = true ∧ (t.members.map (·.module)).Nodup ∧
    (t.members.any fun m => m.module.toNat == embMe u c.h.surrogate) = true
  live    : ∀ m ∈ t.members, m.module.toNat = embMe u c.h.surrogate → (t.ranges m).all (rangeLive u c.h.surrogate c.h.r) = true
  room    : match embTable u c.h.surrogate c.h.r t.table with
    | some old => tableBusy u old = false
    | none => u.eng.tables.length < 256
  flash   : Config.hasFlash u.variant = true ∨ ∀ o ∈ u.store.objects, flashBacked o.policy = false

/-- A look-up or update that starts: no batch of its key, fewer than eight in progress, nothing of it arrived before. -/
structure Starts (b : EmbBatch) (u : State) : Prop where
  fresh : ∀ x ∈ u.eng.batches, x.key ≠ b.key
  room  : u.eng.batches.length < 8
  early : ∀ e ∈ u.eng.early, e.key ≠ b.key

/-- The state in which an accepted batch begins. -/
def accepted (b : EmbBatch) (u : State) : State :=
  { u with eng := { u.eng with
    batches := u.eng.batches ++ [{ b with late := closedTo u b.key.rider }], nextOp := u.eng.nextOp + 1 } }

end Sys2Proof.Claims

/-- R217 to R222, R224, R233: a table is defined or removed; a look-up or update that passes its checks is accepted. -/
def Sys2Proof.Claims.EmbeddingCommandsComplete : Prop :=
  (∀ c s u t, runsIn 0x300 c s = some u → DefinesTable c u t →
    exec (.embTableDefine c) s = .next (replied 0x300 c .ok 0 [] (setTable t u))) ∧
  (∀ c s u, runsIn 0x300 c s = some u → c.payload.length = 32 → zeroB c.payload 0x14 12 = true → fieldB c.payload 7 1 ≤ 1 →
    fieldB c.payload 6 1 = 0 →
    (∀ t, embTable u c.h.surrogate c.h.r (BitVec.ofNat 8 (fieldB c.payload 0 1)) = some t → tableBusy u t = false) →
    exec (.embTableDefine c) s = .next (replied 0x300 c .ok 0 [] { u with eng := { u.eng with
      tables := dropIf u.eng.tables fun t => t.surr == c.h.surrogate && t.rider = c.h.r &&
        t.table = BitVec.ofNat 8 (fieldB c.payload 0 1) } })) ∧
  (∀ c s u t i, runsIn 0x301 c s = some u → embJoin c u = some (t, i) →
    let b := embBatch c false i u.eng.nextOp
    embForm c b (b.mode ≠ 0) = true → b.mode.toNat ≤ 2 → b.mode = 0 ∨ ((fgCode b.outFg = 1 ∨ fgCode b.outFg = 2 ∨ fgCode b.outFg = 5) ∧
      fmtGearOk b.outFg = true ∧ (fgGear b.outFg = 0 ∨ t.dim % 64 = 0 ∧ b.dataVa.toNat % 8 = 0)) → Starts b u →
      exec (.embLookup c) s = .next
        (pumpBatch b.key (takeEmbViews { b with late := closedTo u b.key.rider } t (accepted b u)))) ∧
  ∀ c s u t i, runsIn 0x302 c s = some u → embJoin c u = some (t, i) →
    let b := embBatch c true i u.eng.nextOp
    embForm c b true = true → b.mode.toNat ≤ 2 → b.outFg.toNat ≤ 1 → (b.mode = 2 → t.state = true) →
    (∀ n, t.lastUpd = some n → n.toNat < b.key.batch.toNat) → Starts b u →
      ∃ v w, w = pumpBatch b.key (takeEmbViews { b with late := closedTo u b.key.rider } t (accepted b u)) ∧
        exec (.embUpdate c) s = .next v ∧ v = { w with eng := { w.eng with tables := v.eng.tables } } ∧
        ∀ x ∈ v.eng.tables, x.surr = t.surr → x.rider = t.rider → x.table = t.table → x.lastUpd = some b.key.batch

/-- R221, R227, R230, R231: what another member sends is kept when it comes before the local command, and joins the
batch otherwise; a batch that still waits when its limit runs out ends with `TIMEOUT`. -/
def Sys2Proof.Claims.EmbeddingMessagesComplete : Prop :=
  ∀ (s : State) (k : BatchKey) (frm : Nat), s.phase = .running →
    (findBatch s k = none →
      (∀ tag rows contribs done, exec (.embRequestRun k tag frm rows contribs done) s =
        .next { s with eng := { s.eng with early := s.eng.early ++
          [{ key := k, defTag := tag, runs := [{ from_ := frm, defTag := tag, rows := rows, contribs := contribs, done := done }]
             parts := [] }] } }) ∧
      (∀ tag key values, exec (.embPartial ⟨k, tag⟩ frm key values) s =
        .next { s with eng := { s.eng with early := s.eng.early ++
          [{ key := k, defTag := tag, runs := [], parts := [(frm, key, values)] }] } })) ∧
    (∀ b, findBatch s k = some b →
      (∀ tag rows contribs done, exec (.embRequestRun k tag frm rows contribs done) s =
        .next (pumpBatch k (updBatch k (fun b => { b with runs := b.runs ++
          [{ from_ := frm, defTag := tag, rows := rows, contribs := contribs, done := done }] }) s))) ∧
      (∀ t, batchTable s b = some t →
        (∀ key values, exec (.embPartial ⟨k, t.defTag⟩ frm key values) s =
          .next (pumpBatch k (updBatch k (fun b => { b with partials := b.partials ++ [(frm, key, values)] }) s))) ∧
        (∀ rows, exec (.embRowReply ⟨k, t.defTag⟩ frm rows) s =
          .next (pumpBatch k (updBatch k (fun b => { b with rows := b.rows ++ rows }) s))) ∧
        (∀ tag, tag ≠ t.defTag →
          (∀ key values, exec (.embPartial ⟨k, tag⟩ frm key values) s =
            .next (pumpBatch k (updBatch k (fun b => { b with odd := b.odd ++ [frm] }) s))) ∧
          ∀ rows, exec (.embRowReply ⟨k, tag⟩ frm rows) s =
            .next (pumpBatch k (updBatch k (fun b => { b with odd := b.odd ++ [frm] }) s)))) ∧
      (∀ st off, exec (.embVerdict k frm st off) s =
        .next (pumpBatch k (updBatch k (fun b => { b with verdicts := setK b.verdicts frm { status := st, off := off } }) s))) ∧
      (b.ready = false → b.said = false → exec (.embLimitExpiry k) s =
          .next (endBatch b b.key.member { status := .timeout, off := 0 } s) ∧
        ∀ x ∈ (endBatch b b.key.member { status := .timeout, off := 0 } s).eng.batches, x.key ≠ k) ∧
      (b.ready = true → exec (.embLimitExpiry k) s = .next s) ∧
      (b.late = true → ∀ g : EmbBatch → EmbBatch, (∀ y, (g y).late = y.late ∧ (g y).key = y.key) →
        pumpBatch k (updBatch k g s) = updBatch k g s))

/-- R217 to R222, R224, R227, R230, R231, R233: embedding commands and messages. -/
def Obligations.EmbeddingComplete : Prop := EmbeddingCommandsComplete ∧ EmbeddingMessagesComplete

/-! ### Coherence and atomics -/

namespace Sys2Proof.Claims

/-- A request of this module's store that reaches its line, on which nothing else is in progress and whose directory set is
not full (R37, R102, R103, R105, R109, R118). -/
structure Reaches (s : State) (r : Req) (k : ReqKind) (rider : BitVec 6) (off : Nat) (x : Extent) : Prop where
  up       : s.phase = .running
  inEpoch  : ∀ e, r.epoch = some e → epochNow s ≤ e
  notHeld  : holdsReq s (cxlReq r s) = false
  source   : srcRider s r.src = some rider
  inTouch  : ∀ a, reqAgent s r.src = some a → agentLost s a = false
  role     : k.caching = true → (reqAgent s r.src).isSome = true
  awake    : s.power.st ≠ .kickstand
  here     : target s (cxlReq r s).opa = .off off
  serves   : s.pair.st ≠ 7
  tracker  : trackerFree s (homeWheel off) rider = true ∧ srcWaits s r.src s.nextHeld = false
  alone    : ∀ u ∈ s.coh.trks, u.line ≠ lineOf off ∧ u.id < s.coh.nextTrk
  noScan   : scanHolds s (lineOf off) = false
  noInj    : s.err.inj = []
  rights   : rightsAt s rider (lineOf off) k.needsWriter = .inr x
  inLap    : k.caching = true → lapAgent s x rider = false
  inWlap   : k.caching = false → k.needsWriter = true → noWlap s x rider = false
  setFree  : setFull s (lineOf off) = false
  lives    : dirDead s (lineOf off) = false

/-- The transaction of a request at the front of its line's order: its lap is fixed (R131). -/
def taken (s : State) (r : Req) (k : ReqKind) (rider : BitVec 6) (off : Nat) (x : Extent) : Trk :=
  { Trk.blank (lineOf off) rider (.req r k) with
    id := s.coh.nextTrk, live := x.live, view := some (viewOf s x rider), lap := lapTag s x rider }

/-- The state with a transaction whose home-order message has been sent. -/
def atMemory (s : State) (r : Req) (k : ReqKind) (rider : BitVec 6) (off : Nat) (x : Extent) (op : MemOp) (msg : OutMsg) :
    State :=
  { s with
    coh := { s.coh with
      trks := s.coh.trks ++ [{ taken s r k rider off x with phase := .memSent, mem := op }]
      nextTrk := s.coh.nextTrk + 1 }
    out := s.out ++ [msg] }

/-- The state with a transaction that snoops a list of agents. -/
def snooping (s : State) (r : Req) (k : ReqKind) (rider : BitVec 6) (off : Nat) (x : Extent) (as : List (BitVec 10))
    (msg : BitVec 10 → OutMsg) : State :=
  { s with
    coh := { s.coh with
      trks := s.coh.trks ++ [{ taken s r k rider off x with phase := .snoop, snoops := as }]
      nextTrk := s.coh.nextTrk + 1 }
    out := s.out ++ as.map msg }

/-- Nothing waits at the homes. -/
def NoneWaits (s : State) : Prop := ∀ t ∈ s.coh.trks, t.phase ≠ .wait

/-- The line of a transaction is in service, in an extent that is not lap-versioned, and no injection is armed. -/
structure TrkLine (s : State) (t : Trk) (x : Extent) : Prop where
  ext   : findExt s (extentOf t.line) = some x
  up    : homeFenced s t.line = false
  plain : extLapped s x = false
  view  : t.view = none ∨ t.view = some .latest
  clean : s.err.inj = [] ∧ s.store.soft = []

/-- The controller can read the transaction's line at once (R66, R323). -/
def TrkReads (s : State) (t : Trk) : Prop :=
  ∃ x, TrkLine s t x ∧ (pageLoc s.store (pageOf t.line) (granuleOf t.line) = .absent ∨
    ∃ f fr, InFrame s t.line f fr ∧ badAt s.store fr.tier (f * 65536 + t.line % 65536) 64 = false)

/-- The controller can write bytes of the transaction's line at once, into the frame `f` (R75, R148, R325). -/
structure TrkWrites (s : State) (t : Trk) (f : Nat) (fr : Frame) (bs : List (Option Byte)) (x : Extent) : Prop where
  line  : TrkLine s t x
  lap   : t.lap ≠ .dead
  frame : InFrame s t.line f fr
  alone : (findPage s.store (pageOf t.line)).copy = none
  idle  : programHolds s.store (pageOf t.line) = false
  whole : partialBad s.store (frameTier s.store f) (f * 65536 + t.line % 65536) bs = false
  own   : syncMirror s x (pageOf t.line) = none

/-- The state after such a write. -/
def lineWritten (t : Trk) (f : Nat) (bs : List (Option Byte)) (s : State) : State :=
  { s with
    store := putBytes (frameTier s.store f) (f * 65536 + t.line % 65536) bs s.store
    bells := strike t.line bs s.bells }

end Sys2Proof.Claims

/-- R111, R112, R114, R116: what each request sends when its line is in I, and what an owner is snooped with when the line
is in XW. -/
def Obligations.CoherenceRequestsComplete : Prop :=
  (∀ (s : State) (r : Req) (rider : BitVec 6) (off : Nat) (x : Extent), dirOf s (lineOf off) = none →
    (Reaches s r .rdShared rider off x → exec (.rdShared r) s = .next
      (atMemory s (cxlReq r s) .rdShared rider off x .rd (.memRd s.coh.nextTrk))) ∧
    (Reaches s r .rdOwn rider off x → exec (.rdOwn r) s = .next
      (atMemory s (cxlReq r s) .rdOwn rider off x .rd (.memRd s.coh.nextTrk))) ∧
    (Reaches s r .upgrade rider off x → exec (.upgrade r) s = .next
      (atMemory s (cxlReq r s) .upgrade rider off x .rd (.memRd s.coh.nextTrk))) ∧
    (Reaches s r .rdCur rider off x → exec (.rdCur r) s = .next
      (atMemory s (cxlReq r s) .rdCur rider off x .rd (.memRd s.coh.nextTrk))) ∧
    (∀ data, Reaches s r (.wrFull data) rider off x → exec (.wrFull r data) s = .next
      (atMemory s (cxlReq r s) (.wrFull data) rider off x .wr (.memWr s.coh.nextTrk))) ∧
    (∀ mask data, Reaches s r (.wrPart mask data) rider off x → exec (.wrPart r mask data) s = .next
      (atMemory s (cxlReq r s) (.wrPart mask data) rider off x .wr (.memWr s.coh.nextTrk))) ∧
    (∀ mask data a, Reaches s r (.wrHint mask data a) rider off x → exec (.wrHint r mask data a) s = .next
      (atMemory s (cxlReq r s) (.wrHint mask data a) rider off x .wr (.memWr s.coh.nextTrk))) ∧
    (∀ op, Reaches s r (.atomic op) rider off x → atomAligned op (cxlReq r s).opa.toNat = true → fromRemote r.src = false →
      atomForm op = true → exec (.atomic r op) s = .next
        (atMemory s (cxlReq r s) (.atomic op) rider off x .atom (.memAtom s.coh.nextTrk))) ∧
    (∀ data, Reaches s r (.wbM data) rider off x → exec (.wbM r data) s = .next { s with
      coh := { s.coh with nextTrk := s.coh.nextTrk + 1 }, out := s.out ++ [.cmp (cxlReq r s) .ok false] }) ∧
    (Reaches s r .evictClean rider off x → exec (.evictClean r) s = .next { s with
      coh := { s.coh with nextTrk := s.coh.nextTrk + 1 }, out := s.out ++ [.cmp (cxlReq r s) .ok false] })) ∧
  ∀ (s : State) (r : Req) (rider : BitVec 6) (off : Nat) (x : Extent) (b : BitVec 10), dirOf s (lineOf off) = some (.xw b) →
    agentLost s b = false → reqAgent s r.src ≠ some b →
    (Reaches s r .rdShared rider off x → exec (.rdShared r) s = .next
      (snooping s (cxlReq r s) .rdShared rider off x [b] fun b => .snpShared b s.coh.nextTrk (lineOf off))) ∧
    (Reaches s r .rdOwn rider off x → exec (.rdOwn r) s = .next
      (snooping s (cxlReq r s) .rdOwn rider off x [b] fun b => .snpInv b s.coh.nextTrk (lineOf off))) ∧
    (∀ data, Reaches s r (.wrFull data) rider off x → exec (.wrFull r data) s = .next
      (snooping s (cxlReq r s) (.wrFull data) rider off x [b] fun b => .snpInv b s.coh.nextTrk (lineOf off))) ∧
    ∀ data, Reaches s r (.wbM data) rider off x → exec (.wbM r data) s = .next { s with
      coh := { s.coh with nextTrk := s.coh.nextTrk + 1 }, out := s.out ++ [.cmp (cxlReq r s) .ok false] }

/-- R106, R111, R112, R114: the answers of a snooped agent, and of one that is offered a stash. -/
def Sys2Proof.Claims.SnoopAnswersComplete : Prop :=
  ∀ (s : State) (t : Trk) (r : Req) (a : BitVec 10), s.phase = .running → findTrk s t.id = some t → NoneWaits s →
    t.snoops = [a] →
    (t.phase = .snoop → t.what = .req r .rdOwn → t.fwd = none → exec (.rspI a t.id) s = .next
      (sendMem { t with snoops := [] } .rd (updTrk t.id (fun _ => { t with snoops := [] }) s))) ∧
    (∀ data keeps, t.phase = .snoop → t.what = .req r .rdOwn → dirDead s t.line = false →
      exec (.datFwd a t.id data keeps) s = .next (sendMem { t with snoops := [], fwd := some (a, data) } .wr
        (updTrk t.id (fun _ => { t with snoops := [], fwd := some (a, data) }) s))) ∧
    (t.phase = .snoop → t.what = .req r .rdShared → t.fwd = none → exec (.rspS a t.id) s = .next
      (sendMem { t with snoops := [], keptS := some a } .rd
        (updTrk t.id (fun _ => { t with snoops := [], keptS := some a }) s))) ∧
    (t.phase = .snoop → t.what = .req r .rdCur → t.fwd = none → exec (.rspX a t.id) s = .next
      (sendMem { t with snoops := [] } .rd (updTrk t.id (fun _ => { t with snoops := [] }) s))) ∧
    (∀ mask data, t.phase = .stash → t.what = .req r (.wrHint mask data a) → (∀ p q, r.src ≠ .cxl p q) →
      trkLost s t = false → (∀ d, dirOf s t.line ≠ some (.xw d)) →
      (∃ v, exec (.rspStashOk a t.id) s = .next v ∧ findTrk v t.id = none ∧
        dirOf v t.line = some (if agentCxl s a then .xw a else .xr a) ∧ v.out = s.out ++ [.cmp r .ok t.missed]) ∧
      ∃ w, exec (.rspStashRefuse a t.id) s = .next w ∧ findTrk w t.id = none ∧ dirOf w t.line = none ∧
        w.out = s.out ++ [.cmp r .ok true])

/-- R106, R112, R116: `MEM_RD`, `MEM_WR` and `MEM_ATOM` at the memory controller: the line is read, its bytes are written, the
atomic is performed, and the controller answers. -/
def Sys2Proof.Claims.HomeOrdersComplete : Prop :=
  ∀ (s : State) (t : Trk), s.phase = .running → findTrk s t.id = some t → t.phase = .memSent →
    (t.mem = .rd → TrkReads s t → exec (.memRd t.id) s = .next (emit (.memRdata t.id .ok)
      (updTrk t.id (fun t => { t with phase := .memBack, data := held s t.line 64, status := .ok }) s))) ∧
    (∀ f fr x, t.mem = .wr → fwdDead s t = false → TrkWrites s t f fr (memBytes s t).2 x → exec (.memWr t.id) s = .next
      (emit (.memWack t.id .ok) (updTrk t.id (fun t => { t with phase := .memBack, status := .ok })
        (meterWr (memBytes s t).1 ((memBytes s t).2.filter (·.isSome)).length (lineWritten t f (memBytes s t).2 s))))) ∧
    (∀ r op old new f fr x bs, t.mem = .atom → t.what = .req r (.atomic op) → TrkReads s t →
      atomRun op (((held s t.line 64).drop (r.opa.toNat % 64)).take (atomLen op)) = some (old, new) →
      bs = List.replicate (r.opa.toNat % 64) none ++ new.map some ++ List.replicate (64 - r.opa.toNat % 64 - new.length) none →
      TrkWrites s t f fr bs x → exec (.memAtom t.id) s = .next (emit (.memRdata t.id .ok)
        (updTrk t.id (fun t => { t with phase := .memBack, data := wordBytes old, status := .ok })
          (meterWr t.rider new.length (lineWritten t f bs s)))))

/-- R106, R111, R112, R148: what the controller answers reaches the home, which answers or grants; `CMP_ACK` ends a grant. -/
def Sys2Proof.Claims.HomeAnswersComplete : Prop :=
  ∀ (s : State) (t : Trk) (r : Req), s.phase = .running → findTrk s t.id = some t → NoneWaits s →
    (t.phase = .memBack → t.status = .ok → t.fwd = none → (∀ p q, r.src ≠ .cxl p q) → trkLost s t = false →
      (t.mem = .rd → t.what = .req r .rdCur → exec (.memRdata t.id) s = .next
        { meterRd t.rider 64 s with
          coh := { s.coh with trks := dropIf s.coh.trks (·.id == t.id) }
          out := s.out ++ [.datCur r t.line t.data, .cmp r .ok false] }) ∧
      (∀ a, t.mem = .rd → t.what = .req r .rdOwn → reqAgent s r.src = some a → t.lap ≠ .dead →
        (∀ x, findExt s (extentOf t.line) = some x → lapAgent s x t.rider = false) →
        ∃ v, exec (.memRdata t.id) s = .next v ∧
        dirOf v t.line = some (.xw a) ∧ findTrk v t.id = some { t with phase := .grant, snoops := [a] } ∧
        v.out = s.out ++ [.datE r t.line t.data] ∧ v.store = s.store) ∧
      (∀ data, t.mem = .wr → t.what = .req r (.wrFull data) → s.pair.inFlight.contains (pageOf t.line) = false →
        ∃ v, exec (.memWack t.id) s = .next v ∧
        dirOf v t.line = none ∧ findTrk v t.id = none ∧ v.out = s.out ++ [.cmp r .ok t.missed] ∧ v.store = s.store)) ∧
    (∀ a, t.phase = .grant → a ∈ t.snoops → exec (.cmpAck a t.id) s = .next
      { s with coh := { s.coh with trks := dropIf s.coh.trks (·.id == t.id) } })

/-- R106, R111 to R116: the snoop answers, the messages between the home and the memory controllers, and the end of a grant. -/
def Obligations.HomeMessagesComplete : Prop := SnoopAnswersComplete ∧ HomeOrdersComplete ∧ HomeAnswersComplete

/-- R119, R122, R124: the timers and the loss of an agent. A silent agent is declared lost; a memory limit ends the request
with `TIMEOUT` and leaves the directory; a scan frees what the agent held. -/
def Obligations.AgentLossCompletes : Prop :=
  (∀ (s : State) (t : Trk) (a : BitVec 10), s.phase = .running → findTrk s t.id = some t → a ∈ t.snoops →
    ((t.phase = .snoop ∨ t.phase = .stash) → exec (.snoopTimeout a t.id) s = .next (declareLost a 1 s)) ∧
    (t.phase = .grant → agentLost s a = false → exec (.grantAckTimeout a t.id) s = .next (declareLost a 1 s))) ∧
  (∀ (s : State) (a : BitVec 10) (cause : BitVec 16), (agentRoute s a).isSome = true → agentLost s a = false →
    (∀ t ∈ s.coh.trks, a ∉ t.snoops) → (∀ x ∈ s.rings, x.rider ≠ agentRider s a) → agentLost (declareLost a cause s) a = true ∧
      unitFenced (declareLost a cause s) (unitAgent a) = true ∧ (declareLost a cause s).coh.dir = s.coh.dir ∧
      (declareLost a cause s).coh.scans = s.coh.scans ++ [{ agent := a, cause := cause, rider := agentRider s a }] ∧
      (declareLost a cause s).store.extents = s.store.extents) ∧
  (∀ (s : State) (t : Trk) (r : Req) (k : ReqKind), s.phase = .running → findTrk s t.id = some t → NoneWaits s →
    (t.phase = .memSent ∨ t.phase = .memBack) → t.what = .req r k → (∀ p q, r.src ≠ .cxl p q) → trkLost s t = false →
      ∃ v, exec (.memoryTimeout t.id) s = .next v ∧ v.coh.dir = s.coh.dir ∧ findTrk v t.id = none ∧ v.store = s.store ∧
        v.out = s.out ++ [.cmp r .timeout t.missed]) ∧
  ∀ (s : State) (a : BitVec 10) (c : Scan), s.phase = .running → s.coh.scans = [c] → c.agent = a → NoneWaits s →
    (∀ (d : DirEnt) (x : Extent), s.coh.dir = [d] → d.st = .xw a → d.dead = false → findExt s (extentOf d.line) = some x →
      extLapped s x = false → x.fenced = false → (∀ y ∈ s.rings, y.rider ≠ c.rider) →
      (lossOf s c.rider).ents.length < 65536 → (lossOf s c.rider).next < 0xFFFFFFFF →
        ∃ v, exec (.agentLossScanEnd a) s = .next v ∧ v.coh.scans = [] ∧ v.coh.dir = [] ∧ v.store.mem = s.store.mem ∧
          (∀ y ∈ v.store.extents, y.idx = x.idx → y.fenced = true) ∧
          (lossOf v c.rider).ents = (lossOf s c.rider).ents ++
            [{ line := d.line, seq := (lossOf s c.rider).next, agent := a, cause := c.cause }]) ∧
    ((∀ d ∈ s.coh.dir, d.st ≠ .xw a) →
      ∃ v, exec (.agentLossScanEnd a) s = .next v ∧ v.coh.scans = [] ∧
        (∀ d ∈ v.coh.dir, d.st ≠ .xr a ∧ d.st ≠ .xw a ∧ ∀ as, d.st = .p as → a ∉ as) ∧
        v.store = s.store ∧ v.coh.losses = s.coh.losses)

/-- R123: `HS_AGENT_CTRL`. -/
def Obligations.AgentControlRegister : Prop :=
  regsOf 0x70030000 true = .inr [(0, .agentCtrl)] ∧ ∀ (s : State) (v : Word), regValue s .agentCtrl = 0 ∧
    ((agentRoute s (BitVec.ofNat 10 (bits v 0 10))).isNone = true → writeReg .agentCtrl v s = s) ∧
    (bit v 63 = false → writeReg .agentCtrl v s = s) ∧
    (bit v 63 = true → writeReg .agentCtrl v s = declareLost (BitVec.ofNat 10 (bits v 0 10)) 2 s)

/-! ### Fabric ports -/

namespace Sys2Proof.Claims

/-- A sequenced store that comes in through a port that is up, under the epoch in force, with no copy of it held. -/
structure Arrives (s : State) (p : StorePkt) (port : Fin 24) (w : Window) : Prop where
  up      : s.phase = .running
  port    : portUp s port.val = true
  fresh   : storeHeld s p = false
  served  : windowStuck s p.source = false
  inEpoch : p.epoch = epochNow s
  window  : findWin s (winKey s p) = some w
  kept    : w.dropped = false ∧ w.surr = false ∧ s.pair.st ≠ 7
  mine    : passesOn s p = false

/-- The store is new and within the window. -/
structure Fits (s : State) (p : StorePkt) (w : Window) : Prop where
  near    : seqDist w.base p.seq < 4096
  new     : p.seq ∉ w.marked
  notHeld : holdsStore s p = false

/-- The requester that a store is at its home (R24). -/
def storeRq (p : StorePkt) (r : BitVec 6) : Rq := { rider := r, op := none, source := srcFabric p.source, va := 0 }

/-- The store's bytes lie in one line and can be written at once at their home, the frame `f` of this module. -/
structure Applies (s : State) (p : StorePkt) (r : BitVec 6) (o f : Nat) : Prop where
  rider : storeRider s p = .inr r
  awake : s.power.st ≠ .kickstand
  here  : target s p.opa = .off o
  lands : ∃ fr x, Writes s (storeRq p r) o f fr p.data x
  line  : 0 < p.data.length ∧ o % 64 + p.data.length ≤ 64

end Sys2Proof.Claims

/-- R37, R151, R259: a plain store is applied at its home when it arrives, a flagged one when every lower number has landed; a
duplicate is acknowledged again and changes no byte; an old epoch is refused and a newer one held. -/
def Sys2Proof.Claims.StoresArrive : Prop :=
  ∀ (s : State) (p : StorePkt) (port : Fin 24) (w : Window), Arrives s p port w →
    (p.flagged = false → Fits s p w →
      (∀ r o f, Applies s p r o f → exec (.remoteStoreArrival p port) s =
        .next (tryFlags (winKey s p) 4096 (finishStore p none (written (storeRq p r) o f p.data s)))) ∧
      (∀ r o n t, storeRider s p = .inr r → s.power.st ≠ .kickstand → target s p.opa = .off o → s.pair.st ≠ 7 →
        homeWriteN s (storeRq p r) o p.data = (.done, n, t) →
        exec (.remoteStoreArrival p port) s = .next (tryFlags (winKey t p) 4096 (finishStore p none t))) ∧
      (∀ st, storeRider s p = .inl st → exec (.remoteStoreArrival p port) s =
        .next (tryFlags (winKey s p) 4096 (finishStore p (some st) s)))) ∧
    (p.flagged = true → Fits s p w → w.flagged = [] →
      (p.seq ≠ w.base → ∃ t y, exec (.flaggedStoreArrival p port) s = .next t ∧ t = { s with fab := t.fab } ∧
        findWin t (winKey s p) = some y ∧ (p, port) ∈ y.flagged ∧ y.base = w.base) ∧
      (∀ r o f, p.seq = w.base → flaggedForm p.opa p.data.length = true → coverRefusal w p = none → Applies s p r o f →
          exec (.flaggedStoreArrival p port) s = .next (tryFlags (winKey s p) 4095 (finishStore p none
            (updWin (winKey s p) (fun w => { w with flagged := dropIf w.flagged (·.1.seq = p.seq) })
              (written (storeRq p r) o f p.data
                (updWin (winKey s p) (fun w => { w with flagged := w.flagged ++ [(p, port)] }) s))))))) ∧
    (((2 ^ 31 ≤ seqDist w.base p.seq) ∨ p.seq ∈ w.marked) → ∃ t,
      (p.flagged = false → exec (.remoteStoreArrival p port) s = .next t) ∧
      (p.flagged = true → exec (.flaggedStoreArrival p port) s = .next t) ∧
      t = { s with fab := { s.fab with ports := t.fab.ports }, out := t.out } ∧
      t.out = s.out ++ [.seqAck (BitVec.ofNat 8 (if (winKey s p).2 then s.twinNo else s.me)) w.source w.base w.marked w.refused])

/-- R259: the base of a window passes exactly the marked numbers: it ends at the first number that is not marked. -/
def Sys2Proof.Claims.WindowBase : Prop :=
  ∀ w : Window, w.marked.Nodup → w.marked.length ≤ 4096 →
    (advance 4096 w).base ∉ (advance 4096 w).marked ∧
    ∃ n, n ≤ w.marked.length ∧ (advance 4096 w).base = w.base + BitVec.ofNat 32 n ∧
      (∀ i, i < n → w.base + BitVec.ofNat 32 i ∈ w.marked) ∧
      (advance 4096 w).marked.length + n = w.marked.length

/-- R37, R258 to R261, R263 to R266: epochs, acknowledgements, fences, the discard order, the limits and the gateways. -/
def Sys2Proof.Claims.FabricControl : Prop :=
  ∀ (s : State), s.phase = .running →
    (∀ (p : StorePkt) (port : Fin 24), portUp s port.val = true → storeHeld s p = false → windowStuck s p.source = false →
      p.flagged = false → passesOn s p = false →
      (p.epoch < epochNow s → exec (.remoteStoreArrival p port) s = .next { s with out := s.out ++
        [.seqAck (BitVec.ofNat 8 (if (winKey s p).2 then s.twinNo else s.me)) p.sender p.lowest [] [(p.seq, .staleMap)]] }) ∧
      (epochNow s < p.epoch → exec (.remoteStoreArrival p port) s = .next { s with
        held := s.held ++ [{ id := s.nextHeld, epoch := p.epoch, what := .store p port }], nextHeld := s.nextHeld + 1 })) ∧
    (∀ (c : Chan) source peloton module base landed refused, findChan s source peloton.toNat module.toNat = some c →
      s.tiles = [] → ∃ d, d = { c with unacked := c.unacked.filter fun u => !ackCovers base landed refused u } ∧
        (refused = [] →
          exec (.seqAck source ⟨peloton, module⟩ base landed refused) s = .next (setChan d s)) ∧
        (∀ u st, c.unacked = [u] → u.done = none → refused = [(u.pkt.seq, st)] →
          exec (.seqAck source ⟨peloton, module⟩ base landed refused) s = .next { setChan d s with
            eng := { s.eng with ops := updIf s.eng.ops (fun o => opSource s o.id = u.pkt.source && o.fault.isNone) fun o =>
              { o with fault := some (st, o.here) } } })) ∧
    (∀ source w, findWin s (source, false) = some w → findWin s (source, true) = none →
      exec (.seqAckTimer source) s = .next { s with out := s.out ++
        [.seqAck (BitVec.ofNat 8 s.me) w.source w.base w.marked w.refused] }) ∧
    (∀ source dst txn seq epoch b x, fenceSide s dst = some b → sourceIn (sideRoutes s b) source = some x →
      (epoch < epochNow s → exec (.fenceReq ⟨source, dst⟩ txn seq epoch) s =
        .next { s with out := s.out ++ [.fenceCmp source txn .staleMap] }) ∧
      (epochNow s ≤ epoch → s.pair.st ≠ 7 →
        (s.power.hold = false → mustHold s x.rider (some epoch) = false → fenceReady s b source seq = true →
          exec (.fenceReq ⟨source, dst⟩ txn seq epoch) s =
            .next { s with out := s.out ++ [.fenceCmp source txn (fenceStatus s b source seq)] }) ∧
        (fenceReady s b source seq = false → exec (.fenceReq ⟨source, dst⟩ txn seq epoch) s = .next { s with
          held := s.held ++ [{ id := s.nextHeld, epoch := epoch, what := .fence source dst txn seq }]
          nextHeld := s.nextHeld + 1 }))) ∧
    (∀ source frm, ∃ t, exec (.discardOrder source frm) s = .next t ∧ t = { s with fab := t.fab, held := t.held, out := t.out } ∧
      t.out = s.out ++ [.discardAck frm source] ∧ (∀ w ∈ t.fab.rx, w.key = (source, false) → w.flagged = [] ∧ w.dropped = true) ∧
      ∀ h ∈ t.held, ∀ p q, h.what = .store p q → winKey s p ≠ (source, false)) ∧
    (∀ source peloton module c, s.redirect = [] → findChan s source peloton.toNat module.toNat = some c →
      c.unacked ≠ [] → exec (.e2eLimitExpiry source ⟨peloton, module⟩ none) s = .next (closeChan c s)) ∧
    (∀ source peloton module txn x v, s.redirect = [] → s.fab.loads.find? (fun (x : RLoad) =>
        x.txn = txn && loadTo x ⟨peloton, module⟩ && loadSource s x.by_ = source) = some x →
      v = failLoad x .timeout s → exec (.e2eLimitExpiry source ⟨peloton, module⟩ (some txn)) s =
        .next (closeChan ((findChan v source peloton.toNat module.toNat).getD (Chan.open_ source peloton module)) v)) ∧
    (∀ source w, findWin s (source, false) = some w → findWin s (source, true) = none → w.marked = [] → w.flagged = [] →
      s.held = [] → exec (.windowRetentionExpiry source) s = .next { s with fab := { s.fab with
        rx := dropIf s.fab.rx (·.key = (source, false)), past := dropIf s.fab.past (·.key = (source, false)) ++ [w] } }) ∧
    (∀ port p, exec (.packetAgeDiscard port p) s = .next s) ∧
    (∀ frm port p, portUp s port.val = true → ∀ ps, exec (.gatewayFrame frm port (p :: ps)) s =
      .next ((p :: ps).foldl (fun s p => storeArrives { p with peloton := frm } port s) s)) ∧
    (∀ opa data status g, s.fab.gblocks.find? (·.block = blockOf opa) = some g →
      (g.waiting = [] → exec (.gatewayBlockRead opa data status) s = .next { s with fab := { s.fab with
        gblocks := dropIf s.fab.gblocks (·.block = blockOf opa) } }) ∧
      (∀ a n sd cached k, g.waiting = [a] → a.kind = .load n sd cached → findCtx s a.tile a.ctx = some k →
        k.block = .access a true → oneLine a.va n = false → exec (.gatewayBlockRead opa data status) s = .next
          (remoteLoad a n sd cached { data := sliceB data (a.va.toNat % 4096) n, status := status }
            { s with fab := { s.fab with gblocks := dropIf s.fab.gblocks (·.block = blockOf opa) } }))) ∧
    (∀ peloton module g, s.fab.gframes.find? (fun g => g.peloton = peloton && g.dst = module) = some g →
      exec (.frameAgeExpiry peloton module) s = .next (closeFrame g s) ∧
      (g.records ≠ [] → ∃ port, (closeFrame g s).out = s.out ++ [.gatewayFrame peloton module port g.records]))

/-- R252, R257, R270: a flit that fails is replayed, and the eighth failed replay retrains; a port comes up, is lost, stays down, and tries
again; a CXL port that stays down loses its agents. -/
def Sys2Proof.Claims.PortsComplete : Prop :=
  ∀ (s : State) (port : Fin 24), s.phase = .running → s.fab.ports.length = 24 → (portAt s port.val).mode ≠ 0 →
    unitFenced s (unitPort port.val) = false →
    ((portAt s port.val).up = true →
      exec (.flitError { port := port, again := false }) s = .next
        (updPort port.val (fun x => { x with replays := bumpSat x.replays 1, replayRun := 0 }) s) ∧
      ((portAt s port.val).replayRun < 7 → exec (.flitError { port := port, again := true }) s = .next
        (updPort port.val (fun x => { x with replays := bumpSat x.replays 1, replayRun := x.replayRun + 1 }) s)) ∧
      ((portAt s port.val).replayRun = 7 → s.fab.tx = [] → s.fab.loads = [] → s.fab.gblocks = [] → s.coh.trks = [] →
        ∃ t, exec (.flitError { port := port, again := true }) s = .next t ∧ (portAt t port.val).up = false ∧
          (portAt t port.val).retraining = true ∧ (portAt t port.val).retrains = bumpSat (portAt s port.val).retrains 1)) ∧
    ((portAt s port.val).up = true → exec (.portTrained port) s = .next s) ∧
    ((portAt s port.val).up = false → s.fab.tx = [] → s.fab.loads = [] → s.fab.gblocks = [] →
      ∃ t, exec (.portTrained port) s = .next t ∧
      portUp t port.val = true ∧ t.out = s.out ++ [.portUp port true] ∧ t.store = s.store ∧
      ∀ q, q ≠ port → portAt t q.val = portAt s q.val) ∧
    (s.fab.tx = [] → s.fab.loads = [] → s.fab.gblocks = [] → s.coh.trks = [] → ∃ t, exec (.linkLoss port) s = .next t ∧
      (portAt t port.val).up = false ∧ (portAt t port.val).retraining = true ∧
      (portAt t port.val).retrains = bumpSat (portAt s port.val).retrains 1 ∧
      ((portAt s port.val).up = true → t.out = s.out ++ [.portUp port false]) ∧
      ∀ q, q ≠ port → portAt t q.val = portAt s q.val) ∧
    ((portAt s port.val).up = false → (portAt s port.val).down = false → (portAt s port.val).retraining = true →
      ∃ t, exec (.portRetrainLimit port) s = .next t ∧
      (portAt t port.val).down = true ∧ (portAt t port.val).retraining = false ∧ (portAt t port.val).up = false ∧
      t = { s with fab := t.fab, err := t.err, nv := t.nv }) ∧
    ((portAt s port.val).up = false → (portAt s port.val).down = true → exec (.portRetrainRetry port) s = .next
      (updPort port.val (fun x => { x with retraining := true, retrains := bumpSat x.retrains 1 }) s)) ∧
    ((portAt s port.val).up = false → isCxl (portAt s port.val) = true → exec (.cxlPortDownLimit port) s = .next
      ((portAgents s port).foldl (fun s a => declareLost a 3 s) s))

/-- R267, R269: what a logical device answers; nothing but the output, and for a clear its event records, changes. -/
def Sys2Proof.Claims.CxlComplete : Prop :=
  ∀ (s : State) (port : Fin 24) (ld : BitVec 4) (x : Route), s.phase = .running → isCxl (portAt s port.val) = true →
    portUp s port.val = true → ldRoute s port ld = some x →
    exec (.identifyMemoryDevice port ld) s = .next (cxlSay port ld "identify" [2 ^ 48] (Config.cxlBytes 0 ld.toNat) s) ∧
    exec (.getSupportedLogs port ld) s = .next (cxlSay port ld "supported logs" [] (Config.cxlBytes 1 ld.toNat) s) ∧
    (∀ log offset length, ∃ data, exec (.getLog port ld log offset length) s =
      .next (cxlSay port ld "log" [log.toNat, offset.toNat, length.toNat] data s) ∧ data.length = length.toNat) ∧
    exec (.getEventRecords port ld) s = .next (cxlSay port ld "events"
      ((ldEvents s port ld).flatMap fun e => [e.handle.toNat, e.off.toNat, e.status.code.toNat]) [] s) ∧
    (∀ handles, ∃ t, exec (.clearEventRecords port ld handles) s = .next t ∧
      t = { s with fab := { s.fab with events := t.fab.events }, out := t.out } ∧
      ∀ e, e ∈ t.fab.events ↔ e ∈ s.fab.events ∧ ¬(e.port = port ∧ e.ld = ld ∧ e.handle ∈ handles)) ∧
    exec (.getTimestamp port ld) s = .next (cxlSay port ld "timestamp" [s.time.cadence.toNat] [] s) ∧
    exec (.getDynamicCapacityConfiguration port ld) s = .next (cxlSay port ld "dc configuration" [1, 0, 2 ^ 48, 2 ^ 34] [] s) ∧
    (∀ start count, exec (.getDynamicCapacityExtentList port ld start count) s = .next (cxlSay port ld "dc extents"
      ((((dcExtents s x.rider).drop start).take count).flatMap fun u => [u.first.toNat * 2 ^ 34, u.count.toNat * 2 ^ 34]) [] s)) ∧
    exec (.setTimestamp port ld) s = .next (cxlSay port ld "unsupported" [] [] s) ∧
    exec (.sanitize port ld) s = .next (cxlSay port ld "unsupported" [] [] s) ∧
    exec (.secureErase port ld) s = .next (cxlSay port ld "unsupported" [] [] s) ∧
    exec (.scanMedia port ld) s = .next (cxlSay port ld "unsupported" [] [] s) ∧
    exec (.partitionCommand port ld) s = .next (cxlSay port ld "unsupported" [] [] s) ∧
    exec (.getPoisonList port ld) s = .next (cxlSay port ld "unsupported" [] [] s) ∧
    exec (.injectPoison port ld) s = .next (cxlSay port ld "unsupported" [] [] s) ∧
    exec (.clearPoison port ld) s = .next (cxlSay port ld "unsupported" [] [] s) ∧
    (∀ u, exec (.fmApiBind port ld u) s = .next (cxlSay port ld (if u then "unbind refused" else "bind refused") [] [] s)) ∧
    (∀ r, exec (.dynamicCapacityHostRequest port ld r) s =
      .next (cxlSay port ld (if r then "release refused" else "add refused") [] [] s)) ∧
    exec (.cdatDoeRequest port ld) s = .next (cxlSay port ld "cdat" [] (Config.cxlBytes 3 ld.toNat) s)

/-- R37, R151, R258 to R261, R263 to R266: sequenced stores at their destination: when each is applied, held,
acknowledged or refused, and how the base of a window moves. -/
def Obligations.SequencedStoresComplete : Prop := StoresArrive ∧ WindowBase ∧ FabricControl

/-- R252, R257, R267, R269, R270: ports, and the CXL logical devices behind them. -/
def Obligations.PortsAndCxlComplete : Prop := PortsComplete ∧ CxlComplete

/-! ### The twin link -/

namespace Sys2Proof.Claims

/-- An own extent that mirrors its twin's: the module is no surrogate yet. -/
def mirrorCopy (s : State) (idx : Nat) : Prop := s.pair.surr = false ∧ ∃ x, findExt s idx = some x ∧ x.mirrorOf.isSome = true

end Sys2Proof.Claims

/-- R279, R280, R282: the mirror channel's messages at the module that keeps the copies. -/
def Sys2Proof.Claims.MirrorMessages : Prop :=
  ∀ s : State, s.phase = .running →
    (∀ page off data f, mirrorCopy s (extentOfPage page) → (findPage s.store page).home = some f →
      exec (.mirrorWrite (.write page off data .latest)) s = .next (putFrame f off data s)) ∧
    (∀ left, exec (.mirrorWrite (.info left [])) s =
      .next (checkPaired { s with pair := { s.pair with peerLeft := decide (left ≠ 0), metas := [] } })) ∧
    (∀ source epoch seq, exec (.landingMark source epoch seq) s =
      .next { s with pair := { s.pair with marks := s.pair.marks ++ [(source, epoch, seq)] } }) ∧
    (∀ exts, (∀ e ∈ exts, mirrorCopy s e.1) → s.pair.surr = false → ∃ t, exec (.commitRecord exts []) s = .next t ∧
      t = { s with store := t.store, pair := t.pair, out := t.out } ∧ t.store.mem = s.store.mem ∧
      t.pair.clog = s.pair.clog ++ [{ extents := exts }] ∧ t.out = s.out ++ [.preparedAck exts]) ∧
    (∀ exts, s.pair.clog = [{ extents := exts }] → ∃ v, exec (.committedMark exts) s = .next v ∧ v.pair.clog = [] ∧
      v = { exts.foldl (fun s e => switchMirror e s) s with pair := v.pair }) ∧
    (∀ exts o r es, s.jobs = [.commit o r es 1 false] → commitMirror s es = exts →
      exec (.commitPreparedAck exts) s = .next (addJob (tryCommit o r es 1 true { s with jobs := [] })))

/-- R275, R280, R281: resync, the loss and the return of the link, and the limit of what waits for it. -/
def Sys2Proof.Claims.TwinLinkComplete : Prop :=
  ∀ s : State, s.phase = .running →
    (∀ page rest, s.pair.resync = page :: rest → s.pair.st = 2 → exec (.resyncPageCopy page) s =
      .next (checkPaired (sendMeta (sendPage page { s with pair := { s.pair with resync := rest } })))) ∧
    (∀ v : State, v.pair.st = 2 → v.pair.resync = [] → v.pair.peerLeft = false → (checkPaired v).pair.st = 3) ∧
    (s.pair.lanes ≠ 0 → ∃ t, exec .twinLinkDown s = .next t ∧ t.pair.lanes = 0 ∧ t.store = s.store ∧
      ((s.pair.st = 2 ∨ s.pair.st = 3) → t.pair.st = 4 ∧ bit t.side.alert 0 = true ∧ t.pair.resync = [] ∧
        ∀ p, p ∈ t.pair.unsynced ↔ p ∈ s.pair.unsynced ∨ p ∈ s.pair.resync ∨ p ∈ s.pair.inFlight) ∧
      (s.pair.st ≠ 2 → s.pair.st ≠ 3 → t.pair.st = s.pair.st)) ∧
    (∀ lanes : BitVec 32, tandemLanes s lanes = 0 → exec (.twinLinkUp lanes) s = .next s) ∧
    (∀ lanes : BitVec 32, tandemLanes s lanes ≠ 0 → ∃ t, exec (.twinLinkUp lanes) s = .next t ∧
      t.pair.lanes = tandemLanes s lanes ∧ t.store = s.store ∧
      (s.pair.st = 4 → (t.pair.st = 2 ∨ t.pair.st = 3) ∧ t.pair.unsynced = []) ∧ (s.pair.st ≠ 4 → t.pair.st = s.pair.st)) ∧
    (∀ t c k r e x off, s.pair.st = 4 → findCtx s t c = some k → tileRider s t = some r → k.stores = [e] → e.remote = false →
      e.ready = true → target s e.opa = .off off → rightsAt s r off true = .inr x → mirrorHeld s x (pageOf off) = true →
      findTicket s ((rqTile t c r e.va).key off) true = none →
      exec (.mirrorWaitLimit (.ctx t c)) s = .next (refuseStore t c e .timeout (some (s.peloton * 256 + s.me)) s)) ∧
    (∀ o r es, s.pair.st = 4 → s.jobs = [.commit o r es 0 false] → (commitMirror s es).isEmpty = false → s.eng.ops = [] →
      s.eng.batches = [] → ∃ v,
      exec (.mirrorWaitLimit (.cmd o.h.src o.h.tag)) s = .next v ∧ v.jobs = [] ∧ v.store.mem = s.store.mem ∧
      v.store.pages = s.store.pages ∧ v.pair = s.pair)

/-- R275, R283, R290, R365: pairing, handover, relaying. -/
def Sys2Proof.Claims.PairCommands : Prop :=
  (∀ c s u, runsIn 0x680 c s = some u → u.fw.identity = true →
    (u.pair.twin = 0xFF → exec (.tandemPair c) s = .next (replied 0x680 c .badParam 0 [] u)) ∧
    (u.pair.twin ≠ 0xFF → u.pair.st = 1 → u.pair.cmd = none → ∃ n, n.length = 32 ∧ exec (.tandemPair c) s = .next
      { u with
        freeIdx := u.freeIdx + 4
        pair := { u.pair with cmd := some (openOf 0x680 c), nonce := n }
        out := u.out ++ [.attestNonce n] })) ∧
  (∀ (s : State) (report nonce : List Byte), s.phase = .running → s.fw.identity = true →
    (s.pair.cmd = none → exec (.partnerAttestReport report nonce) s =
      .next { s with out := s.out ++ [.attestReport (attestReport s nonce)] }) ∧
    (∀ o m, s.pair.cmd = some o → s.pair.st = 1 → moduleEntry s s.pair.twin.toNat = some m →
      (reportOk s s.pair.nonce m.fp report = false → exec (.partnerAttestReport report nonce) s =
        .next (completeIf o .auth 0 [] { s with
          pair := { s.pair with cmd := none }, out := s.out ++ [.attestReport (attestReport s nonce)] })) ∧
      (reportOk s s.pair.nonce m.fp report = true → exec (.partnerAttestReport report nonce) s =
        .next (startResync (completeIf o .ok 0 [] { s with
          pair := { s.pair with cmd := none }, out := s.out ++ [.attestReport (attestReport s nonce)] }))))) ∧
  (∀ c s u, runsIn 0x681 c s = some u → bits (c.p 0) 1 63 = 0 →
    (u.pair.st ≠ 3 → exec (.tandemHandover c) s = .next (replied 0x681 c .busy 0 [] u)) ∧
    (u.pair.st = 3 → bit (c.p 0) 0 = true → ∃ t, exec (.tandemHandover c) s = .next t ∧ t.pair.st = 6 ∧
      t.pair.cmd = some (openOf 0x681 c) ∧ t.store = u.store ∧ t.comp = u.comp)) ∧
  (∀ s : State, s.phase = .running → s.pair.st = 6 → drainedBut s.pair.cmd s = true →
    (∀ x ∈ s.store.extents, x.wlap = none) → ∃ t, exec .handoverDrainDone s = .next t ∧ t.pair.st = 7 ∧ t.pair.cmd = none ∧
      t.store = s.store) ∧
  ∀ s : State, s.phase = .running →
    (∀ m port, s.pair.surr = false → exec (.relayedRequest m port) s = .next s) ∧
    (s.pair.surr = true → (∀ e ∈ s.expelled, e.toNat ≠ s.twinNo) →
      (∀ p port, exec (.relayedRequest (.store p) port) s = .next (storeArrives p port s)) ∧
      (∀ r k port rider, relayRider s r.src = some rider → exec (.relayedRequest (.req r k) port) s =
        .next (acceptReq { r with src := .remote (BitVec.ofNat 6 s.twinNo) rider } k s)) ∧
      (∀ source txn seq epoch port, exec (.relayedRequest (.fence source txn seq epoch) port) s =
        .next (fenceArrives source (BitVec.ofNat 6 s.twinNo) txn seq epoch s))) ∧
    (s.pair.surr = true → (∃ e ∈ s.expelled, e.toNat = s.twinNo) → ∀ p port, exec (.relayedRequest (.store p) port) s =
      .next { s with out := s.out ++ [.seqAck (BitVec.ofNat 8 s.twinNo) p.sender p.lowest [] [(p.seq, .auth)]] })

/-- R275, R279 to R283, R290, R365: the pair: mirror channel, link, pairing, handover. -/
def Obligations.PairComplete : Prop := MirrorMessages ∧ TwinLinkComplete ∧ PairCommands

/-! ### Orders and manager keys -/

/-- R286, R287, R289, R366: the checks of an order in their order, and what an accepted one leaves. -/
def Obligations.OrdersComplete : Prop :=
  (∀ c s u, runsIn 0x683 c s = some u → u.fw.identity = true →
    (orderForm true c.payload = false → exec (.admit_ c) s = .next (replied 0x683 c .badParam 0 [] u)) ∧
    (orderForm true c.payload = true → (parseOrder c.payload).seq ≤ u.nv.lastOrder →
      exec (.admit_ c) s = .next (replied 0x683 c .auth 0 [] u)) ∧
    (orderForm true c.payload = true → u.nv.lastOrder < (parseOrder c.payload).seq → orderSigned u c.payload = false →
      exec (.admit_ c) s = .next (replied 0x683 c .quorum 0 [] u)) ∧
    (orderForm true c.payload = true → u.nv.lastOrder < (parseOrder c.payload).seq → orderSigned u c.payload = true →
      u.nv.members.length + (newFps u (parseOrder c.payload)).length ≤ 128 → ∃ w,
        exec (.admit_ c) s = .next (replied 0x683 c .ok 0 [] w) ∧ w = { u with nv := w.nv, err := w.err, issued := w.issued } ∧
        w.nv.lastOrder = (parseOrder c.payload).seq ∧ w.nv.members.length ≤ 128 ∧
        ∀ f, f ∈ w.nv.members ↔ f ∈ u.nv.members ∨ f ∈ (parseOrder c.payload).fps)) ∧
  (∀ c s u m, runsIn 0x682 c s = some u → u.fw.identity = true → orderForm false c.payload = true →
    u.nv.lastOrder < (parseOrder c.payload).seq → orderSigned u c.payload = true →
    ((parseOrder c.payload).epoch ≠ epochNow u → exec (.expel c) s = .next (replied 0x682 c .staleMap 0 [] u)) ∧
    ((parseOrder c.payload).epoch = epochNow u → expelOk u (parseOrder c.payload) = true →
      expelEntry u (parseOrder c.payload) = some m →
      ((parseOrder c.payload).module.toNat ≠ u.me → exec (.expel c) s = .next (replied 0x682 c .ok 0 []
        (expelOther (parseOrder c.payload) m.fp m.twin (acceptOrder (parseOrder c.payload) u)))) ∧
      ((parseOrder c.payload).module.toNat = u.me → exec (.expel c) s = .next (replied 0x682 c .ok 0 []
        (park (openOf 0x682 c) (acceptOrder (parseOrder c.payload) u)))))) ∧
  (∀ o s, (acceptOrder o s).nv.lastOrder = o.seq ∧ (acceptOrder o s).nv.members = s.nv.members ∧
    acceptOrder o s = { s with
      nv := (acceptOrder o s).nv
      err := (acceptOrder o s).err
      issued := s.issued ++ [{ by_ := .order o.seq, time := o.issued }] }) ∧
  ∀ c s u, runsIn 0x684 c s = some u → u.fw.identity = true → keysForm c.payload = true →
    u.nv.setSeq < BitVec.ofNat 32 (fieldB c.payload 8 4) → keysSigned u c.payload = true → ∃ w,
      exec (.managerKeys c) s = .next (replied 0x684 c .ok 0 [] w) ∧ w = { u with nv := w.nv, err := w.err, issued := w.issued } ∧
      w.nv.setSeq = BitVec.ofNat 32 (fieldB c.payload 8 4) ∧ w.nv.k = BitVec.ofNat 4 (fieldB c.payload 5 1) ∧
      w.nv.keys = (keySlots c.payload).map (fun i => (i, sliceB c.payload (0x20 + 1312 * i) 1312)) ∧
      w.nv.lastOrder = u.nv.lastOrder ∧ w.nv.members = u.nv.members

/-- R365: a module without an identity reads 0 in `IDENTITY` and answers `AUTH` to the commands that need one; a boot whose
key or counters fail leaves it without. -/
def Obligations.NoIdentityReturnsAuth : Prop :=
  (∀ (c : Cmd) (s u : State), u.fw.identity = false →
    (∀ row ∈ [((0x502, .attest) : Nat × (Cmd → Instr)), (0x680, .tandemPair), (0x682, .expel), (0x683, .admit_),
      (0x684, .managerKeys), (0x601, .inject), (0x700, .tripRead)],
      runsIn row.1 c s = some u → exec (row.2 c) s = .next (replied row.1 c .auth 0 [] u)) ∧
    (runsIn 0x018 c s = some u → c.h.chunk = 0 → c.h.more = false → findAssembly u c = none → u.compose = .idle →
      notMounted u = false → u.port.assemblies.any (fun a => a.op = .compose && a.tag ≠ c.h.tag) = false →
      exec (.compose c) s = .next (replied 0x018 c .auth 0 [] u))) ∧
  (∀ u : State, u.fw.identity = false → bit (regValue u .bootStatus) 7 = false) ∧
  ∀ (b : BootInfo) (s t : State), s.phase = .released → (b.pufOk = false ∨ b.countersOk = false) → b.failedUnits = [] →
    exec (.boot b) s = .next t →
    t.fw.identity = false ∧ (t.phase = .running ∨ t.phase = .recoveryRom) ∧
    (s.side.sampled.recoveryN = true → s.nv.trial = false → s.nv.aborted = none →
      slotValid s s.nv.activeSlot = true → t.phase = .running)

/-! ### Firmware -/

/-- R356, R357, R361: staging writes bytes of a slot; activation of a valid slot starts, is deferred, cancelled or refused. -/
def Sys2Proof.Claims.StageAndActivate : Prop :=
  (∀ c s u, runsIn 0x500 c s = some u → (c.p 1).toNat % 4096 = 0 →
    ((c.p 0).toNat = 2 → (c.p 1).toNat + c.payload.length ≤ 524288 → exec (.fwStage c) s = .next (replied 0x500 c .ok 0 []
      { u with nv := { u.nv with staging := u.nv.staging.write (c.p 1).toNat c.payload } })) ∧
    ((c.p 0).toNat = 1 → (c.p 1).toNat + c.payload.length ≤ imageTop →
      (u.nv.activeSlot = true ∨ actSlot u = some true → exec (.fwStage c) s = .next (replied 0x500 c .busy 0 [] u)) ∧
      (u.nv.activeSlot = false → actSlot u ≠ some true → exec (.fwStage c) s = .next (replied 0x500 c .ok 0 []
        { u with nv := { u.nv with slotB := u.nv.slotB.write (c.p 1).toNat c.payload } }))) ∧
    ((c.p 0).toNat = 0 → (c.p 1).toNat + c.payload.length ≤ imageTop → u.nv.activeSlot = true → actSlot u ≠ some false →
      exec (.fwStage c) s = .next (replied 0x500 c .ok 0 []
        { u with nv := { u.nv with slotA := u.nv.slotA.write (c.p 1).toNat c.payload } }))) ∧
  (∀ (x : Slot) (off : Nat) (bs : List Byte) (i : Nat), i < bs.length →
    memGet (x.write off bs).cells (off + i) = bs.getD i 0) ∧
  (∀ c s u, runsIn 0x501 c s = some u →
    ((c.p 0).toNat < 2 → slotValid u ((c.p 0).toNat == 1) = false → exec (.fwActivate c) s = .next (replied 0x501 c .auth 0 [] u)) ∧
    ((c.p 0).toNat < 2 → slotValid u ((c.p 0).toNat == 1) = true →
      (u.nv.activeSlot = ((c.p 0).toNat == 1) → u.fw.act.st ≠ 1 → exec (.fwActivate c) s = .next (replied 0x501 c .ok 0 [] u)) ∧
      (u.nv.activeSlot = ((c.p 0).toNat == 1) → u.fw.act.st = 1 → exec (.fwActivate c) s =
        .next (replied 0x501 c .ok 0 [] { u with fw := { u.fw with act := Act.none } })) ∧
      (u.nv.activeSlot ≠ ((c.p 0).toNat == 1) → u.fw.act.st ≠ 2 → u.fw.act.st ≠ 3 → composing u = false →
        (emergency u = true → exec (.fwActivate c) s = .next (replied 0x501 c .deferred 0 []
          { u with fw := { u.fw with act := { Act.none with st := 1, slot := (c.p 0).toNat == 1, prior := !((c.p 0).toNat == 1) } } })) ∧
        (emergency u = false → ∃ t, exec (.fwActivate c) s = .next t ∧ t = { u with fw := t.fw, err := t.err, nv := t.nv } ∧
          t.fw.act.st = 2 ∧ t.fw.act.slot = ((c.p 0).toNat == 1) ∧ t.fw.act.cmd = some (openOf 0x501 c) ∧
          t.nv.activeSlot = u.nv.activeSlot ∧ (u.fw.standby = true → t.fw.act.step = 1) ∧
          (u.fw.standby = false → t.fw.act.step = 2)))) ∧
    ((c.p 0).toNat = 2 →
      let b := memReadN u.nv.staging.cells 0 2552
      configForm b = true → configSigned u (parseConfig b) = true → u.nv.configSeq < (parseConfig b).seq →
        exec (.fwActivate c) s = .next (replied 0x501 c .ok 0 [] { u with nv := { u.nv with
          config := some (parseConfig b), configSeq := (parseConfig b).seq } })))

/-- R357 to R360: the steps of an activation, its hold limit, its trial and its resumption. -/
def Sys2Proof.Claims.ActivationSteps : Prop :=
  ∀ s : State, s.phase = .running →
    (s.fw.act.st = 1 → calm s = true → slotValid s s.fw.act.slot = true →
      exec .deferredActivationStart s = .next (startAct s.fw.act.slot none s)) ∧
    (s.fw.act.st = 2 → s.fw.act.waiting = false → s.fw.act.step = 2 →
      s.fw.act.cores + 1 < (if Config.hasFlash s.variant then 20 else 16) → ∃ t,
      exec (.fwActivationStepDone true) s = .next t ∧ t = { s with fw := t.fw } ∧
      t.fw.act = { s.fw.act with cores := s.fw.act.cores + 1 }) ∧
    (s.fw.act.st = 2 → s.fw.act.waiting = false → s.fw.act.step = 3 → s.fw.act.cores = 1 → ∃ t,
      exec (.fwActivationStepDone true) s = .next t ∧ t = { s with fw := t.fw } ∧
      t.fw.act = { s.fw.act with cores := 2, waiting := emergency s || shaken s }) ∧
    (s.fw.act.st = 2 → s.fw.act.waiting = false → s.fw.act.step = 3 → s.fw.act.cores = 2 → s.fw.act.revert = false → ∃ t,
      exec (.fwActivationStepDone true) s = .next t ∧ t.nv.activeSlot = s.fw.act.slot ∧ t.nv.trial = true ∧ t.fw.act.st = 3 ∧
      t.store = s.store ∧ t.comp = s.comp ∧ t.tiles = s.tiles) ∧
    (s.fw.act.st = 2 → s.fw.act.waiting = false → s.fw.act.revert = false → ∃ t,
      exec (.fwActivationStepDone false) s = .next t ∧ t = { s with fw := t.fw } ∧ t.fw.act.st = 2 ∧ t.fw.act.revert = true ∧
      t.fw.act.slot = !s.fw.act.slot) ∧
    (s.fw.act.st = 2 → s.fw.act.waiting = true → calm s = true → exec .activationPrimaryResume s = .next
      { s with fw := { s.fw with act := { s.fw.act with waiting := false } } }) ∧
    (s.fw.act.st = 2 → 2 ≤ s.fw.act.step → ∃ t, exec .activationHoldLimit s = .next t ∧ t.time.waiting = [] ∧
      t.err.checks = [] ∧ t.pair.cmd = none ∧ t.fw = s.fw) ∧
    (s.fw.act.st = 3 → ∃ t, exec .trialConfirmation s = .next t ∧ t = { s with fw := t.fw, nv := t.nv, err := t.err } ∧
      t.fw.act = Act.none ∧ t.nv.trial = false ∧ t.nv.activeSlot = s.nv.activeSlot ∧
      s.nv.rollbackSvn.toNat ≤ t.nv.rollbackSvn.toNat ∧
      ∀ m ms, imageOf s (fwSlot s s.nv.activeSlot) = some (m :: ms) → m.svn.toNat ≤ t.nv.rollbackSvn.toNat) ∧
    (∀ h cmp, s.fw.act.st = 0 → lookupK s.fw.wdog (.scheduler h) = none → coreRuns s (.scheduler h) = true → ∃ t,
      exec (.firmwareWatchdogExpiry (.scheduler h) cmp) s = .next t ∧ t = { s with fw := t.fw, nv := t.nv, err := t.err } ∧
      t.nv.activeSlot = s.nv.activeSlot ∧ lookupK t.fw.wdog (.scheduler h) = some s.now) ∧
    (∀ w cmp v, s.fw.act.st = 0 → lookupK s.fw.wdog (.wheel w) = some v → s.now.toNat < v.toNat + 1000000000 →
      unitFenced s (unitChainring w.val) = false → ∃ v, v.err.fences = s.err.fences ∧
        exec (.firmwareWatchdogExpiry (.wheel w) cmp) s = .next (fenceChainring w.val (markFence (unitChainring w.val) 3 v)))

/-- R353, R354, R358, R363, R364: the boot, the recovery image and the attestation report. -/
def Sys2Proof.Claims.BootAndAttest : Prop :=
  (∀ c s u, runsIn 0x502 c s = some u → u.fw.identity = true → ∃ r, exec (.attest c) s =
    .next (replied 0x502 c .ok 0 r u) ∧ fieldB r 0 4 = 0x0A77F064 ∧ fieldB r 4 1 = u.fw.entries.length % 256 ∧
      fieldB r 8 8 = u.env.fp.toNat ∧ sliceB r 16 32 = sliceB (paramBytes c.params) 0 32 ∧
      fieldB r 48 4 = u.nv.bootCount.toNat ∧ fieldB r 52 4 = (epochNow u).toNat) ∧
  (∀ (b : BootInfo) (s : State), s.phase = .released → b.failedUnits = [] → b.countersOk = true →
    (s.side.sampled.recoveryN = true → s.nv.trial = false → slotValid s s.nv.activeSlot = true → ∃ t,
      exec (.boot b) s = .next t ∧ t.phase = .running ∧ t.nv.bootCount = s.nv.bootCount + 1 ∧
      t.nv.activeSlot = s.nv.activeSlot ∧ t.store = s.store ∧ t.fw.standby = b.standbyReady ∧ t.fw.identity = b.pufOk) ∧
    (s.side.sampled.recoveryN = false → ∃ t, exec (.boot b) s = .next t ∧ t.phase = .recoveryRom ∧
      t.nv.bootCount = s.nv.bootCount + 1 ∧ t.power = s.power) ∧
    (s.side.sampled.recoveryN = true → s.nv.trial = false → slotValid s false = false → slotValid s true = false → ∃ t,
      exec (.boot b) s = .next t ∧ t.phase = .recoveryRom ∧ t.power.st = .kickstand ∧ t.power.kick = 4)) ∧
  ∀ (s : State) (offset length : BitVec 32) (data : List Byte), s.phase = .recoveryRom → offset.toNat % 4096 = 0 →
    1 ≤ length.toNat → length.toNat ≤ 4096 → data.length = length.toNat → offset.toNat = s.fw.recBytes.length →
    exec (.recoveryPiece offset length 0 0 data) s = .next { s with
      fw := { s.fw with recBytes := s.fw.recBytes ++ data }, out := s.out ++ [.sideband 0x82 .ok []] } ∧
    (imageOf s { factory := false, cells := cellsOf 0 (s.fw.recBytes ++ data) } = none →
      exec (.recoveryPiece offset length 1 0 data) s = .next { s with
        fw := { s.fw with recBytes := [] }, out := s.out ++ [.sideband 0x82 .auth []] }) ∧
    ∀ ms, imageOf s { factory := false, cells := cellsOf 0 (s.fw.recBytes ++ data) } = some ms → ∃ t,
      exec (.recoveryPiece offset length 1 0 data) s = .next t ∧ t.phase = .recoveryImage ∧
      t.out = s.out ++ [.sideband 0x82 .ok []] ∧ t.store = s.store

/-- R353, R354, R356 to R361, R363, R364: firmware: staging, activation, trial, boot, recovery, attestation. -/
def Obligations.FirmwareComplete : Prop := StageAndActivate ∧ ActivationSteps ∧ BootAndAttest

/-! ### Invariants of every step -/

namespace Sys2Proof.Claims

/-- Every memory is in its canonical form, and every log holds no more than it has room for (R177, R300, R319, R331, R345, R348). -/
structure Inv (s : State) : Prop where
  mem      : Memory.wf s.store.mem = true
  slotA    : Memory.wf s.nv.slotA.cells = true
  slotB    : Memory.wf s.nv.slotB.cells = true
  staging  : Memory.wf s.nv.staging.cells = true
  panniers : ∀ x ∈ s.tiles, Memory.wf x.pannier = true
  errLog   : s.err.log.recs.length ≤ 16384
  odometer : s.nv.odometer.recs.length ≤ 131072
  faults   : ∀ p ∈ s.err.faults, p.2.recs.length ≤ 4096
  tags     : s.port.tags.length ≤ 4096

end Sys2Proof.Claims

/-- The invariant holds right after reset. -/
def Obligations.InvariantAtReset : Prop := Inv State.reset

/-- Every step of every state keeps the invariant. -/
def Obligations.InvariantKept : Prop := ∀ s t : State, Inv s → step s = .next t → Inv t

/-- R349, R352, R366, R288: no step moves a replay-protected counter backwards; the boot count moves by one, at a boot. -/
def Obligations.CountersOnlyIncrease : Prop :=
  ∀ s t : State, step s = .next t →
    s.nv.rollbackSvn.toNat ≤ t.nv.rollbackSvn.toNat ∧ s.nv.configSeq.toNat ≤ t.nv.configSeq.toNat ∧
    s.nv.setSeq.toNat ≤ t.nv.setSeq.toNat ∧ s.nv.lastOrder.toNat ≤ t.nv.lastOrder.toNat ∧
    (t.nv.bootCount = s.nv.bootCount ∨
      (t.nv.bootCount = s.nv.bootCount + 1 ∧ ∃ b rest, s.pending = .boot b :: rest ∧ s.phase = .released))
end

