-- ==== Sys2Proof/Laws/Memory.lean ====
section
/-! SUPPORT. The laws of the byte memory: every operation keeps its canonical form, a read after a write gives the value
written, and a write leaves every other address alone. -/

namespace Sys2Proof.Laws

open Sys2Proof.Machine

/-- The canonical form: addresses strictly rise, and no entry is zero. -/
theorem wf_iff (m : List Host.Cell) :
    Memory.wf m = true ↔ m.Pairwise (fun c d => c.1 < d.1) ∧ ∀ c ∈ m, c.2 ≠ 0 := by
  induction m with
  | nil => simp [Memory.wf]
  | cons c m ih =>
    cases m with
    | nil => simp [Memory.wf]
    | cons d m =>
      simp only [Memory.wf, Bool.and_eq_true, decide_eq_true_eq, ih, List.pairwise_cons, List.mem_cons,
        forall_eq_or_imp]
      constructor
      · rintro ⟨⟨hc, hlt⟩, ⟨hd, hm⟩, hz⟩
        exact ⟨⟨⟨hlt, fun x hx => lt_trans hlt (hd x hx)⟩, hd, hm⟩, hc, hz⟩
      · rintro ⟨⟨⟨hlt, _⟩, hd, hm⟩, hc, hz⟩
        exact ⟨⟨hc, hlt⟩, ⟨hd, hm⟩, hz⟩

@[simp] theorem wf_nil : Memory.wf [] = true := rfl

/-- Leaving out entries keeps the canonical form. -/
theorem wf_filter {m : List Host.Cell} (p : Host.Cell → Bool) (h : Memory.wf m = true) : Memory.wf (m.filter p) = true := by
  rw [wf_iff] at *
  exact ⟨h.1.filter _, fun c hc => h.2 c (List.mem_of_mem_filter hc)⟩

/-- The cells of written bytes lie in their range. -/
theorem cellsOf_range (a : Nat) (bs : List Byte) : ∀ c ∈ cellsOf a bs, a ≤ c.1 ∧ c.1 < a + bs.length := by
  induction bs generalizing a with
  | nil => simp [cellsOf]
  | cons b bs ih =>
    intro c hc
    have step : ∀ c ∈ cellsOf (a + 1) bs, a ≤ c.1 ∧ c.1 < a + (b :: bs).length := fun c hc => by
      have := ih (a + 1) c hc
      simp only [List.length_cons]
      omega
    simp only [cellsOf] at hc
    split at hc
    · exact step c hc
    · rcases List.mem_cons.1 hc with rfl | hc
      · simp
      · exact step c hc

theorem wf_cellsOf (a : Nat) (bs : List Byte) : Memory.wf (cellsOf a bs) = true := by
  induction bs generalizing a with
  | nil => rfl
  | cons b bs ih =>
    simp only [cellsOf]
    split
    · exact ih _
    · rename_i hb
      rw [wf_iff, List.pairwise_cons]
      refine ⟨⟨fun c hc => ?_, ((wf_iff _).1 (ih (a + 1))).1⟩, fun c hc => ?_⟩
      · have := cellsOf_range _ _ c hc
        simp only
        omega
      · rcases List.mem_cons.1 hc with rfl | hc
        · exact hb
        · exact ((wf_iff _).1 (ih (a + 1))).2 c hc

/-- Replacing a range by canonical cells of that range keeps the canonical form. -/
theorem wf_memReplace {m cs : List Host.Cell} {a n : Nat} (hm : Memory.wf m = true) (hc : Memory.wf cs = true)
    (hr : ∀ c ∈ cs, a ≤ c.1 ∧ c.1 < a + n) : Memory.wf (memReplace m a n cs) = true := by
  rw [wf_iff] at *
  unfold memReplace
  refine ⟨?_, fun c hcm => ?_⟩
  · rw [List.pairwise_append, List.pairwise_append]
    refine ⟨⟨hm.1.filter _, hc.1, fun x hx y hy => ?_⟩, hm.1.filter _, fun x hx y hy => ?_⟩
    · have h1 := List.of_mem_filter hx
      have h2 := hr y hy
      simp only [decide_eq_true_eq] at h1
      omega
    · have h1 := List.of_mem_filter hy
      simp only [decide_eq_true_eq] at h1
      rcases List.mem_append.1 hx with hx | hx
      · have h2 := List.of_mem_filter hx
        simp only [decide_eq_true_eq] at h2
        omega
      · have := hr x hx
        omega
  · simp only [List.mem_append, List.mem_filter] at hcm
    rcases hcm with (⟨h, _⟩ | h) | ⟨h, _⟩
    · exact hm.2 c h
    · exact hc.2 c h
    · exact hm.2 c h

theorem wf_memWriteN {m : List Host.Cell} (a : Nat) (bs : List Byte) (h : Memory.wf m = true) :
    Memory.wf (memWriteN m a bs) = true :=
  wf_memReplace h (wf_cellsOf a bs) (cellsOf_range a bs)

theorem memShift_range (m : List Host.Cell) (src n dst : Nat) : ∀ c ∈ memShift m src n dst, dst ≤ c.1 ∧ c.1 < dst + n := by
  intro c hc
  simp only [memShift, List.mem_map, List.mem_filter, Bool.and_eq_true, decide_eq_true_eq] at hc
  obtain ⟨d, ⟨_, h1, h2⟩, rfl⟩ := hc
  simp only
  omega

theorem wf_memShift {m : List Host.Cell} (src n dst : Nat) (h : Memory.wf m = true) :
    Memory.wf (memShift m src n dst) = true := by
  rw [wf_iff] at *
  unfold memShift
  refine ⟨?_, fun c hc => ?_⟩
  · rw [List.pairwise_map]
    refine List.Pairwise.imp_of_mem (fun {x y} hx hy hlt => ?_) (h.1.filter _)
    have h1 := List.of_mem_filter hx
    simp only [Bool.and_eq_true, decide_eq_true_eq] at h1
    simp only
    omega
  · simp only [List.mem_map, List.mem_filter] at hc
    obtain ⟨d, ⟨hd, _⟩, rfl⟩ := hc
    exact h.2 d hd

theorem wf_memCopyN {m : List Host.Cell} (src n dst : Nat) (h : Memory.wf m = true) :
    Memory.wf (memCopyN m src n dst) = true :=
  wf_memReplace h (wf_memShift src n dst h) (memShift_range m src n dst)

theorem wf_memClear {m : List Host.Cell} (a n : Nat) (h : Memory.wf m = true) : Memory.wf (memClear m a n) = true :=
  wf_memReplace h rfl (by simp)

/-- State.reset's memory has the canonical form. -/
theorem wf_reset : Memory.wf State.reset.store.mem = true := rfl

/-! ### Reading one byte -/

theorem memGet_nil (a : Nat) : memGet [] a = 0 := rfl

theorem memGet_cons (c : Host.Cell) (m : List Host.Cell) (a : Nat) :
    memGet (c :: m) a = if c.1 = a then c.2 else memGet m a := by
  unfold memGet
  rw [List.find?_cons]
  by_cases h : c.1 = a
  · simp [h]
  · have : (c.1 == a) = false := by simpa using h
    simp [h, this]

theorem memGet_of_notMem {m : List Host.Cell} {a : Nat} (h : ∀ c ∈ m, c.1 ≠ a) : memGet m a = 0 := by
  induction m with
  | nil => rfl
  | cons c m ih =>
    rw [memGet_cons, if_neg (h c (by simp))]
    exact ih fun d hd => h d (by simp [hd])

theorem memGet_append_left {m k : List Host.Cell} {a : Nat} (h : ∀ c ∈ k, c.1 ≠ a) : memGet (m ++ k) a = memGet m a := by
  induction m with
  | nil => exact memGet_of_notMem h
  | cons c m ih => rw [List.cons_append, memGet_cons, memGet_cons, ih]

theorem memGet_append_right {m k : List Host.Cell} {a : Nat} (h : ∀ c ∈ m, c.1 ≠ a) : memGet (m ++ k) a = memGet k a := by
  induction m with
  | nil => rfl
  | cons c m ih =>
    rw [List.cons_append, memGet_cons, if_neg (h c (by simp))]
    exact ih fun d hd => h d (by simp [hd])

theorem memGet_filter {m : List Host.Cell} {p : Host.Cell → Bool} {a : Nat} (h : ∀ b, p (a, b) = true) :
    memGet (m.filter p) a = memGet m a := by
  induction m with
  | nil => rfl
  | cons c m ih =>
    rw [List.filter_cons]
    by_cases hc : c.1 = a
    · have : p c = true := by obtain ⟨x, y⟩ := c; simp only at hc; subst hc; exact h y
      rw [if_pos this, memGet_cons, memGet_cons, if_pos hc, if_pos hc]
    · split
      · rw [memGet_cons, memGet_cons, if_neg hc, if_neg hc, ih]
      · rw [memGet_cons, if_neg hc, ih]

/-- Outside the range that is replaced nothing changes. -/
theorem memGet_memReplace_out {m cs : List Host.Cell} {a n x : Nat} (hr : ∀ c ∈ cs, a ≤ c.1 ∧ c.1 < a + n)
    (hx : x < a ∨ a + n ≤ x) : memGet (memReplace m a n cs) x = memGet m x := by
  unfold memReplace
  have hcs : ∀ c ∈ cs, c.1 ≠ x := fun c hc => by have := hr c hc; omega
  rcases hx with hx | hx
  · rw [memGet_append_left, memGet_append_left hcs, memGet_filter]
    · intro b; simpa using hx
    · intro c hc
      have := List.of_mem_filter hc
      simp only [decide_eq_true_eq] at this
      omega
  · rw [List.append_assoc, memGet_append_right, memGet_append_right hcs, memGet_filter]
    · intro b; simpa using hx
    · intro c hc
      have := List.of_mem_filter hc
      simp only [decide_eq_true_eq] at this
      omega

/-- Inside the range that is replaced the new cells are read. -/
theorem memGet_memReplace_in {m cs : List Host.Cell} {a n x : Nat} (h1 : a ≤ x) (h2 : x < a + n) :
    memGet (memReplace m a n cs) x = memGet cs x := by
  unfold memReplace
  rw [memGet_append_left, memGet_append_right]
  · intro c hc
    have := List.of_mem_filter hc
    simp only [decide_eq_true_eq] at this
    omega
  · intro c hc
    have := List.of_mem_filter hc
    simp only [decide_eq_true_eq] at this
    omega

theorem memGet_cellsOf (a : Nat) (bs : List Byte) (i : Nat) : memGet (cellsOf a bs) (a + i) = bs.getD i 0 := by
  induction bs generalizing a i with
  | nil => simp [cellsOf, memGet_nil]
  | cons b bs ih =>
    have key : memGet (cellsOf (a + 1) bs) (a + i) = if i = 0 then 0 else bs.getD (i - 1) 0 := by
      cases i with
      | zero =>
        simp only [Nat.add_zero, if_true]
        exact memGet_of_notMem fun c hc => by have := cellsOf_range _ _ c hc; omega
      | succ i =>
        have := ih (a + 1) i
        rw [show a + (i + 1) = a + 1 + i by omega, this]
        simp
    simp only [cellsOf]
    split
    · rename_i hb
      rw [key]
      cases i <;> simp [hb]
    · rw [memGet_cons, key]
      cases i <;> simp

/-- A read of a written byte gives the byte. -/
theorem memGet_memWriteN_in (m : List Host.Cell) (a : Nat) (bs : List Byte) {i : Nat} (h : i < bs.length) :
    memGet (memWriteN m a bs) (a + i) = bs.getD i 0 := by
  unfold memWriteN
  rw [memGet_memReplace_in (by omega) (by omega), memGet_cellsOf]

/-- A write leaves every other address alone. -/
theorem memGet_memWriteN_out (m : List Host.Cell) (a : Nat) (bs : List Byte) {x : Nat} (h : x < a ∨ a + bs.length ≤ x) :
    memGet (memWriteN m a bs) x = memGet m x :=
  memGet_memReplace_out (cellsOf_range a bs) h

theorem memGet_memClear_in (m : List Host.Cell) {a n x : Nat} (h1 : a ≤ x) (h2 : x < a + n) :
    memGet (memClear m a n) x = 0 := by
  unfold memClear
  rw [memGet_memReplace_in h1 h2, memGet_nil]

theorem memGet_memClear_out (m : List Host.Cell) {a n x : Nat} (h : x < a ∨ a + n ≤ x) :
    memGet (memClear m a n) x = memGet m x :=
  memGet_memReplace_out (by simp) h

theorem memGet_memShift (m : List Host.Cell) (src n dst : Nat) {i : Nat} (h : i < n) :
    memGet (memShift m src n dst) (dst + i) = memGet m (src + i) := by
  induction m with
  | nil => rfl
  | cons c m ih =>
    rw [memGet_cons]
    unfold memShift at ih ⊢
    rw [List.filter_cons]
    by_cases hc : c.1 = src + i
    · have h1 : (decide (src ≤ c.1) && decide (c.1 < src + n)) = true := by simp [hc, h]
      rw [if_pos h1, List.map_cons, memGet_cons, if_pos hc, if_pos]
      simp only
      omega
    · rw [if_neg hc]
      split
      · rename_i h1
        simp only [Bool.and_eq_true, decide_eq_true_eq] at h1
        rw [List.map_cons, memGet_cons, if_neg, ih]
        simp only
        omega
      · exact ih

/-- A copied byte reads as the byte it was copied from. -/
theorem memGet_memCopyN_in (m : List Host.Cell) (src n dst : Nat) {i : Nat} (h : i < n) :
    memGet (memCopyN m src n dst) (dst + i) = memGet m (src + i) := by
  unfold memCopyN
  rw [memGet_memReplace_in (by omega) (by omega), memGet_memShift m src n dst h]

theorem memGet_memCopyN_out (m : List Host.Cell) (src n dst : Nat) {x : Nat} (h : x < dst ∨ dst + n ≤ x) :
    memGet (memCopyN m src n dst) x = memGet m x :=
  memGet_memReplace_out (memShift_range m src n dst) h

/-! ### Reading ranges -/

@[simp] theorem memReadN_length (m : List Host.Cell) (a n : Nat) : (memReadN m a n).length = n := by
  simp [memReadN, seqFrom]

theorem memReadN_getD (m : List Host.Cell) (a n : Nat) {i : Nat} (h : i < n) :
    (memReadN m a n).getD i 0 = memGet m (a + i) := by
  simp [memReadN, seqFrom, List.getD, h]

/-- Reading back the bytes that were written. -/
theorem memReadN_memWriteN (m : List Host.Cell) (a : Nat) (bs : List Byte) :
    memReadN (memWriteN m a bs) a bs.length = bs := by
  apply List.ext_getElem
  · simp
  · intro i h1 h2
    have := memGet_memWriteN_in m a bs h2
    simp only [memReadN, seqFrom, List.map_map, List.getElem_map, List.getElem_range, Function.comp]
    rw [this]
    simp [List.getD, h2]

end Sys2Proof.Laws
end

