-- ==== Sys2Proof/Laws/Ops.lean ====
section
/-! SUPPORT. What each shared operation can do, said once: keyed lists, logs and kept tags, records, replies, the header
checks and the path a command packet takes. -/

namespace Sys2Proof.Laws

open Sys2Proof.Machine

/-! ### Keyed lists -/

theorem mem_updIf {α : Type} {l : List α} {p : α → Bool} {f : α → α} {y : α} (h : y ∈ updIf l p f) :
    ∃ x ∈ l, y = x ∨ y = f x := by
  unfold updIf at h
  obtain ⟨x, hx, rfl⟩ := List.mem_map.1 h
  exact ⟨x, hx, by split <;> simp⟩

@[simp] theorem length_updIf {α : Type} (l : List α) (p : α → Bool) (f : α → α) : (updIf l p f).length = l.length := by
  simp [updIf]

theorem mem_setK {α β : Type} [DecidableEq α] {l : List (α × β)} {k : α} {v : β} {p : α × β} (h : p ∈ setK l k v) :
    p ∈ l ∨ p = (k, v) := by
  unfold setK at h
  split at h
  · obtain ⟨x, hx, rfl⟩ := List.mem_map.1 h
    split <;> simp_all
  · simpa using h

theorem mem_dropIf {α : Type} {l : List α} {p : α → Bool} {x : α} : x ∈ dropIf l p ↔ x ∈ l ∧ p x = false := by
  simp [dropIf]

/-! ### Logs and kept tags (R300, R330) -/

/-- A log never holds more records than its size. -/
theorem push_length {n : Nat} (r : Rec) (l : Log) (hn : 0 < n) : (l.push n r).recs.length ≤ n := by
  simp only [Log.push]
  split <;> simp <;> omega

/-- The record added is the last, under the log's next number. -/
theorem push_last (n : Nat) (r : Rec) (l : Log) : (l.push n r).recs.getLast? = some { r with seq := l.next } := by
  simp [Log.push]

@[simp] theorem push_next (n : Nat) (r : Rec) (l : Log) : (l.push n r).next = l.next + 1 := rfl

theorem trimTags_length (n : Nat) (l : List (BitVec 32 × Reply)) : (trimTags n l).length = l.length := by
  induction l with
  | nil => rfl
  | cons a l ih => simp only [trimTags]; split <;> simp [ih]

/-- At most 4,096 tags are kept. -/
theorem keepTag_length (r : Reply) (l : List (BitVec 32 × Reply)) : (keepTag r l).length ≤ 4096 := by
  simp only [keepTag, trimTags_length, List.length_drop]
  omega

/-! ### Records: only the logs and the odometer change (R329, R330) -/

theorem logErr_only (r : Rec) (s : State) : ∃ e, logErr r s = { s with err := e } := by
  unfold logErr
  split <;> exact ⟨_, rfl⟩

theorem writeRec_only (r : Rec) (s : State) : ∃ e o n,
    writeRec r s = { s with err := e, nv := { s.nv with odometer := o, odoPos := n } } := by
  have h1 : ∃ e, (if recToErr r.type.toNat then logErr { r with time := s.now } s else s) = { s with err := e } := by
    split
    · exact logErr_only _ s
    · exact ⟨s.err, rfl⟩
  obtain ⟨e, h1⟩ := h1
  simp only [writeRec, h1]
  split <;> split <;> exact ⟨_, _, _, rfl⟩

theorem takeInj_only (point unit : BitVec 16) (s : State) : ∃ i,
    (takeInj point unit s).2 = { s with err := { s.err with inj := i } } := by
  unfold takeInj
  split <;> exact ⟨_, rfl⟩

theorem detect_only (r : Rec) (s : State) : ∃ e o n,
    detect r s = { s with err := e, nv := { s.nv with odometer := o, odoPos := n } } := by
  obtain ⟨i, hi⟩ := takeInj_only r.point r.unit s
  unfold detect
  simp only
  rw [hi]
  exact writeRec_only _ { s with err := { s.err with inj := i } }

theorem corrected_only (point unit : BitVec 16) (addr : Word) (s : State) : ∃ e o n,
    corrected point unit addr s = { s with err := e, nv := { s.nv with odometer := o, odoPos := n } } := by
  obtain ⟨i, hi⟩ := takeInj_only point unit s
  have hw : ∀ (r : Rec) (e : Errs), ∃ e' o n, writeRec r { s with err := e } =
      { s with err := e', nv := { s.nv with odometer := o, odoPos := n } } := fun r e => writeRec_only r { s with err := e }
  simp only [corrected, hi]
  split
  · split
    · exact ⟨_, _, _, rfl⟩
    · exact hw _ _
  · exact hw _ _

theorem markFence_only (u : BitVec 16) (trigger : Nat) (s : State) : ∃ e o n,
    markFence u trigger s = { s with err := e, nv := { s.nv with odometer := o, odoPos := n } } := by
  obtain ⟨e, o, n, h⟩ := detect_only { Rec.blank 0x0008 with unit := u, flags := 0x20, arg0 := BitVec.ofNat 64 trigger }
    { s with err.fences := s.err.fences ++ [u], err.mgmt := s.err.mgmt ++ [u] }
  exact ⟨e, o, n, h⟩

/-- A sideband alert changes nothing but the alert bits and the interrupts sent for them (R406). -/
theorem alert_only (i : Nat) (s : State) : ∃ a n, alert i s = { s with side := { s.side with alert := a, ibiSent := n } } := by
  unfold alert
  split <;> exact ⟨_, _, rfl⟩

/-! ### Open commands and replies: only the port's and the queues' lists change (R298, R300, R314) -/

theorem sendReply_only (r : Reply) (s : State) : ∃ p q, sendReply r s = { s with port := p, queues := q } := by
  unfold sendReply
  split <;> exact ⟨_, _, rfl⟩

theorem openCmd_only (o : Open) (s : State) : ∃ p q, openCmd o s = { s with port := p, queues := q } := by
  unfold openCmd
  split <;> exact ⟨_, _, rfl⟩

theorem complete_only (o : Open) (st : Status) (result : Word) (payload : List Byte) (s : State) : ∃ p q,
    complete o st result payload s = { s with port := p, queues := q } := by
  unfold complete
  split <;> exact sendReply_only _ _

theorem completeIf_only (o : Open) (st : Status) (result : Word) (payload : List Byte) (s : State) : ∃ p q,
    completeIf o st result payload s = { s with port := p, queues := q } := by
  unfold completeIf
  split
  · exact complete_only _ _ _ _ _
  · exact ⟨_, _, rfl⟩

/-- Leaving Freewheel or Coast changes the power state, the wake timer and the ports' links, nothing else (R375). -/
theorem wakeUp_only (s : State) : ∃ st ms ps,
    wakeUp s = { s with power := { s.power with st := st, wakeMs := ms }, fab := { s.fab with ports := ps } } := by
  unfold wakeUp
  generalize (if s.power.causes.isEmpty then PState.cruise else PState.brake) = st
  simp only
  split <;> exact ⟨_, _, _, rfl⟩

/-! ### Checks in order (R9, R299) -/

theorem firstFail_none {cs : List (Bool × Status)} : firstFail cs = none ↔ ∀ c ∈ cs, c.1 = true := by
  induction cs with
  | nil => simp [firstFail]
  | cons c cs ih => obtain ⟨ok, st⟩ := c; cases ok <;> simp [firstFail, ih]

/-- The status is that of the first check that fails. -/
theorem firstFail_some {cs : List (Bool × Status)} {st : Status} (h : firstFail cs = some st) :
    ∃ a b, cs = a ++ (false, st) :: b ∧ ∀ c ∈ a, c.1 = true := by
  induction cs with
  | nil => cases h
  | cons c cs ih =>
    obtain ⟨ok, t⟩ := c
    cases ok
    · cases h
      exact ⟨[], cs, rfl, by simp⟩
    · obtain ⟨a, b, rfl, ha⟩ := ih h
      exact ⟨(true, t) :: a, b, rfl, by simpa using ha⟩

/-- A body behind checks runs whole, or the command is refused and changes nothing. -/
theorem checked_cases (cs : List (Bool × Status)) (s : State) (body : Eff) :
    ((∀ c ∈ cs, c.1 = true) ∧ checked cs s body = body) ∨ ∃ st, firstFail cs = some st ∧ checked cs s body = Eff.stat st s := by
  unfold checked
  split
  · exact .inr ⟨_, ‹_›, rfl⟩
  · exact .inl ⟨firstFail_none.1 ‹_›, rfl⟩

/-! ### The path of a command packet (R295, R299) -/

/-- A started command is refused with a status, or it is open when its chapter runs and completes with what that
answers. -/
theorem startCmd_cases (op : Nat) (c : Cmd) (body : Body) (s : State) :
    (∃ st, startCmd op c body s = refuseHdr op c st s) ∨
    (∃ st, startCmd op c body s = complete (openOf op c) st 0 [] s) ∨
    (hdrChecks s op c = none ∧ busyChecks s op c = none ∧
      startCmd op c body s = finish (openOf op c) (body c (openCmd (openOf op c) s))) := by
  unfold startCmd
  split
  · exact .inl ⟨_, rfl⟩
  · split
    · exact .inr (.inl ⟨_, rfl⟩)
    · exact .inr (.inr ⟨‹_›, ‹_›, rfl⟩)

theorem startCmd_runs {op : Nat} {c : Cmd} {s : State} (body : Body) (h1 : hdrChecks s op c = none)
    (h2 : busyChecks s op c = none) :
    startCmd op c body s = finish (openOf op c) (body c (openCmd (openOf op c) s)) := by
  unfold startCmd
  rw [h1]
  simp only
  rw [h2]

/-- Everything a packet that meets the module in state `u` can end in: nothing, a kept or fresh reply, a refusal, waiting
at the port, or its own chapter. -/
inductive PacketEnd (op : Nat) (c : Cmd) (body : Body) (u : State) : State → Prop where
  | nothing : PacketEnd op c body u u
  | answered (r : Reply) : PacketEnd op c body u (sendReply r u)
  | refused (st : Status) : PacketEnd op c body u (complete (openOf op c) st 0 [] u)
  | badHeader (st : Status) : PacketEnd op c body u (refuseHdr op c st u)
  | held : PacketEnd op c body u { u with port.heldCmds := u.port.heldCmds ++ [{ op := BitVec.ofNat 12 op, c := c }] }
  | ran (h1 : hdrChecks u op c = none) (h2 : busyChecks u op c = none) :
      PacketEnd op c body u (finish (openOf op c) (body c (openCmd (openOf op c) u)))

theorem startCmd_end (op : Nat) (c : Cmd) (body : Body) (s : State) : PacketEnd op c body s (startCmd op c body s) := by
  rcases startCmd_cases op c body s with ⟨st, h⟩ | ⟨st, h⟩ | ⟨h1, h2, h⟩ <;> rw [h]
  · exact .badHeader st
  · exact .refused st
  · exact .ran h1 h2

/-- A packet ends so in the state it arrives in, or, by the port, in the state the module has woken to (R375). -/
theorem runPacket_end (op : Nat) (c : Cmd) (body : Body) (s : State) :
    PacketEnd op c body s (runPacket op c body s) ∨ PacketEnd op c body (wakeUp s) (runPacket op c body s) := by
  unfold runPacket
  cases c.h.src with
  | queue q =>
    refine .inl ?_
    simp only
    split
    · exact startCmd_end ..
    · exact .nothing
  | sideband =>
    refine .inl ?_
    cases s.phase <;> simp only <;> (try split) <;> first
      | exact startCmd_end ..
      | exact .refused _
      | exact .nothing
  | port =>
    simp only
    split
    · exact .inl .nothing
    · refine .inr ?_
      generalize wakeUp s = u
      cases portAdmit u op c with
      | drop => exact .nothing
      | again r => exact .answered r
      | mismatch => exact .answered _
      | refuse st => exact .refused st
      | hold => exact .held
      | run => exact startCmd_end ..

/-- A packet from a queue that exists starts while firmware runs. -/
theorem runPacket_queue {op : Nat} {c : Cmd} {s : State} {q : BitVec 13} (body : Body) (h : c.h.src = .queue q)
    (hp : s.phase = .running) (hq : s.queues.any (·.q = q) = true) :
    runPacket op c body s = startCmd op c body s := by
  unfold runPacket
  rw [h]
  simp only
  rw [hp, hq]
  rfl

/-- A packet by the sideband starts while firmware runs once a version is chosen (R410); `HELLO` chooses it. -/
theorem runPacket_sideband {op : Nat} {c : Cmd} {s : State} (body : Body) (h : c.h.src = .sideband)
    (hp : s.phase = .running) (hv : s.port.sbVersion.isNone = false ∨ op = 0x001) :
    runPacket op c body s = startCmd op c body s := by
  unfold runPacket
  rw [h]
  simp only
  rw [hp]
  rcases hv with hv | rfl
  · rw [hv]
    rfl
  · simp

/-- A packet the port admits starts in the state the module has woken to. -/
theorem runPacket_port {op : Nat} {c : Cmd} {s : State} (body : Body) (h : c.h.src = .port)
    (hp : s.phase = .running ∨ s.phase = .recoveryImage) (ha : portAdmit (wakeUp s) op c = .run) :
    runPacket op c body s = startCmd op c body (wakeUp s) := by
  unfold runPacket
  rw [h]
  simp only
  rw [ha, if_neg]
  rcases hp with hp | hp <;> simp [hp]

/-- An event row acts only while firmware runs the package (R353, R403). -/
theorem whenUp_cases (s : State) (f : State → State) :
    (s.phase = .running ∧ whenUp s f = f s) ∨ (s.phase ≠ .running ∧ whenUp s f = s) := by
  unfold whenUp
  split <;> simp_all

end Sys2Proof.Laws
end

