-- ==== Sys2Proof/Laws/State.lean ====
section
/-! SUPPORT. One lemma per field and update: what each named update of State leaves in each field. -/

namespace Sys2Proof.Laws

open Sys2Proof.Machine

/-! ### emit -/

@[simp] theorem emit_pending (m : OutMsg) (s : State) : (emit m s).pending = s.pending := rfl
@[simp] theorem emit_variant (m : OutMsg) (s : State) : (emit m s).variant = s.variant := rfl
@[simp] theorem emit_phase (m : OutMsg) (s : State) : (emit m s).phase = s.phase := rfl
@[simp] theorem emit_cause (m : OutMsg) (s : State) : (emit m s).cause = s.cause := rfl
@[simp] theorem emit_env (m : OutMsg) (s : State) : (emit m s).env = s.env := rfl
@[simp] theorem emit_freeIdx (m : OutMsg) (s : State) : (emit m s).freeIdx = s.freeIdx := rfl
@[simp] theorem emit_port (m : OutMsg) (s : State) : (emit m s).port = s.port := rfl
@[simp] theorem emit_comp (m : OutMsg) (s : State) : (emit m s).comp = s.comp := rfl
@[simp] theorem emit_issued (m : OutMsg) (s : State) : (emit m s).issued = s.issued := rfl
@[simp] theorem emit_compose (m : OutMsg) (s : State) : (emit m s).compose = s.compose := rfl
@[simp] theorem emit_drain (m : OutMsg) (s : State) : (emit m s).drain = s.drain := rfl
@[simp] theorem emit_ever (m : OutMsg) (s : State) : (emit m s).ever = s.ever := rfl
@[simp] theorem emit_held (m : OutMsg) (s : State) : (emit m s).held = s.held := rfl
@[simp] theorem emit_nextHeld (m : OutMsg) (s : State) : (emit m s).nextHeld = s.nextHeld := rfl
@[simp] theorem emit_trip (m : OutMsg) (s : State) : (emit m s).trip = s.trip := rfl
@[simp] theorem emit_prevTrip (m : OutMsg) (s : State) : (emit m s).prevTrip = s.prevTrip := rfl
@[simp] theorem emit_reportSeq (m : OutMsg) (s : State) : (emit m s).reportSeq = s.reportSeq := rfl
@[simp] theorem emit_queues (m : OutMsg) (s : State) : (emit m s).queues = s.queues := rfl
@[simp] theorem emit_rota (m : OutMsg) (s : State) : (emit m s).rota = s.rota := rfl
@[simp] theorem emit_rings (m : OutMsg) (s : State) : (emit m s).rings = s.rings := rfl
@[simp] theorem emit_late (m : OutMsg) (s : State) : (emit m s).late = s.late := rfl
@[simp] theorem emit_bells (m : OutMsg) (s : State) : (emit m s).bells = s.bells := rfl
@[simp] theorem emit_jobs (m : OutMsg) (s : State) : (emit m s).jobs = s.jobs := rfl
@[simp] theorem emit_resets (m : OutMsg) (s : State) : (emit m s).resets = s.resets := rfl
@[simp] theorem emit_store (m : OutMsg) (s : State) : (emit m s).store = s.store := rfl
@[simp] theorem emit_flash (m : OutMsg) (s : State) : (emit m s).flash = s.flash := rfl
@[simp] theorem emit_xlat (m : OutMsg) (s : State) : (emit m s).xlat = s.xlat := rfl
@[simp] theorem emit_coh (m : OutMsg) (s : State) : (emit m s).coh = s.coh := rfl
@[simp] theorem emit_sync (m : OutMsg) (s : State) : (emit m s).sync = s.sync := rfl
@[simp] theorem emit_tiles (m : OutMsg) (s : State) : (emit m s).tiles = s.tiles := rfl
@[simp] theorem emit_eng (m : OutMsg) (s : State) : (emit m s).eng = s.eng := rfl
@[simp] theorem emit_fab (m : OutMsg) (s : State) : (emit m s).fab = s.fab := rfl
@[simp] theorem emit_pair (m : OutMsg) (s : State) : (emit m s).pair = s.pair := rfl
@[simp] theorem emit_expelled (m : OutMsg) (s : State) : (emit m s).expelled = s.expelled := rfl
@[simp] theorem emit_redirect (m : OutMsg) (s : State) : (emit m s).redirect = s.redirect := rfl
@[simp] theorem emit_nv (m : OutMsg) (s : State) : (emit m s).nv = s.nv := rfl
@[simp] theorem emit_fw (m : OutMsg) (s : State) : (emit m s).fw = s.fw := rfl
@[simp] theorem emit_err (m : OutMsg) (s : State) : (emit m s).err = s.err := rfl
@[simp] theorem emit_power (m : OutMsg) (s : State) : (emit m s).power = s.power := rfl
@[simp] theorem emit_time (m : OutMsg) (s : State) : (emit m s).time = s.time := rfl
@[simp] theorem emit_side (m : OutMsg) (s : State) : (emit m s).side = s.side := rfl
@[simp] theorem emit_out (m : OutMsg) (s : State) : (emit m s).out = s.out ++ [m] := rfl

/-! ### takeFree_snd -/

@[simp] theorem takeFree_snd_pending (s : State) : ((takeFree s).2).pending = s.pending := rfl
@[simp] theorem takeFree_snd_variant (s : State) : ((takeFree s).2).variant = s.variant := rfl
@[simp] theorem takeFree_snd_phase (s : State) : ((takeFree s).2).phase = s.phase := rfl
@[simp] theorem takeFree_snd_cause (s : State) : ((takeFree s).2).cause = s.cause := rfl
@[simp] theorem takeFree_snd_env (s : State) : ((takeFree s).2).env = s.env := rfl
@[simp] theorem takeFree_snd_freeIdx (s : State) : ((takeFree s).2).freeIdx = s.freeIdx + 1 := rfl
@[simp] theorem takeFree_snd_port (s : State) : ((takeFree s).2).port = s.port := rfl
@[simp] theorem takeFree_snd_comp (s : State) : ((takeFree s).2).comp = s.comp := rfl
@[simp] theorem takeFree_snd_issued (s : State) : ((takeFree s).2).issued = s.issued := rfl
@[simp] theorem takeFree_snd_compose (s : State) : ((takeFree s).2).compose = s.compose := rfl
@[simp] theorem takeFree_snd_drain (s : State) : ((takeFree s).2).drain = s.drain := rfl
@[simp] theorem takeFree_snd_ever (s : State) : ((takeFree s).2).ever = s.ever := rfl
@[simp] theorem takeFree_snd_held (s : State) : ((takeFree s).2).held = s.held := rfl
@[simp] theorem takeFree_snd_nextHeld (s : State) : ((takeFree s).2).nextHeld = s.nextHeld := rfl
@[simp] theorem takeFree_snd_trip (s : State) : ((takeFree s).2).trip = s.trip := rfl
@[simp] theorem takeFree_snd_prevTrip (s : State) : ((takeFree s).2).prevTrip = s.prevTrip := rfl
@[simp] theorem takeFree_snd_reportSeq (s : State) : ((takeFree s).2).reportSeq = s.reportSeq := rfl
@[simp] theorem takeFree_snd_queues (s : State) : ((takeFree s).2).queues = s.queues := rfl
@[simp] theorem takeFree_snd_rota (s : State) : ((takeFree s).2).rota = s.rota := rfl
@[simp] theorem takeFree_snd_rings (s : State) : ((takeFree s).2).rings = s.rings := rfl
@[simp] theorem takeFree_snd_late (s : State) : ((takeFree s).2).late = s.late := rfl
@[simp] theorem takeFree_snd_bells (s : State) : ((takeFree s).2).bells = s.bells := rfl
@[simp] theorem takeFree_snd_jobs (s : State) : ((takeFree s).2).jobs = s.jobs := rfl
@[simp] theorem takeFree_snd_resets (s : State) : ((takeFree s).2).resets = s.resets := rfl
@[simp] theorem takeFree_snd_store (s : State) : ((takeFree s).2).store = s.store := rfl
@[simp] theorem takeFree_snd_flash (s : State) : ((takeFree s).2).flash = s.flash := rfl
@[simp] theorem takeFree_snd_xlat (s : State) : ((takeFree s).2).xlat = s.xlat := rfl
@[simp] theorem takeFree_snd_coh (s : State) : ((takeFree s).2).coh = s.coh := rfl
@[simp] theorem takeFree_snd_sync (s : State) : ((takeFree s).2).sync = s.sync := rfl
@[simp] theorem takeFree_snd_tiles (s : State) : ((takeFree s).2).tiles = s.tiles := rfl
@[simp] theorem takeFree_snd_eng (s : State) : ((takeFree s).2).eng = s.eng := rfl
@[simp] theorem takeFree_snd_fab (s : State) : ((takeFree s).2).fab = s.fab := rfl
@[simp] theorem takeFree_snd_pair (s : State) : ((takeFree s).2).pair = s.pair := rfl
@[simp] theorem takeFree_snd_expelled (s : State) : ((takeFree s).2).expelled = s.expelled := rfl
@[simp] theorem takeFree_snd_redirect (s : State) : ((takeFree s).2).redirect = s.redirect := rfl
@[simp] theorem takeFree_snd_nv (s : State) : ((takeFree s).2).nv = s.nv := rfl
@[simp] theorem takeFree_snd_fw (s : State) : ((takeFree s).2).fw = s.fw := rfl
@[simp] theorem takeFree_snd_err (s : State) : ((takeFree s).2).err = s.err := rfl
@[simp] theorem takeFree_snd_power (s : State) : ((takeFree s).2).power = s.power := rfl
@[simp] theorem takeFree_snd_time (s : State) : ((takeFree s).2).time = s.time := rfl
@[simp] theorem takeFree_snd_side (s : State) : ((takeFree s).2).side = s.side := rfl
@[simp] theorem takeFree_snd_out (s : State) : ((takeFree s).2).out = s.out := rfl

/-! ### updPort -/

@[simp] theorem updPort_pending (p : Nat) (f : FPort → FPort) (s : State) : (updPort p f s).pending = s.pending := rfl
@[simp] theorem updPort_variant (p : Nat) (f : FPort → FPort) (s : State) : (updPort p f s).variant = s.variant := rfl
@[simp] theorem updPort_phase (p : Nat) (f : FPort → FPort) (s : State) : (updPort p f s).phase = s.phase := rfl
@[simp] theorem updPort_cause (p : Nat) (f : FPort → FPort) (s : State) : (updPort p f s).cause = s.cause := rfl
@[simp] theorem updPort_env (p : Nat) (f : FPort → FPort) (s : State) : (updPort p f s).env = s.env := rfl
@[simp] theorem updPort_freeIdx (p : Nat) (f : FPort → FPort) (s : State) : (updPort p f s).freeIdx = s.freeIdx := rfl
@[simp] theorem updPort_port (p : Nat) (f : FPort → FPort) (s : State) : (updPort p f s).port = s.port := rfl
@[simp] theorem updPort_comp (p : Nat) (f : FPort → FPort) (s : State) : (updPort p f s).comp = s.comp := rfl
@[simp] theorem updPort_issued (p : Nat) (f : FPort → FPort) (s : State) : (updPort p f s).issued = s.issued := rfl
@[simp] theorem updPort_compose (p : Nat) (f : FPort → FPort) (s : State) : (updPort p f s).compose = s.compose := rfl
@[simp] theorem updPort_drain (p : Nat) (f : FPort → FPort) (s : State) : (updPort p f s).drain = s.drain := rfl
@[simp] theorem updPort_ever (p : Nat) (f : FPort → FPort) (s : State) : (updPort p f s).ever = s.ever := rfl
@[simp] theorem updPort_held (p : Nat) (f : FPort → FPort) (s : State) : (updPort p f s).held = s.held := rfl
@[simp] theorem updPort_nextHeld (p : Nat) (f : FPort → FPort) (s : State) : (updPort p f s).nextHeld = s.nextHeld := rfl
@[simp] theorem updPort_trip (p : Nat) (f : FPort → FPort) (s : State) : (updPort p f s).trip = s.trip := rfl
@[simp] theorem updPort_prevTrip (p : Nat) (f : FPort → FPort) (s : State) : (updPort p f s).prevTrip = s.prevTrip := rfl
@[simp] theorem updPort_reportSeq (p : Nat) (f : FPort → FPort) (s : State) : (updPort p f s).reportSeq = s.reportSeq := rfl
@[simp] theorem updPort_queues (p : Nat) (f : FPort → FPort) (s : State) : (updPort p f s).queues = s.queues := rfl
@[simp] theorem updPort_rota (p : Nat) (f : FPort → FPort) (s : State) : (updPort p f s).rota = s.rota := rfl
@[simp] theorem updPort_rings (p : Nat) (f : FPort → FPort) (s : State) : (updPort p f s).rings = s.rings := rfl
@[simp] theorem updPort_late (p : Nat) (f : FPort → FPort) (s : State) : (updPort p f s).late = s.late := rfl
@[simp] theorem updPort_bells (p : Nat) (f : FPort → FPort) (s : State) : (updPort p f s).bells = s.bells := rfl
@[simp] theorem updPort_jobs (p : Nat) (f : FPort → FPort) (s : State) : (updPort p f s).jobs = s.jobs := rfl
@[simp] theorem updPort_resets (p : Nat) (f : FPort → FPort) (s : State) : (updPort p f s).resets = s.resets := rfl
@[simp] theorem updPort_store (p : Nat) (f : FPort → FPort) (s : State) : (updPort p f s).store = s.store := rfl
@[simp] theorem updPort_flash (p : Nat) (f : FPort → FPort) (s : State) : (updPort p f s).flash = s.flash := rfl
@[simp] theorem updPort_xlat (p : Nat) (f : FPort → FPort) (s : State) : (updPort p f s).xlat = s.xlat := rfl
@[simp] theorem updPort_coh (p : Nat) (f : FPort → FPort) (s : State) : (updPort p f s).coh = s.coh := rfl
@[simp] theorem updPort_sync (p : Nat) (f : FPort → FPort) (s : State) : (updPort p f s).sync = s.sync := rfl
@[simp] theorem updPort_tiles (p : Nat) (f : FPort → FPort) (s : State) : (updPort p f s).tiles = s.tiles := rfl
@[simp] theorem updPort_eng (p : Nat) (f : FPort → FPort) (s : State) : (updPort p f s).eng = s.eng := rfl
@[simp] theorem updPort_fab (p : Nat) (f : FPort → FPort) (s : State) : (updPort p f s).fab = { s.fab with ports := updAt s.fab.ports p f } := rfl
@[simp] theorem updPort_pair (p : Nat) (f : FPort → FPort) (s : State) : (updPort p f s).pair = s.pair := rfl
@[simp] theorem updPort_expelled (p : Nat) (f : FPort → FPort) (s : State) : (updPort p f s).expelled = s.expelled := rfl
@[simp] theorem updPort_redirect (p : Nat) (f : FPort → FPort) (s : State) : (updPort p f s).redirect = s.redirect := rfl
@[simp] theorem updPort_nv (p : Nat) (f : FPort → FPort) (s : State) : (updPort p f s).nv = s.nv := rfl
@[simp] theorem updPort_fw (p : Nat) (f : FPort → FPort) (s : State) : (updPort p f s).fw = s.fw := rfl
@[simp] theorem updPort_err (p : Nat) (f : FPort → FPort) (s : State) : (updPort p f s).err = s.err := rfl
@[simp] theorem updPort_power (p : Nat) (f : FPort → FPort) (s : State) : (updPort p f s).power = s.power := rfl
@[simp] theorem updPort_time (p : Nat) (f : FPort → FPort) (s : State) : (updPort p f s).time = s.time := rfl
@[simp] theorem updPort_side (p : Nat) (f : FPort → FPort) (s : State) : (updPort p f s).side = s.side := rfl
@[simp] theorem updPort_out (p : Nat) (f : FPort → FPort) (s : State) : (updPort p f s).out = s.out := rfl

/-! ### updTile -/

@[simp] theorem updTile_pending (t : BitVec 10) (f : Tile → Tile) (s : State) : (updTile t f s).pending = s.pending := rfl
@[simp] theorem updTile_variant (t : BitVec 10) (f : Tile → Tile) (s : State) : (updTile t f s).variant = s.variant := rfl
@[simp] theorem updTile_phase (t : BitVec 10) (f : Tile → Tile) (s : State) : (updTile t f s).phase = s.phase := rfl
@[simp] theorem updTile_cause (t : BitVec 10) (f : Tile → Tile) (s : State) : (updTile t f s).cause = s.cause := rfl
@[simp] theorem updTile_env (t : BitVec 10) (f : Tile → Tile) (s : State) : (updTile t f s).env = s.env := rfl
@[simp] theorem updTile_freeIdx (t : BitVec 10) (f : Tile → Tile) (s : State) : (updTile t f s).freeIdx = s.freeIdx := rfl
@[simp] theorem updTile_port (t : BitVec 10) (f : Tile → Tile) (s : State) : (updTile t f s).port = s.port := rfl
@[simp] theorem updTile_comp (t : BitVec 10) (f : Tile → Tile) (s : State) : (updTile t f s).comp = s.comp := rfl
@[simp] theorem updTile_issued (t : BitVec 10) (f : Tile → Tile) (s : State) : (updTile t f s).issued = s.issued := rfl
@[simp] theorem updTile_compose (t : BitVec 10) (f : Tile → Tile) (s : State) : (updTile t f s).compose = s.compose := rfl
@[simp] theorem updTile_drain (t : BitVec 10) (f : Tile → Tile) (s : State) : (updTile t f s).drain = s.drain := rfl
@[simp] theorem updTile_ever (t : BitVec 10) (f : Tile → Tile) (s : State) : (updTile t f s).ever = s.ever := rfl
@[simp] theorem updTile_held (t : BitVec 10) (f : Tile → Tile) (s : State) : (updTile t f s).held = s.held := rfl
@[simp] theorem updTile_nextHeld (t : BitVec 10) (f : Tile → Tile) (s : State) : (updTile t f s).nextHeld = s.nextHeld := rfl
@[simp] theorem updTile_trip (t : BitVec 10) (f : Tile → Tile) (s : State) : (updTile t f s).trip = s.trip := rfl
@[simp] theorem updTile_prevTrip (t : BitVec 10) (f : Tile → Tile) (s : State) : (updTile t f s).prevTrip = s.prevTrip := rfl
@[simp] theorem updTile_reportSeq (t : BitVec 10) (f : Tile → Tile) (s : State) : (updTile t f s).reportSeq = s.reportSeq := rfl
@[simp] theorem updTile_queues (t : BitVec 10) (f : Tile → Tile) (s : State) : (updTile t f s).queues = s.queues := rfl
@[simp] theorem updTile_rota (t : BitVec 10) (f : Tile → Tile) (s : State) : (updTile t f s).rota = s.rota := rfl
@[simp] theorem updTile_rings (t : BitVec 10) (f : Tile → Tile) (s : State) : (updTile t f s).rings = s.rings := rfl
@[simp] theorem updTile_late (t : BitVec 10) (f : Tile → Tile) (s : State) : (updTile t f s).late = s.late := rfl
@[simp] theorem updTile_bells (t : BitVec 10) (f : Tile → Tile) (s : State) : (updTile t f s).bells = s.bells := rfl
@[simp] theorem updTile_jobs (t : BitVec 10) (f : Tile → Tile) (s : State) : (updTile t f s).jobs = s.jobs := rfl
@[simp] theorem updTile_resets (t : BitVec 10) (f : Tile → Tile) (s : State) : (updTile t f s).resets = s.resets := rfl
@[simp] theorem updTile_store (t : BitVec 10) (f : Tile → Tile) (s : State) : (updTile t f s).store = s.store := rfl
@[simp] theorem updTile_flash (t : BitVec 10) (f : Tile → Tile) (s : State) : (updTile t f s).flash = s.flash := rfl
@[simp] theorem updTile_xlat (t : BitVec 10) (f : Tile → Tile) (s : State) : (updTile t f s).xlat = s.xlat := rfl
@[simp] theorem updTile_coh (t : BitVec 10) (f : Tile → Tile) (s : State) : (updTile t f s).coh = s.coh := rfl
@[simp] theorem updTile_sync (t : BitVec 10) (f : Tile → Tile) (s : State) : (updTile t f s).sync = s.sync := rfl
@[simp] theorem updTile_tiles (t : BitVec 10) (f : Tile → Tile) (s : State) : (updTile t f s).tiles = updIf s.tiles (·.id = t) f := rfl
@[simp] theorem updTile_eng (t : BitVec 10) (f : Tile → Tile) (s : State) : (updTile t f s).eng = s.eng := rfl
@[simp] theorem updTile_fab (t : BitVec 10) (f : Tile → Tile) (s : State) : (updTile t f s).fab = s.fab := rfl
@[simp] theorem updTile_pair (t : BitVec 10) (f : Tile → Tile) (s : State) : (updTile t f s).pair = s.pair := rfl
@[simp] theorem updTile_expelled (t : BitVec 10) (f : Tile → Tile) (s : State) : (updTile t f s).expelled = s.expelled := rfl
@[simp] theorem updTile_redirect (t : BitVec 10) (f : Tile → Tile) (s : State) : (updTile t f s).redirect = s.redirect := rfl
@[simp] theorem updTile_nv (t : BitVec 10) (f : Tile → Tile) (s : State) : (updTile t f s).nv = s.nv := rfl
@[simp] theorem updTile_fw (t : BitVec 10) (f : Tile → Tile) (s : State) : (updTile t f s).fw = s.fw := rfl
@[simp] theorem updTile_err (t : BitVec 10) (f : Tile → Tile) (s : State) : (updTile t f s).err = s.err := rfl
@[simp] theorem updTile_power (t : BitVec 10) (f : Tile → Tile) (s : State) : (updTile t f s).power = s.power := rfl
@[simp] theorem updTile_time (t : BitVec 10) (f : Tile → Tile) (s : State) : (updTile t f s).time = s.time := rfl
@[simp] theorem updTile_side (t : BitVec 10) (f : Tile → Tile) (s : State) : (updTile t f s).side = s.side := rfl
@[simp] theorem updTile_out (t : BitVec 10) (f : Tile → Tile) (s : State) : (updTile t f s).out = s.out := rfl

/-! ### updCtx -/

@[simp] theorem updCtx_pending (t : BitVec 10) (c : BitVec 4) (f : Ctx → Ctx) (s : State) : (updCtx t c f s).pending = s.pending := rfl
@[simp] theorem updCtx_variant (t : BitVec 10) (c : BitVec 4) (f : Ctx → Ctx) (s : State) : (updCtx t c f s).variant = s.variant := rfl
@[simp] theorem updCtx_phase (t : BitVec 10) (c : BitVec 4) (f : Ctx → Ctx) (s : State) : (updCtx t c f s).phase = s.phase := rfl
@[simp] theorem updCtx_cause (t : BitVec 10) (c : BitVec 4) (f : Ctx → Ctx) (s : State) : (updCtx t c f s).cause = s.cause := rfl
@[simp] theorem updCtx_env (t : BitVec 10) (c : BitVec 4) (f : Ctx → Ctx) (s : State) : (updCtx t c f s).env = s.env := rfl
@[simp] theorem updCtx_freeIdx (t : BitVec 10) (c : BitVec 4) (f : Ctx → Ctx) (s : State) : (updCtx t c f s).freeIdx = s.freeIdx := rfl
@[simp] theorem updCtx_port (t : BitVec 10) (c : BitVec 4) (f : Ctx → Ctx) (s : State) : (updCtx t c f s).port = s.port := rfl
@[simp] theorem updCtx_comp (t : BitVec 10) (c : BitVec 4) (f : Ctx → Ctx) (s : State) : (updCtx t c f s).comp = s.comp := rfl
@[simp] theorem updCtx_issued (t : BitVec 10) (c : BitVec 4) (f : Ctx → Ctx) (s : State) : (updCtx t c f s).issued = s.issued := rfl
@[simp] theorem updCtx_compose (t : BitVec 10) (c : BitVec 4) (f : Ctx → Ctx) (s : State) : (updCtx t c f s).compose = s.compose := rfl
@[simp] theorem updCtx_drain (t : BitVec 10) (c : BitVec 4) (f : Ctx → Ctx) (s : State) : (updCtx t c f s).drain = s.drain := rfl
@[simp] theorem updCtx_ever (t : BitVec 10) (c : BitVec 4) (f : Ctx → Ctx) (s : State) : (updCtx t c f s).ever = s.ever := rfl
@[simp] theorem updCtx_held (t : BitVec 10) (c : BitVec 4) (f : Ctx → Ctx) (s : State) : (updCtx t c f s).held = s.held := rfl
@[simp] theorem updCtx_nextHeld (t : BitVec 10) (c : BitVec 4) (f : Ctx → Ctx) (s : State) : (updCtx t c f s).nextHeld = s.nextHeld := rfl
@[simp] theorem updCtx_trip (t : BitVec 10) (c : BitVec 4) (f : Ctx → Ctx) (s : State) : (updCtx t c f s).trip = s.trip := rfl
@[simp] theorem updCtx_prevTrip (t : BitVec 10) (c : BitVec 4) (f : Ctx → Ctx) (s : State) : (updCtx t c f s).prevTrip = s.prevTrip := rfl
@[simp] theorem updCtx_reportSeq (t : BitVec 10) (c : BitVec 4) (f : Ctx → Ctx) (s : State) : (updCtx t c f s).reportSeq = s.reportSeq := rfl
@[simp] theorem updCtx_queues (t : BitVec 10) (c : BitVec 4) (f : Ctx → Ctx) (s : State) : (updCtx t c f s).queues = s.queues := rfl
@[simp] theorem updCtx_rota (t : BitVec 10) (c : BitVec 4) (f : Ctx → Ctx) (s : State) : (updCtx t c f s).rota = s.rota := rfl
@[simp] theorem updCtx_rings (t : BitVec 10) (c : BitVec 4) (f : Ctx → Ctx) (s : State) : (updCtx t c f s).rings = s.rings := rfl
@[simp] theorem updCtx_late (t : BitVec 10) (c : BitVec 4) (f : Ctx → Ctx) (s : State) : (updCtx t c f s).late = s.late := rfl
@[simp] theorem updCtx_bells (t : BitVec 10) (c : BitVec 4) (f : Ctx → Ctx) (s : State) : (updCtx t c f s).bells = s.bells := rfl
@[simp] theorem updCtx_jobs (t : BitVec 10) (c : BitVec 4) (f : Ctx → Ctx) (s : State) : (updCtx t c f s).jobs = s.jobs := rfl
@[simp] theorem updCtx_resets (t : BitVec 10) (c : BitVec 4) (f : Ctx → Ctx) (s : State) : (updCtx t c f s).resets = s.resets := rfl
@[simp] theorem updCtx_store (t : BitVec 10) (c : BitVec 4) (f : Ctx → Ctx) (s : State) : (updCtx t c f s).store = s.store := rfl
@[simp] theorem updCtx_flash (t : BitVec 10) (c : BitVec 4) (f : Ctx → Ctx) (s : State) : (updCtx t c f s).flash = s.flash := rfl
@[simp] theorem updCtx_xlat (t : BitVec 10) (c : BitVec 4) (f : Ctx → Ctx) (s : State) : (updCtx t c f s).xlat = s.xlat := rfl
@[simp] theorem updCtx_coh (t : BitVec 10) (c : BitVec 4) (f : Ctx → Ctx) (s : State) : (updCtx t c f s).coh = s.coh := rfl
@[simp] theorem updCtx_sync (t : BitVec 10) (c : BitVec 4) (f : Ctx → Ctx) (s : State) : (updCtx t c f s).sync = s.sync := rfl
@[simp] theorem updCtx_tiles (t : BitVec 10) (c : BitVec 4) (f : Ctx → Ctx) (s : State) : (updCtx t c f s).tiles = updIf s.tiles (·.id = t) fun x => { x with ctxs := updAt x.ctxs c.toNat f } := rfl
@[simp] theorem updCtx_eng (t : BitVec 10) (c : BitVec 4) (f : Ctx → Ctx) (s : State) : (updCtx t c f s).eng = s.eng := rfl
@[simp] theorem updCtx_fab (t : BitVec 10) (c : BitVec 4) (f : Ctx → Ctx) (s : State) : (updCtx t c f s).fab = s.fab := rfl
@[simp] theorem updCtx_pair (t : BitVec 10) (c : BitVec 4) (f : Ctx → Ctx) (s : State) : (updCtx t c f s).pair = s.pair := rfl
@[simp] theorem updCtx_expelled (t : BitVec 10) (c : BitVec 4) (f : Ctx → Ctx) (s : State) : (updCtx t c f s).expelled = s.expelled := rfl
@[simp] theorem updCtx_redirect (t : BitVec 10) (c : BitVec 4) (f : Ctx → Ctx) (s : State) : (updCtx t c f s).redirect = s.redirect := rfl
@[simp] theorem updCtx_nv (t : BitVec 10) (c : BitVec 4) (f : Ctx → Ctx) (s : State) : (updCtx t c f s).nv = s.nv := rfl
@[simp] theorem updCtx_fw (t : BitVec 10) (c : BitVec 4) (f : Ctx → Ctx) (s : State) : (updCtx t c f s).fw = s.fw := rfl
@[simp] theorem updCtx_err (t : BitVec 10) (c : BitVec 4) (f : Ctx → Ctx) (s : State) : (updCtx t c f s).err = s.err := rfl
@[simp] theorem updCtx_power (t : BitVec 10) (c : BitVec 4) (f : Ctx → Ctx) (s : State) : (updCtx t c f s).power = s.power := rfl
@[simp] theorem updCtx_time (t : BitVec 10) (c : BitVec 4) (f : Ctx → Ctx) (s : State) : (updCtx t c f s).time = s.time := rfl
@[simp] theorem updCtx_side (t : BitVec 10) (c : BitVec 4) (f : Ctx → Ctx) (s : State) : (updCtx t c f s).side = s.side := rfl
@[simp] theorem updCtx_out (t : BitVec 10) (c : BitVec 4) (f : Ctx → Ctx) (s : State) : (updCtx t c f s).out = s.out := rfl

/-! ### putReg -/

@[simp] theorem putReg_pending (t : BitVec 10) (c : BitVec 4) (r : BitVec 5) (v : Word) (s : State) : (putReg t c r v s).pending = s.pending := rfl
@[simp] theorem putReg_variant (t : BitVec 10) (c : BitVec 4) (r : BitVec 5) (v : Word) (s : State) : (putReg t c r v s).variant = s.variant := rfl
@[simp] theorem putReg_phase (t : BitVec 10) (c : BitVec 4) (r : BitVec 5) (v : Word) (s : State) : (putReg t c r v s).phase = s.phase := rfl
@[simp] theorem putReg_cause (t : BitVec 10) (c : BitVec 4) (r : BitVec 5) (v : Word) (s : State) : (putReg t c r v s).cause = s.cause := rfl
@[simp] theorem putReg_env (t : BitVec 10) (c : BitVec 4) (r : BitVec 5) (v : Word) (s : State) : (putReg t c r v s).env = s.env := rfl
@[simp] theorem putReg_freeIdx (t : BitVec 10) (c : BitVec 4) (r : BitVec 5) (v : Word) (s : State) : (putReg t c r v s).freeIdx = s.freeIdx := rfl
@[simp] theorem putReg_port (t : BitVec 10) (c : BitVec 4) (r : BitVec 5) (v : Word) (s : State) : (putReg t c r v s).port = s.port := rfl
@[simp] theorem putReg_comp (t : BitVec 10) (c : BitVec 4) (r : BitVec 5) (v : Word) (s : State) : (putReg t c r v s).comp = s.comp := rfl
@[simp] theorem putReg_issued (t : BitVec 10) (c : BitVec 4) (r : BitVec 5) (v : Word) (s : State) : (putReg t c r v s).issued = s.issued := rfl
@[simp] theorem putReg_compose (t : BitVec 10) (c : BitVec 4) (r : BitVec 5) (v : Word) (s : State) : (putReg t c r v s).compose = s.compose := rfl
@[simp] theorem putReg_drain (t : BitVec 10) (c : BitVec 4) (r : BitVec 5) (v : Word) (s : State) : (putReg t c r v s).drain = s.drain := rfl
@[simp] theorem putReg_ever (t : BitVec 10) (c : BitVec 4) (r : BitVec 5) (v : Word) (s : State) : (putReg t c r v s).ever = s.ever := rfl
@[simp] theorem putReg_held (t : BitVec 10) (c : BitVec 4) (r : BitVec 5) (v : Word) (s : State) : (putReg t c r v s).held = s.held := rfl
@[simp] theorem putReg_nextHeld (t : BitVec 10) (c : BitVec 4) (r : BitVec 5) (v : Word) (s : State) : (putReg t c r v s).nextHeld = s.nextHeld := rfl
@[simp] theorem putReg_trip (t : BitVec 10) (c : BitVec 4) (r : BitVec 5) (v : Word) (s : State) : (putReg t c r v s).trip = s.trip := rfl
@[simp] theorem putReg_prevTrip (t : BitVec 10) (c : BitVec 4) (r : BitVec 5) (v : Word) (s : State) : (putReg t c r v s).prevTrip = s.prevTrip := rfl
@[simp] theorem putReg_reportSeq (t : BitVec 10) (c : BitVec 4) (r : BitVec 5) (v : Word) (s : State) : (putReg t c r v s).reportSeq = s.reportSeq := rfl
@[simp] theorem putReg_queues (t : BitVec 10) (c : BitVec 4) (r : BitVec 5) (v : Word) (s : State) : (putReg t c r v s).queues = s.queues := rfl
@[simp] theorem putReg_rota (t : BitVec 10) (c : BitVec 4) (r : BitVec 5) (v : Word) (s : State) : (putReg t c r v s).rota = s.rota := rfl
@[simp] theorem putReg_rings (t : BitVec 10) (c : BitVec 4) (r : BitVec 5) (v : Word) (s : State) : (putReg t c r v s).rings = s.rings := rfl
@[simp] theorem putReg_late (t : BitVec 10) (c : BitVec 4) (r : BitVec 5) (v : Word) (s : State) : (putReg t c r v s).late = s.late := rfl
@[simp] theorem putReg_bells (t : BitVec 10) (c : BitVec 4) (r : BitVec 5) (v : Word) (s : State) : (putReg t c r v s).bells = s.bells := rfl
@[simp] theorem putReg_jobs (t : BitVec 10) (c : BitVec 4) (r : BitVec 5) (v : Word) (s : State) : (putReg t c r v s).jobs = s.jobs := rfl
@[simp] theorem putReg_resets (t : BitVec 10) (c : BitVec 4) (r : BitVec 5) (v : Word) (s : State) : (putReg t c r v s).resets = s.resets := rfl
@[simp] theorem putReg_store (t : BitVec 10) (c : BitVec 4) (r : BitVec 5) (v : Word) (s : State) : (putReg t c r v s).store = s.store := rfl
@[simp] theorem putReg_flash (t : BitVec 10) (c : BitVec 4) (r : BitVec 5) (v : Word) (s : State) : (putReg t c r v s).flash = s.flash := rfl
@[simp] theorem putReg_xlat (t : BitVec 10) (c : BitVec 4) (r : BitVec 5) (v : Word) (s : State) : (putReg t c r v s).xlat = s.xlat := rfl
@[simp] theorem putReg_coh (t : BitVec 10) (c : BitVec 4) (r : BitVec 5) (v : Word) (s : State) : (putReg t c r v s).coh = s.coh := rfl
@[simp] theorem putReg_sync (t : BitVec 10) (c : BitVec 4) (r : BitVec 5) (v : Word) (s : State) : (putReg t c r v s).sync = s.sync := rfl
@[simp] theorem putReg_tiles (t : BitVec 10) (c : BitVec 4) (r : BitVec 5) (v : Word) (s : State) : (putReg t c r v s).tiles = (updCtx t c (fun k => k.putS r v) s).tiles := rfl
@[simp] theorem putReg_eng (t : BitVec 10) (c : BitVec 4) (r : BitVec 5) (v : Word) (s : State) : (putReg t c r v s).eng = s.eng := rfl
@[simp] theorem putReg_fab (t : BitVec 10) (c : BitVec 4) (r : BitVec 5) (v : Word) (s : State) : (putReg t c r v s).fab = s.fab := rfl
@[simp] theorem putReg_pair (t : BitVec 10) (c : BitVec 4) (r : BitVec 5) (v : Word) (s : State) : (putReg t c r v s).pair = s.pair := rfl
@[simp] theorem putReg_expelled (t : BitVec 10) (c : BitVec 4) (r : BitVec 5) (v : Word) (s : State) : (putReg t c r v s).expelled = s.expelled := rfl
@[simp] theorem putReg_redirect (t : BitVec 10) (c : BitVec 4) (r : BitVec 5) (v : Word) (s : State) : (putReg t c r v s).redirect = s.redirect := rfl
@[simp] theorem putReg_nv (t : BitVec 10) (c : BitVec 4) (r : BitVec 5) (v : Word) (s : State) : (putReg t c r v s).nv = s.nv := rfl
@[simp] theorem putReg_fw (t : BitVec 10) (c : BitVec 4) (r : BitVec 5) (v : Word) (s : State) : (putReg t c r v s).fw = s.fw := rfl
@[simp] theorem putReg_err (t : BitVec 10) (c : BitVec 4) (r : BitVec 5) (v : Word) (s : State) : (putReg t c r v s).err = s.err := rfl
@[simp] theorem putReg_power (t : BitVec 10) (c : BitVec 4) (r : BitVec 5) (v : Word) (s : State) : (putReg t c r v s).power = s.power := rfl
@[simp] theorem putReg_time (t : BitVec 10) (c : BitVec 4) (r : BitVec 5) (v : Word) (s : State) : (putReg t c r v s).time = s.time := rfl
@[simp] theorem putReg_side (t : BitVec 10) (c : BitVec 4) (r : BitVec 5) (v : Word) (s : State) : (putReg t c r v s).side = s.side := rfl
@[simp] theorem putReg_out (t : BitVec 10) (c : BitVec 4) (r : BitVec 5) (v : Word) (s : State) : (putReg t c r v s).out = s.out := rfl

/-! ### setCtxSt -/

@[simp] theorem setCtxSt_pending (t : BitVec 10) (c : BitVec 4) (x : CtxSt) (s : State) : (setCtxSt t c x s).pending = s.pending := rfl
@[simp] theorem setCtxSt_variant (t : BitVec 10) (c : BitVec 4) (x : CtxSt) (s : State) : (setCtxSt t c x s).variant = s.variant := rfl
@[simp] theorem setCtxSt_phase (t : BitVec 10) (c : BitVec 4) (x : CtxSt) (s : State) : (setCtxSt t c x s).phase = s.phase := rfl
@[simp] theorem setCtxSt_cause (t : BitVec 10) (c : BitVec 4) (x : CtxSt) (s : State) : (setCtxSt t c x s).cause = s.cause := rfl
@[simp] theorem setCtxSt_env (t : BitVec 10) (c : BitVec 4) (x : CtxSt) (s : State) : (setCtxSt t c x s).env = s.env := rfl
@[simp] theorem setCtxSt_freeIdx (t : BitVec 10) (c : BitVec 4) (x : CtxSt) (s : State) : (setCtxSt t c x s).freeIdx = s.freeIdx := rfl
@[simp] theorem setCtxSt_port (t : BitVec 10) (c : BitVec 4) (x : CtxSt) (s : State) : (setCtxSt t c x s).port = s.port := rfl
@[simp] theorem setCtxSt_comp (t : BitVec 10) (c : BitVec 4) (x : CtxSt) (s : State) : (setCtxSt t c x s).comp = s.comp := rfl
@[simp] theorem setCtxSt_issued (t : BitVec 10) (c : BitVec 4) (x : CtxSt) (s : State) : (setCtxSt t c x s).issued = s.issued := rfl
@[simp] theorem setCtxSt_compose (t : BitVec 10) (c : BitVec 4) (x : CtxSt) (s : State) : (setCtxSt t c x s).compose = s.compose := rfl
@[simp] theorem setCtxSt_drain (t : BitVec 10) (c : BitVec 4) (x : CtxSt) (s : State) : (setCtxSt t c x s).drain = s.drain := rfl
@[simp] theorem setCtxSt_ever (t : BitVec 10) (c : BitVec 4) (x : CtxSt) (s : State) : (setCtxSt t c x s).ever = s.ever := rfl
@[simp] theorem setCtxSt_held (t : BitVec 10) (c : BitVec 4) (x : CtxSt) (s : State) : (setCtxSt t c x s).held = s.held := rfl
@[simp] theorem setCtxSt_nextHeld (t : BitVec 10) (c : BitVec 4) (x : CtxSt) (s : State) : (setCtxSt t c x s).nextHeld = s.nextHeld := rfl
@[simp] theorem setCtxSt_trip (t : BitVec 10) (c : BitVec 4) (x : CtxSt) (s : State) : (setCtxSt t c x s).trip = s.trip := rfl
@[simp] theorem setCtxSt_prevTrip (t : BitVec 10) (c : BitVec 4) (x : CtxSt) (s : State) : (setCtxSt t c x s).prevTrip = s.prevTrip := rfl
@[simp] theorem setCtxSt_reportSeq (t : BitVec 10) (c : BitVec 4) (x : CtxSt) (s : State) : (setCtxSt t c x s).reportSeq = s.reportSeq := rfl
@[simp] theorem setCtxSt_queues (t : BitVec 10) (c : BitVec 4) (x : CtxSt) (s : State) : (setCtxSt t c x s).queues = s.queues := rfl
@[simp] theorem setCtxSt_rota (t : BitVec 10) (c : BitVec 4) (x : CtxSt) (s : State) : (setCtxSt t c x s).rota = s.rota := rfl
@[simp] theorem setCtxSt_rings (t : BitVec 10) (c : BitVec 4) (x : CtxSt) (s : State) : (setCtxSt t c x s).rings = s.rings := rfl
@[simp] theorem setCtxSt_late (t : BitVec 10) (c : BitVec 4) (x : CtxSt) (s : State) : (setCtxSt t c x s).late = s.late := rfl
@[simp] theorem setCtxSt_bells (t : BitVec 10) (c : BitVec 4) (x : CtxSt) (s : State) : (setCtxSt t c x s).bells = s.bells := rfl
@[simp] theorem setCtxSt_jobs (t : BitVec 10) (c : BitVec 4) (x : CtxSt) (s : State) : (setCtxSt t c x s).jobs = s.jobs := rfl
@[simp] theorem setCtxSt_resets (t : BitVec 10) (c : BitVec 4) (x : CtxSt) (s : State) : (setCtxSt t c x s).resets = s.resets := rfl
@[simp] theorem setCtxSt_store (t : BitVec 10) (c : BitVec 4) (x : CtxSt) (s : State) : (setCtxSt t c x s).store = s.store := rfl
@[simp] theorem setCtxSt_flash (t : BitVec 10) (c : BitVec 4) (x : CtxSt) (s : State) : (setCtxSt t c x s).flash = s.flash := rfl
@[simp] theorem setCtxSt_xlat (t : BitVec 10) (c : BitVec 4) (x : CtxSt) (s : State) : (setCtxSt t c x s).xlat = s.xlat := rfl
@[simp] theorem setCtxSt_coh (t : BitVec 10) (c : BitVec 4) (x : CtxSt) (s : State) : (setCtxSt t c x s).coh = s.coh := rfl
@[simp] theorem setCtxSt_sync (t : BitVec 10) (c : BitVec 4) (x : CtxSt) (s : State) : (setCtxSt t c x s).sync = s.sync := rfl
@[simp] theorem setCtxSt_eng (t : BitVec 10) (c : BitVec 4) (x : CtxSt) (s : State) : (setCtxSt t c x s).eng = s.eng := rfl
@[simp] theorem setCtxSt_fab (t : BitVec 10) (c : BitVec 4) (x : CtxSt) (s : State) : (setCtxSt t c x s).fab = s.fab := rfl
@[simp] theorem setCtxSt_pair (t : BitVec 10) (c : BitVec 4) (x : CtxSt) (s : State) : (setCtxSt t c x s).pair = s.pair := rfl
@[simp] theorem setCtxSt_expelled (t : BitVec 10) (c : BitVec 4) (x : CtxSt) (s : State) : (setCtxSt t c x s).expelled = s.expelled := rfl
@[simp] theorem setCtxSt_redirect (t : BitVec 10) (c : BitVec 4) (x : CtxSt) (s : State) : (setCtxSt t c x s).redirect = s.redirect := rfl
@[simp] theorem setCtxSt_nv (t : BitVec 10) (c : BitVec 4) (x : CtxSt) (s : State) : (setCtxSt t c x s).nv = s.nv := rfl
@[simp] theorem setCtxSt_fw (t : BitVec 10) (c : BitVec 4) (x : CtxSt) (s : State) : (setCtxSt t c x s).fw = s.fw := rfl
@[simp] theorem setCtxSt_err (t : BitVec 10) (c : BitVec 4) (x : CtxSt) (s : State) : (setCtxSt t c x s).err = s.err := rfl
@[simp] theorem setCtxSt_power (t : BitVec 10) (c : BitVec 4) (x : CtxSt) (s : State) : (setCtxSt t c x s).power = s.power := rfl
@[simp] theorem setCtxSt_time (t : BitVec 10) (c : BitVec 4) (x : CtxSt) (s : State) : (setCtxSt t c x s).time = s.time := rfl
@[simp] theorem setCtxSt_side (t : BitVec 10) (c : BitVec 4) (x : CtxSt) (s : State) : (setCtxSt t c x s).side = s.side := rfl
@[simp] theorem setCtxSt_out (t : BitVec 10) (c : BitVec 4) (x : CtxSt) (s : State) : (setCtxSt t c x s).out = s.out := rfl

/-! ### updStream -/

@[simp] theorem updStream_pending (t : BitVec 10) (n : BitVec 5) (f : Stream → Stream) (s : State) : (updStream t n f s).pending = s.pending := rfl
@[simp] theorem updStream_variant (t : BitVec 10) (n : BitVec 5) (f : Stream → Stream) (s : State) : (updStream t n f s).variant = s.variant := rfl
@[simp] theorem updStream_phase (t : BitVec 10) (n : BitVec 5) (f : Stream → Stream) (s : State) : (updStream t n f s).phase = s.phase := rfl
@[simp] theorem updStream_cause (t : BitVec 10) (n : BitVec 5) (f : Stream → Stream) (s : State) : (updStream t n f s).cause = s.cause := rfl
@[simp] theorem updStream_env (t : BitVec 10) (n : BitVec 5) (f : Stream → Stream) (s : State) : (updStream t n f s).env = s.env := rfl
@[simp] theorem updStream_freeIdx (t : BitVec 10) (n : BitVec 5) (f : Stream → Stream) (s : State) : (updStream t n f s).freeIdx = s.freeIdx := rfl
@[simp] theorem updStream_port (t : BitVec 10) (n : BitVec 5) (f : Stream → Stream) (s : State) : (updStream t n f s).port = s.port := rfl
@[simp] theorem updStream_comp (t : BitVec 10) (n : BitVec 5) (f : Stream → Stream) (s : State) : (updStream t n f s).comp = s.comp := rfl
@[simp] theorem updStream_issued (t : BitVec 10) (n : BitVec 5) (f : Stream → Stream) (s : State) : (updStream t n f s).issued = s.issued := rfl
@[simp] theorem updStream_compose (t : BitVec 10) (n : BitVec 5) (f : Stream → Stream) (s : State) : (updStream t n f s).compose = s.compose := rfl
@[simp] theorem updStream_drain (t : BitVec 10) (n : BitVec 5) (f : Stream → Stream) (s : State) : (updStream t n f s).drain = s.drain := rfl
@[simp] theorem updStream_ever (t : BitVec 10) (n : BitVec 5) (f : Stream → Stream) (s : State) : (updStream t n f s).ever = s.ever := rfl
@[simp] theorem updStream_held (t : BitVec 10) (n : BitVec 5) (f : Stream → Stream) (s : State) : (updStream t n f s).held = s.held := rfl
@[simp] theorem updStream_nextHeld (t : BitVec 10) (n : BitVec 5) (f : Stream → Stream) (s : State) : (updStream t n f s).nextHeld = s.nextHeld := rfl
@[simp] theorem updStream_trip (t : BitVec 10) (n : BitVec 5) (f : Stream → Stream) (s : State) : (updStream t n f s).trip = s.trip := rfl
@[simp] theorem updStream_prevTrip (t : BitVec 10) (n : BitVec 5) (f : Stream → Stream) (s : State) : (updStream t n f s).prevTrip = s.prevTrip := rfl
@[simp] theorem updStream_reportSeq (t : BitVec 10) (n : BitVec 5) (f : Stream → Stream) (s : State) : (updStream t n f s).reportSeq = s.reportSeq := rfl
@[simp] theorem updStream_queues (t : BitVec 10) (n : BitVec 5) (f : Stream → Stream) (s : State) : (updStream t n f s).queues = s.queues := rfl
@[simp] theorem updStream_rota (t : BitVec 10) (n : BitVec 5) (f : Stream → Stream) (s : State) : (updStream t n f s).rota = s.rota := rfl
@[simp] theorem updStream_rings (t : BitVec 10) (n : BitVec 5) (f : Stream → Stream) (s : State) : (updStream t n f s).rings = s.rings := rfl
@[simp] theorem updStream_late (t : BitVec 10) (n : BitVec 5) (f : Stream → Stream) (s : State) : (updStream t n f s).late = s.late := rfl
@[simp] theorem updStream_bells (t : BitVec 10) (n : BitVec 5) (f : Stream → Stream) (s : State) : (updStream t n f s).bells = s.bells := rfl
@[simp] theorem updStream_jobs (t : BitVec 10) (n : BitVec 5) (f : Stream → Stream) (s : State) : (updStream t n f s).jobs = s.jobs := rfl
@[simp] theorem updStream_resets (t : BitVec 10) (n : BitVec 5) (f : Stream → Stream) (s : State) : (updStream t n f s).resets = s.resets := rfl
@[simp] theorem updStream_store (t : BitVec 10) (n : BitVec 5) (f : Stream → Stream) (s : State) : (updStream t n f s).store = s.store := rfl
@[simp] theorem updStream_flash (t : BitVec 10) (n : BitVec 5) (f : Stream → Stream) (s : State) : (updStream t n f s).flash = s.flash := rfl
@[simp] theorem updStream_xlat (t : BitVec 10) (n : BitVec 5) (f : Stream → Stream) (s : State) : (updStream t n f s).xlat = s.xlat := rfl
@[simp] theorem updStream_coh (t : BitVec 10) (n : BitVec 5) (f : Stream → Stream) (s : State) : (updStream t n f s).coh = s.coh := rfl
@[simp] theorem updStream_sync (t : BitVec 10) (n : BitVec 5) (f : Stream → Stream) (s : State) : (updStream t n f s).sync = s.sync := rfl
@[simp] theorem updStream_tiles (t : BitVec 10) (n : BitVec 5) (f : Stream → Stream) (s : State) : (updStream t n f s).tiles = updIf s.tiles (·.id = t) fun x => { x with streams := updIf x.streams (·.n = n) f } := rfl
@[simp] theorem updStream_eng (t : BitVec 10) (n : BitVec 5) (f : Stream → Stream) (s : State) : (updStream t n f s).eng = s.eng := rfl
@[simp] theorem updStream_fab (t : BitVec 10) (n : BitVec 5) (f : Stream → Stream) (s : State) : (updStream t n f s).fab = s.fab := rfl
@[simp] theorem updStream_pair (t : BitVec 10) (n : BitVec 5) (f : Stream → Stream) (s : State) : (updStream t n f s).pair = s.pair := rfl
@[simp] theorem updStream_expelled (t : BitVec 10) (n : BitVec 5) (f : Stream → Stream) (s : State) : (updStream t n f s).expelled = s.expelled := rfl
@[simp] theorem updStream_redirect (t : BitVec 10) (n : BitVec 5) (f : Stream → Stream) (s : State) : (updStream t n f s).redirect = s.redirect := rfl
@[simp] theorem updStream_nv (t : BitVec 10) (n : BitVec 5) (f : Stream → Stream) (s : State) : (updStream t n f s).nv = s.nv := rfl
@[simp] theorem updStream_fw (t : BitVec 10) (n : BitVec 5) (f : Stream → Stream) (s : State) : (updStream t n f s).fw = s.fw := rfl
@[simp] theorem updStream_err (t : BitVec 10) (n : BitVec 5) (f : Stream → Stream) (s : State) : (updStream t n f s).err = s.err := rfl
@[simp] theorem updStream_power (t : BitVec 10) (n : BitVec 5) (f : Stream → Stream) (s : State) : (updStream t n f s).power = s.power := rfl
@[simp] theorem updStream_time (t : BitVec 10) (n : BitVec 5) (f : Stream → Stream) (s : State) : (updStream t n f s).time = s.time := rfl
@[simp] theorem updStream_side (t : BitVec 10) (n : BitVec 5) (f : Stream → Stream) (s : State) : (updStream t n f s).side = s.side := rfl
@[simp] theorem updStream_out (t : BitVec 10) (n : BitVec 5) (f : Stream → Stream) (s : State) : (updStream t n f s).out = s.out := rfl

/-! ### updExt -/

@[simp] theorem updExt_pending (s : State) (i : Nat) (f : Extent → Extent) : (updExt s i f).pending = s.pending := rfl
@[simp] theorem updExt_variant (s : State) (i : Nat) (f : Extent → Extent) : (updExt s i f).variant = s.variant := rfl
@[simp] theorem updExt_phase (s : State) (i : Nat) (f : Extent → Extent) : (updExt s i f).phase = s.phase := rfl
@[simp] theorem updExt_cause (s : State) (i : Nat) (f : Extent → Extent) : (updExt s i f).cause = s.cause := rfl
@[simp] theorem updExt_env (s : State) (i : Nat) (f : Extent → Extent) : (updExt s i f).env = s.env := rfl
@[simp] theorem updExt_freeIdx (s : State) (i : Nat) (f : Extent → Extent) : (updExt s i f).freeIdx = s.freeIdx := rfl
@[simp] theorem updExt_port (s : State) (i : Nat) (f : Extent → Extent) : (updExt s i f).port = s.port := rfl
@[simp] theorem updExt_comp (s : State) (i : Nat) (f : Extent → Extent) : (updExt s i f).comp = s.comp := rfl
@[simp] theorem updExt_issued (s : State) (i : Nat) (f : Extent → Extent) : (updExt s i f).issued = s.issued := rfl
@[simp] theorem updExt_compose (s : State) (i : Nat) (f : Extent → Extent) : (updExt s i f).compose = s.compose := rfl
@[simp] theorem updExt_drain (s : State) (i : Nat) (f : Extent → Extent) : (updExt s i f).drain = s.drain := rfl
@[simp] theorem updExt_ever (s : State) (i : Nat) (f : Extent → Extent) : (updExt s i f).ever = s.ever := rfl
@[simp] theorem updExt_held (s : State) (i : Nat) (f : Extent → Extent) : (updExt s i f).held = s.held := rfl
@[simp] theorem updExt_nextHeld (s : State) (i : Nat) (f : Extent → Extent) : (updExt s i f).nextHeld = s.nextHeld := rfl
@[simp] theorem updExt_trip (s : State) (i : Nat) (f : Extent → Extent) : (updExt s i f).trip = s.trip := rfl
@[simp] theorem updExt_prevTrip (s : State) (i : Nat) (f : Extent → Extent) : (updExt s i f).prevTrip = s.prevTrip := rfl
@[simp] theorem updExt_reportSeq (s : State) (i : Nat) (f : Extent → Extent) : (updExt s i f).reportSeq = s.reportSeq := rfl
@[simp] theorem updExt_queues (s : State) (i : Nat) (f : Extent → Extent) : (updExt s i f).queues = s.queues := rfl
@[simp] theorem updExt_rota (s : State) (i : Nat) (f : Extent → Extent) : (updExt s i f).rota = s.rota := rfl
@[simp] theorem updExt_rings (s : State) (i : Nat) (f : Extent → Extent) : (updExt s i f).rings = s.rings := rfl
@[simp] theorem updExt_late (s : State) (i : Nat) (f : Extent → Extent) : (updExt s i f).late = s.late := rfl
@[simp] theorem updExt_bells (s : State) (i : Nat) (f : Extent → Extent) : (updExt s i f).bells = s.bells := rfl
@[simp] theorem updExt_jobs (s : State) (i : Nat) (f : Extent → Extent) : (updExt s i f).jobs = s.jobs := rfl
@[simp] theorem updExt_resets (s : State) (i : Nat) (f : Extent → Extent) : (updExt s i f).resets = s.resets := rfl
@[simp] theorem updExt_store (s : State) (i : Nat) (f : Extent → Extent) : (updExt s i f).store = { s.store with extents := updIf s.store.extents (·.idx == i) f } := rfl
@[simp] theorem updExt_flash (s : State) (i : Nat) (f : Extent → Extent) : (updExt s i f).flash = s.flash := rfl
@[simp] theorem updExt_xlat (s : State) (i : Nat) (f : Extent → Extent) : (updExt s i f).xlat = s.xlat := rfl
@[simp] theorem updExt_coh (s : State) (i : Nat) (f : Extent → Extent) : (updExt s i f).coh = s.coh := rfl
@[simp] theorem updExt_sync (s : State) (i : Nat) (f : Extent → Extent) : (updExt s i f).sync = s.sync := rfl
@[simp] theorem updExt_tiles (s : State) (i : Nat) (f : Extent → Extent) : (updExt s i f).tiles = s.tiles := rfl
@[simp] theorem updExt_eng (s : State) (i : Nat) (f : Extent → Extent) : (updExt s i f).eng = s.eng := rfl
@[simp] theorem updExt_fab (s : State) (i : Nat) (f : Extent → Extent) : (updExt s i f).fab = s.fab := rfl
@[simp] theorem updExt_pair (s : State) (i : Nat) (f : Extent → Extent) : (updExt s i f).pair = s.pair := rfl
@[simp] theorem updExt_expelled (s : State) (i : Nat) (f : Extent → Extent) : (updExt s i f).expelled = s.expelled := rfl
@[simp] theorem updExt_redirect (s : State) (i : Nat) (f : Extent → Extent) : (updExt s i f).redirect = s.redirect := rfl
@[simp] theorem updExt_nv (s : State) (i : Nat) (f : Extent → Extent) : (updExt s i f).nv = s.nv := rfl
@[simp] theorem updExt_fw (s : State) (i : Nat) (f : Extent → Extent) : (updExt s i f).fw = s.fw := rfl
@[simp] theorem updExt_err (s : State) (i : Nat) (f : Extent → Extent) : (updExt s i f).err = s.err := rfl
@[simp] theorem updExt_power (s : State) (i : Nat) (f : Extent → Extent) : (updExt s i f).power = s.power := rfl
@[simp] theorem updExt_time (s : State) (i : Nat) (f : Extent → Extent) : (updExt s i f).time = s.time := rfl
@[simp] theorem updExt_side (s : State) (i : Nat) (f : Extent → Extent) : (updExt s i f).side = s.side := rfl
@[simp] theorem updExt_out (s : State) (i : Nat) (f : Extent → Extent) : (updExt s i f).out = s.out := rfl

/-! ### updObj -/

@[simp] theorem updObj_pending (b : Nat) (f : Obj → Obj) (s : State) : (updObj b f s).pending = s.pending := rfl
@[simp] theorem updObj_variant (b : Nat) (f : Obj → Obj) (s : State) : (updObj b f s).variant = s.variant := rfl
@[simp] theorem updObj_phase (b : Nat) (f : Obj → Obj) (s : State) : (updObj b f s).phase = s.phase := rfl
@[simp] theorem updObj_cause (b : Nat) (f : Obj → Obj) (s : State) : (updObj b f s).cause = s.cause := rfl
@[simp] theorem updObj_env (b : Nat) (f : Obj → Obj) (s : State) : (updObj b f s).env = s.env := rfl
@[simp] theorem updObj_freeIdx (b : Nat) (f : Obj → Obj) (s : State) : (updObj b f s).freeIdx = s.freeIdx := rfl
@[simp] theorem updObj_port (b : Nat) (f : Obj → Obj) (s : State) : (updObj b f s).port = s.port := rfl
@[simp] theorem updObj_comp (b : Nat) (f : Obj → Obj) (s : State) : (updObj b f s).comp = s.comp := rfl
@[simp] theorem updObj_issued (b : Nat) (f : Obj → Obj) (s : State) : (updObj b f s).issued = s.issued := rfl
@[simp] theorem updObj_compose (b : Nat) (f : Obj → Obj) (s : State) : (updObj b f s).compose = s.compose := rfl
@[simp] theorem updObj_drain (b : Nat) (f : Obj → Obj) (s : State) : (updObj b f s).drain = s.drain := rfl
@[simp] theorem updObj_ever (b : Nat) (f : Obj → Obj) (s : State) : (updObj b f s).ever = s.ever := rfl
@[simp] theorem updObj_held (b : Nat) (f : Obj → Obj) (s : State) : (updObj b f s).held = s.held := rfl
@[simp] theorem updObj_nextHeld (b : Nat) (f : Obj → Obj) (s : State) : (updObj b f s).nextHeld = s.nextHeld := rfl
@[simp] theorem updObj_trip (b : Nat) (f : Obj → Obj) (s : State) : (updObj b f s).trip = s.trip := rfl
@[simp] theorem updObj_prevTrip (b : Nat) (f : Obj → Obj) (s : State) : (updObj b f s).prevTrip = s.prevTrip := rfl
@[simp] theorem updObj_reportSeq (b : Nat) (f : Obj → Obj) (s : State) : (updObj b f s).reportSeq = s.reportSeq := rfl
@[simp] theorem updObj_queues (b : Nat) (f : Obj → Obj) (s : State) : (updObj b f s).queues = s.queues := rfl
@[simp] theorem updObj_rota (b : Nat) (f : Obj → Obj) (s : State) : (updObj b f s).rota = s.rota := rfl
@[simp] theorem updObj_rings (b : Nat) (f : Obj → Obj) (s : State) : (updObj b f s).rings = s.rings := rfl
@[simp] theorem updObj_late (b : Nat) (f : Obj → Obj) (s : State) : (updObj b f s).late = s.late := rfl
@[simp] theorem updObj_bells (b : Nat) (f : Obj → Obj) (s : State) : (updObj b f s).bells = s.bells := rfl
@[simp] theorem updObj_jobs (b : Nat) (f : Obj → Obj) (s : State) : (updObj b f s).jobs = s.jobs := rfl
@[simp] theorem updObj_resets (b : Nat) (f : Obj → Obj) (s : State) : (updObj b f s).resets = s.resets := rfl
@[simp] theorem updObj_store (b : Nat) (f : Obj → Obj) (s : State) : (updObj b f s).store = { s.store with objects := updIf s.store.objects (·.base == b) f } := rfl
@[simp] theorem updObj_flash (b : Nat) (f : Obj → Obj) (s : State) : (updObj b f s).flash = s.flash := rfl
@[simp] theorem updObj_xlat (b : Nat) (f : Obj → Obj) (s : State) : (updObj b f s).xlat = s.xlat := rfl
@[simp] theorem updObj_coh (b : Nat) (f : Obj → Obj) (s : State) : (updObj b f s).coh = s.coh := rfl
@[simp] theorem updObj_sync (b : Nat) (f : Obj → Obj) (s : State) : (updObj b f s).sync = s.sync := rfl
@[simp] theorem updObj_tiles (b : Nat) (f : Obj → Obj) (s : State) : (updObj b f s).tiles = s.tiles := rfl
@[simp] theorem updObj_eng (b : Nat) (f : Obj → Obj) (s : State) : (updObj b f s).eng = s.eng := rfl
@[simp] theorem updObj_fab (b : Nat) (f : Obj → Obj) (s : State) : (updObj b f s).fab = s.fab := rfl
@[simp] theorem updObj_pair (b : Nat) (f : Obj → Obj) (s : State) : (updObj b f s).pair = s.pair := rfl
@[simp] theorem updObj_expelled (b : Nat) (f : Obj → Obj) (s : State) : (updObj b f s).expelled = s.expelled := rfl
@[simp] theorem updObj_redirect (b : Nat) (f : Obj → Obj) (s : State) : (updObj b f s).redirect = s.redirect := rfl
@[simp] theorem updObj_nv (b : Nat) (f : Obj → Obj) (s : State) : (updObj b f s).nv = s.nv := rfl
@[simp] theorem updObj_fw (b : Nat) (f : Obj → Obj) (s : State) : (updObj b f s).fw = s.fw := rfl
@[simp] theorem updObj_err (b : Nat) (f : Obj → Obj) (s : State) : (updObj b f s).err = s.err := rfl
@[simp] theorem updObj_power (b : Nat) (f : Obj → Obj) (s : State) : (updObj b f s).power = s.power := rfl
@[simp] theorem updObj_time (b : Nat) (f : Obj → Obj) (s : State) : (updObj b f s).time = s.time := rfl
@[simp] theorem updObj_side (b : Nat) (f : Obj → Obj) (s : State) : (updObj b f s).side = s.side := rfl
@[simp] theorem updObj_out (b : Nat) (f : Obj → Obj) (s : State) : (updObj b f s).out = s.out := rfl

/-! ### updSched -/

@[simp] theorem updSched_pending (b : Nat) (f : Sched → Sched) (s : State) : (updSched b f s).pending = s.pending := rfl
@[simp] theorem updSched_variant (b : Nat) (f : Sched → Sched) (s : State) : (updSched b f s).variant = s.variant := rfl
@[simp] theorem updSched_phase (b : Nat) (f : Sched → Sched) (s : State) : (updSched b f s).phase = s.phase := rfl
@[simp] theorem updSched_cause (b : Nat) (f : Sched → Sched) (s : State) : (updSched b f s).cause = s.cause := rfl
@[simp] theorem updSched_env (b : Nat) (f : Sched → Sched) (s : State) : (updSched b f s).env = s.env := rfl
@[simp] theorem updSched_freeIdx (b : Nat) (f : Sched → Sched) (s : State) : (updSched b f s).freeIdx = s.freeIdx := rfl
@[simp] theorem updSched_port (b : Nat) (f : Sched → Sched) (s : State) : (updSched b f s).port = s.port := rfl
@[simp] theorem updSched_comp (b : Nat) (f : Sched → Sched) (s : State) : (updSched b f s).comp = s.comp := rfl
@[simp] theorem updSched_issued (b : Nat) (f : Sched → Sched) (s : State) : (updSched b f s).issued = s.issued := rfl
@[simp] theorem updSched_compose (b : Nat) (f : Sched → Sched) (s : State) : (updSched b f s).compose = s.compose := rfl
@[simp] theorem updSched_drain (b : Nat) (f : Sched → Sched) (s : State) : (updSched b f s).drain = s.drain := rfl
@[simp] theorem updSched_ever (b : Nat) (f : Sched → Sched) (s : State) : (updSched b f s).ever = s.ever := rfl
@[simp] theorem updSched_held (b : Nat) (f : Sched → Sched) (s : State) : (updSched b f s).held = s.held := rfl
@[simp] theorem updSched_nextHeld (b : Nat) (f : Sched → Sched) (s : State) : (updSched b f s).nextHeld = s.nextHeld := rfl
@[simp] theorem updSched_trip (b : Nat) (f : Sched → Sched) (s : State) : (updSched b f s).trip = s.trip := rfl
@[simp] theorem updSched_prevTrip (b : Nat) (f : Sched → Sched) (s : State) : (updSched b f s).prevTrip = s.prevTrip := rfl
@[simp] theorem updSched_reportSeq (b : Nat) (f : Sched → Sched) (s : State) : (updSched b f s).reportSeq = s.reportSeq := rfl
@[simp] theorem updSched_queues (b : Nat) (f : Sched → Sched) (s : State) : (updSched b f s).queues = s.queues := rfl
@[simp] theorem updSched_rota (b : Nat) (f : Sched → Sched) (s : State) : (updSched b f s).rota = s.rota := rfl
@[simp] theorem updSched_rings (b : Nat) (f : Sched → Sched) (s : State) : (updSched b f s).rings = s.rings := rfl
@[simp] theorem updSched_late (b : Nat) (f : Sched → Sched) (s : State) : (updSched b f s).late = s.late := rfl
@[simp] theorem updSched_bells (b : Nat) (f : Sched → Sched) (s : State) : (updSched b f s).bells = s.bells := rfl
@[simp] theorem updSched_jobs (b : Nat) (f : Sched → Sched) (s : State) : (updSched b f s).jobs = s.jobs := rfl
@[simp] theorem updSched_resets (b : Nat) (f : Sched → Sched) (s : State) : (updSched b f s).resets = s.resets := rfl
@[simp] theorem updSched_flash (b : Nat) (f : Sched → Sched) (s : State) : (updSched b f s).flash = s.flash := rfl
@[simp] theorem updSched_xlat (b : Nat) (f : Sched → Sched) (s : State) : (updSched b f s).xlat = s.xlat := rfl
@[simp] theorem updSched_coh (b : Nat) (f : Sched → Sched) (s : State) : (updSched b f s).coh = s.coh := rfl
@[simp] theorem updSched_sync (b : Nat) (f : Sched → Sched) (s : State) : (updSched b f s).sync = s.sync := rfl
@[simp] theorem updSched_tiles (b : Nat) (f : Sched → Sched) (s : State) : (updSched b f s).tiles = s.tiles := rfl
@[simp] theorem updSched_eng (b : Nat) (f : Sched → Sched) (s : State) : (updSched b f s).eng = s.eng := rfl
@[simp] theorem updSched_fab (b : Nat) (f : Sched → Sched) (s : State) : (updSched b f s).fab = s.fab := rfl
@[simp] theorem updSched_pair (b : Nat) (f : Sched → Sched) (s : State) : (updSched b f s).pair = s.pair := rfl
@[simp] theorem updSched_expelled (b : Nat) (f : Sched → Sched) (s : State) : (updSched b f s).expelled = s.expelled := rfl
@[simp] theorem updSched_redirect (b : Nat) (f : Sched → Sched) (s : State) : (updSched b f s).redirect = s.redirect := rfl
@[simp] theorem updSched_nv (b : Nat) (f : Sched → Sched) (s : State) : (updSched b f s).nv = s.nv := rfl
@[simp] theorem updSched_fw (b : Nat) (f : Sched → Sched) (s : State) : (updSched b f s).fw = s.fw := rfl
@[simp] theorem updSched_err (b : Nat) (f : Sched → Sched) (s : State) : (updSched b f s).err = s.err := rfl
@[simp] theorem updSched_power (b : Nat) (f : Sched → Sched) (s : State) : (updSched b f s).power = s.power := rfl
@[simp] theorem updSched_time (b : Nat) (f : Sched → Sched) (s : State) : (updSched b f s).time = s.time := rfl
@[simp] theorem updSched_side (b : Nat) (f : Sched → Sched) (s : State) : (updSched b f s).side = s.side := rfl
@[simp] theorem updSched_out (b : Nat) (f : Sched → Sched) (s : State) : (updSched b f s).out = s.out := rfl

/-! ### setDir -/

@[simp] theorem setDir_pending (l : Nat) (d : Option DirSt) (s : State) : (setDir l d s).pending = s.pending := rfl
@[simp] theorem setDir_variant (l : Nat) (d : Option DirSt) (s : State) : (setDir l d s).variant = s.variant := rfl
@[simp] theorem setDir_phase (l : Nat) (d : Option DirSt) (s : State) : (setDir l d s).phase = s.phase := rfl
@[simp] theorem setDir_cause (l : Nat) (d : Option DirSt) (s : State) : (setDir l d s).cause = s.cause := rfl
@[simp] theorem setDir_env (l : Nat) (d : Option DirSt) (s : State) : (setDir l d s).env = s.env := rfl
@[simp] theorem setDir_freeIdx (l : Nat) (d : Option DirSt) (s : State) : (setDir l d s).freeIdx = s.freeIdx := rfl
@[simp] theorem setDir_port (l : Nat) (d : Option DirSt) (s : State) : (setDir l d s).port = s.port := rfl
@[simp] theorem setDir_comp (l : Nat) (d : Option DirSt) (s : State) : (setDir l d s).comp = s.comp := rfl
@[simp] theorem setDir_issued (l : Nat) (d : Option DirSt) (s : State) : (setDir l d s).issued = s.issued := rfl
@[simp] theorem setDir_compose (l : Nat) (d : Option DirSt) (s : State) : (setDir l d s).compose = s.compose := rfl
@[simp] theorem setDir_drain (l : Nat) (d : Option DirSt) (s : State) : (setDir l d s).drain = s.drain := rfl
@[simp] theorem setDir_ever (l : Nat) (d : Option DirSt) (s : State) : (setDir l d s).ever = s.ever := rfl
@[simp] theorem setDir_held (l : Nat) (d : Option DirSt) (s : State) : (setDir l d s).held = s.held := rfl
@[simp] theorem setDir_nextHeld (l : Nat) (d : Option DirSt) (s : State) : (setDir l d s).nextHeld = s.nextHeld := rfl
@[simp] theorem setDir_trip (l : Nat) (d : Option DirSt) (s : State) : (setDir l d s).trip = s.trip := rfl
@[simp] theorem setDir_prevTrip (l : Nat) (d : Option DirSt) (s : State) : (setDir l d s).prevTrip = s.prevTrip := rfl
@[simp] theorem setDir_reportSeq (l : Nat) (d : Option DirSt) (s : State) : (setDir l d s).reportSeq = s.reportSeq := rfl
@[simp] theorem setDir_queues (l : Nat) (d : Option DirSt) (s : State) : (setDir l d s).queues = s.queues := rfl
@[simp] theorem setDir_rota (l : Nat) (d : Option DirSt) (s : State) : (setDir l d s).rota = s.rota := rfl
@[simp] theorem setDir_rings (l : Nat) (d : Option DirSt) (s : State) : (setDir l d s).rings = s.rings := rfl
@[simp] theorem setDir_late (l : Nat) (d : Option DirSt) (s : State) : (setDir l d s).late = s.late := rfl
@[simp] theorem setDir_bells (l : Nat) (d : Option DirSt) (s : State) : (setDir l d s).bells = s.bells := rfl
@[simp] theorem setDir_jobs (l : Nat) (d : Option DirSt) (s : State) : (setDir l d s).jobs = s.jobs := rfl
@[simp] theorem setDir_resets (l : Nat) (d : Option DirSt) (s : State) : (setDir l d s).resets = s.resets := rfl
@[simp] theorem setDir_store (l : Nat) (d : Option DirSt) (s : State) : (setDir l d s).store = s.store := rfl
@[simp] theorem setDir_flash (l : Nat) (d : Option DirSt) (s : State) : (setDir l d s).flash = s.flash := rfl
@[simp] theorem setDir_xlat (l : Nat) (d : Option DirSt) (s : State) : (setDir l d s).xlat = s.xlat := rfl
@[simp] theorem setDir_sync (l : Nat) (d : Option DirSt) (s : State) : (setDir l d s).sync = s.sync := rfl
@[simp] theorem setDir_tiles (l : Nat) (d : Option DirSt) (s : State) : (setDir l d s).tiles = s.tiles := rfl
@[simp] theorem setDir_eng (l : Nat) (d : Option DirSt) (s : State) : (setDir l d s).eng = s.eng := rfl
@[simp] theorem setDir_fab (l : Nat) (d : Option DirSt) (s : State) : (setDir l d s).fab = s.fab := rfl
@[simp] theorem setDir_pair (l : Nat) (d : Option DirSt) (s : State) : (setDir l d s).pair = s.pair := rfl
@[simp] theorem setDir_expelled (l : Nat) (d : Option DirSt) (s : State) : (setDir l d s).expelled = s.expelled := rfl
@[simp] theorem setDir_redirect (l : Nat) (d : Option DirSt) (s : State) : (setDir l d s).redirect = s.redirect := rfl
@[simp] theorem setDir_nv (l : Nat) (d : Option DirSt) (s : State) : (setDir l d s).nv = s.nv := rfl
@[simp] theorem setDir_fw (l : Nat) (d : Option DirSt) (s : State) : (setDir l d s).fw = s.fw := rfl
@[simp] theorem setDir_err (l : Nat) (d : Option DirSt) (s : State) : (setDir l d s).err = s.err := rfl
@[simp] theorem setDir_power (l : Nat) (d : Option DirSt) (s : State) : (setDir l d s).power = s.power := rfl
@[simp] theorem setDir_time (l : Nat) (d : Option DirSt) (s : State) : (setDir l d s).time = s.time := rfl
@[simp] theorem setDir_side (l : Nat) (d : Option DirSt) (s : State) : (setDir l d s).side = s.side := rfl
@[simp] theorem setDir_out (l : Nat) (d : Option DirSt) (s : State) : (setDir l d s).out = s.out := rfl

/-! ### newTrk -/

@[simp] theorem newTrk_pending (t : Trk) (s : State) : (newTrk t s).pending = s.pending := rfl
@[simp] theorem newTrk_variant (t : Trk) (s : State) : (newTrk t s).variant = s.variant := rfl
@[simp] theorem newTrk_phase (t : Trk) (s : State) : (newTrk t s).phase = s.phase := rfl
@[simp] theorem newTrk_cause (t : Trk) (s : State) : (newTrk t s).cause = s.cause := rfl
@[simp] theorem newTrk_env (t : Trk) (s : State) : (newTrk t s).env = s.env := rfl
@[simp] theorem newTrk_freeIdx (t : Trk) (s : State) : (newTrk t s).freeIdx = s.freeIdx := rfl
@[simp] theorem newTrk_port (t : Trk) (s : State) : (newTrk t s).port = s.port := rfl
@[simp] theorem newTrk_comp (t : Trk) (s : State) : (newTrk t s).comp = s.comp := rfl
@[simp] theorem newTrk_issued (t : Trk) (s : State) : (newTrk t s).issued = s.issued := rfl
@[simp] theorem newTrk_compose (t : Trk) (s : State) : (newTrk t s).compose = s.compose := rfl
@[simp] theorem newTrk_drain (t : Trk) (s : State) : (newTrk t s).drain = s.drain := rfl
@[simp] theorem newTrk_ever (t : Trk) (s : State) : (newTrk t s).ever = s.ever := rfl
@[simp] theorem newTrk_held (t : Trk) (s : State) : (newTrk t s).held = s.held := rfl
@[simp] theorem newTrk_nextHeld (t : Trk) (s : State) : (newTrk t s).nextHeld = s.nextHeld := rfl
@[simp] theorem newTrk_trip (t : Trk) (s : State) : (newTrk t s).trip = s.trip := rfl
@[simp] theorem newTrk_prevTrip (t : Trk) (s : State) : (newTrk t s).prevTrip = s.prevTrip := rfl
@[simp] theorem newTrk_reportSeq (t : Trk) (s : State) : (newTrk t s).reportSeq = s.reportSeq := rfl
@[simp] theorem newTrk_queues (t : Trk) (s : State) : (newTrk t s).queues = s.queues := rfl
@[simp] theorem newTrk_rota (t : Trk) (s : State) : (newTrk t s).rota = s.rota := rfl
@[simp] theorem newTrk_rings (t : Trk) (s : State) : (newTrk t s).rings = s.rings := rfl
@[simp] theorem newTrk_late (t : Trk) (s : State) : (newTrk t s).late = s.late := rfl
@[simp] theorem newTrk_bells (t : Trk) (s : State) : (newTrk t s).bells = s.bells := rfl
@[simp] theorem newTrk_jobs (t : Trk) (s : State) : (newTrk t s).jobs = s.jobs := rfl
@[simp] theorem newTrk_resets (t : Trk) (s : State) : (newTrk t s).resets = s.resets := rfl
@[simp] theorem newTrk_store (t : Trk) (s : State) : (newTrk t s).store = s.store := rfl
@[simp] theorem newTrk_flash (t : Trk) (s : State) : (newTrk t s).flash = s.flash := rfl
@[simp] theorem newTrk_xlat (t : Trk) (s : State) : (newTrk t s).xlat = s.xlat := rfl
@[simp] theorem newTrk_sync (t : Trk) (s : State) : (newTrk t s).sync = s.sync := rfl
@[simp] theorem newTrk_tiles (t : Trk) (s : State) : (newTrk t s).tiles = s.tiles := rfl
@[simp] theorem newTrk_eng (t : Trk) (s : State) : (newTrk t s).eng = s.eng := rfl
@[simp] theorem newTrk_fab (t : Trk) (s : State) : (newTrk t s).fab = s.fab := rfl
@[simp] theorem newTrk_pair (t : Trk) (s : State) : (newTrk t s).pair = s.pair := rfl
@[simp] theorem newTrk_expelled (t : Trk) (s : State) : (newTrk t s).expelled = s.expelled := rfl
@[simp] theorem newTrk_redirect (t : Trk) (s : State) : (newTrk t s).redirect = s.redirect := rfl
@[simp] theorem newTrk_nv (t : Trk) (s : State) : (newTrk t s).nv = s.nv := rfl
@[simp] theorem newTrk_fw (t : Trk) (s : State) : (newTrk t s).fw = s.fw := rfl
@[simp] theorem newTrk_err (t : Trk) (s : State) : (newTrk t s).err = s.err := rfl
@[simp] theorem newTrk_power (t : Trk) (s : State) : (newTrk t s).power = s.power := rfl
@[simp] theorem newTrk_time (t : Trk) (s : State) : (newTrk t s).time = s.time := rfl
@[simp] theorem newTrk_side (t : Trk) (s : State) : (newTrk t s).side = s.side := rfl
@[simp] theorem newTrk_out (t : Trk) (s : State) : (newTrk t s).out = s.out := rfl

/-! ### updTrk -/

@[simp] theorem updTrk_pending (i : Nat) (f : Trk → Trk) (s : State) : (updTrk i f s).pending = s.pending := rfl
@[simp] theorem updTrk_variant (i : Nat) (f : Trk → Trk) (s : State) : (updTrk i f s).variant = s.variant := rfl
@[simp] theorem updTrk_phase (i : Nat) (f : Trk → Trk) (s : State) : (updTrk i f s).phase = s.phase := rfl
@[simp] theorem updTrk_cause (i : Nat) (f : Trk → Trk) (s : State) : (updTrk i f s).cause = s.cause := rfl
@[simp] theorem updTrk_env (i : Nat) (f : Trk → Trk) (s : State) : (updTrk i f s).env = s.env := rfl
@[simp] theorem updTrk_freeIdx (i : Nat) (f : Trk → Trk) (s : State) : (updTrk i f s).freeIdx = s.freeIdx := rfl
@[simp] theorem updTrk_port (i : Nat) (f : Trk → Trk) (s : State) : (updTrk i f s).port = s.port := rfl
@[simp] theorem updTrk_comp (i : Nat) (f : Trk → Trk) (s : State) : (updTrk i f s).comp = s.comp := rfl
@[simp] theorem updTrk_issued (i : Nat) (f : Trk → Trk) (s : State) : (updTrk i f s).issued = s.issued := rfl
@[simp] theorem updTrk_compose (i : Nat) (f : Trk → Trk) (s : State) : (updTrk i f s).compose = s.compose := rfl
@[simp] theorem updTrk_drain (i : Nat) (f : Trk → Trk) (s : State) : (updTrk i f s).drain = s.drain := rfl
@[simp] theorem updTrk_ever (i : Nat) (f : Trk → Trk) (s : State) : (updTrk i f s).ever = s.ever := rfl
@[simp] theorem updTrk_held (i : Nat) (f : Trk → Trk) (s : State) : (updTrk i f s).held = s.held := rfl
@[simp] theorem updTrk_nextHeld (i : Nat) (f : Trk → Trk) (s : State) : (updTrk i f s).nextHeld = s.nextHeld := rfl
@[simp] theorem updTrk_trip (i : Nat) (f : Trk → Trk) (s : State) : (updTrk i f s).trip = s.trip := rfl
@[simp] theorem updTrk_prevTrip (i : Nat) (f : Trk → Trk) (s : State) : (updTrk i f s).prevTrip = s.prevTrip := rfl
@[simp] theorem updTrk_reportSeq (i : Nat) (f : Trk → Trk) (s : State) : (updTrk i f s).reportSeq = s.reportSeq := rfl
@[simp] theorem updTrk_queues (i : Nat) (f : Trk → Trk) (s : State) : (updTrk i f s).queues = s.queues := rfl
@[simp] theorem updTrk_rota (i : Nat) (f : Trk → Trk) (s : State) : (updTrk i f s).rota = s.rota := rfl
@[simp] theorem updTrk_rings (i : Nat) (f : Trk → Trk) (s : State) : (updTrk i f s).rings = s.rings := rfl
@[simp] theorem updTrk_late (i : Nat) (f : Trk → Trk) (s : State) : (updTrk i f s).late = s.late := rfl
@[simp] theorem updTrk_bells (i : Nat) (f : Trk → Trk) (s : State) : (updTrk i f s).bells = s.bells := rfl
@[simp] theorem updTrk_jobs (i : Nat) (f : Trk → Trk) (s : State) : (updTrk i f s).jobs = s.jobs := rfl
@[simp] theorem updTrk_resets (i : Nat) (f : Trk → Trk) (s : State) : (updTrk i f s).resets = s.resets := rfl
@[simp] theorem updTrk_store (i : Nat) (f : Trk → Trk) (s : State) : (updTrk i f s).store = s.store := rfl
@[simp] theorem updTrk_flash (i : Nat) (f : Trk → Trk) (s : State) : (updTrk i f s).flash = s.flash := rfl
@[simp] theorem updTrk_xlat (i : Nat) (f : Trk → Trk) (s : State) : (updTrk i f s).xlat = s.xlat := rfl
@[simp] theorem updTrk_coh (i : Nat) (f : Trk → Trk) (s : State) : (updTrk i f s).coh = { s.coh with trks := updIf s.coh.trks (·.id == i) f } := rfl
@[simp] theorem updTrk_sync (i : Nat) (f : Trk → Trk) (s : State) : (updTrk i f s).sync = s.sync := rfl
@[simp] theorem updTrk_tiles (i : Nat) (f : Trk → Trk) (s : State) : (updTrk i f s).tiles = s.tiles := rfl
@[simp] theorem updTrk_eng (i : Nat) (f : Trk → Trk) (s : State) : (updTrk i f s).eng = s.eng := rfl
@[simp] theorem updTrk_fab (i : Nat) (f : Trk → Trk) (s : State) : (updTrk i f s).fab = s.fab := rfl
@[simp] theorem updTrk_pair (i : Nat) (f : Trk → Trk) (s : State) : (updTrk i f s).pair = s.pair := rfl
@[simp] theorem updTrk_expelled (i : Nat) (f : Trk → Trk) (s : State) : (updTrk i f s).expelled = s.expelled := rfl
@[simp] theorem updTrk_redirect (i : Nat) (f : Trk → Trk) (s : State) : (updTrk i f s).redirect = s.redirect := rfl
@[simp] theorem updTrk_nv (i : Nat) (f : Trk → Trk) (s : State) : (updTrk i f s).nv = s.nv := rfl
@[simp] theorem updTrk_fw (i : Nat) (f : Trk → Trk) (s : State) : (updTrk i f s).fw = s.fw := rfl
@[simp] theorem updTrk_err (i : Nat) (f : Trk → Trk) (s : State) : (updTrk i f s).err = s.err := rfl
@[simp] theorem updTrk_power (i : Nat) (f : Trk → Trk) (s : State) : (updTrk i f s).power = s.power := rfl
@[simp] theorem updTrk_time (i : Nat) (f : Trk → Trk) (s : State) : (updTrk i f s).time = s.time := rfl
@[simp] theorem updTrk_side (i : Nat) (f : Trk → Trk) (s : State) : (updTrk i f s).side = s.side := rfl
@[simp] theorem updTrk_out (i : Nat) (f : Trk → Trk) (s : State) : (updTrk i f s).out = s.out := rfl

/-! ### endTrk -/

@[simp] theorem endTrk_pending (i : Nat) (s : State) : (endTrk i s).pending = s.pending := rfl
@[simp] theorem endTrk_variant (i : Nat) (s : State) : (endTrk i s).variant = s.variant := rfl
@[simp] theorem endTrk_phase (i : Nat) (s : State) : (endTrk i s).phase = s.phase := rfl
@[simp] theorem endTrk_cause (i : Nat) (s : State) : (endTrk i s).cause = s.cause := rfl
@[simp] theorem endTrk_env (i : Nat) (s : State) : (endTrk i s).env = s.env := rfl
@[simp] theorem endTrk_freeIdx (i : Nat) (s : State) : (endTrk i s).freeIdx = s.freeIdx := rfl
@[simp] theorem endTrk_port (i : Nat) (s : State) : (endTrk i s).port = s.port := rfl
@[simp] theorem endTrk_comp (i : Nat) (s : State) : (endTrk i s).comp = s.comp := rfl
@[simp] theorem endTrk_issued (i : Nat) (s : State) : (endTrk i s).issued = s.issued := rfl
@[simp] theorem endTrk_compose (i : Nat) (s : State) : (endTrk i s).compose = s.compose := rfl
@[simp] theorem endTrk_drain (i : Nat) (s : State) : (endTrk i s).drain = s.drain := rfl
@[simp] theorem endTrk_ever (i : Nat) (s : State) : (endTrk i s).ever = s.ever := rfl
@[simp] theorem endTrk_held (i : Nat) (s : State) : (endTrk i s).held = s.held := rfl
@[simp] theorem endTrk_nextHeld (i : Nat) (s : State) : (endTrk i s).nextHeld = s.nextHeld := rfl
@[simp] theorem endTrk_trip (i : Nat) (s : State) : (endTrk i s).trip = s.trip := rfl
@[simp] theorem endTrk_prevTrip (i : Nat) (s : State) : (endTrk i s).prevTrip = s.prevTrip := rfl
@[simp] theorem endTrk_reportSeq (i : Nat) (s : State) : (endTrk i s).reportSeq = s.reportSeq := rfl
@[simp] theorem endTrk_queues (i : Nat) (s : State) : (endTrk i s).queues = s.queues := rfl
@[simp] theorem endTrk_rota (i : Nat) (s : State) : (endTrk i s).rota = s.rota := rfl
@[simp] theorem endTrk_rings (i : Nat) (s : State) : (endTrk i s).rings = s.rings := rfl
@[simp] theorem endTrk_late (i : Nat) (s : State) : (endTrk i s).late = s.late := rfl
@[simp] theorem endTrk_bells (i : Nat) (s : State) : (endTrk i s).bells = s.bells := rfl
@[simp] theorem endTrk_jobs (i : Nat) (s : State) : (endTrk i s).jobs = s.jobs := rfl
@[simp] theorem endTrk_resets (i : Nat) (s : State) : (endTrk i s).resets = s.resets := rfl
@[simp] theorem endTrk_store (i : Nat) (s : State) : (endTrk i s).store = s.store := rfl
@[simp] theorem endTrk_flash (i : Nat) (s : State) : (endTrk i s).flash = s.flash := rfl
@[simp] theorem endTrk_xlat (i : Nat) (s : State) : (endTrk i s).xlat = s.xlat := rfl
@[simp] theorem endTrk_coh (i : Nat) (s : State) : (endTrk i s).coh = { s.coh with trks := dropIf s.coh.trks (·.id == i) } := rfl
@[simp] theorem endTrk_sync (i : Nat) (s : State) : (endTrk i s).sync = s.sync := rfl
@[simp] theorem endTrk_tiles (i : Nat) (s : State) : (endTrk i s).tiles = s.tiles := rfl
@[simp] theorem endTrk_eng (i : Nat) (s : State) : (endTrk i s).eng = s.eng := rfl
@[simp] theorem endTrk_fab (i : Nat) (s : State) : (endTrk i s).fab = s.fab := rfl
@[simp] theorem endTrk_pair (i : Nat) (s : State) : (endTrk i s).pair = s.pair := rfl
@[simp] theorem endTrk_expelled (i : Nat) (s : State) : (endTrk i s).expelled = s.expelled := rfl
@[simp] theorem endTrk_redirect (i : Nat) (s : State) : (endTrk i s).redirect = s.redirect := rfl
@[simp] theorem endTrk_nv (i : Nat) (s : State) : (endTrk i s).nv = s.nv := rfl
@[simp] theorem endTrk_fw (i : Nat) (s : State) : (endTrk i s).fw = s.fw := rfl
@[simp] theorem endTrk_err (i : Nat) (s : State) : (endTrk i s).err = s.err := rfl
@[simp] theorem endTrk_power (i : Nat) (s : State) : (endTrk i s).power = s.power := rfl
@[simp] theorem endTrk_time (i : Nat) (s : State) : (endTrk i s).time = s.time := rfl
@[simp] theorem endTrk_side (i : Nat) (s : State) : (endTrk i s).side = s.side := rfl
@[simp] theorem endTrk_out (i : Nat) (s : State) : (endTrk i s).out = s.out := rfl

/-! ### setLoss -/

@[simp] theorem setLoss_pending (l : LossList) (s : State) : (setLoss l s).pending = s.pending := rfl
@[simp] theorem setLoss_variant (l : LossList) (s : State) : (setLoss l s).variant = s.variant := rfl
@[simp] theorem setLoss_phase (l : LossList) (s : State) : (setLoss l s).phase = s.phase := rfl
@[simp] theorem setLoss_cause (l : LossList) (s : State) : (setLoss l s).cause = s.cause := rfl
@[simp] theorem setLoss_env (l : LossList) (s : State) : (setLoss l s).env = s.env := rfl
@[simp] theorem setLoss_freeIdx (l : LossList) (s : State) : (setLoss l s).freeIdx = s.freeIdx := rfl
@[simp] theorem setLoss_port (l : LossList) (s : State) : (setLoss l s).port = s.port := rfl
@[simp] theorem setLoss_comp (l : LossList) (s : State) : (setLoss l s).comp = s.comp := rfl
@[simp] theorem setLoss_issued (l : LossList) (s : State) : (setLoss l s).issued = s.issued := rfl
@[simp] theorem setLoss_compose (l : LossList) (s : State) : (setLoss l s).compose = s.compose := rfl
@[simp] theorem setLoss_drain (l : LossList) (s : State) : (setLoss l s).drain = s.drain := rfl
@[simp] theorem setLoss_ever (l : LossList) (s : State) : (setLoss l s).ever = s.ever := rfl
@[simp] theorem setLoss_held (l : LossList) (s : State) : (setLoss l s).held = s.held := rfl
@[simp] theorem setLoss_nextHeld (l : LossList) (s : State) : (setLoss l s).nextHeld = s.nextHeld := rfl
@[simp] theorem setLoss_trip (l : LossList) (s : State) : (setLoss l s).trip = s.trip := rfl
@[simp] theorem setLoss_prevTrip (l : LossList) (s : State) : (setLoss l s).prevTrip = s.prevTrip := rfl
@[simp] theorem setLoss_reportSeq (l : LossList) (s : State) : (setLoss l s).reportSeq = s.reportSeq := rfl
@[simp] theorem setLoss_queues (l : LossList) (s : State) : (setLoss l s).queues = s.queues := rfl
@[simp] theorem setLoss_rota (l : LossList) (s : State) : (setLoss l s).rota = s.rota := rfl
@[simp] theorem setLoss_rings (l : LossList) (s : State) : (setLoss l s).rings = s.rings := rfl
@[simp] theorem setLoss_late (l : LossList) (s : State) : (setLoss l s).late = s.late := rfl
@[simp] theorem setLoss_bells (l : LossList) (s : State) : (setLoss l s).bells = s.bells := rfl
@[simp] theorem setLoss_jobs (l : LossList) (s : State) : (setLoss l s).jobs = s.jobs := rfl
@[simp] theorem setLoss_resets (l : LossList) (s : State) : (setLoss l s).resets = s.resets := rfl
@[simp] theorem setLoss_store (l : LossList) (s : State) : (setLoss l s).store = s.store := rfl
@[simp] theorem setLoss_flash (l : LossList) (s : State) : (setLoss l s).flash = s.flash := rfl
@[simp] theorem setLoss_xlat (l : LossList) (s : State) : (setLoss l s).xlat = s.xlat := rfl
@[simp] theorem setLoss_coh (l : LossList) (s : State) : (setLoss l s).coh = { s.coh with losses := dropIf s.coh.losses (·.rider = l.rider) ++ [l] } := rfl
@[simp] theorem setLoss_sync (l : LossList) (s : State) : (setLoss l s).sync = s.sync := rfl
@[simp] theorem setLoss_tiles (l : LossList) (s : State) : (setLoss l s).tiles = s.tiles := rfl
@[simp] theorem setLoss_eng (l : LossList) (s : State) : (setLoss l s).eng = s.eng := rfl
@[simp] theorem setLoss_fab (l : LossList) (s : State) : (setLoss l s).fab = s.fab := rfl
@[simp] theorem setLoss_pair (l : LossList) (s : State) : (setLoss l s).pair = s.pair := rfl
@[simp] theorem setLoss_expelled (l : LossList) (s : State) : (setLoss l s).expelled = s.expelled := rfl
@[simp] theorem setLoss_redirect (l : LossList) (s : State) : (setLoss l s).redirect = s.redirect := rfl
@[simp] theorem setLoss_nv (l : LossList) (s : State) : (setLoss l s).nv = s.nv := rfl
@[simp] theorem setLoss_fw (l : LossList) (s : State) : (setLoss l s).fw = s.fw := rfl
@[simp] theorem setLoss_err (l : LossList) (s : State) : (setLoss l s).err = s.err := rfl
@[simp] theorem setLoss_power (l : LossList) (s : State) : (setLoss l s).power = s.power := rfl
@[simp] theorem setLoss_time (l : LossList) (s : State) : (setLoss l s).time = s.time := rfl
@[simp] theorem setLoss_side (l : LossList) (s : State) : (setLoss l s).side = s.side := rfl
@[simp] theorem setLoss_out (l : LossList) (s : State) : (setLoss l s).out = s.out := rfl

/-! ### updQueue -/

@[simp] theorem updQueue_pending (q : BitVec 13) (f : Queue → Queue) (s : State) : (updQueue q f s).pending = s.pending := rfl
@[simp] theorem updQueue_variant (q : BitVec 13) (f : Queue → Queue) (s : State) : (updQueue q f s).variant = s.variant := rfl
@[simp] theorem updQueue_phase (q : BitVec 13) (f : Queue → Queue) (s : State) : (updQueue q f s).phase = s.phase := rfl
@[simp] theorem updQueue_cause (q : BitVec 13) (f : Queue → Queue) (s : State) : (updQueue q f s).cause = s.cause := rfl
@[simp] theorem updQueue_env (q : BitVec 13) (f : Queue → Queue) (s : State) : (updQueue q f s).env = s.env := rfl
@[simp] theorem updQueue_freeIdx (q : BitVec 13) (f : Queue → Queue) (s : State) : (updQueue q f s).freeIdx = s.freeIdx := rfl
@[simp] theorem updQueue_port (q : BitVec 13) (f : Queue → Queue) (s : State) : (updQueue q f s).port = s.port := rfl
@[simp] theorem updQueue_comp (q : BitVec 13) (f : Queue → Queue) (s : State) : (updQueue q f s).comp = s.comp := rfl
@[simp] theorem updQueue_issued (q : BitVec 13) (f : Queue → Queue) (s : State) : (updQueue q f s).issued = s.issued := rfl
@[simp] theorem updQueue_compose (q : BitVec 13) (f : Queue → Queue) (s : State) : (updQueue q f s).compose = s.compose := rfl
@[simp] theorem updQueue_drain (q : BitVec 13) (f : Queue → Queue) (s : State) : (updQueue q f s).drain = s.drain := rfl
@[simp] theorem updQueue_ever (q : BitVec 13) (f : Queue → Queue) (s : State) : (updQueue q f s).ever = s.ever := rfl
@[simp] theorem updQueue_held (q : BitVec 13) (f : Queue → Queue) (s : State) : (updQueue q f s).held = s.held := rfl
@[simp] theorem updQueue_nextHeld (q : BitVec 13) (f : Queue → Queue) (s : State) : (updQueue q f s).nextHeld = s.nextHeld := rfl
@[simp] theorem updQueue_trip (q : BitVec 13) (f : Queue → Queue) (s : State) : (updQueue q f s).trip = s.trip := rfl
@[simp] theorem updQueue_prevTrip (q : BitVec 13) (f : Queue → Queue) (s : State) : (updQueue q f s).prevTrip = s.prevTrip := rfl
@[simp] theorem updQueue_reportSeq (q : BitVec 13) (f : Queue → Queue) (s : State) : (updQueue q f s).reportSeq = s.reportSeq := rfl
@[simp] theorem updQueue_queues (q : BitVec 13) (f : Queue → Queue) (s : State) : (updQueue q f s).queues = updIf s.queues (·.q = q) f := rfl
@[simp] theorem updQueue_rota (q : BitVec 13) (f : Queue → Queue) (s : State) : (updQueue q f s).rota = s.rota := rfl
@[simp] theorem updQueue_rings (q : BitVec 13) (f : Queue → Queue) (s : State) : (updQueue q f s).rings = s.rings := rfl
@[simp] theorem updQueue_late (q : BitVec 13) (f : Queue → Queue) (s : State) : (updQueue q f s).late = s.late := rfl
@[simp] theorem updQueue_bells (q : BitVec 13) (f : Queue → Queue) (s : State) : (updQueue q f s).bells = s.bells := rfl
@[simp] theorem updQueue_jobs (q : BitVec 13) (f : Queue → Queue) (s : State) : (updQueue q f s).jobs = s.jobs := rfl
@[simp] theorem updQueue_resets (q : BitVec 13) (f : Queue → Queue) (s : State) : (updQueue q f s).resets = s.resets := rfl
@[simp] theorem updQueue_store (q : BitVec 13) (f : Queue → Queue) (s : State) : (updQueue q f s).store = s.store := rfl
@[simp] theorem updQueue_flash (q : BitVec 13) (f : Queue → Queue) (s : State) : (updQueue q f s).flash = s.flash := rfl
@[simp] theorem updQueue_xlat (q : BitVec 13) (f : Queue → Queue) (s : State) : (updQueue q f s).xlat = s.xlat := rfl
@[simp] theorem updQueue_coh (q : BitVec 13) (f : Queue → Queue) (s : State) : (updQueue q f s).coh = s.coh := rfl
@[simp] theorem updQueue_sync (q : BitVec 13) (f : Queue → Queue) (s : State) : (updQueue q f s).sync = s.sync := rfl
@[simp] theorem updQueue_tiles (q : BitVec 13) (f : Queue → Queue) (s : State) : (updQueue q f s).tiles = s.tiles := rfl
@[simp] theorem updQueue_eng (q : BitVec 13) (f : Queue → Queue) (s : State) : (updQueue q f s).eng = s.eng := rfl
@[simp] theorem updQueue_fab (q : BitVec 13) (f : Queue → Queue) (s : State) : (updQueue q f s).fab = s.fab := rfl
@[simp] theorem updQueue_pair (q : BitVec 13) (f : Queue → Queue) (s : State) : (updQueue q f s).pair = s.pair := rfl
@[simp] theorem updQueue_expelled (q : BitVec 13) (f : Queue → Queue) (s : State) : (updQueue q f s).expelled = s.expelled := rfl
@[simp] theorem updQueue_redirect (q : BitVec 13) (f : Queue → Queue) (s : State) : (updQueue q f s).redirect = s.redirect := rfl
@[simp] theorem updQueue_nv (q : BitVec 13) (f : Queue → Queue) (s : State) : (updQueue q f s).nv = s.nv := rfl
@[simp] theorem updQueue_fw (q : BitVec 13) (f : Queue → Queue) (s : State) : (updQueue q f s).fw = s.fw := rfl
@[simp] theorem updQueue_err (q : BitVec 13) (f : Queue → Queue) (s : State) : (updQueue q f s).err = s.err := rfl
@[simp] theorem updQueue_power (q : BitVec 13) (f : Queue → Queue) (s : State) : (updQueue q f s).power = s.power := rfl
@[simp] theorem updQueue_time (q : BitVec 13) (f : Queue → Queue) (s : State) : (updQueue q f s).time = s.time := rfl
@[simp] theorem updQueue_side (q : BitVec 13) (f : Queue → Queue) (s : State) : (updQueue q f s).side = s.side := rfl
@[simp] theorem updQueue_out (q : BitVec 13) (f : Queue → Queue) (s : State) : (updQueue q f s).out = s.out := rfl

/-! ### updRing -/

@[simp] theorem updRing_pending (r : BitVec 6) (f : Ring → Ring) (s : State) : (updRing r f s).pending = s.pending := rfl
@[simp] theorem updRing_variant (r : BitVec 6) (f : Ring → Ring) (s : State) : (updRing r f s).variant = s.variant := rfl
@[simp] theorem updRing_phase (r : BitVec 6) (f : Ring → Ring) (s : State) : (updRing r f s).phase = s.phase := rfl
@[simp] theorem updRing_cause (r : BitVec 6) (f : Ring → Ring) (s : State) : (updRing r f s).cause = s.cause := rfl
@[simp] theorem updRing_env (r : BitVec 6) (f : Ring → Ring) (s : State) : (updRing r f s).env = s.env := rfl
@[simp] theorem updRing_freeIdx (r : BitVec 6) (f : Ring → Ring) (s : State) : (updRing r f s).freeIdx = s.freeIdx := rfl
@[simp] theorem updRing_port (r : BitVec 6) (f : Ring → Ring) (s : State) : (updRing r f s).port = s.port := rfl
@[simp] theorem updRing_comp (r : BitVec 6) (f : Ring → Ring) (s : State) : (updRing r f s).comp = s.comp := rfl
@[simp] theorem updRing_issued (r : BitVec 6) (f : Ring → Ring) (s : State) : (updRing r f s).issued = s.issued := rfl
@[simp] theorem updRing_compose (r : BitVec 6) (f : Ring → Ring) (s : State) : (updRing r f s).compose = s.compose := rfl
@[simp] theorem updRing_drain (r : BitVec 6) (f : Ring → Ring) (s : State) : (updRing r f s).drain = s.drain := rfl
@[simp] theorem updRing_ever (r : BitVec 6) (f : Ring → Ring) (s : State) : (updRing r f s).ever = s.ever := rfl
@[simp] theorem updRing_held (r : BitVec 6) (f : Ring → Ring) (s : State) : (updRing r f s).held = s.held := rfl
@[simp] theorem updRing_nextHeld (r : BitVec 6) (f : Ring → Ring) (s : State) : (updRing r f s).nextHeld = s.nextHeld := rfl
@[simp] theorem updRing_trip (r : BitVec 6) (f : Ring → Ring) (s : State) : (updRing r f s).trip = s.trip := rfl
@[simp] theorem updRing_prevTrip (r : BitVec 6) (f : Ring → Ring) (s : State) : (updRing r f s).prevTrip = s.prevTrip := rfl
@[simp] theorem updRing_reportSeq (r : BitVec 6) (f : Ring → Ring) (s : State) : (updRing r f s).reportSeq = s.reportSeq := rfl
@[simp] theorem updRing_queues (r : BitVec 6) (f : Ring → Ring) (s : State) : (updRing r f s).queues = s.queues := rfl
@[simp] theorem updRing_rota (r : BitVec 6) (f : Ring → Ring) (s : State) : (updRing r f s).rota = s.rota := rfl
@[simp] theorem updRing_rings (r : BitVec 6) (f : Ring → Ring) (s : State) : (updRing r f s).rings = updIf s.rings (·.rider = r) f := rfl
@[simp] theorem updRing_late (r : BitVec 6) (f : Ring → Ring) (s : State) : (updRing r f s).late = s.late := rfl
@[simp] theorem updRing_bells (r : BitVec 6) (f : Ring → Ring) (s : State) : (updRing r f s).bells = s.bells := rfl
@[simp] theorem updRing_jobs (r : BitVec 6) (f : Ring → Ring) (s : State) : (updRing r f s).jobs = s.jobs := rfl
@[simp] theorem updRing_resets (r : BitVec 6) (f : Ring → Ring) (s : State) : (updRing r f s).resets = s.resets := rfl
@[simp] theorem updRing_store (r : BitVec 6) (f : Ring → Ring) (s : State) : (updRing r f s).store = s.store := rfl
@[simp] theorem updRing_flash (r : BitVec 6) (f : Ring → Ring) (s : State) : (updRing r f s).flash = s.flash := rfl
@[simp] theorem updRing_xlat (r : BitVec 6) (f : Ring → Ring) (s : State) : (updRing r f s).xlat = s.xlat := rfl
@[simp] theorem updRing_coh (r : BitVec 6) (f : Ring → Ring) (s : State) : (updRing r f s).coh = s.coh := rfl
@[simp] theorem updRing_sync (r : BitVec 6) (f : Ring → Ring) (s : State) : (updRing r f s).sync = s.sync := rfl
@[simp] theorem updRing_tiles (r : BitVec 6) (f : Ring → Ring) (s : State) : (updRing r f s).tiles = s.tiles := rfl
@[simp] theorem updRing_eng (r : BitVec 6) (f : Ring → Ring) (s : State) : (updRing r f s).eng = s.eng := rfl
@[simp] theorem updRing_fab (r : BitVec 6) (f : Ring → Ring) (s : State) : (updRing r f s).fab = s.fab := rfl
@[simp] theorem updRing_pair (r : BitVec 6) (f : Ring → Ring) (s : State) : (updRing r f s).pair = s.pair := rfl
@[simp] theorem updRing_expelled (r : BitVec 6) (f : Ring → Ring) (s : State) : (updRing r f s).expelled = s.expelled := rfl
@[simp] theorem updRing_redirect (r : BitVec 6) (f : Ring → Ring) (s : State) : (updRing r f s).redirect = s.redirect := rfl
@[simp] theorem updRing_nv (r : BitVec 6) (f : Ring → Ring) (s : State) : (updRing r f s).nv = s.nv := rfl
@[simp] theorem updRing_fw (r : BitVec 6) (f : Ring → Ring) (s : State) : (updRing r f s).fw = s.fw := rfl
@[simp] theorem updRing_err (r : BitVec 6) (f : Ring → Ring) (s : State) : (updRing r f s).err = s.err := rfl
@[simp] theorem updRing_power (r : BitVec 6) (f : Ring → Ring) (s : State) : (updRing r f s).power = s.power := rfl
@[simp] theorem updRing_time (r : BitVec 6) (f : Ring → Ring) (s : State) : (updRing r f s).time = s.time := rfl
@[simp] theorem updRing_side (r : BitVec 6) (f : Ring → Ring) (s : State) : (updRing r f s).side = s.side := rfl
@[simp] theorem updRing_out (r : BitVec 6) (f : Ring → Ring) (s : State) : (updRing r f s).out = s.out := rfl

/-! ### updOp -/

@[simp] theorem updOp_pending (i : Nat) (f : EngOp → EngOp) (s : State) : (updOp i f s).pending = s.pending := rfl
@[simp] theorem updOp_variant (i : Nat) (f : EngOp → EngOp) (s : State) : (updOp i f s).variant = s.variant := rfl
@[simp] theorem updOp_phase (i : Nat) (f : EngOp → EngOp) (s : State) : (updOp i f s).phase = s.phase := rfl
@[simp] theorem updOp_cause (i : Nat) (f : EngOp → EngOp) (s : State) : (updOp i f s).cause = s.cause := rfl
@[simp] theorem updOp_env (i : Nat) (f : EngOp → EngOp) (s : State) : (updOp i f s).env = s.env := rfl
@[simp] theorem updOp_freeIdx (i : Nat) (f : EngOp → EngOp) (s : State) : (updOp i f s).freeIdx = s.freeIdx := rfl
@[simp] theorem updOp_port (i : Nat) (f : EngOp → EngOp) (s : State) : (updOp i f s).port = s.port := rfl
@[simp] theorem updOp_comp (i : Nat) (f : EngOp → EngOp) (s : State) : (updOp i f s).comp = s.comp := rfl
@[simp] theorem updOp_issued (i : Nat) (f : EngOp → EngOp) (s : State) : (updOp i f s).issued = s.issued := rfl
@[simp] theorem updOp_compose (i : Nat) (f : EngOp → EngOp) (s : State) : (updOp i f s).compose = s.compose := rfl
@[simp] theorem updOp_drain (i : Nat) (f : EngOp → EngOp) (s : State) : (updOp i f s).drain = s.drain := rfl
@[simp] theorem updOp_ever (i : Nat) (f : EngOp → EngOp) (s : State) : (updOp i f s).ever = s.ever := rfl
@[simp] theorem updOp_held (i : Nat) (f : EngOp → EngOp) (s : State) : (updOp i f s).held = s.held := rfl
@[simp] theorem updOp_nextHeld (i : Nat) (f : EngOp → EngOp) (s : State) : (updOp i f s).nextHeld = s.nextHeld := rfl
@[simp] theorem updOp_trip (i : Nat) (f : EngOp → EngOp) (s : State) : (updOp i f s).trip = s.trip := rfl
@[simp] theorem updOp_prevTrip (i : Nat) (f : EngOp → EngOp) (s : State) : (updOp i f s).prevTrip = s.prevTrip := rfl
@[simp] theorem updOp_reportSeq (i : Nat) (f : EngOp → EngOp) (s : State) : (updOp i f s).reportSeq = s.reportSeq := rfl
@[simp] theorem updOp_queues (i : Nat) (f : EngOp → EngOp) (s : State) : (updOp i f s).queues = s.queues := rfl
@[simp] theorem updOp_rota (i : Nat) (f : EngOp → EngOp) (s : State) : (updOp i f s).rota = s.rota := rfl
@[simp] theorem updOp_rings (i : Nat) (f : EngOp → EngOp) (s : State) : (updOp i f s).rings = s.rings := rfl
@[simp] theorem updOp_late (i : Nat) (f : EngOp → EngOp) (s : State) : (updOp i f s).late = s.late := rfl
@[simp] theorem updOp_bells (i : Nat) (f : EngOp → EngOp) (s : State) : (updOp i f s).bells = s.bells := rfl
@[simp] theorem updOp_jobs (i : Nat) (f : EngOp → EngOp) (s : State) : (updOp i f s).jobs = s.jobs := rfl
@[simp] theorem updOp_resets (i : Nat) (f : EngOp → EngOp) (s : State) : (updOp i f s).resets = s.resets := rfl
@[simp] theorem updOp_store (i : Nat) (f : EngOp → EngOp) (s : State) : (updOp i f s).store = s.store := rfl
@[simp] theorem updOp_flash (i : Nat) (f : EngOp → EngOp) (s : State) : (updOp i f s).flash = s.flash := rfl
@[simp] theorem updOp_xlat (i : Nat) (f : EngOp → EngOp) (s : State) : (updOp i f s).xlat = s.xlat := rfl
@[simp] theorem updOp_coh (i : Nat) (f : EngOp → EngOp) (s : State) : (updOp i f s).coh = s.coh := rfl
@[simp] theorem updOp_sync (i : Nat) (f : EngOp → EngOp) (s : State) : (updOp i f s).sync = s.sync := rfl
@[simp] theorem updOp_tiles (i : Nat) (f : EngOp → EngOp) (s : State) : (updOp i f s).tiles = s.tiles := rfl
@[simp] theorem updOp_eng (i : Nat) (f : EngOp → EngOp) (s : State) : (updOp i f s).eng = { s.eng with ops := updIf s.eng.ops (·.id == i) f } := rfl
@[simp] theorem updOp_fab (i : Nat) (f : EngOp → EngOp) (s : State) : (updOp i f s).fab = s.fab := rfl
@[simp] theorem updOp_pair (i : Nat) (f : EngOp → EngOp) (s : State) : (updOp i f s).pair = s.pair := rfl
@[simp] theorem updOp_expelled (i : Nat) (f : EngOp → EngOp) (s : State) : (updOp i f s).expelled = s.expelled := rfl
@[simp] theorem updOp_redirect (i : Nat) (f : EngOp → EngOp) (s : State) : (updOp i f s).redirect = s.redirect := rfl
@[simp] theorem updOp_nv (i : Nat) (f : EngOp → EngOp) (s : State) : (updOp i f s).nv = s.nv := rfl
@[simp] theorem updOp_fw (i : Nat) (f : EngOp → EngOp) (s : State) : (updOp i f s).fw = s.fw := rfl
@[simp] theorem updOp_err (i : Nat) (f : EngOp → EngOp) (s : State) : (updOp i f s).err = s.err := rfl
@[simp] theorem updOp_power (i : Nat) (f : EngOp → EngOp) (s : State) : (updOp i f s).power = s.power := rfl
@[simp] theorem updOp_time (i : Nat) (f : EngOp → EngOp) (s : State) : (updOp i f s).time = s.time := rfl
@[simp] theorem updOp_side (i : Nat) (f : EngOp → EngOp) (s : State) : (updOp i f s).side = s.side := rfl
@[simp] theorem updOp_out (i : Nat) (f : EngOp → EngOp) (s : State) : (updOp i f s).out = s.out := rfl

/-! ### updBatch -/

@[simp] theorem updBatch_pending (k : BatchKey) (f : EmbBatch → EmbBatch) (s : State) : (updBatch k f s).pending = s.pending := rfl
@[simp] theorem updBatch_variant (k : BatchKey) (f : EmbBatch → EmbBatch) (s : State) : (updBatch k f s).variant = s.variant := rfl
@[simp] theorem updBatch_phase (k : BatchKey) (f : EmbBatch → EmbBatch) (s : State) : (updBatch k f s).phase = s.phase := rfl
@[simp] theorem updBatch_cause (k : BatchKey) (f : EmbBatch → EmbBatch) (s : State) : (updBatch k f s).cause = s.cause := rfl
@[simp] theorem updBatch_env (k : BatchKey) (f : EmbBatch → EmbBatch) (s : State) : (updBatch k f s).env = s.env := rfl
@[simp] theorem updBatch_freeIdx (k : BatchKey) (f : EmbBatch → EmbBatch) (s : State) : (updBatch k f s).freeIdx = s.freeIdx := rfl
@[simp] theorem updBatch_port (k : BatchKey) (f : EmbBatch → EmbBatch) (s : State) : (updBatch k f s).port = s.port := rfl
@[simp] theorem updBatch_comp (k : BatchKey) (f : EmbBatch → EmbBatch) (s : State) : (updBatch k f s).comp = s.comp := rfl
@[simp] theorem updBatch_issued (k : BatchKey) (f : EmbBatch → EmbBatch) (s : State) : (updBatch k f s).issued = s.issued := rfl
@[simp] theorem updBatch_compose (k : BatchKey) (f : EmbBatch → EmbBatch) (s : State) : (updBatch k f s).compose = s.compose := rfl
@[simp] theorem updBatch_drain (k : BatchKey) (f : EmbBatch → EmbBatch) (s : State) : (updBatch k f s).drain = s.drain := rfl
@[simp] theorem updBatch_ever (k : BatchKey) (f : EmbBatch → EmbBatch) (s : State) : (updBatch k f s).ever = s.ever := rfl
@[simp] theorem updBatch_held (k : BatchKey) (f : EmbBatch → EmbBatch) (s : State) : (updBatch k f s).held = s.held := rfl
@[simp] theorem updBatch_nextHeld (k : BatchKey) (f : EmbBatch → EmbBatch) (s : State) : (updBatch k f s).nextHeld = s.nextHeld := rfl
@[simp] theorem updBatch_trip (k : BatchKey) (f : EmbBatch → EmbBatch) (s : State) : (updBatch k f s).trip = s.trip := rfl
@[simp] theorem updBatch_prevTrip (k : BatchKey) (f : EmbBatch → EmbBatch) (s : State) : (updBatch k f s).prevTrip = s.prevTrip := rfl
@[simp] theorem updBatch_reportSeq (k : BatchKey) (f : EmbBatch → EmbBatch) (s : State) : (updBatch k f s).reportSeq = s.reportSeq := rfl
@[simp] theorem updBatch_queues (k : BatchKey) (f : EmbBatch → EmbBatch) (s : State) : (updBatch k f s).queues = s.queues := rfl
@[simp] theorem updBatch_rota (k : BatchKey) (f : EmbBatch → EmbBatch) (s : State) : (updBatch k f s).rota = s.rota := rfl
@[simp] theorem updBatch_rings (k : BatchKey) (f : EmbBatch → EmbBatch) (s : State) : (updBatch k f s).rings = s.rings := rfl
@[simp] theorem updBatch_late (k : BatchKey) (f : EmbBatch → EmbBatch) (s : State) : (updBatch k f s).late = s.late := rfl
@[simp] theorem updBatch_bells (k : BatchKey) (f : EmbBatch → EmbBatch) (s : State) : (updBatch k f s).bells = s.bells := rfl
@[simp] theorem updBatch_jobs (k : BatchKey) (f : EmbBatch → EmbBatch) (s : State) : (updBatch k f s).jobs = s.jobs := rfl
@[simp] theorem updBatch_resets (k : BatchKey) (f : EmbBatch → EmbBatch) (s : State) : (updBatch k f s).resets = s.resets := rfl
@[simp] theorem updBatch_store (k : BatchKey) (f : EmbBatch → EmbBatch) (s : State) : (updBatch k f s).store = s.store := rfl
@[simp] theorem updBatch_flash (k : BatchKey) (f : EmbBatch → EmbBatch) (s : State) : (updBatch k f s).flash = s.flash := rfl
@[simp] theorem updBatch_xlat (k : BatchKey) (f : EmbBatch → EmbBatch) (s : State) : (updBatch k f s).xlat = s.xlat := rfl
@[simp] theorem updBatch_coh (k : BatchKey) (f : EmbBatch → EmbBatch) (s : State) : (updBatch k f s).coh = s.coh := rfl
@[simp] theorem updBatch_sync (k : BatchKey) (f : EmbBatch → EmbBatch) (s : State) : (updBatch k f s).sync = s.sync := rfl
@[simp] theorem updBatch_tiles (k : BatchKey) (f : EmbBatch → EmbBatch) (s : State) : (updBatch k f s).tiles = s.tiles := rfl
@[simp] theorem updBatch_eng (k : BatchKey) (f : EmbBatch → EmbBatch) (s : State) : (updBatch k f s).eng = { s.eng with batches := updIf s.eng.batches (·.key = k) f } := rfl
@[simp] theorem updBatch_fab (k : BatchKey) (f : EmbBatch → EmbBatch) (s : State) : (updBatch k f s).fab = s.fab := rfl
@[simp] theorem updBatch_pair (k : BatchKey) (f : EmbBatch → EmbBatch) (s : State) : (updBatch k f s).pair = s.pair := rfl
@[simp] theorem updBatch_expelled (k : BatchKey) (f : EmbBatch → EmbBatch) (s : State) : (updBatch k f s).expelled = s.expelled := rfl
@[simp] theorem updBatch_redirect (k : BatchKey) (f : EmbBatch → EmbBatch) (s : State) : (updBatch k f s).redirect = s.redirect := rfl
@[simp] theorem updBatch_nv (k : BatchKey) (f : EmbBatch → EmbBatch) (s : State) : (updBatch k f s).nv = s.nv := rfl
@[simp] theorem updBatch_fw (k : BatchKey) (f : EmbBatch → EmbBatch) (s : State) : (updBatch k f s).fw = s.fw := rfl
@[simp] theorem updBatch_err (k : BatchKey) (f : EmbBatch → EmbBatch) (s : State) : (updBatch k f s).err = s.err := rfl
@[simp] theorem updBatch_power (k : BatchKey) (f : EmbBatch → EmbBatch) (s : State) : (updBatch k f s).power = s.power := rfl
@[simp] theorem updBatch_time (k : BatchKey) (f : EmbBatch → EmbBatch) (s : State) : (updBatch k f s).time = s.time := rfl
@[simp] theorem updBatch_side (k : BatchKey) (f : EmbBatch → EmbBatch) (s : State) : (updBatch k f s).side = s.side := rfl
@[simp] theorem updBatch_out (k : BatchKey) (f : EmbBatch → EmbBatch) (s : State) : (updBatch k f s).out = s.out := rfl

/-! ### setTable -/

@[simp] theorem setTable_pending (t : EmbTable) (s : State) : (setTable t s).pending = s.pending := rfl
@[simp] theorem setTable_variant (t : EmbTable) (s : State) : (setTable t s).variant = s.variant := rfl
@[simp] theorem setTable_phase (t : EmbTable) (s : State) : (setTable t s).phase = s.phase := rfl
@[simp] theorem setTable_cause (t : EmbTable) (s : State) : (setTable t s).cause = s.cause := rfl
@[simp] theorem setTable_env (t : EmbTable) (s : State) : (setTable t s).env = s.env := rfl
@[simp] theorem setTable_freeIdx (t : EmbTable) (s : State) : (setTable t s).freeIdx = s.freeIdx := rfl
@[simp] theorem setTable_port (t : EmbTable) (s : State) : (setTable t s).port = s.port := rfl
@[simp] theorem setTable_comp (t : EmbTable) (s : State) : (setTable t s).comp = s.comp := rfl
@[simp] theorem setTable_issued (t : EmbTable) (s : State) : (setTable t s).issued = s.issued := rfl
@[simp] theorem setTable_compose (t : EmbTable) (s : State) : (setTable t s).compose = s.compose := rfl
@[simp] theorem setTable_drain (t : EmbTable) (s : State) : (setTable t s).drain = s.drain := rfl
@[simp] theorem setTable_ever (t : EmbTable) (s : State) : (setTable t s).ever = s.ever := rfl
@[simp] theorem setTable_held (t : EmbTable) (s : State) : (setTable t s).held = s.held := rfl
@[simp] theorem setTable_nextHeld (t : EmbTable) (s : State) : (setTable t s).nextHeld = s.nextHeld := rfl
@[simp] theorem setTable_trip (t : EmbTable) (s : State) : (setTable t s).trip = s.trip := rfl
@[simp] theorem setTable_prevTrip (t : EmbTable) (s : State) : (setTable t s).prevTrip = s.prevTrip := rfl
@[simp] theorem setTable_reportSeq (t : EmbTable) (s : State) : (setTable t s).reportSeq = s.reportSeq := rfl
@[simp] theorem setTable_queues (t : EmbTable) (s : State) : (setTable t s).queues = s.queues := rfl
@[simp] theorem setTable_rota (t : EmbTable) (s : State) : (setTable t s).rota = s.rota := rfl
@[simp] theorem setTable_rings (t : EmbTable) (s : State) : (setTable t s).rings = s.rings := rfl
@[simp] theorem setTable_late (t : EmbTable) (s : State) : (setTable t s).late = s.late := rfl
@[simp] theorem setTable_bells (t : EmbTable) (s : State) : (setTable t s).bells = s.bells := rfl
@[simp] theorem setTable_jobs (t : EmbTable) (s : State) : (setTable t s).jobs = s.jobs := rfl
@[simp] theorem setTable_resets (t : EmbTable) (s : State) : (setTable t s).resets = s.resets := rfl
@[simp] theorem setTable_store (t : EmbTable) (s : State) : (setTable t s).store = s.store := rfl
@[simp] theorem setTable_flash (t : EmbTable) (s : State) : (setTable t s).flash = s.flash := rfl
@[simp] theorem setTable_xlat (t : EmbTable) (s : State) : (setTable t s).xlat = s.xlat := rfl
@[simp] theorem setTable_coh (t : EmbTable) (s : State) : (setTable t s).coh = s.coh := rfl
@[simp] theorem setTable_sync (t : EmbTable) (s : State) : (setTable t s).sync = s.sync := rfl
@[simp] theorem setTable_tiles (t : EmbTable) (s : State) : (setTable t s).tiles = s.tiles := rfl
@[simp] theorem setTable_fab (t : EmbTable) (s : State) : (setTable t s).fab = s.fab := rfl
@[simp] theorem setTable_pair (t : EmbTable) (s : State) : (setTable t s).pair = s.pair := rfl
@[simp] theorem setTable_expelled (t : EmbTable) (s : State) : (setTable t s).expelled = s.expelled := rfl
@[simp] theorem setTable_redirect (t : EmbTable) (s : State) : (setTable t s).redirect = s.redirect := rfl
@[simp] theorem setTable_nv (t : EmbTable) (s : State) : (setTable t s).nv = s.nv := rfl
@[simp] theorem setTable_fw (t : EmbTable) (s : State) : (setTable t s).fw = s.fw := rfl
@[simp] theorem setTable_err (t : EmbTable) (s : State) : (setTable t s).err = s.err := rfl
@[simp] theorem setTable_power (t : EmbTable) (s : State) : (setTable t s).power = s.power := rfl
@[simp] theorem setTable_time (t : EmbTable) (s : State) : (setTable t s).time = s.time := rfl
@[simp] theorem setTable_side (t : EmbTable) (s : State) : (setTable t s).side = s.side := rfl
@[simp] theorem setTable_out (t : EmbTable) (s : State) : (setTable t s).out = s.out := rfl

/-! ### updWin -/

@[simp] theorem updWin_pending (k : WKey) (f : Window → Window) (s : State) : (updWin k f s).pending = s.pending := rfl
@[simp] theorem updWin_variant (k : WKey) (f : Window → Window) (s : State) : (updWin k f s).variant = s.variant := rfl
@[simp] theorem updWin_phase (k : WKey) (f : Window → Window) (s : State) : (updWin k f s).phase = s.phase := rfl
@[simp] theorem updWin_cause (k : WKey) (f : Window → Window) (s : State) : (updWin k f s).cause = s.cause := rfl
@[simp] theorem updWin_env (k : WKey) (f : Window → Window) (s : State) : (updWin k f s).env = s.env := rfl
@[simp] theorem updWin_freeIdx (k : WKey) (f : Window → Window) (s : State) : (updWin k f s).freeIdx = s.freeIdx := rfl
@[simp] theorem updWin_port (k : WKey) (f : Window → Window) (s : State) : (updWin k f s).port = s.port := rfl
@[simp] theorem updWin_comp (k : WKey) (f : Window → Window) (s : State) : (updWin k f s).comp = s.comp := rfl
@[simp] theorem updWin_issued (k : WKey) (f : Window → Window) (s : State) : (updWin k f s).issued = s.issued := rfl
@[simp] theorem updWin_compose (k : WKey) (f : Window → Window) (s : State) : (updWin k f s).compose = s.compose := rfl
@[simp] theorem updWin_drain (k : WKey) (f : Window → Window) (s : State) : (updWin k f s).drain = s.drain := rfl
@[simp] theorem updWin_ever (k : WKey) (f : Window → Window) (s : State) : (updWin k f s).ever = s.ever := rfl
@[simp] theorem updWin_held (k : WKey) (f : Window → Window) (s : State) : (updWin k f s).held = s.held := rfl
@[simp] theorem updWin_nextHeld (k : WKey) (f : Window → Window) (s : State) : (updWin k f s).nextHeld = s.nextHeld := rfl
@[simp] theorem updWin_trip (k : WKey) (f : Window → Window) (s : State) : (updWin k f s).trip = s.trip := rfl
@[simp] theorem updWin_prevTrip (k : WKey) (f : Window → Window) (s : State) : (updWin k f s).prevTrip = s.prevTrip := rfl
@[simp] theorem updWin_reportSeq (k : WKey) (f : Window → Window) (s : State) : (updWin k f s).reportSeq = s.reportSeq := rfl
@[simp] theorem updWin_queues (k : WKey) (f : Window → Window) (s : State) : (updWin k f s).queues = s.queues := rfl
@[simp] theorem updWin_rota (k : WKey) (f : Window → Window) (s : State) : (updWin k f s).rota = s.rota := rfl
@[simp] theorem updWin_rings (k : WKey) (f : Window → Window) (s : State) : (updWin k f s).rings = s.rings := rfl
@[simp] theorem updWin_late (k : WKey) (f : Window → Window) (s : State) : (updWin k f s).late = s.late := rfl
@[simp] theorem updWin_bells (k : WKey) (f : Window → Window) (s : State) : (updWin k f s).bells = s.bells := rfl
@[simp] theorem updWin_jobs (k : WKey) (f : Window → Window) (s : State) : (updWin k f s).jobs = s.jobs := rfl
@[simp] theorem updWin_resets (k : WKey) (f : Window → Window) (s : State) : (updWin k f s).resets = s.resets := rfl
@[simp] theorem updWin_store (k : WKey) (f : Window → Window) (s : State) : (updWin k f s).store = s.store := rfl
@[simp] theorem updWin_flash (k : WKey) (f : Window → Window) (s : State) : (updWin k f s).flash = s.flash := rfl
@[simp] theorem updWin_xlat (k : WKey) (f : Window → Window) (s : State) : (updWin k f s).xlat = s.xlat := rfl
@[simp] theorem updWin_coh (k : WKey) (f : Window → Window) (s : State) : (updWin k f s).coh = s.coh := rfl
@[simp] theorem updWin_sync (k : WKey) (f : Window → Window) (s : State) : (updWin k f s).sync = s.sync := rfl
@[simp] theorem updWin_tiles (k : WKey) (f : Window → Window) (s : State) : (updWin k f s).tiles = s.tiles := rfl
@[simp] theorem updWin_eng (k : WKey) (f : Window → Window) (s : State) : (updWin k f s).eng = s.eng := rfl
@[simp] theorem updWin_fab (k : WKey) (f : Window → Window) (s : State) : (updWin k f s).fab = { s.fab with rx := updIf s.fab.rx (·.key = k) f } := rfl
@[simp] theorem updWin_pair (k : WKey) (f : Window → Window) (s : State) : (updWin k f s).pair = s.pair := rfl
@[simp] theorem updWin_expelled (k : WKey) (f : Window → Window) (s : State) : (updWin k f s).expelled = s.expelled := rfl
@[simp] theorem updWin_redirect (k : WKey) (f : Window → Window) (s : State) : (updWin k f s).redirect = s.redirect := rfl
@[simp] theorem updWin_nv (k : WKey) (f : Window → Window) (s : State) : (updWin k f s).nv = s.nv := rfl
@[simp] theorem updWin_fw (k : WKey) (f : Window → Window) (s : State) : (updWin k f s).fw = s.fw := rfl
@[simp] theorem updWin_err (k : WKey) (f : Window → Window) (s : State) : (updWin k f s).err = s.err := rfl
@[simp] theorem updWin_power (k : WKey) (f : Window → Window) (s : State) : (updWin k f s).power = s.power := rfl
@[simp] theorem updWin_time (k : WKey) (f : Window → Window) (s : State) : (updWin k f s).time = s.time := rfl
@[simp] theorem updWin_side (k : WKey) (f : Window → Window) (s : State) : (updWin k f s).side = s.side := rfl
@[simp] theorem updWin_out (k : WKey) (f : Window → Window) (s : State) : (updWin k f s).out = s.out := rfl

/-! ### setChan -/

@[simp] theorem setChan_pending (c : Chan) (s : State) : (setChan c s).pending = s.pending := rfl
@[simp] theorem setChan_variant (c : Chan) (s : State) : (setChan c s).variant = s.variant := rfl
@[simp] theorem setChan_phase (c : Chan) (s : State) : (setChan c s).phase = s.phase := rfl
@[simp] theorem setChan_cause (c : Chan) (s : State) : (setChan c s).cause = s.cause := rfl
@[simp] theorem setChan_env (c : Chan) (s : State) : (setChan c s).env = s.env := rfl
@[simp] theorem setChan_freeIdx (c : Chan) (s : State) : (setChan c s).freeIdx = s.freeIdx := rfl
@[simp] theorem setChan_port (c : Chan) (s : State) : (setChan c s).port = s.port := rfl
@[simp] theorem setChan_comp (c : Chan) (s : State) : (setChan c s).comp = s.comp := rfl
@[simp] theorem setChan_issued (c : Chan) (s : State) : (setChan c s).issued = s.issued := rfl
@[simp] theorem setChan_compose (c : Chan) (s : State) : (setChan c s).compose = s.compose := rfl
@[simp] theorem setChan_drain (c : Chan) (s : State) : (setChan c s).drain = s.drain := rfl
@[simp] theorem setChan_ever (c : Chan) (s : State) : (setChan c s).ever = s.ever := rfl
@[simp] theorem setChan_held (c : Chan) (s : State) : (setChan c s).held = s.held := rfl
@[simp] theorem setChan_nextHeld (c : Chan) (s : State) : (setChan c s).nextHeld = s.nextHeld := rfl
@[simp] theorem setChan_trip (c : Chan) (s : State) : (setChan c s).trip = s.trip := rfl
@[simp] theorem setChan_prevTrip (c : Chan) (s : State) : (setChan c s).prevTrip = s.prevTrip := rfl
@[simp] theorem setChan_reportSeq (c : Chan) (s : State) : (setChan c s).reportSeq = s.reportSeq := rfl
@[simp] theorem setChan_queues (c : Chan) (s : State) : (setChan c s).queues = s.queues := rfl
@[simp] theorem setChan_rota (c : Chan) (s : State) : (setChan c s).rota = s.rota := rfl
@[simp] theorem setChan_rings (c : Chan) (s : State) : (setChan c s).rings = s.rings := rfl
@[simp] theorem setChan_late (c : Chan) (s : State) : (setChan c s).late = s.late := rfl
@[simp] theorem setChan_bells (c : Chan) (s : State) : (setChan c s).bells = s.bells := rfl
@[simp] theorem setChan_jobs (c : Chan) (s : State) : (setChan c s).jobs = s.jobs := rfl
@[simp] theorem setChan_resets (c : Chan) (s : State) : (setChan c s).resets = s.resets := rfl
@[simp] theorem setChan_store (c : Chan) (s : State) : (setChan c s).store = s.store := rfl
@[simp] theorem setChan_flash (c : Chan) (s : State) : (setChan c s).flash = s.flash := rfl
@[simp] theorem setChan_xlat (c : Chan) (s : State) : (setChan c s).xlat = s.xlat := rfl
@[simp] theorem setChan_coh (c : Chan) (s : State) : (setChan c s).coh = s.coh := rfl
@[simp] theorem setChan_sync (c : Chan) (s : State) : (setChan c s).sync = s.sync := rfl
@[simp] theorem setChan_tiles (c : Chan) (s : State) : (setChan c s).tiles = s.tiles := rfl
@[simp] theorem setChan_eng (c : Chan) (s : State) : (setChan c s).eng = s.eng := rfl
@[simp] theorem setChan_pair (c : Chan) (s : State) : (setChan c s).pair = s.pair := rfl
@[simp] theorem setChan_expelled (c : Chan) (s : State) : (setChan c s).expelled = s.expelled := rfl
@[simp] theorem setChan_redirect (c : Chan) (s : State) : (setChan c s).redirect = s.redirect := rfl
@[simp] theorem setChan_nv (c : Chan) (s : State) : (setChan c s).nv = s.nv := rfl
@[simp] theorem setChan_fw (c : Chan) (s : State) : (setChan c s).fw = s.fw := rfl
@[simp] theorem setChan_err (c : Chan) (s : State) : (setChan c s).err = s.err := rfl
@[simp] theorem setChan_power (c : Chan) (s : State) : (setChan c s).power = s.power := rfl
@[simp] theorem setChan_time (c : Chan) (s : State) : (setChan c s).time = s.time := rfl
@[simp] theorem setChan_side (c : Chan) (s : State) : (setChan c s).side = s.side := rfl
@[simp] theorem setChan_out (c : Chan) (s : State) : (setChan c s).out = s.out := rfl

/-! ### setSyncVal -/

@[simp] theorem setSyncVal_pending (o : Nat) (v : Word) (s : State) : (setSyncVal o v s).pending = s.pending := rfl
@[simp] theorem setSyncVal_variant (o : Nat) (v : Word) (s : State) : (setSyncVal o v s).variant = s.variant := rfl
@[simp] theorem setSyncVal_phase (o : Nat) (v : Word) (s : State) : (setSyncVal o v s).phase = s.phase := rfl
@[simp] theorem setSyncVal_cause (o : Nat) (v : Word) (s : State) : (setSyncVal o v s).cause = s.cause := rfl
@[simp] theorem setSyncVal_env (o : Nat) (v : Word) (s : State) : (setSyncVal o v s).env = s.env := rfl
@[simp] theorem setSyncVal_freeIdx (o : Nat) (v : Word) (s : State) : (setSyncVal o v s).freeIdx = s.freeIdx := rfl
@[simp] theorem setSyncVal_port (o : Nat) (v : Word) (s : State) : (setSyncVal o v s).port = s.port := rfl
@[simp] theorem setSyncVal_comp (o : Nat) (v : Word) (s : State) : (setSyncVal o v s).comp = s.comp := rfl
@[simp] theorem setSyncVal_issued (o : Nat) (v : Word) (s : State) : (setSyncVal o v s).issued = s.issued := rfl
@[simp] theorem setSyncVal_compose (o : Nat) (v : Word) (s : State) : (setSyncVal o v s).compose = s.compose := rfl
@[simp] theorem setSyncVal_drain (o : Nat) (v : Word) (s : State) : (setSyncVal o v s).drain = s.drain := rfl
@[simp] theorem setSyncVal_ever (o : Nat) (v : Word) (s : State) : (setSyncVal o v s).ever = s.ever := rfl
@[simp] theorem setSyncVal_held (o : Nat) (v : Word) (s : State) : (setSyncVal o v s).held = s.held := rfl
@[simp] theorem setSyncVal_nextHeld (o : Nat) (v : Word) (s : State) : (setSyncVal o v s).nextHeld = s.nextHeld := rfl
@[simp] theorem setSyncVal_trip (o : Nat) (v : Word) (s : State) : (setSyncVal o v s).trip = s.trip := rfl
@[simp] theorem setSyncVal_prevTrip (o : Nat) (v : Word) (s : State) : (setSyncVal o v s).prevTrip = s.prevTrip := rfl
@[simp] theorem setSyncVal_reportSeq (o : Nat) (v : Word) (s : State) : (setSyncVal o v s).reportSeq = s.reportSeq := rfl
@[simp] theorem setSyncVal_queues (o : Nat) (v : Word) (s : State) : (setSyncVal o v s).queues = s.queues := rfl
@[simp] theorem setSyncVal_rota (o : Nat) (v : Word) (s : State) : (setSyncVal o v s).rota = s.rota := rfl
@[simp] theorem setSyncVal_rings (o : Nat) (v : Word) (s : State) : (setSyncVal o v s).rings = s.rings := rfl
@[simp] theorem setSyncVal_late (o : Nat) (v : Word) (s : State) : (setSyncVal o v s).late = s.late := rfl
@[simp] theorem setSyncVal_bells (o : Nat) (v : Word) (s : State) : (setSyncVal o v s).bells = s.bells := rfl
@[simp] theorem setSyncVal_jobs (o : Nat) (v : Word) (s : State) : (setSyncVal o v s).jobs = s.jobs := rfl
@[simp] theorem setSyncVal_resets (o : Nat) (v : Word) (s : State) : (setSyncVal o v s).resets = s.resets := rfl
@[simp] theorem setSyncVal_store (o : Nat) (v : Word) (s : State) : (setSyncVal o v s).store = s.store := rfl
@[simp] theorem setSyncVal_flash (o : Nat) (v : Word) (s : State) : (setSyncVal o v s).flash = s.flash := rfl
@[simp] theorem setSyncVal_xlat (o : Nat) (v : Word) (s : State) : (setSyncVal o v s).xlat = s.xlat := rfl
@[simp] theorem setSyncVal_coh (o : Nat) (v : Word) (s : State) : (setSyncVal o v s).coh = s.coh := rfl
@[simp] theorem setSyncVal_tiles (o : Nat) (v : Word) (s : State) : (setSyncVal o v s).tiles = s.tiles := rfl
@[simp] theorem setSyncVal_eng (o : Nat) (v : Word) (s : State) : (setSyncVal o v s).eng = s.eng := rfl
@[simp] theorem setSyncVal_fab (o : Nat) (v : Word) (s : State) : (setSyncVal o v s).fab = s.fab := rfl
@[simp] theorem setSyncVal_pair (o : Nat) (v : Word) (s : State) : (setSyncVal o v s).pair = s.pair := rfl
@[simp] theorem setSyncVal_expelled (o : Nat) (v : Word) (s : State) : (setSyncVal o v s).expelled = s.expelled := rfl
@[simp] theorem setSyncVal_redirect (o : Nat) (v : Word) (s : State) : (setSyncVal o v s).redirect = s.redirect := rfl
@[simp] theorem setSyncVal_nv (o : Nat) (v : Word) (s : State) : (setSyncVal o v s).nv = s.nv := rfl
@[simp] theorem setSyncVal_fw (o : Nat) (v : Word) (s : State) : (setSyncVal o v s).fw = s.fw := rfl
@[simp] theorem setSyncVal_err (o : Nat) (v : Word) (s : State) : (setSyncVal o v s).err = s.err := rfl
@[simp] theorem setSyncVal_power (o : Nat) (v : Word) (s : State) : (setSyncVal o v s).power = s.power := rfl
@[simp] theorem setSyncVal_time (o : Nat) (v : Word) (s : State) : (setSyncVal o v s).time = s.time := rfl
@[simp] theorem setSyncVal_side (o : Nat) (v : Word) (s : State) : (setSyncVal o v s).side = s.side := rfl
@[simp] theorem setSyncVal_out (o : Nat) (v : Word) (s : State) : (setSyncVal o v s).out = s.out := rfl

/-! ### addMeter -/

@[simp] theorem addMeter_pending (r : BitVec 6) (f : Meter → Meter) (s : State) : (addMeter r f s).pending = s.pending := rfl
@[simp] theorem addMeter_variant (r : BitVec 6) (f : Meter → Meter) (s : State) : (addMeter r f s).variant = s.variant := rfl
@[simp] theorem addMeter_phase (r : BitVec 6) (f : Meter → Meter) (s : State) : (addMeter r f s).phase = s.phase := rfl
@[simp] theorem addMeter_cause (r : BitVec 6) (f : Meter → Meter) (s : State) : (addMeter r f s).cause = s.cause := rfl
@[simp] theorem addMeter_env (r : BitVec 6) (f : Meter → Meter) (s : State) : (addMeter r f s).env = s.env := rfl
@[simp] theorem addMeter_freeIdx (r : BitVec 6) (f : Meter → Meter) (s : State) : (addMeter r f s).freeIdx = s.freeIdx := rfl
@[simp] theorem addMeter_port (r : BitVec 6) (f : Meter → Meter) (s : State) : (addMeter r f s).port = s.port := rfl
@[simp] theorem addMeter_comp (r : BitVec 6) (f : Meter → Meter) (s : State) : (addMeter r f s).comp = s.comp := rfl
@[simp] theorem addMeter_issued (r : BitVec 6) (f : Meter → Meter) (s : State) : (addMeter r f s).issued = s.issued := rfl
@[simp] theorem addMeter_compose (r : BitVec 6) (f : Meter → Meter) (s : State) : (addMeter r f s).compose = s.compose := rfl
@[simp] theorem addMeter_drain (r : BitVec 6) (f : Meter → Meter) (s : State) : (addMeter r f s).drain = s.drain := rfl
@[simp] theorem addMeter_ever (r : BitVec 6) (f : Meter → Meter) (s : State) : (addMeter r f s).ever = s.ever := rfl
@[simp] theorem addMeter_held (r : BitVec 6) (f : Meter → Meter) (s : State) : (addMeter r f s).held = s.held := rfl
@[simp] theorem addMeter_nextHeld (r : BitVec 6) (f : Meter → Meter) (s : State) : (addMeter r f s).nextHeld = s.nextHeld := rfl
@[simp] theorem addMeter_prevTrip (r : BitVec 6) (f : Meter → Meter) (s : State) : (addMeter r f s).prevTrip = s.prevTrip := rfl
@[simp] theorem addMeter_reportSeq (r : BitVec 6) (f : Meter → Meter) (s : State) : (addMeter r f s).reportSeq = s.reportSeq := rfl
@[simp] theorem addMeter_queues (r : BitVec 6) (f : Meter → Meter) (s : State) : (addMeter r f s).queues = s.queues := rfl
@[simp] theorem addMeter_rota (r : BitVec 6) (f : Meter → Meter) (s : State) : (addMeter r f s).rota = s.rota := rfl
@[simp] theorem addMeter_rings (r : BitVec 6) (f : Meter → Meter) (s : State) : (addMeter r f s).rings = s.rings := rfl
@[simp] theorem addMeter_late (r : BitVec 6) (f : Meter → Meter) (s : State) : (addMeter r f s).late = s.late := rfl
@[simp] theorem addMeter_bells (r : BitVec 6) (f : Meter → Meter) (s : State) : (addMeter r f s).bells = s.bells := rfl
@[simp] theorem addMeter_jobs (r : BitVec 6) (f : Meter → Meter) (s : State) : (addMeter r f s).jobs = s.jobs := rfl
@[simp] theorem addMeter_resets (r : BitVec 6) (f : Meter → Meter) (s : State) : (addMeter r f s).resets = s.resets := rfl
@[simp] theorem addMeter_store (r : BitVec 6) (f : Meter → Meter) (s : State) : (addMeter r f s).store = s.store := rfl
@[simp] theorem addMeter_flash (r : BitVec 6) (f : Meter → Meter) (s : State) : (addMeter r f s).flash = s.flash := rfl
@[simp] theorem addMeter_xlat (r : BitVec 6) (f : Meter → Meter) (s : State) : (addMeter r f s).xlat = s.xlat := rfl
@[simp] theorem addMeter_coh (r : BitVec 6) (f : Meter → Meter) (s : State) : (addMeter r f s).coh = s.coh := rfl
@[simp] theorem addMeter_sync (r : BitVec 6) (f : Meter → Meter) (s : State) : (addMeter r f s).sync = s.sync := rfl
@[simp] theorem addMeter_tiles (r : BitVec 6) (f : Meter → Meter) (s : State) : (addMeter r f s).tiles = s.tiles := rfl
@[simp] theorem addMeter_eng (r : BitVec 6) (f : Meter → Meter) (s : State) : (addMeter r f s).eng = s.eng := rfl
@[simp] theorem addMeter_fab (r : BitVec 6) (f : Meter → Meter) (s : State) : (addMeter r f s).fab = s.fab := rfl
@[simp] theorem addMeter_pair (r : BitVec 6) (f : Meter → Meter) (s : State) : (addMeter r f s).pair = s.pair := rfl
@[simp] theorem addMeter_expelled (r : BitVec 6) (f : Meter → Meter) (s : State) : (addMeter r f s).expelled = s.expelled := rfl
@[simp] theorem addMeter_redirect (r : BitVec 6) (f : Meter → Meter) (s : State) : (addMeter r f s).redirect = s.redirect := rfl
@[simp] theorem addMeter_nv (r : BitVec 6) (f : Meter → Meter) (s : State) : (addMeter r f s).nv = s.nv := rfl
@[simp] theorem addMeter_fw (r : BitVec 6) (f : Meter → Meter) (s : State) : (addMeter r f s).fw = s.fw := rfl
@[simp] theorem addMeter_err (r : BitVec 6) (f : Meter → Meter) (s : State) : (addMeter r f s).err = s.err := rfl
@[simp] theorem addMeter_power (r : BitVec 6) (f : Meter → Meter) (s : State) : (addMeter r f s).power = s.power := rfl
@[simp] theorem addMeter_time (r : BitVec 6) (f : Meter → Meter) (s : State) : (addMeter r f s).time = s.time := rfl
@[simp] theorem addMeter_side (r : BitVec 6) (f : Meter → Meter) (s : State) : (addMeter r f s).side = s.side := rfl
@[simp] theorem addMeter_out (r : BitVec 6) (f : Meter → Meter) (s : State) : (addMeter r f s).out = s.out := rfl

/-! ### setTemp -/

@[simp] theorem setTemp_pending (i : Nat) (v : BitVec 16) (s : State) : (setTemp i v s).pending = s.pending := rfl
@[simp] theorem setTemp_variant (i : Nat) (v : BitVec 16) (s : State) : (setTemp i v s).variant = s.variant := rfl
@[simp] theorem setTemp_phase (i : Nat) (v : BitVec 16) (s : State) : (setTemp i v s).phase = s.phase := rfl
@[simp] theorem setTemp_cause (i : Nat) (v : BitVec 16) (s : State) : (setTemp i v s).cause = s.cause := rfl
@[simp] theorem setTemp_env (i : Nat) (v : BitVec 16) (s : State) : (setTemp i v s).env = s.env := rfl
@[simp] theorem setTemp_freeIdx (i : Nat) (v : BitVec 16) (s : State) : (setTemp i v s).freeIdx = s.freeIdx := rfl
@[simp] theorem setTemp_port (i : Nat) (v : BitVec 16) (s : State) : (setTemp i v s).port = s.port := rfl
@[simp] theorem setTemp_comp (i : Nat) (v : BitVec 16) (s : State) : (setTemp i v s).comp = s.comp := rfl
@[simp] theorem setTemp_issued (i : Nat) (v : BitVec 16) (s : State) : (setTemp i v s).issued = s.issued := rfl
@[simp] theorem setTemp_compose (i : Nat) (v : BitVec 16) (s : State) : (setTemp i v s).compose = s.compose := rfl
@[simp] theorem setTemp_drain (i : Nat) (v : BitVec 16) (s : State) : (setTemp i v s).drain = s.drain := rfl
@[simp] theorem setTemp_ever (i : Nat) (v : BitVec 16) (s : State) : (setTemp i v s).ever = s.ever := rfl
@[simp] theorem setTemp_held (i : Nat) (v : BitVec 16) (s : State) : (setTemp i v s).held = s.held := rfl
@[simp] theorem setTemp_nextHeld (i : Nat) (v : BitVec 16) (s : State) : (setTemp i v s).nextHeld = s.nextHeld := rfl
@[simp] theorem setTemp_trip (i : Nat) (v : BitVec 16) (s : State) : (setTemp i v s).trip = s.trip := rfl
@[simp] theorem setTemp_prevTrip (i : Nat) (v : BitVec 16) (s : State) : (setTemp i v s).prevTrip = s.prevTrip := rfl
@[simp] theorem setTemp_reportSeq (i : Nat) (v : BitVec 16) (s : State) : (setTemp i v s).reportSeq = s.reportSeq := rfl
@[simp] theorem setTemp_queues (i : Nat) (v : BitVec 16) (s : State) : (setTemp i v s).queues = s.queues := rfl
@[simp] theorem setTemp_rota (i : Nat) (v : BitVec 16) (s : State) : (setTemp i v s).rota = s.rota := rfl
@[simp] theorem setTemp_rings (i : Nat) (v : BitVec 16) (s : State) : (setTemp i v s).rings = s.rings := rfl
@[simp] theorem setTemp_late (i : Nat) (v : BitVec 16) (s : State) : (setTemp i v s).late = s.late := rfl
@[simp] theorem setTemp_bells (i : Nat) (v : BitVec 16) (s : State) : (setTemp i v s).bells = s.bells := rfl
@[simp] theorem setTemp_jobs (i : Nat) (v : BitVec 16) (s : State) : (setTemp i v s).jobs = s.jobs := rfl
@[simp] theorem setTemp_resets (i : Nat) (v : BitVec 16) (s : State) : (setTemp i v s).resets = s.resets := rfl
@[simp] theorem setTemp_store (i : Nat) (v : BitVec 16) (s : State) : (setTemp i v s).store = s.store := rfl
@[simp] theorem setTemp_flash (i : Nat) (v : BitVec 16) (s : State) : (setTemp i v s).flash = s.flash := rfl
@[simp] theorem setTemp_xlat (i : Nat) (v : BitVec 16) (s : State) : (setTemp i v s).xlat = s.xlat := rfl
@[simp] theorem setTemp_coh (i : Nat) (v : BitVec 16) (s : State) : (setTemp i v s).coh = s.coh := rfl
@[simp] theorem setTemp_sync (i : Nat) (v : BitVec 16) (s : State) : (setTemp i v s).sync = s.sync := rfl
@[simp] theorem setTemp_tiles (i : Nat) (v : BitVec 16) (s : State) : (setTemp i v s).tiles = s.tiles := rfl
@[simp] theorem setTemp_eng (i : Nat) (v : BitVec 16) (s : State) : (setTemp i v s).eng = s.eng := rfl
@[simp] theorem setTemp_fab (i : Nat) (v : BitVec 16) (s : State) : (setTemp i v s).fab = s.fab := rfl
@[simp] theorem setTemp_pair (i : Nat) (v : BitVec 16) (s : State) : (setTemp i v s).pair = s.pair := rfl
@[simp] theorem setTemp_expelled (i : Nat) (v : BitVec 16) (s : State) : (setTemp i v s).expelled = s.expelled := rfl
@[simp] theorem setTemp_redirect (i : Nat) (v : BitVec 16) (s : State) : (setTemp i v s).redirect = s.redirect := rfl
@[simp] theorem setTemp_nv (i : Nat) (v : BitVec 16) (s : State) : (setTemp i v s).nv = s.nv := rfl
@[simp] theorem setTemp_fw (i : Nat) (v : BitVec 16) (s : State) : (setTemp i v s).fw = s.fw := rfl
@[simp] theorem setTemp_err (i : Nat) (v : BitVec 16) (s : State) : (setTemp i v s).err = s.err := rfl
@[simp] theorem setTemp_power (i : Nat) (v : BitVec 16) (s : State) : (setTemp i v s).power = { s.power with temps := updAt s.power.temps i fun _ => v } := rfl
@[simp] theorem setTemp_time (i : Nat) (v : BitVec 16) (s : State) : (setTemp i v s).time = s.time := rfl
@[simp] theorem setTemp_side (i : Nat) (v : BitVec 16) (s : State) : (setTemp i v s).side = s.side := rfl
@[simp] theorem setTemp_out (i : Nat) (v : BitVec 16) (s : State) : (setTemp i v s).out = s.out := rfl

/-! ### dropWalk -/

@[simp] theorem dropWalk_pending (i : Nat) (s : State) : (dropWalk i s).pending = s.pending := rfl
@[simp] theorem dropWalk_variant (i : Nat) (s : State) : (dropWalk i s).variant = s.variant := rfl
@[simp] theorem dropWalk_phase (i : Nat) (s : State) : (dropWalk i s).phase = s.phase := rfl
@[simp] theorem dropWalk_cause (i : Nat) (s : State) : (dropWalk i s).cause = s.cause := rfl
@[simp] theorem dropWalk_env (i : Nat) (s : State) : (dropWalk i s).env = s.env := rfl
@[simp] theorem dropWalk_freeIdx (i : Nat) (s : State) : (dropWalk i s).freeIdx = s.freeIdx := rfl
@[simp] theorem dropWalk_port (i : Nat) (s : State) : (dropWalk i s).port = s.port := rfl
@[simp] theorem dropWalk_comp (i : Nat) (s : State) : (dropWalk i s).comp = s.comp := rfl
@[simp] theorem dropWalk_issued (i : Nat) (s : State) : (dropWalk i s).issued = s.issued := rfl
@[simp] theorem dropWalk_compose (i : Nat) (s : State) : (dropWalk i s).compose = s.compose := rfl
@[simp] theorem dropWalk_drain (i : Nat) (s : State) : (dropWalk i s).drain = s.drain := rfl
@[simp] theorem dropWalk_ever (i : Nat) (s : State) : (dropWalk i s).ever = s.ever := rfl
@[simp] theorem dropWalk_held (i : Nat) (s : State) : (dropWalk i s).held = s.held := rfl
@[simp] theorem dropWalk_nextHeld (i : Nat) (s : State) : (dropWalk i s).nextHeld = s.nextHeld := rfl
@[simp] theorem dropWalk_trip (i : Nat) (s : State) : (dropWalk i s).trip = s.trip := rfl
@[simp] theorem dropWalk_prevTrip (i : Nat) (s : State) : (dropWalk i s).prevTrip = s.prevTrip := rfl
@[simp] theorem dropWalk_reportSeq (i : Nat) (s : State) : (dropWalk i s).reportSeq = s.reportSeq := rfl
@[simp] theorem dropWalk_queues (i : Nat) (s : State) : (dropWalk i s).queues = s.queues := rfl
@[simp] theorem dropWalk_rota (i : Nat) (s : State) : (dropWalk i s).rota = s.rota := rfl
@[simp] theorem dropWalk_rings (i : Nat) (s : State) : (dropWalk i s).rings = s.rings := rfl
@[simp] theorem dropWalk_late (i : Nat) (s : State) : (dropWalk i s).late = s.late := rfl
@[simp] theorem dropWalk_bells (i : Nat) (s : State) : (dropWalk i s).bells = s.bells := rfl
@[simp] theorem dropWalk_jobs (i : Nat) (s : State) : (dropWalk i s).jobs = s.jobs := rfl
@[simp] theorem dropWalk_resets (i : Nat) (s : State) : (dropWalk i s).resets = s.resets := rfl
@[simp] theorem dropWalk_store (i : Nat) (s : State) : (dropWalk i s).store = s.store := rfl
@[simp] theorem dropWalk_flash (i : Nat) (s : State) : (dropWalk i s).flash = s.flash := rfl
@[simp] theorem dropWalk_xlat (i : Nat) (s : State) : (dropWalk i s).xlat = { s.xlat with walks := dropIf s.xlat.walks (·.id == i) } := rfl
@[simp] theorem dropWalk_coh (i : Nat) (s : State) : (dropWalk i s).coh = s.coh := rfl
@[simp] theorem dropWalk_sync (i : Nat) (s : State) : (dropWalk i s).sync = s.sync := rfl
@[simp] theorem dropWalk_tiles (i : Nat) (s : State) : (dropWalk i s).tiles = s.tiles := rfl
@[simp] theorem dropWalk_eng (i : Nat) (s : State) : (dropWalk i s).eng = s.eng := rfl
@[simp] theorem dropWalk_fab (i : Nat) (s : State) : (dropWalk i s).fab = s.fab := rfl
@[simp] theorem dropWalk_pair (i : Nat) (s : State) : (dropWalk i s).pair = s.pair := rfl
@[simp] theorem dropWalk_expelled (i : Nat) (s : State) : (dropWalk i s).expelled = s.expelled := rfl
@[simp] theorem dropWalk_redirect (i : Nat) (s : State) : (dropWalk i s).redirect = s.redirect := rfl
@[simp] theorem dropWalk_nv (i : Nat) (s : State) : (dropWalk i s).nv = s.nv := rfl
@[simp] theorem dropWalk_fw (i : Nat) (s : State) : (dropWalk i s).fw = s.fw := rfl
@[simp] theorem dropWalk_err (i : Nat) (s : State) : (dropWalk i s).err = s.err := rfl
@[simp] theorem dropWalk_power (i : Nat) (s : State) : (dropWalk i s).power = s.power := rfl
@[simp] theorem dropWalk_time (i : Nat) (s : State) : (dropWalk i s).time = s.time := rfl
@[simp] theorem dropWalk_side (i : Nat) (s : State) : (dropWalk i s).side = s.side := rfl
@[simp] theorem dropWalk_out (i : Nat) (s : State) : (dropWalk i s).out = s.out := rfl

/-! ### fillTlb -/

@[simp] theorem fillTlb_pending (e : TlbEnt) (s : State) : (fillTlb e s).pending = s.pending := rfl
@[simp] theorem fillTlb_variant (e : TlbEnt) (s : State) : (fillTlb e s).variant = s.variant := rfl
@[simp] theorem fillTlb_phase (e : TlbEnt) (s : State) : (fillTlb e s).phase = s.phase := rfl
@[simp] theorem fillTlb_cause (e : TlbEnt) (s : State) : (fillTlb e s).cause = s.cause := rfl
@[simp] theorem fillTlb_env (e : TlbEnt) (s : State) : (fillTlb e s).env = s.env := rfl
@[simp] theorem fillTlb_freeIdx (e : TlbEnt) (s : State) : (fillTlb e s).freeIdx = s.freeIdx := rfl
@[simp] theorem fillTlb_port (e : TlbEnt) (s : State) : (fillTlb e s).port = s.port := rfl
@[simp] theorem fillTlb_comp (e : TlbEnt) (s : State) : (fillTlb e s).comp = s.comp := rfl
@[simp] theorem fillTlb_issued (e : TlbEnt) (s : State) : (fillTlb e s).issued = s.issued := rfl
@[simp] theorem fillTlb_compose (e : TlbEnt) (s : State) : (fillTlb e s).compose = s.compose := rfl
@[simp] theorem fillTlb_drain (e : TlbEnt) (s : State) : (fillTlb e s).drain = s.drain := rfl
@[simp] theorem fillTlb_ever (e : TlbEnt) (s : State) : (fillTlb e s).ever = s.ever := rfl
@[simp] theorem fillTlb_held (e : TlbEnt) (s : State) : (fillTlb e s).held = s.held := rfl
@[simp] theorem fillTlb_nextHeld (e : TlbEnt) (s : State) : (fillTlb e s).nextHeld = s.nextHeld := rfl
@[simp] theorem fillTlb_trip (e : TlbEnt) (s : State) : (fillTlb e s).trip = s.trip := rfl
@[simp] theorem fillTlb_prevTrip (e : TlbEnt) (s : State) : (fillTlb e s).prevTrip = s.prevTrip := rfl
@[simp] theorem fillTlb_reportSeq (e : TlbEnt) (s : State) : (fillTlb e s).reportSeq = s.reportSeq := rfl
@[simp] theorem fillTlb_queues (e : TlbEnt) (s : State) : (fillTlb e s).queues = s.queues := rfl
@[simp] theorem fillTlb_rota (e : TlbEnt) (s : State) : (fillTlb e s).rota = s.rota := rfl
@[simp] theorem fillTlb_rings (e : TlbEnt) (s : State) : (fillTlb e s).rings = s.rings := rfl
@[simp] theorem fillTlb_late (e : TlbEnt) (s : State) : (fillTlb e s).late = s.late := rfl
@[simp] theorem fillTlb_bells (e : TlbEnt) (s : State) : (fillTlb e s).bells = s.bells := rfl
@[simp] theorem fillTlb_jobs (e : TlbEnt) (s : State) : (fillTlb e s).jobs = s.jobs := rfl
@[simp] theorem fillTlb_resets (e : TlbEnt) (s : State) : (fillTlb e s).resets = s.resets := rfl
@[simp] theorem fillTlb_store (e : TlbEnt) (s : State) : (fillTlb e s).store = s.store := rfl
@[simp] theorem fillTlb_flash (e : TlbEnt) (s : State) : (fillTlb e s).flash = s.flash := rfl
@[simp] theorem fillTlb_coh (e : TlbEnt) (s : State) : (fillTlb e s).coh = s.coh := rfl
@[simp] theorem fillTlb_sync (e : TlbEnt) (s : State) : (fillTlb e s).sync = s.sync := rfl
@[simp] theorem fillTlb_tiles (e : TlbEnt) (s : State) : (fillTlb e s).tiles = s.tiles := rfl
@[simp] theorem fillTlb_eng (e : TlbEnt) (s : State) : (fillTlb e s).eng = s.eng := rfl
@[simp] theorem fillTlb_fab (e : TlbEnt) (s : State) : (fillTlb e s).fab = s.fab := rfl
@[simp] theorem fillTlb_pair (e : TlbEnt) (s : State) : (fillTlb e s).pair = s.pair := rfl
@[simp] theorem fillTlb_expelled (e : TlbEnt) (s : State) : (fillTlb e s).expelled = s.expelled := rfl
@[simp] theorem fillTlb_redirect (e : TlbEnt) (s : State) : (fillTlb e s).redirect = s.redirect := rfl
@[simp] theorem fillTlb_nv (e : TlbEnt) (s : State) : (fillTlb e s).nv = s.nv := rfl
@[simp] theorem fillTlb_fw (e : TlbEnt) (s : State) : (fillTlb e s).fw = s.fw := rfl
@[simp] theorem fillTlb_err (e : TlbEnt) (s : State) : (fillTlb e s).err = s.err := rfl
@[simp] theorem fillTlb_power (e : TlbEnt) (s : State) : (fillTlb e s).power = s.power := rfl
@[simp] theorem fillTlb_time (e : TlbEnt) (s : State) : (fillTlb e s).time = s.time := rfl
@[simp] theorem fillTlb_side (e : TlbEnt) (s : State) : (fillTlb e s).side = s.side := rfl
@[simp] theorem fillTlb_out (e : TlbEnt) (s : State) : (fillTlb e s).out = s.out := rfl

end Sys2Proof.Laws
end

