-- ==== Sys2Proof/Safety.lean ====
section
/-! DEFINITION. What counts as a safe step: it answers a next state. R5 leaves no behaviour undefined, so no command
of the block stops it. -/

namespace Sys2Proof

/-- An outcome that goes on. -/
def Outcome.goesOn {σ φ ρ : Type} : Host.Outcome σ φ ρ → Prop
  | .next _ => True
  | _ => False

/-- A state is safe when its next step goes on. -/
def Safe (s : Machine.State) : Prop := Outcome.goesOn (Machine.step s)

end Sys2Proof
end

