-- ==== Sys2Proof/WellFormed.lean ====
section
/-! DEFINITION. When a command's operands fit together: lengths of data that the spec fixes, numbers of units that
exist. Nothing here is a rule of the spec's checks: those are in the meanings. -/

namespace Sys2Proof

/-- The packet holds as many parameter words and payload bytes as its header says (R297). -/
def Cmd.wf (c : Cmd) : Bool :=
  c.params.length == (c.h.paramLen.toNat + 7) / 8 && c.payload.length == c.h.payloadLen.toNat

/-- A line of data is 64 bytes. -/
def lineWf (d : List Byte) : Bool := d.length == 64

/-- Data of a request to a home. -/
def ReqKind.wf : ReqKind → Bool
  | .wrFull d | .wrPart _ d | .wrHint _ d _ | .wbM d => lineWf d
  | _ => true

/-- A store packet carries 1 to 64 bytes inside one line (R147, R258). -/
def StorePkt.wf (p : StorePkt) : Bool :=
  decide (1 ≤ p.data.length) && decide (bits p.opa 0 6 + p.data.length ≤ 64)

/-- Tile indices 48 to 63 do not exist (R12). -/
def tileWf (t : BitVec 10) : Bool := decide (bits t 0 6 < 48)

def At.wf (a : At) : Bool := tileWf a.tile

/-- The well-formedness of a command. -/
def Instr.wf : Instr → Bool
  | .nop c | .hello c | .regRead c | .regWrite c | .crCohCtrlWrite c | .hsFabricCtrlWrite c | .lose c
  | .hsAlertClear c _ | .crXlatStatusRead c | .crCohStatusRead c | .sbFtlHealthRead c | .crEmbStatusRead c
  | .crNmStatusRead c | .spTileCountersRead c | .hsErrStatusRead c | .dlPortStatusRead c | .commandChunk _ c
  | .compose c | .riderReset c | .queueCreate c | .queueDestroy c | .extentAssign c | .extentRevoke c
  | .extentQuery c | .lossAck c | .ptBaseSet c | .mapRange c | .unmapRange c | .lapOpen c | .lapBeginWrite c
  | .lapCommit c | .lapClose c | .stageMark c | .stageRollback c | .objPlace c | .prefetchSchedule c | .pagePin c
  | .pageEvict c | .flashTrim c | .embTableDefine c | .embLookup c | .embUpdate c | .nmFill c | .nmCopy c
  | .nmCompare c | .nmReduce c | .tileLoad c | .tileStart c | .tileStop c | .syncSet c | .syncWait c | .bulkWrite c
  | .bulkRead c | .fwStage c | .fwActivate c | .attest c | .powerPolicy c | .thermalQuery c | .errLogRead c
  | .inject c | .odometerRead c | .unitUnfence c | .tandemPair c | .tandemHandover c | .expel c | .admit_ c
  | .managerKeys c | .tripRead c | .timeSet c => c.wf
  | .wrFull _ d | .wrPart _ _ d | .wrHint _ _ d _ | .wbM _ d | .datFwd _ _ d _ => lineWf d
  | .remoteStoreArrival p _ | .flaggedStoreArrival p _ | .relayedRequest (.store p) _ | .packetAgeDiscard _ p => p.wf
  | .relayedRequest (.req _ k) _ => k.wf
  | .gatewayFrame _ _ rs => rs.all StorePkt.wf
  | .gatewayBlockRead _ d _ => d.length == 4096
  | .ld a _ _ _ | .ldU a _ _ _ | .st a _ _ _ | .stF a _ _ _ | .atom a _ _ _ _ _ _ | .fence a | .acq a _ _
  | .sigAdd a _ _ | .sigSet a _ _ | .wait a _ _ _ _ _ _ _ | .ldP a _ _ _ | .stP a _ _ _ | .vldP a _ _ | .vstP a _ _
  | .vpack a _ _ _ _ | .xaSave a _ _ | .xaMerge a _ _ | .mma a _ _ | .accRd a _ _ _ | .accWr a _ _ _ | .accClr a _
  | .dp a _ _ _ _ _ _ | .scalarIntegerOperation a _ _ _ _ | .branch a _ _ _ | .loopCounter a _ _ _ | .yield_ a
  | .halt a | .id_ a _ | .strStart a _ _ | .strWait a _ | .strStop a _ => a.wf
  | .mmaDequeue t | .loadDataReturn t _ _ | .storeLandingAck t _ _ | .streamBeatCompletion t _ _ | .signalApply t _
  | .waitLimitExpiry t _ | .tileIssueWatchdog t => tileWf t
  | .mirrorWrite (.write _ o d _) => decide (o + d.length ≤ 65536)
  | _ => true

end Sys2Proof
end

