-- ==== Sys2Proof/Tests/Slice0.lean ====
section
/-! SUPPORT. The modeller's own tests: a smoke test of well-formedness, a few single steps whose expected results come
from the rules they cite, and for each statement a witness: a concrete state and operands that meet its hypotheses. -/

namespace Sys2Proof.Tests

open Sys2Proof.Machine Sys2Proof.Claims

set_option Elab.async false

/-! ### Builders -/

/-- The state in which a packet's chapter runs, or the state itself where it does not. -/
def into (op : Nat) (c : Cmd) (s : State) : State := (runsIn op c s).getD s

theorem runs {op : Nat} {c : Cmd} {s : State} (h : (runsIn op c s).isSome = true) :
    runsIn op c s = some (into op c s) := by
  unfold into
  cases hr : runsIn op c s with
  | none => rw [hr] at h; cases h
  | some u => rfl

/-- A command packet on the port, with the lengths its header should give. -/
def cmd (rider : Nat) (ps : List Nat) (payload : List Byte := []) : Cmd :=
  { h := { src := .port, version := 2, flags := 0, rider := BitVec.ofNat 8 rider, chunk := 0, queue := 0, tag := 7
           paramLen := BitVec.ofNat 16 (8 * ps.length), rsv := 0, payloadLen := BitVec.ofNat 32 payload.length
           epoch := 0, replyVa := 0 }
    params := ps.map (BitVec.ofNat 64)
    payload := payload }

/-- The same packet from command queue `q`. -/
def onQueue (q : Nat) (c : Cmd) : Cmd := { c with h := { c.h with src := .queue (BitVec.ofNat 13 q), queue := BitVec.ofNat 16 q } }

/-- The same packet on the sideband. -/
def onSideband (c : Cmd) : Cmd := { c with h := { c.h with src := .sideband } }

/-- A module that runs, with version 2 chosen on both command paths. -/
def up : State :=
  { State.reset with
    phase := .running
    port := { State.reset.port with version := some 2, sbVersion := some 2 }
    fw := { State.reset.fw with identity := true } }

def run (first count readers flags : Nat) : Run :=
  { readers := BitVec.ofNat 64 readers, writers := BitVec.ofNat 64 readers, first := BitVec.ofNat 16 first
    count := BitVec.ofNat 16 count, mirrorFirst := 0, module := 0, flags := BitVec.ofNat 8 flags }

/-- A composition: this module is number 0; extent 0 belongs to rider 1, extent 1 is lapped. -/
def comp : Comp :=
  { epoch := 1, issued := 0, peloton := 3, me := 0
    modules := [{ fp := Config.deviceFp, boot := 1, module := 0, twin := 0xFF, gateways := 0 }]
    riders := [{ rider := 1, weight := 1, maxQueues := 4, maxStreams := 64, syncBase := 0, syncCount := 64 }]
    runs := [run 0 1 2 0, run 1 1 2 2], routes := [] }

def ext (idx : Nat) : Extent :=
  { idx := idx, mirrorOf := none, live := true, fenced := false, unlisted := 0, latest := 0, wlap := none, reads := []
    holds := [], old := [] }

/-- The module with that composition and its two extents live. -/
def on : State := { up with comp := some comp, store := { up.store with extents := [ext 0, ext 1] } }

/-! ### Well-formedness: every check turns an ill-formed term away -/

theorem test_wf_packet : (Instr.nop (cmd 0 [])).wf = true ∧ (Instr.nop { cmd 0 [] with payload := [1] }).wf = false ∧
    (Instr.nop { cmd 0 [] with params := [0] }).wf = false := by decide +kernel

theorem test_wf_line : (Instr.wrFull { src := .engine 1, txn := 0, opa := 0, epoch := none } (List.replicate 64 0)).wf = true ∧
    (Instr.wrFull { src := .engine 1, txn := 0, opa := 0, epoch := none } [0]).wf = false := by decide +kernel

/-- A store packet of `n` bytes at offset `o` of extent 0. -/
def pkt (o n : Nat) : StorePkt :=
  { source := 5, epoch := 1, seq := 0, lowest := 0, rider := 1, opa := BitVec.ofNat 64 o, data := List.replicate n 9
    flagged := false, coverFrom := 0, peloton := 0 }

theorem test_wf_store : (Instr.remoteStoreArrival (pkt 60 4) 0).wf = true ∧
    (Instr.remoteStoreArrival (pkt 60 5) 0).wf = false ∧ (Instr.remoteStoreArrival (pkt 60 0) 0).wf = false ∧
    (Instr.gatewayFrame 0 0 [pkt 60 5]).wf = false := by decide +kernel

theorem test_wf_tile : (Instr.halt { tile := 47, ctx := 0 }).wf = true ∧
    (Instr.halt { tile := 48, ctx := 0 }).wf = false ∧ (Instr.mmaDequeue 63).wf = false := by decide +kernel

theorem test_wf_lengths : (Instr.gatewayBlockRead 0 [] .ok).wf = false ∧
    (Instr.mirrorWrite (.write 0 65536 [] .latest)).wf = true ∧
    (Instr.mirrorWrite (.write 0 65536 [0] .latest)).wf = false := by decide +kernel

/-! ### Packets and registers -/

theorem test_nop : ∃ t r, exec (.nop (cmd 0 [])) on = .next t ∧ t.port.replies = [r] ∧ r.status = .ok ∧ r.h.tag = 7 ∧
    t.port.outstanding = [] := by
  exact ⟨_, _, rfl, rfl, rfl, rfl, rfl⟩

theorem wit_RefusedHeaderChangesNothing :
    portAdmit (wakeUp on) 0x000 (cmd 1 []) = .run ∧ hdrChecks (wakeUp on) 0x000 (cmd 1 []) = some .auth ∧
    on.phase = .running ∧ (cmd 1 []).h.src = .port := by decide +kernel

theorem wit_HeaderCheckOrder :
    hdrForm on 0x000 (cmd 64 []) = false ∧
    (hdrForm on 0x0FF (cmd 0 []) = true ∧ opInfo 0x0FF = none) ∧
    (hdrForm on 0x000 (cmd 1 []) = true ∧ hdrSource on ⟨true, true, false, 0, .none, false⟩ 0x000 (cmd 1 []) = false) ∧
    (opInfo 0x010 = some ⟨true, false, false, 8, .none, false⟩ ∧ hdrSource on ⟨true, false, false, 8, .none, false⟩ 0x010 (cmd 0 []) = true ∧
      hdrFlags on ⟨true, false, false, 8, .none, false⟩ 0x010 (cmd 0 []) = true ∧
      hdrLens ⟨true, false, false, 8, .none, false⟩ 0x010 (cmd 0 []) = false) := by decide +kernel

theorem wit_NopAndHelloComplete :
    runsIn 0x000 (cmd 0 []) on = some (into 0x000 (cmd 0 []) on) ∧
    runsIn 0x001 (cmd 0 [0x0201]) on = some (into 0x001 (cmd 0 [0x0201]) on) ∧
    runsIn 0x001 (onSideband (cmd 0 [0x0201])) on = some (into 0x001 (onSideband (cmd 0 [0x0201])) on) ∧
    bits ((cmd 0 [0x0201]).p 0) 16 48 = 0 ∧
    chooseVersion (bits ((cmd 0 [0x0201]).p 0) 0 8) (bits ((cmd 0 [0x0201]).p 0) 8 8) = some 2 :=
  ⟨runs (by decide +kernel), runs (by decide +kernel), runs (by decide +kernel), by decide +kernel⟩

theorem wit_RegisterReadCompletes :
    runsIn 0x010 (cmd 0 [0x70060008]) on = some (into 0x010 (cmd 0 [0x70060008]) on) ∧
    regsOf ((cmd 0 [0x70060008]).p 0).toNat false = .inr [(0, .fenceMap0)] ∧
    failedHeadset (into 0x010 (cmd 0 [0x70060008]) on) (((cmd 0 [0x70060008]).p 0).toNat / 2 ^ 28) 0 = false :=
  ⟨runs (by decide +kernel), by decide +kernel⟩

/-- The addresses of `CR_COH_CTRL` of wheel 15, `HS_FABRIC_CTRL`, `HS_AGENT_CTRL`, `HS_ALERT` and `HS_FENCE_MAP0`. -/
theorem wit_RegisterWriteCompletes :
    ∀ row ∈ [(0x2F100000, 15, RegName.cohCtrl 15), (0x70040000, 0, .fabricCtrl), (0x70030000, 0, .agentCtrl),
        (0x700A0008, 0, .alerts), (0x70060008, 0, .fenceMap0)],
      (runsIn 0x011 (cmd 0 [row.1, 2 ^ 63]) on).isSome = true ∧
      regsOf ((cmd 0 [row.1, 2 ^ 63]).p 0).toNat true = .inr [(row.2.1, row.2.2)] ∧
      failedHeadset (into 0x011 (cmd 0 [row.1, 2 ^ 63]) on) (((cmd 0 [row.1, 2 ^ 63]).p 0).toNat / 2 ^ 28) row.2.1 = false ∧
      ((cmd 0 [row.1, 2 ^ 63]).p 0).toNat / 2 ^ 28 ≠ 0xF ∧ bit ((cmd 0 [row.1, 2 ^ 63]).p 1) 63 = true := by decide +kernel

/-- R120: a timeout below 100 is stored as 100. -/
theorem test_cohCtrl_clamps : ∃ t, exec (.crCohCtrlWrite (cmd 0 [0x2F100000, 0x0000006300000500])) on = .next t ∧
    t.coh.timeouts[15]? = some 100 ∧ t.coh.trackers[15]? = some 5 ∧ t.coh.timeouts[14]? = some 4000 :=
  ⟨_, rfl, by decide +kernel⟩


/-! ### Power, supply, temperatures, time -/

theorem wit_FenceMapRegister : ∃ s : State, unitFenced s (unitTile 0) = false ∧ unitFenced s (unitSpoke 15) = true ∧
    bit (regValue s .fenceMap0) 63 = true :=
  ⟨{ on with err := { on.err with fences := [unitSpoke 15] } }, by decide +kernel⟩

theorem wit_EmergencyInForce : emergency on = false ∧ emergency { on with power := { on.power with st := .brake } } = true ∧
    emergency { on with power := { on.power with st := .kickstand, kick := 2 } } = true ∧
    emergency { on with power := { on.power with st := .kickstand, kick := 3 } } = false := by decide +kernel

theorem wit_EveryStepGoesOn : State.reset.pending = [] ∧ up.pending = [] ∧ State.reset.phase ≠ .running ∧
    ({ up with phase := Phase.stopped } : State).phase ≠ .off ∧
    ({ up with phase := Phase.stopped } : State).phase ≠ .inReset ∧
    ({ up with phase := Phase.stopped } : State).phase ≠ .running ∧ ({ up with phase := Phase.off } : State).phase = .off ∧
    ({ up with phase := Phase.stopped } : State).comp = none := by decide +kernel

/-- The module while the supply holds it. -/
def low : State := { on with power := { on.power with st := .brake, hold := true, causes := [.supply] } }

theorem wit_SupplyEventsComplete : on.phase = .running ∧ low.phase = .running ∧ 45000 ≤ 45000 ∧
    BrakeCause.supply ∉ on.power.causes ∧ on.power.st ≠ .kickstand ∧ on.power.st ≠ .freewheel ∧
    low.power.hold = true ∧ 46000 < 46001 ∧ low.power.st = .brake ∧ 62000 < 62001 ∧ 70000 ≤ 70000 ∧
    2800 < 2801 ∧ on.power.policy.brakeW ≤ 3300 ∧ 2970 * 10 ≤ on.power.policy.brakeW * 9 := by decide +kernel

/-- R373: at 45 V the supply hold begins, at 45.001 V it does not. -/
theorem test_supplyWarning : ∃ t, exec (.supplyWarning 45000) on = .next t ∧ t.power.hold = true ∧ t.power.st = .brake :=
  ⟨_, rfl, by decide +kernel⟩

theorem wit_TemperatureEventsComplete :
    brakeAt 0 = some 105 ∧ brakeAt 48 = some 95 ∧ hotter 1681 105 = true ∧ hotter 1680 105 = false ∧
    on.power.temps.length = 104 ∧ tripAt 0 = some 115 ∧ tripAt 74 = some 95 ∧ hotter 1841 115 = true ∧
    hotter 2001 125 = true ∧ sensorMem 48 = true ∧ 85 * 16 ≤ (1360 : BitVec 16).toInt ∧ (1360 : BitVec 16) ≠ 0x8000 ∧
    (1359 : BitVec 16).toInt < 85 * 16 ∧ on.power.hot.Nodup ∧ Config.hasFlash on.variant = true ∧
    hotter 1121 70 = true ∧ (77 : Nat) = 74 + (3 : Fin 4).val ∧ sensorNand 77 = true ∧ (95 : Nat) < 96 ∧ on.phase ≠ .off := by decide +kernel

theorem test_thermalTrip : ∃ t, exec (.thermalTrip 0 1841) on = .next t ∧ t.power.st = .kickstand ∧ t.power.kick = 2 :=
  ⟨_, rfl, by decide +kernel⟩

theorem wit_PowerLoopsAndWakesComplete :
    (on.phase = .running ∧ on.power.st = .cruise ∧ hotter 0 (spokeTarget on) = false ∧ on.power.mhz.length = 16 ∧
      on.power.policy.floorMhz % 100 = 0 ∧ bit on.power.policy.flags 1 = true ∧ moduleIdle on = true) ∧
    (∃ s : State, s.phase = .running ∧ s.power.st = .coast) ∧
    (∃ s : State, s.phase = .running ∧ s.power.st = .freewheel ∧ s.power.wakeMs ≠ 0) ∧
    (∃ s : State, s.phase = .running ∧ (portAt s 23).oxf = true ∧ portUp s 23 = true) :=
  ⟨by decide +kernel, ⟨{ on with power := { on.power with st := .coast } }, rfl, rfl⟩,
    ⟨{ on with power := { on.power with st := .freewheel, wakeMs := 1 } }, rfl, rfl, by decide⟩,
    ⟨{ on with fab := { on.fab with ports := List.replicate 24 { on.fab.ports.headD (portAt on 0) with
        mode := 1, up := true } } }, by decide +kernel⟩⟩

theorem wit_ResetAndSupplyComplete :
    (41000 ≤ 41000 ∧ 64000 < 64001 ∧ on.phase ≠ .off) ∧
    (∃ s : State, s.phase = .off ∧ s.power.overV = true ∧ s.side.resetLow = false) ∧
    (48000 ≤ 48000 ∧ 48000 ≤ 60000 ∧
      ∃ s : State, s.phase = .off ∧ s.power.overV = false ∧ s.power.hotStop = false ∧ s.side.resetLow = false) ∧ (∃ s : State, s.phase = .inReset) :=
  ⟨by decide +kernel, ⟨{ on with phase := .off, power := { on.power with overV := true } }, rfl, rfl, rfl⟩,
    ⟨by decide, by decide, { on with phase := .off }, rfl, rfl, rfl, rfl⟩, ⟨{ on with phase := .inReset }, rfl⟩⟩

/-- `POWER_POLICY` with the defaults of R381 and a request. -/
def policyCmd (req : Nat) : Cmd :=
  cmd 0 [req + 2 * 2 ^ 8 + 2800 * 2 ^ 16 + 600 * 2 ^ 32 + 2400 * 2 ^ 48, 3300 + 1 * 2 ^ 16 + 1000000 * 2 ^ 32, 0, 0, 0, 0, 0, 0]

theorem wit_PowerCommandsComplete :
    (runsIn 0x580 (policyCmd 0) on = some (into 0x580 (policyCmd 0) on) ∧
      runsIn 0x580 (policyCmd 4) on = some (into 0x580 (policyCmd 4) on) ∧
      runsIn 0x581 (cmd 0 []) on = some (into 0x581 (cmd 0 []) on)) ∧
    policyForm (paramBytes (policyCmd 0).params) = true ∧ fieldB (paramBytes (policyCmd 0).params) 0 1 = 0 ∧
    policyForm (paramBytes (policyCmd 4).params) = true ∧ fieldB (paramBytes (policyCmd 4).params) 0 1 = 4 ∧
    (into 0x581 (cmd 0 []) on).power.temps.length = 104 :=
  ⟨⟨runs (by decide +kernel), runs (by decide +kernel), runs (by decide +kernel)⟩, by decide +kernel⟩

/-- The module with a `TIME_SET` that waits for an edge. -/
def waiting : State :=
  { on with
    port := { on.port with outstanding := [openOf 0x701 (cmd 0 [9, 0])] }
    time := { on.time with waiting := [(openOf 0x701 (cmd 0 [9, 0]), 9)] } }

theorem wit_TimeCommandsComplete :
    (runsIn 0x701 (cmd 0 [9, 1]) on = some (into 0x701 (cmd 0 [9, 1]) on) ∧
      runsIn 0x701 (cmd 0 [9, 0]) on = some (into 0x701 (cmd 0 [9, 0]) on)) ∧
    glitch on.time = false ∧ on.time.waiting = [] ∧
    (∃ t : Time, glitch t = true) ∧
    (∃ t : Time, glitch t = false ∧ t.expected = some 20000 ∧ t.lost = false ∧ t.cadence.toNat + 10000 < 20000) ∧
    (∃ t : Time, glitch t = false ∧ t.expected = some 0 ∧ t.lost = false ∧ (0 : Word).toNat ≤ t.cadence.toNat) ∧
    bits ((cmd 0 [9, 1]).p 1) 1 63 = 0 ∧ bit ((cmd 0 [9, 1]).p 1) 0 = true ∧
    timeOk (into 0x701 (cmd 0 [9, 1]) on) ((cmd 0 [9, 1]).p 0) = true ∧ bit ((cmd 0 [9, 0]).p 1) 0 = false ∧
    timeOk (into 0x701 (cmd 0 [9, 0]) on) ((cmd 0 [9, 0]).p 0) = true ∧
    waiting.phase = .running ∧ waiting.time.waiting = [(openOf 0x701 (cmd 0 [9, 0]), 9)] ∧
    isOpen (openOf 0x701 (cmd 0 [9, 0])) waiting = true :=
  ⟨⟨runs (by decide +kernel), runs (by decide +kernel)⟩, by decide +kernel, by decide +kernel,
    ⟨{ on.time with lastEdge := some 0 }, by decide +kernel⟩,
    ⟨{ on.time with expected := some 20000, lost := false }, by decide +kernel⟩,
    ⟨{ on.time with expected := some 0, lost := false }, by decide +kernel⟩, by decide +kernel⟩

/-- Time that a step forward of the counter adds is time in the power state (R397). -/
theorem test_time_step_counts : (countTime on.now { on with time := setCadence 9 on.time }).trip.stateNs = [0, 0, 9, 0, 0, 0] := by
  decide +kernel

/-- The module after its first composition, at time 10. -/
def later : State := { on with ever := true, time := { on.time with cadence := 10 } }

theorem wit_TimeSetNeverBackTwice :
    runsIn 0x701 (cmd 0 [9, 1]) later = some (into 0x701 (cmd 0 [9, 1]) later) ∧
    ((cmd 0 [9, 1]).p 0).toNat < (into 0x701 (cmd 0 [9, 1]) later).time.cadence.toNat ∧
    (into 0x701 (cmd 0 [9, 1]) later).ever = true :=
  ⟨runs (by decide +kernel), by decide +kernel⟩

theorem wit_TripReadCompletes :
    runsIn 0x700 (cmd 0 [0]) on = some (into 0x700 (cmd 0 [0]) on) ∧ (cmd 0 [0]).h.src = .port ∧
    (into 0x700 (cmd 0 [0]) on).fw.identity = true ∧ bits ((cmd 0 [0]).p 0) 6 58 = 0 :=
  ⟨runs (by decide +kernel), by decide +kernel⟩

/-! ### Sideband, JTAG, pins -/

theorem wit_SidebandComplete : bridgeUp on = true ∧ 8 ≤ (8 : BitVec 8).toNat ∧ (0xFE : BitVec 8) ≠ 0xFF ∧
    (131071 : BitVec 32).toNat < 131072 ∧ 1 ≤ (64 : BitVec 32).toNat ∧ (64 : BitVec 32).toNat ≤ 64 ∧
    on.side.resetLow = false ∧ ({ on with phase := Phase.off } : State).phase = .off := by decide +kernel

theorem test_idcode : ∃ t, exec (.idcode 11) on = .next t ∧ t.out = [.jtag 11 0x1F06556B] := ⟨_, rfl, by decide +kernel⟩

/-! ### What the predicates of the statements ask, as tests -/

/-- What `Quiet` asks, of an access to extent 0. -/
def quietB (s : State) (q : Rq) (off : Nat) (w : Bool) : Bool :=
  decide (accessAt s q off w = .inr (ext 0)) && !extLapped s (ext 0) && (q.op.bind (heldView (ext 0))).isNone &&
    (findTicket s (q.key off) w).isNone && !lineBusy s (lineOf off) w && !scanHolds s off && (dirOf s (lineOf off)).isNone &&
    s.err.inj.isEmpty && s.store.soft.isEmpty

theorem quiet {s : State} {q : Rq} {off : Nat} {w : Bool} (h : quietB s q off w = true) : Quiet s q off w (ext 0) := by
  simp only [quietB, Bool.and_eq_true, decide_eq_true_eq, Bool.not_eq_true', Option.isNone_iff_eq_none, List.isEmpty_iff] at h
  obtain ⟨⟨⟨⟨⟨⟨⟨⟨h1, h3⟩, h4⟩, h5⟩, h6⟩, h7⟩, h8⟩, h9⟩, h10⟩ := h
  exact ⟨h1, rfl, h3, h4, h5, h6, h7, h8, h9, h10⟩

def frameB (s : State) (off f : Nat) (fr : Frame) : Bool :=
  decide (pageLoc s.store (pageOf off) (granuleOf off) = .frame f) && decide (findFrame s.store f = some fr) && !frameFenced s fr off

theorem inFrame {s : State} {off f : Nat} {fr : Frame} (h : frameB s off f fr = true) : InFrame s off f fr := by
  simp only [frameB, Bool.and_eq_true, decide_eq_true_eq, Bool.not_eq_true'] at h
  exact ⟨h.1.1, h.1.2, h.2⟩

def readsB (s : State) (q : Rq) (off len f : Nat) (fr : Frame) : Bool :=
  quietB s q off false && frameB s off f fr && !badAt s.store fr.tier (f * 65536 + off % 65536) len

theorem reads {s : State} {q : Rq} {off len : Nat} (f : Nat) (fr : Frame) (h : readsB s q off len f fr = true) :
    Reads s q off len := by
  simp only [readsB, Bool.and_eq_true, Bool.not_eq_true'] at h
  exact ⟨ext 0, quiet h.1.1, .inr ⟨f, fr, inFrame h.1.2, h.2⟩⟩

def writesB (s : State) (q : Rq) (off f : Nat) (fr : Frame) (bs : List Byte) : Bool :=
  quietB s q off true && frameB s off f fr && (findPage s.store (pageOf off)).copy.isNone && !programHolds s.store (pageOf off) &&
    !partialBad s.store (frameTier s.store f) (f * 65536 + off % 65536) (allBytes bs) && (syncMirror s (ext 0) (pageOf off)).isNone &&
    !s.pair.inFlight.contains (pageOf off)

theorem writes {s : State} {q : Rq} {off f : Nat} {fr : Frame} {bs : List Byte} (h : writesB s q off f fr bs = true) :
    Writes s q off f fr bs (ext 0) := by
  simp only [writesB, Bool.and_eq_true, Bool.not_eq_true', Option.isNone_iff_eq_none] at h
  obtain ⟨⟨⟨⟨⟨⟨h1, h2⟩, h3⟩, h4⟩, h5⟩, h6⟩, h7⟩ := h
  exact ⟨quiet h1, inFrame h2, h3, h4, h5, h6, h7⟩

def hitsB (s : State) (cl : XClient) (r : BitVec 6) (va : Word) (write : Bool) (opa : Word) : Bool :=
  !unitFenced s (unitChainring (clientWheel cl)) && decide (va.toNat < 2 ^ 57) && (rootOf s r).isSome &&
    !unmapCovers s r va.toNat && (clientWalks s cl).isEmpty && decide ((microHit s cl r va.toNat write).map (·.opaOf va.toNat) = some opa)

theorem hit {s : State} {cl : XClient} {r : BitVec 6} {va : Word} {write : Bool} {opa : Word}
    (h : hitsB s cl r va write opa = true) : Hits s cl r va write opa := by
  simp only [hitsB, Bool.and_eq_true, Bool.not_eq_true', decide_eq_true_eq, List.isEmpty_iff] at h
  obtain ⟨⟨⟨⟨⟨h1, h2⟩, h3⟩, h4⟩, h5⟩, h6⟩ := h
  exact ⟨h1, h2, h3, h4, h5, h6⟩

/-- The frame of the first page. -/
def frame0 : Frame := { id := 0, tier := .hbm, ch := false }

/-! ### Tiles -/

/-- Context 0 of tile 0. -/
def slotA : At := { tile := 0, ctx := 0 }

/-- A bundle with an operation in each of the slots given (R170): a slot is not zero when its lowest bit is set. -/
def bundleOf (zs : List BSlot) : List Word :=
  [(if zs.contains .matrix then 2 ^ 48 else 0) + (if zs.contains .datapath then 2 ^ 16 else 0) + (if zs.contains .stream then 1 else 0),
    (if zs.contains .control then 2 ^ 48 else 0) + (if zs.contains .memory then 2 ^ 8 else 0)]

/-- A program of two bundles of rider 1 with one stream, whose context 0 owns every accumulator. -/
def progZ (zs : List BSlot) : Prog :=
  { rider := 1, bundles := 2, code := bundleOf zs ++ bundleOf [.control], configs := [[0]], streams := 1
    entry := List.replicate 16 0, accOwner := List.replicate 32 0, xaOwner := List.replicate 8 0, faultSync := 0 }

def prog : Prog := progZ [.memory]

/-- Context 0 runs; `S1` holds the pannier's size, `S2` and `S3` an `MMA` descriptor of one BF16 panel, `S4` 8. -/
def ctx : Ctx :=
  { Ctx.blank with
    st := .running
    s := [0, 4194304, 1, BitVec.ofNat 64 (1 * 2 ^ 60 + 1 * 2 ^ 54 + 2 ^ 51), 8] ++ List.replicate 27 0 }

def tileZ (zs : List BSlot) : Tile := { Tile.blank 0 with prog := some (progZ zs), ctxs := ctx :: List.replicate 15 Ctx.blank }

def tile : Tile := tileZ [.memory]

/-- The translation of VA 0 to 0xFFFF to the first page of the store. -/
def tlbEnt : TlbEnt := { wheel := 0, rider := 1, va := 0, size := 65536, opa := 3 * 2 ^ 54, r := true, w := true }

/-- Tile 0 runs; the first store page has an HBM frame, and VA 0 to 0xFFFF translates to it. -/
def tiledZ (zs : List BSlot) : State :=
  { on with
    tiles := [tileZ zs]
    store := { on.store with
      frames := [{ id := 0, tier := .hbm, ch := false }], nextFrame := 1
      pages := [{ n := 0, home := some 0, copy := none }] }
    xlat := { on.xlat with
      roots := [(1, 65536)]
      micro := [(.tile 0, tlbEnt), (.stream 0 0, tlbEnt)]
      tlb := [tlbEnt] } }

def tiled : State := tiledZ [.memory]

/-- An address operand: `S1` less `n`, and plain 0. -/
def below (n : Nat) : AddrOp := { base := 1, imm := BitVec.ofInt 16 (-(n : Int)) }
def at0 : AddrOp := { base := 0, imm := 0 }

theorem lone (z : BSlot) : Lone z slotA (tiledZ [z]) (tileZ [z]) (progZ [z]) ctx := by
  cases z <;> exact ⟨⟨by decide +kernel, by decide +kernel, rfl, by decide +kernel, by decide +kernel, rfl, by decide +kernel,
    by decide +kernel⟩, by decide +kernel, rfl⟩

/-- No other context of a tile with one context at work runs or is ready. -/
theorem others (k : Ctx) (j : Nat) (m : Ctx) (h : (k :: List.replicate 15 Ctx.blank)[j]? = some m) (hj : j ≠ 0) :
    m.st ≠ .running ∧ m.st ≠ .ready := by
  cases j with
  | zero => exact absurd rfl hj
  | succ j =>
    simp only [List.getElem?_cons_succ, List.getElem?_replicate] at h
    split at h
    · cases h; exact ⟨by decide, by decide⟩
    · cases h

theorem goesOn (z : BSlot) : GoesOn slotA (tileZ [z]) (progZ [z]) ctx (ctx.pc + 1) :=
  ⟨⟨rfl, rfl, rfl, rfl⟩, fun j m h hj => others ctx j m h hj, by cases z <;> decide +kernel⟩

theorem hits (w : Bool) : Hits tiled (.tile 0) 1 (ctx.addr at0) w (mkOpa 3 0 0) := by
  cases w <;> exact hit (by decide +kernel)

/-- A pannier access that ends at the pannier's last byte. -/
theorem pannier (n al : Nat) (h : (n, al) ∈ [(1, 1), (2, 1), (4, 1), (8, 1), (256, 64), (4096, 64), (40, 8)]) :
    Pannier slotA tiled ctx (below n) n al := by
  fin_cases h <;> exact ⟨by decide +kernel, by decide +kernel, by decide +kernel⟩

theorem wit_ScalarComplete :
    (∀ z, Lone z slotA (tiledZ [z]) (tileZ [z]) (progZ [z]) ctx) ∧ ctx.ends = none ∧ ctx.s.length = 32 ∧ (1 : BitVec 5) ≠ 0 ∧
    (2 : BitVec 5) ≠ 1 ∧ findTile tiled slotA.tile = some tile ∧ tile.prog = some prog ∧
    tile.ctxs[slotA.ctx.toNat]? = some ctx ∧ ctx.st = .running ∧ ctx.block = .none ∧ ctx.turn = false ∧
    prog.skip (ctx.jump.getD (ctx.pc + 1)) < prog.bundles ∧
    ∀ j m, tile.ctxs[j]? = some m → m.st = .running → j = slotA.ctx.toNat := by
  refine ⟨lone, rfl, by decide +kernel, by decide, by decide, by decide +kernel, rfl, rfl, rfl, rfl, rfl, by decide +kernel, ?_⟩
  intro j m h hr
  by_contra hj
  exact (others ctx j m h hj).1 hr

/-- A bundle with a scalar operation and a branch: each waits for the other, and an operation for another slot is none of it. -/
theorem wit_BundlesIssueWhole :
    Runs slotA (tiledZ [.datapath, .control]) (tileZ [.datapath, .control]) (progZ [.datapath, .control]) ctx ∧
    (progZ [.datapath, .control]).skip ctx.pc = ctx.pc ∧
    BSlot.memory ∉ (progZ [.datapath, .control]).slots ctx.pc ∧ BSlot.datapath ∈ (progZ [.datapath, .control]).slots ctx.pc ∧
    (slotOp ctx.bundle .datapath).isNone = true ∧
    (∃ y ∈ (progZ [.datapath, .control]).slots ctx.pc, (slotOp (ctx.bundle ++ [.id_ slotA 5]) y).isNone = true) ∧
    (∀ y ∈ (progZ [.datapath, .control]).slots ctx.pc,
      (slotOp ([.scalarIntegerOperation slotA 0 5 1 1] ++ [.id_ slotA 5]) y).isSome = true) ∧
    (∃ f, slotFn (.id_ slotA 5) = some (.control, slotA, f)) :=
  ⟨⟨by decide +kernel, by decide +kernel, rfl, by decide +kernel, by decide +kernel, rfl, by decide +kernel, by decide +kernel⟩,
    by decide +kernel, by decide +kernel, by decide +kernel, rfl, ⟨.datapath, by decide +kernel, rfl⟩, by
      intro y hy
      have h : y = .datapath ∨ y = .control := by revert hy; cases y <;> decide +kernel
      rcases h with rfl | rfl <;> rfl, ⟨_, rfl⟩⟩

/-- R162: `S0` stays zero, and a bundle of one operation moves the context to its next bundle. -/
theorem test_scalar_s0 : ∃ t, exec (.id_ slotA 0) (tiledZ [.control]) = .next t ∧ (findCtx t 0 0).map (·.getS 0) = some 0 ∧
    (findCtx t 0 0).map (·.pc) = some 1 := ⟨_, rfl, by decide +kernel⟩

/-- R170: the first of two operations of a bundle only waits. -/
theorem test_bundle_waits : ∃ t, exec (.id_ slotA 5) (tiledZ [.datapath, .control]) = .next t ∧
    (findCtx t 0 0).map (·.pc) = some 0 ∧ (findCtx t 0 0).map (·.getS 5) = some 0 := ⟨_, rfl, by decide +kernel⟩

theorem wit_PannierOperationsComplete :
    Lone .memory slotA tiled tile prog ctx ∧ Pannier slotA tiled ctx (below 8) 8 1 ∧ Pannier slotA tiled ctx (below 256) 256 64 ∧
    Pannier slotA tiled ctx (below 4096) 4096 64 ∧ ownsXa prog slotA.ctx 7 = true ∧
    (fmtGearOk (BitVec.ofNat 8 (1 * 16 + 0)) = true ∧ (fmtOf 1).isSome = true ∧
      ∀ f, fmtOf 1 = some f → Pannier slotA tiled ctx (below 256) (packBlock 1 0 f (ctx.getV 0)).length 8) := by
  refine ⟨lone .memory, pannier 8 1 (by decide), pannier 256 64 (by decide), pannier 4096 64 (by decide),
    by decide +kernel, by decide +kernel, by decide +kernel, ?_⟩
  intro f hf
  have h : ∀ f, fmtOf 1 = some f → (packBlock 1 0 f (ctx.getV 0)).length ≤ 256 := by
    intro f hf
    cases hf
    decide +kernel
  exact ⟨by have := h f hf; have e : (ctx.addr (below 256)).toNat = 4194048 := by decide +kernel
            omega, by decide +kernel, by decide +kernel⟩

theorem wit_PannierFaults : Lone .memory slotA tiled tile prog ctx ∧ 4194304 < (ctx.addr (below 255)).toNat + 256 ∧
    (ctx.addr { base := 0, imm := 1 }).toNat + 256 ≤ 4194304 ∧ (ctx.addr { base := 0, imm := 1 }).toNat % 64 ≠ 0 :=
  ⟨lone .memory, by decide +kernel⟩

/-- R177: one byte past the pannier faults the context. -/
theorem test_pannier_end : ∃ t, exec (.vldP slotA 0 (below 255)) tiled = .next t ∧
    (findCtx t 0 0).map (·.st) = some .faulted := ⟨_, rfl, by decide +kernel⟩

/-- The tile with an `MMA` queued. -/
def queued : Tile :=
  { tile with mmaq := [{ ctx := 0, t := 1, d0 := 1, d1 := BitVec.ofNat 64 (1 * 2 ^ 60 + 1 * 2 ^ 54 + 2 ^ 51), pc := 0 }] }

/-- The state whose bundle has a matrix operation and whose tile has that `MMA` queued, or two. -/
def queuedState : State := { tiled with tiles := [queued] }

theorem wit_MatrixAndDatapathComplete :
    Lone .matrix slotA (tiledZ [.matrix]) (tileZ [.matrix]) (progZ [.matrix]) ctx ∧
    Lone .datapath slotA (tiledZ [.datapath]) (tileZ [.datapath]) (progZ [.datapath]) ctx ∧
    (ownsAcc (progZ [.matrix]) slotA.ctx 31 = true ∧ (2 : BitVec 5) ≠ 31 ∧ (mmaDesc (ctx.getS 2) (ctx.getS 3)).ok = true ∧
      (tileZ [.matrix]).mmaq.length < 2 ∧ 2 ≤ (queued.mmaq ++ queued.mmaq).length ∧ (∀ m ∈ (tileZ [.matrix]).mmaq, m.t ≠ 31)) ∧
    ((progZ [.datapath]).configs[(0 : BitVec 5).toNat]? = some [0] ∧
      ∀ n ∈ configXas [0], ownsXa (progZ [.datapath]) slotA.ctx n = true) ∧
    (queuedState.phase = .running ∧ findTile queuedState 0 = some queued ∧ queuedState.err.inj = [] ∧
      queued.mmaq = [{ ctx := 0, t := 1, d0 := 1, d1 := BitVec.ofNat 64 (1 * 2 ^ 60 + 1 * 2 ^ 54 + 2 ^ 51), pc := 0 }]) ∧
    ∃ acc, runPanels queued (mmaDesc (ctx.getS 2) (ctx.getS 3)) (mmaDesc (ctx.getS 2) (ctx.getS 3)).panels 0
      (List.replicate 1024 0) = (acc, none) :=
  ⟨lone .matrix, lone .datapath, by decide +kernel, by decide +kernel, by decide +kernel,
    ⟨_, Prod.ext rfl (by decide +kernel)⟩⟩

theorem wit_TileLocalFrame : (∀ z, Lone z slotA (tiledZ [z]) (tileZ [z]) (progZ [z]) ctx) ∧
    (∀ z, GoesOn slotA (tileZ [z]) (progZ [z]) ctx (ctx.pc + 1)) ∧
    injMode tiled 0x01 (unitTile slotA.tile) = none ∧ (progZ [.control]).skip (1 : BitVec 14).toNat < (progZ [.control]).bundles ∧
    (ctx.addr (below 8)).toNat + 2 ^ (3 : BitVec 2).toNat ≤ 4194304 ∧ ownsAcc (progZ [.matrix]) slotA.ctx 31 = true ∧
    (∃ t, exec (.accClr slotA 31) (tiledZ [.matrix]) = .next t) ∧ (∃ t, exec (.stP slotA 3 4 (below 8)) tiled = .next t) ∧
    findCtx tiled slotA.tile 1 = some Ctx.blank ∧ Ctx.blank.block = .none :=
  ⟨lone, goesOn, by decide +kernel, by decide +kernel, by decide +kernel, by decide +kernel, ⟨_, rfl⟩, ⟨_, rfl⟩, by decide +kernel, rfl⟩

/-! ### The memory slot -/

/-- The tile with line 0 in its operand cache; the context with a store outstanding. -/
def cached : Tile := { tile with cache := [{ va := 0, data := List.replicate 64 7 }] }

def storing : Ctx :=
  { ctx with stores := [{ seq := 0, data := [1, 2], va := 0, opa := mkOpa 3 0 0, pc := 0, remote := false, flagged := false
                          ready := true, late := false }], nextSeq := 1 }

/-- The context with a store outstanding, in its tile. -/
def withCtx (k : Ctx) : State := { tiled with tiles := [{ tile with ctxs := k :: List.replicate 15 Ctx.blank }] }

theorem wit_TileAccessesComplete :
    Lone .memory slotA tiled tile prog ctx ∧ closedTo tiled prog.rider = false ∧
    Lone .memory slotA { tiled with tiles := [cached] } cached prog ctx ∧
    (oneLine (ctx.addr { base := 0, imm := 56 }) (2 ^ (3 : BitVec 2).toNat) = true ∧
      storesAhead ctx (ctx.addr { base := 0, imm := 56 }) (2 ^ (3 : BitVec 2).toNat) = false ∧
      cacheGet cached (lineOf (ctx.addr { base := 0, imm := 56 }).toNat) = some (List.replicate 64 7) ∧
      injMode { tiled with tiles := [cached] } 0x03 (unitTile 0) = none) ∧
    Hits tiled (.tile slotA.tile) prog.rider (ctx.addr at0) false (mkOpa 3 0 0) ∧
    Hits tiled (.tile slotA.tile) prog.rider (ctx.addr at0) true (mkOpa 3 0 0) ∧
    target tiled (mkOpa 3 0 0) = .off 0 ∧ cacheGet tile (lineOf (ctx.addr at0).toNat) = none ∧
    (13 : BitVec 4).toNat < 14 ∧ ctx.stores = [] ∧
    Lone .memory slotA (withCtx storing) { tile with ctxs := storing :: List.replicate 15 Ctx.blank } prog storing ∧
    storing.stores ≠ [] :=
  ⟨lone .memory, by decide +kernel, ⟨⟨by decide +kernel, by decide +kernel, rfl, by decide +kernel, by decide +kernel, rfl,
    by decide +kernel, by decide +kernel⟩, by decide +kernel, rfl⟩, by decide +kernel, hits false, hits true, by decide +kernel,
    by decide +kernel, by decide, rfl, ⟨⟨by decide +kernel, by decide +kernel, rfl, by decide +kernel, by decide +kernel, rfl,
    by decide +kernel, by decide +kernel⟩, by decide +kernel, rfl⟩, by decide⟩

theorem wit_TileStoresQueue :
    Lone .memory slotA tiled tile prog ctx ∧ closedTo tiled prog.rider = false ∧ ctx.stores = [] ∧ ctx.sigs = [] ∧
    Hits tiled (.tile slotA.tile) prog.rider (ctx.addr at0) true (mkOpa 3 0 0) ∧
    target tiled (mkOpa 3 0 0) = .off 0 ∧ oneLine (ctx.addr at0) (2 ^ (3 : BitVec 2).toNat) = true ∧
    flaggedForm (mkOpa 3 0 0) (2 ^ (3 : BitVec 2).toNat) = true :=
  ⟨lone .memory, by decide +kernel, rfl, rfl, hits true, by decide +kernel, by decide +kernel, by decide +kernel⟩

/-- The context blocked on a load of 8 bytes, local or remote. -/
def loadAcc (cached : Bool) : Access :=
  { tile := 0, ctx := 0, pc := 0, va := 0, kind := .load 8 5 cached, late := false, done := true }

def loading (cached remote : Bool) : Ctx := { ctx with st := .blocked, block := .access (loadAcc cached) remote }

/-- The context with a store to sync object 63 outstanding. -/
def syncOpa : Word := mkOpa 3 0 0 + 2 ^ 63 + 63 * 8

def storingSync : Ctx :=
  { ctx with stores := [{ seq := 0, data := List.replicate 8 1, va := 0, opa := syncOpa, pc := 0, remote := false
                          flagged := false, ready := true, late := false }], nextSeq := 1 }

theorem wit_TileReturnsComplete :
    (∀ b, (withCtx (loading b false)).phase = .running ∧ findCtx (withCtx (loading b false)) 0 0 = some (loading b false) ∧
      tileRider (withCtx (loading b false)) 0 = some 1 ∧ oneLine (loadAcc b).va 8 = true ∧ (loadAcc b).late = false ∧
      (loadAcc b).done = true ∧ storesBefore (loading b false) (mkOpa 3 0 0) 64 = false ∧ opaSpace (mkOpa 3 0 0) = 0 ∧
      lineOf (loadAcc b).va.toNat = 0) ∧
    (∀ b, Hits (withCtx (loading b false)) (.tile 0) 1 (loadAcc b).va false (mkOpa 3 0 0)) ∧
    target (withCtx (loading false false)) (mkOpa 3 0 0) = .off 0 ∧
    Reads (withCtx (loading false false)) (rqTile 0 0 1 0) 0 8 ∧ Reads (withCtx (loading true false)) (rqTile 0 0 1 0) 0 64 ∧
    findCtx (withCtx (loading false true)) 0 0 = some (loading false true) ∧
    (findCtx (withCtx storing) 0 0 = some storing ∧ tileRider (withCtx storing) 0 = some 1 ∧
      target (withCtx storing) (mkOpa 3 0 0) = .off 0) ∧
    Writes (withCtx storing) (rqTile 0 0 1 0) 0 0 frame0 [1, 2] (ext 0) ∧
    (findCtx (withCtx storingSync) 0 0 = some storingSync ∧ tileRider (withCtx storingSync) 0 = some 1 ∧
      target (withCtx storingSync) syncOpa = .sync 63 ∧ syncRefusal (withCtx storingSync) 1 63 = none) :=
  ⟨by decide +kernel, fun b => by cases b <;> exact hit (by decide +kernel),
    by decide +kernel,
    reads 0 frame0 (by decide +kernel),
    reads 0 frame0 (by decide +kernel),
    by decide +kernel, by decide +kernel,
    writes (by decide +kernel), by decide +kernel⟩

/-- R149: the landing of a store puts its bytes into the frame and takes it from the queue. -/
theorem test_store_lands : ∃ t, exec (.storeLandingAck 0 ⟨0, 0⟩ .ok) (withCtx storing) = .next t ∧
    memGet t.store.mem 0 = 1 ∧ memGet t.store.mem 1 = 2 ∧ (findCtx t 0 0).map (·.stores) = some [] :=
  ⟨_, rfl, by decide +kernel⟩

/-! ### Signals, waits, streams -/

def signalling : Ctx := { ctx with sigs := [{ seq := 0, obj := 63, add := true, value := 1, pc := 0 }], nextSeq := 1 }

def awaiting : Ctx := { ctx with st := .blocked, block := .sync 63 0 0 1 5 }

theorem wit_SignalsAndWaitsComplete :
    Lone .memory slotA tiled tile prog ctx ∧ ctx.queued + 1 < 16 ∧ (1 : BitVec 2).toNat < 2 ∧
    syncRefusal tiled prog.rider (63 : BitVec 14).toNat = none ∧
    (syncVal tiled (63 : BitVec 14).toNat = ctx.getS 0 ∧ (ctx.getS 0).toNat ≤ (syncVal tiled (63 : BitVec 14).toNat).toNat) ∧
    (syncVal tiled (63 : BitVec 14).toNat ≠ ctx.getS 4 ∧ ¬ (ctx.getS 4).toNat ≤ (syncVal tiled (63 : BitVec 14).toNat).toNat) ∧
    (findCtx (withCtx signalling) 0 0 = some signalling ∧ tileRider (withCtx signalling) 0 = some 1 ∧
      (∀ e ∈ signalling.stores, 0 ≤ e.seq) ∧ syncRefusal (withCtx signalling) 1 63 = none) ∧
    findCtx (withCtx awaiting) 0 0 = some awaiting ∧ awaiting.block = .sync 63 0 0 1 5 :=
  ⟨lone .memory, by decide +kernel, by decide, by decide +kernel, by decide +kernel, by decide +kernel, by decide +kernel,
    by decide +kernel, rfl⟩

/-- A wait of the context on object 63 for the value 1 ends when the object becomes 1, not when it becomes 0. -/
theorem wit_SyncWriteEndsWaits : ∃ w : Wait, w.obj.toNat = 63 ∧ w.holds 1 = true ∧ w.holds 0 = false :=
  ⟨{ who := .ctx 0 0, obj := 63, eq := false, value := 1, limit := 0 }, by decide⟩

/-- A stream descriptor at pannier offset 0x80: one beat from VA 0 to pannier offset 0, or back. -/
def streamMem (dir : Byte) : List Host.Cell :=
  [(0x80 + 0x0C, 64), (0x80 + 0x10, 1)] ++ (if dir = 0 then [] else [(0x80 + 0x1A, dir)])

/-- The context with the descriptor's offset in `S5`; the tile with the stream that the descriptor starts. -/
def streamCtx : Ctx := { ctx with s := [0, 0, 0, 0, 0, 0x80] ++ List.replicate 26 0 }

def stream (toStore : Bool) : Stream :=
  { n := 0, ctx := 0, va := 0, pannier := 0, rowBytes := 64, rows := 1, stride := 0, doneSync := 0, toStore := toStore
    next := 0, sent := false, running := true, stopping := false, late := false, status := .ok }

def streamTile (zs : List Stream) : Tile :=
  { tileZ [.stream] with ctxs := streamCtx :: List.replicate 15 Ctx.blank, pannier := streamMem 0, streams := zs }

def streamState (zs : List Stream) : State := { tiled with tiles := [streamTile zs] }

theorem streamLone (zs : List Stream) (h : zs = [] ∨ zs = [stream false]) :
    Lone .stream slotA (streamState zs) (streamTile zs) (progZ [.stream]) streamCtx := by
  rcases h with rfl | rfl <;>
    exact ⟨⟨by decide +kernel, by decide +kernel, rfl, by decide +kernel, by decide +kernel, rfl, by decide +kernel,
      by decide +kernel⟩, by decide +kernel, rfl⟩

theorem streamHits (b : Bool) : Hits (streamState [stream b]) (.stream 0 0) 1 ((stream b).beatVa 0) b (mkOpa 3 0 0) := by
  cases b <;> exact hit (by decide +kernel)

theorem wit_StreamsComplete :
    Lone .stream slotA (streamState []) (streamTile []) (progZ [.stream]) streamCtx ∧
    Lone .stream slotA (streamState [stream false]) (streamTile [stream false]) (progZ [.stream]) streamCtx ∧
    ((0 : BitVec 5).toNat < (progZ [.stream]).streams ∧ streamRunning (streamTile []) 0 = false ∧
      (streamCtx.getS 5).toNat % 32 = 0 ∧ (streamCtx.getS 5).toNat + 32 ≤ 4194304 ∧
      injMode (streamState []) 0x01 (unitTile slotA.tile) = none ∧
      parseStream 0 0 (memReadN (streamTile []).pannier (streamCtx.getS 5).toNat 32) = some (stream false) ∧
      bit (stream false).doneSync 15 = false ∧ streamRunning (streamTile [stream false]) 0 = true) ∧
    (∀ b, findTile (streamState [stream b]) 0 = some (streamTile [stream b]) ∧ tileRider (streamState [stream b]) 0 = some 1 ∧
      findStream (streamTile [stream b]) 0 = some (stream b) ∧ target (streamState [stream b]) (mkOpa 3 0 0) = .off 0 ∧
      (stream b).running = true ∧ (stream b).late = false ∧ (stream b).sent = false) ∧
    (∀ b, Hits (streamState [stream b]) (.stream 0 0) 1 ((stream b).beatVa 0) b (mkOpa 3 0 0)) ∧
    Reads (streamState [stream false]) (rqStream 0 (stream false) 1) 0 64 ∧
    Writes (streamState [stream true]) (rqStream 0 (stream true) 1) 0 0 frame0 (memReadN (streamTile [stream true]).pannier 0 64) (ext 0) :=
  ⟨streamLone _ (.inl rfl), streamLone _ (.inr rfl), by decide +kernel, by decide +kernel, streamHits,
    reads 0 frame0 (by decide +kernel),
    writes (by decide +kernel)⟩

/-! ### Tile control -/

/-- A program of one bundle with one entry, as an image of 80 bytes at store offset 0 (R165). -/
def image : State :=
  { tiled with tiles := [], store := { tiled.store with mem := [(0, 1), (2, 0x50), (3, 0x54), (4, 1)] } }

def imageBytes (n : Nat) : List Byte := [1, 0, 0x50, 0x54, 1] ++ List.replicate (n - 5) 0

/-- `TILE_LOAD` of tile 0 and `TILE_STOP` with unload of it; `TILE_START` of contexts 0 and 15. -/
def loadCmd : Cmd := cmd 1 [2 ^ 48 + 1, 0]
def stopCmd : Cmd := cmd 1 [2 ^ 48 + 1, 2 ^ 16]
def startCmd : Cmd := cmd 1 [2 ^ 48 + 1, 0x8001]

/-- A loaded tile whose contexts are all idle. -/
def idleTile : State := { tiled with tiles := [{ Tile.blank 0 with prog := some prog }] }

def waitCmd (v : Nat) : Cmd := cmd 0 [63, v, 5]

/-- The `SYNC_WAIT` command waits with a limit. -/
def waitingCmd : State :=
  { on with
    port := { on.port with outstanding := [openOf 0x404 (waitCmd 1)] }
    sync := { on.sync with waits := [{ who := .cmd (openOf 0x404 (waitCmd 1)), obj := 63, eq := false, value := 1, limit := 5 }] } }

theorem wit_TileLoad :
    (runsIn 0x400 loadCmd image = some (into 0x400 loadCmd image)) ∧
    (tileSet (loadCmd.p 0) ≠ [] ∧ (loadCmd.p 1).toNat < 2 ^ 48 ∧
      heldN (into 0x400 loadCmd image) 0 64 = imageBytes 64 ∧
      64 + 16 * fieldB (imageBytes 64) 4 2 + 128 * fieldB (imageBytes 64) 6 1 = 80 ∧
      heldN (into 0x400 loadCmd image) 0 80 = imageBytes 80 ∧ (loadCmd.p 1).toNat = 0 ∧
      imageLive (into 0x400 loadCmd image) loadCmd.h.r (loadCmd.p 1).toNat 80 = true) ∧
    (piecesOf 0 64 = [(0, 64)] ∧ piecesOf 0 80 = [(0, 64), (64, 16)]) ∧
    Reads (into 0x400 loadCmd image) (rqOf 1 (srcEngine 0)) 0 64 ∧ Reads (into 0x400 loadCmd image) (rqOf 1 (srcEngine 0)) 64 16 ∧
    ∃ pr, parseProg loadCmd.h.r (imageBytes 80) = some pr ∧ pr.faultSync.toNat < 32768 ∧
      (∀ t ∈ tileSet (loadCmd.p 0), tileFenced (into 0x400 loadCmd image) t = false ∧
        tileLoaded (into 0x400 loadCmd image) t = false) ∧
      slotsFree (into 0x400 loadCmd image) loadCmd.h.r (tileSet (loadCmd.p 0)) pr.streams = true :=
  ⟨runs (by decide +kernel), by decide +kernel, by decide +kernel,
    reads 0 frame0 (by decide +kernel),
    reads 0 frame0 (by decide +kernel),
    (parseProg 1 (imageBytes 80)).getD prog, by decide +kernel, by decide +kernel, by decide +kernel, by decide +kernel⟩

theorem wit_TileControlComplete :
    (runsIn 0x401 startCmd idleTile = some (into 0x401 startCmd idleTile) ∧
      runsIn 0x402 stopCmd idleTile = some (into 0x402 stopCmd idleTile) ∧
      runsIn 0x403 (cmd 0 [63, 1]) tiled = some (into 0x403 (cmd 0 [63, 1]) tiled) ∧
      runsIn 0x404 (waitCmd 0) tiled = some (into 0x404 (waitCmd 0) tiled) ∧
      runsIn 0x404 (waitCmd 1) tiled = some (into 0x404 (waitCmd 1) tiled)) ∧
    (tileSet (startCmd.p 0) ≠ [] ∧ bits (startCmd.p 1) 17 47 = 0 ∧
      tilesOf (into 0x401 startCmd idleTile) startCmd.h.r (tileSet (startCmd.p 0)) = true ∧
      closing (into 0x401 startCmd idleTile) = false ∧
      ∀ t ∈ tileSet (startCmd.p 0), ∀ k ∈ maskCtxs (BitVec.ofNat 16 (bits (startCmd.p 1) 0 16)),
        startOk (into 0x401 startCmd idleTile) (bit (startCmd.p 1) 16) t k = true) ∧
    (tileSet (stopCmd.p 0) = [0] ∧ bits (stopCmd.p 1) 17 47 = 0 ∧ bit (stopCmd.p 1) 16 = true ∧
      tileRider (into 0x402 stopCmd idleTile) 0 = some stopCmd.h.r ∧
      (findTile (into 0x402 stopCmd idleTile) 0).all (fun x => x.ctxs.length == 16 && x.streams == [] &&
        x.ctxs.all fun k => k.st = .idle && k.stores == [] && k.sigs == [] && k.block = .none) = true) ∧
    (bits ((cmd 0 [63, 1]).p 0) 14 50 = 0 ∧ syncCmdRefusal (into 0x403 (cmd 0 [63, 1]) tiled) (cmd 0 [63, 1]) 63 = none) ∧
    (bits ((waitCmd 1).p 0) 14 2 = 0 ∧ bits ((waitCmd 1).p 0) 17 47 = 0 ∧
      syncCmdRefusal (into 0x404 (waitCmd 1) tiled) (waitCmd 1) 63 = none ∧
      ((waitCmd 0).p 1).toNat ≤ (syncVal (into 0x404 (waitCmd 0) tiled) 63).toNat ∧
      ¬ ((waitCmd 1).p 1).toNat ≤ (syncVal (into 0x404 (waitCmd 1) tiled) 63).toNat) ∧
    (waitingCmd.phase = .running ∧ (5 : Word) ≠ 0 ∧ isOpen (openOf 0x404 (waitCmd 1)) waitingCmd = true) :=
  ⟨⟨runs (by decide +kernel), runs (by decide +kernel), runs (by decide +kernel), runs (by decide +kernel),
    runs (by decide +kernel)⟩, by decide +kernel, by decide +kernel, by decide +kernel, by decide +kernel, by decide +kernel⟩

/-! ### The store's memory and translation -/

theorem wit_HomeWriteLands : Reads tiled (rqOf 1 0) 0 64 ∧ Reads tiled (rqOf 1 0) 65535 1 ∧
    Writes tiled (rqOf 1 0) 65535 0 frame0 [1] (ext 0) :=
  ⟨reads 0 frame0 (by decide +kernel), reads 0 frame0 (by decide +kernel), writes (by decide +kernel)⟩

/-- Extent 1 is revoked, extent 0 is live for rider 1 only. -/
theorem wit_AddressRefusals :
    opaMbz (BitVec.ofNat 64 (2 ^ 63 + 1)) = false ∧ opaSpace (BitVec.ofNat 64 (3 * 2 ^ 62)) = 3 ∧ homeFenced tiled 0 = false ∧
    findExt tiled (extentOf (2 ^ 35)) = none ∧ findExt tiled (extentOf 0) = some (ext 0) ∧ extLive tiled (ext 0) 2 = false ∧
    extLive tiled { ext 0 with live := false } 1 = false ∧
    ∃ s : State, extLive s (ext 0) 2 = true ∧ extWriter s (ext 0) 2 = false ∧ findExt s (extentOf 0) = some (ext 0) :=
  ⟨by decide, by decide, by decide +kernel, by decide +kernel, by decide +kernel, by decide +kernel, by decide +kernel,
    { tiled with comp := some { comp with runs := [{ run 0 1 6 1 with writers := 2 }] } }, by decide +kernel, by decide +kernel,
    by decide +kernel⟩

/-- Pages 1 to 3 hold an object of policy 1; page 1 holds the five tables of rider 1 (R46): VA 0 has no leaf, VA 0x10000
one to page 0. -/
def rootTlb : TlbEnt :=
  { wheel := 0, rider := 1, va := 0x20000, size := 0x20000, opa := 3 * 2 ^ 54 + 0x20000, r := true, w := true }

def rooted : State :=
  { on with
    store := { on.store with
      frames := [{ id := 1, tier := .hbm, ch := false }, { id := 2, tier := .hbm, ch := false },
        { id := 3, tier := .hbm, ch := false }]
      nextFrame := 4
      pages := [{ n := 1, home := some 1, copy := none }, { n := 2, home := some 2, copy := none },
        { n := 3, home := some 3, copy := none }]
      objects := [{ base := 1, pages := 3, policy := 1, fmtGear := 0, priority := 0, stagePages := 0, stageTier := .hbm
                    rider := 1, pins := [], sched := none }]
      mem := [(0x10000, 1), (0x10001, 0x10), (0x10002, 1), (0x11000, 1), (0x11001, 0x20), (0x11002, 1), (0x12000, 1),
        (0x12001, 0x30), (0x12002, 1), (0x13000, 1), (0x13001, 0x40), (0x13002, 1), (0x14008, 0x0F), (0x1400E, 0xC0)] }
    xlat := { on.xlat with
      roots := [(1, 65536)]
      micro := [(.queue 0, rootTlb), (.ring 1, rootTlb)]
      tlb := [rootTlb] } }

/-- The frame of page `n` of that store. -/
def frameN (n : Nat) : Frame := { id := n, tier := .hbm, ch := false }

def tableB (s : State) (q : Rq) (off f : Nat) (fr : Frame) : Bool :=
  decide (findExt s (extentOf off) = some (ext 0)) && !extLapped s (ext 0) && !homeFenced s off &&
    (findTicket s (q.key (lineOf off)) true).isNone && (findTicket s (q.key (lineOf off)) false).isNone &&
    !lineBusy s (lineOf off) true && !scanHolds s off && (dirOf s (lineOf off)).isNone && frameB s off f fr &&
    !partialBad s.store (frameTier s.store f) (f * 65536 + off % 65536) (allBytes (zeros 8)) &&
    !programHolds s.store (pageOf off) && !mirrorHeld s (ext 0) (pageOf off)

theorem tableSlot {s : State} {q : Rq} {off f : Nat} {fr : Frame} (h : tableB s q off f fr = true) :
    TableSlot s q off f fr (ext 0) := by
  simp only [tableB, Bool.and_eq_true, decide_eq_true_eq, Bool.not_eq_true', Option.isNone_iff_eq_none] at h
  obtain ⟨⟨⟨⟨⟨⟨⟨⟨⟨⟨⟨h1, h2⟩, h3⟩, h4⟩, h5⟩, h6⟩, h7⟩, h8⟩, h9⟩, h10⟩, h11⟩, h12⟩ := h
  exact ⟨h1, ⟨h2, rfl, h3⟩, ⟨h4, h5⟩, ⟨h6, h7, h8⟩, inFrame h9, h10, h11, h12⟩

/-- A walk of tile 0 for VA 0x10000 or 0 at a level, and an invalidation that waits for one or two engines. -/
def walk (lvl table va : Nat) : Walk :=
  { id := 7, client := .tile 0, rider := 1, va := BitVec.ofNat 64 va, write := true, level := lvl, table := table, acc := none
    hit := false, active := true, again := false, out := none }

def walking (w : Walk) : State := { rooted with xlat := { rooted.xlat with walks := [w] } }

def unmap (es : List EngineRef) : Unmap :=
  { id := 7, cmd := openOf 0x182 (cmd 1 [0, 65536, 0]), rider := 1, base := 0, len := 65536, waiting := es, status := .ok
    result := 0, newRoot := none, writing := false, frozen := [] }

def unmapping (es : List EngineRef) : State :=
  { rooted with
    xlat := { rooted.xlat with unmaps := [unmap es] }
    port := { rooted.port with outstanding := [openOf 0x182 (cmd 1 [0, 65536, 0])] } }

def mapCmd : Cmd := cmd 1 [0, 65536, 3 * 2 ^ 54, 12]
def unmapCmd (clear : Nat) : Cmd := cmd 1 [65536, 65536, clear]

/-- The context with a store to an address; the state in which a context of tile 0 holds one to VA 0x10000. -/
def storingAt (va : Word) : Ctx := { ctx with stores := storing.stores.map fun e => { e with va := va } }

def engaged : State :=
  { rooted with tiles := [{ tile with ctxs := storingAt 65536 :: List.replicate 15 Ctx.blank }] }

def slotsOf : MapSlots → List Nat
  | .ok l => l
  | _ => []

def leafCode : Found → Option (Nat × Nat × Nat)
  | .leaf l => some (l.va, l.lvl, l.slot)
  | _ => none

theorem of_leafCode {fs : List Found} {x : Nat × Nat × Nat} (h : fs.map leafCode = [some x]) :
    ∃ l : LeafAt, fs = [.leaf l] ∧ (l.va, l.lvl, l.slot) = x := by
  match fs, h with
  | [.leaf l], h => exact ⟨l, rfl, by simpa [leafCode] using h⟩
  | [.bad _ _ _], h => simp [leafCode] at h
  | [.wait _], h => simp [leafCode] at h

theorem unmapRuns (s : State) (clear : Nat) (h : s = rooted ∨ s = engaged) (hc : clear = 0 ∨ clear = 1) :
    UnmapRuns (unmapCmd clear) s (into 0x182 (unmapCmd clear) s) := by
  rcases h with rfl | rfl <;> rcases hc with rfl | rfl <;>
    exact ⟨runs (by decide +kernel), by decide +kernel, by decide +kernel, by decide +kernel, by decide +kernel⟩

theorem cut : cutGroups (into 0x182 (unmapCmd 1) rooted) (treeRq (unmapCmd 1)) 65536 131072
    (leavesOf (foundIn (into 0x182 (unmapCmd 1) rooted) (treeRq (unmapCmd 1)) (unmapCmd 1).h.r 65536 131072)) = [] := by
  decide +kernel

theorem clearTree : ClearTree (into 0x182 (unmapCmd 1) rooted) (unmapCmd 1) 65536 131072 := by
  obtain ⟨l, h, e⟩ := of_leafCode (fs := foundIn (into 0x182 (unmapCmd 1) rooted) (treeRq (unmapCmd 1)) (unmapCmd 1).h.r 65536 131072)
    (x := (65536, 0, 0x14008)) (by decide +kernel)
  simp only [Prod.mk.injEq] at e
  refine ⟨fun f hf => ?_, cut⟩
  rw [h, List.mem_singleton] at hf
  refine ⟨l, hf, by omega, ?_, 1, frameN 1, ext 0, ?_⟩
  · simp only [LeafAt.size, e.1, e.2.1]; decide
  · rw [e.2.2]; exact tableSlot (by decide +kernel)

theorem wit_TranslationCommands :
    (runsIn 0x180 (cmd 1 [65536]) { rooted with xlat := on.xlat } =
        some (into 0x180 (cmd 1 [65536]) { rooted with xlat := on.xlat }) ∧
      runsIn 0x180 (cmd 1 [0]) rooted = some (into 0x180 (cmd 1 [0]) rooted) ∧
      runsIn 0x180 (cmd 1 [0]) engaged = some (into 0x180 (cmd 1 [0]) engaged) ∧
      runsIn 0x181 mapCmd rooted = some (into 0x181 mapCmd rooted)) ∧
    (tablePageFault (into 0x180 (cmd 1 [65536]) { rooted with xlat := on.xlat }) 1 65536 = none ∧
      treeBusy (into 0x180 (cmd 1 [65536]) { rooted with xlat := on.xlat }) 1 (openOf 0x180 (cmd 1 [65536])) 0 (2 ^ 57) = false ∧
      rootOf (into 0x180 (cmd 1 [65536]) { rooted with xlat := on.xlat }) 1 = none ∧ (65536 : Word).toNat % 256 = 0) ∧
    (treeBusy (into 0x180 (cmd 1 [0]) rooted) 1 (openOf 0x180 (cmd 1 [0])) 0 (2 ^ 57) = false ∧
      rootOf (into 0x180 (cmd 1 [0]) rooted) 1 ≠ none ∧ enginesIn (into 0x180 (cmd 1 [0]) rooted) 1 0 (2 ^ 57) = [] ∧
      (into 0x180 (cmd 1 [0]) rooted).xlat.unmaps = []) ∧
    (treeBusy (into 0x180 (cmd 1 [0]) engaged) 1 (openOf 0x180 (cmd 1 [0])) 0 (2 ^ 57) = false ∧
      rootOf (into 0x180 (cmd 1 [0]) engaged) 1 ≠ none ∧ enginesIn (into 0x180 (cmd 1 [0]) engaged) 1 0 (2 ^ 57) ≠ []) ∧
    (mapForm mapCmd = true ∧ treeBusy (into 0x181 mapCmd rooted) 1 (openOf 0x181 mapCmd) 0 65536 = false ∧
      slotsOf (mapSlots (into 0x181 mapCmd rooted) (treeRq mapCmd) 1 0 0 1 0 [] []) = [0x14000] ∧
      bits (mapCmd.p 3) 0 2 = 0 ∧ (mapCmd.p 1).toNat = 1 * 2 ^ lvlShift 0) ∧
    TableSlot (into 0x181 mapCmd rooted) (treeRq mapCmd) 0x14000 1 (frameN 1) (ext 0) ∧
    UnmapRuns (unmapCmd 0) rooted (into 0x182 (unmapCmd 0) rooted) ∧
    (waitsOf (foundIn (into 0x182 (unmapCmd 0) rooted) (treeRq (unmapCmd 0)) 1 65536 131072) = [] ∧
      (leavesOf (foundIn (into 0x182 (unmapCmd 0) rooted) (treeRq (unmapCmd 0)) 1 65536 131072)).map (fun l => (l.va, l.size)) =
        [(65536, 65536)] ∧ enginesIn (into 0x182 (unmapCmd 0) rooted) 1 65536 131072 = []) ∧
    (UnmapRuns (unmapCmd 1) engaged (into 0x182 (unmapCmd 1) engaged) ∧
      enginesIn (into 0x182 (unmapCmd 1) engaged) 1 65536 131072 ≠ []) ∧
    UnmapRuns (unmapCmd 1) rooted (into 0x182 (unmapCmd 1) rooted) ∧
    ClearTree (into 0x182 (unmapCmd 1) rooted) (unmapCmd 1) 65536 131072 ∧
    (engineIdle (unmapping [.context 0 0]) (unmap [.context 0 0]) (.context 0 0) = true ∧
      (unmap [.context 0 0]).waiting = [.context 0 0] ∧ (unmap [.context 0 0, .op 1]).waiting.erase (.context 0 0) ≠ [] ∧
      isOpen (unmap []).cmd (unmapping [.context 0 0]) = true ∧
      (unmapping [.context 0 0]).xlat.unmaps.find? (·.id == 7) = some (unmap [.context 0 0])) :=
  ⟨⟨runs (by decide +kernel), runs (by decide +kernel), runs (by decide +kernel), runs (by decide +kernel)⟩, by decide +kernel,
    by decide +kernel, by decide +kernel, by decide +kernel, tableSlot (by decide +kernel), unmapRuns _ _ (.inl rfl) (.inl rfl),
    by decide +kernel, ⟨unmapRuns _ _ (.inr rfl) (.inr rfl), by decide +kernel⟩, unmapRuns _ _ (.inl rfl) (.inr rfl), clearTree,
    by decide +kernel⟩

/-- The walks that meet a leaf, a table and an invalid entry; one that the walk cache leads on, and one at a table that no object
of policy 1 covers. -/
theorem wit_WalkReadCompletes :
    (∀ w ∈ [(walk 0 0x14000 0x10000, EntRes.leaf), (walk 1 0x13000 0x10000, .next 0x14000), (walk 0 0x14000 0, .fault 3)],
      (walking w.1).phase = .running ∧ (walking w.1).xlat.walks.find? (·.id == 7) = some w.1 ∧
      clientWheel w.1.client = (0 : Fin 16).val ∧ coreRestarting (walking w.1) (clientWheel w.1.client) = false ∧ unmapCovers (walking w.1) 1 w.1.va.toNat = false ∧
      unitFenced (walking w.1) (unitChainring (clientWheel w.1.client)) = false ∧ (rootOf (walking w.1) 1).isSome = true ∧
      (walking w.1).err.inj = [] ∧
      (w.1.level = 0 ∨ walkCacheHit (walking w.1) (clientWheel w.1.client) 1 w.1.va.toNat w.1.level = none) ∧
      tablePageFault (walking w.1) 1 w.1.table = none ∧
      tableB (walking w.1) (walkRq w.1) (w.1.table + ptIndex w.1.va.toNat w.1.level * 8) 1 (frameN 1) = true ∧
      badAt (walking w.1).store .hbm (1 * 65536 + (w.1.table + ptIndex w.1.va.toNat w.1.level * 8) % 65536) 8 = false ∧
      checkEntry (bytesWord (held (walking w.1) (w.1.table + ptIndex w.1.va.toNat w.1.level * 8) 8)) w.1.va.toNat w.1.level w.1.write = w.2) ∧
    (tablePageFault (walking (walk 0 0x90000 0)) 1 0x90000).isSome = true ∧
    walkCacheHit { walking (walk 1 0x13000 0) with xlat := { (walking (walk 1 0x13000 0)).xlat with
      wcache := [{ wheel := 0, rider := 1, level := 1, va := 0, next := 0x14000 }] } } 0 1 0 1 = some 0x14000 := by decide +kernel

theorem wit_EntryChecks :
    bit (0 : Word) 0 = false ∧ (bit (0x13 : Word) 1 = true ∧ leafReserved 0x13 0 = true) ∧
    (bit (0xF : Word) 0 = true ∧ bit (0xF : Word) 1 = true ∧ leafReserved 0xF 3 = false ∧ leafReserved 0xF 2 = false ∧
      leafAligned 0xF 0 2 = true ∧ bit (0x7 : Word) 3 = false ∧ leafReserved 0x7 2 = false ∧ leafAligned 0x7 0 2 = true) ∧
    (bit (1 : Word) 1 = false ∧ bits (1 : Word) 48 16 = 0 ∧ bits (1 : Word) 2 10 = 0) := by decide +kernel

/-! ### Queues -/

/-- Ring at VA 0x20000 of 2^16 bytes, doorbell line at 0x30000, 64 completions from 0x30800. -/
def createCmd : Cmd := cmd 1 [0x20000, 0x30000, 0x30800, 16 + 6 * 2 ^ 8 + 2 * 2 ^ 32 + 64 * 2 ^ 40, 0]

def queue : Queue :=
  { q := 0, rider := 1, ringVa := 0x20000, dbVa := 0x30000, cqVa := 0x30800, ringLog2 := 16, cqLog2 := 6, pretrans := false
    version := 2, inflight := 64, sqTail := 0, sqHead := 0, cqHead := 0, cqTail := 0, started := [], waiting := [], done := []
    runs := [], preDone := 0, preBad := [], error := false, closing := false }

def oneReply : Reply := mkReply (openOf 0x000 (onQueue 0 (cmd 1 []))) .ok 0 [] on

def withQueue (x : Queue) : State := { rooted with queues := [x] }

def withRing : State :=
  { rooted with rings := [{ rider := 1, dbVa := 0x30000, cqVa := 0x30800, cqLog2 := 6, cqHead := 0, cqTail := 0, dropped := 0
                            todo := [] }] }

/-- An event ring's descriptor, and a queue on which a second descriptor is refused: no index is left. -/
def ringCmd : Cmd := cmd 1 [0, 0x30000, 0x30800, 6 * 2 ^ 8 + 2 ^ 16 + 2 * 2 ^ 32 + 64 * 2 ^ 40, 0]
def takenCmd : Cmd := cmd 1 [0x20000, 0x30000, 0x30800, 16 + 6 * 2 ^ 8 + 2 * 2 ^ 32 + 64 * 2 ^ 40 + 2 ^ 48 * 9, 0]

def regions (n : Nat) : List (Nat × Nat) := [(n * 0x20000, n * 2 ^ 16), (0x30000, 64), (0x30800, 32 * 2 ^ 6)]

theorem queueForm (c : Cmd) (h : c = createCmd ∨ c = takenCmd) : QueueForm c (into 0x020 c rooted) := by
  rcases h with rfl | rfl <;>
    exact ⟨by decide +kernel, by decide +kernel, .inr (by decide +kernel), by decide +kernel, by decide +kernel, by decide +kernel,
      by decide +kernel, by decide +kernel⟩

theorem wit_QueueCommandsComplete :
    (runsIn 0x020 createCmd rooted = some (into 0x020 createCmd rooted) ∧
      runsIn 0x020 takenCmd rooted = some (into 0x020 takenCmd rooted) ∧
      runsIn 0x020 ringCmd rooted = some (into 0x020 ringCmd rooted) ∧
      runsIn 0x021 (cmd 1 [0]) (withQueue queue) = some (into 0x021 (cmd 1 [0]) (withQueue queue)) ∧
      runsIn 0x021 (cmd 1 [2 ^ 16]) withRing = some (into 0x021 (cmd 1 [2 ^ 16]) withRing)) ∧
    QueueForm createCmd (into 0x020 createCmd rooted) ∧ QueueForm takenCmd (into 0x020 takenCmd rooted) ∧
    RingForm ringCmd (into 0x020 ringCmd rooted) ∧
    (pickIndex (into 0x020 createCmd rooted) 1 (bits (createCmd.p 3) 48 16) = .inr 0 ∧
      (checkRegions (.queue 0) 1 (regions 1) (into 0x020 createCmd rooted)).1 = .ok ∧
      (checkRegions (.queue 0) 1 (regions 1) (into 0x020 createCmd on)).1 = .bad .translation) ∧
    ((pickIndex (into 0x020 takenCmd rooted) 1 (bits (takenCmd.p 3) 48 16)).isLeft = true ∧
      (checkRegions (.ring 1) 1 (regions 1) (into 0x020 takenCmd rooted)).1 = .ok) ∧
    ((checkRegions (.ring 1) 1 (regions 0) (into 0x020 ringCmd rooted)).1 = .ok ∧
      (checkRegions (.ring 1) 1 (regions 0) (into 0x020 ringCmd rooted)).2.rings = []) ∧
    (queueBase (into 0x021 (cmd 1 [0]) (withQueue queue)) 1 ≤ (0 : BitVec 13).toNat ∧
      (0 : BitVec 13).toNat < maxQueues (into 0x021 (cmd 1 [0]) (withQueue queue)) 1 ∧
      (findQueue (into 0x021 (cmd 1 [0]) (withQueue queue)) 0).isSome = true ∧
      queueIdle (into 0x021 (cmd 1 [0]) (withQueue queue)) 0 = true ∧
      queueIdle (withQueue { queue with done := [oneReply] }) 0 = false) ∧
    ((into 0x021 (cmd 1 [2 ^ 16]) withRing).rings.any (·.rider = 1) = true ∧ bit ((cmd 1 [2 ^ 16]).p 0) 16 = true ∧
      bits ((cmd 1 [2 ^ 16]).p 0) 13 3 = 0 ∧ bits ((cmd 1 [2 ^ 16]).p 0) 17 47 = 0) :=
  ⟨⟨runs (by decide +kernel), runs (by decide +kernel), runs (by decide +kernel), runs (by decide +kernel), runs (by decide +kernel)⟩,
    queueForm _ (.inl rfl), queueForm _ (.inr rfl),
    ⟨by decide +kernel, by decide +kernel, .inr (by decide +kernel), by decide +kernel, by decide +kernel, by decide +kernel,
      by decide +kernel⟩, by decide +kernel, by decide +kernel, by decide +kernel, by decide +kernel, by decide +kernel⟩

/-- The doorbell line of the queue, or of the ring, takes a word at an offset. -/
theorem lands (s : State) (cl : XClient) (q : Rq) (va : Word) (bs : List Byte) (off : Nat)
    (h : (!bs.isEmpty && decide (va.toNat % 64 + bs.length ≤ 64) && hitsB s cl q.rider va true (mkOpa 3 0 off) &&
      decide (target s (mkOpa 3 0 off) = .off off) && writesB s q off 3 (frameN 3) bs) = true) : Lands s cl q va bs off 3 := by
  simp only [Bool.and_eq_true, Bool.not_eq_true', decide_eq_true_eq] at h
  refine ⟨?_, h.1.1.1.2, _, _, _, hit h.1.1.2, h.1.2, writes h.2⟩
  rintro rfl
  exact absurd h.1.1.1.1 (by decide)

def done : Queue := { queue with done := [oneReply] }

theorem wit_DoorbellsComplete :
    findQueue (withQueue queue) 0 = some queue ∧ queue.error = false ∧ queue.pretrans = false ∧
    (1024 : Word).toNat ≤ queue.sqHead.toNat + 2 ^ queue.ringLog2 / 64 ∧
    queue.sqHead.toNat + 2 ^ queue.ringLog2 / 64 < (1025 : Word).toNat ∧
    Lands (withQueue queue) (.queue 0) (rqQueue queue) queue.dbVa (wordBytes 1024) 0x30000 3 ∧
    Lands (withQueue queue) (.queue 0) (rqQueue queue) (queue.dbVa + 0x10) (wordBytes 3) 0x30010 3 ∧
    (withRing.rings.find? (·.rider = 1)).isSome = true ∧
    Lands withRing (.ring 1) (rqOf 1 0) (0x30000 + 0x10) (wordBytes 3) 0x30010 3 :=
  ⟨by decide +kernel, rfl, rfl, by decide +kernel, by decide +kernel, lands _ _ _ _ _ _ (by decide +kernel),
    lands _ _ _ _ _ _ (by decide +kernel), by decide +kernel, lands _ _ _ _ _ _ (by decide +kernel)⟩

/-- The queue with its doorbell line hung where the line's address translates to. -/
def belled (tail head : Bool) : State :=
  { withQueue queue with bells := [{ client := .queue 0, off := 0x30000, tail := tail, head := head }] }

/-- A store of a word to the doorbell line of that queue, as it lands at its home. -/
def landed (off : Nat) (v : Word) : State := (homeWrite (belled false false) (rqQueue queue) off (allBytes (wordBytes v)) false).2

theorem wit_LandedStoresRing :
    (Hits rooted (.queue 0) 1 0x30000 true (mkOpa 3 0 0x30000) ∧ target rooted (mkOpa 3 0 0x30000) = .off 0x30000) ∧
    findQueue (landed 0x30000 1024) 0 = some queue ∧ queue.error = false ∧ queue.pretrans = false ∧
    (landed 0x30000 1024).late = [] ∧ (landed 0x30000 1024).power.st ≠ .coast ∧
    (landed 0x30000 1024).bells = (belled true false).bells ∧ bellWord (landed 0x30000 1024) 0x30000 = some 1024 ∧
    (1024 : Word).toNat ≤ queue.sqHead.toNat + 2 ^ queue.ringLog2 / 64 ∧
    queue.sqHead.toNat + 2 ^ queue.ringLog2 / 64 < (1025 : Word).toNat ∧ bellWord (landed 0x30000 1025) 0x30000 = some 1025 ∧
    (landed 0x30010 3).bells = (belled false true).bells ∧ bellWord (landed 0x30010 3) 0x30010 = some 3 ∧
    findQueue (landed 0x30010 3) 0 = some queue :=
  ⟨⟨hit (by decide +kernel), by decide +kernel⟩, by decide +kernel, rfl, rfl, by decide +kernel, by decide +kernel, by decide +kernel,
    by decide +kernel, by decide +kernel, by decide +kernel, by decide +kernel, by decide +kernel, by decide +kernel, by decide +kernel⟩

/-- R311: a plain store of 43 to `SQ_TAIL` makes 43 slots available once it is taken up; one to `SQ_HEAD` does nothing. -/
theorem test_store_rings : (findQueue (pumpBells (landed 0x30000 43)) 0).map (·.sqTail) = some 43 ∧
    (findQueue (pumpBells (landed 0x30008 43)) 0).map (·.sqTail) = some 0 := by decide +kernel

theorem wit_ReplyPostCompletes :
    findQueue (withQueue done) 0 = some done ∧ done.cqFull = false ∧ Queue.cqFull { done with cqTail := 64 } = true ∧
    oneReply.h.replyVa = 0 ∧ oneReply.h.notify = false ∧
    Lands (withQueue done) (.queue 0) (rqQueue done) (done.cqVa + BitVec.ofNat 64 (done.cqTail.toNat % 2 ^ done.cqLog2 * 32))
      (replyBytes oneReply (phaseOf done.cqTail done.cqLog2)) 0x30800 3 ∧
    Lands (withQueue done) (.queue 0) (rqQueue done) (done.dbVa + 0x18) (wordBytes (done.cqTail + 1)) 0x30018 3 :=
  ⟨by decide +kernel, by decide +kernel, by decide +kernel, by decide +kernel, by decide +kernel, lands _ _ _ _ _ _ (by decide +kernel),
    lands _ _ _ _ _ _ (by decide +kernel)⟩

/-- R314: the first completion is written with `PHASE` 1 in its byte 12. -/
theorem test_reply_phase : ∃ t, exec (.replyPost 0) (withQueue { queue with done := [oneReply] }) = .next t ∧
    memGet t.store.mem (0x30800 + 12) = 4 ∧ (findQueue t 0).map (·.cqTail) = some 1 := ⟨_, rfl, by decide +kernel⟩

/-! ### Laps -/

def lapped (x : Extent) : State := { on with store := { on.store with extents := [ext 0, x] } }

/-- Extent 1 with an open write lap of rider 1 whose one shadow is frame 9 for the extent's first page. -/
def lap : WLap := { rider := 1, num := 1, reserved := 1, shadows := [(262144, 9)], closed := false }
def writing : State :=
  { lapped { ext 1 with wlap := some lap } with store := { (lapped { ext 1 with wlap := some lap }).store with
      frames := [{ id := 9, tier := .hbm, ch := false }], nextFrame := 10 } }

def lapCmd (x : Nat) (payload : List Byte := []) : Cmd := cmd 1 [1 + 2 ^ 16 + x * 2 ^ 32] payload

theorem lapRuns (op x : Nat) (w : Bool) (payload : List Byte) (s : State)
    (h : (op, x, w, payload, s) ∈ [(0x200, 0, false, [], on), (0x201, 262144, true, [], on), (0x203, 0, false, [], on),
      (0x202, 0, true, [1, 0, 0, 0], writing), (0x203, 1, true, [], writing)]) :
    LapRuns op (lapCmd x payload) w s (into op (lapCmd x payload) s) [1] := by
  simp only [List.mem_cons, Prod.mk.injEq, List.not_mem_nil, or_false] at h
  rcases h with ⟨rfl, rfl, rfl, rfl, rfl⟩ | ⟨rfl, rfl, rfl, rfl, rfl⟩ | ⟨rfl, rfl, rfl, rfl, rfl⟩ | ⟨rfl, rfl, rfl, rfl, rfl⟩ |
      ⟨rfl, rfl, rfl, rfl, rfl⟩ <;>
    exact ⟨runs (by decide +kernel), by decide +kernel, by decide +kernel, by decide +kernel, by decide +kernel⟩

theorem wit_LapsComplete :
    LapRuns 0x200 (lapCmd 0) false on (into 0x200 (lapCmd 0) on) [1] ∧
    LapRuns 0x201 (lapCmd 262144) true on (into 0x201 (lapCmd 262144) on) [1] ∧
    LapRuns 0x203 (lapCmd 0) false on (into 0x203 (lapCmd 0) on) [1] ∧
    LapRuns 0x202 (lapCmd 0 [1, 0, 0, 0]) true writing (into 0x202 (lapCmd 0 [1, 0, 0, 0]) writing) [1] ∧
    LapRuns 0x203 (lapCmd 1) true writing (into 0x203 (lapCmd 1) writing) [1] ∧
    (wlapOther (into 0x201 (lapCmd 262144) on) 1 1 = false ∧ lapFull (into 0x201 (lapCmd 262144) on) 262144 1 = false) ∧
    (lapCommitted (into 0x200 (lapCmd 0) on) 1 0 = true ∧ bit ((lapCmd 0).p 0) 32 = false ∧
      bit ((lapCmd 1).p 0) 32 = true ∧ bits ((lapCmd 1).p 0) 33 31 = 0 ∧
      scanning (into 0x202 (lapCmd 0 [1, 0, 0, 0]) writing) [1] = false) ∧
    ([1, 0, 0, 0] = leBytes 4 lap.num.toNat ∧ runCount ((lapCmd 0).p 0) = 1 ∧
      findExt (into 0x202 (lapCmd 0 [1, 0, 0, 0]) writing) 1 = some { ext 1 with wlap := some lap } ∧
      (lap.shadows.map (·.1)).Nodup ∧ extsBusy (into 0x202 (lapCmd 0 [1, 0, 0, 0]) writing) [1] = false ∧
      dirLines (into 0x202 (lapCmd 0 [1, 0, 0, 0]) writing) [1] = [] ∧
      pairMirrors (into 0x202 (lapCmd 0 [1, 0, 0, 0]) writing) = false) :=
  ⟨lapRuns _ _ _ _ _ (by simp), lapRuns _ _ _ _ _ (by simp), lapRuns _ _ _ _ _ (by simp), lapRuns _ _ _ _ _ (by simp),
    lapRuns _ _ _ _ _ (by simp), by decide +kernel, by decide +kernel, by decide +kernel⟩

/-- R137: the commit makes lap 1 the latest and its shadow the page's version. -/
theorem test_lapCommit : ∃ t, exec (.lapCommit (lapCmd 0 [1, 0, 0, 0])) writing = .next t ∧
    (findExt t 1).map (·.latest) = some 1 ∧ (findPage t.store 262144).home = some 9 := ⟨_, rfl, by decide +kernel⟩

def mark : Mark := { rider := 1, surr := false, tag := 5, laps := [(1, 0)] }
def marked : State := { on with store := { on.store with marks := [mark] } }

theorem wit_StageCommandsComplete :
    (runsIn 0x204 (cmd 1 [5]) on = some (into 0x204 (cmd 1 [5]) on) ∧
      runsIn 0x204 (cmd 1 [5 + 2 ^ 32]) marked = some (into 0x204 (cmd 1 [5 + 2 ^ 32]) marked) ∧
      runsIn 0x205 (cmd 1 [5]) marked = some (into 0x205 (cmd 1 [5]) marked)) ∧
    (findMark (into 0x204 (cmd 1 [5 + 2 ^ 32]) marked) 1 false = some mark ∧ bit ((cmd 1 [5 + 2 ^ 32]).p 0) 32 = true ∧
      bits ((cmd 1 [5 + 2 ^ 32]).p 0) 33 31 = 0 ∧ lapBusy (into 0x204 (cmd 1 [5 + 2 ^ 32]) marked) [1] = false) ∧
    ((markCovers (into 0x204 (cmd 1 [5]) on) 1 false).map (·.idx) = [1] ∧ replyTooLong (cmd 1 [5]) 32 = false ∧
      lapBusy (into 0x204 (cmd 1 [5]) on) [1] = false ∧ findMark (into 0x204 (cmd 1 [5]) on) 1 false = none) ∧
    (findMark (into 0x205 (cmd 1 [5]) marked) 1 false = some mark ∧ mark.tag.toNat = bits ((cmd 1 [5]).p 0) 0 32 ∧
      rollExts (into 0x205 (cmd 1 [5]) marked) mark = [(1, 0)] ∧ lapBusy (into 0x205 (cmd 1 [5]) marked) [1] = false ∧
      extsBusy (into 0x205 (cmd 1 [5]) marked) [1] = false ∧ dirLines (into 0x205 (cmd 1 [5]) marked) [1] = [] ∧
      scanning (into 0x205 (cmd 1 [5]) marked) [1] = false ∧
      pairMirrors (into 0x205 (cmd 1 [5]) marked) = false ∧ rollFull (into 0x205 (cmd 1 [5]) marked) 1 (1, 0) = false) :=
  ⟨⟨runs (by decide +kernel), runs (by decide +kernel), runs (by decide +kernel)⟩, by decide +kernel, by decide +kernel, by decide +kernel⟩

/-! ### Placement, moves, flash, schedules -/

/-- An object of policy 3 (flash-backed, staged in HBM) over pages 16 to 19. -/
def obj : Obj :=
  { base := 16, pages := 4, policy := 3, fmtGear := 0, priority := 0, stagePages := 4, stageTier := .hbm, rider := 1
    pins := [], sched := none }

def copy : Copy := { frame := 9, dirty := true, pinned := false, order := 0 }

/-- Page 16 has the flash home 8 and a dirty HBM copy in frame 9. -/
def staged (c : Option Copy) : State :=
  { on with
    flash := List.replicate 4 { Cluster.reset with state := 1 }
    store := { on.store with
      frames := [{ id := 8, tier := .flash, ch := false }, { id := 9, tier := .hbm, ch := false }], nextFrame := 10
      pages := [{ n := 16, home := some 8, copy := c }], objects := [obj], nextMove := 5 } }

/-- `OBJ_PLACE` of pages 32 to 35 with policy 1. -/
def placeCmd : Cmd := cmd 1 [32 * 65536, 4 + 1 * 2 ^ 32, 0, 0]

theorem wit_PlacementCommands :
    (runsIn 0x280 placeCmd (staged none) = some (into 0x280 placeCmd (staged none)) ∧
      runsIn 0x282 (cmd 1 [16 * 65536, 1]) (staged (some copy)) = some (into 0x282 (cmd 1 [16 * 65536, 1]) (staged (some copy))) ∧
      runsIn 0x284 (cmd 1 [16 * 65536, 1]) (staged none) = some (into 0x284 (cmd 1 [16 * 65536, 1]) (staged none))) ∧
    (let u := into 0x280 placeCmd (staged none)
     descForm u placeCmd (descObj placeCmd) = true ∧ (descObj placeCmd).policy ≠ 0 ∧ localRun u false 32 4 = some 32 ∧
      runWriter u 1 32 4 = true ∧ (∀ p ∈ u.store.objects, objOverlaps p { descObj placeCmd with base := 32 } = false ∧ p.base ≠ 32) ∧
      (∀ p ∈ u.store.pages, Obj.covers { descObj placeCmd with base := 32 } p.n = false) ∧
      stageOk { descObj placeCmd with base := 32 } none = true ∧ frozenRun u 32 4 = false ∧ tierBusy u.store 32 4 = false ∧
      releasing u.store 32 = false ∧ u.store.objects.length < 65536 ∧
      fits { u with store := { u.store with objects := u.store.objects ++ [{ descObj placeCmd with base := 32 }] } }
        { descObj placeCmd with base := 32 } = true) ∧
    (let u := into 0x282 (cmd 1 [16 * 65536, 1]) (staged (some copy))
     pageRunForm (cmd 1 [16 * 65536, 1]) 32 = true ∧ localRun u false 16 1 = some 16 ∧ runObj u.store 16 1 = some obj ∧
      runWriter u 1 16 1 = true ∧ obj.pins.length + 1 - (obj.pins.filter (inRun 16 1)).length ≤ obj.stagePages - 1 ∧
      ∀ p ∈ u.store.pages, inRun 16 1 p.n = true → p.home.isSome = true → p.copy.isSome = true) ∧
    (let u := into 0x284 (cmd 1 [16 * 65536, 1]) (staged none)
     localRun u false 16 1 = some 16 ∧ runWriter u 1 16 1 = true ∧ u.power.st ≠ .brake ∧ u.power.hold = false ∧
      Config.hasFlash u.variant = true ∧ frozenRun u 16 1 = false ∧ tierBusy u.store 16 1 = false ∧ trims u 16 = false) :=
  ⟨⟨runs (by decide +kernel), runs (by decide +kernel), runs (by decide +kernel)⟩, by decide +kernel, by decide +kernel,
    by decide +kernel⟩

/-- `PAGE_EVICT` of page 16 that keeps its copy. -/
def evictCmd : Cmd := cmd 1 [16 * 65536, 1 + 2 ^ 32]

theorem wit_PageEvictCompletes :
    (runsIn 0x283 evictCmd (staged none) = some (into 0x283 evictCmd (staged none)) ∧
      runsIn 0x283 evictCmd (staged (some copy)) = some (into 0x283 evictCmd (staged (some copy)))) ∧
    (pageRunForm evictCmd 33 = true ∧ bit (evictCmd.p 1) 32 = true ∧
      ∀ p ∈ (into 0x283 evictCmd (staged none)).store.pages, inRun 16 1 p.n = true → p.copy = none) ∧
    (let u := into 0x283 evictCmd (staged (some copy))
     localRun u false 16 1 = some 16 ∧ runObj u.store 16 1 = some obj ∧ runWriter u 1 16 1 = true ∧ frozenRun u 16 1 = false ∧
      (u.store.pages.filter fun q => inRun 16 1 q.n && q.copy.isSome) = [{ n := 16, home := some 8, copy := some copy }] ∧
      (∀ g ∈ u.store.progs, g.page ≠ 16) ∧ flashRefuses u (clusterOf 16) = none ∧ pageFenced u 9 16 = false) :=
  ⟨⟨runs (by decide +kernel), runs (by decide +kernel)⟩, by decide +kernel, by decide +kernel⟩

/-- A move of page 16's home to frame 12 with `n` granules done; a flash read of it; a program of it. -/
def move (n : Nat) : Move :=
  { id := 3, page := 16, src := 9, dst := 12, done := (List.finRange 16).take n, staging := false, why := .place }
def moving (n : Nat) : State :=
  { on with store := { on.store with
      frames := [{ id := 9, tier := .hbm, ch := false }, { id := 12, tier := .lpddr, ch := false }], nextFrame := 13
      pages := [{ n := 16, home := some 9, copy := none }], moves := [move n], nextMove := 5 } }

/-- Four units on dies of the four channels, each with its stripe. -/
def units : List FlashUnit :=
  (List.range 4).map fun i => { die := i, block := 7, stripe := (List.range 15).map fun j => 8 + 15 * i + j }

def flashRead (why : MoveWhy) (dst : Option Nat) : FlashRead := { id := 3, page := 16, src := 8, dst := dst, why := why }
def reading (os : List Obj) (r : FlashRead) : State :=
  { staged none with store := { (staged none).store with reads := [r], objects := os, units := [(8, units)] } }

def program (stored drop : Bool) : FlashProg :=
  { id := 3, page := 16, src := 9, dst := 8, restarts := 0, stored := stored, held := false, drop := drop, why := .evict }
def programming (p : FlashProg) : State := { staged (some copy) with store := { (staged (some copy)).store with progs := [p] } }

theorem wit_MovesComplete :
    (∀ n ∈ [0, 14, 15], (moving n).phase = .running ∧ (moving n).store.moves.find? (·.id == 3) = some (move n) ∧
      (15 : Fin 16) ∉ (move n).done ∧ firstWork (moving n).store 16 3 .place = true ∧
      tierStopped (moving n) (frameTier (moving n).store 12) = false ∧
      (findFrame (moving n).store 9).all (fun fr => !frameFenced (moving n) fr (16 * 65536 + 15 * 4096)) = true ∧
      badAt (moving n).store (frameTier (moving n).store 9) (9 * 65536 + 15 * 4096) 4096 = false) ∧
    ((move 14).done.length + 1 < 16 ∧ (move 15).done.length = 15 ∧
      ∀ p ∈ (moving 15).store.pages, p.n = 16 → p.home = some 9 ∧ p.copy = none) := by decide +kernel

theorem wit_FlashReadsComplete :
    (∀ r ∈ [flashRead .direct none, flashRead .demand (some 9)], ∀ os ∈ [[obj], []],
      (reading os r).store.reads.find? (·.id == 3) = some r ∧ firstWork (reading os r).store 16 3 r.why = true ∧
      coreRestarting (reading os r) (16 + clusterOf 16) = false ∧
      unitsMayRead (reading os r) (clusterOf 16) 8 [.hard, .hard, .soft, .rebuilt] = true ∧
      (findPage (reading os r).store 16).home = some 8 ∧ (findPage (reading os r).store 16).copy = none ∧
      tierStopped (reading os r) (frameTier (reading os r).store 9) = false ∧
      unitFenced (reading os r) (unitSaddlebag (clusterOf 16)) = false ∧ 8 * 65536 ∉ (reading os r).store.bad ∧
      (reading os r).err.inj = []) ∧ UnitRead.failed ∉ [UnitRead.hard, .hard, .soft, .rebuilt] ∧
    (pageObj (reading [obj] (flashRead .demand (some 9))).store 16 = some obj ∧ flashBacked obj.policy = true) ∧
    pageObj (reading [] (flashRead .demand (some 9))).store 16 = none := by decide +kernel

theorem wit_FlashProgramsComplete :
    ∀ b d, (programming (program b d)).store.progs.find? (·.id == 3) = some (program b d) ∧ (program b d).held = false ∧
      coreRestarting (programming (program b d)) (16 + clusterOf 16) = false ∧
      unitsOk (programming (program b d)) (clusterOf 16) units = true ∧
      unitFenced (programming (program b d)) (unitSaddlebag (clusterOf 16)) = false ∧
      pageFenced (programming (program b d)) 9 16 = false ∧
      badAt (programming (program b d)).store (frameTier (programming (program b d)).store 9) (9 * 65536) 65536 = false ∧
      (program b d).why ≠ .direct := by decide +kernel

/-- R78: a page-in gives the page of a flash-backed object its copy and leaves its home. -/
theorem test_flashRead : ∃ t, exec (.flashReadComplete 3 [.hard, .hard, .hard, .hard]) (reading [obj] (flashRead .demand (some 9))) =
    .next t ∧ t.store.reads = [] ∧ (findPage t.store 16).home = some 8 ∧ (findPage t.store 16).copy.map (·.frame) = some 9 :=
  ⟨_, rfl, by decide +kernel⟩

/-- A schedule of one entry of one page with no trigger, released by sync object 63 at 0; its bytes. -/
def entry : SchedEntry :=
  { firstPage := 0, pageCount := 1, trigValue := 0, relValue := 0, passStep := 0, trigRef := 0, relSync := 63, ready := some 63
    trigger := 0 }
def entryBytes : List Byte := leBytes 4 0 ++ leBytes 4 1 ++ List.replicate 14 0 ++ leBytes 2 63 ++ leBytes 2 (32768 + 63) ++ List.replicate 6 0

def schedCmd : Cmd := cmd 1 [16 * 65536, 1] entryBytes

def scheduled (started : Nat) (rs : List SchedRun) : State :=
  { staged none with store := { (staged none).store with
      objects := [{ obj with sched := some { loop := false, entries := [entry], started := started, runs := rs } }] } }

def schedRun : SchedRun := { pass := 0, entry := 0, copies := [], done := false, released := false }

theorem wit_SchedulesComplete :
    runsIn 0x281 schedCmd (staged none) = some (into 0x281 schedCmd (staged none)) ∧
    (let u := into 0x281 schedCmd (staged none)
     schedCmd.h.chunk = 0 ∧ schedCmd.h.more = false ∧ findAssembly u schedCmd = none ∧ bits (schedCmd.p 1) 0 13 = 1 ∧
      bits (schedCmd.p 1) 13 3 = 0 ∧ bits (schedCmd.p 1) 17 47 = 0 ∧ schedCmd.payload.length = 32 ∧
      localRun u false 16 1 = some 16 ∧ findObj u.store 16 = some obj ∧ obj.sched = none ∧ releasing u.store 16 = false ∧
      ((chunksB 32 1 schedCmd.payload).mapIdx fun i b => schedForm obj 1 i b).all id = true ∧
      (∀ b ∈ chunksB 32 1 schedCmd.payload, (parseSched b).syncs.all (riderHasSync u 1) = true) ∧ frozenRun u 16 4 = false) ∧
    (let s := scheduled 0 []
     let x : Sched := { loop := false, entries := [entry], started := 0, runs := [] }
     findObj s.store 16 = some { obj with sched := some x } ∧ x.entries[0 % 1]? = some entry ∧ x.started / x.entries.length = 0 ∧
      trigMet s x 0 0 entry = true ∧ schedTaken { obj with sched := some x } x + entry.pageCount ≤ obj.stagePages) ∧
    (let s := scheduled 1 [schedRun]
     let x : Sched := { loop := false, entries := [entry], started := 1, runs := [schedRun] }
     findObj s.store 16 = some { obj with sched := some x } ∧
      x.runs.find? (fun r => r.pass == 0 && r.entry == 0) = some schedRun ∧ x.entries[0]? = some entry ∧
      fillDone s.store obj entry = true ∧ s.err.inj = [] ∧ frozenRun s (16 + 0) 1 = false ∧
      (BitVec.ofNat 64 (entry.relValue + 0 * entry.passStep)).toNat ≤ (syncVal s entry.relSync).toNat) :=
  ⟨runs (by decide +kernel), by decide +kernel, by decide +kernel, by decide +kernel⟩

/-! ### The flash layer -/

def cluster (c : Cluster) : State := { staged none with flash := List.replicate 4 c }

def upkeep : Cluster := { Cluster.reset with state := 1, relocs := 1, rebuilds := [2], failed := [2] }

def reloc : FlashUnit := { die := 4, block := 9, stripe := (List.range 15).map fun j => 100 + j }

theorem wit_FlashLayerComplete :
    (∀ c ∈ [upkeep, Cluster.reset],
      (cluster c).phase = .running ∧ Config.hasFlash (cluster c).variant = true ∧ (cluster c).flash[(3 : Fin 4).val]? = some c ∧
      unitFenced (cluster c) (unitSaddlebag 3) = false ∧ layerHeld (cluster c) 3 = false ∧ (0 : Nat) ∉ c.failed ∧
      (∀ r ∈ (cluster c).store.reads, clusterOf r.page ≠ 3) ∧ (∀ p ∈ (cluster c).store.progs, clusterOf p.page ≠ 3)) ∧
    (upkeep.state ≠ 0 ∧ upkeep.state ≠ 4 ∧ Cluster.reset.state = 0 ∧ 2 ∈ upkeep.rebuilds ∧ (5, 7) ∉ upkeep.soft ∧ (5, 7) ∉ upkeep.bad ∧
      0 < upkeep.relocs ∧ 0 < Config.flashDies (cluster upkeep).variant) ∧
    (let s := { cluster upkeep with store := { (cluster upkeep).store with units := [(8, units)] } }
     lookupK s.store.units 8 = some units ∧ frameIn s (clusterOf 16) 8 = true ∧ unitOk s (clusterOf 16) reloc = true ∧
      apart (units.set 0 reloc) = true ∧ layerHeld s (clusterOf 16) = false ∧ s.store.progs = []) ∧
    (programming (program false true)).store.progs.find? (·.id == 3) = some (program false true) ∧
    clusterOf 16 < 4 := by decide +kernel

/-! ### Errors and containment -/

def fenced (u : BitVec 16) : State := { on with err := { on.err with fences := [u], mgmt := [u] } }

theorem wit_FenceTriggersComplete :
    ([unitTile 47, unitSpoke 15, unitChainring 15, unitCassette 15, unitHbm 15, unitLpddr 31, unitPort 23, unitTandem 1,
        unitSaddlebag 3].all fun u => unitExists on u && !unitFenced on u && unitFenced (fenced u) u) = true ∧
    (findTile tiled 0 = some tile ∧ tile.prog.isSome = true ∧ tile.ctxs.any (fun k => k.st = .running) = true) := by
  decide +kernel

def unfenceCmd (u : BitVec 16) : Cmd := cmd 0 [u.toNat]

/-- An unfence check of Spoke die 15 that a command on the port waits for. -/
def check : Check := { unit := unitSpoke 15, cmd := openOf 0x603 (unfenceCmd (unitSpoke 15)) }
def checking : State :=
  { fenced (unitSpoke 15) with
    port := { on.port with outstanding := [check.cmd] }
    err := { (fenced (unitSpoke 15)).err with checks := [check] } }

theorem wit_ManagementAndUnfence :
    (unitSpoke 15 ∈ (fenced (unitSpoke 15)).err.mgmt ∧ 1 ≤ (1 : BitVec 4).toNat ∧ (4 : BitVec 4).toNat ≤ 4 ∧
      unitFenced on (unitSpoke 15) = false ∧ unitExists on (unitSpoke 15) = true ∧ 2 ≤ (2 : BitVec 4).toNat) ∧
    (runsIn 0x603 (unfenceCmd (unitSpoke 15)) on = some (into 0x603 (unfenceCmd (unitSpoke 15)) on) ∧
      runsIn 0x603 (unfenceCmd (unitSpoke 15)) (fenced (unitSpoke 15)) =
        some (into 0x603 (unfenceCmd (unitSpoke 15)) (fenced (unitSpoke 15)))) ∧
    (bits ((unfenceCmd (unitSpoke 15)).p 0) 16 48 = 0 ∧ unitKind (unitSpoke 15) = 2 ∧
      unitFenced (into 0x603 (unfenceCmd (unitSpoke 15)) on) (unitSpoke 15) = false ∧
      unitFenced (into 0x603 (unfenceCmd (unitSpoke 15)) (fenced (unitSpoke 15))) (unitSpoke 15) = true ∧
      (into 0x603 (unfenceCmd (unitSpoke 15)) (fenced (unitSpoke 15))).err.checks = []) ∧
    (checking.err.checks.find? (·.unit = unitSpoke 15) = some check ∧ check.cmd.h.src = .port ∧
      check.cmd ∈ checking.port.outstanding ∧ checking.err.fences.count (unitSpoke 15) = 1 ∧
      1 ≤ (5 : BitVec 3).toNat ∧ (5 : BitVec 3).toNat ≤ 5) :=
  ⟨by decide +kernel, ⟨runs (by decide +kernel), runs (by decide +kernel)⟩, by decide +kernel, by decide +kernel⟩

theorem wit_PatrolCompletes :
    tiled.phase = .running ∧ tiled.power.st = .cruise ∧ latestFrame tiled (0xFFC0 : Word).toNat = some 0 ∧
    findFrame tiled.store 0 = some { id := 0, tier := .hbm, ch := false } ∧ memPoint (unitOf tiled 0xFFC0) ≠ 7 ∧
    unitFenced tiled (unitOf tiled 0xFFC0) = false ∧ tiled.err.inj = [] ∧ tiled.err.behind ≤ 256 ∧
    0xFFC0 ∉ tiled.store.bad ∧ 0xFFC0 ∉ tiled.store.soft := by decide +kernel

/-- The module with one record in the error log, in rider 1's fault log and in the odometer. -/
def rec1 : Rec := { Rec.blank 0x0002 with rider := 1 }
def logged : State :=
  { on with
    queues := [{ queue with rider := 1 }]
    err := { on.err with log := { recs := [rec1], next := 1 }, faults := [(1, { recs := [rec1], next := 1 })] }
    nv := { on.nv with odometer := { recs := [rec1], next := 1 }, odoPos := 1 } }

def logCmd (rider scope : Nat) : Cmd := cmd rider [scope + 1024 * 2 ^ 32, 0]

theorem wit_LogsRead :
    (runsIn 0x600 (logCmd 0 0) logged = some (into 0x600 (logCmd 0 0) logged) ∧
      runsIn 0x600 (logCmd 1 1) logged = some (into 0x600 (logCmd 1 1) logged) ∧
      runsIn 0x600 (onQueue 0 (logCmd 1 0)) logged = some (into 0x600 (onQueue 0 (logCmd 1 0)) logged) ∧
      runsIn 0x602 (cmd 0 [0, 64]) logged = some (into 0x602 (cmd 0 [0, 64]) logged)) ∧
    (bits ((logCmd 0 0).p 0) 1 31 = 0 ∧ bits ((logCmd 0 0).p 0) 32 32 = 1024 ∧ bit ((logCmd 0 0).p 0) 0 = false ∧
      bit ((logCmd 1 1).p 0) 0 = true ∧ (into 0x600 (logCmd 0 0) logged).err.log.recs.getLast? = some rec1 ∧
      (faultLog (into 0x600 (logCmd 1 1) logged) 1).recs.getLast? = some rec1) ∧
    (bits ((cmd 0 [0, 64]).p 1) 32 32 = 0 ∧ bits ((cmd 0 [0, 64]).p 1) 0 32 = 64 ∧
      (odoValid (into 0x602 (cmd 0 [0, 64]) logged)).recs.getLast? = some rec1) ∧
    (logged.nv.odoBad = [] ∧ logged.nv.odometer.recs.getLast? = some rec1 ∧ rec1.seq = 0 ∧
      logged.nv.odometer.recs.length ≤ logged.nv.odoPos) ∧ logged.nv.odometer.recs.length < 131072 :=
  ⟨⟨runs (by decide +kernel), runs (by decide +kernel), runs (by decide +kernel), runs (by decide +kernel)⟩, by decide +kernel,
    by decide +kernel, by decide +kernel, by show 1 < 131072; decide⟩

/-! ### Signatures -/

theorem opens {op : Nat} {c : Cmd} {s : State} (h : (runsIn op c s).isSome = true) (hp : c.h.src = .port)
    (hw : s.power.st = .cruise) : runsIn op c s = some (openCmd (openOf op c) s) := by
  have hs : wakeUp s = s := by simp [wakeUp, hw]
  unfold runsIn passes at *
  simp only [hp, hs] at *
  grind

theorem openCmd_env (o : Open) (s : State) : (openCmd o s).env = s.env := by
  unfold openCmd; split <;> rfl

/-- A state of a module that knows one manager key, in slot 0, under which the pairs of `es` verify. -/
def signed (es : List (BitVec 256 × List Byte)) (s : State) : State :=
  { s with
    env := { s.env with sigs := es.map fun e => ([7], e) }
    nv := { s.nv with keys := [(0, [7])], k := 1 } }

theorem mgr_ok {s : State} {slot : Nat} {k : List Byte} {d : BitVec 256} {sig : List Byte}
    (hk : lookupK s.nv.keys slot = some k) (hs : (k, d, sig) ∈ s.env.sigs) : mgrSigOk s slot d sig = true := by
  simp [mgrSigOk, mgrKey, hk, sigOk, hs]

/-- Arm a bit flip of one operation at a tile's issue, with sequence number 1, signed by slot 0. -/
def injCmd : Cmd := cmd 0 [1 + (unitTile 0).toNat * 2 ^ 16 + 2 ^ 40, 0, 1, 0] (List.replicate 2424 0)

/-- The bytes under the signature of an `INJECT` of this module's first boot. -/
def injBody (c : Cmd) : List Byte := paramBytes c.params ++ wordBytes Config.deviceFp ++ leBytes 4 1

def injecting : State := signed [(Config.sha3 (injBody injCmd), List.replicate 2420 0)] on

theorem wit_InjectCompletes :
    runsIn 0x601 injCmd injecting = some (openCmd (openOf 0x601 injCmd) injecting) ∧
    (openCmd (openOf 0x601 injCmd) injecting).fw.identity = true ∧
    injectForm (openCmd (openOf 0x601 injCmd) injecting) injCmd = true ∧
    injectAuth (openCmd (openOf 0x601 injCmd) injecting) injCmd = true ∧
    (openCmd (openOf 0x601 injCmd) injecting).err.inj.length < 16 := by
  refine ⟨opens (by decide +kernel) rfl rfl, by decide +kernel, by decide +kernel, ?_, by decide +kernel⟩
  have h : mgrSigOk (openCmd (openOf 0x601 injCmd) injecting) (fieldB injCmd.payload 0 1)
      (Config.sha3 (paramBytes injCmd.params ++ wordBytes Config.deviceFp ++ leBytes 4 1))
      (sigBytes (injCmd.payload.drop 4)) = true := by
    refine mgr_ok (k := [7]) (by decide +kernel) ?_
    have hs : sigBytes (injCmd.payload.drop 4) = List.replicate 2420 0 := by decide +kernel
    rw [openCmd_env, hs]
    exact List.mem_cons_self ..
  exact (Bool.and_eq_true ..).mpr ⟨h, by decide +kernel⟩

/-! ### Composition -/

/-- The first `n` little-endian bytes of a number, for a table. -/
def le (n v : Nat) : List Byte := leBytes n v

/-- A composition record but for its signature: 16 modules with fingerprints 100 to 115, rider 1, and extent 0 of module 0,
written and read by rider 1, under an epoch. -/
def recBody (epoch : Nat) : List Byte :=
  le 4 0x0C0AF064 ++ le 2 1 ++ le 2 0 ++ le 4 3064 ++ le 4 epoch ++ [3, 16, 1, 0] ++ le 2 1 ++ le 2 0 ++ zeros 40 ++
    ((List.range 16).flatMap fun m => le 8 (100 + m) ++ le 4 1 ++ [BitVec.ofNat 8 m, 0xFF] ++ zeros 18) ++
    ([1, 1] ++ le 2 4 ++ le 2 64 ++ le 2 0 ++ le 2 64 ++ zeros 22) ++
    (le 8 2 ++ le 8 2 ++ le 2 0 ++ le 2 1 ++ le 2 0 ++ [0, 0] ++ zeros 8)

def record (epoch : Nat) : List Byte := recBody epoch ++ zeros 2424

/-- The module with fingerprint 100 in its first boot, under a composition whose epoch is 1, whose manager signed `bs`. -/
def managed (bs : List (List Byte)) : State :=
  let s := signed (bs.map fun b => (Config.sha3 b, zeros 2420)) on
  { s with
    env := { s.env with fp := 100 }
    nv := { s.nv with members := (List.range 16).map fun m => BitVec.ofNat 64 (100 + m) }
    flash := s.flash.map fun k => { k with state := 1 } }

def composeCmd (epoch : Nat) : Cmd := cmd 0 [1] (record epoch)

/-- A revoke of extent 0 that waits. -/
def revokeJob : Job := .revoke (openOf 0x101 (cmd 0 [0])) [0] false

def composeS (js : List Job) (epoch : Nat) : State := { managed [recBody epoch] with jobs := js }
def composeU (js : List Job) (epoch : Nat) : State := openCmd (openOf 0x018 (composeCmd epoch)) (composeS js epoch)

theorem whole (js : List Job) (epoch : Nat) (hj : js = [] ∨ js = [revokeJob]) (h : epoch ∈ [1, 2]) :
    WholeRecord (composeCmd epoch) (composeU js epoch) := by
  rcases hj with rfl | rfl <;> fin_cases h <;> exact ⟨rfl, by decide +kernel, by decide +kernel, rfl, by decide +kernel, by decide +kernel,
    by decide +kernel, by decide +kernel⟩

theorem record_signed (js : List Job) (epoch : Nat) (hj : js = [] ∨ js = [revokeJob]) (h : epoch ∈ [1, 2]) :
    recSigned (composeU js epoch) (record epoch) = true := by
  have hb : (record epoch).take ((record epoch).length - 2424) = recBody epoch := by
    fin_cases h <;> decide +kernel
  have hs : sigBytes ((record epoch).drop ((record epoch).length - 2424)) = zeros 2420 := by
    fin_cases h <;> decide +kernel
  unfold recSigned
  rw [hb, hs]
  refine mgr_ok (k := [7]) (by rcases hj with rfl | rfl <;> fin_cases h <;> decide +kernel) ?_
  rw [composeU, openCmd_env]
  exact List.mem_cons_self ..

/-- A record of the epoch in force is stale; one of the next epoch passes every check. -/
theorem record_checked : checkRecord (composeU [] 1) (record 1) = .inl .staleMap ∧
    ∀ js, js = [] ∨ js = [revokeJob] → ∃ k, checkRecord (composeU js 2) (record 2) = .inr k := by
  have e1 : recShape (record 1) = true := by decide +kernel
  have e2 : recShape (record 2) = true := by decide +kernel
  have f1 : recEpoch (record 1) ≤ epochNow (composeU [] 1) := by decide +kernel
  constructor
  · simp [checkRecord, e1, record_signed [] 1 (.inl rfl) (by decide), f1]
  · intro js hj
    have f2 : ¬ recEpoch (record 2) ≤ epochNow (composeU js 2) := by rcases hj with rfl | rfl <;> decide +kernel
    have h : (match recOwn (composeU js 2) ((recTabs (record 2)).mods.map parseMod) with
      | none => false
      | some own =>
        ((recTabs (record 2)).mods.map parseMod).all (fun m => (composeU js 2).nv.members.contains m.fp) &&
        (hdrOk (record 2) && modsOk (recTabs (record 2)).mods && ridersOk (recTabs (record 2)).riders &&
          runsOk ((recTabs (record 2)).mods.map parseMod) ((recTabs (record 2)).riders.map parseRider) (recTabs (record 2)).runs &&
          routesOk ((recTabs (record 2)).mods.map parseMod) ((recTabs (record 2)).riders.map parseRider)
            (recTabs (record 2)).routes) &&
        decide (¬ extentCapacity (composeU js 2) <
          extentsOn ((recTabs (record 2)).mods.map parseMod) ((recTabs (record 2)).runs.map parseRun) own.module.toNat) &&
        ((recTabs (record 2)).runs.map parseRun).all (fun u => !(u.keep && decide (u.module = own.module)) ||
          keptRun (composeU js 2).nv.kept u)) = true := by rcases hj with rfl | rfl <;> decide +kernel
    unfold checkRecord
    rw [if_neg (by simp [e2]), if_neg (by simp [record_signed js 2 hj (by decide)]), if_neg f2]
    dsimp only
    split
    · next hn => rw [hn] at h; exact absurd h Bool.false_ne_true
    · next own ho =>
      rw [ho] at h
      simp only [Bool.and_eq_true, decide_eq_true_eq] at h
      obtain ⟨⟨⟨h1, h2⟩, h3⟩, h4⟩ := h
      rw [if_neg (by rw [h1]; decide), if_neg (by simp [h2]), if_neg h3, if_neg (by rw [h4]; decide)]
      exact ⟨_, rfl⟩

def firstChunk : Cmd := { composeCmd 2 with h := { (composeCmd 2).h with flags := 8, payloadLen := 65536 }, params := [2], payload := zeros 65536 }

theorem wit_ComposeAccepted :
    (runsIn 0x018 (composeCmd 1) (composeS [] 1) = some (composeU [] 1) ∧ WholeRecord (composeCmd 1) (composeU [] 1) ∧
      checkRecord (composeU [] 1) (composeCmd 1).payload = .inl .staleMap) ∧
    (∀ js, js = [] ∨ js = [revokeJob] → runsIn 0x018 (composeCmd 2) (composeS js 2) = some (composeU js 2) ∧
      WholeRecord (composeCmd 2) (composeU js 2) ∧ ∃ k, checkRecord (composeU js 2) (composeCmd 2).payload = .inr k) ∧
    (revokesOpen (composeU [] 2) = [] ∧ revokesOpen (composeU [revokeJob] 2) ≠ []) ∧
    (runsIn 0x018 firstChunk (managed []) = some (into 0x018 firstChunk (managed [])) ∧ firstChunk.h.more = true ∧
      findAssembly (into 0x018 firstChunk (managed [])) firstChunk = none ∧ (into 0x018 firstChunk (managed [])).compose = .idle ∧
      notMounted (into 0x018 firstChunk (managed [])) = false ∧ (into 0x018 firstChunk (managed [])).port.assemblies = [] ∧
      firstChunk.payload.length = 65536) :=
  ⟨⟨opens (by decide +kernel) rfl rfl, whole [] 1 (.inl rfl) (by decide), record_checked.1⟩,
    fun js hj => ⟨by rcases hj with rfl | rfl <;> exact opens (by decide +kernel) rfl rfl, whole js 2 hj (by decide),
      record_checked.2 js hj⟩, by decide +kernel,
    runs (by decide +kernel), by decide +kernel⟩

def oneHeld : Held := { id := 0, epoch := 9, what := .fence 3 0 5 6 }
def holding : State := { on with held := [oneHeld], nextHeld := 1 }

/-- The composition drains for a command from the sideband. -/
def opened : Open := openOf 0x018 (onSideband (composeCmd 2))
def draining : State := { on with compose := .draining opened comp }

theorem wit_CompositionSwitch :
    (draining.phase = .running ∧ draining.compose = .draining opened comp ∧
      drained { rider := none, keep := opened } draining = true) ∧
    (∃ p ∈ tiled.store.pages, extentOfPage p.n = 0 ∧ p.home = some 0) ∧ draining.held = [] :=
  ⟨⟨rfl, rfl, by decide +kernel⟩, by decide +kernel⟩

/-- R36: the record's epoch is in force after the switch, its drain is over, and the pages of an extent that it does not
keep are gone. -/
theorem test_switch : ∃ t, exec .composeDrained { tiled with tiles := [], compose := .draining opened { comp with epoch := 2 } } = .next t ∧
    epochNow t = 2 ∧ t.compose = .idle ∧ t.store.pages = [] ∧ t.port.outstanding = [] :=
  ⟨_, rfl, by decide +kernel, by decide +kernel, by decide +kernel, by decide +kernel⟩

/-- A transaction at line 0, and the module with it. -/
def trk (k : ReqKind) (p : TrkPhase) : Trk :=
  { Trk.blank 0 1 (.req { src := .agent 64, epoch := none, opa := mkOpa 3 0 0, txn := 5 } k) with phase := p }
def traced : State := { on with coh := { on.coh with trks := [trk .rdOwn .memSent], nextTrk := 1 } }

def resetCmd : Cmd := cmd 1 []
def resetting : State := { on with jobs := [.reset (openOf 0x019 resetCmd) 1], resets := [1] }

/-- A queue whose ring holds the `NOP` entry of one slot. -/
def fetching : State := withQueue { queue with sqTail := 1 }

theorem wit_HoldsAndResetsComplete :
    (holding.phase = .running ∧ holding.held.find? (fun x => x.id == oneHeld.id && decide (epochNow holding < x.epoch)) =
      some oneHeld ∧ oneHeld.what = .fence 3 0 5 6) ∧
    (runsIn 0x019 resetCmd on = some (into 0x019 resetCmd on) ∧
      runsIn 0x019 resetCmd traced = some (into 0x019 resetCmd traced) ∧
      runsIn 0x019 (cmd 2 []) on = some (into 0x019 (cmd 2 []) on)) ∧
    ((riderEntry (into 0x019 (cmd 2 []) on) (cmd 2 []).h.r).isNone = true ∧
      (riderEntry (into 0x019 resetCmd on) resetCmd.h.r).isSome = true ∧
      drained { rider := some resetCmd.h.r, keep := openOf 0x019 resetCmd }
        { into 0x019 resetCmd on with resets := (into 0x019 resetCmd on).resets ++ [resetCmd.h.r] } = true ∧
      (riderEntry (into 0x019 resetCmd traced) resetCmd.h.r).isSome = true ∧
      drained { rider := some resetCmd.h.r, keep := openOf 0x019 resetCmd }
        { into 0x019 resetCmd traced with resets := (into 0x019 resetCmd traced).resets ++ [resetCmd.h.r] } = false) ∧
    (resetting.phase = .running ∧ resetting.jobs = [.reset (openOf 0x019 resetCmd) 1]) ∧
    (fetching.phase = .running ∧ findQueue fetching 0 = some { queue with sqTail := 1 } ∧
      mayFetch fetching { queue with sqTail := 1 } = true ∧ turnOf fetching = some (1, 0) ∧
      fetching.port.heldCmds = [] ∧ 6 ≤ queue.ringLog2 ∧ queue.ringVa = 0x20000 ∧
      target fetching (3 * 2 ^ 54 + 0x20000) = .off 0x20000 ∧
      entryBad queue (fieldB (held fetching 0x20000 32) 0x0C 2) (fieldB (held fetching 0x20000 32) 0x10 4) = false ∧
      32 + fieldB (held fetching 0x20000 32) 0x0C 2 + fieldB (held fetching 0x20000 32) 0x10 4 ≤ 64) ∧
    (Hits fetching (.queue 0) 1 0x20000 false (3 * 2 ^ 54 + 0x20000) ∧
      Reads fetching (rqQueue { queue with sqTail := 1 }) 0x20000 64) ∧
    ∃ hb v b w, ringRead (takeTurn 1 0 fetching) { queue with sqTail := 1 } 0 32 = (.data hb, v) ∧
      entryBad queue (fieldB hb 0x0C 2) (fieldB hb 0x10 4) = false ∧ 0 + entrySlots (fieldB hb 0x0C 2) (fieldB hb 0x10 4) ≤ 1 ∧
      ringRead v { queue with sqTail := 1 } 0 (32 + fieldB hb 0x0C 2 + fieldB hb 0x10 4) = (.data b, w) :=
  ⟨by decide +kernel, ⟨runs (by decide +kernel), runs (by decide +kernel), runs (by decide +kernel)⟩, by decide +kernel,
    by decide +kernel, by decide +kernel,
    ⟨hit (by decide +kernel), reads 2 (frameN 2) (by decide +kernel)⟩,
    zeros 32, _, zeros 32, _, Prod.ext (by decide +kernel) rfl, by decide +kernel, by decide +kernel, Prod.ext (by decide +kernel) rfl⟩

def assignCmd : Cmd := cmd 0 [1 * 2 ^ 16]
def revokeCmd : Cmd := cmd 0 [1 * 2 ^ 16 + 2 ^ 32]

/-- Agent 64 holds line 0 of extent 0. -/
def listed : State := { on with coh := { on.coh with dir := [{ line := 0, st := .xr 64, dead := false }] } }

/-- Extent 0 is not live yet. -/
def fresh : State := { tiled with store := { tiled.store with extents := [{ ext 0 with live := false }, ext 1] } }

theorem wit_ExtentCommandsComplete :
    (runsIn 0x100 assignCmd fresh = some (into 0x100 assignCmd fresh) ∧
      runsIn 0x101 revokeCmd on = some (into 0x101 revokeCmd on) ∧
      runsIn 0x101 revokeCmd traced = some (into 0x101 revokeCmd traced) ∧
      runsIn 0x102 assignCmd on = some (into 0x102 assignCmd on)) ∧
    (runForm (assignCmd.p 0) 16384 = true ∧ bits (assignCmd.p 0) 32 32 = 0 ∧
      namedExts (into 0x100 assignCmd fresh) assignCmd = some [0] ∧ revoking (into 0x100 assignCmd fresh) (openOf 0x100 assignCmd) [0] = false) ∧
    (∀ x ∈ [on, traced], runForm (revokeCmd.p 0) 16384 = true ∧ bits (revokeCmd.p 0) 33 31 = 0 ∧
      namedExts (into 0x101 revokeCmd x) revokeCmd = some [0] ∧ revoking (into 0x101 revokeCmd x) (openOf 0x101 revokeCmd) [0] = false ∧
      ∀ i ∈ [0], ∀ y ∈ (into 0x101 revokeCmd x).store.extents, y.idx = i → y.live = true) ∧
    (let v := forExts [0] (into 0x101 revokeCmd on) fun i s => updExt s i fun x => { x with live := false };
      extsBusy v [0] = false ∧ dirLines v [0] = [] ∧ extsHeld v [0] = false ∧ tierCmdIn v [0] = false ∧ frozenExt v [0] = false) ∧
    extsBusy (forExts [0] (into 0x101 revokeCmd traced) fun i s => updExt s i fun x => { x with live := false }) [0] = true ∧
    (runsIn 0x101 revokeCmd listed = some (into 0x101 revokeCmd listed) ∧ runForm (revokeCmd.p 0) 16384 = true ∧
      namedExts (into 0x101 revokeCmd listed) revokeCmd = some [0] ∧
      revoking (into 0x101 revokeCmd listed) (openOf 0x101 revokeCmd) [0] = false ∧
      extsBusy (forExts [0] (into 0x101 revokeCmd listed) fun i s => updExt s i fun x => { x with live := false }) [0] = false ∧
      dirLines (forExts [0] (into 0x101 revokeCmd listed) fun i s => updExt s i fun x => { x with live := false }) [0] ≠ []) ∧
    (tiled.store.pages = [{ n := 0, home := some 0, copy := none }] ∧ extentOfPage 0 = 0 ∧ pageFenced tiled 0 0 = false) ∧
    (runForm (assignCmd.p 0) 1024 = true ∧ assignCmd.h.src = .port) :=
  ⟨⟨runs (by decide +kernel), runs (by decide +kernel), runs (by decide +kernel), runs (by decide +kernel)⟩, by decide +kernel,
    by decide +kernel, by decide +kernel, by decide +kernel, ⟨runs (by decide +kernel), by decide +kernel⟩,
    by decide +kernel, by decide +kernel⟩

/-- Rider 1 has lost line 0, which fenced extent 0. -/
def lossy : State :=
  { on with
    queues := [{ queue with rider := 1 }]
    store := { on.store with extents := [{ ext 0 with fenced := true }, ext 1] }
    coh := { on.coh with losses := [{ rider := 1, next := 1, ents := [{ line := 0, seq := 0, agent := 64, cause := 1 }] }] } }

def lossRead : Cmd := onQueue 0 (cmd 1 [16 * 2 ^ 32, 0])
def lossDrop : Cmd := onQueue 0 (cmd 1 [1, 5])

theorem wit_LossAckCompletes :
    (runsIn 0x103 lossRead lossy = some (into 0x103 lossRead lossy) ∧
      runsIn 0x103 lossDrop lossy = some (into 0x103 lossDrop lossy)) ∧
    (bits (lossRead.p 0) 1 7 = 0 ∧ bits (lossRead.p 0) 9 7 = 0 ∧ bits (lossRead.p 0) 30 2 = 0 ∧ bits (lossRead.p 0) 45 19 = 0 ∧
      bits (lossRead.p 1) 32 32 = 0 ∧ bit (lossRead.p 0) 0 = false ∧ 1 ≤ bits (lossRead.p 0) 32 13 ∧
      bits (lossRead.p 0) 32 13 ≤ 4096 ∧
      ((riderLosses (into 0x103 lossRead lossy) lossRead.h.r lossRead.h.surrogate).getLast?).isSome = true) ∧
    (bits (lossDrop.p 0) 1 7 = 0 ∧ bits (lossDrop.p 0) 9 7 = 0 ∧ bits (lossDrop.p 0) 30 2 = 0 ∧ bits (lossDrop.p 0) 45 19 = 0 ∧
      bits (lossDrop.p 1) 32 32 = 0 ∧ bit (lossDrop.p 0) 0 = true ∧
      localIdx (into 0x103 lossDrop lossy) lossDrop.h.surrogate (bits (lossDrop.p 0) 16 14) = some 0 ∧
      findExt (into 0x103 lossDrop lossy) 0 = some { ext 0 with fenced := true } ∧
      (extRun (into 0x103 lossDrop lossy) { ext 0 with fenced := true }).any (·.reader lossDrop.h.r) = true ∧
      ∀ e ∈ extLosses (into 0x103 lossDrop lossy) lossDrop.h.r 0, e.seq ≤ bits (lossDrop.p 1) 0 32) :=
  ⟨⟨runs (by decide +kernel), runs (by decide +kernel)⟩, by decide +kernel, by decide +kernel⟩

/-- R126: the acknowledgement lifts the fence. -/
theorem test_lossAck : ∃ t, exec (.lossAck lossDrop) lossy = .next t ∧
    ((findExt t 0).map (·.fenced) = some false) := ⟨_, rfl, by decide +kernel⟩

/-! ### The Chainring engines -/

theorem all_of {α : Type} {l : List α} {p : α → Prop} [DecidablePred p] (h : (l.all fun a => decide (p a)) = true) :
    ∀ a ∈ l, p a := fun a ha => of_decide_eq_true (List.all_eq_true.mp h a ha)

/-- The OPA of an offset of this module. -/
def opa (off : Nat) : Nat := (mkOpa 3 0 off).toNat

/-- A fill, a copy and a compare of 64 bytes at 0x20000, against 0x30000; a fill at an odd address. -/
def fillCmd : Cmd := cmd 1 [opa 0x20000, 0x0102030405060708, 64, 0, 0, 0, 0, 0]
def oddFill : Cmd := cmd 1 [opa 0x20001, 0, 64, 0, 0, 0, 0, 0]
def copyCmd : Cmd := cmd 1 [opa 0x20000, opa 0x30000, 64, 0, 0, 0, 0, 0]

/-- Add two runs of 64 FP32 elements (format 5, no gear), one of them the destination itself. -/
def reduceCmd : Cmd :=
  cmd 1 [opa 0x20000, 0, 64, 0 + 0x50 * 2 ^ 8 + 0x50 * 2 ^ 16 + 2 * 2 ^ 32, 0, 0, 0, 0] (leBytes 8 (opa 0x20000) ++ leBytes 8 (opa 0x30000))

def bulkW : Cmd := cmd 1 [opa 0x20000] (zeros 64)
def bulkR : Cmd := cmd 1 [opa 0x20000, 64]

/-- The operation that `fillCmd` starts, and the module with it. -/
def fillOp : EngOp := EngOp.blank fillCmd 0x380 (.fill 0x0102030405060708)
def filling : State := { rooted with eng := { rooted.eng with ops := [fillOp], nextOp := 1 } }
def fillFenced : State := { filling with err := { filling.err with fences := [pieceUnit filling fillOp] } }

/-- The operations of the bulk commands; the fill of a command on queue 0, at a VA. -/
def writeOp : EngOp := { EngOp.blank bulkW 0x480 (.bulkWrite bulkW.payload) with len := 64, dstLen := 64 }
def readOp : EngOp := { EngOp.blank bulkR 0x481 .bulkRead with len := 64, dstLen := 64 }
def queuedFill : EngOp := EngOp.blank (onQueue 0 (cmd 1 [0x20000, 7, 64, 0, 0, 0, 0, 0])) 0x380 (.fill 7)
def beating (o : EngOp) : State := { rooted with queues := [queue], eng := { rooted.eng with ops := [o], nextOp := 1 } }

def beatB (s : State) (o : EngOp) : Bool :=
  decide (s.phase = .running) && decide (s.eng.ops.find? (·.id == o.id) = some o) && !o.stopped && !o.late && o.fault.isNone &&
    pieceRuns s o && !pieceFenced s o && !o.sent && o.got == 0 && o.put == 0 && o.buf.isEmpty &&
    unackedOf s (opSource s o.id) == 0 && decide (o.next < o.len) && decide (o.dst.toNat + o.len < 2 ^ 64)

theorem beatFree {s : State} {o : EngOp} (h : beatB s o = true) : BeatFree s o := by
  simp only [beatB, Bool.and_eq_true, decide_eq_true_eq, Bool.not_eq_true', Option.isNone_iff_eq_none, List.isEmpty_iff,
    beq_iff_eq] at h
  obtain ⟨⟨⟨⟨⟨⟨⟨⟨⟨⟨⟨⟨⟨h1, h2⟩, h3⟩, h4⟩, h5⟩, h6⟩, h7⟩, h8⟩, h9⟩, h10⟩, h11⟩, h12⟩, h13⟩, h14⟩ := h
  exact ⟨h1, h2, ⟨h3, h4, h5⟩, h6, h7, ⟨h8, h9, h10, h11⟩, h12, h13, h14⟩

theorem nm_free {c : Cmd} {u : State} (h : (!bit (nmDone c) 15 || riderHasSync u c.h.r (bits (nmDone c) 0 14)) = true)
    (hn : (u.eng.ops.filter isNm).length < 1024) : nmFree c u := ⟨fun hb => by simpa [hb] using h, hn⟩

theorem wit_EngineCommandsComplete :
    (∀ x ∈ [(0x380, fillCmd), (0x380, oddFill), (0x381, copyCmd), (0x382, copyCmd), (0x383, reduceCmd), (0x480, bulkW),
      (0x481, bulkR)], runsIn x.1 x.2 rooted = some (into x.1 x.2 rooted)) ∧
    (nmPlain fillCmd = true ∧ (fillCmd.p 0).toNat % 8 = 0 ∧ nmPlain oddFill = true ∧ (oddFill.p 0).toNat % 8 ≠ 0 ∧
      nmPlain copyCmd = true ∧
      rangesApart (copyCmd.p 0).toNat (copyCmd.p 2).toNat (copyCmd.p 1).toNat (copyCmd.p 2).toNat = true ∧
      (copyCmd.p 0).toNat % 8 = 0 ∧ (copyCmd.p 1).toNat % 8 = 0) ∧
    (nmFree fillCmd (into 0x380 fillCmd rooted) ∧ nmFree copyCmd (into 0x381 copyCmd rooted) ∧
      nmFree copyCmd (into 0x382 copyCmd rooted) ∧ nmFree reduceCmd (into 0x383 reduceCmd rooted)) ∧
    Reduces reduceCmd 0 0x50 0x50 0 2 ∧
    (bits (bulkR.p 1) 17 47 = 0 ∧ 1 ≤ bits (bulkR.p 1) 0 17 ∧ bits (bulkR.p 1) 0 17 ≤ 65536) ∧
    (BeatFree filling fillOp ∧ BeatFree (beating writeOp) writeOp ∧ BeatFree (beating readOp) readOp ∧
      BeatFree (beating queuedFill) queuedFill) ∧
    (Leads filling fillOp.cmd.h fillOp.here true (mkOpa 3 0 0x20000) ∧ Leads (beating writeOp) writeOp.cmd.h writeOp.here true
        (mkOpa 3 0 0x20000) ∧ Leads (beating readOp) readOp.cmd.h readOp.here false (mkOpa 3 0 0x20000) ∧
      Leads (beating queuedFill) queuedFill.cmd.h queuedFill.here true (mkOpa 3 0 0x20000)) ∧
    (Writes filling (fillOp.rq fillOp.here) 0x20000 2 (frameN 2) (fillBytes fillOp 0x0102030405060708) (ext 0) ∧
      Writes (beating writeOp) (writeOp.rq writeOp.here) 0x20000 2 (frameN 2) ((bulkW.payload.drop writeOp.next).take writeOp.step)
        (ext 0) ∧
      Reads (beating readOp) (readOp.rq readOp.here) 0x20000 readOp.step ∧
      Writes (beating queuedFill) (queuedFill.rq queuedFill.here) 0x20000 2 (frameN 2) (fillBytes queuedFill 7) (ext 0)) ∧
    (target filling (mkOpa 3 0 0x20000) = .off 0x20000 ∧ fillOp.kind = .fill 0x0102030405060708 ∧
      writeOp.kind = .bulkWrite bulkW.payload ∧ writeOp.len ≤ bulkW.payload.length ∧ readOp.kind = .bulkRead) ∧
    (fillFenced.phase = .running ∧ fillFenced.eng.ops.find? (·.id == fillOp.id) = some fillOp ∧
      fillOp.stopped = false ∧ fillOp.late = false ∧ pieceRuns fillFenced fillOp = true ∧ fillOp.fault = none ∧
      pieceFenced fillFenced fillOp = true) := by
  refine ⟨fun x hx => runs ?_, by decide +kernel, ⟨nm_free (by decide +kernel) (by decide +kernel),
    nm_free (by decide +kernel) (by decide +kernel), nm_free (by decide +kernel) (by decide +kernel),
    nm_free (by decide +kernel) (by decide +kernel)⟩, ⟨by decide +kernel, by decide +kernel, by decide +kernel, by decide +kernel,
    by decide +kernel, by decide +kernel, all_of (by decide +kernel), by decide +kernel,
    by decide +kernel, all_of (by decide +kernel)⟩, by decide +kernel,
    ⟨beatFree (by decide +kernel), beatFree (by decide +kernel), beatFree (by decide +kernel), beatFree (by decide +kernel)⟩,
    ⟨.inl ⟨nofun, by decide +kernel⟩, .inl ⟨nofun, by decide +kernel⟩, .inl ⟨nofun, by decide +kernel⟩,
      .inr ⟨0, rfl, by decide +kernel, hit (by decide +kernel)⟩⟩,
    ⟨writes (by decide +kernel), writes (by decide +kernel), reads 2 (frameN 2) (by decide +kernel), writes (by decide +kernel)⟩,
    by decide +kernel, by decide +kernel⟩
  have h : ([(0x380, fillCmd), (0x380, oddFill), (0x381, copyCmd), (0x382, copyCmd), (0x383, reduceCmd), (0x480, bulkW),
      (0x481, bulkR)].all fun x => (runsIn x.1 x.2 rooted).isSome) = true := by decide +kernel
  exact List.all_eq_true.mp h x hx

/-- R240: the beat of a fill writes the pattern at its address. -/
theorem test_fillBeat : ∃ t, exec (.engineBeatCompletion 0 none) filling = .next t ∧
    memReadN t.store.mem 0x20000 8 = [8, 7, 6, 5, 4, 3, 2, 1] ∧ memReadN t.store.mem 0x20040 1 = [0] :=
  ⟨_, rfl, by decide +kernel, by decide +kernel⟩

/-- A comparison whose second byte differs. -/
def compareOp : EngOp := { EngOp.blank copyCmd 0x382 .compare with buf := [1, 2] ++ zeros 62 ++ [1, 3] ++ zeros 62 }

theorem wit_CompareCounts : compareOp.kind = .compare ∧ ([1, 2] ++ zeros 62 : List Byte).length = compareOp.step ∧
    compareOp.buf = ([1, 2] ++ zeros 62) ++ ([1, 3] ++ zeros 62) ∧ compareOp.missAt = none ∧
    (compareBeat compareOp).missAt = some (compareOp.next + 1) ∧ (compareBeat compareOp).missN = 1 := by decide +kernel

/-! ### The embedding engine -/

/-- A table of one segment of 32 rows of 64 FP32 elements, at offset 0x20000 of this module. -/
def table : EmbTable :=
  { surr := false, rider := 1, table := 4, fmtGear := 0x50, dim := 64, stride := 256, state := false, rows := 32, defTag := 9
    members := [{ firstRow := 0, rowCount := 32, module := 0, segs := [{ base := 0x20000, stateBase := 0, rows := 32 }] }]
    lastUpd := none }

def defineCmd : Cmd :=
  cmd 1 [] ([4, 0x50] ++ leBytes 2 64 ++ leBytes 2 256 ++ [1, 0] ++ leBytes 8 32 ++ leBytes 4 9 ++ zeros 12 ++
    (leBytes 8 0 ++ leBytes 8 32 ++ [0, 1] ++ zeros 14) ++ (leBytes 8 0x20000 ++ leBytes 8 0 ++ leBytes 4 32 ++ zeros 12))

def removeCmd : Cmd := cmd 1 [] ([4] ++ zeros 31)

def tabled : State := { rooted with eng := { rooted.eng with tables := [table] } }

/-- A table with optimizer state, which was updated last in batch 2. -/
def stateTable : EmbTable := { table with state := true, lastUpd := some 2 }

def stateful : State := { rooted with eng := { rooted.eng with tables := [stateTable] } }

/-- A look-up and an update of four indexes and two samples in batch 3. -/
def lookupCmd : Cmd := cmd 1 [4 + 1 * 2 ^ 8 + 0x50 * 2 ^ 16 + 3 * 2 ^ 32, 4 + 2 * 2 ^ 32, 0x20000, 0, 0x20100, 0x20200, 0, 2 ^ 32]
def updateCmd : Cmd :=
  cmd 1 [4 + 1 * 2 ^ 8 + 3 * 2 ^ 32, 4 + 2 * 2 ^ 32, 0x20000, 0, 0x20100, 0x20200, 0, 2 ^ 32] (zeros 8)

theorem wit_EmbeddingCommandsComplete :
    (runsIn 0x300 defineCmd rooted = some (into 0x300 defineCmd rooted) ∧
      runsIn 0x300 removeCmd tabled = some (into 0x300 removeCmd tabled) ∧
      runsIn 0x301 lookupCmd tabled = some (into 0x301 lookupCmd tabled) ∧
      runsIn 0x302 updateCmd tabled = some (into 0x302 updateCmd tabled)) ∧
    DefinesTable defineCmd (into 0x300 defineCmd rooted) table ∧
    (removeCmd.payload.length = 32 ∧ zeroB removeCmd.payload 0x14 12 = true ∧ fieldB removeCmd.payload 7 1 ≤ 1 ∧
      fieldB removeCmd.payload 6 1 = 0 ∧
      (into 0x300 removeCmd tabled).eng.tables.all (fun t => !tableBusy (into 0x300 removeCmd tabled) t) = true) ∧
    (let u := into 0x301 lookupCmd tabled
      let b := embBatch lookupCmd false 0 u.eng.nextOp
      embJoin lookupCmd u = some (table, 0) ∧ embForm lookupCmd b (b.mode ≠ 0) = true ∧ b.mode.toNat ≤ 2 ∧
        fgCode b.outFg = 5 ∧ fmtGearOk b.outFg = true ∧ fgGear b.outFg = 0 ∧ Starts b u) ∧
    (let u := into 0x302 updateCmd tabled
      let b := embBatch updateCmd true 0 u.eng.nextOp
      embJoin updateCmd u = some (table, 0) ∧ embForm updateCmd b true = true ∧ b.mode.toNat ≤ 2 ∧ b.outFg.toNat ≤ 1 ∧
        b.mode ≠ 2 ∧ table.lastUpd = none ∧ Starts b u) ∧
    (let u := into 0x302 updateCmd stateful
      let b := embBatch updateCmd true 0 u.eng.nextOp
      runsIn 0x302 updateCmd stateful = some u ∧ embJoin updateCmd u = some (stateTable, 0) ∧ embForm updateCmd b true = true ∧
        stateTable.state = true ∧ stateTable.lastUpd = some 2 ∧ (2 : BitVec 32).toNat < b.key.batch.toNat ∧ Starts b u) :=
  ⟨⟨runs (by decide +kernel), runs (by decide +kernel), runs (by decide +kernel), runs (by decide +kernel)⟩,
    ⟨by decide +kernel, by decide +kernel, by decide +kernel, by decide +kernel, by decide +kernel, by decide +kernel,
      by decide +kernel, by show _ < 256; decide +kernel, .inr (by decide +kernel)⟩, by decide +kernel,
    ⟨by decide +kernel, by decide +kernel, by decide +kernel, by decide +kernel, by decide +kernel, by decide +kernel,
      by decide +kernel, by decide +kernel, by decide +kernel⟩,
    ⟨by decide +kernel, by decide +kernel, by decide +kernel, by decide +kernel, by decide +kernel, rfl,
      by decide +kernel, by decide +kernel, by decide +kernel⟩,
    ⟨runs (by decide +kernel), by decide +kernel, by decide +kernel, rfl, rfl, by decide +kernel,
      by decide +kernel, by decide +kernel, by decide +kernel⟩⟩

def key : BatchKey := { member := 0, rider := 1, table := 4, batch := 3, update := false }
def batch : EmbBatch := embBatch lookupCmd false 0 0
def batched (b : EmbBatch) : State := { tabled with eng := { tabled.eng with batches := [b], nextOp := 1 } }

theorem wit_EmbeddingMessagesComplete :
    (tabled.phase = .running ∧ findBatch tabled key = none) ∧
    (∀ b ∈ [batch, { batch with late := true }, { batch with ready := true }],
      (batched b).phase = .running ∧ findBatch (batched b) key = some b) ∧
    (batch.late = false ∧ batch.ready = false ∧ batch.said = false) ∧
    (batchTable (batched batch) batch = some table ∧ table.defTag = 9) := by decide +kernel

/-! ### Coherence -/

/-- Edge agents 64 and 65 of rider 1, known by the sources 3 and 4; line 0 is in the store. -/
def edgeRoute (source agent : Nat) : Route :=
  { type := 2, module := 0, port := 0, w0 := BitVec.ofNat 32 (source + 2 ^ 16), w1 := BitVec.ofNat 64 (agent + 2 ^ 15) }

def homeS (dir : List DirEnt) (trks : List Trk) : State :=
  { on with
    comp := some { comp with routes := [edgeRoute 3 64, edgeRoute 4 65] }
    store := tiled.store
    coh := { on.coh with dir := dir, trks := trks, nextTrk := 1 } }

def req : Req := { src := .agent 64, txn := 5, opa := mkOpa 3 0 0, epoch := none }
def ownedBy (a : BitVec 10) : List DirEnt := [{ line := 0, st := .xw a, dead := false }]

theorem setNotFull (dir : List DirEnt) (h : dir = [] ∨ dir = ownedBy 65) : setFull (homeS dir []) (lineOf 0) = false := by
  have hl : (setEntries (homeS dir []) (lineOf 0)).length ≤ 1 := by
    refine Nat.le_trans (List.length_filter_le _ _) ?_
    rcases h with rfl | rfl <;> decide
  have hr : setReserved (homeS dir []) (lineOf 0) = 0 := rfl
  simp only [setFull, hr, decide_eq_false_iff_not]
  omega

theorem reaches (dir : List DirEnt) (k : ReqKind) (h : dir = [] ∨ dir = ownedBy 65) :
    Reaches (homeS dir []) req k 1 0 (ext 0) := by
  refine ⟨rfl, fun _ h => (by cases h), ?_, ?_, ?_, fun _ => ?_, by show PState.cruise ≠ .kickstand; decide, ?_,
    by show on.pair.st ≠ 7; decide +kernel, ?_, fun u hu => (by cases hu), rfl, rfl, ?_, fun _ => ?_, fun _ _ => ?_,
    setNotFull dir h, ?_⟩
  all_goals rcases h with rfl | rfl
  any_goals decide +kernel
  all_goals generalize k.needsWriter = w; cases w <;> decide +kernel

theorem wit_CoherenceRequestsComplete :
    (∀ k, Reaches (homeS [] []) req k 1 0 (ext 0)) ∧ dirOf (homeS [] []) (lineOf 0) = none ∧
    (∀ k, Reaches (homeS (ownedBy 65) []) req k 1 0 (ext 0)) ∧ dirOf (homeS (ownedBy 65) []) (lineOf 0) = some (.xw 65) ∧
    agentLost (homeS (ownedBy 65) []) 65 = false ∧ reqAgent (homeS (ownedBy 65) []) req.src ≠ some 65 ∧
    (atomAligned { code := 0, size := 8, a := 1, b := 0, fmt := 0 } (cxlReq req (homeS [] [])).opa.toNat = true ∧
      fromRemote req.src = false ∧ atomForm { code := 0, size := 8, a := 1, b := 0, fmt := 0 } = true) :=
  ⟨fun k => reaches [] k (.inl rfl), by decide +kernel, fun k => reaches (ownedBy 65) k (.inr rfl), by decide +kernel,
    by decide +kernel, by decide +kernel, by decide +kernel⟩

/-- A transaction of a kind in a phase that waits for agents. -/
def trkAt (k : ReqKind) (p : TrkPhase) (m : MemOp) (as : List (BitVec 10)) : Trk :=
  { Trk.blank 0 1 (.req req k) with phase := p, mem := m, snoops := as }

def adding : AtomOp := { code := 0, size := 8, a := 1, b := 0, fmt := 0 }

theorem found (t : Trk) : findTrk (homeS [] [t]) t.id = some t := by simp [findTrk, homeS]

def trkLineB (s : State) (t : Trk) : Bool :=
  decide (findExt s (extentOf t.line) = some (ext 0)) && !homeFenced s t.line && !extLapped s (ext 0) && t.view.isNone &&
    s.err.inj.isEmpty && s.store.soft.isEmpty

theorem trkLine {s : State} {t : Trk} (h : trkLineB s t = true) : TrkLine s t (ext 0) := by
  simp only [trkLineB, Bool.and_eq_true, decide_eq_true_eq, Bool.not_eq_true', Option.isNone_iff_eq_none, List.isEmpty_iff] at h
  obtain ⟨⟨⟨⟨⟨h1, h2⟩, h3⟩, h4⟩, h5⟩, h6⟩ := h
  exact ⟨h1, h2, h3, .inl h4, h5, h6⟩

theorem trkReads {s : State} {t : Trk} (f : Nat) (fr : Frame) (h : trkLineB s t = true) (hf : frameB s t.line f fr = true)
    (hb : badAt s.store fr.tier (f * 65536 + t.line % 65536) 64 = false) : TrkReads s t :=
  ⟨ext 0, trkLine h, .inr ⟨f, fr, inFrame hf, hb⟩⟩

def trkWritesB (s : State) (t : Trk) (f : Nat) (fr : Frame) (bs : List (Option Byte)) : Bool :=
  trkLineB s t && t.lap != .dead && frameB s t.line f fr && (findPage s.store (pageOf t.line)).copy.isNone &&
    !programHolds s.store (pageOf t.line) && !partialBad s.store (frameTier s.store f) (f * 65536 + t.line % 65536) bs &&
    (syncMirror s (ext 0) (pageOf t.line)).isNone

theorem trkWrites {s : State} {t : Trk} {f : Nat} {fr : Frame} {bs : List (Option Byte)} (h : trkWritesB s t f fr bs = true) :
    TrkWrites s t f fr bs (ext 0) := by
  simp only [trkWritesB, Bool.and_eq_true, Bool.not_eq_true', Option.isNone_iff_eq_none, bne_iff_ne] at h
  obtain ⟨⟨⟨⟨⟨⟨h1, h2⟩, h3⟩, h4⟩, h5⟩, h6⟩, h7⟩ := h
  exact ⟨trkLine h1, h2, inFrame h3, h4, h5, h6, h7⟩

/-- A read, a write and an atomic at the memory controller. -/
def readTrk : Trk := trkAt .rdOwn .memSent .rd []
def writeTrk : Trk := trkAt (.wrFull (zeros 64)) .memSent .wr []
def atomTrk : Trk := trkAt (.atomic adding) .memSent .atom []

theorem wit_HomeMessagesComplete :
    (∀ t : Trk, t.id = 0 → t.phase ≠ .wait → (homeS [] [t]).phase = .running ∧ findTrk (homeS [] [t]) t.id = some t ∧
      NoneWaits (homeS [] [t])) ∧
    (∀ k ∈ [ReqKind.rdOwn, .rdShared, .rdCur], (trkAt k .snoop .rd [65]).fwd = none ∧ (trkAt k .snoop .rd [65]).snoops = [65] ∧
      dirDead (homeS [] [trkAt k .snoop .rd [65]]) 0 = false) ∧
    (∀ t : Trk, (∀ d, dirOf (homeS [] [t]) 0 ≠ some (.xw d)) ∧ (∀ p q, req.src ≠ .cxl p q) ∧ trkLost (homeS [] [t]) t = false) ∧
    TrkReads (homeS [] [readTrk]) readTrk ∧
    (fwdDead (homeS [] [writeTrk]) writeTrk = false ∧
      TrkWrites (homeS [] [writeTrk]) writeTrk 0 frame0 (memBytes (homeS [] [writeTrk]) writeTrk).2 (ext 0)) ∧
    (TrkReads (homeS [] [atomTrk]) atomTrk ∧
      atomRun adding (((held (homeS [] [atomTrk]) atomTrk.line 64).drop (req.opa.toNat % 64)).take (atomLen adding)) =
        some (0, [1, 0, 0, 0, 0, 0, 0, 0]) ∧
      TrkWrites (homeS [] [atomTrk]) atomTrk 0 frame0 (List.replicate (req.opa.toNat % 64) none ++
        ([1, 0, 0, 0, 0, 0, 0, 0] : List Byte).map some ++ List.replicate (64 - req.opa.toNat % 64 - 8) none) (ext 0)) ∧
    (∀ k m, (trkAt k .memBack m []).status = .ok ∧ (trkAt k .memBack m []).fwd = none ∧ (trkAt k .memBack m []).lap ≠ .dead) ∧
    (∀ t : Trk, (homeS [] [t]).pair.inFlight.contains (pageOf 0) = false ∧
      ∀ x, findExt (homeS [] [t]) (extentOf 0) = some x → lapAgent (homeS [] [t]) x 1 = false) ∧
    reqAgent (homeS [] [trkAt .rdOwn .memBack .rd []]) req.src = some 64 := by
  refine ⟨fun t h0 hp => ⟨rfl, found t, fun u hu => ?_⟩, fun k hk => ?_, fun t => ⟨fun d => ?_, fun _ _ h => (by cases h), ?_⟩,
    trkReads 0 frame0 (by decide +kernel) (by decide +kernel) (by decide +kernel), ⟨by decide +kernel, trkWrites (by decide +kernel)⟩,
    ⟨trkReads 0 frame0 (by decide +kernel) (by decide +kernel) (by decide +kernel), by decide +kernel, trkWrites (by decide +kernel)⟩,
    fun _ _ => ⟨rfl, rfl, nofun⟩, fun t => ⟨rfl, fun x hx => ?_⟩, by decide +kernel⟩
  · cases List.mem_singleton.mp hu
    exact hp
  · fin_cases hk <;> exact ⟨rfl, rfl, rfl⟩
  · show none ≠ some _
    simp
  · show (trkAgent _ t).any (fun a => ([] : List (BitVec 10 × BitVec 16)).any _) = false
    cases trkAgent (homeS [] [t]) t <;> rfl
  · have e : x = ext 0 := by
      have h : findExt (homeS [] [t]) (extentOf 0) = some (ext 0) := by rfl
      rw [h] at hx
      exact (Option.some.inj hx).symm
    subst e
    rfl

/-- R116: an addition at a memory controller writes the sum and returns the old value. -/
theorem test_memAtom : ∃ t, exec (.memAtom 0) (homeS [] [trkAt (.atomic adding) .memSent .atom []]) = .next t ∧
    memReadN t.store.mem 0 8 = [1, 0, 0, 0, 0, 0, 0, 0] ∧ t.coh.trks.map (·.data) = [zeros 8] :=
  ⟨_, rfl, by decide +kernel, by decide +kernel⟩

/-- Agent 65 is silent, or it has been lost and its scan runs. -/
def scanning (dir : List DirEnt) : State :=
  { homeS dir [] with coh := { (homeS dir []).coh with scans := [{ agent := 65, cause := 1, rider := 1 }], lost := [(65, 1)] } }

theorem wit_AgentLossCompletes :
    (∀ p ∈ [TrkPhase.snoop, .stash, .grant], findTrk (homeS [] [trkAt .rdOwn p .rd [65]]) 0 = some (trkAt .rdOwn p .rd [65]) ∧
      (65 : BitVec 10) ∈ (trkAt .rdOwn p .rd [65]).snoops) ∧
    ((agentRoute (homeS [] []) 65).isSome = true ∧ agentLost (homeS [] []) 65 = false ∧ (homeS [] []).coh.trks = [] ∧
      (homeS [] []).rings = []) ∧
    (∀ p ∈ [TrkPhase.memSent, .memBack], findTrk (homeS [] [trkAt .rdOwn p .rd []]) 0 = some (trkAt .rdOwn p .rd []) ∧
      NoneWaits (homeS [] [trkAt .rdOwn p .rd []]) ∧ (∀ i ld, req.src ≠ .cxl i ld) ∧
      trkLost (homeS [] [trkAt .rdOwn p .rd []]) (trkAt .rdOwn p .rd []) = false) ∧
    ((scanning (ownedBy 65)).phase = .running ∧ (scanning (ownedBy 65)).coh.scans = [{ agent := 65, cause := 1, rider := 1 }] ∧
      NoneWaits (scanning (ownedBy 65)) ∧ (scanning (ownedBy 65)).coh.dir = [{ line := 0, st := .xw 65, dead := false }] ∧
      findExt (scanning (ownedBy 65)) (extentOf 0) = some (ext 0) ∧ extLapped (scanning (ownedBy 65)) (ext 0) = false ∧
      (ext 0).fenced = false ∧ (scanning (ownedBy 65)).rings = [] ∧
      (lossOf (scanning (ownedBy 65)) 1).next < 0xFFFFFFFF) ∧
    (lossOf (scanning (ownedBy 65)) 1).ents.length < 65536 ∧
    ((scanning [{ line := 0, st := .p [64, 65], dead := false }]).phase = .running ∧ NoneWaits (scanning [{ line := 0, st := .p [64, 65], dead := false }]) ∧
      ∀ d ∈ (scanning [{ line := 0, st := .p [64, 65], dead := false }]).coh.dir, d.st ≠ .xw 65) := by
  refine ⟨fun p _ => ⟨found _, List.mem_singleton.mpr rfl⟩, ⟨by decide +kernel, by decide +kernel, rfl, rfl⟩, ?_,
    ⟨rfl, rfl, fun u hu => (by cases hu), rfl, by decide +kernel, by decide +kernel, rfl, rfl, by decide +kernel⟩,
    by decide +kernel, rfl, fun u hu => (by cases hu), ?_⟩
  · intro p hp
    refine ⟨found _, fun u hu => ?_, fun _ _ h => (by cases h), by fin_cases hp <;> decide +kernel⟩
    cases List.mem_singleton.mp hu
    intro h
    cases h
    simp at hp
  · intro d hd
    cases List.mem_singleton.mp hd
    decide

/-- R124: the scan of a lost owner fences the extent and lists the line. -/
theorem test_scan : ∃ t, exec (.agentLossScanEnd 65) (scanning (ownedBy 65)) = .next t ∧
    t.coh.dir = [] ∧ (findExt t 0).map (·.fenced) = some true ∧ (lossOf t 1).ents.map (·.line) = [0] :=
  ⟨_, rfl, by decide +kernel, by decide +kernel, by decide +kernel⟩

theorem wit_AgentControlRegister :
    (agentRoute (homeS [] []) (BitVec.ofNat 10 (bits (9 : Word) 0 10))).isNone = true ∧ bit (9 : Word) 63 = false ∧
    bit (BitVec.ofNat 64 (65 + 2 ^ 63)) 63 = true := by decide +kernel

/-! ### Fabric ports -/

/-- A port in a mode, up or down. -/
def fport (mode : BitVec 4) (up down retraining : Bool) : FPort :=
  { FPort.off with mode := mode, up := up, down := down, retraining := retraining }

/-- Port 0 in a state; receive windows; edge agent 3 of rider 1 and logical device 2 of port 0. -/
def fabS (p : FPort) (rx : List Window) : State :=
  { homeS [] [] with
    comp := some { comp with routes := [edgeRoute 3 64,
      { type := 3, module := 0, port := 0, w0 := BitVec.ofNat 32 (2 + 2 ^ 16), w1 := BitVec.ofNat 64 (66 + 2 ^ 15) }] }
    fab := { on.fab with ports := p :: List.replicate 23 FPort.off, rx := rx } }

/-- Edge agent 3's window, and a store of it. -/
def win : Window :=
  { source := ⟨3, edgeSource 3⟩, surr := false, base := 10, marked := [], refused := [], flagged := [], dropped := false }

def spkt (seq : BitVec 32) (flagged : Bool) : StorePkt :=
  { source := edgeSource 3, epoch := 1, seq := seq, lowest := 10, rider := 1, opa := mkOpa 3 0 64
    data := [1, 2, 3, 4, 5, 6, 7, 8], flagged := flagged, coverFrom := 10, peloton := 3 }

/-- The window of the source with that number in peloton 4. -/
def farWin : Window := { win with source := ⟨4, edgeSource 3⟩ }

def upS : State := fabS (fport 1 true false false) [win, farWin]

/-- That store, from a peloton to which no route leads. -/
def lostPkt : StorePkt := { spkt 11 false with peloton := 4 }

/-- That store at another store offset. -/
def spktAt (o : Nat) : StorePkt := { spkt 11 false with opa := mkOpa 3 0 o }

theorem arrives {p : StorePkt} {w : Window} (hf : storeHeld upS p = false) (he : p.epoch = 1)
    (hw : findWin upS (winKey upS p) = some w) (hs : windowStuck upS p.source = false) (hk : w.dropped = false ∧ w.surr = false)
    (hm : passesOn upS p = false) : Arrives upS p 0 w :=
  ⟨rfl, by decide +kernel, hf, hs, he, hw, ⟨hk.1, hk.2, by show on.pair.st ≠ 7; decide +kernel⟩, hm⟩

theorem arrived : (∀ p ∈ [spkt 11 false, spktAt 60, spkt 12 true, spkt 10 true, spkt 9 false, spkt 9 true], Arrives upS p 0 win) := by
  intro p hp
  simp only [List.mem_cons, List.not_mem_nil, or_false] at hp
  rcases hp with rfl | rfl | rfl | rfl | rfl | rfl <;>
    exact arrives (by decide +kernel) rfl (by decide +kernel) (by decide +kernel) (by decide) (by decide +kernel)

theorem arrived_far : Arrives upS lostPkt 0 farWin :=
  arrives (by decide +kernel) rfl (by decide +kernel) (by decide +kernel) (by decide) (by decide +kernel)

/-- A store that crosses into the next line is applied whole (R147). -/
theorem test_store_crosses : storeRider upS (spktAt 60) = .inr 1 ∧ upS.power.st ≠ .kickstand ∧ upS.pair.st ≠ 7 ∧
    target upS (spktAt 60).opa = .off 60 ∧ (homeWriteN upS (storeRq (spktAt 60) 1) 60 (spktAt 60).data).1 = .done ∧
    (homeWriteN upS (storeRq (spktAt 60) 1) 60 (spktAt 60).data).2.1 = 8 ∧
    heldN (homeWriteN upS (storeRq (spktAt 60) 1) 60 (spktAt 60).data).2.2 60 8 = [1, 2, 3, 4, 5, 6, 7, 8] := by decide +kernel

theorem wit_StoresArrive :
    ((∀ p ∈ [spkt 11 false, spktAt 60, spkt 12 true, spkt 10 true, spkt 9 false, spkt 9 true], Arrives upS p 0 win) ∧
      Arrives upS lostPkt 0 farWin) ∧
    (Fits upS (spkt 11 false) win ∧ Fits upS (spktAt 60) win ∧ Fits upS lostPkt farWin ∧ Fits upS (spkt 12 true) win ∧ Fits upS (spkt 10 true) win) ∧
    Applies upS (spkt 11 false) 1 64 0 ∧
    storeRider upS lostPkt = .inl .auth ∧
    (win.flagged = [] ∧ (spkt 12 true).seq ≠ win.base ∧ (spkt 10 true).seq = win.base ∧
      flaggedForm (spkt 10 true).opa (spkt 10 true).data.length = true ∧ coverRefusal win (spkt 10 true) = none) ∧
    Applies upS (spkt 10 true) 1 64 0 ∧
    (2 ^ 31 ≤ seqDist win.base (spkt 9 false).seq) :=
  ⟨⟨arrived, arrived_far⟩, ⟨⟨by decide +kernel, by decide, by decide +kernel⟩, ⟨by decide +kernel, by decide, by decide +kernel⟩,
      ⟨by decide +kernel, by decide, by decide +kernel⟩, ⟨by decide +kernel, by decide, by decide +kernel⟩, ⟨by decide +kernel, by decide, by decide +kernel⟩⟩,
    ⟨by decide +kernel, by show PState.cruise ≠ .kickstand; decide, by decide +kernel, ⟨frame0, ext 0, writes (by decide +kernel)⟩, by decide⟩,
    by decide +kernel, by decide +kernel,
    ⟨by decide +kernel, by show PState.cruise ≠ .kickstand; decide, by decide +kernel, ⟨frame0, ext 0, writes (by decide +kernel)⟩, by decide⟩,
    by decide +kernel⟩

theorem wit_WindowBase : ({ win with marked := [10, 11, 13] } : Window).marked.Nodup ∧
    ({ win with marked := [10, 11, 13] } : Window).marked.length ≤ 4096 := by decide

/-- R259: the base passes 10 and 11 and stops at 12. -/
theorem test_window : (advance 4096 { win with marked := [10, 11, 13] }).base = 12 := by decide +kernel

/-- A channel to module 2 with one store unacknowledged. -/
def chan : Chan :=
  { source := 0, peloton := 3, dst := 2, next := 1, cover := 0, unacked := [{ pkt := spkt 0 false, port := none, done := none }]
    closed := false, fenced := false, discard := false }

/-- A read of module 2 by operation 9. -/
def rload : RLoad :=
  { txn := 4, peloton := 3, rider := 1, dst := 2, opa := mkOpa 3 2 0, port := none, by_ := .op 9 }

/-- A context that waits for a load of 8 bytes from another peloton. -/
def gAcc : Access := { tile := 0, ctx := 0, pc := 0, va := 0, kind := .load 8 3 false, late := false, done := true }
def gOpa : Word := mkOpa 4 2 0
def gctx : Ctx := { ctx with block := .access gAcc true }
def gblock (as : List Access) : GBlock := { block := blockOf gOpa, txn := 4, rider := 1, port := none, waiting := as }
def gated (as : List Access) : State :=
  { fabS (fport 1 true false false) [] with
    tiles := [{ tile with ctxs := gctx :: List.replicate 15 Ctx.blank }]
    fab := { (fabS (fport 1 true false false) []).fab with gblocks := [gblock as] } }

def gframe : GFrame := { peloton := 4, dst := 2, bytes := 48, records := [spkt 0 false] }

def remoteRead : State := { upS with fab := { upS.fab with loads := [rload] } }

theorem wit_FabricControl :
    (upS.phase = .running ∧ portUp upS (0 : Fin 24).val = true ∧ storeHeld upS { spkt 11 false with epoch := 0 } = false ∧
      windowStuck upS (spkt 11 false).source = false ∧ (0 : BitVec 32) < epochNow upS ∧
      storeHeld upS { spkt 11 false with epoch := 2 } = false ∧ epochNow upS < (2 : BitVec 32)) ∧
    (findChan { upS with fab := { upS.fab with tx := [chan] } } 0 (3 : BitVec 8).toNat (2 : BitVec 6).toNat = some chan ∧
      (∀ u ∈ chan.unacked, u.done = none ∧ chan.unacked = [u]) ∧ upS.tiles = [] ∧ upS.redirect = [] ∧ chan.unacked ≠ []) ∧
    (findWin upS (⟨3, edgeSource 3⟩, false) = some win ∧ findWin upS (⟨3, edgeSource 3⟩, true) = none ∧ win.marked = [] ∧ win.flagged = [] ∧
      upS.held = []) ∧
    (fenceSide upS 0 = some false ∧ sourceIn (sideRoutes upS false) 3 = some (edgeRoute 3 64) ∧ upS.power.hold = false ∧
      mustHold upS (edgeRoute 3 64).rider (some 1) = false ∧ fenceReady upS false 3 10 = true ∧ fenceReady upS false 3 11 = false ∧
      upS.pair.st ≠ 7 ∧ (0 : BitVec 32) < epochNow upS ∧ epochNow upS ≤ (1 : BitVec 32)) ∧
    (remoteRead.redirect = [] ∧ remoteRead.fab.loads.find? (fun x => x.txn = 4 && loadTo x ⟨3, 2⟩ &&
      loadSource remoteRead x.by_ = opSource remoteRead 9) = some rload) ∧
    ((gated []).fab.gblocks.find? (·.block = blockOf gOpa) = some (gblock []) ∧
      (gated [gAcc]).fab.gblocks.find? (·.block = blockOf gOpa) = some (gblock [gAcc]) ∧
      findCtx (gated [gAcc]) 0 0 = some gctx ∧ gctx.block = .access gAcc true ∧ oneLine gAcc.va 8 = true) ∧
    (findCtx { gated [{ gAcc with va := 60 }] with tiles := [{ tile with ctxs :=
        { ctx with block := .access { gAcc with va := 60 } true } :: List.replicate 15 Ctx.blank }] } 0 0 =
          some { ctx with block := .access { gAcc with va := 60 } true } ∧ oneLine { gAcc with va := 60 }.va 8 = false) ∧
    ({ upS with fab := { upS.fab with gframes := [gframe] } }.fab.gframes.find? (fun g => g.peloton = 4 && g.dst = 2) =
      some gframe ∧ gframe.records ≠ []) := by
  decide +kernel

/-- At port 0 a flit has failed seven replays. -/
def worn : State := fabS { fport 1 true false false with replayRun := 7 } []

/-- Port 0 is up, lost, down, or a CXL port that is down. -/
theorem wit_PortsComplete :
    (∀ p ∈ [fport 1 true false false, fport 1 false false true, fport 1 false true false, fport 3 false true false],
      (fabS p []).phase = .running ∧ (fabS p []).fab.ports.length = 24 ∧ (portAt (fabS p []) (0 : Fin 24).val).mode ≠ 0 ∧
      unitFenced (fabS p []) (unitPort (0 : Fin 24).val) = false ∧ (fabS p []).fab.tx = [] ∧ (fabS p []).fab.loads = [] ∧
      portAt (fabS p []) (0 : Fin 24).val = p) ∧
    (fport 1 true false false).replayRun < 7 ∧ (fport 1 true false false).up = true ∧
    (worn.phase = .running ∧ worn.fab.ports.length = 24 ∧ (portAt worn 0).up = true ∧ (portAt worn 0).replayRun = 7 ∧
      (portAt worn 0).mode ≠ 0 ∧ unitFenced worn (unitPort 0) = false ∧ worn.fab.tx = [] ∧ worn.fab.loads = [] ∧
      worn.fab.gblocks = [] ∧ worn.coh.trks = []) ∧ (homeS [] []).coh.trks = [] ∧ isCxl (fport 3 false true false) = true := by
  decide +kernel

def cxlS : State := fabS (fport 3 true false false) []

theorem wit_CxlComplete : cxlS.phase = .running ∧ isCxl (portAt cxlS (0 : Fin 24).val) = true ∧ portUp cxlS (0 : Fin 24).val = true ∧
    (ldRoute cxlS 0 2).isSome = true := by decide +kernel

/-! ### The twin link -/

/-- The module as number 0 of a pair with module 1; extent 0 is mirrored, extent 1 is a copy of the twin's extent 0, and both
have a page with a frame. -/
def pairS (st : BitVec 4) : State :=
  { on with
    comp := some { comp with
      modules := [{ fp := Config.deviceFp, boot := 1, module := 0, twin := 1, gateways := 0 },
        { fp := fpOf [8], boot := 1, module := 1, twin := 0, gateways := 0 }]
      runs := [{ run 0 1 2 8 with mirrorFirst := 1 }, { run 0 1 2 8 with mirrorFirst := 1, module := 1 }] }
    store := { on.store with
      extents := [ext 0, { ext 1 with mirrorOf := some 0 }]
      frames := [{ id := 0, tier := .hbm, ch := false }, { id := 1, tier := .hbm, ch := false }], nextFrame := 2
      pages := [{ n := 0, home := some 0, copy := none }, { n := 262144, home := some 1, copy := none }] }
    pair := { on.pair with st := st, twin := 1, lanes := 0xFFFFFFFF } }

def withPair (s : State) (f : Pair → Pair) : State := { s with pair := f s.pair }

/-- A commit of extent 0 to lap 1 that waits for its twin. -/
def committing : State :=
  { pairS 3 with jobs := [.commit (openOf 0x183 (cmd 1 [])) 1 [(0, 1)] 1 false] }

theorem wit_MirrorMessages :
    ((pairS 3).phase = .running ∧ (pairS 3).pair.surr = false ∧
      findExt (pairS 3) (extentOfPage 262144) = some { ext 1 with mirrorOf := some 0 } ∧
      (findPage (pairS 3).store 262144).home = some 1) ∧ mirrorCopy (pairS 3) 1 ∧
    (withPair (pairS 3) fun p => { p with clog := [{ extents := [(1, 1)] }] }).pair.clog = [{ extents := [(1, 1)] }] ∧
    (committing.phase = .running ∧ committing.jobs = [.commit (openOf 0x183 (cmd 1 [])) 1 [(0, 1)] 1 false] ∧
      commitMirror committing [(0, 1)] = [(1, 1)]) :=
  ⟨by decide +kernel, ⟨rfl, _, rfl, rfl⟩, rfl, by decide +kernel⟩

/-- R277: a mirrored write lands in the copy's frame. -/
theorem test_mirrorWrite : ∃ t, exec (.mirrorWrite (.write 262144 8 [1, 2] .latest)) (pairS 3) = .next t ∧
    memReadN t.store.mem 65544 2 = [1, 2] := ⟨_, rfl, by decide +kernel⟩

/-- A store of context 0 to extent 0 that waits for the link. -/
def linkWait : State :=
  { pairS 4 with
    tiles := [{ tile with ctxs := storing :: List.replicate 15 Ctx.blank }] }

/-- A commit of extent 0 that waits for the link. -/
def commitWait : State := { pairS 4 with jobs := [.commit (openOf 0x183 (cmd 1 [])) 1 [(0, 1)] 0 false] }

theorem wit_TwinLinkComplete :
    ((withPair (pairS 2) fun p => { p with resync := [0, 1] }).pair.resync = 0 :: [1] ∧ (pairS 2).pair.st = 2 ∧
      (pairS 2).pair.resync = [] ∧ (pairS 2).pair.peerLeft = false) ∧
    ((pairS 2).pair.lanes ≠ 0 ∧ (pairS 4).pair.lanes ≠ 0 ∧ (pairS 4).pair.st = 4 ∧ tandemLanes (pairS 4) 0xFFFF ≠ 0 ∧ tandemLanes (pairS 4) 0 = 0) ∧
    (commitWait.pair.st = 4 ∧ commitWait.jobs = [.commit (openOf 0x183 (cmd 1 [])) 1 [(0, 1)] 0 false] ∧
      (commitMirror commitWait [(0, 1)]).isEmpty = false ∧ commitWait.eng.ops = [] ∧ commitWait.eng.batches = []) ∧
    (linkWait.pair.st = 4 ∧ findCtx linkWait 0 0 = some storing ∧ tileRider linkWait 0 = some 1 ∧
      (∀ e ∈ storing.stores, e.remote = false ∧ e.ready = true ∧ target linkWait e.opa = .off 0) ∧ storing.stores.length = 1 ∧
      rightsAt linkWait 1 0 true = .inr (ext 0) ∧ mirrorHeld linkWait (ext 0) (pageOf 0) = true ∧
      ∀ e ∈ storing.stores, findTicket linkWait ((rqTile 0 0 1 e.va).key 0) true = none) := by decide +kernel

/-- A device public key, and a report signed by it whose certificate Balnel's firmware key signed, for a nonce of zeros. -/
def devKey : List Byte := 8 :: List.replicate 1311 0
def reportBody : List Byte :=
  leBytes 4 0x0A77F064 ++ [1, 0, 0, 0] ++ wordBytes (fpOf devKey) ++ List.replicate 144 0 ++ List.replicate 48 0 ++ devKey ++
    List.replicate 2424 0
def report : List Byte := reportBody ++ List.replicate 2424 0

def pairing : State :=
  { withPair (pairS 1) fun p => { p with cmd := some (openOf 0x680 (cmd 0 [])), nonce := List.replicate 32 0 } with
    env := { on.env with
      romDigest := Config.sha3 [9]
      sigs := [([9], Config.sha3 devKey, List.replicate 2420 0), (devKey, Config.sha3 reportBody, List.replicate 2420 0)] }
    comp := some { comp with
      modules := [{ fp := Config.deviceFp, boot := 1, module := 0, twin := 1, gateways := 0 },
        { fp := fpOf devKey, boot := 1, module := 1, twin := 0, gateways := 0 }] } }

theorem leNat_leBytes (n v : Nat) : leNat (leBytes n v) = v % 256 ^ n := by
  induction n generalizing v with
  | zero => simp [leBytes, leNat, Nat.mod_one]
  | succ n ih =>
    rw [leBytes, leNat, ih, Nat.pow_succ', Nat.mod_mul]
    simp

theorem balnel_ok {s : State} {k : List Byte} {d : BitVec 256} {sig : List Byte} (hs : (k, d, sig) ∈ s.env.sigs)
    (hr : Config.sha3 k = s.env.romDigest) : balnelOk s d sig = true :=
  List.any_eq_true.mpr ⟨_, hs, by simp [hr]⟩

theorem sig_ok {s : State} {k : List Byte} {d : BitVec 256} {sig : List Byte} (hs : (k, d, sig) ∈ s.env.sigs) :
    sigOk s k d sig = true := List.contains_iff_mem.mpr hs

theorem report_ok : reportOk pairing (List.replicate 32 0) (fpOf devKey) report = true := by
  have h1 : fieldB report 8 8 = (fpOf devKey).toNat := by
    have : fieldB report 8 8 = leNat (leBytes 8 (fpOf devKey).toNat) := rfl
    rw [this, leNat_leBytes]
    exact Nat.mod_eq_of_lt (fpOf devKey).isLt
  have h2 : fieldB report 4 1 = 1 := by decide +kernel
  have h3 : report.length = 0xA0 + 48 * 1 + 1312 + 2424 + 2424 := by decide +kernel
  have h4 : fieldB report 0 4 = 0x0A77F064 := by decide +kernel
  have h5 : sliceB report 0x10 32 = List.replicate 32 0 := by decide +kernel
  have h6 : sliceB report (0xA0 + 48 * 1) 1312 = devKey := by decide +kernel
  have h7 : sigBytes (sliceB report (0xA0 + 48 * 1 + 1312) 2424) = List.replicate 2420 0 := by decide +kernel
  have h8 : sigBytes (sliceB report (0xA0 + 48 * 1 + 1312 + 2424) 2424) = List.replicate 2420 0 := by decide +kernel
  have h9 : report.take (0xA0 + 48 * 1 + 1312 + 2424) = reportBody :=
    List.take_left' (by decide +kernel)
  unfold reportOk
  simp only [h1, h2, h3, h4, h5, h6, h7, h8, h9, BitVec.ofNat_toNat, BitVec.setWidth_eq,
    balnel_ok (s := pairing) (List.mem_cons_self ..) rfl,
    sig_ok (s := pairing) (k := devKey) (d := Config.sha3 reportBody) (List.mem_cons_of_mem _ (List.mem_cons_self ..))]
  rfl

/-- The module acts for its twin, which has an edge agent; the twin has been expelled. -/
def surrogate : State :=
  { withPair (pairS 5) fun p => { p with surr := true } with
    comp := some { comp with
      modules := [{ fp := Config.deviceFp, boot := 1, module := 0, twin := 1, gateways := 0 },
        { fp := fpOf [8], boot := 1, module := 1, twin := 0, gateways := 0 }]
      routes := [{ edgeRoute 3 64 with module := 1 }] } }
def twinExpelled : State := { surrogate with expelled := [1] }

theorem wit_PairCommands :
    (runsIn 0x680 (cmd 0 []) (pairS 1) = some (into 0x680 (cmd 0 []) (pairS 1)) ∧
      runsIn 0x680 (cmd 0 []) on = some (into 0x680 (cmd 0 []) on) ∧
      runsIn 0x681 (cmd 0 [1]) (pairS 1) = some (into 0x681 (cmd 0 [1]) (pairS 1)) ∧
      runsIn 0x681 (cmd 0 [1]) (pairS 3) = some (into 0x681 (cmd 0 [1]) (pairS 3))) ∧
    ((into 0x680 (cmd 0 []) (pairS 1)).fw.identity = true ∧ (into 0x680 (cmd 0 []) (pairS 1)).pair.twin ≠ 0xFF ∧
      (into 0x680 (cmd 0 []) (pairS 1)).pair.st = 1 ∧ (into 0x680 (cmd 0 []) (pairS 1)).pair.cmd = none ∧
      (into 0x680 (cmd 0 []) on).fw.identity = true ∧ (into 0x680 (cmd 0 []) on).pair.twin = 0xFF) ∧
    (bits ((cmd 0 [1]).p 0) 1 63 = 0 ∧ bit ((cmd 0 [1]).p 0) 0 = true ∧ (into 0x681 (cmd 0 [1]) (pairS 1)).pair.st ≠ 3 ∧
      (into 0x681 (cmd 0 [1]) (pairS 3)).pair.st = 3) ∧
    (on.phase = .running ∧ on.fw.identity = true ∧ on.pair.cmd = none) ∧
    (pairing.phase = .running ∧ pairing.fw.identity = true ∧ pairing.pair.cmd = some (openOf 0x680 (cmd 0 [])) ∧
      pairing.pair.st = 1 ∧
      moduleEntry pairing pairing.pair.twin.toNat =
        some { fp := fpOf devKey, boot := 1, module := 1, twin := 0, gateways := 0 }) ∧
    reportOk pairing pairing.pair.nonce (fpOf devKey) [] = false ∧ reportOk pairing pairing.pair.nonce (fpOf devKey) report = true ∧
    ((pairS 6).phase = .running ∧ (pairS 6).pair.st = 6 ∧ drainedBut (pairS 6).pair.cmd (pairS 6) = true ∧
      ∀ x ∈ (pairS 6).store.extents, x.wlap = none) ∧
    (surrogate.phase = .running ∧ surrogate.pair.surr = true ∧ surrogate.expelled = [] ∧ (pairS 5).pair.surr = false ∧
      relayRider surrogate (.edge 3) = some 1) ∧
    (∃ e ∈ twinExpelled.expelled, e.toNat = twinExpelled.twinNo) := by
  refine ⟨⟨runs (by decide +kernel), runs (by decide +kernel), runs (by decide +kernel), runs (by decide +kernel)⟩,
    by decide +kernel, by decide +kernel, by decide +kernel, ⟨rfl, rfl, rfl, rfl, rfl⟩, by decide +kernel, report_ok,
    by decide +kernel, by decide +kernel, by decide +kernel⟩

/-! ### Orders and manager keys -/

/-- The signed portion of an order with one fingerprint, and the order with one signature entry of slot 0. -/
def orderBody (kind module : Byte) (seq epoch fp : Nat) : List Byte :=
  leBytes 4 0x0D0EF064 ++ [kind, module, 1, 0] ++ leBytes 4 seq ++ leBytes 4 epoch ++ zeros 48 ++ leBytes 8 fp

def order (body : List Byte) : List Byte := body ++ leBytes 8 1 ++ zeros 2424

def orderCmd (body : List Byte) : Cmd := cmd 0 [] (order body)

/-- Order 5 under epoch 1: admit fingerprint 200; expel module 1 or module 0, whose fingerprints are 101 and 100. -/
def admitBody : List Byte := orderBody 1 0xFF 5 0 200
def expel1 : List Byte := orderBody 2 1 5 1 101
def expel0 : List Byte := orderBody 2 0 5 1 100
def expelOld : List Byte := orderBody 2 1 5 9 101

/-- The module with fingerprint 100, beside module 1, with the orders' signatures verifying. -/
def ordered : State :=
  { managed [admitBody, expel1, expel0, expelOld] with
    comp := some { comp with
      modules := [{ fp := 100, boot := 1, module := 0, twin := 0xFF, gateways := 0 },
        { fp := 101, boot := 1, module := 1, twin := 0xFF, gateways := 0 }] } }

def bodies : List (List Byte) := [admitBody, expel1, expel0, expelOld]

theorem order_signed (op : Nat) (c : Cmd) (b : List Byte) (h : b ∈ bodies) : orderSigned (openCmd (openOf op c) ordered) (order b) = true := by
  have hk : lookupK (openCmd (openOf op c) ordered).nv.keys 0 = some [7] := by
    unfold openCmd; split <;> rfl
  have hn : (openCmd (openOf op c) ordered).nv.keys.isEmpty = false := by
    unfold openCmd; split <;> rfl
  have hq : (openCmd (openOf op c) ordered).nv.k = 1 := by
    unfold openCmd; split <;> rfl
  have ht : (order b).take (0x40 + 8 * fieldB (order b) 6 1) = b := by
    have : ∀ b ∈ bodies, (order b).take (0x40 + 8 * fieldB (order b) 6 1) = b := by decide +kernel
    exact this b h
  have he : sigEntries (order b) (0x40 + 8 * fieldB (order b) 6 1 + 8) (fieldB (order b) (0x40 + 8 * fieldB (order b) 6 1) 8) =
      [(0, zeros 2420)] := by
    have : ∀ b ∈ bodies, sigEntries (order b) (0x40 + 8 * fieldB (order b) 6 1 + 8)
        (fieldB (order b) (0x40 + 8 * fieldB (order b) 6 1) 8) = [(0, zeros 2420)] := by decide +kernel
    exact this b h
  have hm : mgrSigOk (openCmd (openOf op c) ordered) 0 (Config.sha3 b) (zeros 2420) = true :=
    mgr_ok hk (by
      rw [openCmd_env]
      exact List.mem_map_of_mem (f := fun e => (([7] : List Byte), e)) (List.mem_map_of_mem (f := fun b => (Config.sha3 b, zeros 2420)) h))
  unfold orderSigned quorum signers
  simp only [ht, he, hn, hq, List.filter, hm]
  decide

/-- The payload of a first installation of two manager keys. -/
def keysCmd : Cmd :=
  cmd 0 [] (leBytes 4 0x0E0EF064 ++ [3, 2, 0, 0] ++ leBytes 4 1 ++ zeros 20 ++ List.replicate 2624 5 ++ zeros 6560 ++ leBytes 8 0)

def opened3 (op : Nat) (b : List Byte) : State := openCmd (openOf op (orderCmd b)) ordered

theorem wit_OrdersComplete :
    (runsIn 0x683 (cmd 0 [] [0]) on = some (into 0x683 (cmd 0 [] [0]) on) ∧ (into 0x683 (cmd 0 [] [0]) on).fw.identity = true ∧
      orderForm true (cmd 0 [] [0]).payload = false) ∧
    (runsIn 0x683 (orderCmd admitBody) on = some (into 0x683 (orderCmd admitBody) on) ∧ orderForm true (order admitBody) = true ∧
      orderSigned (into 0x683 (orderCmd admitBody) on) (order admitBody) = false ∧
      (into 0x683 (orderCmd admitBody) on).nv.lastOrder < (parseOrder (order admitBody)).seq) ∧
    (runsIn 0x683 (orderCmd admitBody) { on with nv := { on.nv with lastOrder := 5 } } =
        some (into 0x683 (orderCmd admitBody) { on with nv := { on.nv with lastOrder := 5 } }) ∧
      (parseOrder (order admitBody)).seq ≤ (into 0x683 (orderCmd admitBody) { on with nv := { on.nv with lastOrder := 5 } }).nv.lastOrder) ∧
    (runsIn 0x683 (orderCmd admitBody) ordered = some (opened3 0x683 admitBody) ∧
      orderSigned (opened3 0x683 admitBody) (order admitBody) = true ∧
      (opened3 0x683 admitBody).nv.members.length + (newFps (opened3 0x683 admitBody) (parseOrder (order admitBody))).length ≤ 128) ∧
    (∀ b ∈ [expel1, expel0, expelOld], runsIn 0x682 (orderCmd b) ordered = some (opened3 0x682 b) ∧
      (opened3 0x682 b).fw.identity = true ∧ orderForm false (order b) = true ∧
      (opened3 0x682 b).nv.lastOrder < (parseOrder (order b)).seq ∧ orderSigned (opened3 0x682 b) (order b) = true) ∧
    ((parseOrder (order expelOld)).epoch ≠ epochNow (opened3 0x682 expelOld) ∧
      (∀ b ∈ [expel1, expel0], (parseOrder (order b)).epoch = epochNow (opened3 0x682 b) ∧
        expelOk (opened3 0x682 b) (parseOrder (order b)) = true ∧ (expelEntry (opened3 0x682 b) (parseOrder (order b))).isSome = true) ∧
      (parseOrder (order expel1)).module.toNat ≠ (opened3 0x682 expel1).me ∧
      (parseOrder (order expel0)).module.toNat = (opened3 0x682 expel0).me) ∧
    (runsIn 0x684 keysCmd on = some (into 0x684 keysCmd on) ∧ keysForm keysCmd.payload = true ∧
      (into 0x684 keysCmd on).nv.setSeq < BitVec.ofNat 32 (fieldB keysCmd.payload 8 4) ∧
      keysSigned (into 0x684 keysCmd on) keysCmd.payload = true) := by
  refine ⟨⟨runs (by decide +kernel), by decide +kernel, by decide +kernel⟩,
    ⟨runs (by decide +kernel), by decide +kernel, by decide +kernel, by decide +kernel⟩,
    ⟨runs (by decide +kernel), by decide +kernel⟩,
    ⟨opens (by decide +kernel) rfl rfl, order_signed _ _ _ (.head _), by decide +kernel⟩, ?_, by decide +kernel,
    ⟨runs (by decide +kernel), by decide +kernel, by decide +kernel, by decide +kernel⟩⟩
  intro b hb
  have h : ∀ b ∈ [expel1, expel0, expelOld], (runsIn 0x682 (orderCmd b) ordered).isSome = true ∧
      (opened3 0x682 b).fw.identity = true ∧ orderForm false (order b) = true ∧
      (opened3 0x682 b).nv.lastOrder < (parseOrder (order b)).seq := by decide +kernel
  have h := h b hb
  exact ⟨opens h.1 rfl rfl, h.2.1, h.2.2.1, h.2.2.2, order_signed _ _ _ (List.mem_cons_of_mem _ hb)⟩

/-! ### A module without an identity -/

def noId : State := { on with fw := { on.fw with identity := false }, flash := on.flash.map fun k => { k with state := 1 } }

def released : State := { State.reset with phase := .released }
def bootInfo (puf counters : Bool) : BootInfo := { pufOk := puf, countersOk := counters, failedUnits := [], standbyReady := true }

theorem wit_NoIdentityReturnsAuth :
    noId.fw.identity = false ∧
    ([(0x502, cmd 0 [0, 0, 0, 0]), (0x680, cmd 0 []), (0x682, cmd 0 [] [0]), (0x683, cmd 0 [] [0]), (0x684, cmd 0 [] [0]),
      (0x601, cmd 0 [0, 0, 0, 0] (zeros 2424)), (0x700, cmd 0 [0]), (0x018, cmd 0 [1] [0])].all fun x =>
        (runsIn x.1 x.2 noId).isSome && !(into x.1 x.2 noId).fw.identity) = true ∧
    ((cmd 0 [1] [0]).h.chunk = 0 ∧ (cmd 0 [1] [0]).h.more = false ∧
      findAssembly (into 0x018 (cmd 0 [1] [0]) noId) (cmd 0 [1] [0]) = none ∧
      (into 0x018 (cmd 0 [1] [0]) noId).compose = .idle ∧ notMounted (into 0x018 (cmd 0 [1] [0]) noId) = false ∧
      (into 0x018 (cmd 0 [1] [0]) noId).port.assemblies = []) ∧
    (released.phase = .released ∧ (bootInfo false true).pufOk = false ∧ (bootInfo true false).countersOk = false ∧
      (bootInfo false true).failedUnits = [] ∧ released.side.sampled.recoveryN = true ∧ released.nv.trial = false ∧
      released.nv.aborted = none ∧ slotValid released released.nv.activeSlot = true) ∧
    ∃ t, exec (.boot (bootInfo false true)) released = .next t :=
  ⟨rfl, by decide +kernel, by decide +kernel, by decide +kernel, _, rfl⟩

/-! ### Firmware -/

def stageCmd (slot off : Nat) : Cmd := cmd 0 [slot, off] [1, 2, 3]

/-- The module with slot B active and the factory image in both slots. -/
def onB : State := { on with nv := { on.nv with activeSlot := true, slotB := { factory := true, cells := [] } } }

/-- An activation in a state. -/
def acting (st : BitVec 4) (step cores : Nat) (waiting : Bool) (s : State) : State :=
  { s with fw := { s.fw with act := { Act.none with st := st, slot := !s.nv.activeSlot, prior := s.nv.activeSlot, step := step
                                                    cores := cores, waiting := waiting } } }

/-- The header and settings of a configuration block, signed by manager slot 0. -/
def configBody : List Byte :=
  leBytes 4 0x1F0BF064 ++ leBytes 4 128 ++ leBytes 4 3 ++ zeros 52 ++
    ([0, 0] ++ leBytes 2 2000 ++ leBytes 2 600 ++ leBytes 2 2400 ++ leBytes 2 2500 ++ [1, 5] ++ leBytes 4 1000 ++ zeros 48)

def cfgStaged : State :=
  signed [(Config.sha3 configBody, zeros 2420)] { on with nv := { on.nv with staging := { factory := false, cells := cellsOf 0 configBody } } }

def stagedU : State := openCmd (openOf 0x501 (cmd 0 [2])) cfgStaged

theorem config_signed : configSigned stagedU (parseConfig (memReadN stagedU.nv.staging.cells 0 2552)) = true := by
  have ht : (memReadN stagedU.nv.staging.cells 0 2552).take 128 = configBody := by decide +kernel
  have hs : sigBytes (sliceB (memReadN stagedU.nv.staging.cells 0 2552) 128 2424) = zeros 2420 := by decide +kernel
  have h0 : fieldB (memReadN stagedU.nv.staging.cells 0 2552) 0x0C 1 = 0 := by decide +kernel
  unfold configSigned parseConfig
  simp only [ht, hs, h0]
  refine (Bool.false_or _).trans ((if_neg (by decide)).trans ?_)
  refine (mgr_ok (k := [7]) (by decide +kernel) ?_)
  rw [stagedU, openCmd_env]
  exact List.mem_cons_self ..

/-- A block signed by a manager key that is installed no more does not verify at a boot: the defaults run (R361). -/
theorem test_config_key_gone :
    (bootConfig { on with nv := { on.nv with keys := [], config := some { ConfigBlock.factory_ with
      factory := false, signer := 0, policy := { Policy.default with ceilW := 2000 } } } }).power.policy = Policy.default ∧
    (bootConfig { on with nv := { on.nv with config := some { ConfigBlock.factory_ with
      policy := { Policy.default with ceilW := 2000 } } } }).power.policy.ceilW = 2000 := by decide +kernel

theorem wit_StageAndActivate :
    (runsIn 0x500 (stageCmd 2 4096) on = some (into 0x500 (stageCmd 2 4096) on) ∧
      runsIn 0x500 (stageCmd 1 4096) on = some (into 0x500 (stageCmd 1 4096) on) ∧
      runsIn 0x500 (stageCmd 1 4096) onB = some (into 0x500 (stageCmd 1 4096) onB) ∧
      runsIn 0x500 (stageCmd 0 4096) onB = some (into 0x500 (stageCmd 0 4096) onB)) ∧
    (((stageCmd 2 4096).p 1).toNat % 4096 = 0 ∧ ((stageCmd 2 4096).p 0).toNat = 2 ∧
      ((stageCmd 2 4096).p 1).toNat + (stageCmd 2 4096).payload.length ≤ 524288 ∧
      ((stageCmd 1 4096).p 0).toNat = 1 ∧ (into 0x500 (stageCmd 1 4096) onB).nv.activeSlot = true ∧
      (into 0x500 (stageCmd 1 4096) on).nv.activeSlot = false ∧ actSlot (into 0x500 (stageCmd 1 4096) on) ≠ some true ∧
      ((stageCmd 0 4096).p 0).toNat = 0 ∧ (into 0x500 (stageCmd 0 4096) onB).nv.activeSlot = true ∧
      actSlot (into 0x500 (stageCmd 0 4096) onB) ≠ some false) ∧
    (runsIn 0x501 (cmd 0 [1]) on = some (into 0x501 (cmd 0 [1]) on) ∧ slotValid (into 0x501 (cmd 0 [1]) on) true = false) ∧
    (runsIn 0x501 (cmd 0 [1]) onB = some (into 0x501 (cmd 0 [1]) onB) ∧ slotValid (into 0x501 (cmd 0 [1]) onB) true = true ∧
      (into 0x501 (cmd 0 [1]) onB).nv.activeSlot = true ∧ (into 0x501 (cmd 0 [1]) onB).fw.act.st ≠ 1) ∧
    (runsIn 0x501 (cmd 0 [1]) (acting 1 0 0 false onB) = some (into 0x501 (cmd 0 [1]) (acting 1 0 0 false onB)) ∧
      slotValid (into 0x501 (cmd 0 [1]) (acting 1 0 0 false onB)) true = true ∧
      (into 0x501 (cmd 0 [1]) (acting 1 0 0 false onB)).nv.activeSlot = true ∧
      (into 0x501 (cmd 0 [1]) (acting 1 0 0 false onB)).fw.act.st = 1) ∧
    (runsIn 0x501 (cmd 0 [0]) onB = some (into 0x501 (cmd 0 [0]) onB) ∧ slotValid (into 0x501 (cmd 0 [0]) onB) false = true ∧
      (into 0x501 (cmd 0 [0]) onB).fw.act.st = 0 ∧ composing (into 0x501 (cmd 0 [0]) onB) = false ∧
      emergency (into 0x501 (cmd 0 [0]) onB) = false) ∧
    (runsIn 0x501 (cmd 0 [0]) { onB with power := { onB.power with st := .brake } } = some (into 0x501 (cmd 0 [0]) { onB with power := { onB.power with st := .brake } }) ∧
      slotValid (into 0x501 (cmd 0 [0]) { onB with power := { onB.power with st := .brake } }) false = true ∧
      emergency (into 0x501 (cmd 0 [0]) { onB with power := { onB.power with st := .brake } }) = true) ∧
    (runsIn 0x501 (cmd 0 [2]) cfgStaged = some stagedU ∧ ((cmd 0 [2]).p 0).toNat = 2 ∧
      configForm (memReadN stagedU.nv.staging.cells 0 2552) = true ∧
      configSigned stagedU (parseConfig (memReadN stagedU.nv.staging.cells 0 2552)) = true ∧
      stagedU.nv.configSeq < (parseConfig (memReadN stagedU.nv.staging.cells 0 2552)).seq) :=
  ⟨⟨runs (by decide +kernel), runs (by decide +kernel), runs (by decide +kernel), runs (by decide +kernel)⟩, by decide +kernel,
    ⟨runs (by decide +kernel), by decide +kernel⟩, ⟨runs (by decide +kernel), by decide +kernel⟩,
    ⟨runs (by decide +kernel), by decide +kernel⟩, ⟨runs (by decide +kernel), by decide +kernel⟩,
    ⟨runs (by decide +kernel), by decide +kernel⟩,
    opens (by decide +kernel) rfl rfl, by decide +kernel, by decide +kernel, config_signed, by decide +kernel⟩

theorem wit_ActivationSteps :
    (∀ s ∈ [acting 1 0 0 false onB, acting 2 2 18 false onB, acting 2 3 1 false onB, acting 2 3 2 false onB, acting 2 3 2 true onB,
      acting 3 0 0 false onB, on], s.phase = .running) ∧
    (acting 1 0 0 false onB).fw.act.st = 1 ∧ calm (acting 1 0 0 false onB) = true ∧
    slotValid (acting 1 0 0 false onB) (acting 1 0 0 false onB).fw.act.slot = true ∧
    ((acting 2 2 18 false onB).fw.act.st = 2 ∧ (acting 2 2 18 false onB).fw.act.waiting = false ∧
      (acting 2 2 18 false onB).fw.act.step = 2 ∧ (acting 2 2 18 false onB).fw.act.cores + 1 < (if Config.hasFlash onB.variant then 20 else 16)) ∧
    ((acting 2 3 2 false onB).fw.act.cores = 2 ∧ (acting 2 3 2 false onB).fw.act.revert = false) ∧
    ((acting 2 3 2 true onB).fw.act.waiting = true ∧ calm (acting 2 3 2 true onB) = true) ∧
    ((acting 3 0 0 false onB).fw.act.st = 3 ∧ (imageOf (acting 3 0 0 false onB) (fwSlot (acting 3 0 0 false onB) true)).isSome = true) ∧
    (on.fw.act.st = 0 ∧ lookupK on.fw.wdog (.scheduler 0) = none ∧ coreRuns on (.scheduler 0) = true) ∧
    (lookupK ({ on with fw := { on.fw with wdog := [(.wheel 3, 0)] } } : State).fw.wdog (.wheel 3) = some 0 ∧
      on.now.toNat < (0 : Word).toNat + 1000000000 ∧ unitFenced on (unitChainring 3) = false) := by
  refine ⟨?_, by decide +kernel, by decide +kernel, by decide +kernel, by decide +kernel, by decide +kernel, by decide +kernel,
    by decide +kernel, by decide +kernel, by decide +kernel⟩
  intro s hs
  fin_cases hs <;> rfl

/-- R358: the last restart step makes the new slot active, in trial. -/
theorem test_activation : ∃ t, exec (.fwActivationStepDone true) (acting 2 3 2 false onB) = .next t ∧
    t.nv.activeSlot = false ∧ t.nv.trial = true ∧ t.fw.act.st = 3 := ⟨_, rfl, by decide +kernel⟩

/-- The recovery ROM, and the first bytes of an image that is none. -/
def inRom : State := { up with phase := .recoveryRom }

theorem wit_BootAndAttest :
    (runsIn 0x502 (cmd 0 [1, 2, 3, 4]) on = some (into 0x502 (cmd 0 [1, 2, 3, 4]) on) ∧
      (into 0x502 (cmd 0 [1, 2, 3, 4]) on).fw.identity = true) ∧
    (released.phase = .released ∧ (bootInfo true true).failedUnits = [] ∧ (bootInfo true true).countersOk = true ∧
      released.side.sampled.recoveryN = true ∧ released.nv.trial = false ∧ slotValid released released.nv.activeSlot = true) ∧
    ({ released with side := { released.side with sampled := { released.side.sampled with recoveryN := false } } } : State).side.sampled.recoveryN
      = false ∧
    (let s : State := { released with nv := { released.nv with slotA := released.nv.slotB } };
      slotValid s false = false ∧ slotValid s true = false ∧ s.nv.trial = false ∧ s.side.sampled.recoveryN = true) ∧
    (inRom.phase = .recoveryRom ∧ (0 : BitVec 32).toNat % 4096 = 0 ∧ 1 ≤ (2 : BitVec 32).toNat ∧ (2 : BitVec 32).toNat ≤ 4096 ∧
      ([7, 8] : List Byte).length = (2 : BitVec 32).toNat ∧ (0 : BitVec 32).toNat = inRom.fw.recBytes.length ∧
      imageOf inRom { factory := false, cells := cellsOf 0 (inRom.fw.recBytes ++ [7, 8]) } = none) :=
  ⟨⟨runs (by decide +kernel), by decide +kernel⟩, by decide +kernel, by decide +kernel, by decide +kernel, by decide +kernel⟩

/-! ### Invariants -/

/-- The invariant holds in states that are not the reset state. -/
theorem wit_InvariantKept : Inv on ∧ Inv tiled ∧ Inv logged := by
  refine ⟨⟨?_, ?_, ?_, ?_, ?_, ?_, ?_, ?_, ?_⟩, ⟨?_, ?_, ?_, ?_, ?_, ?_, ?_, ?_, ?_⟩, ⟨?_, ?_, ?_, ?_, ?_, ?_, ?_, ?_, ?_⟩⟩ <;>
    decide +kernel

theorem wit_step : ∃ t, step { on with pending := [.supplyWarning 45000] } = .next t := ⟨_, rfl⟩

end Sys2Proof.Tests
end

/-! The scope family: the path of a packet that reaches its chapter, reads and writes of registers, and what a tick does
to the trip meters outside the phase running. -/

namespace Sys2Proof.Proofs

open Sys2Proof.Machine Sys2Proof.Claims Sys2Proof.Laws

/-! ### A packet that reaches its chapter (R295, R299, R312, R410) -/

/-- A packet that passes the header checks and the busy states runs its chapter, open, in the state it starts in. -/
theorem startCmd_of_passes {op : Nat} {c : Cmd} {s u : State} (body : Body) (h : passes op c s = some u) :
    startCmd op c body s = finish (openOf op c) (body c u) := by
  obtain ⟨⟨hhdr, hbusy⟩, rfl⟩ : (hdrChecks s op c = none ∧ busyChecks s op c = none) ∧ openCmd (openOf op c) s = u := by
    simpa [passes] using h
  exact startCmd_runs body hhdr hbusy

/-- While the recovery image runs, the sideband starts the commands that the image serves once a version is chosen
(R410); `HELLO` chooses it. -/
theorem runPacket_sideband_recovery {op : Nat} {c : Cmd} {s : State} (body : Body) (hsrc : c.h.src = .sideband)
    (hphase : s.phase = .recoveryImage) (hserves : recoveryServes op = true)
    (hver : s.port.sbVersion.isSome = true ∨ op = 0x001) :
    runPacket op c body s = startCmd op c body s := by
  unfold runPacket
  simp only [hsrc, hphase, hserves]
  rcases hver with hver | rfl
  · simp [Option.isNone_eq_false_iff.mpr hver]
  · simp

/-- What a packet does when `runsIn` gives the state its chapter runs in: its chapter runs there and its answer is sent. -/
theorem runPacket_of_runsIn {op : Nat} {c : Cmd} {s u : State} (body : Body) (h : runsIn op c s = some u) :
    runPacket op c body s = finish (openOf op c) (body c u) := by
  unfold runsIn at h
  cases hsrc : c.h.src with
  | queue q =>
    simp only [hsrc, Option.ite_none_right_eq_some, Bool.and_eq_true, decide_eq_true_eq] at h
    obtain ⟨⟨hphase, hqueue⟩, hpass⟩ := h
    rw [runPacket_queue body hsrc hphase hqueue, startCmd_of_passes body hpass]
  | sideband =>
    simp only [hsrc, Option.ite_none_right_eq_some, Bool.and_eq_true, Bool.or_eq_true, decide_eq_true_eq,
      beq_iff_eq] at h
    obtain ⟨⟨hphase | ⟨hphase, hserves⟩, hver⟩, hpass⟩ := h
    · have hver' : s.port.sbVersion.isNone = false ∨ op = 0x001 := hver.imp_left Option.isNone_eq_false_iff.mpr
      rw [runPacket_sideband body hsrc hphase hver', startCmd_of_passes body hpass]
    · rw [runPacket_sideband_recovery body hsrc hphase hserves hver, startCmd_of_passes body hpass]
  | port =>
    simp only [hsrc, Option.ite_none_right_eq_some, Bool.and_eq_true, Bool.or_eq_true, decide_eq_true_eq] at h
    obtain ⟨⟨hphase, hadmit⟩, hpass⟩ := h
    rw [runPacket_port body hsrc hphase hadmit, startCmd_of_passes body hpass]

/-! ### Reads and writes of one register (R8, R304) -/

/-- Every row that reads a register runs `readCmd` under the opcode of `REG_READ`. -/
theorem exec_regReadRow {row : Cmd → Instr} (hrow : row ∈ regReadRows) (c : Cmd) (s : State) :
    exec (row c) s = .next (runPacket 0x010 c readCmd s) := by
  simp only [regReadRows, List.mem_cons, List.not_mem_nil, or_false] at hrow
  rcases hrow with rfl | rfl | rfl | rfl | rfl | rfl | rfl | rfl | rfl <;> rfl

/-- A read of a register in service answers its value and clears its fields of access RC. -/
theorem readCmd_of_regsOf {c : Cmd} {u : State} {d : Nat} {r : RegName}
    (hreg : regsOf (c.p 0).toNat false = .inr [(d, r)])
    (hlive : failedHeadset u ((c.p 0).toNat / 2 ^ 28) d = false) :
    readCmd c u = Eff.res .ok (regValue u r) (clearOnRead r u) := by
  unfold readCmd
  rw [hreg]
  simp only [hlive]
  rfl

/-- A write that is no broadcast writes the one register that its address names, when that is in service. -/
theorem writeCmd_of_regsOf (f : RegName → Word → State → State) {c : Cmd} {u : State} {d : Nat} {r : RegName}
    (hreg : regsOf (c.p 0).toNat true = .inr [(d, r)])
    (hlive : failedHeadset u ((c.p 0).toNat / 2 ^ 28) d = false) (hone : (c.p 0).toNat / 2 ^ 28 ≠ 0xF) :
    writeCmd f c u = Eff.ok (f r (c.p 1) u) := by
  unfold writeCmd
  rw [hreg]
  simp only [if_neg hone, List.filter, hlive]
  rfl

/-- A packet whose chapter answers `OK` with an empty payload is completed so. -/
theorem runPacket_res {op : Nat} {c : Cmd} {s u v : State} {body : Body} {result : Word}
    (hrun : runsIn op c s = some u) (hbody : body c u = Eff.res .ok result v) :
    runPacket op c body s = replied op c .ok result [] v := by
  rw [runPacket_of_runsIn body hrun, hbody]
  rfl

/-- A register without a writable field takes nothing. -/
theorem writeReg_of_readOnly {r : RegName} (hro : r ∉ [RegName.agentCtrl, .fabricCtrl, .alerts])
    (hcoh : ∀ w, r ≠ .cohCtrl w) (v : Word) (s : State) : writeReg r v s = s := by
  cases r with
  | cohCtrl w => exact absurd rfl (hcoh w)
  | agentCtrl | fabricCtrl | alerts => simp at hro
  | _ => rfl

theorem registerReadCompletes : RegisterReadCompletes := by
  intro row hrow c s u d r hrun hreg hlive
  rw [exec_regReadRow hrow, runPacket_res hrun (readCmd_of_regsOf hreg hlive)]

theorem registerWriteCompletes : RegisterWriteCompletes := by
  intro c s u d r hrun hreg hlive hone
  have hwrite (f : RegName → Word → State → State) :
      runPacket 0x011 c (writeCmd f) s = replied 0x011 c .ok 0 [] (f r (c.p 1) u) :=
    runPacket_res hrun (writeCmd_of_regsOf f hreg hlive hone)
  refine ⟨congrArg _ (hwrite writeReg), ?cohCtrl, ?fabricCtrl, ?lose, ?alerts, ?readOnly⟩
  case cohCtrl =>
    rintro w rfl
    exact congrArg _ (hwrite writeReg)
  case fabricCtrl =>
    rintro rfl
    exact congrArg _ (hwrite writeReg)
  case lose =>
    rintro rfl hlose
    have hdeclare : writeReg .agentCtrl (c.p 1) u = declareLost (BitVec.ofNat 10 (bits (c.p 1) 0 10)) 2 u := if_pos hlose
    exact congrArg _ ((hwrite writeReg).trans (by rw [hdeclare]))
  case alerts =>
    rintro rising rfl
    exact congrArg _ (hwrite _)
  case readOnly => exact fun hro hcoh => writeReg_of_readOnly hro hcoh _ _

/-- Settles O5: a packet that reaches its chapter runs it and is answered, and the chapter reads or writes the one
register that the address names. -/
theorem registerAccessComplete : Obligations.RegisterAccessComplete :=
  ⟨registerReadCompletes, registerWriteCompletes⟩

/-! ### Every step goes on (R5) -/

/-- Every arm of `exec` answers a next state: none is a fault or a refusal. -/
theorem exec_answers (i : Instr) (s : State) : ∃ t, exec i s = .next t := by
  cases i <;> exact ⟨_, rfl⟩

theorem step_answers (s : State) : ∃ t, step s = .next t := by
  unfold step
  split
  · exact ⟨_, rfl⟩
  · exact exec_answers _ _

theorem step_of_pending_nil {s : State} (h : s.pending = []) : step s = .next (tick s) := by
  unfold step
  rw [h]

/-- A tick moves nothing while the module is off or held in reset. -/
theorem tick_of_off_or_inReset {s : State} (h : s.phase = .off ∨ s.phase = .inReset) : tick s = s := by
  rcases h with h | h <;> simp [tick, h]

/-- A record of dropped records goes to the error log alone (R330). -/
theorem writeRec_dropped_only (n : Word) (s : State) : ∃ e,
    writeRec { Rec.blank 0x0016 with arg0 := n } s = { s with err := e } ∧ e.fences = s.err.fences := by
  have hlog : writeRec { Rec.blank 0x0016 with arg0 := n } s =
      logErr { Rec.blank 0x0016 with arg0 := n, time := s.now } s := rfl
  rw [hlog]
  unfold logErr
  split <;> exact ⟨_, rfl, rfl⟩

theorem catchUp_only (s : State) : ∃ e, catchUp s = { s with err := e } ∧ e.fences = s.err.fences := by
  unfold catchUp
  simp only
  split
  · exact ⟨_, rfl, rfl⟩
  · exact writeRec_dropped_only _ { s with err := { s.err with behind := 0, dropped := 0 } }

/-- Outside the phase running a tick changes the clock, the meters, the log and what holds for one moment only. -/
theorem tick_outside_running {s : State} (hoff : s.phase ≠ .off) (hreset : s.phase ≠ .inReset)
    (hrun : s.phase ≠ .running) :
    (tick s).err.fences = s.err.fences ∧
      tick s = { s with
        time := tickCadence s.time, trip := (tick s).trip, err := (tick s).err,
        pair := { s.pair with inFlight := [] } } := by
  obtain ⟨e, hcatch, hfences⟩ := catchUp_only s
  have htick : tick s = countTime s.now { s with
      time := tickCadence s.time, trip := tickTrip { s with err := e }, err := e,
      pair := { s.pair with inFlight := [] } } := by
    simp [tick, hoff, hreset, whenUp, hrun, hcatch, State.now]
  rw [htick]
  exact ⟨hfences, rfl⟩

/-! ### The trip meters at a tick (R395, R396; notes/assumptions/57.md) -/

/-- At reset nothing is composed, and a tick counts a nanosecond of Cruise all the same: the meters run since the cold
boot (R396). -/
theorem tick_reset_stateNs : (tick State.reset).trip.stateNs = [0, 0, 1, 0, 0, 0] := rfl

/-- What `EveryStepGoesOn` states holds in all but its last clause. -/
theorem everyStepGoesOn_but_meters :
    (∀ s : State, ∃ t, step s = .next t) ∧
    (∀ s : State, s.pending = [] → s.phase = .off ∨ s.phase = .inReset → step s = .next s) ∧
    (∀ s : State, s.pending = [] → s.phase ≠ .off → s.phase ≠ .inReset → s.phase ≠ .running → ∃ t, step s = .next t ∧
      t = { s with time := tickCadence s.time, trip := t.trip, pair := t.pair, store := t.store, err := t.err } ∧
      t.err.fences = s.err.fences ∧ t.store.mem = s.store.mem ∧ t.pair.inFlight = []) := by
  refine ⟨step_answers, fun s hq hphase => ?held, fun s hq hoff hreset hrun => ?outside⟩
  case held => rw [step_of_pending_nil hq, tick_of_off_or_inReset hphase]
  case outside =>
    obtain ⟨hfences, htick⟩ := tick_outside_running hoff hreset hrun
    refine ⟨tick s, step_of_pending_nil hq, ?_, hfences, ?_, ?_⟩ <;> rw [htick]

/-- Refutes O2: its last clause has the meters stand still while nothing is composed. In the reset state, whose queue is
empty and whose phase is `released`, a step moves `STATE_NS` of Cruise from 0 to 1. -/
theorem not_everyStepGoesOn : ¬ Obligations.EveryStepGoesOn := by
  rintro ⟨-, -, hidle⟩
  obtain ⟨t, hstep, -, -, -, -, htrip⟩ := hidle State.reset rfl (by decide) (by decide) (by decide)
  obtain rfl : tick State.reset = t := Host.Outcome.next.inj ((step_of_pending_nil rfl).symm.trans hstep)
  have hstill : (tick State.reset).trip.stateNs = State.reset.trip.stateNs := congrArg Trip.stateNs (htrip rfl)
  rw [tick_reset_stateNs] at hstill
  exact absurd hstill (by decide)

end Sys2Proof.Proofs

/-! Addresses, extents and compositions: the refusals of an address, the register of the composition in force, `COMPOSE` and
what the switch leaves, `RIDER_RESET` and the fetch of a queue, extents at run time, and sequenced stores at their
destination. -/

namespace Sys2Proof.Proofs

open Sys2Proof.Machine Sys2Proof.Claims Sys2Proof.Laws

/-! ### The composition in force as a register (R39) -/

/-- Two fields of 32 bits, packed into a register, read back as they are. -/
theorem bits_packReg_halves {hi lo : Nat} (hhi : hi < 2 ^ 32) (hlo : lo < 2 ^ 32) :
    bits (packReg [(32, hi), (0, lo)]) 32 32 = hi ∧ bits (packReg [(32, hi), (0, lo)]) 0 32 = lo := by
  have hpack : (packReg [(32, hi), (0, lo)]).toNat = hi * 2 ^ 32 + lo := by
    simp only [packReg, packBelow, BitVec.toNat_ofNat]
    omega
  simp only [bits, hpack, Nat.shiftRight_eq_div_pow]
  omega

/-- Settles O6: both fields are 32 bits wide, so neither is cut when the register is packed. -/
theorem mapEpochRegister : Obligations.MapEpochRegister := by
  have hvalue (s : State) : regValue s .mapEpoch = packReg [(32, s.nv.bootCount.toNat), (0, (epochNow s).toNat)] := rfl
  refine ⟨rfl, rfl, fun s => ⟨?boot, ?epoch, fun _ => rfl⟩⟩
  case boot =>
    rw [hvalue]
    exact (bits_packReg_halves s.nv.bootCount.isLt (epochNow s).isLt).1
  case epoch =>
    rw [hvalue, (bits_packReg_halves s.nv.bootCount.isLt (epochNow s).isLt).2]
    unfold epochNow
    cases s.comp <;> rfl

/-! ### Addresses that are refused (R20, R25) -/

theorem target_of_opaMbz_false {a : Word} (h : opaMbz a = false) (s : State) : target s a = .bad .translation := by
  simp [target, h]

/-- Space 3 is reserved: no address of it is well formed (R18). -/
theorem opaMbz_of_reserved_space {a : Word} (h : opaSpace a = 3) : opaMbz a = false := by
  simp [opaMbz, h]

section Rights
variable {s : State} {r : BitVec 6} {off : Nat} (hhome : homeFenced s off = false)
include hhome

theorem rightsAt_of_no_extent (write : Bool) (hext : findExt s (extentOf off) = none) :
    rightsAt s r off write = .inl .revoked := by
  simp [rightsAt, hhome, hext]

theorem rightsAt_of_not_live (write : Bool) {x : Extent} (hext : findExt s (extentOf off) = some x)
    (hlive : extLive s x r = false) : rightsAt s r off write = .inl .revoked := by
  simp [rightsAt, hhome, hext, hlive]

theorem rightsAt_write_of_not_writer {x : Extent} (hext : findExt s (extentOf off) = some x)
    (hlive : extLive s x r = true) (hwriter : extWriter s x r = false) : rightsAt s r off true = .inl .revoked := by
  simp [rightsAt, hhome, hext, hlive, hwriter]

end Rights

/-- Settles O28: the form of an address is asked before anything else, and at a home that is not fenced the extent's life
before its rights. -/
theorem addressRefusals : Obligations.AddressRefusals := by
  constructor
  · exact fun s a h => target_of_opaMbz_false (h.elim id opaMbz_of_reserved_space) s
  · exact fun s r off write hhome => ⟨rightsAt_of_no_extent hhome write, fun x => rightsAt_of_not_live hhome write,
      fun x => rightsAt_write_of_not_writer hhome⟩

/-! ### A chapter that refuses or leaves its command open (R298) -/

/-- A packet whose chapter answers is completed with that answer. -/
theorem runPacket_data {op : Nat} {c : Cmd} {s u v : State} {body : Body} {st : Status} {result : Word}
    {payload : List Byte} (hrun : runsIn op c s = some u) (hbody : body c u = Eff.data st result payload v) :
    runPacket op c body s = replied op c st result payload v := by
  rw [runPacket_of_runsIn body hrun, hbody]
  rfl

theorem runPacket_stat {op : Nat} {c : Cmd} {s u v : State} {body : Body} {st : Status}
    (hrun : runsIn op c s = some u) (hbody : body c u = Eff.stat st v) :
    runPacket op c body s = replied op c st 0 [] v :=
  runPacket_data hrun hbody

/-- A packet whose chapter answers nothing yet leaves the state that the chapter leaves. -/
theorem runPacket_later {op : Nat} {c : Cmd} {s u v : State} {body : Body}
    (hrun : runsIn op c s = some u) (hbody : body c u = Eff.later v) : runPacket op c body s = v := by
  rw [runPacket_of_runsIn body hrun, hbody]
  rfl

/-! ### Chunks (R301) -/

theorem bodyChunked_whole {cop : ChunkOp} {op : Nat} {body : Body} {c : Cmd} {u : State}
    (hfresh : findAssembly u c = none) (hfirst : c.h.chunk = 0) (hlast : c.h.more = false) :
    bodyChunked cop op body c u = body c u := by
  simp [bodyChunked, hfresh, hfirst, hlast]

/-- Where no assembly of a chunk's source and tag is kept, none is dropped. -/
theorem dropAssembly_of_fresh {u : State} {c : Cmd} (hfresh : findAssembly u c = none) : dropAssembly c u = u := by
  have hkeep : dropIf u.port.assemblies (fun a => a.src = c.h.src && a.tag = c.h.tag) = u.port.assemblies := by
    refine List.filter_eq_self.mpr fun a ha => ?_
    simpa [imp_iff_not_or] using List.find?_eq_none.mp hfresh a ha
  unfold dropAssembly
  rw [hkeep]

/-- The first chunk of several is kept, and its command stays without a reply. -/
theorem bodyChunked_first {cop : ChunkOp} {op : Nat} {body : Body} {c : Cmd} {u : State}
    (hfresh : findAssembly u c = none) (hfirst : c.h.chunk = 0) (hmore : c.h.more = true)
    (hlen : c.payload.length = 65536)
    (hroom : c.h.src = .port → (u.port.assemblies.filter (·.src = .port)).length < 4) :
    bodyChunked cop op body c u = Eff.later (dropOpen (openOf op c) { u with port.assemblies := u.port.assemblies ++
      [{ src := c.h.src, op := cop, tag := c.h.tag, params := c.params, next := 1, data := c.payload }] }) := by
  have hroom' : (decide (c.h.src = .port) && decide (4 ≤ (u.port.assemblies.filter (·.src = .port)).length)) = false := by
    by_cases hsrc : c.h.src = .port
    · simp [hsrc, hroom hsrc]
    · simp [hsrc]
  simp [bodyChunked, hfresh, hfirst, hmore, hlen, dropAssembly_of_fresh, hroom']

/-- Dropping an open command changes the lists of open commands only. -/
theorem dropOpen_only (o : Open) (v : State) :
    dropOpen o v = { v with port := (dropOpen o v).port, queues := (dropOpen o v).queues } ∧
      (dropOpen o v).port.assemblies = v.port.assemblies := by
  unfold dropOpen
  split <;> exact ⟨rfl, rfl⟩

/-! ### `COMPOSE` (R34 to R36, R43) -/

theorem bodyComposeChunk_of_idle {c : Cmd} {u : State} (hidle : u.compose = .idle) (hmounted : notMounted u = false)
    (halone : u.port.assemblies.any (fun a => a.op = .compose && a.tag ≠ c.h.tag) = false) :
    bodyComposeChunk c u = bodyChunked .compose 0x018 bodyCompose c u := by
  unfold bodyComposeChunk
  rw [hidle, hmounted, halone]
  rfl

/-- A whole record is checked; one that passes closes the module, or waits for the revokes before it (R34, R36, R43). -/
theorem bodyComposeChunk_of_whole {c : Cmd} {u : State} (h : WholeRecord c u) :
    bodyComposeChunk c u = match checkRecord u c.payload with
      | .inl st => Eff.stat st u
      | .inr k => Eff.later (if (revokesOpen u).isEmpty then closeFor (openOf 0x018 c) k u
        else { u with compose := .waiting (openOf 0x018 c) k (revokesOpen u) }) := by
  obtain ⟨hfirst, hlast, hfresh, hidle, hmounted, halone, hknown, hpos, hmax, hcount⟩ := h
  rw [bodyComposeChunk_of_idle hidle hmounted halone, bodyChunked_whole hfresh hfirst hlast]
  have hform : (decide ((c.p 0).toNat = 0) || decide (16 < (c.p 0).toNat) ||
      decide ((c.p 0).toNat ≠ (c.payload.length + 65535) / 65536)) = false := by
    simp only [Bool.or_eq_false_iff, decide_eq_false_iff_not]
    omega
  simp only [bodyCompose, withIdentity, hknown, hidle, hform]
  rfl

/-- Settles O41: a row of `COMPOSE` and a `COMMAND_CHUNK` of it run the same chapter. -/
theorem composeAccepted : Obligations.ComposeAccepted := by
  intro c s u hrun
  have hexec : exec (.compose c) s = .next (runPacket 0x018 c bodyComposeChunk s) ∧
      exec (.commandChunk .compose c) s = .next (runPacket 0x018 c bodyComposeChunk s) := ⟨rfl, rfl⟩
  rw [hexec.1, hexec.2]
  refine ⟨fun hwhole => ?whole, fun hbusy => ?busy, fun hfirst hmore hfresh hidle hmounted halone hlen hroom => ?chunk⟩
  case whole =>
    have hbody := bodyComposeChunk_of_whole hwhole
    refine ⟨fun st hst => ?refused, fun k hk hopen => ?waits, fun k hk hopen => ?closes⟩
    case refused =>
      rw [hst] at hbody
      rw [runPacket_stat hrun hbody]
      exact ⟨rfl, rfl⟩
    case waits =>
      rw [hk] at hbody
      rw [runPacket_later hrun hbody, if_neg (by simpa using hopen)]
      exact ⟨rfl, rfl⟩
    case closes =>
      rw [hk, hopen] at hbody
      rw [runPacket_later hrun hbody]
      exact ⟨_, rfl, rfl, rfl⟩
  case busy =>
    have hbody : bodyComposeChunk c u = Eff.stat .busy u := by simp [bodyComposeChunk, hbusy]
    rw [runPacket_stat hrun hbody]
  case chunk =>
    have hbody := (bodyComposeChunk_of_idle hidle hmounted halone).trans
      (bodyChunked_first hfresh hfirst hmore hlen hroom)
    rw [runPacket_later hrun hbody]
    obtain ⟨hframe, hkept⟩ := dropOpen_only (openOf 0x018 c) { u with port.assemblies := u.port.assemblies ++
      [{ src := c.h.src, op := .compose, tag := c.h.tag, params := c.params, next := 1, data := c.payload }] }
    exact ⟨_, rfl, rfl, hframe, hkept⟩

theorem whenUp_of_running {s : State} (hup : s.phase = .running) (f : State → State) : whenUp s f = f s := if_pos hup

/-! ### Operations that change the store only (R87, R138) -/

/-- What each step of a fold leaves alone but for the store, the fold does. -/
theorem foldl_store_only {α : Type} {f : State → α → State} (hstep : ∀ s a, ∃ st, f s a = { s with store := st })
    (l : List α) (s : State) : ∃ st, l.foldl f s = { s with store := st } := by
  refine List.foldlRecOn (motive := fun t => ∃ st, t = { s with store := st }) l f ⟨s.store, rfl⟩ ?_
  rintro t ⟨st, rfl⟩ a -
  exact hstep { s with store := st } a

theorem releaseFrame_only (page f : Nat) (s : State) : ∃ st, releaseFrame page f s = { s with store := st } := by
  simp only [releaseFrame]
  split <;> exact ⟨_, rfl⟩

theorem releaseFrames_only (fs : List (Nat × Nat)) (s : State) : ∃ st, releaseFrames fs s = { s with store := st } :=
  foldl_store_only (fun s (p : Nat × Nat) => releaseFrame_only p.1 p.2 s) fs s

theorem copyToHome_only (page : Nat) (s : State) : ∃ st, copyToHome page s = { s with store := st } := by
  simp only [copyToHome]
  split
  · exact ⟨_, rfl⟩
  · split
    · exact releaseFrame_only page _ { s with store := _ }
    · exact ⟨_, rfl⟩

theorem dropCopy_only (page : Nat) (s : State) : ∃ st, dropCopy page s = { s with store := st } := by
  simp only [dropCopy]
  split
  · exact releaseFrame_only page _ { s with store := _ }
  · exact ⟨_, rfl⟩

theorem removeObj_only (o : Obj) (s : State) : ∃ st, removeObj o s = { s with store := st } := by
  have hcopies (l : List (Nat × Copy)) (v : State) : ∃ st,
      l.foldl (fun s c => if c.2.dirty then copyToHome c.1 s else dropCopy c.1 s) v = { v with store := st } := by
    refine foldl_store_only (fun s c => ?_) l v
    split
    · exact copyToHome_only c.1 s
    · exact dropCopy_only c.1 s
  obtain ⟨st, h⟩ := hcopies (objCopies (cancelTier o.covers s).store o) (cancelTier o.covers s)
  unfold removeObj
  simp only [h]
  exact ⟨_, rfl⟩

/-- Abandoning a write lap touches the store and what the homes hold for the lap: the directory lists the same lines. -/
theorem abandonLap_only (idx : Nat) (s : State) : ∃ st ts ds,
    abandonLap idx s = { s with store := st, coh := { s.coh with trks := ts, dir := ds } } ∧
      (s.coh.dir = [] → ds = []) := by
  unfold abandonLap
  split
  · split
    next w _ =>
      refine (releaseFrames_only w.shadows _).elim fun st h => ⟨st, _, _, h, fun hdir => ?_⟩
      simp [updExt, updIf, hdir]
    · exact ⟨_, _, _, rfl, id⟩
  · exact ⟨_, _, _, rfl, id⟩

/-! ### The working state that a composition starts with (R36) -/

/-- Nothing of the composition before is at work: no queue, no sync value, no translation root, no directory entry, no lost
agent. -/
structure NoWork (s : State) : Prop where
  queues : s.queues = []
  vals   : s.sync.vals = []
  roots  : s.xlat.roots = []
  dir    : s.coh.dir = []
  lost   : s.coh.lost = []

theorem noWork_clearWork (s : State) : NoWork (clearWork s) := by
  constructor <;> rfl

theorem NoWork.of_store_only {s t : State} (h : NoWork s) (ht : ∃ st, t = { s with store := st }) : NoWork t := by
  obtain ⟨st, rfl⟩ := ht
  exact ⟨h.queues, h.vals, h.roots, h.dir, h.lost⟩

theorem NoWork.abandonLap {s : State} (h : NoWork s) (idx : Nat) : NoWork (abandonLap idx s) := by
  obtain ⟨st, ts, ds, heq, hdir⟩ := abandonLap_only idx s
  rw [heq]
  exact ⟨h.queues, h.vals, h.roots, hdir h.dir, h.lost⟩

theorem NoWork.settleStore {s : State} (h : NoWork s) : NoWork (settleStore s) := by
  have hobjs := (h.of_store_only ⟨_, rfl⟩ : NoWork (cancelTier (fun _ => true) s)).of_store_only
    (foldl_store_only (fun s o => removeObj_only o s) (cancelTier (fun _ => true) s).store.objects _)
  have hlaps (l : List Nat) (v : State) (hv : NoWork v) : NoWork (l.foldl (fun s i => Machine.abandonLap i s) v) :=
    List.foldlRecOn l _ hv fun t ht i _ => ht.abandonLap i
  exact (hlaps _ _ hobjs).of_store_only ⟨_, rfl⟩

/-! ### Apply (R36) -/

theorem setPair_only (st : BitVec 4) (s : State) : ∃ p sd, setPair st s = { s with pair := p, side := sd } := by
  unfold setPair
  split
  · exact ⟨_, _, rfl⟩
  · obtain ⟨a, n, h⟩ := alert_only 0 { s with pair.st := st }
    exact ⟨_, _, h⟩

theorem newPair_only (k : Comp) (s : State) : ∃ p sd, newPair k s = { s with pair := p, side := sd } := by
  unfold newPair
  exact setPair_only _ { s with pair := _ }

theorem recPorts_only (old : List FPort) (s : State) : ∃ e n, recPorts old s = { s with err := e, nv := n } := by
  refine List.foldlRecOn (motive := fun t => ∃ e n, t = { s with err := e, nv := n }) _ _ ⟨s.err, s.nv, rfl⟩ ?_
  rintro t ⟨e, n, rfl⟩ p -
  split
  · obtain ⟨e', o, n', h⟩ := detect_only _ { s with err := e, nv := n }
    exact ⟨_, _, h⟩
  · exact ⟨_, _, rfl⟩

/-- A composition is applied over a module with no work left: the record and the store it leaves are installed. -/
theorem applyComp_only (k : Comp) (s : State) : ∃ w, NoWork w ∧ ∃ fab pair side err nv power, applyComp k s =
    { w with
      store := newStore k w, comp := some k, fab := fab, pair := pair, side := side, err := err, nv := nv
      power := power } := by
  refine ⟨settleStore (clearWork s), (noWork_clearWork s).settleStore, ?_⟩
  generalize hw : settleStore (clearWork s) = w
  simp only [applyComp, hw]
  obtain ⟨p, sd, hpair⟩ := newPair_only k { w with
    store := newStore k w, fab.ports := newPorts k w, comp := some k }
  rw [hpair]
  obtain ⟨e, n, hports⟩ := recPorts_only w.fab.ports { w with
    store := newStore k w, fab.ports := newPorts k w, comp := some k, pair := p, side := sd }
  rw [hports]
  split <;> exact ⟨_, _, _, _, _, _, rfl⟩

/-! ### What a record leaves in the store (R36) -/

/-- The extents of a record start with no lap open and no fence. -/
theorem newExtents_fresh {k : Comp} {s : State} {x : Extent} (hx : x ∈ newExtents k s) :
    x.wlap = none ∧ x.reads = [] ∧ x.fenced = false := by
  simp only [newExtents, List.mem_append, List.mem_flatMap, List.mem_map] at hx
  obtain ⟨u, -, i, -, rfl⟩ | ⟨u, -, i, -, rfl⟩ := hx <;> exact ⟨rfl, rfl, rfl⟩

/-- Only pages of extents that the record keeps stay, without a copy. -/
theorem keepPages_kept {k : Comp} {s : State} {p : Page} (hp : p ∈ keepPages k s) :
    extentOfPage p.n ∈ keepIdxs k ∧ p.copy = none := by
  simp only [keepPages] at hp
  split at hp
  · simp only [List.mem_map, List.mem_filter, Bool.and_eq_true] at hp
    obtain ⟨q, ⟨-, hq, -⟩, rfl⟩ := hp
    exact ⟨List.contains_iff_mem.mp hq, rfl⟩
  · split at hp
    · simp only [List.mem_map, List.mem_filter] at hp
      obtain ⟨q, ⟨-, hq⟩, rfl⟩ := hp
      exact ⟨List.contains_iff_mem.mp hq, rfl⟩
    · simp at hp

/-- A byte that is not zero is listed. -/
theorem mem_of_memGet_ne_zero {m : List Host.Cell} {a : Nat} (h : memGet m a ≠ 0) : ∃ c ∈ m, c.1 = a := by
  by_contra hno
  exact h (memGet_of_notMem fun c hc hca => hno ⟨c, hc, hca⟩)

/-- A byte of the new store lies in the home frame of a page that stays. -/
theorem newStore_mem_kept {k : Comp} {s : State} {a : Nat} (h : memGet (newStore k s).mem a ≠ 0) :
    ∃ p ∈ (newStore k s).pages, p.home = some (a / 65536) := by
  obtain ⟨c, hc, rfl⟩ := mem_of_memGet_ne_zero h
  have hkept := List.contains_iff_mem.mp (List.mem_filter.mp hc).2
  exact List.mem_filterMap.mp hkept

/-! ### Switch (R36, R395, R424) -/

/-- The composition is in force: its meters run, and what it keeps across a cold boot is written. -/
def switched (d : Drain) (k : Comp) (s : State) : State :=
  { s with
    compose := .idle
    drain := { d with done := true }
    prevTrip := if s.ever then some { s.trip with to_ := s.now } else s.prevTrip
    trip := Trip.start k.epoch s.now (k.riders.map (·.rider))
    ever := true
    issued := s.issued ++ [{ by_ := .record k.epoch, time := k.issued }]
    nv.kept := some (keptOf k s) }

theorem retryHeldAll_of_held_nil {s : State} (hheld : s.held = []) : retryHeldAll s = s := by
  unfold retryHeldAll
  rw [hheld]
  rfl

/-- With nothing held, the switch then writes its record and sends its reply. -/
theorem switchComp_only (o : Open) (old : BitVec 32) (d : Drain) (k : Comp) {s : State} (hheld : s.held = []) :
    ∃ e nv p q, switchComp o old d k s = { switched d k s with err := e, nv := nv, port := p, queues := q } ∧
      nv.kept = some (keptOf k s) := by
  obtain ⟨e, od, n, hrec⟩ :=
    writeRec_only { Rec.blank 0x0010 with arg0 := k.epoch.setWidth 64, arg1 := old } (switched d k s)
  have hswitch : switchComp o old d k s = retryHeldAll (completeIf o .ok 0 []
      (writeRec { Rec.blank 0x0010 with arg0 := k.epoch.setWidth 64, arg1 := old } (switched d k s))) := rfl
  obtain ⟨p, q, hreply⟩ := completeIf_only o .ok 0 [] { switched d k s with
    err := e, nv := { (switched d k s).nv with odometer := od, odoPos := n } }
  rw [hswitch, hrec, hreply]
  exact ⟨_, _, _, _, retryHeldAll_of_held_nil hheld, rfl⟩

theorem drainsComplete : DrainsComplete := by
  refine ⟨fun s o k hup hcomp hdrained => ?drained, fun s o k hup hcomp => ?limit⟩
  case drained =>
    have hstep : composeDrained s = bootComp o (drainNow { rider := none, keep := o } s) k s := by
      simp only [composeDrained, hcomp, if_pos hdrained]
    exact congrArg _ ((whenUp_of_running hup _).trans hstep)
  case limit =>
    have hstep : composeLimit s = bootComp o { drainNow { rider := none, keep := o } s with forced := portMask (openPorts s) } k
        (forceOpen { rider := none, keep := o } .timeout s) := by
      simp only [composeLimit, hcomp]
    exact congrArg _ ((whenUp_of_running hup _).trans hstep)

/-- Settles O42: nothing that the apply step does after the working state is cleared brings any of it back, and with nothing
held the switch only records, replies and counts anew. -/
theorem compositionSwitch : Obligations.CompositionSwitch := by
  refine ⟨drainsComplete, fun k s => ?apply, fun o old d k s hheld => ?switch⟩
  case apply =>
    obtain ⟨w, hw, fab, pair, side, err, nv, power, heq⟩ := applyComp_only k s
    rw [heq]
    exact ⟨rfl, hw.queues, hw.vals, hw.roots, hw.dir, hw.lost, rfl, rfl, fun x => newExtents_fresh,
      fun p => keepPages_kept, fun a => newStore_mem_kept⟩
  case switch =>
    obtain ⟨e, nv, p, q, heq, hkept⟩ := switchComp_only o old d k hheld
    rw [heq]
    exact ⟨rfl, rfl, rfl, rfl, rfl, rfl, hkept, rfl⟩

/-! ### An access that meets nothing (R102, R112) -/

/-- No armed injection: the use of a frame map changes nothing (R344). -/
theorem mapUse_of_no_inj {s : State} (hinj : s.err.inj = []) (off : Nat) : mapUse off s = s := by
  simp [mapUse, injBad, injMode, hinj]

theorem dropTicket_of_none {s : State} {k : EngKey} {write : Bool} (h : findTicket s k write = none) :
    dropTicket k write s = s := by
  simp [dropTicket, h]

/-- A line without a directory entry is listed nowhere. -/
theorem dir_ne_of_dirOf_none {s : State} {line : Nat} (h : dirOf s line = none) : ∀ d ∈ s.coh.dir, d.line ≠ line := by
  simpa [dirOf] using h

theorem dirDead_of_uncached {s : State} {line : Nat} (h : dirOf s line = none) : dirDead s line = false := by
  simp only [dirDead, List.any_eq_false, Bool.and_eq_true, beq_iff_eq, not_and]
  exact fun d hd hline => absurd hline (dir_ne_of_dirOf_none h d hd)

theorem setDir_none_of_uncached {s : State} {line : Nat} (h : dirOf s line = none) : setDir line none s = s := by
  have hkeep : dropIf s.coh.dir (·.line == line) = s.coh.dir := by
    refine List.filter_eq_self.mpr fun d hd => ?_
    simpa using dir_ne_of_dirOf_none h d hd
  simp only [setDir, hkeep]

theorem engSnoops_of_uncached {s : State} {line : Nat} (h : dirOf s line = none) (x : Extent) (r : BitVec 6) (write : Bool) :
    engSnoops s x r line write = [] := by
  simp only [engSnoops, h]
  cases write <;> simp [holders]

section Quiet
variable {s : State} {q : Rq} {off : Nat} {write : Bool} {x : Extent} (h : Quiet s q off write x)
include h

/-- The access may be made now, in the rider's own view, and its line's order stays as it is. -/
theorem engTurn_of_quiet (full : Bool) : engTurn s x q off write full = (.now none, s) := by
  simp [engTurn, h.first, h.free, h.scanned, dirDead_of_uncached h.uncached, engSnoops_of_uncached h.uncached,
    setDir_none_of_uncached h.uncached]

/-- An extent that is not lap-versioned is seen in its latest version. -/
theorem viewFor_of_quiet : viewFor s x q none = (.latest, s) := by
  have hview : viewOf s x q.rider = .latest := by simp [viewOf, h.plain]
  cases hop : q.op with
  | none => simp [viewFor, hop, hview]
  | some op =>
    have hheld : heldView x op = none := by simpa [hop] using h.single
    simp [viewFor, hop, takeView, hheld, hview, h.plain]

theorem memRead_of_quiet (len : Nat) (who : Option Nat) : memRead s x .latest off len who = (readAt s x .latest off len who, s) := by
  simp [memRead, h.clean.1, h.clean.2]

end Quiet

/-- A frame in service, without a code word beyond correction, gives its bytes; an absent page reads zero (R66, R323). -/
theorem readAt_latest_of_reads {s : State} {off len : Nat} (x : Extent) (who : Option Nat)
    (h : pageLoc s.store (pageOf off) (granuleOf off) = .absent ∨
      ∃ f fr, InFrame s off f fr ∧ badAt s.store fr.tier (f * 65536 + off % 65536) len = false) :
    readAt s x .latest off len who = .data (held s off len) := by
  rcases h with habsent | ⟨f, fr, hframe, hgood⟩
  · simp [readAt, viewLoc, held, habsent]
  · simp [readAt, viewLoc, held, hframe.frame, hframe.found, hframe.up, hgood]

/-- A read that nothing holds back answers the bytes that the store holds, and counts in its rider's meter only. -/
theorem homeRead_of_reads {s : State} {q : Rq} {off len : Nat} (h : Reads s q off len) :
    homeRead s q off len = (.data (held s off len), meterRd q.rider len s) := by
  obtain ⟨x, hq, hdata⟩ := h
  have hdrop : dropTicket (q.key off) false (meterRd q.rider len s) = meterRd q.rider len s := dropTicket_of_none hq.first
  simp only [homeRead, mapUse_of_no_inj hq.clean.1, hq.rights, engTurn_of_quiet hq, hq.unfenced, Bool.false_eq_true, if_false,
    viewFor_of_quiet hq, memRead_of_quiet hq, readAt_latest_of_reads x _ hdata, hdrop]

/-- A write that may be made and meets no code word beyond correction puts its bytes into the frame of its page and strikes
the doorbells there (R66, R148, R311). -/
theorem writeAt_latest_of_writes {s : State} {q : Rq} {off f : Nat} {fr : Frame} {bs : List Byte} {x : Extent}
    (h : Writes s q off f fr bs x) (who : Option Nat) (entered : Bool) :
    writeAt s x .latest off (allBytes bs) none who entered = .done { s with
      store := putBytes (frameTier s.store f) (f * 65536 + off % 65536) (allBytes bs) s.store
      bells := strike off (allBytes bs) s.bells } := by
  have halone : (findPage (putBytes (frameTier s.store f) (f * 65536 + off % 65536) (allBytes bs) s.store)
      (pageOf off)).copy = none := h.alone
  have hmirror (st : Store) (bells : List Bell) :
      syncMirror { s with store := st, bells := bells } x (pageOf off) = none := h.own
  have hframe : writeFrame s x .latest (pageOf off) f off (allBytes bs) =
      .done (applyBytes s x .latest (pageOf off) f off (allBytes bs)) := by
    simp [writeFrame, h.frame.found, h.frame.up, h.whole]
  simp [writeAt, mirrorHeld, h.own, h.quiet.plain, h.idle, h.frame.frame, hframe, applyBytes, halone, mirrorWrite, hmirror]

/-- A write that nothing holds back lands at once. -/
theorem homeWrite_of_writes {s : State} {q : Rq} {off f : Nat} {fr : Frame} {bs : List Byte} {x : Extent}
    (h : Writes s q off f fr bs x) : homeWrite s q off (allBytes bs) false = (.done, written q off f bs s) := by
  have hq := h.quiet
  have hlap : noWlap s x q.rider = false := by simp [noWlap, hq.plain]
  have hland (full : Bool) : landWrite q off full (written q off f bs s) = (.done, written q off f bs s) := by
    have hsent : (written q off f bs s).pair.inFlight.contains (pageOf off) = false := h.sent
    have hdrop : dropTicket (q.key off) true (written q off f bs s) = written q off f bs s := dropTicket_of_none hq.first
    simp only [landWrite, hsent, hdrop, Bool.false_eq_true, if_false]
  have hlen : (allBytes bs).length = bs.length := List.length_map _
  simp only [homeWrite, mapUse_of_no_inj hq.clean.1, hq.rights, hlap, hq.first, h.own, engTurn_of_quiet hq, hq.unfenced,
    viewFor_of_quiet hq, hlen, Bool.false_and, Option.any_none, Option.isSome_none, Bool.and_false, Bool.or_false,
    Bool.false_eq_true, if_false, writeAt_latest_of_writes h]
  exact hland _

/-! ### What plays no part in an access -/

section Elsewhere
variable {s : State} {q : Rq} {off len : Nat} (rota : Rotation) (trip : Trip) (fab : Fabric)

/-- The rotation of fetch, the meters and the fabric hold back no access of an engine. -/
theorem quiet_elsewhere {write : Bool} {x : Extent} (h : Quiet s q off write x) :
    Quiet { s with rota := rota, trip := trip, fab := fab } q off write x :=
  ⟨h.rights, h.unfenced, h.plain, h.single, h.first, h.free, h.scanned, h.uncached, h.clean⟩

theorem inFrame_elsewhere {f : Nat} {fr : Frame} (h : InFrame s off f fr) :
    InFrame { s with rota := rota, trip := trip, fab := fab } off f fr := ⟨h.frame, h.found, h.up⟩

theorem reads_elsewhere (h : Reads s q off len) : Reads { s with rota := rota, trip := trip, fab := fab } q off len := by
  obtain ⟨x, hq, hdata⟩ := h
  exact ⟨x, quiet_elsewhere rota trip fab hq,
    hdata.imp id fun ⟨f, fr, hframe, hgood⟩ => ⟨f, fr, inFrame_elsewhere rota trip fab hframe, hgood⟩⟩

theorem writes_elsewhere {f : Nat} {fr : Frame} {bs : List Byte} {x : Extent} (h : Writes s q off f fr bs x) :
    Writes { s with rota := rota, trip := trip, fab := fab } q off f fr bs x :=
  ⟨quiet_elsewhere rota trip fab h.quiet, inFrame_elsewhere rota trip fab h.frame, h.alone, h.idle, h.whole, h.own, h.sent⟩

theorem hits_elsewhere {cl : XClient} {r : BitVec 6} {va : Word} {write : Bool} {opa : Word} (h : Hits s cl r va write opa) :
    Hits { s with rota := rota, trip := trip, fab := fab } cl r va write opa :=
  ⟨h.inService, h.inSpace, h.rooted, h.mapped, h.quiet, h.hit⟩

end Elsewhere

/-- A shorter read of the same place meets no more. -/
theorem reads_of_le {s : State} {q : Rq} {off n len : Nat} (h : Reads s q off len) (hle : n ≤ len) : Reads s q off n := by
  obtain ⟨x, hq, hdata⟩ := h
  refine ⟨x, hq, hdata.imp id fun ⟨f, fr, hframe, hgood⟩ => ⟨f, fr, hframe, ?_⟩⟩
  simp only [badAt, List.any_eq_false, Bool.and_eq_true, decide_eq_true_eq, not_and] at hgood ⊢
  intro b hb hlow
  have := hgood b hb hlow
  omega

/-! ### Reading one line through a tree (R45, R54, R312) -/

/-- A range within a line is one piece. -/
theorem piecesOf_line {a n : Nat} (hpos : 0 < n) (hline : a % 64 + n ≤ 64) : piecesOf a n = [(a, n)] := by
  have hmin : min n (64 - a % 64) = n := by omega
  have hne : n ≠ 0 := by omega
  simp [piecesOf, linePieces, hne, hmin]

/-- A hit of the client's own micro-TLB answers at once and changes nothing. -/
theorem translate_of_hits {s : State} {cl : XClient} {r : BitVec 6} {va : Word} {write : Bool} {opa : Word}
    (h : Hits s cl r va write opa) : Machine.translate s cl r va write = (.ok opa, s) := by
  obtain ⟨root, hroot⟩ := Option.isSome_iff_exists.mp h.rooted
  obtain ⟨e, hmicro, hopa⟩ := Option.map_eq_some_iff.mp h.hit
  have hspace : ¬ 2 ^ 57 ≤ va.toNat := Nat.not_le.mpr h.inSpace
  have hfind : findWalk s cl va write none = none := by
    have hnone : ∀ w ∈ s.xlat.walks, w.client ≠ cl := by simpa [clientWalks] using h.quiet
    refine List.find?_eq_none.mpr fun w hw => ?_
    simp [hnone w hw]
  have hahead : walksAhead s cl none = false := by simp [walksAhead, h.quiet]
  unfold Machine.translate
  simp only [h.inService, hspace, hroot, h.mapped, xlatHit, hmicro, hfind, hahead, hopa, Bool.false_eq_true, if_false]

theorem virtRead_line {s : State} {cl : XClient} {q : Rq} {va opa : Word} {off n : Nat} (hpos : 0 < n)
    (hline : va.toNat % 64 + n ≤ 64) (hhits : Hits s cl q.rider va false opa) (htarget : target s opa = .off off)
    (hreads : Reads s q off n) : virtRead s cl q va n = (.data (held s off n), meterRd q.rider n s) := by
  simp [virtRead, piecesOf_line hpos hline, translate_of_hits hhits, htarget, homeRead_of_reads hreads]

theorem ringRead_line {s : State} {x : Queue} {opa : Word} {slot off n : Nat} (hpos : 0 < n) (hn : n ≤ 64)
    (hring : 6 ≤ x.ringLog2) (hva : (x.ringVa + BitVec.ofNat 64 (slot * 64 % 2 ^ x.ringLog2)).toNat % 64 = 0)
    (hhits : Hits s (.queue x.q) x.rider (x.ringVa + BitVec.ofNat 64 (slot * 64 % 2 ^ x.ringLog2)) false opa)
    (htarget : target s opa = .off off) (hreads : Reads s (rqQueue x) off n) :
    ringRead s x slot n = (.data (held s off n), meterRd x.rider n s) := by
  obtain ⟨k, hk⟩ : 64 ∣ 2 ^ x.ringLog2 := pow_dvd_pow 2 hring
  have hpowpos : 0 < 2 ^ x.ringLog2 := Nat.two_pow_pos _
  have hroom : slot * 64 % 2 ^ x.ringLog2 + 64 ≤ 2 ^ x.ringLog2 := by
    have hlt := Nat.mod_lt (slot * 64) hpowpos
    rw [hk, mul_comm slot 64, Nat.mul_mod_mul_left] at hlt ⊢
    omega
  have hmin : min n (2 ^ x.ringLog2 - slot * 64 % 2 ^ x.ringLog2) = n := by omega
  have hread := virtRead_line (q := rqQueue x) hpos (by omega) hhits htarget hreads
  simp only [ringRead, hmin, hread, le_refl, if_true]
  rfl

/-! ### Fetch (R312, R317) -/

/-- The queue whose turn it is takes the entry whose head and whose whole can be read. -/
theorem fetchEntry_takes {s v w : State} {q : BitVec 13} {x : Queue} {hb b : List Byte} (hqueue : findQueue s q = some x)
    (hturn : turnOf s = some (x.rider, q)) (hport : ∀ h, s.port.heldCmds.head? = some h → mayStart s h.c = false)
    (hhead : ringRead (takeTurn x.rider q s) x x.sqHead.toNat 32 = (.data hb, v))
    (hform : entryBad x (fieldB hb 0x0C 2) (fieldB hb 0x10 4) = false)
    (htail : x.sqHead.toNat + entrySlots (fieldB hb 0x0C 2) (fieldB hb 0x10 4) ≤ x.sqTail.toNat)
    (hwhole : ringRead v x x.sqHead.toNat (32 + fieldB hb 0x0C 2 + fieldB hb 0x10 4) = (.data b, w)) :
    fetchEntry q s = takeEntry x (entrySlots (fieldB hb 0x0C 2) (fieldB hb 0x10 4)) b w := by
  have hfree : (s.port.heldCmds.head?).any (fun h => mayStart s h.c) = false := by
    rcases hheld : s.port.heldCmds.head? with _ | h
    · rfl
    · exact hport h hheld
  have htail' : ¬ x.sqTail.toNat < x.sqHead.toNat + entrySlots (fieldB hb 0x0C 2) (fieldB hb 0x10 4) := Nat.not_lt.mpr htail
  simp [fetchEntry, hqueue, hturn, hfree, hhead, hform, htail', hwhole]

theorem sqHead_lt_of_mayFetch {s : State} {x : Queue} (h : mayFetch s x = true) : x.sqHead.toNat < x.sqTail.toNat := by
  simp only [mayFetch, Bool.and_eq_true, decide_eq_true_eq] at h
  exact h.1.2

theorem queueFetchCompletes : QueueFetchCompletes := by
  intro s q x hup hqueue hxq hturn hport
  refine ⟨?line, ?any⟩
  case any =>
    intro hb b v w hv hhead hform htail hw hwhole
    exact congrArg _ ((whenUp_of_running hup _).trans (fetchEntry_takes hqueue hturn hport (by rw [← hhead, ← hv]) hform htail
      (by rw [← hwhole, ← hw])))
  case line =>
    intro va opa off pl yl hmay hring hline hva hhits htarget _ hreads hpl hyl hform hlen
    obtain rfl : x.q = q := hxq
    subst hva hpl hyl
    have haligned := congrArg BitVec.toNat hline
    rw [BitVec.toNat_umod] at haligned
    have hread (s' : State) (n : Nat) (hpos : 0 < n) (hn : n ≤ 64)
        (helse : ∃ rota trip, s' = { s with rota := rota, trip := trip }) :
        ringRead s' x x.sqHead.toNat n = (.data (held s off n), meterRd x.rider n s') := by
      obtain ⟨rota, trip, rfl⟩ := helse
      exact ringRead_line hpos hn hring haligned (hits_elsewhere rota trip s.fab hhits) htarget
        (reads_elsewhere rota trip s.fab (reads_of_le hreads hn))
    have hslots : entrySlots (fieldB (held s off 32) 0x0C 2) (fieldB (held s off 32) 0x10 4) = 1 := by
      unfold entrySlots
      omega
    have htail := sqHead_lt_of_mayFetch hmay
    have hfetch := fetchEntry_takes hqueue hturn hport
      (hread (takeTurn x.rider x.q s) 32 (by omega) (by omega) ⟨_, _, rfl⟩) hform (by rw [hslots]; omega)
      (hread _ _ (by omega) hlen ⟨_, _, rfl⟩)
    rw [hslots] at hfetch
    exact congrArg _ ((whenUp_of_running hup _).trans hfetch)

/-! ### Requests held under a newer epoch (R37) -/

theorem epochHoldTimeout_ends {s : State} {h : Held} (hup : s.phase = .running)
    (hfind : s.held.find? (fun x => x.id == h.id && decide (epochNow s < x.epoch)) = some h) :
    exec (.epochHoldTimeout h.id) s = .next (endHeld h .timeout { s with held := dropIf s.held (·.id == h.id) }) := by
  have hexec : exec (.epochHoldTimeout h.id) s = execEpochHoldTimeout h.id s := rfl
  rw [hexec, execEpochHoldTimeout, whenUp_of_running hup, hfind]

/-! ### `RIDER_RESET` (R62, R321) -/

/-- A reset that finds its rider drained clears it at once; else it waits as a job. -/
theorem bodyRiderReset_of_entry {c : Cmd} {u : State} (hentry : (riderEntry u c.h.r).isSome = true) :
    bodyRiderReset c u = Eff.later (addJob (tryReset (openOf 0x019 c) c.h.r { u with resets := u.resets ++ [c.h.r] })) := by
  have hsome : (riderEntry u c.h.r).isNone = false := by simpa using hentry
  simp only [bodyRiderReset, hsome, Bool.false_eq_true, if_false]

/-- Of the jobs, the limit of a rider's reset takes that reset away and leaves what follows. -/
theorem resetLimit_of_first {s : State} {r : BitVec 6} {o : Open} {js : List Job} (hjobs : s.jobs = .reset o r :: js)
    (honly : ∀ p, Job.reset p r ∉ js) :
    resetLimit r s = clearRider o r (forceOpen { rider := some r, keep := o } .timeout { s with jobs := js }) := by
  simp only [resetLimit, hjobs, List.findSome?_cons, if_true, List.filter_cons, ne_eq, not_true_eq_false, decide_false,
    Bool.false_eq_true, if_false]
  refine congrArg (fun l => clearRider o r (forceOpen { rider := some r, keep := o } .timeout { s with jobs := l }))
    (List.filter_eq_self.mpr fun j hj => ?_)
  split
  · next p x =>
      have hne : x ≠ r := by
        rintro rfl
        exact honly p hj
      simpa using hne
  · rfl

/-- Settles O43: each row acts on one held request, one reset or one queue; a fetch reads its entry through the micro-TLB of
the queue, which leaves nothing but the counts of the meters. -/
theorem holdsAndResetsComplete : Obligations.HoldsAndResetsComplete := by
  refine ⟨fun s h hup hfind => ⟨?timeout, ?fence⟩,
    fun c s u hrun => ⟨fun hnone => ?unknown, fun hsome => ⟨fun hopen => ?waits, fun hdone => ?clears⟩⟩,
    fun s r o js hup hjobs honly => ?limit, fun r s => ?xlat, queueFetchCompletes⟩
  case timeout => exact epochHoldTimeout_ends hup hfind
  case fence =>
    intro src dst txn seq hwhat
    rw [epochHoldTimeout_ends hup hfind]
    simp only [endHeld, hwhat]
    rfl
  case unknown =>
    have hbody : bodyRiderReset c u = Eff.stat .badParam u := by simp only [bodyRiderReset, hnone, if_true]
    exact congrArg _ (runPacket_stat hrun hbody)
  case waits =>
    refine congrArg _ (runPacket_later hrun ((bodyRiderReset_of_entry hsome).trans (congrArg _ ?_)))
    simp only [tryReset, hopen, Bool.false_eq_true, if_false, addJob]
  case clears =>
    refine congrArg _ (runPacket_later hrun ((bodyRiderReset_of_entry hsome).trans (congrArg _ ?_)))
    simp only [tryReset, hdone, if_true, addJob]
  case limit => exact congrArg _ ((whenUp_of_running hup _).trans (resetLimit_of_first hjobs honly))
  case xlat =>
    refine ⟨fun x hx => ?_, fun x hx => ?_, rfl⟩
    · simpa using (mem_dropIf.mp hx).2
    · simpa using (mem_dropIf.mp hx).2

/-! ### Extents at run time (R41 to R44, R307) -/

/-- An update that keeps the index and changes nothing the second time, on each of a list of extents. -/
theorem forExts_updExt {g : Extent → Extent} (hidx : ∀ x, (g x).idx = x.idx) (htwice : ∀ x, g (g x) = g x)
    (idxs : List Nat) (s : State) : forExts idxs s (fun i s => updExt s i g) = { s with store := { s.store with
      extents := s.store.extents.map fun x => if x.idx ∈ idxs then g x else x } } := by
  induction idxs generalizing s with
  | nil => simp [forExts]
  | cons i is ih =>
    have hstep : forExts (i :: is) s (fun i s => updExt s i g) = forExts is (updExt s i g) (fun i s => updExt s i g) := rfl
    have hmap : ((updExt s i g).store.extents.map fun x => if x.idx ∈ is then g x else x) =
        s.store.extents.map fun x => if x.idx ∈ i :: is then g x else x := by
      simp only [updExt, updIf, List.map_map]
      refine List.map_congr_left fun x _ => ?_
      by_cases hi : x.idx = i <;> by_cases his : x.idx ∈ is <;> simp_all
    rw [hstep, ih, hmap]
    rfl

theorem extentAssign_live {c : Cmd} {s u : State} {idxs : List Nat} (hrun : runsIn 0x100 c s = some u)
    (hform : runForm (c.p 0) 16384 = true) (hzero : bits (c.p 0) 32 32 = 0) (hnamed : namedExts u c = some idxs)
    (hturn : revoking u (openOf 0x100 c) idxs = false) :
    exec (.extentAssign c) s = .next (replied 0x100 c .ok 0 [] { u with store := { u.store with
      extents := u.store.extents.map fun x => if x.idx ∈ idxs then { x with live := true } else x } }) := by
  refine congrArg _ (runPacket_data hrun ?_)
  simp only [bodyExtentAssign, hform, hzero, hnamed, hturn, forExts_updExt (g := fun x => { x with live := true })
    (fun _ => rfl) (fun _ => rfl)]
  rfl

/-- A revoke withdraws the extents at once, and then goes on as a job until it has returned (R42). -/
theorem extentRevoke_starts {c : Cmd} {s u : State} {idxs : List Nat} (hrun : runsIn 0x101 c s = some u)
    (hform : runForm (c.p 0) 16384 = true) (hzero : bits (c.p 0) 33 31 = 0) (hnamed : namedExts u c = some idxs)
    (hturn : revoking u (openOf 0x101 c) idxs = false) :
    exec (.extentRevoke c) s = .next (addJob (tryRevoke (openOf 0x101 c) idxs (bit (c.p 0) 32)
      (forExts idxs u fun i s => updExt s i fun x => { x with live := false }))) := by
  refine congrArg _ (runPacket_later hrun ?_)
  simp only [bodyExtentRevoke, hform, hzero, hnamed, hturn]
  rfl

/-! ### Scrubbing (R42 step 4, R336) -/

/-- Fill the frame of one page with zero, where it is in service. -/
def scrubPage (s : State) (p : Page) : State :=
  match p.home with
  | some f =>
    if pageFenced s f p.n then s
    else { s with store := { s.store with
        mem := memClear s.store.mem (f * 65536) 65536
        bad := dropIf s.store.bad fun b => b / 65536 == f
        soft := dropIf s.store.soft fun b => b / 65536 == f } }
  | none => s

theorem scrubExt_eq_foldl (i : Nat) (s : State) :
    scrubExt i s = (s.store.pages.filter fun p => extentOfPage p.n == i).foldl scrubPage s := rfl

theorem scrubPage_only (s : State) (p : Page) : ∃ m b sf,
    scrubPage s p = { s with store := { s.store with mem := m, bad := b, soft := sf } } := by
  unfold scrubPage
  split
  · split <;> exact ⟨_, _, _, rfl⟩
  · exact ⟨_, _, _, rfl⟩

/-- Which pages are fenced does not depend on what has been scrubbed. -/
theorem pageFenced_scrubPage (s : State) (p : Page) (f n : Nat) : pageFenced (scrubPage s p) f n = pageFenced s f n := by
  obtain ⟨m, b, sf, h⟩ := scrubPage_only s p
  rw [h]
  rfl

/-- A byte that is zero stays zero. -/
theorem memGet_scrubPage_zero {s : State} {a : Nat} (h : memGet s.store.mem a = 0) (p : Page) :
    memGet (scrubPage s p).store.mem a = 0 := by
  unfold scrubPage
  split
  · next f _ =>
      split
      · exact h
      · by_cases hin : f * 65536 ≤ a ∧ a < f * 65536 + 65536
        · exact memGet_memClear_in _ hin.1 hin.2
        · exact (memGet_memClear_out _ (by omega)).trans h
  · exact h

theorem memGet_scrubPage_home {s : State} {p : Page} {f n : Nat} (hhome : p.home = some f)
    (hup : pageFenced s f p.n = false) (hn : n < 65536) : memGet (scrubPage s p).store.mem (f * 65536 + n) = 0 := by
  simp only [scrubPage, hhome, hup, Bool.false_eq_true, if_false]
  exact memGet_memClear_in _ (by omega) (by omega)

theorem memGet_scrubPages_zero {s : State} {a : Nat} (h : memGet s.store.mem a = 0) (ps : List Page) :
    memGet (ps.foldl scrubPage s).store.mem a = 0 :=
  List.foldlRecOn (motive := fun t : State => memGet t.store.mem a = 0) ps _ h fun _ ht p _ => memGet_scrubPage_zero ht p

/-- Each page in service that is scrubbed reads zero. -/
theorem memGet_scrubPages_home {s : State} {ps : List Page} {p : Page} {f n : Nat} (hp : p ∈ ps)
    (hhome : p.home = some f) (hup : pageFenced s f p.n = false) (hn : n < 65536) :
    memGet (ps.foldl scrubPage s).store.mem (f * 65536 + n) = 0 := by
  induction ps generalizing s with
  | nil => simp at hp
  | cons r rs ih =>
    rcases List.mem_cons.mp hp with rfl | hp
    · exact memGet_scrubPages_zero (memGet_scrubPage_home hhome hup hn) rs
    · exact ih hp ((pageFenced_scrubPage s r f p.n).trans hup)

theorem scrubExt_only (i : Nat) (s : State) : scrubExt i s = { s with store := (scrubExt i s).store } := by
  have honly : ∃ st, scrubExt i s = { s with store := st } := by
    rw [scrubExt_eq_foldl]
    refine foldl_store_only (fun s p => ?_) _ s
    obtain ⟨m, b, sf, h⟩ := scrubPage_only s p
    exact ⟨_, h⟩
  obtain ⟨st, h⟩ := honly
  rw [h]

theorem extentCommandsComplete : ExtentCommandsComplete := by
  refine ⟨?assign, ?revoke, ?scrub, ?query⟩
  case assign => exact fun c s u idxs hrun hform hzero hnamed hturn =>
    ⟨_, extentAssign_live hrun hform hzero hnamed hturn, rfl⟩
  case revoke =>
    intro c s u idxs hrun hform hzero hnamed hturn v
    have hstart : exec (.extentRevoke c) s = .next (addJob (tryRevoke (openOf 0x101 c) idxs (bit (c.p 0) 32) v)) :=
      extentRevoke_starts hrun hform hzero hnamed hturn
    rw [hstart]
    refine ⟨fun hbusy => ?_, fun hquiet hlisted => ?_, fun hquiet hunlisted hheld htier hfrozen => ?_⟩
    · simp only [tryRevoke, hbusy, if_true, addJob]
    · simp only [tryRevoke, hquiet, List.isEmpty_eq_false_iff.mpr hlisted, Bool.false_eq_true, if_false, Bool.not_false, if_true]
    · simp only [tryRevoke, hquiet, hunlisted, hheld, htier, hfrozen, Bool.false_eq_true, if_false, List.isEmpty_nil,
        Bool.not_true, Bool.or_false, addJob]
  case scrub =>
    intro i v p f hp hext hhome hup
    refine ⟨fun n hn => ?_, scrubExt_only i v⟩
    rw [scrubExt_eq_foldl]
    exact memGet_scrubPages_home (List.mem_filter.mpr ⟨hp, by simpa using hext⟩) hhome hup hn
  case query =>
    intro c s u hrun hform hzero
    refine congrArg _ (runPacket_data hrun ?_)
    simp only [bodyExtentQuery, hform, hzero]
    rfl

/-! ### `LOSS_ACK` (R126) -/

theorem lossOf_rider (s : State) (r : BitVec 6) : (lossOf s r).rider = r := by
  unfold lossOf
  cases hfind : s.coh.losses.find? (·.rider = r) with
  | none => rfl
  | some l => simpa using List.find?_some hfind

/-- A rider's list that has been replaced is the one that was put. -/
theorem lossOf_setLoss {l : LossList} (s : State) : lossOf (setLoss l s) l.rider = l := by
  have hgone : (dropIf s.coh.losses (·.rider = l.rider)).find? (·.rider = l.rider) = none := by
    refine List.find?_eq_none.mpr fun k hk => ?_
    simpa using (mem_dropIf.mp hk).2
  simp [lossOf, setLoss, List.find?_append, hgone]

/-- A list whose numbers are all acknowledged has its highest number acknowledged. -/
theorem topSeq_acknowledged {es : List Loss} {through : Nat} (h : ∀ e ∈ es, e.seq ≤ through) :
    (!es.isEmpty && decide (through < topSeq es)) = false := by
  cases hlast : es.getLast? with
  | none => simp [List.getLast?_eq_none_iff.mp hlast]
  | some e =>
    have hle := h e (List.mem_of_getLast? hlast)
    simp [topSeq, hlast, hle]

/-- The state after the losses of an extent are acknowledged. -/
def acked (u : State) (r : BitVec 6) (idx : Nat) : State :=
  updExt (setLoss { lossOf u r with ents := dropIf (lossOf u r).ents fun e => extentOf e.line == idx } u) idx fun x =>
    { x with fenced := false, unlisted := 0 }

theorem ackExt_of_fenced {u : State} {r : BitVec 6} {idx through : Nat} {accept : Bool} {x : Extent}
    (hfind : findExt u idx = some x) (hreader : (extRun u x).any (·.reader r) = true) (hfenced : x.fenced = true)
    (haccept : x.unlisted ≠ 0 → accept = true) (hthrough : ∀ e ∈ extLosses u r idx, e.seq ≤ through) :
    ackExt u r idx through accept = Eff.ok (acked u r idx) := by
  have hlisted : (decide (x.unlisted ≠ 0) && !accept) = false := by
    by_cases h : x.unlisted = 0
    · simp [h]
    · simp [haccept h]
  simp only [ackExt, hfind, hreader, hfenced, hlisted, topSeq_acknowledged hthrough, Bool.not_true, Bool.false_eq_true,
    if_false, Bool.or_false, acked]

theorem extLosses_acked (u : State) (r : BitVec 6) (idx : Nat) : extLosses (acked u r idx) r idx = [] := by
  have hlist : lossOf (acked u r idx) r =
      { lossOf u r with ents := dropIf (lossOf u r).ents fun e => extentOf e.line == idx } := by
    have h := lossOf_setLoss (l := { lossOf u r with ents := dropIf (lossOf u r).ents fun e => extentOf e.line == idx }) u
    rw [show ({ lossOf u r with ents := dropIf (lossOf u r).ents fun e => extentOf e.line == idx } : LossList).rider = r
      from lossOf_rider u r] at h
    exact h
  rw [extLosses, hlist]
  refine List.filter_eq_nil_iff.mpr fun e he => ?_
  simpa using (mem_dropIf.mp he).2

/-- Only the extent that is acknowledged changes. -/
theorem extents_acked {u : State} {r : BitVec 6} {idx : Nat} :
    (∀ y ∈ (acked u r idx).store.extents, y.idx = idx → y.fenced = false ∧ y.unlisted = 0) ∧
      ∀ y ∈ u.store.extents, y.idx ≠ idx → y ∈ (acked u r idx).store.extents := by
  have hexts : (acked u r idx).store.extents =
      u.store.extents.map fun x => if x.idx == idx then { x with fenced := false, unlisted := 0 } else x := rfl
  rw [hexts]
  refine ⟨fun y hy hidx => ?_, fun y hy hidx => List.mem_map.mpr ⟨y, hy, by simp [hidx]⟩⟩
  obtain ⟨x, -, rfl⟩ := List.mem_map.mp hy
  by_cases hx : x.idx = idx
  · simp [hx]
  · simp [hx] at hidx

theorem lossAckCompletes : LossAckCompletes := by
  intro c s u hrun hmbz1 hmbz9 hmbz30 hmbz45 hmbz32
  refine ⟨fun hmode hpos hmax => ?read, fun idx x hmode hlocal hfind hreader hfenced haccept hthrough => ?ack⟩
  case read =>
    refine congrArg _ (runPacket_data hrun ?_)
    have hcount : (decide (bits (c.p 0) 32 13 = 0) || decide (4096 < bits (c.p 0) 32 13)) = false := by
      simp only [Bool.or_eq_false_iff, decide_eq_false_iff_not]
      omega
    simp only [bodyLossAck, hmbz1, hmbz9, hmbz30, hmbz45, hmbz32, hmode, hcount]
    rfl
  case ack =>
    have hbody : bodyLossAck c u = Eff.ok (acked u c.h.r idx) := by
      simp only [bodyLossAck, hmbz1, hmbz9, hmbz30, hmbz45, hmbz32, hmode, hlocal,
        ackExt_of_fenced hfind hreader hfenced haccept hthrough]
      rfl
    exact ⟨acked u c.h.r idx, congrArg _ (runPacket_data hrun hbody), rfl, extLosses_acked u c.h.r idx, extents_acked⟩

/-- Settles O44: an assignment and a revoke change `live` on the named extents alone, and an acknowledgement one rider's list
and one extent. -/
theorem extentsComplete : Obligations.ExtentsComplete := ⟨extentCommandsComplete, lossAckCompletes⟩

/-! ### Windows (R259) -/

/-- The base passes marked numbers until it meets one that is not marked. -/
theorem advance_passes_marked {n : Nat} {w : Window} (hlen : w.marked.length ≤ n) :
    (advance n w).base ∉ (advance n w).marked ∧
      ∃ m, m ≤ w.marked.length ∧ (advance n w).base = w.base + BitVec.ofNat 32 m ∧
        (∀ i, i < m → w.base + BitVec.ofNat 32 i ∈ w.marked) ∧ (advance n w).marked.length + m = w.marked.length := by
  induction n generalizing w with
  | zero =>
    have hnil : w.marked = [] := List.eq_nil_of_length_eq_zero (Nat.le_zero.mp hlen)
    exact ⟨by simp [advance, hnil], 0, by simp [advance]⟩
  | succ n ih =>
    by_cases hbase : w.base ∈ w.marked
    · have hstep : advance (n + 1) w = advance n { w with base := w.base + 1, marked := w.marked.erase w.base } := by
        simp [advance, hbase]
      have herase : (w.marked.erase w.base).length + 1 = w.marked.length := by
        have := List.length_pos_of_mem hbase
        rw [List.length_erase_of_mem hbase]
        omega
      obtain ⟨hstop, m, hm, hto, hpassed, hleft⟩ :=
        ih (w := { w with base := w.base + 1, marked := w.marked.erase w.base }) (by simp only; omega)
      rw [← hstep] at hstop hto hleft
      have hnext (i : Nat) : w.base + 1 + BitVec.ofNat 32 i = w.base + BitVec.ofNat 32 (i + 1) := by
        rw [BitVec.add_assoc, BitVec.ofNat_add, BitVec.add_comm (BitVec.ofNat 32 i)]
        rfl
      refine ⟨hstop, m + 1, ?_, hto.trans (hnext m), fun i hi => ?_, ?_⟩
      · simp only at hm
        omega
      · cases i with
        | zero => simpa using hbase
        | succ i => exact hnext i ▸ List.mem_of_mem_erase (hpassed i (by omega))
      · simp only at hleft
        omega
    · have hstep : advance (n + 1) w = w := by simp [advance, hbase]
      rw [hstep]
      exact ⟨hbase, 0, by simp⟩

theorem windowBase : WindowBase := fun _ _ hlen => advance_passes_marked hlen

/-- What finds an element finds it changed after an update that the test does not see. -/
theorem find?_updIf_self {α : Type} {p : α → Bool} {f : α → α} (hf : ∀ x, p (f x) = p x) (l : List α) :
    (updIf l p f).find? p = (l.find? p).map f := by
  induction l with
  | nil => rfl
  | cons x xs ih =>
    have hcons : updIf (x :: xs) p f = (if p x then f x else x) :: updIf xs p f := rfl
    rw [hcons]
    by_cases hx : p x = true
    · simp [hx, hf]
    · simp [hx, ih]

theorem findWin_updWin {s : State} {k : WKey} {w : Window} {f : Window → Window} (hf : ∀ w, (f w).key = w.key)
    (h : findWin s k = some w) : findWin (updWin k f s) k = some (f w) := by
  have hfind : findWin (updWin k f s) k = (findWin s k).map f := find?_updIf_self (fun x => by rw [hf]) s.fab.rx
  rw [hfind, h]
  rfl

/-! ### Arrival of a sequenced store (R259) -/

theorem withFlag_self {p : StorePkt} {b : Bool} (h : p.flagged = b) : { p with flagged := b } = p := by
  rw [← h]

theorem throughPort_of_up {s : State} {port : Fin 24} (hup : s.phase = .running) (hport : portUp s port.val = true)
    (f : State → State) : throughPort port s f = f s := by
  rw [throughPort, whenUp_of_running hup, if_pos hport]

theorem remoteStoreArrival_runs {s : State} {p : StorePkt} {port : Fin 24} (hup : s.phase = .running)
    (hport : portUp s port.val = true) (hplain : p.flagged = false) :
    exec (.remoteStoreArrival p port) s = .next (storeArrives p port s) := by
  have hexec : exec (.remoteStoreArrival p port) s =
      .next (throughPort port s (storeArrives { p with flagged := false } port)) := rfl
  rw [hexec, withFlag_self hplain, throughPort_of_up hup hport]

theorem flaggedStoreArrival_runs {s : State} {p : StorePkt} {port : Fin 24} (hup : s.phase = .running)
    (hport : portUp s port.val = true) (hflagged : p.flagged = true) :
    exec (.flaggedStoreArrival p port) s = .next (storeArrives p port s) := by
  have hexec : exec (.flaggedStoreArrival p port) s =
      .next (throughPort port s (storeArrives { p with flagged := true } port)) := rfl
  rw [hexec, withFlag_self hflagged, throughPort_of_up hup hport]

section Arrival
variable {s : State} {p : StorePkt} {port : Fin 24} {w : Window} (h : Arrives s p port w)
include h

theorem openWin_of_arrives : openWin p s = some (w, s) := by
  obtain ⟨hkept, hown, hpair⟩ := h.kept
  simp only [openWin, h.window, hkept, hown, decide_eq_false hpair, Bool.or_false, Bool.false_and, Bool.false_eq_true,
    if_false, Bool.not_false, if_true]

/-- A store under the epoch in force whose window is open is treated by its number. -/
theorem storeArrives_of_arrives : storeArrives p port s =
    if 2 ^ 31 ≤ seqDist w.base p.seq ∨ p.seq ∈ w.marked then
      sendAck (winKey s p) (updPort port.val (fun x => { x with dups := bumpSat x.dups 1 }) s)
    else if 4096 ≤ seqDist w.base p.seq then
      detect { Rec.blank 0x0015 with
        point := 0x0A, unit := unitPort port.val, source := srcFabric p.source, arg0 := p.source.setWidth 64
        arg1 := p.seq } s
    else if holdsStore s p then holdAt (some p.epoch) (.store p port) s
    else treatStore p port s := by
  have hwin : noWindow s p = false := by simp [noWindow, h.window]
  simp [storeArrives, h.mine, h.fresh, h.served, h.inEpoch, hwin, openWin_of_arrives h]

theorem storeArrives_of_fits (hfits : Fits s p w) : storeArrives p port s = treatStore p port s := by
  have hnear := hfits.near
  rw [storeArrives_of_arrives h, if_neg, if_neg (by omega), if_neg (by simp [hfits.notHeld])]
  rintro (hfar | hmarked)
  · omega
  · exact hfits.new hmarked

/-- A duplicate is acknowledged again, and counted at its port (R261). -/
theorem storeArrives_duplicate (hdup : 2 ^ 31 ≤ seqDist w.base p.seq ∨ p.seq ∈ w.marked) :
    storeArrives p port s = emit
      (.seqAck (BitVec.ofNat 8 (if (winKey s p).2 then s.twinNo else s.me)) w.source w.base w.marked w.refused)
      (updPort port.val (fun x => { x with dups := bumpSat x.dups 1 }) s) := by
  have hwin : findWin (updPort port.val (fun x => { x with dups := bumpSat x.dups 1 }) s) (winKey s p) = some w := h.window
  rw [storeArrives_of_arrives h, if_pos hdup, sendAck, hwin]
  rfl

end Arrival

/-! ### Applying a store at its home (R147, R151) -/

theorem homeWriteN_line {s t : State} {q : Rq} {off : Nat} {bs : List Byte} (hpos : 0 < bs.length)
    (hline : off % 64 + bs.length ≤ 64) (hwrite : homeWrite s q off (allBytes bs) false = (.done, t)) :
    homeWriteN s q off bs = (.done, bs.length, t) := by
  simp [homeWriteN, piecesOf_line hpos hline, hwrite]

/-- In a module that is awake and does not relay, a store to its own store is written at its home. -/
theorem applyStore_of_off {s : State} {p : StorePkt} {r : BitVec 6} {o : Nat} (hrider : storeRider s p = .inr r)
    (hawake : s.power.st ≠ .kickstand) (hhere : target s p.opa = .off o) (hpair : s.pair.st ≠ 7) :
    applyStore p s = homeWriteN s (storeRq p r) o p.data := by
  simp only [applyStore, hrider, hhere, if_neg hawake, if_neg hpair]
  rfl

theorem applyStore_of_applies {s : State} {p : StorePkt} {r : BitVec 6} {o f : Nat} (h : Applies s p r o f)
    (hpair : s.pair.st ≠ 7) : applyStore p s = (.done, p.data.length, written (storeRq p r) o f p.data s) := by
  obtain ⟨fr, x, hwrites⟩ := h.lands
  have hdone : homeWriteN s (storeRq p r) o p.data = (.done, p.data.length, written (storeRq p r) o f p.data s) :=
    homeWriteN_line h.line.1 h.line.2 (homeWrite_of_writes hwrites)
  exact (applyStore_of_off h.rider h.awake h.here hpair).trans hdone

/-- The windows hold back no write of a store. -/
theorem applies_elsewhere {s : State} {p : StorePkt} {r : BitVec 6} {o f : Nat} (h : Applies s p r o f) (fab : Fabric) :
    Applies { s with fab := fab } p r o f := by
  obtain ⟨fr, x, hwrites⟩ := h.lands
  exact ⟨h.rider, h.awake, h.here, ⟨fr, x, writes_elsewhere s.rota s.trip fab hwrites⟩, h.line⟩

theorem treatStore_plain_done {s t : State} {p : StorePkt} {port : Fin 24} {n : Nat} (hplain : p.flagged = false)
    (happly : applyStore p s = (.done, n, t)) :
    treatStore p port s = tryFlags (winKey t p) 4096 (finishStore p none t) := by
  simp [treatStore, hplain, happly]

theorem treatStore_plain_refused {s t : State} {p : StorePkt} {port : Fin 24} {n : Nat} {st : Status}
    (hplain : p.flagged = false) (happly : applyStore p s = (.fail st, n, t)) :
    treatStore p port s = tryFlags (winKey t p) 4096 (finishStore p (some st) t) := by
  simp [treatStore, hplain, happly]

/-- The flagged store that the base has reached is applied when no number that it covers was refused. -/
theorem tryFlags_applies {s t : State} {k : WKey} {w : Window} {p : StorePkt} {port : Fin 24} {n m : Nat}
    (hwin : findWin s k = some w) (hnext : w.flagged.find? (fun f => f.1.seq = w.base) = some (p, port))
    (hserved : windowStuck s p.source = false) (hform : flaggedForm p.opa p.data.length = true)
    (hcover : coverRefusal w p = none) (happly : applyStore p s = (.done, m, t)) :
    tryFlags k (n + 1) s = tryFlags k n (finishStore p none
      (updWin k (fun w => { w with flagged := dropIf w.flagged (·.1.seq = p.seq) }) t)) := by
  simp [tryFlags, hwin, hnext, hserved, hform, hcover, happly]

/-- A window none of whose flagged stores the base has reached stands as it is. -/
theorem tryFlags_of_none_reached {s : State} {k : WKey} {w : Window} (hwin : findWin s k = some w)
    (hnone : w.flagged.find? (fun f => f.1.seq = w.base) = none) (n : Nat) : tryFlags k n s = s := by
  cases n with
  | zero => rfl
  | succ n => simp [tryFlags, hwin, hnone]

theorem storesArrive : StoresArrive := by
  intro s p port w h
  refine ⟨fun hplain hfits => ⟨fun r o f happlies => ?lands, fun r o n t hrider hawake hhere hpair hwrite => ?landsLines,
    fun st hrider => ?refused⟩,
    fun hflagged hfits hempty => ⟨fun hahead => ?waits, fun r o f hbase hform hcover happlies => ?reached⟩,
    fun hdup => ?duplicate⟩
  case lands =>
    rw [remoteStoreArrival_runs h.up h.port hplain, storeArrives_of_fits h hfits,
      treatStore_plain_done hplain (applyStore_of_applies happlies h.kept.2.2)]
    rfl
  case landsLines =>
    have happly : applyStore p s = (.done, n, t) := (applyStore_of_off hrider hawake hhere hpair).trans hwrite
    rw [remoteStoreArrival_runs h.up h.port hplain, storeArrives_of_fits h hfits, treatStore_plain_done hplain happly]
  case refused =>
    have happly : applyStore p s = (.fail st, 0, s) := by simp [applyStore, hrider]
    rw [remoteStoreArrival_runs h.up h.port hplain, storeArrives_of_fits h hfits, treatStore_plain_refused hplain happly]
  case waits =>
    have hwin : findWin (updWin (winKey s p) (fun w => { w with flagged := w.flagged ++ [(p, port)] }) s) (winKey s p) =
        some { w with flagged := w.flagged ++ [(p, port)] } := findWin_updWin (fun _ => rfl) h.window
    refine ⟨updWin (winKey s p) (fun w => { w with flagged := w.flagged ++ [(p, port)] }) s, _, ?_, rfl, hwin, by simp, rfl⟩
    rw [flaggedStoreArrival_runs h.up h.port hflagged, storeArrives_of_fits h hfits, treatStore, if_pos hflagged,
      tryFlags_of_none_reached hwin (by simp [hempty, hahead])]
  case reached =>
    have hwin : findWin (updWin (winKey s p) (fun w => { w with flagged := w.flagged ++ [(p, port)] }) s) (winKey s p) =
        some { w with flagged := w.flagged ++ [(p, port)] } := findWin_updWin (fun _ => rfl) h.window
    rw [flaggedStoreArrival_runs h.up h.port hflagged, storeArrives_of_fits h hfits, treatStore, if_pos hflagged]
    exact congrArg _ (tryFlags_applies (port := port) hwin (by simp [hempty, hbase]) h.served hform hcover
      (applyStore_of_applies (applies_elsewhere happlies _) h.kept.2.2))
  case duplicate =>
    refine ⟨_, fun hplain => remoteStoreArrival_runs h.up h.port hplain,
      fun hflagged => flaggedStoreArrival_runs h.up h.port hflagged, ?_⟩
    rw [storeArrives_duplicate h hdup]
    exact ⟨rfl, rfl⟩

/-! ### Epochs at ingress (R37) -/

section Epochs
variable {s : State} {p : StorePkt} {port : Fin 24} (hfresh : storeHeld s p = false)
  (hserved : windowStuck s p.source = false) (hmine : passesOn s p = false)
include hfresh hserved hmine

theorem storeArrives_of_older (hold : p.epoch < epochNow s) : storeArrives p port s = staleStore p s := by
  simp [storeArrives, hmine, hfresh, hserved, hold]

theorem storeArrives_of_newer (hnew : epochNow s < p.epoch) :
    storeArrives p port s = holdAt (some p.epoch) (.store p port) s := by
  have hnotold : ¬ p.epoch < epochNow s := BitVec.not_lt.mpr (BitVec.le_of_lt hnew)
  simp [storeArrives, hmine, hfresh, hserved, hnew, hnotold]

end Epochs

/-! ### Acknowledgements at the sender (R258, R261) -/

theorem dropStore_of_no_tiles {s : State} (htiles : s.tiles = []) (t : BitVec 10) (c : BitVec 4) (seq : Nat) :
    dropStore t c seq s = s := by
  have hupd : updCtx t c (fun k => { k with stores := dropIf k.stores (·.seq == seq) }) s = s := by
    simp only [updCtx, updTile, updIf, htiles, List.map_nil]
    rw [← htiles]
  have hctx : findCtx s t c = none := by simp [findCtx, findTile, htiles]
  simp [dropStore, hupd, afterStores, hctx]

/-- In a module without loaded tiles, a store that has landed ends without more. -/
theorem endUnacked_landed_of_no_tiles {s : State} (htiles : s.tiles = []) (u : Unacked) : endUnacked u none s = s := by
  unfold endUnacked
  split <;> simp_all [dropStore_of_no_tiles]

theorem failSource_of_no_tiles {s : State} (htiles : s.tiles = []) (source : BitVec 24) (st : Status) :
    failSource source st s = { s with
      eng := { s.eng with ops := updIf s.eng.ops (fun o => opSource s o.id = source && o.fault.isNone) fun o =>
        { o with fault := some (st, o.here) } } } := by
  simp only [failSource, htiles, List.flatMap_nil, List.foldl_nil]

/-- In a module without loaded tiles an acknowledgement takes what it covers off its channel and ends it. -/
theorem ackArrives_of_no_tiles {s : State} {source : BitVec 24} {dst : ModuleRef} {base : BitVec 32}
    {landed : List (BitVec 32)} {refused : List (BitVec 32 × Status)} {c : Chan} {t : State}
    (hchan : findChan s source dst.peloton.toNat dst.module.toNat = some c)
    (hend : (c.unacked.filter (ackCovers base landed refused)).foldl
      (fun s u => endUnacked u (lookupK refused u.pkt.seq) s)
      (setChan { c with unacked := c.unacked.filter fun u => !ackCovers base landed refused u } s) = t)
    (htiles : t.tiles = []) : ackArrives source dst base landed refused s = t := by
  have hleft : (c.unacked.partition (ackCovers base landed refused)).2 =
      c.unacked.filter fun u => !ackCovers base landed refused u := by
    rw [List.partition_eq_filter_filter]
    rfl
  have hdone : (c.unacked.partition (ackCovers base landed refused)).1 = c.unacked.filter (ackCovers base landed refused) := by
    rw [List.partition_eq_filter_filter]
  simp only [ackArrives, hchan, hleft, hdone, hend, htiles, List.foldl_nil]

theorem ackArrives_landed {s : State} {source : BitVec 24} {dst : ModuleRef} {base : BitVec 32}
    {landed : List (BitVec 32)} {c : Chan} (hchan : findChan s source dst.peloton.toNat dst.module.toNat = some c)
    (htiles : s.tiles = []) : ackArrives source dst base landed [] s =
      setChan { c with unacked := c.unacked.filter fun u => !ackCovers base landed [] u } s := by
  refine ackArrives_of_no_tiles hchan ?_ htiles
  have hall (us : List Unacked) (v : State) (hv : v.tiles = []) :
      us.foldl (fun s u => endUnacked u (lookupK [] u.pkt.seq) s) v = v :=
    List.foldlRecOn (motive := fun t => t = v) us _ rfl fun t ht u _ => by
      subst ht
      exact endUnacked_landed_of_no_tiles hv u
  exact hall _ _ htiles

theorem ackArrives_refused {s : State} {source : BitVec 24} {dst : ModuleRef} {base : BitVec 32}
    {landed : List (BitVec 32)} {c : Chan} {u : Unacked} {st : Status}
    (hchan : findChan s source dst.peloton.toNat dst.module.toNat = some c) (htiles : s.tiles = [])
    (hone : c.unacked = [u]) (hop : u.done = none) :
    ackArrives source dst base landed [(u.pkt.seq, st)] s =
      failSource u.pkt.source st
        (setChan { c with unacked := c.unacked.filter fun v => !ackCovers base landed [(u.pkt.seq, st)] v } s) := by
  have hcovers : ackCovers base landed [(u.pkt.seq, st)] u = true := by simp [ackCovers]
  refine ackArrives_of_no_tiles hchan ?_ ?_
  · simp [hone, hcovers, lookupK, endUnacked, hop]
  · rw [failSource_of_no_tiles (by exact htiles)]
    exact htiles

theorem sendAck_of_findWin {s : State} {k : WKey} {w : Window} (h : findWin s k = some w) : sendAck k s = { s with
    out := s.out ++ [.seqAck (BitVec.ofNat 8 (if k.2 then s.twinNo else s.me)) w.source w.base w.marked w.refused] } := by
  simp only [sendAck, h]
  rfl

theorem sendAck_of_no_window {s : State} {k : WKey} (h : findWin s k = none) : sendAck k s = s := by
  simp only [sendAck, h]

/-! ### Fence requests (R264) -/

section Fences
variable {s : State} {source : BitVec 16} {dst : BitVec 6} {txn seq epoch : BitVec 32} {b : Bool} {x : Route}
  (hside : fenceSide s dst = some b) (hsource : sourceIn (sideRoutes s b) source = some x)
include hside hsource

theorem fenceArrives_of_older (hold : epoch < epochNow s) :
    fenceArrives source dst txn seq epoch s = emit (.fenceCmp source txn .staleMap) s := by
  simp [fenceArrives, hside, hsource, hold]

/-- Under the epoch in force, or a newer one, a request that need not wait is answered. -/
theorem fenceArrives_of_current (hnew : epochNow s ≤ epoch) (hpair : s.pair.st ≠ 7) :
    fenceArrives source dst txn seq epoch s =
      if fenceWaits s x b source seq epoch then holdAt (some epoch) (.fence source dst txn seq) s
      else emit (.fenceCmp source txn (fenceStatus s b source seq)) s := by
  have hnotold : ¬ epoch < epochNow s := BitVec.not_lt.mpr hnew
  simp only [fenceArrives, hside, hsource, if_neg hnotold, if_neg hpair]

end Fences

/-! ### The discard order and retention (R259, R263) -/

theorem discardOrder_discards {s : State} (hup : s.phase = .running) (source : Sender) (frm : BitVec 6) :
    ∃ t, exec (.discardOrder source frm) s = .next t ∧ t = { s with fab := t.fab, held := t.held, out := t.out } ∧
      t.out = s.out ++ [.discardAck frm source] ∧
      (∀ w ∈ t.fab.rx, w.key = (source, false) → w.flagged = [] ∧ w.dropped = true) ∧
      ∀ h ∈ t.held, ∀ p q, h.what = .store p q → winKey s p ≠ (source, false) := by
  refine ⟨_, congrArg Host.Outcome.next (whenUp_of_running hup _), rfl, rfl, fun w hw hkey => ?_, fun h hh p q hwhat hkey => ?_⟩
  · obtain ⟨v, -, rfl⟩ := List.mem_map.mp hw
    by_cases hv : v.key = (source, false)
    · simp [hv]
    · simp [hv] at hkey
  · have hkept := (mem_dropIf.mp hh).2
    rw [hwhat] at hkept
    exact of_decide_eq_false hkept hkey

/-- A window without a marked number, a flagged store or a held one is closed. -/
theorem retireWin_closes {s : State} {k : WKey} {w : Window} (hwin : findWin s k = some w) (hmarked : w.marked = [])
    (hflagged : w.flagged = []) (hheld : s.held = []) : retireWin k s = { s with fab := { s.fab with
      rx := dropIf s.fab.rx (·.key = k), past := dropIf s.fab.past (·.key = k) ++ [w] } } := by
  simp [retireWin, hwin, hmarked, hflagged, hheld]

theorem retireWin_of_no_window {s : State} {k : WKey} (h : findWin s k = none) : retireWin k s = s := by
  simp only [retireWin, h]

/-- No window is found among fewer. -/
theorem find?_dropIf_none {α : Type} {l : List α} {p d : α → Bool} (h : l.find? p = none) : (dropIf l d).find? p = none :=
  List.find?_eq_none.mpr fun x hx => List.find?_eq_none.mp h x (mem_dropIf.mp hx).1

/-! ### The end-to-end limit (R263) -/

theorem limitEnds_of_channel {s : State} {source : BitVec 24} {dst : ModuleRef} {c : Chan} (hredirect : s.redirect = [])
    (hchan : findChan s source dst.peloton.toNat dst.module.toNat = some c) (hopen : c.unacked ≠ []) :
    limitEnds source dst none s = closeChan c s := by
  simp [limitEnds, hredirect, hchan, hopen]

theorem limitEnds_of_load {s : State} {source : BitVec 24} {dst : ModuleRef} {txn : BitVec 32} {x : RLoad}
    (hredirect : s.redirect = [])
    (hload : s.fab.loads.find? (fun (x : RLoad) => x.txn = txn && loadTo x dst && loadSource s x.by_ = source) = some x) :
    limitEnds source dst (some txn) s =
      closeChan ((findChan (failLoad x .timeout s) source dst.peloton.toNat dst.module.toNat).getD
        (Chan.open_ source dst.peloton dst.module)) (failLoad x .timeout s) := by
  simp only [limitEnds, hredirect, List.any_nil, Bool.and_false, Bool.false_eq_true, if_false, hload]

/-! ### Gateways (R265) -/

theorem closeFrame_sends {g : GFrame} {s : State} (hrecords : g.records ≠ []) : ∃ port,
    (closeFrame g s).out = s.out ++ [.gatewayFrame g.peloton g.dst port g.records] := by
  have hne : g.records.isEmpty = false := List.isEmpty_eq_false_iff.mpr hrecords
  simp only [closeFrame, hne, Bool.false_eq_true, if_false]
  exact ⟨_, rfl⟩

/-- A block that one load waits for serves it. -/
theorem gatewayBlockRead_serves {s : State} {opa : Word} {data : List Byte} {status : Status} {g : GBlock} {a : Access}
    {n : Nat} {sd : BitVec 5} {cached : Bool} {k : Ctx} (hup : s.phase = .running)
    (hblock : s.fab.gblocks.find? (·.block = blockOf opa) = some g) (hone : g.waiting = [a])
    (hload : a.kind = .load n sd cached) (hctx : findCtx s a.tile a.ctx = some k) (hwaits : k.block = .access a true)
    (hlines : oneLine a.va n = false) : exec (.gatewayBlockRead opa data status) s = .next
      (remoteLoad a n sd cached { data := sliceB data (a.va.toNat % 4096) n, status := status }
        { s with fab := { s.fab with gblocks := dropIf s.fab.gblocks (·.block = blockOf opa) } }) := by
  refine congrArg _ ((whenUp_of_running hup _).trans ?_)
  have hctx' : findCtx { s with fab := { s.fab with gblocks := dropIf s.fab.gblocks (·.block = blockOf opa) } } a.tile a.ctx =
    some k := hctx
  simp only [hblock, hone, hload, hlines, hctx', hwaits, List.foldl_cons, List.foldl_nil, Option.map_some, if_true,
    Bool.false_eq_true, if_false]

theorem fabricControl : FabricControl := by
  intro s hup
  have hrun (f : State → State) : whenUp s f = f s := whenUp_of_running hup f
  refine ⟨?epochs, ?seqAck, ?seqAckTimer, ?fenceReq, discardOrder_discards hup, ?channelLimit, ?loadLimit, ?retention,
    fun _ _ => rfl, ?gatewayFrame, ?gatewayBlockRead, ?frameAge⟩
  case epochs =>
    intro p port hport hfresh hserved hplain hmine
    rw [remoteStoreArrival_runs hup hport hplain]
    exact ⟨fun hold => congrArg _ (storeArrives_of_older hfresh hserved hmine hold),
      fun hnew => congrArg _ (storeArrives_of_newer hfresh hserved hmine hnew)⟩
  case seqAck =>
    intro c source peloton module base landed refused hchan htiles
    refine ⟨_, rfl, ?_, ?_⟩
    · rintro rfl
      exact congrArg _ ((hrun _).trans (ackArrives_landed hchan htiles))
    · rintro u st hone hop rfl
      exact congrArg _ ((hrun _).trans ((ackArrives_refused hchan htiles hone hop).trans
        (failSource_of_no_tiles (s := setChan _ s) htiles _ _)))
  case seqAckTimer =>
    intro source w hown htwin
    have htwin' : findWin (sendAck (source, false) s) (source, true) = none := by
      rw [sendAck_of_findWin hown]
      exact htwin
    exact congrArg _ ((hrun _).trans ((sendAck_of_no_window htwin').trans (sendAck_of_findWin hown)))
  case fenceReq =>
    intro source dst txn seq epoch b x hside hsource
    refine ⟨fun hold => congrArg _ ((hrun _).trans (fenceArrives_of_older hside hsource hold)), fun hnew hpair => ?_⟩
    have harrives := (hrun (fenceArrives source dst txn seq epoch)).trans
      (fenceArrives_of_current (txn := txn) hside hsource hnew hpair)
    refine ⟨fun hhold hmay hready => congrArg _ (harrives.trans ?_), fun hready => congrArg _ (harrives.trans ?_)⟩
    · exact if_neg (by simp [fenceWaits, hhold, hmay, hready])
    · exact if_pos (by simp [fenceWaits, hready])
  case channelLimit =>
    intro source peloton module c hredirect hchan hopen
    exact congrArg _ ((hrun _).trans (limitEnds_of_channel (dst := ⟨peloton, module⟩) hredirect hchan hopen))
  case loadLimit =>
    rintro source peloton module txn x v hredirect hload rfl
    exact congrArg _ ((hrun _).trans (limitEnds_of_load hredirect hload))
  case retention =>
    intro source w hown htwin hmarked hflagged hheld
    have htwin' : findWin (retireWin (source, false) s) (source, true) = none := by
      rw [retireWin_closes hown hmarked hflagged hheld]
      exact find?_dropIf_none htwin
    exact congrArg _ ((hrun _).trans ((retireWin_of_no_window htwin').trans
      (retireWin_closes hown hmarked hflagged hheld)))
  case gatewayFrame =>
    intro frm port p hport ps
    exact congrArg Host.Outcome.next (throughPort_of_up hup hport _)
  case gatewayBlockRead =>
    intro opa data status g hblock
    refine ⟨fun hnone => congrArg _ ((hrun _).trans ?_), fun a n sd cached k hone hload hctx hwaits hlines =>
      gatewayBlockRead_serves hup hblock hone hload hctx hwaits hlines⟩
    simp only [hblock, hnone, List.foldl_nil]
  case frameAge =>
    intro peloton module g hframe
    have hnamed : g.peloton = peloton ∧ g.dst = module := by simpa using List.find?_some hframe
    refine ⟨congrArg _ ((hrun _).trans (by simp only [hframe])), fun hrecords => ?_⟩
    obtain ⟨port, hsent⟩ := closeFrame_sends (s := s) hrecords
    exact ⟨port, by rw [hsent, hnamed.1, hnamed.2]⟩

/-- Settles O52: a store that fits its window is applied by one write at its home, the base stops at the first number that is
not marked, and each control row acts on one window, channel, load or frame. -/
theorem sequencedStoresComplete : Obligations.SequencedStoresComplete := ⟨storesArrive, windowBase, fabricControl⟩

end Sys2Proof.Proofs

/-! Address translation: the checks of a table entry, the entry that a walk reads next, writes of table entries at their
home, and the commands that set, map and unmap a tree. -/

namespace Sys2Proof.Proofs

open Sys2Proof.Machine Sys2Proof.Claims Sys2Proof.Laws

/-! ### The checks of a table entry (R49, R50, R55) -/

theorem checkEntry_of_invalid {e : Word} (hv : bit e 0 = false) (va lvl : Nat) (write : Bool) :
    checkEntry e va lvl write = .fault 0x3 := by
  simp [checkEntry, hv]

section Leaf
variable {e : Word} {lvl : Nat} (hv : bit e 0 = true) (hleaf : bit e 1 = true)
include hv hleaf

theorem checkEntry_leaf_of_reserved (hres : leafReserved e lvl = true) (va : Nat) (write : Bool) :
    checkEntry e va lvl write = .fault 0x4 := by
  simp [checkEntry, hv, hleaf, hres]

theorem checkEntry_leaf_of_upper_level (hres : leafReserved e lvl = false) (hlvl : 3 ≤ lvl) (va : Nat) (write : Bool) :
    checkEntry e va lvl write = .fault 0x5 := by
  simp [checkEntry, hv, hleaf, hres, hlvl]

/-- A leaf that passes the checks of its form is asked for the permission of the access last. -/
theorem checkEntry_leaf_of_aligned {va : Nat} (hres : leafReserved e lvl = false) (hlvl : lvl < 3)
    (halign : leafAligned e va lvl = true) (write : Bool) :
    checkEntry e va lvl write = if (if write then bit e 3 else bit e 2) then .leaf else .fault 0x9 := by
  have hlow : ¬ 3 ≤ lvl := Nat.not_le.mpr hlvl
  cases write
  · cases hr : bit e 2 <;> simp [checkEntry, hv, hleaf, hres, hlow, halign, hr]
  · cases hw : bit e 3 <;> simp [checkEntry, hv, hleaf, hres, hlow, halign, hw]

end Leaf

theorem checkEntry_table {e : Word} {lvl : Nat} (hv : bit e 0 = true) (htable : bit e 1 = false)
    (hhigh : bits e 48 16 = 0) (hlow : bits e 2 10 = 0) (hlvl : lvl ≠ 0) (va : Nat) (write : Bool) :
    checkEntry e va lvl write = .next (bits e 12 36 * 4096) := by
  simp [checkEntry, hv, htable, hhigh, hlow, hlvl]

/-- Settles O30: the checks are made in the order of R55, and each is met only when those before it pass. -/
theorem entryChecks : Obligations.EntryChecks := by
  intro e va lvl write
  refine ⟨fun hv => checkEntry_of_invalid hv va lvl write,
    fun hv hleaf hres => checkEntry_leaf_of_reserved hv hleaf hres va write,
    fun hv hleaf hres hlvl => checkEntry_leaf_of_upper_level hv hleaf hres hlvl va write,
    fun hv hleaf hres hlvl halign => ?permission,
    fun hv htable hhigh hlow hlvl => checkEntry_table hv htable hhigh hlow hlvl va write⟩
  case permission =>
    rw [checkEntry_leaf_of_aligned hv hleaf hres hlvl halign]
    refine ⟨?_, ?_, ?_⟩ <;> (rintro rfl hperm; simp [hperm])

/-! ### Reading a table entry at its home (R52) -/

/-- A line on which no transaction stands. -/
theorem lineBusy_write_false_iff {s : State} {line : Nat} :
    lineBusy s line true = false ↔ ∀ t ∈ s.coh.trks, t.line ≠ line := by
  simp [lineBusy]

theorem lineBusy_of_free {s : State} {line : Nat} (h : lineBusy s line true = false) (write : Bool) :
    lineBusy s line write = false := by
  simp only [lineBusy, List.any_eq_false, Bool.and_eq_true, beq_iff_eq, not_and]
  exact fun t ht hline => absurd hline (lineBusy_write_false_iff.mp h t ht)

/-- A read of an entry that nothing holds back gives the word that the store holds. -/
theorem tablePeek_of_tableSlot {s : State} {q : Rq} {off f : Nat} {fr : Frame} {x : Extent} (h : TableSlot s q off f fr x)
    (hgood : badAt s.store fr.tier (f * 65536 + off % 65536) 8 = false) :
    tablePeek s q off = .val (bytesWord (held s off 8)) := by
  obtain ⟨-, hopen, hhome⟩ := h.plain
  obtain ⟨hwr, hrd⟩ := h.first
  obtain ⟨hfree, hscan, hdir⟩ := h.free
  have hread := readAt_latest_of_reads x none (.inr ⟨f, fr, h.frame, hgood⟩)
  simp [tablePeek, hhome, h.ext, hopen, hwr, hrd, lineBusy_of_free hfree, hscan, engSnoops_of_uncached hdir, hread]

/-! ### One step of a walk (R54, R55) -/

theorem injBad_of_no_inj {s : State} (hinj : s.err.inj = []) (point unit : BitVec 16) : injBad s point unit = false := by
  simp [injBad, injMode, hinj]

/-- Level 0 holds leaves only, so the walk cache is not asked there. -/
theorem walkCache_misses {s : State} {w : Walk}
    (hmiss : w.level = 0 ∨ walkCacheHit s (clientWheel w.client) w.rider w.va.toNat w.level = none) :
    (if w.level = 0 then none else walkCacheHit s (clientWheel w.client) w.rider w.va.toNat w.level) = none := by
  rcases hmiss with h | h <;> simp [h]

section WalkStep
variable {s : State} {w : Walk} (hinj : s.err.inj = [])
include hinj

/-- A hit of the walk cache gives the next table without a read. -/
theorem walkStep_of_cached {t : Nat} (hlvl : w.level ≠ 0)
    (hhit : walkCacheHit s (clientWheel w.client) w.rider w.va.toNat w.level = some t) :
    walkStep w s = (.next { w with level := w.level - 1, table := t }, s) := by
  simp [walkStep, injBad_of_no_inj hinj, hlvl, hhit]

variable (hmiss : w.level = 0 ∨ walkCacheHit s (clientWheel w.client) w.rider w.va.toNat w.level = none)
include hmiss

theorem walkStep_of_badTable {n : Nat} (hfault : tablePageFault s w.rider w.table = some n) :
    walkStep w s = (.end_ (.fault n w.level), s) := by
  simp [walkStep, injBad_of_no_inj hinj, walkCache_misses hmiss, hfault]

variable {f : Nat} {fr : Frame} {x : Extent} (htable : tablePageFault s w.rider w.table = none)
  (hslot : TableSlot s (walkRq w) (w.table + ptIndex w.va.toNat w.level * 8) f fr x)
  (hgood : badAt s.store fr.tier (f * 65536 + (w.table + ptIndex w.va.toNat w.level * 8) % 65536) 8 = false)
  {e : Word} (he : e = bytesWord (held s (w.table + ptIndex w.va.toNat w.level * 8) 8))
include htable hslot hgood he

theorem walkStep_of_leaf (hleaf : checkEntry e w.va.toNat w.level w.write = .leaf) :
    walkStep w s = (.end_ (.leaf e w.level), s) := by
  subst he
  simp [walkStep, injBad_of_no_inj hinj, walkCache_misses hmiss, htable, tablePeek_of_tableSlot hslot hgood, hleaf,
    dropTicket_of_none hslot.first.2]

theorem walkStep_of_fault {n : Nat} (hfault : checkEntry e w.va.toNat w.level w.write = .fault n) :
    walkStep w s = (.end_ (.fault n w.level), s) := by
  subst he
  simp [walkStep, injBad_of_no_inj hinj, walkCache_misses hmiss, htable, tablePeek_of_tableSlot hslot hgood, hfault,
    dropTicket_of_none hslot.first.2]

theorem walkStep_of_next {t : Nat} (hnext : checkEntry e w.va.toNat w.level w.write = .next t) :
    walkStep w s = (.next { w with level := w.level - 1, table := t }, fillWalkCache
      { wheel := clientWheel w.client, rider := w.rider, level := w.level, va := w.va.toNat / 2 ^ lvlShift w.level, next := t }
      s) := by
  subst he
  have hdrop (c : WalkEnt) : dropTicket ((walkRq w).key (lineOf (w.table + ptIndex w.va.toNat w.level * 8))) false
      (fillWalkCache c s) = fillWalkCache c s :=
    dropTicket_of_none (s := fillWalkCache c s) hslot.first.2
  simp [walkStep, injBad_of_no_inj hinj, walkCache_misses hmiss, htable, tablePeek_of_tableSlot hslot hgood, hnext,
    hdrop]

end WalkStep

/-! ### The return of a walk's read (R55, R56) -/

/-- A walk that has a walker and that nothing holds: it reads its next entry. -/
structure MayRead (s : State) (id root : Nat) (w : Walk) : Prop where
  found   : s.xlat.walks.find? (·.id == id) = some w
  active  : w.active = true
  going   : w.out = none
  kept    : w.again = false
  core    : coreRestarting s (clientWheel w.client) = false
  free    : unmapCovers s w.rider w.va.toNat = false
  service : unitFenced s (unitChainring (clientWheel w.client)) = false
  rooted  : rootOf s w.rider = some root

/-- No invalidation has covered it, so it goes on where it stands. -/
theorem MayRead.fresh {s : State} {id root : Nat} {w : Walk} (h : MayRead s id root w) : w.fresh root = w := by
  simp [Walk.fresh, h.kept]

/-- The walk is over: its walker goes to the next miss, and its client takes what it found. -/
def endWalk (id : Nat) (w : Walk) (o : WalkOut) (s : State) : State :=
  wakeClient w.client (giveWalkers (clientWheel w.client) 32
    (updWalk id (fun _ => { w with out := some o, active := false }) s))

section WalkReturn
variable {s t : State} {id root : Nat} {w : Walk} (h : MayRead s id root w)
include h

theorem walkReturn_next {w' : Walk} (hstep : walkStep w s = (.next w', t)) :
    walkReturn (clientWheel w.client) id s = updWalk id (fun _ => w') t := by
  simp [walkReturn, h.found, h.active, h.going, h.core, h.free, h.service, h.rooted, h.fresh, hstep]

theorem walkReturn_leaf {e : Word} {lvl : Nat} (hstep : walkStep w s = (.end_ (.leaf e lvl), t)) :
    walkReturn (clientWheel w.client) id s = endWalk id w (.leaf e lvl) (fillLeaf w e lvl t) := by
  simp [walkReturn, h.found, h.active, h.going, h.core, h.free, h.service, h.rooted, h.fresh, hstep, endWalk]

theorem walkReturn_fault {n lvl : Nat} (hstep : walkStep w s = (.end_ (.fault n lvl), t)) :
    walkReturn (clientWheel w.client) id s = endWalk id w (.fault n lvl) t := by
  simp [walkReturn, h.found, h.active, h.going, h.core, h.free, h.service, h.rooted, h.fresh, hstep, endWalk]

end WalkReturn

theorem walkReadCompletes : WalkReadCompletes := by
  intro s wheel id root w hup hfound hwheel hactive hout hagain hcore hfree hservice hroot hinj off ends
  have hmay : MayRead s id root w := ⟨hfound, hactive, hout, hagain, hcore, hfree, hservice, hroot⟩
  have hreturns {v : State} (h : walkReturn (clientWheel w.client) id s = v) :
      exec (.walkReadReturn wheel id) s = .next v := by
    rw [hwheel] at h
    exact congrArg _ ((whenUp_of_running hup _).trans h)
  refine ⟨fun t hlvl hhit => ?cached, fun hmiss => ⟨fun n hfault => ?badTable,
    fun e f fr x htable hslot hgood he => ⟨fun hleaf => ?leaf, fun t hnext => ?next, fun n hfault => ?fault⟩⟩⟩
  case cached => exact hreturns (walkReturn_next hmay (walkStep_of_cached hinj hlvl hhit))
  case badTable => exact hreturns (walkReturn_fault hmay (walkStep_of_badTable hinj hmiss hfault))
  case leaf => exact hreturns (walkReturn_leaf hmay (walkStep_of_leaf hinj hmiss htable hslot hgood he hleaf))
  case next => exact hreturns (walkReturn_next hmay (walkStep_of_next hinj hmiss htable hslot hgood he hnext))
  case fault => exact hreturns (walkReturn_fault hmay (walkStep_of_fault hinj hmiss htable hslot hgood he hfault))

/-! ### What a write into a frame leaves of the store (R66, R75, R80) -/

/-- Two stores that differ in bytes, in marks on copies and programs, and in bad code words that the second has fewer of:
each granule lies where it did. -/
structure StoreKept (st st' : Store) : Prop where
  locs    : ∀ page granule, pageLoc st' page granule = pageLoc st page granule
  frames  : st'.frames = st.frames
  extents : st'.extents = st.extents
  bad     : ∀ b ∈ st'.bad, b ∈ st.bad
  progs   : ∀ page, programHolds st' page = programHolds st page

theorem StoreKept.refl (st : Store) : StoreKept st st := ⟨fun _ _ => rfl, rfl, rfl, fun _ => id, fun _ => rfl⟩

theorem StoreKept.trans {st st' st'' : Store} (h : StoreKept st st') (h' : StoreKept st' st'') : StoreKept st st'' :=
  ⟨fun p g => (h'.locs p g).trans (h.locs p g), h'.frames.trans h.frames, h'.extents.trans h.extents,
    fun b hb => h.bad b (h'.bad b hb), fun p => (h'.progs p).trans (h.progs p)⟩

theorem storeKept_putBytes (t : Tier) (a : Nat) (bs : List (Option Byte)) (st : Store) : StoreKept st (putBytes t a bs st) :=
  ⟨fun _ _ => rfl, rfl, rfl, fun _ hb => (mem_dropIf.mp hb).1, fun _ => rfl⟩

theorem storeKept_storedOn (page : Nat) (st : Store) : StoreKept st (storedOn page st) := by
  refine ⟨fun _ _ => rfl, rfl, rfl, fun _ => id, fun n => ?_⟩
  simp only [programHolds, storedOn, updIf, List.any_map]
  refine congrArg (fun p => st.progs.any p) (funext fun q => ?_)
  simp only [Function.comp]
  split <;> rfl

theorem findPage_n (st : Store) (n : Nat) : (findPage st n).n = n := by
  unfold findPage
  cases h : st.pages.find? (·.n == n) with
  | none => rfl
  | some p => simpa using List.find?_some h

/-- An entry with a copy is listed: it is found under its number, and every other number finds what it found before. -/
theorem findPage_setPage {p : Page} (hcopy : p.copy.isNone = false) (st : Store) (n : Nat) :
    findPage (setPage p st) n = if n = p.n then p else findPage st n := by
  have hpages : (setPage p st).pages = dropIf st.pages (·.n == p.n) ++ [p] := by simp [setPage, hcopy]
  unfold findPage
  rw [hpages, List.find?_append]
  split
  next hn =>
    have hnone : (dropIf st.pages (·.n == p.n)).find? (·.n == n) = none :=
      List.find?_eq_none.mpr fun q hq => by simpa [hn] using (mem_dropIf.mp hq).2
    rw [hnone, hn]
    simp
  next hn =>
    have hne : p.n ≠ n := Ne.symm hn
    have hother : (dropIf st.pages (·.n == p.n)).find? (·.n == n) = st.pages.find? (·.n == n) := by
      rw [dropIf, List.find?_filter]
      refine congrArg (fun d => st.pages.find? d) (funext fun q => ?_)
      by_cases hq : q.n = n <;> simp [hq, hn]
    simp [hother, hne]

/-- Marking a copy dirty moves nothing. -/
theorem storeKept_dirty {st : Store} {page : Nat} {c : Copy} (hcopy : (findPage st page).copy = some c) :
    StoreKept st (setPage { findPage st page with copy := some { c with dirty := true } } st) := by
  refine ⟨fun n g => ?_, rfl, rfl, fun _ => id, fun _ => rfl⟩
  have hfind := findPage_setPage (p := { findPage st page with copy := some { c with dirty := true } }) rfl st n
  unfold pageLoc
  rw [hfind]
  by_cases hn : n = page
  · subst hn
    simp only [findPage_n, if_true, hcopy]
    rfl
  · simp only [findPage_n, hn, if_false]
    rfl

/-! ### What a write of a table entry leaves -/

/-- A write of a table entry changes the store's bytes and marks, the doorbells, and what goes to the twin. -/
structure TableKept (s t : State) : Prop where
  rest  : ∃ st bells fl out, t = { s with store := st, bells := bells, pair := { s.pair with inFlight := fl }, out := out }
  store : StoreKept s.store t.store

theorem TableKept.refl (s : State) : TableKept s s := ⟨⟨s.store, s.bells, s.pair.inFlight, s.out, rfl⟩, .refl _⟩

theorem TableKept.trans {s t v : State} (h : TableKept s t) (h' : TableKept t v) : TableKept s v := by
  obtain ⟨st, bells, fl, out, rfl⟩ := h.rest
  obtain ⟨st', bells', fl', out', rfl⟩ := h'.rest
  exact ⟨⟨st', bells', fl', out', rfl⟩, h.store.trans h'.store⟩

theorem TableKept.elsewhere {s t : State} (h : TableKept s t) :
    t.xlat = s.xlat ∧ t.tiles = s.tiles ∧ t.eng = s.eng ∧ t.port = s.port ∧ t.queues = s.queues := by
  obtain ⟨st, bells, fl, out, rfl⟩ := h.rest
  exact ⟨rfl, rfl, rfl, rfl, rfl⟩

/-- Sending a write to the twin touches what is in flight and what goes out. -/
theorem mirrorWrite_only (x : Extent) (page off : Nat) (bs : List Byte) (lap : Bool) (s : State) : ∃ fl out,
    mirrorWrite x page off bs lap s = { s with pair := { s.pair with inFlight := fl }, out := out } := by
  unfold mirrorWrite
  split
  · split
    · exact ⟨_, _, rfl⟩
    · exact ⟨_, _, rfl⟩
  · exact ⟨_, _, rfl⟩

/-- The store after a write of the latest version: the bytes in the frame, and for a page with a copy either the bytes in its
home frame too (R82) or the mark that its copy is dirty (R80). -/
def latestStore (page f off : Nat) (bs : List (Option Byte)) (st : Store) : Store :=
  let st := putBytes (frameTier st f) (f * 65536 + off % 65536) bs st
  match (findPage st page).copy with
  | none => st
  | some c =>
    if streamedPage st page then
      match (findPage st page).home with
      | some h =>
        let h' := movedFrame st page (granuleOf off) h
        putBytes (frameTier st h') (h' * 65536 + off % 65536) bs st
      | none => st
    else storedOn page (setPage { findPage st page with copy := some { c with dirty := true } } st)

theorem applyBytes_latest_eq_mirrorWrite (s : State) (x : Extent) (page f off : Nat) (bs : List (Option Byte)) :
    applyBytes s x .latest page f off bs = mirrorWrite x page (off % 65536)
      (memReadN (latestStore page f off bs s.store).mem (f * 65536 + off % 65536) bs.length) false
      { s with store := latestStore page f off bs s.store, bells := strike off bs s.bells } := by
  simp only [applyBytes, latestStore, reduceCtorEq, decide_false, if_true, if_false]
  cases (findPage (putBytes (frameTier s.store f) (f * 65536 + off % 65536) bs s.store) page).copy <;> rfl

theorem applyBytes_latest (s : State) (x : Extent) (page f off : Nat) (bs : List (Option Byte)) : ∃ bells fl out,
    applyBytes s x .latest page f off bs =
      { s with store := latestStore page f off bs s.store, bells := bells, pair := { s.pair with inFlight := fl }, out := out } := by
  rw [applyBytes_latest_eq_mirrorWrite]
  exact ⟨strike off bs s.bells, mirrorWrite_only _ _ _ _ _ _⟩

theorem storeKept_latestStore (page f off : Nat) (bs : List (Option Byte)) (st : Store) :
    StoreKept st (latestStore page f off bs st) := by
  have hput := storeKept_putBytes (frameTier st f) (f * 65536 + off % 65536) bs st
  unfold latestStore
  generalize putBytes (frameTier st f) (f * 65536 + off % 65536) bs st = st' at hput
  simp only
  split
  next => exact hput
  next c hcopy =>
    split
    · split
      · exact hput.trans (storeKept_putBytes _ _ _ _)
      · exact hput
    · exact hput.trans ((storeKept_dirty hcopy).trans (storeKept_storedOn _ _))

theorem tableKept_applyBytes (s : State) (x : Extent) (page f off : Nat) (bs : List (Option Byte)) :
    TableKept s (applyBytes s x .latest page f off bs) := by
  obtain ⟨bells, fl, out, h⟩ := applyBytes_latest s x page f off bs
  rw [h]
  exact ⟨⟨_, _, _, _, rfl⟩, storeKept_latestStore page f off bs s.store⟩

/-- Fewer bad code words spoil no more. -/
theorem partialBad_of_bad_subset {st st' : Store} (hbad : ∀ b ∈ st'.bad, b ∈ st.bad) {t : Tier} {a : Nat}
    {bs : List (Option Byte)} (h : partialBad st t a bs = false) : partialBad st' t a bs = false := by
  simp only [partialBad, List.any_eq_false] at h ⊢
  exact fun b hb => h b (hbad b hb)

/-- A table entry that can be written at once can still be after another was written. -/
theorem tableSlot_of_kept {s t : State} {q : Rq} {off f : Nat} {fr : Frame} {x : Extent} (h : TableSlot s q off f fr x)
    (hkept : TableKept s t) : TableSlot t q off f fr x := by
  obtain ⟨⟨st, bells, fl, out, rfl⟩, hstore⟩ := hkept
  have hloc := hstore.locs
  have hframes : st.frames = s.store.frames := hstore.frames
  have hextents : st.extents = s.store.extents := hstore.extents
  have hfound (i : Nat) : findFrame st i = findFrame s.store i := by simp only [findFrame, hframes]
  have hext : findExt { s with store := st, bells := bells, pair := { s.pair with inFlight := fl }, out := out } (extentOf off) =
      findExt s (extentOf off) := by simp only [findExt, hextents]
  obtain ⟨hfree, hscan, hdir⟩ := h.free
  refine ⟨hext.trans h.ext, h.plain, h.first, ⟨?free, ?scan, hdir⟩,
    ⟨(hloc _ _).trans h.frame.frame, (hfound f).trans h.frame.found, h.frame.up⟩, ?whole, ⟨?prog, h.idle.2⟩⟩
  case free => exact lineBusy_write_false_iff.mpr (lineBusy_write_false_iff.mp hfree)
  case scan =>
    simp only [scanHolds, h.ext] at hscan
    simp only [scanHolds, hext, h.ext]
    exact hscan
  case whole =>
    have htier : frameTier st f = frameTier s.store f := by simp only [frameTier, hfound]
    exact partialBad_of_bad_subset hstore.bad (by rw [htier]; exact h.whole)
  case prog => exact (hstore.progs _).trans h.idle.1

/-! ### Writing a table entry at its home (R53, R58) -/

theorem length_leBytes (n v : Nat) : (leBytes n v).length = n := by
  induction n generalizing v with
  | zero => rfl
  | succ n ih => simp [leBytes, ih]

theorem length_wordBytes (w : Word) : (wordBytes w).length = 8 := length_leBytes _ _

theorem wordBytes_zero : wordBytes 0 = zeros 8 := by decide

/-- Whether a write needs part of a bad code word depends on which bytes it gives, not on their values. -/
theorem partialBad_allBytes_congr {bs cs : List Byte} (hlen : bs.length = cs.length) (st : Store) (t : Tier) (a : Nat) :
    partialBad st t a (allBytes bs) = partialBad st t a (allBytes cs) := by
  have hgiven (i : Nat) : (∃ b c, (allBytes bs)[i]? = some (some b) ∧ (allBytes cs)[i]? = some (some c)) ∨
      ((allBytes bs)[i]? = none ∧ (allBytes cs)[i]? = none) := by
    by_cases hi : i < bs.length
    · exact .inl ⟨bs[i], cs[i], by simp [allBytes, hi], by simp [allBytes, hlen ▸ hi]⟩
    · exact .inr ⟨by simp [allBytes, Nat.not_lt.mp hi], by simp [allBytes, hlen ▸ Nat.not_lt.mp hi]⟩
  have hcover (b n : Nat) : maskCover (allBytes bs) a b n = maskCover (allBytes cs) a b n := by
    unfold maskCover
    refine congrArg (fun p => (List.range n).all p) (funext fun i => ?_)
    rcases hgiven (b + i - a) with ⟨x, y, hx, hy⟩ | ⟨hx, hy⟩ <;> rw [hx, hy]
  unfold partialBad
  refine congrArg (fun p => st.bad.any p) (funext fun b => ?_)
  rw [hcover]
  refine congrArg (fun p => (List.range (codeWord t)).any p && !maskCover (allBytes cs) a b (codeWord t)) (funext fun i => ?_)
  rcases hgiven (b + i - a) with ⟨x, y, hx, hy⟩ | ⟨hx, hy⟩ <;> rw [hx, hy]

section TableWrite
variable {s : State} {q : Rq} {off f : Nat} {fr : Frame} {x : Extent} (h : TableSlot s q off f fr x)
include h

theorem writeAt_of_tableSlot {bs : List Byte} (hlen : bs.length = 8) : writeAt s x .latest off (allBytes bs) none none false =
    .done (applyBytes s x .latest (pageOf off) f off (allBytes bs)) := by
  obtain ⟨hplain, -, -⟩ := h.plain
  obtain ⟨hprog, hmirror⟩ := h.idle
  have hwhole : partialBad s.store (frameTier s.store f) (f * 65536 + off % 65536) (allBytes bs) = false :=
    (partialBad_allBytes_congr (by rw [hlen]; rfl) _ _ _).trans h.whole
  have hframe : writeFrame s x .latest (pageOf off) f off (allBytes bs) =
      .done (applyBytes s x .latest (pageOf off) f off (allBytes bs)) := by
    simp [writeFrame, h.frame.found, h.frame.up, hwhole]
  simp [writeAt, hmirror, hplain, hprog, h.frame.frame, hframe]

theorem tableWaits_of_tableSlot : tableWaits s q off = false := by
  obtain ⟨hfree, hscan, hdir⟩ := h.free
  have hmem : tableWaits.mem s off x = false := by
    rw [tableWaits.mem, writeAt_of_tableSlot h rfl]
  simp [tableWaits, h.ext, h.first.1, hfree, hscan, hdir, hmem]

theorem tableWrite_of_tableSlot (e : Word) :
    tableWrite s q off e = (none, applyBytes s x .latest (pageOf off) f off (allBytes (wordBytes e))) := by
  obtain ⟨-, hopen, hhome⟩ := h.plain
  simp [tableWrite, tableWrite.put, hhome, h.ext, hopen, h.first.1, writeAt_of_tableSlot h (length_wordBytes e)]

end TableWrite

/-! ### The bytes after a write of a table entry -/

theorem zipWith_getD_map_some {bs old : List Byte} (hlen : bs.length = old.length) :
    List.zipWith (fun (o : Option Byte) (b : Byte) => o.getD b) (bs.map some) old = bs := by
  refine List.ext_getElem (by simp [hlen]) fun i h1 h2 => by simp

theorem putBytes_allBytes_mem (t : Tier) (a : Nat) (bs : List Byte) (st : Store) :
    (putBytes t a (allBytes bs) st).mem = memWriteN st.mem a bs := by
  have hnew := zipWith_getD_map_some (bs := bs) (old := memReadN st.mem a (bs.map some).length) (by simp)
  simp only [putBytes, allBytes, hnew]

/-- The bytes go to the frame, and for a streamed page to its home frame as well. -/
theorem latestStore_mem (page f off : Nat) (bs : List Byte) (st : Store) :
    (latestStore page f off (allBytes bs) st).mem = memWriteN st.mem (f * 65536 + off % 65536) bs ∨
      ∃ h, (latestStore page f off (allBytes bs) st).mem =
        memWriteN (memWriteN st.mem (f * 65536 + off % 65536) bs) (h * 65536 + off % 65536) bs := by
  have hput := putBytes_allBytes_mem (frameTier st f) (f * 65536 + off % 65536) bs st
  unfold latestStore
  generalize putBytes (frameTier st f) (f * 65536 + off % 65536) (allBytes bs) st = st' at hput
  simp only
  split
  next => exact .inl hput
  next =>
    split
    · split
      · exact .inr ⟨_, by rw [putBytes_allBytes_mem, hput]⟩
      · exact .inl hput
    · exact .inl hput

theorem memReadN_congr {m m' : List Host.Cell} {a n : Nat} (h : ∀ i < n, memGet m' (a + i) = memGet m (a + i)) :
    memReadN m' a n = memReadN m a n := by
  simp only [memReadN, seqFrom, List.map_map]
  exact List.map_congr_left fun i hi => h i (List.mem_range.mp hi)

/-- The frame holds the bytes that were written to it: the second write is the same one, or goes to another frame. -/
theorem memReadN_latestStore {bs : List Byte} (hlen : bs.length ≤ 65536) (page f off : Nat) (st : Store) :
    memReadN (latestStore page f off (allBytes bs) st).mem (f * 65536 + off % 65536) bs.length = bs := by
  rcases latestStore_mem page f off bs st with hmem | ⟨h, hmem⟩ <;> rw [hmem]
  · exact memReadN_memWriteN _ _ _
  · by_cases hsame : h = f
    · rw [hsame]
      exact memReadN_memWriteN _ _ _
    · refine (memReadN_congr fun i hi => memGet_memWriteN_out _ _ _ ?_).trans (memReadN_memWriteN _ _ _)
      omega

theorem memGet_memWriteN_zeros {m : List Host.Cell} {b : Nat} (hzero : memGet m b = 0) (a n : Nat) :
    memGet (memWriteN m a (zeros n)) b = 0 := by
  by_cases hin : a ≤ b ∧ b < a + (zeros n).length
  · obtain ⟨i, rfl⟩ := Nat.exists_eq_add_of_le hin.1
    rw [memGet_memWriteN_in _ _ _ (by omega)]
    by_cases hi : i < n <;> simp [zeros, List.getD, hi]
  · rw [memGet_memWriteN_out _ _ _ (by omega), hzero]

/-- A write of zeros makes no byte that was zero other than zero. -/
theorem memGet_latestStore_zeros {st : Store} {b : Nat} (hzero : memGet st.mem b = 0) (page f off n : Nat) :
    memGet (latestStore page f off (allBytes (zeros n)) st).mem b = 0 := by
  rcases latestStore_mem page f off (zeros n) st with hmem | ⟨h, hmem⟩ <;> rw [hmem]
  · exact memGet_memWriteN_zeros hzero _ _
  · exact memGet_memWriteN_zeros (memGet_memWriteN_zeros hzero _ _) _ _

theorem memReadN_eq_zeros_iff {m : List Host.Cell} {a n : Nat} :
    memReadN m a n = zeros n ↔ ∀ i < n, memGet m (a + i) = 0 := by
  simp [memReadN, seqFrom, zeros, List.eq_replicate_iff]

theorem held_of_frame {s : State} {off f : Nat} (hloc : pageLoc s.store (pageOf off) (granuleOf off) = .frame f) (n : Nat) :
    held s off n = memReadN s.store.mem (f * 65536 + off % 65536) n := by
  simp only [held, hloc]

theorem held_congr {s t : State} (h : t.store = s.store) (off n : Nat) : held t off n = held s off n := by
  simp only [held, h]

/-- The slot holds the entry that was written to it. -/
theorem held_tableWrite {s : State} {q : Rq} {off f : Nat} {fr : Frame} {x : Extent} (h : TableSlot s q off f fr x)
    (e : Word) : held (tableWrite s q off e).2 off 8 = wordBytes e := by
  obtain ⟨bells, fl, out, happly⟩ := applyBytes_latest s x (pageOf off) f off (allBytes (wordBytes e))
  have hlen := length_wordBytes e
  have hloc := ((storeKept_latestStore (pageOf off) f off (allBytes (wordBytes e)) s.store).locs _ _).trans h.frame.frame
  rw [tableWrite_of_tableSlot h, happly, held_of_frame hloc]
  simpa only [hlen] using memReadN_latestStore (bs := wordBytes e) (by omega) (pageOf off) f off s.store

/-- Clearing an entry makes no byte that was zero other than zero. -/
theorem memGet_tableWrite_zero {s : State} {q : Rq} {off f : Nat} {fr : Frame} {x : Extent} (h : TableSlot s q off f fr x)
    {b : Nat} (hzero : memGet s.store.mem b = 0) : memGet (tableWrite s q off 0).2.store.mem b = 0 := by
  obtain ⟨bells, fl, out, happly⟩ := applyBytes_latest s x (pageOf off) f off (allBytes (wordBytes 0))
  rw [tableWrite_of_tableSlot h, happly, wordBytes_zero]
  exact memGet_latestStore_zeros hzero _ _ _ _

theorem tableKept_tableWrite {s : State} {q : Rq} {off f : Nat} {fr : Frame} {x : Extent} (h : TableSlot s q off f fr x)
    (e : Word) : TableKept s (tableWrite s q off e).2 := by
  rw [tableWrite_of_tableSlot h]
  exact tableKept_applyBytes _ _ _ _ _ _

/-! ### An open command (R298, R314) -/

theorem isOpen_openCmd {o : Open} {s : State} (hqueue : ∀ q, o.h.src = .queue q → s.queues.any (·.q = q) = true) :
    isOpen o (openCmd o s) = true := by
  unfold isOpen openCmd
  cases hsrc : o.h.src with
  | queue q =>
    obtain ⟨x, hx, hxq⟩ := List.any_eq_true.mp (hqueue q hsrc)
    have hq : x.q = q := of_decide_eq_true hxq
    refine List.any_eq_true.mpr ⟨{ x with started := x.started ++ [o] }, List.mem_map.mpr ⟨x, hx, if_pos hxq⟩, ?_⟩
    simp [hq]
  | port | sideband => simp

/-- A command that has reached its chapter is open. -/
theorem isOpen_of_runsIn {op : Nat} {c : Cmd} {s u : State} (h : runsIn op c s = some u) : isOpen (openOf op c) u = true := by
  have hopened {v : State} (hqueue : ∀ q, c.h.src = .queue q → v.queues.any (·.q = q) = true)
      (hpass : passes op c v = some u) : isOpen (openOf op c) u = true := by
    obtain ⟨-, rfl⟩ : (hdrChecks v op c = none ∧ busyChecks v op c = none) ∧ openCmd (openOf op c) v = u := by
      simpa [passes] using hpass
    exact isOpen_openCmd hqueue
  unfold runsIn at h
  cases hsrc : c.h.src with
  | queue q =>
    simp only [hsrc, Option.ite_none_right_eq_some, Bool.and_eq_true, decide_eq_true_eq] at h
    refine hopened (fun q' hq' => ?_) h.2
    obtain rfl : q = q' := by simpa [hsrc] using hq'
    exact h.1.2
  | sideband | port =>
    simp only [hsrc, Option.ite_none_right_eq_some] at h
    exact hopened (fun q' hq' => by simp [hsrc] at hq') h.2

theorem isOpen_congr {s t : State} (hport : t.port = s.port) (hqueues : t.queues = s.queues) (o : Open) :
    isOpen o t = isOpen o s := by
  simp only [isOpen, hport, hqueues]

theorem completeIf_of_isOpen {o : Open} {s : State} (hopen : isOpen o s = true) (st : Status) (result : Word)
    (payload : List Byte) : completeIf o st result payload s = complete o st result payload s := if_pos hopen

/-! ### What an invalidation drops (R59 step 4) -/

/-- A load of a line over the range is no longer to keep it. -/
def stopFill (lo hi : Nat) (k : Ctx) : Ctx :=
  match k.block with
  | .access a true => if overlaps (lineOf a.va.toNat) 64 lo hi then { k with noFill := true } else k
  | _ => k

theorem ctxHolds_stopFill (lo hi a b : Nat) (k : Ctx) : ctxHolds (stopFill lo hi k) a b = ctxHolds k a b := by
  unfold stopFill
  split
  · split <;> rfl
  · rfl

def forgetTile (lo hi : Nat) (t : Tile) : Tile :=
  { t with cache := dropIf t.cache fun l => overlaps l.va 64 lo hi, ctxs := t.ctxs.map (stopFill lo hi) }

theorem dropXlat_tiles (r : BitVec 6) (lo hi : Nat) (s : State) :
    (dropXlat r lo hi s).tiles = updIf s.tiles (fun t => t.prog.any (·.rider = r)) (forgetTile lo hi) := rfl

theorem isOpen_dropXlat (o : Open) (r : BitVec 6) (lo hi : Nat) (s : State) :
    isOpen o (dropXlat r lo hi s) = isOpen o s := by
  unfold isOpen
  cases hsrc : o.h.src with
  | queue q =>
    simp only [dropXlat, updIf, List.any_map]
    refine congrArg (fun p => s.queues.any p) (funext fun x => ?_)
    simp only [Function.comp]
    split <;> rfl
  | port | sideband => rfl

theorem enginesIn_congr {s t : State} (htiles : t.tiles = s.tiles) (heng : t.eng = s.eng) (r : BitVec 6) (lo hi : Nat) :
    enginesIn t r lo hi = enginesIn s r lo hi := by
  simp only [enginesIn, htiles, heng]

/-- The contexts of a tile that hold a range are those that held it before. -/
theorem enginesIn_dropXlat (s : State) (r r' : BitVec 6) (lo hi a b : Nat) :
    enginesIn (dropXlat r lo hi s) r' a b = enginesIn s r' a b := by
  unfold enginesIn
  rw [dropXlat_tiles, updIf, List.flatMap_map]
  refine congrArg (· ++ _ ++ _) (congrArg (fun f => s.tiles.flatMap f) (funext fun t => ?_))
  by_cases hprog : t.prog.any (·.rider = r) = true
  · simp only [hprog, if_true, forgetTile]
    split
    · simp [ctxHolds_stopFill, List.mapIdx_eq_zipIdx_map, List.zipIdx_map, List.filterMap_map, Function.comp_def]
    · rfl
  · simp only [hprog]
    rfl

/-- Nothing over the range is kept after it is dropped. -/
theorem forgotten_dropXlat (r : BitVec 6) (lo hi : Nat) (s : State) : Forgotten (dropXlat r lo hi s) r lo hi := by
  refine ⟨fun t ht hr => ?tlb, fun t ht hr => ?micro, fun q hq hr x hx => ?queue, fun x hx hr l hl => ?cache⟩
  case tlb => simpa [hr] using (mem_dropIf.mp ht).2
  case micro => simpa [hr] using (mem_dropIf.mp ht).2
  case queue =>
    obtain ⟨p, -, rfl⟩ := List.mem_map.mp hq
    by_cases hp : p.rider = r
    · rw [if_pos (decide_eq_true hp)] at hx
      have hout : lo ≤ x.page.toNat → hi ≤ x.page.toNat := by simpa using (mem_dropIf.mp hx).2
      omega
    · rw [if_neg (by simpa using hp)] at hr
      exact absurd hr hp
  case cache =>
    obtain ⟨t, -, rfl⟩ := List.mem_map.mp hx
    by_cases ht : t.prog.any (·.rider = r) = true
    · rw [if_pos ht] at hl
      simpa using (mem_dropIf.mp hl).2
    · rw [if_neg ht] at hr
      exact absurd hr ht

/-! ### The list of invalidations in progress and the roots -/

theorem updIf_append_fresh {us : List Unmap} {v : Unmap} (hfresh : ∀ x ∈ us, x.id ≠ v.id) (v' : Unmap) :
    updIf (us ++ [v]) (·.id == v.id) (fun _ => v') = us ++ [v'] := by
  have hkeep : updIf us (·.id == v.id) (fun _ => v') = us :=
    (List.map_congr_left fun x hx => if_neg (by simpa using hfresh x hx)).trans (List.map_id us)
  simp only [updIf, List.map_append, List.map_cons, List.map_nil, beq_self_eq_true, if_true] at hkeep ⊢
  rw [hkeep]

theorem dropIf_append_fresh {us : List Unmap} {v : Unmap} {n : Nat} (hfresh : ∀ x ∈ us, x.id ≠ n) (hid : v.id = n) :
    dropIf (us ++ [v]) (·.id == n) = us := by
  have hkeep : dropIf us (·.id == n) = us := List.filter_eq_self.mpr fun x hx => by simpa using hfresh x hx
  simp only [dropIf, List.filter_append] at hkeep ⊢
  simp [hkeep, hid]

theorem dropIf_updIf {us : List Unmap} {v : Unmap} {n : Nat} (hid : v.id = n) :
    dropIf (updIf us (·.id == n) (fun _ => v)) (·.id == n) = dropIf us (·.id == n) := by
  induction us with
  | nil => rfl
  | cons x xs ih =>
    simp only [dropIf, updIf, List.map_cons, List.filter_cons] at ih ⊢
    rw [ih]
    by_cases hx : x.id = n <;> simp [hx, hid]

theorem lookupK_setK_same {α β : Type} [DecidableEq α] (l : List (α × β)) (k : α) (v : β) :
    lookupK (setK l k v) k = some v := by
  have hmap (l : List (α × β)) (hany : l.any (·.1 = k) = true) :
      lookupK (l.map fun x => if x.1 = k then (k, v) else x) k = some v := by
    induction l with
    | nil => simp at hany
    | cons x xs ih =>
      by_cases hx : x.1 = k
      · simp [lookupK, hx]
      · have hrest := ih (by simpa [hx] using hany)
        simpa [lookupK, hx] using hrest
  unfold setK
  split
  next hany => exact hmap l hany
  next hnone =>
    have hnot : l.find? (·.1 = k) = none :=
      List.find?_eq_none.mpr fun x hx hk => hnone (List.any_eq_true.mpr ⟨x, hx, hk⟩)
    simp [lookupK, List.find?_append, hnot]

theorem lookupK_dropIf_self {α β : Type} [DecidableEq α] (l : List (α × β)) (k : α) :
    lookupK (dropIf l (·.1 = k)) k = none := by
  have hnone : (dropIf l (·.1 = k)).find? (·.1 = k) = none :=
    List.find?_eq_none.mpr fun x hx => by simpa using (mem_dropIf.mp hx).2
  simp [lookupK, hnone]

/-! ### The end of an invalidation (R48, R59 step 7) -/

/-- The roots after an invalidation: that of a `PT_BASE_SET` installs or removes its rider's. -/
def rootsAfter (v : Unmap) (roots : List (BitVec 6 × Nat)) : List (BitVec 6 × Nat) :=
  match v.newRoot with
  | some (some root) => setK roots v.rider root
  | some none => dropIf roots (·.1 = v.rider)
  | none => roots

theorem lookupK_rootsAfter {v : Unmap} {root : Option Nat} (hroot : v.newRoot = some root)
    (roots : List (BitVec 6 × Nat)) : lookupK (rootsAfter v roots) v.rider = root := by
  cases root with
  | none => simpa only [rootsAfter, hroot] using lookupK_dropIf_self roots v.rider
  | some n => simpa only [rootsAfter, hroot] using lookupK_setK_same roots v.rider n

theorem rootsAfter_of_none {v : Unmap} (hroot : v.newRoot = none) (roots : List (BitVec 6 × Nat)) :
    rootsAfter v roots = roots := by
  simp only [rootsAfter, hroot]

theorem endUnmap_completes {v : Unmap} {s : State} (hopen : isOpen v.cmd s = true) : endUnmap v s =
    complete v.cmd v.status v.result [] { s with
      xlat := { s.xlat with unmaps := dropIf s.xlat.unmaps (·.id == v.id), roots := rootsAfter v s.xlat.roots } } := by
  have hend : endUnmap v s = completeIf v.cmd v.status v.result [] { s with
      xlat := { s.xlat with unmaps := dropIf s.xlat.unmaps (·.id == v.id), roots := rootsAfter v s.xlat.roots } } := by
    rcases hroot : v.newRoot with _ | _ | root <;> simp only [endUnmap, rootsAfter, hroot]
  rw [hend, completeIf_of_isOpen]
  exact hopen

/-! ### An invalidation reaches the engines (R59 steps 3 to 6) -/

/-- An invalidation that waits for the engines with transfers in its range. -/
def reached (v : Unmap) (s : State) : Unmap :=
  { v with writing := false, waiting := enginesIn s v.rider v.base (v.base + v.len) }

/-- The state in which an invalidation has reached the engines. -/
def reachedState (v : Unmap) (s : State) : State :=
  let t := dropXlat v.rider v.base (v.base + v.len) s
  { t with xlat := { t.xlat with unmaps := updIf s.xlat.unmaps (·.id == v.id) fun _ => reached v s } }

theorem runUnmap_eq (v : Unmap) (s : State) : runUnmap v s =
    if (enginesIn s v.rider v.base (v.base + v.len)).isEmpty then endUnmap (reached v s) (reachedState v s)
    else reachedState v s := by
  simp only [runUnmap, enginesIn_dropXlat]
  rfl

theorem forgotten_reachedState (v : Unmap) (s : State) :
    Forgotten (reachedState v s) v.rider v.base (v.base + v.len) := by
  obtain ⟨htlb, hmicro, hqueues, htiles⟩ := forgotten_dropXlat v.rider v.base (v.base + v.len) s
  exact ⟨htlb, hmicro, hqueues, htiles⟩

section Run
variable {v : Unmap} {s : State} {us : List Unmap} {lo hi : Nat} (hlo : v.base = lo) (hhi : v.base + v.len = hi)
  (hlast : s.xlat.unmaps = us ++ [v]) (hfresh : ∀ x ∈ us, x.id ≠ v.id)
include hlast hfresh

theorem reachedState_unmaps : (reachedState v s).xlat.unmaps = us ++ [reached v s] := by
  simp only [reachedState, hlast, updIf_append_fresh hfresh]

include hlo hhi

/-- With a transfer of an engine in the range, the invalidation waits for it. -/
theorem runUnmap_waits (hengines : enginesIn s v.rider lo hi ≠ []) : ∃ v', (runUnmap v s).xlat.unmaps = us ++ [v'] ∧
    v'.cmd = v.cmd ∧ v'.status = v.status ∧ v'.waiting = enginesIn s v.rider lo hi ∧
    Forgotten (runUnmap v s) v.rider lo hi ∧ (runUnmap v s).store = s.store := by
  subst hlo hhi
  have hrun : runUnmap v s = reachedState v s := by simp [runUnmap_eq, hengines]
  rw [hrun]
  exact ⟨reached v s, reachedState_unmaps hlast hfresh, rfl, rfl, rfl, forgotten_reachedState v s, rfl⟩

/-- With no transfer in the range, the invalidation ends at once. -/
theorem runUnmap_ends (hengines : enginesIn s v.rider lo hi = []) (hopen : isOpen v.cmd s = true) :
    ∃ w, runUnmap v s = complete v.cmd v.status v.result [] w ∧ w.xlat.unmaps = us ∧
      w.xlat.roots = rootsAfter v s.xlat.roots ∧ Forgotten w v.rider lo hi ∧ w.store = s.store := by
  subst hlo hhi
  have hstill : isOpen (reached v s).cmd (reachedState v s) = true := (isOpen_dropXlat v.cmd _ _ _ s).trans hopen
  obtain ⟨htlb, hmicro, hqueues, htiles⟩ := forgotten_reachedState v s
  have hunmaps : dropIf (reachedState v s).xlat.unmaps (·.id == (reached v s).id) = us := by
    rw [reachedState_unmaps hlast hfresh]
    exact dropIf_append_fresh hfresh rfl
  rw [runUnmap_eq, hengines, List.isEmpty_nil, if_pos rfl, endUnmap_completes hstill]
  exact ⟨_, rfl, hunmaps, rfl, ⟨htlb, hmicro, hqueues, htiles⟩, rfl⟩

end Run

/-! ### The leaves of a tree (R52, R58) -/

section Xlat
variable {s : State} (y : Xlat)

/-- The translation units play no part in a read of a table entry. -/
theorem tablePeek_xlat (q : Rq) (off : Nat) : tablePeek { s with xlat := y } q off = tablePeek s q off := rfl

theorem leavesBelow_xlat (q : Rq) (r : BitVec 6) (lo hi lvl table base : Nat) :
    leavesBelow { s with xlat := y } q r lo hi lvl table base = leavesBelow s q r lo hi lvl table base := by
  have hfault (off : Nat) : tablePageFault { s with xlat := y } r off = tablePageFault s r off := rfl
  induction lvl generalizing table base with
  | zero => simp only [leavesBelow, hfault, tablePeek_xlat]
  | succ l ih => simp only [leavesBelow, hfault, tablePeek_xlat, ih]

theorem foundIn_xlat (hroots : y.roots = s.xlat.roots) (q : Rq) (r : BitVec 6) (lo hi : Nat) :
    foundIn { s with xlat := y } q r lo hi = foundIn s q r lo hi := by
  have hroot : rootOf { s with xlat := y } r = rootOf s r := by simp only [rootOf, hroots]
  unfold foundIn
  rw [hroot]
  cases rootOf s r with
  | none => rfl
  | some root => exact leavesBelow_xlat y q r lo hi 4 root 0

theorem cutGroups_xlat (q : Rq) (lo hi : Nat) (ls : List LeafAt) :
    cutGroups { s with xlat := y } q lo hi ls = cutGroups s q lo hi ls := by
  simp only [cutGroups, tablePeek_xlat]

theorem tableSlot_xlat {q : Rq} {off f : Nat} {fr : Frame} {x : Extent} (h : TableSlot s q off f fr x) :
    TableSlot { s with xlat := y } q off f fr x :=
  ⟨h.ext, h.plain, h.first, h.free, ⟨h.frame.frame, h.frame.found, h.frame.up⟩, h.whole, h.idle⟩

end Xlat

theorem leavesOf_map_leaf (ls : List LeafAt) : leavesOf (ls.map Found.leaf) = ls := by
  simp [leavesOf, List.filterMap_map]

theorem waitsOf_map_leaf (ls : List LeafAt) : waitsOf (ls.map Found.leaf) = [] := by
  simp [waitsOf, List.filterMap_map]

theorem exists_map_leaf {fs : List Found} (h : ∀ f ∈ fs, ∃ l, f = .leaf l) : ∃ ls : List LeafAt, fs = ls.map Found.leaf := by
  induction fs with
  | nil => exact ⟨[], rfl⟩
  | cons f fs ih =>
    obtain ⟨l, rfl⟩ := h f List.mem_cons_self
    obtain ⟨ls, rfl⟩ := ih fun g hg => h g (List.mem_cons_of_mem _ hg)
    exact ⟨l :: ls, rfl⟩

/-! ### Writing many table entries (R53, R58) -/

/-- Leaves whose slots can all be written at once are all written. -/
theorem writeLeaves_all {q : Rq} (leaf : Nat → Word) {l : List (Nat × Nat)} {s : State}
    (hslots : ∀ p ∈ l, ∃ f fr x, TableSlot s q p.2 f fr x) : (writeLeaves q leaf l s).1 = none := by
  induction l generalizing s with
  | nil => rfl
  | cons p l ih =>
    obtain ⟨f, fr, x, h⟩ := hslots p List.mem_cons_self
    have hkept := tableKept_tableWrite h (leaf p.1)
    have hwrite : tableWrite s q p.2 (leaf p.1) = (none, (tableWrite s q p.2 (leaf p.1)).2) :=
      Prod.ext (by rw [tableWrite_of_tableSlot h]) rfl
    rw [writeLeaves, hwrite]
    refine ih fun p' hp' => ?_
    obtain ⟨f', fr', x', h'⟩ := hslots p' (List.mem_cons_of_mem _ hp')
    exact ⟨f', fr', x', tableSlot_of_kept h' hkept⟩

/-- The write that makes a leaf invalid. -/
def clearOf (l : LeafAt) : Nat × Option (Nat × Word) × Nat × Nat := (l.va, some (l.slot, 0), 0, 0)

theorem clearWrites_of_leaves {s : State} {q : Rq} {lo hi : Nat} {ls : List LeafAt} (hcut : cutGroups s q lo hi ls = []) :
    clearWrites s q lo hi (ls.map Found.leaf) = ls.map clearOf := by
  simp [clearWrites, leavesOf_map_leaf, hcut, List.filterMap_map, clearOf]

/-- What clearing leaves whose slots can all be written at once leaves behind. -/
structure Cleared (q : Rq) (ls : List LeafAt) (s t : State) : Prop where
  kept    : TableKept s t
  cleared : ∀ l ∈ ls, held t l.slot 8 = zeros 8
  zero    : ∀ b, memGet s.store.mem b = 0 → memGet t.store.mem b = 0

theorem writeAll_clears {q : Rq} {ls : List LeafAt} {s : State} (hslots : ∀ l ∈ ls, ∃ f fr x, TableSlot s q l.slot f fr x) :
    (writeAll q (ls.map clearOf) s).1 = none ∧ Cleared q ls s (writeAll q (ls.map clearOf) s).2 := by
  induction ls generalizing s with
  | nil => exact ⟨rfl, .refl s, by simp, fun _ => id⟩
  | cons l ls ih =>
    obtain ⟨f, fr, x, h⟩ := hslots l List.mem_cons_self
    have hkept := tableKept_tableWrite h 0
    obtain ⟨hnone, hrest⟩ := ih (s := (tableWrite s q l.slot 0).2) fun l' hl' => by
      obtain ⟨f', fr', x', h'⟩ := hslots l' (List.mem_cons_of_mem _ hl')
      exact ⟨f', fr', x', tableSlot_of_kept h' hkept⟩
    have hwrite : writeAll q ((l :: ls).map clearOf) s = (none, (writeAll q (ls.map clearOf) (tableWrite s q l.slot 0).2).2) := by
      have hfirst : (tableWrite s q l.slot 0).1 = none := by rw [tableWrite_of_tableSlot h]
      simp only [List.map_cons, clearOf, writeAll] at hnone ⊢
      rw [hfirst]
      exact congrArg (·, _) hnone
    rw [hwrite]
    refine ⟨rfl, hkept.trans hrest.kept, fun l' hl' => ?_, fun b hb => hrest.zero b (memGet_tableWrite_zero h hb)⟩
    rcases List.mem_cons.mp hl' with rfl | hl'
    · have hslot := tableSlot_of_kept h hkept
      have hlast := tableSlot_of_kept hslot hrest.kept
      have hheld := held_tableWrite h 0
      rw [wordBytes_zero, held_of_frame hslot.frame.frame, memReadN_eq_zeros_iff] at hheld
      rw [held_of_frame hlast.frame.frame, memReadN_eq_zeros_iff]
      exact fun i hi => hrest.zero _ (hheld i hi)
    · exact hrest.cleared l' hl'

/-! ### `PT_BASE_SET` (R48) -/

/-- The root that a `PT_BASE_SET` installs; none when it removes the tree. -/
def newRootOf (c : Cmd) : Option Nat := if c.p 0 = 0 then none else some (c.p 0).toNat

/-- The invalidation of a `PT_BASE_SET` over a tree, and the state in which it is accepted. -/
def baseUnmap (c : Cmd) (u : State) : Unmap × State :=
  newUnmap (openOf 0x180 c) c.h.r 0 (2 ^ 57) (some (newRootOf c))
    (pagesBehind u c.h.r 0 (2 ^ 57) (leavesOf (foundIn u (treeRq c) c.h.r 0 (2 ^ 57)))) u

theorem bodyPtBaseSet_eq {c : Cmd} {u : State} (hturn : treeBusy u c.h.r (openOf 0x180 c) 0 (2 ^ 57) = false)
    (hform : c.p 0 ≠ 0 → (c.p 0).toNat % 256 = 0 ∧ (c.p 0).toNat < 2 ^ 48 ∧ tablePageFault u c.h.r (c.p 0).toNat = none) :
    bodyPtBaseSet c u = if (rootOf u c.h.r).isSome then Eff.later (runUnmap (baseUnmap c u).1 (baseUnmap c u).2)
      else Eff.ok { u with xlat := { u.xlat with
        roots := if c.p 0 = 0 then u.xlat.roots else setK u.xlat.roots c.h.r (c.p 0).toNat } } := by
  have hzero : (c.p 0).toNat = 0 ↔ c.p 0 = 0 := ⟨fun h => BitVec.eq_of_toNat_eq h, fun h => by rw [h]; rfl⟩
  have hnew : (if (c.p 0).toNat = 0 then none else some (c.p 0).toNat) = newRootOf c := by simp only [newRootOf, hzero]
  refine (if_neg ?refused).trans ((if_neg (by rw [hturn]; decide)).trans ?accepted)
  case refused =>
    intro hbad
    simp only [Bool.and_eq_true, Bool.or_eq_true, decide_eq_true_eq, ne_eq, hzero] at hbad
    obtain ⟨hne, hwhy⟩ := hbad
    obtain ⟨halign, hsmall, hpage⟩ := hform hne
    simp only [hpage, Option.isSome_none, Bool.false_eq_true, or_false] at hwhy
    omega
  case accepted =>
    cases hroot : rootOf u c.h.r with
    | some root => simp only [hnew, Option.isSome_some, if_true, baseUnmap]
    | none =>
      simp only [hnew, Option.isSome_none, Bool.false_eq_true, if_false]
      by_cases hp : c.p 0 = 0
      · simp only [newRootOf, hp, if_true]
      · simp only [newRootOf, hp, if_false]

/-! ### `MAP_RANGE` (R53) -/

theorem mapWrite_of_tableSlots {c : Cmd} {u : State} {slots : List Nat}
    (hslots : ∀ o ∈ slots, ∃ f fr x, TableSlot u (treeRq c) o f fr x) :
    mapWrite c slots u = Eff.res .ok (BitVec.allOnes 64) (treeDone c
      (writeLeaves (treeRq c) (mapLeaf c ((c.p 0).toNat / 2 ^ lvlShift (bits (c.p 3) 0 2) + slots.length))
        ((List.range slots.length).zip slots) u).2) := by
  have hall := writeLeaves_all (mapLeaf c ((c.p 0).toNat / 2 ^ lvlShift (bits (c.p 3) 0 2) + slots.length))
    (l := (List.range slots.length).zip slots) fun p hp => hslots p.2 (List.of_mem_zip hp).2
  unfold mapWrite
  simp only
  split
  next t ht => rw [ht]
  next ht => rw [ht] at hall; cases hall

/-- Nothing has to be waited for where every slot can be written at once. -/
theorem bodyMapRange_of_tableSlots {c : Cmd} {u : State} {slots : List Nat} (hform : mapForm c = true)
    (hturn : treeBusy u c.h.r (openOf 0x181 c) (c.p 0).toNat ((c.p 0).toNat + (c.p 1).toNat) = false)
    (hfound : mapSlots u (treeRq c) c.h.r (bits (c.p 3) 0 2) (c.p 0).toNat
      ((c.p 1).toNat / 2 ^ lvlShift (bits (c.p 3) 0 2)) 0 [] [] = .ok slots)
    (hslots : ∀ o ∈ slots, ∃ f fr x, TableSlot u (treeRq c) o f fr x) : bodyMapRange c u = mapWrite c slots u := by
  have hready : slots.filter (tableWaits u (treeRq c)) = [] := by
    refine List.filter_eq_nil_iff.mpr fun o ho => ?_
    obtain ⟨f, fr, x, h⟩ := hslots o ho
    simp [tableWaits_of_tableSlot h]
  simp only [bodyMapRange, hform, hturn, hfound, hready]
  rfl

/-! ### `UNMAP_RANGE` (R58, R59) -/

/-- The invalidation of an `UNMAP_RANGE`, and the state in which it is accepted. -/
def rangeUnmap (c : Cmd) (u : State) : Unmap × State :=
  newUnmap (openOf 0x182 c) c.h.r (c.p 0).toNat (c.p 1).toNat none
    (pagesBehind u c.h.r (c.p 0).toNat ((c.p 0).toNat + (c.p 1).toNat)
      (leavesOf (foundIn u (treeRq c) c.h.r (c.p 0).toNat ((c.p 0).toNat + (c.p 1).toNat)))) u

theorem bodyUnmapRange_goes {c : Cmd} {s u : State} (h : UnmapRuns c s u) (hflags : bits (c.p 2) 1 63 = 0)
    (hwhole : WholeLeaves u c (c.p 0).toNat ((c.p 0).toNat + (c.p 1).toNat)) :
    bodyUnmapRange c u = goUnmap (rangeUnmap c u).1 c (rangeUnmap c u).2 := by
  obtain ⟨hlo, hlen, hpos, hend⟩ := h.form
  have hnew : u.xlat.unmaps.find? (·.cmd = openOf 0x182 c) = none :=
    List.find?_eq_none.mpr fun x hx => by simpa using (h.new_ x hx).1
  have hlen0 : (c.p 1).toNat ≠ 0 := by omega
  have hroom : ¬ 64 ≤ unmapsOpen u := Nat.not_le.mpr h.room
  have hinside : (leavesOf (foundIn u (treeRq c) c.h.r (c.p 0).toNat ((c.p 0).toNat + (c.p 1).toNat))).any
      (fun l => l.va < (c.p 0).toNat || (c.p 0).toNat + (c.p 1).toNat < l.va + l.size) = false := by
    refine List.any_eq_false.mpr fun l hl => ?_
    obtain ⟨hl, hr⟩ := hwhole.inside l hl
    simp [Nat.not_lt.mpr hl, Nat.not_lt.mpr hr]
  simp only [bodyUnmapRange, hnew, hflags, hlo, hlen, decide_eq_true hlen0, decide_eq_true hend, hroom, h.turn, hwhole.ready, hinside]
  rfl

theorem goUnmap_keeping {v : Unmap} {c : Cmd} {s : State} (hkeep : bit (c.p 2) 0 = false) :
    goUnmap v c s = Eff.later (runUnmap v (treeDone c s)) := by
  simp [goUnmap, hkeep]

theorem goUnmap_clearing {v : Unmap} {c : Cmd} {s : State} {ls : List LeafAt} (hclear : bit (c.p 2) 0 = true)
    (hfound : foundIn s (treeRq c) v.rider v.base (v.base + v.len) = ls.map Found.leaf)
    (hcut : cutGroups s (treeRq c) v.base (v.base + v.len) ls = [])
    (hslots : ∀ l ∈ ls, ∃ f fr x, TableSlot s (treeRq c) l.slot f fr x) :
    goUnmap v c s = Eff.later (runUnmap v (treeDone c (writeAll (treeRq c) (ls.map clearOf) s).2)) := by
  have hready : (((ls.map clearOf).filterMap (·.2.1)).map (·.1)).filter (tableWaits s (treeRq c)) = [] := by
    refine List.filter_eq_nil_iff.mpr fun o ho => ?_
    simp only [List.filterMap_map, List.mem_map, List.mem_filterMap] at ho
    obtain ⟨p, ⟨l, hl, hp⟩, rfl⟩ := ho
    obtain rfl : (l.slot, 0) = p := Option.some.inj hp
    obtain ⟨f, fr, x, h⟩ := hslots l hl
    simp [tableWaits_of_tableSlot h]
  obtain ⟨hnone, -⟩ := writeAll_clears hslots
  simp only [goUnmap, hclear, hfound, clearWrites_of_leaves hcut, hready, waitsOf_map_leaf, hnone]
  rfl

theorem wholeLeaves_of_clearTree {s : State} {c : Cmd} {lo hi : Nat} (h : ClearTree s c lo hi) : WholeLeaves s c lo hi := by
  obtain ⟨ls, hls⟩ := exists_map_leaf fun f hf => (h.leaves f hf).imp fun l hl => hl.1
  refine ⟨by rw [hls, waitsOf_map_leaf], fun l hl => ?_⟩
  rw [hls, leavesOf_map_leaf] at hl
  obtain ⟨l', hl', hlo, hhi, -⟩ := h.leaves (.leaf l) (by rw [hls]; exact List.mem_map_of_mem hl)
  obtain rfl : l = l' := Found.leaf.inj hl'
  exact ⟨hlo, hhi⟩

/-- An `UNMAP_RANGE` that nothing holds back reaches the engines, with `CLEAR` after it has made every leaf invalid. -/
theorem bodyUnmapRange_reaches {c : Cmd} {s u : State} (h : UnmapRuns c s u)
    (htree : (c.p 2 = 0 ∧ WholeLeaves u c (c.p 0).toNat ((c.p 0).toNat + (c.p 1).toNat)) ∨
      (c.p 2 = 1 ∧ ClearTree u c (c.p 0).toNat ((c.p 0).toNat + (c.p 1).toNat))) :
    ∃ t, bodyUnmapRange c u = Eff.later (runUnmap (rangeUnmap c u).1 (treeDone c t)) ∧ TableKept (rangeUnmap c u).2 t ∧
      (c.p 2 = 0 → t.store = u.store) ∧
      (c.p 2 = 1 → ∀ l, .leaf l ∈ foundIn u (treeRq c) c.h.r (c.p 0).toNat ((c.p 0).toNat + (c.p 1).toNat) →
        held t l.slot 8 = zeros 8) := by
  rcases htree with ⟨hkeep, hwhole⟩ | ⟨hclear, htree⟩
  · refine ⟨(rangeUnmap c u).2, ?_, .refl _, fun _ => rfl, fun hone => ?_⟩
    · exact (bodyUnmapRange_goes h (by rw [hkeep]; rfl) hwhole).trans (goUnmap_keeping (by rw [hkeep]; rfl))
    · exact absurd (hkeep.symm.trans hone) (by decide)
  · obtain ⟨ls, hls⟩ := exists_map_leaf fun f hf => (htree.leaves f hf).imp fun l hl => hl.1
    have hcut := htree.groups
    rw [hls, leavesOf_map_leaf] at hcut
    have hslots : ∀ l ∈ ls, ∃ f fr x, TableSlot (rangeUnmap c u).2 (treeRq c) l.slot f fr x := fun l hl => by
      obtain ⟨l', hl', -, -, f, fr, x, hslot⟩ := htree.leaves (.leaf l) (by rw [hls]; exact List.mem_map_of_mem hl)
      obtain rfl : l = l' := Found.leaf.inj hl'
      exact ⟨f, fr, x, tableSlot_xlat _ hslot⟩
    obtain ⟨-, hcleared⟩ := writeAll_clears hslots
    refine ⟨_, (bodyUnmapRange_goes h (by rw [hclear]; rfl) (wholeLeaves_of_clearTree htree)).trans
      (goUnmap_clearing (by rw [hclear]; rfl) ?found ((cutGroups_xlat _ _ _ _ _).trans hcut) hslots), hcleared.kept,
      fun hzero => ?zero, fun _ l hl => ?cleared⟩
    case found => exact (foundIn_xlat _ rfl _ _ _ _).trans hls
    case zero => exact absurd (hclear.symm.trans hzero) (by decide)
    case cleared =>
      rw [hls] at hl
      obtain ⟨l', hl', heq⟩ := List.mem_map.mp hl
      obtain rfl : l' = l := Found.leaf.inj heq
      exact hcleared.cleared l' hl'

/-! ### The translation commands complete (R48, R53, R58, R59) -/

theorem ptBaseSet_completes {c : Cmd} {s u : State} (hrun : runsIn 0x180 c s = some u)
    (hturn : treeBusy u c.h.r (openOf 0x180 c) 0 (2 ^ 57) = false) (hfresh : ∀ x ∈ u.xlat.unmaps, x.id ≠ u.xlat.nextId)
    (hform : c.p 0 ≠ 0 → (c.p 0).toNat % 256 = 0 ∧ (c.p 0).toNat < 2 ^ 48 ∧ tablePageFault u c.h.r (c.p 0).toNat = none) :
    (rootOf u c.h.r = none → exec (.ptBaseSet c) s = .next (replied 0x180 c .ok 0 []
      { u with xlat.roots := if c.p 0 = 0 then u.xlat.roots else setK u.xlat.roots c.h.r (c.p 0).toNat })) ∧
    (rootOf u c.h.r ≠ none → enginesIn u c.h.r 0 (2 ^ 57) = [] →
      ∃ w, exec (.ptBaseSet c) s = .next (replied 0x180 c .ok 0 [] w) ∧
        rootOf w c.h.r = (if c.p 0 = 0 then none else some (c.p 0).toNat) ∧ Forgotten w c.h.r 0 (2 ^ 57) ∧
        w.store = u.store ∧ w.xlat.unmaps = u.xlat.unmaps) ∧
    (rootOf u c.h.r ≠ none → enginesIn u c.h.r 0 (2 ^ 57) ≠ [] →
      ∃ t v, exec (.ptBaseSet c) s = .next t ∧ t.xlat.unmaps = u.xlat.unmaps ++ [v] ∧ v.cmd = openOf 0x180 c ∧
        v.waiting = enginesIn u c.h.r 0 (2 ^ 57) ∧ Forgotten t c.h.r 0 (2 ^ 57) ∧ t.store = u.store) := by
  have hbody := bodyPtBaseSet_eq hturn hform
  have hrooted (h : rootOf u c.h.r ≠ none) :
      exec (.ptBaseSet c) s = .next (runUnmap (baseUnmap c u).1 (baseUnmap c u).2) := by
    rw [if_pos (Option.isSome_iff_ne_none.mpr h)] at hbody
    exact congrArg _ (runPacket_later hrun hbody)
  refine ⟨fun hnone => ?unrooted, fun hroot hidle => ?ends, fun hroot hbusy => ?waits⟩
  case unrooted =>
    rw [hnone, Option.isSome_none, if_neg (by decide)] at hbody
    exact congrArg _ (runPacket_stat hrun hbody)
  case ends =>
    obtain ⟨w, hw, hunmaps, hroots, hforgot, hstore⟩ := runUnmap_ends (v := (baseUnmap c u).1) (s := (baseUnmap c u).2)
      rfl (Nat.zero_add _) rfl hfresh ((enginesIn_congr (s := u) rfl rfl _ _ _).trans hidle)
      ((isOpen_congr (s := u) rfl rfl _).trans (isOpen_of_runsIn hrun))
    refine ⟨w, (hrooted hroot).trans (congrArg _ hw), ?_, hforgot, hstore, hunmaps⟩
    rw [rootOf, hroots]
    exact lookupK_rootsAfter (v := (baseUnmap c u).1) rfl _
  case waits =>
    have hengines := enginesIn_congr (s := u) (t := (baseUnmap c u).2) rfl rfl c.h.r 0 (2 ^ 57)
    obtain ⟨v, hunmaps, hcmd, -, hwaiting, hforgot, hstore⟩ := runUnmap_waits (v := (baseUnmap c u).1)
      (s := (baseUnmap c u).2) rfl (Nat.zero_add _) rfl hfresh (by rw [← hengines] at hbusy; exact hbusy)
    exact ⟨_, v, hrooted hroot, hunmaps, hcmd, hwaiting.trans hengines, hforgot, hstore⟩

theorem mapRange_completes {c : Cmd} {s u : State} {slots : List Nat} (hrun : runsIn 0x181 c s = some u)
    (hform : mapForm c = true)
    (hturn : treeBusy u c.h.r (openOf 0x181 c) (c.p 0).toNat ((c.p 0).toNat + (c.p 1).toNat) = false)
    (hfound : mapSlots u (treeRq c) c.h.r (bits (c.p 3) 0 2) (c.p 0).toNat
      ((c.p 1).toNat / 2 ^ lvlShift (bits (c.p 3) 0 2)) 0 [] [] = .ok slots)
    (hslots : ∀ o ∈ slots, ∃ f fr x, TableSlot u (treeRq c) o f fr x) :
    exec (.mapRange c) s = .next (replied 0x181 c .ok (BitVec.allOnes 64) [] (treeDone c
      (writeLeaves (treeRq c) (mapLeaf c ((c.p 0).toNat / 2 ^ lvlShift (bits (c.p 3) 0 2) + slots.length))
        ((List.range slots.length).zip slots) u).2)) :=
  congrArg _ (runPacket_res hrun
    ((bodyMapRange_of_tableSlots hform hturn hfound hslots).trans (mapWrite_of_tableSlots hslots)))

/-- The only leaf of a range stands in its slot. -/
theorem held_writeLeaves_singleton {c : Cmd} {s : State} {q : Rq} {o f : Nat} {fr : Frame} {x : Extent}
    (h : TableSlot s q o f fr x) (leaf : Nat → Word) :
    held (treeDone c (writeLeaves q leaf ((List.range [o].length).zip [o]) s).2) o 8 = wordBytes (leaf 0) := by
  have hzip : (List.range [o].length).zip [o] = [(0, o)] := rfl
  have hwrite : (writeLeaves q leaf [(0, o)] s).2 = (tableWrite s q o (leaf 0)).2 := by
    rw [writeLeaves, tableWrite_of_tableSlot h]
    rfl
  rw [hzip, hwrite]
  exact (held_congr rfl o 8).trans (held_tableWrite h _)

theorem unmapRange_completes {c : Cmd} {s u : State} (hruns : UnmapRuns c s u)
    (htree : (c.p 2 = 0 ∧ WholeLeaves u c (c.p 0).toNat ((c.p 0).toNat + (c.p 1).toNat)) ∨
      (c.p 2 = 1 ∧ ClearTree u c (c.p 0).toNat ((c.p 0).toNat + (c.p 1).toNat))) :
    (enginesIn u c.h.r (c.p 0).toNat ((c.p 0).toNat + (c.p 1).toNat) = [] →
      ∃ w, exec (.unmapRange c) s = .next (replied 0x182 c .ok (BitVec.allOnes 64) [] w) ∧ w.xlat.roots = u.xlat.roots ∧
        w.xlat.unmaps = u.xlat.unmaps ∧ Forgotten w c.h.r (c.p 0).toNat ((c.p 0).toNat + (c.p 1).toNat) ∧
        (c.p 2 = 0 → w.store = u.store) ∧
        (c.p 2 = 1 → ∀ l, .leaf l ∈ foundIn u (treeRq c) c.h.r (c.p 0).toNat ((c.p 0).toNat + (c.p 1).toNat) →
          held w l.slot 8 = zeros 8)) ∧
    (enginesIn u c.h.r (c.p 0).toNat ((c.p 0).toNat + (c.p 1).toNat) ≠ [] →
      ∃ t v, exec (.unmapRange c) s = .next t ∧ t.xlat.unmaps = u.xlat.unmaps ++ [v] ∧ v.cmd = openOf 0x182 c ∧
        v.status = .ok ∧ v.waiting = enginesIn u c.h.r (c.p 0).toNat ((c.p 0).toNat + (c.p 1).toNat)) := by
  obtain ⟨t, hbody, hkept, hsame, hcleared⟩ := bodyUnmapRange_reaches hruns htree
  obtain ⟨hxlat, htiles, heng, hport, hqueues⟩ := hkept.elsewhere
  have hexec : exec (.unmapRange c) s = .next (runUnmap (rangeUnmap c u).1 (treeDone c t)) :=
    congrArg _ (runPacket_later hruns.runs hbody)
  have hlast : (treeDone c t).xlat.unmaps = u.xlat.unmaps ++ [(rangeUnmap c u).1] := congrArg Xlat.unmaps hxlat
  have hfresh : ∀ x ∈ u.xlat.unmaps, x.id ≠ (rangeUnmap c u).1.id := fun x hx => (hruns.new_ x hx).2
  have hengines := enginesIn_congr (s := u) (t := treeDone c t) htiles heng c.h.r (c.p 0).toNat
    ((c.p 0).toNat + (c.p 1).toNat)
  refine ⟨fun hidle => ?ends, fun hbusy => ?waits⟩
  case ends =>
    have hopen := (isOpen_congr (s := u) (t := treeDone c t) hport hqueues _).trans (isOpen_of_runsIn hruns.runs)
    obtain ⟨w, hw, hunmaps, hroots, hforgot, hstore⟩ := runUnmap_ends (v := (rangeUnmap c u).1) rfl rfl hlast hfresh
      (hengines.trans hidle) hopen
    have hkeeps : w.xlat.roots = (rangeUnmap c u).2.xlat.roots := by
      rw [hroots, rootsAfter_of_none rfl, ← hxlat]
      rfl
    exact ⟨w, hexec.trans (congrArg _ hw), hkeeps, hunmaps, hforgot, fun hzero => hstore.trans (hsame hzero),
      fun hone l hl => (held_congr hstore _ _).trans (hcleared hone l hl)⟩
  case waits =>
    obtain ⟨v, hunmaps, hcmd, hstatus, hwaiting, -⟩ := runUnmap_waits (v := (rangeUnmap c u).1) rfl rfl hlast hfresh
      (by rw [← hengines] at hbusy; exact hbusy)
    exact ⟨_, v, hexec, hunmaps, hcmd, hstatus, hwaiting.trans hengines⟩

/-- An invalidation that an engine has acknowledged. -/
def withoutEngine (e : EngineRef) (u : Unmap) : Unmap := { u with waiting := u.waiting.erase e }

def afterAck (id : Nat) (e : EngineRef) (u : Unmap) (s : State) : State :=
  { s with xlat := { s.xlat with unmaps := updIf s.xlat.unmaps (·.id == id) fun _ => withoutEngine e u } }

/-- An engine's acknowledgement takes it from the list, and the last one ends the invalidation. -/
theorem unmapEngineAck_eq {s : State} {id : Nat} {e : EngineRef} {u : Unmap} (hup : s.phase = .running)
    (hfind : s.xlat.unmaps.find? (·.id == id) = some u) (hwaits : e ∈ u.waiting) (hidle : engineIdle s u e = true) :
    exec (.unmapEngineAck id e) s = .next (if (u.waiting.erase e).isEmpty then
      endUnmap (withoutEngine e u) (afterAck id e u s) else afterAck id e u s) := by
  refine congrArg _ ((whenUp_of_running hup _).trans ?_)
  simp [hfind, hwaits, hidle, withoutEngine, afterAck]

theorem unmapEngineAck_completes {s : State} {id : Nat} {e : EngineRef} {u : Unmap} (hup : s.phase = .running)
    (hfind : s.xlat.unmaps.find? (·.id == id) = some u) (hwaits : e ∈ u.waiting) (hidle : engineIdle s u e = true) :
    (u.waiting.erase e ≠ [] → exec (.unmapEngineAck id e) s = .next
      { s with xlat.unmaps := updIf s.xlat.unmaps (·.id == id) fun _ => { u with waiting := u.waiting.erase e } }) ∧
    (u.waiting = [e] → isOpen u.cmd s = true → ∃ w, exec (.unmapEngineAck id e) s =
        .next (complete u.cmd u.status u.result [] w) ∧ w.xlat.unmaps = dropIf s.xlat.unmaps (·.id == id) ∧
      (u.newRoot = none → w.xlat.roots = s.xlat.roots) ∧ w.store = s.store) := by
  have hack := unmapEngineAck_eq hup hfind hwaits hidle
  refine ⟨fun hmore => ?more, fun hlast hopen => ?last⟩
  case more =>
    rw [hack, if_neg (by simpa using hmore)]
    rfl
  case last =>
    have hid : (withoutEngine e u).id = id := by simpa [withoutEngine] using List.find?_some hfind
    rw [hack, if_pos (by simp [hlast]), endUnmap_completes (v := withoutEngine e u) (s := afterAck id e u s) hopen, hid]
    exact ⟨_, rfl, dropIf_updIf hid, fun hnone => rootsAfter_of_none hnone _, rfl⟩

theorem translationCommandsComplete : TranslationCommandsComplete := by
  refine ⟨fun c s u => ptBaseSet_completes, fun c s u slots hrun hform hturn hfound hslots => ⟨?map, ?entry⟩,
    fun c s u => unmapRange_completes, fun s id e u => unmapEngineAck_completes⟩
  case map => exact mapRange_completes hrun hform hturn hfound hslots
  case entry =>
    rintro o rfl f fr x hslot
    exact ⟨_, mapRange_completes hrun hform hturn hfound hslots, held_writeLeaves_singleton hslot _⟩

/-- Settles O29: a table entry that nothing holds back is read and written at once and the write leaves every other such
entry so, an invalidation ends when it waits for no engine, and each way a walk's read goes is one step of the walk. -/
theorem translationComplete : Obligations.TranslationComplete := ⟨translationCommandsComplete, walkReadCompletes⟩

end Sys2Proof.Proofs

/-! Tiers and placement: masked writes to a frame, the ends of moves, flash reads and flash programs, and prefetch
schedules from their installation to the release of their runs. -/

namespace Sys2Proof.Proofs

open Sys2Proof.Machine Sys2Proof.Claims Sys2Proof.Laws

/-! ### A masked write to a frame (R66) -/

/-- Each byte of masked bytes laid over old ones: the byte given, or else the old one. -/
theorem getD_zipWith_mask (bs : List (Option Byte)) (m : List Host.Cell) (a : Nat) {i : Nat} (hi : i < bs.length) :
    (List.zipWith (fun (o : Option Byte) (b : Byte) => o.getD b) bs (memReadN m a bs.length)).getD i 0 =
      ((bs[i]?).bind id).getD (memGet m (a + i)) := by
  have hread : i < (memReadN m a bs.length).length := by simpa using hi
  have hold : (memReadN m a bs.length)[i] = memGet m (a + i) := by
    rw [← memReadN_getD m a bs.length hi, List.getD_eq_getElem _ _ hread]
  rw [List.getD_eq_getElem _ _ (by simpa using hi), List.getElem_zipWith, hold, List.getElem?_eq_getElem hi]
  rfl

theorem memGet_putBytes (t : Tier) (a : Nat) (bs : List (Option Byte)) (st : Store) (x : Nat) :
    memGet (putBytes t a bs st).mem x =
      if a ≤ x ∧ x < a + bs.length then ((bs[x - a]?).bind id).getD (memGet st.mem x) else memGet st.mem x := by
  have hlen : (List.zipWith (fun (o : Option Byte) (b : Byte) => o.getD b) bs (memReadN st.mem a bs.length)).length =
      bs.length := by simp
  simp only [putBytes]
  split
  next hin =>
    obtain ⟨i, rfl⟩ := Nat.exists_eq_add_of_le hin.1
    have hi : i < bs.length := by omega
    rw [memGet_memWriteN_in _ _ _ (hlen.symm ▸ hi), getD_zipWith_mask bs st.mem a hi, Nat.add_sub_cancel_left]
  next hout => exact memGet_memWriteN_out _ _ _ (by omega)

/-- Settles O26: the bytes written are the old ones with the given ones laid over them. -/
theorem frameWriteStoresBytes : Obligations.FrameWriteStoresBytes :=
  fun t a bs st x => ⟨memGet_putBytes t a bs st x, rfl, rfl, rfl⟩

/-! ### What giving up frames leaves of the store (R60, R87) -/

/-- Frames are given up: the frame map and the objects stay, and work only ends. -/
structure FramesGiven (st st' : Store) : Prop where
  pages   : st'.pages = st.pages
  objects : st'.objects = st.objects
  moves   : ∀ m ∈ st'.moves, m ∈ st.moves
  progs   : ∀ p ∈ st'.progs, p ∈ st.progs

theorem FramesGiven.trans {st st' st'' : Store} (h : FramesGiven st st') (h' : FramesGiven st' st'') :
    FramesGiven st st'' :=
  ⟨h'.pages.trans h.pages, h'.objects.trans h.objects, fun m hm => h.moves m (h'.moves m hm),
    fun p hp => h.progs p (h'.progs p hp)⟩

theorem framesGiven_freeFrame (f : Nat) (st : Store) : FramesGiven st (freeFrame f st) :=
  ⟨rfl, rfl, fun _ => id, fun _ => id⟩

theorem framesGiven_foldl_freeFrame (fs : List Nat) (st : Store) :
    FramesGiven st (fs.foldl (fun st f => freeFrame f st) st) :=
  List.foldlRecOn (motive := FramesGiven st) fs _ ⟨rfl, rfl, fun _ => id, fun _ => id⟩
    fun st' h f _ => h.trans (framesGiven_freeFrame f st')

theorem framesGiven_dropWork (f : Nat) (st : Store) : FramesGiven st (dropWork f st) := by
  refine FramesGiven.trans ⟨?pages, ?objects, ?moves, ?progs⟩ (framesGiven_foldl_freeFrame _ _)
  case pages => rfl
  case objects => rfl
  case moves => exact fun m hm => (mem_dropIf.mp hm).1
  case progs => exact fun p hp => (mem_dropIf.mp hp).1

theorem framesGiven_releaseFrame (page f : Nat) (s : State) : FramesGiven s.store (releaseFrame page f s).store := by
  have hdrop := framesGiven_dropWork f s.store
  simp only [releaseFrame]
  split
  · exact ⟨hdrop.pages, hdrop.objects, hdrop.moves, hdrop.progs⟩
  · exact hdrop.trans (framesGiven_freeFrame f _)

theorem findPage_congr {st st' : Store} (h : st'.pages = st.pages) (n : Nat) : findPage st' n = findPage st n := by
  simp only [findPage, h]

/-- A page's entry is found as it was set; an absent page without a copy is found absent. -/
theorem findPage_setPage_self {p : Page} {n : Nat} (hn : p.n = n) (st : Store) : findPage (setPage p st) n = p := by
  have hrest : (dropIf st.pages (·.n == p.n)).find? (·.n == p.n) = none :=
    List.find?_eq_none.mpr fun q hq => by simpa using (mem_dropIf.mp hq).2
  subst hn
  by_cases habsent : p.home = none ∧ p.copy = none
  · obtain ⟨n, home, copy⟩ := p
    obtain ⟨rfl, rfl⟩ := habsent
    simp [findPage, setPage, hrest]
  · simp [findPage, setPage, habsent, hrest]

/-- A page has the copy that its entry was given. -/
theorem copy_setPage (page : Nat) (c : Option Copy) (st : Store) :
    (findPage (setPage { findPage st page with copy := c } st) page).copy = c :=
  congrArg Page.copy (findPage_setPage_self (p := { findPage st page with copy := c }) (findPage_n st page) st)

/-! ### The end of what a tier command waits for (R76) -/

theorem completeIf_store (o : Open) (st : Status) (result : Word) (payload : List Byte) (s : State) :
    (completeIf o st result payload s).store = s.store := by
  obtain ⟨p, q, h⟩ := completeIf_only o st result payload s
  rw [h]

/-- Of the store, tier commands that return change their own list only. -/
theorem endTierCmds_store (s : State) : ∃ cmds, (endTierCmds s).store = { s.store with tierCmds := cmds } :=
  ⟨_, List.foldlRecOn (motive := fun (t : State) =>
      t.store = { s.store with tierCmds := dropIf s.store.tierCmds (·.pending.isEmpty) }) _ _ rfl
    fun _ h _ _ => (completeIf_store ..).trans h⟩

theorem tierEnd_store (id : Nat) (st : Status) (page : Nat) (s : State) : ∃ cmds,
    (tierEnd id st page s).store = { s.store with tierCmds := cmds } :=
  endTierCmds_store _

section TierEnd
variable (id : Nat) (st : Status) (page : Nat) (s : State)

@[simp] theorem tierEnd_pages : (tierEnd id st page s).store.pages = s.store.pages := by
  obtain ⟨cmds, h⟩ := tierEnd_store id st page s
  rw [h]

@[simp] theorem tierEnd_mem : (tierEnd id st page s).store.mem = s.store.mem := by
  obtain ⟨cmds, h⟩ := tierEnd_store id st page s
  rw [h]

@[simp] theorem tierEnd_moves : (tierEnd id st page s).store.moves = s.store.moves := by
  obtain ⟨cmds, h⟩ := tierEnd_store id st page s
  rw [h]

@[simp] theorem tierEnd_progs : (tierEnd id st page s).store.progs = s.store.progs := by
  obtain ⟨cmds, h⟩ := tierEnd_store id st page s
  rw [h]

@[simp] theorem tierEnd_units : (tierEnd id st page s).store.units = s.store.units := by
  obtain ⟨cmds, h⟩ := tierEnd_store id st page s
  rw [h]

@[simp] theorem findPage_tierEnd (n : Nat) : findPage (tierEnd id st page s).store n = findPage s.store n :=
  findPage_congr (tierEnd_pages id st page s) n

end TierEnd

/-! ### Moves (R74, R77) -/

section Granule
variable {s : State} {id : Nat} {m : Move} {g : Fin 16}

/-- A granule of a move that may be copied now, with its source readable and its destination in service. -/
structure MayCopy (s : State) (id : Nat) (m : Move) (g : Fin 16) : Prop where
  up       : s.phase = .running
  found    : s.store.moves.find? (·.id == id) = some m
  fresh    : g ∉ m.done
  turn     : m.done ≠ [] ∨ firstWork s.store m.page id m.why = true
  dst      : tierStopped s (frameTier s.store m.dst) = false
  src      : ∀ fr, findFrame s.store m.src = some fr → frameFenced s fr (m.page * 65536 + g.val * 4096) = false
  readable : badAt s.store (frameTier s.store m.src) (m.src * 65536 + g.val * 4096) 4096 = false

/-- The bytes of a granule go to the destination frame. -/
def copyGranule (m : Move) (g : Fin 16) (st : Store) : Store :=
  { st with mem := memCopyN st.mem (m.src * 65536 + g.val * 4096) 4096 (m.dst * 65536 + g.val * 4096) }

/-- What the sixteenth granule leaves: the page is moved, and what waits for the move goes on. -/
def endMove (id : Nat) (m : Move) (g : Fin 16) (s : State) : State :=
  tierEnd id .ok m.page (releaseFrame m.page m.src { s with
    store := replaceFrame m.src m.dst { copyGranule m g s.store with moves := dropIf s.store.moves (·.id == id) } })

theorem granuleCopy_of_mayCopy (h : MayCopy s id m g) : exec (.granuleCopyComplete id g) s = .next
    (if m.done.length + 1 < 16 then
      { s with store := { copyGranule m g s.store with
          moves := updIf s.store.moves (·.id == id) fun m => { m with done := m.done ++ [g] } } }
    else endMove id m g s) := by
  have hturn : (!m.done.isEmpty || firstWork s.store m.page id m.why) = true := by simpa using h.turn
  refine congrArg _ ((whenUp_of_running h.up _).trans ?_)
  cases hframe : findFrame s.store m.src with
  | none => simp [h.found, h.fresh, hturn, h.dst, h.readable, hframe, copyGranule, endMove]
  | some fr => simp [h.found, h.fresh, hturn, h.dst, h.readable, hframe, h.src fr hframe, copyGranule, endMove]

theorem memGet_copyGranule_in (m : Move) (g : Fin 16) (st : Store) {i : Nat} (hi : i < 4096) :
    memGet (copyGranule m g st).mem (m.dst * 65536 + g.val * 4096 + i) =
      memGet st.mem (m.src * 65536 + g.val * 4096 + i) :=
  memGet_memCopyN_in _ _ _ _ hi

theorem memGet_copyGranule_out (m : Move) (g : Fin 16) (st : Store) {a : Nat}
    (ha : a < m.dst * 65536 + g.val * 4096 ∨ m.dst * 65536 + g.val * 4096 + 4096 ≤ a) :
    memGet (copyGranule m g st).mem a = memGet st.mem a :=
  memGet_memCopyN_out _ _ _ _ ha

/-- The move is over. -/
theorem endMove_moves (id : Nat) (m : Move) (g : Fin 16) (s : State) : ∀ q ∈ (endMove id m g s).store.moves, q.id ≠ id := by
  intro q hq
  rw [endMove, tierEnd_moves] at hq
  obtain ⟨q', hq', rfl⟩ := List.mem_map.mp ((framesGiven_releaseFrame _ _ _).moves q hq)
  simpa using (mem_dropIf.mp hq').2

/-- A page whose home was the source frame has the destination frame as its home. -/
theorem endMove_home (id : Nat) {m : Move} (g : Fin 16) {s : State} {p : Page} (hp : p ∈ s.store.pages)
    (hhome : p.home = some m.src) : ∃ q ∈ (endMove id m g s).store.pages, q.n = p.n ∧ q.home = some m.dst := by
  rw [endMove, tierEnd_pages, (framesGiven_releaseFrame _ _ _).pages]
  exact ⟨_, List.mem_map_of_mem hp, rfl, by simp [hhome]⟩

end Granule

theorem movesComplete : MovesComplete := by
  intro s id m g hup hfound hfresh hturn hdst hsrc hreadable
  have hcopy := granuleCopy_of_mayCopy ⟨hup, hfound, hfresh, hturn, hdst, hsrc, hreadable⟩
  refine ⟨fun hmore => ?more, fun hlast p hp hpage hhome _ => ?last⟩
  case more =>
    rw [hcopy, if_pos hmore]
    exact ⟨_, rfl, rfl, fun i => memGet_copyGranule_in m g s.store, fun a => memGet_copyGranule_out m g s.store⟩
  case last =>
    rw [hcopy, if_neg (by omega)]
    exact ⟨_, rfl, endMove_moves id m g s, hpage ▸ endMove_home id g hp hhome⟩

/-! ### What a flash read leaves in the layer (R91, R94, R95) -/

/-- The flash layer counts, retires and logs: the store and everything else stay. -/
def LayerOnly (s t : State) : Prop :=
  ∃ i fl e n sd, t = { s with freeIdx := i, flash := fl, err := e, nv := n, side := sd }

theorem LayerOnly.refl (s : State) : LayerOnly s s := ⟨_, _, _, _, _, rfl⟩

theorem LayerOnly.trans {s t v : State} (h : LayerOnly s t) (h' : LayerOnly t v) : LayerOnly s v := by
  obtain ⟨i, fl, e, n, sd, rfl⟩ := h
  obtain ⟨i', fl', e', n', sd', rfl⟩ := h'
  exact ⟨_, _, _, _, _, rfl⟩

theorem LayerOnly.store {s t : State} (h : LayerOnly s t) : t.store = s.store := by
  obtain ⟨i, fl, e, n, sd, rfl⟩ := h
  rfl

theorem layerOnly_flash (s : State) (fl : List Cluster) : LayerOnly s { s with flash := fl } := ⟨_, _, _, _, _, rfl⟩

theorem layerOnly_recFlash (k event arg : Nat) (s : State) : LayerOnly s (recFlash k event arg s) := by
  obtain ⟨e, o, n, h⟩ := detect_only { Rec.blank 0x000D with
    point := 0x07, unit := unitSaddlebag k, arg0 := BitVec.ofNat 64 arg, arg1 := Config.flashEvent event } s
  exact ⟨_, _, _, _, _, h⟩

theorem layerOnly_alert (i : Nat) (s : State) : LayerOnly s (alert i s) := by
  obtain ⟨a, n, h⟩ := alert_only i s
  exact ⟨_, _, _, _, _, h⟩

theorem layerOnly_setClusterState (k : Nat) (st : BitVec 4) (s : State) : LayerOnly s (setClusterState k st s) := by
  unfold setClusterState
  split
  · exact .refl s
  · exact ((layerOnly_flash s _).trans (layerOnly_recFlash k 4 st.toNat _)).trans (layerOnly_alert 1 _)

theorem layerOnly_spareState (k : Nat) (s : State) : LayerOnly s (spareState k s) := by
  simp only [spareState]
  split
  · exact .refl s
  · exact layerOnly_setClusterState k _ s

theorem layerOnly_takeSpare (k : Nat) (s : State) : LayerOnly s (takeSpare k s) := ⟨_, _, _, _, _, rfl⟩

theorem layerOnly_retireBlock (k die block : Nat) (s : State) : LayerOnly s (retireBlock k die block s) := by
  unfold retireBlock
  split
  · exact .refl s
  · exact (((layerOnly_flash s _).trans (layerOnly_takeSpare k _)).trans (layerOnly_recFlash k 0 _ _)).trans
      (layerOnly_spareState k _)

theorem layerOnly_softBlock (k die block : Nat) (s : State) : LayerOnly s (softBlock k die block s) := by
  unfold softBlock
  split
  · exact layerOnly_retireBlock k die block s
  · exact layerOnly_flash s _

theorem layerOnly_countRead (k frame : Nat) (units : List UnitRead) (s : State) :
    LayerOnly s (countRead k frame units s) := by
  have hqueue : LayerOnly s (queueReloc k (units.filter fun u => u = .soft || u = .rebuilt).length s) := layerOnly_flash s _
  simp only [countRead]
  split
  · exact hqueue
  · refine List.foldlRecOn (motive := LayerOnly s) _ _ hqueue fun t ht p _ => ?_
    split
    · exact (ht.trans (layerOnly_flash t _)).trans (layerOnly_softBlock k _ _ _)
    · exact ht.trans (layerOnly_flash t _)

/-! ### Flash reads (R78, R90, R91, R425) -/

/-- A flash read whose turn it is, of a cluster in service, whose four units could all be read. -/
structure ReadsWell (s : State) (id : Nat) (r : FlashRead) (units : List UnitRead) : Prop where
  up      : s.phase = .running
  found   : s.store.reads.find? (·.id == id) = some r
  turn    : firstWork s.store r.page id r.why = true
  core    : coreRestarting s (16 + clusterOf r.page) = false
  form    : unitsMayRead s (clusterOf r.page) r.src units = true
  cluster : unitFenced s (unitSaddlebag (clusterOf r.page)) = false
  good    : r.src * 65536 ∉ s.store.bad
  noInj   : s.err.inj = []
  read    : UnitRead.failed ∉ units

theorem flashInj_of_no_inj {s : State} {page h : Nat} (hgood : h * 65536 ∉ s.store.bad) (hinj : s.err.inj = [])
    (units : List UnitRead) : flashInj page h units s = (units, s) := by
  simp [flashInj, hgood, hinj]

section Read
variable {s : State} {id : Nat} {r : FlashRead} {units : List UnitRead} (h : ReadsWell s id r units)
include h

theorem flashRead_direct_of_readsWell (hdst : r.dst = none) (hwhy : r.why = .direct) :
    exec (.flashReadComplete id units) s = .next (directDone r.page r.src .read
      { countRead (clusterOf r.page) r.src units s with store.reads := dropIf s.store.reads (·.id == id) }) := by
  have hstore := (layerOnly_countRead (clusterOf r.page) r.src units s).store
  have hturn : firstWork s.store r.page id .direct = true := hwhy ▸ h.turn
  refine congrArg _ ((whenUp_of_running h.up _).trans ?_)
  simp [h.found, hturn, h.core, h.form, h.cluster, hdst, hwhy, flashInj_of_no_inj h.good h.noInj, h.read, hstore]

theorem flashRead_install_of_readsWell {f : Nat} (hdst : r.dst = some f)
    (htier : tierStopped s (frameTier s.store f) = false) :
    exec (.flashReadComplete id units) s = .next (installRead r f (countRead (clusterOf r.page) r.src units s)) := by
  refine congrArg _ ((whenUp_of_running h.up _).trans ?_)
  simp [h.found, h.turn, h.core, h.form, h.cluster, hdst, htier, flashInj_of_no_inj h.good h.noInj, h.read]

end Read

/-- The bytes of the frame read are in the new frame, and the read is over. -/
def readInto (r : FlashRead) (f : Nat) (st : Store) : Store :=
  copyFrame r.src f { st with reads := dropIf st.reads (·.id == r.id) }

@[simp] theorem findPage_readInto (r : FlashRead) (f : Nat) (st : Store) (n : Nat) :
    findPage (readInto r f st) n = findPage st n := rfl

@[simp] theorem pageObj_readInto (r : FlashRead) (f : Nat) (st : Store) (n : Nat) :
    pageObj (readInto r f st) n = pageObj st n := rfl

theorem readInto_eq (r : FlashRead) (f : Nat) (st : Store) :
    copyFrame r.src f { st with reads := dropIf st.reads (·.id == r.id) } = readInto r f st := rfl

theorem memGet_readInto (r : FlashRead) (f : Nat) (st : Store) {i : Nat} (hi : i < 65536) :
    memGet (readInto r f st).mem (f * 65536 + i) = memGet st.mem (r.src * 65536 + i) :=
  memGet_memCopyN_in _ _ _ _ hi

/-- The clean copy that a read installs. -/
def cleanCopy (f : Nat) (pinned : Bool) (st : Store) : Copy :=
  { frame := f, dirty := false, pinned := pinned, order := st.nextCopy }

theorem copy_setCopy_clean (page f : Nat) (pinned : Bool) (s : State) :
    (findPage (setCopy page f false pinned s).store page).copy = some (cleanCopy f pinned s.store) :=
  copy_setPage page (some (cleanCopy f pinned s.store)) s.store

section Install
variable {s : State} {r : FlashRead} (f : Nat) (hhome : (findPage s.store r.page).home = some r.src)
  (hcopy : (findPage s.store r.page).copy = none)
include hhome hcopy

/-- A page of a flash-backed object gets a clean copy. -/
theorem installRead_backed {o : Obj} (hobj : pageObj s.store r.page = some o) (hbacked : flashBacked o.policy = true) :
    installRead r f s = tierEnd r.id .ok r.page
      (setCopy r.page f false (o.pins.contains r.page) { s with store := readInto r f s.store }) := by
  simp [installRead, readInto_eq, hhome, hcopy, hobj, hbacked]

/-- Any other page gets a new home, and its flash frame is released. -/
theorem installRead_home (hother : ∀ o, pageObj s.store r.page = some o → flashBacked o.policy = false) :
    installRead r f s = tierEnd r.id .ok r.page (releaseFrame r.page r.src { s with
      store := setPage { findPage s.store r.page with home := some f } (readInto r f s.store) }) := by
  cases hobj : pageObj s.store r.page with
  | none => simp [installRead, readInto_eq, hhome, hcopy, hobj]
  | some o => simp [installRead, readInto_eq, hhome, hcopy, hobj, hother o hobj]

end Install

theorem flashReadsComplete : FlashReadsComplete := by
  intro s id r units hup hfound hturn hcore hform hcluster hgood hinj hread
  have hruns : ReadsWell s id r units := ⟨hup, hfound, hturn, hcore, hform, hcluster, hgood, hinj, hread⟩
  refine ⟨flashRead_direct_of_readsWell hruns, fun f hdst htier hhome hcopy => ?_⟩
  rw [flashRead_install_of_readsWell hruns hdst htier]
  have hstore := (layerOnly_countRead (clusterOf r.page) r.src units s).store
  rw [← hstore] at hhome hcopy ⊢
  generalize countRead (clusterOf r.page) r.src units s = v at hhome hcopy ⊢
  refine ⟨fun o hobj hbacked => ?backed, fun hother => ?other⟩
  case backed =>
    rw [installRead_backed f hhome hcopy hobj hbacked]
    refine ⟨_, cleanCopy f (o.pins.contains r.page) (readInto r f v.store), rfl, ?_, rfl, rfl, fun i hi => ?_⟩
    · rw [findPage_tierEnd, copy_setCopy_clean]
    · rw [tierEnd_mem]
      exact memGet_readInto r f v.store hi
  case other =>
    refine ⟨_, rfl, ?_⟩
    rw [installRead_home f hhome hcopy hother, findPage_tierEnd,
      findPage_congr (framesGiven_releaseFrame r.page r.src _).pages]
    exact congrArg Page.home (findPage_setPage_self (p := { findPage v.store r.page with home := some f })
      (findPage_n v.store r.page) (readInto r f v.store))

/-! ### Flash programs (R75, R78, R80, R90, R93) -/

/-- A flash program under way, of a cluster in service, whose source can be read and whose units the layer may place so. -/
structure Programs (s : State) (id : Nat) (p : FlashProg) (us : List FlashUnit) : Prop where
  up       : s.phase = .running
  found    : s.store.progs.find? (·.id == id) = some p
  begun    : p.held = false
  core     : coreRestarting s (16 + clusterOf p.page) = false
  form     : unitsOk s (clusterOf p.page) us = true
  cluster  : unitFenced s (unitSaddlebag (clusterOf p.page)) = false
  src      : pageFenced s p.src p.page = false
  copied   : p.why ≠ .direct
  readable : badAt s.store (frameTier s.store p.src) (p.src * 65536) 65536 = false

/-- The units are placed and counted. -/
def placed (p : FlashProg) (us : List FlashUnit) (s : State) : State :=
  placeUnits (clusterOf p.page) p.dst us (meterFlash (pageRider s p.page) 65536 s)

theorem store_meterFlash (r : BitVec 6) (n : Nat) (s : State) : (meterFlash r n s).store = s.store := rfl

theorem store_placeUnits (k f : Nat) (us : List FlashUnit) (s : State) : (placeUnits k f us s).store =
    { s.store with units := setK s.store.units f us, bad := dropIf s.store.bad fun b => b / 65536 == f } := rfl

theorem store_placed (p : FlashProg) (us : List FlashUnit) (s : State) : (placed p us s).store =
    { s.store with units := setK s.store.units p.dst us, bad := dropIf s.store.bad fun b => b / 65536 == p.dst } := by
  rw [placed, store_placeUnits, store_meterFlash]

/-- The program as it is made again. -/
def restarted (p : FlashProg) (s : State) : FlashProg :=
  let q : FlashProg := { p with stored := false, restarts := p.restarts + 1 }
  { q with held := !mayBegin s q }

/-- The program is over, and the flash frame holds the bytes of the copy. -/
def programmed (id : Nat) (p : FlashProg) (s : State) : State :=
  { s with store := copyFrame p.src p.dst { s.store with progs := dropIf s.store.progs (·.id == id) } }

/-- The page's copy is the same as its flash frame. -/
def cleaned (page : Nat) (s : State) : State :=
  { s with store := setPage { findPage s.store page with
      copy := (findPage s.store page).copy.map fun c => { c with dirty := false } } s.store }

section Program
variable {s : State} {id : Nat} {p : FlashProg} {us : List FlashUnit} (h : Programs s id p us)
include h

/-- A program that a store overtook is made again. -/
theorem flashProgram_of_stored (hstored : p.stored = true) :
    exec (.flashProgramComplete ⟨id, us⟩) s = .next { placed p us s with
      store.progs := updIf (placed p us s).store.progs (·.id == id) fun _ => restarted p (placed p us s) } := by
  refine congrArg _ ((whenUp_of_running h.up _).trans ?_)
  simp [h.found, h.begun, h.core, h.form, h.cluster, h.src, h.copied, h.readable, hstored, placed, restarted]

/-- Else the flash frame holds the copy, which is dropped or clean. What the meters count plays no part: it is hidden, as
comparing counts that differ by 65,536 is costly. -/
theorem flashProgram_of_not_stored (hstored : p.stored = false) :
    exec (.flashProgramComplete ⟨id, us⟩) s = .next (tierEnd id .ok p.page
      (if p.drop then dropCopy p.page (programmed id p (placed p us s))
        else cleaned p.page (programmed id p (placed p us s)))) := by
  refine congrArg _ ((whenUp_of_running h.up _).trans ?_)
  unfold placed programmed
  obtain ⟨meter, hmeter⟩ : ∃ m, m = meterFlash := ⟨_, rfl⟩
  rw [← hmeter]
  simp [h.found, h.begun, h.core, h.form, h.cluster, h.src, h.copied, h.readable, hstored, cleaned]

end Program

theorem progs_programmed (id : Nat) (p : FlashProg) (s : State) : ∀ q ∈ (programmed id p s).store.progs, q.id ≠ id := by
  intro q hq
  simpa using (mem_dropIf.mp hq).2

theorem memGet_programmed (id : Nat) (p : FlashProg) (s : State) {i : Nat} (hi : i < 65536) :
    memGet (programmed id p s).store.mem (p.dst * 65536 + i) = memGet s.store.mem (p.src * 65536 + i) :=
  memGet_memCopyN_in _ _ _ _ hi

theorem copy_cleaned {page : Nat} {s : State} {k : Copy} (h : (findPage (cleaned page s).store page).copy = some k) :
    k.dirty = false := by
  obtain ⟨c, -, rfl⟩ := Option.map_eq_some_iff.mp ((copy_setPage page _ s.store).symm.trans h)
  rfl

theorem copy_dropCopy (page : Nat) (s : State) : (findPage (dropCopy page s).store page).copy = none := by
  simp only [dropCopy]
  split
  next c _ =>
    rw [findPage_congr (framesGiven_releaseFrame page c.frame _).pages]
    exact copy_setPage page none s.store
  next hnone => exact hnone

theorem progs_dropCopy (page : Nat) (s : State) : ∀ q ∈ (dropCopy page s).store.progs, q ∈ s.store.progs := by
  simp only [dropCopy]
  split
  · exact (framesGiven_releaseFrame _ _ _).progs
  · exact fun _ => id

theorem flashProgramsComplete : FlashProgramsComplete := by
  intro s id p us hup hfound hheld hcore hform hcluster hsrc hwhy hreadable
  have hprog : Programs s id p us := ⟨hup, hfound, hheld, hcore, hform, hcluster, hsrc, hwhy, hreadable⟩
  have hmem : (placed p us s).store.mem = s.store.mem := by rw [store_placed]
  have hunits : lookupK (placed p us s).store.units p.dst = some us := by
    rw [store_placed]
    exact lookupK_setK_same _ _ _
  refine ⟨fun hstored => ?stored, fun hstored hdrop => ?kept, fun hstored hdrop => ?dropped⟩
  case stored =>
    refine ⟨_, flashProgram_of_stored hprog hstored, hmem, fun q hq hid => ?_⟩
    obtain ⟨x, -, rfl⟩ := List.mem_map.mp hq
    by_cases hx : x.id = id
    · simp [hx, restarted]
    · simp [hx] at hid
  case kept =>
    rw [flashProgram_of_not_stored hprog hstored, hdrop, ← hmem]
    refine ⟨_, rfl, ?_, ?_, fun i hi => ?_, fun k hk => ?_⟩
    · rw [tierEnd_progs]
      exact progs_programmed id p _
    · rw [tierEnd_units]
      exact hunits
    · rw [tierEnd_mem]
      exact memGet_programmed id p _ hi
    · rw [findPage_tierEnd] at hk
      exact copy_cleaned hk
  case dropped =>
    rw [flashProgram_of_not_stored hprog hstored, hdrop]
    refine ⟨_, rfl, ?_, ?_⟩
    · rw [tierEnd_progs]
      exact fun q hq => progs_programmed id p _ q (progs_dropCopy _ _ q hq)
    · rw [findPage_tierEnd]
      exact copy_dropCopy _ _

/-- Settles O35: nothing that ends with a granule, a read or a program of a page undoes what that end leaves: a release only
ends more work, and a command that waited only returns. -/
theorem movesAndFlashComplete : Obligations.MovesAndFlashComplete :=
  ⟨movesComplete, flashReadsComplete, flashProgramsComplete⟩

/-! ### What the tier mover leaves of schedules and sync objects (R73, R78, R84, R85) -/

/-- The objects with their schedules, and the sync objects, stay as they are; with no injection armed, none is armed after. -/
structure SchedKept (s t : State) : Prop where
  objects : t.store.objects = s.store.objects
  sync    : t.sync = s.sync
  noInj   : s.err.inj = [] → t.err.inj = []

theorem SchedKept.refl (s : State) : SchedKept s s := ⟨rfl, rfl, fun h => h⟩

theorem SchedKept.trans {s t v : State} (h : SchedKept s t) (h' : SchedKept t v) : SchedKept s v :=
  ⟨h'.objects.trans h.objects, h'.sync.trans h.sync, fun hinj => h'.noInj (h.noInj hinj)⟩

theorem schedKept_ite {s t v : State} {c : Prop} [Decidable c] (ht : SchedKept s t) (hv : SchedKept s v) :
    SchedKept s (if c then t else v) := by
  split
  · exact ht
  · exact hv

theorem schedKept_foldl {α : Type} {f : State → α → State} (hstep : ∀ s a, SchedKept s (f s a)) (l : List α) (s : State) :
    SchedKept s (l.foldl f s) :=
  List.foldlRecOn l f (SchedKept.refl s) fun t ht a _ => ht.trans (hstep t a)

theorem schedKept_store {s : State} {st : Store} (h : st.objects = s.store.objects) : SchedKept s { s with store := st } :=
  ⟨h, rfl, fun hinj => hinj⟩

theorem schedKept_releaseFrame (page f : Nat) (s : State) : SchedKept s (releaseFrame page f s) := by
  obtain ⟨st, h⟩ := releaseFrame_only page f s
  have hobjects := (framesGiven_releaseFrame page f s).objects
  rw [h] at hobjects ⊢
  exact schedKept_store hobjects

theorem schedKept_setPage (p : Page) (s : State) : SchedKept s { s with store := setPage p s.store } := schedKept_store rfl

theorem schedKept_dropCopy (page : Nat) (s : State) : SchedKept s (dropCopy page s) := by
  simp only [dropCopy]
  split
  · exact (schedKept_setPage { findPage s.store page with copy := none } s).trans (schedKept_releaseFrame page _ _)
  · exact .refl s

theorem schedKept_startProg (page src dst : Nat) (drop : Bool) (why : MoveWhy) (s : State) :
    SchedKept s (startProg page src dst drop why s) := schedKept_store rfl

theorem schedKept_evictCopy (s : State) (page : Nat) (c : Copy) (why : MoveWhy) : SchedKept s (evictCopy s page c why) := by
  refine schedKept_ite ?dirty ?clean
  case dirty =>
    split
    · exact schedKept_startProg page c.frame _ true why s
    · exact .refl s
  case clean =>
    exact (schedKept_setPage { findPage s.store page with copy := none } s).trans (schedKept_releaseFrame page c.frame _)

theorem schedKept_roomForCopy (s : State) (o : Obj) : SchedKept s (roomForCopy s o).2 := by
  unfold roomForCopy
  split
  · exact .refl s
  · split
    · exact .refl s
    · split
      · exact .refl s
      · exact schedKept_evictCopy s _ _ .demand

theorem schedKept_failAt (a : Orders) (st : Status) (page : Nat) : SchedKept a.st (a.failAt st page).st := by
  unfold Orders.failAt
  split <;> exact .refl a.st

theorem schedKept_ordRead (page src : Nat) (t : Option Tier) (why : MoveWhy) (a : Orders) :
    SchedKept a.st (ordRead page src t why a).st := by
  cases t with
  | none =>
    simp only [ordRead]
    split
    · exact schedKept_failAt a .fenced page
    · exact schedKept_store rfl
  | some t =>
    simp only [ordRead]
    split
    · exact schedKept_failAt a .fenced page
    · exact schedKept_store rfl

theorem schedKept_cancelFill (base pass entry : Nat) (s : State) : SchedKept s (cancelFill base pass entry s) :=
  schedKept_store (framesGiven_foldl_freeFrame _ _).objects

theorem schedKept_dropRunCopies (o : Obj) (x : Sched) (r : SchedRun) (s : State) : SchedKept s (dropRunCopies o x r s) := by
  refine schedKept_foldl (fun s n => ?_) r.copies s
  split
  · exact .refl s
  · split
    · exact .refl s
    next c _ =>
      split
      · split
        · exact schedKept_store rfl
        · split
          · exact .refl s
          · exact schedKept_evictCopy s n c _
      · exact schedKept_dropCopy n s

/-! ### A page of a streamed window that cannot be read (R76, R335) -/

theorem inj_logErr (r : Rec) (s : State) : (logErr r s).err.inj = s.err.inj := by
  unfold logErr
  split <;> rfl

theorem inj_writeRec (r : Rec) (s : State) : (writeRec r s).err.inj = s.err.inj := by
  have hlog : (if recToErr r.type.toNat then logErr { r with time := s.now } s else s).err.inj = s.err.inj := by
    split
    · exact inj_logErr _ s
    · rfl
  simp only [writeRec]
  split <;> split <;> exact hlog

theorem inj_detect {r : Rec} {s : State} (h : s.err.inj = []) : (detect r s).err.inj = [] := by
  have hnone : takeInj r.point r.unit s = (false, s) := by simp [takeInj, h]
  simp only [detect, hnone, inj_writeRec, h]

theorem schedKept_detect (r : Rec) (s : State) : SchedKept s (detect r s) := by
  obtain ⟨e, o, n, h⟩ := detect_only r s
  refine ⟨?_, ?_, inj_detect⟩ <;> rw [h]

theorem schedKept_markFence (u : BitVec 16) (trigger : Nat) (s : State) : SchedKept s (markFence u trigger s) := by
  obtain ⟨e, o, n, h⟩ := markFence_only u trigger s
  refine ⟨?_, ?_, fun hinj => inj_detect hinj⟩ <;> rw [h]

theorem schedKept_countUncorr (u : BitVec 16) (off : Nat) (s : State) : SchedKept s (countUncorr u off s) := by
  have hcounted (l : List (BitVec 16 × Nat × Word)) : SchedKept s { s with err.uncorr := l } := ⟨rfl, rfl, fun h => h⟩
  exact schedKept_ite ((hcounted _).trans (schedKept_markFence u 5 _)) (hcounted _)

theorem schedKept_recMoveFail (page : Nat) (st : Status) (s : State) : SchedKept s (recMoveFail page st s) :=
  schedKept_ite ((schedKept_detect _ s).trans (schedKept_countUncorr _ _ _)) (.refl s)

theorem schedKept_fillPage (p : Page) (s : State) : SchedKept s (fillPage p s) := by
  unfold fillPage
  split
  · exact .refl s
  · exact schedKept_ite (.refl s) (schedKept_ite (schedKept_recMoveFail p.n .uncorrectable s) (schedKept_store rfl))

/-! ### A sync object counts up (R193) -/

theorem syncVal_setSyncVal (obj : Nat) (v : Word) (s : State) : syncVal (setSyncVal obj v s) obj = v := by
  by_cases hv : v = 0
  · have hvals : (setSyncVal obj v s).sync.vals = dropIf s.sync.vals (·.1 = obj) := if_pos hv
    rw [syncVal, hvals, lookupK_dropIf_self, hv]
    rfl
  · have hvals : (setSyncVal obj v s).sync.vals = setK s.sync.vals obj v := if_neg hv
    rw [syncVal, hvals, lookupK_setK_same]
    rfl

theorem makeReady_keeps (t : BitVec 10) (c : BitVec 4) (s : State) :
    (makeReady t c s).store = s.store ∧ (makeReady t c s).sync = s.sync := by
  simp only [makeReady]
  split
  · split <;> simp
  · exact ⟨rfl, rfl⟩

theorem endCtxWait_keeps (t : BitVec 10) (c : BitVec 4) (held : Bool) (s : State) :
    (endCtxWait t c held s).store = s.store ∧ (endCtxWait t c held s).sync = s.sync := by
  simp only [endCtxWait]
  split
  · exact ⟨rfl, rfl⟩
  · split
    · refine ⟨(makeReady_keeps t c _).1.trans ?_, (makeReady_keeps t c _).2.trans ?_⟩ <;> split <;> rfl
    · exact ⟨rfl, rfl⟩

/-- The end of a wait changes neither the store nor a sync object. -/
theorem endWait_keeps (held : Bool) (w : Wait) (s : State) :
    (endWait held w s).store = s.store ∧ (endWait held w s).sync = s.sync := by
  unfold endWait
  split
  · exact endCtxWait_keeps _ _ held s
  · obtain ⟨p, q, h⟩ := completeIf_only _ _ _ _ s
    rw [h]
    exact ⟨rfl, rfl⟩

/-- Waking its waiters, an object keeps the value that it was given. -/
theorem syncPut_keeps (obj : Nat) (v : Word) (s : State) :
    (syncPut obj v s).store = s.store ∧ syncVal (syncPut obj v s) obj = v := by
  simp only [syncPut, testWaits]
  refine List.foldlRecOn (motive := fun (t : State) => t.store = s.store ∧ syncVal t obj = v) _ _
    ⟨rfl, syncVal_setSyncVal obj v s⟩ ?_
  rintro t ⟨hstore, hval⟩ w -
  obtain ⟨hstore', hsync⟩ := endWait_keeps true w t
  refine ⟨hstore'.trans hstore, ?_⟩
  rw [syncVal, hsync]
  exact hval

theorem syncAdd_keeps {s : State} (hinj : s.err.inj = []) (obj : Nat) (v : Word) :
    (syncAdd obj v s).store = s.store ∧ syncVal (syncAdd obj v s) obj = syncVal s obj + v := by
  have huse : syncUse obj s = s := by simp [syncUse, injMode, hinj]
  simp only [syncAdd, huse]
  exact syncPut_keeps obj _ s

/-! ### The schedule of an object (R83 to R86) -/

theorem findObj_congr {st st' : Store} (h : st'.objects = st.objects) (base : Nat) : findObj st' base = findObj st base := by
  simp only [findObj, h]

theorem findObj_updSched {s : State} {base : Nat} {o : Obj} (f : Sched → Sched) (h : findObj s.store base = some o) :
    findObj (updSched base f s).store base = some { o with sched := o.sched.map f } := by
  have hfind : findObj (updSched base f s).store base =
      (findObj s.store base).map fun o => { o with sched := o.sched.map f } :=
    find?_updIf_self (f := fun o : Obj => { o with sched := o.sched.map f }) (fun _ => rfl) s.store.objects
  rw [hfind, h]
  rfl

/-- The object's schedule is the updated one, also after work that keeps the objects. -/
theorem sched_of_updSched {s t : State} {base : Nat} {o : Obj} {x : Sched} (f : Sched → Sched)
    (hobj : findObj s.store base = some o) (hsched : o.sched = some x)
    (hkept : t.store.objects = (updSched base f s).store.objects) :
    ∃ p, findObj t.store base = some p ∧ p.sched = some (f x) := by
  refine ⟨_, (findObj_congr hkept base).trans (findObj_updSched f hobj), ?_⟩
  simp only [hsched, Option.map_some]

theorem removeSched_of_none {o : Obj} (h : o.sched = none) (s : State) : removeSched o s = s := by
  simp only [removeSched, h]

/-- A schedule whose form and rights pass, for an object that has none and whose last one is released (R83, R84). -/
structure MaySchedule (c : Cmd) (u : State) (first : Nat) (o : Obj) : Prop where
  aligned  : (c.p 0).toNat % 65536 = 0
  inStore  : (c.p 0).toNat < 2 ^ 48
  low      : bits (c.p 1) 13 3 = 0
  high     : bits (c.p 1) 17 47 = 0
  nonempty : 1 ≤ bits (c.p 1) 0 13
  most     : bits (c.p 1) 0 13 ≤ 4096
  length   : c.payload.length = 32 * bits (c.p 1) 0 13
  here     : localRun u c.h.surrogate ((c.p 0).toNat / 65536) 1 = some first
  found    : findObj u.store first = some o
  policy   : o.policy = 3 ∨ o.policy = 5
  fresh    : o.sched = none
  form     : ((chunksB 32 (bits (c.p 1) 0 13) c.payload).mapIdx fun i b =>
    schedForm o (bits (c.p 1) 0 13) i b).all id = true
  rights   : ∀ b ∈ chunksB 32 (bits (c.p 1) 0 13) c.payload, (parseSched b).syncs.all (riderHasSync u c.h.r) = true
  thawed   : frozenRun u o.base o.pages = false
  released : releasing u.store o.base = false

theorem bodyPrefetchSchedule_installs {c : Cmd} {u : State} {first : Nat} {o : Obj} (h : MaySchedule c u first o) :
    bodyPrefetchSchedule c u = Eff.ok (updObj o.base (fun o => { o with sched := some (Sched.mk (bit (c.p 1) 16)
      ((chunksB 32 (bits (c.p 1) 0 13) c.payload).map parseSched) 0 []) }) u) := by
  have hrights : (chunksB 32 (bits (c.p 1) 0 13) c.payload).all
      (fun b => (parseSched b).syncs.all (riderHasSync u c.h.r)) = true := List.all_eq_true.mpr h.rights
  have hkind : (decide (o.policy = 3) || decide (o.policy = 5)) = true := by simpa using h.policy
  have hsome : bits (c.p 1) 0 13 ≠ 0 := Nat.one_le_iff_ne_zero.mp h.nonempty
  simp only [bodyPrefetchSchedule, h.aligned, h.low, h.high, h.length, h.here, Option.bind_some, h.found, hkind, h.form,
    hrights, h.thawed, removeSched_of_none h.fresh, h.released, hsome, decide_eq_true h.inStore, decide_eq_true h.most,
    beq_self_eq_true, Bool.and_self, Bool.not_true, Bool.false_eq_true, if_false]

/-! ### The start of an entry (R85) -/

/-- The next entry of a schedule has a run. -/
def startRun (pass entry : Nat) (x : Sched) : Sched :=
  { x with
    started := x.started + 1
    runs := pruneRuns pass x.runs ++ [{ pass := pass, entry := entry, copies := [], done := false, released := false }] }

/-- An entry whose trigger is met starts; its page-ins leave the schedule alone. -/
theorem scheduleEntryStart_starts {s : State} {base : Nat} {o : Obj} {x : Sched} {e : SchedEntry} (hup : s.phase = .running)
    (hobj : findObj s.store base = some o) (hsched : o.sched = some x)
    (hentry : x.entries[x.started % x.entries.length]? = some e) (hpass : x.started / x.entries.length = 0 ∨ x.loop = true)
    (htrig : trigMet s x (x.started / x.entries.length) (x.started % x.entries.length) e = true)
    (hroom : schedTaken o x + e.pageCount ≤ o.stagePages) : ∃ t, exec (.scheduleEntryStart base) s = .next t ∧
      SchedKept (updSched base (startRun (x.started / x.entries.length) (x.started % x.entries.length)) s) t := by
  have hagain : (decide (1 ≤ x.started / x.entries.length) && !x.loop) = false := by
    rcases hpass with hpass | hpass <;> simp [hpass]
  have hfits : decide (o.stagePages < schedTaken o x + e.pageCount) = false := by simpa using hroom
  refine ⟨_, rfl, ?_⟩
  rw [whenUp_of_running hup]
  simp only [hobj, hsched, hentry, hagain, htrig, hfits, Bool.not_true, Bool.or_self, Bool.false_eq_true, if_false]
  refine schedKept_ite (.refl _) ?_
  refine List.foldlRecOn (motive := fun (a : Orders) => SchedKept _ a.st) _ _ (.refl _) fun a ha p _ => ?_
  exact (ha.trans (schedKept_roomForCopy a.st o)).trans
    (schedKept_ordRead _ _ _ _ { a with st := (roomForCopy a.st o).2 })

/-! ### The end of a run's fill (R85) -/

/-- A run of an entry in a pass. -/
def isRun (pass entry : Nat) (k : SchedRun) : Bool := k.pass == pass && k.entry == entry

/-- What an update leaves under its test is an element that it changed. -/
theorem mem_updIf_of_hit {α : Type} {l : List α} {p : α → Bool} {f : α → α} {y : α} (hy : y ∈ updIf l p f)
    (hp : p y = true) : ∃ x ∈ l, y = f x := by
  obtain ⟨x, hx, rfl⟩ := List.mem_map.mp hy
  by_cases hit : p x = true
  · exact ⟨x, hx, if_pos hit⟩
  · rw [if_neg hit] at hp
    exact absurd hp hit

/-- `READY_SYNC` of an entry counts up. -/
def signalReady (e : SchedEntry) (s : State) : State :=
  match e.ready with
  | some obj => syncAdd obj 1 s
  | none => s

theorem signalReady_keeps {e : SchedEntry} {s : State} (hinj : s.err.inj = []) : (signalReady e s).store = s.store ∧
    ∀ obj, e.ready = some obj → syncVal (signalReady e s) obj = syncVal s obj + 1 := by
  unfold signalReady
  split
  next obj hready =>
    obtain ⟨hstore, hval⟩ := syncAdd_keeps hinj obj 1
    refine ⟨hstore, ?_⟩
    rintro _ hobj
    obtain rfl := Option.some.inj (hready.symm.trans hobj)
    exact hval
  next hready => exact ⟨rfl, fun obj hobj => nomatch hready.symm.trans hobj⟩

/-- A run's fill is complete: it has its own copies. -/
def runFilled (pass entry : Nat) (own : List Nat) (x : Sched) : Sched :=
  { x with runs := updIf x.runs (isRun pass entry) fun k => { k with copies := own, done := true } }

theorem completeRun_fills (base : Nat) (o : Obj) (r : SchedRun) (e : SchedEntry) (s : State) : ∃ v own,
    SchedKept s v ∧ completeRun base o r e s = signalReady e (updSched base (runFilled r.pass r.entry own) v) := by
  refine ⟨_, _, ?_, rfl⟩
  exact schedKept_ite (schedKept_foldl (fun s p => schedKept_fillPage p s) _ s) (.refl s)

/-- What the update leaves of the run itself. -/
theorem done_of_runFilled {pass entry : Nat} {own : List Nat} {x : Sched} {q : SchedRun}
    (hq : q ∈ (runFilled pass entry own x).runs) (hpass : q.pass = pass) (hentry : q.entry = entry) : q.done = true := by
  obtain ⟨k, -, rfl⟩ := mem_updIf_of_hit hq (by simp [isRun, hpass, hentry])
  rfl

/-- A run is released: it has no copies, and the runs that share them have them. -/
def runReleased (o : Obj) (r : SchedRun) (pass entry : Nat) (x : Sched) : Sched :=
  { x with
    runs := updIf (handOver o x r) (isRun pass entry) fun k => { k with done := true, released := true, copies := [] } }

theorem empty_of_runReleased {o : Obj} {r : SchedRun} {pass entry : Nat} {x : Sched} {q : SchedRun}
    (hq : q ∈ (runReleased o r pass entry x).runs) (hpass : q.pass = pass) (hentry : q.entry = entry) :
    q.released = true ∧ q.done = true ∧ q.copies = [] := by
  obtain ⟨k, -, rfl⟩ := mem_updIf_of_hit hq (by simp [isRun, hpass, hentry])
  exact ⟨rfl, rfl, rfl⟩

section Run
variable {s : State} {base pass entry : Nat} {o : Obj} {x : Sched} {r : SchedRun} {e : SchedEntry}
  (hup : s.phase = .running) (hobj : findObj s.store base = some o) (hsched : o.sched = some x)
  (hrun : x.runs.find? (fun r => r.pass == pass && r.entry == entry) = some r) (hentry : x.entries[entry]? = some e)
include hup hobj hsched hrun hentry

theorem scheduleFillComplete_fills (hopen : r.done = false) (hdone : fillDone s.store o e = true) : ∃ v own,
    SchedKept s v ∧ exec (.scheduleFillComplete base pass entry) s = .next
      (signalReady e (updSched base (runFilled pass entry own) v)) := by
  have hkey : r.pass = pass ∧ r.entry = entry := by simpa using List.find?_some hrun
  obtain ⟨v, own, hv, hfills⟩ := completeRun_fills base o r e s
  refine ⟨v, own, hv, congrArg Host.Outcome.next ?_⟩
  rw [whenUp_of_running hup]
  simp only [hobj, hsched, hrun, hentry, hopen, hdone, Bool.not_true, Bool.or_self, Bool.false_eq_true, if_false, hfills,
    hkey]

/-- A run whose release is due gives up its copies; where its fill was not complete, that counts as complete. -/
theorem scheduleRelease_releases (hheld : r.released = false)
    (hthawed : frozenRun s (o.base + e.firstPage) e.pageCount = false)
    (hdue : (BitVec.ofNat 64 (e.relValue + pass * e.passStep)).toNat ≤ (syncVal s e.relSync).toNat) : ∃ v, SchedKept s v ∧
      exec (.scheduleRelease base pass entry) s = .next
        (if r.done then updSched base (runReleased o r pass entry) v
          else signalReady e (updSched base (runReleased o r pass entry) v)) := by
  have hmet : decide ((syncVal s e.relSync).toNat < (BitVec.ofNat 64 (e.relValue + pass * e.passStep)).toNat) = false := by
    simpa using hdue
  refine ⟨dropRunCopies o x r (cancelFill base pass entry s),
    (schedKept_cancelFill base pass entry s).trans (schedKept_dropRunCopies o x r _), congrArg Host.Outcome.next ?_⟩
  rw [whenUp_of_running hup]
  simp only [hobj, hsched, hrun, hentry, hheld, hthawed, hmet, Bool.or_self, Bool.false_eq_true, if_false]
  rfl

end Run

/-- A schedule after its run was updated, and after `READY_SYNC` counted up. -/
theorem sched_of_signalReady {s v : State} {base : Nat} {o : Obj} {x : Sched} (f : Sched → Sched) (e : SchedEntry)
    (hkept : SchedKept s v) (hinj : s.err.inj = []) (hobj : findObj s.store base = some o) (hsched : o.sched = some x) :
    (∃ p, findObj (signalReady e (updSched base f v)).store base = some p ∧ p.sched = some (f x)) ∧
      ∀ obj, e.ready = some obj → syncVal (signalReady e (updSched base f v)) obj = syncVal s obj + 1 := by
  have hobj' : findObj v.store base = some o := (findObj_congr hkept.objects base).trans hobj
  obtain ⟨hstore, hready⟩ := signalReady_keeps (e := e) (s := updSched base f v) (hkept.noInj hinj)
  refine ⟨sched_of_updSched f hobj' hsched (congrArg Store.objects hstore), fun obj hobj => ?_⟩
  have hval : syncVal (updSched base f v) obj = syncVal s obj := by
    simp only [syncVal, updSched_sync, hkept.sync]
  rw [hready obj hobj, hval]

/-- Settles O36: the work that the start, the completion and the release of a run order or stop changes no object, so the
schedule found afterwards is the one that the step itself wrote. -/
theorem schedulesComplete : Obligations.SchedulesComplete := by
  refine ⟨fun c s u first o hrun hchunk hmore hfresh halign hstore hlow hhigh hpos hmax hlen hlocal hobj hpolicy hnone hform
      hsyncs hthawed hreleased => ?install,
    fun s base o x e hup hobj hsched hentry hpass htrig hroom => ?start,
    fun s base pass entry o x r e hup hinj hobj hsched hrun hentry => ⟨fun hopen hdone => ?fill,
      fun hheld hthawed hdue => ?release⟩⟩
  case install =>
    refine congrArg _ (runPacket_stat hrun ?_)
    rw [bodyChunked_whole hfresh hchunk hmore]
    exact bodyPrefetchSchedule_installs ⟨halign, hstore, hlow, hhigh, hpos, hmax, hlen, hlocal, hobj, hpolicy, hnone, hform,
      hsyncs, hthawed, hreleased⟩
  case start =>
    obtain ⟨t, hexec, hkept⟩ := scheduleEntryStart_starts hup hobj hsched hentry hpass htrig hroom
    obtain ⟨p, hp, hy⟩ := sched_of_updSched _ hobj hsched hkept.objects
    exact ⟨t, p, _, hexec, hp, hy, rfl, rfl, List.mem_append_right _ (List.mem_singleton_self _)⟩
  case fill =>
    obtain ⟨v, own, hkept, hexec⟩ := scheduleFillComplete_fills hup hobj hsched hrun hentry hopen hdone
    obtain ⟨⟨p, hp, hy⟩, hready⟩ := sched_of_signalReady (runFilled pass entry own) e hkept hinj hobj hsched
    exact ⟨_, p, _, hexec, hp, hy, fun q => done_of_runFilled, hready⟩
  case release =>
    obtain ⟨v, hkept, hexec⟩ := scheduleRelease_releases hup hobj hsched hrun hentry hheld hthawed hdue
    cases hdone : r.done with
    | false =>
      rw [hdone, if_neg Bool.false_ne_true] at hexec
      obtain ⟨⟨p, hp, hy⟩, hready⟩ := sched_of_signalReady (runReleased o r pass entry) e hkept hinj hobj hsched
      exact ⟨_, p, _, hexec, hp, hy, fun q => empty_of_runReleased, fun obj _ => hready obj⟩
    | true =>
      rw [hdone, if_pos rfl] at hexec
      have hobj' : findObj v.store base = some o := (findObj_congr hkept.objects base).trans hobj
      obtain ⟨p, hp, hy⟩ := sched_of_updSched (runReleased o r pass entry) hobj' hsched rfl
      exact ⟨_, p, _, hexec, hp, hy, fun q => empty_of_runReleased, fun obj hopen => nomatch hopen⟩

end Sys2Proof.Proofs

/-! The flash layer's own events: relocations and the patrol, failed programs and dies, rebuilds, and mounting. -/

namespace Sys2Proof.Proofs

open Sys2Proof.Machine Sys2Proof.Claims Sys2Proof.Laws

/-! ### One element of a list -/

theorem getElem?_updAt_self {α : Type} {l : List α} {i : Nat} {x : α} (h : l[i]? = some x) (f : α → α) :
    (updAt l i f)[i]? = some (f x) := by
  simp [updAt, h]

theorem updAt_updAt {α : Type} (l : List α) (i : Nat) (f g : α → α) :
    updAt (updAt l i f) i g = updAt l i fun x => g (f x) := by
  refine List.ext_getElem? fun j => ?_
  by_cases hj : j = i <;> simp [updAt, hj, Function.comp_def]

theorem map_updIf {α β : Type} {g : α → β} {f : α → α} (h : ∀ x, g (f x) = g x) (l : List α) (p : α → Bool) :
    (updIf l p f).map g = l.map g := by
  rw [updIf, List.map_map]
  refine List.map_congr_left fun x _ => ?_
  cases hp : p x <;> simp [hp, h]

/-! ### What a record and an alert of the layer leave (R95, R99) -/

theorem recFlash_only (k event arg : Nat) (s : State) : ∃ e o n,
    recFlash k event arg s = { s with err := e, nv := { s.nv with odometer := o, odoPos := n } } :=
  detect_only _ s

@[simp] theorem recFlash_flash (k event arg : Nat) (s : State) : (recFlash k event arg s).flash = s.flash := by
  obtain ⟨e, o, n, h⟩ := recFlash_only k event arg s
  rw [h]

@[simp] theorem alert_flash (i : Nat) (s : State) : (alert i s).flash = s.flash := by
  obtain ⟨a, n, h⟩ := alert_only i s
  rw [h]

@[simp] theorem alert_err (i : Nat) (s : State) : (alert i s).err = s.err := by
  obtain ⟨a, n, h⟩ := alert_only i s
  rw [h]

/-- Bit 1 of `HS_ALERT`, which a cluster's change of `STATE` sets, reads 1 once its alert is raised (R99, R406). -/
theorem bit_alert_one (s : State) : bit (alert 1 s).side.alert 1 = true := by
  unfold alert
  split
  next hset => exact hset
  next =>
    simp only [bit, BitVec.toNat_or, Nat.testBit_or, Bool.or_eq_true]
    exact Or.inr rfl

@[simp] theorem logErr_fences (r : Rec) (s : State) : (logErr r s).err.fences = s.err.fences := by
  unfold logErr
  split <;> rfl

@[simp] theorem writeRec_fences (r : Rec) (s : State) : (writeRec r s).err.fences = s.err.fences := by
  simp [writeRec, apply_ite State.err, apply_ite Errs.fences]

@[simp] theorem takeInj_fences (point unit : BitVec 16) (s : State) :
    (takeInj point unit s).2.err.fences = s.err.fences := by
  obtain ⟨i, h⟩ := takeInj_only point unit s
  rw [h]

@[simp] theorem detect_fences (r : Rec) (s : State) : (detect r s).err.fences = s.err.fences := by
  simp [detect]

@[simp] theorem recFlash_fences (k event arg : Nat) (s : State) :
    (recFlash k event arg s).err.fences = s.err.fences :=
  detect_fences _ s

@[simp] theorem markFence_fences (u : BitVec 16) (trigger : Nat) (s : State) :
    (markFence u trigger s).err.fences = s.err.fences ++ [u] :=
  detect_fences _ _

@[simp] theorem markFence_flash (u : BitVec 16) (trigger : Nat) (s : State) : (markFence u trigger s).flash = s.flash := by
  obtain ⟨e, o, n, h⟩ := markFence_only u trigger s
  rw [h]

@[simp] theorem markFence_store (u : BitVec 16) (trigger : Nat) (s : State) : (markFence u trigger s).store = s.store := by
  obtain ⟨e, o, n, h⟩ := markFence_only u trigger s
  rw [h]

/-! ### A cluster's record after each operation of the layer (R95, R99) -/

theorem LayerOnly.variant {s t : State} (h : LayerOnly s t) : t.variant = s.variant := by
  obtain ⟨i, fl, e, n, sd, rfl⟩ := h
  rfl

/-- What taking spare space leaves of a cluster: the share left is no higher, and `STATE` may follow it (R99). -/
def Spent (c d : Cluster) : Prop := ∃ w st, d = { c with spare := w, state := st } ∧ w.toNat ≤ c.spare.toNat

/-- A cluster with one more retired block (R95). -/
def withRetired (die block : Nat) (c : Cluster) : Cluster :=
  { c with retired := bumpSat c.retired 1, bad := c.bad ++ [(die, block)], soft := dropIf c.soft (· == (die, block)) }

section Cluster
variable {s : State} {k : Nat} {c : Cluster} (hc : s.flash[k]? = some c)
include hc

theorem flash_getD : s.flash.getD k Cluster.reset = c := by
  rw [List.getD_eq_getElem?_getD, hc]
  rfl

theorem cluster_setClusterState (st : BitVec 4) : (setClusterState k st s).flash[k]? = some { c with state := st } := by
  rw [setClusterState, flash_getD hc]
  split
  next hsame => rw [hc, ← hsame]
  next =>
    rw [alert_flash, recFlash_flash]
    exact getElem?_updAt_self hc _

/-- A change of `STATE` raises the alert. -/
theorem alert_setClusterState {st : BitVec 4} (hne : c.state ≠ st) :
    bit (setClusterState k st s).side.alert 1 = true := by
  rw [setClusterState, flash_getD hc, if_neg hne]
  exact bit_alert_one _

theorem cluster_spareState : ∃ st, (spareState k s).flash[k]? = some { c with state := st } := by
  simp only [spareState]
  split
  · exact ⟨c.state, hc⟩
  · exact ⟨_, cluster_setClusterState hc _⟩

theorem cluster_takeSpare : ∃ w, (takeSpare k s).flash[k]? = some { c with spare := w } ∧ w.toNat ≤ c.spare.toNat :=
  ⟨_, getElem?_updAt_self hc _, (Nat.mod_le _ _).trans (Nat.min_le_left _ _)⟩

theorem cluster_spareTaken (event arg : Nat) :
    ∃ d, (spareState k (recFlash k event arg (takeSpare k s))).flash[k]? = some d ∧ Spent c d := by
  obtain ⟨w, hspare, hle⟩ := cluster_takeSpare hc
  rw [← recFlash_flash k event arg] at hspare
  obtain ⟨st, hstate⟩ := cluster_spareState hspare
  exact ⟨_, hstate, w, st, rfl, hle⟩

theorem cluster_retireBlock {die block : Nat} (hgood : (die, block) ∉ c.bad) :
    ∃ d, (retireBlock k die block s).flash[k]? = some d ∧ Spent (withRetired die block c) d := by
  have hkept : ¬(c.bad.contains (die, block) = true) := by simpa using hgood
  rw [retireBlock, flash_getD hc, if_neg hkept]
  exact cluster_spareTaken (getElem?_updAt_self hc (withRetired die block)) 0 _

/-- A block that needs step 2 of R91 for the first time is noted. -/
theorem softBlock_of_fresh {die block : Nat} (hfresh : (die, block) ∉ c.soft) : softBlock k die block s =
    { s with flash := updAt s.flash k fun c => { c with soft := c.soft ++ [(die, block)] } } := by
  have hfirst : ¬(c.soft.contains (die, block) = true) := by simpa using hfresh
  rw [softBlock, flash_getD hc, if_neg hfirst]

end Cluster

/-! ### A cluster in service: relocations, patrol, failures and rebuilds (R91, R93 to R95) -/

/-- A fitted cluster that is mounted and whose Saddlebag is not fenced. -/
structure InService (s : State) (k : Fin 4) (c : Cluster) : Prop where
  up        : s.phase = .running
  fitted    : Config.hasFlash s.variant = true
  found     : s.flash[k.val]? = some c
  mounted   : c.state ≠ 0
  intact    : c.state ≠ 4
  connected : unitFenced s (unitSaddlebag k.val) = false

/-- The patrol's read of a block counts as any other. -/
def patrolled (k die block : Nat) (s : State) : State :=
  { s with flash := updAt s.flash k fun c => { c with reads := bumpK (die, block) c.reads } }

/-- A die is marked failed, and its rebuild starts. -/
def dieLost (k die : Nat) (s : State) : State :=
  { s with flash := updAt s.flash k fun c => { c with failed := c.failed ++ [die], rebuilds := c.rebuilds ++ [die] } }

/-- The rebuild of a die is over: where the frames that touched it lie is known no more. -/
def rebuilt (k die : Nat) (s : State) : State :=
  { s with
    store.units := s.store.units.filter fun e => !(frameIn s k e.1 && e.2.any fun u => (u.die :: u.stripe).contains die)
    flash := updAt s.flash k fun c => { c with rebuilds := c.rebuilds.erase die } }

/-- A program that failed is made again, now or once nothing holds it (R93). -/
def programAgain (k : Nat) (p : FlashProg) (s : State) : State :=
  { s with store.progs := updIf s.store.progs (·.id == p.id) fun q =>
    { q with held := !mayBegin s p || (flashRefuses s k).isSome } }

theorem places_programAgain (k : Nat) (p : FlashProg) (s : State) :
    (programAgain k p s).store.progs.map (fun g => (g.id, g.page, g.src, g.dst)) =
      s.store.progs.map fun g => (g.id, g.page, g.src, g.dst) := by
  simp only [programAgain]
  rw [map_updIf]
  intro x
  rfl

section Service
variable {s : State} {k : Fin 4} {c : Cluster} (h : InService s k c)
include h

theorem onCluster_of_inService (f : State → State) : onCluster k s f = f s := by
  refine (whenUp_of_running h.up _).trans ?_
  simp only [flash_getD h.found, h.fitted, h.mounted, h.intact, h.connected, Bool.not_true, decide_false, Bool.or_self,
    Bool.false_eq_true, if_false]

theorem readDisturbRelocation_queues (die block units : Nat) :
    exec (.readDisturbRelocation ⟨k, die⟩ block units) s = .next { s with
      flash := updAt s.flash k.val fun c => { c with
        relocs := c.relocs + units, reads := dropIf c.reads (·.1 == (die, block)) } } := by
  refine congrArg _ ((onCluster_of_inService h _).trans ?_)
  simp only [queueReloc, updAt_updAt]

theorem flashPatrol_counts (die block units : Nat) :
    exec (.flashPatrol ⟨k, die⟩ block false units) s = .next (patrolled k.val die block s) :=
  congrArg _ (onCluster_of_inService h _)

theorem flashPatrol_queues {die block : Nat} (units : Nat) (hfresh : (die, block) ∉ c.soft) :
    exec (.flashPatrol ⟨k, die⟩ block true units) s = .next { s with
      flash := updAt s.flash k.val fun c => { c with
        reads := bumpK (die, block) c.reads, relocs := c.relocs + units, soft := c.soft ++ [(die, block)] } } := by
  have hsoft := softBlock_of_fresh (s := queueReloc k.val units (patrolled k.val die block s))
    (getElem?_updAt_self (getElem?_updAt_self h.found _) _) hfresh
  refine congrArg _ ((onCluster_of_inService h _).trans (hsoft.trans ?_))
  simp only [queueReloc, patrolled, updAt_updAt]

theorem relocationComplete_moves {frame : Nat} {unit : Fin 4} {place : FlashUnit} {us : List FlashUnit}
    (hunits : lookupK s.store.units frame = some us) (hfree : layerHeld s k.val = false) (hqueued : 0 < c.relocs)
    (hframe : frameIn s k.val frame = true) (hplace : unitOk s k.val place = true)
    (hapart : apart (us.set unit.val place) = true) (hidle : ∀ p ∈ s.store.progs, p.dst = frame → p.held = true) :
    exec (.relocationComplete ⟨k, frame, unit, place⟩) s = .next (moveUnit k.val frame unit place us s) := by
  have hwins : (s.store.progs.any fun p => p.dst == frame && !p.held) = false := by simpa using hidle
  refine congrArg _ ((onCluster_of_inService h _).trans ?_)
  simp [hunits, hfree, h.found, hqueued.ne', hframe, hplace, hapart, hwins]

theorem dieFailure_marks {die : Nat} (hnew : die ∉ c.failed) (hdie : die < Config.flashDies s.variant) :
    exec (.dieFailure k die) s = .next (recFlash k.val 2 die (recFlash k.val 1 die (dieLost k.val die s))) := by
  refine congrArg _ ((onCluster_of_inService h _).trans ?_)
  simp [h.found, hnew, Nat.not_le.mpr hdie, dieLost]

theorem rebuildComplete_ends {die : Nat} (hfree : layerHeld s k.val = false) (hdie : die ∈ c.rebuilds) :
    exec (.rebuildComplete k die) s =
      .next (spareState k.val (recFlash k.val 3 die (takeSpare k.val (rebuilt k.val die s)))) := by
  refine congrArg _ ((onCluster_of_inService h _).trans ?_)
  simp [hfree, h.found, hdie, rebuilt]

theorem programFailure_retires (die block : Nat) :
    exec (.programFailure ⟨k, die⟩ none block) s = .next (retireBlock k.val die block s) :=
  congrArg _ (onCluster_of_inService h _)

theorem programFailure_repeats {die block id : Nat} {p : FlashProg} (hfound : s.store.progs.find? (·.id == id) = some p)
    (hbegun : p.held = false) (hpage : clusterOf p.page = k.val) :
    exec (.programFailure ⟨k, die⟩ (some id) block) s = .next (programAgain k.val p (retireBlock k.val die block s)) := by
  have hid : p.id = id := by simpa using List.find?_some hfound
  refine congrArg _ ((onCluster_of_inService h _).trans ?_)
  simp [hfound, hbegun, hpage, programAgain, hid]

end Service

theorem flashUpkeepCompletes : FlashUpkeepCompletes := by
  intro s k c hup hfitted hfound hmounted hintact hconnected
  have hserves : InService s k c := ⟨hup, hfitted, hfound, hmounted, hintact, hconnected⟩
  refine ⟨readDisturbRelocation_queues hserves, flashPatrol_counts hserves,
    fun die block units => flashPatrol_queues hserves units,
    fun frame unit place us => relocationComplete_moves hserves, fun die hnew hdie => ?failure, fun die hfree hdie => ?rebuild⟩
  case failure =>
    rw [dieFailure_marks hserves hnew hdie]
    obtain ⟨e, o, n, hrec⟩ := recFlash_only k.val 1 die (dieLost k.val die s)
    obtain ⟨e', o', n', hrec'⟩ := recFlash_only k.val 2 die (recFlash k.val 1 die (dieLost k.val die s))
    rw [hrec', hrec]
    exact ⟨_, rfl, rfl, getElem?_updAt_self hfound _⟩
  case rebuild =>
    have hlayer := ((layerOnly_takeSpare k.val (rebuilt k.val die s)).trans (layerOnly_recFlash k.val 3 die _)).trans
      (layerOnly_spareState k.val _)
    have hcluster : (rebuilt k.val die s).flash[k.val]? = some { c with rebuilds := c.rebuilds.erase die } :=
      getElem?_updAt_self hfound _
    obtain ⟨d, hd, w, st, rfl, hle⟩ := cluster_spareTaken hcluster 3 die
    refine ⟨_, _, rebuildComplete_ends hserves hfree hdie, hd, rfl, rfl, hle, ?_⟩
    rw [hlayer.store]
    rfl

theorem flashFailuresComplete : FlashFailuresComplete := by
  intro s k c die block hup hfitted hfound hmounted hintact hconnected hgood
  have hserves : InService s k c := ⟨hup, hfitted, hfound, hmounted, hintact, hconnected⟩
  have hstore := (layerOnly_retireBlock k.val die block s).store
  obtain ⟨d, hd, w, st, rfl, hle⟩ := cluster_retireBlock hfound hgood
  refine ⟨⟨_, _, programFailure_retires hserves die block, hstore, hd, rfl, rfl, hle⟩, fun id p hprog hbegun hpage => ?_⟩
  refine ⟨_, _, programFailure_repeats hserves hprog hbegun hpage, ?frame, ?kept, hd, rfl, rfl, hle⟩
  case frame => rw [programAgain, hstore]
  case kept => rw [places_programAgain, hstore]

/-! ### Mounting (R99 to R101) -/

theorem spareLevel_ne_zero (c : Cluster) : spareLevel c ≠ 0 := by
  unfold spareLevel
  split
  · decide
  · split <;> decide

theorem unitKind_unitSaddlebag (k : Fin 4) : unitKind (unitSaddlebag k.val) = 9 := by
  revert k
  decide

theorem unitIdx_unitSaddlebag (k : Fin 4) : unitIdx (unitSaddlebag k.val) = k.val := by
  revert k
  decide

theorem unitExists_unitSaddlebag {s : State} (hfitted : Config.hasFlash s.variant = true) (k : Fin 4) :
    unitExists s (unitSaddlebag k.val) = true := by
  simp [unitExists, unitKind_unitSaddlebag, unitIdx_unitSaddlebag, hfitted]

@[simp] theorem setClusterState_fences (k : Nat) (st : BitVec 4) (s : State) :
    (setClusterState k st s).err.fences = s.err.fences := by
  unfold setClusterState
  split <;> simp

/-- A Saddlebag's fence ends nothing where no read and no program of its cluster is in progress. -/
theorem fenceSaddlebag_of_idle {s : State} {k : Nat} (hreads : ∀ r ∈ s.store.reads, clusterOf r.page ≠ k)
    (hprogs : ∀ p ∈ s.store.progs, clusterOf p.page ≠ k) : fenceSaddlebag k s = s := by
  have hnoReads : (s.store.reads.filter fun r => clusterOf r.page == k) = [] := by simpa using hreads
  have hnoProgs : (s.store.progs.filter fun p => clusterOf p.page == k) = [] := by simpa using hprogs
  simp only [fenceSaddlebag, hnoReads, List.foldl_nil, hnoProgs]

/-- A fitted cluster that still mounts. -/
structure Mounting (s : State) (k : Fin 4) (c : Cluster) : Prop where
  up      : s.phase = .running
  fitted  : Config.hasFlash s.variant = true
  found   : s.flash[k.val]? = some c
  waiting : c.state = 0

section Mount
variable {s : State} {k : Fin 4} {c : Cluster}

/-- An idle cluster that does not mount is marked failed, and its Saddlebag fenced. -/
theorem mountFails_of_idle (hfitted : Config.hasFlash s.variant = true)
    (hconnected : unitFenced s (unitSaddlebag k.val) = false) (hreads : ∀ r ∈ s.store.reads, clusterOf r.page ≠ k.val)
    (hprogs : ∀ p ∈ s.store.progs, clusterOf p.page ≠ k.val) :
    mountFails k.val s = markFence (unitSaddlebag k.val) 9 (setClusterState k.val 4 s) := by
  have hlayer := layerOnly_setClusterState k.val 4 s
  have hfree : unitFenced (setClusterState k.val 4 s) (unitSaddlebag k.val) = false := by
    rw [unitFenced, setClusterState_fences]
    exact hconnected
  have hexists := unitExists_unitSaddlebag (hlayer.variant ▸ hfitted) k
  have hstore : (markFence (unitSaddlebag k.val) 9 (setClusterState k.val 4 s)).store = s.store :=
    (markFence_store _ _ _).trans hlayer.store
  simp only [mountFails, fenceUnit, hfree, hexists, unitKind_unitSaddlebag, unitIdx_unitSaddlebag, fenceEffects]
  exact fenceSaddlebag_of_idle (hstore ▸ hreads) (hstore ▸ hprogs)

theorem cluster_markFence_failed (hfound : s.flash[k.val]? = some c) (u : BitVec 16) (trigger : Nat) :
    (markFence u trigger (setClusterState k.val 4 s)).flash[k.val]? = some { c with state := 4 } := by
  rw [markFence_flash]
  exact cluster_setClusterState hfound 4

theorem unitFenced_markFence (u : BitVec 16) (trigger : Nat) (s : State) : unitFenced (markFence u trigger s) u = true := by
  simp [unitFenced]

variable (h : Mounting s k c)
include h

theorem clusterMountComplete_eq (mounts : Bool) : exec (.clusterMountComplete k mounts) s =
    .next (if mounts then setClusterState k.val (spareLevel c) s else mountFails k.val s) := by
  refine congrArg _ ((whenUp_of_running h.up _).trans ?_)
  simp [h.found, h.fitted, h.waiting, mountState]

theorem clusterMountTimeout_eq : exec (.clusterMountTimeout k) s = .next (mountFails k.val s) := by
  refine congrArg _ ((whenUp_of_running h.up _).trans ?_)
  simp [h.found, h.fitted, h.waiting]

end Mount

theorem mountsComplete : MountsComplete := by
  intro s k c hup hfitted hfound hwaiting
  have hmounting : Mounting s k c := ⟨hup, hfitted, hfound, hwaiting⟩
  refine ⟨?mounts, fun hconnected hreads hprogs => ?fails⟩
  case mounts =>
    have hchanges : c.state ≠ spareLevel c := hwaiting ▸ (spareLevel_ne_zero c).symm
    exact ⟨_, clusterMountComplete_eq hmounting true, cluster_setClusterState hfound _, alert_setClusterState hfound hchanges,
      (layerOnly_setClusterState k.val _ s).store⟩
  case fails =>
    have hfailed := mountFails_of_idle hfitted hconnected hreads hprogs
    have hends := cluster_markFence_failed hfound (unitSaddlebag k.val) 9
    have hfenced := unitFenced_markFence (unitSaddlebag k.val) 9 (setClusterState k.val 4 s)
    rw [← hfailed] at hends hfenced
    exact ⟨⟨_, clusterMountComplete_eq hmounting false, hends, hfenced⟩,
      ⟨_, clusterMountTimeout_eq hmounting, hends, hfenced⟩⟩

/-- Settles O37: retiring and rebuilding take spare space, which leaves of the cluster's record everything but `SPARE_PCT` and
`STATE` as it was, and the fence of an idle cluster ends no work. -/
theorem flashLayerComplete : Obligations.FlashLayerComplete :=
  ⟨flashUpkeepCompletes, flashFailuresComplete, mountsComplete⟩

end Sys2Proof.Proofs

/-! Coherence and atomics: an engine's reads and writes at their home, registers, the requests of the agents, what the homes,
the agents and the memory controllers answer, and the loss of an agent. -/

namespace Sys2Proof.Proofs

open Sys2Proof.Machine Sys2Proof.Claims Sys2Proof.Laws

/-! ### An engine's access at its home (R102, R112) -/

/-- Settles O27: what lands is one write of the memory at the frame's place, which is read back byte by byte. -/
theorem homeWriteLands : Obligations.HomeWriteLands := by
  refine ⟨fun s q off len => homeRead_of_reads, fun s q off f fr bs x h => ?write⟩
  have hmem : (written q off f bs s).store.mem = memWriteN s.store.mem (f * 65536 + off % 65536) bs :=
    putBytes_allBytes_mem _ _ _ _
  refine ⟨homeWrite_of_writes h, fun i hi => ?inside, fun b hb => ?outside, rfl, rfl, rfl⟩
  case inside => rw [hmem, memGet_memWriteN_in _ _ _ hi, List.getD_eq_getElem _ _ hi]
  case outside => rw [hmem, memGet_memWriteN_out _ _ _ hb]

/-! ### Registers (R120, R123) -/

/-- Settles O9: each register is a closed value of the reset state; the homes' registers are the same on all sixteen wheels. -/
theorem resetRegisters : Obligations.ResetRegisters := by
  refine ⟨fun w hw => ?homes, rfl, rfl, rfl, rfl, rfl, rfl, rfl, rfl, rfl⟩
  interval_cases w <;> exact ⟨rfl, rfl⟩

theorem declareLost_of_unregistered {s : State} {a : BitVec 10} (h : (agentRoute s a).isNone = true) (cause : BitVec 16) :
    declareLost a cause s = s := by
  simp [declareLost, h]

/-- Settles O51: the write declares the agent that it names lost where `LOSE` is set, and only a registered agent can be. -/
theorem agentControlRegister : Obligations.AgentControlRegister := by
  refine ⟨by decide, fun s v => ⟨rfl, ?_⟩⟩
  have hwrite : writeReg .agentCtrl v s = if bit v 63 then declareLost (BitVec.ofNat 10 (bits v 0 10)) 2 s else s := rfl
  rw [hwrite]
  refine ⟨fun hroute => ?unregistered, fun hlose => ?kept, fun hlose => ?lost⟩
  case unregistered => rw [declareLost_of_unregistered hroute, ite_self]
  case kept => simp [hlose]
  case lost => simp [hlose]

theorem updIf_append {α : Type} (l k : List α) (p : α → Bool) (f : α → α) : updIf (l ++ k) p f = updIf l p f ++ updIf k p f :=
  List.map_append

theorem dropIf_append {α : Type} (l k : List α) (p : α → Bool) : dropIf (l ++ k) p = dropIf l p ++ dropIf k p :=
  List.filter_append ..

/-- An update that meets no element changes nothing. -/
theorem updIf_of_false {α : Type} {l : List α} {p : α → Bool} {f : α → α} (h : ∀ x ∈ l, p x = false) : updIf l p f = l := by
  refine (List.map_congr_left fun x hx => ?_).trans (List.map_id _)
  simp [h x hx]

theorem dropIf_of_false {α : Type} {l : List α} {p : α → Bool} (h : ∀ x ∈ l, p x = false) : dropIf l p = l :=
  List.filter_eq_self.mpr fun x hx => by simp [h x hx]

/-! ### A new transaction at the end of the list (R105) -/

theorem newTrk_coh (t : Trk) (s : State) : (newTrk t s).coh =
    { s.coh with trks := s.coh.trks ++ [{ t with id := s.coh.nextTrk }], nextTrk := s.coh.nextTrk + 1 } := rfl

section NewTrk
variable {s : State} (hnew : ∀ u ∈ s.coh.trks, u.id < s.coh.nextTrk) (t : Trk)
include hnew

theorem findTrk_newTrk : findTrk (newTrk t s) s.coh.nextTrk = some { t with id := s.coh.nextTrk } := by
  have hnone : s.coh.trks.find? (·.id == s.coh.nextTrk) = none :=
    List.find?_eq_none.mpr fun u hu => by simpa using (hnew u hu).ne
  simp [findTrk, newTrk_coh, List.find?_append, hnone]

theorem updTrk_newTrk (f : Trk → Trk) : updTrk s.coh.nextTrk f (newTrk t s) = { s with
    coh := { s.coh with trks := s.coh.trks ++ [f { t with id := s.coh.nextTrk }], nextTrk := s.coh.nextTrk + 1 } } := by
  have hold := updIf_of_false (f := f) fun u hu => beq_false_of_ne (hnew u hu).ne
  have hlist : updIf (s.coh.trks ++ [{ t with id := s.coh.nextTrk }]) (·.id == s.coh.nextTrk) f =
      s.coh.trks ++ [f { t with id := s.coh.nextTrk }] := by
    rw [updIf_append, hold]
    simp [updIf]
  simp only [updTrk, newTrk, hlist]

theorem endTrk_newTrk : endTrk s.coh.nextTrk (newTrk t s) = { s with coh := { s.coh with nextTrk := s.coh.nextTrk + 1 } } := by
  have hold := dropIf_of_false fun u hu => beq_false_of_ne (hnew u hu).ne
  have hlist : dropIf (s.coh.trks ++ [{ t with id := s.coh.nextTrk }]) (·.id == s.coh.nextTrk) = s.coh.trks := by
    rw [dropIf_append, hold]
    simp [dropIf]
  simp only [endTrk, newTrk, hlist]

end NewTrk

/-- A transaction that waits has no way of its set reserved. -/
theorem setFull_newTrk_of_wait {t : Trk} (hwait : t.phase = .wait) (s : State) (line : Nat) :
    setFull (newTrk t s) line = setFull s line := by
  have hkept : setReserved (newTrk t s) line = setReserved s line := by
    have hneeds : needsEntry (newTrk t s) = needsEntry s := rfl
    simp [setReserved, hneeds, newTrk_coh, List.filter_append, hwait]
  rw [setFull, hkept]
  rfl

/-- On a line of its own a transaction waits for no other. -/
theorem blocked_newTrk_of_alone {s : State} {t : Trk} (halone : ∀ u ∈ s.coh.trks, u.line ≠ t.line)
    (hid : t.id = s.coh.nextTrk) : blocked (newTrk t s) t = false := by
  have hold : ∀ u ∈ s.coh.trks, (u.line == t.line) = false := fun u hu => by simpa using halone u hu
  rw [blocked, newTrk_coh, List.any_append, Bool.or_eq_false_iff, List.any_eq_false]
  exact ⟨fun u hu => by simp [hold u hu], by simp [hid]⟩

/-! ### The rights of a request (R25, R27) -/

theorem rightsAt_inr {s : State} {r : BitVec 6} {off : Nat} {write : Bool} {x : Extent} (h : rightsAt s r off write = .inr x) :
    homeFenced s off = false ∧ findExt s (extentOf off) = some x ∧ extLive s x r = true ∧
      (write && !extWriter s x r) = false ∧ x.fenced = false := by
  unfold rightsAt at h
  split at h
  · cases h
  · split at h
    · cases h
    · rename_i x' hext
      simp only [Bool.not_eq_true', Bool.and_eq_true] at h
      split at h
      · cases h
      · split at h
        · cases h
        · split at h
          · cases h
          · cases h
            simp_all

/-- A transaction of an extent that was live when it was accepted has the rights of its rider. -/
theorem trkRights_of_rightsAt {s : State} {t : Trk} {write : Bool} {x : Extent}
    (h : rightsAt s t.rider t.line write = .inr x) (hlive : t.live = x.live) : trkRights s t write = .inr x := by
  obtain ⟨hhome, hext, hreader, hwriter, hopen⟩ := rightsAt_inr h
  have hsame : (if t.live then { x with live := true } else x) = x := by
    cases hl : x.live <;> rw [hlive, hl] <;> simp [← hl]
  rw [trkRights, hhome, hext]
  simp only [hsame, hreader, hwriter, Bool.not_true, Bool.or_self, Bool.false_eq_true, if_false]
  rw [hopen]
  rfl

/-! ### A request reaches its line (R37, R102, R103, R105, R118) -/

theorem extentOf_lineOf (off : Nat) : extentOf (lineOf off) = extentOf off := by
  unfold extentOf lineOf
  omega

/-- An address that leads to this module's store is well formed and names no other module: every other branch of its
resolution leads elsewhere. -/
theorem target_off {s : State} {a : Word} {off : Nat} (h : target s a = .off off) :
    opaMbz a = true ∧ otherModule s a = false := by
  have hmbz : opaMbz a = true := by
    by_contra hne
    simp [target_of_opaMbz_false (Bool.not_eq_true _ ▸ hne)] at h
  exact ⟨hmbz, by grind [target, otherModule]⟩

/-- The transaction of a request as it is listed, before it comes to the front of its line's order. -/
def asked (s : State) (r : Req) (k : ReqKind) (rider : BitVec 6) (off : Nat) (x : Extent) : Trk :=
  { Trk.blank (lineOf off) rider (.req r k) with id := s.coh.nextTrk, live := x.live, lap := lapTag s x rider }

/-- An atomic has the place, the sender and the form that its home performs (R118); the other kinds have nothing to fit. -/
def kindFits (r : Req) : ReqKind → Prop
  | .atomic op => atomAligned op r.opa.toNat = true ∧ fromRemote r.src = false ∧ atomForm op = true
  | _ => True

theorem cxlReq_src (r : Req) (s : State) : (cxlReq r s).src = r.src := by
  unfold cxlReq
  split <;> rfl

theorem cxlReq_epoch (r : Req) (s : State) : (cxlReq r s).epoch = r.epoch := by
  unfold cxlReq
  split <;> rfl

section Reaches
variable {s : State} {r : Req} {k : ReqKind} {rider : BitVec 6} {off : Nat} {x : Extent} (h : Reaches s r k rider off x)
include h

theorem acceptReq_of_reaches : acceptReq r k s = routeReq (cxlReq r s) k s := by
  refine (if_neg ?epoch).trans (if_neg ?held)
  case epoch =>
    rw [cxlReq_epoch]
    cases hepoch : r.epoch with
    | none => simp
    | some e => simpa using h.inEpoch e hepoch
  case held =>
    have hroom : reqRoom s (cxlReq r s) = true := by simp [reqRoom, h.here, cxlReq_src, h.source, h.tracker.1]
    simp [h.notHeld, hroom, cxlReq_src, h.tracker.2]

theorem route_of_reaches (hfits : kindFits (cxlReq r s) k) : routeReq.route (cxlReq r s) k rider s =
    tryTrk s.coh.nextTrk (newTrk (asked s (cxlReq r s) k rider off x) s) := by
  have hext : findExt s (extentOf off) = some x := extentOf_lineOf off ▸ (rightsAt_inr h.rights).2.1
  unfold routeReq.route
  rw [h.here]
  refine (if_neg ?form).trans ((if_neg h.serves).trans ?_)
  case form =>
    cases k with
    | atomic op => simp [hfits.2.2]
    | _ => simp
  rw [hext]
  rfl

theorem routeReq_of_reaches (hfits : kindFits (cxlReq r s) k) : routeReq (cxlReq r s) k s =
    tryTrk s.coh.nextTrk (newTrk (asked s (cxlReq r s) k rider off x) s) := by
  obtain ⟨hmbz, hmine⟩ := target_off h.here
  rw [← route_of_reaches h hfits, routeReq, cxlReq_src, h.source]
  refine (if_neg ?lost).trans ((if_neg ?role).trans ((if_neg h.awake).trans ?addressed))
  case' addressed => refine (if_neg ?formed).trans ((if_neg ?mine).trans ?kind)
  case lost =>
    cases hagent : reqAgent s r.src with
    | none => simp
    | some a => simp [h.inTouch a hagent]
  case role =>
    cases hcaching : k.caching with
    | false => simp
    | true => simp [Option.isSome_iff_ne_none.mp (h.role hcaching)]
  case formed => simp [hmbz]
  case mine => simp [hmine]
  case kind =>
    cases k with
    | atomic op =>
      have hsender : fromRemote r.src = false := cxlReq_src r s ▸ hfits.2.1
      simp [hfits.1, hsender, hmine]
    | _ => rfl
end Reaches

/-- No armed injection: the use of a directory entry and its tracker changes nothing (R328, R344). -/
theorem dirUse_of_no_inj {s : State} (hinj : s.err.inj = []) (t : Trk) : dirUse t s = s := by
  simp [dirUse, injMode, hinj]

/-- A waiting request that nothing on its line precedes is run. -/
theorem tryTrk_of_front {s : State} {t : Trk} {r : Req} {k : ReqKind} (hfind : findTrk s t.id = some t)
    (hwait : t.phase = .wait) (hwhat : t.what = .req r k) (hfront : blocked s t = false) (hscan : scanHolds s t.line = false)
    (hinj : s.err.inj = []) (hlives : dirDead s t.line = false) : tryTrk t.id s = runReq t r k s := by
  have huse : dirUse t (mapUse t.line s) = s := by rw [mapUse_of_no_inj hinj, dirUse_of_no_inj hinj]
  simp [tryTrk, hfind, hwait, hwhat, hfront, hscan, huse, deadFor, hlives]

/-- A request that succeeds completes in one way, whoever sent it: a CXL host is told of failures only. -/
theorem sendCmp_ok (r : Req) (missed : Bool) (s : State) : sendCmp r .ok missed s = emit (.cmp r .ok missed) s := by
  unfold sendCmp
  split <;> rfl

theorem lapTag_ne_dead (s : State) (x : Extent) (r : BitVec 6) : lapTag s x r ≠ .dead := by
  unfold lapTag
  split
  · split <;> simp
  · simp

/-- The transaction with the lap that it acts on fixed (R131). -/
def fixed (s : State) (t : Trk) (x : Extent) : Trk := { t with view := some (viewOf s x t.rider) }

@[simp] theorem fixed_id (s : State) (t : Trk) (x : Extent) : (fixed s t x).id = t.id := rfl
@[simp] theorem fixed_line (s : State) (t : Trk) (x : Extent) : (fixed s t x).line = t.line := rfl

/-- The list with that transaction. -/
def fixedIn (s : State) (t : Trk) (x : Extent) : State := updTrk t.id (fun _ => fixed s t x) s

/-- A request at the front of its line's order that nothing refuses: its rider has the rights, its lap accepts it, and the
directory has room for the entry it may need. -/
structure AtFront (s : State) (t : Trk) (k : ReqKind) (x : Extent) : Prop where
  inTouch : trkLost s t = false
  rights  : trkRights s t k.needsWriter = .inr x
  tag     : t.lap = lapTag s x t.rider
  inLap   : k.caching = true → lapAgent s x t.rider = false
  inWlap  : k.caching = false → k.needsWriter = true → noWlap s x t.rider = false
  room    : setFull (fixedIn s t x) t.line = false

/-- What a request for a line that no agent holds sends to the memory controller, if anything (R111, R112, R116). -/
def firstOrder : ReqKind → Option MemOp
  | .rdShared | .rdOwn | .upgrade | .rdCur => some .rd
  | .wrFull _ | .wrPart _ _ | .wrHint _ _ _ => some .wr
  | .atomic _ => some .atom
  | .wbM _ | .evictClean => none

/-- What the owner of a line is snooped with for another's request that takes it, or shares it (R111, R112). -/
def ownerSnoop : ReqKind → Option (BitVec 10 → Nat → Nat → OutMsg)
  | .rdShared => some .snpShared
  | .rdOwn | .upgrade | .wrFull _ | .wrPart _ _ => some .snpInv
  | _ => none

section AtFront
variable {s : State} {t : Trk} {k : ReqKind} {x : Extent} (h : AtFront s t k x)
include h

theorem AtFront.fixes : ({ t with view := some (viewOf s x t.rider), lap := lapTag s x t.rider } : Trk) = fixed s t x := by
  rw [← h.tag]
  rfl

/-- None of the checks that a request meets at the front of its line's order refuses it. -/
theorem AtFront.passes : (k.caching && lapAgent (fixedIn s t x) x t.rider) = false ∧
    (!k.caching && k.needsWriter && ((noWlap (fixedIn s t x) x t.rider && decide (lapTag s x t.rider ≠ .entered)) ||
      decide (lapTag s x t.rider = .dead))) = false ∧
    (needsEntry (fixedIn s t x) t.line k && setFull (fixedIn s t x) t.line) = false := by
  refine ⟨?cache, ?write, by rw [h.room, Bool.and_false]⟩
  case cache =>
    cases hk : k.caching with
    | false => rfl
    | true => exact h.inLap hk
  case write =>
    rw [decide_eq_false (lapTag_ne_dead s x t.rider), Bool.or_false]
    cases hk : k.caching with
    | true => rfl
    | false =>
      cases hw : k.needsWriter with
      | false => rfl
      | true =>
        have hlap : noWlap (fixedIn s t x) x t.rider = false := h.inWlap hk hw
        rw [hlap]
        rfl

theorem runReq_of_uncached (r : Req) (hrole : k.caching = true → (reqAgent s r.src).isSome = true)
    (hdir : dirOf s t.line = none) : runReq t r k s = match firstOrder k with
      | some op => sendMem (fixed s t x) op (fixedIn s t x)
      | none => endWith (fixed s t x) .ok (fixedIn s t x) := by
  obtain ⟨hcache, hwrite, hroom⟩ := h.passes
  have hlisted : updTrk t.id (fun _ => fixed s t x) s = fixedIn s t x := rfl
  have hnone : dirOf (fixedIn s t x) t.line = none := hdir
  have hnobody : holders (fixedIn s t x) none = [] := rfl
  have hsource : reqAgent (fixedIn s t x) r.src = reqAgent s r.src := rfl
  unfold runReq
  simp only [h.inTouch, h.rights, h.tag, ite_self, h.fixes, hlisted, hnone, hnobody, hsource, hcache, hwrite, hroom,
    Bool.false_eq_true, if_false]
  cases k with
  | rdShared | rdOwn | upgrade =>
    obtain ⟨a, ha⟩ := Option.isSome_iff_exists.mp (hrole rfl)
    simp only [ha]
    rfl
  | evictClean =>
    obtain ⟨a, ha⟩ := Option.isSome_iff_exists.mp (hrole rfl)
    have hset : setDir t.line none (fixedIn s t x) = fixedIn s t x := setDir_none_of_uncached hdir
    simp only [ha]
    exact congrArg _ hset
  | wbM =>
    obtain ⟨a, ha⟩ := Option.isSome_iff_exists.mp (hrole rfl)
    simp only [ha]
    rfl
  | rdCur | wrFull | wrPart | wrHint | atomic => rfl

/-- A line that an agent holds for writing is taken from it before another agent's request goes on (R111, R112). -/
theorem runReq_of_owned (r : Req) {msg : BitVec 10 → Nat → Nat → OutMsg} (hmsg : ownerSnoop k = some msg)
    (hrole : k.caching = true → (reqAgent s r.src).isSome = true) {b : BitVec 10} (hdir : dirOf s t.line = some (.xw b))
    (hlive : agentLost s b = false) (hother : reqAgent s r.src ≠ some b) :
    runReq t r k s = startSnoop (fixed s t x) (fun b => msg b t.id t.line) [b] (fixedIn s t x) := by
  obtain ⟨hcache, hwrite, hroom⟩ := h.passes
  have hlisted : updTrk t.id (fun _ => fixed s t x) s = fixedIn s t x := rfl
  have howned : dirOf (fixedIn s t x) t.line = some (.xw b) := hdir
  have hlive' : agentLost (fixedIn s t x) b = false := hlive
  have howner : holders (fixedIn s t x) (some (.xw b)) = [b] := by simp [holders, hlive']
  have hsource : reqAgent (fixedIn s t x) r.src = reqAgent s r.src := rfl
  unfold runReq
  simp only [h.inTouch, h.rights, h.tag, ite_self, h.fixes, hlisted, howned, howner, hsource, hcache, hwrite, hroom,
    Bool.false_eq_true, if_false]
  cases k with
  | rdShared | rdOwn | upgrade =>
    obtain ⟨a, ha⟩ := Option.isSome_iff_exists.mp (hrole rfl)
    have hne : a ≠ b := fun hab => hother (hab ▸ ha)
    have hwithout : without a [b] = [b] := by simp [without, hne.symm]
    cases hmsg
    simp [ha, hne, hwithout, exclHolder, hlive', invThen]
  | wrFull | wrPart => cases hmsg; rfl
  | _ => cases hmsg

end AtFront

/-- A write-back of a line that another agent owns is stale: it completes and writes nothing (R112). -/
theorem runReq_wbM_of_owned {s : State} {t : Trk} {data : List Byte} {x : Extent} (h : AtFront s t (.wbM data) x) (r : Req)
    {b : BitVec 10} (hdir : dirOf s t.line = some (.xw b)) (hother : reqAgent s r.src ≠ some b) :
    runReq t r (.wbM data) s = endWith (fixed s t x) .ok (fixedIn s t x) := by
  obtain ⟨hcache, hwrite, hroom⟩ := h.passes
  have hlisted : updTrk t.id (fun _ => fixed s t x) s = fixedIn s t x := rfl
  have howned : dirOf (fixedIn s t x) t.line = some (.xw b) := hdir
  have hsource : reqAgent (fixedIn s t x) r.src = reqAgent s r.src := rfl
  unfold runReq
  simp only [h.inTouch, h.rights, h.tag, ite_self, h.fixes, hlisted, howned, hsource, hcache, hwrite, hroom,
    Bool.false_eq_true, if_false]
  cases ha : reqAgent s r.src with
  | none => rfl
  | some a =>
    have hne : a ≠ b := fun hab => hother (hab ▸ ha)
    exact if_neg hne

section Reaches
variable {s : State} {r : Req} {k : ReqKind} {rider : BitVec 6} {off : Nat} {x : Extent} (h : Reaches s r k rider off x)
include h

theorem acceptReq_runs (hfits : kindFits (cxlReq r s) k) : acceptReq r k s =
    runReq (asked s (cxlReq r s) k rider off x) (cxlReq r s) k (newTrk (asked s (cxlReq r s) k rider off x) s) := by
  rw [acceptReq_of_reaches h, routeReq_of_reaches h hfits]
  exact tryTrk_of_front (t := asked s (cxlReq r s) k rider off x) (findTrk_newTrk (fun u hu => (h.alone u hu).2) _) rfl rfl
    (blocked_newTrk_of_alone (fun u hu => (h.alone u hu).1) rfl) h.noScan h.noInj h.lives

/-- The transaction with its lap fixed stands in the list alone of what the request changed. -/
theorem fixedIn_asked : fixedIn (newTrk (asked s (cxlReq r s) k rider off x) s) (asked s (cxlReq r s) k rider off x) x =
    newTrk (taken s (cxlReq r s) k rider off x) s :=
  updTrk_newTrk (fun u hu => (h.alone u hu).2) _ _

theorem trkLost_of_reaches {t : Trk} (hwhat : t.what = .req (cxlReq r s) k) : trkLost s t = false := by
  have hagent : trkAgent s t = reqAgent s r.src := by rw [trkAgent, hwhat, ← cxlReq_src r s]
  rw [trkLost, hagent]
  cases ha : reqAgent s r.src with
  | none => rfl
  | some a => exact h.inTouch a ha

theorem atFront_asked : AtFront (newTrk (asked s (cxlReq r s) k rider off x) s) (asked s (cxlReq r s) k rider off x) k x where
  inTouch := trkLost_of_reaches (t := asked s (cxlReq r s) k rider off x) h rfl
  rights := trkRights_of_rightsAt h.rights rfl
  tag := rfl
  inLap := h.inLap
  inWlap := h.inWlap
  room := by
    rw [fixedIn_asked h]
    exact (setFull_newTrk_of_wait rfl _ _).trans h.setFree

theorem role_asked (hk : k.caching = true) :
    (reqAgent (newTrk (asked s (cxlReq r s) k rider off x) s) (cxlReq r s).src).isSome = true := by
  rw [cxlReq_src]
  exact h.role hk

theorem sendMem_taken (op : MemOp) :
    sendMem (taken s (cxlReq r s) k rider off x) op (newTrk (taken s (cxlReq r s) k rider off x) s) =
    atMemory s (cxlReq r s) k rider off x op
      (match op with | .rd => .memRd s.coh.nextTrk | .wr => .memWr s.coh.nextTrk | .atom => .memAtom s.coh.nextTrk) := by
  have hlist := updTrk_newTrk (fun u hu => (h.alone u hu).2) (taken s (cxlReq r s) k rider off x)
    (fun t => { t with phase := .memSent, mem := op })
  have hid : (taken s (cxlReq r s) k rider off x).id = s.coh.nextTrk := rfl
  unfold sendMem
  rw [hid, hlist]
  rfl

theorem startSnoop_taken (msg : BitVec 10 → OutMsg) (as : List (BitVec 10)) :
    startSnoop (taken s (cxlReq r s) k rider off x) msg as (newTrk (taken s (cxlReq r s) k rider off x) s) =
      snooping s (cxlReq r s) k rider off x as msg := by
  have hlist := updTrk_newTrk (fun u hu => (h.alone u hu).2) (taken s (cxlReq r s) k rider off x)
    (fun t => { t with phase := .snoop, snoops := as })
  have hid : (taken s (cxlReq r s) k rider off x).id = s.coh.nextTrk := rfl
  rw [startSnoop, hid, hlist]
  rfl

theorem endWith_taken : endWith (taken s (cxlReq r s) k rider off x) .ok (newTrk (taken s (cxlReq r s) k rider off x) s) =
    { s with coh := { s.coh with nextTrk := s.coh.nextTrk + 1 }, out := s.out ++ [.cmp (cxlReq r s) .ok false] } := by
  have hlost : trkLost (newTrk (taken s (cxlReq r s) k rider off x) s) (taken s (cxlReq r s) k rider off x) = false :=
    trkLost_of_reaches (t := taken s (cxlReq r s) k rider off x) h rfl
  have hid : (taken s (cxlReq r s) k rider off x).id = s.coh.nextTrk := rfl
  have hend := endTrk_newTrk (fun u hu => (h.alone u hu).2) (taken s (cxlReq r s) k rider off x)
  have hwhat : (taken s (cxlReq r s) k rider off x).what = .req (cxlReq r s) k := rfl
  simp only [endWith, hwhat, hlost, hid, hend, Bool.false_eq_true, if_false, sendCmp_ok]
  rfl

/-- A request for a line that no agent holds goes to the memory controller; one that only gives up a copy completes. -/
theorem request_of_uncached (hfits : kindFits (cxlReq r s) k) (hdir : dirOf s (lineOf off) = none) :
    whenUp s (acceptReq r k) = match firstOrder k with
      | some op => atMemory s (cxlReq r s) k rider off x op
          (match op with | .rd => .memRd s.coh.nextTrk | .wr => .memWr s.coh.nextTrk | .atom => .memAtom s.coh.nextTrk)
      | none => { s with
          coh := { s.coh with nextTrk := s.coh.nextTrk + 1 }, out := s.out ++ [.cmp (cxlReq r s) .ok false] } := by
  have hfixed : fixed (newTrk (asked s (cxlReq r s) k rider off x) s) (asked s (cxlReq r s) k rider off x) x =
      taken s (cxlReq r s) k rider off x := rfl
  have hrun := runReq_of_uncached (atFront_asked h) (cxlReq r s) (role_asked h) hdir
  rw [whenUp_of_running h.up, acceptReq_runs h hfits, hrun, hfixed, fixedIn_asked h, endWith_taken h]
  cases firstOrder k with
  | none => rfl
  | some op => exact sendMem_taken h op

theorem request_of_owned (hfits : kindFits (cxlReq r s) k) {msg : BitVec 10 → Nat → Nat → OutMsg}
    (hmsg : ownerSnoop k = some msg) {b : BitVec 10} (hdir : dirOf s (lineOf off) = some (.xw b))
    (hlive : agentLost s b = false) (hother : reqAgent s r.src ≠ some b) : whenUp s (acceptReq r k) =
      snooping s (cxlReq r s) k rider off x [b] fun b => msg b s.coh.nextTrk (lineOf off) := by
  have hfixed : fixed (newTrk (asked s (cxlReq r s) k rider off x) s) (asked s (cxlReq r s) k rider off x) x =
      taken s (cxlReq r s) k rider off x := rfl
  have hrun := runReq_of_owned (atFront_asked h) (cxlReq r s) hmsg (role_asked h) hdir hlive
    (cxlReq_src r s ▸ hother)
  rw [whenUp_of_running h.up, acceptReq_runs h hfits, hrun, hfixed, fixedIn_asked h, startSnoop_taken h]
  rfl

end Reaches

theorem wbM_of_owned {s : State} {r : Req} {data : List Byte} {rider : BitVec 6} {off : Nat} {x : Extent}
    (h : Reaches s r (.wbM data) rider off x) {b : BitVec 10} (hdir : dirOf s (lineOf off) = some (.xw b))
    (hother : reqAgent s r.src ≠ some b) : whenUp s (acceptReq r (.wbM data)) = { s with
      coh := { s.coh with nextTrk := s.coh.nextTrk + 1 }, out := s.out ++ [.cmp (cxlReq r s) .ok false] } := by
  have hrun := runReq_wbM_of_owned (atFront_asked h) (cxlReq r s) hdir (cxlReq_src r s ▸ hother)
  rw [whenUp_of_running h.up, acceptReq_runs h trivial, hrun, fixedIn_asked h]
  exact endWith_taken h

/-- Settles O48: a request that reaches its line runs at the front of its order at once; its kind and the line's directory
entry say what it sends. -/
theorem coherenceRequestsComplete : Obligations.CoherenceRequestsComplete := by
  constructor
  · intro s r rider off x hdir
    have hrun {k : ReqKind} (h : Reaches s r k rider off x) (hfits : kindFits (cxlReq r s) k) :=
      congrArg (Host.Outcome.next (φ := Fault) (ρ := Refusal)) (request_of_uncached h hfits hdir)
    exact ⟨fun h => hrun h trivial, fun h => hrun h trivial, fun h => hrun h trivial, fun h => hrun h trivial,
      fun _ h => hrun h trivial, fun _ _ h => hrun h trivial, fun _ _ _ h => hrun h trivial,
      fun _ h haligned hlocal hform => hrun h ⟨haligned, (cxlReq_src r s).symm ▸ hlocal, hform⟩,
      fun _ h => hrun h trivial, fun h => hrun h trivial⟩
  · intro s r rider off x b hdir hlive hother
    exact ⟨fun h => congrArg _ (request_of_owned h trivial rfl hdir hlive hother),
      fun h => congrArg _ (request_of_owned h trivial rfl hdir hlive hother),
      fun _ h => congrArg _ (request_of_owned h trivial rfl hdir hlive hother),
      fun _ h => congrArg _ (wbM_of_owned h hdir hother)⟩

/-! ### The end of a transaction (R106) -/

theorem setDir_coh (line : Nat) (d : Option DirSt) (s : State) : (setDir line d s).coh = { s.coh with dir := match d with
    | some st => dropIf s.coh.dir (·.line == line) ++ [{ line := line, st := st, dead := dirDead s line }]
    | none => dropIf s.coh.dir (·.line == line) } := rfl

/-- Nothing that waits: there is nothing to start. -/
theorem kick_of_noneWaits {s : State} (h : NoneWaits s) : kick s = s := by
  have hnone : s.coh.trks.filter (·.phase = .wait) = [] :=
    List.filter_eq_nil_iff.mpr fun t ht => by simpa using h t ht
  simp [kick, hnone]

theorem noneWaits_endTrk {s : State} (h : NoneWaits s) (id : Nat) : NoneWaits (endTrk id s) :=
  fun t ht => h t (mem_dropIf.mp ht).1

theorem findTrk_endTrk (id : Nat) (s : State) : findTrk (endTrk id s) id = none := by
  refine List.find?_eq_none.mpr fun t ht => ?_
  simpa using (mem_dropIf.mp ht).2

theorem sendCmp_of_not_cxl {r : Req} (hsrc : ∀ p q, r.src ≠ .cxl p q) (st : Status) (missed : Bool) (s : State) :
    sendCmp r st missed s = emit (.cmp r st missed) s := by
  unfold sendCmp
  split
  · next p q heq => exact absurd heq (hsrc p q)
  · rfl

/-- The transaction of a request in touch with its agent ends with the status given. -/
theorem endWith_of_req {s : State} {t : Trk} {r : Req} {k : ReqKind} (hwhat : t.what = .req r k)
    (hsrc : ∀ p q, r.src ≠ .cxl p q) (hlost : trkLost s t = false) (st : Status) :
    endWith t st s = emit (.cmp r st t.missed) (endTrk t.id s) := by
  simp [endWith, hwhat, hlost, sendCmp_of_not_cxl hsrc]

/-! ### Losing an agent (R119, R122, R124) -/

/-- A rider without a ring receives no event. -/
theorem postEvent_of_no_ring {s : State} {r : BitVec 6} (h : ∀ x ∈ s.rings, x.rider ≠ r) (e : Event) : postEvent r e s = s := by
  have hkept (f : Ring → Ring) : updRing r f s = s := by
    have hlist : updIf s.rings (·.rider = r) f = s.rings := updIf_of_false fun x hx => by simpa using h x hx
    simp only [updRing, hlist]
  have hnone : s.rings.find? (·.rider = r) = none := List.find?_eq_none.mpr fun x hx => by simpa using h x hx
  simp [postEvent, hkept, serveRing, hnone]

/-- An agent's loss as it is listed, with the scan that is still to run. -/
def listedLost (a : BitVec 10) (cause : BitVec 16) (s : State) : State := { s with coh := { s.coh with
  lost := s.coh.lost ++ [(a, cause)]
  scans := s.coh.scans ++ [{ agent := a, cause := cause, rider := agentRider s a }] } }

/-- A record, an event that no ring takes and a fence change the logs and the fences only. -/
theorem markFence_postEvent_detect_only {s : State} {r : BitVec 6} (hrings : ∀ x ∈ s.rings, x.rider ≠ r) (rec : Rec) (e : Event)
    (u : BitVec 16) (trigger : Nat) : ∃ err nv, u ∈ err.fences ∧
      markFence u trigger (postEvent r e (detect rec s)) = { s with err := err, nv := nv } := by
  obtain ⟨err, o, n, hdetect⟩ := detect_only rec s
  have hkept : ∀ x ∈ (detect rec s).rings, x.rider ≠ r := by
    rw [hdetect]
    exact hrings
  obtain ⟨err', o', n', hfence⟩ := markFence_only u trigger (detect rec s)
  have hin : u ∈ err'.fences := by
    have hlast : err'.fences = (detect rec s).err.fences ++ [u] := by rw [← markFence_fences u trigger, hfence]
    simp [hlast]
  rw [postEvent_of_no_ring hkept, hfence, hdetect]
  exact ⟨err', _, hin, rfl⟩

/-- An agent that no transaction snoops and whose rider has no ring is declared lost by a record, a fence and a scan. -/
theorem declareLost_of_unsnooped {s : State} {a : BitVec 10} (hreg : (agentRoute s a).isSome = true)
    (hlive : agentLost s a = false) (htrks : ∀ t ∈ s.coh.trks, a ∉ t.snoops)
    (hrings : ∀ x ∈ s.rings, x.rider ≠ agentRider s a) (cause : BitVec 16) :
    ∃ err nv, unitAgent a ∈ err.fences ∧ declareLost a cause s = { listedLost a cause s with err := err, nv := nv } := by
  have hdeclare : ∃ rec e f, declareLost a cause s =
      (((markFence (unitAgent a) 8 (postEvent (agentRider s a) e (detect rec (listedLost a cause s)))).coh.trks.filter
        fun t => t.snoops.contains a).map (·.id)).foldl f
          (markFence (unitAgent a) 8 (postEvent (agentRider s a) e (detect rec (listedLost a cause s)))) :=
    ⟨_, _, _, if_neg (by simp [hlive, Option.isSome_iff_ne_none.mp hreg])⟩
  obtain ⟨rec, e, f, hdeclare⟩ := hdeclare
  obtain ⟨err, nv, hin, hlisted⟩ :=
    markFence_postEvent_detect_only (s := listedLost a cause s) hrings rec e (unitAgent a) 8
  have hnone : s.coh.trks.filter (fun t => t.snoops.contains a) = [] :=
    List.filter_eq_nil_iff.mpr fun t ht => by simpa using htrks t ht
  refine ⟨err, nv, hin, ?_⟩
  rw [hdeclare, hlisted]
  have hids : ({ listedLost a cause s with err := err, nv := nv } : State).coh.trks = s.coh.trks := rfl
  rw [hids, hnone]
  rfl

/-- A time-out at a memory controller ends the request in touch with its agent with `TIMEOUT` (R119). -/
theorem memoryTimeout_ends {s : State} {t : Trk} {r : Req} {k : ReqKind} (hup : s.phase = .running)
    (hfind : findTrk s t.id = some t) (hidle : NoneWaits s) (hphase : t.phase = .memSent ∨ t.phase = .memBack)
    (hwhat : t.what = .req r k) (hsrc : ∀ p q, r.src ≠ .cxl p q) (hlost : trkLost s t = false) : ∃ err nv,
      exec (.memoryTimeout t.id) s =
        .next (emit (.cmp r .timeout t.missed) (endTrk t.id { s with err := err, nv := nv })) := by
  have hexec : exec (.memoryTimeout t.id) s = execMemoryTimeout t.id s := rfl
  have hcond : (t.phase = .memSent || t.phase = .memBack || (t.phase = .ready && decide (t.status = .ok))) = true := by
    rcases hphase with h | h <;> simp [h]
  have hdetects : ∃ rec, exec (.memoryTimeout t.id) s = .next (kick (endWith t .timeout (detect rec s))) := by
    rw [hexec, execMemoryTimeout, whenUp_of_running hup, hfind]
    exact ⟨_, congrArg _ (if_pos hcond)⟩
  obtain ⟨rec, hdetects⟩ := hdetects
  obtain ⟨err, o, n, hdetect⟩ := detect_only rec s
  have hlost' : trkLost { s with err := err, nv := { s.nv with odometer := o, odoPos := n } } t = false := hlost
  rw [hdetects, hdetect, endWith_of_req hwhat hsrc hlost']
  exact ⟨err, _, congrArg _ (kick_of_noneWaits (noneWaits_endTrk hidle t.id))⟩

/-! ### The scan of a lost agent (R124) -/

theorem recallExts_of_dir_nil {s : State} (h : s.coh.dir = []) (idxs : List Nat) : recallExts idxs s = s := by
  simp [recallExts, dirLines, h]

theorem recallExts_nil (s : State) : recallExts [] s = s := by
  simp [recallExts, dirLines]

/-- The directory after a scan has met each of its entries. -/
def scanned (a : BitVec 10) (c : Scan) (s : State) : State := s.coh.dir.foldl (fun s d => scanEntry a c.cause c.rider d s) s

/-- The end of a scan recalls the lines of the extents that it has fenced. -/
theorem agentLossScanEnd_runs {s : State} {a : BitVec 10} {c : Scan} (hup : s.phase = .running) (hscans : s.coh.scans = [c])
    (hagent : c.agent = a) : ∃ idxs, ((scanned a c s).store = s.store → idxs = []) ∧ exec (.agentLossScanEnd a) s =
      .next (kick (recallExts idxs { scanned a c s with coh := { (scanned a c s).coh with
        scans := dropIf (scanned a c s).coh.scans (·.agent = a) } })) := by
  have hexec : exec (.agentLossScanEnd a) s = execAgentLossScanEnd a s := rfl
  have hfind : s.coh.scans.find? (·.agent = a) = some c := by simp [hscans, hagent]
  rw [hexec, execAgentLossScanEnd, whenUp_of_running hup, hfind]
  refine ⟨_, fun hstore => ?_, rfl⟩
  rw [show s.coh.dir.foldl (fun s d => scanEntry a c.cause c.rider d s) s = scanned a c s from rfl, hstore]
  refine List.map_eq_nil_iff.mpr (List.filter_eq_nil_iff.mpr fun x hx => ?_)
  simp only [Bool.and_eq_true, Bool.not_eq_true', not_and, Bool.not_eq_false, List.contains_iff_mem, List.mem_map,
    List.mem_filter]
  exact fun hfenced => ⟨x, ⟨hx, hfenced⟩, rfl⟩

/-- The directory state names the agent. -/
def namesAgent (a : BitVec 10) : DirSt → Bool
  | .p as => as.contains a
  | .v _ => false
  | .xr b => a = b
  | .xw b => a = b

/-- What is left of a state that names the agent when it names it no more; none: the line is in I. -/
def lessAgent (a : BitVec 10) : DirSt → Option DirSt
  | .p as => if (without a as).isEmpty then none else some (.p (without a as))
  | _ => none

theorem namesAgent_lessAgent {a : BitVec 10} {st st' : DirSt} (h : lessAgent a st = some st') : namesAgent a st' = false := by
  cases st with
  | p as =>
    simp only [lessAgent] at h
    split at h
    · cases h
    · cases h
      simp [namesAgent, without]
  | _ => cases h

theorem not_named_of_namesAgent_false {a : BitVec 10} {st : DirSt} (h : namesAgent a st = false) :
    st ≠ .xr a ∧ st ≠ .xw a ∧ ∀ as, st = .p as → a ∉ as := by
  refine ⟨?_, ?_, ?_⟩
  · rintro rfl
    simp [namesAgent] at h
  · rintro rfl
    simp [namesAgent] at h
  · rintro as rfl
    simpa [namesAgent] using h

/-- An entry that the agent does not own leaves its state or is freed, and nothing else changes. -/
theorem scanEntry_of_not_owned {a : BitVec 10} {d : DirEnt} (hst : d.st ≠ .xw a) (cause : BitVec 16) (r : BitVec 6)
    (s : State) : scanEntry a cause r d s = if namesAgent a d.st then setDir d.line (lessAgent a d.st) s else s := by
  unfold scanEntry
  rw [if_neg (by simp [hst])]
  cases hd : d.st with
  | p as => rfl
  | v => rfl
  | xr b => simp [namesAgent, lessAgent]
  | xw b =>
    have hne : a ≠ b := fun hab => hst (hab ▸ hd)
    simp [namesAgent, hne]

/-- After a scan over entries that the agent does not own, an entry that still names it has not been met. -/
theorem scanEntries_of_not_owned {a : BitVec 10} {ds : List DirEnt} (hds : ∀ d ∈ ds, d.st ≠ .xw a) (cause : BitVec 16)
    (r : BitVec 6) (s : State) : ∃ dir,
      ds.foldl (fun s d => scanEntry a cause r d s) s = { s with coh := { s.coh with dir := dir } } ∧
      ∀ e ∈ dir, namesAgent a e.st = true → e ∈ s.coh.dir ∧ e ∉ ds := by
  induction ds generalizing s with
  | nil => exact ⟨s.coh.dir, rfl, fun e he _ => ⟨he, List.not_mem_nil⟩⟩
  | cons d ds ih =>
    have hrest : ∀ e ∈ ds, e.st ≠ .xw a := fun e he => hds e (List.mem_cons_of_mem d he)
    rw [List.foldl_cons, scanEntry_of_not_owned (hds d List.mem_cons_self)]
    cases hnames : namesAgent a d.st with
    | false =>
      obtain ⟨dir, hfold, hdir⟩ := ih hrest s
      refine ⟨dir, hfold, fun e he hbad => ⟨(hdir e he hbad).1, ?_⟩⟩
      have hne : e ≠ d := fun hed => by simp [← hed, hbad] at hnames
      simpa [hne] using (hdir e he hbad).2
    | true =>
      obtain ⟨dir, hfold, hdir⟩ := ih hrest (setDir d.line (lessAgent a d.st) s)
      refine ⟨dir, hfold, fun e he hbad => ?_⟩
      obtain ⟨hin, hnot⟩ := hdir e he hbad
      have hold : e ∈ dropIf s.coh.dir (·.line == d.line) := by
        rw [setDir_coh] at hin
        cases hless : lessAgent a d.st with
        | none => simpa [hless] using hin
        | some st =>
          simp only [hless, List.mem_append, List.mem_singleton] at hin
          rcases hin with hin | rfl
          · exact hin
          · simp [namesAgent_lessAgent hless] at hbad
      obtain ⟨hin, hline⟩ := mem_dropIf.mp hold
      have hne : e ≠ d := fun hed => by simp [hed] at hline
      exact ⟨hin, by simpa [hne] using hnot⟩

/-- A scan of an agent that owns no line frees what it shared, and changes the directory and the list of scans only. -/
theorem agentLossScanEnd_of_not_owned {s : State} {a : BitVec 10} {c : Scan} (hup : s.phase = .running)
    (hscans : s.coh.scans = [c]) (hagent : c.agent = a) (hidle : NoneWaits s) (hds : ∀ d ∈ s.coh.dir, d.st ≠ .xw a) :
    ∃ dir, exec (.agentLossScanEnd a) s = .next { s with coh := { s.coh with dir := dir, scans := [] } } ∧
      ∀ d ∈ dir, namesAgent a d.st = false := by
  obtain ⟨dir, hscanned, hdir⟩ := scanEntries_of_not_owned hds c.cause c.rider s
  have hscanned : scanned a c s = { s with coh := { s.coh with dir := dir } } := hscanned
  obtain ⟨idxs, hidxs, hexec⟩ := agentLossScanEnd_runs hup hscans hagent
  have hnone : idxs = [] := hidxs (by rw [hscanned])
  have hended : dropIf s.coh.scans (·.agent = a) = [] := by simp [dropIf, hscans, hagent]
  refine ⟨dir, ?_, fun d hd => ?_⟩
  · rw [hexec, hnone, recallExts_nil, hscanned]
    simp only [hended]
    exact congrArg _ (kick_of_noneWaits hidle)
  · by_contra hbad
    obtain ⟨hin, hnot⟩ := hdir d hd (by simpa using hbad)
    exact hnot hin

/-- A rider's list with one more loss (R125). -/
def withLoss (s : State) (r : BitVec 6) (a : BitVec 10) (cause : BitVec 16) (line : Nat) : LossList :=
  { lossOf s r with
    ents := (lossOf s r).ents ++ [{ line := line, seq := (lossOf s r).next, agent := a, cause := cause }]
    next := (lossOf s r).next + 1 }

theorem lossOf_setLoss_withLoss (s t : State) (r : BitVec 6) (a : BitVec 10) (cause : BitVec 16) (line : Nat) :
    lossOf (setLoss (withLoss s r a cause line) t) r = withLoss s r a cause line := by
  have hrider : (withLoss s r a cause line).rider = r := lossOf_rider s r
  have hlist := lossOf_setLoss (l := withLoss s r a cause line) t
  rwa [hrider] at hlist

theorem listLoss_of_room {s : State} {r : BitVec 6} (hrings : ∀ y ∈ s.rings, y.rider ≠ r)
    (hlen : (lossOf s r).ents.length < 65536) (hnext : (lossOf s r).next < 0xFFFFFFFF) (a : BitVec 10) (cause : BitVec 16)
    (line : Nat) : listLoss r a cause line s = setLoss (withLoss s r a cause line) s := by
  unfold listLoss
  rw [if_neg (by simp only [Bool.or_eq_true, decide_eq_true_eq]; omega)]
  refine postEvent_of_no_ring ?_ _
  exact hrings

theorem fenceExt_of_open {s : State} {r : BitVec 6} {x : Extent} (hrings : ∀ y ∈ s.rings, y.rider ≠ r)
    (hext : findExt s x.idx = some x) (hopen : x.fenced = false) :
    fenceExt r x.idx s = updExt s x.idx fun x => { x with fenced := true } := by
  unfold fenceExt
  rw [hext]
  refine (if_neg (by simp [hopen])).trans (postEvent_of_no_ring ?_ _)
  exact hrings

theorem findExt_idx {s : State} {i : Nat} {x : Extent} (h : findExt s i = some x) : x.idx = i := by
  simpa using List.find?_some h

/-- An entry that the agent owns alone: the line is listed as lost and its extent fenced (R124, R125). -/
theorem scanEntry_of_owned {s : State} {a : BitVec 10} {d : DirEnt} {x : Extent} {r : BitVec 6} (hst : d.st = .xw a)
    (hlive : d.dead = false) (hext : findExt s (extentOf d.line) = some x) (hplain : extLapped s x = false)
    (hopen : x.fenced = false) (hrings : ∀ y ∈ s.rings, y.rider ≠ r) (hlen : (lossOf s r).ents.length < 65536)
    (hnext : (lossOf s r).next < 0xFFFFFFFF) (cause : BitVec 16) : scanEntry a cause r d s =
      updExt (setLoss (withLoss s r a cause d.line) (setDir d.line none s)) x.idx fun x => { x with fenced := true } := by
  have hlisted := listLoss_of_room (s := setDir d.line none s) hrings hlen hnext a cause d.line
  have hplain' : extLapped (setDir d.line none s) x = false := hplain
  have hext' : findExt (setDir d.line none s) (extentOf d.line) = some x := hext
  unfold scanEntry
  rw [if_neg (by simp [hlive])]
  simp only [hst, ne_eq, not_true_eq_false, if_false, hext', hplain', Bool.false_eq_true, hlisted]
  refine fenceExt_of_open ?_ ?_ hopen
  · exact hrings
  · rw [findExt_idx hext]
    exact hext

/-- The scan of an agent that owns the one listed line frees it, lists its loss and fences its extent. -/
theorem agentLossScanEnd_of_owned {s : State} {a : BitVec 10} {c : Scan} {d : DirEnt} {x : Extent} (hup : s.phase = .running)
    (hscans : s.coh.scans = [c]) (hagent : c.agent = a) (hidle : NoneWaits s) (hdir : s.coh.dir = [d]) (hst : d.st = .xw a)
    (hlive : d.dead = false) (hext : findExt s (extentOf d.line) = some x) (hplain : extLapped s x = false)
    (hopen : x.fenced = false) (hrings : ∀ y ∈ s.rings, y.rider ≠ c.rider) (hlen : (lossOf s c.rider).ents.length < 65536)
    (hnext : (lossOf s c.rider).next < 0xFFFFFFFF) : ∃ v, exec (.agentLossScanEnd a) s = .next v ∧
      v.coh.scans = [] ∧ v.coh.dir = [] ∧ v.store.mem = s.store.mem ∧
      (∀ y ∈ v.store.extents, y.idx = x.idx → y.fenced = true) ∧
      (lossOf v c.rider).ents = (lossOf s c.rider).ents ++
        [{ line := d.line, seq := (lossOf s c.rider).next, agent := a, cause := c.cause }] := by
  have hscanned : scanned a c s = scanEntry a c.cause c.rider d s := by simp [scanned, hdir]
  rw [scanEntry_of_owned hst hlive hext hplain hopen hrings hlen hnext] at hscanned
  have hfreed : dropIf s.coh.dir (·.line == d.line) = [] := by simp [dropIf, hdir]
  have hended : dropIf s.coh.scans (·.agent = a) = [] := by simp [dropIf, hscans, hagent]
  obtain ⟨idxs, -, hexec⟩ := agentLossScanEnd_runs hup hscans hagent
  rw [hscanned, recallExts_of_dir_nil, kick_of_noneWaits] at hexec
  · refine ⟨_, hexec, hended, hfreed, rfl, fun y hy hidx => ?_, ?_⟩
    · obtain ⟨z, -, rfl⟩ := List.mem_map.mp hy
      by_cases hz : z.idx = x.idx
      · simp [hz]
      · simp [hz] at hidx
    · exact congrArg LossList.ents (lossOf_setLoss_withLoss s (setDir d.line none s) c.rider a c.cause d.line)
  · exact fun t ht => hidle t ht
  · exact hfreed

/-- Settles O50: a silent agent is declared lost, which with nothing to snoop is a record, a fence and a scan; a memory limit
ends its transaction alone; a scan frees each entry that names the agent, and lists and fences what the agent owned. -/
theorem agentLossCompletes : Obligations.AgentLossCompletes := by
  refine ⟨fun s t a hup hfind hin => ⟨fun hphase => ?snoop, fun hphase hlive => ?grant⟩,
    fun s a cause hreg hlive htrks hrings => ?declare,
    fun s t r k hup hfind hidle hphase hwhat hsrc hlost => ?memory,
    fun s a c hup hscans hagent hidle => ⟨fun d x => agentLossScanEnd_of_owned hup hscans hagent hidle, fun hds => ?shared⟩⟩
  case snoop =>
    refine congrArg _ ((whenUp_of_running hup _).trans ?_)
    rw [hfind]
    exact if_pos (by rcases hphase with h | h <;> simp [h, hin])
  case grant =>
    refine congrArg _ ((whenUp_of_running hup _).trans ?_)
    rw [hfind]
    exact (if_pos (by simp [hphase, hin])).trans (if_neg (by simp [hlive]))
  case declare =>
    obtain ⟨err, nv, hfence, hlost⟩ := declareLost_of_unsnooped hreg hlive htrks hrings cause
    rw [hlost]
    exact ⟨by simp [agentLost, listedLost], by simpa [unitFenced] using hfence, rfl, rfl, rfl⟩
  case memory =>
    obtain ⟨err, nv, hexec⟩ := memoryTimeout_ends hup hfind hidle hphase hwhat hsrc hlost
    exact ⟨_, hexec, rfl, findTrk_endTrk _ _, rfl, rfl⟩
  case shared =>
    obtain ⟨dir, hexec, hclear⟩ := agentLossScanEnd_of_not_owned hup hscans hagent hidle hds
    exact ⟨_, hexec, rfl, fun d hd => not_named_of_namesAgent_false (hclear d hd), rfl, rfl⟩

/-! ### The answers to snoops and stashes (R106, R111, R112, R114) -/

/-- The last answer to a transaction's snoops is followed by what comes after them. -/
theorem answerSnoop_last {s : State} {t : Trk} {a : BitVec 10} (hfind : findTrk s t.id = some t) (hsnoops : t.snoops = [a])
    (hphase : t.phase = .snoop) (f : Trk → Trk) (hf : (f { t with snoops := [] }).snoops = []) :
    answerSnoop a t.id f s =
      afterSnoops (f { t with snoops := [] }) (updTrk t.id (fun _ => f { t with snoops := [] }) s) := by
  have herase : t.snoops.erase a = [] := by simp [hsnoops]
  rw [answerSnoop, hfind]
  refine (if_neg (by simp [hphase, hsnoops])).trans ?_
  rw [herase]
  exact if_pos (by simp [hf])

/-- The kinds whose snoops are followed by a read of the line, or first by a write of what a snooped agent returned. -/
def readsAfterSnoops : ReqKind → Prop
  | .rdOwn | .rdShared | .rdCur => True
  | _ => False

theorem afterSnoops_of_read {t : Trk} {r : Req} {k : ReqKind} (hwhat : t.what = .req r k) (hk : readsAfterSnoops k)
    (s : State) : afterSnoops t s = sendMem t (if t.fwd.isSome then .wr else .rd) s := by
  cases k with
  | rdOwn | rdShared | rdCur =>
    simp only [afterSnoops, hwhat, cachingRead]
    split <;> rfl
  | _ => exact hk.elim

/-- The last answer to the snoops of such a request sends its next order to the memory controller. -/
theorem answerSnoop_sends {s : State} {t : Trk} {a : BitVec 10} {r : Req} {k : ReqKind} (hfind : findTrk s t.id = some t)
    (hsnoops : t.snoops = [a]) (hphase : t.phase = .snoop) (hwhat : t.what = .req r k) (hk : readsAfterSnoops k)
    {f : Trk → Trk} {t' : Trk} (hf : f { t with snoops := [] } = t') (hsame : t'.what = t.what ∧ t'.snoops = []) {op : MemOp}
    (hop : (if t'.fwd.isSome then .wr else .rd) = op) :
    answerSnoop a t.id f s = sendMem t' op (updTrk t.id (fun _ => t') s) := by
  subst hf hop
  rw [answerSnoop_last hfind hsnoops hphase f hsame.2]
  exact afterSnoops_of_read (hsame.1.trans hwhat) hk _

theorem dirOf_setDir_some (line : Nat) (st : DirSt) (s : State) : dirOf (setDir line (some st) s) line = some st := by
  have hgone : (dropIf s.coh.dir (·.line == line)).find? (·.line == line) = none :=
    List.find?_eq_none.mpr fun d hd => by simpa using (mem_dropIf.mp hd).2
  simp [dirOf, setDir_coh, List.find?_append, hgone]

theorem dirOf_setDir_none (line : Nat) (s : State) : dirOf (setDir line none s) line = none := by
  have hgone : (dropIf s.coh.dir (·.line == line)).find? (·.line == line) = none :=
    List.find?_eq_none.mpr fun d hd => by simpa using (mem_dropIf.mp hd).2
  simp [dirOf, setDir_coh, hgone]

/-- A request that completes after its line's entry has been set: the transaction is gone and the completion sent. -/
theorem kick_endWith_setDir {s : State} {t : Trk} {r : Req} {k : ReqKind} (hidle : NoneWaits s) (hwhat : t.what = .req r k)
    (hsrc : ∀ p q, r.src ≠ .cxl p q) (hlost : trkLost s t = false) (st : Status) (d : Option DirSt) :
    kick (endWith t st (setDir t.line d s)) = emit (.cmp r st t.missed) (endTrk t.id (setDir t.line d s)) := by
  have hlost' : trkLost (setDir t.line d s) t = false := hlost
  rw [endWith_of_req hwhat hsrc hlost']
  exact kick_of_noneWaits (noneWaits_endTrk (s := setDir t.line d s) hidle t.id)

theorem snoopAnswersComplete : SnoopAnswersComplete := by
  intro s t r a hup hfind hidle hsnoops
  refine ⟨fun hphase hwhat hfwd => congrArg _ ((whenUp_of_running hup _).trans ?rspI),
    fun data keeps hphase hwhat hlives => congrArg _ ((whenUp_of_running hup _).trans ?datFwd),
    fun hphase hwhat hfwd => congrArg _ ((whenUp_of_running hup _).trans ?rspS),
    fun hphase hwhat hfwd => congrArg _ ((whenUp_of_running hup _).trans ?rspX),
    fun mask data hphase hwhat hsrc hlost hfree => ⟨?stashed, ?refused⟩⟩
  case rspI =>
    have hcur : t.cur = false := by rw [Trk.cur, hwhat]
    have hanswer := answerSnoop_sends hfind hsnoops hphase hwhat trivial (f := id) rfl ⟨rfl, rfl⟩ (op := .rd) (by simp [hfwd])
    simp only [rspI, hfind, hcur, Bool.false_and, Bool.false_eq_true, if_false]
    exact hanswer
  case datFwd =>
    rw [hfind]
    refine (if_neg (by simp [hlives])).trans ?_
    exact answerSnoop_sends hfind hsnoops hphase hwhat trivial (t' := { t with snoops := [], fwd := some (a, data) })
      (by simp [Trk.soft, Trk.cur, hwhat]) ⟨rfl, rfl⟩ rfl
  case rspS =>
    have hsoft : t.soft = true := by rw [Trk.soft, hwhat]
    rw [hfind]
    refine (if_pos hsoft).trans ?_
    exact answerSnoop_sends hfind hsnoops hphase hwhat trivial rfl ⟨rfl, rfl⟩ (by simp [hfwd])
  case rspX =>
    have hcur : t.cur = true := by rw [Trk.cur, hwhat]
    rw [hfind]
    refine (if_pos hcur).trans ?_
    exact answerSnoop_sends hfind hsnoops hphase hwhat trivial rfl ⟨rfl, rfl⟩ (by simp [hfwd])
  case stashed =>
    have hexec : exec (.rspStashOk a t.id) s =
        .next (kick (endWith t .ok (setDir t.line (some (if agentCxl s a then .xw a else .xr a)) s))) := by
      refine congrArg _ ((whenUp_of_running hup _).trans ?_)
      rw [hfind]
      refine (if_neg (by simp [hphase, hsnoops])).trans ?_
      split
      next d hd => exact absurd hd (hfree d)
      next => rfl
    rw [kick_endWith_setDir hidle hwhat hsrc hlost] at hexec
    exact ⟨_, hexec, findTrk_endTrk _ _, dirOf_setDir_some _ _ _, rfl⟩
  case refused =>
    have hexec : exec (.rspStashRefuse a t.id) s =
        .next (kick (endWith { t with missed := true } .ok (setDir t.line none s))) := by
      refine congrArg _ ((whenUp_of_running hup _).trans ?_)
      rw [stashRefused, hfind]
      refine (if_neg (by simp [hphase, hsnoops])).trans ?_
      split
      next d hd => exact absurd hd (hfree d)
      next => rfl
    have hended := kick_endWith_setDir (t := { t with missed := true }) hidle hwhat hsrc hlost .ok none
    exact ⟨_, hexec.trans (congrArg _ hended), findTrk_endTrk _ _, dirOf_setDir_none _ _, rfl⟩

/-! ### The orders to the memory controllers (R106, R112, R116) -/

theorem viewOf_of_plain {s : State} {x : Extent} (h : extLapped s x = false) (r : BitVec 6) : viewOf s x r = .latest := by
  simp [viewOf, h]

theorem trkView_of_trkLine {s : State} {t : Trk} {x : Extent} (h : TrkLine s t x) : trkView s x t = .latest := by
  rcases h.view with hview | hview <;> simp [trkView, hview, viewOf_of_plain h.plain]

/-- A line that can be read at once gives the bytes that the store holds. -/
theorem trkRead_of_trkReads {s : State} {t : Trk} (h : TrkReads s t) : trkRead s t = (.data (held s t.line 64), s) := by
  obtain ⟨x, hline, hdata⟩ := h
  obtain ⟨hinj, hsoft⟩ := hline.clean
  have hread : memRead s x .latest t.line 64 (some t.id) = (.data (held s t.line 64), s) := by
    simp [memRead, hinj, hsoft, readAt_latest_of_reads x _ hdata]
  simp only [trkRead, hline.ext, hline.up, trkView_of_trkLine hline, hread, Bool.false_eq_true, if_false]

theorem latestStore_of_no_copy {page f off : Nat} {st : Store} (h : (findPage st page).copy = none) (bs : List (Option Byte)) :
    latestStore page f off bs st = putBytes (frameTier st f) (f * 65536 + off % 65536) bs st := by
  have hcopy : (findPage (putBytes (frameTier st f) (f * 65536 + off % 65536) bs st) page).copy = none := h
  simp only [latestStore, hcopy]

/-- Bytes of a line that can be written at once go into the frame of its page. -/
theorem writeAt_latest_of_trkWrites {s : State} {t : Trk} {f : Nat} {fr : Frame} {bs : List (Option Byte)} {x : Extent}
    (h : TrkWrites s t f fr bs x) (who : Option Nat) (entered : Bool) :
    writeAt s x .latest t.line bs none who entered = .done (lineWritten t f bs s) := by
  have hmirror (st : Store) (bells : List Bell) :
      syncMirror { s with store := st, bells := bells } x (pageOf t.line) = none := h.own
  have hbytes : applyBytes s x .latest (pageOf t.line) f t.line bs = lineWritten t f bs s := by
    rw [applyBytes_latest_eq_mirrorWrite, latestStore_of_no_copy h.alone]
    simp only [mirrorWrite, hmirror, lineWritten]
  have hframe : writeFrame s x .latest (pageOf t.line) f t.line bs = .done (lineWritten t f bs s) := by
    simp [writeFrame, h.frame.found, h.frame.up, h.whole, hbytes]
  simp [writeAt, mirrorHeld, h.own, h.line.plain, h.idle, h.frame.frame, hframe]

/-- No copy of the page goes to the twin: the write has landed. -/
theorem trkWrite_of_trkWrites {s : State} {t : Trk} {f : Nat} {fr : Frame} {bs : List (Option Byte)} {x : Extent}
    (h : TrkWrites s t f fr bs x) (hsent : s.pair.inFlight.contains (pageOf t.line) = false) (r : BitVec 6) :
    trkWrite s t r bs = (.done, lineWritten t f bs s) := by
  have hsent' : (lineWritten t f bs s).pair.inFlight.contains (pageOf t.line) = false := hsent
  simp only [trkWrite, h.line.ext, h.line.up, h.lap, viewOf_of_plain h.line.plain, writeAt_latest_of_trkWrites h, hsent',
    Bool.false_eq_true, if_false]

/-! ### What a memory controller answers (R106, R112, R116)

O49's clauses on the orders, the two that write with the premise that they lack: no copy of the page is on its way to the twin,
or the home's transaction would wait for it (R148). -/

section Orders
variable {s : State} {t : Trk} (hup : s.phase = .running) (hfind : findTrk s t.id = some t) (hphase : t.phase = .memSent)
include hup hfind hphase

theorem memRd_answers (hmem : t.mem = .rd) (hreads : TrkReads s t) : exec (.memRd t.id) s = .next (emit (.memRdata t.id .ok)
    (updTrk t.id (fun u => { u with phase := .memBack, data := held s t.line 64, status := .ok }) s)) := by
  refine congrArg _ ((whenUp_of_running hup _).trans ?_)
  rw [hfind]
  refine (if_neg (by simp [hphase, hmem])).trans ?_
  rw [trkRead_of_trkReads hreads]

theorem memWr_answers {f : Nat} {fr : Frame} {x : Extent} (hmem : t.mem = .wr) (hdead : fwdDead s t = false)
    (hwrites : TrkWrites s t f fr (memBytes s t).2 x) (hsent : s.pair.inFlight.contains (pageOf t.line) = false) :
    exec (.memWr t.id) s = .next (emit (.memWack t.id .ok)
      (updTrk t.id (fun t => { t with phase := .memBack, status := .ok })
        (meterWr (memBytes s t).1 ((memBytes s t).2.filter (·.isSome)).length (lineWritten t f (memBytes s t).2 s)))) := by
  refine congrArg _ ((whenUp_of_running hup _).trans ?_)
  rw [hfind]
  refine (if_neg (by simp [hphase, hmem])).trans ?_
  cases hbytes : memBytes s t with
  | mk r bs =>
    rw [hbytes] at hwrites
    refine (if_neg (by simp [hdead])).trans ?_
    simp only [trkWrite_of_trkWrites hwrites hsent]

theorem memAtom_answers {r : Req} {op : AtomOp} {old : Word} {new : List Byte} {f : Nat} {fr : Frame} {x : Extent}
    {bs : List (Option Byte)} (hmem : t.mem = .atom) (hwhat : t.what = .req r (.atomic op)) (hreads : TrkReads s t)
    (hrun : atomRun op (((held s t.line 64).drop (r.opa.toNat % 64)).take (atomLen op)) = some (old, new))
    (hbs : bs = List.replicate (r.opa.toNat % 64) none ++ new.map some ++
      List.replicate (64 - r.opa.toNat % 64 - new.length) none)
    (hwrites : TrkWrites s t f fr bs x) (hsent : s.pair.inFlight.contains (pageOf t.line) = false) :
    exec (.memAtom t.id) s = .next (emit (.memRdata t.id .ok)
      (updTrk t.id (fun t => { t with phase := .memBack, data := wordBytes old, status := .ok })
        (meterWr t.rider new.length (lineWritten t f bs s)))) := by
  refine congrArg _ ((whenUp_of_running hup _).trans ?_)
  rw [hfind]
  refine (if_neg (by simp [hphase, hmem])).trans ?_
  simp only [hwhat, trkRead_of_trkReads hreads, hrun, ← hbs, trkWrite_of_trkWrites hwrites hsent]

end Orders

/-! ### The answers of the memory controllers (R106, R111, R112, R148) -/

section Answers
variable {s : State} {t : Trk} {r : Req} (hup : s.phase = .running) (hfind : findTrk s t.id = some t) (hidle : NoneWaits s)
  (hphase : t.phase = .memBack) (hstatus : t.status = .ok) (hsrc : ∀ p q, r.src ≠ .cxl p q) (hlost : trkLost s t = false)

section Read
include hup hfind hphase hstatus

theorem memRdata_delivers {k : ReqKind} (hmem : t.mem = .rd) (hwhat : t.what = .req r k) (hk : ∀ op, k ≠ .atomic op) :
    exec (.memRdata t.id) s = .next (deliver t t.data s) := by
  refine congrArg _ ((whenUp_of_running hup _).trans ?_)
  rw [hfind]
  refine (if_neg (by simp [hphase, hmem, landing])).trans ?_
  simp only [hwhat]
  cases k with
  | atomic op => exact absurd rfl (hk op)
  | _ => exact if_neg (by simp [hstatus])

include hidle hsrc hlost in
theorem memRdata_rdCur (hmem : t.mem = .rd) (hwhat : t.what = .req r .rdCur) : exec (.memRdata t.id) s = .next
    { meterRd t.rider 64 s with
      coh := { s.coh with trks := dropIf s.coh.trks (·.id == t.id) }
      out := s.out ++ [.datCur r t.line t.data, .cmp r .ok false] } := by
  have hdeliver : deliver t t.data s =
      emit (.cmp r .ok false) (emit (.datCur r t.line t.data) (endTrk t.id (meterRd t.rider 64 s))) := by
    simp only [deliver, hwhat, hlost, Bool.false_eq_true, if_false, sendCmp_of_not_cxl hsrc]
    exact kick_of_noneWaits (noneWaits_endTrk (s := meterRd t.rider 64 s) hidle t.id)
  have hout : s.out ++ [.datCur r t.line t.data] ++ [.cmp r .ok false] = s.out ++ [.datCur r t.line t.data, .cmp r .ok false] :=
    List.append_assoc ..
  rw [memRdata_delivers hup hfind hphase hstatus hmem hwhat nofun, hdeliver, ← hout]
  rfl

include hlost in
/-- The line goes to the agent that asked to own it, which owns it from now on (R111). -/
theorem memRdata_rdOwn {a : BitVec 10} (hmem : t.mem = .rd) (hwhat : t.what = .req r .rdOwn)
    (hagent : reqAgent s r.src = some a) (hlap : t.lap ≠ .dead)
    (hplain : ∀ x, findExt s (extentOf t.line) = some x → lapAgent s x t.rider = false) :
    exec (.memRdata t.id) s = .next (emit (.datE r t.line t.data) (meterRd t.rider 64
      (updTrk t.id (fun t => { t with phase := .grant, snoops := [a] }) (setDir t.line (some (.xw a)) s)))) := by
  have hlive : agentLost s a = false := by simpa [trkLost, trkAgent, hwhat, hagent] using hlost
  have hgrant : grant t a true true t.data s = emit (.datE r t.line t.data) (meterRd t.rider 64
      (updTrk t.id (fun t => { t with phase := .grant, snoops := [a] }) (setDir t.line (some (.xw a)) s))) := by
    simp [grant, hlive, hwhat]
  have hdeliver : deliver t t.data s = grant t a true true t.data s := by
    cases hext : findExt s (extentOf t.line) with
    | none => simp [deliver, hwhat, hlost, hagent, hext, hlap]
    | some x => simp [deliver, hwhat, hlost, hagent, hext, hlap, hplain x hext]
  rw [memRdata_delivers hup hfind hphase hstatus hmem hwhat nofun, hdeliver, hgrant]

end Read

include hup hfind hidle hphase hstatus hsrc hlost in
/-- A whole line is written, and no copy of it is on its way to the twin: the request completes (R112, R148). -/
theorem memWack_wrFull {data : List Byte} (hmem : t.mem = .wr) (hwhat : t.what = .req r (.wrFull data))
    (hlanded : landing s t = false) :
    exec (.memWack t.id) s = .next (emit (.cmp r .ok t.missed) (endTrk t.id (setDir t.line none s))) := by
  rw [← kick_endWith_setDir hidle hwhat hsrc hlost .ok none, ← hstatus]
  refine congrArg _ ((whenUp_of_running hup _).trans ?_)
  rw [hfind]
  refine (if_neg (by simp [hphase, hmem, hlanded])).trans ?_
  simp only [hwhat]

include hup hfind in
/-- While the twin's copy of a write is on its way, `MEM_WACK` ends nothing (R148). -/
theorem memWack_of_landing (hlanding : landing s t = true) : exec (.memWack t.id) s = .next s := by
  refine congrArg _ ((whenUp_of_running hup _).trans ?_)
  rw [hfind]
  exact if_pos (by simp [hlanding])

include hup hfind hidle in
theorem cmpAck_ends {a : BitVec 10} (hgrant : t.phase = .grant) (hin : a ∈ t.snoops) :
    exec (.cmpAck a t.id) s = .next (endTrk t.id s) := by
  rw [← kick_of_noneWaits (noneWaits_endTrk hidle t.id)]
  refine congrArg _ ((whenUp_of_running hup _).trans ?_)
  rw [hfind]
  exact if_pos (by simp [hgrant, hin])

end Answers

/-- Who asked for the write of `mirroredTrk`. -/
def mirroredReq : Req := { src := .engine 0, txn := 0, opa := 0, epoch := none }

/-- A whole line that this module's home has written, and whose copy for the twin is lost on a failed link: its page still waits
to be sent again (R148, R281). -/
def mirroredTrk : Trk :=
  { Trk.blank 0 0 (.req mirroredReq (.wrFull (zeros 64))) with
    phase := .memBack, mem := .wr, mirror := true }

def mirroredWrite : State :=
  { State.reset with
    phase := .running
    coh := { State.reset.coh with trks := [mirroredTrk] }
    pair := { State.reset.pair with unsynced := [0] } }

/-- Refutes O49: its `MEM_WACK` clause asks only that no copy of the page be on its way. The copy of `mirroredWrite` is not, and
yet it has not landed: it was lost with its link and waits to be sent again, and until then the home does not answer. -/
theorem not_homeMessagesComplete : ¬ Obligations.HomeMessagesComplete := by
  rintro ⟨-, -, hanswers⟩
  have hidle : NoneWaits mirroredWrite := by
    intro t ht
    obtain rfl := List.mem_singleton.mp ht
    nofun
  have hfind : findTrk mirroredWrite mirroredTrk.id = some mirroredTrk := rfl
  obtain ⟨hback, -⟩ := hanswers mirroredWrite mirroredTrk mirroredReq rfl hfind hidle
  obtain ⟨-, -, hwack⟩ := hback rfl rfl rfl nofun rfl
  obtain ⟨v, hexec, -, hgone, -, -⟩ := hwack (zeros 64) rfl rfl rfl
  have hkept : exec (.memWack mirroredTrk.id) mirroredWrite = .next mirroredWrite := memWack_of_landing rfl hfind rfl
  obtain rfl : mirroredWrite = v := Host.Outcome.next.inj (hkept.symm.trans hexec)
  rw [hfind] at hgone
  cases hgone

end Sys2Proof.Proofs

/-! Laps: what a commit does to the pages and to the laps of an extent, and the numbers of the laps. -/

namespace Sys2Proof.Proofs

open Sys2Proof.Machine Sys2Proof.Claims Sys2Proof.Laws

/-! ### Extents and page entries found again after an update -/

theorem findExt_congr {s t : State} (h : t.store.extents = s.store.extents) (i : Nat) : findExt t i = findExt s i := by
  simp only [findExt, h]

/-- An update of an extent that keeps its index is found under that index. -/
theorem findExt_updExt {g : Extent → Extent} (hidx : ∀ x, (g x).idx = x.idx) (s : State) (i : Nat) :
    findExt (updExt s i g) i = (findExt s i).map g := by
  simp only [findExt, updExt, updIf]
  induction s.store.extents with
  | nil => rfl
  | cons x xs ih => by_cases h : x.idx = i <;> simp_all

/-- Setting a page's entry leaves every other page's entry as it was. -/
theorem findPage_setPage_ne {p : Page} {n : Nat} (hn : p.n ≠ n) (st : Store) : findPage (setPage p st) n = findPage st n := by
  have hrest : (dropIf st.pages (·.n == p.n)).find? (·.n == n) = st.pages.find? (·.n == n) := by
    rw [dropIf, List.find?_filter]
    refine congrArg (fun d => st.pages.find? d) (funext fun q => ?_)
    by_cases hq : q.n = n <;> simp [hq, hn.symm]
  by_cases habsent : p.home = none ∧ p.copy = none <;> simp [findPage, setPage, habsent, hrest, hn]

/-! ### Frames given up leave extents and pages alone (R60, R130) -/

theorem extents_releaseFrame (page f : Nat) (s : State) : (releaseFrame page f s).store.extents = s.store.extents := by
  have hdrop : (dropWork f s.store).extents = s.store.extents :=
    List.foldlRecOn (motive := fun st : Store => st.extents = s.store.extents) _ _ rfl fun _ h _ _ => h
  simp only [releaseFrame]
  split <;> exact hdrop

/-- The store alone changes, and of an extent nothing but its older laps. -/
structure OldLapsOnly (i : Nat) (s t : State) : Prop where
  store : t = { s with store := t.store }
  ext   : ∀ x, findExt s i = some x → ∃ old, findExt t i = some { x with old := old }

theorem OldLapsOnly.refl (i : Nat) (s : State) : OldLapsOnly i s s := ⟨rfl, fun x h => ⟨x.old, h⟩⟩

theorem OldLapsOnly.trans {i : Nat} {s t v : State} (h : OldLapsOnly i s t) (h' : OldLapsOnly i t v) : OldLapsOnly i s v where
  store := by rw [h'.store, h.store]
  ext x hx := by
    obtain ⟨old, ht⟩ := h.ext x hx
    exact h'.ext { x with old := old } ht

theorem oldLapsOnly_of_extents {i : Nat} {s t : State} (hstore : t = { s with store := t.store })
    (hext : t.store.extents = s.store.extents) : OldLapsOnly i s t :=
  ⟨hstore, fun x hx => ⟨x.old, (findExt_congr hext i).trans hx⟩⟩

theorem oldLapsOnly_updExt (i : Nat) (s : State) (g : List OldLap → List OldLap) :
    OldLapsOnly i s (updExt s i fun x => { x with old := g x.old }) where
  store := rfl
  ext x hx := ⟨g x.old, by rw [findExt_updExt (g := fun x => { x with old := g x.old }) (fun _ => rfl), hx]; rfl⟩

theorem releaseFrames_keeps (i : Nat) (fs : List (Nat × Nat)) (s : State) :
    OldLapsOnly i s (releaseFrames fs s) ∧ (releaseFrames fs s).store.pages = s.store.pages := by
  refine List.foldlRecOn (motive := fun t => OldLapsOnly i s t ∧ t.store.pages = s.store.pages) fs _ ⟨.refl i s, rfl⟩ ?_
  rintro t ⟨hlaps, hpages⟩ p -
  have hstore : releaseFrame p.1 p.2 t = { t with store := (releaseFrame p.1 p.2 t).store } := by
    obtain ⟨st, h⟩ := releaseFrame_only p.1 p.2 t
    rw [h]
  exact ⟨hlaps.trans (oldLapsOnly_of_extents hstore (extents_releaseFrame _ _ _)),
    (framesGiven_releaseFrame _ _ _).pages.trans hpages⟩

theorem releaseVersions_keeps (i : Nat) (fs : List (Nat × Nat)) (s : State) :
    OldLapsOnly i s (releaseVersions i fs s) ∧ (releaseVersions i fs s).store.pages = s.store.pages := by
  unfold releaseVersions
  split
  · exact releaseFrames_keeps i _ s
  · exact ⟨.refl i s, rfl⟩

/-- Older laps that nothing holds go, and with them no page of the latest lap. -/
theorem reapLaps_keeps (i : Nat) (s : State) :
    OldLapsOnly i s (reapLaps i s) ∧ (reapLaps i s).store.pages = s.store.pages := by
  simp only [reapLaps]
  split
  · exact ⟨.refl i s, rfl⟩
  next x _ =>
    split
    · exact ⟨.refl i s, rfl⟩
    · obtain ⟨hlaps, hpages⟩ := releaseVersions_keeps i _ _
      exact ⟨(oldLapsOnly_updExt i s fun _ => _).trans hlaps, hpages⟩

/-! ### A new latest version of a page (R72, R86, R137) -/

/-- The latest version of a page lies in a frame: its home frame, or the frame of its copy. -/
def LatestIn (st : Store) (page f : Nat) : Prop :=
  (findPage st page).home = some f ∨ (findPage st page).copy.map (·.frame) = some f

theorem latestIn_congr {st st' : Store} {page : Nat} (h : findPage st' page = findPage st page) (f : Nat) :
    LatestIn st' page f ↔ LatestIn st page f := by
  rw [LatestIn, h, LatestIn]

/-- In `st'` a frame holds the latest version of a page; every other page, and the extents, are as in `st`. -/
structure NewLatest (page f : Nat) (st st' : Store) : Prop where
  latest  : LatestIn st' page f
  others  : ∀ n, n ≠ page → findPage st' n = findPage st n
  extents : st'.extents = st.extents

theorem newLatest_setPage {page f : Nat} {p : Page} {st st' : Store} (hn : p.n = page)
    (hp : p.home = some f ∨ p.copy.map (·.frame) = some f) (hpages : st'.pages = st.pages)
    (hext : st'.extents = st.extents) : NewLatest page f st (setPage p st') where
  latest := by
    rw [LatestIn, findPage_setPage_self hn]
    exact hp
  others n hne := by rw [findPage_setPage_ne (by omega), findPage_congr hpages]
  extents := hext

/-- A version in memory of a flash-backed page becomes its dirty copy, and any other version its home frame (R72). -/
theorem newLatest_newVersion (s : State) (x : Extent) (page f : Nat) :
    NewLatest page f s.store (newVersion s x page (some f)) := by
  have hbare : NewLatest page f s.store (setPage { findPage s.store page with home := some f, copy := none } s.store) :=
    newLatest_setPage (findPage_n _ _) (.inl rfl) rfl rfl
  have hbacked : NewLatest page f s.store
      (newVersion.backed s x page f (setPage { findPage s.store page with home := some f, copy := none }) s.store) := by
    unfold newVersion.backed
    split
    next o _ =>
      split
      · obtain ⟨hlatest, hothers, hext⟩ := newLatest_setPage (st := s.store) (st' := (newFrame .flash s.store).2)
          (p := { findPage (newFrame .flash s.store).2 page with
            home := some (newFrame .flash s.store).1
            copy := some { frame := f, dirty := true, pinned := o.pins.contains page, order := s.store.nextCopy } })
          (findPage_n _ _) (.inr rfl) rfl rfl
        exact ⟨hlatest, hothers, hext⟩
      · exact hbare
    · exact hbare
  simp only [newVersion]
  split
  next f' c hnew _ =>
    obtain rfl : f = f' := Option.some.inj hnew
    split
    · exact newLatest_setPage (findPage_n _ _) (.inl rfl) rfl rfl
    · exact hbacked
  next f' hnew _ =>
    obtain rfl : f = f' := Option.some.inj hnew
    exact hbacked
  next hnew _ => cases hnew
  next hnew _ => cases hnew

/-! ### The switch of a commit (R137) -/

/-- The version in a frame becomes the latest of its page; the version before it stays with the older laps. -/
theorem switchPage_sets {i : Nat} {acc : State × List (Nat × Nat)} (hext : (findExt acc.1 i).isSome = true) (page f : Nat) :
    OldLapsOnly i acc.1 (switchPage i page (some f) acc).1 ∧ LatestIn (switchPage i page (some f) acc).1.store page f ∧
      ∀ n, n ≠ page → findPage (switchPage i page (some f) acc).1.store n = findPage acc.1.store n := by
  obtain ⟨x, hx⟩ := Option.isSome_iff_exists.mp hext
  obtain ⟨hlatest, hothers, hkept⟩ := newLatest_newVersion acc.1 x page f
  simp only [switchPage, hx]
  exact ⟨(oldLapsOnly_of_extents rfl hkept).trans (oldLapsOnly_updExt i _ fun _ => _), hlatest, hothers⟩

/-- Of versions of different pages, each becomes the latest of its page. -/
theorem switchPages_set {i : Nat} {vers : List (Nat × Nat)} (hnodup : (vers.map (·.1)).Nodup)
    {acc : State × List (Nat × Nat)} (hext : (findExt acc.1 i).isSome = true) {t : State × List (Nat × Nat)}
    (ht : vers.foldl (fun acc v => switchPage i v.1 (some v.2) acc) acc = t) :
    OldLapsOnly i acc.1 t.1 ∧ (∀ v ∈ vers, LatestIn t.1.store v.1 v.2) ∧
      ∀ n, n ∉ vers.map (·.1) → findPage t.1.store n = findPage acc.1.store n := by
  induction vers generalizing acc with
  | nil =>
    obtain rfl : acc = t := ht
    exact ⟨.refl i _, nofun, fun _ _ => rfl⟩
  | cons v vs ih =>
    obtain ⟨hfresh, hnodup⟩ := List.nodup_cons.mp hnodup
    obtain ⟨hlaps, hlatest, hothers⟩ := switchPage_sets hext v.1 v.2
    have hext' : (findExt (switchPage i v.1 (some v.2) acc).1 i).isSome = true := by
      obtain ⟨x, hx⟩ := Option.isSome_iff_exists.mp hext
      obtain ⟨old, hy⟩ := hlaps.ext x hx
      rw [hy]
      rfl
    obtain ⟨hlaps', hlatest', hothers'⟩ := ih hnodup hext' ht
    refine ⟨hlaps.trans hlaps', fun e he => ?_, fun n hn => ?_⟩
    · rcases List.mem_cons.mp he with rfl | he
      · exact (latestIn_congr (hothers' _ hfresh) _).mpr hlatest
      · exact hlatest' e he
    · obtain ⟨hne, hn⟩ : n ≠ v.1 ∧ n ∉ vs.map (·.1) := by simpa using hn
      rw [hothers' n hn, hothers n hne]

/-- An extent at the commit point of `w`: the lap that was the latest is the newest of the older ones. -/
def committed (w : WLap) (x : Extent) : Extent :=
  { x with latest := w.num, wlap := none, old := x.old ++ [{ num := x.latest, pages := [] }] }

/-- The commit point, before the shadows take their pages' places. -/
def commitPoint (i : Nat) (w : WLap) (s : State) : State :=
  updExt (updExt s i fun y => { y with wlap := none }) i fun x =>
    { x with latest := w.num, old := x.old ++ [{ num := x.latest, pages := [] }] }

theorem findExt_commitPoint {i : Nat} {s : State} {x : Extent} (hext : findExt s i = some x) (w : WLap) :
    findExt (commitPoint i w s) i = some (committed w x) := by
  unfold commitPoint
  rw [findExt_updExt (fun _ => by rfl), findExt_updExt (fun _ => by rfl), hext]
  rfl

/-- The write lap's number is the latest, the write lap is gone, and its shadows are the latest version of their pages. -/
theorem commitLap_switches {i : Nat} {s : State} {x : Extent} {w : WLap} (hext : findExt s i = some x)
    (hwlap : x.wlap = some w) (hnodup : (w.shadows.map (·.1)).Nodup) :
    commitLap i s = { s with store := (commitLap i s).store } ∧
      (∃ old, findExt (commitLap i s) i = some { committed w x with old := old }) ∧
      ∀ e ∈ w.shadows, LatestIn (commitLap i s).store e.1 e.2 := by
  have hpoint := findExt_commitPoint hext w
  obtain ⟨t, ht⟩ : ∃ t, w.shadows.foldl (fun acc v => switchPage i v.1 (some v.2) acc) (commitPoint i w s, []) = t := ⟨_, rfl⟩
  have hcommit : commitLap i s = releaseVersions i t.2 (reapLaps i t.1) := by
    simp only [commitLap, hext, hwlap, switchLap, List.foldl_map]
    rw [← ht]
    rfl
  obtain ⟨hlaps, hlatest, -⟩ := switchPages_set hnodup (Option.isSome_of_eq_some hpoint) ht
  obtain ⟨hreap, hreapPages⟩ := reapLaps_keeps i t.1
  obtain ⟨hfree, hfreePages⟩ := releaseVersions_keeps i t.2 (reapLaps i t.1)
  obtain ⟨hstore, hlast⟩ := (hlaps.trans hreap).trans hfree
  rw [hcommit]
  refine ⟨hstore, hlast _ hpoint, fun e he => ?_⟩
  exact (latestIn_congr (findPage_congr (hfreePages.trans hreapPages) _) _).mpr (hlatest e he)

/-! ### A lap command reaches its own part (R128, R143) -/

/-- With no injection armed the lap metadata of an extent is used without an event (R344). -/
theorem lapUse_of_no_inj {s : State} (hclean : s.err.inj = []) (r : BitVec 6) (i : Nat) : lapUse r i s = s := by
  simp [lapUse, injMode, hclean]

theorem lapCommand_of_lapRuns {op : Nat} {c : Cmd} {write form : Bool} {s u : State} {idxs : List Nat}
    (h : LapRuns op c write s u idxs) (hform : form = true) (body : List Nat → State → Eff) :
    lapCommand op c form write u body = body idxs u := by
  have huse : idxs.foldl (fun s i => lapUse c.h.r i s) u = u :=
    List.foldlRecOn (motive := fun t => t = u) idxs _ rfl fun t ht i _ => ht ▸ lapUse_of_no_inj (ht ▸ h.clean) _ _
  simp [lapCommand, h.form, hform, h.rights, h.free, huse]

/-! ### `LAP_COMMIT` (R137) -/

/-- The extent of a write lap that takes no more stores. -/
def closing (w : WLap) (x : Extent) : Extent := { x with wlap := some { w with closed := true } }

/-- The close step (R137): nothing but the write lap's mark changes. -/
theorem findExt_setClosed {i : Nat} {s : State} {x : Extent} {w : WLap} (hext : findExt s i = some x)
    (hwlap : x.wlap = some w) : findExt (setClosed true i s) i = some (closing w x) := by
  unfold setClosed
  rw [findExt_updExt (fun _ => by rfl), hext, closing, Option.map_some, hwlap]
  rfl

theorem holdsLap_of_wlap {i : Nat} {s : State} {x : Extent} {w : WLap} (hext : findExt s i = some x)
    (hwlap : x.wlap = some w) : holdsLap s w.rider (i, w.num) = true := by
  simp [holdsLap, hext, hwlap]

/-- Whether a scan may abandon a write lap does not depend on the lap. -/
theorem scanning_setClosed {i : Nat} {s : State} {x : Extent} {w : WLap} (hext : findExt s i = some x)
    (hwlap : x.wlap = some w) : scanning (setClosed true i s) [i] = scanning s [i] := by
  have hi : extentOf (i * 2 ^ 34) = i := Nat.mul_div_cancel i (by decide)
  simp only [scanning, List.any_cons, List.any_nil, scanHolds, hi, hext, findExt_setClosed hext hwlap]
  rfl

/-- A commit that nothing holds back switches its extent and returns (R137). -/
theorem tryCommit_of_quiet {o : Open} {i : Nat} {s : State} {x : Extent} {w : WLap} (hopen : isOpen o s = true)
    (hext : findExt s i = some x) (hwlap : x.wlap = some w) (hnodup : (w.shadows.map (·.1)).Nodup)
    (hscan : scanning s [i] = false) (hbusy : extsBusy s [i] = false) (hdir : dirLines s [i] = [])
    (hpair : pairMirrors s = false) (step : Nat) : tryCommit o w.rider [(i, w.num)] step false s =
      (complete o .ok 0 (lapEntries (commitLap i s) w.rider o.surr [i]) (commitLap i s), none) := by
  obtain ⟨hstore, -, -⟩ := commitLap_switches hext hwlap hnodup
  have hopen' : isOpen o (commitLap i s) = true :=
    (isOpen_congr (by rw [hstore]) (by rw [hstore]) o).trans hopen
  simp [tryCommit, holdsLap_of_wlap hext hwlap, hscan, hbusy, hdir, hpair, forExts, completeIf_of_isOpen hopen']

/-- A 32-bit number is read back from its four bytes (R7). -/
theorem words32_leBytes (n : BitVec 32) : words32 1 (leBytes 4 n.toNat) = [n] := by
  have hbytes : leNat ((leBytes 4 n.toNat).take 4) = n.toNat := by
    simp only [leBytes, List.take, leNat, BitVec.toNat_ofNat]
    omega
  rw [words32, hbytes, BitVec.ofNat_toNat, BitVec.setWidth_eq, words32]

/-- The chapter of `LAP_COMMIT` for one extent: after its close step it is as far as `tryCommit` gets at once. -/
theorem bodyLapCommit_of_tryCommit {c : Cmd} {s u v : State} {i : Nat} {n : BitVec 32}
    (hruns : LapRuns 0x202 c true s u [i]) (hzero : bits (c.p 0) 32 32 = 0) (hcount : runCount (c.p 0) = 1)
    (hpayload : c.payload = leBytes 4 n.toNat) (hholds : holdsLap u c.h.r (i, n) = true)
    (hcommit : tryCommit (openOf 0x202 c) c.h.r [(i, n)] 0 false (setClosed true i u) = (v, none)) :
    bodyLapCommit c u = Eff.later v := by
  have hform : (bits (c.p 0) 32 32 == 0 && c.payload.length == 4 * runCount (c.p 0)) = true := by
    simp [hzero, hpayload, hcount, leBytes]
  have hexts : [i].zip (words32 (runCount (c.p 0)) c.payload) = [(i, n)] := by
    rw [hcount, hpayload, words32_leBytes, List.zip_cons_cons, List.zip_nil_right]
  simp only [bodyLapCommit, lapCommand_of_lapRuns hruns hform, hexts, List.all_cons, List.all_nil, hholds, forExts,
    List.foldl_cons, List.foldl_nil, hcommit]
  rfl

theorem lapCommitCompletes : LapCommitCompletes := by
  intro c s u i x l hruns hzero hpayload hcount hext hwlap hrider hnodup hbusy hdir hscan hpair
  have hclosed := findExt_setClosed hext hwlap
  have hholds : holdsLap u c.h.r (i, l.num) = true := hrider ▸ holdsLap_of_wlap hext hwlap
  have hopen : isOpen (openOf 0x202 c) (setClosed true i u) = true :=
    (isOpen_congr (s := u) rfl rfl _).trans (isOpen_of_runsIn hruns.runs)
  have hcommit := tryCommit_of_quiet (w := { l with closed := true }) hopen hclosed rfl hnodup
    ((scanning_setClosed hext hwlap).trans hscan) hbusy hdir hpair 0
  simp only [hrider] at hcommit
  have hbody := bodyLapCommit_of_tryCommit hruns hzero hcount hpayload hholds hcommit
  obtain ⟨hstore, ⟨old, hlast⟩, hlatest⟩ := commitLap_switches hclosed rfl hnodup
  exact ⟨_, _, congrArg _ (runPacket_later hruns.runs hbody), hlast, rfl, rfl, hstore, hlatest⟩

/-! ### The numbers of the laps (R129) -/

theorem lapNumbers : LapNumbers := by
  intro n
  unfold nextLap
  refine ⟨?nonzero, ?counts, rfl⟩
  case nonzero => split <;> bv_omega
  case counts =>
    intro hn
    rw [if_neg hn]
    bv_omega

/-- Settles O32: the fold over the shadows sets each page once, and what is freed after it takes no page's entry. -/
theorem lapCommitsComplete : Obligations.LapCommitsComplete := ⟨lapCommitCompletes, lapNumbers⟩

end Sys2Proof.Proofs


/-! The memory model: operations of a tile's memory slot, what their accesses and stores come to, signals and waits, and the
command queues with their doorbells and replies. -/

namespace Sys2Proof.Proofs

open Sys2Proof.Machine Sys2Proof.Claims Sys2Proof.Laws

/-! ### Tiles and contexts found again after an update (R162) -/

theorem findTile_updTile {t : BitVec 10} {s : State} {x : Tile} {f : Tile → Tile} (hf : ∀ y, (f y).id = y.id)
    (h : findTile s t = some x) : findTile (updTile t f s) t = some (f x) := by
  have hfind : findTile (updTile t f s) t = (findTile s t).map f := find?_updIf_self (fun y => by rw [hf]) s.tiles
  rw [hfind, h]
  rfl

theorem getElem?_updAt {α : Type} (l : List α) (i : Nat) (f : α → α) : (updAt l i f)[i]? = l[i]?.map f := by
  simp [updAt]

theorem findTile_updCtx {t : BitVec 10} {c : BitVec 4} {s : State} {x : Tile} (f : Ctx → Ctx) (h : findTile s t = some x) :
    findTile (updCtx t c f s) t = some { x with ctxs := updAt x.ctxs c.toNat f } :=
  findTile_updTile (fun _ => rfl) h

theorem findCtx_of_findTile {t : BitVec 10} {c : BitVec 4} {s : State} {x : Tile} (h : findTile s t = some x) :
    findCtx s t c = x.ctxs[c.toNat]? := by
  simp only [findCtx, h, Option.bind_some]

theorem findCtx_updCtx {t : BitVec 10} {c : BitVec 4} {s : State} {k : Ctx} (f : Ctx → Ctx) (h : findCtx s t c = some k) :
    findCtx (updCtx t c f s) t c = some (f k) := by
  obtain ⟨x, htile, hctx⟩ := Option.bind_eq_some_iff.mp h
  rw [findCtx_of_findTile (findTile_updCtx f htile), getElem?_updAt, hctx]
  rfl

/-- Dropping lines of the operand cache leaves a context as it is, but for the mark on a line that is still to come. -/
theorem findCtx_cacheDrop {t : BitVec 10} {c : BitVec 4} {s : State} {k : Ctx} (va len : Nat) (h : findCtx s t c = some k) :
    ∃ b, findCtx (updTile t (cacheDrop va len) s) t c = some { k with noFill := b } := by
  obtain ⟨x, htile, hctx⟩ := Option.bind_eq_some_iff.mp h
  have hdrop : findTile (updTile t (cacheDrop va len) s) t = some (cacheDrop va len x) := findTile_updTile (fun _ => rfl) htile
  rw [findCtx_of_findTile hdrop]
  simp only [cacheDrop, List.getElem?_map, hctx, Option.map_some]
  split
  · split
    · exact ⟨true, rfl⟩
    · exact ⟨k.noFill, rfl⟩
  · exact ⟨k.noFill, rfl⟩

theorem tileRider_updTile {t : BitVec 10} {s : State} {f : Tile → Tile} (hid : ∀ y, (f y).id = y.id)
    (hprog : ∀ y, (f y).prog = y.prog) : tileRider (updTile t f s) t = tileRider s t := by
  have hfind : findTile (updTile t f s) t = (findTile s t).map f := find?_updIf_self (fun y => by rw [hid]) s.tiles
  rw [tileRider, hfind]
  cases h : findTile s t with
  | none => simp [tileRider, h]
  | some x => simp [tileRider, h, hprog]

@[simp] theorem tileRider_updCtx (t : BitVec 10) (c : BitVec 4) (f : Ctx → Ctx) (s : State) :
    tileRider (updCtx t c f s) t = tileRider s t :=
  tileRider_updTile (fun _ => rfl) fun _ => rfl

@[simp] theorem tileRider_cacheDrop (t : BitVec 10) (va len : Nat) (s : State) :
    tileRider (updTile t (cacheDrop va len) s) t = tileRider s t :=
  tileRider_updTile (fun _ => rfl) fun _ => rfl

theorem updIf_updIf {α : Type} {p : α → Bool} {f : α → α} (hf : ∀ x, p (f x) = p x) (l : List α) (g : α → α) :
    updIf (updIf l p f) p g = updIf l p (g ∘ f) := by
  simp only [updIf, List.map_map]
  refine List.map_congr_left fun x _ => ?_
  by_cases hx : p x = true <;> simp [hx, hf]

/-- Two updates of one context are one. -/
theorem updCtx_updCtx (t : BitVec 10) (c : BitVec 4) (f g : Ctx → Ctx) (s : State) :
    updCtx t c g (updCtx t c f s) = updCtx t c (g ∘ f) s := by
  have htiles : updIf (updIf s.tiles (·.id = t) fun x => { x with ctxs := updAt x.ctxs c.toNat f }) (·.id = t)
      (fun x => { x with ctxs := updAt x.ctxs c.toNat g }) =
      updIf s.tiles (·.id = t) fun x => { x with ctxs := updAt x.ctxs c.toNat (g ∘ f) } := by
    rw [updIf_updIf (f := fun x : Tile => { x with ctxs := updAt x.ctxs c.toNat f }) fun _ => rfl]
    refine congrArg (updIf s.tiles _) (funext fun x => ?_)
    simp only [Function.comp_apply, updAt_updAt, Function.comp_def]
  simp only [updCtx, updTile, htiles]

/-! ### A bundle with one operation (R168 to R171) -/

theorem bundle_ne_zero_of_slot {p : Prog} {pc : Nat} {z : BSlot} (h : z ∈ p.slots pc) : p.bundle pc ≠ 0 := by
  intro hzero
  have hbits : p.slotBits pc z ≠ 0 := by simpa [Prog.slots] using (List.mem_filter.mp h).2
  refine hbits ?_
  cases z <;> simp [Prog.slotBits, hzero]

/-- A bundle that holds an operation is where the program counter stands. -/
theorem skip_of_bundle {p : Prog} {pc : Nat} (hin : pc < p.bundles) (hbundle : p.bundle pc ≠ 0) : p.skip pc = pc := by
  have hhere : (p.bundle (pc + 0) != 0) = true := by rw [Nat.add_zero]; exact bne_iff_ne.mpr hbundle
  have hfirst : (List.range (p.bundles - pc)).find? (fun i => p.bundle (pc + i) != 0) = some 0 :=
    List.find?_range_eq_some.mpr ⟨hhere, List.mem_range.mpr (by omega), nofun⟩
  rw [Prog.skip, hfirst]
  rfl

/-- The running context already stands at an operation. -/
theorem progEnd_of_runs {a : At} {s : State} {x : Tile} {p : Prog} {k : Ctx} (h : Runs a s x p k)
    (hskip : p.skip k.pc = k.pc) (n : Nat) : progEnd a.tile n s = s := by
  cases n with
  | zero => rfl
  | succ n =>
    have hin : ¬ p.bundles ≤ k.pc := Nat.not_le.mpr h.inProg
    simp [progEnd, h.tile, h.prog, h.first, h.ctx, hskip, hin]

/-- The operations of a bundle that has one are that one. -/
theorem slotOps_singleton {i : Instr} {z : BSlot} {a : At} {f : SlotFn} (h : slotFn i = some (z, a, f)) :
    BSlot.all.filterMap (slotOp [i]) = [f] := by
  cases z <;> simp [BSlot.all, slotOp, h]

/-- A tile as an operation of a bundle finds it. -/
def tileInSlot (a : At) (x : Tile) : Tile := { x with ctxs := updAt x.ctxs a.ctx.toNat fun k => { k with mid := true } }

theorem issueOps_singleton {a : At} {s : State} {x : Tile} {p : Prog} {k : Ctx} (h : Runs a s x p k) (f : SlotFn) :
    issueOps a [f] (inSlot a s) = f (tileInSlot a x) p { k with mid := true } (inSlot a s) := by
  have htile : findTile (inSlot a s) a.tile = some (tileInSlot a x) := findTile_updCtx _ h.tile
  have hprog : (tileInSlot a x).prog = some p := h.prog
  have hctx : (tileInSlot a x).ctxs[a.ctx.toNat]? = some { k with mid := true } := by
    rw [tileInSlot, getElem?_updAt, h.ctx]
    rfl
  simp only [issueOps, htile, hprog, hctx]
  cases f (tileInSlot a x) p { k with mid := true } (inSlot a s) <;> rfl

/-- An operation that its bundle holds alone issues at once: what it makes of the state ends the bundle. -/
theorem issue_of_lone {z : BSlot} {a : At} {s t : State} {x : Tile} {p : Prog} {k : Ctx} {i : Instr} {f : SlotFn}
    (h : Lone z a s x p k) (hslot : slotFn i = some (z, a, f))
    (hdone : f (tileInSlot a x) p { k with mid := true } (inSlot a s) = .done t) : issue i s = endIssue a t := by
  obtain ⟨hruns, hbundle, hfresh⟩ := h
  have hskip : p.skip k.pc = k.pc := skip_of_bundle hruns.inProg (bundle_ne_zero_of_slot (z := z) (by rw [hbundle]; simp))
  have hinj : injBad s 0x02 (unitTile a.tile) = false := by rw [injBad, hruns.clean]
  have hissue : issue i s = issueBundle a k [i] s := by
    simp [issue, whenUp, hruns.up, hslot, progEnd_of_runs hruns hskip, hruns.tile, hruns.prog, hruns.ctx, hruns.running, hfresh,
      hbundle, slotOp]
  have hops : issueOps a [f] (inSlot a s) = .done t := (issueOps_singleton hruns f).trans hdone
  rw [hissue, issueBundle, hinj, hruns.clean, slotOps_singleton hslot]
  simp only [Bool.false_eq_true, reduceCtorEq, if_false]
  rw [show updCtx a.tile a.ctx (fun k => { k with mid := true }) s = inSlot a s from rfl, hops]


/-! ### Translation for a tile (R45, R54, R55) -/

/-- The tiles play no part in a translation. -/
theorem hits_tiles {s : State} {cl : XClient} {r : BitVec 6} {va : Word} {write : Bool} {opa : Word}
    (h : Hits s cl r va write opa) (ts : List Tile) : Hits { s with tiles := ts } cl r va write opa :=
  ⟨h.inService, h.inSpace, h.rooted, h.mapped, h.quiet, h.hit⟩

section Hits
variable {s : State} {cl : XClient} {r : BitVec 6} {va : Word} {write : Bool} {opa : Word} (h : Hits s cl r va write opa)
include h

theorem xlatHit_of_hits : xlatHit s cl r va.toNat write = some (opa, s) := by
  obtain ⟨e, hmicro, hopa⟩ := Option.map_eq_some_iff.mp h.hit
  simp only [xlatHit, hmicro, hopa]

theorem findWalk_of_hits (ctx : Option (BitVec 4)) : findWalk s cl va write ctx = none := by
  have hnone : ∀ w ∈ s.xlat.walks, w.client ≠ cl := by simpa [clientWalks] using h.quiet
  refine List.find?_eq_none.mpr fun w hw => ?_
  simp [hnone w hw]

/-- A hit of a client without outstanding translations answers at once and changes nothing. -/
theorem clientXlat_of_hits (acc : Option Access) : clientXlat s cl r va write acc = (.ok opa, s) := by
  have hspace : ¬ 144115188075855872 ≤ va.toNat := Nat.not_le.mpr h.inSpace
  have hroot : (rootOf s r).isNone = false := Option.isNone_eq_false_iff.mpr h.rooted
  have hahead : walksAhead s cl none = false := by simp [walksAhead, h.quiet]
  simp [clientXlat, h.inService, hspace, hroot, h.mapped, xlatHit_of_hits h, findWalk_of_hits h, hahead]

end Hits

theorem accXlat_of_hits {s : State} {a : Access} {r : BitVec 6} {va : Word} {write : Bool} {opa : Word}
    (h : Hits s (.tile a.tile) r va write opa) (hdone : a.done = true) : accXlat s a r va write = (.ok opa, s) := by
  simp only [accXlat, hdone, if_true, xlatHit_of_hits h]

/-! ### Accesses that leave the tile (R148, R151, R172) -/

/-- A blocked context's access whose address hits and lies on this module is translated, and no more. -/
theorem issueAcc_of_hits {t : BitVec 10} {c : BitVec 4} {s : State} {k : Ctx} {r : BitVec 6} {a : Access} {opa : Word} {o : Nat}
    (hctx : findCtx s t c = some k) (hrider : tileRider s t = some r) (hblock : k.block = .access a false)
    (hlate : a.late = false) (hdone : a.done = false) (hhits : Hits s (.tile t) r a.va a.kind.writes opa)
    (htarget : target s opa = .off o) :
    issueAcc t c s = updCtx t c (fun k => { k with block := .access { a with done := true } false }) s := by
  have htarget' (f : Ctx → Ctx) : target (updCtx t c f s) opa = .off o := htarget
  simp [issueAcc, hctx, hrider, hblock, hlate, hdone, clientXlat_of_hits hhits, htarget']

/-- The access of an operation whose context blocks for it, translated. -/
theorem issueAcc_block_of_hits {a : At} {s : State} {k : Ctx} {r : BitVec 6} {acc : Access} {opa : Word} {o : Nat}
    (hctx : findCtx s a.tile a.ctx = some k) (hrider : tileRider s a.tile = some r)
    (hlate : acc.late = false) (hdone : acc.done = false) (hhits : Hits s (.tile a.tile) r acc.va acc.kind.writes opa)
    (htarget : target s opa = .off o) :
    issueAcc a.tile a.ctx (block a (.access acc false) s) = block a (.access { acc with done := true } false) s := by
  have hctx' : findCtx (block a (.access acc false) s) a.tile a.ctx =
      some { k with block := .access acc false, turn := true } := findCtx_updCtx _ (findCtx_updCtx _ hctx)
  have hrider' : tileRider (block a (.access acc false) s) a.tile = some r := by simp [block, endTurn, hrider]
  rw [issueAcc_of_hits hctx' hrider' rfl hlate hdone (hits_tiles hhits _) htarget]
  simp only [block, endTurn, updCtx_updCtx]
  rfl

/-- The mark on a line still to come is set aside before the access or after it. -/
theorem updCtx_noFill_block (a : At) (b : Block) (s : State) :
    updCtx a.tile a.ctx (fun k => { k with noFill := false }) (block a b s) =
      block a b (updCtx a.tile a.ctx (fun k => { k with noFill := false }) s) := by
  simp only [block, endTurn, updCtx_updCtx]
  rfl

section Load
variable {a : At} {s : State} {x : Tile} {p : Prog} {k : Ctx}

/-- A load that finds its line in the operand cache answers at once. -/
theorem loadOp_of_hit {size : BitVec 2} {sd : BitVec 5} {addr : AddrOp} {d : List Byte}
    (hline : oneLine (k.addr addr) (2 ^ size.toNat) = true) (hfree : storesAhead k (k.addr addr) (2 ^ size.toNat) = false)
    (hkept : cacheGet x (lineOf (k.addr addr).toNat) = some d) (hclean : injMode s 0x03 (unitTile a.tile) = none) :
    loadOp a true size sd addr (tileInSlot a x) p { k with mid := true } (inSlot a s) = .done (putReg a.tile a.ctx sd
      (bytesWord (sliceB d ((k.addr addr).toNat - lineOf (k.addr addr).toNat) (2 ^ size.toNat)))
      (updTile a.tile (cachePut (lineOf (k.addr addr).toNat) d) (inSlot a s))) := by
  have haddr : ({ k with mid := true } : Ctx).addr addr = k.addr addr := rfl
  have hask : (if true && oneLine (k.addr addr) (opSize size) && !storesAhead { k with mid := true } (k.addr addr) (opSize size)
      then cacheGet (tileInSlot a x) (lineOf (k.addr addr).toNat) else none) = some d := by
    have hahead : storesAhead { k with mid := true } (k.addr addr) (opSize size) = false := hfree
    rw [opSize] at hahead ⊢
    rw [hline, hahead]
    exact hkept
  have hinj : injMode (inSlot a s) 0x03 (unitTile a.tile) = none := hclean
  simp only [loadOp, haddr, hask, hinj]
  rfl

/-- A load that the operand cache does not answer leaves the tile. -/
theorem loadOp_of_miss {cached : Bool} {size : BitVec 2} {sd : BitVec 5} {addr : AddrOp}
    (hmiss : cached = true → cacheGet x (lineOf (k.addr addr).toNat) = none) :
    loadOp a cached size sd addr (tileInSlot a x) p { k with mid := true } (inSlot a s) =
      .done (issueAcc a.tile a.ctx (updCtx a.tile a.ctx (fun k => { k with noFill := false }) (block a (.access
        { accessOf a k addr (.load (2 ^ size.toNat) sd cached) with late := closedTo s p.rider, done := false } false)
          (inSlot a s)))) := by
  have haddr : ({ k with mid := true } : Ctx).addr addr = k.addr addr := rfl
  have hask : (if cached && oneLine (k.addr addr) (opSize size) &&
      !storesAhead { k with mid := true } (k.addr addr) (opSize size)
      then cacheGet (tileInSlot a x) (lineOf (k.addr addr).toNat) else none) = none := by
    split
    next hcond => exact hmiss (by simp_all)
    next => rfl
  simp only [loadOp, haddr, hask]
  rfl

end Load

section Slot
variable {a : At} {s : State} {x : Tile} {p : Prog} {k : Ctx} (h : Lone .memory a s x p k)
include h

theorem findCtx_inSlot : findCtx (inSlot a s) a.tile a.ctx = some { k with mid := true } :=
  findCtx_updCtx _ ((findCtx_of_findTile h.runs.tile).trans h.runs.ctx)

theorem tileRider_inSlot : tileRider (inSlot a s) a.tile = some p.rider := by
  rw [inSlot, tileRider_updCtx, tileRider, h.runs.tile, Option.bind_some, h.runs.prog]
  rfl

end Slot

/-- The access that a load or an atomic makes goes on translated when its address hits and lies on this module. -/
theorem issueAcc_slot {a : At} {s t : State} {k m : Ctx} {r : BitVec 6} {addr : AddrOp} {kind : AccKind} {opa : Word} {o : Nat}
    (hctx : findCtx t a.tile a.ctx = some m) (hrider : tileRider t a.tile = some r) (htiles : t = { s with tiles := t.tiles })
    (hhits : Hits s (.tile a.tile) r (k.addr addr) kind.writes opa) (htarget : target s opa = .off o) :
    issueAcc a.tile a.ctx (block a (.access { accessOf a k addr kind with late := false, done := false } false) t) =
      block a (.access (accessOf a k addr kind) false) t := by
  have hhits' : Hits t (.tile a.tile) r (k.addr addr) kind.writes opa := by rw [htiles]; exact hits_tiles hhits t.tiles
  have htarget' : target t opa = .off o := by rw [htiles]; exact htarget
  exact issueAcc_block_of_hits hctx hrider rfl rfl hhits' htarget'

theorem loadOp_of_hits {a : At} {s : State} {x : Tile} {p : Prog} {k : Ctx} (h : Lone .memory a s x p k) {cached : Bool}
    {size : BitVec 2} {sd : BitVec 5} {addr : AddrOp} {opa : Word} {o : Nat}
    (hmiss : cached = true → cacheGet x (lineOf (k.addr addr).toNat) = none) (hopen : closedTo s p.rider = false)
    (hhits : Hits s (.tile a.tile) p.rider (k.addr addr) false opa) (htarget : target s opa = .off o) :
    loadOp a cached size sd addr (tileInSlot a x) p { k with mid := true } (inSlot a s) = .done (block a
      (.access (accessOf a k addr (.load (2 ^ size.toNat) sd cached)) false)
      (updCtx a.tile a.ctx (fun k => { k with noFill := false }) (inSlot a s))) := by
  have hrider : tileRider (updCtx a.tile a.ctx (fun k => { k with noFill := false }) (inSlot a s)) a.tile = some p.rider := by
    rw [tileRider_updCtx, tileRider_inSlot h]
  rw [loadOp_of_miss hmiss, updCtx_noFill_block, hopen,
    issueAcc_slot (s := s) (findCtx_updCtx _ (findCtx_inSlot h)) hrider rfl hhits htarget]

theorem atomOp_of_hits {a : At} {s : State} {x : Tile} {p : Prog} {k : Ctx} (h : Lone .memory a s x p k) {code : BitVec 4}
    {size : BitVec 2} {sd sa sb : BitVec 5} {addr : AddrOp} {opa : Word} {o : Nat} (hcode : code.toNat < 14)
    (hopen : closedTo s p.rider = false) (hhits : Hits s (.tile a.tile) p.rider (k.addr addr) true opa)
    (htarget : target s opa = .off o) :
    atomOp a code size sd addr sa sb (tileInSlot a x) p { k with mid := true } (inSlot a s) = .done (block a
      (.access (accessOf a k addr (.atom (tileAtom code size (k.getS sa) (k.getS sb)) sd)) false)
      (updTile a.tile (cacheDrop (k.addr addr).toNat (atomLen (tileAtom code size (k.getS sa) (k.getS sb)))) (inSlot a s))) := by
  have hdefined : ¬ 14 ≤ code.toNat := Nat.not_le.mpr hcode
  have hlate : closedTo (inSlot a s) p.rider = false := hopen
  obtain ⟨b, hctx⟩ := findCtx_cacheDrop (k.addr addr).toNat (atomLen (tileAtom code size (k.getS sa) (k.getS sb))) (findCtx_inSlot h)
  have hissue := issueAcc_slot (s := s) (k := k) (kind := .atom (tileAtom code size (k.getS sa) (k.getS sb)) sd) hctx
    (by rw [tileRider_cacheDrop, tileRider_inSlot h]) rfl hhits htarget
  rw [atomOp, if_neg hdefined, ← hissue]
  simp only [hlate]
  rfl

/-- R148 to R155, R172: what the operations of the memory slot make of the state as they issue. -/
theorem tileAccessesComplete : TileAccessesComplete := by
  intro a s x p k addr h
  have hissue {i : Instr} {f : SlotFn} {t : State} (hslot : slotFn i = some (.memory, a, f))
      (hdone : f (tileInSlot a x) p { k with mid := true } (inSlot a s) = .done t) :
      (.next (issue i s) : Out State) = .next (endIssue a t) := congrArg _ (issue_of_lone h hslot hdone)
  refine ⟨?hit, ?miss, ?uncached, ?load, ?atom, ?acq, ?fence, ?fenceWaits⟩
  case hit =>
    intro size sd d hline hfree hkept hclean
    exact hissue rfl (loadOp_of_hit hline hfree hkept hclean)
  case miss =>
    rintro size sd acc rfl hmiss
    exact hissue rfl (loadOp_of_miss fun _ => hmiss)
  case uncached =>
    rintro size sd acc rfl
    exact hissue rfl (loadOp_of_miss nofun)
  case load =>
    intro size sd opa o hopen hhits htarget
    exact ⟨fun hmiss => hissue rfl (loadOp_of_hits h (fun _ => hmiss) hopen hhits htarget),
      hissue rfl (loadOp_of_hits h nofun hopen hhits htarget)⟩
  case atom =>
    intro code size sd sa sb opa o hcode hopen hhits htarget
    exact hissue rfl (atomOp_of_hits h hcode hopen hhits htarget)
  case acq => exact fun sa sb => hissue rfl rfl
  case fence =>
    intro hnone
    refine hissue rfl ?_
    have hempty : ({ k with mid := true } : Ctx).stores.isEmpty = true := List.isEmpty_iff.mpr hnone
    simp only [fenceOp, hempty]
    rfl
  case fenceWaits =>
    intro hsome
    refine hissue rfl ?_
    have hempty : ({ k with mid := true } : Ctx).stores.isEmpty = false := by simpa using hsome
    simp only [fenceOp, hempty]
    rfl

/-! ### The data of a load comes back (R148, R149, R169, R194) -/

section Load
variable {t : BitVec 10} {c : BitVec 4} {s : State} {k : Ctx} {r : BitVec 6} {a : Access}

/-- Bytes of one line that nothing holds back are read where they lie. -/
theorem accRead_line {opa : Word} {lo n o : Nat} (hctx : findCtx s a.tile a.ctx = some k) (hdone : a.done = true) (hpos : 0 < n)
    (hline : lo % 64 + n ≤ 64) (hhits : Hits s (.tile a.tile) r (BitVec.ofNat 64 lo) false opa)
    (hfirst : storesBefore k opa n = false) (htarget : target s opa = .off o)
    (hreads : Reads s (rqTile a.tile a.ctx r a.va) o n) : accRead s a r lo n = (.data (held s o n), meterRd r n s) := by
  have hread := homeRead_of_reads hreads
  simp only [accRead, piecesOf_line hpos hline, List.foldl_cons, List.foldl_nil, accXlat_of_hits hhits hdone, hctx, Option.any_some,
    hfirst, htarget, hread, Bool.false_eq_true, if_false, List.nil_append]
  rfl

/-- The access of a blocked context, translated already, is performed at its home on this module. -/
theorem loadReturn_local {n : Nat} {sd : BitVec 5} {cached : Bool} (hctx : findCtx s t c = some k)
    (hrider : tileRider s t = some r) (hblock : k.block = .access a false) (hkind : a.kind = .load n sd cached)
    (hlate : a.late = false) (hdone : a.done = true) : loadReturn t c none s = localLoad a r n sd cached s := by
  have hissued : issueAcc t c s = s := by simp [issueAcc, hctx, hrider, hblock, hdone]
  simp [loadReturn, hctx, hrider, hblock, hlate, hissued, hdone, hkind]

theorem localLoad_uncached {n : Nat} {sd : BitVec 5} {opa : Word} {o : Nat} (hctx : findCtx s a.tile a.ctx = some k)
    (hdone : a.done = true) (hpos : 1 ≤ n) (hline : oneLine a.va n = true) (hfirst : storesBefore k opa n = false)
    (hhits : Hits s (.tile a.tile) r a.va false opa) (htarget : target s opa = .off o)
    (hreads : Reads s (rqTile a.tile a.ctx r a.va) o n) : localLoad a r n sd false s =
      makeReady a.tile a.ctx (putReg a.tile a.ctx sd (bytesWord (held s o n)) (meterRd r n s)) := by
  have hin : a.va.toNat % 64 + n ≤ 64 := of_decide_eq_true hline
  have hhits' : Hits s (.tile a.tile) r (BitVec.ofNat 64 a.va.toNat) false opa := by rwa [BitVec.ofNat_toNat, BitVec.setWidth_eq]
  simp only [localLoad, Bool.false_and, Bool.false_eq_true, if_false, accRead_line hctx hdone hpos hin hhits' hfirst htarget hreads]
  rfl

theorem sub_lineOf (n : Nat) : n - lineOf n = n % 64 := by
  unfold lineOf
  omega

theorem localLoad_cached {n : Nat} {sd : BitVec 5} {opa line : Word} {o : Nat} (hctx : findCtx s a.tile a.ctx = some k)
    (hdone : a.done = true) (hline : oneLine a.va n = true) (hhits : Hits s (.tile a.tile) r a.va false opa)
    (hspace : opaSpace opa = 0) (hhitsLine : Hits s (.tile a.tile) r (BitVec.ofNat 64 (lineOf a.va.toNat)) false line)
    (hfirst : storesBefore k line 64 = false) (htarget : target s line = .off o)
    (hreads : Reads s (rqTile a.tile a.ctx r a.va) o 64) : localLoad a r n sd true s =
      endLoad a sd (sliceB (held s o 64) (a.va.toNat % 64) n) (some (held s o 64)) (meterRd r 64 s) := by
  have hstart : lineOf a.va.toNat % 64 + 64 ≤ 64 := by unfold lineOf; omega
  simp [localLoad, accXlat_of_hits hhits hdone, hspace, hline, accRead_line hctx hdone (by decide) hstart hhitsLine hfirst htarget hreads,
    sub_lineOf]

/-- The bytes that another module answers are the load's value. -/
theorem remoteLoad_ok {n : Nat} {sd : BitVec 5} {ret : RemoteRet} (hok : ret.status = .ok) (hlen : ret.data.length = n)
    (hword : n ≤ 8) : remoteLoad a n sd false ret s =
      makeReady a.tile a.ctx (putReg a.tile a.ctx sd (bytesWord ret.data) s) := by
  have hshort : ret.data.length ≠ 64 := by omega
  have hslice : sliceB ret.data 0 n = ret.data := by simp [sliceB, ← hlen]
  simp [remoteLoad, hok, hshort, hslice, endLoad]

end Load

/-! ### A store of the queue lands (R148, R149, R151, R194) -/

section Landing
variable {t : BitVec 10} {c : BitVec 4} {s : State} {k : Ctx} {r : BitVec 6} {e : StoreEnt}
  (hctx : findCtx s t c = some k) (hrider : tileRider s t = some r) (hstores : k.stores = [e]) (hready : e.ready = true)
include hctx hrider hstores hready

/-- With every store translated none has to leave. -/
theorem pumpStores_of_ready (n : Nat) : pumpStores t c n s = s := by
  cases n with
  | zero => rfl
  | succ n => simp [pumpStores, hctx, hrider, hstores, hready]

variable (hremote : e.remote = false) (hlate : e.late = false) (hplain : e.flagged = false)
include hremote hlate hplain

/-- The one store of a context, to memory of this module, lands when its home takes it. -/
theorem landStore_memory {o : Nat} {u : State} (htarget : target s e.opa = .off o)
    (hwrite : homeWrite s (rqTile t c r e.va) o (allBytes e.data) false = (.done, u)) :
    landStore t c e.seq .ok s = dropStore t c e.seq u := by
  simp [landStore, pumpStores_of_ready hctx hrider hstores hready, hctx, hrider, hstores, hready, hremote, hlate, hplain, htarget,
    hwrite]

theorem landStore_sync {obj : Nat} (htarget : target s e.opa = .sync obj) (hlen : e.data.length = 8)
    (hright : syncRefusal s r obj = none) :
    landStore t c e.seq .ok s = dropStore t c e.seq (syncWrite obj (bytesWord e.data) s) := by
  simp [landStore, pumpStores_of_ready hctx hrider hstores hready, hctx, hrider, hstores, hready, hremote, hlate, hplain, htarget,
    hlen, hright]

end Landing

theorem tileReturnsComplete : TileReturnsComplete := by
  refine ⟨?uncached, ?cached, ?remote, ?memory, ?sync⟩
  case uncached =>
    rintro t c s k r a n sd opa o hup hctx hrider hblock rfl rfl hkind hlate hdone hpos hline hfirst hhits htarget hreads
    refine congrArg _ ((whenUp_of_running hup _).trans ?_)
    rw [loadReturn_local hctx hrider hblock hkind hlate hdone, localLoad_uncached hctx hdone hpos hline hfirst hhits htarget hreads]
  case cached =>
    rintro t c s k r a n sd opa line o hup hctx hrider hblock rfl rfl hkind hlate hdone hline hhits hspace hhitsLine hfirst
      htarget hreads
    refine congrArg _ ((whenUp_of_running hup _).trans ?_)
    rw [loadReturn_local hctx hrider hblock hkind hlate hdone,
      localLoad_cached hctx hdone hline hhits hspace hhitsLine hfirst htarget hreads]
  case remote =>
    rintro t c s k r a n sd ret hup hctx hrider hblock rfl rfl hkind hok hlen hword
    refine congrArg _ ((whenUp_of_running hup _).trans ?_)
    simp only [loadReturn, hctx, hrider, hblock, hkind, remoteLoad_ok hok hlen hword]
  case memory =>
    intro t c s k r e o f fr x hup hctx hrider hstores hready hremote hlate hplain htarget hwrites
    refine congrArg _ ((whenUp_of_running hup _).trans ?_)
    exact landStore_memory hctx hrider hstores hready hremote hlate hplain htarget (homeWrite_of_writes hwrites)
  case sync =>
    intro t c s k r e obj hup hctx hrider hstores hready hremote hlate hplain htarget hlen hright
    refine congrArg _ ((whenUp_of_running hup _).trans ?_)
    exact landStore_sync hctx hrider hstores hready hremote hlate hplain htarget hlen hright

/-- Settles O22: an operation that its bundle holds alone issues at once, and what it makes of the state is followed through its
translation; a return finds its access, or its store, as the context left it, and is served where its address lies. -/
theorem tileMemoryComplete : Obligations.TileMemoryComplete := ⟨tileAccessesComplete, tileReturnsComplete⟩

/-! ### Signals and waits (R156, R192, R193) -/

/-- The condition of a wait, as its comparison gives it. -/
theorem holds_iff (who : Waiter) (obj : BitVec 14) (cmp : BitVec 2) (value limit v : Word) :
    (Wait.mk who obj (decide (cmp = 1)) value limit).holds v = true ↔ if cmp = 1 then v = value else value.toNat ≤ v.toNat := by
  by_cases h : cmp = 1 <;> simp [Wait.holds, h]

section Slot
variable {a : At} {s : State} {x : Tile} {p : Prog} {k : Ctx}

/-- A signal that finds room among the context's entries waits there, and the turn ends. -/
theorem signalOp_of_room (hroom : k.queued + 1 < 16) (add : Bool) (obj : BitVec 14) (ss : BitVec 5) :
    signalOp a add obj ss x p { k with mid := true } (inSlot a s) = .done (endTurn a (updCtx a.tile a.ctx (fun j =>
      { j with sigs := j.sigs ++ [{ seq := k.nextSeq, obj := obj, add := add, value := k.getS ss, pc := k.pc }],
               nextSeq := j.nextSeq + 1 }) (inSlot a s))) := by
  have hnot : ¬ 16 ≤ ({ k with mid := true } : Ctx).queued + 1 := Nat.not_le.mpr hroom
  rw [signalOp, if_neg hnot]
  rfl

variable {obj : BitVec 14} {cmp : BitVec 2} {ss sa sb sl sd : BitVec 5} (hcmp : cmp.toNat < 2)
  (hright : syncRefusal s p.rider obj.toNat = none)
include hcmp hright

/-- `WAIT` on an object whose value meets its condition ends at once. -/
theorem waitOp_of_met
    (hmet : if cmp = 1 then syncVal s obj.toNat = k.getS ss else (k.getS ss).toNat ≤ (syncVal s obj.toNat).toNat) :
    waitOp a obj cmp ss sa sb sl sd x p { k with mid := true } (inSlot a s) = .done (endTurn a (putReg a.tile a.ctx sd 0
      (updTile a.tile (fun x => x.acquire (k.getS sa).toNat (k.getS sb).toNat) (inSlot a s)))) := by
  have hform : ¬ 2 ≤ cmp.toNat := Nat.not_le.mpr hcmp
  have hright' : syncRefusal (inSlot a s) p.rider obj.toNat = none := hright
  have hholds := (holds_iff (.ctx a.tile a.ctx) obj cmp (k.getS ss) (k.getS sl) (syncVal s obj.toNat)).mpr hmet
  simp only [waitOp, if_neg hform, hright']
  exact if_pos hholds

/-- On another it blocks its context, and the bank keeps the wait. -/
theorem waitOp_of_unmet
    (hunmet : ¬ if cmp = 1 then syncVal s obj.toNat = k.getS ss else (k.getS ss).toNat ≤ (syncVal s obj.toNat).toNat) :
    waitOp a obj cmp ss sa sb sl sd x p { k with mid := true } (inSlot a s) = .done (block a
      (.sync obj (k.getS sa).toNat (k.getS sb).toNat (k.getS sl).toNat sd) { inSlot a s with sync.waits := s.sync.waits ++
        [Wait.mk (.ctx a.tile a.ctx) obj (decide (cmp = 1)) (k.getS ss) (k.getS sl)] }) := by
  have hform : ¬ 2 ≤ cmp.toNat := Nat.not_le.mpr hcmp
  have hright' : syncRefusal (inSlot a s) p.rider obj.toNat = none := hright
  have hholds := mt (holds_iff (.ctx a.tile a.ctx) obj cmp (k.getS ss) (k.getS sl) (syncVal s obj.toNat)).mp hunmet
  simp only [waitOp, if_neg hform, hright']
  exact if_neg hholds

end Slot

theorem syncUse_of_clean {obj : Nat} {s : State} (h : injMode s 0x04 (unitChainring (obj / 1024 % 16)) = none) :
    syncUse obj s = s := by
  simp only [syncUse, h]

/-- The oldest signal of a context whose earlier stores have landed changes its object (R156). -/
theorem applySignal_of_landed {t : BitVec 10} {c : BitVec 4} {s : State} {k : Ctx} {r : BitVec 6} {g : Signal} {rest : List Signal}
    (hctx : findCtx s t c = some k) (hrider : tileRider s t = some r) (hsigs : k.sigs = g :: rest)
    (hstores : ∀ e ∈ k.stores, g.seq ≤ e.seq) (hrefused : ∀ e ∈ k.refused, g.seq ≤ e.seq)
    (hright : syncRefusal s r g.obj.toNat = none) (hclean : injMode s 0x04 (unitChainring (g.obj.toNat / 1024 % 16)) = none) :
    applySignal t c s = afterStores t c (syncWrite g.obj.toNat
      (if g.add then syncVal s g.obj.toNat + g.value else g.value) (updCtx t c (fun k => { k with sigs := rest }) s)) := by
  have hearlier : (k.stores.any fun e => decide (e.seq < g.seq)) = false := by
    simpa using hstores
  have hlost : (k.refused.any fun e => decide (e.seq < g.seq)) = false := by
    simpa using hrefused
  have hright' : syncRefusal (updCtx t c (fun k => { k with sigs := rest }) s) r g.obj.toNat = none := hright
  have huse : syncUse g.obj.toNat (updCtx t c (fun k => { k with sigs := rest }) s) =
      updCtx t c (fun k => { k with sigs := rest }) s := syncUse_of_clean hclean
  have hval : syncVal (updCtx t c (fun k => { k with sigs := rest }) s) g.obj.toNat = syncVal s g.obj.toNat := rfl
  simp only [applySignal, hctx, hrider, hsigs, hearlier, hlost, hright', syncAdd, syncWrite, huse, hval, Bool.false_eq_true, if_false]
  cases g.add <;> rfl

/-- The limit of a wait ends it with 1 in its register, and the bank forgets it (R193). -/
theorem waitExpires_of_wait {t : BitVec 10} {c : BitVec 4} {s : State} {k : Ctx} {obj : BitVec 14} {base len limit : Nat}
    {sd : BitVec 5} (hctx : findCtx s t c = some k) (hblock : k.block = .sync obj base len limit sd) (hlimit : limit ≠ 0) :
    waitExpires t c s = makeReady t c (updCtx t c (fun k => k.putS sd 1)
      { s with sync.waits := dropIf s.sync.waits (·.who == .ctx t c) }) := by
  have hctx' (ws : List Wait) : findCtx { s with sync.waits := ws } t c = some k := hctx
  simp [waitExpires, hctx, hblock, hlimit, endCtxWait, hctx']

theorem signalsAndWaitsComplete : SignalsAndWaitsComplete := by
  refine ⟨?slot, ?apply, ?expiry⟩
  case slot =>
    intro a s x p k obj h
    have hissue {i : Instr} {f : SlotFn} {t : State} (hslot : slotFn i = some (.memory, a, f))
        (hdone : f (tileInSlot a x) p { k with mid := true } (inSlot a s) = .done t) :
        (.next (issue i s) : Out State) = .next (endIssue a t) := congrArg _ (issue_of_lone h hslot hdone)
    exact ⟨fun ss hroom => ⟨hissue rfl (signalOp_of_room hroom true obj ss), hissue rfl (signalOp_of_room hroom false obj ss)⟩,
      fun cmp ss sa sb sl sd hcmp hright => ⟨fun hmet => hissue rfl (waitOp_of_met hcmp hright hmet),
        fun hunmet => hissue rfl (waitOp_of_unmet hcmp hright hunmet)⟩⟩
  case apply =>
    intro t c s k r g rest hup hctx hrider hsigs hstores hrefused hright hclean
    exact congrArg _ ((whenUp_of_running hup _).trans
      (applySignal_of_landed hctx hrider hsigs hstores hrefused hright hclean))
  case expiry =>
    intro t c s k obj base len limit sd hup hctx hblock hlimit
    exact congrArg _ ((whenUp_of_running hup _).trans (waitExpires_of_wait hctx hblock hlimit))

/-! ### A change of a sync object (R192, R193) -/

theorem lookupK_dropIf_ne {α β : Type} [DecidableEq α] (l : List (α × β)) {k m : α} (h : m ≠ k) :
    lookupK (dropIf l (·.1 = k)) m = lookupK l m := by
  have hfind : (dropIf l (·.1 = k)).find? (·.1 = m) = l.find? (·.1 = m) := by
    rw [dropIf, List.find?_filter]
    refine congrArg (l.find? ·) (funext fun x => ?_)
    by_cases hx : x.1 = m <;> simp [hx, h]
  rw [lookupK, hfind, lookupK]

theorem lookupK_setK_ne {α β : Type} [DecidableEq α] (l : List (α × β)) {k m : α} (h : m ≠ k) (v : β) :
    lookupK (setK l k v) m = lookupK l m := by
  have hkey : ¬ k = m := fun hk => h hk.symm
  unfold setK
  split
  next =>
    have htest : (fun x : α × β => decide ((if x.1 = k then (k, v) else x).1 = m)) = fun x => decide (x.1 = m) := by
      funext x
      by_cases hx : x.1 = k <;> simp [hx, hkey]
    simp only [lookupK, List.find?_map, Function.comp_def, htest, Option.map_map]
    cases hfind : l.find? (·.1 = m) with
    | none => rfl
    | some x =>
      have hx : x.1 = m := by simpa using List.find?_some hfind
      simp [hx, h]
  next => simp [lookupK, List.find?_append, hkey]

theorem syncVal_setSyncVal_ne {obj o : Nat} (h : o ≠ obj) (v : Word) (s : State) :
    syncVal (setSyncVal obj v s) o = syncVal s o := by
  by_cases hv : v = 0
  · have hvals : (setSyncVal obj v s).sync.vals = dropIf s.sync.vals (·.1 = obj) := if_pos hv
    rw [syncVal, hvals, lookupK_dropIf_ne _ h, syncVal]
  · have hvals : (setSyncVal obj v s).sync.vals = setK s.sync.vals obj v := if_neg hv
    rw [syncVal, hvals, lookupK_setK_ne _ h, syncVal]

/-- Waking its waiters, a change of an object leaves the bank as the change made it, without the waits that it met. -/
theorem syncPut_sync (obj : Nat) (v : Word) (s : State) : (syncPut obj v s).sync = { (setSyncVal obj v s).sync with
    waits := dropIf s.sync.waits fun w => w.obj.toNat == obj && w.holds v } := by
  simp only [syncPut, testWaits, syncVal_setSyncVal]
  exact List.foldlRecOn (motive := fun (t : State) => t.sync = _) _ _ rfl
    fun t ht w _ => (endWait_keeps true w t).2.trans ht

theorem syncWriteEndsWaits : SyncWriteEndsWaits := by
  intro obj v s hclean
  have hput : syncWrite obj v s = syncPut obj v s := by rw [syncWrite, syncUse_of_clean hclean]
  obtain ⟨hstore, hval⟩ := syncPut_keeps obj v s
  rw [hput]
  refine ⟨hval, fun o ho => ?_, fun w => ?_, hstore⟩
  · rw [syncVal, syncPut_sync]
    exact syncVal_setSyncVal_ne ho v s
  · rw [syncPut_sync, mem_dropIf]
    simp

/-- Settles O25: an operation of the memory slot, or an event of a blocked context, by what its own function does; and a change of
an object leaves the bank with the new value, less the waits that the value meets, whatever the end of those does to tiles and
commands. -/
theorem signalsComplete : Obligations.SignalsComplete := ⟨signalsAndWaitsComplete, syncWriteEndsWaits⟩

/-! ### A store in a program's last bundle (R149, R171, R196, R318) -/

/-- Context 0 of tile 0. -/
def lastAt : At := { tile := 0, ctx := 0 }

/-- A program of one bundle, which holds an operation of the memory slot. -/
def lastProg : Prog :=
  { rider := 1, bundles := 1, code := [0, 2 ^ 8], configs := [], streams := 0, entry := List.replicate 16 0
    accOwner := List.replicate 32 0, xaOwner := List.replicate 8 0, faultSync := 0 }

def lastCtx : Ctx := { Ctx.blank with st := .running }

def lastTile : Tile := { Tile.blank 0 with prog := some lastProg, ctxs := lastCtx :: List.replicate 15 Ctx.blank }

/-- VA 0 to 0xFFFF of rider 1 is the first page of the store. -/
def firstPage : TlbEnt := { wheel := 0, rider := 1, va := 0, size := 65536, opa := 0, r := true, w := true }

/-- Context 0 stands at the last bundle of its program, and its rider has an event ring, at VA 0x2000. -/
def lastBundle : State :=
  { State.reset with
    phase := .running
    comp := some
      { epoch := 1, issued := 0, peloton := 0, me := 0, modules := []
        riders := [{ rider := 1, weight := 1, maxQueues := 0, maxStreams := 0, syncBase := 0, syncCount := 0 }]
        runs := [{ readers := 2, writers := 2, first := 0, count := 1, mirrorFirst := 0, module := 0, flags := 0 }]
        routes := [] }
    store := { State.reset.store with
      extents := [{ idx := 0, mirrorOf := none, live := true, fenced := false, unlisted := 0, latest := 0, wlap := none
                    reads := [], holds := [], old := [] }]
      frames := [{ id := 0, tier := .hbm, ch := false }]
      pages := [{ n := 0, home := some 0, copy := none }] }
    xlat := { State.reset.xlat with
      roots := [(1, 0)], micro := [(.tile 0, firstPage), (.ring 1, firstPage)] }
    rings := [{ rider := 1, dbVa := 0x1000, cqVa := 0x2000, cqLog2 := 6, cqHead := 0, cqTail := 0, dropped := 0, todo := [] }]
    tiles := [lastTile] }

theorem lone_lastBundle : Lone .memory lastAt lastBundle lastTile lastProg lastCtx :=
  ⟨⟨rfl, rfl, rfl, rfl, rfl, rfl, by decide, rfl⟩, by decide +kernel, rfl⟩

theorem hits_lastBundle : Hits lastBundle (.tile 0) 1 0 true 0 := ⟨by decide, by decide, by decide, by decide, by decide, by decide⟩

/-- The bundle behind the store does not exist: its context faults, and the ring takes the record of that, of type 2. -/
theorem faultEvent_written : ∃ t, exec (.st lastAt 0 0 { base := 0, imm := 0 }) lastBundle = .next t ∧
    memGet t.store.mem 0x2000 = 2 := ⟨_, rfl, by decide +kernel⟩

/-- Refutes O21: its stores end their bundle in the same step, and when no bundle follows the context faults at the program's end
(R171). The fault posts an event record (R196, R318), whose bytes are in the store at once. -/
theorem not_tileStoresQueue : ¬ Obligations.TileStoresQueue := by
  intro h
  obtain ⟨hplain, -⟩ := h lastAt lastBundle lastTile lastProg lastCtx { base := 0, imm := 0 } 0 0 0 0 lone_lastBundle rfl rfl rfl
    hits_lastBundle (by decide)
  obtain ⟨t, hexec, hstore, -⟩ := hplain (by decide)
  obtain ⟨u, hexec', hbyte⟩ := faultEvent_written
  obtain rfl : t = u := Host.Outcome.next.inj (hexec.symm.trans hexec')
  rw [hstore] at hbyte
  exact absurd hbyte (by decide)

end Sys2Proof.Proofs

/-! The command queues: doorbells and posted replies, the bytes of a reply, and the creation and destruction of a queue. -/

namespace Sys2Proof.Proofs

open Sys2Proof.Machine Sys2Proof.Claims Sys2Proof.Laws

/-! ### A write of one line through a tree (R45, R148) -/

theorem virtWrite_of_lands {s : State} {cl : XClient} {q : Rq} {va : Word} {bs : List Byte} {o f : Nat}
    (h : Lands s cl q va bs o f) : virtWrite s cl q va bs = (.done, written q o f bs s) := by
  obtain ⟨hsome, hline, opa, fr, x, hhits, htarget, hwrites⟩ := h
  have hpieces := piecesOf_line (List.length_pos_iff.mpr hsome) hline
  simp [virtWrite, hpieces, translate_of_hits hhits, htarget, homeWrite_of_writes hwrites]

theorem writeCounter_of_lands {s : State} {cl : XClient} {q : Rq} {va v : Word} {o f : Nat}
    (h : Lands s cl q va (wordBytes v) o f) : writeCounter cl q va v s = written q o f (wordBytes v) s := by
  simp only [writeCounter, virtWrite_of_lands h]

/-- A write that can land still can after another has landed, whatever that did to a queue. -/
theorem writes_after_written {s : State} {q : Rq} {off f : Nat} {fr : Frame} {bs : List Byte} {x : Extent}
    (h : Writes s q off f fr bs x) (q' : Rq) (off' f' : Nat) (bs' : List Byte) (qs : List Queue) :
    Writes { written q' off' f' bs' s with queues := qs } q off f fr bs x := by
  obtain ⟨hquiet, hframe, halone, hidle, hwhole, hown, hsent⟩ := h
  have hsoft : (written q' off' f' bs' s).store.soft = [] := by simp [written, meterWr, addMeter, putBytes, hquiet.clean.2, dropIf]
  have hkept := storeKept_putBytes (frameTier s.store f') (f' * 65536 + off' % 65536) (allBytes bs') s.store
  exact ⟨⟨hquiet.rights, hquiet.unfenced, hquiet.plain, hquiet.single, hquiet.first, hquiet.free, hquiet.scanned, hquiet.uncached,
    hquiet.clean.1, hsoft⟩, ⟨hframe.frame, hframe.found, hframe.up⟩, halone, hidle, partialBad_of_bad_subset hkept.bad hwhole,
    hown, hsent⟩

theorem lands_after_written {s : State} {cl : XClient} {q : Rq} {va : Word} {bs : List Byte} {o f : Nat} (h : Lands s cl q va bs o f)
    (q' : Rq) (off' f' : Nat) (bs' : List Byte) (qs : List Queue) :
    Lands { written q' off' f' bs' s with queues := qs } cl q va bs o f := by
  obtain ⟨hsome, hline, opa, fr, x, hhits, htarget, hwrites⟩ := h
  exact ⟨hsome, hline, opa, fr, x, ⟨hhits.inService, hhits.inSpace, hhits.rooted, hhits.mapped, hhits.quiet, hhits.hit⟩, htarget,
    writes_after_written hwrites q' off' f' bs' qs⟩

/-! ### Queues and rings found again after an update (R309, R318) -/

theorem findQueue_updQueue {q : BitVec 13} {s : State} {x : Queue} {f : Queue → Queue} (hf : ∀ y, (f y).q = y.q)
    (h : findQueue s q = some x) : findQueue (updQueue q f s) q = some (f x) := by
  have hfind : findQueue (updQueue q f s) q = (findQueue s q).map f := find?_updIf_self (fun y => by rw [hf]) s.queues
  rw [hfind, h]
  rfl

theorem findQueue_congr {s t : State} (h : t.queues = s.queues) (q : BitVec 13) : findQueue t q = findQueue s q := by
  simp only [findQueue, h]

theorem findRing_updRing {r : BitVec 6} {s : State} {x : Machine.Ring} {f : Machine.Ring → Machine.Ring}
    (hf : ∀ y, (f y).rider = y.rider) (h : s.rings.find? (·.rider = r) = some x) : (updRing r f s).rings.find? (·.rider = r) = some (f x) := by
  have hfind : (updRing r f s).rings.find? (·.rider = r) = (s.rings.find? (·.rider = r)).map f :=
    find?_updIf_self (fun y => by rw [hf]) s.rings
  rw [hfind, h]
  rfl

/-! ### Doorbells (R57, R311, R314, R315) -/

theorem pumpPre_of_plain {s : State} {q : BitVec 13} {x : Queue} (hqueue : findQueue s q = some x) (hplain : x.pretrans = false) :
    pumpPre q s = s := by
  simp only [pumpPre, hqueue]
  cases x.sqTail.toNat - x.preDone.toNat with
  | zero => rfl
  | succ n => simp [preTranslate, hqueue, hplain]

/-- A module in Coast wakes for a doorbell (R311). -/
def woken (s : State) : State := if s.power.st = .coast then wakeUp s else s

theorem queues_woken (s : State) : (woken s).queues = s.queues := by
  unfold woken
  split
  · obtain ⟨st, ms, ps, h⟩ := wakeUp_only s
    rw [h]
  · rfl

section Tail
variable {s : State} {q : BitVec 13} {x : Queue} {v : Word}

theorem tailStored_of_error (herror : x.error = true) : tailStored q x v s = woken s := if_pos herror

theorem tailStored_of_bad (hfree : x.error = false)
    (hbad : v.toNat < x.sqTail.toNat ∨ x.sqHead.toNat + 2 ^ x.ringLog2 / 64 < v.toNat) :
    tailStored q x v s = queueError q 1 .badParam (woken s) := by
  simp only [tailStored, hfree, Bool.false_eq_true, if_false]
  exact if_pos (by simpa using hbad)

theorem tailStored_of_good (hfree : x.error = false) (hlow : x.sqTail.toNat ≤ v.toNat)
    (hhigh : v.toNat ≤ x.sqHead.toNat + 2 ^ x.ringLog2 / 64) :
    tailStored q x v s = pumpPre q (updQueue q (fun y => { y with sqTail := v }) (woken s)) := by
  simp only [tailStored, hfree, Bool.false_eq_true, if_false]
  exact if_neg (by simpa using ⟨hlow, hhigh⟩)

theorem tailStored_of_plain (hqueue : findQueue s q = some x) (hplain : x.pretrans = false) (hfree : x.error = false)
    (hlow : x.sqTail.toNat ≤ v.toNat) (hhigh : v.toNat ≤ x.sqHead.toNat + 2 ^ x.ringLog2 / 64) :
    tailStored q x v s = updQueue q (fun y => { y with sqTail := v }) (woken s) := by
  have hfound : findQueue (woken s) q = some x := (findQueue_congr (queues_woken s) q).trans hqueue
  exact (tailStored_of_good hfree hlow hhigh).trans (pumpPre_of_plain (findQueue_updQueue (fun _ => rfl) hfound) hplain)

end Tail

theorem updQueue_updQueue (q : BitVec 13) {f : Queue → Queue} (hf : ∀ y, (f y).q = y.q) (g : Queue → Queue) (s : State) :
    updQueue q g (updQueue q f s) = updQueue q (g ∘ f) s := by
  simp only [updQueue, updIf_updIf (p := fun y : Queue => decide (y.q = q)) fun y => by rw [hf]]

theorem updRing_updRing (r : BitVec 6) {f : Machine.Ring → Machine.Ring} (hf : ∀ y, (f y).rider = y.rider)
    (g : Machine.Ring → Machine.Ring) (s : State) : updRing r g (updRing r f s) = updRing r (g ∘ f) s := by
  simp only [updRing, updIf_updIf (p := fun y : Machine.Ring => decide (y.rider = r)) fun y => by rw [hf]]

/-- A ring that owes no record writes none. -/
theorem serveRing_of_idle {s : State} {r : BitVec 6} {x : Machine.Ring} (hring : s.rings.find? (·.rider = r) = some x)
    (htodo : x.todo = []) (hdropped : x.dropped = 0) : serveRing r s = updRing r (fun y => { y with todo := [] }) s := by
  simp [serveRing, hring, htodo, hdropped, flushRing]

theorem doorbellsComplete : DoorbellsComplete := by
  refine ⟨?tail, ?head, ?ring⟩
  case tail =>
    intro s w q value x o f hup hqueue hxq hlands hw
    have hwoken : w = woken (written (rqQueue x) o f (wordBytes value) s) := hw
    have hstored : exec (.doorbell q value) s = .next (tailStored q x value (written (rqQueue x) o f (wordBytes value) s)) := by
      refine congrArg _ ((whenUp_of_running hup _).trans ?_)
      rw [ringDoorbell, hqueue]
      simp only [writeCounter_of_lands hlands]
    have hfound : findQueue (written (rqQueue x) o f (wordBytes value) s) q = some x := hqueue
    rw [hstored, hwoken]
    refine ⟨fun herror => congrArg _ (tailStored_of_error herror), fun hfree hbad => congrArg _ (tailStored_of_bad hfree hbad),
      fun hfree hlow hhigh => ⟨fun hplain => congrArg _ (tailStored_of_plain hfound hplain hfree hlow hhigh),
        fun _ => congrArg _ (tailStored_of_good hfree hlow hhigh)⟩⟩
  case head =>
    intro s q value x o f hup hqueue hxq hlands
    refine congrArg _ ((whenUp_of_running hup _).trans ?_)
    simp only [cqHeadStore, hqueue, writeCounter_of_lands hlands, Bool.false_eq_true, if_false]
  case ring =>
    intro s r value x o f hup hring hlands
    have hserved : exec (.cqHeadUpdate true (r.setWidth 13) value) s = .next (serveRing r
        (updRing r (fun y => { y with cqHead := value }) (written (rqOf r 0) o f (wordBytes value) s))) := by
      have hr : (r.setWidth 13).setWidth 6 = r := by ext i; simp
      refine congrArg _ ((whenUp_of_running hup _).trans ?_)
      simp only [cqHeadStore, if_true, hr, hring, writeCounter_of_lands hlands]
    refine ⟨fun htodo hdropped => ?_, hserved⟩
    have hfound : (written (rqOf r 0) o f (wordBytes value) s).rings.find? (·.rider = r) = some x := hring
    refine hserved.trans (congrArg _ ?_)
    exact Eq.trans (serveRing_of_idle (findRing_updRing (fun _ => rfl) hfound) htodo hdropped)
      (updRing_updRing r (by exact fun _ => rfl) _ _)

/-! ### Stores that land on a doorbell line (R148, R311) -/

theorem hangBell_of_hits {s : State} {cl : XClient} {r : BitVec 6} {va opa : Word} {o : Nat} (hhits : Hits s cl r va true opa)
    (htarget : target s opa = .off o) : hangBell cl r va s = { s with
      bells := dropIf s.bells (·.client = cl) ++ [{ client := cl, off := o, tail := false, head := false }] } := by
  simp only [hangBell, translate_of_hits hhits, htarget]

/-- Bytes touch a word when one of them is one of its own. -/
theorem touches_allBytes_iff (off w : Nat) (bs : List Byte) :
    touches off (allBytes bs) w = true ↔ ∃ a, w ≤ a ∧ a < w + 8 ∧ off ≤ a ∧ a < off + bs.length := by
  have hgiven (i : Nat) : (((allBytes bs)[i]?).bind id).isSome = true ↔ i < bs.length := by
    simp [allBytes, Option.bind_map]
  simp only [touches, List.any_eq_true, List.mem_range, Bool.and_eq_true, decide_eq_true_eq, hgiven]
  constructor
  · rintro ⟨i, hi, hlow, hhigh⟩
    exact ⟨w + i, by omega, by omega, hlow, by omega⟩
  · rintro ⟨a, hw, hw', hlow, hhigh⟩
    exact ⟨a - w, by omega, by omega, by omega⟩

/-- The state with a bell's marks taken off. -/
def unmarked (b : Bell) (s : State) : State :=
  { s with bells := updIf s.bells (·.client = b.client) fun b => { b with tail := false, head := false } }

section Pump
variable {s : State} {b : Bell} {q : BitVec 13} {x : Queue} {v : Word} (hclient : b.client = .queue q)
  (hlate : ∀ l ∈ s.late, l.client ≠ b.client)
include hclient hlate

theorem pumpBell_of_tail (htail : b.tail = true) (hhead : b.head = false) (hword : bellWord s b.off = some v)
    (hqueue : findQueue s q = some x) : pumpBell b s = tailStored q x v (unmarked b s) := by
  have hnone : (s.late.any fun w => decide (w.client = b.client)) = false := by simpa using hlate
  have hword' : bellWord (unmarked b s) b.off = some v := hword
  have hqueue' : findQueue (unmarked b s) q = some x := hqueue
  obtain ⟨client, off, tail, head⟩ := b
  obtain rfl : client = .queue q := hclient
  obtain rfl : tail = true := htail
  obtain rfl : head = false := hhead
  simp only [unmarked] at hword' hqueue' ⊢
  simp only [pumpBell, hnone, hword', hqueue', Bool.false_eq_true, if_false, if_true]

theorem pumpBell_of_head (htail : b.tail = false) (hhead : b.head = true) (hword : bellWord s (b.off + 16) = some v) :
    pumpBell b s = updQueue q (fun y => { y with cqHead := v }) (unmarked b s) := by
  have hnone : (s.late.any fun w => decide (w.client = b.client)) = false := by simpa using hlate
  have hword' : bellWord (unmarked b s) (b.off + 16) = some v := hword
  obtain ⟨client, off, tail, head⟩ := b
  obtain rfl : client = .queue q := hclient
  obtain rfl : tail = false := htail
  obtain rfl : head = true := hhead
  simp only [unmarked] at hword' ⊢
  simp only [pumpBell, hnone, hword', Bool.false_eq_true, if_false, if_true]

end Pump

theorem landedStoresRing : LandedStoresRing := by
  refine ⟨?hang, ?strike, ?pump⟩
  case hang =>
    intro s cl r va opa o hhits htarget
    rw [hangBell_of_hits hhits htarget]
  case strike =>
    intro bells b off bs hb
    refine ⟨_, List.mem_map.mpr ⟨b, hb, rfl⟩, rfl, rfl, ?_, ?_⟩
    · rw [Bool.or_eq_true, touches_allBytes_iff]
    · rw [Bool.or_eq_true, touches_allBytes_iff]
  case pump =>
    intro s w b q x v hclient hqueue hxq hlate hawake hfree hw
    have hunmarked : w = unmarked b s := hw
    have hawake' : woken (unmarked b s) = unmarked b s := if_neg hawake
    have hfound : findQueue (unmarked b s) q = some x := hqueue
    rw [hunmarked]
    refine ⟨fun htail hhead hword => ⟨fun hbad => ?bad, fun hplain hlow hhigh => ?good⟩, pumpBell_of_head hclient hlate⟩
    case bad => rw [pumpBell_of_tail hclient hlate htail hhead hword hqueue, tailStored_of_bad hfree hbad, hawake']
    case good =>
      rw [pumpBell_of_tail hclient hlate htail hhead hword hqueue, tailStored_of_plain hfound hplain hfree hlow hhigh, hawake']

/-! ### Posting a reply (R298, R314, R318) -/

theorem postPayload_of_none {x : Queue} {r : Reply} (h : r.h.replyVa = 0 ∨ r.payload = [] ∨ r.payloadLost = true)
    (s : State) : postPayload x r s = (some r, s) := by
  have hnone : (r.h.replyVa = 0 || r.payload.isEmpty || r.payloadLost) = true := by
    rcases h with h | h | h <;> simp [h]
  exact if_pos hnone

theorem postEntry_of_lands {s v w : State} {x : Queue} {r : Reply} {o1 f1 o2 f2 : Nat}
    (hentry : Lands s (.queue x.q) (rqQueue x) (x.cqVa + BitVec.ofNat 64 (x.cqTail.toNat % 2 ^ x.cqLog2 * 32))
      (replyBytes r (phaseOf x.cqTail x.cqLog2)) o1 f1)
    (hcount : Lands s (.queue x.q) (rqQueue x) (x.dbVa + 0x18) (wordBytes (x.cqTail + 1)) o2 f2)
    (hv : v = updQueue x.q (fun y => { y with done := y.done.drop 1, cqTail := y.cqTail + 1 })
      (written (rqQueue x) o1 f1 (replyBytes r (phaseOf x.cqTail x.cqLog2)) s))
    (hw : w = written (rqQueue x) o2 f2 (wordBytes (x.cqTail + 1)) v) :
    postEntry x r s = if r.h.notify then postEvent x.rider
      { type := 1, status := r.status.code, queue := x.q.setWidth 16, arg0 := r.h.tag.setWidth 64, arg1 := r.op.setWidth 64 } w
      else w := by
  have hpop (u : State) : updQueue x.q (fun y => { y with done := y.done.drop 1 })
      (updQueue x.q (fun y => { y with cqTail := y.cqTail + 1 }) u) =
      updQueue x.q (fun y => { y with done := y.done.drop 1, cqTail := y.cqTail + 1 }) u :=
    updQueue_updQueue _ (by exact fun _ => rfl) _ _
  have hcount' : Lands v (.queue x.q) (rqQueue x) (x.dbVa + 0x18) (wordBytes (x.cqTail + 1)) o2 f2 := by
    rw [hv]
    exact lands_after_written hcount _ _ _ _ _
  simp only [postEntry, virtWrite_of_lands hentry, hpop]
  rw [← hv, writeCounter_of_lands hcount', ← hw]

theorem replyPostCompletes : ReplyPostCompletes := by
  intro s q x r rest hup hqueue hxq hdone
  subst hxq
  have hexec : exec (.replyPost x.q) s = .next (postReply x.q s) := congrArg _ (whenUp_of_running hup _)
  refine ⟨fun hfull => ?full, fun hroom => ⟨?posts, ?lands⟩⟩
  case full => simp [hexec, postReply, hqueue, hdone, hfull]
  case posts =>
    simp only [hexec, postReply, hqueue, hdone, hroom, Bool.false_eq_true, if_false] <;> rfl
  case lands =>
    intro o1 f1 o2 f2 v w hnone hentry hcount hv hw
    simp only [hexec, postReply, hqueue, hdone, hroom, Bool.false_eq_true, if_false, postPayload_of_none hnone,
      postEntry_of_lands hentry hcount hv hw]

/-! ### The bytes of a reply (R298, R314) -/

theorem leNat_leBytes (n v : Nat) : leNat (leBytes n v) = v % 256 ^ n := by
  induction n generalizing v with
  | zero => simp [leBytes, leNat, Nat.mod_one]
  | succ n ih =>
    have hbyte : (BitVec.ofNat 8 v).toNat = v % 256 := BitVec.toNat_ofNat v 8
    rw [leBytes, leNat, ih, hbyte, pow_succ', Nat.mod_mul]

theorem fieldB_append_of_le {as : List Byte} {off : Nat} (h : as.length ≤ off) (bs : List Byte) (n : Nat) :
    fieldB (as ++ bs) off n = fieldB bs (off - as.length) n := by
  rw [fieldB, List.drop_append, List.drop_eq_nil_of_le h, List.nil_append, fieldB]

/-- A number at the front of bytes is the field there. -/
theorem fieldB_leBytes_append (n v : Nat) (bs : List Byte) : fieldB (leBytes n v ++ bs) 0 n = v % 256 ^ n := by
  rw [fieldB, List.drop_zero, List.take_left' (length_leBytes n v), leNat_leBytes]

/-- The bits of a reply's flags (R298). -/
theorem testBit_replyFlags (lost phase surr more : Bool) :
    let flags := (lost.toNat * 8 + phase.toNat * 4 + surr.toNat * 2 + more.toNat) % 256 ^ 2
    flags.testBit 2 = phase ∧ flags.testBit 0 = more ∧ flags.testBit 3 = lost := by
  revert lost phase surr more
  decide

theorem replyLayout : ReplyLayout := by
  intro r phase
  have hop : r.h.version.toNat * 4096 + r.op.toNat < 256 ^ 2 := by
    have := r.h.version.isLt
    have := r.op.isLt
    omega
  obtain ⟨hphase, hmore, hlost⟩ := testBit_replyFlags r.payloadLost phase r.h.surrogate r.more
  have hpair (b c : Byte) : ([b, c] : List Byte).length = 2 := rfl
  have hlast : wordBytes r.result = leBytes 8 r.result.toNat ++ [] := (List.append_nil _).symm
  have hflags : fieldB (replyBytes r phase) 12 2 =
      (r.payloadLost.toNat * 8 + phase.toNat * 4 + r.h.surrogate.toNat * 2 + r.more.toNat) % 256 ^ 2 := by
    simp (disch := simp [length_leBytes]) only [replyBytes, List.append_assoc, fieldB_append_of_le, length_leBytes, hpair,
      Nat.reduceSub, fieldB_leBytes_append]
  rw [hflags]
  refine ⟨?length, ?op, ?status, ?tag, hphase, hmore, hlost, ?epoch, ?result⟩
  case length => simp [replyBytes, length_leBytes, zeros, wordBytes]
  case op =>
    simp only [replyBytes, List.append_assoc, fieldB_leBytes_append]
    exact Nat.mod_eq_of_lt hop
  all_goals
    simp (disch := simp [length_leBytes, zeros]) only [replyBytes, hlast, List.append_assoc, fieldB_append_of_le,
      length_leBytes, hpair, zeros, List.length_replicate, Nat.reduceSub, fieldB_leBytes_append]
    exact Nat.mod_eq_of_lt (BitVec.isLt _)

/-! ### `QUEUE_CREATE` (R309, R310) -/

/-- The regions that a descriptor of a command queue names. -/
def queueRegions (c : Cmd) : List (Nat × Nat) :=
  [((c.p 0).toNat, 2 ^ bits (c.p 3) 0 8), ((c.p 1).toNat, 64), ((c.p 2).toNat, 32 * 2 ^ bits (c.p 3) 8 8)]

/-- The queue that a descriptor describes, with its counters zero. -/
def createdQueue (c : Cmd) (q : BitVec 13) : Queue :=
  { q := q, rider := c.h.r, ringVa := c.p 0, dbVa := c.p 1, cqVa := c.p 2, ringLog2 := bits (c.p 3) 0 8
    cqLog2 := bits (c.p 3) 8 8, pretrans := bit (c.p 3) 24, version := BitVec.ofNat 4 (bits (c.p 3) 32 8)
    inflight := bits (c.p 3) 40 8, sqTail := 0, sqHead := 0, cqHead := 0, cqTail := 0, started := [], waiting := []
    done := [], runs := [], preDone := 0, preBad := [], error := false, closing := false }

/-- The client that checks the regions: the queue that the command would create, or the rider's ring where it has no number. -/
def createClient (c : Cmd) (u : State) : Status ⊕ Nat → XClient
  | .inr i => .queue (BitVec.ofNat 13 (queueBase u c.h.r + i))
  | .inl _ => .ring c.h.r

/-- What a descriptor in form comes to with the check of its regions. -/
def afterRegions (c : Cmd) (u : State) (index : Status ⊕ Nat) : RegionRes × State → Eff
  | (.bad st, v) => Eff.stat st v
  | (.wait, v) => waitFor 0x020 c v
  | (.ok, v) => match index with
    | .inl st => Eff.stat st v
    | .inr i => Eff.res .ok (BitVec.ofNat 64 (BitVec.ofNat 13 (queueBase v c.h.r + i)).toNat)
      (hangBell (createClient c u index) c.h.r (c.p 1)
        { v with queues := v.queues ++ [createdQueue c (BitVec.ofNat 13 (queueBase v c.h.r + i))] })

theorem bodyQueueCreate_of_form {c : Cmd} {u : State} {index : Status ⊕ Nat} (h : QueueForm c u)
    (hindex : pickIndex u c.h.r (bits (c.p 3) 48 16) = index) : bodyQueueCreate c u =
      afterRegions c u index (checkRegions (createClient c u index) c.h.r (queueRegions c) u) := by
  obtain ⟨hrider, ⟨hqueue, hzero, hspare⟩, hproto, ⟨hone, hmost⟩, ⟨hsmall, hlarge, haligned⟩, hline,
    ⟨hfew, hmany, hwhole⟩, hdb, hcq, hlines⟩ := h
  have hproto' : (bits (c.p 3) 32 8 == 1 || bits (c.p 3) 32 8 == 2) = true := by simpa using hproto
  cases index <;>
    simp only [bodyQueueCreate, createClient, queueRegions, hindex, hrider, hqueue, hzero, hspare, hproto', hone, hmost, hsmall,
      hlarge, haligned, hline, hfew, hmany, hwhole, hdb, hcq, hlines, Nat.reduceBEq, Bool.false_eq_true, if_false, decide_true,
      Bool.and_true, Bool.not_true, beq_self_eq_true, Nat.zero_le] <;>
    generalize checkRegions _ _ _ _ = run <;> obtain ⟨res, v⟩ := run <;> cases res <;> rfl

/-- The regions that a descriptor of an event ring names. -/
def ringRegions (c : Cmd) : List (Nat × Nat) := [(0, 0), ((c.p 1).toNat, 64), ((c.p 2).toNat, 32 * 2 ^ bits (c.p 3) 8 8)]

/-- The event ring that a descriptor describes. -/
def createdRing (c : Cmd) : Machine.Ring :=
  { rider := c.h.r, dbVa := c.p 1, cqVa := c.p 2, cqLog2 := bits (c.p 3) 8 8, cqHead := 0, cqTail := 0, dropped := 0, todo := [] }

theorem bodyQueueCreate_of_ring {c : Cmd} {u v : State} (h : RingForm c u)
    (hrun : checkRegions (.ring c.h.r) c.h.r (ringRegions c) u = (.ok, v)) (hnone : ∀ x ∈ v.rings, x.rider ≠ c.h.r) :
    bodyQueueCreate c u = Eff.ok (hangBell (.ring c.h.r) c.h.r (c.p 1) { v with rings := v.rings ++ [createdRing c] }) := by
  obtain ⟨hrider, ⟨hring, hzero, hspare, hempty, hlog⟩, hproto, ⟨hone, hmost⟩, hline, ⟨hfew, hmany, hwhole⟩, hlines⟩ := h
  have hproto' : (bits (c.p 3) 32 8 == 1 || bits (c.p 3) 32 8 == 2) = true := by simpa using hproto
  have hapart (b m : Nat) : rangesApart 0 0 b m = true := rfl
  have hzero' : (0 : Word).toNat = 0 := rfl
  have hfresh : (v.rings.any fun x => decide (x.rider = c.h.r)) = false := by simpa using hnone
  rw [ringRegions] at hrun
  cases hindex : pickIndex u c.h.r (bits (c.p 3) 48 16) <;>
    simp only [bodyQueueCreate, hindex, hrider, hring, hzero, hspare, hempty, hlog, hproto', hone, hmost, hline, hfew, hmany, hwhole,
      hlines, hapart, hzero', hrun, hfresh, Bool.false_eq_true, if_false, if_true, decide_true, Bool.and_true, Bool.not_true,
      beq_self_eq_true, le_refl] <;> rfl

/-! ### Checking a region keeps the composition -/

theorem comp_giveWalkers (wheel n : Nat) (s : State) : (giveWalkers wheel n s).comp = s.comp := by
  induction n generalizing s with
  | zero => rfl
  | succ n ih =>
    simp only [giveWalkers]
    split
    · rfl
    · split
      · rfl
      · rw [ih]
        rfl

theorem comp_dropTicket (k : EngKey) (write : Bool) (s : State) : (dropTicket k write s).comp = s.comp := by
  unfold dropTicket
  split <;> rfl

/-- A step of a walk that neither waits nor fails. -/
theorem comp_walkStep {w : Walk} {o : StepOut} {s t : State} (h : walkStep w s = (o, t)) (hgoes : o ≠ .wait)
    (hfound : ∀ n lvl, o ≠ .end_ (.fault n lvl)) : t.comp = s.comp := by
  unfold walkStep at h
  extract_lets va wheel off drop at h
  have hdrop (u : State) : (drop u).comp = u.comp := comp_dropTicket _ _ _
  split at h
  · cases h
    rfl
  · split at h
    · cases h
      rfl
    · split at h
      · cases h
        rfl
      · split at h
        · cases h
          exact absurd rfl hgoes
        · cases h
          exact absurd rfl (hfound _ _)
        · split at h <;> cases h <;> exact hdrop _

theorem comp_walkOn {n lvl : Nat} {w : Walk} {e : Word} {s t : State} (h : walkOn n w s = (.end_ (.leaf e lvl), t)) :
    t.comp = s.comp := by
  induction n generalizing w s with
  | zero => cases h
  | succ n ih =>
    unfold walkOn at h
    split at h
    next hstep => exact (ih h).trans (comp_walkStep hstep nofun nofun)
    next => cases h
    next => exact comp_walkStep h nofun nofun

theorem comp_fillMicro (cl : XClient) (e : TlbEnt) (s : State) : (fillMicro cl e s).comp = s.comp := rfl

theorem comp_xlatHit {s t : State} {cl : XClient} {r : BitVec 6} {va : Nat} {write : Bool} {opa : Word}
    (h : xlatHit s cl r va write = some (opa, t)) : t.comp = s.comp := by
  unfold xlatHit at h
  split at h
  · cases h
    rfl
  · obtain ⟨e, -, he⟩ := Option.map_eq_some_iff.mp h
    cases he
    rfl

theorem comp_translate {s t : State} {cl : XClient} {r : BitVec 6} {va opa : Word} {write : Bool}
    (h : Machine.translate s cl r va write = (.ok opa, t)) : t.comp = s.comp := by
  unfold Machine.translate at h
  simp only at h
  split at h
  · cases h
  · split at h
    · cases h
    · split at h
      · cases h
      · split at h
        · cases h
        · split at h
          next hhit =>
            split at h <;> cases h
            have hfilled := comp_xlatHit hhit
            split
            · exact (comp_giveWalkers _ _ _).trans hfilled
            · exact hfilled
          next =>
            split at h
            · cases h
            · split at h
              next hwalk =>
                cases h
                have hwalked := comp_walkOn hwalk
                split
                · exact (comp_giveWalkers _ _ _).trans hwalked
                · exact hwalked
              all_goals cases h

theorem comp_checkRegion {cl : XClient} {r : BitVec 6} {n va : Nat} {s t : State} (h : checkRegion cl r n va s = (.ok, t)) :
    t.comp = s.comp := by
  induction n generalizing va s with
  | zero =>
    cases h
    rfl
  | succ n ih =>
    unfold checkRegion at h
    split at h
    · cases h
    · cases h
    · cases h
    next hpage =>
      split at h
      · exact (ih h).trans (comp_translate hpage)
      · cases h

theorem comp_checkRegions {cl : XClient} {r : BitVec 6} {regions : List (Nat × Nat)} {s t : State}
    (h : checkRegions cl r regions s = (.ok, t)) : t.comp = s.comp := by
  induction regions generalizing s with
  | nil =>
    cases h
    rfl
  | cons region rest ih =>
    unfold checkRegions at h
    split at h
    next hfirst => exact (ih h).trans (comp_checkRegion hfirst)
    next hfirst => exact absurd h (hfirst t)

/-- The numbers of a rider's queues come from the composition, so the check of a region leaves them. -/
theorem queueBase_congr {s t : State} (h : t.comp = s.comp) (r : BitVec 6) : queueBase t r = queueBase s r := by
  rw [queueBase, h, queueBase]

theorem queueCreateCompletes : QueueCreateCompletes := by
  refine ⟨?queue, ?unnumbered, ?ring⟩
  case queue =>
    intro c s u i q run hruns hform hindex hq hrun
    have hbody := bodyQueueCreate_of_form hform hindex
    rw [createClient, ← hq] at hbody
    change _ = checkRegions _ _ (queueRegions c) u at hrun
    rw [← hrun] at hbody
    obtain ⟨res, v⟩ := run
    refine ⟨fun hok => ?ok, fun st hbad => ?bad⟩
    case ok =>
      obtain rfl : res = .ok := hok
      have hbase : BitVec.ofNat 13 (queueBase v c.h.r + i) = q := by
        rw [queueBase_congr (comp_checkRegions hrun.symm), hq]
      simp only [afterRegions, createClient, hbase, ← hq] at hbody
      exact congrArg _ (runPacket_res hruns hbody)
    case bad =>
      obtain rfl : res = .bad st := hbad
      exact congrArg _ (runPacket_stat hruns hbody)
  case unnumbered =>
    intro c s u st run hruns hform hindex hrun hok
    have hbody := bodyQueueCreate_of_form hform hindex
    change _ = checkRegions _ _ (queueRegions c) u at hrun
    rw [createClient, ← hrun] at hbody
    obtain ⟨res, v⟩ := run
    obtain rfl : res = .ok := hok
    exact congrArg _ (runPacket_stat hruns hbody)
  case ring =>
    intro c s u run hruns hform hrun hok hnone
    have hchecked : checkRegions (.ring c.h.r) c.h.r (ringRegions c) u = (.ok, run.2) :=
      hrun.symm.trans (Prod.ext hok rfl)
    exact congrArg _ (runPacket_stat hruns (bodyQueueCreate_of_ring hform hchecked hnone))

/-! ### `QUEUE_DESTROY` (R316) -/

theorem dropIf_updQueue (q : BitVec 13) {f : Queue → Queue} (hf : ∀ x, (f x).q = x.q) (s : State) :
    dropIf (updQueue q f s).queues (·.q = q) = dropIf s.queues (·.q = q) := by
  have hdrop : ∀ l : List Queue, dropIf (updIf l (·.q = q) f) (·.q = q) = dropIf l (·.q = q) := by
    intro l
    induction l with
    | nil => rfl
    | cons x l ih =>
      simp only [dropIf, updIf] at ih ⊢
      by_cases hx : x.q = q <;> simp [hx, hf] <;> simpa using ih
  exact hdrop s.queues

/-- A command that did not come from a queue stays open when that queue is freed. -/
theorem isOpen_dropQueue {o : Open} {s : State} {q : BitVec 13} (h : isOpen o s = true) (hsrc : o.h.src ≠ .queue q) :
    isOpen o { s with queues := dropIf s.queues (·.q = q) } = true := by
  unfold isOpen at h ⊢
  split at h
  next p hp =>
    obtain ⟨x, hx, hxp⟩ := List.any_eq_true.mp h
    have hq : x.q = p := of_decide_eq_true (Bool.and_eq_true_iff.mp hxp).1
    have hkept : x.q ≠ q := fun h => hsrc (hp.trans (congrArg _ (hq.symm.trans h)))
    exact List.any_eq_true.mpr ⟨x, mem_dropIf.mpr ⟨hx, decide_eq_false hkept⟩, hxp⟩
  next => exact h

/-- A queue is idle or not whatever its `closing` flag says. -/
theorem queueIdle_closing {q : BitVec 13} {s : State} {x : Queue} (h : findQueue s q = some x) :
    queueIdle (updQueue q (fun x => { x with closing := true }) s) q = queueIdle s q := by
  have hclosing := findQueue_updQueue (f := fun x => { x with closing := true }) (by exact fun _ => rfl) h
  rw [queueIdle, hclosing, queueIdle, h]

/-- The parts of the parameter of a `QUEUE_DESTROY` that names a queue. -/
theorem bits_eq_zero_of_queue_number {p : Word} (h : bits p 13 51 = 0) : bits p 13 3 = 0 ∧ bit p 16 = false ∧ bits p 17 47 = 0 := by
  have hlow : p.toNat < 2 ^ 13 := by
    have := p.isLt
    rw [bits, Nat.shiftRight_eq_div_pow] at h
    omega
  have hshift (n : Nat) (hn : 13 ≤ n) : p.toNat >>> n = 0 := by
    rw [Nat.shiftRight_eq_div_pow]
    exact Nat.div_eq_of_lt (hlow.trans_le (Nat.pow_le_pow_right (by decide) hn))
  simp [bits, bit, hshift, Nat.testBit]

theorem queueDestroyCompletes : QueueDestroyCompletes := by
  refine ⟨?queue, ?ring⟩
  case queue =>
    intro c s u q hruns hq hzero hsrc hlow hhigh hfound
    obtain ⟨hspare, hkind, hrest⟩ := bits_eq_zero_of_queue_number hzero
    obtain ⟨x, hx⟩ := Option.isSome_iff_exists.mp hfound
    have hrange : (decide (q.toNat < queueBase u c.h.r) || decide (queueBase u c.h.r + maxQueues u c.h.r ≤ q.toNat)) = false := by
      simp [hlow, hhigh]
    have hbody (v : Option State) (hv : tryDestroy (openOf 0x021 c) q (updQueue q (fun x => { x with closing := true }) u) = v) :
        bodyQueueDestroy c u = Eff.later (v.getD { updQueue q (fun x => { x with closing := true }) u with
          jobs := u.jobs ++ [.destroy (openOf 0x021 c) q] }) := by
      subst hq
      cases v <;>
        simp only [bodyQueueDestroy, hspare, hkind, hrest, hsrc, hrange, hx, hv, ne_eq, not_true_eq_false, decide_false,
          Bool.or_self, Bool.false_eq_true, if_false] <;> rfl
    rw [tryDestroy, queueIdle_closing hx] at hbody
    refine ⟨fun hidle => ?idle, fun hbusy => ?busy⟩
    case idle =>
      have hopen := isOpen_dropQueue (isOpen_of_runsIn hruns) hsrc
      have hlater := hbody _ (if_pos hidle)
      rw [dropIf_updQueue q (by exact fun _ => rfl)] at hlater
      refine congrArg _ ((runPacket_later hruns hlater).trans ?_)
      exact completeIf_of_isOpen hopen _ _ _
    case busy =>
      exact congrArg _ (runPacket_later hruns (hbody _ (if_neg (by simp [hbusy]))))
  case ring =>
    intro c s u hruns hspare hkind hrest hring
    have hbody : bodyQueueDestroy c u = Eff.ok { u with rings := dropIf u.rings (·.rider = c.h.r) } := by
      simp only [bodyQueueDestroy, hspare, hkind, hrest, hring, ne_eq, not_true_eq_false, decide_false, Bool.or_self,
        Bool.false_eq_true, if_false, if_true]
    exact congrArg _ (runPacket_stat hruns hbody)

/-- Settles O31: creation and destruction of a queue, its doorbells, the posting of its replies and their bytes. The check of
a region keeps the composition, so a created queue has the number that the state before the check gives it. -/
theorem queuesComplete : Obligations.QueuesComplete :=
  ⟨queueCreateCompletes, queueDestroyCompletes, doorbellsComplete, landedStoresRing, replyPostCompletes, replyLayout⟩

end Sys2Proof.Proofs

/-! Tiles: bundles and how they end, the pannier, the matrix array and the datapath, streams, and tile control. -/

namespace Sys2Proof.Proofs

open Sys2Proof.Machine Sys2Proof.Claims Sys2Proof.Laws

/-! ### Giving the operations of a bundle (R168, R170, R171) -/

/-- The operations of the slots are run by their issue. -/
theorem exec_of_slotFn {i : Instr} {z : BSlot} {a : At} {f : SlotFn} (h : slotFn i = some (z, a, f)) (s : State) :
    exec i s = .next (issue i s) := by
  cases i with
  | ld | ldU | st | stF | atom | fence | acq | sigAdd | sigSet | wait | ldP | stP | vldP | vstP | vpack | xaSave | xaMerge
  | mma | accRd | accWr | accClr | dp | scalarIntegerOperation | strStart | strWait | strStop | branch | loopCounter | yield_
  | halt | id_ => rfl
  | _ => cases h

/-- What a bundle whose operations have all been given makes of the state `s` that they found. -/
def afterBundle (a : At) (k : Ctx) (s : State) : SlotRes → State
  | .done t => endIssue a t
  | .held => updTile a.tile (fun x => { x with stall := bumpSat x.stall 1 }) s
  | .bad => ctxFault a.tile a.ctx k.pc .badParam 0 0 0 0 s

theorem issueBundle_of_clean {a : At} {s : State} (h : injMode s 0x02 (unitTile a.tile) = none) (k : Ctx) (ops : List Instr) :
    issueBundle a k ops s = afterBundle a k s (issueOps a (BSlot.all.filterMap (slotOp ops)) (inSlot a s)) := by
  have hbad : injBad s 0x02 (unitTile a.tile) = false := by rw [injBad, h]
  simp only [issueBundle, hbad, h, Bool.false_eq_true, reduceCtorEq, if_false]
  rw [show updCtx a.tile a.ctx (fun k => { k with mid := true }) s = inSlot a s from rfl]
  cases issueOps a (BSlot.all.filterMap (slotOp ops)) (inSlot a s) <;> rfl

section Runs
variable {i : Instr} {z : BSlot} {f : SlotFn} {a : At} {s : State} {x : Tile} {p : Prog} {k : Ctx}
  (h : Runs a s x p k) (hskip : p.skip k.pc = k.pc) (hslot : slotFn i = some (z, a, f))
include h hskip hslot

/-- An operation given to the running context, which stands at the bundle that it issues next. -/
theorem issue_of_runs : issue i s =
    if !(p.slots k.pc).contains z || (slotOp k.bundle z).isSome then s
    else if (p.slots k.pc).all fun y => (slotOp (k.bundle ++ [i]) y).isSome then issueBundle a k (k.bundle ++ [i]) s
    else updCtx a.tile a.ctx (fun j => { j with bundle := k.bundle ++ [i] }) s := by
  simp [issue, whenUp, h.up, hslot, progEnd_of_runs h hskip, h.tile, h.prog, h.ctx, h.running]

/-- One for a slot that the bundle leaves empty, or has an operation for, does nothing. -/
theorem issue_of_none_of_it (hnone : z ∉ p.slots k.pc ∨ (slotOp k.bundle z).isSome = true) : issue i s = s := by
  rw [issue_of_runs h hskip hslot, if_pos]
  simpa using hnone

variable (hmem : z ∈ p.slots k.pc) (hfree : slotOp k.bundle z = none)
include hmem hfree

theorem issue_of_waits (hwaits : ∃ y ∈ p.slots k.pc, slotOp (k.bundle ++ [i]) y = none) :
    issue i s = updCtx a.tile a.ctx (fun j => { j with bundle := k.bundle ++ [i] }) s := by
  rw [issue_of_runs h hskip hslot, if_neg (by simp [hmem, hfree]), if_neg]
  simpa using hwaits

/-- The last operation that a bundle waits for lets all of them issue. -/
theorem issue_of_whole (hwhole : ∀ y ∈ p.slots k.pc, (slotOp (k.bundle ++ [i]) y).isSome = true) :
    issue i s = afterBundle a k s (issueOps a (BSlot.all.filterMap (slotOp (k.bundle ++ [i]))) (inSlot a s)) := by
  rw [issue_of_runs h hskip hslot, if_neg (by simp [hmem, hfree]), if_pos (List.all_eq_true.mpr hwhole),
    issueBundle_of_clean h.clean]

end Runs

section Lone
variable {z : BSlot} {a : At} {s : State} {x : Tile} {p : Prog} {k : Ctx} (h : Lone z a s x p k)
include h

theorem skip_of_lone : p.skip k.pc = k.pc :=
  skip_of_bundle h.runs.inProg (bundle_ne_zero_of_slot (z := z) (by rw [h.slot]; simp))

variable {i : Instr} {f : SlotFn}

/-- The one operation of a bundle decides what becomes of the bundle. -/
theorem exec_of_lone {r : SlotRes} (hslot : slotFn i = some (z, a, f))
    (hres : f (tileInSlot a x) p { k with mid := true } (inSlot a s) = r) : exec i s = .next (afterBundle a k s r) := by
  have hwhole : ∀ y ∈ p.slots k.pc, (slotOp (k.bundle ++ [i]) y).isSome = true := by
    simp [h.slot, h.fresh, slotOp, hslot]
  rw [exec_of_slotFn hslot, issue_of_whole h.runs (skip_of_lone h) hslot (by simp [h.slot]) (by simp [h.fresh, slotOp]) hwhole,
    h.fresh, List.nil_append, slotOps_singleton hslot, issueOps_singleton h.runs, hres]

theorem exec_of_done {t : State} (hslot : slotFn i = some (z, a, f))
    (hdone : f (tileInSlot a x) p { k with mid := true } (inSlot a s) = .done t) : exec i s = .next (endIssue a t) :=
  exec_of_lone h hslot hdone

theorem exec_of_held (hslot : slotFn i = some (z, a, f))
    (hheld : f (tileInSlot a x) p { k with mid := true } (inSlot a s) = .held) :
    exec i s = .next (updTile a.tile (fun x => { x with stall := bumpSat x.stall 1 }) s) :=
  exec_of_lone h hslot hheld

/-- An operation of another slot is none of the bundle's. -/
theorem exec_of_other_slot {y : BSlot} (hslot : slotFn i = some (y, a, f)) (hne : y ≠ z) : exec i s = .next s := by
  rw [exec_of_slotFn hslot, issue_of_none_of_it h.runs (skip_of_lone h) hslot (.inl (by simp [h.slot, hne]))]

end Lone

/-! ### Accesses of the pannier (R177, R178) -/

theorem pannierEcc_of_clean {t : BitVec 10} {s : State} (h : injMode s 0x01 (unitTile t) = none) :
    pannierEcc t s = (false, s) := by
  simp only [pannierEcc, injBad, h, reduceCtorEq, Bool.false_eq_true, if_false]

theorem bankMeets_cases (t : BitVec 10) (off n : Nat) (s : State) :
    bankMeets t off n s = bankCycles t s ∨ bankMeets t off n s = s := ite_eq_or_eq _ _ _

theorem err_bankMeets (t : BitVec 10) (off n : Nat) (s : State) : (bankMeets t off n s).err = s.err := by
  rcases bankMeets_cases t off n s with h | h
  · rw [h]
    rfl
  · rw [h]

theorem injMode_congr {s t : State} (h : t.err = s.err) (point unit : BitVec 16) : injMode t point unit = injMode s point unit := by
  simp only [injMode, h]

section Pannier
variable {a : At} {s : State} {k : Ctx} {addr : AddrOp} {n align : Nat}

/-- An access inside the pannier, aligned, and met by no injected error, does what its operation does (R172, R177). -/
theorem pannierOp_of_pannier (h : Pannier a s k addr n align) (read : Bool) (f : Nat → State → State) :
    pannierOp a { k with mid := true } addr n align read (inSlot a s) f =
      .done (f (k.addr addr).toNat (inPannier a k addr n s)) := by
  have haddr : ({ k with mid := true } : Ctx).addr addr = k.addr addr := rfl
  have hin : ¬ pannierSize < (k.addr addr).toNat + n := Nat.not_lt.mpr h.inside
  have hclean : injMode (inPannier a k addr n s) 0x01 (unitTile a.tile) = none :=
    (injMode_congr (err_bankMeets _ _ _ _) _ _).trans h.clean
  have hecc : pannierEcc a.tile (bankMeets a.tile (k.addr addr).toNat n (inSlot a s)) = (false, inPannier a k addr n s) :=
    pannierEcc_of_clean hclean
  cases read <;> simp [pannierOp, haddr, hin, h.aligned, hecc, inPannier]

/-- One that leaves the pannier faults its context (R177, R196). -/
theorem pannierOp_outside (h : 4194304 < (k.addr addr).toNat + n) (read : Bool) (f : Nat → State → State) :
    pannierOp a { k with mid := true } addr n align read (inSlot a s) f =
      .done (ctxFault a.tile a.ctx k.pc .badParam 0 0 0 0 (inSlot a s)) := if_pos h

/-- One inside the pannier that is misaligned faults its context (R177, R196). -/
theorem pannierOp_misaligned (hin : (k.addr addr).toNat + n ≤ 4194304) (h : (k.addr addr).toNat % align ≠ 0) (read : Bool)
    (f : Nat → State → State) :
    pannierOp a { k with mid := true } addr n align read (inSlot a s) f =
      .done (ctxFault a.tile a.ctx k.pc .misaligned 0 0 0 0 (inSlot a s)) :=
  (if_neg (Nat.not_lt.mpr hin)).trans (if_pos h)

/-- The packer packs the lanes in a format and gear that R189 allows. -/
theorem vpackOp_of_form {vs : BitVec 5} {fmt : BitVec 4} {gear : BitVec 2} {f : Fmt} (x : Tile) (p : Prog)
    (hlow : 1 ≤ fmt.toNat) (hhigh : fmt.toNat ≤ 5) (hgear : fmtGearOk (BitVec.ofNat 8 (fmt.toNat * 16 + gear.toNat)) = true)
    (hfmt : fmtOf fmt.toNat = some f) (s : State) : vpackOp a vs addr fmt gear x p k s =
      pannierOp a k addr (packBlock fmt.toNat gear.toNat f (k.getV vs)).length 8 false s
        fun off => updTile a.tile (pannierWrite off (packBlock fmt.toNat gear.toNat f (k.getV vs))) := by
  simp [vpackOp, hlow, hhigh, hgear, hfmt]

/-- An `XA` register that its context owns is saved and merged by accesses of the pannier (R190, R191). -/
theorem xaOps_of_owned {p : Prog} {r : BitVec 3} (h : ownsXa p a.ctx r.toNat = true) (x : Tile) (s : State) :
    xaSaveOp a r addr x p k s = pannierOp a k addr 4096 64 false s
      (fun off => updTile a.tile (pannierWrite off ((xaGet x r.toNat).flatMap Acc.bytes))) ∧
    xaMergeOp a r addr x p k s = pannierOp a k addr 4096 64 true s (fun off => updTile a.tile (xaPut r.toNat
      (List.zipWith Acc.merge (xaGet x r.toNat) ((chunksB 64 64 (memReadN x.pannier off 4096)).map accOf)))) := by
  simp [xaSaveOp, xaMergeOp, h]

end Pannier

theorem pannierOperationsComplete : PannierOperationsComplete := by
  intro a s x p k addr h
  refine ⟨?load, ?store, ?vload, ?vstore, ?pack, ?accumulators⟩
  case load => exact fun size sd hp => exec_of_done h rfl (pannierOp_of_pannier hp true _)
  case store => exact fun size ss hp => exec_of_done h rfl (pannierOp_of_pannier hp false _)
  case vload => exact fun vd hp => exec_of_done h rfl (pannierOp_of_pannier hp true _)
  case vstore => exact fun vs hp => exec_of_done h rfl (pannierOp_of_pannier hp false _)
  case pack =>
    intro vs fmt gear f hlow hhigh hgear hfmt hp
    exact exec_of_done h rfl ((vpackOp_of_form _ _ hlow hhigh hgear hfmt _).trans (pannierOp_of_pannier hp false _))
  case accumulators =>
    intro r hown hp
    obtain ⟨hsave, hmerge⟩ := xaOps_of_owned (a := a) (addr := addr) (k := { k with mid := true }) hown (tileInSlot a x) (inSlot a s)
    exact ⟨exec_of_done h rfl (hsave.trans (pannierOp_of_pannier hp false _)),
      exec_of_done h rfl (hmerge.trans (pannierOp_of_pannier hp true _))⟩

theorem pannierFaults : PannierFaults := by
  intro a s x p k addr v h
  exact ⟨fun hout => ⟨exec_of_done h rfl (pannierOp_outside hout true _), exec_of_done h rfl (pannierOp_outside hout false _)⟩,
    fun hin hmis => ⟨exec_of_done h rfl (pannierOp_misaligned hin hmis true _),
      exec_of_done h rfl (pannierOp_misaligned hin hmis false _)⟩⟩

/-- Settles O18: each operation is one access of the pannier, which its place and alignment let through, with at most the
cycles lost to a bank, or refuse before it touches the tile. -/
theorem pannierComplete : Obligations.PannierComplete := ⟨pannierOperationsComplete, pannierFaults⟩

/-! ### The matrix queue, the accumulator tiles and the datapath (R181 to R185, R190) -/

section Matrix
variable {a : At} {x : Tile} {p : Prog} {k : Ctx} {t : BitVec 5}

/-- An `MMA` with a good descriptor enters the matrix queue, or is held while the queue is full (R171, R182). -/
theorem mmaOp_of_ok {sd : BitVec 5} (hown : ownsAcc p a.ctx t = true) (hsd : sd ≠ 31)
    (hok : (mmaDesc (k.getS sd) (k.getS (sd + 1))).ok = true) (s : State) :
    mmaOp a t sd x p k s = if 2 ≤ x.mmaq.length then .held else .done (updTile a.tile (fun x =>
      { x with mmaq := x.mmaq ++ [{ ctx := a.ctx, t := t, d0 := k.getS sd, d1 := k.getS (sd + 1), pc := k.pc }] }) s) := by
  simp only [mmaOp, hown, hsd, hok, Bool.not_true, decide_false, Bool.or_self, Bool.false_eq_true, if_false]

/-- An operation on an accumulator tile that its context owns, held while an `MMA` on it is queued (R171). -/
theorem accOp_of_owned (hown : ownsAcc p a.ctx t = true) (f : Tile → Ctx → State → State) (s : State) :
    accOp a t f x p k s = if accBusy x t then .held else .done (f x k s) := by
  simp only [accOp, hown, Bool.not_true, Bool.false_eq_true, if_false]

theorem accBusy_of_free (h : ∀ m ∈ x.mmaq, m.t ≠ t) : accBusy x t = false := by
  simpa [accBusy] using h

/-- `DP` runs its configuration over the tile's `XA` registers; its result waits for the end of the bundle (R187, R190). -/
theorem dpOp_of_owned {cfg vd va vb vc sa : BitVec 5} {nodes : List Word} (hcfg : p.configs[cfg.toNat]? = some nodes)
    (hown : ∀ n ∈ configXas nodes, ownsXa p a.ctx n = true) {r : DpRun}
    (hr : nodes.foldl (runNode [k.getV va, k.getV vb, k.getV vc, List.replicate 64 ((k.getS sa).setWidth 32)])
      { outs := [], xa := x.xa, dest := none } = r) (s : State) :
    dpOp a cfg vd va vb vc sa x p k s = .done (r.dest.elim (updTile a.tile (fun x => { x with xa := r.xa }) s)
      fun v => putVec a vd v (updTile a.tile (fun x => { x with xa := r.xa }) s)) := by
  simp only [dpOp, hcfg, List.all_eq_true.mpr hown, hr, Bool.not_true, Bool.false_eq_true, if_false]
  cases r.dest <;> rfl

end Matrix

theorem injMode_of_no_inj {s : State} (h : s.err.inj = []) (point unit : BitVec 16) : injMode s point unit = none := by
  simp [injMode, h]

/-- What follows an `MMA` that ran: a row that failed a gear check stops its context and its stream (R185). -/
def afterMma (t : BitVec 10) (m : MmaOp) (x : Tile) (s : State) : Option (Nat × GearFault) → State
  | none => s
  | some e => stopIdle t (gearFaultAt t m e x s)

/-- The oldest `MMA` of a tile runs its panels (R183). -/
theorem runMma_of_clean {t : BitVec 10} {s : State} {x : Tile} {m : MmaOp} {rest : List MmaOp} {acc : List (BitVec 32)}
    {fault : Option (Nat × GearFault)} (htile : findTile s t = some x) (hqueue : x.mmaq = m :: rest) (hclean : s.err.inj = [])
    (hrun : runPanels x (mmaDesc m.d0 m.d1) (mmaDesc m.d0 m.d1).panels 0
      (if (mmaDesc m.d0 m.d1).clear then List.replicate 1024 0 else accGet x m.t.toNat) = (acc, fault)) :
    runMma t s = afterMma t m x (updTile t (fun x => accPut m.t.toNat acc { x with mmaq := rest })
      (if (mmaDesc m.d0 m.d1).banksA.any (mmaDesc m.d0 m.d1).banksB.contains then bankCycles t s else s)) fault := by
  have hinj : (if (mmaDesc m.d0 m.d1).banksA.any (mmaDesc m.d0 m.d1).banksB.contains then bankCycles t s else s).err.inj = [] := by
    rw [apply_ite State.err]
    exact (congrArg Errs.inj (ite_self _)).trans hclean
  simp only [runMma, htile, hqueue, pannierEcc_of_clean (injMode_of_no_inj hinj _ _), injBad_of_no_inj hinj, hrun, Bool.and_false,
    Bool.false_eq_true, if_false]
  cases fault <;> rfl

/-- Settles O19: an operation of the matrix slot finds its accumulator tile its own and free or is held, and the oldest `MMA`
runs by its panels alone where no injected error meets it. -/
theorem matrixAndDatapathComplete : Obligations.MatrixAndDatapathComplete := by
  refine ⟨?matrix, ?datapath, ?dequeue⟩
  case matrix =>
    intro a s x p k h
    refine ⟨fun t sd hown hsd hok => ⟨fun hroom => ?_, fun hfull => ?_⟩, fun t hown hfree => ?_⟩
    · exact exec_of_done h rfl ((mmaOp_of_ok hown hsd hok _).trans (if_neg (Nat.not_le.mpr hroom)))
    · exact exec_of_held h rfl ((mmaOp_of_ok hown hsd hok _).trans (if_pos hfull))
    · have hdone (f : Tile → Ctx → State → State) : accOp a t f (tileInSlot a x) p { k with mid := true } (inSlot a s) =
          .done (f (tileInSlot a x) { k with mid := true } (inSlot a s)) :=
        (accOp_of_owned hown f _).trans (if_neg (by simp [accBusy_of_free (x := tileInSlot a x) hfree]))
      exact ⟨fun vd r => exec_of_done h rfl (hdone _), fun r vs => exec_of_done h rfl (hdone _), exec_of_done h rfl (hdone _)⟩
  case datapath =>
    intro a s x p k cfg vd va vb vc sa nodes r h hcfg hown hr
    refine (exec_of_done (i := .dp a cfg vd va vb vc sa) h rfl (dpOp_of_owned hcfg hown hr.symm _)).trans ?_
    cases r.dest <;> rfl
  case dequeue =>
    rintro t s x m rest _ ⟨acc, fault⟩ hup htile hqueue hclean rfl hrun
    refine congrArg _ ((whenUp_of_running hup _).trans ((runMma_of_clean htile hqueue hclean hrun.symm).trans ?_))
    cases fault <;> rfl

/-! ### What stays inside a tile (R168, R170, R178) -/

theorem getElem?_updAt_ne {α : Type} (l : List α) {i j : Nat} (h : j ≠ i) (f : α → α) : (updAt l i f)[j]? = l[j]? := by
  simp [updAt, h]

theorem find?_updIf_other {α : Type} {p q : α → Bool} {f : α → α} (hf : ∀ x, q (f x) = q x) (hpq : ∀ x, q x = true → p x = false)
    (l : List α) : (updIf l p f).find? q = l.find? q := by
  induction l with
  | nil => rfl
  | cons x xs ih =>
    have hcons : updIf (x :: xs) p f = (if p x then f x else x) :: updIf xs p f := rfl
    rw [hcons, List.find?_cons, List.find?_cons, ih]
    cases hx : p x with
    | false => rfl
    | true =>
      have hq : q x = false := by
        by_contra hq
        simp [hpq x (by simpa using hq)] at hx
      simp [hf, hq]

theorem findTile_updTile_ne {t u : BitVec 10} (h : u ≠ t) {f : Tile → Tile} (hf : ∀ y, (f y).id = y.id) (s : State) :
    findTile (updTile t f s) u = findTile s u :=
  find?_updIf_other (fun y => by rw [hf]) (fun y hy => by
    have hid : y.id = u := of_decide_eq_true hy
    simp [hid, h]) s.tiles

/-- Tile `y` has the program of `x`, and its contexts beside number `i` but for the marks on lines that blocked ones wait for. -/
structure Beside (i : Nat) (x y : Tile) : Prop where
  prog : y.prog = x.prog
  ctxs : ∀ j, j ≠ i → ∃ g : Ctx → Ctx, y.ctxs[j]? = x.ctxs[j]?.map g ∧ ∀ m, (g m).st = m.st ∧ (m.block = .none → g m = m)

theorem beside_of_ctxs {i : Nat} {x y : Tile} (hprog : y.prog = x.prog) (hctxs : ∀ j, j ≠ i → y.ctxs[j]? = x.ctxs[j]?) :
    Beside i x y :=
  ⟨hprog, fun j hj => ⟨id, by simp [hctxs j hj], fun _ => ⟨rfl, fun _ => rfl⟩⟩⟩

theorem Beside.trans {i : Nat} {x y z : Tile} (h : Beside i x y) (h' : Beside i y z) : Beside i x z := by
  refine ⟨h'.prog.trans h.prog, fun j hj => ?_⟩
  obtain ⟨f, hf, hkeeps⟩ := h.ctxs j hj
  obtain ⟨g, hg, hkeeps'⟩ := h'.ctxs j hj
  refine ⟨g ∘ f, by rw [hg, hf, Option.map_map], fun m => ⟨(hkeeps' _).1.trans (hkeeps m).1, fun hm => ?_⟩⟩
  have hsame := (hkeeps m).2 hm
  rw [Function.comp_apply, hsame, (hkeeps' m).2 hm]

/-- From `s` to `t` nothing changes but tile `a.tile`, which was `x` and is `y`, and the count of free values; of the tile's
contexts only `a.ctx` does anything. -/
structure Inside (a : At) (s t : State) (x y : Tile) : Prop where
  only   : t = { s with tiles := t.tiles, freeIdx := t.freeIdx }
  others : ∀ u, u ≠ a.tile → findTile t u = findTile s u
  tile   : findTile t a.tile = some y
  beside : Beside a.ctx.toNat x y

theorem Inside.trans {a : At} {s t u : State} {x y z : Tile} (h : Inside a s t x y) (h' : Inside a t u y z) :
    Inside a s u x z := by
  refine ⟨?_, fun v hv => (h'.others v hv).trans (h.others v hv), h'.tile, h.beside.trans h'.beside⟩
  rw [h'.only, h.only]

theorem inside_updTile {a : At} {s : State} {x : Tile} {f : Tile → Tile} (htile : findTile s a.tile = some x)
    (hid : ∀ y, (f y).id = y.id) (hbeside : Beside a.ctx.toNat x (f x)) (n : Nat) :
    Inside a s { updTile a.tile f s with freeIdx := n } x (f x) :=
  ⟨rfl, fun _ hu => findTile_updTile_ne hu hid s, findTile_updTile hid htile, hbeside⟩

/-- A tile whose context `i` is changed. -/
def onCtx (i : Nat) (f : Ctx → Ctx) (x : Tile) : Tile := { x with ctxs := updAt x.ctxs i f }

theorem updCtx_eq_updTile (t : BitVec 10) (c : BitVec 4) (f : Ctx → Ctx) (s : State) :
    updCtx t c f s = updTile t (onCtx c.toNat f) s := rfl

theorem ctx_onCtx {i : Nat} {x : Tile} {k : Ctx} (h : x.ctxs[i]? = some k) (f : Ctx → Ctx) : (onCtx i f x).ctxs[i]? = some (f k) := by
  rw [onCtx, getElem?_updAt, h]
  rfl

theorem beside_onCtx (i : Nat) (f : Ctx → Ctx) (x : Tile) : Beside i x (onCtx i f x) :=
  beside_of_ctxs rfl fun _ hj => getElem?_updAt_ne x.ctxs hj f

theorem inside_updCtx {a : At} {s : State} {x : Tile} (htile : findTile s a.tile = some x) (f : Ctx → Ctx) :
    Inside a s (updCtx a.tile a.ctx f s) x (onCtx a.ctx.toNat f x) :=
  inside_updTile (f := onCtx a.ctx.toNat f) htile (fun _ => rfl) (beside_onCtx a.ctx.toNat f x) s.freeIdx

/-! ### The end of a bundle (R168, R170, R171) -/

/-- No context of a tile beside number `i` runs or is ready. -/
def Alone (i : Nat) (x : Tile) : Prop := ∀ j m, x.ctxs[j]? = some m → j ≠ i → m.st ≠ .running ∧ m.st ≠ .ready

theorem Alone.of_beside {i : Nat} {x y : Tile} (h : Alone i x) (hb : Beside i x y) : Alone i y := by
  intro j m hm hj
  obtain ⟨g, hg, hkeeps⟩ := hb.ctxs j hj
  obtain ⟨m', hm', rfl⟩ := Option.map_eq_some_iff.mp (hg.symm.trans hm)
  rw [(hkeeps m').1]
  exact h j m' hm' hj

theorem sched_of_running {x : Tile} {i : Nat} {k : Ctx} (hctx : x.ctxs[i]? = some k) (hrun : k.st = .running) (c : Nat) :
    x.sched c = x :=
  if_pos (List.any_eq_true.mpr ⟨k, List.mem_of_getElem? hctx, by simp [hrun]⟩)

theorem ready_of_nextReady {x : Tile} {c j : Nat} (h : nextReady x c = some j) : ∃ m, x.ctxs[j]? = some m ∧ m.st = .ready := by
  have hfound := List.find?_some h
  cases hm : x.ctxs[j]? with
  | none => simp [hm] at hfound
  | some m => exact ⟨m, rfl, by simpa [hm] using hfound⟩

section Alone
variable {x : Tile} {i : Nat} (h : Alone i x)
include h

theorem none_running_of_alone (hother : ∀ k, x.ctxs[i]? = some k → k.st ≠ .running) : x.ctxs.any (·.st = .running) = false := by
  simp only [List.any_eq_false, decide_eq_true_eq]
  intro m hm
  obtain ⟨j, hj⟩ := List.getElem?_of_mem hm
  by_cases hij : j = i
  · exact hother m (hij ▸ hj)
  · exact (h j m hj hij).1

/-- A context that halts beside others that do not run leaves its tile idle. -/
theorem sched_of_none_ready (hother : ∀ k, x.ctxs[i]? = some k → k.st ≠ .running ∧ k.st ≠ .ready) (c : Nat) : x.sched c = x := by
  have hnone : nextReady x c = none := by
    refine List.find?_eq_none.mpr fun j _ => ?_
    cases hj : x.ctxs[j]? with
    | none => simp
    | some m =>
      by_cases hij : j = i
      · simpa using (hother m (hij ▸ hj)).2
      · simpa using (h j m hj hij).2
  simp [Tile.sched, none_running_of_alone h fun k hk => (hother k hk).1, hnone]

/-- A context that is ready beside others that are not takes the next turn as well (R168). -/
theorem sched_of_ready {k : Ctx} (hi : i < 16) (hctx : x.ctxs[i]? = some k) (hready : k.st = .ready) :
    x.sched i = onCtx i (fun k => { k with st := .running }) x := by
  have hnext : nextReady x i = some i := by
    have hmem : i ∈ (List.range 16).map fun j => (i + 1 + j) % 16 := List.mem_map.mpr ⟨15, by simp, by omega⟩
    have hsome : (nextReady x i).isSome = true := List.find?_isSome.mpr ⟨i, hmem, by simp [hctx, hready]⟩
    obtain ⟨j, hj⟩ := Option.isSome_iff_exists.mp hsome
    obtain ⟨m, hm, hmready⟩ := ready_of_nextReady hj
    by_contra hne
    exact (h j m hm fun hji => hne (hji ▸ hj)).2 hmready
  have hnone := none_running_of_alone h fun m hm => by
    rw [← Option.some.inj (hctx.symm.trans hm), hready]
    decide
  simp [Tile.sched, hnone, hnext, onCtx]

end Alone

/-- The state that a context takes when its bundle ends (R168, R169). -/
def stateAfter (k : Ctx) : CtxSt :=
  k.ends.getD (if k.block ≠ .none then .blocked else if k.turn then .ready else .running)

theorem endIssue_of_findCtx {a : At} {s : State} {k : Ctx} (h : findCtx s a.tile a.ctx = some k) : endIssue a s =
    progEnd a.tile 17 (setCtxSt a.tile a.ctx (stateAfter k) (updCtx a.tile a.ctx Ctx.endBundle (stallCycles a.tile s))) := by
  cases hends : k.ends <;> simp only [endIssue, h, stateAfter, hends, Option.getD]

/-- The tile in which the bundle of context `i` has ended, leaving the context in state `st`. -/
def closedTile (i : Nat) (st : CtxSt) (stall : BitVec 32) (x : Tile) : Tile :=
  onCtx i (fun k => { k.endBundle with st := st }) { x with stall := stall }

theorem beside_closedTile (i : Nat) (st : CtxSt) (stall : BitVec 32) (x : Tile) : Beside i x (closedTile i st stall x) :=
  beside_of_ctxs rfl fun _ hj => getElem?_updAt_ne x.ctxs hj _

theorem ctx_closedTile {i : Nat} {x : Tile} {k : Ctx} (h : x.ctxs[i]? = some k) (st : CtxSt) (stall : BitVec 32) :
    (closedTile i st stall x).ctxs[i]? = some { k.endBundle with st := st } :=
  ctx_onCtx (x := { x with stall := stall }) h _

theorem id_sched (x : Tile) (c : Nat) : (x.sched c).id = x.id := by
  unfold Tile.sched
  split
  · rfl
  · split <;> rfl

theorem updTile_updTile (t : BitVec 10) {f : Tile → Tile} (hf : ∀ y, (f y).id = y.id) (g : Tile → Tile) (s : State) :
    updTile t g (updTile t f s) = updTile t (g ∘ f) s := by
  simp only [updTile, updIf_updIf (p := fun x : Tile => decide (x.id = t)) (f := f) (fun y => by rw [hf])]

theorem stallCycles_eq_updTile (t : BitVec 10) (s : State) : stallCycles t s =
    updTile t (fun x => { x with stall := bumpSat x.stall ((takeFree s).1.toNat % 2 ^ 32) }) (takeFree s).2 := rfl

/-- The steps that close a bundle are one change of its tile, with a free value for the cycles it was held. -/
theorem setCtxSt_endBundle (a : At) (st : CtxSt) (s : State) : ∃ f : BitVec 32 → BitVec 32,
    setCtxSt a.tile a.ctx st (updCtx a.tile a.ctx Ctx.endBundle (stallCycles a.tile s)) =
      { updTile a.tile (fun x => (closedTile a.ctx.toNat st (f x.stall) x).sched a.ctx.toNat) s with freeIdx := s.freeIdx + 1 } := by
  refine ⟨fun c => bumpSat c ((takeFree s).1.toNat % 2 ^ 32), ?_⟩
  have hset (u : State) : setCtxSt a.tile a.ctx st u =
      updTile a.tile (fun x => (onCtx a.ctx.toNat (fun k => { k with st := st }) x).sched a.ctx.toNat) u := rfl
  rw [hset, stallCycles_eq_updTile, updCtx_eq_updTile, updTile_updTile a.tile (by exact fun _ => rfl),
    updTile_updTile a.tile (by exact fun _ => rfl)]
  exact congrArg (fun f => updTile a.tile f (takeFree s).2)
    (funext fun x => by simp only [Function.comp_apply, closedTile, onCtx, updAt_updAt])

/-- The end of a bundle closes it in the tile, which goes on to its next ready context. -/
theorem inside_endBundle {a : At} {s : State} {x : Tile} {st st' : CtxSt} (htile : findTile s a.tile = some x)
    (hsched : ∀ n, (closedTile a.ctx.toNat st n x).sched a.ctx.toNat = closedTile a.ctx.toNat st' n x) : ∃ t n,
    setCtxSt a.tile a.ctx st (updCtx a.tile a.ctx Ctx.endBundle (stallCycles a.tile s)) = t ∧
      Inside a s t x (closedTile a.ctx.toNat st' n x) ∧ t.freeIdx = s.freeIdx + 1 := by
  obtain ⟨f, hf⟩ := setCtxSt_endBundle a st s
  refine ⟨_, f x.stall, hf, ?_, rfl⟩
  rw [← hsched]
  refine inside_updTile (f := fun x => (closedTile a.ctx.toNat st (f x.stall) x).sched a.ctx.toNat) htile
    (fun y => id_sched _ _) ?_ _
  rw [hsched]
  exact beside_closedTile _ _ _ _

/-- The running context steps over bundles without operations to one that has some. -/
theorem progEnd_of_next {s : State} {t : BitVec 10} {x : Tile} {p : Prog} {c : BitVec 4} {k : Ctx} (htile : findTile s t = some x)
    (hprog : x.prog = some p) (hfirst : x.ctxs.findIdx? (·.st = .running) = some c.toNat) (hctx : x.ctxs[c.toNat]? = some k)
    (hnext : p.skip k.pc < p.bundles) (n : Nat) :
    progEnd t (n + 1) s = if p.skip k.pc = k.pc then s else updCtx t c (fun j => { j with pc := p.skip k.pc }) s := by
  simp [progEnd, htile, hprog, hfirst, hctx, Nat.not_le.mpr hnext]

theorem progEnd_of_none_running {s : State} {t : BitVec 10} {x : Tile} (htile : findTile s t = some x)
    (hnone : x.ctxs.any (·.st = .running) = false) (n : Nat) : progEnd t n s = s := by
  have hfirst : x.ctxs.findIdx? (·.st = .running) = none := by
    rw [List.findIdx?_eq_none_iff]
    simpa using hnone
  cases n <;> simp [progEnd, htile, hfirst]

theorem findIdx?_running {x : Tile} {i : Nat} {k : Ctx} (hctx : x.ctxs[i]? = some k) (hrun : k.st = .running)
    (hother : ∀ j m, x.ctxs[j]? = some m → m.st = .running → j = i) : x.ctxs.findIdx? (·.st = .running) = some i := by
  obtain ⟨hi, hk⟩ := List.getElem?_eq_some_iff.mp hctx
  refine List.findIdx?_eq_some_iff_getElem.mpr ⟨hi, by simp [hk, hrun], fun j hj hrunning => ?_⟩
  have hji := hother j _ (List.getElem?_eq_getElem (hj.trans hi)) (of_decide_eq_true hrunning)
  omega

/-- A bundle's end writes its results and moves the program counter, and clears what the bundle had gathered. -/
theorem endBundle_only (k : Ctx) : ∃ v, k.endBundle = { k with
    s := (k.ws.foldl (fun k w => k.setS w.1 w.2) k).s, v := v, bpc := k.pc, pc := k.jump.getD (k.pc + 1), jump := none, mid := false,
    ws := [], wv := [], bundle := [], turn := false, ends := none } := by
  have hs : k.ws.foldl (fun k w => k.setS w.1 w.2) k = { k with s := (k.ws.foldl (fun k w => k.setS w.1 w.2) k).s } :=
    List.foldlRecOn (motive := fun j : Ctx => j = { k with s := j.s }) _ _ rfl fun j hj w _ => by
      unfold Ctx.setS
      split
      · exact hj
      · rw [hj]
  have hv (j : Ctx) (l : List (BitVec 5 × List (BitVec 32))) :
      l.foldl (fun k w => k.setV w.1 w.2) j = { j with v := (l.foldl (fun k w => k.setV w.1 w.2) j).v } :=
    List.foldlRecOn (motive := fun i : Ctx => i = { j with v := i.v }) _ _ rfl fun i hi w _ => by rw [hi]; rfl
  refine ⟨(k.wv.foldl (fun k w => k.setV w.1 w.2) (k.ws.foldl (fun k w => k.setS w.1 w.2) k)).v, ?_⟩
  unfold Ctx.endBundle
  simp only
  rw [hv, hs]

/-- A context whose bundle ends goes on in the same tile, at the next bundle that holds an operation. -/
theorem endIssue_goes {a : At} {s : State} {x : Tile} {p : Prog} {k : Ctx} (htile : findTile s a.tile = some x)
    (hprog : x.prog = some p) (hctx : x.ctxs[a.ctx.toNat]? = some k)
    (hother : ∀ j m, x.ctxs[j]? = some m → m.st = .running → j = a.ctx.toNat)
    (hsched : ∀ n, (closedTile a.ctx.toNat (stateAfter k) n x).sched a.ctx.toNat = closedTile a.ctx.toNat .running n x)
    (hnext : p.skip (k.jump.getD (k.pc + 1)) < p.bundles) :
    ∃ y, Inside a s (endIssue a s) x y ∧ (endIssue a s).freeIdx = s.freeIdx + 1 ∧
      y.ctxs[a.ctx.toNat]? = some { k.endBundle with st := .running, pc := p.skip (k.jump.getD (k.pc + 1)) } := by
  obtain ⟨v, hend⟩ := endBundle_only k
  have hpc : k.endBundle.pc = k.jump.getD (k.pc + 1) := by rw [hend]
  obtain ⟨t, n, ht, hin, hfree⟩ := inside_endBundle htile hsched
  have hclosed := ctx_closedTile hctx .running n
  have hfirst : (closedTile a.ctx.toNat .running n x).ctxs.findIdx? (·.st = .running) = some a.ctx.toNat := by
    refine findIdx?_running hclosed rfl fun j m hm hrun => ?_
    by_contra hj
    exact hj (hother j m ((getElem?_updAt_ne x.ctxs hj _).symm.trans hm) hrun)
  have hprogEnd := progEnd_of_next hin.tile hprog hfirst hclosed (by simpa only [hpc] using hnext) 16
  simp only [hpc] at hprogEnd
  rw [endIssue_of_findCtx ((findCtx_of_findTile htile).trans hctx), ht, hprogEnd]
  split
  next hskip =>
    refine ⟨_, hin, hfree, ?_⟩
    rw [hclosed, hskip, ← hpc]
  next =>
    refine ⟨_, hin.trans (inside_updCtx hin.tile _), hfree, ?_⟩
    exact ctx_onCtx hclosed _

/-! ### Operations that stay inside their tile (R170, R177, R181) -/

/-- Between `s` and `t` only tile `a.tile` and the count of free values change, and of the tile's contexts beside `a.ctx` those
that wait for an access at most. -/
def OnlyTile (a : At) (s t : State) : Prop :=
  t = { s with tiles := t.tiles, freeIdx := t.freeIdx } ∧ (∀ u, u ≠ a.tile → findTile t u = findTile s u) ∧
    ∀ c m, c ≠ a.ctx → findCtx s a.tile c = some m → m.block = .none → findCtx t a.tile c = some m

theorem Inside.onlyTile {a : At} {s t : State} {x y : Tile} (h : Inside a s t x y) (htile : findTile s a.tile = some x) :
    OnlyTile a s t := by
  refine ⟨h.only, h.others, fun c m hc hm hfree => ?_⟩
  obtain ⟨g, hg, hkeeps⟩ := h.beside.ctxs c.toNat fun hnat => hc (BitVec.eq_of_toNat_eq hnat)
  rw [findCtx_of_findTile h.tile, hg, ← findCtx_of_findTile htile, hm, Option.map_some, (hkeeps m).2 hfree]

/-- The context of a bundle after an operation of it: it neither blocks nor faults, and a bundle follows. -/
structure Goes (p : Prog) (k : Ctx) : Prop where
  free : k.block = .none
  ends : k.ends = none ∨ k.ends = some .idle
  next : p.skip (k.jump.getD (k.pc + 1)) < p.bundles

/-- An operation has changed its tile only, and its context is `k` now. -/
def Reaches (a : At) (s : State) (x : Tile) (u : State) (k : Ctx) : Prop :=
  ∃ y, Inside a s u x y ∧ y.ctxs[a.ctx.toNat]? = some k

theorem onlyTile_endIssue {a : At} {s u : State} {x : Tile} {p : Prog} {k : Ctx} (htile : findTile s a.tile = some x)
    (hprog : x.prog = some p) (halone : Alone a.ctx.toNat x) (hreach : Reaches a s x u k) (hgoes : Goes p k) :
    OnlyTile a s (endIssue a u) := by
  obtain ⟨y, hin, hctx⟩ := hreach
  have hothers := halone.of_beside hin.beside
  have hclosed (st : CtxSt) (n : BitVec 32) : Alone a.ctx.toNat (closedTile a.ctx.toNat st n y) :=
    hothers.of_beside (beside_closedTile _ _ _ _)
  rcases hgoes.ends with hends | hends
  · have hsched (n : BitVec 32) : (closedTile a.ctx.toNat (stateAfter k) n y).sched a.ctx.toNat =
        closedTile a.ctx.toNat .running n y := by
      cases hturn : k.turn with
      | false =>
        have hst : stateAfter k = .running := by simp [stateAfter, hends, hgoes.free, hturn]
        rw [hst, sched_of_running (ctx_closedTile hctx _ n) rfl]
      | true =>
        have hst : stateAfter k = .ready := by simp [stateAfter, hends, hgoes.free, hturn]
        rw [hst, sched_of_ready (hclosed _ n) a.ctx.isLt (ctx_closedTile hctx _ n) rfl]
        simp only [closedTile, onCtx, updAt_updAt]
    obtain ⟨z, hend, -, -⟩ := endIssue_goes hin.tile (hin.beside.prog.trans hprog) hctx
      (fun j m hm hrun => by
        by_contra hj
        exact (hothers j m hm hj).1 hrun) hsched hgoes.next
    exact (hin.trans hend).onlyTile htile
  · have hst : stateAfter k = .idle := by simp [stateAfter, hends]
    have hidle (n : BitVec 32) (m : Ctx) (hm : (closedTile a.ctx.toNat .idle n y).ctxs[a.ctx.toNat]? = some m) :
        m.st ≠ .running ∧ m.st ≠ .ready := by
      rw [← Option.some.inj ((ctx_closedTile hctx .idle n).symm.trans hm)]
      exact ⟨nofun, nofun⟩
    obtain ⟨t, n, ht, hend, -⟩ := inside_endBundle (st := .idle) hin.tile fun n => sched_of_none_ready (hclosed _ n) (hidle n) _
    rw [endIssue_of_findCtx ((findCtx_of_findTile hin.tile).trans hctx), hst, ht, progEnd_of_none_running hend.tile
      (none_running_of_alone (hclosed _ n) fun m hm => (hidle n m hm).1)]
    exact (hin.trans hend).onlyTile htile

/-- What an operation makes of the state stays inside its tile: its bundle is held, or its context goes on. -/
def StaysIn (a : At) (s : State) (x : Tile) (p : Prog) (r : SlotRes) : Prop :=
  r = .held ∨ ∃ u k, r = .done u ∧ Reaches a s x u k ∧ Goes p k

theorem onlyTile_exec {z y : BSlot} {a : At} {s t : State} {x : Tile} {p : Prog} {k : Ctx} {i : Instr} {f : SlotFn}
    (h : Lone z a s x p k) (hgoes : GoesOn a x p k (k.pc + 1)) (hslot : slotFn i = some (y, a, f))
    (hstays : StaysIn a s x p (f (tileInSlot a x) p { k with mid := true } (inSlot a s))) (hexec : exec i s = .next t) :
    OnlyTile a s t := by
  by_cases hyz : y = z
  · subst hyz
    rcases hstays with hheld | ⟨u, j, hdone, hreach, hj⟩
    · obtain rfl := Host.Outcome.next.inj ((exec_of_held h hslot hheld).symm.trans hexec)
      exact (inside_updTile (f := fun x => { x with stall := bumpSat x.stall 1 }) h.runs.tile (fun _ => rfl)
        (beside_of_ctxs rfl fun _ _ => rfl) s.freeIdx).onlyTile h.runs.tile
    · obtain rfl := Host.Outcome.next.inj ((exec_of_done h hslot hdone).symm.trans hexec)
      exact onlyTile_endIssue h.runs.tile h.runs.prog hgoes.alone hreach hj
  · obtain rfl := Host.Outcome.next.inj ((exec_of_other_slot h hslot hyz).symm.trans hexec)
    exact ⟨rfl, fun _ _ => rfl, fun _ _ _ hm _ => hm⟩

/-! ### What the operations of the frame change -/

theorem reaches_inSlot {z : BSlot} {a : At} {s : State} {x : Tile} {p : Prog} {k : Ctx} (h : Lone z a s x p k) :
    Reaches a s x (inSlot a s) { k with mid := true } :=
  ⟨_, inside_updCtx h.runs.tile _, ctx_onCtx h.runs.ctx _⟩

theorem acquire_cases (x : Tile) (base len : Nat) : x.acquire base len = x ∨ ∃ lo hi, x.acquire base len = forgetTile lo hi x := by
  unfold Tile.acquire
  split
  · exact .inl rfl
  · split
    · exact .inr ⟨0, 0 + 2 ^ 65, rfl⟩
    · exact .inr ⟨base, base + len, rfl⟩

theorem acquire_keeps (x : Tile) (base len : Nat) : (x.acquire base len).id = x.id ∧ (x.acquire base len).prog = x.prog := by
  rcases acquire_cases x base len with h | ⟨lo, hi, h⟩ <;> rw [h] <;> exact ⟨rfl, rfl⟩

theorem stopFill_keeps (lo hi : Nat) (m : Ctx) : (stopFill lo hi m).st = m.st ∧ (m.block = .none → stopFill lo hi m = m) := by
  unfold stopFill
  split
  next hblock => exact ⟨by split <;> rfl, fun hnone => by simp [hblock] at hnone⟩
  next => exact ⟨rfl, fun _ => rfl⟩

theorem ctxs_acquire (x : Tile) (base len : Nat) : ∃ g : Ctx → Ctx, (x.acquire base len).ctxs = x.ctxs.map g ∧
    ∀ m, (g m).st = m.st ∧ (m.block = .none → g m = m) := by
  rcases acquire_cases x base len with h | ⟨lo, hi, h⟩
  · exact ⟨id, by rw [h, List.map_id], fun _ => ⟨rfl, fun _ => rfl⟩⟩
  · exact ⟨stopFill lo hi, by rw [h]; rfl, stopFill_keeps lo hi⟩

section Reaches
variable {a : At} {s u : State} {x : Tile} {k : Ctx} (h : Reaches a s x u k)
include h

theorem Reaches.updCtx (f : Ctx → Ctx) : Reaches a s x (updCtx a.tile a.ctx f u) (f k) := by
  obtain ⟨y, hin, hctx⟩ := h
  exact ⟨_, hin.trans (inside_updCtx hin.tile f), ctx_onCtx hctx f⟩

theorem Reaches.updTile {f : Tile → Tile} (hid : ∀ y, (f y).id = y.id) (hprog : ∀ y, (f y).prog = y.prog)
    (hctxs : ∀ y, (f y).ctxs = y.ctxs) (n : Nat) : Reaches a s x { updTile a.tile f u with freeIdx := n } k := by
  obtain ⟨y, hin, hctx⟩ := h
  exact ⟨_, hin.trans (inside_updTile hin.tile hid (beside_of_ctxs (hprog y) fun _ _ => by rw [hctxs]) n), by rw [hctxs, hctx]⟩

/-- The cycles that an access loses to a bank are counted in its tile. -/
theorem Reaches.bankMeets (off n : Nat) : Reaches a s x (bankMeets a.tile off n u) k := by
  rcases bankMeets_cases a.tile off n u with hmeets | hmeets
  · rw [hmeets]
    exact h.updTile (f := fun x => { x with bank := bumpSat x.bank ((takeFree u).1.toNat % 2 ^ 16) }) (fun _ => rfl)
      (fun _ => rfl) (fun _ => rfl) (u.freeIdx + 1)
  · rwa [hmeets]

/-- An acquire leaves a context that waits for nothing as it is. -/
theorem Reaches.acquire (hfree : k.block = .none) (base len : Nat) :
    Reaches a s x (Machine.updTile a.tile (fun x => x.acquire base len) u) k := by
  obtain ⟨y, hin, hctx⟩ := h
  obtain ⟨g, hg, hkeeps⟩ := ctxs_acquire y base len
  refine ⟨_, hin.trans (inside_updTile (f := fun x => x.acquire base len) hin.tile (fun y => (acquire_keeps y base len).1)
    ⟨(acquire_keeps y base len).2, fun j _ => ⟨g, by rw [hg, List.getElem?_map], hkeeps⟩⟩ u.freeIdx), ?_⟩
  rw [hg, List.getElem?_map, hctx, Option.map_some, (hkeeps k).2 hfree]

end Reaches

theorem goes_inSlot {a : At} {x : Tile} {p : Prog} {k : Ctx} (h : GoesOn a x p k (k.pc + 1)) : Goes p { k with mid := true } := by
  obtain ⟨hjump, hblock, hends, -⟩ := h.stays
  exact ⟨hblock, .inl hends, by simpa [hjump] using h.next⟩

/-- A result that waits for the end of the bundle changes nothing in where its context goes. -/
theorem Goes.putS {p : Prog} {k : Ctx} (h : Goes p k) (r : BitVec 5) (v : Word) : Goes p (k.putS r v) := by
  unfold Ctx.putS Ctx.setS
  split
  · exact ⟨h.free, h.ends, h.next⟩
  · split <;> exact ⟨h.free, h.ends, h.next⟩

section StaysIn
variable {a : At} {s u : State} {x : Tile} {p : Prog} {k : Ctx} (hreach : Reaches a s x u k) (hgoes : Goes p k)
include hreach hgoes

theorem staysIn_putReg (r : BitVec 5) (v : Word) : StaysIn a s x p (.done (putReg a.tile a.ctx r v u)) :=
  .inr ⟨_, _, rfl, hreach.updCtx _, hgoes.putS r v⟩

/-- A branch goes to a bundle of its program, taken or not (R168). -/
theorem staysIn_setJump {target : BitVec 14} (hnext : p.skip target.toNat < p.bundles) (taken : Bool) :
    StaysIn a s x p (.done (if taken then setJump a target u else u)) := by
  cases taken with
  | true => exact .inr ⟨_, _, rfl, hreach.updCtx _, ⟨hgoes.free, hgoes.ends, hnext⟩⟩
  | false => exact .inr ⟨_, _, rfl, hreach, hgoes⟩

end StaysIn

/-- Settles O20: each of these operations makes at most two changes of its own tile, and the end of its bundle, which another
bundle or a halt follows, closes the bundle there; no other context of the tile is ready to take the turn. -/
theorem tileLocalFrame : Obligations.TileLocalFrame := by
  intro a s t i z x p k h hgoes hclean hform hexec
  have hreach := reaches_inSlot h
  have hg := goes_inSlot hgoes
  have hpannier (addr : AddrOp) (size : BitVec 2) (hin : (k.addr addr).toNat + 2 ^ size.toNat ≤ 4194304) :
      Pannier a s k addr (opSize size) 1 := ⟨hin, Nat.mod_one _, hclean⟩
  have hmeets (addr : AddrOp) (n : Nat) : Reaches a s x (inPannier a k addr n s) { k with mid := true } := hreach.bankMeets _ n
  rcases hform with ⟨sd, rfl⟩ | ⟨code, sd, sa, sb, rfl⟩ | ⟨code, sa, target, rfl, hnext⟩ | ⟨code, sa, target, rfl, hnext⟩ | rfl | rfl |
    ⟨size, sd, addr, rfl, hin⟩ | ⟨size, ss, addr, rfl, hin⟩ | ⟨sa, sb, rfl⟩ | ⟨q, rfl, hown⟩ <;>
    refine onlyTile_exec h hgoes rfl ?_ hexec
  · exact staysIn_putReg hreach hg _ _
  · exact staysIn_putReg hreach hg _ _
  · exact staysIn_setJump hreach hg hnext _
  · exact staysIn_setJump (hreach.updCtx fun j => { j with loop := (Config.loopStep code (k.getS sa) k.loop).1 })
      ⟨hg.free, hg.ends, hg.next⟩ hnext _
  · exact .inr ⟨_, _, rfl, hreach.updCtx _, ⟨hg.free, hg.ends, hg.next⟩⟩
  · obtain ⟨-, -, hends, -⟩ := hgoes.stays
    have hidle : k.ends.getD .idle = .idle := by rw [hends, Option.getD_none]
    exact .inr ⟨_, _, rfl, (hreach.updCtx _).updCtx _, ⟨hg.free, .inr (congrArg some hidle), hg.next⟩⟩
  · rw [ldPSlot, pannierOp_of_pannier (hpannier addr _ hin)]
    exact staysIn_putReg (hmeets addr _) hg _ _
  · rw [stPSlot, pannierOp_of_pannier (hpannier addr _ hin)]
    exact .inr ⟨_, _, rfl, (hmeets addr _).updTile (f := pannierWrite _ _) (fun _ => rfl) (fun _ => rfl) (fun _ => rfl)
      (inPannier a k addr _ s).freeIdx, hg⟩
  · exact .inr ⟨_, _, rfl, hreach.acquire hg.free _ _, hg⟩
  · rw [accClrSlot, accOp_of_owned hown]
    split
    · exact .inl rfl
    · exact .inr ⟨_, _, rfl, hreach.updTile (f := accPut q.toNat (List.replicate 1024 0)) (fun _ => rfl) (fun _ => rfl)
        (fun _ => rfl) (inSlot a s).freeIdx, hg⟩

/-! ### Scalar and control operations (R162, R168, R170) -/

/-- The end of a bundle does not ask whether the turn ended or what state was to follow: `endIssue` has taken that already. -/
theorem endBundle_ends (k : Ctx) (turn : Bool) (ends : Option CtxSt) :
    ({ k with turn := turn, ends := ends } : Ctx).endBundle = k.endBundle := by
  have hs : k.ws.foldl (fun k w => k.setS w.1 w.2) { k with turn := turn, ends := ends } =
      { k.ws.foldl (fun k w => k.setS w.1 w.2) k with turn := turn, ends := ends } :=
    List.foldl_hom (fun j : Ctx => { j with turn := turn, ends := ends }) fun j w => by
      unfold Ctx.setS
      split <;> rfl
  have hv (j : Ctx) (l : List (BitVec 5 × List (BitVec 32))) :
      l.foldl (fun k w => k.setV w.1 w.2) { j with turn := turn, ends := ends } =
        { l.foldl (fun k w => k.setV w.1 w.2) j with turn := turn, ends := ends } :=
    List.foldl_hom (fun j : Ctx => { j with turn := turn, ends := ends }) fun _ _ => rfl
  simp only [Ctx.endBundle, hs, hv]

theorem stallCycles_updCtx (t : BitVec 10) (c : BitVec 4) (f : Ctx → Ctx) (s : State) :
    stallCycles t (updCtx t c f s) = updCtx t c f (stallCycles t s) := by
  have htake : (takeFree (updCtx t c f s)).2 = updTile t (onCtx c.toNat f) (takeFree s).2 := rfl
  rw [stallCycles_eq_updTile, htake, updTile_updTile t (by exact fun _ => rfl), stallCycles_eq_updTile,
    updCtx_eq_updTile t c f (updTile _ _ _), updTile_updTile t (by exact fun _ => rfl)]
  rfl

/-- Two changes of a context that leave it alike, and alike when its bundle has ended, end its bundle alike. -/
theorem endIssue_updCtx_congr {a : At} {s : State} {k : Ctx} {f g : Ctx → Ctx} (h : findCtx s a.tile a.ctx = some k)
    (hk : f k = g k) (hend : ∀ j, (f j).endBundle = (g j).endBundle) :
    endIssue a (updCtx a.tile a.ctx f s) = endIssue a (updCtx a.tile a.ctx g s) := by
  have hcomp : Ctx.endBundle ∘ f = Ctx.endBundle ∘ g := funext hend
  rw [endIssue_of_findCtx (findCtx_updCtx f h), endIssue_of_findCtx (findCtx_updCtx g h), hk, stallCycles_updCtx, stallCycles_updCtx,
    updCtx_updCtx, updCtx_updCtx, hcomp]

theorem scalarAndControlComplete : ScalarAndControlComplete := by
  intro a s x p k
  refine ⟨fun h code sd sa sb => exec_of_done h rfl rfl, fun h => ⟨fun code sa target => ?branch, fun code sa target => ?loop,
    exec_of_done h rfl rfl, fun hends => ?halt, fun sd => exec_of_done h rfl rfl⟩⟩
  case branch => exact exec_of_done h rfl rfl
  case loop => exact exec_of_done h rfl rfl
  case halt =>
    refine (exec_of_done (i := .halt a) h rfl rfl).trans (congrArg _ ?_)
    have hctx : findCtx (inSlot a s) a.tile a.ctx = some { k with mid := true } :=
      findCtx_updCtx _ ((findCtx_of_findTile h.runs.tile).trans h.runs.ctx)
    rw [endTurn, updCtx_updCtx]
    exact endIssue_updCtx_congr hctx (by simp [Function.comp, hends]) fun j => (endBundle_ends j _ _).trans (endBundle_ends j _ _).symm

theorem scalarRegisterFile : ScalarRegisterFile := by
  intro k r q v hlen
  refine ⟨rfl, rfl, fun hr => ?_, fun hqr => ?_⟩
  · have hin : r.toNat < k.s.length := by rw [hlen]; exact r.isLt
    rw [Ctx.setS, if_neg hr, Ctx.getS, if_neg hr]
    simp [getElem?_updAt, hin]
  · by_cases hr : r = 0
    · rw [Ctx.setS, if_pos hr]
    · have hne : q.toNat ≠ r.toNat := fun h => hqr (BitVec.eq_of_toNat_eq h)
      rw [Ctx.setS, if_neg hr, Ctx.getS, Ctx.getS, List.getD_eq_getElem?_getD, getElem?_updAt_ne _ hne,
        List.getD_eq_getElem?_getD]

/-- R168, R170: a bundle that another one follows ends inside its tile. `BundleEndMovesPc` says this too, and it holds; what fails
there is its clause on every bundle end (`not_scalarComplete`). -/
theorem bundleEnd_movesPc {a : At} {s : State} {x : Tile} {p : Prog} {k : Ctx} (htile : findTile s a.tile = some x)
    (hprog : x.prog = some p) (hctx : x.ctxs[a.ctx.toNat]? = some k) (hends : k.ends = none) (hfree : k.block = .none)
    (hturn : k.turn = false) (hnext : p.skip (k.jump.getD (k.pc + 1)) < p.bundles)
    (hother : ∀ j m, x.ctxs[j]? = some m → m.st = .running → j = a.ctx.toNat) :
    ∃ m, findCtx (endIssue a s) a.tile a.ctx = some m ∧ m.pc = p.skip (k.jump.getD (k.pc + 1)) ∧ m.st = .running ∧
      m.mid = false ∧ m.ws = [] ∧ m.bundle = [] ∧ m.s = (k.ws.foldl (fun k w => k.setS w.1 w.2) k).s ∧
      endIssue a s = { s with tiles := (endIssue a s).tiles, freeIdx := s.freeIdx + 1 } := by
  have hst : stateAfter k = .running := by simp [stateAfter, hends, hfree, hturn]
  obtain ⟨y, hin, hcount, hlast⟩ := endIssue_goes htile hprog hctx hother
    (fun n => by rw [hst, sched_of_running (ctx_closedTile hctx _ n) rfl]) hnext
  obtain ⟨v, hend⟩ := endBundle_only k
  refine ⟨_, (findCtx_of_findTile hin.tile).trans hlast, rfl, rfl, ?_, ?_, ?_, ?_, hcount ▸ hin.only⟩ <;> rw [hend]

theorem onCtx_congr {i : Nat} {x : Tile} {k : Ctx} {f g : Ctx → Ctx} (hctx : x.ctxs[i]? = some k) (hk : f k = g k) :
    onCtx i f x = onCtx i g x := by
  have hctxs : updAt x.ctxs i f = updAt x.ctxs i g := by
    refine List.ext_getElem? fun j => ?_
    by_cases hj : j = i
    · rw [hj, getElem?_updAt, getElem?_updAt, hctx, Option.map_some, hk, Option.map_some]
    · rw [getElem?_updAt_ne _ hj, getElem?_updAt_ne _ hj]
  rw [onCtx, hctxs, onCtx]

theorem updCtx_congr_of_one {t : BitVec 10} {c : BitVec 4} {s : State} {x : Tile} {k : Ctx} {f g : Ctx → Ctx}
    (hctx : x.ctxs[c.toNat]? = some k) (hone : ∀ y ∈ s.tiles, y.id = t → y = x) (hk : f k = g k) :
    updCtx t c f s = updCtx t c g s := by
  have htiles : updIf s.tiles (·.id = t) (onCtx c.toNat f) = updIf s.tiles (·.id = t) (onCtx c.toNat g) := by
    refine List.map_congr_left fun y hy => ?_
    by_cases hid : y.id = t
    · rw [hone y hy hid, onCtx_congr hctx hk]
    · simp [hid]
  rw [updCtx_eq_updTile, updTile, htiles, updCtx_eq_updTile, updTile]

/-- R168, R170, R171: how a bundle of several operations issues, in a state with one tile of the number. (`BundlesIssueWhole` asks
it of any list of tiles, where an operation that waits is put into every tile of that number.) -/
theorem bundle_issues_whole {i : Instr} {z : BSlot} {f : SlotFn} {a : At} {s : State} {x : Tile} {p : Prog} {k : Ctx}
    (hslot : slotFn i = some (z, a, f)) (h : Runs a s x p k) (hskip : p.skip k.pc = k.pc)
    (hone : ∀ y ∈ s.tiles, y.id = a.tile → y = x) :
    (z ∉ p.slots k.pc ∨ (slotOp k.bundle z).isSome = true → exec i s = .next s) ∧
    (z ∈ p.slots k.pc → slotOp k.bundle z = none →
      ((∃ y ∈ p.slots k.pc, slotOp (k.bundle ++ [i]) y = none) → exec i s = .next
        (updCtx a.tile a.ctx (fun k => { k with bundle := k.bundle ++ [i] }) s)) ∧
      ((∀ y ∈ p.slots k.pc, (slotOp (k.bundle ++ [i]) y).isSome = true) →
        exec i s = .next (afterBundle a k s (issueOps a (BSlot.all.filterMap (slotOp (k.bundle ++ [i]))) (inSlot a s))))) := by
  rw [exec_of_slotFn hslot]
  refine ⟨fun hnone => congrArg _ (issue_of_none_of_it h hskip hslot hnone), fun hmem hfree => ⟨fun hwaits => congrArg _ ?_,
    fun hwhole => congrArg _ (issue_of_whole h hskip hslot hmem hfree hwhole)⟩⟩
  rw [issue_of_waits h hskip hslot hmem hfree hwaits]
  exact updCtx_congr_of_one h.ctx hone rfl

/-- A context at the last bundle of its program ends it with a fault, whose event the store takes (R171, R196, R318). -/
theorem endIssue_lastBundle_store : memGet (endIssue lastAt lastBundle).store.mem 0x2000 = 2 := by decide +kernel

/-- Refutes O17: `BundleEndMovesPc` has no bundle end change the store, but behind the last bundle of a program its context faults
(R171), and that fault posts an event record, whose bytes are in the store at once (R196, R318). -/
theorem not_scalarComplete : ¬ Obligations.ScalarComplete := by
  rintro ⟨-, -, -, hend, -⟩
  have hbyte := endIssue_lastBundle_store
  rw [hend lastAt lastBundle] at hbyte
  exact absurd hbyte (by decide)

/-! ### Streams (R169, R174 to R176, R178) -/

theorem closedTo_bankMeets (t : BitVec 10) (off len : Nat) (s : State) (r : BitVec 6) :
    closedTo (bankMeets t off len s) r = closedTo s r := by
  rcases bankMeets_cases t off len s with h | h
  · rw [h]
    rfl
  · rw [h]

theorem riderHasSync_bankMeets (t : BitVec 10) (off len : Nat) (s : State) (r : BitVec 6) (obj : Nat) :
    riderHasSync (bankMeets t off len s) r obj = riderHasSync s r obj := by
  rcases bankMeets_cases t off len s with h | h
  · rw [h]
    rfl
  · rw [h]

/-- A stream starts from the descriptor that its context's register names (R174). -/
theorem startStream_of_descriptor {t : BitVec 10} {c : BitVec 4} {s : State} {x : Tile} {p : Prog} {n : BitVec 5} {desc : Word}
    {z : Stream} (htile : findTile s t = some x) (hprog : x.prog = some p) (halign : desc.toNat % 32 = 0)
    (hin : desc.toNat + 32 ≤ 4194304) (hclean : injMode s 0x01 (unitTile t) = none)
    (hdesc : parseStream n c (memReadN x.pannier desc.toNat 32) = some z)
    (hsync : bit z.doneSync 15 = true → riderHasSync s p.rider (bits z.doneSync 0 14) = true) (pc : Nat) :
    startStream t c pc n desc s = updTile t (fun x =>
        { x with streams := dropIf x.streams (·.n = n) ++ [{ z with late := closedTo s p.rider }] })
      (bankMeets t desc.toNat 32 s) := by
  have hform : (decide (desc.toNat % 32 ≠ 0) || decide (pannierSize < desc.toNat + 32)) = false := by
    simp [halign, pannierSize, Nat.not_lt.mpr hin]
  have hecc : pannierEcc t (bankMeets t desc.toNat 32 s) = (false, bankMeets t desc.toNat 32 s) :=
    pannierEcc_of_clean ((injMode_congr (err_bankMeets _ _ _ _) _ _).trans hclean)
  have hright : (bit z.doneSync 15 && !riderHasSync s p.rider (bits z.doneSync 0 14)) = false := by
    cases hbit : bit z.doneSync 15 with
    | false => rfl
    | true => simp [hsync hbit]
  simp only [startStream, htile, hprog, hform, hecc, hdesc, riderHasSync_bankMeets, hright, closedTo_bankMeets, Bool.false_eq_true,
    if_false]

/-- A stream that the program has takes the operations of its slot (R171). -/
theorem streamOp_of_lt {n : BitVec 5} {p : Prog} (h : n.toNat < p.streams) (f : Tile → Ctx → State → State) (x : Tile) (k : Ctx)
    (s : State) : streamOp n f x p k s = .done (f x k s) := if_neg (Nat.not_le.mpr h)

/-- A beat from this module's store into the pannier (R174, R175). -/
theorem beat_of_reads {t : BitVec 10} {s : State} {r : BitVec 6} {z : Stream} {opa : Word} {o : Nat} (x : Tile)
    (hlate : z.late = false) (hin : z.toStore = false) (hhits : Hits s (.stream t z.n) r (z.beatVa z.next) z.toStore opa)
    (htarget : target s opa = .off o) (hreads : Reads s (rqStream t z r) o 64) :
    beat t z r x none s =
      nextBeat t z (updTile t (pannierBeat z.n (z.beatPannier z.next) o (held s o 64)) (meterRd r 64 s)) := by
  rw [hin] at hhits
  have hread := homeRead_of_reads hreads
  simp only [beat, hlate, hin, clientXlat_of_hits hhits, htarget, hread, Bool.false_and, Bool.false_eq_true, if_false]
  rfl

/-- A beat from the pannier into this module's store. -/
theorem beat_of_writes {t : BitVec 10} {s : State} {r : BitVec 6} {z : Stream} {opa : Word} {o f : Nat} {fr : Frame} {e : Extent}
    {x : Tile} (hlate : z.late = false) (hout : z.toStore = true) (hsent : z.sent = false)
    (hhits : Hits s (.stream t z.n) r (z.beatVa z.next) z.toStore opa) (htarget : target s opa = .off o)
    (hwrites : Writes s (rqStream t z r) o f fr (memReadN x.pannier (z.beatPannier z.next) 64) e) :
    beat t z r x none s =
      nextBeat t z (written (rqStream t z r) o f (memReadN x.pannier (z.beatPannier z.next) 64) s) := by
  rw [hout] at hhits
  have hecc := pannierEcc_of_clean (t := t) (injMode_of_no_inj hwrites.quiet.clean.1 _ _)
  have hwrite := homeWrite_of_writes hwrites
  simp only [beat, hlate, hout, hsent, clientXlat_of_hits hhits, htarget, hecc, hwrite, Bool.not_false, Bool.and_true,
    Bool.false_eq_true, if_false, if_true]

/-- Settles O23: a stream operation asks only whether the stream runs, and a start reads its descriptor by one access of the
pannier; a beat is one access at its home on this module. -/
theorem streamsComplete : Obligations.StreamsComplete := by
  refine ⟨?slot, ?beats⟩
  case slot =>
    intro a s x p k n h hn
    have hexec {i : Instr} {f : Tile → Ctx → State → State} {t : State} (hslot : slotFn i = some (.stream, a, streamOp n f))
        (hres : f (tileInSlot a x) { k with mid := true } (inSlot a s) = t) : exec i s = .next (endIssue a t) :=
      exec_of_done h hslot ((streamOp_of_lt hn f _ _ _).trans (congrArg _ hres))
    have hrests (hidle : streamRunning x n = false) : ¬ streamRunning (tileInSlot a x) n = true := Bool.not_eq_true _ ▸ hidle
    refine ⟨fun ss z hidle halign hin hclean hdesc hsync => ?start, fun ss hruns => hexec rfl (if_pos hruns),
      fun hidle => ⟨hexec rfl (if_neg (hrests hidle)), hexec rfl (if_neg (hrests hidle))⟩,
      fun hruns => ⟨hexec rfl (if_pos hruns), hexec rfl (if_pos hruns)⟩⟩
    exact hexec rfl ((if_neg (hrests hidle)).trans
      (startStream_of_descriptor (findTile_updCtx _ h.runs.tile) h.runs.prog halign hin hclean hdesc hsync k.pc))
  case beats =>
    rintro t n s x r z opa o hup htile hrider hstream rfl hruns hlate hhits htarget
    have hexec : exec (.streamBeatCompletion t z.n none) s = .next (beat t z r x none s) := by
      refine congrArg _ ((whenUp_of_running hup _).trans ?_)
      simp only [htile, hrider, hstream, hruns, if_true]
    exact ⟨fun hin hreads => hexec.trans (congrArg _ (beat_of_reads x hlate hin hhits htarget hreads)),
      fun f fr e hout hsent hwrites => hexec.trans (congrArg _ (beat_of_writes hlate hout hsent hhits htarget hwrites))⟩

/-! ### Reading a range of this module (R13, R66) -/

/-- The byte that the store holds at an offset. -/
def heldByte (s : State) (off : Nat) : Byte :=
  match pageLoc s.store (pageOf off) (granuleOf off) with
  | .frame f => memGet s.store.mem (f * 65536 + off % 65536)
  | _ => 0

/-- The bytes of a line come one by one: a line lies in one granule of one page. -/
theorem held_eq_map {off n : Nat} (s : State) (h : off % 64 + n ≤ 64) : held s off n = (seqFrom off n).map (heldByte s) := by
  have hplace (i : Nat) (hi : i < n) : pageOf (off + i) = pageOf off ∧ granuleOf (off + i) = granuleOf off ∧
      (off + i) % 65536 = off % 65536 + i := by
    simp only [pageOf, granuleOf]
    omega
  unfold held
  cases hloc : pageLoc s.store (pageOf off) (granuleOf off) with
  | frame f =>
    simp only [memReadN, seqFrom, List.map_map]
    refine List.map_congr_left fun i hi => ?_
    obtain ⟨hpage, hgranule, hbyte⟩ := hplace i (List.mem_range.mp hi)
    simp only [Function.comp_apply, heldByte, hpage, hgranule, hloc, hbyte, Nat.add_assoc]
  | _ =>
    refine (List.eq_replicate_iff.mpr ⟨by simp [seqFrom], fun b hb => ?_⟩).symm
    simp only [seqFrom, List.map_map, List.mem_map, List.mem_range, Function.comp_apply] at hb
    obtain ⟨i, hi, rfl⟩ := hb
    obtain ⟨hpage, hgranule, -⟩ := hplace i hi
    simp only [heldByte, hpage, hgranule, hloc]

theorem linePieces_lines (fuel a n : Nat) : ∀ p ∈ linePieces fuel a n, p.1 % 64 + p.2 ≤ 64 := by
  induction fuel generalizing a n with
  | zero => simp [linePieces]
  | succ fuel ih =>
    rw [linePieces]
    split
    · simp
    · simp only [List.forall_mem_cons]
      exact ⟨by omega, ih _ _⟩

theorem seqFrom_append (a m n : Nat) : seqFrom a m ++ seqFrom (a + m) n = seqFrom a (m + n) := by
  simp [seqFrom, List.range_add, Function.comp_def, Nat.add_assoc]

/-- The pieces of a range are its places in order. -/
theorem linePieces_covers (fuel a n : Nat) (h : n = 0 ∨ a % 64 + n ≤ 64 * fuel) :
    (linePieces fuel a n).flatMap (fun p => seqFrom p.1 p.2) = seqFrom a n := by
  induction fuel generalizing a n with
  | zero =>
    obtain rfl : n = 0 := by omega
    rfl
  | succ fuel ih =>
    rw [linePieces]
    split
    next hn =>
      subst hn
      rfl
    next hn =>
      have hrest : n - min n (64 - a % 64) = 0 ∨ (a + min n (64 - a % 64)) % 64 + (n - min n (64 - a % 64)) ≤ 64 * fuel := by
        rcases Nat.le_total n (64 - a % 64) with hle | hle
        · rw [Nat.min_eq_left hle]
          omega
        · rw [Nat.min_eq_right hle]
          omega
      rw [List.flatMap_cons, ih _ _ hrest, seqFrom_append, Nat.add_sub_cancel' (Nat.min_le_left _ _)]

theorem heldN_eq_map (s : State) (off n : Nat) : heldN s off n = (seqFrom off n).map (heldByte s) := by
  rw [← linePieces_covers (n / 64 + 2) off n (.inr (by omega)), List.map_flatMap]
  exact List.flatMap_congr fun p hp => held_eq_map s (linePieces_lines _ _ _ p hp)

theorem length_heldN (s : State) (off n : Nat) : (heldN s off n).length = n := by
  simp [heldN_eq_map, seqFrom]

theorem take_heldN (s : State) (off : Nat) {m n : Nat} (h : m ≤ n) : (heldN s off n).take m = heldN s off m := by
  rw [heldN_eq_map, heldN_eq_map, ← List.map_take, seqFrom, ← List.map_take, List.take_range, Nat.min_eq_left h, seqFrom]

/-- A range whose pieces can be read is read at once; only the meters change (R395). -/
theorem homeReadN_of_reads {s : State} {q : Rq} {off len : Nat} (h : ∀ p ∈ piecesOf off len, Reads s q p.1 p.2) :
    ∃ trip, homeReadN s q off len = (.data (heldN s off len), { s with trip := trip }) := by
  unfold homeReadN heldN
  generalize piecesOf off len = ps at h
  induction ps using List.reverseRecOn with
  | nil => exact ⟨s.trip, rfl⟩
  | append_singleton ps p ih =>
    obtain ⟨trip, hread⟩ := ih fun p hp => h p (List.mem_append_left _ hp)
    have hlast : Reads { s with trip := trip } q p.1 p.2 := reads_elsewhere s.rota trip s.fab (h p (by simp))
    refine ⟨(meterRd q.rider p.2 { s with trip := trip }).trip, ?_⟩
    rw [List.foldl_append, hread, List.foldl_cons, List.foldl_nil, List.flatMap_append, List.flatMap_singleton]
    simp only [homeRead_of_reads hlast]
    rfl

/-! ### `TILE_LOAD` (R164, R165) -/

theorem fieldB_take {b : List Byte} {off n m : Nat} (h : off + n ≤ m) : fieldB (b.take m) off n = fieldB b off n := by
  rw [fieldB, fieldB, List.drop_take, List.take_take, Nat.min_eq_left (by omega)]

theorem leNat_lt (bs : List Byte) : leNat bs < 256 ^ bs.length := by
  induction bs with
  | nil => simp [leNat]
  | cons b bs ih =>
    have hb := b.isLt
    simp only [leNat, List.length_cons, Nat.pow_succ]
    omega

theorem fieldB_lt (b : List Byte) (off n : Nat) : fieldB b off n < 256 ^ n :=
  (leNat_lt _).trans_le (Nat.pow_le_pow_right (by decide) (by simp))

/-- What the checks of an image leave of its header's fields (R165). -/
theorem fields_of_parseProg {r : BitVec 6} {b : List Byte} {pr : Prog} (h : parseProg r b = some pr) :
    fieldB b 4 2 ≤ 8192 ∧ fieldB b 6 1 ≤ 32 ∧ pr.faultSync.toNat = fieldB b 0x3C 2 := by
  unfold parseProg at h
  simp only [Option.ite_none_right_eq_some, Bool.and_eq_true, decide_eq_true_eq, Option.some.injEq] at h
  obtain ⟨⟨⟨⟨⟨⟨⟨⟨⟨-, -⟩, hbundles⟩, hconfigs⟩, -⟩, -⟩, -⟩, -⟩, -⟩, rfl⟩ := h
  exact ⟨hbundles, hconfigs, Nat.mod_eq_of_lt (fieldB_lt b 0x3C 2)⟩

/-- The start of an image lies where the image does. -/
theorem imageLive_of_le {s : State} {r : BitVec 6} {off m n : Nat} (h : imageLive s r off n = true) (hpos : 0 < m) (hle : m ≤ n) :
    imageLive s r off m = true := by
  simp only [imageLive, Bool.and_eq_true, decide_eq_true_eq, List.all_eq_true, seqFrom, List.forall_mem_map, List.mem_range,
    extentOf] at h ⊢
  have hlast : (off + m - 1) / 2 ^ 34 ≤ (off + n - 1) / 2 ^ 34 := Nat.div_le_div_right (by omega)
  exact ⟨by omega, fun i hi => h.2 i (by omega)⟩

/-- `b` is the program image that a `TILE_LOAD` names: its rider may read every byte of it, at once, and its own checks pass and
those of the tiles of the set (R164, R165). -/
structure LoadsImage (c : Cmd) (u : State) (b : List Byte) (pr : Prog) : Prop where
  set   : tileSet (c.p 0) ≠ []
  off   : (c.p 1).toNat < 2 ^ 48
  bytes : b = heldN u (c.p 1).toNat
    (64 + 16 * fieldB (heldN u (c.p 1).toNat 64) 4 2 + 128 * fieldB (heldN u (c.p 1).toNat 64) 6 1)
  live  : imageLive u c.h.r (c.p 1).toNat b.length = true
  head  : ∀ q ∈ piecesOf (c.p 1).toNat 64, Reads u (rqOf c.h.r (srcEngine 0)) q.1 q.2
  whole : ∀ q ∈ piecesOf (c.p 1).toNat b.length, Reads u (rqOf c.h.r (srcEngine 0)) q.1 q.2
  prog  : parseProg c.h.r b = some pr
  sync  : 32768 ≤ pr.faultSync.toNat → riderHasSync u c.h.r (pr.faultSync.toNat % 16384) = true
  tiles : ∀ t ∈ tileSet (c.p 0), tileFenced u t = false ∧ tileLoaded u t = false
  slots : slotsFree u c.h.r (tileSet (c.p 0)) pr.streams = true

section LoadsImage
variable {c : Cmd} {u : State} {b : List Byte} {pr : Prog} (h : LoadsImage c u b pr)
include h

theorem header_of_loadsImage : 64 ≤ b.length ∧ heldN u (c.p 1).toNat 64 = b.take 64 := by
  have hlong : 64 ≤ b.length := by
    rw [h.bytes, length_heldN]
    omega
  refine ⟨hlong, ?_⟩
  rw [h.bytes, length_heldN] at hlong
  rw [h.bytes, take_heldN u _ hlong]

/-- The header gives the image its length. -/
theorem length_of_loadsImage : b.length = 64 + 16 * fieldB b 4 2 + 128 * fieldB b 6 1 := by
  have hlen := congrArg List.length h.bytes
  rwa [length_heldN, (header_of_loadsImage h).2, fieldB_take (show 4 + 2 ≤ 64 by decide), fieldB_take (show 6 + 1 ≤ 64 by decide)]
    at hlen

/-- Its rider may use it, and the sync object of its faults (R165, check 2). -/
theorem allowed_of_loadsImage (trip : Trip) :
    (!imageLive { u with trip := trip } c.h.r (c.p 1).toNat (64 + 16 * fieldB b 4 2 + 128 * fieldB b 6 1) ||
      decide (32768 ≤ fieldB b 0x3C 2) && !riderHasSync { u with trip := trip } c.h.r (fieldB b 0x3C 2 % 16384)) = false := by
  have hlive : imageLive { u with trip := trip } c.h.r (c.p 1).toNat b.length = true := h.live
  have hsync : 32768 ≤ pr.faultSync.toNat →
      riderHasSync { u with trip := trip } c.h.r (pr.faultSync.toNat % 16384) = true := h.sync
  rw [(fields_of_parseProg h.prog).2.2] at hsync
  rw [← length_of_loadsImage h, hlive]
  by_cases hfs : 32768 ≤ fieldB b 0x3C 2
  · simp [hsync hfs]
  · simp [hfs]

theorem loadImage_of_loadsImage (trip : Trip) : loadImage (tileSet (c.p 0)) c.h.r b { u with trip := trip } =
    Eff.ok ((tileSet (c.p 0)).foldl (fun s t => loadTile pr t s) { u with trip := trip }) := by
  have hfenced : (tileSet (c.p 0)).any (tileFenced { u with trip := trip }) = false :=
    List.any_eq_false.mpr fun t ht => Bool.not_eq_true _ ▸ (h.tiles t ht).1
  have hloaded : (tileSet (c.p 0)).any (tileLoaded { u with trip := trip }) = false :=
    List.any_eq_false.mpr fun t ht => Bool.not_eq_true _ ▸ (h.tiles t ht).2
  have hslots : slotsFree { u with trip := trip } c.h.r (tileSet (c.p 0)) pr.streams = true := h.slots
  simp only [loadImage, h.prog, hfenced, hloaded, hslots, Bool.not_true, Bool.false_eq_true, if_false]

/-- The image is read, its header first, and put into every tile of the set; reading it counts in the meters alone. -/
theorem bodyTileLoad_of_loadsImage : ∃ trip, bodyTileLoad c u =
    Eff.ok ((tileSet (c.p 0)).foldl (fun s t => loadTile pr t s) { u with trip := trip }) := by
  obtain ⟨hlong, hheader⟩ := header_of_loadsImage h
  have hlen := length_of_loadsImage h
  obtain ⟨hbundles, hconfigs, -⟩ := fields_of_parseProg h.prog
  obtain ⟨trip, hread⟩ := homeReadN_of_reads h.head
  obtain ⟨trip', hread'⟩ := homeReadN_of_reads (s := { u with trip := trip }) fun q hq =>
    reads_elsewhere u.rota trip u.fab (h.whole q hq)
  have hbytes : heldN { u with trip := trip } (c.p 1).toNat b.length = b := by
    have hlen' := congrArg List.length h.bytes
    rw [length_heldN] at hlen'
    rw [hlen']
    exact h.bytes.symm
  rw [hheader] at hread
  rw [hbytes, hlen] at hread'
  have hform : ((tileSet (c.p 0)).isEmpty || decide (2 ^ 48 ≤ (c.p 1).toNat)) = false := by
    simp only [List.isEmpty_eq_false_iff.mpr h.set, Nat.not_le.mpr h.off, decide_false, Bool.or_self]
  have hsmall : (decide (8192 < fieldB b 4 2) || decide (32 < fieldB b 6 1)) = false := by
    simp [Nat.not_lt.mpr hbundles, Nat.not_lt.mpr hconfigs]
  refine ⟨trip', ?_⟩
  rw [← loadImage_of_loadsImage h]
  simp only [bodyTileLoad, hform, imageLive_of_le h.live (by decide : 0 < 64) hlong, hread,
    fieldB_take (b := b) (show 0x3C + 2 ≤ 64 by decide), fieldB_take (b := b) (show 4 + 2 ≤ 64 by decide),
    fieldB_take (b := b) (show 6 + 1 ≤ 64 by decide), allowed_of_loadsImage h, hsmall, hread', Bool.not_true, Bool.false_eq_true, if_false]

end LoadsImage

/-! ### `TILE_START` and `TILE_STOP` (R166) -/

theorem bodyTileStart_of_startable {c : Cmd} {u : State} (hset : tileSet (c.p 0) ≠ []) (hspare : bits (c.p 1) 17 47 = 0)
    (hown : tilesOf u c.h.r (tileSet (c.p 0)) = true) (hopen : Machine.closing u = false)
    (hready : ∀ t ∈ tileSet (c.p 0), ∀ k ∈ maskCtxs (BitVec.ofNat 16 (bits (c.p 1) 0 16)), startOk u (bit (c.p 1) 16) t k = true) :
    bodyTileStart c u = Eff.ok ((tileSet (c.p 0)).foldl (fun s t => progEnd t 17 s)
      ((tileSet (c.p 0)).foldl (fun s t => (maskCtxs (BitVec.ofNat 16 (bits (c.p 1) 0 16))).foldl
        (fun s k => startCtx (bit (c.p 1) 16) t k s) s) u)) := by
  have hform : ((tileSet (c.p 0)).isEmpty || decide (bits (c.p 1) 17 47 ≠ 0)) = false := by
    simp [List.isEmpty_eq_false_iff.mpr hset, hspare]
  have hall : ((tileSet (c.p 0)).all fun t => (maskCtxs (BitVec.ofNat 16 (bits (c.p 1) 0 16))).all
      (startOk u (bit (c.p 1) 16) t)) = true :=
    List.all_eq_true.mpr fun t ht => List.all_eq_true.mpr (hready t ht)
  simp only [bodyTileStart, hform, hown, hopen, hall, Bool.not_true, Bool.false_eq_true, if_false]

/-- A tile with nothing at work: every context is idle or halted, with nothing outstanding, and no stream is left. -/
def AtRest (x : Tile) : Prop :=
  x.streams = [] ∧ ∀ k ∈ x.ctxs, (k.st = .idle ∨ k.st = .halted) ∧ k.stores = [] ∧ k.sigs = [] ∧ k.block = .none

section Stop
variable {s : State} {t : BitVec 10} {x : Tile} (htile : findTile s t = some x) (hrest : AtRest x)
include htile hrest

theorem haltCtx_of_atRest (c : BitVec 4) : haltCtx t c s = s := by
  rw [haltCtx, findCtx_of_findTile htile]
  cases hctx : x.ctxs[c.toNat]? with
  | none => rfl
  | some k =>
    rcases (hrest.2 k (List.mem_of_getElem? hctx)).1 with hst | hst <;> simp only [hst]

theorem haltCtxs_of_atRest (cs : List (BitVec 4)) : cs.foldl (fun s k => haltCtx t k s) s = s :=
  List.foldlRecOn (motive := fun u => u = s) _ _ rfl fun u hu c _ => by rw [hu, haltCtx_of_atRest htile hrest]

/-- A stop of its streams leaves the tile as it is. -/
theorem stopStreams_of_atRest : ∃ f : Tile → Tile, stopStreams t s = updTile t f s ∧ findTile (updTile t f s) t = some x := by
  have hmark : { x with streams := updIf x.streams (·.running) fun z => { z with stopping := true } } = x := by
    rw [hrest.1, show updIf ([] : List Machine.Stream) (·.running) (fun z => { z with stopping := true }) = x.streams from
      hrest.1.symm]
  have hfound := findTile_updTile (f := fun x => { x with streams := updIf x.streams (·.running) fun z => { z with stopping := true } })
    (fun _ => rfl) htile
  rw [hmark] at hfound
  refine ⟨_, ?_, hfound⟩
  simp only [stopStreams, stopIdle, hfound, hrest.1, List.filter_nil, List.foldl_nil]

/-- An unload of it is done at once. -/
theorem tryStop_of_atRest {o : Open} (mask : BitVec 16) (hopen : isOpen o s = true) :
    tryStop o [t] mask true s = (complete o .ok 0 [] (unloadTile t s), none) := by
  have hquiet : ∀ k ∈ x.ctxs, k.quiet = true := by
    intro k hk
    obtain ⟨hst, hstores, hsigs, hblock⟩ := hrest.2 k hk
    rcases hst with hst | hst <;> simp [Ctx.quiet, hst, hstores, hsigs, hblock]
  have hctxs : (x.ctxs.mapIdx fun i k => !bit mask i || k.quiet).all id = true := by
    rw [List.all_eq_true]
    intro b hb
    obtain ⟨i, hi, rfl⟩ := List.mem_mapIdx.mp hb
    simp [hquiet _ (List.getElem_mem hi)]
  have hopen' : isOpen o (unloadTile t s) = true := (isOpen_congr rfl rfl o).trans hopen
  simp [tryStop, htile, hctxs, hrest.1, completeIf_of_isOpen hopen']

end Stop

theorem tileLoaded_unloadTile (t : BitVec 10) (s : State) : tileLoaded (unloadTile t s) t = false := by
  rw [tileLoaded]
  cases hfind : findTile (unloadTile t s) t with
  | none => rfl
  | some y =>
    have hid : y.id = t := by simpa using List.find?_some hfind
    obtain ⟨z, -, rfl⟩ := List.mem_map.mp (List.mem_of_find?_eq_some hfind)
    by_cases hz : z.id = t
    · simp [hz, Tile.blank]
    · simp [hz] at hid

theorem bodyTileStop_of_atRest {c : Cmd} {u : State} {t : BitVec 10} {x : Tile} (hset : tileSet (c.p 0) = [t])
    (hspare : bits (c.p 1) 17 47 = 0) (hunload : bit (c.p 1) 16 = true) (hrider : tileRider u t = some c.h.r)
    (htile : findTile u t = some x) (hrest : AtRest x) (hopen : isOpen (openOf 0x402 c) u = true) : ∃ f : Tile → Tile,
    bodyTileStop c u = Eff.later (complete (openOf 0x402 c) .ok 0 [] (unloadTile t (updTile t f u))) := by
  have hown : tilesOf u c.h.r [t] = true := by simp [tilesOf, hrider]
  obtain ⟨f, hstop, hkept⟩ := stopStreams_of_atRest htile hrest
  have htry := tryStop_of_atRest hkept hrest (o := openOf 0x402 c) 0xFFFF hopen
  refine ⟨f, ?_⟩
  simp only [bodyTileStop, hset, hspare, hunload, hown, List.isEmpty_cons, ne_eq, not_true_eq_false, decide_false, Bool.or_self,
    Bool.not_true, Bool.false_eq_true, if_false, if_true, List.foldl_cons, List.foldl_nil, haltCtxs_of_atRest htile hrest, hstop,
    htry, addJob]

/-! ### `SYNC_SET`, `SYNC_WAIT` (R305) -/

theorem bodySyncSet_of_allowed {c : Cmd} {u : State} (hspare : bits (c.p 0) 14 50 = 0)
    (hright : syncCmdRefusal u c (bits (c.p 0) 0 14) = none) :
    bodySyncSet c u = Eff.ok (syncWrite (bits (c.p 0) 0 14) (c.p 1) u) := by
  simp only [bodySyncSet, hspare, hright, ne_eq, not_true_eq_false, if_false]

/-- The condition of a wait, as its flag gives it (R193). -/
theorem cmdWait_holds_iff (c : Cmd) (v : Word) :
    (cmdWait c).holds v = true ↔ if bit (c.p 0) 16 then v = c.p 1 else (c.p 1).toNat ≤ v.toNat := by
  cases h : bit (c.p 0) 16 <;> simp [Wait.holds, cmdWait, h]

theorem bodySyncWait_of_allowed {c : Cmd} {u : State} (hlow : bits (c.p 0) 14 2 = 0) (hhigh : bits (c.p 0) 17 47 = 0)
    (hright : syncCmdRefusal u c (bits (c.p 0) 0 14) = none) : bodySyncWait c u =
      if (cmdWait c).holds (syncVal u (bits (c.p 0) 0 14)) then Eff.res .ok (syncVal u (bits (c.p 0) 0 14)) u
      else Eff.later { u with sync.waits := u.sync.waits ++ [cmdWait c] } := by
  simp only [bodySyncWait, hlow, hhigh, hright, ne_eq, not_true_eq_false, decide_false, Bool.or_self, Bool.false_eq_true, if_false]
  rfl

theorem syncWaitExpires_of_wait {s : State} {o : Open} {w : Wait} (hwho : w.who = .cmd o) (hlimit : w.limit ≠ 0)
    (hopen : isOpen o s = true) (hwaits : s.sync.waits = [w]) :
    syncWaitExpires o.h.src o.h.tag s = complete o .timeout (syncVal s w.obj.toNat) [] { s with sync.waits := [] } := by
  have hopen' : isOpen o { s with sync.waits := [] } = true := hopen
  have hlimit' : decide (w.limit ≠ 0) = true := decide_eq_true hlimit
  simp only [syncWaitExpires, hwaits, hwho, hlimit', dropIf, endWait, List.filter_cons, List.filter_nil, List.foldl_cons,
    List.foldl_nil, decide_true, Bool.and_true, Bool.not_true, Bool.false_eq_true, if_true, if_false, completeIf_of_isOpen hopen']
  rfl

/-- Settles O24: an image is read in lines, which its bytes follow one by one, so its header is its start; a tile at rest has nothing
that a stop would wait for; a sync command changes its object, or waits for it, at once. -/
theorem tileControlComplete : Obligations.TileControlComplete := by
  refine ⟨?load, ?start, ?stop, ?set, ?wait, ?limit⟩
  case load =>
    intro c s u b pr hruns hset hoff hb hlive hhead hwhole hprog hsync htiles hslots
    obtain ⟨trip, hbody⟩ := bodyTileLoad_of_loadsImage ⟨hset, hoff, hb, hlive, hhead, hwhole, hprog, hsync, htiles, hslots⟩
    exact ⟨_, congrArg _ (runPacket_stat hruns hbody), rfl⟩
  case start =>
    intro c s u hruns hset hspare hown hopen hready
    exact congrArg _ (runPacket_stat hruns (bodyTileStart_of_startable hset hspare hown hopen hready))
  case stop =>
    intro c s u t hruns hset hspare hunload hrider hrest
    obtain ⟨x, htile, -⟩ := Option.bind_eq_some_iff.mp hrider
    obtain ⟨-, hstreams, hctxs⟩ := hrest x htile
    obtain ⟨f, hbody⟩ := bodyTileStop_of_atRest hset hspare hunload hrider htile ⟨hstreams, hctxs⟩ (isOpen_of_runsIn hruns)
    exact ⟨_, congrArg _ (runPacket_later hruns hbody), tileLoaded_unloadTile t _, rfl, rfl, rfl⟩
  case set =>
    intro c s u hruns hspare hright
    exact congrArg _ (runPacket_stat hruns (bodySyncSet_of_allowed hspare hright))
  case wait =>
    intro c s u hruns hlow hhigh hright
    have hbody := bodySyncWait_of_allowed hlow hhigh hright
    refine ⟨fun hmet => ?_, fun hunmet => ?_⟩
    · exact congrArg _ (runPacket_data hruns (hbody.trans (if_pos ((cmdWait_holds_iff c _).mpr hmet))))
    · exact congrArg _ (runPacket_later hruns (hbody.trans (if_neg (mt (cmdWait_holds_iff c _).mp hunmet))))
  case limit =>
    intro s o obj eq v limit hup hlimit hopen hwaits
    exact congrArg _ ((whenUp_of_running hup _).trans (syncWaitExpires_of_wait rfl hlimit hopen hwaits))

end Sys2Proof.Proofs

/-! The embedding engine: table definitions, the start of look-ups and updates, the messages of the other members, and the
end of a batch whose limit runs out. -/

namespace Sys2Proof.Proofs

open Sys2Proof.Machine Sys2Proof.Claims Sys2Proof.Laws

/-! ### Batches found again after an update (R221) -/

theorem key_of_findBatch {s : State} {k : BatchKey} {b : EmbBatch} (h : findBatch s k = some b) : b.key = k := by
  simpa using List.find?_some h

theorem findBatch_updBatch {s : State} {k : BatchKey} {b : EmbBatch} {f : EmbBatch → EmbBatch} (hf : ∀ y, (f y).key = y.key)
    (h : findBatch s k = some b) : findBatch (updBatch k f s) k = some (f b) := by
  have hfind : findBatch (updBatch k f s) k = (findBatch s k).map f := find?_updIf_self (fun y => by rw [hf]) s.eng.batches
  rw [hfind, h]
  rfl

/-- A batch that started after a close step stays where it is (R36, R283). -/
theorem pumpBatch_of_late {s : State} {k : BatchKey} {b : EmbBatch} (h : findBatch s k = some b) (hlate : b.late = true) :
    pumpBatch k s = s := by
  simp [pumpBatch, h, hlate]

/-! ### The end of a batch (R131, R231) -/

theorem reapLaps_only (i : Nat) (s : State) : ∃ st, reapLaps i s = { s with store := st } :=
  ⟨_, (reapLaps_keeps i s).1.store⟩

theorem dropHolds_only (op : Nat) (s : State) : ∃ st, dropHolds op s = { s with store := st } :=
  foldl_store_only (fun s i => reapLaps_only i s) _ _

theorem endBatch_batches (b : EmbBatch) (m : Nat) (f : EmbFault) (s : State) :
    (endBatch b m f s).eng.batches = dropIf s.eng.batches (·.key = b.key) := by
  obtain ⟨st, hheld⟩ := dropHolds_only b.opId { s with eng.batches := dropIf s.eng.batches (·.key = b.key) }
  simp only [endBatch, hheld]
  obtain ⟨p, q, hdone⟩ := completeIf_only b.cmd f.status 0 (if f.status = .ok then [] else b.record m f.off)
    { s with eng.batches := dropIf s.eng.batches (·.key = b.key), store := st }
  rw [hdone]

theorem key_ne_of_endBatch {b x : EmbBatch} {m : Nat} {f : EmbFault} {s : State} (hx : x ∈ (endBatch b m f s).eng.batches) :
    x.key ≠ b.key := by
  rw [endBatch_batches] at hx
  simpa using (mem_dropIf.mp hx).2

/-! ### The messages of the other members (R221, R227, R230, R231) -/

theorem replyArrives_of_tag {k : BatchKey} {b : EmbBatch} {s : State} {t : EmbTable} (htable : batchTable s b = some t)
    (frm : Nat) (f : EmbBatch → EmbBatch) : replyArrives k t.defTag frm f b s = pumpBatch k (updBatch k f s) := by
  simp [replyArrives, htable]

theorem replyArrives_of_other_tag {k : BatchKey} {b : EmbBatch} {s : State} {t : EmbTable} {tag : BitVec 32}
    (htable : batchTable s b = some t) (htag : tag ≠ t.defTag) (frm : Nat) (f : EmbBatch → EmbBatch) :
    replyArrives k tag frm f b s = pumpBatch k (updBatch k (fun b => { b with odd := b.odd ++ [frm] }) s) := by
  simp [replyArrives, htable, htag.symm]

theorem runArrives_of_none {s : State} {k : BatchKey} (h : findBatch s k = none) (run : EmbRun) :
    runArrives k run s = addEarly k run.defTag [run] [] s := by
  simp only [runArrives, h]

theorem runArrives_of_some {s : State} {k : BatchKey} {b : EmbBatch} (h : findBatch s k = some b) (run : EmbRun) :
    runArrives k run s = pumpBatch k (updBatch k (fun b => { b with runs := b.runs ++ [run] }) s) := by
  simp only [runArrives, h]

theorem partialArrives_of_none {s : State} {k : BatchKey} (h : findBatch s k = none) (tag : BitVec 32) (frm key : Nat)
    (values : List (BitVec 32)) : partialArrives k tag frm key values s = addEarly k tag [] [(frm, key, values)] s := by
  simp only [partialArrives, h]

theorem partialArrives_of_some {s : State} {k : BatchKey} {b : EmbBatch} (h : findBatch s k = some b) (tag : BitVec 32)
    (frm key : Nat) (values : List (BitVec 32)) : partialArrives k tag frm key values s =
      replyArrives k tag frm (fun b => { b with partials := b.partials ++ [(frm, key, values)] }) b s := by
  simp only [partialArrives, h]

theorem rowsArrive_of_some {s : State} {k : BatchKey} {b : EmbBatch} (h : findBatch s k = some b) (tag : BitVec 32)
    (frm : Nat) (rows : List EmbRow) : rowsArrive k tag frm rows s =
      replyArrives k tag frm (fun b => { b with rows := b.rows ++ rows }) b s := by
  simp only [rowsArrive, h]

theorem limitExpires_of_waiting {s : State} {k : BatchKey} {b : EmbBatch} (h : findBatch s k = some b) (hready : b.ready = false)
    (hsaid : b.said = false) : limitExpires k s = endBatch b b.key.member { status := .timeout, off := 0 } s := by
  simp [limitExpires, h, hready, hsaid]

theorem limitExpires_of_ready {s : State} {k : BatchKey} {b : EmbBatch} (h : findBatch s k = some b) (hready : b.ready = true) :
    limitExpires k s = s := by
  simp [limitExpires, h, hready]

theorem embeddingMessagesComplete : EmbeddingMessagesComplete := by
  intro s k frm hup
  have hrun {f : State → State} {t : State} (h : f s = t) : Host.Outcome.next (whenUp s f) = (.next t : Out State) :=
    congrArg _ ((whenUp_of_running hup f).trans h)
  refine ⟨fun hnone => ?early, fun b hfind => ⟨?run, ?reply, ?verdict, ?limit, ?ready, ?late⟩⟩
  case early =>
    exact ⟨fun _ _ _ _ => hrun (runArrives_of_none hnone _), fun _ _ _ => hrun (partialArrives_of_none hnone _ _ _ _)⟩
  case run => exact fun _ _ _ _ => hrun (runArrives_of_some hfind _)
  case reply =>
    intro t htable
    refine ⟨fun key values => ?_, fun rows => ?_, fun tag htag => ⟨fun key values => ?_, fun rows => ?_⟩⟩
    · exact hrun ((partialArrives_of_some hfind ..).trans (replyArrives_of_tag htable _ _))
    · exact hrun ((rowsArrive_of_some hfind ..).trans (replyArrives_of_tag htable _ _))
    · exact hrun ((partialArrives_of_some hfind ..).trans (replyArrives_of_other_tag htable htag _ _))
    · exact hrun ((rowsArrive_of_some hfind ..).trans (replyArrives_of_other_tag htable htag _ _))
  case verdict => exact fun _ _ => hrun rfl
  case limit =>
    exact fun hready hsaid => ⟨hrun (limitExpires_of_waiting hfind hready hsaid),
      fun x hx => key_of_findBatch hfind ▸ key_ne_of_endBatch hx⟩
  case ready => exact fun hready => hrun (limitExpires_of_ready hfind hready)
  case late =>
    intro hlate g hg
    exact pumpBatch_of_late (findBatch_updBatch (fun y => (hg y).2) hfind) ((hg b).1.trans hlate)

/-! ### `EMB_TABLE_DEFINE` (R217 to R220) -/

/-- The fields of the header (R217): reserved ones are zero, the state flag and the number of members are in range. -/
def headOk (c : Cmd) : Bool :=
  decide (32 ≤ c.payload.length) && zeroB c.payload 0x14 12 && decide (fieldB c.payload 7 1 ≤ 1) &&
    decide (fieldB c.payload 6 1 ≤ 64)

/-- The fields of the table and of its members (R217 to R219). -/
def tableOk (u : State) (t : EmbTable) : Bool :=
  decide (1 ≤ fgCode t.fmtGear) && decide (fgCode t.fmtGear ≤ 5) && fmtGearOk t.fmtGear && decide (1 ≤ t.dim) &&
    decide (t.dim ≤ 2048) && (fgGear t.fmtGear == 0 || t.dim % 64 == 0) && t.stride % 8 == 0 &&
    decide (t.rowBytes ≤ t.stride) && decide (t.stride ≤ 4096) && decide (1 ≤ t.rows) && decide (t.rows ≤ 2 ^ 40) && partitions 0 t.members t.rows &&
    t.members.all (memberForm t) && decide (t.members.map (·.module)).Nodup &&
    t.members.any fun m => m.module.toNat == embMe u t.surr

/-- The ranges of the members that this module acts as. -/
def ownRanges (u : State) (t : EmbTable) : List (Nat × Nat) :=
  (t.members.filter fun m => m.module.toNat == embMe u t.surr).flatMap t.ranges

/-- A batch of the definition to be replaced is in progress, or 256 are installed and none is replaced (R220). -/
def noRoom (u : State) (t : EmbTable) : Bool :=
  ((embTable u t.surr t.rider t.table).map (tableBusy u)).getD false ||
    ((embTable u t.surr t.rider t.table).isNone && decide (256 ≤ u.eng.tables.length))

/-- A range lies in an object that flash backs, which this variant does not have. -/
def onMissingFlash (u : State) (rs : List (Nat × Nat)) : Bool :=
  !Config.hasFlash u.variant && u.store.objects.any fun o =>
    flashBacked o.policy && rs.any fun g => overlaps (g.1 / 65536) ((g.2 + 65535) / 65536) o.base (o.base + o.pages)

/-- The checks of a definition with members, in their order. -/
theorem bodyEmbTableDefine_of_members {c : Cmd} {u : State} {t : EmbTable} (hsome : fieldB c.payload 6 1 ≠ 0)
    (hparsed : parseMembers (fieldB c.payload 6 1) (c.payload.drop 32) = (t.members, true, []))
    (hfields : t = { surr := c.h.surrogate, rider := c.h.r, table := BitVec.ofNat 8 (fieldB c.payload 0 1)
                     fmtGear := BitVec.ofNat 8 (fieldB c.payload 1 1), dim := fieldB c.payload 2 2
                     stride := fieldB c.payload 4 2, state := fieldB c.payload 7 1 == 1, rows := fieldB c.payload 8 8
                     defTag := BitVec.ofNat 32 (fieldB c.payload 0x10 4), members := t.members, lastUpd := none }) :
    bodyEmbTableDefine c u =
      if !headOk c then Eff.stat .badParam u
      else if !tableOk u t then Eff.stat .badParam u
      else if !(ownRanges u t).all (rangeLive u t.surr t.rider) then Eff.stat .revoked u
      else if noRoom u t then Eff.stat .busy u
      else if onMissingFlash u (ownRanges u t) then Eff.stat .badParam u
      else Eff.ok (setTable t u) := by
  rw [hfields]
  simp only [bodyEmbTableDefine, hparsed, if_neg hsome, headOk, List.isEmpty_nil, Bool.and_true]
  rfl

section DefinesTable
variable {c : Cmd} {u : State} {t : EmbTable} (h : DefinesTable c u t)
include h

theorem surr_of_definesTable : t.surr = c.h.surrogate := congrArg EmbTable.surr h.fields

theorem rider_of_definesTable : t.rider = c.h.r := congrArg EmbTable.rider h.fields

theorem tableOk_of_definesTable : tableOk u t = true := by
  obtain ⟨hcode, hcode', hfmt, hgear⟩ := h.format
  obtain ⟨hparts, hforms, hdistinct, hmine⟩ := h.members
  have hgear' : (fgGear t.fmtGear == 0 || t.dim % 64 == 0) = true := by simpa using hgear
  simp only [tableOk, surr_of_definesTable h, hcode, hcode', hfmt, hgear', hparts, hforms, hdistinct, hmine, h.size, decide_true,
    beq_self_eq_true, Bool.and_self]

/-- Every range of this module's own is live for the rider (R220). -/
theorem ownRanges_live : (ownRanges u t).all (rangeLive u t.surr t.rider) = true := by
  rw [List.all_eq_true]
  intro g hg
  obtain ⟨m, hm, hin⟩ := List.mem_flatMap.mp hg
  obtain ⟨hmem, hmine⟩ := List.mem_filter.mp hm
  rw [surr_of_definesTable h] at hmine ⊢
  rw [rider_of_definesTable h]
  exact List.all_eq_true.mp (h.live m hmem (beq_iff_eq.mp hmine)) g hin

theorem noRoom_of_definesTable : noRoom u t = false := by
  have hroom := h.room
  rw [noRoom, surr_of_definesTable h, rider_of_definesTable h]
  cases hold : embTable u c.h.surrogate c.h.r t.table with
  | none | some _ =>
    rw [hold] at hroom
    simpa using hroom

theorem onMissingFlash_of_definesTable (rs : List (Nat × Nat)) : onMissingFlash u rs = false := by
  rcases h.flash with hhas | hnone
  · simp [onMissingFlash, hhas]
  · have hobjs : (u.store.objects.any fun o => flashBacked o.policy &&
        rs.any fun g => overlaps (g.1 / 65536) ((g.2 + 65535) / 65536) o.base (o.base + o.pages)) = false :=
      List.any_eq_false.mpr fun o ho => by simp [hnone o ho]
    rw [onMissingFlash, hobjs, Bool.and_false]

theorem bodyEmbTableDefine_of_definesTable : bodyEmbTableDefine c u = Eff.ok (setTable t u) := by
  obtain ⟨hlong, hzero, hstate, hmany, hsome⟩ := h.head
  have hhead : headOk c = true := by simp only [headOk, hlong, hzero, hstate, hmany, decide_true, Bool.and_self]
  rw [bodyEmbTableDefine_of_members hsome h.parsed h.fields]
  simp only [hhead, tableOk_of_definesTable h, ownRanges_live h, noRoom_of_definesTable h, onMissingFlash_of_definesTable h,
    Bool.not_true, Bool.false_eq_true, if_false]

end DefinesTable

theorem bodyEmbTableDefine_of_no_members {c : Cmd} {u : State} (hlen : c.payload.length = 32)
    (hzero : zeroB c.payload 0x14 12 = true) (hstate : fieldB c.payload 7 1 ≤ 1) (hnone : fieldB c.payload 6 1 = 0)
    (hfree : ∀ t, embTable u c.h.surrogate c.h.r (BitVec.ofNat 8 (fieldB c.payload 0 1)) = some t → tableBusy u t = false) :
    bodyEmbTableDefine c u = Eff.ok { u with eng := { u.eng with
      tables := dropIf u.eng.tables fun t => t.surr == c.h.surrogate && t.rider = c.h.r &&
        t.table = BitVec.ofNat 8 (fieldB c.payload 0 1) } } := by
  have hrest : c.payload.drop 32 = [] := List.drop_eq_nil_of_le hlen.le
  have hidle : ((embTable u c.h.surrogate c.h.r (BitVec.ofNat 8 (fieldB c.payload 0 1))).map (tableBusy u)).getD false = false := by
    cases hold : embTable u c.h.surrogate c.h.r (BitVec.ofNat 8 (fieldB c.payload 0 1)) with
    | none => rfl
    | some t => exact hfree t hold
  simp [bodyEmbTableDefine, hrest, hidle, hnone, hlen, hzero, hstate, parseMembers]

/-! ### The start of a batch (R221, R222) -/

/-- What a batch that starts has become at once: its laps are taken, and it has gone as far as it can. -/
def begun (b : EmbBatch) (t : EmbTable) (u : State) : State :=
  pumpBatch b.key (takeEmbViews { b with late := closedTo u b.key.rider } t (accepted b u))

/-- A batch of which nothing came before begins as the command spells it. -/
theorem startBatch_of_starts {c : Cmd} {update : Bool} {i : Nat} {t : EmbTable} {u : State} {b : EmbBatch}
    (hb : b = embBatch c update i u.eng.nextOp) (h : Starts b u) : startBatch b t u = Eff.later (begun b t u) := by
  obtain ⟨hfresh, hroom, hearly⟩ := h
  have hnew : (u.eng.batches.any fun x => x.key = b.key) = false := by simpa using hfresh
  have hnone : (u.eng.early.filter fun e => e.key = b.key) = [] := by simpa using hearly
  have hkept : (dropIf u.eng.early fun e => e.key = b.key) = u.eng.early := dropIf_of_false (by simpa using hearly)
  simp only [startBatch, hnew, hnone, hkept, Nat.not_le.mpr hroom, Bool.false_eq_true, if_false]
  subst hb
  rfl

theorem bodyEmbLookup_of_starts {c : Cmd} {u : State} {t : EmbTable} {i : Nat} {b : EmbBatch} (hjoin : embJoin c u = some (t, i))
    (hb : b = embBatch c false i u.eng.nextOp) (hform : embForm c b (b.mode ≠ 0) = true) (hmode : b.mode.toNat ≤ 2)
    (hout : b.mode = 0 ∨ ((fgCode b.outFg = 1 ∨ fgCode b.outFg = 2 ∨ fgCode b.outFg = 5) ∧
      fmtGearOk b.outFg = true ∧ (fgGear b.outFg = 0 ∨ t.dim % 64 = 0 ∧ b.dataVa.toNat % 8 = 0))) (hstart : Starts b u) :
    bodyEmbLookup c u = Eff.later (begun b t u) := by
  have hfmt : (decide (b.mode = 0) || ((fgCode b.outFg == 1 || fgCode b.outFg == 2 || fgCode b.outFg == 5) && fmtGearOk b.outFg &&
      (fgGear b.outFg == 0 || t.dim % 64 == 0))) = true := by
    rcases hout with hzero | ⟨hcode, hok, hgear⟩
    · simp [hzero]
    · simp only [Bool.or_eq_true, Bool.and_eq_true, beq_iff_eq, decide_eq_true_eq]
      exact .inr ⟨⟨by tauto, hok⟩, by tauto⟩
  have haligned : (decide (b.mode ≠ 0) && decide (fgGear b.outFg ≠ 0) && decide (b.dataVa.toNat % 8 ≠ 0)) = false := by
    rw [Bool.eq_false_iff]
    simp only [ne_eq, Bool.and_eq_true, decide_eq_true_eq]
    tauto
  have hsmall : decide (2 < b.mode.toNat) = false := decide_eq_false (Nat.not_lt.mpr hmode)
  rw [← startBatch_of_starts hb hstart]
  subst hb
  simp only [bodyEmbLookup, hjoin, hform, hsmall, hfmt, haligned, Bool.not_true, Bool.or_self, Bool.false_eq_true, if_false]

/-! ### `EMB_UPDATE` (R233, R236) -/

/-- A batch has entered the table as its last update. -/
def lastUpdated (t : EmbTable) (n : BitVec 32) (s : State) : State :=
  { s with
    eng.tables := updIf s.eng.tables (fun u => u.surr == t.surr && u.rider = t.rider && u.table = t.table)
      fun u => { u with lastUpd := some n } }

theorem lastUpdated_only (t : EmbTable) (n : BitVec 32) (s : State) :
    lastUpdated t n s = { s with eng := { s.eng with tables := (lastUpdated t n s).eng.tables } } := rfl

theorem lastUpd_of_mem_lastUpdated {t x : EmbTable} {n : BitVec 32} {s : State} (hx : x ∈ (lastUpdated t n s).eng.tables)
    (hsurr : x.surr = t.surr) (hrider : x.rider = t.rider) (htable : x.table = t.table) : x.lastUpd = some n := by
  obtain ⟨y, -, rfl⟩ := mem_updIf_of_hit hx (by simp [hsurr, hrider, htable])
  rfl

/-- The start of an update enters it in the table, when it is not refused. -/
def enterUpdate (t : EmbTable) (n : BitVec 32) (e : Eff) : Eff :=
  if e.ans.isSome then e else { e with st := lastUpdated t n e.st }

theorem enterUpdate_later (t : EmbTable) (n : BitVec 32) (s : State) :
    enterUpdate t n (Eff.later s) = Eff.later (lastUpdated t n s) := rfl

section Update
variable {c : Cmd} {u : State} {t : EmbTable} {i : Nat} {b : EmbBatch} (hjoin : embJoin c u = some (t, i))
  (hb : b = embBatch c true i u.eng.nextOp) (hform : embForm c b true = true) (hmode : b.mode.toNat ≤ 2)
  (hgrad : b.outFg.toNat ≤ 1) (hstate : b.mode = 2 → t.state = true)
  (hlast : ∀ n, t.lastUpd = some n → n.toNat < b.key.batch.toNat)
include hjoin hb hform hmode hgrad hstate hlast

theorem bodyEmbUpdate_of_checks :
    bodyEmbUpdate c u = enterUpdate t b.key.batch (startBatch b t u) := by
  have hrule : (decide (b.mode = 2) && !t.state) = false := by simpa using hstate
  have hnew : (t.lastUpd.any fun n => decide (b.key.batch.toNat ≤ n.toNat)) = false := by
    cases hupd : t.lastUpd with
    | none => rfl
    | some n => simpa using hlast n hupd
  subst hb
  simp only [bodyEmbUpdate, hjoin, hform, Nat.not_lt.mpr hmode, Nat.not_lt.mpr hgrad, hrule, hnew, decide_false, Bool.not_true,
    Bool.or_self, Bool.false_eq_true, if_false]
  rfl

theorem bodyEmbUpdate_of_starts (hstart : Starts b u) :
    bodyEmbUpdate c u = Eff.later (lastUpdated t b.key.batch (begun b t u)) := by
  rw [bodyEmbUpdate_of_checks hjoin hb hform hmode hgrad hstate hlast, startBatch_of_starts hb hstart, enterUpdate_later]

end Update

/-! ### Commands and messages -/

theorem embeddingCommandsComplete : EmbeddingCommandsComplete := by
  refine ⟨?define, ?remove, ?lookup, ?update⟩
  case define =>
    intro c s u t hrun hdef
    exact congrArg _ (runPacket_stat hrun (bodyEmbTableDefine_of_definesTable hdef))
  case remove =>
    intro c s u hrun hlen hzero hstate hnone hfree
    exact congrArg _ (runPacket_stat hrun (bodyEmbTableDefine_of_no_members hlen hzero hstate hnone hfree))
  case lookup =>
    intro c s u t i hrun hjoin b hform hmode hout hstart
    exact congrArg _ (runPacket_later hrun (bodyEmbLookup_of_starts hjoin rfl hform hmode hout hstart))
  case update =>
    intro c s u t i hrun hjoin b hform hmode hgrad hstate hlast hstart
    have hbody := bodyEmbUpdate_of_starts hjoin rfl hform hmode hgrad hstate hlast hstart
    exact ⟨lastUpdated t b.key.batch (begun b t u), begun b t u, rfl, congrArg _ (runPacket_later hrun hbody),
      lastUpdated_only .., fun _ => lastUpd_of_mem_lastUpdated⟩

/-- Settles O47: none of a command's refusals applies to a definition or a batch that passes its checks, and a message changes the
one batch that it names. -/
theorem embeddingComplete : Obligations.EmbeddingComplete := ⟨embeddingCommandsComplete, embeddingMessagesComplete⟩

end Sys2Proof.Proofs

/-! The near-memory and bulk engines: the start of an operation, and a beat whose bytes lie in one line of this module. -/

namespace Sys2Proof.Proofs

open Sys2Proof.Machine Sys2Proof.Claims Sys2Proof.Laws

/-! ### The start of an operation (R238 to R241, R306) -/

theorem startOp_eq (o : EngOp) (u : State) : startOp o u = Eff.later (started o u) := rfl

/-- Parameters that pass their checks start the operation. -/
theorem nmStart_of_free {c : Cmd} {u : State} {form aligned : Bool} (hform : form = true) (haligned : aligned = true)
    (hfree : nmFree c u) (op : Nat) (kind : OpKind) (nd ns : Nat) : nmStart c op kind nd ns form aligned u =
      Eff.later (started { EngOp.blank c op kind with doneSync := nmDone c, dstLen := nd, srcLen := ns } u) := by
  obtain ⟨hsync, hroom⟩ := hfree
  have hmine : (bit (nmDone c) 15 && !riderHasSync u c.h.r (bits (nmDone c) 0 14)) = false := by simpa using hsync
  simp only [nmStart, hform, haligned, hmine, Nat.not_le.mpr hroom, Bool.not_true, Bool.false_eq_true, if_false, startOp_eq]

theorem nmStart_misaligned {c : Cmd} {u : State} {form : Bool} (hform : form = true) (op : Nat) (kind : OpKind) (nd ns : Nat) :
    nmStart c op kind nd ns form false u = Eff.stat .misaligned u := by
  simp [nmStart, hform]

theorem bodyBulkRead_of_length {c : Cmd} {u : State} (hzero : bits (c.p 1) 17 47 = 0) (hpos : 1 ≤ bits (c.p 1) 0 17)
    (hmax : bits (c.p 1) 0 17 ≤ 65536) : bodyBulkRead c u = Eff.later
      (started { EngOp.blank c 0x481 .bulkRead with len := bits (c.p 1) 0 17, dstLen := bits (c.p 1) 0 17 } u) := by
  simp only [bodyBulkRead, hzero, Nat.ne_of_gt hpos, Nat.not_lt.mpr hmax, ne_eq, not_true_eq_false, decide_false, Bool.or_self,
    Bool.false_eq_true, if_false, startOp_eq]

/-! ### `NM_REDUCE` (R246) -/

/-- The checks of the fields of `NM_REDUCE`, in their order. -/
def reduceForm (c : Cmd) (op sf outf kind : BitVec 8) (n : Nat) : Bool :=
  nmReserved c && c.p 1 = 0 && bits kind 2 6 == 0 && decide (1 ≤ n) && decide (n ≤ 64) && c.payload.length == 8 * n &&
    decide (1 ≤ (c.p 2).toNat) && decide ((c.p 2).toNat ≤ 2 ^ 34) && nmCombo op sf outf kind &&
    (beatElems sf outf == 1 || (c.p 2).toNat % 64 == 0) && decide (sideBytes (bit kind 0) sf (c.p 2).toNat ≤ 2 ^ 40) &&
    decide (sideBytes (bit kind 1) outf (c.p 2).toNat ≤ 2 ^ 40) &&
    decide (((words64 n c.payload).filter (inPlace c sf outf kind)).length ≤ 1) &&
    (words64 n c.payload).all fun a => inPlace c sf outf kind a || rangesApart (c.p 0).toNat
      (sideBytes (bit kind 1) outf (c.p 2).toNat) a.toNat (sideBytes (bit kind 0) sf (c.p 2).toNat)

/-- The alignment of the destination and of every source (R239). -/
def reduceAligned (c : Cmd) (sf outf kind : BitVec 8) (n : Nat) : Bool :=
  (c.p 0).toNat % nmAlign (bit kind 1) outf == 0 &&
    (words64 n c.payload).all fun a => a.toNat % nmAlign (bit kind 0) sf == 0

section Reduces
variable {c : Cmd} {op sf outf kind : BitVec 8} {n : Nat} (h : Reduces c op sf outf kind n)
include h

theorem bodyNmReduce_of_reduces (u : State) : bodyNmReduce c u =
    nmStart c 0x383 (.reduce op sf outf kind (words64 n c.payload)) (sideBytes (bit kind 1) outf (c.p 2).toNat)
      (sideBytes (bit kind 0) sf (c.p 2).toNat) (reduceForm c op sf outf kind n) (reduceAligned c sf outf kind n) u := by
  obtain ⟨rfl, rfl, rfl, rfl, rfl⟩ := h.word
  rfl

theorem reduceForm_of_reduces : reduceForm c op sf outf kind n = true := by
  obtain ⟨hres, hp1, hkind⟩ := h.zero
  obtain ⟨hn, hn', hlen⟩ := h.sources
  obtain ⟨hpos, hmax, hblock⟩ := h.length
  obtain ⟨hsrc, hdst⟩ := h.fits
  have hblock' : (beatElems sf outf == 1 || (c.p 2).toNat % 64 == 0) = true := by simpa using hblock
  have hapart := List.all_eq_true.mpr fun a ha => Bool.or_eq_true_iff.mpr (h.apart a ha)
  simp only [reduceForm, hres, hp1, hkind, hn, hn', hlen, hpos, hmax, h.combo, hblock', hsrc, hdst, h.once, hapart,
    decide_true, beq_self_eq_true, Bool.and_self]

theorem reduceAligned_of_reduces : reduceAligned c sf outf kind n = true := by
  obtain ⟨hdst, hsrcs⟩ := h.aligned
  simpa [reduceAligned, hdst] using hsrcs

end Reduces

theorem engineStartsComplete : EngineStartsComplete := by
  refine ⟨?fill, ?copy, ?compare, ?reduce, ?bulkWrite, ?bulkRead⟩
  case fill =>
    intro c s u hrun hplain
    refine ⟨fun haligned hfree => ?_, fun hodd => ?_⟩
    · exact congrArg _ (runPacket_later hrun (nmStart_of_free hplain (beq_iff_eq.mpr haligned) hfree ..))
    · have hbody : bodyNmFill c u = Eff.stat .misaligned u := by
        rw [bodyNmFill, beq_eq_false_iff_ne.mpr hodd, nmStart_misaligned hplain]
      exact congrArg _ (runPacket_stat hrun hbody)
  case copy =>
    intro c s u hrun hplain hapart hdst hsrc hfree
    have hform := Bool.and_eq_true_iff.mpr ⟨hplain, hapart⟩
    have haligned := Bool.and_eq_true_iff.mpr ⟨beq_iff_eq.mpr hdst, beq_iff_eq.mpr hsrc⟩
    exact congrArg _ (runPacket_later hrun (nmStart_of_free hform haligned hfree ..))
  case compare =>
    intro c s u hrun hplain hdst hsrc hfree
    have haligned := Bool.and_eq_true_iff.mpr ⟨beq_iff_eq.mpr hdst, beq_iff_eq.mpr hsrc⟩
    exact congrArg _ (runPacket_later hrun (nmStart_of_free hplain haligned hfree ..))
  case reduce =>
    intro c s u op sf outf kind n hrun hred hfree
    have hstart := nmStart_of_free (reduceForm_of_reduces hred) (reduceAligned_of_reduces hred) hfree 0x383
    exact congrArg _ (runPacket_later hrun ((bodyNmReduce_of_reduces hred u).trans (hstart ..)))
  case bulkWrite => exact fun c s u hrun => congrArg _ (runPacket_later hrun (startOp_eq _ u))
  case bulkRead =>
    exact fun c s u hrun hzero hpos hmax => congrArg _ (runPacket_later hrun (bodyBulkRead_of_length hzero hpos hmax))

/-! ### One line of an operand (R45, R57, R245) -/

theorem cmdAddr_of_leads {s : State} {h : Hdr} {a : Word} {write : Bool} {opa : Word} (hlead : Leads s h a write opa) :
    cmdAddr s h a write = (.ok opa, s) := by
  obtain ⟨hport, rfl⟩ | ⟨q, hsrc, hrun, hhits⟩ := hlead
  · unfold cmdAddr
    split
    next q hq => exact absurd hq (hport q)
    next => rfl
  · simp only [cmdAddr, hsrc, hhits.inService, hhits.mapped, hrun, translate_of_hits hhits, Bool.false_eq_true, if_false]

/-- A frame in memory is written in the same way by a transfer of its whole page (R133). -/
theorem homeWrite_whole_of_writes {s : State} {q : Rq} {off f : Nat} {fr : Frame} {bs : List Byte} {x : Extent}
    (h : Writes s q off f fr bs x) (whole : Bool) :
    homeWrite s q off (allBytes bs) whole = (.done, written q off f bs s) := by
  have hsame (op : Option (BitVec 32)) (who : Option Nat) (entered : Bool) :
      writeAt s x .latest off (allBytes bs) op who entered = .done { s with
        store := putBytes (frameTier s.store f) (f * 65536 + off % 65536) (allBytes bs) s.store
        bells := strike off (allBytes bs) s.bells } := by
    rw [← writeAt_latest_of_writes h who entered]
    simp only [writeAt, h.frame.frame]
  rw [← homeWrite_of_writes h]
  simp only [homeWrite, mapUse_of_no_inj h.quiet.clean.1, h.quiet.rights, engTurn_of_quiet h.quiet, viewFor_of_quiet h.quiet,
    hsame]

@[simp] theorem rq_rider (o : EngOp) (a : Word) : (o.rq a).rider = o.rider := rfl

section Line
variable {s : State} {o : EngOp} {addr opa : Word} {off : Nat} (htarget : target s opa = .off off)
include htarget

theorem opRead_line {n : Nat} (hpos : 0 < n) (hline : addr.toNat % 64 + n ≤ 64) (hlead : Leads s o.cmd.h addr false opa)
    (hreads : Reads s (o.rq addr) off n) : opRead s o addr n = (.data (held s off n), meterRd o.rider n s) := by
  simp [opRead, piecesOf_line hpos hline, cmdAddr_of_leads hlead, htarget, homeRead_of_reads hreads]

theorem opWrite_line {f : Nat} {fr : Frame} {bs : List Byte} {x : Extent} (hpos : 0 < bs.length)
    (hline : addr.toNat % 64 + bs.length ≤ 64) (hput : o.put = 0) (hacked : unackedOf s (opSource s o.id) = 0)
    (hlead : Leads s o.cmd.h addr true opa) (hwrites : Writes s (o.rq addr) off f fr bs x) (whole : Nat → Nat → Bool) :
    opWrite s o addr bs whole =
      (.done, updOp o.id (fun y => { y with put := bs.length }) (written (o.rq addr) off f bs s)) := by
  simp [opWrite, hput, hacked, piecesOf_line hpos hline, cmdAddr_of_leads hlead, htarget, homeWrite_whole_of_writes hwrites]

end Line

/-! ### The beats of an operation on one range (R245, R249) -/

/-- An operation whose beats are cut by the lines of one range alone. -/
def oneRange : OpKind → Bool
  | .fill _ => true
  | .bulkWrite _ => true
  | .bulkRead => true
  | _ => false

theorem here_of_oneRange {o : EngOp} (h : oneRange o.kind = true) : o.here = o.dst + BitVec.ofNat 64 o.next := by
  unfold EngOp.here
  split
  next hreduce =>
    rw [hreduce] at h
    exact absurd h Bool.false_ne_true
  next => rfl

theorem step_of_oneRange {o : EngOp} (h : oneRange o.kind = true) :
    o.step = min (o.len - o.next) (64 - (o.dst.toNat + o.next) % 64) := by
  unfold EngOp.step
  split
  case h_4 => rfl
  all_goals
    next hkind =>
      rw [hkind] at h
      exact absurd h Bool.false_ne_true

/-- The bytes that a beat of a fill or of `BULK_WRITE` writes. -/
def BeatBytes (o : EngOp) (bs : List Byte) : Prop :=
  (∃ p, o.kind = .fill p ∧ bs = fillBytes o p) ∨
    ∃ d, o.kind = .bulkWrite d ∧ o.len ≤ d.length ∧ bs = (d.drop o.next).take o.step

section BeatBytes
variable {o : EngOp} {bs : List Byte} (h : BeatBytes o bs)
include h

theorem oneRange_of_beatBytes : oneRange o.kind = true := by
  obtain ⟨p, hkind, -⟩ | ⟨d, hkind, -⟩ := h <;> rw [hkind] <;> rfl

theorem length_of_beatBytes : bs.length = o.step := by
  have hstep := step_of_oneRange (oneRange_of_beatBytes h)
  obtain ⟨p, -, rfl⟩ | ⟨d, -, hlong, rfl⟩ := h
  · simp [fillBytes]
  · rw [List.length_take, List.length_drop]
    omega

theorem ne_compare_of_beatBytes : o.kind ≠ .compare := by
  obtain ⟨p, hkind, -⟩ | ⟨d, hkind, -⟩ := h <;> simp [hkind]

theorem reads_of_beatBytes : o.reads = [] := by
  obtain ⟨p, hkind, -⟩ | ⟨d, hkind, -⟩ := h <;> simp [EngOp.reads, hkind]

/-- A beat whose bytes have all landed is counted, and the operation goes on. -/
theorem writeBeat_of_done {s t : State} (hdone : opWrite s o o.here bs (wholePage o.dst.toNat o.total) = (.done, t)) :
    writeBeat o s = advanceOp o (countWritten o bs.length t) := by
  obtain ⟨p, hkind, rfl⟩ | ⟨d, hkind, -, rfl⟩ := h <;> simp only [writeBeat, hkind, hdone]

end BeatBytes

/-- An operation that holds one more operand of its beat. -/
def gathered (o : EngOp) (bs : List Byte) : EngOp := { o with buf := o.buf ++ bs, got := o.got + 1, sent := false }

theorem gatherBeat_of_data {s t : State} {o : EngOp} {a : Word} {len : Nat} {bs : List Byte}
    (hnext : o.reads[o.got]? = some (a, len)) (hread : opRead s o a len = (.data bs, t)) (n : Nat) (ret : Option RemoteRet) :
    gatherBeat (n + 1) o ret s =
      gatherBeat n (gathered o (sliceB bs 0 len)) ret (updOp o.id (fun _ => gathered o (sliceB bs 0 len)) t) := by
  simp only [gatherBeat, hnext, hread, gathered]

theorem gatherBeat_of_all_read {o : EngOp} (h : o.reads[o.got]? = none) (n : Nat) (ret : Option RemoteRet) (s : State) :
    gatherBeat (n + 1) o ret s = writeBeat o s := by
  simp only [gatherBeat, h]

theorem reads_of_bulkRead {o : EngOp} (h : o.kind = .bulkRead) : o.reads = [(o.here, o.step)] := by
  simp [EngOp.reads, EngOp.here, h]

theorem writeBeat_of_bulkRead {o : EngOp} (h : o.kind = .bulkRead) (s : State) :
    writeBeat o s = advanceOp { o with readData := o.readData ++ o.buf } s := by
  simp only [writeBeat, h]

theorem placed_of_leads {s : State} {o : EngOp} {opa : Word} (hkind : o.kind ≠ .compare) (hlead : Leads s o.cmd.h o.here true opa)
    (go : State → State) : Machine.placed o go s = go s := by
  simp only [Machine.placed, hkind, ne_eq, not_false_eq_true, decide_true, cmdAddr_of_leads hlead, ite_self]

theorem placed_of_bulk {o : EngOp} (h : isNm o = false) (go : State → State) (s : State) : Machine.placed o go s = go s := by
  simp [Machine.placed, h]

/-! ### A beat begins (R249, R250) -/

/-- A beat event of an operation whose piece runs. -/
theorem execEngineBeat_of_runs {s : State} {o : EngOp} (hup : s.phase = .running)
    (hfound : s.eng.ops.find? (·.id == o.id) = some o) (hgoes : o.stopped = false) (hintime : o.late = false)
    (hturn : pieceRuns s o = true) (ret : Option RemoteRet) :
    exec (.engineBeatCompletion o.id ret) s = .next (runBeat o ret s) := by
  refine congrArg _ ((whenUp_of_running hup _).trans ?_)
  simp [hfound, hgoes, hintime, hturn]

theorem runBeat_of_fenced {s : State} {o : EngOp} (hfault : o.fault = none) (hfenced : pieceFenced s o = true)
    (ret : Option RemoteRet) : runBeat o ret s = failOp o .fenced o.here s := by
  simp [runBeat, hfault, hfenced]

section BeatFree
variable {s : State} {o : EngOp} (h : BeatFree s o)
include h

theorem execEngineBeat_of_beatFree (ret : Option RemoteRet) :
    exec (.engineBeatCompletion o.id ret) s = .next (Machine.placed o (gatherBeat 66 o ret) s) := by
  obtain ⟨hgoes, hintime, hfault⟩ := h.free
  obtain ⟨hsent, -⟩ := h.fresh
  rw [execEngineBeat_of_runs h.running h.found hgoes hintime h.turn]
  simp [runBeat, hfault, h.up, hsent]

/-- The bytes of a beat lie in one line. -/
theorem step_in_line (hone : oneRange o.kind = true) : 0 < o.step ∧ o.here.toNat % 64 + o.step ≤ 64 := by
  obtain ⟨hmore, hspace⟩ := h.inRange
  have hhere : o.here.toNat = o.dst.toNat + o.next := by
    rw [here_of_oneRange hone, BitVec.toNat_add, BitVec.toNat_ofNat, Nat.mod_eq_of_lt (by omega : o.next < 2 ^ 64),
      Nat.mod_eq_of_lt (by omega)]
  rw [hhere, step_of_oneRange hone]
  omega

/-- A beat that writes: its line is written at its home, and the operation goes on. -/
theorem execEngineBeat_writes {bs : List Byte} {opa : Word} {off f : Nat} {fr : Frame} {x : Extent} (hbytes : BeatBytes o bs)
    (hlead : Leads s o.cmd.h o.here true opa) (htarget : target s opa = .off off)
    (hwrites : Writes s (o.rq o.here) off f fr bs x) (ret : Option RemoteRet) :
    exec (.engineBeatCompletion o.id ret) s = .next (advanceOp o (countWritten o bs.length
      (updOp o.id (fun y => { y with put := bs.length }) (written (o.rq o.here) off f bs s)))) := by
  obtain ⟨-, -, hput, -⟩ := h.fresh
  obtain ⟨hpos, hline⟩ := step_in_line h (oneRange_of_beatBytes hbytes)
  rw [← length_of_beatBytes hbytes] at hpos hline
  have hdone := opWrite_line htarget hpos hline hput h.acked hlead hwrites (wholePage o.dst.toNat o.total)
  rw [execEngineBeat_of_beatFree h, placed_of_leads (ne_compare_of_beatBytes hbytes) hlead,
    gatherBeat_of_all_read (by simp [reads_of_beatBytes hbytes]), writeBeat_of_done hbytes hdone]

/-- A beat of `BULK_READ`: its line is read at its home and kept, and the operation goes on. -/
theorem execEngineBeat_reads {p : EngOp} {opa : Word} {off : Nat} (hkind : o.kind = .bulkRead)
    (hlead : Leads s o.cmd.h o.here false opa) (htarget : target s opa = .off off) (hreads : Reads s (o.rq o.here) off o.step)
    (hp : p = { o with buf := sliceB (held s off o.step) 0 o.step, got := 1 }) (ret : Option RemoteRet) :
    exec (.engineBeatCompletion o.id ret) s = .next (advanceOp { p with readData := o.readData ++ p.buf }
      (updOp o.id (fun _ => p) (meterRd o.rider o.step s))) := by
  obtain ⟨hsent, hgot, -, hbuf⟩ := h.fresh
  have hone : oneRange o.kind = true := by rw [hkind]; rfl
  have hnm : isNm o = false := by simp only [isNm, hkind]
  obtain ⟨hpos, hline⟩ := step_in_line h hone
  have hfirst : o.reads[o.got]? = some (o.here, o.step) := by simp [reads_of_bulkRead hkind, hgot]
  have hfilled : gathered o (sliceB (held s off o.step) 0 o.step) = p := by
    simp only [gathered, hp, hbuf, hgot, hsent, List.nil_append]
  have hpkind : p.kind = .bulkRead := hp ▸ hkind
  have hpdata : p.readData = o.readData := by rw [hp]
  have hlast : p.reads[p.got]? = none := by
    have hgot' : p.got = 1 := by rw [hp]
    simp [reads_of_bulkRead hpkind, hgot']
  rw [execEngineBeat_of_beatFree h, placed_of_bulk hnm,
    gatherBeat_of_data hfirst (opRead_line htarget hpos hline hlead hreads), hfilled, gatherBeat_of_all_read hlast,
    writeBeat_of_bulkRead hpkind, hpdata]

end BeatFree

theorem engineBeatsComplete : EngineBeatsComplete := by
  refine ⟨?writes, ?reads, ?fenced⟩
  case writes =>
    exact fun s o bs opa off f fr x ret hfree hbytes hlead htarget hwrites =>
      execEngineBeat_writes hfree hbytes hlead htarget hwrites ret
  case reads =>
    exact fun s o p opa off ret hfree hkind hlead htarget hreads hp =>
      execEngineBeat_reads hfree hkind hlead htarget hreads hp ret
  case fenced =>
    intro s o ret hup hfound hgoes hintime hturn hfault hfenced
    rw [execEngineBeat_of_runs hup hfound hgoes hintime hturn, runBeat_of_fenced hfault hfenced]

/-- Settles O45: a command that passes its checks adds its operation and answers nothing, and a beat that lies in one line of this
module is one read or one write at the line's home. -/
theorem engineCommandsComplete : Obligations.EngineCommandsComplete := ⟨engineStartsComplete, engineBeatsComplete⟩

end Sys2Proof.Proofs

/-! Packets and registers: the queue of commands, the header checks, `NOP` and `HELLO`, and registers packed from fields. -/

namespace Sys2Proof.Proofs

open Sys2Proof.Machine Sys2Proof.Claims Sys2Proof.Laws

-- Checked one after another, which keeps the memory of the check small.
set_option Elab.async false

/-! ### The queue of commands (R5) -/

/-- Settles O1: `step` is `exec` on the front command. -/
theorem stepRunsFrontCommand : Obligations.StepRunsFrontCommand := fun _ _ _ => rfl

/-! ### Header checks (R299) -/

/-- A row runs its packet by its opcode, which accepts no chunks (R301), with one chapter's body. -/
def RunsPacket (row : Nat × (Cmd → Instr)) : Prop :=
  chunked row.1 = false ∧ ∃ body : Body, ∀ c s, exec (row.2 c) s = .next (runPacket row.1 c body s)

theorem runsPacket_packetRows1 : ∀ row ∈ packetRows1, RunsPacket row := by
  simp only [packetRows1, List.forall_mem_cons]
  refine ⟨?_, ?_, ?_, ?_, ?_, ?_, ?_, ?_, ?_, ?_, ?_, ?_, ?_, ?_, ?_, List.forall_mem_nil _⟩ <;> exact ⟨rfl, _, fun _ _ => rfl⟩

theorem runsPacket_packetRows2 : ∀ row ∈ packetRows2, RunsPacket row := by
  simp only [packetRows2, List.forall_mem_cons]
  refine ⟨?_, ?_, ?_, ?_, ?_, ?_, ?_, ?_, ?_, ?_, ?_, ?_, ?_, ?_, ?_, ?_, List.forall_mem_nil _⟩ <;>
    exact ⟨rfl, _, fun _ _ => rfl⟩

theorem runsPacket_packetRows3 : ∀ row ∈ packetRows3, RunsPacket row := by
  simp only [packetRows3, List.forall_mem_cons]
  refine ⟨?_, ?_, ?_, ?_, ?_, ?_, ?_, ?_, ?_, ?_, ?_, ?_, ?_, ?_, ?_, ?_, ?_, ?_, List.forall_mem_nil _⟩ <;>
    exact ⟨rfl, _, fun _ _ => rfl⟩

theorem runsPacket_packetRows4 : ∀ row ∈ packetRows4, RunsPacket row := by
  simp only [packetRows4, List.forall_mem_cons]
  refine ⟨?_, ?_, ?_, ?_, ?_, ?_, ?_, ?_, ?_, ?_, ?_, ?_, ?_, ?_, ?_, ?_, List.forall_mem_nil _⟩ <;>
    exact ⟨rfl, _, fun _ _ => rfl⟩

theorem runsPacket_packetRows : ∀ row ∈ packetRows, RunsPacket row := by
  simp only [packetRows, List.forall_mem_append]
  exact ⟨⟨⟨runsPacket_packetRows1, runsPacket_packetRows2⟩, runsPacket_packetRows3⟩, runsPacket_packetRows4⟩

/-- A port command keeps the assemblies, so one without chunks that a header check refuses is only answered. -/
theorem refuseHdr_port {op : Nat} {c : Cmd} (hport : c.h.src = .port) (hchunk : chunked op = false) (st : Status)
    (s : State) : refuseHdr op c st s = complete (openOf op c) st 0 [] s := by
  have hasm : assembliesAfter (openOf op c) s.port.assemblies = s.port.assemblies := by
    simp [assembliesAfter, openOf, hport]
  simp [refuseHdr, hchunk, hasm]

theorem startCmd_of_badHeader {op : Nat} {c : Cmd} {st : Status} {s : State} (body : Body)
    (hfail : hdrChecks s op c = some st) : startCmd op c body s = refuseHdr op c st s := by
  unfold startCmd
  rw [hfail]

theorem refusedHeaderChangesNothing : RefusedHeaderChangesNothing := by
  intro row hrow c s st hport hup hadmit hfail
  obtain ⟨hchunk, body, hexec⟩ := runsPacket_packetRows row hrow
  rw [hexec, runPacket_port body hport (.inl hup) hadmit, startCmd_of_badHeader body hfail, refuseHdr_port hport hchunk]

theorem headerCheckOrder : HeaderCheckOrder := by
  intro s op c
  refine ⟨fun hform => by simp [hdrChecks, hform], fun hform hop => by simp [hdrChecks, hform, hop], fun i hform hop => ?_⟩
  have hchecks : hdrChecks s op c = firstFail [(hdrSource s i op c, .auth), (hdrFlags s i op c, .badParam),
      (c.h.epoch = 0 || c.h.epoch = epochNow s, .staleMap), (hdrLens i op c, .badParam)] := by
    simp [hdrChecks, hform, hop]
  rw [hchecks]
  refine ⟨?source, ?flags, ?epoch, ?lens, ?pass⟩
  case source => intro hs; simp [firstFail, hs]
  case flags => intro hs hf; simp [firstFail, hs, hf]
  case epoch =>
    intro hs hf hz he
    have hepoch : (decide (c.h.epoch = 0) || decide (c.h.epoch = epochNow s)) = false := by simpa using ⟨hz, he⟩
    rw [hepoch]
    simp [firstFail, hs, hf]
  case lens =>
    intro hs hf he hl
    have hepoch : (decide (c.h.epoch = 0) || decide (c.h.epoch = epochNow s)) = true := by simpa using he
    rw [hepoch]
    simp [firstFail, hs, hf, hl]
  case pass =>
    intro hs hf he hl
    have hepoch : (decide (c.h.epoch = 0) || decide (c.h.epoch = epochNow s)) = true := by simpa using he
    rw [hepoch]
    simp [firstFail, hs, hf, hl]

/-- Settles O3: a row of the list runs the header checks of its opcode first, and each check is asked only when those before it
pass. -/
theorem headerChecks : Obligations.HeaderChecks := ⟨refusedHeaderChangesNothing, headerCheckOrder⟩

/-! ### `NOP` and `HELLO` (R296, R303) -/

/-- Where a range's version is written: beside the path that the command came by. -/
def withVersion (c : Cmd) (v : BitVec 4) (u : State) : State :=
  match c.h.src with
  | .sideband => { u with port.sbVersion := some v }
  | _ => { u with port.version := some v }

theorem bodyHello_of_version {c : Cmd} {v : BitVec 4} (hrsv : bits (c.p 0) 16 48 = 0)
    (hver : chooseVersion (bits (c.p 0) 0 8) (bits (c.p 0) 8 8) = some v) (u : State) :
    bodyHello c u = Eff.data .ok 0 (helloPayload (withVersion c v u) v) (withVersion c v u) := by
  simp only [bodyHello, hrsv, ne_eq, not_true_eq_false, if_false, hver]
  rfl

/-- Settles O4: `NOP` answers `OK` at once, and `HELLO` the version it chooses from the range. -/
theorem nopAndHelloComplete : Obligations.NopAndHelloComplete := by
  refine ⟨fun c s u hrun => congrArg _ (runPacket_stat hrun rfl), fun c s u v hrun hrsv hver => ?_⟩
  have hexec : exec (.hello c) s = .next (replied 0x001 c .ok 0 (helloPayload (withVersion c v u) v) (withVersion c v u)) :=
    congrArg _ (runPacket_data hrun (bodyHello_of_version hrsv hver u))
  rw [hexec]
  refine ⟨?port, ?sideband⟩
  case port =>
    intro hsrc
    rw [show withVersion c v u = { u with port.version := some v } by rw [withVersion, hsrc]]
    rfl
  case sideband =>
    intro hsrc
    rw [show withVersion c v u = { u with port.sbVersion := some v } by rw [withVersion, hsrc]]
    rfl

/-! ### Registers packed from fields (R8) -/

/-- The fields' low positions fall from `top`. -/
def descends : Nat → List (Nat × Nat) → Bool
  | _, [] => true
  | top, p :: fs => decide (p.1 < top) && descends p.1 fs

theorem packBelow_lt {top : Nat} {fs : List (Nat × Nat)} (h : descends top fs = true) : packBelow top fs < 2 ^ top := by
  induction fs generalizing top with
  | nil => exact Nat.two_pow_pos _
  | cons p fs ih =>
    obtain ⟨hlt, hrest⟩ : p.1 < top ∧ descends p.1 fs = true := by simpa [descends] using h
    have hlow := ih hrest
    have hfield : min p.2 (2 ^ (top - p.1) - 1) + 1 ≤ 2 ^ (top - p.1) := by
      have := Nat.two_pow_pos (top - p.1)
      omega
    calc packBelow top (p :: fs) < min p.2 (2 ^ (top - p.1) - 1) * 2 ^ p.1 + 2 ^ p.1 := Nat.add_lt_add_left hlow _
      _ = (min p.2 (2 ^ (top - p.1) - 1) + 1) * 2 ^ p.1 := (Nat.succ_mul _ _).symm
      _ ≤ 2 ^ (top - p.1) * 2 ^ p.1 := Nat.mul_le_mul_right _ hfield
      _ = 2 ^ top := by rw [← pow_add, Nat.sub_add_cancel hlt.le]

/-- A bit of the first field, or of those below it. -/
theorem testBit_packBelow {top : Nat} {p : Nat × Nat} {fs : List (Nat × Nat)} (h : descends top (p :: fs) = true) (i : Nat) :
    (packBelow top (p :: fs)).testBit i =
      if i < p.1 then (packBelow p.1 fs).testBit i else (min p.2 (2 ^ (top - p.1) - 1)).testBit (i - p.1) := by
  have hrest : descends p.1 fs = true := ((Bool.and_eq_true _ _).mp h).2
  rw [packBelow, Nat.mul_comm, Nat.testBit_two_pow_mul_add _ (packBelow_lt hrest)]

/-- A bit below the first field is one of the fields below it. -/
theorem testBit_packBelow_below {top : Nat} {p : Nat × Nat} {fs : List (Nat × Nat)} (h : descends top (p :: fs) = true)
    {i : Nat} (hi : i < p.1) : (packBelow top (p :: fs)).testBit i = (packBelow p.1 fs).testBit i := by
  rw [testBit_packBelow h, if_pos hi]

/-- A bit of the first field is the value's, which its width may cut. -/
theorem testBit_packBelow_field {top lo v : Nat} {fs : List (Nat × Nat)} (h : descends top ((lo, v) :: fs) = true) (i : Nat) :
    (packBelow top ((lo, v) :: fs)).testBit (lo + i) = (min v (2 ^ (top - lo) - 1)).testBit i := by
  rw [testBit_packBelow h, if_neg (Nat.not_lt.mpr (Nat.le_add_right _ _)), Nat.add_sub_cancel_left]

theorem bit_packReg {fs : List (Nat × Nat)} (h : descends 64 fs = true) (i : Nat) :
    bit (packReg fs) i = (packBelow 64 fs).testBit i := by
  rw [bit, packReg, BitVec.toNat_ofNat, Nat.mod_eq_of_lt (packBelow_lt h)]

/-- A field of one bit reads as the flag it packs. -/
theorem testBit_packBelow_flag {lo : Nat} (b : Bool) {fs : List (Nat × Nat)}
    (h : descends (lo + 1) ((lo, b.toNat) :: fs) = true) : (packBelow (lo + 1) ((lo, b.toNat) :: fs)).testBit lo = b := by
  refine (testBit_packBelow_field h 0).trans ?_
  rw [Nat.add_sub_cancel_left]
  cases b <;> rfl

theorem maskOf_succ (n : Nat) (f : Nat → Bool) : maskOf (n + 1) f = maskOf n f + if f n then 2 ^ n else 0 := by
  simp [maskOf, List.range_succ]

theorem maskOf_lt (n : Nat) (f : Nat → Bool) : maskOf n f < 2 ^ n := by
  induction n with
  | zero => simp [maskOf]
  | succ n ih =>
    rw [maskOf_succ, Nat.pow_succ]
    split <;> omega

theorem testBit_maskOf (n : Nat) (f : Nat → Bool) (i : Nat) : (maskOf n f).testBit i = (decide (i < n) && f i) := by
  induction n with
  | zero => simp [maskOf]
  | succ n ih =>
    have hsum : maskOf (n + 1) f = 2 ^ n * (f n).toNat + maskOf n f := by
      rw [maskOf_succ, Nat.add_comm]
      cases f n <;> simp
    rw [hsum, Nat.testBit_two_pow_mul_add _ (maskOf_lt n f), ih]
    rcases Nat.lt_trichotomy i n with hlt | rfl | hgt
    · simp [hlt, Nat.lt_succ_of_lt hlt]
    · cases f i <;> simp
    · have hbit : ((f n).toNat).testBit (i - n) = false :=
        Nat.testBit_lt_two_pow ((Bool.toNat_lt _).trans_le (Nat.pow_le_pow_right (by decide : 0 < 2) (by omega : 1 ≤ i - n)))
      rw [if_neg (by omega), hbit, decide_eq_false (by omega), Bool.false_and]

/-- A field as wide as its mask holds it whole. -/
theorem min_maskOf (n : Nat) (f : Nat → Bool) : min (maskOf n f) (2 ^ n - 1) = maskOf n f :=
  Nat.min_eq_left (Nat.le_pred_of_lt (maskOf_lt n f))

theorem testBit_packBelow_mask {lo n : Nat} (f : Nat → Bool) {fs : List (Nat × Nat)}
    (h : descends (lo + n) ((lo, maskOf n f) :: fs) = true) {i : Nat} (hi : i < n) :
    (packBelow (lo + n) ((lo, maskOf n f) :: fs)).testBit (lo + i) = f i := by
  rw [testBit_packBelow_field h, Nat.add_sub_cancel_left, min_maskOf, testBit_maskOf, decide_eq_true hi, Bool.true_and]

/-! ### The fenced units as a register (R340) -/

/-- Settles O7: the four masks of 16 units fill the register. -/
theorem fenceMapRegister : Obligations.FenceMapRegister := by
  refine ⟨rfl, by decide, fun _ _ => rfl, fun s i hi => ?_⟩
  have hbit (j : Nat) : bit (regValue s .fenceMap0) j = (packBelow (48 + 16)
      [(48, maskOf 16 fun i => unitFenced s (unitSpoke i)), (32, maskOf 16 fun i => unitFenced s (unitChainring i)),
        (16, maskOf 16 fun i => unitFenced s (unitCassette i)), (0, maskOf 16 fun i => unitFenced s (unitHbm i))]).testBit j :=
    bit_packReg rfl j
  refine ⟨?spokes, ?chainrings, ?cassettes, ?hbms⟩ <;> rw [hbit]
  case spokes => exact testBit_packBelow_mask _ rfl hi
  case chainrings =>
    rw [testBit_packBelow_below rfl (by simp only; omega)]
    exact testBit_packBelow_mask (lo := 32) _ rfl hi
  case cassettes =>
    rw [testBit_packBelow_below rfl (by simp only; omega), testBit_packBelow_below rfl (by simp only; omega)]
    exact testBit_packBelow_mask (lo := 16) _ rfl hi
  case hbms =>
    rw [testBit_packBelow_below rfl (by simp only; omega), testBit_packBelow_below rfl (by simp only; omega),
      testBit_packBelow_below rfl (by simp only; omega)]
    simpa using testBit_packBelow_mask (lo := 0) (n := 16) (fun i => unitFenced s (unitHbm i)) (fs := []) rfl hi

/-! ### Emergencies (R378) -/

/-- An activation starts or goes on only with no emergency in force (R357, R359). -/
theorem calm_of_emergency {s : State} (h : emergency s = true) : calm s = false := by
  simp [calm, h]

/-- Settles O8: the four conditions are the definition's, and bit 60 is a field of one bit. -/
theorem emergencyInForce : Obligations.EmergencyInForce := by
  refine fun s => ⟨?conditions, ?register, calm_of_emergency⟩
  case conditions => simp [emergency, or_assoc]
  case register =>
    refine (bit_packReg rfl 60).trans ?_
    rw [testBit_packBelow_below rfl (by simp only; omega)]
    exact testBit_packBelow_flag (lo := 60) _ rfl

end Sys2Proof.Proofs

/-! Power: supply, temperatures, the loops, sleeping and waking, resets, and the power commands. -/

namespace Sys2Proof.Proofs

open Sys2Proof.Machine Sys2Proof.Claims Sys2Proof.Laws

-- Checked one after another, which keeps the memory of the check small.
set_option Elab.async false

/-! ### What a record and an alert leave (R329, R406) -/

@[simp] theorem writeRec_power (r : Rec) (s : State) : (writeRec r s).power = s.power := by
  obtain ⟨e, o, n, h⟩ := writeRec_only r s
  rw [h]

@[simp] theorem writeRec_side (r : Rec) (s : State) : (writeRec r s).side = s.side := by
  obtain ⟨e, o, n, h⟩ := writeRec_only r s
  rw [h]

@[simp] theorem writeRec_store (r : Rec) (s : State) : (writeRec r s).store = s.store := by
  obtain ⟨e, o, n, h⟩ := writeRec_only r s
  rw [h]

@[simp] theorem alert_power (i : Nat) (s : State) : (alert i s).power = s.power := by
  obtain ⟨a, n, h⟩ := alert_only i s
  rw [h]

@[simp] theorem alert_store (i : Nat) (s : State) : (alert i s).store = s.store := by
  obtain ⟨a, n, h⟩ := alert_only i s
  rw [h]

/-- The bit of `HS_ALERT` that an alert sets reads 1 (R406). -/
theorem bit_alert {i : Nat} (hi : i < 6) (s : State) : bit (alert i s).side.alert i = true := by
  unfold alert
  split
  next hset => exact hset
  next =>
    have hbit : (BitVec.ofNat 6 (2 ^ i)).toNat.testBit i = true := by
      simp [Nat.mod_eq_of_lt (Nat.pow_lt_pow_right (by decide : 1 < 2) hi)]
    simp only [bit, BitVec.toNat_or, Nat.testBit_or, hbit, Bool.or_true]

@[simp] theorem recPower_power (event limit idx : Nat) (reading : BitVec 32) (s : State) :
    (recPower event limit idx reading s).power = s.power := writeRec_power _ _

@[simp] theorem recPower_side (event limit idx : Nat) (reading : BitVec 32) (s : State) :
    (recPower event limit idx reading s).side = s.side := writeRec_side _ _

@[simp] theorem recPower_store (event limit idx : Nat) (reading : BitVec 32) (s : State) :
    (recPower event limit idx reading s).store = s.store := writeRec_store _ _

/-! ### Events of the supply and of the sensors stay in the power state -/

/-- Two states differ in the power state, the logs, the odometer and the alerts only. -/
def PowerOnly (s t : State) : Prop := ∃ p e n d, t = { s with power := p, err := e, nv := n, side := d }

theorem PowerOnly.eq {s t : State} (h : PowerOnly s t) :
    t = { s with power := t.power, err := t.err, nv := t.nv, side := t.side } := by
  obtain ⟨p, e, n, d, rfl⟩ := h
  rfl

theorem PowerOnly.trans {s t u : State} (h : PowerOnly s t) (h' : PowerOnly t u) : PowerOnly s u := by
  obtain ⟨p, e, n, d, rfl⟩ := h
  obtain ⟨p', e', n', d', rfl⟩ := h'
  exact ⟨p', e', n', d', rfl⟩

theorem PowerOnly.refl (s : State) : PowerOnly s s := ⟨_, _, _, _, rfl⟩

theorem powerOnly_power (s : State) (p : Power) : PowerOnly s { s with power := p } := ⟨_, _, _, _, rfl⟩

theorem powerOnly_recPower (event limit idx : Nat) (reading : BitVec 32) (s : State) :
    PowerOnly s (recPower event limit idx reading s) := by
  obtain ⟨e, o, n, h⟩ := writeRec_only _ s
  exact ⟨_, _, _, _, h⟩

theorem powerOnly_alert (i : Nat) (s : State) : PowerOnly s (alert i s) := by
  obtain ⟨a, n, h⟩ := alert_only i s
  exact ⟨_, _, _, _, h⟩

/-- A record of a power event, and the alert raised for it. -/
theorem powerOnly_reported (i event limit idx : Nat) (reading : BitVec 32) (s : State) :
    PowerOnly s (alert i (recPower event limit idx reading s)) :=
  (powerOnly_recPower ..).trans (powerOnly_alert ..)

/-! ### Brake (R375, R379, R380) -/

/-- The state that Brake leaves a module in: one in Kickstand or asleep keeps its own. -/
def brakedSt : PState → PState
  | .kickstand => .kickstand
  | .freewheel => .freewheel
  | _ => .brake

theorem brakeOn_eq (s : State) :
    brakeOn s = { s with power := { s.power with mhz := List.replicate 16 600, st := brakedSt s.power.st } } := by
  unfold brakeOn
  cases hst : s.power.st <;> simp [brakedSt, hst]

theorem engage_of_mem {c : BrakeCause} {s : State} (h : c ∈ s.power.causes) (event limit idx : Nat) (reading : BitVec 32) :
    engage c event limit idx reading s = s := by
  simp [engage, h]

theorem power_engage_of_new {c : BrakeCause} {s : State} (h : c ∉ s.power.causes) (event limit idx : Nat)
    (reading : BitVec 32) : (engage c event limit idx reading s).power = { s.power with
      causes := s.power.causes ++ [c], emergAt := some s.now, mhz := List.replicate 16 600, st := brakedSt s.power.st } := by
  simp only [engage, List.contains_eq_mem, h, decide_false, Bool.false_eq_true, if_false, brakeOn_eq]
  split <;> simp [emergencyBegins, State.now]

/-- A safety override raises the alert of the power limits. -/
theorem bit_engage_of_new {c : BrakeCause} {s : State} (h : c ∉ s.power.causes) (hsafe : c ≠ .brakeW)
    (event limit idx : Nat) (reading : BitVec 32) : bit (engage c event limit idx reading s).side.alert 3 = true := by
  simp only [engage, List.contains_eq_mem, h, decide_false, Bool.false_eq_true, if_false, brakeOn_eq, hsafe]
  exact bit_alert (by decide) _

theorem mem_causes_engage (c : BrakeCause) (event limit idx : Nat) (reading : BitVec 32) (s : State) :
    c ∈ (engage c event limit idx reading s).power.causes := by
  by_cases h : c ∈ s.power.causes
  · rwa [engage_of_mem h]
  · simp [power_engage_of_new h]

theorem causes_subset_engage (c : BrakeCause) (event limit idx : Nat) (reading : BitVec 32) (s : State) :
    s.power.causes ⊆ (engage c event limit idx reading s).power.causes := by
  by_cases h : c ∈ s.power.causes
  · rw [engage_of_mem h]
    exact List.Subset.refl _
  · simp [power_engage_of_new h]

/-- A cause of Brake changes neither the supply hold nor a reading or the policy. -/
theorem power_engage (c : BrakeCause) (event limit idx : Nat) (reading : BitVec 32) (s : State) : ∃ cs at_ m st,
    (engage c event limit idx reading s).power =
      { s.power with causes := cs, emergAt := at_, mhz := m, st := st } := by
  by_cases h : c ∈ s.power.causes
  · exact ⟨_, _, _, _, by rw [engage_of_mem h]⟩
  · exact ⟨_, _, _, _, power_engage_of_new h ..⟩

theorem powerOnly_engage (c : BrakeCause) (event limit idx : Nat) (reading : BitVec 32) (s : State) :
    PowerOnly s (engage c event limit idx reading s) := by
  unfold engage
  split
  · exact .refl s
  · have hbegun := (powerOnly_power s { s.power with causes := s.power.causes ++ [c], emergAt := some s.now }).trans
      (powerOnly_recPower event limit idx reading _)
    rw [brakeOn_eq]
    split
    · exact hbegun.trans (powerOnly_power ..)
    · exact (hbegun.trans (powerOnly_alert ..)).trans (powerOnly_power ..)

theorem powerOnly_brakeOff (s : State) : PowerOnly s (brakeOff s) := by
  unfold brakeOff
  split
  · exact (powerOnly_power s _).trans (powerOnly_recPower ..)
  · exact .refl s

/-- Brake ends with its last cause, and nothing else of the power state changes. -/
theorem power_brakeOff (s : State) : (brakeOff s).power = { s.power with
    st := if s.power.st = .brake then (if s.power.causes = [] then .cruise else .brake) else s.power.st } := by
  unfold brakeOff
  by_cases hst : s.power.st = .brake
  · by_cases hcauses : s.power.causes = []
    · simp [hcauses, hst]
    · simp [hcauses, ← hst]
  · simp [hst]

theorem endOverride_only (w : Nat) (c : BrakeCause) (s : State) :
    PowerOnly s (endOverride w c s) ∧ (endOverride w c s).power = s.power := by
  unfold endOverride
  split
  · exact ⟨.refl s, rfl⟩
  · exact ⟨powerOnly_reported .., by simp⟩

theorem foldl_endOverride_only (w : Nat) (cs : List BrakeCause) (s : State) :
    PowerOnly s (cs.foldl (fun s c => endOverride w c s) s) ∧ (cs.foldl (fun s c => endOverride w c s) s).power = s.power := by
  induction cs generalizing s with
  | nil => exact ⟨.refl s, rfl⟩
  | cons c cs ih =>
    obtain ⟨honly, hpower⟩ := endOverride_only w c s
    obtain ⟨honly', hpower'⟩ := ih (endOverride w c s)
    exact ⟨honly.trans honly', hpower'.trans hpower⟩

/-! ### The supply (R370, R371, R373, R379, R380) -/

theorem supplyWarning_holds {s : State} (hup : s.phase = .running) {mv : Nat} (hmv : mv ≤ 45000) :
    ∃ t, exec (.supplyWarning mv) s = .next t ∧
      t = { s with power := t.power, err := t.err, nv := t.nv, side := t.side } ∧
      t.power.hold = true ∧ t.power.vinMv = mv ∧ BrakeCause.supply ∈ t.power.causes ∧ bit t.side.alert 3 = true ∧
      (BrakeCause.supply ∉ s.power.causes → s.power.st ≠ .kickstand → s.power.st ≠ .freewheel →
        t.power.st = .brake ∧ t.power.mhz = List.replicate 16 600) := by
  obtain ⟨v, hv⟩ : ∃ v : State, v = { s with power := { s.power with hold := true, vinMv := mv } } := ⟨_, rfl⟩
  have honly : PowerOnly s v := hv ▸ powerOnly_power s _
  have hpower : v.power = { s.power with hold := true, vinMv := mv } := by rw [hv]
  have hexec : exec (.supplyWarning mv) s = .next (if s.power.causes.contains .supply
      then alert 3 (recPower 1 2 0 (BitVec.ofNat 32 mv) v) else engage .supply 1 2 0 (BitVec.ofNat 32 mv) v) := by
    simp only [exec, execSupplyWarning, whenUp_of_running hup, Nat.not_lt.mpr hmv, if_false, hv]
  by_cases hold : BrakeCause.supply ∈ s.power.causes
  · rw [if_pos (by simpa using hold)] at hexec
    refine ⟨_, hexec, (honly.trans (powerOnly_reported ..)).eq, ?_, ?_, ?_, bit_alert (by decide) _,
      fun hnew => absurd hold hnew⟩ <;> rw [alert_power, recPower_power, hpower]
    exact hold
  · rw [if_neg (by simpa using hold)] at hexec
    have hnew : BrakeCause.supply ∉ v.power.causes := by rwa [hpower]
    refine ⟨_, hexec, (honly.trans (powerOnly_engage ..)).eq, ?_, ?_, mem_causes_engage ..,
      bit_engage_of_new hnew (by decide) .., fun _ hkick hfree => ?_⟩ <;> rw [power_engage_of_new hnew, hpower]
    refine ⟨?_, rfl⟩
    cases hst : s.power.st <;> simp_all [brakedSt]

theorem supplyRecovery_releases {s : State} (hup : s.phase = .running) {mv : Nat} (hhold : s.power.hold = true)
    (hmv : 46000 < mv) : ∃ t, exec (.supplyRecovery mv) s = .next t ∧
      t = { s with power := t.power, err := t.err, nv := t.nv, side := t.side } ∧
      t.power.hold = false ∧ t.power.vinMv = mv ∧ t.power.causes = s.power.causes.filter (· ≠ .supply) ∧
      (s.power.st = .brake → t.power.st = if t.power.causes = [] then .cruise else .brake) ∧
      (s.power.st ≠ .brake → t.power.st = s.power.st) := by
  obtain ⟨v, hv⟩ : ∃ v : State, v = { s with power := { s.power with
    hold := false, vinMv := mv, causes := s.power.causes.filter (· ≠ .supply) } } := ⟨_, rfl⟩
  have hexec : exec (.supplyRecovery mv) s = .next (brakeOff (alert 3 (recPower 2 0 0 0 v))) := by
    simp only [exec, execSupplyRecovery, whenUp_of_running hup, hhold, Bool.not_true, Nat.not_le.mpr hmv,
      decide_false, Bool.or_self, Bool.false_eq_true, if_false, hv]
  have honly : PowerOnly s v := hv ▸ powerOnly_power s _
  have hpower : (alert 3 (recPower 2 0 0 0 v)).power = v.power := by simp
  refine ⟨_, hexec, (honly.trans ((powerOnly_reported ..).trans (powerOnly_brakeOff _))).eq, ?_⟩
  rw [power_brakeOff, hpower, hv]
  exact ⟨rfl, rfl, rfl, fun hst => if_pos hst, fun hst => if_neg hst⟩

theorem overVoltage_engages {s : State} (hup : s.phase = .running) {mv : Nat} (hmv : 62000 < mv) :
    ∃ t, exec (.overVoltage mv) s = .next t ∧
      t = { s with power := t.power, err := t.err, nv := t.nv, side := t.side } ∧
      t.power.vinMv = mv ∧ BrakeCause.overVoltage ∈ t.power.causes ∧ t.power.hold = s.power.hold := by
  obtain ⟨v, hv⟩ : ∃ v : State, v = { s with power := { s.power with vinMv := mv } } := ⟨_, rfl⟩
  have hexec : exec (.overVoltage mv) s = .next (engage .overVoltage 8 2 0 (BitVec.ofNat 32 mv) v) := by
    simp only [exec, execOverVoltage, whenUp_of_running hup, Nat.not_le.mpr hmv, if_false, hv]
  obtain ⟨cs, at_, m, st, hpower⟩ := power_engage .overVoltage 8 2 0 (BitVec.ofNat 32 mv) v
  have honly : PowerOnly s v := hv ▸ powerOnly_power s _
  exact ⟨_, hexec, (honly.trans (powerOnly_engage ..)).eq, by rw [hpower, hv], mem_causes_engage ..,
    by rw [hpower, hv]⟩

theorem currentLimit_engages {s : State} (hup : s.phase = .running) {ma : Nat} (hma : 70000 ≤ ma) :
    ∃ t, exec (.currentLimit ma) s = .next t ∧
      t = { s with power := t.power, err := t.err, nv := t.nv, side := t.side } ∧
      t.power.iinMa = ma ∧ BrakeCause.current ∈ t.power.causes ∧ t.power.hold = s.power.hold := by
  obtain ⟨v, hv⟩ : ∃ v : State, v = { s with power := { s.power with iinMa := ma } } := ⟨_, rfl⟩
  have hexec : exec (.currentLimit ma) s = .next (engage .current 5 1 0 (BitVec.ofNat 32 ma) v) := by
    simp only [exec, execCurrentLimit, whenUp_of_running hup, Nat.not_lt.mpr hma, if_false, hv]
  obtain ⟨cs, at_, m, st, hpower⟩ := power_engage .current 5 1 0 (BitVec.ofNat 32 ma) v
  have honly : PowerOnly s v := hv ▸ powerOnly_power s _
  exact ⟨_, hexec, (honly.trans (powerOnly_engage ..)).eq, by rw [hpower, hv], mem_causes_engage ..,
    by rw [hpower, hv]⟩

/-- A cause engages where its limit is met. -/
theorem engage_if_only (p : Prop) [Decidable p] (c : BrakeCause) (event limit idx : Nat) (reading : BitVec 32) (s : State) :
    PowerOnly s (if p then engage c event limit idx reading s else s) ∧
      (∃ cs at_ m st, (if p then engage c event limit idx reading s else s).power =
        { s.power with causes := cs, emergAt := at_, mhz := m, st := st }) ∧
      s.power.causes ⊆ (if p then engage c event limit idx reading s else s).power.causes ∧
      (p → c ∈ (if p then engage c event limit idx reading s else s).power.causes) := by
  split
  next hp => exact ⟨powerOnly_engage .., power_engage .., causes_subset_engage .., fun _ => mem_causes_engage ..⟩
  next hp => exact ⟨.refl s, ⟨_, _, _, _, rfl⟩, List.Subset.refl _, fun h => absurd h hp⟩

theorem inputPowerLimit_engages {s : State} (hup : s.phase = .running) (w : Nat) :
    ∃ t, exec (.inputPowerLimit w) s = .next t ∧
      t = { s with power := t.power, err := t.err, nv := t.nv, side := t.side } ∧ t.power.pinW = w ∧
      (2800 < w → BrakeCause.inputPower ∈ t.power.causes) ∧
      (s.power.policy.brakeW ≤ w → BrakeCause.brakeW ∈ t.power.causes) := by
  obtain ⟨v, hv⟩ : ∃ v : State, v = { s with power := { s.power with pinW := w } } := ⟨_, rfl⟩
  obtain ⟨x, hx⟩ : ∃ x : State, x = if 2800 < w then engage .inputPower 5 4 0 (BitVec.ofNat 32 w) v else v := ⟨_, rfl⟩
  have hexec : exec (.inputPowerLimit w) s =
      .next (if x.power.policy.brakeW ≤ w then engage .brakeW 3 5 0 (BitVec.ofNat 32 w) x else x) := by
    simp only [exec, execInputPowerLimit, whenUp_of_running hup, hx, hv]
  have hset : PowerOnly s v := hv ▸ powerOnly_power s _
  obtain ⟨honly, ⟨cs, at_, m, st, hpower⟩, -, hlimit⟩ := engage_if_only (2800 < w) .inputPower 5 4 0 (BitVec.ofNat 32 w) v
  obtain ⟨honly', ⟨cs', at', m', st', hpower'⟩, hkeep, hbrake⟩ :=
    engage_if_only (x.power.policy.brakeW ≤ w) .brakeW 3 5 0 (BitVec.ofNat 32 w) x
  rw [← hx] at honly hpower hlimit
  refine ⟨_, hexec, (hset.trans (honly.trans honly')).eq, ?_, fun h => hkeep (hlimit h), fun h => hbrake ?_⟩
  · rw [hpower', hpower, hv]
  · rwa [hpower, hv]

theorem brakeRelease_releases {s : State} (hup : s.phase = .running) {w : Nat} (hw : w * 10 ≤ s.power.policy.brakeW * 9) :
    ∃ t, exec (.brakeRelease w) s = .next t ∧
      t = { s with power := t.power, err := t.err, nv := t.nv, side := t.side } ∧ t.power.pinW = w ∧
      t.power.causes = s.power.causes.filter (· = .supply) ∧
      (s.power.st = .brake → t.power.st = if t.power.causes = [] then .cruise else .brake) := by
  obtain ⟨v, hv⟩ : ∃ v : State, v = { s with power := { s.power with causes := s.power.causes.filter (· = .supply), pinW := w } } := ⟨_, rfl⟩
  have hexec : exec (.brakeRelease w) s = .next (brakeOff
      ((s.power.causes.filter (· ≠ .supply)).foldl (fun s c => endOverride w c s) v)) := by
    simp only [exec, execBrakeRelease, whenUp_of_running hup, Nat.not_lt.mpr hw, if_false, hv]
  obtain ⟨honly, hpower⟩ := foldl_endOverride_only w (s.power.causes.filter (· ≠ .supply)) v
  have hset : PowerOnly s v := hv ▸ powerOnly_power s _
  refine ⟨_, hexec, (hset.trans (honly.trans (powerOnly_brakeOff _))).eq, ?_⟩
  rw [power_brakeOff, hpower, hv]
  exact ⟨rfl, rfl, fun hst => if_pos hst⟩

theorem supplyEventsComplete : SupplyEventsComplete := fun _ hup =>
  ⟨fun _ hmv => supplyWarning_holds hup hmv, fun _ hhold hmv => supplyRecovery_releases hup hhold hmv,
    fun _ hmv => overVoltage_engages hup hmv, fun _ hma => currentLimit_engages hup hma,
    fun w => inputPowerLimit_engages hup w, fun _ hw => brakeRelease_releases hup hw⟩

/-! ### Parking a module whose tile still has a stream to restart (R166, R169, R196, R318, R377) -/

/-- A context that is not blocked but still names stream 0 to restart, from a descriptor at byte 1 of the pannier. -/
def strandedCtx : Ctx := { Ctx.blank with s := updAt Ctx.blank.s 1 fun _ => 1, block := .stream 0 (some 1) }

/-- Stream 0, which runs and has no beat on its way. -/
def strandedStream : Stream :=
  { n := 0, ctx := 0, va := 0, pannier := 0, rowBytes := 64, rows := 1, stride := 64, doneSync := 0, toStore := false
    next := 0, sent := false, running := true, stopping := false, late := false, status := .ok }

/-- The module of `lastBundle`, whose rider has an event ring at VA 0x2000, with that context and stream on its tile. -/
def stranded : State :=
  { lastBundle with
    port := { lastBundle.port with version := some 2 }
    tiles := [{ lastTile with ctxs := strandedCtx :: List.replicate 15 Ctx.blank, streams := [strandedStream] }] }

/-- The trip stops the stream, which starts it again for the context; the descriptor faults it, and the ring takes the
event record, of type 2. -/
theorem thermalTrip_stranded : ∃ t, exec (.thermalTrip 0 1841) stranded = .next t ∧ memGet t.store.mem 0x2000 = 2 :=
  ⟨_, rfl, by decide +kernel⟩

/-- Refutes O10: a thermal trip parks the module, which stops its streams. In `stranded` a context that waits to start the
stream again faults on its descriptor (R169, R196), and the event record of that fault is in the store at once (R318). -/
theorem not_supplyAndTemperatureComplete : ¬ Obligations.SupplyAndTemperatureComplete := by
  rintro ⟨-, htemp⟩
  obtain ⟨-, htrip, -⟩ := htemp stranded 1841
  obtain ⟨t, hexec, -, -, -, hmem, -⟩ := htrip 0 115 rfl (by decide) (by decide) (by decide)
  obtain ⟨u, hexec', hbyte⟩ := thermalTrip_stranded
  obtain rfl : t = u := Host.Outcome.next.inj (hexec.symm.trans hexec')
  rw [hmem] at hbyte
  exact absurd hbyte (by decide)

/-- `POWER_POLICY` with `STATE_REQ` 4 on the port. -/
def parkCmd : Cmd := Tests.policyCmd 4

theorem powerPolicy_stranded : ∃ t, exec (.powerPolicy parkCmd) stranded = .next t ∧ memGet t.store.mem 0x2000 = 2 :=
  ⟨_, rfl, by decide +kernel⟩

theorem complete_store (o : Open) (st : Status) (result : Word) (payload : List Byte) (s : State) :
    (complete o st result payload s).store = s.store := by
  obtain ⟨p, q, h⟩ := complete_only o st result payload s
  rw [h]

/-- Refutes O12: `STATE_REQ` 4 parks the module as a thermal trip does, and writes the store in the same way. -/
theorem not_powerCommandsComplete : ¬ Obligations.PowerCommandsComplete := by
  rintro ⟨-, -, hpark, -⟩
  have hrun : runsIn 0x580 parkCmd stranded = some (Tests.into 0x580 parkCmd stranded) := Tests.runs (by decide +kernel)
  obtain ⟨w, hexec, -, -, hmem⟩ := hpark parkCmd stranded _ hrun (by decide +kernel) (by decide +kernel)
  obtain ⟨t, hexec', hbyte⟩ := powerPolicy_stranded
  obtain rfl : replied 0x580 parkCmd .ok 0 [] w = t := Host.Outcome.next.inj (hexec.symm.trans hexec')
  rw [replied, complete_store, hmem] at hbyte
  exact absurd hbyte (by decide +kernel)

/-! ### The loops of the clocks and the links (R375, R379) -/

theorem getElem?_map_updAt {l : List Nat} {k : Nat} (hk : k < l.length) (v : Nat) (g : Nat → Nat) :
    ((updAt l k fun _ => v).map g)[k]? = some (g v) := by
  simp [updAt, hk]

/-- A clock that the loop finds while the die is not above its target, cut to whole steps of 100 MHz, lies between the floor
and the larger of floor and ceiling. -/
theorem clock_within {floor ceil top mhz : Nat} (hstep : floor % 100 = 0) (htop : top ≤ ceil) :
    floor ≤ min (max floor (min mhz top) / 100 * 100) (max top floor) ∧
      min (max floor (min mhz top) / 100 * 100) (max top floor) ≤ max floor ceil := by
  omega

/-- The report that a clock is held below the floor, or no longer is (R380). -/
def slowReported (low was : Bool) (i : Nat) (reading : BitVec 32) (x : State) : State :=
  if low && !was then alert 3 (recPower 5 3 i reading (emergencyBegins x))
  else if was && !low then alert 3 (recPower 6 3 i reading x) else x

/-- The report leaves the clocks, the state and the input power. -/
theorem slowReported_only (low was : Bool) (i : Nat) (reading : BitVec 32) (x : State) :
    PowerOnly x (slowReported low was i reading x) ∧ (slowReported low was i reading x).power.pinW = x.power.pinW ∧
      (slowReported low was i reading x).power.mhz = x.power.mhz ∧ (slowReported low was i reading x).power.st = x.power.st := by
  unfold slowReported
  split
  · exact ⟨(powerOnly_power x _).trans (powerOnly_reported ..), by simp [emergencyBegins]⟩
  · split
    · exact ⟨powerOnly_reported .., by simp⟩
    · exact ⟨.refl x, rfl, rfl, rfl⟩

/-- The state with new clocks, of which some may be held below the floor (R375, R379). -/
def withClocks (all : List Nat) (low : Bool) (v : State) : State :=
  { v with
    power.mhz := all
    power.slow := low
    power.st := if all.any fun f => decide (2400 < f) then .sprint else .cruise }

/-- Some clock runs, and below the floor. -/
def belowFloor (floor : Nat) (all : List Nat) : Bool := all.any fun f => decide (0 < f) && decide (f < floor)

/-- A step of the loop on an awake module whose die is not above its target: the die's clock is the one found, within bounds. -/
theorem vfTick_of_cool {s : State} (k : Fin 16) (mhz w : Nat) (temp : BitVec 16)
    (hst : s.power.st = .cruise ∨ s.power.st = .sprint) (hcool : hotter temp (spokeTarget s) = false) :
    ∃ (v : State) (top : Nat) (all : List Nat), PowerOnly s v ∧ v.power.pinW = w ∧ top ≤ s.power.policy.ceilMhz ∧
      all = ((updAt s.power.mhz k.val fun _ => max s.power.policy.floorMhz (min mhz top) / 100 * 100).map
        fun f => min f (max top s.power.policy.floorMhz)) ∧
      vfTick k mhz w temp s = slowReported (belowFloor s.power.policy.floorMhz all) v.power.slow k.val (reading16 temp)
        (withClocks all (belowFloor s.power.policy.floorMhz all) v) := by
  obtain ⟨v, hv⟩ : ∃ v : State, v = { setTemp k.val temp s with power.pinW := w } := ⟨_, rfl⟩
  obtain ⟨hvst, hvpolicy, hvmhz, hvpin⟩ : v.power.st = s.power.st ∧ v.power.policy = s.power.policy ∧
      v.power.mhz = s.power.mhz ∧ v.power.pinW = w := by rw [hv]; exact ⟨rfl, rfl, rfl, rfl⟩
  have hawake : ¬ ((decide (v.power.st ≠ .cruise) && decide (v.power.st ≠ .sprint)) = true) := by
    rw [hvst]; rcases hst with hst | hst <;> simp [hst]
  have hcool' : hotter temp (spokeTarget v) = false := by rwa [spokeTarget, hvpolicy]
  have htop : (if sprintOk v = true then s.power.policy.ceilMhz else min 2400 s.power.policy.ceilMhz) ≤
      s.power.policy.ceilMhz := by
    split
    · exact le_rfl
    · exact Nat.min_le_right ..
  refine ⟨v, _, _, hv ▸ powerOnly_power s _, hvpin, htop, rfl, ?_⟩
  unfold vfTick
  rw [← hv]
  dsimp only
  rw [if_neg hawake, hcool', hvpolicy, hvmhz, Bool.false_and, if_neg Bool.false_ne_true]
  simp only [slowReported, belowFloor, withClocks, hvpolicy]

theorem vfLoopTick_bounds {s : State} (hup : s.phase = .running) (k : Fin 16) (mhz w : Nat) (temp : BitVec 16)
    (hst : s.power.st = .cruise ∨ s.power.st = .sprint) (hcool : hotter temp (spokeTarget s) = false)
    (hlen : s.power.mhz.length = 16) (hstep : s.power.policy.floorMhz % 100 = 0) :
    ∃ t, exec (.vfLoopTick k mhz w temp) s = .next t ∧
      t = { s with power := t.power, err := t.err, nv := t.nv, side := t.side } ∧ t.power.pinW = w ∧
      (∃ f, t.power.mhz[k.val]? = some f ∧ s.power.policy.floorMhz ≤ f ∧
        f ≤ max s.power.policy.floorMhz s.power.policy.ceilMhz) ∧
      (t.power.st = .sprint ↔ ∃ f ∈ t.power.mhz, 2400 < f) := by
  obtain ⟨v, top, all, hset, hpin, htop, hall, htick⟩ := vfTick_of_cool (s := s) k mhz w temp hst hcool
  have hexec : exec (.vfLoopTick k mhz w temp) s = .next (vfTick k mhz w temp s) :=
    congrArg Host.Outcome.next (whenUp_of_running hup _)
  rw [htick] at hexec
  generalize belowFloor s.power.policy.floorMhz all = low at hexec
  obtain ⟨honly, hpin', hmhz, hnew⟩ := slowReported_only low v.power.slow k.val (reading16 temp) (withClocks all low v)
  refine ⟨_, hexec, ((hset.trans (powerOnly_power v _)).trans honly).eq, hpin'.trans hpin, ?bounds, ?sprint⟩
  case bounds =>
    refine ⟨_, ?_, clock_within (mhz := mhz) hstep htop⟩
    rw [hmhz, withClocks, hall, getElem?_map_updAt (by omega)]
  case sprint =>
    rw [hmhz, hnew]
    simp [withClocks]

/-- A policy names the narrowest width of every link (R379). -/
theorem linkWidthNarrow_port {s : State} (hup : s.phase = .running) (i : Fin 24) (queued : Bool)
    (hoxf : (portAt s i.val).oxf = true) (hlink : portUp s i.val = true) :
    exec (.linkWidthNarrow false i queued) s = .next
      (updPort i.val (fun p => { p with width := if queued then 8 else max (widthFloor s) (p.width / 2) }) s) := by
  refine congrArg Host.Outcome.next ((whenUp_of_running hup _).trans ?_)
  simp only [linkWidth, Bool.false_eq_true, if_false, hoxf, hlink, Bool.and_self, if_true]

/-! ### Coast, Freewheel and their wakes (R374 to R376) -/

theorem coastIdleTimer_coasts {s : State} (hup : s.phase = .running) (hst : s.power.st = .cruise)
    (hauto : bit s.power.policy.flags 1 = true) (hidle : moduleIdle s = true) :
    exec .coastIdleTimer s = .next { s with power.st := .coast } := by
  refine congrArg Host.Outcome.next ((whenUp_of_running hup _).trans ?_)
  simp [hst, hauto, hidle]

/-- The state that a sleeping module wakes to: Brake while a cause holds. -/
theorem awake_eq (s : State) : (if s.power.causes.isEmpty = true then PState.cruise else .brake) =
    if s.power.causes = [] then .cruise else .brake := by
  simp [List.isEmpty_iff]

theorem coastWake_wakes {s : State} (hup : s.phase = .running) (hst : s.power.st = .coast) :
    exec .coastWake s = .next { s with power.st := if s.power.causes = [] then .cruise else .brake } := by
  refine congrArg Host.Outcome.next ((whenUp_of_running hup _).trans ?_)
  rw [if_pos hst, ← awake_eq]
  simp only [wakeUp, hst]

/-- A wake from Freewheel: the module's state, and its links, each of which that is to be up begins to retrain (R257). -/
theorem wakeUp_of_freewheel {s : State} (hst : s.power.st = .freewheel) :
    wakeUp s = { s with
      power := { s.power with wakeMs := 0, st := if s.power.causes = [] then .cruise else .brake }
      fab.ports := s.fab.ports.mapIdx fun i p =>
        if p.mode ≠ 0 && !p.up && !unitFenced s (unitPort i) then
          { p with retraining := true, down := false, retrains := bumpSat p.retrains 1 }
        else p } := by
  rw [← awake_eq]
  simp only [wakeUp, hst]
  rfl

theorem freewheel_wakes {s : State} (hup : s.phase = .running) (hst : s.power.st = .freewheel) :
    ∃ t, exec .wakeN s = .next t ∧ (s.power.wakeMs ≠ 0 → exec .freewheelWakeTimer s = .next t) ∧
      t = { s with power := { s.power with wakeMs := 0, st := t.power.st }, fab.ports := t.fab.ports } ∧
      t.power.st = (if s.power.causes = [] then .cruise else .brake) ∧
      ∀ i p, s.fab.ports[i]? = some p → ∃ q, t.fab.ports[i]? = some q ∧ q.up = p.up ∧
        (p.mode ≠ 0 → p.up = false → unitFenced s (unitPort i) = false → q.retraining = true) := by
  have hwake : exec .wakeN s = .next (wakeUp s) := by
    refine congrArg Host.Outcome.next ((whenUp_of_running hup _).trans ?_)
    rw [if_pos hst]
  have htimer (h : s.power.wakeMs ≠ 0) : exec .freewheelWakeTimer s = .next (wakeUp s) := by
    refine congrArg Host.Outcome.next ((whenUp_of_running hup _).trans ?_)
    simp [hst, h]
  refine ⟨wakeUp s, hwake, htimer, ?_⟩
  rw [wakeUp_of_freewheel hst]
  refine ⟨rfl, rfl, fun i p hp => ⟨_, by rw [List.getElem?_mapIdx, hp, Option.map_some], ?_, fun hmode hdown hunfenced => ?_⟩⟩
  · split <;> rfl
  · simp [show ¬ p.mode = 0#4 from hmode, hdown, hunfenced]

theorem powerLoopsAndWakesComplete : PowerLoopsAndWakesComplete := fun _ hup =>
  ⟨fun k mhz w temp hst hcool hlen hstep => vfLoopTick_bounds hup k mhz w temp hst hcool hlen hstep,
    fun _ _ => congrArg Host.Outcome.next (whenUp_of_running hup _),
    fun i queued hoxf hlink => linkWidthNarrow_port hup i queued hoxf hlink,
    fun hst hauto hidle => coastIdleTimer_coasts hup hst hauto hidle,
    fun hst => coastWake_wakes hup hst, fun hst => freewheel_wakes hup hst⟩

/-! ### Power lost and back, and `RESET_N` (R372, R373, R400, R403, R404) -/

theorem memGet_filter_frames (m : List Host.Cell) (ids : List Nat) (a : Nat) :
    memGet (m.filter fun c => ids.contains (c.1 / 65536)) a = memGet m a ∨
      memGet (m.filter fun c => ids.contains (c.1 / 65536)) a = 0 := by
  by_cases ha : ids.contains (a / 65536) = true
  · exact .inl (memGet_filter fun _ => ha)
  · refine .inr (memGet_of_notMem fun c hc hca => ha ?_)
    rw [← hca]
    exact (List.mem_filter.mp hc).2

/-- Programs that the loss of power cuts leave records only (R346). -/
theorem foldl_recCut_only (ps : List FlashProg) (s : State) : ∃ e o n,
    ps.foldl (fun s p => recCut p s) s = { s with err := e, nv := { s.nv with odometer := o, odoPos := n } } := by
  refine List.foldlRecOn (motive := fun t => ∃ e o n, t = { s with err := e, nv := { s.nv with odometer := o, odoPos := n } })
    ps _ ⟨s.err, s.nv.odometer, s.nv.odoPos, rfl⟩ ?_
  rintro t ⟨e, o, n, rfl⟩ p -
  exact writeRec_only _ _

/-- The package without power: a cold reset of the state in which only records of cut programs were added. -/
theorem powerOff_eq {s : State} (h : s.phase ≠ .off) (cause : BitVec 32) : ∃ e o n,
    powerOff cause s = sideDark { coldReset cause .off { s with err := e, nv := { s.nv with odometer := o, odoPos := n } } with
      side.pwrGood := false } := by
  obtain ⟨e, o, n, hcut⟩ := foldl_recCut_only (s.store.progs.filter fun p => !p.held) s
  refine ⟨e, o, n, ?_⟩
  simp only [powerOff, if_neg h, hcut]

/-- The bridge without a supply forgets its numbers and its TAPs' instructions only (R402). -/
theorem sideDark_eq (s : State) : ∃ e d i j,
    sideDark s = { s with side := { s.side with eid := e, dynAddr := d, ibi := i, jtag := j } } := by
  unfold sideDark
  split <;> exact ⟨_, _, _, _, rfl⟩

theorem brownOut_resets {s : State} {mv : Nat} (hmv : mv ≤ 41000) (h : s.phase ≠ .off) :
    ∃ t, exec (.brownOut mv) s = .next t ∧ t.phase = .off ∧
      t.cause = (if s.phase = .stopped then 4 else 2) ∧ t.side.pwrGood = false ∧ t.tiles = [] ∧ t.queues = [] ∧
      t.comp = none ∧ t.variant = s.variant ∧ t.nv.rollbackSvn = s.nv.rollbackSvn ∧
      (∀ a, memGet t.store.mem a = memGet s.store.mem a ∨ memGet t.store.mem a = 0) := by
  have hexec : exec (.brownOut mv) s = .next (powerOff 2 s) := by
    simp only [exec, execBrownOut, Nat.not_lt.mpr hmv, if_false, if_neg h]
  obtain ⟨e, o, n, hoff⟩ := powerOff_eq h 2
  obtain ⟨e', d, i, j, hdark⟩ := sideDark_eq { coldReset 2 .off { s with
    err := e, nv := { s.nv with odometer := o, odoPos := n } } with side.pwrGood := false }
  refine ⟨_, hexec, ?_⟩
  rw [hoff, hdark]
  exact ⟨rfl, rfl, rfl, rfl, rfl, rfl, rfl, rfl, fun a => memGet_filter_frames s.store.mem _ a⟩

theorem converterStop_resets {s : State} {mv : Nat} (hmv : 64000 < mv) (h : s.phase ≠ .off) :
    ∃ t, exec (.converterStop mv) s = .next t ∧ t.phase = .off ∧ t.power.overV = true ∧ t.side.pwrGood = false ∧
      t.tiles = [] ∧ t.comp = none := by
  have hexec : exec (.converterStop mv) s = .next { powerOff 1 s with power.overV := true } := by
    simp only [exec, execConverterStop, Nat.not_le.mpr hmv, decide_false, Bool.false_or, decide_eq_true_eq, if_neg h]
  obtain ⟨e, o, n, hoff⟩ := powerOff_eq h 1
  obtain ⟨e', d, i, j, hdark⟩ := sideDark_eq { coldReset 1 .off { s with
    err := e, nv := { s.nv with odometer := o, odoPos := n } } with side.pwrGood := false }
  refine ⟨_, hexec, ?_⟩
  rw [hoff, hdark]
  exact ⟨rfl, rfl, rfl, rfl, rfl⟩

/-- The converters are back in regulation with `RESET_N` high: boot time 0 (R403, R405). -/
theorem powerOn_of_high {s : State} (h : s.side.resetLow = false) : powerOn s = { s with
    phase := .released
    power.overV := false
    power.hotStop := false
    side := { s.side with pwrGood := true, sampled := s.side.pins } } := by
  simp only [powerOn, h, Bool.false_eq_true, if_false, bootTimeZero]

theorem overVoltageRestart_restarts {s : State} {mv : Nat} (hoff : s.phase = .off) (hover : s.power.overV = true)
    (hlow : 48000 ≤ mv) (hhigh : mv ≤ 60000) : exec (.overVoltageRestart mv) s = .next (powerOn s) := by
  simp [exec, execOverVoltageRestart, hoff, hover, hlow, hhigh]

theorem supplyReturn_restarts {s : State} {mv : Nat} (hoff : s.phase = .off) (hover : s.power.overV = false)
    (hhot : s.power.hotStop = false) (hmv : 48000 ≤ mv) : exec (.supplyReturn mv) s = .next (powerOn s) := by
  simp [exec, execSupplyReturn, hoff, hover, hhot, hmv]

theorem busbarEngage_restarts {s : State} {mv : Nat} (hoff : s.phase = .off) (hmv : 48000 ≤ mv) :
    exec (.busbarEngage mv) s = .next (powerOn { s with cause := 1 }) := by
  simp [exec, execBusbarEngage, hoff, hmv]

theorem resetN_low {s : State} (h : s.phase ≠ .off) : ∃ t, exec (.resetN true) s = .next t ∧ t.phase = .inReset ∧
    t.cause = (if s.phase = .stopped then 4 else 3) ∧ t.side.resetLow = true ∧ t.tiles = [] ∧ t.queues = [] ∧
    t.comp = none ∧ t.nv.odometer = s.nv.odometer ∧ t.pending = s.pending := by
  have hexec : exec (.resetN true) s = .next { coldReset 3 .inReset s with side.resetLow := true } := by
    simp only [exec, execResetN, if_true, if_neg h]
  exact ⟨_, hexec, rfl, rfl, rfl, rfl, rfl, rfl, rfl, rfl⟩

theorem resetN_high {s : State} (h : s.phase = .inReset) : exec (.resetN false) s = .next { s with
    phase := .released
    side := { s.side with resetLow := false, sampled := s.side.pins } } := by
  simp only [exec, execResetN, Bool.false_eq_true, if_false, h, if_true, bootTimeZero]

theorem resetAndSupplyComplete : ResetAndSupplyComplete := by
  refine fun s => ⟨fun mv hmv h => brownOut_resets hmv h, fun mv hmv h => converterStop_resets hmv h, ?overVoltage, ?supply,
    resetN_low, resetN_high⟩
  case overVoltage =>
    intro mv hoff hover hreset hlow hhigh
    rw [overVoltageRestart_restarts hoff hover hlow hhigh, powerOn_of_high hreset]
  case supply =>
    intro mv hoff hreset hmv
    refine ⟨fun hover hhot => ?_, ?_⟩
    · rw [supplyReturn_restarts hoff hover hhot hmv, powerOn_of_high hreset]
    · exact (busbarEngage_restarts hoff hmv).trans (congrArg _ (powerOn_of_high (s := { s with cause := 1 }) hreset))

/-- Settles O11: the loops and the wakes change what they name, and each reset starts again from the reset state with what the
boot flash, the odometer, the bridge and the flash frames keep. -/
theorem powerAndResetComplete : Obligations.PowerAndResetComplete := ⟨powerLoopsAndWakesComplete, resetAndSupplyComplete⟩

end Sys2Proof.Proofs

/-! Time, metering and the pins: the cadence counter and `TIME_SET`, `TRIP_READ`, the sideband bridge, the JTAG chain, lanes and
straps. -/

namespace Sys2Proof.Proofs

open Sys2Proof.Machine Sys2Proof.Claims Sys2Proof.Laws

-- Checked one after another, which keeps the memory of the check small.
set_option Elab.async false

/-! ### The cadence counter (R391 to R394) -/

/-- An edge moves the counter only forwards: to the expected value when that lies more than 10 µs ahead. -/
theorem cadence_align (e : Int) (x : Word) (t : Time) : (align e x t).cadence = if e < -10000 then x else t.cadence := by
  unfold align
  split
  · rfl
  · split <;> rfl

theorem cadence_acceptEdge_of_none {t : Time} (h : t.expected = none) : (acceptEdge t).cadence = t.cadence := by
  simp [acceptEdge, h]

theorem cadence_acceptEdge_of_some {t : Time} {x : Word} (h : t.expected = some x) : (acceptEdge t).cadence =
    if (t.cadence.toNat : Int) - (expectedAt t x).toNat < -10000 then expectedAt t x else t.cadence := by
  simp only [acceptEdge, h, lockOn, cadence_align]

theorem cadence_le_acceptEdge (t : Time) : t.cadence.toNat ≤ (acceptEdge t).cadence.toNat := by
  cases h : t.expected with
  | none => rw [cadence_acceptEdge_of_none h]
  | some x =>
    rw [cadence_acceptEdge_of_some h]
    split <;> omega

theorem lost_acceptEdge (t : Time) : (acceptEdge t).lost = false := rfl

theorem ppsEdge_accepts {s : State} (hup : s.phase = .running) (hglitch : glitch s.time = false)
    (hwait : s.time.waiting = []) :
    ∃ t, exec .ppsEdge s = .next t ∧ t = countTime s.now { s with time := t.time } ∧ t.time.lost = false ∧
      s.time.cadence.toNat ≤ t.time.cadence.toNat ∧
      (∀ x, s.time.expected = some x → s.time.lost = false → x.toNat ≤ s.time.cadence.toNat →
        t.time.cadence = s.time.cadence) ∧
      (∀ x, s.time.expected = some x → s.time.lost = false → s.time.cadence.toNat + 10000 < x.toNat →
        t.time.cadence = x) := by
  have hexec : exec .ppsEdge s = .next (countTime s.now { s with time := acceptEdge s.time }) := by
    refine congrArg Host.Outcome.next ((whenUp_of_running hup _).trans ?_)
    simp only [ppsEdge, hglitch, Bool.false_eq_true, if_false, hwait]
  have hkept {x : Word} (hlost : s.time.lost = false) : expectedAt s.time x = x := by simp [expectedAt, hlost]
  refine ⟨_, hexec, rfl, lost_acceptEdge _, cadence_le_acceptEdge _, fun x hx hlost hle => ?behind, fun x hx hlost hlt => ?ahead⟩
  case behind => exact (cadence_acceptEdge_of_some hx).trans (by rw [hkept hlost, if_neg (by omega)])
  case ahead => exact (cadence_acceptEdge_of_some hx).trans (by rw [hkept hlost, if_pos (by omega)])

/-! ### `TIME_SET` (R393) -/

theorem bodyTimeSet_refuses {c : Cmd} {u : State} (h : timeOk u (c.p 0) = false) : bodyTimeSet c u = Eff.stat .badParam u := by
  simp [bodyTimeSet, h]

theorem bodyTimeSet_of_ok {c : Cmd} {u : State} (hrsv : bits (c.p 1) 1 63 = 0) (hok : timeOk u (c.p 0) = true) :
    bodyTimeSet c u = if bit (c.p 1) 0 then Eff.ok (countTime u.now { u with time := setCadence (c.p 0) u.time })
      else Eff.later { u with time.waiting := u.time.waiting ++ [(openOf 0x701 c, c.p 0)] } := by
  simp [bodyTimeSet, hrsv, hok]

theorem timeSetTimeout_ends {s : State} {o : Open} {v : Word} (hup : s.phase = .running) (hwait : s.time.waiting = [(o, v)])
    (hopen : isOpen o s = true) :
    exec .timeSetTimeout s = .next (complete o .timeout 0 [] { s with time.waiting := [] }) := by
  refine congrArg Host.Outcome.next ((whenUp_of_running hup _).trans ?_)
  have hopen' : isOpen o { s with time.waiting := [] } = true := (isOpen_congr rfl rfl o).trans hopen
  rw [hwait]
  exact completeIf_of_isOpen hopen' ..

theorem timeCommandsComplete : TimeCommandsComplete := by
  refine ⟨fun s hup hglitch hwait => ppsEdge_accepts hup hglitch hwait, ?glitch, ?lost, ?set,
    fun s o v hup hwait hopen => timeSetTimeout_ends hup hwait hopen⟩
  case glitch =>
    intro s hup hglitch
    refine congrArg Host.Outcome.next ((whenUp_of_running hup _).trans ?_)
    rw [ppsEdge, if_pos hglitch]
  case lost => exact fun s hup => congrArg Host.Outcome.next (whenUp_of_running hup _)
  case set =>
    intro c s u hrun hrsv hok
    have hbody := bodyTimeSet_of_ok hrsv hok
    refine ⟨fun hnow => ?_, fun hedge => ?_⟩
    · rw [if_pos hnow] at hbody
      exact ⟨_, congrArg Host.Outcome.next (runPacket_stat hrun hbody), rfl, rfl⟩
    · rw [if_neg (by simp [hedge])] at hbody
      exact congrArg Host.Outcome.next (runPacket_later hrun hbody)

/-- Settles O13: a lower value asks for a module that has composed nothing and used this once. -/
theorem timeSetNeverBackTwice : Obligations.TimeSetNeverBackTwice := by
  intro c s u hrun hlower hused
  have hnot : timeOk u (c.p 0) = false := by
    rcases hused with h | h <;> simp [timeOk, Nat.not_le.mpr hlower, h]
  exact congrArg Host.Outcome.next (runPacket_stat hrun (bodyTimeSet_refuses hnot))

/-! ### `TRIP_READ` (R396, R397) -/

/-- Bits of a range that reads zero are clear. -/
theorem bit_of_bits_eq_zero {n : Nat} {w : BitVec n} {lo len i : Nat} (h : bits w lo len = 0) (hlo : lo ≤ i)
    (hi : i < lo + len) : bit w i = false := by
  have hbit : (bits w lo len).testBit (i - lo) = w.toNat.testBit i := by
    rw [bits, Nat.testBit_mod_two_pow, Nat.testBit_shiftRight, decide_eq_true (by omega), Bool.true_and,
      Nat.add_sub_cancel' hlo]
  rw [bit, ← hbit, h, Nat.zero_testBit]

theorem bits_eq_zero_of_bits_eq_zero {n : Nat} {w : BitVec n} {lo len lo' len' : Nat} (h : bits w lo len = 0)
    (hlo : lo ≤ lo') (hlen : lo' + len' ≤ lo + len) : bits w lo' len' = 0 := by
  refine Nat.eq_of_testBit_eq fun i => ?_
  rw [bits, Nat.testBit_mod_two_pow, Nat.testBit_shiftRight, Nat.zero_testBit]
  by_cases hi : i < len'
  · rw [show w.toNat.testBit (lo' + i) = false from bit_of_bits_eq_zero h (by omega) (by omega), Bool.and_false]
  · rw [decide_eq_false hi, Bool.false_and]

/-- A parameter without riders, `PREVIOUS` or reserved bits reports the composition in force. -/
theorem bodyTripRead_current {c : Cmd} {u : State} (hsrc : c.h.src = .port) (hid : u.fw.identity = true)
    (hzero : bits (c.p 0) 6 58 = 0) : bodyTripRead c u = readTrip u.trip u.now false none u := by
  have h6 : bits (c.p 0) 6 2 = 0 := bits_eq_zero_of_bits_eq_zero hzero (by omega) (by omega)
  have h10 : bits (c.p 0) 10 54 = 0 := bits_eq_zero_of_bits_eq_zero hzero (by omega) (by omega)
  have h8 : bit (c.p 0) 8 = false := bit_of_bits_eq_zero hzero (by omega) (by omega)
  have h9 : bit (c.p 0) 9 = false := bit_of_bits_eq_zero hzero (by omega) (by omega)
  simp [bodyTripRead, withIdentity, hid, h6, h10, h8, h9, hsrc]

/-- A field behind the first bytes of a list. -/
theorem fieldB_after {as : List Byte} {k : Nat} (h : as.length = k) (bs : List Byte) (off n : Nat) :
    fieldB (as ++ bs) (k + off) n = fieldB bs off n := by
  rw [fieldB_append_of_le (by omega), h, Nat.add_sub_cancel_left]

/-- The fields at the front of a report (R397). -/
theorem fields_tripReport (s : State) (t : Trip) (to_ : Word) (prev : Bool) (rider : Option (BitVec 6)) (m : Meter) :
    fieldB (tripReport s t to_ prev rider m) 0 4 = 0x7217F064 ∧
      fieldB (tripReport s t to_ prev rider m) 16 4 = s.nv.bootCount.toNat ∧
      fieldB (tripReport s t to_ prev rider m) 20 4 = t.epoch.toNat ∧
      fieldB (tripReport s t to_ prev rider m) 24 8 = s.reportSeq % 2 ^ 64 := by
  obtain ⟨front, hfront⟩ : ∃ front, front = ([BitVec.ofNat 8 (prev.toNat * 2 + rider.isSome.toNat),
      match rider with | some r => riderByte r | none => 0] : List Byte) ++ (zeros 2 ++ leBytes 8 s.env.fp.toNat) := ⟨_, rfl⟩
  obtain ⟨rest, hreport⟩ : ∃ rest, tripReport s t to_ prev rider m = leBytes 4 0x7217F064 ++ (front ++
      (leBytes 4 s.nv.bootCount.toNat ++ (leBytes 4 t.epoch.toNat ++ (leBytes 8 s.reportSeq ++ rest)))) :=
    ⟨_, by rw [hfront]; simp only [tripReport, tripBytes, wordBytes, List.append_assoc]; rfl⟩
  have hmagic : (leBytes 4 0x7217F064).length = 4 := length_leBytes _ _
  have hlen : front.length = 12 := by rw [hfront]; simp [zeros, length_leBytes]
  have hboot : (leBytes 4 s.nv.bootCount.toNat).length = 4 := length_leBytes _ _
  have hepoch : (leBytes 4 t.epoch.toNat).length = 4 := length_leBytes _ _
  rw [hreport]
  refine ⟨fieldB_leBytes_append 4 _ _, ?_, ?_, ?_⟩
  · exact (fieldB_after hmagic _ 12 4).trans ((fieldB_after hlen _ 0 4).trans
      ((fieldB_leBytes_append 4 _ _).trans (Nat.mod_eq_of_lt s.nv.bootCount.isLt)))
  · exact (fieldB_after hmagic _ 16 4).trans ((fieldB_after hlen _ 4 4).trans ((fieldB_after hboot _ 0 4).trans
      ((fieldB_leBytes_append 4 _ _).trans (Nat.mod_eq_of_lt t.epoch.isLt))))
  · exact (fieldB_after hmagic _ 20 8).trans ((fieldB_after hlen _ 8 8).trans ((fieldB_after hboot _ 4 8).trans
      ((fieldB_after hepoch _ 0 8).trans (fieldB_leBytes_append 8 _ _))))

theorem tripReadCompletes : TripReadCompletes := by
  intro c s u hrun hsrc hid hzero
  exact ⟨_, congrArg Host.Outcome.next (runPacket_data hrun (bodyTripRead_current hsrc hid hzero)), fields_tripReport _ ..⟩

/-- Settles O14: an edge and `TIME_SET` change the counter and count its time, and a report carries its numbers at its front. -/
theorem timeAndTripComplete : Obligations.TimeAndTripComplete := ⟨timeCommandsComplete, tripReadCompletes⟩

/-! ### The sideband bridge (R407, R408) -/

/-- What the bridge does while it has a supply (R402). -/
theorem whenBridge_of_up {s : State} (h : bridgeUp s = true) (f : State → State) : whenBridge s f = f s := if_pos h

theorem mctpAndI3cComplete : MctpAndI3cComplete := by
  intro s hup
  have hrun (f : State → State) : (Host.Outcome.next (whenBridge s f) : Out State) = .next (f s) :=
    congrArg _ (whenBridge_of_up hup f)
  refine ⟨?eid, hrun _, ?version, hrun _, ?vendor, fun a => hrun _⟩
  case eid =>
    intro eid hlow hhigh
    refine (hrun _).trans (congrArg _ ?_)
    simp only [setEid, Nat.not_lt.mpr hlow, hhigh, decide_false, Bool.or_self, Bool.false_eq_true, if_false]
    rfl
  case version =>
    intro ty
    refine (hrun _).trans (congrArg _ ?_)
    simp only [mctpVersion, Bool.or_eq_true, decide_eq_true_eq]
    split <;> rfl
  case vendor =>
    intro sel
    refine (hrun _).trans (congrArg _ ?_)
    simp only [vendorSupport]
    split <;> rfl

/-- Settles O15: two bits added to 0x60 do not carry out of seven. -/
theorem staticAddress : Obligations.StaticAddress := by
  refine ⟨fun s => ?_, by decide⟩
  have hsel := s.side.sampled.addrSel.isLt
  have hbase : (0x60 : BitVec 7).toNat = 0x60 := rfl
  rw [staticAddr, BitVec.toNat_add, BitVec.toNat_setWidth, hbase]
  omega

/-! ### JTAG (R411, R412) -/

/-- A TAP takes the instruction and shifts out the register that the instruction acts on. -/
theorem loadTap_shifts (tap : Fin 12) (i : JInstr) (s : State) : ∃ w n, loadTap tap i s =
    { s with
      side.jtag := updAt s.side.jtag tap.val fun _ => i
      freeIdx := n
      out := s.out ++ [.jtag tap w] } ∧
    (actsAs s i = .idcode → w = idcodeOf tap ∧ n = s.freeIdx) ∧ (actsAs s i = .bypass → w = 0 ∧ n = s.freeIdx) := by
  have hacts : actsAs { s with side.jtag := updAt s.side.jtag tap.val fun _ => i } i = actsAs s i := by cases i <;> rfl
  simp only [loadTap, hacts]
  cases actsAs s i
  case idcode => exact ⟨_, _, rfl, fun _ => ⟨rfl, rfl⟩, nofun⟩
  case bypass => exact ⟨_, _, rfl, nofun, fun _ => ⟨rfl, rfl⟩⟩
  all_goals exact ⟨_, _, rfl, nofun, nofun⟩

/-- While `RESET_N` is high an instruction other than `IDCODE` and `SAMPLE/PRELOAD` acts as `BYPASS` (R412). -/
theorem actsAs_of_high {s : State} {i : JInstr} (hhigh : s.side.resetLow = false) (hid : i ≠ .idcode)
    (hsample : i ≠ .samplePreload) : actsAs s i = .bypass := by
  cases i <;> simp_all [actsAs]

theorem jtagInstructionsComplete : JtagInstructionsComplete := by
  intro row hrow tap s hup
  have hexec : exec (row.1 tap) s = .next (loadTap tap row.2 s) := by
    have hload : exec (row.1 tap) s = .next (whenBridge s (loadTap tap row.2)) := by
      simp only [List.mem_cons, List.not_mem_nil, or_false] at hrow
      rcases hrow with rfl | rfl | rfl | rfl | rfl | rfl | rfl | rfl <;> rfl
    rw [hload, whenBridge_of_up hup]
  obtain ⟨w, n, hshift, hidcode, hbypass⟩ := loadTap_shifts tap row.2 s
  rw [hshift] at hexec
  refine ⟨w, n, hexec, fun hrow => hidcode (by rw [hrow]; rfl), fun hrow => hbypass (by rw [hrow]; rfl),
    fun hhigh hid hsample => hbypass (actsAs_of_high hhigh hid hsample)⟩

/-! ### Raw odometer reads (R345, R409) -/

/-- So many bytes, for which free values at most were taken. -/
def ReadsRaw (n : Nat) (s : State) (p : List Byte × State) : Prop := p.1.length = n ∧ ∃ i, p.2 = { s with freeIdx := i }

/-- Each piece of a read adds its bytes. -/
theorem ReadsRaw.append {n k : Nat} {s : State} {p q : List Byte × State} (h : ReadsRaw n s p) (h' : ReadsRaw k p.2 q) :
    ReadsRaw (n + k) s (p.1 ++ q.1, q.2) := by
  obtain ⟨hlen, i, hi⟩ := h
  obtain ⟨hlen', j, hj⟩ := h'
  exact ⟨by rw [List.length_append, hlen, hlen'], j, by rw [hj, hi]⟩

theorem ReadsRaw.foldl {α : Type} {k : Nat} {piece : State → α → List Byte × State} (hpiece : ∀ s a, ReadsRaw k s (piece s a))
    (l : List α) {n : Nat} {s : State} {p : List Byte × State} (h : ReadsRaw n s p) :
    ReadsRaw (n + k * l.length) s (l.foldl (fun acc a => (acc.1 ++ (piece acc.2 a).1, (piece acc.2 a).2)) p) := by
  induction l generalizing n p with
  | nil => exact h
  | cons a l ih =>
    rw [List.foldl_cons, List.length_cons, Nat.mul_succ, Nat.add_comm (k * _), ← Nat.add_assoc]
    exact ih (h.append (hpiece p.2 a))

theorem readsRaw_nil (s : State) : ReadsRaw 0 s ([], s) := ⟨rfl, s.freeIdx, rfl⟩

theorem freeRecord_reads (s : State) : ReadsRaw 64 s (freeRecord s) :=
  ReadsRaw.foldl (piece := fun s _ => (wordBytes (takeFree s).1, (takeFree s).2))
    (fun s _ => ⟨length_wordBytes _, s.freeIdx + 1, rfl⟩) (List.range 8) (readsRaw_nil s)

theorem length_recBytes (r : Rec) : r.bytes.length = 64 := by
  simp [Rec.bytes, length_leBytes, length_wordBytes]

theorem odoRaw_reads (s : State) (p : Nat) : ReadsRaw 64 s (odoRaw s p) := by
  unfold odoRaw
  split
  · exact ⟨by simp [zeros], s.freeIdx, rfl⟩
  · split
    · exact freeRecord_reads s
    · split
      · exact ⟨length_recBytes _, s.freeIdx, rfl⟩
      · exact ⟨by simp [zeros], s.freeIdx, rfl⟩

theorem odometerRawReadCompletes : OdometerRawReadCompletes := by
  intro s position count hup hpos hone hmax
  have hform : ¬ (decide (131072 ≤ position.toNat) || decide (count.toNat = 0) || decide (64 < count.toNat)) = true := by
    simp only [Bool.or_eq_true, decide_eq_true_eq]
    omega
  obtain ⟨p, hp⟩ : ∃ p, p = (seqFrom position.toNat count.toNat).foldl
      (fun acc i => (acc.1 ++ (odoRaw acc.2 (i % 131072)).1, (odoRaw acc.2 (i % 131072)).2)) (([], s) : List Byte × State) :=
    ⟨_, rfl⟩
  have hread : odoRead position.toNat count.toNat s = emit (.sideband 0x83 .ok p.1) p.2 := by
    rw [odoRead, if_neg hform, hp]
  obtain ⟨hlen, n, hn⟩ : ReadsRaw (0 + 64 * (seqFrom position.toNat count.toNat).length) s p :=
    hp ▸ ReadsRaw.foldl (fun s i => odoRaw_reads s (i % 131072)) _ (readsRaw_nil s)
  refine ⟨p.1, n, by simpa [seqFrom] using hlen, (congrArg Host.Outcome.next (whenBridge_of_up hup _)).trans ?_⟩
  rw [hread, hn]
  rfl

/-! ### Lanes, supply and straps (R295, R402, R405) -/

theorem lanesAndPinsComplete : LanesAndPinsComplete := by
  refine fun s => ⟨fun _ => rfl, fun _ => rfl, fun _ => rfl, ?auxUp, fun hon => ?auxDown, fun hoff => ?dark⟩
  case auxUp => exact congrArg Host.Outcome.next (if_neg (by simp))
  case auxDown => exact congrArg Host.Outcome.next (if_neg (by simp [hon]))
  case dark => exact congrArg Host.Outcome.next (if_pos (by simp [hoff]))

/-- Settles O16: what the bridge answers follows from its message alone; the TAPs, the lanes and the pins are single fields. -/
theorem sidebandComplete : Obligations.SidebandComplete :=
  ⟨mctpAndI3cComplete, jtagInstructionsComplete, odometerRawReadCompletes, lanesAndPinsComplete⟩

end Sys2Proof.Proofs

/-! Errors and containment: the triggers of fences, the management view, unfencing, the patrol, log reads, the odometer and
injection. -/

namespace Sys2Proof.Proofs

open Sys2Proof.Machine Sys2Proof.Claims Sys2Proof.Laws

-- Checked one after another, which keeps the memory of the check small.
set_option Elab.async false

/-! ### What a record leaves of the error state (R329, R330) -/

/-- A record of severity 2 or 3, or one that finds the log writer near enough, is the error log's last (R333). -/
theorem logErr_last {r : Rec} {s : State} (h : ¬ (r.severity.toNat < 2 ∧ 256 < s.err.behind)) :
    (logErr r s).err.log.recs.getLast? = some { r with seq := s.err.log.next } := by
  have hkept : (decide (r.severity.toNat < 2) && decide (256 < s.err.behind)) = false := by simpa using h
  rw [logErr, hkept]
  exact push_last ..

/-- The error log is not touched by what a record does to the other logs. -/
theorem writeRec_errLog (r : Rec) (s : State) : (writeRec r s).err.log =
    if recToErr r.type.toNat then (logErr { r with time := s.now } s).err.log else s.err.log := by
  simp only [writeRec]
  split <;> split <;> split <;> rfl

theorem writeRec_last {r : Rec} {s : State} (hlog : recToErr r.type.toNat = true)
    (h : ¬ (r.severity.toNat < 2 ∧ 256 < s.err.behind)) :
    (writeRec r s).err.log.recs.getLast? = some { r with time := s.now, seq := s.err.log.next } := by
  rw [writeRec_errLog, if_pos hlog]
  exact logErr_last h

/-- The record of an event that a detector found is the error log's last; an injection sets its flag only (R344). -/
theorem detect_last {r : Rec} {s : State} (hlog : recToErr r.type.toNat = true)
    (h : ¬ (r.severity.toNat < 2 ∧ 256 < s.err.behind)) : ∃ flags, (flags = r.flags ∨ flags = r.flags ||| 0x80) ∧
      (detect r s).err.log.recs.getLast? = some { r with time := s.now, seq := s.err.log.next, flags := flags } := by
  obtain ⟨i, hi⟩ := takeInj_only r.point r.unit s
  simp only [detect, hi]
  split
  · exact ⟨_, .inr rfl, writeRec_last (s := { s with err := { s.err with inj := i } }) hlog h⟩
  · exact ⟨_, .inl rfl, writeRec_last (s := { s with err := { s.err with inj := i } }) hlog h⟩

/-- What a record leaves of the error state: everything but the logs and how far their writer is behind. -/
structure LogsOnly (e e' : Errs) : Prop where
  fences    : e'.fences = e.fences
  mgmt      : e'.mgmt = e.mgmt
  checks    : e'.checks = e.checks
  inj       : e'.inj = e.inj
  corrected : e'.corrected = e.corrected

theorem LogsOnly.trans {e e' e'' : Errs} (h : LogsOnly e e') (h' : LogsOnly e' e'') : LogsOnly e e'' :=
  ⟨h'.fences.trans h.fences, h'.mgmt.trans h.mgmt, h'.checks.trans h.checks, h'.inj.trans h.inj,
    h'.corrected.trans h.corrected⟩

theorem logErr_logsOnly (r : Rec) (s : State) : LogsOnly s.err (logErr r s).err := by
  unfold logErr
  split <;> exact ⟨rfl, rfl, rfl, rfl, rfl⟩

theorem writeRec_logsOnly (r : Rec) (s : State) : LogsOnly s.err (writeRec r s).err := by
  have hlog : LogsOnly s.err (if recToErr r.type.toNat then logErr { r with time := s.now } s else s).err := by
    split
    · exact logErr_logsOnly _ s
    · exact ⟨rfl, rfl, rfl, rfl, rfl⟩
  simp only [writeRec]
  generalize (if recToErr r.type.toNat then logErr { r with time := s.now } s else s) = v at hlog ⊢
  refine hlog.trans ?_
  split <;> split <;> exact ⟨rfl, rfl, rfl, rfl, rfl⟩

/-- With nothing armed a detector's event is written as it is (R344). -/
theorem detect_of_no_inj {r : Rec} {s : State} (h : s.err.inj = []) : detect r s = writeRec r s := by
  simp [detect, takeInj, h]

/-! ### The triggers of a fence (R334 to R336) -/

/-- The bit that a fence record carries reads 1, injected or not (R335, R344). -/
theorem markFence_logs (u : BitVec 16) (trigger : Nat) (s : State) : ∃ r,
    (markFence u trigger s).err.log.recs.getLast? = some r ∧ r.type = 8 ∧ r.unit = u ∧ r.time = s.now ∧
      r.arg0 = BitVec.ofNat 64 trigger ∧ bit r.flags 5 = true := by
  obtain ⟨flags, hflags, hlast⟩ := detect_last
    (r := { Rec.blank 0x0008 with unit := u, flags := 0x20, arg0 := BitVec.ofNat 64 trigger })
    (s := { s with err.fences := s.err.fences ++ [u], err.mgmt := s.err.mgmt ++ [u] }) rfl
    (by simp [Rec.blank, recSeverity])
  refine ⟨_, hlast, rfl, rfl, rfl, rfl, ?_⟩
  have hvalue : flags = 0x20 ∨ flags = 0xA0 :=
    hflags.imp_right fun h => h.trans (by decide : (0x20 : BitVec 8) ||| 0x80 = 0xA0)
  show bit flags 5 = true
  rcases hvalue with rfl | rfl <;> rfl

/-- The use of an injection leaves what a record leaves, but for the list of injections. -/
theorem detect_mgmt (r : Rec) (s : State) : (detect r s).err.mgmt = s.err.mgmt := by
  obtain ⟨i, hi⟩ := takeInj_only r.point r.unit s
  simp only [detect, hi]
  exact (writeRec_logsOnly _ _).mgmt

theorem markFence_mgmt (u : BitVec 16) (trigger : Nat) (s : State) :
    (markFence u trigger s).err.mgmt = s.err.mgmt ++ [u] := detect_mgmt _ _

theorem fenceUnit_of_fenced {u : BitVec 16} {s : State} (h : unitFenced s u = true) (trigger : Nat) :
    fenceUnit u trigger s = s := by
  simp [fenceUnit, h]

theorem fenceUnit_of_unfenced {u : BitVec 16} {s : State} (hunit : unitExists s u = true) (h : unitFenced s u = false)
    (hagent : unitKind u ≠ 0xA) (hhead : unitKind u ≠ 0xB) (trigger : Nat) :
    fenceUnit u trigger s = fenceEffects u (markFence u trigger s) := by
  simp [fenceUnit, h, hunit, hagent, hhead]

theorem whenFw_of_running {s : State} (h : s.phase = .running) (f : State → State) : whenFw s f = f s := by
  simp [whenFw, h]

theorem unitKind_unitTile (t : BitVec 10) : unitKind (unitTile t) = 1 := by
  simp only [unitKind, bits, unitTile, BitVec.toNat_ofNat, Nat.shiftRight_eq_div_pow]
  omega

theorem unitIdx_unitTile (t : BitVec 10) : unitIdx (unitTile t) = t.toNat := by
  simp only [unitIdx, bits, unitTile, BitVec.toNat_ofNat, Nat.shiftRight_eq_div_pow]
  omega

theorem fenceEffects_unitTile (t : BitVec 10) (s : State) : fenceEffects (unitTile t) s = fenceTile t s := by
  simp only [fenceEffects, unitKind_unitTile, unitIdx_unitTile, BitVec.ofNat_toNat, BitVec.setWidth_eq]

/-- A hop of a die that is not a Derailleur or a Headset fences that die (R335, trigger 0x02). -/
theorem hopFails_of_die {u : BitVec 16} {s : State} (hunit : unitExists s u = true) (h : unitKind u ∈ [2, 3, 4, 8, 9]) :
    hopFails u s = fenceUnit u 2 s := by
  simp only [List.mem_cons, List.not_mem_nil, or_false] at h
  rcases h with h | h | h | h | h <;> simp [hopFails, hunit, h]

theorem memoryControllerTimeout_eq {s : State} (hup : s.phase = .running) (u : BitVec 16) :
    exec (.memoryControllerTimeout u) s =
      .next (if unitKind u = 5 ∨ unitKind u = 6 then fenceUnit u 4 s else s) := by
  refine congrArg Host.Outcome.next ((whenUp_of_running hup _).trans ?_)
  simp

theorem protocolEngineFault_eq {s : State} (hup : s.phase = .running) (u : BitVec 16) :
    exec (.protocolEngineFault u) s = .next (if unitKind u = 7 ∨ unitKind u = 8 then fenceUnit u 7 s else s) := by
  refine congrArg Host.Outcome.next ((whenUp_of_running hup _).trans ?_)
  simp

theorem interconnectHopFailure_eq {s : State} {u : BitVec 16} (hup : s.phase = .running) (hunit : unitExists s u = true)
    (h : unitKind u ∈ [2, 3, 4, 8, 9]) : exec (.interconnectHopFailure u) s = .next (fenceUnit u 2 s) :=
  congrArg Host.Outcome.next ((whenFw_of_running hup _).trans (hopFails_of_die hunit h))

theorem tileIssueWatchdog_of_fenced {s : State} {t : BitVec 10} (hup : s.phase = .running)
    (h : unitFenced s (unitTile t) = true) : exec (.tileIssueWatchdog t) s = .next s := by
  refine congrArg Host.Outcome.next ((whenUp_of_running hup _).trans ?_)
  simp only [fenceUnit_of_fenced h]
  split <;> simp

theorem tileIssueWatchdog_fences {s : State} {t : BitVec 10} {x : Tile} (hup : s.phase = .running)
    (htile : findTile s t = some x) (hprog : x.prog.isSome = true) (hready : ∃ k ∈ x.ctxs, k.st = .ready ∨ k.st = .running) :
    exec (.tileIssueWatchdog t) s = .next (fenceUnit (unitTile t) 1 s) := by
  refine congrArg Host.Outcome.next ((whenUp_of_running hup _).trans ?_)
  have hany : (x.ctxs.any fun k => k.st = .ready || k.st = .running) = true := by simpa using hready
  simp only [htile, hprog, hany, Bool.and_self, if_true]

/-- Settles O38: a trigger marks its unit, which logs it, and then what the unit held ends; a unit that is fenced is passed
over. -/
theorem fenceTriggersComplete : Obligations.FenceTriggersComplete := by
  intro s u hup hunit
  refine ⟨fun trigger => ?marks, fun hfree => ?fences, fun hfenced => ?stays⟩
  case marks =>
    obtain ⟨e, o, n, hmark⟩ := markFence_only u trigger s
    obtain ⟨r, hlast⟩ := markFence_logs u trigger s
    exact ⟨r, by rw [hmark], markFence_fences u trigger s, markFence_mgmt u trigger s, hlast⟩
  case fences =>
    have hfence (trigger : Nat) (ha : unitKind u ≠ 0xA) (hb : unitKind u ≠ 0xB) :=
      fenceUnit_of_unfenced hunit hfree ha hb trigger
    refine ⟨fun hk => ?memory, fun hk => ?port, fun hk => ?tandem, fun hk => ?die, ?tile⟩
    case memory =>
      rw [memoryControllerTimeout_eq hup, if_pos hk]
      rcases hk with hk | hk <;> (rw [hfence 4 (by omega) (by omega), fenceEffects, hk]; rfl)
    case port =>
      rw [protocolEngineFault_eq hup, if_pos (.inl hk), hfence 7 (by omega) (by omega), fenceEffects, hk]; rfl
    case tandem =>
      rw [protocolEngineFault_eq hup, if_pos (.inr hk), hfence 7 (by omega) (by omega), fenceEffects, hk]; rfl
    case die =>
      have hkind : unitKind u ≠ 0xA ∧ unitKind u ≠ 0xB := by
        simp only [List.mem_cons, List.not_mem_nil, or_false] at hk
        omega
      rw [interconnectHopFailure_eq hup hunit hk, hfence 2 hkind.1 hkind.2]
    case tile =>
      rintro tile x rfl htile hprog hready
      rw [tileIssueWatchdog_fences hup htile hprog hready, hfence 1 (by simp [unitKind_unitTile]) (by simp [unitKind_unitTile]),
        fenceEffects_unitTile]
  case stays =>
    refine ⟨?_, ?_, fun hk => ?_, ?_⟩
    · rw [memoryControllerTimeout_eq hup, fenceUnit_of_fenced hfenced, ite_self]
    · rw [protocolEngineFault_eq hup, fenceUnit_of_fenced hfenced, ite_self]
    · rw [interconnectHopFailure_eq hup hunit hk, fenceUnit_of_fenced hfenced]
    · rintro tile rfl
      exact tileIssueWatchdog_of_fenced hup hfenced

/-! ### Management (R337) -/

theorem recMgmt_only (u : BitVec 16) (code : BitVec 4) (disagrees : Bool) (s : State) :
    PowerOnly s (recMgmt u code disagrees s) ∧ LogsOnly s.err (recMgmt u code disagrees s).err ∧
      (recMgmt u code disagrees s).side = s.side := by
  obtain ⟨e, o, n, h⟩ := writeRec_only
    { Rec.blank 0x000A with unit := u, flags := 0x40, arg0 := code.setWidth 64, arg1 := if disagrees then 1 else 0 } s
  exact ⟨⟨_, _, _, _, h⟩, writeRec_logsOnly _ s, writeRec_side _ s⟩

/-- A record and an alert touch neither the power state nor anything beyond the logs and the alerts. -/
def ReportsOnly (s t : State) : Prop := t = { s with err := t.err, nv := t.nv, side := t.side }

theorem reportsOnly_of {s t : State} (h : PowerOnly s t) (hp : t.power = s.power) : ReportsOnly s t := by
  obtain ⟨p, e, n, d, rfl⟩ := h
  obtain rfl : p = s.power := hp
  rfl

theorem recMgmt_reports (u : BitVec 16) (code : BitVec 4) (disagrees : Bool) (s : State) :
    ReportsOnly s (recMgmt u code disagrees s) :=
  reportsOnly_of (recMgmt_only u code disagrees s).1 (writeRec_power _ s)

theorem ReportsOnly.alert {s t : State} (h : ReportsOnly s t) (i : Nat) : ReportsOnly s (Machine.alert i t) := by
  obtain ⟨a, n, ha⟩ := alert_only i t
  unfold ReportsOnly at *
  rw [ha]
  conv_lhs => rw [h]

theorem managementObservation_writes {s : State} {u : BitVec 16} {code : BitVec 4} (hup : s.phase = .running)
    (hmem : u ∈ s.err.mgmt) (hlow : 1 ≤ code.toNat) (hhigh : code.toNat ≤ 4) :
    ∃ t, exec (.managementObservation u code) s = .next t ∧
      t = { s with err := t.err, nv := t.nv, side := t.side } ∧ t.err.mgmt = s.err.mgmt.erase u ∧
      t.err.fences = s.err.fences ∧ (code = 1 → bit t.side.alert 2 = true) ∧ (code ≠ 1 → t.side = s.side) := by
  obtain ⟨v, hv⟩ : ∃ v : State, v = { s with err.mgmt := s.err.mgmt.erase u } := ⟨_, rfl⟩
  have hzero : ¬ code = 0#4 := by rintro rfl; simp at hlow
  have hexec : exec (.managementObservation u code) s = .next (if code = 1 then alert 2 (recMgmt u code (code = 1) v)
      else recMgmt u code (code = 1) v) := by
    refine congrArg Host.Outcome.next ((whenUp_of_running hup _).trans ?_)
    rw [mgmtSees, if_neg (by simp [hmem, hzero, hhigh]), ← hv]
  have hreports : ReportsOnly s (recMgmt u code (code = 1) v) := by
    have hrec := recMgmt_reports u code (code = 1) v
    unfold ReportsOnly at *
    rw [hrec, hv]
  obtain ⟨-, hlogs, hside⟩ := recMgmt_only u code (code = 1) v
  have hmgmt : (recMgmt u code (code = 1) v).err.mgmt = s.err.mgmt.erase u := by rw [hlogs.mgmt, hv]
  have hfences : (recMgmt u code (code = 1) v).err.fences = s.err.fences := by rw [hlogs.fences, hv]
  by_cases hone : code = 1
  · rw [if_pos hone] at hexec
    refine ⟨_, hexec, hreports.alert 2, ?_, ?_, fun _ => bit_alert (by decide) _, fun h => absurd hone h⟩
    · rw [alert_err, hmgmt]
    · rw [alert_err, hfences]
  · rw [if_neg hone] at hexec
    exact ⟨_, hexec, hreports, hmgmt, hfences, fun h => absurd h hone, fun _ => by rw [hside, hv]⟩

theorem managementReportsFailure_alerts {s : State} {u : BitVec 16} {code : BitVec 4} (hup : s.phase = .running)
    (hfree : unitFenced s u = false) (hunit : unitExists s u = true) (hlow : 2 ≤ code.toNat) (hhigh : code.toNat ≤ 4) :
    ∃ t, exec (.managementReportsFailure u code) s = .next t ∧ t = { s with err := t.err, nv := t.nv, side := t.side } ∧
      t.err.fences = s.err.fences ∧ t.err.mgmt = s.err.mgmt ∧ bit t.side.alert 2 = true := by
  have hexec : exec (.managementReportsFailure u code) s = .next (alert 2 (recMgmt u code true s)) := by
    refine congrArg Host.Outcome.next ((whenUp_of_running hup _).trans ?_)
    simp [hfree, hunit, Nat.not_lt.mpr hlow, Nat.not_lt.mpr hhigh]
  obtain ⟨-, hlogs, -⟩ := recMgmt_only u code true s
  refine ⟨_, hexec, (recMgmt_reports u code true s).alert 2, ?_, ?_, bit_alert (by decide) _⟩
  · rw [alert_err, hlogs.fences]
  · rw [alert_err, hlogs.mgmt]

/-! ### Unfencing (R338) -/

theorem unitUnfence_answers {c : Cmd} {s u : State} {unit : BitVec 16} (hrun : runsIn 0x603 c s = some u)
    (hmbz : bits (c.p 0) 16 48 = 0) (hname : unit = BitVec.ofNat 16 (bits (c.p 0) 0 16)) (hunit : unitExists u unit = true)
    (hhead : unitKind unit ≠ 0xB) :
    (unitFenced u unit = false → exec (.unitUnfence c) s = .next (replied 0x603 c .ok 0 [] u)) ∧
    (unitFenced u unit = true → unitKind unit ≠ 0xA → (∀ x ∈ u.err.checks, x.unit ≠ unit) →
      exec (.unitUnfence c) s = .next { u with err := { u.err with
        checks := u.err.checks ++ [{ unit := unit, cmd := openOf 0x603 c }] } }) := by
  have hform : ¬ (bits (c.p 0) 16 48 ≠ 0 || !unitExists u unit || unitKind unit = 0xB) = true := by
    simp [hmbz, hunit, hhead]
  refine ⟨fun hfree => ?_, fun hfenced hagent hidle => ?_⟩
  · refine congrArg Host.Outcome.next (runPacket_stat hrun ?_)
    simp only [bodyUnitUnfence, ← hname]
    rw [if_neg hform, if_pos (by simp [hfree]), Eff.ok]
  · refine congrArg Host.Outcome.next (runPacket_later hrun ?_)
    simp only [bodyUnitUnfence, ← hname]
    rw [if_neg hform, if_neg (by simp [hfenced]), if_neg (by simpa using hidle), if_neg hagent]

theorem completeIf_err (o : Open) (st : Status) (result : Word) (payload : List Byte) (s : State) :
    (completeIf o st result payload s).err = s.err := by
  obtain ⟨p, q, h⟩ := completeIf_only o st result payload s
  rw [h]

/-- A command of the port that is open gets its reply whole when that has no payload. -/
theorem completeIf_replies {o : Open} {s : State} (hsrc : o.h.src = .port) (hopen : o ∈ s.port.outstanding) (st : Status)
    (result : Word) : ∃ r ∈ (completeIf o st result [] s).port.replies, r.status = st ∧ r.h = o.h := by
  have hisOpen : isOpen o s = true := by simpa [isOpen, hsrc] using hopen
  refine ⟨mkReply o st result [] s, ?_, rfl, rfl⟩
  simp [completeIf_of_isOpen hisOpen, complete, hsrc, sendReply, mkReply, splitReply]

theorem detect_logsOnly {r : Rec} {s : State} :
    (detect r s).err.fences = s.err.fences ∧ (detect r s).err.checks = s.err.checks ∧ (detect r s).port = s.port := by
  obtain ⟨i, hi⟩ := takeInj_only r.point r.unit s
  obtain ⟨e, o, n, honly⟩ := detect_only r s
  refine ⟨detect_fences r s, ?_, by rw [honly]⟩
  simp only [detect, hi]
  exact (writeRec_logsOnly _ _).checks

theorem endCheck_fails {x : Check} {failed : Nat} {s t : State} (dir : Bool) (hfailed : failed ≠ 0)
    (ht : t = endCheck x failed dir s) :
    t.err.fences = s.err.fences ∧ (∀ y ∈ t.err.checks, y.unit ≠ x.unit) ∧
      (x.cmd.h.src = .port → x.cmd ∈ s.port.outstanding → ∃ r ∈ t.port.replies, r.status = .fenced ∧ r.h = x.cmd.h) := by
  obtain ⟨v, hv⟩ : ∃ v : State, v = { s with err.checks := dropIf s.err.checks (·.unit = x.unit) } := ⟨_, rfl⟩
  have hstep : checkStep v x.unit failed = failed := by simp [checkStep, hfailed]
  obtain ⟨w, hw, hfences, hchecks, hport⟩ : ∃ w, t = completeIf x.cmd .fenced 0 [] (recUnfence x.unit failed w) ∧
      w.err.fences = s.err.fences ∧ w.err.checks = dropIf s.err.checks (·.unit = x.unit) ∧ w.port = s.port := by
    simp only [endCheck, ← hv, hstep, if_pos hfailed] at ht
    refine ⟨_, ht, ?_⟩
    split
    · exact List.foldlRecOn (motive := fun (w : State) => w.err.fences = s.err.fences ∧
          w.err.checks = dropIf s.err.checks (·.unit = x.unit) ∧ w.port = s.port) _ _ (by rw [hv]; exact ⟨rfl, rfl, rfl⟩)
        fun w ih o _ => by
          obtain ⟨hf, hc, hp⟩ := detect_logsOnly
            (r := { Rec.blank 0x0003 with point := memPoint x.unit, unit := x.unit, addr := BitVec.ofNat 64 o }) (s := w)
          exact ⟨hf.trans ih.1, hc.trans ih.2.1, hp.trans ih.2.2⟩
    · rw [hv]; exact ⟨rfl, rfl, rfl⟩
  have hrec := writeRec_logsOnly { Rec.blank 0x0009 with unit := x.unit, arg0 := BitVec.ofNat 64 failed } w
  obtain ⟨e, o, n, honly⟩ := writeRec_only { Rec.blank 0x0009 with unit := x.unit, arg0 := BitVec.ofNat 64 failed } w
  refine ⟨?_, fun y hy => ?_, fun hsrc hopen => ?_⟩
  · rw [hw, completeIf_err]
    exact hrec.fences.trans hfences
  · rw [hw, completeIf_err, recUnfence, hrec.checks, hchecks] at hy
    simpa using (List.mem_filter.mp hy).2
  · rw [hw]
    refine completeIf_replies hsrc ?_ _ _
    rw [recUnfence, honly]
    exact hport ▸ hopen

/-- A tile, a Spoke or a Cassette comes back with nothing but its fence lifted. -/
theorem liftFence_of_plain {u : BitVec 16} (hkind : unitKind u ∈ [1, 2, 4]) (s : State) : liftFence u s =
    { s with err.fences := s.err.fences.erase u, err.uncorr := dropIf s.err.uncorr (·.1 = u) } := by
  simp only [List.mem_cons, List.not_mem_nil, or_false] at hkind
  rcases hkind with h | h | h <;> rw [liftFence, h] <;> rfl

theorem endCheck_passes {x : Check} {s t : State} {dir : Bool} (hkind : unitKind x.unit ∈ [1, 2, 4])
    (ht : t = endCheck x 0 dir s) :
    t.err.fences = s.err.fences.erase x.unit ∧ t.err.checks = dropIf s.err.checks (·.unit = x.unit) := by
  obtain ⟨v, hv⟩ : ∃ v : State, v = { s with err.checks := dropIf s.err.checks (·.unit = x.unit) } := ⟨_, rfl⟩
  have hplain : unitKind x.unit ≠ 3 ∧ unitKind x.unit ≠ 5 ∧ unitKind x.unit ≠ 6 := by
    simp only [List.mem_cons, List.not_mem_nil, or_false] at hkind
    omega
  have hend : t = completeIf x.cmd .ok 0 [] (recUnfence x.unit 0 (liftFence x.unit v)) := by
    rw [ht, endCheck]
    simp [← hv, checkStep, hplain]
  have hrec := writeRec_logsOnly { Rec.blank 0x0009 with unit := x.unit, arg0 := BitVec.ofNat 64 0 } (liftFence x.unit v)
  rw [hend, completeIf_err]
  rw [liftFence_of_plain hkind, hv] at *
  exact ⟨hrec.fences, hrec.checks⟩

theorem unfenceCheckComplete_eq {s : State} {unit : BitVec 16} {x : Check} (hup : s.phase = .running)
    (hcheck : s.err.checks.find? (·.unit = unit) = some x) {step : BitVec 3} (hstep : step.toNat ≤ 5) (dir : Bool) :
    exec (.unfenceCheckComplete unit step dir) s = .next (endCheck x step.toNat dir s) := by
  refine congrArg Host.Outcome.next ((whenUp_of_running hup _).trans ?_)
  simp only [hcheck, if_neg (Nat.not_lt.mpr hstep)]

theorem managementAndUnfenceComplete : ManagementAndUnfenceComplete := by
  refine ⟨fun s u code hup => ⟨managementObservation_writes hup, managementReportsFailure_alerts hup⟩,
    fun c s u unit => unitUnfence_answers, fun s unit x hup hcheck => ?check⟩
  obtain rfl : x.unit = unit := by simpa using List.find?_some hcheck
  refine ⟨fun step dir hlow hhigh => ?fails, fun dir hkind honce => ?passes⟩
  case fails => exact ⟨_, unfenceCheckComplete_eq hup hcheck hhigh dir, endCheck_fails dir (by omega) rfl⟩
  case passes =>
    obtain ⟨t, ht⟩ : ∃ t, t = endCheck x 0 dir s := ⟨_, rfl⟩
    obtain ⟨hfences, hchecks⟩ := endCheck_passes hkind ht
    refine ⟨t, (unfenceCheckComplete_eq hup hcheck (by decide) dir).trans (by rw [ht]; rfl), ?_, fun v hv => ?_, fun y hy => ?_⟩
    · have hgone : x.unit ∉ s.err.fences.erase x.unit := by
        rw [← List.count_eq_zero, List.count_erase_self, honce]
      simpa [unitFenced, hfences] using hgone
    · simp [unitFenced, hfences, List.mem_erase_of_ne hv]
    · rw [hchecks] at hy
      simpa using (List.mem_filter.mp hy).2

/-! ### The patrol (R326, R327, R339) -/

/-- A record that neither a fault log nor the odometer takes goes to the error log only (R330). -/
theorem writeRec_eq_logErr {r : Rec} (hlog : recToErr r.type.toNat = true) (hfault : recToFault r.type.toNat = false)
    (hodo : recToOdo r.type.toNat = false) (s : State) : writeRec r s = logErr { r with time := s.now } s := by
  simp [writeRec, hlog, hfault, hodo]

/-- With nothing armed, a corrected error changes the error state only and is counted (R339). -/
theorem corrected_of_no_inj {point unit : BitVec 16} {addr : Word} {s : State} (h : s.err.inj = []) :
    ∃ e, corrected point unit addr s = { s with err := e } ∧ e.corrected = bumpSat s.err.corrected 1 ∧
      e.fences = s.err.fences := by
  have htake : takeInj point unit s = (false, s) := by simp [takeInj, h]
  have hwrite (r : Rec) (e : Errs) (hr : r.type = 1) (hc : e.corrected = bumpSat s.err.corrected 1)
      (hf : e.fences = s.err.fences) : ∃ e', writeRec r { s with err := e } = { s with err := e' } ∧
        e'.corrected = bumpSat s.err.corrected 1 ∧ e'.fences = s.err.fences := by
    obtain ⟨e', he'⟩ := logErr_only { r with time := s.now } { s with err := e }
    have hlogs := logErr_logsOnly { r with time := s.now } { s with err := e }
    rw [he'] at hlogs
    refine ⟨e', ?_, hlogs.corrected.trans hc, hlogs.fences.trans hf⟩
    rw [writeRec_eq_logErr (by rw [hr]; rfl) (by rw [hr]; rfl) (by rw [hr]; rfl)]
    exact he'
  simp only [corrected, htake]
  split
  · split
    · exact ⟨_, rfl, rfl, rfl⟩
    · exact hwrite _ _ rfl rfl rfl
  · exact hwrite _ _ rfl rfl rfl

theorem alterWord_bad (f off : Nat) (s : State) : ∃ l, alterWord false f off s = { s with store.bad := l } ∧
    (f * 65536 + off % 65536) / codeWord (frameTier s.store f) * codeWord (frameTier s.store f) ∈ l := by
  simp only [alterWord, Bool.false_eq_true, if_false]
  split
  next h => exact ⟨s.store.bad, rfl, by simpa using h⟩
  next => exact ⟨_, rfl, by simp⟩

theorem recPatrol_records {u : BitVec 16} {off : Nat} {s : State} (hinj : s.err.inj = []) (hbehind : s.err.behind ≤ 256) :
    ∃ r, (recPatrol u off s).err.log.recs.getLast? = some r ∧ r.type = 3 ∧ r.unit = u := by
  rw [recPatrol, detect_of_no_inj hinj]
  exact ⟨_, writeRec_last rfl (by simp [hbehind]), rfl, rfl⟩

theorem memoryPatrol_eq {s : State} {offset : Word} (hup : s.phase = .running)
    (hpower : s.power.st = .cruise ∨ s.power.st = .sprint) (found : Ecc) :
    exec (.memoryPatrol offset found) s = .next (patrolWord offset.toNat found s) :=
  congrArg Host.Outcome.next ((whenUp_of_running hup _).trans (if_pos (by simpa using hpower)))

theorem patrolCompletes : PatrolCompletes := by
  intro s offset f fr hup hpower hlatest hframe hpoint hfree hinj cw a
  have hword (found : Ecc) : exec (.memoryPatrol offset found) s = .next
      (let v := if found = .uncorrectable then alterWord false f offset.toNat s else s
       if v.store.bad.contains a then recPatrol (unitOf s offset.toNat) (offset.toNat / cw * cw) v
       else if v.store.soft.contains a || found = .correctable then
         corrected (memPoint (unitOf s offset.toNat)) (unitOf s offset.toNat) (BitVec.ofNat 64 (offset.toNat / cw * cw))
           { v with store.soft := v.store.soft.erase a }
       else v) := by
    have hhit : injHit s offset.toNat = none := by simp [injHit, hinj]
    rw [memoryPatrol_eq hup hpower, patrolWord, hlatest]
    simp only [hhit]
    have hserved : ¬ memPoint (unitOf s offset.toNat) = 7#16 := hpoint
    rw [if_neg (by simp [hserved, hfree, hframe])]
    simp [cw, a]
  refine ⟨fun hgood => ?corrects, fun hgood hclean => ?clean, fun hbehind => ?beyond⟩
  case corrects =>
    obtain ⟨v, hv⟩ : ∃ v : State, v = { s with store.soft := s.store.soft.erase a } := ⟨_, rfl⟩
    obtain ⟨e, he, hcount, hfences⟩ := corrected_of_no_inj (s := v) (point := memPoint (unitOf s offset.toNat))
      (unit := unitOf s offset.toNat) (addr := BitVec.ofNat 64 (offset.toNat / cw * cw)) (by rw [hv]; exact hinj)
    refine ⟨_, hword .correctable, ?_⟩
    simp only [reduceCtorEq, if_false, decide_true, Bool.or_true, if_true, ← hv]
    rw [if_neg (by simpa using hgood), he]
    rw [hv] at hcount hfences ⊢
    exact ⟨rfl, rfl, hcount, hfences⟩
  case clean =>
    rw [hword .clean]
    simp [hgood, hclean]
  case beyond =>
    obtain ⟨l, hl, hmem⟩ := alterWord_bad f offset.toNat s
    obtain ⟨v, hv⟩ : ∃ v : State, v = { s with store.bad := l } := ⟨_, rfl⟩
    have hbad : v.store.bad.contains a = true := by rw [hv]; simpa using hmem
    have hexec := hword .uncorrectable
    simp only [if_true, hl, ← hv, hbad] at hexec
    obtain ⟨r, hlast, htype, hrunit⟩ := recPatrol_records (s := v) (u := unitOf s offset.toNat)
      (off := offset.toNat / cw * cw) (by rw [hv]; exact hinj) (by rw [hv]; exact hbehind)
    obtain ⟨e, o, n, honly⟩ : ∃ e o n, recPatrol (unitOf s offset.toNat) (offset.toNat / cw * cw) v =
        { v with err := e, nv := { v.nv with odometer := o, odoPos := n } } := detect_only _ v
    have hfences : (recPatrol (unitOf s offset.toNat) (offset.toNat / cw * cw) v).err.fences = v.err.fences :=
      detect_fences _ v
    refine ⟨_, r, hexec, ?_, ?_, ?_, ?_, hlast, htype, hrunit⟩
    · rw [honly, hv]
    · rw [honly, hv]; exact hmem
    · rw [honly, hv]
    · rw [hfences, hv]

/-- Settles O39: management writes one record of a unit it has yet to see, a check ends with its unit's fence kept or lifted,
and the patrol changes a mark of the code word and the logs. -/
theorem managementComplete : Obligations.ManagementComplete :=
  ⟨managementAndUnfenceComplete, patrolCompletes⟩

/-! ### The logs, the odometer and injections (R331, R343 to R345, R347) -/

theorem topOf_of_last {l : Log} {r : Rec} (h : l.recs.getLast? = some r) (s : State) :
    topOf l s = (BitVec.ofNat 64 r.seq, s) := by
  simp [topOf, h]

theorem errLogRead_answers {c : Cmd} {s u : State} {r : Rec} (hrun : runsIn 0x600 c s = some u)
    (hmbz : bits (c.p 0) 1 31 = 0) (hone : 1 ≤ bits (c.p 0) 32 32) (hmax : bits (c.p 0) 32 32 ≤ 1024) :
    (bit (c.p 0) 0 = false → (∀ q, c.h.src ≠ .queue q) → u.err.log.recs.getLast? = some r →
      exec (.errLogRead c) s = .next (replied 0x600 c .ok (BitVec.ofNat 64 r.seq)
        (((u.err.log.recs.filter fun r => decide ((c.p 1).toNat ≤ r.seq)).take (bits (c.p 0) 32 32)).flatMap Rec.bytes) u)) ∧
    (bit (c.p 0) 0 = false → ∀ q, c.h.src = .queue q → exec (.errLogRead c) s = .next (replied 0x600 c .auth 0 [] u)) ∧
    (bit (c.p 0) 0 = true → (faultLog u c.h.r).recs.getLast? = some r →
      exec (.errLogRead c) s = .next (replied 0x600 c .ok (BitVec.ofNat 64 r.seq)
        ((((faultLog u c.h.r).recs.filter fun r => decide ((c.p 1).toNat ≤ r.seq)).take (bits (c.p 0) 32 32)).flatMap
          Rec.bytes) u)) := by
  have hform : ¬ (bits (c.p 0) 1 31 ≠ 0 || bits (c.p 0) 32 32 = 0 || 1024 < bits (c.p 0) 32 32) = true := by
    simp only [hmbz, Bool.or_eq_true, decide_eq_true_eq]
    omega
  refine ⟨fun hmodule hsrc hlast => ?_, fun hmodule q hsrc => ?_, fun hrider hlast => ?_⟩
  · refine congrArg Host.Outcome.next (runPacket_data hrun ?_)
    rw [bodyErrLogRead, if_neg hform, if_pos (by simp [hmodule])]
    split
    · exact absurd ‹_› (hsrc _)
    · simp [readLog, topOf_of_last hlast]
  · refine congrArg Host.Outcome.next (runPacket_stat hrun ?_)
    rw [bodyErrLogRead, if_neg hform, if_pos (by simp [hmodule])]
    simp [hsrc]
  · refine congrArg Host.Outcome.next (runPacket_data hrun ?_)
    rw [bodyErrLogRead, if_neg hform, if_neg (by simp [hrider])]
    simp [readLog, topOf_of_last hlast]

theorem odometerRead_answers {c : Cmd} {s u : State} {r : Rec} (hrun : runsIn 0x602 c s = some u)
    (hmbz : bits (c.p 1) 32 32 = 0) (hone : 1 ≤ bits (c.p 1) 0 32)
    (hmax : bits (c.p 1) 0 32 ≤ (if c.h.src = .sideband then 64 else 1024)) (hlast : (odoValid u).recs.getLast? = some r) :
    exec (.odometerRead c) s = .next (replied 0x602 c .ok (BitVec.ofNat 64 r.seq)
      ((((odoValid u).recs.filter fun r => decide ((c.p 0).toNat ≤ r.seq)).take (bits (c.p 1) 0 32)).flatMap Rec.bytes)
        u) := by
  refine congrArg Host.Outcome.next (runPacket_data hrun ?_)
  simp only [bodyOdometerRead, topOf_of_last hlast]
  rw [if_neg]
  cases hsrc : c.h.src <;> simp [hsrc] at hmax ⊢ <;> omega

/-- The newest record of a ring is the first that a search from its end meets. -/
theorem find_newest {recs : List Rec} {r : Rec} (hlast : recs.getLast? = some r) (first : Nat) :
    (recs.mapIdx fun i x => (first + i, x)).reverse.find? (·.2.seq == r.seq) = some (first + (recs.length - 1), r) := by
  obtain ⟨l, rfl⟩ : ∃ l, recs = l ++ [r] := List.getLast?_eq_some_iff.mp hlast
  simp [List.mapIdx_append]

theorem odoWritten_fails {s : State} {r : Rec} (hbad : s.nv.odoBad = []) (hlast : s.nv.odometer.recs.getLast? = some r)
    (hroom : s.nv.odometer.recs.length < 131072) (hpos : s.nv.odometer.recs.length ≤ s.nv.odoPos) :
    odoWritten r.seq false s = { s with nv := { s.nv with
      odometer := { s.nv.odometer with recs := s.nv.odometer.recs ++ [r] }, odoPos := s.nv.odoPos + 1
      odoBad := [s.nv.odoPos - 1] } } := by
  have hne : s.nv.odometer.recs ≠ [] := by rintro h; simp [h] at hlast
  have hlen : 0 < s.nv.odometer.recs.length := List.length_pos_iff.mpr hne
  have hplace : s.nv.odoPos - s.nv.odometer.recs.length + (s.nv.odometer.recs.length - 1) = s.nv.odoPos - 1 := by omega
  have hkept : newest 131072 (s.nv.odometer.recs ++ [r]) = s.nv.odometer.recs ++ [r] := by
    rw [newest, List.length_append, List.length_singleton, Nat.sub_eq_zero_of_le (by omega), List.drop_zero]
  simp only [odoWritten, find_newest hlast, hplace, hbad, hkept, List.contains_nil, Bool.or_self, Bool.false_eq_true, if_false,
    List.nil_append]
  rw [List.filter_cons_of_pos (by simpa using (by omega : s.nv.odoPos + 1 ≤ s.nv.odoPos - 1 + 131072)), List.filter_nil]

theorem odometerRecordWrite_completes (s : State) (seq : Nat) : exec (.odometerRecordWrite seq true) s = .next s ∧
    ∀ r, s.nv.odoBad = [] → s.nv.odometer.recs.getLast? = some r → r.seq = seq → s.nv.odometer.recs.length < 131072 →
      s.nv.odometer.recs.length ≤ s.nv.odoPos →
      exec (.odometerRecordWrite seq false) s = .next { s with nv := { s.nv with
        odometer := { s.nv.odometer with recs := s.nv.odometer.recs ++ [r] }, odoPos := s.nv.odoPos + 1
        odoBad := [s.nv.odoPos - 1] } } := by
  refine ⟨congrArg Host.Outcome.next ?_, ?_⟩
  · simp only [odoWritten]
    split <;> simp
  · rintro r hbad hlast rfl hroom hpos
    exact congrArg Host.Outcome.next (odoWritten_fails hbad hlast hroom hpos)

/-- A mark of a code word is all that an injection into memory writes of the store. -/
theorem alterWord_marks (soft : Bool) (f off : Nat) (s : State) :
    ∃ b w, alterWord soft f off s = { s with store.bad := b, store.soft := w } := by
  unfold alterWord
  simp only
  split
  · split <;> exact ⟨_, _, rfl⟩
  · split <;> exact ⟨_, _, rfl⟩

theorem armInj_arms (c : Cmd) (u : State) : ∃ e n st, armInj c u = { u with err := e, nv := n, store := st } ∧
    st.mem = u.store.mem ∧ e.injSeq = some (BitVec.ofNat 32 (bits (c.p 2) 0 32)) ∧ ∃ i, e.inj = u.err.inj ++ [i] ∧
      i.point = BitVec.ofNat 16 (bits (c.p 0) 0 16) ∧ i.unit = BitVec.ofNat 16 (bits (c.p 0) 16 16) := by
  obtain ⟨rec, hrec⟩ : ∃ rec : Rec, rec = { Rec.blank 0x0013 with
      point := BitVec.ofNat 16 (bits (c.p 0) 0 16), unit := BitVec.ofNat 16 (bits (c.p 0) 16 16)
      arg0 := BitVec.ofNat 64 ((BitVec.ofNat 16 (bits (c.p 0) 0 16)).toNat + (BitVec.ofNat 8 (bits (c.p 0) 32 8)).toNat * 65536)
      arg1 := BitVec.ofNat 32 (bits (c.p 2) 0 32) } := ⟨_, rfl⟩
  have hinj := (writeRec_logsOnly rec u).inj
  obtain ⟨e, o, n, honly⟩ := writeRec_only rec u
  simp only [armInj, ← hrec]
  rw [honly] at hinj ⊢
  split
  · exact ⟨_, _, _, rfl, rfl, rfl, _, congrArg (· ++ [_]) hinj, rfl, rfl⟩
  · split
    next f _ =>
      obtain ⟨b, w, hmark⟩ := alterWord_marks (BitVec.ofNat 8 (bits (c.p 0) 32 8) = 0) f (c.p 1).toNat _
      rw [hmark]
      exact ⟨_, _, _, rfl, rfl, rfl, _, congrArg (· ++ [_]) hinj, rfl, rfl⟩
    next => exact ⟨_, _, _, rfl, rfl, rfl, _, congrArg (· ++ [_]) hinj, rfl, rfl⟩

theorem inject_arms {c : Cmd} {s u : State} (hrun : runsIn 0x601 c s = some u) (hid : u.fw.identity = true)
    (hform : injectForm u c = true) (hauth : injectAuth u c = true) (hroom : u.err.inj.length < 16) :
    exec (.inject c) s = .next (replied 0x601 c .ok 0 [] (armInj c u)) := by
  refine congrArg Host.Outcome.next (runPacket_stat hrun ?_)
  rw [bodyInject, withIdentity, if_pos hid, hform, hauth, decide_eq_true hroom]
  rfl

/-- Settles O40: a read answers the records from its first number on, a record that failed in MRAM goes to the next place,
and an injection is armed. -/
theorem logsAndInjectionComplete : Obligations.LogsAndInjectionComplete := by
  refine ⟨fun c s u r => errLogRead_answers, fun c s u r => odometerRead_answers, odometerRecordWrite_completes,
    fun c s u hrun hid hform hauth hroom => ?_, fun s n hup => congrArg Host.Outcome.next (whenUp_of_running hup _)⟩
  obtain ⟨e, n, st, harm, hmem, hseq, i, hinj, hpoint, hunit⟩ := armInj_arms c u
  exact ⟨_, i, harm ▸ inject_arms hrun hid hform hauth hroom, rfl, hmem, hinj, hpoint, hunit, hseq⟩

end Sys2Proof.Proofs

/-! The pair, signed orders, a module without an identity, and the invariant right after reset. -/

namespace Sys2Proof.Proofs

open Sys2Proof.Machine Sys2Proof.Claims Sys2Proof.Laws

-- Checked one after another, which keeps the memory of the check small.
set_option Elab.async false

/-! ### Handing over a module whose tile still has a stream to restart (R166, R169, R283, R318) -/

/-- `TANDEM_HANDOVER` that allows runs that are not mirrored. -/
def handoverCmd : Cmd := Tests.cmd 0 [1]

/-- The module `stranded`, paired. -/
def strandedPaired : State := { stranded with pair := { stranded.pair with st := 3 } }

theorem tandemHandover_strandedPaired :
    ∃ t, exec (.tandemHandover handoverCmd) strandedPaired = .next t ∧ memGet t.store.mem 0x2000 = 2 :=
  ⟨_, rfl, by decide +kernel⟩

/-- Refutes O54: `TANDEM_HANDOVER` stops the streams of every tile, and in `strandedPaired` the end of a stream starts it again
for a context, whose fault puts an event record into the store at once (R318). -/
theorem not_pairComplete : ¬ Obligations.PairComplete := by
  rintro ⟨-, -, -, -, hhandover, -⟩
  have hrun : runsIn 0x681 handoverCmd strandedPaired = some (Tests.into 0x681 handoverCmd strandedPaired) :=
    Tests.runs (by decide +kernel)
  obtain ⟨t, hexec, -, -, hstore, -⟩ :=
    (hhandover handoverCmd strandedPaired _ hrun (by decide +kernel)).2 (by decide +kernel) (by decide +kernel)
  obtain ⟨v, hexec', hbyte⟩ := tandemHandover_strandedPaired
  obtain rfl : t = v := Host.Outcome.next.inj (hexec.symm.trans hexec')
  rw [hstore] at hbyte
  exact absurd hbyte (by decide +kernel)

/-! ### Orders (R286, R287, R289, R366) -/

theorem checked_of_passes {cs : List (Bool × Status)} (h : ∀ c ∈ cs, c.1 = true) (s : State) (body : Eff) :
    checked cs s body = body := by
  rw [checked, firstFail_none.mpr h]

theorem acceptOrder_only (o : Order) (s : State) : ∃ e od n, acceptOrder o s =
    { s with
      nv := { s.nv with lastOrder := o.seq, odometer := od, odoPos := n }
      err := e
      issued := s.issued ++ [{ by_ := .order o.seq, time := o.issued }] } := by
  obtain ⟨e, od, n, h⟩ := writeRec_only { Rec.blank 0x0011 with arg0 := o.seq.setWidth 64, arg1 := BitVec.ofNat 32 o.kind }
    { s with
      nv.lastOrder := o.seq
      issued := s.issued ++ [{ by_ := .order o.seq, time := o.issued }] }
  exact ⟨e, od, n, h⟩

theorem withIdentity_of_known {s : State} (h : s.fw.identity = true) (e : Eff) : withIdentity s e = e := if_pos h

theorem withIdentity_of_unknown {s : State} (h : s.fw.identity = false) (e : Eff) : withIdentity s e = Eff.stat .auth s :=
  if_neg (by simp [h])

theorem mem_newFps {s : State} {o : Order} {f : Word} : f ∈ s.nv.members ++ newFps s o ↔ f ∈ s.nv.members ∨ f ∈ o.fps := by
  simp only [List.mem_append, newFps, List.mem_dedup, List.mem_filter, List.contains_eq_mem, Bool.not_eq_true', decide_eq_false_iff_not]
  tauto

theorem admit_completes {c : Cmd} {s u : State} (hrun : runsIn 0x683 c s = some u) (hid : u.fw.identity = true) :
    (orderForm true c.payload = false → exec (.admit_ c) s = .next (replied 0x683 c .badParam 0 [] u)) ∧
    (orderForm true c.payload = true → (parseOrder c.payload).seq ≤ u.nv.lastOrder →
      exec (.admit_ c) s = .next (replied 0x683 c .auth 0 [] u)) ∧
    (orderForm true c.payload = true → u.nv.lastOrder < (parseOrder c.payload).seq → orderSigned u c.payload = false →
      exec (.admit_ c) s = .next (replied 0x683 c .quorum 0 [] u)) ∧
    (orderForm true c.payload = true → u.nv.lastOrder < (parseOrder c.payload).seq → orderSigned u c.payload = true →
      u.nv.members.length + (newFps u (parseOrder c.payload)).length ≤ 128 → ∃ w,
        exec (.admit_ c) s = .next (replied 0x683 c .ok 0 [] w) ∧ w = { u with nv := w.nv, err := w.err, issued := w.issued } ∧
        w.nv.lastOrder = (parseOrder c.payload).seq ∧ w.nv.members.length ≤ 128 ∧
        ∀ f, f ∈ w.nv.members ↔ f ∈ u.nv.members ∨ f ∈ (parseOrder c.payload).fps) := by
  refine ⟨fun hform => ?form, fun hform hold => ?old, fun hform hnew hsig => ?unsigned, fun hform hnew hsig hroom => ?accepted⟩
  case form =>
    refine congrArg Host.Outcome.next (runPacket_stat hrun ?_)
    simp only [bodyAdmit, withIdentity_of_known hid, hform]
    rfl
  case old =>
    refine congrArg Host.Outcome.next (runPacket_stat hrun ?_)
    simp only [bodyAdmit, withIdentity_of_known hid, hform, decide_eq_false (BitVec.not_lt.mpr hold)]
    rfl
  case unsigned =>
    refine congrArg Host.Outcome.next (runPacket_stat hrun ?_)
    simp only [bodyAdmit, withIdentity_of_known hid, hform, decide_eq_true hnew, hsig]
    rfl
  case accepted =>
    obtain ⟨e, od, n, haccept⟩ := acceptOrder_only (parseOrder c.payload) u
    have hbody : bodyAdmit c u = Eff.stat .ok { acceptOrder (parseOrder c.payload) u with
        nv.members := (acceptOrder (parseOrder c.payload) u).nv.members ++
          newFps (acceptOrder (parseOrder c.payload) u) (parseOrder c.payload) } := by
      simp only [bodyAdmit, withIdentity_of_known hid]
      exact checked_of_passes (by simp [hform, hnew, hsig, hroom]) _ _
    refine ⟨_, congrArg Host.Outcome.next (runPacket_stat hrun hbody), ?_⟩
    rw [haccept]
    exact ⟨rfl, rfl, by simpa [newFps] using hroom, fun f => mem_newFps (s := u)⟩

theorem expel_completes {c : Cmd} {s u : State} {m : ModEntry} (hrun : runsIn 0x682 c s = some u)
    (hid : u.fw.identity = true) (hform : orderForm false c.payload = true)
    (hnew : u.nv.lastOrder < (parseOrder c.payload).seq) (hsig : orderSigned u c.payload = true) :
    ((parseOrder c.payload).epoch ≠ epochNow u → exec (.expel c) s = .next (replied 0x682 c .staleMap 0 [] u)) ∧
    ((parseOrder c.payload).epoch = epochNow u → expelOk u (parseOrder c.payload) = true →
      expelEntry u (parseOrder c.payload) = some m →
      ((parseOrder c.payload).module.toNat ≠ u.me → exec (.expel c) s = .next (replied 0x682 c .ok 0 []
        (expelOther (parseOrder c.payload) m.fp m.twin (acceptOrder (parseOrder c.payload) u)))) ∧
      ((parseOrder c.payload).module.toNat = u.me → exec (.expel c) s = .next (replied 0x682 c .ok 0 []
        (park (openOf 0x682 c) (acceptOrder (parseOrder c.payload) u))))) := by
  refine ⟨fun hepoch => ?stale, fun hepoch hok hentry => ?accepted⟩
  case stale =>
    refine congrArg Host.Outcome.next (runPacket_stat hrun ?_)
    simp only [bodyExpel, withIdentity_of_known hid, hform, decide_eq_true hnew, hsig, decide_eq_false hepoch]
    rfl
  case accepted =>
    obtain ⟨e, od, n, haccept⟩ := acceptOrder_only (parseOrder c.payload) u
    have hentry' : expelEntry (acceptOrder (parseOrder c.payload) u) (parseOrder c.payload) = some m := by rwa [haccept]
    have hme : (acceptOrder (parseOrder c.payload) u).me = u.me := by rw [haccept]; rfl
    have hbody : bodyExpel c u = Eff.stat .ok (if (parseOrder c.payload).module.toNat = u.me
        then park (openOf 0x682 c) (acceptOrder (parseOrder c.payload) u)
        else expelOther (parseOrder c.payload) m.fp m.twin (acceptOrder (parseOrder c.payload) u)) := by
      simp only [bodyExpel, withIdentity_of_known hid, hentry', hme]
      exact checked_of_passes (by simp [hform, hnew, hsig, hepoch, hok]) _ _
    have hexec := runPacket_stat hrun hbody
    exact ⟨fun hother => congrArg Host.Outcome.next (hexec.trans (by rw [if_neg hother])),
      fun hself => congrArg Host.Outcome.next (hexec.trans (by rw [if_pos hself]))⟩

theorem managerKeys_completes {c : Cmd} {s u : State} (hrun : runsIn 0x684 c s = some u) (hid : u.fw.identity = true)
    (hform : keysForm c.payload = true) (hnew : u.nv.setSeq < BitVec.ofNat 32 (fieldB c.payload 8 4))
    (hsig : keysSigned u c.payload = true) : ∃ w,
      exec (.managerKeys c) s = .next (replied 0x684 c .ok 0 [] w) ∧ w = { u with nv := w.nv, err := w.err, issued := w.issued } ∧
      w.nv.setSeq = BitVec.ofNat 32 (fieldB c.payload 8 4) ∧ w.nv.k = BitVec.ofNat 4 (fieldB c.payload 5 1) ∧
      w.nv.keys = (keySlots c.payload).map (fun i => (i, sliceB c.payload (0x20 + 1312 * i) 1312)) ∧
      w.nv.lastOrder = u.nv.lastOrder ∧ w.nv.members = u.nv.members := by
  obtain ⟨v, hv⟩ : ∃ v : State, v = { u with
      nv.keys := (keySlots c.payload).map fun i => (i, sliceB c.payload (0x20 + 1312 * i) 1312)
      nv.k := BitVec.ofNat 4 (fieldB c.payload 5 1)
      nv.setSeq := BitVec.ofNat 32 (fieldB c.payload 8 4)
      issued := u.issued ++ [{ by_ := .keys (BitVec.ofNat 32 (fieldB c.payload 8 4))
                               time := BitVec.ofNat 64 (fieldB c.payload 0x18 8) }] } := ⟨_, rfl⟩
  obtain ⟨rec, hrec⟩ : ∃ rec : Rec, rec = { Rec.blank 0x0012 with arg0 := 9, arg1 := BitVec.ofNat 32 (fieldB c.payload 8 4) } :=
    ⟨_, rfl⟩
  have hbody : bodyManagerKeys c u = Eff.stat .ok (writeRec rec v) := by
    simp only [bodyManagerKeys, withIdentity_of_known hid, ← hv, ← hrec]
    exact checked_of_passes (by simp [hform, hnew, hsig]) _ _
  obtain ⟨e, od, n, honly⟩ := writeRec_only rec v
  refine ⟨_, congrArg Host.Outcome.next (runPacket_stat hrun hbody), ?_⟩
  rw [honly, hv]
  exact ⟨rfl, rfl, rfl, rfl, rfl, rfl⟩

/-- Settles O55: each order passes its checks in turn, and what an accepted one leaves is written out by the model. -/
theorem ordersComplete : Obligations.OrdersComplete := by
  refine ⟨fun c s u => admit_completes, fun c s u m => expel_completes, fun o s => ?accepts, fun c s u => managerKeys_completes⟩
  case accepts =>
    obtain ⟨e, od, n, haccept⟩ := acceptOrder_only o s
    rw [haccept]
    exact ⟨rfl, rfl, rfl⟩

/-- Settles O58: right after reset every memory and every log is empty. -/
theorem invariantAtReset : Obligations.InvariantAtReset where
  mem := wf_reset
  slotA := rfl
  slotB := rfl
  staging := rfl
  panniers := by decide
  errLog := by decide
  odometer := by decide
  faults := by decide
  tags := by decide

end Sys2Proof.Proofs

/-! Firmware: staging, activation and its steps, the boot, recovery and attestation, and a module without an identity. -/

namespace Sys2Proof.Proofs

open Sys2Proof.Machine Sys2Proof.Claims Sys2Proof.Laws

-- Checked one after another, which keeps the memory of the check small.
set_option Elab.async false

/-! ### Staging (R356) -/

theorem fwStage_answers {c : Cmd} {s u : State} (hrun : runsIn 0x500 c s = some u) (halign : (c.p 1).toNat % 4096 = 0) :
    ((c.p 0).toNat = 2 → (c.p 1).toNat + c.payload.length ≤ 524288 → exec (.fwStage c) s = .next (replied 0x500 c .ok 0 []
      { u with nv := { u.nv with staging := u.nv.staging.write (c.p 1).toNat c.payload } })) ∧
    ((c.p 0).toNat = 1 → (c.p 1).toNat + c.payload.length ≤ imageTop →
      (u.nv.activeSlot = true ∨ actSlot u = some true → exec (.fwStage c) s = .next (replied 0x500 c .busy 0 [] u)) ∧
      (u.nv.activeSlot = false → actSlot u ≠ some true → exec (.fwStage c) s = .next (replied 0x500 c .ok 0 []
        { u with nv := { u.nv with slotB := u.nv.slotB.write (c.p 1).toNat c.payload } }))) ∧
    ((c.p 0).toNat = 0 → (c.p 1).toNat + c.payload.length ≤ imageTop → u.nv.activeSlot = true → actSlot u ≠ some false →
      exec (.fwStage c) s = .next (replied 0x500 c .ok 0 []
        { u with nv := { u.nv with slotA := u.nv.slotA.write (c.p 1).toNat c.payload } })) := by
  refine ⟨fun hslot hfits => ?config, fun hslot hfits => ⟨fun hbusy => ?busy, fun hactive hact => ?slotB⟩,
    fun hslot hfits hactive hact => ?slotA⟩
  case config =>
    refine congrArg Host.Outcome.next (runPacket_stat hrun ?_)
    simp [bodyFwStage, hslot, halign, Nat.not_lt.mpr hfits, Eff.ok]
  case busy =>
    refine congrArg Host.Outcome.next (runPacket_stat hrun ?_)
    rcases hbusy with h | h <;> simp [bodyFwStage, hslot, halign, Nat.not_lt.mpr hfits, h]
  case slotB =>
    refine congrArg Host.Outcome.next (runPacket_stat hrun ?_)
    simp [bodyFwStage, hslot, halign, Nat.not_lt.mpr hfits, hactive, hact, Eff.ok]
  case slotA =>
    refine congrArg Host.Outcome.next (runPacket_stat hrun ?_)
    simp [bodyFwStage, hslot, halign, Nat.not_lt.mpr hfits, hactive, hact, Eff.ok]

/-! ### What firmware records and measures (R354, R369) -/

theorem recFw_only (event : Nat) (value : BitVec 32) (s : State) : ∃ e o n,
    recFw event value s = { s with err := e, nv := { s.nv with odometer := o, odoPos := n } } := writeRec_only _ s

/-- Measurements change the measurement log only (R354). -/
def MeasuresOnly (s t : State) : Prop := ∃ l b n es,
  t = { s with fw := { s.fw with logL := l, logBase := b, total := n, entries := es } }

theorem measuresOnly_refl (s : State) : MeasuresOnly s s := ⟨_, _, _, _, rfl⟩

theorem MeasuresOnly.trans {s t u : State} (h : MeasuresOnly s t) (h' : MeasuresOnly t u) : MeasuresOnly s u := by
  obtain ⟨l, b, n, es, rfl⟩ := h
  obtain ⟨l', b', n', es', rfl⟩ := h'
  exact ⟨l', b', n', es', rfl⟩

theorem measuresOnly_measure (m : Measure) (s : State) : MeasuresOnly s (Machine.measure m s) := by
  simp only [Machine.measure]
  split
  · split <;> exact ⟨_, _, _, _, rfl⟩
  · exact ⟨_, _, _, _, rfl⟩

theorem measuresOnly_startParts (ms : Option (List Measure)) (parts : List Nat) (s : State) :
    MeasuresOnly s (startParts ms parts s) :=
  List.foldlRecOn (motive := MeasuresOnly s) _ _ (measuresOnly_refl s) fun t h n _ => by
    split
    · exact h.trans (measuresOnly_measure _ t)
    · exact h

theorem measuresOnly_coreStarted (s : State) : MeasuresOnly s (coreStarted s) := by
  simp only [coreStarted]
  split
  · exact measuresOnly_startParts ..
  · split
    · split
      · exact measuresOnly_startParts ..
      · split
        · exact measuresOnly_startParts ..
        · exact measuresOnly_refl s
    · exact measuresOnly_startParts ..

/-! ### Which images are valid (R350 to R352) -/

theorem components_congr {s t : State} (henv : t.env = s.env) : components t = components s := by
  have hsig : sigOk t = sigOk s := by
    funext key digest sig
    rw [sigOk, sigOk, henv]
  have hone : component t = component s := by
    funext x img key pos
    rw [component, component, hsig]
  funext x img key n
  induction n with
  | zero => rfl
  | succ n ih =>
    funext pos
    unfold components
    rw [hone, ih]

/-- An image is valid by the ROM's key and the rollback counter alone. -/
theorem imageOf_congr {s t : State} (henv : t.env = s.env) (hsvn : t.nv.rollbackSvn = s.nv.rollbackSvn) :
    imageOf t = imageOf s := by
  funext x
  unfold imageOf
  rw [components_congr henv, henv, hsvn]

theorem slotValid_congr {s t : State} (henv : t.env = s.env) (hsvn : t.nv.rollbackSvn = s.nv.rollbackSvn)
    (ha : t.nv.slotA = s.nv.slotA) (hb : t.nv.slotB = s.nv.slotB) (b : Bool) : slotValid t b = slotValid s b := by
  unfold slotValid fwSlot
  rw [ha, hb, imageOf_congr henv hsvn]

/-! ### Activation (R357) -/

theorem startAct_only (slot : Bool) (cmd : Option Open) (s : State) : ∃ e o n, startAct slot cmd s =
    { s with
      err := e
      nv := { s.nv with odometer := o, odoPos := n }
      fw := { s.fw with
        standby := false
        act := { st := 2, slot := slot, prior := !slot, step := if s.fw.standby then 1 else 2, cores := 0, cmd := cmd
                 revert := false, waiting := false, skip := false, since := s.now } } } := by
  obtain ⟨e, o, n, h⟩ := recFw_only 3 (slotArg slot) s
  exact ⟨e, o, n, by rw [startAct, h]; rfl⟩

/-- A staged block that verifies is written with its sequence number (R361). -/
theorem installConfig_of_verifies {u : State} {b : List Byte} (hb : memReadN u.nv.staging.cells 0 2552 = b)
    (hform : configForm b = true) (hsig : configSigned u (parseConfig b) = true)
    (hseq : u.nv.configSeq < (parseConfig b).seq) : installConfig u =
      Eff.stat .ok { u with nv := { u.nv with config := some (parseConfig b), configSeq := (parseConfig b).seq } } := by
  unfold installConfig
  simp only [Nat.reduceAdd, hb]
  exact checked_of_passes (by simp [hform, hsig, hseq]) _ _

theorem fwActivate_answers {c : Cmd} {s u : State} (hrun : runsIn 0x501 c s = some u) :
    ((c.p 0).toNat < 2 → slotValid u ((c.p 0).toNat == 1) = false → exec (.fwActivate c) s = .next (replied 0x501 c .auth 0 [] u)) ∧
    ((c.p 0).toNat < 2 → slotValid u ((c.p 0).toNat == 1) = true →
      (u.nv.activeSlot = ((c.p 0).toNat == 1) → u.fw.act.st ≠ 1 → exec (.fwActivate c) s = .next (replied 0x501 c .ok 0 [] u)) ∧
      (u.nv.activeSlot = ((c.p 0).toNat == 1) → u.fw.act.st = 1 → exec (.fwActivate c) s =
        .next (replied 0x501 c .ok 0 [] { u with fw := { u.fw with act := Act.none } })) ∧
      (u.nv.activeSlot ≠ ((c.p 0).toNat == 1) → u.fw.act.st ≠ 2 → u.fw.act.st ≠ 3 → composing u = false →
        (emergency u = true → exec (.fwActivate c) s = .next (replied 0x501 c .deferred 0 []
          { u with fw := { u.fw with act := { Act.none with st := 1, slot := (c.p 0).toNat == 1, prior := !((c.p 0).toNat == 1) } } })) ∧
        (emergency u = false → ∃ t, exec (.fwActivate c) s = .next t ∧ t = { u with fw := t.fw, err := t.err, nv := t.nv } ∧
          t.fw.act.st = 2 ∧ t.fw.act.slot = ((c.p 0).toNat == 1) ∧ t.fw.act.cmd = some (openOf 0x501 c) ∧
          t.nv.activeSlot = u.nv.activeSlot ∧ (u.fw.standby = true → t.fw.act.step = 1) ∧
          (u.fw.standby = false → t.fw.act.step = 2)))) ∧
    ((c.p 0).toNat = 2 →
      let b := memReadN u.nv.staging.cells 0 2552
      configForm b = true → configSigned u (parseConfig b) = true → u.nv.configSeq < (parseConfig b).seq →
        exec (.fwActivate c) s = .next (replied 0x501 c .ok 0 [] { u with nv := { u.nv with
          config := some (parseConfig b), configSeq := (parseConfig b).seq } })) := by
  have hslots (h : (c.p 0).toNat < 2) : ¬ 3 ≤ (c.p 0).toNat ∧ ¬ (c.p 0).toNat = 2 := by omega
  refine ⟨fun hlt hvalid => ?invalid, fun hlt hvalid => ⟨fun hactive hst => ?active, fun hactive hst => ?cancels,
    fun hactive htwo hthree hcomp => ⟨fun hemerg => ?deferred, fun hemerg => ?starts⟩⟩, fun htwo => ?config⟩
  case invalid =>
    refine congrArg Host.Outcome.next (runPacket_stat hrun ?_)
    simp only [bodyFwActivate, if_neg (hslots hlt).1, if_neg (hslots hlt).2, hvalid]
    rfl
  case active =>
    refine congrArg Host.Outcome.next (runPacket_stat hrun ?_)
    simp only [bodyFwActivate, if_neg (hslots hlt).1, if_neg (hslots hlt).2, hvalid, hactive, beq_self_eq_true, if_neg hst]
    rfl
  case cancels =>
    refine congrArg Host.Outcome.next (runPacket_stat hrun ?_)
    simp only [bodyFwActivate, if_neg (hslots hlt).1, if_neg (hslots hlt).2, hvalid, hactive, beq_self_eq_true, if_pos hst]
    rfl
  case deferred =>
    refine congrArg Host.Outcome.next (runPacket_stat hrun ?_)
    simp only [bodyFwActivate, if_neg (hslots hlt).1, if_neg (hslots hlt).2, hvalid, beq_false_of_ne hactive,
      decide_eq_false htwo, decide_eq_false hthree, hcomp, hemerg]
    rfl
  case starts =>
    obtain ⟨e, o, n, hstart⟩ := startAct_only ((c.p 0).toNat == 1) (some (openOf 0x501 c)) u
    have hbody : bodyFwActivate c u = Eff.later (startAct ((c.p 0).toNat == 1) (some (openOf 0x501 c)) u) := by
      simp only [bodyFwActivate, if_neg (hslots hlt).1, if_neg (hslots hlt).2, hvalid, beq_false_of_ne hactive,
        decide_eq_false htwo, decide_eq_false hthree, hcomp, hemerg]
      rfl
    refine ⟨_, congrArg Host.Outcome.next (runPacket_later hrun hbody), ?_⟩
    rw [hstart]
    exact ⟨rfl, rfl, rfl, rfl, rfl, fun h => if_pos h, fun h => if_neg (by simp [h])⟩
  case config =>
    intro b hform hsig hseq
    have hbody : bodyFwActivate c u = installConfig u := by
      rw [bodyFwActivate, if_neg (by omega), if_pos htwo]
    exact congrArg Host.Outcome.next (runPacket_stat hrun (hbody.trans (installConfig_of_verifies rfl hform hsig hseq)))

theorem stageAndActivate : StageAndActivate :=
  ⟨fun _ _ _ => fwStage_answers, fun _ _ _ _ hi => memGet_memWriteN_in _ _ _ hi, fun _ _ _ => fwActivate_answers⟩

/-! ### The steps of an activation (R357 to R360) -/

/-- The next wheel or flash core restarts (R358). -/
theorem nextStep_of_core {s : State} (hstep : s.fw.act.step = 2) (hcores : s.fw.act.cores + 1 < coreCount s) :
    nextStep s = { s with fw := { s.fw with act := { s.fw.act with cores := s.fw.act.cores + 1 } } } := by
  simp only [nextStep, hstep]
  rw [if_neg (by decide), if_pos trivial, if_pos hcores]

theorem stepDone_ok {s : State} (hst : s.fw.act.st = 2) (hwait : s.fw.act.waiting = false) :
    stepDone true s = nextStep (coreStarted s) := by
  simp [stepDone, hst, hwait]

theorem fwActivationStepDone_eq {s : State} (hup : s.phase = .running) (ok : Bool) :
    exec (.fwActivationStepDone ok) s = .next (stepDone ok s) :=
  congrArg Host.Outcome.next (whenFw_of_running hup _)

/-- The release of an image that is no return: its slot is active and in trial (R358). -/
theorem release_of_new {s : State} (hup : s.phase = .running) (hnew : s.fw.act.revert = false) :
    (release s).nv.activeSlot = s.fw.act.slot ∧ (release s).nv.trial = true ∧ (release s).fw.act.st = 3 ∧
      (release s).store = s.store ∧ (release s).comp = s.comp ∧ (release s).tiles = s.tiles := by
  obtain ⟨v, hv⟩ : ∃ v : State, v = { s with
      phase := .running
      nv.activeSlot := s.fw.act.slot
      nv.trial := true
      nv.trialBoots := 0
      fw.act := { Act.none with st := 3, slot := s.fw.act.slot, prior := s.fw.act.prior } } := ⟨_, rfl⟩
  have hrelease : release s = match s.fw.act.cmd with | some o => completeIf o .ok 0 [] v | none => v := by
    simp only [release, hup, hnew, reduceCtorEq, Bool.false_eq_true, if_false, Bool.not_false, hv] <;> rfl
  rw [hrelease]
  split
  next o _ =>
    obtain ⟨p, q, h⟩ := completeIf_only o .ok 0 [] v
    rw [h, hv]
    exact ⟨rfl, rfl, rfl, rfl, rfl, rfl⟩
  next =>
    rw [hv]
    exact ⟨rfl, rfl, rfl, rfl, rfl, rfl⟩

/-- A test that fails turns the activation round (R358). -/
theorem stepDone_fails {s : State} (hst : s.fw.act.st = 2) (hwait : s.fw.act.waiting = false)
    (hnew : s.fw.act.revert = false) : ∃ t, stepDone false s = t ∧ t = { s with fw := t.fw } ∧ t.fw.act.st = 2 ∧
      t.fw.act.revert = true ∧ t.fw.act.slot = !s.fw.act.slot := by
  refine ⟨_, rfl, ?_⟩
  have hback : stepDone false s = beginAct (!s.fw.act.slot) s.fw.act.cmd true
      (if s.fw.act.step = 1 then { s with fw.standby := true } else s) := by
    simp [stepDone, hst, hwait, hnew]
  rw [hback]
  split <;> exact ⟨rfl, rfl, rfl, rfl⟩

/-! ### The hold limit (R358) -/

/-- Replies change the port's and the queues' lists only. -/
def RepliesOnly (s t : State) : Prop := ∃ p q, t = { s with port := p, queues := q }

theorem repliesOnly_foldl {α : Type} {f : State → α → State} (hf : ∀ s a, RepliesOnly s (f s a)) (l : List α) (s : State) :
    RepliesOnly s (l.foldl f s) :=
  List.foldlRecOn (motive := RepliesOnly s) _ _ ⟨_, _, rfl⟩ fun t ⟨p, q, ht⟩ a _ => by
    obtain ⟨p', q', h⟩ := hf t a
    exact ⟨p', q', by rw [h, ht]⟩

theorem RepliesOnly.trans {s t u : State} (h : RepliesOnly s t) (h' : RepliesOnly t u) : RepliesOnly s u := by
  obtain ⟨p, q, rfl⟩ := h
  obtain ⟨p', q', rfl⟩ := h'
  exact ⟨p', q', rfl⟩

theorem completeIf_fw (o : Open) (st : Status) (result : Word) (payload : List Byte) (s : State) :
    (completeIf o st result payload s).fw = s.fw := by
  obtain ⟨p, q, h⟩ := completeIf_only o st result payload s
  rw [h]

theorem foldl_fw {α : Type} {f : State → α → State} {l : List α} (hf : ∀ s, ∀ a ∈ l, (f s a).fw = s.fw) (s : State) :
    (l.foldl f s).fw = s.fw :=
  List.foldlRecOn (motive := fun (t : State) => t.fw = s.fw) _ _ rfl fun t h a ha => (hf t a ha).trans h

/-- The end of the commands of a scope leaves firmware's state: each completes, and what a command waited on is forgotten. -/
theorem endCmds_fw (w : Scope) (st : Status) (s : State) : (endCmds w st s).fw = s.fw := by
  simp only [endCmds]
  refine (foldl_fw (fun s x hx => ?wait) _).trans ((foldl_fw (fun s j _ => ?job) _).trans
    ((foldl_fw (fun s u _ => completeIf_fw ..) _).trans (foldl_fw (fun s t _ => completeIf_fw ..) _)))
  case wait =>
    have hcmd := (List.mem_filter.mp hx).2
    unfold endWait
    split
    next hwho => simp [Scope.wait, hwho] at hcmd
    next => exact completeIf_fw ..
  case job =>
    split
    · exact (completeIf_fw ..).trans (foldl_fw (f := fun s i => setClosed false i s) (fun _ _ _ => rfl) _)
    · split
      · exact completeIf_fw ..
      · rfl

theorem holdLimit_ends {s : State} (hst : s.fw.act.st = 2) (hstep : 2 ≤ s.fw.act.step) :
    (holdLimit s).time.waiting = [] ∧ (holdLimit s).err.checks = [] ∧ (holdLimit s).pair.cmd = none ∧
      (holdLimit s).fw = s.fw := by
  obtain ⟨x, hx⟩ : ∃ x : State, x = ((s.jobs.filter waitsTurn).filterMap jobCmd).foldl (fun s o => completeIf o .timeout 0 [] s)
      (endCmds { rider := none, keep := selfOpen } .timeout { s with jobs := dropIf s.jobs waitsTurn }) := ⟨_, rfl⟩
  have hfw : x.fw = s.fw := by rw [hx]; exact (foldl_fw (fun _ _ _ => completeIf_fw ..) _).trans (endCmds_fw ..)
  obtain ⟨y, hy⟩ : ∃ y : State, y = { x with time.waiting := [], err.checks := [], pair.cmd := none } := ⟨_, rfl⟩
  obtain ⟨p, q, hends⟩ : RepliesOnly y (holdLimit s) := by
    have hreply (o : Open) (s : State) : RepliesOnly s (completeIf o .timeout 0 [] s) := completeIf_only ..
    have hfolds : RepliesOnly y (x.err.checks.foldl (fun s c => completeIf c.cmd .timeout 0 [] s)
        (x.time.waiting.foldl (fun s w => completeIf w.1 .timeout 0 [] s) y)) :=
      (repliesOnly_foldl (fun _ _ => hreply ..) _ _).trans (repliesOnly_foldl (fun _ _ => hreply ..) _ _)
    rw [holdLimit, if_neg (by simp [hst]; omega)]
    simp only [← hx, ← hy]
    split
    · exact hfolds.trans (hreply ..)
    · exact hfolds
  rw [hends, hy]
  exact ⟨rfl, rfl, rfl, hfw⟩

/-! ### Trial and watchdogs (R355, R358, R367) -/

/-- The rollback counter takes the confirmed image's version number where that is higher (R352). -/
theorem confirmTrial_confirms {s : State} (hst : s.fw.act.st = 3) : ∃ t, confirmTrial s = t ∧
    t = { s with fw := t.fw, nv := t.nv, err := t.err } ∧ t.fw.act = Act.none ∧ t.nv.trial = false ∧
      t.nv.activeSlot = s.nv.activeSlot ∧ s.nv.rollbackSvn.toNat ≤ t.nv.rollbackSvn.toNat ∧
      ∀ m ms, imageOf s (fwSlot s s.nv.activeSlot) = some (m :: ms) → m.svn.toNat ≤ t.nv.rollbackSvn.toNat := by
  obtain ⟨svn, hsvn⟩ : ∃ svn, svn = match imageOf s (fwSlot s s.nv.activeSlot) with
    | some (m :: _) => m.svn
    | _ => s.nv.rollbackSvn := ⟨_, rfl⟩
  obtain ⟨v, hv⟩ : ∃ v : State, v = { s with
      nv.rollbackSvn := if s.nv.rollbackSvn < svn then svn else s.nv.rollbackSvn
      nv.trial := false
      nv.trialBoots := 0
      fw.act := Act.none } := ⟨_, rfl⟩
  have hconfirm : confirmTrial s = recFw 4 v.nv.rollbackSvn v := by
    rw [confirmTrial, if_neg (by simp [hst]), hv, hsvn] <;> rfl
  have hmax : s.nv.rollbackSvn.toNat ≤ v.nv.rollbackSvn.toNat ∧ svn.toNat ≤ v.nv.rollbackSvn.toNat := by
    rw [hv]
    simp only [BitVec.lt_def]
    split <;> omega
  obtain ⟨e, o, n, honly⟩ := recFw_only 4 v.nv.rollbackSvn v
  refine ⟨_, hconfirm, ?_⟩
  rw [honly]
  refine ⟨by rw [hv], by rw [hv], by rw [hv], by rw [hv], hmax.1, fun m ms himage => ?_⟩
  have hle := hmax.2
  rwa [hsvn, himage] at hle

theorem wdog_startParts (ms : Option (List Measure)) (parts : List Nat) (s : State) :
    ∃ f, startParts ms parts s = { s with fw := f } ∧ f.act = s.fw.act := by
  obtain ⟨l, b, n, es, h⟩ := measuresOnly_startParts ms parts s
  exact ⟨_, h, rfl⟩

/-- What an expiry does before it takes a core out of service: it is recorded, the core's component starts again, and the time
is kept. -/
theorem watchdog_restarts {s : State} {c : FwCore} (cmp : BitVec 32) (hruns : coreRuns s c = true) (hst : s.fw.act.st = 0) :
    ∃ v, (lookupK s.fw.wdog c = none → watchdog c cmp s = v) ∧
      (∀ t, lookupK s.fw.wdog c = some t → s.now.toNat < t.toNat + 1000000000 → watchdog c cmp s = coreFails c v) ∧
      v = { s with fw := v.fw, nv := v.nv, err := v.err } ∧ v.nv.activeSlot = s.nv.activeSlot ∧
      lookupK v.fw.wdog c = some s.now ∧ v.err.fences = s.err.fences := by
  obtain ⟨e, o, n, hrec⟩ := recFw_only 8 cmp s
  have hfences : (recFw 8 cmp s).err.fences = s.err.fences := writeRec_fences ..
  obtain ⟨f, hparts, hact⟩ := wdog_startParts (imageOfCore s c) [coreComponent c] (recFw 8 cmp s)
  rw [hrec] at hparts hact hfences
  have htrial : ¬ f.act.st = 3 := by rw [show f.act.st = 0 from (congrArg Act.st hact).trans hst]; decide
  refine ⟨{ s with fw := { f with wdog := setK f.wdog c s.now }, nv := { s.nv with odometer := o, odoPos := n }, err := e },
    fun hfirst => ?_, fun t hlast hsoon => ?_, rfl, rfl, lookupK_setK_same .., hfences⟩
  · simp only [watchdog, hruns, hrec, hparts, hfirst]
    rw [if_neg (by simp), if_neg (by simp), if_neg htrial]
    rfl
  · simp only [watchdog, hruns, hrec, hparts, hlast]
    rw [if_neg (by simp), if_pos (decide_eq_true hsoon), if_neg htrial]
    rfl

theorem firmwareWatchdogExpiry_eq {s : State} (hup : s.phase = .running) (c : FwCore) (cmp : BitVec 32) :
    exec (.firmwareWatchdogExpiry c cmp) s = .next (watchdog c cmp s) :=
  congrArg Host.Outcome.next (whenFw_of_running hup _)

theorem unitKind_unitChainring (w : Fin 16) : unitKind (unitChainring w.val) = 3 := by
  have := w.isLt
  simp only [unitKind, bits, unitChainring, BitVec.toNat_ofNat, Nat.shiftRight_eq_div_pow]
  omega

theorem unitIdx_unitChainring (w : Fin 16) : unitIdx (unitChainring w.val) = w.val := by
  have := w.isLt
  simp only [unitIdx, bits, unitChainring, BitVec.toNat_ofNat, Nat.shiftRight_eq_div_pow]
  omega

/-- A second expiry of a wheel core fences its Chainring (R335, trigger 0x03). -/
theorem coreFails_wheel {s : State} {w : Fin 16} (hfree : unitFenced s (unitChainring w.val) = false) :
    coreFails (.wheel w) s = fenceChainring w.val (markFence (unitChainring w.val) 3 s) := by
  have hunit : unitExists s (unitChainring w.val) = true := by
    simp [unitExists, unitKind_unitChainring, unitIdx_unitChainring]
  rw [coreFails, fenceUnit_of_unfenced hunit hfree (by simp [unitKind_unitChainring]) (by simp [unitKind_unitChainring]),
    fenceEffects, unitKind_unitChainring, unitIdx_unitChainring]
  rfl

theorem activationSteps : ActivationSteps := by
  refine fun s hup => ⟨fun hst hcalm hvalid => ?deferred, fun hst hwait hstep hcores => ?core, fun hst hwait hstep hcores => ?power,
    fun hst hwait hstep hcores hnew => ?releases, fun hst hwait hnew => ?fails, fun hst hwait hcalm => ?resumes,
    fun hst hstep => ?hold, fun hst => ?confirms, fun h cmp hst hfirst hruns => ?expires, fun w cmp v hst hlast hsoon hfree => ?again⟩
  case deferred =>
    refine congrArg Host.Outcome.next ((whenFw_of_running hup _).trans ?_)
    rw [startDeferred, if_neg (by simp [hst, hcalm]), if_pos hvalid]
  case core =>
    refine ⟨_, fwActivationStepDone_eq hup true, ?_⟩
    obtain ⟨l, b, n, es, hstart⟩ := measuresOnly_coreStarted s
    rw [stepDone_ok hst hwait, nextStep_of_core (by rw [hstart]; exact hstep) (by rw [hstart]; exact hcores), hstart]
    exact ⟨rfl, rfl⟩
  case power =>
    refine ⟨_, fwActivationStepDone_eq hup true, ?_⟩
    obtain ⟨l, b, n, es, hstart⟩ := measuresOnly_coreStarted s
    rw [stepDone_ok hst hwait, hstart]
    simp only [nextStep, hstep, hcores]
    exact ⟨rfl, rfl⟩
  case releases =>
    refine ⟨_, fwActivationStepDone_eq hup true, ?_⟩
    obtain ⟨l, b, n, es, hstart⟩ := measuresOnly_coreStarted s
    have hlast : nextStep (coreStarted s) = release (coreStarted s) := by
      rw [hstart]
      simp only [nextStep, hstep, hcores]
      rfl
    rw [stepDone_ok hst hwait, hlast]
    have hrelease := release_of_new (s := coreStarted s) (by rw [hstart]; exact hup) (by rw [hstart]; exact hnew)
    rw [hstart] at hrelease ⊢
    exact hrelease
  case fails =>
    obtain ⟨t, ht, hwhole⟩ := stepDone_fails hst hwait hnew
    exact ⟨t, ht ▸ fwActivationStepDone_eq hup false, hwhole⟩
  case resumes =>
    refine congrArg Host.Outcome.next ((whenFw_of_running hup _).trans (if_pos ?_))
    simp [hst, hwait, hcalm]
  case hold => exact ⟨_, congrArg Host.Outcome.next (whenFw_of_running hup _), holdLimit_ends hst hstep⟩
  case confirms =>
    obtain ⟨t, ht, hwhole⟩ := confirmTrial_confirms hst
    exact ⟨t, ht ▸ congrArg Host.Outcome.next (whenFw_of_running hup _), hwhole⟩
  case expires =>
    obtain ⟨v, hv, -, honly, hslot, hkept, -⟩ := watchdog_restarts cmp hruns hst
    exact ⟨v, (firmwareWatchdogExpiry_eq hup _ _).trans (congrArg Host.Outcome.next (hv hfirst)), honly, hslot, hkept⟩
  case again =>
    obtain ⟨x, -, hx, -, -, -, hfences⟩ := watchdog_restarts cmp (c := .wheel w) rfl hst
    have hserves : unitFenced x (unitChainring w.val) = false := by rw [unitFenced, hfences]; exact hfree
    exact ⟨x, hfences, (firmwareWatchdogExpiry_eq hup _ _).trans
      (congrArg Host.Outcome.next ((hx v hlast hsoon).trans (coreFails_wheel hserves)))⟩

/-! ### The boot (R349, R353, R354, R365) -/

theorem bootAborted_only (s : State) : ∃ e o n, bootAborted s =
    { s with err := e, nv := { s.nv with aborted := none, odometer := o, odoPos := n } } := by
  unfold bootAborted
  split
  next b _ =>
    obtain ⟨e, o, n, h⟩ := recFw_only 5 (slotArg b) { s with nv.aborted := none }
    exact ⟨e, o, n, h⟩
  next hnone => exact ⟨s.err, s.nv.odometer, s.nv.odoPos, by rw [← hnone]⟩

theorem bootIdentity_only (b : BootInfo) (s : State) : ∃ e o n, bootIdentity b s = { s with
    err := e
    nv := { s.nv with
      bootCount := if b.countersOk then s.nv.bootCount + 1 else s.nv.bootCount, odometer := o, odoPos := n }
    fw := { s.fw with identity := b.pufOk && b.countersOk } } := by
  simp only [bootIdentity]
  split
  · exact ⟨_, _, _, rfl⟩
  · exact recFw_only 7 1 _

/-- The state in which a boot looks at the straps and the slots. -/
def bootStart (b : BootInfo) (s : State) : State := bootAborted (bootIdentity b (recFw 1 s.cause s))

theorem bootStart_only (b : BootInfo) (s : State) : ∃ e o n, bootStart b s = { s with
    err := e
    nv := { s.nv with
      bootCount := if b.countersOk then s.nv.bootCount + 1 else s.nv.bootCount, aborted := none, odometer := o, odoPos := n }
    fw := { s.fw with identity := b.pufOk && b.countersOk } } := by
  obtain ⟨e, o, n, hrec⟩ := recFw_only 1 s.cause s
  obtain ⟨e', o', n', hid⟩ := bootIdentity_only b (recFw 1 s.cause s)
  obtain ⟨e'', o'', n'', habort⟩ := bootAborted_only (bootIdentity b (recFw 1 s.cause s))
  exact ⟨e'', o'', n'', by rw [bootStart, habort, hid, hrec]⟩

theorem slotValid_bootStart (b : BootInfo) (s : State) (slot : Bool) : slotValid (bootStart b s) slot = slotValid s slot := by
  obtain ⟨e, o, n, h⟩ := bootStart_only b s
  rw [h]
  exact slotValid_congr rfl rfl rfl rfl slot

theorem bootSlot_of_valid {s : State} (htrial : s.nv.trial = false) (hvalid : slotValid s s.nv.activeSlot = true) :
    bootSlot s = (true, s) := by
  simp only [bootSlot, htrial, Bool.not_false, if_true, hvalid]

theorem bootSlot_of_invalid {s : State} (htrial : s.nv.trial = false) (hactive : slotValid s s.nv.activeSlot = false)
    (hother : slotValid s (!s.nv.activeSlot) = false) :
    ∃ e o n, bootSlot s = (false, { s with err := e, nv := { s.nv with odometer := o, odoPos := n } }) := by
  obtain ⟨e, o, n, h⟩ := recFw_only 5 (slotArg s.nv.activeSlot) s
  obtain ⟨v, hv⟩ : ∃ v : State, v = recFw 5 (slotArg s.nv.activeSlot) s := ⟨_, rfl⟩
  have hstill : slotValid v (!v.nv.activeSlot) = false := by
    rw [hv, h]
    exact (slotValid_congr (s := s) rfl rfl rfl rfl _).trans hother
  refine ⟨e, o, n, ?_⟩
  rw [← h, ← hv]
  simp only [bootSlot, htrial, Bool.not_false, if_true, hactive, Bool.false_eq_true, if_false, ← hv, hstill]

/-- Slot control moves the active slot, the trial and the activation's state (R358). -/
theorem bootSlot_only (s : State) : ∃ n e a, (bootSlot s).2 = { s with nv := n, err := e, fw := { s.fw with act := a } } := by
  have htrial : ∃ n e a, (if !s.nv.trial then s
      else if 3 ≤ s.nv.trialBoots.toNat then
        recFw 5 (slotArg s.nv.activeSlot) { s with
          nv.activeSlot := !s.nv.activeSlot
          nv.trial := false
          nv.trialBoots := 0
          fw.act := { Act.none with st := 4, slot := !s.nv.activeSlot, prior := s.nv.activeSlot } }
      else { s with
        nv.trialBoots := s.nv.trialBoots + 1
        fw.act := { Act.none with st := 3, slot := s.nv.activeSlot, prior := !s.nv.activeSlot } }) =
      { s with nv := n, err := e, fw := { s.fw with act := a } } := by
    split
    · exact ⟨_, _, _, rfl⟩
    · split
      · obtain ⟨e, o, n, h⟩ := recFw_only 5 (slotArg s.nv.activeSlot) { s with
          nv.activeSlot := !s.nv.activeSlot
          nv.trial := false
          nv.trialBoots := 0
          fw.act := { Act.none with st := 4, slot := !s.nv.activeSlot, prior := s.nv.activeSlot } }
        exact ⟨_, _, _, h⟩
      · exact ⟨_, _, _, rfl⟩
  obtain ⟨n, e, a, htrial⟩ := htrial
  simp only [bootSlot, htrial]
  split
  · exact ⟨_, _, _, rfl⟩
  · obtain ⟨e', o', n', h⟩ := recFw_only 5 (slotArg n.activeSlot) { s with nv := n, err := e, fw := { s.fw with act := a } }
    simp only [h]
    split <;> exact ⟨_, _, _, rfl⟩

theorem bootConfig_only (s : State) : ∃ p e o n, bootConfig s =
    { s with power := { s.power with policy := p }, err := e, nv := { s.nv with odometer := o, odoPos := n } } := by
  unfold bootConfig
  split
  · exact ⟨_, _, _, _, rfl⟩
  · obtain ⟨e, o, n, h⟩ := recFw_only 7 2 { s with power.policy := Policy.default }
    exact ⟨_, e, o, n, h⟩

/-- Firmware starts with its parts measured and the policy that verifies. -/
theorem startFirmware_only {b : BootInfo} (hunits : b.failedUnits = []) (ms : Option (List Measure)) (s : State) :
    ∃ f p e o n, startFirmware ms b s = { s with
      phase := .running, power := p, err := e, nv := { s.nv with odometer := o, odoPos := n }, fw := f } ∧
      f.identity = s.fw.identity ∧ f.standby = b.standbyReady := by
  obtain ⟨v, hv⟩ : ∃ v : State, v = startParts ms (bootParts s) s := ⟨_, rfl⟩
  obtain ⟨l, base, k, es, hparts⟩ := measuresOnly_startParts ms (bootParts s) s
  obtain ⟨p, e, o, n, hconfig⟩ := bootConfig_only v
  have hstart : startFirmware ms b s =
      { bootConfig v with phase := .running, fw := { (bootConfig v).fw with standby := b.standbyReady } } := by
    rw [startFirmware, hunits, hv]
    rfl
  refine ⟨{ s.fw with logL := l, logBase := base, total := k, entries := es, standby := b.standbyReady },
    { s.power with policy := p }, e, o, n, ?_, rfl, rfl⟩
  rw [hstart, hconfig, hv, hparts]

theorem awaitRecovery_eq {b : BootInfo} (hunits : b.failedUnits = []) (s : State) :
    awaitRecovery b s = { s with phase := .recoveryRom } := by
  rw [awaitRecovery, hunits]
  rfl

theorem exec_boot {s : State} (hphase : s.phase = .released) (b : BootInfo) : exec (.boot b) s = .next (bootUp b s) :=
  congrArg Host.Outcome.next (if_pos hphase)

theorem sampled_bootStart (b : BootInfo) (s : State) : (bootStart b s).side.sampled = s.side.sampled := by
  obtain ⟨e, o, n, h⟩ := bootStart_only b s
  rw [h]

theorem bootUp_of_strap {b : BootInfo} {s : State} (hunits : b.failedUnits = []) (hstrap : s.side.sampled.recoveryN = false) :
    bootUp b s = { bootStart b s with phase := .recoveryRom } := by
  have hstart : (bootStart b s).side.sampled.recoveryN = false := by rw [sampled_bootStart, hstrap]
  rw [← awaitRecovery_eq hunits (bootStart b s)]
  exact if_pos (c := (!(bootStart b s).side.sampled.recoveryN) = true) (by simp [hstart])

theorem bootUp_of_slots {b : BootInfo} {s : State} (hstrap : s.side.sampled.recoveryN = true) :
    bootUp b s = match bootSlot (bootStart b s) with
      | (true, s) => startFirmware (imageOf s (fwSlot s s.nv.activeSlot)) b s
      | (false, s) => awaitRecovery b { s with power.st := .kickstand, power.kick := 4 } := by
  have hstart : (bootStart b s).side.sampled.recoveryN = true := by rw [sampled_bootStart, hstrap]
  exact if_neg (c := (!(bootStart b s).side.sampled.recoveryN) = true) (by simp [hstart])

/-- With a valid active slot that is not in trial, firmware runs. -/
theorem bootUp_of_valid {b : BootInfo} {s : State} (hunits : b.failedUnits = []) (hstrap : s.side.sampled.recoveryN = true)
    (htrial : s.nv.trial = false) (hvalid : slotValid s s.nv.activeSlot = true) : ∃ f p e o n, bootUp b s = { s with
      phase := .running, power := p, err := e, fw := f
      nv := { s.nv with
        bootCount := if b.countersOk then s.nv.bootCount + 1 else s.nv.bootCount, aborted := none, odometer := o, odoPos := n } } ∧
      f.identity = (b.pufOk && b.countersOk) ∧ f.standby = b.standbyReady := by
  have hslot := slotValid_bootStart b s s.nv.activeSlot
  obtain ⟨e, o, n, hstart⟩ := bootStart_only b s
  have hboot : bootSlot (bootStart b s) = (true, bootStart b s) := by
    rw [hstart] at hslot ⊢
    exact bootSlot_of_valid htrial (hslot.trans hvalid)
  obtain ⟨f, p, e', o', n', hrun, hid, hstandby⟩ := startFirmware_only hunits
    (imageOf (bootStart b s) (fwSlot (bootStart b s) (bootStart b s).nv.activeSlot)) (bootStart b s)
  refine ⟨f, p, e', o', n', ?_, by rw [hid, hstart], hstandby⟩
  rw [bootUp_of_slots hstrap, hboot]
  exact hrun.trans (by rw [hstart])

theorem bootsComplete (b : BootInfo) (s : State) (hphase : s.phase = .released) (hunits : b.failedUnits = [])
    (hcounters : b.countersOk = true) :
    (s.side.sampled.recoveryN = true → s.nv.trial = false → slotValid s s.nv.activeSlot = true → ∃ t,
      exec (.boot b) s = .next t ∧ t.phase = .running ∧ t.nv.bootCount = s.nv.bootCount + 1 ∧
      t.nv.activeSlot = s.nv.activeSlot ∧ t.store = s.store ∧ t.fw.standby = b.standbyReady ∧ t.fw.identity = b.pufOk) ∧
    (s.side.sampled.recoveryN = false → ∃ t, exec (.boot b) s = .next t ∧ t.phase = .recoveryRom ∧
      t.nv.bootCount = s.nv.bootCount + 1 ∧ t.power = s.power) ∧
    (s.side.sampled.recoveryN = true → s.nv.trial = false → slotValid s false = false → slotValid s true = false → ∃ t,
      exec (.boot b) s = .next t ∧ t.phase = .recoveryRom ∧ t.power.st = .kickstand ∧ t.power.kick = 4) := by
  rw [exec_boot hphase]
  refine ⟨fun hstrap htrial hvalid => ?runs, fun hstrap => ?strap, fun hstrap htrial hfalse htrue => ?invalid⟩
  case runs =>
    obtain ⟨f, p, e, o, n, hboot, hid, hstandby⟩ := bootUp_of_valid hunits hstrap htrial hvalid
    refine ⟨_, rfl, ?_⟩
    rw [hboot]
    exact ⟨rfl, if_pos hcounters, rfl, rfl, hstandby, by rw [hid, hcounters, Bool.and_true]⟩
  case strap =>
    obtain ⟨e, o, n, hstart⟩ := bootStart_only b s
    refine ⟨_, rfl, ?_⟩
    rw [bootUp_of_strap hunits hstrap, hstart]
    exact ⟨rfl, if_pos hcounters, rfl⟩
  case invalid =>
    have hnone (slot : Bool) : slotValid (bootStart b s) slot = false := by
      rw [slotValid_bootStart]
      cases slot <;> assumption
    have htrial' : (bootStart b s).nv.trial = false := by
      obtain ⟨e, o, n, hstart⟩ := bootStart_only b s
      rw [hstart, htrial]
    obtain ⟨e, o, n, hslot⟩ := bootSlot_of_invalid htrial' (hnone _) (hnone _)
    refine ⟨_, rfl, ?_⟩
    rw [bootUp_of_slots hstrap, hslot]
    simp only [awaitRecovery_eq hunits, and_self]

/-! ### Attestation and recovery (R364, R409, R410) -/

theorem sliceB_after {as : List Byte} {k : Nat} (h : as.length = k) (bs : List Byte) (off n : Nat) :
    sliceB (as ++ bs) (k + off) n = sliceB bs off n := by
  rw [sliceB, sliceB, ← h, List.drop_length_add_append]

theorem sliceB_append_of_length {as : List Byte} {n : Nat} (h : as.length = n) (bs : List Byte) :
    sliceB (as ++ bs) 0 n = as := by
  simp [sliceB, ← h]

/-- The fields at the front of a report (R364). -/
theorem fields_attestReport (s : State) (nonce : List Byte) :
    fieldB (attestReport s nonce) 0 4 = 0x0A77F064 ∧ fieldB (attestReport s nonce) 4 1 = s.fw.entries.length % 256 ∧
      fieldB (attestReport s nonce) 8 8 = s.env.fp.toNat ∧ sliceB (attestReport s nonce) 16 32 = sliceB nonce 0 32 ∧
      fieldB (attestReport s nonce) 48 4 = s.nv.bootCount.toNat ∧
      fieldB (attestReport s nonce) 52 4 = (epochNow s).toNat := by
  obtain ⟨flags, hflags⟩ : ∃ flags : List Byte, flags = [if s.nv.activeSlot then 1 else 0, 0, 0] := ⟨_, rfl⟩
  obtain ⟨rest, hreport⟩ : ∃ rest, attestReport s nonce = leBytes 4 0x0A77F064 ++ (leBytes 1 s.fw.entries.length ++ (flags ++
      (leBytes 8 s.env.fp.toNat ++ (sliceB nonce 0 32 ++
        (leBytes 4 s.nv.bootCount.toNat ++ (leBytes 4 (epochNow s).toNat ++ rest)))))) :=
    ⟨_, by rw [hflags]; simp only [attestReport, wordBytes, List.append_assoc, leBytes]; rfl⟩
  have hmagic : (leBytes 4 0x0A77F064).length = 4 := length_leBytes _ _
  have hcount : (leBytes 1 s.fw.entries.length).length = 1 := length_leBytes _ _
  have hthree : flags.length = 3 := by rw [hflags]; rfl
  have hfp : (leBytes 8 s.env.fp.toNat).length = 8 := length_leBytes _ _
  have hnonce : (sliceB nonce 0 32).length = 32 := by simp [sliceB]
  have hboot : (leBytes 4 s.nv.bootCount.toNat).length = 4 := length_leBytes _ _
  rw [hreport]
  refine ⟨fieldB_leBytes_append 4 _ _, ?_, ?_, ?_, ?_, ?_⟩
  · exact (fieldB_after hmagic _ 0 1).trans (fieldB_leBytes_append 1 _ _)
  · exact (fieldB_after hmagic _ 4 8).trans ((fieldB_after hcount _ 3 8).trans ((fieldB_after hthree _ 0 8).trans
      ((fieldB_leBytes_append 8 _ _).trans (Nat.mod_eq_of_lt s.env.fp.isLt))))
  · refine (sliceB_after hmagic _ 12 32).trans ((sliceB_after hcount _ 11 32).trans ((sliceB_after hthree _ 8 32).trans
      ((sliceB_after hfp _ 0 32).trans ?_)))
    exact sliceB_append_of_length hnonce _
  · exact (fieldB_after hmagic _ 44 4).trans ((fieldB_after hcount _ 43 4).trans ((fieldB_after hthree _ 40 4).trans
      ((fieldB_after hfp _ 32 4).trans ((fieldB_after hnonce _ 0 4).trans
        ((fieldB_leBytes_append 4 _ _).trans (Nat.mod_eq_of_lt s.nv.bootCount.isLt))))))
  · exact (fieldB_after hmagic _ 48 4).trans ((fieldB_after hcount _ 47 4).trans ((fieldB_after hthree _ 44 4).trans
      ((fieldB_after hfp _ 36 4).trans ((fieldB_after hnonce _ 4 4).trans ((fieldB_after hboot _ 0 4).trans
        ((fieldB_leBytes_append 4 _ _).trans (Nat.mod_eq_of_lt (epochNow s).isLt)))))))

theorem attest_answers {c : Cmd} {s u : State} (hrun : runsIn 0x502 c s = some u) (hid : u.fw.identity = true) :
    exec (.attest c) s = .next (replied 0x502 c .ok 0 (attestReport u (paramBytes c.params)) u) :=
  congrArg Host.Outcome.next (runPacket_data hrun (withIdentity_of_known hid _))

/-- A piece of the recovery image that follows the last one is taken. -/
theorem recoveryPiece_of_fits {s : State} {offset length : BitVec 32} {last : BitVec 8} {data : List Byte}
    (hphase : s.phase = .recoveryRom) (halign : offset.toNat % 4096 = 0) (hone : 1 ≤ length.toNat) (hmax : length.toNat ≤ 4096)
    (hlen : data.length = length.toNat) (hnext : offset.toNat = s.fw.recBytes.length) (hlast : last.toNat ≤ 1) :
    recoveryPiece offset.toNat length.toNat last 0 data s =
      (if last = 0 then (.ok, { s with fw.recBytes := s.fw.recBytes ++ data })
      else match imageOf s { factory := false, cells := cellsOf 0 (s.fw.recBytes ++ data) } with
        | none => (.auth, { s with fw.recBytes := [] })
        | some ms =>
          let (code, s') := takeFree s
          let s' := writeRec { Rec.blank 0x0012 with arg0 := code } (startParts (some ms) (bootParts s') s')
          let s' := if s'.power.st = .kickstand && s'.power.kick = 4 then leaveKick s' else s'
          (.ok, { s' with phase := .recoveryImage, fw.recBytes := s.fw.recBytes ++ data })) := by
  have hform : ¬ (offset.toNat % 4096 ≠ 0 || length.toNat = 0 || 4096 < length.toNat || 1 < last.toNat || (0 : BitVec 56) ≠ 0 ||
      data.length ≠ length.toNat) = true := by
    rw [decide_eq_false (not_not.mpr (rfl : (0 : BitVec 56) = 0))]
    simp only [Bool.or_eq_true, decide_eq_true_eq, Bool.false_eq_true, or_false]
    omega
  rw [recoveryPiece, if_neg (not_not.mpr hphase), if_neg hform, if_neg (not_not.mpr hnext)] <;> rfl

theorem exec_recoveryPiece {s : State} (hphase : s.phase = .recoveryRom) (offset length : BitVec 32) (last : BitVec 8)
    (data : List Byte) : exec (.recoveryPiece offset length last 0 data) s =
      .next (emit (.sideband 0x82 (recoveryPiece offset.toNat length.toNat last 0 data s).1 [])
        (recoveryPiece offset.toNat length.toNat last 0 data s).2) :=
  congrArg Host.Outcome.next (if_neg (by simp [hphase]))

/-- The image that runs from the recovery bytes changes no store (R354, R409). -/
theorem startsRecovery_only (ms : List Measure) (bs : List Byte) (s : State) : ∃ t : State,
    (let (code, s') := takeFree s
     let s' := writeRec { Rec.blank 0x0012 with arg0 := code } (startParts (some ms) (bootParts s') s')
     let s' := if s'.power.st = .kickstand && s'.power.kick = 4 then leaveKick s' else s'
     ((.ok : Status), { s' with phase := .recoveryImage, fw.recBytes := bs })) = (.ok, t) ∧
      t.phase = .recoveryImage ∧ t.out = s.out ∧ t.store = s.store := by
  obtain ⟨v, hv⟩ : ∃ v : State, v = startParts (some ms) (bootParts (takeFree s).2) (takeFree s).2 := ⟨_, rfl⟩
  obtain ⟨l, b, n, es, hparts⟩ := measuresOnly_startParts (some ms) (bootParts (takeFree s).2) (takeFree s).2
  obtain ⟨w, hw⟩ : ∃ w : State, w = writeRec { Rec.blank 0x0012 with arg0 := (takeFree s).1 } v := ⟨_, rfl⟩
  obtain ⟨e, o, m, honly⟩ := writeRec_only { Rec.blank 0x0012 with arg0 := (takeFree s).1 } v
  have hkept : w.out = s.out ∧ w.store = s.store := by
    rw [hw, honly, hv, hparts]
    exact ⟨rfl, rfl⟩
  simp only [← hv, ← hw]
  refine ⟨_, rfl, rfl, ?_⟩
  split <;> exact hkept

theorem recoveryPiecesComplete (s : State) (offset length : BitVec 32) (data : List Byte) (hphase : s.phase = .recoveryRom)
    (halign : offset.toNat % 4096 = 0) (hone : 1 ≤ length.toNat) (hmax : length.toNat ≤ 4096)
    (hlen : data.length = length.toNat) (hnext : offset.toNat = s.fw.recBytes.length) :
    exec (.recoveryPiece offset length 0 0 data) s = .next { s with
      fw := { s.fw with recBytes := s.fw.recBytes ++ data }, out := s.out ++ [.sideband 0x82 .ok []] } ∧
    (imageOf s { factory := false, cells := cellsOf 0 (s.fw.recBytes ++ data) } = none →
      exec (.recoveryPiece offset length 1 0 data) s = .next { s with
        fw := { s.fw with recBytes := [] }, out := s.out ++ [.sideband 0x82 .auth []] }) ∧
    ∀ ms, imageOf s { factory := false, cells := cellsOf 0 (s.fw.recBytes ++ data) } = some ms → ∃ t,
      exec (.recoveryPiece offset length 1 0 data) s = .next t ∧ t.phase = .recoveryImage ∧
      t.out = s.out ++ [.sideband 0x82 .ok []] ∧ t.store = s.store := by
  have hpiece (last : BitVec 8) (hlast : last.toNat ≤ 1) := recoveryPiece_of_fits hphase halign hone hmax hlen hnext hlast
  refine ⟨?_, fun hnone => ?_, fun ms hsome => ?_⟩
  · rw [exec_recoveryPiece hphase, hpiece 0 (by decide), if_pos rfl]
    rfl
  · rw [exec_recoveryPiece hphase, hpiece 1 (by decide), if_neg (by decide), hnone]
    rfl
  · obtain ⟨t, hstart, hrun, hout, hstore⟩ := startsRecovery_only ms (s.fw.recBytes ++ data) s
    refine ⟨emit (.sideband 0x82 .ok []) t, ?_, hrun, congrArg (· ++ [_]) hout, hstore⟩
    rw [exec_recoveryPiece hphase, hpiece 1 (by decide), if_neg (by decide), hsome]
    exact congrArg (fun p : Status × State => Host.Outcome.next (emit (.sideband 0x82 p.1 []) p.2)) hstart

theorem bootAndAttest : BootAndAttest :=
  ⟨fun _ _ u hrun hid => ⟨_, attest_answers hrun hid, fields_attestReport u _⟩, bootsComplete, recoveryPiecesComplete⟩

/-- Settles O57: staging and activation answer by the state of the slots, each step of an activation changes firmware's own
state, and a boot runs a slot that is valid. -/
theorem firmwareComplete : Obligations.FirmwareComplete := ⟨stageAndActivate, activationSteps, bootAndAttest⟩

/-! ### A module without an identity (R365) -/

theorem bodyCompose_of_unknown {c : Cmd} {u : State} (h : u.fw.identity = false) : bodyCompose c u = Eff.stat .auth u :=
  withIdentity_of_unknown h _

theorem compose_of_unknown {c : Cmd} {s u : State} (hid : u.fw.identity = false) (hrun : runsIn 0x018 c s = some u)
    (hfirst : c.h.chunk = 0) (hlast : c.h.more = false) (hfresh : findAssembly u c = none) (hidle : u.compose = .idle)
    (hmounted : notMounted u = false)
    (halone : u.port.assemblies.any (fun a => a.op = .compose && a.tag ≠ c.h.tag) = false) :
    exec (.compose c) s = .next (replied 0x018 c .auth 0 [] u) := by
  refine congrArg Host.Outcome.next (runPacket_stat hrun ?_)
  rw [bodyComposeChunk_of_idle hidle hmounted halone, bodyChunked_whole hfresh hfirst hlast, bodyCompose_of_unknown hid]

theorem commands_of_unknown {c : Cmd} {s u : State} (hid : u.fw.identity = false) :
    ∀ row ∈ [((0x502, .attest) : Nat × (Cmd → Instr)), (0x680, .tandemPair), (0x682, .expel), (0x683, .admit_),
      (0x684, .managerKeys), (0x601, .inject), (0x700, .tripRead)],
      runsIn row.1 c s = some u → exec (row.2 c) s = .next (replied row.1 c .auth 0 [] u) := by
  intro row hrow hrun
  simp only [List.mem_cons, List.not_mem_nil, or_false] at hrow
  rcases hrow with rfl | rfl | rfl | rfl | rfl | rfl | rfl <;>
    exact congrArg Host.Outcome.next (runPacket_stat hrun (withIdentity_of_unknown hid _))

/-- Bit 7 of the register is the identity flag. -/
theorem bit_bootStatus (u : State) : bit (regValue u .bootStatus) 7 = u.fw.identity := by
  refine (bit_packReg rfl 7).trans ?_
  rw [testBit_packBelow_below rfl (by simp only; omega), testBit_packBelow_below rfl (by simp only; omega),
    testBit_packBelow_below rfl (by simp only; omega)]
  refine (testBit_packBelow_field rfl 0).trans ?_
  show (min u.fw.identity.toNat (2 ^ 5 - 1)).testBit 0 = u.fw.identity
  cases u.fw.identity <;> rfl

theorem identity_of_boot {b : BootInfo} {s : State} (hunits : b.failedUnits = []) :
    (bootUp b s).fw.identity = (b.pufOk && b.countersOk) ∧
      ((bootUp b s).phase = .running ∨ (bootUp b s).phase = .recoveryRom) := by
  have hknown : (bootStart b s).fw.identity = (b.pufOk && b.countersOk) := by
    obtain ⟨e, o, n, hstart⟩ := bootStart_only b s
    rw [hstart]
  cases hstrap : s.side.sampled.recoveryN with
  | false =>
    rw [bootUp_of_strap hunits hstrap]
    exact ⟨hknown, .inr rfl⟩
  | true =>
    rw [bootUp_of_slots hstrap]
    obtain ⟨n, e, a, hslot⟩ := bootSlot_only (bootStart b s)
    split
    next v hv =>
      obtain rfl : v = _ := (congrArg Prod.snd hv).symm.trans hslot
      obtain ⟨f, p, e', o', n', hrun, hid, -⟩ := startFirmware_only hunits (imageOf _ (fwSlot _ _)) _
      rw [hrun]
      exact ⟨hid.trans hknown, .inl rfl⟩
    next v hv =>
      obtain rfl : v = _ := (congrArg Prod.snd hv).symm.trans hslot
      rw [awaitRecovery_eq hunits]
      exact ⟨hknown, .inr rfl⟩

/-- Settles O56: the chapter of each of the eight commands asks for the identity first, and a boot keeps what its first step
found. -/
theorem noIdentityReturnsAuth : Obligations.NoIdentityReturnsAuth := by
  refine ⟨fun c s u hid => ⟨commands_of_unknown hid, compose_of_unknown hid⟩, fun u hid => (bit_bootStatus u).trans hid,
    fun b s t hphase hfails hunits hexec => ?_⟩
  obtain rfl : bootUp b s = t := Host.Outcome.next.inj ((exec_boot hphase b).symm.trans hexec)
  obtain ⟨hid, hrun⟩ := identity_of_boot (b := b) (s := s) hunits
  refine ⟨?_, hrun, fun hstrap htrial _ hvalid => ?_⟩
  · rcases hfails with h | h <;> simp [hid, h]
  · obtain ⟨f, p, e, o, n, hboot, -, -⟩ := bootUp_of_valid hunits hstrap htrial hvalid
    rw [hboot]

end Sys2Proof.Proofs

/-! Fabric ports and the CXL logical devices behind them. -/

namespace Sys2Proof.Proofs

open Sys2Proof.Machine Sys2Proof.Claims Sys2Proof.Laws

-- Checked one after another, which keeps the memory of the check small.
set_option Elab.async false

/-! ### One port of the list -/

theorem getD_updAt_self {α : Type} {l : List α} {i : Nat} (h : i < l.length) (f : α → α) (d : α) :
    (updAt l i f).getD i d = f (l.getD i d) := by
  simp [updAt, h]

theorem getD_updAt_ne {α : Type} (l : List α) {i j : Nat} (h : j ≠ i) (f : α → α) (d : α) :
    (updAt l i f).getD j d = l.getD j d := by
  simp only [updAt, List.getD_eq_getElem?_getD, List.getElem?_mapIdx]
  cases l[j]? <;> simp [h]

/-- A change of one port by a function that agrees at that port. -/
theorem updAt_congr_at {α : Type} {l : List α} {i : Nat} {d : α} {f g : α → α} (h : f (l.getD i d) = g (l.getD i d)) :
    updAt l i f = updAt l i g := by
  refine List.ext_getElem (by simp [updAt]) fun j hj hj' => ?_
  simp only [updAt, List.getElem_mapIdx]
  split
  next hji =>
    obtain rfl : j = i := by simpa using hji
    have hlt : j < l.length := by simpa [updAt] using hj
    simpa [hlt] using h
  next => rfl

theorem updPort_congr_at {s : State} {p : Nat} {f g : FPort → FPort} (h : f (portAt s p) = g (portAt s p)) :
    updPort p f s = updPort p g s := by
  unfold updPort
  rw [updAt_congr_at h]

theorem portAt_updPort_self {s : State} {p : Nat} (h : p < s.fab.ports.length) (f : FPort → FPort) :
    portAt (updPort p f s) p = f (portAt s p) := getD_updAt_self h f _

theorem portAt_updPort_ne (s : State) {p q : Nat} (h : q ≠ p) (f : FPort → FPort) :
    portAt (updPort p f s) q = portAt s q := getD_updAt_ne _ h f _

/-! ### What the loss and the return of a port send (R257, R262) -/

/-- Nothing is on its way through the fabric ports. -/
structure NothingSent (s : State) : Prop where
  tx      : s.fab.tx = []
  loads   : s.fab.loads = []
  gblocks : s.fab.gblocks = []

theorem resendFrom_of_nothing {s : State} (h : NothingSent s) (gone : Option (Fin 24) → Bool) : resendFrom gone s = s := by
  simp [resendFrom, h.tx, h.loads, h.gblocks]

theorem resendSnoops_of_nothing {s : State} (h : s.coh.trks = []) (old : State) (p : Nat) : resendSnoops old p s = s := by
  simp [resendSnoops, h]

theorem recPort_only (p : Nat) (s : State) : ∃ e o n,
    recPort p s = { s with err := e, nv := { s.nv with odometer := o, odoPos := n } } := detect_only _ s

theorem recPort_fences (p : Nat) (s : State) : (recPort p s).err.fences = s.err.fences := detect_fences _ s

theorem portGone_of_down {s : State} {p : Nat} (hdown : (portAt s p).up = false) (f : FPort → FPort) :
    portGone p f s = updPort p (fun x => { f x with up := false }) s := by
  simp [portGone, hdown]

/-- A port that leaves the up state with nothing on its way is recorded and told. -/
theorem portGone_of_up {s : State} {p : Nat} (hup : (portAt s p).up = true) (hsent : NothingSent s) (htrks : s.coh.trks = [])
    (f : FPort → FPort) : portGone p f s =
      emit (.portUp (Fin.ofNat 24 p) false) (recPort p (updPort p (fun x => { f x with up := false }) s)) := by
  obtain ⟨v, hv⟩ : ∃ v : State, v =
      emit (.portUp (Fin.ofNat 24 p) false) (recPort p (updPort p (fun x => { f x with up := false }) s)) := ⟨_, rfl⟩
  obtain ⟨e, o, n, hrec⟩ := recPort_only p (updPort p (fun x => { f x with up := false }) s)
  have hsent' : NothingSent v := by rw [hv, hrec]; exact ⟨hsent.tx, hsent.loads, hsent.gblocks⟩
  have htrks' : v.coh.trks = [] := by rw [hv, hrec]; exact htrks
  simp only [portGone, hup, Bool.not_true, Bool.false_eq_true, if_false, ← hv]
  rw [resendFrom_of_nothing hsent', resendSnoops_of_nothing htrks']

/-- Whether it was up or not, a port that goes changes as told, with `up` cleared, and no other port does. -/
theorem portGone_ports {s : State} {p : Nat} (hsent : NothingSent s) (htrks : s.coh.trks = []) (f : FPort → FPort) :
    (portGone p f s).fab.ports = updAt s.fab.ports p (fun x => { f x with up := false }) ∧
      ((portAt s p).up = true → (portGone p f s).out = s.out ++ [.portUp (Fin.ofNat 24 p) false]) := by
  cases hup : (portAt s p).up with
  | false =>
    rw [portGone_of_down hup]
    exact ⟨rfl, fun h => absurd h (by simp)⟩
  | true =>
    obtain ⟨e, o, n, hrec⟩ := recPort_only p (updPort p (fun x => { f x with up := false }) s)
    rw [portGone_of_up hup hsent htrks, hrec]
    exact ⟨rfl, fun _ => rfl⟩

theorem startRetrain_of_free {s : State} {p : Nat} (hfree : unitFenced s (unitPort p) = false) : startRetrain p s =
    portGone p (fun x => { x with retraining := true, retrains := bumpSat x.retrains 1, replayRun := 0 }) s := by
  simp [startRetrain, hfree]

theorem startRetrain_retrains {s : State} {p : Fin 24} (hports : s.fab.ports.length = 24)
    (hfree : unitFenced s (unitPort p.val) = false) (hsent : NothingSent s) (htrks : s.coh.trks = []) :
    (portAt (startRetrain p.val s) p.val).up = false ∧ (portAt (startRetrain p.val s) p.val).retraining = true ∧
      (portAt (startRetrain p.val s) p.val).retrains = bumpSat (portAt s p.val).retrains 1 ∧
      ((portAt s p.val).up = true → (startRetrain p.val s).out = s.out ++ [.portUp p false]) ∧
      ∀ q : Fin 24, q ≠ p → portAt (startRetrain p.val s) q.val = portAt s q.val := by
  obtain ⟨hgone, hout⟩ := portGone_ports hsent htrks (p := p.val)
    (fun x => { x with retraining := true, retrains := bumpSat x.retrains 1, replayRun := 0 })
  have hlt : p.val < s.fab.ports.length := by rw [hports]; exact p.isLt
  rw [startRetrain_of_free hfree]
  simp only [portAt, hgone, getD_updAt_self hlt, true_and]
  refine ⟨fun h => ?_, fun q hq => getD_updAt_ne _ (fun h => hq (Fin.ext h)) _ _⟩
  rw [hout h, Fin.ofNat_val_eq_self]

/-- Training ends with nothing waiting to go out: the port is up, recorded and told (R257). -/
theorem portComesUp_of_down {s : State} {p : Nat} (hdown : (portAt s p).up = false)
    (hfree : unitFenced s (unitPort p) = false) (hsent : NothingSent s) : portComesUp p s =
      emit (.portUp (Fin.ofNat 24 p) true) (recPort p (updPort p (fun x =>
        { x with up := true, down := false, retraining := false, replayRun := 0 }) s)) := by
  obtain ⟨v, hv⟩ : ∃ v : State, v = emit (.portUp (Fin.ofNat 24 p) true) (recPort p (updPort p (fun x =>
        { x with up := true, down := false, retraining := false, replayRun := 0 }) s)) := ⟨_, rfl⟩
  obtain ⟨e, o, n, hrec⟩ := recPort_only p (updPort p (fun x =>
        { x with up := true, down := false, retraining := false, replayRun := 0 }) s)
  have hsent' : NothingSent v := by rw [hv, hrec]; exact ⟨hsent.tx, hsent.loads, hsent.gblocks⟩
  rw [portComesUp, if_neg (by simp [hdown, hfree])]
  simp only [← hv]
  rw [resendFrom_of_nothing hsent']

theorem portTrained_raises {s : State} {p : Fin 24} (hports : s.fab.ports.length = 24) (hdown : (portAt s p.val).up = false)
    (hfree : unitFenced s (unitPort p.val) = false) (hsent : NothingSent s) :
    portUp (portComesUp p.val s) p.val = true ∧ (portComesUp p.val s).out = s.out ++ [.portUp p true] ∧
      (portComesUp p.val s).store = s.store ∧
      ∀ q : Fin 24, q ≠ p → portAt (portComesUp p.val s) q.val = portAt s q.val := by
  obtain ⟨v, hv⟩ : ∃ v : State, v = updPort p.val (fun x =>
    { x with up := true, down := false, retraining := false, replayRun := 0 }) s := ⟨_, rfl⟩
  have hlt : p.val < s.fab.ports.length := by rw [hports]; exact p.isLt
  obtain ⟨e, o, n, hrec⟩ := recPort_only p.val v
  have hself : portAt v p.val = { portAt s p.val with up := true, down := false, retraining := false, replayRun := 0 } := by
    rw [hv, portAt_updPort_self hlt]
  have hfences : (recPort p.val v).err.fences = s.err.fences := by rw [recPort_fences, hv]; rfl
  rw [portComesUp_of_down hdown hfree hsent, ← hv]
  refine ⟨?_, ?_, ?_, fun q hq => ?_⟩
  · have hport : portAt (recPort p.val v) p.val = portAt v p.val := by rw [hrec]; rfl
    have hlive : unitFenced (recPort p.val v) (unitPort p.val) = false := by rw [unitFenced, hfences]; exact hfree
    show ((portAt (recPort p.val v) p.val).up && !unitFenced (recPort p.val v) (unitPort p.val)) = true
    rw [hport, hself, hlive]
    rfl
  · rw [hrec, hv, Fin.ofNat_val_eq_self]
    rfl
  · rw [hrec, hv]
    rfl
  · rw [hrec]
    show portAt v q.val = _
    rw [hv, portAt_updPort_ne s (fun h => hq (Fin.ext h))]

theorem onPort_of_used {s : State} {p : Fin 24} (hup : s.phase = .running) (hmode : (portAt s p.val).mode ≠ 0)
    (f : State → State) : onPort p s f = f s :=
  (whenUp_of_running hup _).trans (if_neg hmode)

theorem flitError_eq {s : State} {p : Fin 24} (hup : s.phase = .running) (hmode : (portAt s p.val).mode ≠ 0)
    (hlive : (portAt s p.val).up = true) (again : Bool) : exec (.flitError { port := p, again := again }) s =
      .next (if 8 ≤ (if again then (portAt s p.val).replayRun + 1 else 0) then startRetrain p.val s
        else replayFlit p.val (if again then (portAt s p.val).replayRun + 1 else 0) s) := by
  refine congrArg Host.Outcome.next ((onPort_of_used hup hmode _).trans ?_)
  simp [hlive]

theorem portRetrainLimit_stops {s : State} {p : Fin 24} (hports : s.fab.ports.length = 24) (hup : s.phase = .running)
    (hmode : (portAt s p.val).mode ≠ 0) (hdown : (portAt s p.val).up = false) (hleft : (portAt s p.val).down = false)
    (hretrain : (portAt s p.val).retraining = true) : ∃ t, exec (.portRetrainLimit p) s = .next t ∧
      (portAt t p.val).down = true ∧ (portAt t p.val).retraining = false ∧ (portAt t p.val).up = false ∧
      t = { s with fab := t.fab, err := t.err, nv := t.nv } := by
  obtain ⟨v, hv⟩ : ∃ v : State, v = updPort p.val (fun x => { x with down := true, retraining := false }) s := ⟨_, rfl⟩
  have hlt : p.val < s.fab.ports.length := by rw [hports]; exact p.isLt
  have hself : portAt v p.val = { portAt s p.val with down := true, retraining := false } := by
    rw [hv, portAt_updPort_self hlt]
  obtain ⟨e, o, n, hrec⟩ := recPort_only p.val v
  have hexec : exec (.portRetrainLimit p) s = .next (recPort p.val v) := by
    refine congrArg Host.Outcome.next ((onPort_of_used hup hmode _).trans ?_)
    simp [hdown, hleft, hretrain, hv]
  have hport : portAt (recPort p.val v) p.val = portAt v p.val := by rw [hrec]; rfl
  refine ⟨_, hexec, ?_, ?_, ?_, ?_⟩
  · rw [hport, hself]
  · rw [hport, hself]
  · rw [hport, hself, hdown]
  · rw [hrec, hv]
    rfl

theorem portsComplete : PortsComplete := by
  intro s p hup hports hmode hfree
  refine ⟨fun hlive => ⟨?replayed, fun hrun => ?again, fun hrun htx hloads hblocks htrks => ?eighth⟩, fun hlive => ?trained,
    fun hdown htx hloads hblocks => ?raised, fun htx hloads hblocks htrks => ?lost, fun hdown hleft hretrain => ?limit,
    fun hdown hleft => ?retry, fun hdown hcxl => ?cxlDown⟩
  case replayed => rw [flitError_eq hup hmode hlive]; rfl
  case again =>
    rw [flitError_eq hup hmode hlive, if_pos rfl, if_neg (by omega)]
    exact congrArg Host.Outcome.next (updPort_congr_at rfl)
  case eighth =>
    obtain ⟨hdown, hretrain, hcount, -, -⟩ := startRetrain_retrains hports hfree ⟨htx, hloads, hblocks⟩ htrks
    refine ⟨_, ?_, hdown, hretrain, hcount⟩
    rw [flitError_eq hup hmode hlive, if_pos rfl, if_pos (by omega)]
  case trained =>
    refine congrArg Host.Outcome.next ((onPort_of_used hup hmode _).trans (if_pos ?_))
    simp [hlive]
  case raised =>
    exact ⟨_, congrArg Host.Outcome.next (onPort_of_used hup hmode _), portTrained_raises hports hdown hfree ⟨htx, hloads, hblocks⟩⟩
  case lost =>
    exact ⟨_, congrArg Host.Outcome.next (onPort_of_used hup hmode _),
      startRetrain_retrains hports hfree ⟨htx, hloads, hblocks⟩ htrks⟩
  case limit => exact portRetrainLimit_stops hports hup hmode hdown hleft hretrain
  case retry =>
    refine congrArg Host.Outcome.next ((onPort_of_used hup hmode _).trans (if_neg ?_))
    simp [hdown, hleft, hfree]
  case cxlDown =>
    refine congrArg Host.Outcome.next ((onPort_of_used hup hmode _).trans (if_neg ?_))
    simp [hdown, hcxl]

/-! ### CXL logical devices (R267, R269) -/

theorem length_sliceB (bs : List Byte) (off n : Nat) : (sliceB bs off n).length = n := by
  simp only [sliceB, List.length_append, List.length_replicate, List.length_take]
  omega

theorem cxlComplete : CxlComplete := by
  intro s p ld x hup hcxl hlive hroute
  have hld (f : Route → State → State) : (Host.Outcome.next (onLd p ld s f) : Out State) = .next (f x s) := by
    refine congrArg Host.Outcome.next ((whenUp_of_running hup _).trans ?_)
    simp [hcxl, hlive, hroute]
  refine ⟨hld _, hld _, fun log offset length => ⟨_, hld _, length_sliceB ..⟩, hld _, fun handles => ⟨_, hld _, rfl, fun e => ?cleared⟩,
    hld _, hld _, fun start count => hld _, hld _, hld _, hld _, hld _, hld _, hld _, hld _, hld _, fun u => ?bind,
    fun r => hld _, hld _⟩
  case cleared =>
    show e ∈ dropIf s.fab.events _ ↔ _
    simp only [dropIf, List.mem_filter, Bool.not_eq_true', Bool.and_eq_false_iff, decide_eq_false_iff_not, List.contains_eq_mem]
    tauto
  case bind => exact congrArg Host.Outcome.next ((whenUp_of_running hup _).trans (if_pos hcxl))

/-- Settles O53: with nothing on its way a port's events change that port, its record and what is told; a logical device
answers from the record. -/
theorem portsAndCxlComplete : Obligations.PortsAndCxlComplete := ⟨portsComplete, cxlComplete⟩

end Sys2Proof.Proofs

/-! What every step keeps: memory in its canonical form, logs within their room, counters that only rise. One relation between
states, closed under the operations of the model; each operation's rule says that its state evolves when its argument does. -/

namespace Sys2Proof.Proofs

open Sys2Proof.Machine Sys2Proof.Claims Sys2Proof.Laws

-- Checked one after another, which keeps the memory of the check small.
set_option Elab.async false

/-! ### The relation -/

/-- A later state: the invariant is kept, no replay-protected counter has fallen, and the boot count stands (R288, R349, R352,
R366). -/
structure Evolves (s t : State) : Prop where
  keeps_inv       : Inv s → Inv t
  svn_le          : s.nv.rollbackSvn.toNat ≤ t.nv.rollbackSvn.toNat
  configSeq_le    : s.nv.configSeq.toNat ≤ t.nv.configSeq.toNat
  setSeq_le       : s.nv.setSeq.toNat ≤ t.nv.setSeq.toNat
  lastOrder_le    : s.nv.lastOrder.toNat ≤ t.nv.lastOrder.toNat
  bootCount_eq    : t.nv.bootCount = s.nv.bootCount

/-- Bytes in canonical form whenever the first state meets the invariant. -/
def MemOk (s₀ : State) (m : List Host.Cell) : Prop := Inv s₀ → Memory.wf m = true

def StoreOk (s₀ : State) (st : Store) : Prop := MemOk s₀ st.mem

def TileOk (s₀ : State) (x : Tile) : Prop := MemOk s₀ x.pannier

def TilesOk (s₀ : State) (ts : List Tile) : Prop := ∀ x ∈ ts, TileOk s₀ x

/-- What an operation of a bundle leaves, if it is done. -/
inductive SlotOk (s₀ : State) : SlotRes → Prop where
  | done {s : State} (h : Evolves s₀ s) : SlotOk s₀ (.done s)
  | held : SlotOk s₀ .held
  | bad : SlotOk s₀ .bad

/-- What a write leaves, if it is done. -/
inductive WrOk (s₀ : State) : WrRes → Prop where
  | done {s : State} (h : Evolves s₀ s) : WrOk s₀ (.done s)
  | wait : WrOk s₀ .wait
  | fail {st : Status} : WrOk s₀ (.fail st)

/-- What a command's effect leaves. -/
def EffOk (s₀ : State) (e : Eff) : Prop := Evolves s₀ e.st

/-- What the orders of a tier command leave. -/
def OrdersOk (s₀ : State) (a : Orders) : Prop := Evolves s₀ a.st

/-- What a step leaves, if there is a next state. -/
inductive OutOk (s₀ : State) : Out State → Prop where
  | next {s : State} (h : Evolves s₀ s) : OutOk s₀ (.next s)
  | fault {f : Fault} : OutOk s₀ (.fault f)
  | refused {r : Refusal} : OutOk s₀ (.refused r)

/-- A state that may be missing. -/
inductive OptOk (s₀ : State) : Option State → Prop where
  | none : OptOk s₀ none
  | some {s : State} (h : Evolves s₀ s) : OptOk s₀ (some s)

/-- A result with a state that may be missing. -/
inductive OptSndOk {α : Type} (s₀ : State) : Option (α × State) → Prop where
  | none : OptSndOk s₀ none
  | some {p : α × State} (h : Evolves s₀ p.2) : OptSndOk s₀ (some p)

/-- A frame found with the state after it, or no frame. -/
inductive FoundOk {α β : Type} (s₀ : State) : (α × State) ⊕ β → Prop where
  | inl {p : α × State} (h : Evolves s₀ p.2) : FoundOk s₀ (.inl p)
  | inr {b : β} : FoundOk s₀ (.inr b)

/-- The part of a state that the relation speaks of, but the store's memory and the tiles. -/
structure Guarded where
  slotA    : List Host.Cell
  slotB    : List Host.Cell
  staging  : List Host.Cell
  errLog   : List Rec
  odometer : List Rec
  faults   : List (BitVec 6 × Log)
  tags     : List (BitVec 32 × Reply)
  counters : BitVec 32 × BitVec 32 × BitVec 32 × BitVec 32 × BitVec 32

@[reducible] def guarded (s : State) : Guarded :=
  { slotA := s.nv.slotA.cells, slotB := s.nv.slotB.cells, staging := s.nv.staging.cells, errLog := s.err.log.recs
    odometer := s.nv.odometer.recs, faults := s.err.faults, tags := s.port.tags
    counters := (s.nv.rollbackSvn, s.nv.configSeq, s.nv.setSeq, s.nv.lastOrder, s.nv.bootCount) }

section Rules

variable {s₀ s t : State}

theorem Evolves.refl (s : State) : Evolves s s := ⟨id, le_rfl, le_rfl, le_rfl, le_rfl, rfl⟩

theorem Evolves.trans (h : Evolves s₀ s) (h' : Evolves s t) : Evolves s₀ t where
  keeps_inv hinv := h'.keeps_inv (h.keeps_inv hinv)
  svn_le := h.svn_le.trans h'.svn_le
  configSeq_le := h.configSeq_le.trans h'.configSeq_le
  setSeq_le := h.setSeq_le.trans h'.setSeq_le
  lastOrder_le := h.lastOrder_le.trans h'.lastOrder_le
  bootCount_eq := h'.bootCount_eq.trans h.bootCount_eq

theorem Evolves.store (h : Evolves s₀ s) : StoreOk s₀ s.store := fun hinv => (h.keeps_inv hinv).mem

theorem Evolves.tiles (h : Evolves s₀ s) : TilesOk s₀ s.tiles := fun x hx hinv => (h.keeps_inv hinv).panniers x hx

/-- A state with another store and other tiles. -/
theorem Evolves.parts (h : Evolves s₀ s) (hst : StoreOk s₀ t.store) (hts : TilesOk s₀ t.tiles)
    (e : guarded t = guarded s := by with_reducible rfl) : Evolves s₀ t := by
  injection e with hA hB hstage herr hodo hfaults htags hcounters
  simp only [Prod.mk.injEq] at hcounters
  obtain ⟨hsvn, hconfig, hset, hlast, hboots⟩ := hcounters
  refine ⟨fun hinv => ?_, hsvn ▸ h.svn_le, hconfig ▸ h.configSeq_le, hset ▸ h.setSeq_le, hlast ▸ h.lastOrder_le,
    hboots.trans h.bootCount_eq⟩
  have hinv' := h.keeps_inv hinv
  exact ⟨hst hinv, hA ▸ hinv'.slotA, hB ▸ hinv'.slotB, hstage ▸ hinv'.staging, fun x hx => hts x hx hinv, herr ▸ hinv'.errLog,
    hodo ▸ hinv'.odometer, hfaults ▸ hinv'.faults, htags ▸ hinv'.tags⟩

/-- A state that differs in nothing the relation speaks of. -/
theorem Evolves.frame (h : Evolves s₀ s)
    (e : (t.store.mem, t.tiles, guarded t) = (s.store.mem, s.tiles, guarded s) := by with_reducible rfl) : Evolves s₀ t := by
  simp only [Prod.mk.injEq] at e
  obtain ⟨hmem, htiles, hguarded⟩ := e
  exact h.parts (fun hinv => by rw [hmem]; exact h.store hinv) (by rw [htiles]; exact h.tiles) hguarded

theorem Evolves.withStore {st : Store} (h : Evolves s₀ s) (hst : StoreOk s₀ st) : Evolves s₀ { s with store := st } :=
  h.parts hst h.tiles

theorem StoreOk.frame {st st' : Store} (h : StoreOk s₀ st) (e : st'.mem = st.mem := by with_reducible rfl) : StoreOk s₀ st' :=
  fun hinv => by rw [e]; exact h hinv

/-! ### The byte memory -/

theorem StoreOk.mem {st : Store} (h : StoreOk s₀ st) : MemOk s₀ st.mem := h

theorem StoreOk.of_mem {st : Store} (h : MemOk s₀ st.mem) : StoreOk s₀ st := h

theorem TileOk.pannier {x : Tile} (h : TileOk s₀ x) : MemOk s₀ x.pannier := h

theorem TileOk.of_pannier {x : Tile} (h : MemOk s₀ x.pannier) : TileOk s₀ x := h

theorem MemOk.memWriteN {m : List Host.Cell} {a : Nat} {bs : List Byte} (h : MemOk s₀ m) : MemOk s₀ (memWriteN m a bs) :=
  fun hinv => wf_memWriteN _ _ (h hinv)

theorem MemOk.memCopyN {m : List Host.Cell} {src n dst : Nat} (h : MemOk s₀ m) : MemOk s₀ (memCopyN m src n dst) :=
  fun hinv => wf_memCopyN _ _ _ (h hinv)

theorem MemOk.memClear {m : List Host.Cell} {a n : Nat} (h : MemOk s₀ m) : MemOk s₀ (memClear m a n) :=
  fun hinv => wf_memClear _ _ (h hinv)

theorem MemOk.filter {m : List Host.Cell} {p : Host.Cell → Bool} (h : MemOk s₀ m) : MemOk s₀ (m.filter p) :=
  fun hinv => wf_filter _ (h hinv)

theorem MemOk.nil : MemOk s₀ [] := fun _ => rfl

theorem TileOk.blank {t : BitVec 10} : TileOk s₀ (Tile.blank t) := .of_pannier .nil

theorem TilesOk.append {ts us : List Tile} (h : TilesOk s₀ ts) (h' : TilesOk s₀ us) : TilesOk s₀ (ts ++ us) := fun x hx =>
  (List.mem_append.mp hx).elim (h x) (h' x)

theorem TilesOk.singleton {x : Tile} (h : TileOk s₀ x) : TilesOk s₀ [x] := fun _ hy => List.mem_singleton.mp hy ▸ h

/-! ### Conditions and lists -/

theorem Evolves.ite {c : Prop} [Decidable c] (h : Evolves s₀ s) (h' : Evolves s₀ t) : Evolves s₀ (if c then s else t) := by
  split <;> assumption

theorem EffOk.ite {c : Prop} [Decidable c] {e e' : Eff} (h : EffOk s₀ e) (h' : EffOk s₀ e') :
    EffOk s₀ (if c then e else e') := by
  split <;> assumption

theorem OptOk.ite {c : Prop} [Decidable c] {o o' : Option State} (h : OptOk s₀ o) (h' : OptOk s₀ o') :
    OptOk s₀ (if c then o else o') := by
  split <;> assumption

theorem OptSndOk.ite {α : Type} {c : Prop} [Decidable c] {o o' : Option (α × State)} (h : OptSndOk s₀ o)
    (h' : OptSndOk s₀ o') : OptSndOk s₀ (if c then o else o') := by
  split <;> assumption

theorem FoundOk.ite {α β : Type} {c : Prop} [Decidable c] {o o' : (α × State) ⊕ β} (h : FoundOk s₀ o) (h' : FoundOk s₀ o') :
    FoundOk s₀ (if c then o else o') := by
  split <;> assumption

theorem Evolves.ite_fst {α : Type} {c : Prop} [Decidable c] {p q : State × α} (h : Evolves s₀ p.1) (h' : Evolves s₀ q.1) :
    Evolves s₀ (if c then p else q).1 := by
  split <;> assumption

theorem Evolves.ite_snd {α : Type} {c : Prop} [Decidable c] {p q : α × State} (h : Evolves s₀ p.2) (h' : Evolves s₀ q.2) :
    Evolves s₀ (if c then p else q).2 := by
  split <;> assumption

theorem Evolves.ite_snd_snd {α β : Type} {c : Prop} [Decidable c] {p q : α × β × State} (h : Evolves s₀ p.2.2)
    (h' : Evolves s₀ q.2.2) : Evolves s₀ (if c then p else q).2.2 := by
  split <;> assumption

theorem StoreOk.ite {c : Prop} [Decidable c] {st st' : Store} (h : StoreOk s₀ st) (h' : StoreOk s₀ st') :
    StoreOk s₀ (if c then st else st') := by
  split <;> assumption

theorem Evolves.foldl {α : Type} {f : State → α → State} {l : List α} (h : Evolves s₀ s)
    (hf : ∀ t a, Evolves s₀ t → Evolves s₀ (f t a)) : Evolves s₀ (l.foldl f s) :=
  List.foldlRecOn l f h fun t ht a _ => hf t a ht

theorem StoreOk.foldl {α : Type} {f : Store → α → Store} {l : List α} {st : Store} (h : StoreOk s₀ st)
    (hf : ∀ st a, StoreOk s₀ st → StoreOk s₀ (f st a)) : StoreOk s₀ (l.foldl f st) :=
  List.foldlRecOn l f h fun st hst a _ => hf st a hst

/-- A loop that carries something else beside the state. -/
theorem Evolves.foldl_snd {α β : Type} {f : β × State → α → β × State} {l : List α} {p : β × State} (h : Evolves s₀ p.2)
    (hf : ∀ p a, Evolves s₀ p.2 → Evolves s₀ (f p a).2) : Evolves s₀ (l.foldl f p).2 :=
  List.foldlRecOn (motive := fun p : β × State => Evolves s₀ p.2) l f h fun p hp a _ => hf p a hp

theorem Evolves.foldl_fst {α β : Type} {f : State × β → α → State × β} {l : List α} {p : State × β} (h : Evolves s₀ p.1)
    (hf : ∀ p a, Evolves s₀ p.1 → Evolves s₀ (f p a).1) : Evolves s₀ (l.foldl f p).1 :=
  List.foldlRecOn (motive := fun p : State × β => Evolves s₀ p.1) l f h fun p hp a _ => hf p a hp

theorem Evolves.foldl_snd_snd {α β γ : Type} {f : β × γ × State → α → β × γ × State} {l : List α} {p : β × γ × State}
    (h : Evolves s₀ p.2.2) (hf : ∀ p a, Evolves s₀ p.2.2 → Evolves s₀ (f p a).2.2) : Evolves s₀ (l.foldl f p).2.2 :=
  List.foldlRecOn (motive := fun p : β × γ × State => Evolves s₀ p.2.2) l f h fun p hp a _ => hf p a hp

theorem Evolves.of_snd {α : Type} {p : α × State} {a : α} (h : Evolves s₀ p.2) (e : p = (a, t)) : Evolves s₀ t := by
  rwa [e] at h

theorem Evolves.of_snd_snd {α β : Type} {p : α × β × State} {a : α} {b : β} (h : Evolves s₀ p.2.2) (e : p = (a, b, t)) :
    Evolves s₀ t := by
  rwa [e] at h

theorem Evolves.snd {α : Type} {a : α} (h : Evolves s₀ s) : Evolves s₀ (a, s).2 := h

theorem SlotOk.of_done {r : SlotRes} (h : SlotOk s₀ r) (e : r = .done t) : Evolves s₀ t := by
  subst e
  cases h
  assumption

theorem WrOk.of_done {r : WrRes} (h : WrOk s₀ r) (e : r = .done t) : Evolves s₀ t := by
  subst e
  cases h
  assumption

theorem OptOk.of_some {o : Option State} (h : OptOk s₀ o) (e : o = Option.some t) : Evolves s₀ t := by
  subst e
  cases h
  assumption

theorem OptSndOk.of_some {α : Type} {o : Option (α × State)} {a : α} (h : OptSndOk s₀ o) (e : o = Option.some (a, t)) :
    Evolves s₀ t := by
  subst e
  cases h
  assumption

theorem FoundOk.of_inl {α β : Type} {o : (α × State) ⊕ β} {a : α} (h : FoundOk s₀ o) (e : o = .inl (a, t)) :
    Evolves s₀ t := by
  subst e
  cases h
  assumption

theorem OptSndOk.map {α β : Type} {o : Option α} {f : α → β × State} (hf : ∀ a, Evolves s₀ (f a).2) :
    OptSndOk s₀ (o.map f) := by
  cases o
  · exact .none
  · exact .some (hf _)

theorem EffOk.st {e : Eff} (h : EffOk s₀ e) : Evolves s₀ e.st := h

theorem SlotOk.ite {c : Prop} [Decidable c] {r r' : SlotRes} (h : SlotOk s₀ r) (h' : SlotOk s₀ r') :
    SlotOk s₀ (if c then r else r') := by
  split <;> assumption

theorem WrOk.ite {c : Prop} [Decidable c] {r r' : WrRes} (h : WrOk s₀ r) (h' : WrOk s₀ r') :
    WrOk s₀ (if c then r else r') := by
  split <;> assumption

theorem EffOk.stat {st : Status} (h : Evolves s₀ s) : EffOk s₀ (Eff.stat st s) := h

theorem EffOk.ok (h : Evolves s₀ s) : EffOk s₀ (Eff.ok s) := h

theorem EffOk.res {st : Status} {w : Word} (h : Evolves s₀ s) : EffOk s₀ (Eff.res st w s) := h

theorem EffOk.data {st : Status} {w : Word} {bs : List Byte} (h : Evolves s₀ s) : EffOk s₀ (Eff.data st w bs s) := h

theorem EffOk.later (h : Evolves s₀ s) : EffOk s₀ (Eff.later s) := h

theorem OrdersOk.of_st {a : Orders} (h : Evolves s₀ a.st) : OrdersOk s₀ a := h

theorem OrdersOk.st {a : Orders} (h : OrdersOk s₀ a) : Evolves s₀ a.st := h

theorem OrdersOk.ite {c : Prop} [Decidable c] {a a' : Orders} (h : OrdersOk s₀ a) (h' : OrdersOk s₀ a') :
    OrdersOk s₀ (if c then a else a') := by
  split <;> assumption

theorem OrdersOk.foldl {α : Type} {f : Orders → α → Orders} {l : List α} {a : Orders} (h : OrdersOk s₀ a)
    (hf : ∀ a b, OrdersOk s₀ a → OrdersOk s₀ (f a b)) : OrdersOk s₀ (l.foldl f a) :=
  List.foldlRecOn l f h fun a ha b _ => hf a b ha

/-! ### The logs, the tags and the tiles -/

theorem mem_setK_cases {α β : Type} [DecidableEq α] {l : List (α × β)} {k : α} {v : β} {p : α × β} (h : p ∈ setK l k v) :
    p ∈ l ∨ p.2 = v := by
  unfold setK at h
  split at h
  · obtain ⟨x, hx, rfl⟩ := List.mem_map.mp h
    split
    · exact .inr rfl
    · exact .inl hx
  · rcases List.mem_append.mp h with h | h
    · exact .inl h
    · exact .inr (by rw [List.mem_singleton.mp h])

theorem Evolves.logErr {r : Rec} (h : Evolves s₀ s) : Evolves s₀ (logErr r s) := by
  unfold Machine.logErr
  split
  · exact h.frame rfl
  · refine ⟨fun hinv => ?_, h.svn_le, h.configSeq_le, h.setSeq_le, h.lastOrder_le, h.bootCount_eq⟩
    exact { h.keeps_inv hinv with errLog := push_length r _ (by decide) }

theorem Evolves.logFault {k : BitVec 6} {r : Rec} (h : Evolves s₀ s) :
    Evolves s₀ { s with err := { s.err with faults := setK s.err.faults k ((faultLog s k).push 4096 r) } } := by
  refine ⟨fun hinv => ?_, h.svn_le, h.configSeq_le, h.setSeq_le, h.lastOrder_le, h.bootCount_eq⟩
  refine { h.keeps_inv hinv with faults := fun p hp => ?_ }
  rcases mem_setK_cases hp with hp | hp
  · exact (h.keeps_inv hinv).faults p hp
  · rw [hp]
    exact push_length r _ (by decide)

theorem Evolves.logOdo {r : Rec} {n : Nat} (h : Evolves s₀ s) :
    Evolves s₀ { s with nv.odometer := s.nv.odometer.push 131072 r, nv.odoPos := n } := by
  refine ⟨fun hinv => ?_, h.svn_le, h.configSeq_le, h.setSeq_le, h.lastOrder_le, h.bootCount_eq⟩
  exact { h.keeps_inv hinv with odometer := push_length r _ (by decide) }

theorem Evolves.writeRec {r : Rec} (h : Evolves s₀ s) : Evolves s₀ (writeRec r s) := by
  have herr : Evolves s₀ (if recToErr r.type.toNat then Machine.logErr { r with time := s.now } s else s) := .ite h.logErr h
  unfold Machine.writeRec
  exact .ite (Evolves.logOdo (.ite (.logFault herr) herr)) (.ite (.logFault herr) herr)

theorem Evolves.complete {o : Open} {st : Status} {result : Word} {payload : List Byte} (h : Evolves s₀ s) :
    Evolves s₀ (complete o st result payload s) := by
  have hsend {r : Reply} {t : State} (ht : Evolves s₀ t) : Evolves s₀ (sendReply r t) := by
    unfold Machine.sendReply
    split <;> exact ht.frame rfl
  unfold Machine.complete
  split
  · exact hsend (h.frame rfl)
  · exact hsend (h.frame rfl)
  · refine hsend ⟨fun hinv => ?_, h.svn_le, h.configSeq_le, h.setSeq_le, h.lastOrder_le, h.bootCount_eq⟩
    obtain ⟨hmem, hA, hB, hstage, hpan, herr, hodo, hfaults, -⟩ := h.keeps_inv hinv
    exact ⟨hmem, hA, hB, hstage, hpan, herr, hodo, hfaults, by dsimp only; exact keepTag_length _ _⟩

theorem TileOk.frame {x x' : Tile} (h : TileOk s₀ x) (e : x'.pannier = x.pannier := by with_reducible rfl) : TileOk s₀ x' :=
  fun hinv => by rw [e]; exact h hinv

theorem TileOk.ite {c : Prop} [Decidable c] {x x' : Tile} (h : TileOk s₀ x) (h' : TileOk s₀ x') :
    TileOk s₀ (if c then x else x') := by
  split <;> assumption

theorem TilesOk.map {ts : List Tile} {f : Tile → Tile} (h : TilesOk s₀ ts) (hf : ∀ x, TileOk s₀ x → TileOk s₀ (f x)) :
    TilesOk s₀ (ts.map f) := by
  intro x hx
  obtain ⟨y, hy, rfl⟩ := List.mem_map.mp hx
  exact hf y (h y hy)

theorem TilesOk.updIf {ts : List Tile} {p : Tile → Bool} {f : Tile → Tile} (h : TilesOk s₀ ts)
    (hf : ∀ x, TileOk s₀ x → TileOk s₀ (f x)) : TilesOk s₀ (updIf ts p f) :=
  h.map fun x hx => .ite (hf x hx) hx

theorem Evolves.updTile {id : BitVec 10} {f : Tile → Tile} (h : Evolves s₀ s) (hf : ∀ x, TileOk s₀ x → TileOk s₀ (f x)) :
    Evolves s₀ (updTile id f s) :=
  h.parts h.store (h.tiles.updIf hf) rfl

end Rules

end Sys2Proof.Proofs

/-! Every operation of the model leaves a later state: one rule for each function that makes a state, in the order of the
model's files, each from the rules of the functions that it calls. The last rule is that of `exec`. -/

namespace Sys2Proof.Proofs

open Sys2Proof.Machine Sys2Proof.Claims Sys2Proof.Laws

section Rules

-- The rules are checked one after another: a thread for each would ask for more memory than the check gives.
set_option Elab.async false

variable {s₀ s t : State}

/-! ### Ops -/

theorem Evolves.takeFree (h : Evolves s₀ s) : Evolves s₀ (takeFree s).2 := by
  unfold Machine.takeFree
  exact .frame h

theorem Evolves.emit {m : OutMsg} (h : Evolves s₀ s) : Evolves s₀ (emit m s) := by
  unfold Machine.emit
  exact .frame h

theorem Evolves.alert {i : ℕ} (h : Evolves s₀ s) : Evolves s₀ (alert i s) := by
  unfold Machine.alert
  exact .ite h (.frame h)

theorem Evolves.takeInj {point unit : BitVec 16} (h : Evolves s₀ s) : Evolves s₀ (takeInj point unit s).2 := by
  unfold Machine.takeInj
  split
  · exact h
  · exact .frame h

theorem Evolves.detect {r : Rec} (h : Evolves s₀ s) : Evolves s₀ (detect r s) := .writeRec (.takeInj h)

theorem Evolves.corrected {point unit : BitVec 16} {addr : Word} (h : Evolves s₀ s) :
    Evolves s₀ (corrected point unit addr s) := by
  unfold Machine.corrected
  dsimp only
  split
  · exact .ite (.frame (.takeInj h)) (.writeRec (.frame (.takeInj h)))
  · exact .writeRec (.frame (.takeInj h))

theorem Evolves.markFence {u : BitVec 16} {trigger : ℕ} (h : Evolves s₀ s) : Evolves s₀ (markFence u trigger s) := by
  unfold Machine.markFence
  exact .detect (.frame h)

theorem Evolves.sendReply {r : Reply} (h : Evolves s₀ s) : Evolves s₀ (sendReply r s) := by
  unfold Machine.sendReply
  split
  · exact .frame h
  · exact .frame h
  · exact .frame h

theorem Evolves.openCmd {o : Open} (h : Evolves s₀ s) : Evolves s₀ (openCmd o s) := by
  unfold Machine.openCmd
  split
  · exact .frame h
  · exact .frame h

theorem Evolves.completeIf {o : Open} {st : Status} {result : Word} {payload : List Byte} (h : Evolves s₀ s) :
    Evolves s₀ (completeIf o st result payload s) :=
  .ite (.complete h) h

theorem EffOk.checked {cs : List (Bool × Status)} {body : Eff} (h : Evolves s₀ s)
    (hbody : (∀ c ∈ cs, c.1 = true) → EffOk s₀ body) : EffOk s₀ (checked cs s body) := by
  unfold Machine.checked
  split
  · exact .stat h
  next e => exact hbody (firstFail_none.mp e)

theorem Evolves.whenUp {f : State → State} (h : Evolves s₀ s) (hf : ∀ (t : State), Evolves s₀ t → Evolves s₀ (f t)) :
    Evolves s₀ (whenUp s f) :=
  .ite (hf _ h) h

/-! ### Addr -/

theorem Evolves.updExt {idx : ℕ} {f : Extent → Extent} (h : Evolves s₀ s) : Evolves s₀ (updExt s idx f) := by
  unfold Machine.updExt
  exact .frame h

/-! ### Store -/

theorem StoreOk.setPage {p : Page} {st : Store} (h : StoreOk s₀ st) : StoreOk s₀ (setPage p st) := by
  unfold Machine.setPage
  exact .frame h

theorem StoreOk.newFrame {t : Tier} {st : Store} (h : StoreOk s₀ st) : StoreOk s₀ (newFrame t st).2 := by
  unfold Machine.newFrame
  exact .frame h

theorem StoreOk.freeFrame {id : ℕ} {st : Store} (h : StoreOk s₀ st) : StoreOk s₀ (freeFrame id st) :=
  .of_mem (.memClear h.mem)

theorem StoreOk.copyFrame {src dst : ℕ} {st : Store} (h : StoreOk s₀ st) : StoreOk s₀ (copyFrame src dst st) :=
  .of_mem (.memCopyN h.mem)

theorem StoreOk.dropWork {f : ℕ} {st : Store} (h : StoreOk s₀ st) : StoreOk s₀ (dropWork f st) := by
  unfold Machine.dropWork
  exact .foldl (.frame h) (fun _ _ => .freeFrame)

theorem Evolves.releaseFrame {page f : ℕ} (h : Evolves s₀ s) : Evolves s₀ (releaseFrame page f s) := by
  unfold Machine.releaseFrame
  exact .ite (.parts h (.frame (.dropWork h.store)) h.tiles) (.parts h (.freeFrame (.dropWork h.store)) h.tiles)

theorem Evolves.releaseFrames {fs : List (ℕ × ℕ)} (h : Evolves s₀ s) : Evolves s₀ (releaseFrames fs s) :=
  .foldl h (fun _ _ => .releaseFrame)

theorem Evolves.takeView {x : Extent} {op : ℕ} {r : BitVec 6} (h : Evolves s₀ s) : Evolves s₀ (takeView s x op r).2 := by
  unfold Machine.takeView
  split
  · exact h
  · exact .ite_snd (.updExt h) h

theorem StoreOk.putBytes {t : Tier} {a : ℕ} {bs : List (Option Byte)} {st : Store} (h : StoreOk s₀ st) :
    StoreOk s₀ (putBytes t a bs st) :=
  .of_mem (.memWriteN h.mem)

theorem Evolves.mirrorWrite {x : Extent} {page off : ℕ} {bs : List Byte} {lap : Bool} (h : Evolves s₀ s) :
    Evolves s₀ (mirrorWrite x page off bs lap s) := by
  unfold Machine.mirrorWrite
  split
  · exact .ite (.frame (.emit h)) h
  · exact h

theorem Evolves.startProg {page src dst : ℕ} {drop : Bool} {why : MoveWhy} (h : Evolves s₀ s) :
    Evolves s₀ (startProg page src dst drop why s) := by
  unfold Machine.startProg
  exact .frame h

theorem Evolves.evictCopy {page : ℕ} {c : Copy} {why : MoveWhy} (h : Evolves s₀ s) : Evolves s₀ (evictCopy s page c why) := by
  unfold Machine.evictCopy
  dsimp only
  split
  · split
    · exact .startProg h
    · exact h
  · exact .releaseFrame (.frame h rfl)

theorem Evolves.roomForCopy {o : Obj} (h : Evolves s₀ s) : Evolves s₀ (roomForCopy s o).2 := by
  unfold Machine.roomForCopy
  split
  · exact h
  · split
    · exact h
    · split
      · exact h
      · exact .evictCopy h

theorem StoreOk.installCopy {page : ℕ} {t : Tier} {dirty pinned : Bool} {st : Store} (h : StoreOk s₀ st) :
    StoreOk s₀ (installCopy page t dirty pinned st).2 := by
  unfold Machine.installCopy
  exact .frame (.setPage (.newFrame h))

theorem StoreOk.storedOn {page : ℕ} {st : Store} (h : StoreOk s₀ st) : StoreOk s₀ (storedOn page st) := by
  unfold Machine.storedOn
  exact .frame h

theorem Evolves.applyBytes {x : Extent} {v : View} {page f off : ℕ} {bs : List (Option Byte)} (h : Evolves s₀ s) :
    Evolves s₀ (applyBytes s x v page f off bs) := by
  unfold Machine.applyBytes
  dsimp only
  refine .mirrorWrite ?_
  refine .parts h ?_ h.tiles
  dsimp only
  split
  · exact .putBytes h.store
  · split
    · split
      · split
        · exact .putBytes (.putBytes h.store)
        · exact .putBytes h.store
      · exact .storedOn (.setPage (.putBytes h.store))
    · exact .putBytes h.store

theorem StoreOk.copyPage {page src dst : ℕ} {st : Store} (h : StoreOk s₀ st) : StoreOk s₀ (copyPage page src dst st) :=
  .foldl h (fun _ _ h₁ => .of_mem (.memCopyN h₁.mem))

theorem FoundOk.makeShadow {x : Extent} {w : WLap} {page : ℕ} {whole : Bool} {who : Option ℕ} (h : Evolves s₀ s) :
    FoundOk s₀ (makeShadow s x w page whole who) := by
  have hnew {t : Tier} : StoreOk s₀ (newFrame t s.store).2 := h.store.newFrame
  unfold Machine.makeShadow
  split
  · exact .inr
  split
  · exact .inr
  dsimp only
  split
  · exact .inl (h.withStore hnew).updExt
  split
  · exact .inl (h.withStore hnew.copyPage).updExt
  split
  · split
    · exact .inr
    split
    · exact .inr
    · exact .inr
    · exact .inr
    · exact .inl (h.withStore hnew.copyFrame).updExt
  split
  · exact .inr
  · exact .inl (h.withStore hnew.copyPage).updExt

theorem FoundOk.take {page : ℕ} {o : Obj} (h : Evolves s₀ s) : FoundOk s₀ (firstFrame.take page o s) := by
  unfold Machine.firstFrame.take
  exact .inl (.frame h rfl)

theorem FoundOk.firstFrame {page : ℕ} (h : Evolves s₀ s) : FoundOk s₀ (firstFrame s page) := by
  unfold Machine.firstFrame
  dsimp only
  split
  · exact .inr
  · exact .inr
  · exact .inl (.frame h rfl)
  · exact .ite (.ite (.take (.roomForCopy h)) .inr) (.take h)

theorem WrOk.writeFlash {x : Extent} {v : View} {page f off : ℕ} {bs : List (Option Byte)} {who : Option ℕ}
    {whole : Option (BitVec 32)} (h : Evolves s₀ s) : WrOk s₀ (writeFlash s x v page f off bs who whole) := by
  unfold Machine.writeFlash
  split
  · exact .fail
  · exact .done (.applyBytes h)
  · exact .fail
  · exact .fail
  · exact .wait

theorem WrOk.writeFrame {x : Extent} {v : View} {page f off : ℕ} {bs : List (Option Byte)} (h : Evolves s₀ s) :
    WrOk s₀ (writeFrame s x v page f off bs) :=
  .ite .fail (.ite .fail (.done (.applyBytes h)))

theorem WrOk.writeAt {x : Extent} {v : View} {off : ℕ} {bs : List (Option Byte)} {whole : Option (BitVec 32)} {who : Option ℕ}
    {entered : Bool} (h : Evolves s₀ s) : WrOk s₀ (writeAt s x v off bs whole who entered) := by
  unfold Machine.writeAt
  dsimp only
  split
  · exact .wait
  split
  · exact .fail
  · split
    · exact .fail
    split
    · exact .fail
    split
    · exact .ite (.writeFlash h) (.writeFrame h)
    split
    next e₁ => exact .ite .wait (.done (FoundOk.of_inl (.makeShadow h) e₁).applyBytes)
    · exact .fail
    · exact .wait
  · split
    · exact .fail
    split
    · exact .wait
    split
    · exact .fail
    · exact .writeFrame h
    · split
      next o _ =>
        have h₁ : Evolves s₀ (roomForCopy s o).2 := .roomForCopy h
        exact .ite .fail (.ite (.ite .fail .wait) (.done (h₁.withStore h₁.store.installCopy.copyFrame).applyBytes))
      split
      · exact .fail
      split
      · split
        · exact .fail
        · exact .fail
        · exact .wait
      · exact .writeFlash h
    · split
      next e₁ => exact .done (FoundOk.of_inl (.firstFrame h) e₁).applyBytes
      · exact .fail
      · exact .wait

theorem Evolves.pageIn {o : Obj} {page b : ℕ} (h : Evolves s₀ s) : Evolves s₀ (pageIn o page b s) := by
  unfold Machine.pageIn
  exact .ite h (.ite (.frame (.roomForCopy h) rfl) (.frame (.roomForCopy h) rfl))

theorem Evolves.awaitFlash {page f : ℕ} {write : Bool} {whole : Option (BitVec 32)} {who : Option ℕ}
    (h : Evolves s₀ s) : Evolves s₀ (awaitFlash page f write whole who s) := by
  unfold Machine.awaitFlash
  dsimp only
  split
  · exact .ite (.ite (.frame h rfl) (.startProg h)) h
  · exact h
  · exact .ite (.ite (.frame h rfl) (.startProg (.frame h))) (.ite h (.frame h rfl))

theorem Evolves.newShadow {x : Extent} {off : ℕ} {whole : Option (BitVec 32)} {who : Option ℕ} {w : WLap}
    (h : Evolves s₀ s) : Evolves s₀ (awaitMem.newShadow x off whole who w s) := by
  unfold Machine.awaitMem.newShadow
  split
  next s₁ e₁ =>
    have h₁ := FoundOk.of_inl (.makeShadow h) e₁
    exact .ite (.awaitFlash (.frame h₁)) h
  · exact h

theorem Evolves.base {x : Extent} {off : ℕ} {whole : Option (BitVec 32)} {who : Option ℕ} {w : WLap} {f : ℕ}
    (h : Evolves s₀ s) : Evolves s₀ (awaitMem.base x off whole who w f s) := by
  unfold Machine.awaitMem.base
  split
  · exact .awaitFlash h
  · exact .newShadow h

theorem Evolves.awaitMem {x : Extent} {v : View} {off : ℕ} {write : Bool} {whole : Option (BitVec 32)}
    {who : Option ℕ} (h : Evolves s₀ s) : Evolves s₀ (awaitMem s x v off write whole who) := by
  unfold Machine.awaitMem
  dsimp only
  split
  · exact h
  · split
    · split
      · exact .ite (.pageIn h) h
      · split
        · exact .ite (.newShadow h) (.ite (.base h) (.awaitFlash h))
        · exact .awaitFlash h
    · split
      · exact h
      · split
        · exact .ite (.newShadow h) h
        · split
          · exact .ite h (.awaitFlash (.frame h rfl))
          · exact .roomForCopy h
          · exact h
        · exact h
    · split
      · exact .ite (.newShadow h) h
      · exact h
    · exact h

theorem Evolves.releaseVersions {idx : ℕ} {fs : List (ℕ × ℕ)} (h : Evolves s₀ s) : Evolves s₀ (releaseVersions idx fs s) := by
  unfold Machine.releaseVersions
  split
  · exact .releaseFrames h
  · exact h

theorem Evolves.reapLaps {idx : ℕ} (h : Evolves s₀ s) : Evolves s₀ (reapLaps idx s) := by
  unfold Machine.reapLaps
  split
  · exact h
  · exact .ite h (.releaseVersions (.updExt h))

theorem Evolves.abandonLap {idx : ℕ} (h : Evolves s₀ s) : Evolves s₀ (abandonLap idx s) := by
  unfold Machine.abandonLap
  split
  · split
    · exact .releaseFrames (.frame (.updExt h))
    · exact h
  · exact h

theorem StoreOk.backed {x : Extent} {page f : ℕ} {bare : Store → Store} {st : Store}
    (hf : ∀ (a : Store), StoreOk s₀ a → StoreOk s₀ (bare a)) (h : StoreOk s₀ st) :
    StoreOk s₀ (newVersion.backed s x page f bare st) := by
  unfold Machine.newVersion.backed
  split
  · exact .ite (.frame (.setPage (.newFrame h))) (hf _ h)
  · exact hf _ h

theorem StoreOk.newVersion {x : Extent} {page : ℕ} {new : Option ℕ} (h : Evolves s₀ s) :
    StoreOk s₀ (newVersion s x page new) := by
  unfold Machine.newVersion
  dsimp only
  split
  · exact .ite (.setPage (.copyFrame h.store)) (.backed (fun _ => .setPage) h.store)
  · exact .backed (fun _ => .setPage) h.store
  · exact .ite (.freeFrame (.setPage h.store)) (.setPage h.store)
  · exact .setPage h.store

theorem Evolves.switchPage {idx page : ℕ} {new : Option ℕ} {acc : State × List (ℕ × ℕ)} (h : Evolves s₀ acc.1) :
    Evolves s₀ (switchPage idx page new acc).1 := by
  unfold Machine.switchPage
  dsimp only
  split
  · exact h
  · exact .updExt (.parts h (.newVersion h) h.tiles)

theorem Evolves.switchLap {idx : ℕ} {num : BitVec 32} {vers : List (ℕ × Option ℕ)} (h : Evolves s₀ s) :
    Evolves s₀ (switchLap idx num vers s) :=
  .releaseVersions (.reapLaps (.foldl_fst (.updExt h) (fun _ _ => .switchPage)))

theorem Evolves.commitLap {idx : ℕ} (h : Evolves s₀ s) : Evolves s₀ (commitLap idx s) := by
  unfold Machine.commitLap
  split
  · split
    · exact .switchLap (.updExt h)
    · exact h
  · exact h

theorem Evolves.dropHolds {op : ℕ} (h : Evolves s₀ s) : Evolves s₀ (dropHolds op s) := by
  unfold Machine.dropHolds
  exact .foldl (.frame h) (fun _ _ => .reapLaps)

/-! ### Home -/

theorem Evolves.setDir {line : ℕ} {d : Option DirSt} (h : Evolves s₀ s) : Evolves s₀ (setDir line d s) := by
  unfold Machine.setDir
  exact .frame h

theorem Evolves.newTrk {t : Trk} (h : Evolves s₀ s) : Evolves s₀ (newTrk t s) := by
  unfold Machine.newTrk
  exact .frame h

theorem Evolves.updTrk {id : ℕ} {f : Trk → Trk} (h : Evolves s₀ s) : Evolves s₀ (updTrk id f s) := by
  unfold Machine.updTrk
  exact .frame h

theorem Evolves.endTrk {id : ℕ} (h : Evolves s₀ s) : Evolves s₀ (endTrk id s) := by
  unfold Machine.endTrk
  exact .frame h

theorem Evolves.startSnoop {t : Trk} {msg : BitVec 10 → OutMsg} {as : List (BitVec 10)} (h : Evolves s₀ s) :
    Evolves s₀ (startSnoop t msg as s) := by
  unfold Machine.startSnoop
  exact .frame (.updTrk h)

theorem Evolves.runRecall {t : Trk} (h : Evolves s₀ s) : Evolves s₀ (runRecall t s) :=
  .ite (.setDir (.endTrk h)) (.startSnoop h)

theorem Evolves.recallNow {line : ℕ} (h : Evolves s₀ s) : Evolves s₀ (recallNow line s) := .runRecall (.newTrk h)

theorem Evolves.startRecall {line : ℕ} (h : Evolves s₀ s) : Evolves s₀ (startRecall line s) :=
  .ite h (.ite (.newTrk h) (.runRecall (.newTrk h)))

theorem Evolves.addMeter {r : BitVec 6} {f : Meter → Meter} (h : Evolves s₀ s) : Evolves s₀ (addMeter r f s) := by
  unfold Machine.addMeter
  exact .frame h

theorem Evolves.meterRd {r : BitVec 6} {n : ℕ} (h : Evolves s₀ s) : Evolves s₀ (meterRd r n s) := .addMeter h

theorem Evolves.meterWr {r : BitVec 6} {n : ℕ} (h : Evolves s₀ s) : Evolves s₀ (meterWr r n s) := .addMeter h

theorem Evolves.meterFab {r : BitVec 6} {n : ℕ} (h : Evolves s₀ s) : Evolves s₀ (meterFab r n s) := .addMeter h

theorem Evolves.meterFlash {r : BitVec 6} {n : ℕ} (h : Evolves s₀ s) : Evolves s₀ (meterFlash r n s) := .addMeter h

theorem Evolves.recRefused {rider : BitVec 6} {source : BitVec 32} {st : Status} {addr va : Word} (h : Evolves s₀ s) :
    Evolves s₀ (recRefused rider source st addr va s) :=
  .writeRec h

theorem Evolves.badOpa {q : Rq} {st : Status} {opa : Word} (h : Evolves s₀ s) : Evolves s₀ (badOpa q st opa s) :=
  .ite h (.recRefused h)

theorem Evolves.countUncorr {u : BitVec 16} {off : ℕ} (h : Evolves s₀ s) : Evolves s₀ (countUncorr u off s) := by
  unfold Machine.countUncorr
  exact .ite (.markFence (.frame h)) (.frame h)

theorem Evolves.recUncorr {q : Rq} {off : ℕ} (h : Evolves s₀ s) : Evolves s₀ (recUncorr q off s) :=
  .countUncorr (.detect h)

theorem Evolves.alterWord {soft : Bool} {f off : ℕ} (h : Evolves s₀ s) : Evolves s₀ (alterWord soft f off s) := by
  unfold Machine.alterWord
  exact .ite (.ite h (.frame h)) (.ite h (.frame h))

theorem Evolves.memRead {x : Extent} {v : View} {off len : ℕ} {who : Option ℕ} (h : Evolves s₀ s) :
    Evolves s₀ (memRead s x v off len who).2 := by
  unfold Machine.memRead
  split
  · exact h
  · split
    · dsimp only
      split
      · split
        · dsimp only
          split
          · exact .ite (.alterWord h) h
          · exact h
        · split
          · exact .ite_snd (.corrected (.ite (.alterWord h) h)) (.ite (.alterWord h) h)
          · exact .ite_snd (.corrected h) h
      · dsimp only
        split
        · exact .ite (.alterWord h) h
        · exact h
    · exact h

theorem Evolves.mapUse {off : ℕ} (h : Evolves s₀ s) : Evolves s₀ (mapUse off s) := by
  unfold Machine.mapUse
  exact .ite h (.writeRec (.frame (.takeInj h)))

theorem Evolves.viewFor {x : Extent} {q : Rq} {fixed : Option View} (h : Evolves s₀ s) :
    Evolves s₀ (viewFor s x q fixed).2 := by
  unfold Machine.viewFor
  split
  · exact .takeView h
  · exact h
  · exact h

theorem Evolves.dropTicket {k : EngKey} {write : Bool} (h : Evolves s₀ s) : Evolves s₀ (dropTicket k write s) := by
  unfold Machine.dropTicket
  split
  · exact .endTrk h
  · exact h

theorem Evolves.readyTrk {t : Trk} {x : Extent} {write : Bool} (h : Evolves s₀ s) : Evolves s₀ (readyTrk t x write s) :=
  .updTrk (.ite (.setDir h) h)

theorem Evolves.startEng {t : Trk} {write : Bool} (h : Evolves s₀ s) : Evolves s₀ (startEng t write s) := by
  unfold Machine.startEng
  split
  · exact h
  · split
    · exact .recallNow h
    · split
      · exact .updTrk h
      · exact .ite (.readyTrk h) (.startSnoop h)

theorem Evolves.takeTicket {q : Rq} {x : Extent} {off : ℕ} {write full : Bool} {phase : TrkPhase} {v : Option View}
    (h : Evolves s₀ s) : Evolves s₀ (takeTicket q x off write full phase v s) :=
  .ite (.newTrk h) h

theorem Evolves.engTurn {x : Extent} {q : Rq} {off : ℕ} {write full : Bool} (h : Evolves s₀ s) :
    Evolves s₀ (engTurn s x q off write full).2 := by
  unfold Machine.engTurn
  dsimp only
  split
  · split
    · exact h
    · exact .ite_snd h h
    · split
      · exact .ite_snd (.startEng h) (.startEng h)
      · exact .startEng h
    · exact h
  · split
    · exact .ite (.setDir h) h
    · split
      · split
        · exact .ite_snd (.startEng (.takeTicket h)) (.startEng (.takeTicket h))
        · exact .startEng (.takeTicket h)
      · exact .takeTicket h

theorem Evolves.holdAccess {q : Rq} {x : Extent} {off : ℕ} {write full : Bool} {whole : Option (BitVec 32)} {v : View}
    (h : Evolves s₀ s) : Evolves s₀ (holdAccess q x off write full whole v s) :=
  .awaitMem (.ite h (.takeTicket h))

theorem Evolves.homeRead {q : Rq} {off len : ℕ} (h : Evolves s₀ s) : Evolves s₀ (homeRead s q off len).2 := by
  unfold Machine.homeRead
  dsimp only
  split
  · exact .snd (.dropTicket (.mapUse h))
  · split
    next s₁ e₁ =>
      have h₁ := Evolves.of_snd (.engTurn (.mapUse h)) e₁
      exact h₁
    next s₂ e₂ =>
      have h₂ := Evolves.of_snd (.engTurn (.mapUse h)) e₂
      exact h₂
    next s₃ e₃ =>
      have h₃ := Evolves.of_snd (.engTurn (.mapUse h)) e₃
      exact .snd (.dropTicket h₃)
    next s₄ e₄ =>
      have h₄ := Evolves.of_snd (.engTurn (.mapUse h)) e₄
      split
      · exact .snd (.dropTicket h₄)
      · split
        next s₅ e₅ =>
          have h₅ := Evolves.of_snd (.memRead (.viewFor h₄)) e₅
          exact .snd (.dropTicket (.meterRd h₅))
        next s₆ e₆ =>
          have h₆ := Evolves.of_snd (.memRead (.viewFor h₄)) e₆
          exact .snd (.holdAccess h₆)
        next s₇ e₇ =>
          have h₇ := Evolves.of_snd (.memRead (.viewFor h₄)) e₇
          exact .snd (.dropTicket (.recUncorr h₇))
        next s₈ _ e₈ =>
          have h₈ := Evolves.of_snd (.memRead (.viewFor h₄)) e₈
          exact .snd (.dropTicket h₈)

theorem Evolves.landWrite {q : Rq} {off : ℕ} {full : Bool} (h : Evolves s₀ s) : Evolves s₀ (landWrite q off full s).2 :=
  .ite_snd (.newTrk (.dropTicket h)) (.dropTicket h)

theorem Evolves.homeWrite {q : Rq} {off : ℕ} {bs : List (Option Byte)} {whole : Bool} (h : Evolves s₀ s) :
    Evolves s₀ (homeWrite s q off bs whole).2 := by
  unfold Machine.homeWrite
  dsimp only
  split
  · exact .dropTicket (.mapUse h)
  · split
    · exact .dropTicket (.mapUse h)
    · split
      · exact .mapUse h
      · split
        next s₁ e₁ =>
          have h₁ := Evolves.of_snd (.engTurn (.mapUse h)) e₁
          exact h₁
        next s₂ e₂ =>
          have h₂ := Evolves.of_snd (.engTurn (.mapUse h)) e₂
          exact .dropTicket h₂
        next s₃ e₃ =>
          have h₃ := Evolves.of_snd (.engTurn (.mapUse h)) e₃
          exact .dropTicket h₃
        next s₄ e₄ =>
          have h₄ := Evolves.of_snd (.engTurn (.mapUse h)) e₄
          split
          · exact .dropTicket h₄
          · split
            next s₅ e₅ =>
              have h₅ := WrOk.of_done (.writeAt (.viewFor h₄)) e₅
              exact .landWrite (.meterWr h₅)
            · exact .holdAccess (.viewFor h₄)
            · exact .dropTicket (.recUncorr (.viewFor h₄))
            · exact .dropTicket (.viewFor h₄)

theorem Evolves.homeReadN {q : Rq} {off len : ℕ} (h : Evolves s₀ s) : Evolves s₀ (homeReadN s q off len).2 := by
  unfold Machine.homeReadN
  refine .foldl_snd h fun _ _ h₃ => ?_
  split
  · dsimp only
    split
    · exact .homeRead h₃
    · exact .homeRead h₃
  · exact h₃

theorem Evolves.homeWriteN {q : Rq} {off : ℕ} {bs : List Byte} (h : Evolves s₀ s) :
    Evolves s₀ (homeWriteN s q off bs).2.2 := by
  unfold Machine.homeWriteN
  refine .foldl_snd_snd h fun _ _ h₃ => ?_
  split
  · split
    next s₄ e₄ =>
      have h₄ := Evolves.of_snd (.homeWrite h₃) e₄
      exact h₄
    next s₅ _ e₅ =>
      have h₅ := Evolves.of_snd (.homeWrite h₃) e₅
      exact h₅
  · exact h₃

/-! ### Port -/

theorem Evolves.finish {o : Open} {e : Eff} (h : EffOk s₀ e) : Evolves s₀ (finish o e) := by
  unfold Machine.finish
  split
  · exact .complete h.st
  · exact h.st

theorem Evolves.dropAssembly {c : Cmd} (h : Evolves s₀ s) : Evolves s₀ (dropAssembly c s) := by
  unfold Machine.dropAssembly
  exact .frame h

theorem Evolves.refuseHdr {op : ℕ} {c : Cmd} {st : Status} (h : Evolves s₀ s) : Evolves s₀ (refuseHdr op c st s) := by
  unfold Machine.refuseHdr
  exact .complete (.ite (.dropAssembly (.frame h)) (.frame h))

theorem Evolves.startCmd {op : ℕ} {c : Cmd} {body : Body}
    (hg : ∀ (a : Cmd) (t : State), Evolves s₀ t → EffOk s₀ (body a t)) (h : Evolves s₀ s) :
    Evolves s₀ (startCmd op c body s) := by
  unfold Machine.startCmd
  dsimp only
  split
  · exact .refuseHdr h
  · split
    · exact .complete h
    · exact .finish (hg _ _ (.openCmd h))

theorem Evolves.sendAgain {r : Reply} (h : Evolves s₀ s) : Evolves s₀ (sendAgain r s) := .sendReply h

theorem Evolves.wakeUp (h : Evolves s₀ s) : Evolves s₀ (wakeUp s) := by
  unfold Machine.wakeUp
  dsimp only
  split
  · exact .frame h
  · exact .frame h
  · exact h

theorem Evolves.runPacket {op : ℕ} {c : Cmd} {body : Body}
    (hg : ∀ (a : Cmd) (t : State), Evolves s₀ t → EffOk s₀ (body a t)) (h : Evolves s₀ s) :
    Evolves s₀ (runPacket op c body s) := by
  unfold Machine.runPacket
  dsimp only
  split
  · exact .ite (.startCmd hg h) h
  · split
    · exact .ite (.complete h) (.startCmd hg h)
    · exact .ite (.complete h) (.startCmd hg h)
    · exact .ite (.complete h) h
    · exact .complete h
  · split
    · exact h
    · split
      · exact .wakeUp h
      · exact .sendAgain (.wakeUp h)
      · exact .sendReply (.wakeUp h)
      · exact .complete (.wakeUp h)
      · exact .frame (.wakeUp h)
      · exact .startCmd hg (.wakeUp h)

theorem EffOk.bodyNop {a : Cmd} (h : Evolves s₀ s) : EffOk s₀ (bodyNop a s) := .ok h

theorem EffOk.bodyHello {a : Cmd} (h : Evolves s₀ s) : EffOk s₀ (bodyHello a s) := by
  unfold Machine.bodyHello
  dsimp only
  split
  · exact .stat h
  · split
    · exact .stat h
    · refine .data ?_
      split
      · exact .frame h
      · exact .frame h

/-! ### Xlat -/

theorem Evolves.xlatFault {wheel : ℕ} {r : BitVec 6} {source : BitVec 32} {va : Word} {reason lvl : ℕ}
    (h : Evolves s₀ s) : Evolves s₀ (xlatFault wheel r source va reason lvl s) := by
  unfold Machine.xlatFault
  exact .detect (.frame h)

theorem Evolves.fillMicro {cl : XClient} {e : TlbEnt} (h : Evolves s₀ s) : Evolves s₀ (fillMicro cl e s) := by
  unfold Machine.fillMicro
  exact .frame h

theorem Evolves.fillTlb {e : TlbEnt} (h : Evolves s₀ s) : Evolves s₀ (fillTlb e s) := by
  unfold Machine.fillTlb
  exact .frame h

theorem OptSndOk.xlatHit {cl : XClient} {r : BitVec 6} {va : ℕ} {write : Bool} (h : Evolves s₀ s) :
    OptSndOk s₀ (xlatHit s cl r va write) := by
  unfold Machine.xlatHit
  split
  · exact .some h
  · exact .map (fun _ => .fillMicro h)

theorem Evolves.tableTurn {q : Rq} {write : Bool} {line : ℕ} (h : Evolves s₀ s) : Evolves s₀ (tableTurn q write s line) := by
  unfold Machine.tableTurn
  split
  · exact h
  · exact .engTurn h

theorem Evolves.logTable {q : Rq} {off reason : ℕ} (h : Evolves s₀ s) : Evolves s₀ (logTable q off reason s) :=
  .ite (.recUncorr h) h

theorem Evolves.fillWalkCache {w : WalkEnt} (h : Evolves s₀ s) : Evolves s₀ (fillWalkCache w s) := by
  unfold Machine.fillWalkCache
  exact .frame h

theorem Evolves.walkStep {w : Walk} (h : Evolves s₀ s) : Evolves s₀ (walkStep w s).2 := by
  unfold Machine.walkStep
  dsimp only
  split
  · exact h
  · split
    · exact h
    · split
      · exact h
      · split
        · exact .tableTurn h
        · exact .dropTicket (.logTable h)
        · split
          · exact .dropTicket h
          · exact .dropTicket h
          · exact .dropTicket (.fillWalkCache h)

theorem Evolves.walkOn {n : ℕ} {a : Walk} (h : Evolves s₀ s) : Evolves s₀ (walkOn n a s).2 := by
  induction n generalizing a s with
  | zero =>
    unfold Machine.walkOn
    exact h
  | succ n ih =>
    unfold Machine.walkOn
    split
    next s₁ e₁ =>
      have h₁ := Evolves.of_snd (.walkStep h) e₁
      exact ih h₁
    next s₂ e₂ =>
      have h₂ := Evolves.of_snd (.walkStep h) e₂
      exact h₂
    · exact .walkStep h

theorem Evolves.fillLeaf {w : Walk} {e : Word} {lvl : ℕ} (h : Evolves s₀ s) : Evolves s₀ (fillLeaf w e lvl s) :=
  .fillMicro (.fillTlb h)

theorem Evolves.updWalk {id : ℕ} {f : Walk → Walk} (h : Evolves s₀ s) : Evolves s₀ (updWalk id f s) := by
  unfold Machine.updWalk
  exact .frame h

theorem Evolves.dropWalk {id : ℕ} (h : Evolves s₀ s) : Evolves s₀ (dropWalk id s) := by
  unfold Machine.dropWalk
  exact .frame h

theorem Evolves.giveWalkers {wheel n : ℕ} (h : Evolves s₀ s) : Evolves s₀ (giveWalkers wheel n s) := by
  induction n generalizing s with
  | zero =>
    unfold Machine.giveWalkers
    exact h
  | succ n ih =>
    unfold Machine.giveWalkers
    split
    · exact h
    · split
      · exact h
      · exact ih (.updWalk (.frame h))

theorem Evolves.queueWalk {cl : XClient} {r : BitVec 6} {va : Word} {write hit : Bool} {lvl table : ℕ}
    {acc : Option Access} (h : Evolves s₀ s) : Evolves s₀ (queueWalk cl r va write hit lvl table acc s) := by
  unfold Machine.queueWalk
  exact .ite h (.giveWalkers (.frame h))

theorem Evolves.translate {cl : XClient} {r : BitVec 6} {va : Word} {write : Bool} (h : Evolves s₀ s) :
    Evolves s₀ (Machine.translate s cl r va write).2 := by
  unfold Machine.translate
  dsimp only
  split
  · exact h
  · split
    · exact h
    · split
      · exact h
      · split
        · exact .ite h (.queueWalk h)
        · split
          next s₁ e₁ =>
            have h₁ := OptSndOk.of_some (.xlatHit h) e₁
            split
            · exact .ite h (.queueWalk h)
            · dsimp only
              split
              · exact .giveWalkers (.dropWalk h₁)
              · exact h₁
          · split
            · exact .updWalk (.ite h (.queueWalk h))
            · split
              next s₂ e₂ =>
                have h₂ := Evolves.of_snd (.walkOn h) e₂
                dsimp only
                split
                · exact .giveWalkers (.dropWalk (.fillLeaf h₂))
                · exact .fillLeaf h₂
              next s₃ e₃ =>
                have h₃ := Evolves.of_snd (.walkOn h) e₃
                dsimp only
                split
                · exact .giveWalkers (.dropWalk h₃)
                · exact h₃
              next s₄ e₄ =>
                have h₄ := Evolves.of_snd (.walkOn h) e₄
                exact .ite (.updWalk h₄) (.updWalk (.ite h₄ (.queueWalk h₄)))
              next s₅ e₅ =>
                have h₅ := Evolves.of_snd (.walkOn h) e₅
                exact h₅

theorem Evolves.treeDone {c : Cmd} (h : Evolves s₀ s) : Evolves s₀ (treeDone c s) := by
  unfold Machine.treeDone
  exact .frame h

theorem Evolves.put {q : Rq} {off : ℕ} {e : Word} {x : Extent} (h : Evolves s₀ s) :
    Evolves s₀ (tableWrite.put s q off e x).2 := by
  unfold Machine.tableWrite.put
  split
  next s₁ e₁ =>
    have h₁ := WrOk.of_done (.writeAt h) e₁
    exact h₁
  · exact h
  · exact .recUncorr h
  · exact h

theorem Evolves.tableWrite {q : Rq} {off : ℕ} {e : Word} (h : Evolves s₀ s) : Evolves s₀ (tableWrite s q off e).2 := by
  unfold Machine.tableWrite
  split
  · exact h
  · split
    · exact h
    · split
      · exact h
      · split
        · exact .ite_snd (.put h) h
        · exact .put h

theorem EffOk.waitLines {lines : List ℕ} {write : Bool} {op : ℕ} {c : Cmd} (h : Evolves s₀ s) :
    EffOk s₀ (waitLines lines write op c s) := by
  unfold Machine.waitLines
  exact .later (.frame (.foldl h (fun _ _ => .tableTurn)))

theorem EffOk.waitFor {op : ℕ} {c : Cmd} (h : Evolves s₀ s) : EffOk s₀ (waitFor op c s) := by
  unfold Machine.waitFor
  exact .later (.frame h)

theorem Evolves.writeLeaves {q : Rq} {leaf : ℕ → Word} {l : List (ℕ × ℕ)} (h : Evolves s₀ s) :
    Evolves s₀ (writeLeaves q leaf l s).2 := by
  induction l generalizing s with
  | nil =>
    unfold Machine.writeLeaves
    exact h
  | cons x xs ih =>
    unfold Machine.writeLeaves
    split
    next s₁ e₁ =>
      have h₁ := Evolves.of_snd (.tableWrite h) e₁
      exact ih h₁
    next s₂ e₂ =>
      have h₂ := Evolves.of_snd (.tableWrite h) e₂
      exact h₂

theorem EffOk.mapWrite {c : Cmd} {slots : List ℕ} (h : Evolves s₀ s) : EffOk s₀ (mapWrite c slots s) := by
  unfold Machine.mapWrite
  dsimp only
  split
  next s₁ e₁ =>
    have h₁ := Evolves.of_snd (.writeLeaves h) e₁
    exact .res (.treeDone h₁)
  next s₂ e₂ =>
    have h₂ := Evolves.of_snd (.writeLeaves h) e₂
    exact .res (.treeDone (.writeLeaves h₂))

theorem EffOk.bodyMapRange {a : Cmd} (h : Evolves s₀ s) : EffOk s₀ (bodyMapRange a s) := by
  unfold Machine.bodyMapRange
  dsimp only
  split
  · exact .stat h
  · split
    · exact .waitFor h
    · split
      · exact .stat (.treeDone h)
      · exact .res (.treeDone (.logTable h))
      · exact .waitLines h
      · exact .ite (.mapWrite h) (.waitLines h)

theorem Evolves.writeAll {q : Rq} {l : List (ℕ × Option (ℕ × Word) × ℕ × ℕ)} (h : Evolves s₀ s) :
    Evolves s₀ (writeAll q l s).2 := by
  induction l generalizing s with
  | nil => exact h
  | cons x xs ih =>
    obtain ⟨va, slot, off, reason⟩ := x
    cases slot
    · exact ih h.logTable
    · exact ih h.tableWrite

theorem Evolves.dropXlat {r : BitVec 6} {lo hi : ℕ} (h : Evolves s₀ s) : Evolves s₀ (dropXlat r lo hi s) := by
  unfold Machine.dropXlat
  exact .parts h h.store (.updIf h.tiles (fun _ => .frame))

theorem Evolves.endUnmap {u : Unmap} (h : Evolves s₀ s) : Evolves s₀ (endUnmap u s) := by
  unfold Machine.endUnmap
  dsimp only
  refine .completeIf ?_
  split
  · exact .frame h
  · exact .frame h
  · exact .frame h

theorem Evolves.runUnmap {u : Unmap} (h : Evolves s₀ s) : Evolves s₀ (runUnmap u s) := by
  unfold Machine.runUnmap
  exact .ite (.endUnmap (.frame (.dropXlat h))) (.frame (.dropXlat h))

theorem Evolves.newUnmap {o : Open} {r : BitVec 6} {lo len : ℕ} {root : Option (Option ℕ)} {frozen : List (ℕ × ℕ)}
    (h : Evolves s₀ s) : Evolves s₀ (newUnmap o r lo len root frozen s).2 := by
  unfold Machine.newUnmap
  exact .frame h

theorem EffOk.goUnmap {u : Unmap} {c : Cmd} (h : Evolves s₀ s) : EffOk s₀ (goUnmap u c s) := by
  unfold Machine.goUnmap
  dsimp only
  split
  · exact .later (.runUnmap (.treeDone h))
  · split
    · exact .waitLines h
    · exact .ite (.waitLines h) (.later (.runUnmap (.treeDone (.writeAll h))))

theorem EffOk.bodyUnmapRange {a : Cmd} (h : Evolves s₀ s) : EffOk s₀ (bodyUnmapRange a s) := by
  unfold Machine.bodyUnmapRange
  dsimp only
  split
  · exact .goUnmap h
  · split
    · exact .stat h
    · split
      · exact .stat h
      · split
        · exact .waitFor h
        · split
          · exact .waitLines h
          · exact .ite (.stat (.treeDone h)) (.goUnmap (.newUnmap h))

theorem EffOk.bodyPtBaseSet {a : Cmd} (h : Evolves s₀ s) : EffOk s₀ (bodyPtBaseSet a s) := by
  unfold Machine.bodyPtBaseSet
  dsimp only
  split
  · exact .stat h
  · split
    · exact .waitFor h
    · split
      · exact .later (.runUnmap (.newUnmap h))
      · split
        · exact .ok (.frame h)
        · exact .ok h

theorem OutOk.execUnmapEngineAck {id : ℕ} {e : EngineRef} (h : Evolves s₀ s) : OutOk s₀ (execUnmapEngineAck id e s) := by
  unfold Machine.execUnmapEngineAck
  refine .next ?_
  refine .whenUp h fun _ h₅ => ?_
  split
  · exact h₅
  · exact .ite h₅ (.ite (.endUnmap (.frame h₅)) (.frame h₅))

theorem Evolves.cmdAddr {b : Hdr} {a : Word} {write : Bool} (h : Evolves s₀ s) : Evolves s₀ (cmdAddr s b a write).2 := by
  unfold Machine.cmdAddr
  split
  · split
    · exact h
    · split
      · exact h
      · split
        · exact h
        · split
          next s₁ e₁ =>
            have h₁ := Evolves.of_snd (.translate h) e₁
            exact .xlatFault h₁
          · exact .translate h
  · exact h

/-! ### Queue -/

theorem Evolves.virtRead {cl : XClient} {q : Rq} {va : Word} {len : ℕ} (h : Evolves s₀ s) :
    Evolves s₀ (virtRead s cl q va len).2 := by
  unfold Machine.virtRead
  refine .foldl_snd h fun _ _ h₃ => ?_
  split
  · split
    next s₄ e₄ =>
      have h₄ := Evolves.of_snd (.translate h₃) e₄
      exact h₄
    next s₅ e₅ =>
      have h₅ := Evolves.of_snd (.translate h₃) e₅
      exact h₅
    next s₆ e₆ =>
      have h₆ := Evolves.of_snd (.translate h₃) e₆
      exact .xlatFault h₆
    next s₇ e₇ =>
      have h₇ := Evolves.of_snd (.translate h₃) e₇
      split
      · split
        next s₈ e₈ =>
          have h₈ := Evolves.of_snd (.homeRead h₇) e₈
          exact h₈
        · exact .homeRead h₇
      · exact .badOpa h₇
      · exact h₇
  · exact h₃

theorem Evolves.virtWrite {cl : XClient} {q : Rq} {va : Word} {bs : List Byte} (h : Evolves s₀ s) :
    Evolves s₀ (virtWrite s cl q va bs).2 := by
  unfold Machine.virtWrite
  refine .foldl_snd h fun _ _ h₃ => ?_
  split
  · split
    next s₄ e₄ =>
      have h₄ := Evolves.of_snd (.translate h₃) e₄
      exact h₄
    next s₅ e₅ =>
      have h₅ := Evolves.of_snd (.translate h₃) e₅
      exact h₅
    next s₆ e₆ =>
      have h₆ := Evolves.of_snd (.translate h₃) e₆
      exact .xlatFault h₆
    next s₇ e₇ =>
      have h₇ := Evolves.of_snd (.translate h₃) e₇
      split
      · exact .homeWrite h₇
      · exact .badOpa h₇
      · exact h₇
  · exact h₃

theorem Evolves.writeCounter {cl : XClient} {q : Rq} {va v : Word} (h : Evolves s₀ s) :
    Evolves s₀ (writeCounter cl q va v s) := by
  unfold Machine.writeCounter
  split
  next s₁ e₁ =>
    have h₁ := Evolves.of_snd (.virtWrite h) e₁
    exact .frame h₁
  next s₂ _ e₂ =>
    have h₂ := Evolves.of_snd (.virtWrite h) e₂
    exact h₂

theorem Evolves.flushLate {l : List LateWrite} (h : Evolves s₀ s) : Evolves s₀ (flushLate l s) := by
  induction l generalizing s with
  | nil =>
    unfold Machine.flushLate
    exact h
  | cons x xs ih =>
    unfold Machine.flushLate
    dsimp only
    split
    next s₁ e₁ =>
      have h₁ := Evolves.of_snd (.virtWrite h) e₁
      exact .frame h₁
    next s₂ _ e₂ =>
      have h₂ := Evolves.of_snd (.virtWrite h) e₂
      exact ih h₂

theorem Evolves.updRing {r : BitVec 6} {f : Machine.Ring → Machine.Ring} (h : Evolves s₀ s) : Evolves s₀ (updRing r f s) := by
  unfold Machine.updRing
  exact .frame h

theorem Evolves.writeEvent {x : Machine.Ring} {e : Event} {time : Word} (h : Evolves s₀ s) :
    Evolves s₀ (writeEvent x e time s).2 := by
  unfold Machine.writeEvent
  dsimp only
  split
  next s₁ e₁ =>
    have h₁ := Evolves.of_snd (.virtWrite h) e₁
    exact .writeCounter (.updRing h₁)
  · exact .virtWrite h

theorem Evolves.flushRing {l : List (Event × Word)} {a : BitVec 6} (h : Evolves s₀ s) : Evolves s₀ (flushRing l a s) := by
  induction l generalizing a s with
  | nil =>
    unfold Machine.flushRing
    exact .updRing h
  | cons x xs ih =>
    unfold Machine.flushRing
    split
    · exact h
    · split
      · exact ih (.updRing h)
      · split
        next s₁ e₁ =>
          have h₁ := Evolves.of_snd (.writeEvent h) e₁
          exact ih h₁
        next s₂ e₂ =>
          have h₂ := Evolves.of_snd (.writeEvent h) e₂
          exact ih (.updRing h₂)
        next s₃ e₃ =>
          have h₃ := Evolves.of_snd (.writeEvent h) e₃
          exact .updRing h₃

theorem Evolves.serveRing {r : BitVec 6} (h : Evolves s₀ s) : Evolves s₀ (serveRing r s) := by
  unfold Machine.serveRing
  split
  · exact h
  · split
    · split
      next s₁ e₁ =>
        have h₁ := Evolves.of_snd (.writeEvent h) e₁
        exact .flushRing (.updRing h₁)
      next s₂ e₂ =>
        have h₂ := Evolves.of_snd (.writeEvent h) e₂
        exact .updRing h₂
      next s₃ e₃ =>
        have h₃ := Evolves.of_snd (.writeEvent h) e₃
        exact h₃
    · exact .flushRing h

theorem Evolves.postEvent {r : BitVec 6} {e : Event} (h : Evolves s₀ s) : Evolves s₀ (postEvent r e s) :=
  .serveRing (.updRing h)

theorem Evolves.updQueue {q : BitVec 13} {f : Queue → Queue} (h : Evolves s₀ s) : Evolves s₀ (updQueue q f s) := by
  unfold Machine.updQueue
  exact .frame h

theorem Evolves.queueError {q : BitVec 13} {cause : ℕ} {st : Status} (h : Evolves s₀ s) :
    Evolves s₀ (queueError q cause st s) := by
  unfold Machine.queueError
  split
  · exact h
  · exact .ite h (.postEvent (.updQueue h))

theorem Evolves.checkRegion {cl : XClient} {r : BitVec 6} {n n₁ : ℕ} (h : Evolves s₀ s) :
    Evolves s₀ (checkRegion cl r n n₁ s).2 := by
  induction n generalizing n₁ s with
  | zero =>
    unfold Machine.checkRegion
    exact h
  | succ n ih =>
    unfold Machine.checkRegion
    split
    next s₁ e₁ =>
      have h₁ := Evolves.of_snd (.translate h) e₁
      exact h₁
    next s₂ e₂ =>
      have h₂ := Evolves.of_snd (.translate h) e₂
      exact h₂
    next s₃ e₃ =>
      have h₃ := Evolves.of_snd (.translate h) e₃
      exact .xlatFault h₃
    next s₄ e₄ =>
      have h₄ := Evolves.of_snd (.translate h) e₄
      exact .ite_snd (ih h₄) h₄

theorem Evolves.checkRegions {cl : XClient} {r : BitVec 6} {l : List (ℕ × ℕ)} (h : Evolves s₀ s) :
    Evolves s₀ (checkRegions cl r l s).2 := by
  induction l generalizing s with
  | nil =>
    unfold Machine.checkRegions
    exact h
  | cons x xs ih =>
    unfold Machine.checkRegions
    split
    next s₁ e₁ =>
      have h₁ := Evolves.of_snd (.checkRegion h) e₁
      exact ih h₁
    · exact .checkRegion h

theorem Evolves.hangBell {cl : XClient} {r : BitVec 6} {va : Word} (h : Evolves s₀ s) : Evolves s₀ (hangBell cl r va s) := by
  unfold Machine.hangBell
  split
  next s₁ e₁ =>
    have h₁ := Evolves.of_snd (.translate h) e₁
    split
    · exact .frame h₁
    · exact h₁
  next s₂ _ e₂ =>
    have h₂ := Evolves.of_snd (.translate h) e₂
    exact h₂

theorem EffOk.bodyQueueCreate {a : Cmd} (h : Evolves s₀ s) : EffOk s₀ (bodyQueueCreate a s) := by
  unfold Machine.bodyQueueCreate
  dsimp only
  split
  · split
    · exact .stat h
    · split
      next s₁ e₁ =>
        have h₁ := Evolves.of_snd (.checkRegions h) e₁
        exact .stat h₁
      next s₂ e₂ =>
        have h₂ := Evolves.of_snd (.checkRegions h) e₂
        exact .waitFor h₂
      next s₃ e₃ =>
        have h₃ := Evolves.of_snd (.checkRegions h) e₃
        exact .ite (.stat h₃) (.ok (.hangBell (.frame h₃)))
  · split
    · exact .stat h
    · split
      next s₄ e₄ =>
        have h₄ := Evolves.of_snd (.checkRegions h) e₄
        exact .stat h₄
      next s₅ e₅ =>
        have h₅ := Evolves.of_snd (.checkRegions h) e₅
        exact .waitFor h₅
      next s₆ e₆ =>
        have h₆ := Evolves.of_snd (.checkRegions h) e₆
        split
        · exact .stat h₆
        · exact .res (.hangBell (.frame h₆))

theorem OptOk.tryDestroy {o : Open} {q : BitVec 13} (h : Evolves s₀ s) : OptOk s₀ (tryDestroy o q s) := by
  unfold Machine.tryDestroy
  exact .ite (.some (.completeIf (.frame h))) .none

theorem EffOk.bodyQueueDestroy {a : Cmd} (h : Evolves s₀ s) : EffOk s₀ (bodyQueueDestroy a s) := by
  unfold Machine.bodyQueueDestroy
  dsimp only
  split
  · exact .stat h
  · split
    · exact .ite (.ok (.frame h)) (.stat h)
    · split
      · exact .stat h
      · split
        · exact .stat h
        · split
          · exact .stat h
          · split
            next s₁ e₁ =>
              have h₁ := OptOk.of_some (.tryDestroy (.updQueue h)) e₁
              exact .later h₁
            · exact .later (.frame (.updQueue h))

theorem Evolves.ringRead {x : Queue} {slot n : ℕ} (h : Evolves s₀ s) : Evolves s₀ (ringRead s x slot n).2 := by
  unfold Machine.ringRead
  dsimp only
  split
  next s₁ e₁ =>
    have h₁ := Evolves.of_snd (.virtRead h) e₁
    split
    · exact h₁
    · split
      next s₂ e₂ =>
        have h₂ := Evolves.of_snd (.virtRead h₁) e₂
        exact h₂
      · exact .virtRead h₁
  · exact .virtRead h

theorem Evolves.preWalk {q : BitVec 13} {r : BitVec 6} {slot : Word} {write : Bool} {n n₁ : ℕ} (h : Evolves s₀ s) :
    Evolves s₀ (preWalk q r slot write n n₁ s).2 := by
  induction n generalizing n₁ s with
  | zero =>
    unfold Machine.preWalk
    exact h
  | succ n ih =>
    unfold Machine.preWalk
    dsimp only
    split
    · exact ih h
    · split
      next s₁ e₁ =>
        have h₁ := Evolves.of_snd (.translate h) e₁
        exact ih (.updQueue h₁)
      next s₂ e₂ =>
        have h₂ := Evolves.of_snd (.translate h) e₂
        exact h₂
      next s₃ e₃ =>
        have h₃ := Evolves.of_snd (.translate h) e₃
        exact h₃
      next s₄ e₄ =>
        have h₄ := Evolves.of_snd (.translate h) e₄
        exact .xlatFault h₄

theorem Evolves.preWalks {q : BitVec 13} {r : BitVec 6} {slot : Word} {l : List (ℕ × ℕ × Bool)} (h : Evolves s₀ s) :
    Evolves s₀ (preWalks q r slot l s).2 := by
  induction l generalizing s with
  | nil =>
    unfold Machine.preWalks
    exact h
  | cons x xs ih =>
    unfold Machine.preWalks
    split
    next s₁ e₁ =>
      have h₁ := Evolves.of_snd (.preWalk h) e₁
      exact ih h₁
    · exact .preWalk h

theorem Evolves.preTranslate {q : BitVec 13} {n : ℕ} (h : Evolves s₀ s) : Evolves s₀ (preTranslate q n s) := by
  induction n generalizing s with
  | zero =>
    unfold Machine.preTranslate
    exact h
  | succ n ih =>
    unfold Machine.preTranslate
    split
    · exact h
    · dsimp only
      split
      · exact h
      · split
        next s₁ e₁ =>
          have h₁ := Evolves.of_snd (.ringRead h) e₁
          exact h₁
        next s₂ e₂ =>
          have h₂ := Evolves.of_snd (.ringRead h) e₂
          exact .updQueue h₂
        next s₃ e₃ =>
          have h₃ := Evolves.of_snd (.ringRead h) e₃
          split
          · exact .updQueue h₃
          · split
            · exact h₃
            · split
              next s₄ e₄ =>
                have h₄ := Evolves.of_snd (.ringRead h₃) e₄
                exact h₄
              next s₅ e₅ =>
                have h₅ := Evolves.of_snd (.ringRead h₃) e₅
                exact .updQueue h₅
              next s₆ e₆ =>
                have h₆ := Evolves.of_snd (.ringRead h₃) e₆
                split
                next s₇ e₇ =>
                  have h₇ := Evolves.of_snd (.preWalks h₆) e₇
                  exact h₇
                next s₈ e₈ =>
                  have h₈ := Evolves.of_snd (.preWalks h₆) e₈
                  exact ih (.updQueue h₈)
                next s₉ e₉ =>
                  have h₉ := Evolves.of_snd (.preWalks h₆) e₉
                  exact ih (.updQueue (.updQueue h₉))

theorem Evolves.pumpPre {q : BitVec 13} (h : Evolves s₀ s) : Evolves s₀ (pumpPre q s) := by
  unfold Machine.pumpPre
  split
  · exact .preTranslate h
  · exact h

theorem Evolves.tailStored {q : BitVec 13} {x : Queue} {value : Word} (h : Evolves s₀ s) :
    Evolves s₀ (tailStored q x value s) :=
  .ite (.ite (.wakeUp h) h) (.ite (.queueError (.ite (.wakeUp h) h)) (.pumpPre (.updQueue (.ite (.wakeUp h) h))))

theorem Evolves.ringDoorbell {q : BitVec 13} {value : Word} (h : Evolves s₀ s) : Evolves s₀ (ringDoorbell q value s) := by
  unfold Machine.ringDoorbell
  split
  · exact h
  · exact .tailStored (.writeCounter h)

theorem Evolves.cqHeadStore {ring : Bool} {q : BitVec 13} {value : Word} (h : Evolves s₀ s) :
    Evolves s₀ (cqHeadStore ring q value s) := by
  unfold Machine.cqHeadStore
  split
  · dsimp only
    split
    · exact h
    · exact .serveRing (.updRing (.writeCounter h))
  · split
    · exact h
    · exact .updQueue (.writeCounter h)

theorem Evolves.pumpBell {b : Bell} (h : Evolves s₀ s) : Evolves s₀ (pumpBell b s) := by
  unfold Machine.pumpBell
  split
  · exact h
  · dsimp only
    split
    · split
      · refine .tailStored ?_
        split
        · exact .updQueue (.frame h)
        · exact .frame h
      · split
        · exact .updQueue (.frame h)
        · exact .frame h
    · split
      · exact .serveRing (.updRing (.frame h))
      · exact .frame h
    · exact .frame h

theorem Evolves.pumpBells (h : Evolves s₀ s) : Evolves s₀ (pumpBells s) := by
  unfold Machine.pumpBells
  exact .foldl (.frame h) (fun _ _ => .pumpBell)

theorem Evolves.postPayload {x : Queue} {r : Reply} (h : Evolves s₀ s) : Evolves s₀ (postPayload x r s).2 := by
  unfold Machine.postPayload
  split
  · exact h
  · split
    next s₁ e₁ =>
      have h₁ := Evolves.of_snd (.virtWrite h) e₁
      exact h₁
    next s₂ e₂ =>
      have h₂ := Evolves.of_snd (.virtWrite h) e₂
      exact h₂
    next s₃ e₃ =>
      have h₃ := Evolves.of_snd (.virtWrite h) e₃
      exact .queueError h₃

theorem Evolves.postEntry {x : Queue} {r : Reply} (h : Evolves s₀ s) : Evolves s₀ (postEntry x r s) := by
  unfold Machine.postEntry
  dsimp only
  split
  next s₁ e₁ =>
    have h₁ := Evolves.of_snd (.virtWrite h) e₁
    exact h₁
  next s₂ e₂ =>
    have h₂ := Evolves.of_snd (.virtWrite h) e₂
    exact .updQueue (.queueError h₂)
  next s₃ e₃ =>
    have h₃ := Evolves.of_snd (.virtWrite h) e₃
    exact .ite (.postEvent (.writeCounter (.updQueue (.updQueue h₃)))) (.writeCounter (.updQueue (.updQueue h₃)))

theorem Evolves.releaseRuns {q : BitVec 13} (h : Evolves s₀ s) : Evolves s₀ (releaseRuns q s) := .updQueue h

theorem Evolves.postReply {q : BitVec 13} (h : Evolves s₀ s) : Evolves s₀ (postReply q s) := by
  unfold Machine.postReply
  split
  · exact h
  · split
    · exact h
    · split
      · exact h
      · split
        next s₁ e₁ =>
          have h₁ := Evolves.of_snd (.postPayload h) e₁
          exact h₁
        next s₂ e₂ =>
          have h₂ := Evolves.of_snd (.postPayload h) e₂
          exact .releaseRuns (.postEntry h₂)

/-! ### Lap -/

theorem Evolves.fenceExt {r : BitVec 6} {idx : ℕ} (h : Evolves s₀ s) : Evolves s₀ (fenceExt r idx s) := by
  unfold Machine.fenceExt
  split
  · exact .ite h (.postEvent (.updExt h))
  · exact h

theorem Evolves.lapUse {r : BitVec 6} {idx : ℕ} (h : Evolves s₀ s) : Evolves s₀ (lapUse r idx s) := by
  unfold Machine.lapUse
  dsimp only
  split
  · exact h
  · exact .ite (.corrected h) (.ite h (.fenceExt (.reapLaps (.updExt (.abandonLap (.detect h))))))

theorem EffOk.lapCommand {op : ℕ} {c : Cmd} {form write : Bool} {body : List ℕ → State → Eff} (h : Evolves s₀ s)
    (hg : ∀ (a : List ℕ) (t : State), Evolves s₀ t → EffOk s₀ (body a t)) :
    EffOk s₀ (lapCommand op c form write s body) := by
  unfold Machine.lapCommand
  split
  · exact .stat h
  · split
    · exact .stat h
    · exact .ite (.waitFor h) (hg _ _ (.foldl h (fun _ _ => .lapUse)))

theorem EffOk.lapAnswer {st : Status} {c : Cmd} {idxs : List ℕ} (h : Evolves s₀ s) : EffOk s₀ (lapAnswer st c idxs s) :=
  .data h

theorem Evolves.forExts {idxs : List ℕ} {f : ℕ → State → State} (h : Evolves s₀ s)
    (hf : ∀ (a : ℕ) (t : State), Evolves s₀ t → Evolves s₀ (f a t)) : Evolves s₀ (forExts idxs s f) :=
  .foldl h (fun _ _ h₁ => hf _ _ h₁)

theorem Evolves.openLap {r : BitVec 6} {k : BitVec 32} {idx : ℕ} (h : Evolves s₀ s) : Evolves s₀ (openLap r k idx s) :=
  .reapLaps (.updExt h)

theorem EffOk.bodyLapOpen {a : Cmd} (h : Evolves s₀ s) : EffOk s₀ (bodyLapOpen a s) :=
  .lapCommand h (fun _ _ h₁ => .ite (.lapAnswer h₁) (.lapAnswer (.forExts h₁ (fun _ _ => .openLap))))

theorem Evolves.beginLap {r : BitVec 6} {n idx : ℕ} (h : Evolves s₀ s) : Evolves s₀ (beginLap r n idx s) := .updExt h

theorem EffOk.bodyLapBeginWrite {a : Cmd} (h : Evolves s₀ s) : EffOk s₀ (bodyLapBeginWrite a s) :=
  .lapCommand h (fun _ _ h₁ => .ite (.lapAnswer h₁) (.ite (.lapAnswer h₁) (.lapAnswer (.forExts h₁ (fun _ _ =>
    .beginLap)))))

theorem Evolves.closeRead {r : BitVec 6} {idx : ℕ} (h : Evolves s₀ s) : Evolves s₀ (closeRead r idx s) :=
  .reapLaps (.updExt h)

theorem Evolves.abandonOwn {r : BitVec 6} {idx : ℕ} (h : Evolves s₀ s) : Evolves s₀ (abandonOwn r idx s) := by
  unfold Machine.abandonOwn
  split
  · split
    · exact .ite (.abandonLap h) h
    · exact h
  · exact h

theorem EffOk.bodyLapClose {a : Cmd} (h : Evolves s₀ s) : EffOk s₀ (bodyLapClose a s) := by
  unfold Machine.bodyLapClose
  dsimp only
  refine .lapCommand h fun _ _ h₇ => ?_
  refine .lapAnswer ?_
  refine .forExts h₇ fun _ _ h₁₂ => ?_
  split
  · exact .abandonOwn h₁₂
  · exact .closeRead h₁₂

theorem Evolves.setClosed {b : Bool} {idx : ℕ} (h : Evolves s₀ s) : Evolves s₀ (setClosed b idx s) := .updExt h

theorem Evolves.recallExts {idxs : List ℕ} (h : Evolves s₀ s) : Evolves s₀ (recallExts idxs s) :=
  .foldl h (fun _ _ => .startRecall)

theorem Evolves.tryCommit {o : Open} {r : BitVec 6} {exts : List (ℕ × BitVec 32)} {step : ℕ} {prepared : Bool}
    (h : Evolves s₀ s) : Evolves s₀ (tryCommit o r exts step prepared s).1 :=
  .ite_fst (.completeIf (.forExts h (fun _ _ => .setClosed))) (.ite_fst h (.ite_fst (.recallExts h) (.ite_fst
    (.ite_fst h (.emit h)) (.completeIf (.ite (.emit (.forExts h (fun _ _ => .commitLap))) (.forExts h (fun _ _ =>
    .commitLap)))))))

theorem Evolves.addJob {p : State × Option Job} (h : Evolves s₀ p.1) : Evolves s₀ (addJob p) := by
  unfold Machine.addJob
  split
  · exact .frame h
  · exact h

theorem EffOk.bodyLapCommit {a : Cmd} (h : Evolves s₀ s) : EffOk s₀ (bodyLapCommit a s) :=
  .lapCommand h (fun _ _ h₁ => .ite (.lapAnswer h₁) (.later (.addJob (.tryCommit (.forExts h₁ (fun _ _ =>
    .setClosed))))))

theorem Evolves.releaseMark {r : BitVec 6} {surr : Bool} (h : Evolves s₀ s) : Evolves s₀ (releaseMark r surr s) := by
  unfold Machine.releaseMark
  split
  · exact h
  · exact .forExts (.frame h) (fun _ _ => .reapLaps)

theorem EffOk.bodyStageMark {a : Cmd} (h : Evolves s₀ s) : EffOk s₀ (bodyStageMark a s) := by
  unfold Machine.bodyStageMark
  exact .ite (.stat h) (.ite (.ite (.stat h) (.ite (.waitFor h) (.lapAnswer (.releaseMark h)))) (.ite (.stat h) (.ite
    (.waitFor h) (.lapAnswer (.forExts (.frame h) (fun _ _ => .reapLaps))))))

theorem Evolves.rollLap {e : ℕ × BitVec 32} (h : Evolves s₀ s) : Evolves s₀ (rollLap e s) := by
  unfold Machine.rollLap
  split
  · exact h
  · split
    · exact h
    · split
      · exact h
      · exact .switchLap h

theorem Evolves.tryRollback {o : Open} {r : BitVec 6} {exts : List (ℕ × BitVec 32)} {step : ℕ} {prepared : Bool}
    (h : Evolves s₀ s) : Evolves s₀ (tryRollback o r exts step prepared s).1 :=
  .ite_fst h (.ite_fst (.recallExts h) (.ite_fst (.ite_fst h (.emit h)) (.completeIf (.ite (.emit (.foldl h (fun _ _
    => .rollLap))) (.foldl h (fun _ _ => .rollLap))))))

theorem EffOk.bodyStageRollback {a : Cmd} (h : Evolves s₀ s) : EffOk s₀ (bodyStageRollback a s) := by
  unfold Machine.bodyStageRollback
  dsimp only
  split
  · exact .stat h
  · exact .ite (.stat h) (.ite (.waitFor h) (.ite (.stat h) (.later (.addJob (.tryRollback (.forExts h (fun _ _ =>
      .abandonOwn)))))))

/-! ### TileBase -/

theorem Evolves.updCtx {t : BitVec 10} {c : BitVec 4} {f : Ctx → Ctx} (h : Evolves s₀ s) : Evolves s₀ (updCtx t c f s) := by
  unfold Machine.updCtx
  exact .updTile h (fun _ => .frame)

theorem TileOk.sched {x : Tile} {c : ℕ} (h : TileOk s₀ x) : TileOk s₀ (x.sched c) := by
  unfold Machine.Tile.sched
  split
  · exact h
  · split
    · exact .frame h
    · exact h

theorem Evolves.setCtxSt {t : BitVec 10} {c : BitVec 4} {st : CtxSt} (h : Evolves s₀ s) : Evolves s₀ (setCtxSt t c st s) := by
  unfold Machine.setCtxSt
  exact .updTile h (fun _ h₁ => .sched (.frame h₁))

theorem Evolves.makeReady {t : BitVec 10} {c : BitVec 4} (h : Evolves s₀ s) : Evolves s₀ (makeReady t c s) := by
  unfold Machine.makeReady
  split
  · exact .ite (.setCtxSt (.updCtx h)) (.updCtx h)
  · exact h

theorem Evolves.setSyncVal {obj : ℕ} {v : Word} (h : Evolves s₀ s) : Evolves s₀ (setSyncVal obj v s) := by
  unfold Machine.setSyncVal
  exact .frame h

theorem TileOk.cacheDrop {va len : ℕ} {x : Tile} (h : TileOk s₀ x) : TileOk s₀ (cacheDrop va len x) := by
  unfold Machine.cacheDrop
  exact .frame h

theorem TileOk.acquire {x : Tile} {base len : ℕ} (h : TileOk s₀ x) : TileOk s₀ (x.acquire base len) :=
  .ite h (.ite (.cacheDrop h) (.cacheDrop h))

theorem Evolves.endCtxWait {t : BitVec 10} {c : BitVec 4} {held : Bool} (h : Evolves s₀ s) :
    Evolves s₀ (endCtxWait t c held s) := by
  unfold Machine.endCtxWait
  split
  · exact h
  · split
    · exact .makeReady (.updCtx (.ite (.updTile h (fun _ => .acquire)) h))
    · exact h

theorem Evolves.endWait {held : Bool} {w : Wait} (h : Evolves s₀ s) : Evolves s₀ (endWait held w s) := by
  unfold Machine.endWait
  split
  · exact .endCtxWait h
  · exact .completeIf h

theorem Evolves.testWaits {obj : ℕ} (h : Evolves s₀ s) : Evolves s₀ (testWaits obj s) := by
  unfold Machine.testWaits
  exact .foldl (.frame h) (fun _ _ => .endWait)

theorem Evolves.syncPut {obj : ℕ} {v : Word} (h : Evolves s₀ s) : Evolves s₀ (syncPut obj v s) :=
  .testWaits (.setSyncVal h)

theorem Evolves.syncUse {obj : ℕ} (h : Evolves s₀ s) : Evolves s₀ (syncUse obj s) := by
  unfold Machine.syncUse
  dsimp only
  split
  · exact h
  · exact .ite (.corrected h) (.ite h (.syncPut (.detect h)))

theorem Evolves.syncWrite {obj : ℕ} {v : Word} (h : Evolves s₀ s) : Evolves s₀ (syncWrite obj v s) :=
  .syncPut (.syncUse h)

theorem Evolves.syncAdd {obj : ℕ} {v : Word} (h : Evolves s₀ s) : Evolves s₀ (syncAdd obj v s) := .syncPut (.syncUse h)

theorem Evolves.syncZero {obj : ℕ} (h : Evolves s₀ s) : Evolves s₀ (syncZero obj s) := by
  unfold Machine.syncZero
  exact .setSyncVal (.foldl (.frame h) (fun _ _ => .endWait))

theorem Evolves.signalField {f : ℕ} (h : Evolves s₀ s) : Evolves s₀ (signalField f s) := .ite (.syncAdd h) h

theorem Evolves.syncStore {r : BitVec 6} {obj : ℕ} {bs : List Byte} (h : Evolves s₀ s) :
    Evolves s₀ (syncStore s r obj bs).2 := by
  unfold Machine.syncStore
  split
  · exact h
  · split
    · exact h
    · exact .foldl h (fun _ _ => .syncWrite)

theorem Evolves.ctxFaultAt {point : BitVec 16} {t : BitVec 10} {c : BitVec 4} {pc : ℕ} {st : Status} {stream : ℕ}
    {va off arg1 : Word} (h : Evolves s₀ s) : Evolves s₀ (ctxFaultAt point t c pc st stream va off arg1 s) := by
  unfold Machine.ctxFaultAt
  split
  · exact h
  · split
    · exact h
    · exact .ite h (.signalField (.postEvent (.detect (.updTile h (fun _ h₁ => .sched (.frame h₁))))))

theorem Evolves.ctxFault {t : BitVec 10} {c : BitVec 4} {pc : ℕ} {st : Status} {stream : ℕ} {va off arg1 : Word}
    (h : Evolves s₀ s) : Evolves s₀ (ctxFault t c pc st stream va off arg1 s) :=
  .ctxFaultAt h

/-! ### Tier -/

theorem Evolves.dropOpen {o : Open} (h : Evolves s₀ s) : Evolves s₀ (dropOpen o s) := by
  unfold Machine.dropOpen
  split
  · exact .frame h
  · exact .frame h

theorem EffOk.bodyChunked {cop : ChunkOp} {op : ℕ} {body : Body} {a : Cmd}
    (hg : ∀ (a : Cmd) (t : State), Evolves s₀ t → EffOk s₀ (body a t)) (h : Evolves s₀ s) :
    EffOk s₀ (bodyChunked cop op body a s) := by
  unfold Machine.bodyChunked
  dsimp only
  split
  · exact .ite (.stat h) (.ite (hg _ _ h) (.ite (.stat h) (.ite (.stat h) (.later (.dropOpen (.frame (.dropAssembly h)))))))
  · exact .ite (.stat (.dropAssembly h)) (.ite (.later (.dropOpen (.frame (.dropAssembly h)))) (hg _ _ (.dropAssembly h)))

theorem OrdersOk.failAt {a : Orders} {st : Status} {page : ℕ} (h : OrdersOk s₀ a) : OrdersOk s₀ (a.failAt st page) := by
  unfold Machine.Orders.failAt
  split
  · exact h
  · exact .of_st h.st

theorem OrdersOk.ordMove {page src : ℕ} {t : Tier} {staging : Bool} {why : MoveWhy} {a : Orders} (h : OrdersOk s₀ a) :
    OrdersOk s₀ (ordMove page src t staging why a) := by
  unfold Machine.ordMove
  exact .ite (.failAt h) (.of_st (.frame h.st rfl))

theorem OrdersOk.ordRead {page src : ℕ} {t : Option Tier} {why : MoveWhy} {a : Orders} (h : OrdersOk s₀ a) :
    OrdersOk s₀ (ordRead page src t why a) := by
  unfold Machine.ordRead
  split
  · exact .ite (.failAt h) (.of_st (.frame h.st rfl))
  · exact .ite (.failAt h) (.of_st (.frame h.st rfl))

theorem OrdersOk.ordProg {page src dst : ℕ} {drop : Bool} {why : MoveWhy} {a : Orders} (h : OrdersOk s₀ a) :
    OrdersOk s₀ (ordProg page src dst drop why a) := by
  unfold Machine.ordProg
  split
  · exact .of_st (.frame h.st)
  · split
    · exact .failAt h
    · exact .ite (.failAt h) (.of_st (.startProg h.st))

theorem EffOk.endOrders {op : ℕ} {c : Cmd} {first count : ℕ} {a : Orders} (h : OrdersOk s₀ a) :
    EffOk s₀ (endOrders op c first count a) := by
  unfold Machine.endOrders
  exact .ite (.res h.st) (.later (.frame h.st))

theorem Evolves.endTierCmds (h : Evolves s₀ s) : Evolves s₀ (endTierCmds s) := by
  unfold Machine.endTierCmds
  exact .foldl (.frame h) (fun _ _ => .completeIf)

theorem Evolves.tierEnd {id : ℕ} {st : Status} {page : ℕ} (h : Evolves s₀ s) : Evolves s₀ (tierEnd id st page s) := by
  unfold Machine.tierEnd
  exact .endTierCmds (.frame h)

theorem Evolves.sweepTier (h : Evolves s₀ s) : Evolves s₀ (sweepTier s) := by
  unfold Machine.sweepTier
  exact .endTierCmds (.frame h)

theorem StoreOk.replaceFrame {src dst : ℕ} {st : Store} (h : StoreOk s₀ st) : StoreOk s₀ (replaceFrame src dst st) := by
  unfold Machine.replaceFrame
  exact .frame h

theorem Evolves.flushFree (h : Evolves s₀ s) : Evolves s₀ (flushFree s) := by
  unfold Machine.flushFree
  exact .parts h (.foldl (.frame h.store) (fun _ _ => .freeFrame)) h.tiles

theorem Evolves.copyToHome {page : ℕ} (h : Evolves s₀ s) : Evolves s₀ (copyToHome page s) := by
  unfold Machine.copyToHome
  dsimp only
  split
  · exact h
  · split
    · exact .releaseFrame (.frame h rfl)
    · exact .frame h rfl

theorem Evolves.dropCopy {page : ℕ} (h : Evolves s₀ s) : Evolves s₀ (dropCopy page s) := by
  unfold Machine.dropCopy
  dsimp only
  split
  · exact .releaseFrame (.frame h rfl)
  · exact h

theorem Evolves.setCopy {page f : ℕ} {dirty pinned : Bool} (h : Evolves s₀ s) :
    Evolves s₀ (setCopy page f dirty pinned s) := by
  unfold Machine.setCopy
  exact .frame h rfl

theorem Evolves.cancelFill {base pass entry : ℕ} (h : Evolves s₀ s) : Evolves s₀ (cancelFill base pass entry s) := by
  unfold Machine.cancelFill
  exact .parts h (.foldl (.frame h.store) (fun _ _ => .freeFrame)) h.tiles

theorem Evolves.cancelTier {mine : ℕ → Bool} (h : Evolves s₀ s) : Evolves s₀ (cancelTier mine s) := by
  unfold Machine.cancelTier
  extract_lets +onlyGivenNames _ s₂ s₃ _ s₇
  have h₂ : StoreOk s₀ s₂ := h.store
  have h₃ : StoreOk s₀ s₃ := .foldl (.frame h₂) (fun _ _ h₄ => .freeFrame (.foldl h₄ (fun _ _ h₅ => .of_mem (.memCopyN
    h₅.mem))))
  have h₇ : StoreOk s₀ s₇ := .frame h₃
  exact .parts h (.foldl h₇ (fun _ _ => .freeFrame)) h.tiles

theorem Evolves.updObj {base : ℕ} {f : Obj → Obj} (h : Evolves s₀ s) : Evolves s₀ (updObj base f s) := by
  unfold Machine.updObj
  exact .frame h

theorem Evolves.updSched {base : ℕ} {f : Sched → Sched} (h : Evolves s₀ s) : Evolves s₀ (updSched base f s) := .updObj h

theorem Evolves.dropRunCopies {o : Obj} {x : Sched} {r : SchedRun} (h : Evolves s₀ s) :
    Evolves s₀ (dropRunCopies o x r s) := by
  unfold Machine.dropRunCopies
  refine .foldl h fun _ _ h₃ => ?_
  split
  · exact h₃
  · split
    · exact h₃
    · exact .ite (.ite (.frame h₃) (.ite h₃ (.evictCopy h₃))) (.dropCopy h₃)

theorem Evolves.removeSched {o : Obj} (h : Evolves s₀ s) : Evolves s₀ (removeSched o s) := by
  unfold Machine.removeSched
  split
  · exact h
  · exact .updObj (.foldl h (fun _ _ h₁ => .ite h₁ (.dropRunCopies (.cancelFill h₁))))

theorem Evolves.removeObj {o : Obj} (h : Evolves s₀ s) : Evolves s₀ (removeObj o s) := by
  unfold Machine.removeObj
  exact .frame (.foldl (.cancelTier h) (fun _ _ h₁ => .ite (.copyToHome h₁) (.dropCopy h₁)))

theorem Evolves.bookObj {o : Obj} {old : Option Obj} (h : Evolves s₀ s) : Evolves s₀ (bookObj o old s) := by
  unfold Machine.bookObj
  extract_lets +onlyGivenNames s₁ s₂ _ _ s₆ s₇
  have h₁ : Evolves s₀ s₁ := by
    unfold s₁
    split
    · exact .removeSched h
    · exact h
  have h₂ : Evolves s₀ s₂ := by
    unfold s₂
    split
    · exact .ite (.foldl h₁ (fun _ _ => .copyToHome)) h₁
    · exact h₁
  have h₆ : StoreOk s₀ s₆ := h₂.store
  have h₇ : Evolves s₀ s₇ := .frame h₂
  split
  · exact h₇
  · refine .foldl h₇ fun _ _ h₁₁ => ?_
    split
    · split
      · split
        · exact .frame h₁₁ rfl
        · exact h₁₁
      · exact .ite h₁₁ (.setCopy (.frame h₁₁ rfl))
    · exact h₁₁

theorem OrdersOk.placeOrders {o : Obj} (h : Evolves s₀ s) : OrdersOk s₀ (placeOrders o s) := by
  unfold Machine.placeOrders
  dsimp only
  split
  · refine .foldl (.of_st h) fun _ _ h₅ => ?_
    split
    · exact .ite (.ite (.ordProg h₅) (.of_st (.dropCopy h₅.st))) (.ite (.ordMove h₅) h₅)
    · exact .ite (.failAt h₅) (.ite (.ordRead h₅) h₅)
    · exact h₅
  · refine .foldl (.of_st h) fun _ _ h₈ => ?_
    split
    · exact .ite h₈ (.ite (.ordRead h₈) (.ordMove h₈))
    · exact h₈

theorem OrdersOk.unplaceOrders {o : Obj} (h : Evolves s₀ s) : OrdersOk s₀ (unplaceOrders o s) := by
  unfold Machine.unplaceOrders
  extract_lets +onlyGivenNames s₁ _ s₃
  have h₁ : Evolves s₀ s₁ := .removeSched h
  have h₃ : OrdersOk s₀ s₃ := by
    unfold s₃
    refine .foldl (.of_st h₁) fun _ _ h₇ => ?_
    split
    · exact .of_st (.dropCopy h₇.st)
    · split
      · extract_lets +onlyGivenNames s₈
        have h₈ : OrdersOk s₀ s₈ := .ordProg h₇
        exact .ite (.of_st (.copyToHome h₈.st)) h₈
      · exact h₇
  exact .of_st (.frame h₃.st)

theorem EffOk.bodyObjPlace {a : Cmd} (h : Evolves s₀ s) : EffOk s₀ (bodyObjPlace a s) := by
  unfold Machine.bodyObjPlace
  dsimp only
  split
  · exact .stat h
  · split
    · exact .stat h
    · split
      · exact .stat h
      · split
        · exact .stat h
        · split
          · split
            · exact .ok h
            · exact .ite (.waitFor h) (.endOrders (.unplaceOrders h))
          · split
            · exact .stat h
            · split
              · exact .stat h
              · split
                · exact .waitFor h
                · split
                  · exact .stat h
                  · split
                    · refine .waitFor ?_
                      split
                      · exact .removeSched h
                      · exact h
                    · exact .endOrders (.placeOrders (.bookObj h))

theorem EffOk.bodyPagePin {a : Cmd} (h : Evolves s₀ s) : EffOk s₀ (bodyPagePin a s) := by
  unfold Machine.bodyPagePin
  dsimp only
  split
  · exact .stat h
  · split
    · exact .stat h
    · split
      · exact .stat h
      · split
        · exact .stat h
        · split
          · exact .stat h
          · split
            · exact .stat h
            · refine .endOrders ?_
              refine .foldl (.of_st (.frame (.updObj h))) fun _ _ h₈ => ?_
              split
              · exact .of_st h₈.st
              · exact .ordRead (.of_st (.roomForCopy h₈.st))

theorem EffOk.bodyPageEvict {a : Cmd} (h : Evolves s₀ s) : EffOk s₀ (bodyPageEvict a s) := by
  unfold Machine.bodyPageEvict
  dsimp only
  split
  · exact .stat h
  · split
    · exact .stat h
    · split
      · exact .stat h
      · split
        · exact .stat h
        · split
          · exact .stat h
          · split
            · exact .waitFor h
            · refine .endOrders ?_
              refine .foldl (.of_st (.ite h (.updObj h))) fun _ _ h₈ => ?_
              split
              · exact .ite (.ordProg (.of_st (.frame h₈.st rfl))) (.ite (.of_st (.frame h₈.st rfl)) (.of_st (.dropCopy
                  (.frame h₈.st rfl))))
              · exact h₈

theorem Evolves.trimRun {first n : ℕ} (h : Evolves s₀ s) : Evolves s₀ (trimRun first n s).2 := by
  unfold Machine.trimRun
  dsimp only
  refine .foldl h fun _ _ h₄ => ?_
  split
  · exact .releaseFrame (.frame h₄ rfl)
  · exact h₄

theorem EffOk.bodyFlashTrim {a : Cmd} (h : Evolves s₀ s) : EffOk s₀ (bodyFlashTrim a s) := by
  unfold Machine.bodyFlashTrim
  dsimp only
  split
  · exact .stat h
  · split
    · exact .stat h
    · exact .ite (.stat h) (.ite (.waitFor h) (.res (.trimRun h)))

theorem Evolves.recMoveFail {page : ℕ} {st : Status} (h : Evolves s₀ s) : Evolves s₀ (recMoveFail page st s) :=
  .ite (.recUncorr h) h

theorem Evolves.failMove {m : Move} {st : Status} (h : Evolves s₀ s) : Evolves s₀ (failMove m st s) := by
  unfold Machine.failMove
  exact .tierEnd (.recMoveFail (.parts h (.freeFrame (.frame (.foldl h.store (fun _ _ h₁ => .of_mem (.memCopyN h₁.mem)))))
    h.tiles))

theorem OutOk.execGranuleCopyComplete {id : ℕ} {granule : Fin 16} (h : Evolves s₀ s) :
    OutOk s₀ (execGranuleCopyComplete id granule s) := by
  unfold Machine.execGranuleCopyComplete
  refine .next ?_
  refine .whenUp h fun _ h₅ => ?_
  split
  · exact h₅
  · exact .ite h₅ (.ite (.failMove h₅) (.ite (.failMove h₅) (.ite (.parts h₅ (.of_mem (.memCopyN h₅.store.mem)) h₅.tiles)
      (.tierEnd (.releaseFrame (.parts h₅ (.replaceFrame (.of_mem (.memCopyN h₅.store.mem))) h₅.tiles))))))

theorem Evolves.directDone {page frame : ℕ} {st : DirectEnd} (h : Evolves s₀ s) :
    Evolves s₀ (directDone page frame st s) := by
  unfold Machine.directDone
  exact .ite h (.frame h)

theorem Evolves.failRead {r : FlashRead} {st : Status} (h : Evolves s₀ s) : Evolves s₀ (failRead r st s) := by
  unfold Machine.failRead
  dsimp only
  refine .tierEnd ?_
  refine .recMoveFail ?_
  refine .directDone ?_
  split
  · exact .parts h (.freeFrame (.frame h.store)) h.tiles
  · exact .frame h

theorem Evolves.installRead {r : FlashRead} {f : ℕ} (h : Evolves s₀ s) : Evolves s₀ (installRead r f s) := by
  unfold Machine.installRead
  exact .tierEnd (.ite (.parts h (.freeFrame (.copyFrame (.frame h.store))) h.tiles) (.ite (.setCopy (.parts h (.copyFrame
    (.frame h.store)) h.tiles)) (.releaseFrame (.parts h (.setPage (.copyFrame (.frame h.store))) h.tiles))))

theorem Evolves.onCluster {k : Fin 4} {f : State → State} (h : Evolves s₀ s)
    (hf : ∀ (t : State), Evolves s₀ t → Evolves s₀ (f t)) : Evolves s₀ (onCluster k s f) :=
  .whenUp h (fun _ h₁ => .ite h₁ (hf _ h₁))

theorem Evolves.queueReloc {k n : ℕ} (h : Evolves s₀ s) : Evolves s₀ (queueReloc k n s) := by
  unfold Machine.queueReloc
  exact .frame h

theorem Evolves.flashInj {page b : ℕ} {units : List UnitRead} (h : Evolves s₀ s) :
    Evolves s₀ (flashInj page b units s).2 := by
  unfold Machine.flashInj
  dsimp only
  split
  · exact h
  · split
    · exact h
    · exact .ite_snd (.corrected h) (.ite_snd (.frame h) h)

theorem Evolves.recFlash {k event arg : ℕ} (h : Evolves s₀ s) : Evolves s₀ (recFlash k event arg s) := .detect h

theorem Evolves.setClusterState {k : ℕ} {st : BitVec 4} (h : Evolves s₀ s) : Evolves s₀ (setClusterState k st s) := by
  unfold Machine.setClusterState
  exact .ite h (.alert (.recFlash (.frame h)))

theorem Evolves.spareState {k : ℕ} (h : Evolves s₀ s) : Evolves s₀ (spareState k s) := .ite h (.setClusterState h)

theorem Evolves.takeSpare {k : ℕ} (h : Evolves s₀ s) : Evolves s₀ (takeSpare k s) := by
  unfold Machine.takeSpare
  exact .frame (.takeFree h)

theorem Evolves.retireBlock {k die block : ℕ} (h : Evolves s₀ s) : Evolves s₀ (retireBlock k die block s) := by
  unfold Machine.retireBlock
  exact .ite h (.spareState (.recFlash (.takeSpare (.frame h))))

theorem Evolves.softBlock {k die block : ℕ} (h : Evolves s₀ s) : Evolves s₀ (softBlock k die block s) := by
  unfold Machine.softBlock
  exact .ite (.retireBlock h) (.frame h)

theorem Evolves.countRead {k frame : ℕ} {units : List UnitRead} (h : Evolves s₀ s) :
    Evolves s₀ (countRead k frame units s) := by
  unfold Machine.countRead
  dsimp only
  split
  · exact .queueReloc h
  · exact .foldl (.queueReloc h) (fun _ _ h₁ => .ite (.softBlock (.frame h₁)) (.frame h₁))

theorem OutOk.execFlashReadComplete {id : ℕ} {units : List UnitRead} (h : Evolves s₀ s) :
    OutOk s₀ (execFlashReadComplete id units s) := by
  unfold Machine.execFlashReadComplete
  refine .next ?_
  refine .whenUp h fun _ h₅ => ?_
  split
  · exact h₅
  · dsimp only
    split
    · exact h₅
    · split
      · exact .failRead h₅
      · split
        · exact h₅
        · split
          · exact .failRead (.countRead (.flashInj h₅))
          · split
            · exact .installRead (.countRead (.flashInj h₅))
            · exact .directDone (.frame (.countRead (.flashInj h₅)))

theorem Evolves.failProg {p : FlashProg} {st : Status} (h : Evolves s₀ s) : Evolves s₀ (failProg p st s) := by
  unfold Machine.failProg
  extract_lets +onlyGivenNames s₁ s₂ s₃ s₄ s₅
  have h₁ : StoreOk s₀ s₁ := h.store
  have h₂ : Evolves s₀ s₂ := .frame h
  have h₃ : Evolves s₀ s₃ := .ite (.copyToHome h₂) h₂
  have h₄ : StoreOk s₀ s₄ := h₃.store
  have h₅ : Evolves s₀ s₅ := .ite (.frame h₃) h₃
  exact .tierEnd (.recMoveFail h₅)

theorem Evolves.startProgs (h : Evolves s₀ s) : Evolves s₀ (startProgs s) := by
  unfold Machine.startProgs
  refine .foldl h fun _ _ h₃ => ?_
  split
  · exact .failProg h₃
  · exact .ite (.frame h₃) h₃

theorem Evolves.placeUnits {k frame : ℕ} {us : List FlashUnit} (h : Evolves s₀ s) : Evolves s₀ (placeUnits k frame us s) := by
  unfold Machine.placeUnits
  exact .frame h

theorem OutOk.execFlashProgramComplete {e : ProgramDone} (h : Evolves s₀ s) : OutOk s₀ (execFlashProgramComplete e s) := by
  unfold Machine.execFlashProgramComplete
  refine .next (.whenUp h fun s h => ?_)
  extract_lets +onlyGivenNames id units
  split
  · exact h
  extract_lets +onlyGivenNames k
  refine .ite h (.ite (.failProg h) (.ite (.failProg h) ?_))
  extract_lets +onlyGivenNames s₁
  have h₁ : Evolves s₀ s₁ := .placeUnits (.meterFlash h)
  refine .ite h₁.frame ?_
  extract_lets +onlyGivenNames _ s₂ _ s₃ q s₄
  have h₂ : Evolves s₀ s₂ := h₁.frame
  have h₃ : Evolves s₀ s₃ := h₂.withStore h₂.store.copyFrame
  have h₄ : Evolves s₀ s₄ := .ite h₂.frame (.ite (.dropCopy h₃) (h₃.withStore h₃.store.setPage))
  exact .tierEnd h₄

theorem OutOk.execProgramFailure {at_ : FlashDie} {id : Option ℕ} {block : ℕ} (h : Evolves s₀ s) :
    OutOk s₀ (execProgramFailure at_ id block s) := by
  unfold Machine.execProgramFailure
  refine .next ?_
  refine .onCluster h fun _ h₅ => ?_
  dsimp only
  split
  · exact .retireBlock h₅
  · split
    · exact h₅
    · exact .ite h₅ (.frame (.retireBlock h₅))

theorem Evolves.giveFrames {o : Obj} {n : ℕ} (h : Evolves s₀ s) : Evolves s₀ (giveFrames o n s) := by
  induction n generalizing s with
  | zero =>
    unfold Machine.giveFrames
    exact h
  | succ n ih =>
    unfold Machine.giveFrames
    dsimp only
    split
    · split
      · split
        · exact ih (.evictCopy h)
        · exact h
      · exact h
    · split
      · split
        · split
          · exact ih (.evictCopy h)
          · exact h
        · exact h
      · exact ih (.frame h rfl)

theorem Evolves.pumpTier (h : Evolves s₀ s) : Evolves s₀ (pumpTier s) := by
  unfold Machine.pumpTier
  exact .sweepTier (.frame (.foldl (.startProgs h) (fun _ _ => .giveFrames)))

theorem EffOk.bodyPrefetchSchedule {a : Cmd} (h : Evolves s₀ s) : EffOk s₀ (bodyPrefetchSchedule a s) := by
  unfold Machine.bodyPrefetchSchedule
  dsimp only
  split
  · exact .stat h
  · split
    · exact .stat h
    · exact .ite (.stat h) (.ite (.stat h) (.ite (.stat h) (.ite (.waitFor h) (.ite (.waitFor (.removeSched h)) (.ite (.ok
        (.removeSched h)) (.ok (.updObj (.removeSched h))))))))

theorem OutOk.execScheduleEntryStart {base : ℕ} (h : Evolves s₀ s) : OutOk s₀ (execScheduleEntryStart base s) := by
  unfold Machine.execScheduleEntryStart
  refine .next ?_
  refine .whenUp h fun _ h₅ => ?_
  split
  · exact h₅
  · split
    · exact h₅
    · dsimp only
      split
      · exact h₅
      · exact .ite h₅ (.ite (.updSched h₅) (OrdersOk.st (.foldl (.of_st (.updSched h₅)) (fun _ _ h₆ => .ordRead (.of_st
          (.roomForCopy h₆.st))))))

theorem Evolves.fillPage {p : Page} (h : Evolves s₀ s) : Evolves s₀ (fillPage p s) := by
  unfold Machine.fillPage
  split
  · exact h
  · exact .ite h (.ite (.recMoveFail h) (.setCopy (.parts h (.copyFrame (.newFrame h.store)) h.tiles)))

theorem Evolves.completeRun {base : ℕ} {o : Obj} {r : SchedRun} {e : SchedEntry} (h : Evolves s₀ s) :
    Evolves s₀ (completeRun base o r e s) := by
  unfold Machine.completeRun
  dsimp only
  split
  · exact .syncAdd (.updSched (.ite (.foldl h (fun _ _ => .fillPage)) h))
  · exact .updSched (.ite (.foldl h (fun _ _ => .fillPage)) h)

theorem OutOk.execScheduleFillComplete {base pass entry : ℕ} (h : Evolves s₀ s) :
    OutOk s₀ (execScheduleFillComplete base pass entry s) := by
  unfold Machine.execScheduleFillComplete
  refine .next ?_
  refine .whenUp h fun _ h₅ => ?_
  split
  · exact h₅
  · split
    · exact h₅
    · split
      · exact .ite h₅ (.completeRun h₅)
      · exact h₅

theorem OutOk.execScheduleRelease {base pass entry : ℕ} (h : Evolves s₀ s) :
    OutOk s₀ (execScheduleRelease base pass entry s) := by
  unfold Machine.execScheduleRelease
  refine .next ?_
  refine .whenUp h fun _ h₅ => ?_
  split
  · exact h₅
  · split
    · exact h₅
    · split
      · dsimp only
        split
        · exact h₅
        · split
          · exact .updSched (.dropRunCopies (.cancelFill h₅))
          · split
            · exact .syncAdd (.updSched (.dropRunCopies (.cancelFill h₅)))
            · exact .updSched (.dropRunCopies (.cancelFill h₅))
      · exact h₅

/-! ### Coh -/

theorem Evolves.sendCmp {r : Req} {st : Status} {missed : Bool} (h : Evolves s₀ s) : Evolves s₀ (sendCmp r st missed s) := by
  unfold Machine.sendCmp
  dsimp only
  split
  · exact .ite (.emit h) (.ite (.frame (.emit h)) (.recRefused (.frame (.emit h))))
  · exact .emit h

theorem Evolves.refuseReq {r : Req} {st : Status} (h : Evolves s₀ s) : Evolves s₀ (refuseReq r st s) := .sendCmp h

theorem Evolves.endWith {t : Trk} {st : Status} (h : Evolves s₀ s) : Evolves s₀ (endWith t st s) := by
  unfold Machine.endWith
  split
  · exact .sendCmp (.endTrk h)
  · exact .endTrk h
  · exact .updTrk h

theorem Evolves.grant {t : Trk} {a : BitVec 10} {excl own : Bool} {data : List Byte} (h : Evolves s₀ s) :
    Evolves s₀ (grant t a excl own data s) := by
  unfold Machine.grant
  dsimp only
  split
  · exact .endWith h
  · split
    · exact .emit (.meterRd (.updTrk (.setDir h)))
    · exact .updTrk (.setDir h)

theorem Evolves.sendMem {t : Trk} {op : MemOp} (h : Evolves s₀ s) : Evolves s₀ (sendMem t op s) := .emit (.updTrk h)

theorem Evolves.trkRead {t : Trk} (h : Evolves s₀ s) : Evolves s₀ (trkRead s t).2 := by
  unfold Machine.trkRead
  split
  · exact h
  · split
    · exact h
    · split
      next s₁ e₁ =>
        have h₁ := Evolves.of_snd (.memRead h) e₁
        exact .snd (.awaitMem h₁)
      next s₂ e₂ =>
        have h₂ := Evolves.of_snd (.memRead h) e₂
        exact .snd (.recUncorr h₂)
      · exact .memRead h

theorem Evolves.trkWrite {t : Trk} {r : BitVec 6} {bs : List (Option Byte)} (h : Evolves s₀ s) :
    Evolves s₀ (trkWrite s t r bs).2 := by
  unfold Machine.trkWrite
  split
  · exact h
  · split
    · exact h
    · split
      · exact h
      · dsimp only
        split
        next s₁ e₁ =>
          have h₁ := WrOk.of_done (.writeAt h) e₁
          exact .ite (.updTrk h₁) h₁
        · exact .awaitMem h
        · exact h

theorem Evolves.discardDirty {t : Trk} {r : BitVec 6} {st : Status} (h : Evolves s₀ s) :
    Evolves s₀ (discardDirty t r st s) :=
  .ite h (.ite (.recUncorr h) (.recRefused h))

theorem Evolves.evictDir {line : ℕ} (h : Evolves s₀ s) : Evolves s₀ (evictDir line s) := by
  unfold Machine.evictDir
  dsimp only
  split
  · exact h
  · split
    · exact .startRecall (.frame h)
    · exact h

theorem Evolves.invThen {t : Trk} {as : List (BitVec 10)} {next : State → State}
    (hg : ∀ (t : State), Evolves s₀ t → Evolves s₀ (next t)) (h : Evolves s₀ s) : Evolves s₀ (invThen t as next s) :=
  .ite (hg _ h) (.startSnoop h)

theorem Evolves.cachingRead {t : Trk} (h : Evolves s₀ s) : Evolves s₀ (cachingRead t s) := .sendMem h

theorem Evolves.grantNoData {t : Trk} {r : Req} {a : BitVec 10} (h : Evolves s₀ s) : Evolves s₀ (grantNoData t r a s) :=
  .ite (.endWith h) (.sendCmp (.updTrk (.setDir h)))

theorem Evolves.refuseWb {t : Trk} {st : Status} (h : Evolves s₀ s) : Evolves s₀ (refuseWb t st s) :=
  .ite (.endWith (.setDir (.discardDirty h))) (.endWith h)

theorem Evolves.refuseTrk {t : Trk} {k : ReqKind} {st : Status} (h : Evolves s₀ s) : Evolves s₀ (refuseTrk t k st s) := by
  unfold Machine.refuseTrk
  split
  · exact .refuseWb h
  · exact .endWith h

theorem Evolves.runReq {t : Trk} {r : Req} {k : ReqKind} (h : Evolves s₀ s) : Evolves s₀ (runReq t r k s) := by
  unfold Machine.runReq
  split
  · exact .endWith h
  · split
    · exact .refuseTrk h
    · dsimp only
      split
      · split
        · split
          · exact .sendMem (.updTrk h)
          · exact .endWith (.updTrk h)
          · exact .refuseTrk (.updTrk h)
        · split
          · exact .endWith (.updTrk h)
          · split
            · exact .evictDir (.updTrk h)
            · split
              · split
                · exact .ite (.cachingRead (.updTrk h)) (.startSnoop (.updTrk h))
                · exact .cachingRead (.updTrk h)
              · split
                · exact .invThen (fun _ => .cachingRead) (.updTrk h)
                · exact .endWith (.updTrk h)
              · split
                · exact .endWith (.updTrk h)
                · exact .ite (.invThen (fun _ => .grantNoData) (.updTrk h)) (.invThen (fun _ => .cachingRead) (.updTrk h))
              · split
                · exact .endWith (.updTrk h)
                · exact .endWith (.setDir (.updTrk h))
              · split
                · exact .ite (.sendMem (.updTrk h)) (.startSnoop (.updTrk h))
                · exact .sendMem (.updTrk h)
              · exact .invThen (fun _ => .sendMem) (.updTrk h)
              · exact .invThen (fun _ => .sendMem) (.updTrk h)
              · split
                · exact .ite (.emit (.updTrk (.updTrk h))) (.invThen (fun _ => .sendMem) (.updTrk h))
                · exact .invThen (fun _ => .sendMem) (.updTrk h)
              · exact .ite (.sendMem (.updTrk h)) (.invThen (fun _ h₈ => .sendMem (.setDir h₈)) (.updTrk (.updTrk h)))
              · split
                · exact .ite (.sendMem (.updTrk h)) (.endWith (.updTrk h))
                · exact .endWith (.updTrk h)
      · split
        · split
          · exact .sendMem (.updTrk h)
          · exact .endWith (.updTrk h)
          · exact .refuseTrk (.updTrk h)
        · split
          · exact .endWith (.updTrk h)
          · split
            · exact .evictDir (.updTrk h)
            · split
              · split
                · exact .ite (.cachingRead (.updTrk h)) (.startSnoop (.updTrk h))
                · exact .cachingRead (.updTrk h)
              · split
                · exact .invThen (fun _ => .cachingRead) (.updTrk h)
                · exact .endWith (.updTrk h)
              · split
                · exact .endWith (.updTrk h)
                · exact .ite (.invThen (fun _ => .grantNoData) (.updTrk h)) (.invThen (fun _ => .cachingRead) (.updTrk h))
              · split
                · exact .endWith (.updTrk h)
                · exact .endWith (.setDir (.updTrk h))
              · split
                · exact .ite (.sendMem (.updTrk h)) (.startSnoop (.updTrk h))
                · exact .sendMem (.updTrk h)
              · exact .invThen (fun _ => .sendMem) (.updTrk h)
              · exact .invThen (fun _ => .sendMem) (.updTrk h)
              · split
                · exact .ite (.emit (.updTrk (.updTrk h))) (.invThen (fun _ => .sendMem) (.updTrk h))
                · exact .invThen (fun _ => .sendMem) (.updTrk h)
              · exact .ite (.sendMem (.updTrk h)) (.invThen (fun _ h₁₆ => .sendMem (.setDir h₁₆)) (.updTrk (.updTrk h)))
              · split
                · exact .ite (.sendMem (.updTrk h)) (.endWith (.updTrk h))
                · exact .endWith (.updTrk h)

theorem Evolves.dirUse {t : Trk} (h : Evolves s₀ s) : Evolves s₀ (dirUse t s) := by
  unfold Machine.dirUse
  dsimp only
  split
  · exact h
  · exact .ite (.corrected h) (.ite h (.ite (.endWith (.detect h)) (.recallNow (.setDir (.takeInj h)))))

theorem Evolves.tryTrk {id : ℕ} (h : Evolves s₀ s) : Evolves s₀ (tryTrk id s) := by
  unfold Machine.tryTrk
  split
  · exact h
  · split
    · exact h
    · split
      · exact .ite (.dirUse (.mapUse h)) (.ite (.recallNow (.dirUse (.mapUse h))) (.runReq (.dirUse (.mapUse h))))
      · exact .runRecall h
      · exact .startEng h

theorem Evolves.kick (h : Evolves s₀ s) : Evolves s₀ (kick s) := .foldl h (fun _ _ => .tryTrk)

theorem Evolves.holdAt {e : Option (BitVec 32)} {w : HeldWhat} (h : Evolves s₀ s) : Evolves s₀ (holdAt e w s) := by
  unfold Machine.holdAt
  exact .frame h

theorem Evolves.syncReq {r : Req} {k : ReqKind} {rider : BitVec 6} {obj : ℕ} (h : Evolves s₀ s) :
    Evolves s₀ (syncReq r k rider obj s) := by
  unfold Machine.syncReq
  split
  · exact .refuseReq h
  · split
    · exact .refuseReq h
    · dsimp only
      split
      · exact .sendCmp (.emit h)
      · exact .refuseReq (.syncWrite h)
      · exact .refuseReq (.syncWrite h)
      · split
        · exact .sendCmp (.emit (.ite (.setSyncVal h) (.syncWrite h)))
        · exact .refuseReq h
      · exact .refuseReq h

theorem Evolves.route {r : Req} {k : ReqKind} {rider : BitVec 6} (h : Evolves s₀ s) :
    Evolves s₀ (routeReq.route r k rider s) := by
  unfold Machine.routeReq.route
  split
  · exact .refuseReq (.ite h (.recRefused h))
  · exact .refuseReq h
  · exact .emit h
  · exact .emit h
  · exact .syncReq h
  · exact .ite (.refuseReq h) (.ite (.ite (.emit h) (.refuseReq h)) (.tryTrk (.newTrk h)))

theorem Evolves.routeReq {r : Req} {k : ReqKind} (h : Evolves s₀ s) : Evolves s₀ (routeReq r k s) := by
  unfold Machine.routeReq
  split
  · exact .refuseReq h
  · dsimp only
    split
    · split
      · exact .refuseReq h
      · split
        · exact .refuseReq h
        · split
          · exact .refuseReq h
          · split
            · exact .route h
            · split
              · exact .refuseReq h
              · split
                · exact .ite (.refuseReq h) (.ite (.refuseReq h) (.route h))
                · exact .route h
    · split
      · exact .refuseReq h
      · split
        · exact .refuseReq h
        · split
          · exact .refuseReq h
          · split
            · exact .route h
            · split
              · exact .refuseReq h
              · split
                · exact .ite (.refuseReq h) (.ite (.refuseReq h) (.route h))
                · exact .route h

theorem Evolves.acceptReq {r : Req} {k : ReqKind} (h : Evolves s₀ s) : Evolves s₀ (acceptReq r k s) :=
  .ite (.refuseReq h) (.ite (.holdAt h) (.routeReq h))

theorem Evolves.engReady {t : Trk} {write : Bool} (h : Evolves s₀ s) : Evolves s₀ (engReady t write s) := by
  unfold Machine.engReady
  split
  · exact .readyTrk h
  · exact .endWith h

theorem Evolves.afterSnoops {t : Trk} (h : Evolves s₀ s) : Evolves s₀ (afterSnoops t s) := by
  unfold Machine.afterSnoops
  split
  · exact .ite (.sendMem h) (.engReady h)
  · exact .ite (.sendMem h) (.kick (.setDir (.endTrk h)))
  · split
    · exact .ite (.sendMem h) (.cachingRead h)
    · exact .ite (.sendMem h) (.cachingRead h)
    · dsimp only
      split
      · exact .ite (.grantNoData h) (.ite (.sendMem h) (.cachingRead h))
      · exact .endWith h
    · exact .ite (.sendMem h) (.sendMem h)
    · exact .ite (.sendMem (.setDir h)) (.sendMem (.setDir h))
    · exact .sendMem h

theorem Evolves.answerSnoop {a : BitVec 10} {id : ℕ} {f : Trk → Trk} (h : Evolves s₀ s) :
    Evolves s₀ (answerSnoop a id f s) := by
  unfold Machine.answerSnoop
  split
  · exact h
  · exact .ite h (.ite (.afterSnoops (.updTrk h)) (.updTrk h))

theorem Evolves.rspI {a : BitVec 10} {id : ℕ} (h : Evolves s₀ s) : Evolves s₀ (rspI a id s) := by
  unfold Machine.rspI
  dsimp only
  refine .answerSnoop ?_
  split
  · exact .ite (.setDir h) h
  · exact h

theorem OutOk.execRspS {a : BitVec 10} {trk : ℕ} (h : Evolves s₀ s) : OutOk s₀ (execRspS a trk s) := by
  unfold Machine.execRspS
  refine .next ?_
  refine .whenUp h fun _ h₅ => ?_
  split
  · exact .ite (.answerSnoop h₅) h₅
  · exact h₅

theorem OutOk.execRspX {a : BitVec 10} {trk : ℕ} (h : Evolves s₀ s) : OutOk s₀ (execRspX a trk s) := by
  unfold Machine.execRspX
  refine .next ?_
  refine .whenUp h fun _ h₅ => ?_
  split
  · exact .ite (.answerSnoop h₅) h₅
  · exact h₅

theorem OutOk.execDatFwd {a : BitVec 10} {trk : ℕ} {data : List Byte} {keepsS : Bool} (h : Evolves s₀ s) :
    OutOk s₀ (execDatFwd a trk data keepsS s) := by
  unfold Machine.execDatFwd
  refine .next ?_
  refine .whenUp h fun _ h₅ => ?_
  split
  · exact .ite (.rspI (.ite (.emit h₅) h₅)) (.answerSnoop h₅)
  · exact h₅

theorem Evolves.deliver {t : Trk} {data : List Byte} (h : Evolves s₀ s) : Evolves s₀ (deliver t data s) := by
  unfold Machine.deliver
  split
  · exact .kick (.setDir (.endTrk h))
  · exact .kick (.engReady h)
  · dsimp only
    split
    · exact .kick (.endWith h)
    · split
      · split
        · split
          · exact .emit (.updTrk (.meterRd h))
          · split
            · exact .grant h
            · exact .grant h
            · exact .ite (.grant h) (.grant h)
        · split
          · exact .emit (.updTrk (.meterRd h))
          · split
            · exact .grant h
            · exact .grant h
            · exact .ite (.grant h) (.grant h)
      · exact .ite (.kick (.endWith h)) (.grant h)
      · exact .ite (.kick (.endWith h)) (.grant h)
      · exact .kick (.sendCmp (.emit (.endTrk (.meterRd h))))
      · exact .kick (.endWith h)

theorem OutOk.execMemRd {trk : ℕ} (h : Evolves s₀ s) : OutOk s₀ (execMemRd trk s) := by
  unfold Machine.execMemRd
  refine .next ?_
  refine .whenUp h fun _ h₅ => ?_
  split
  · exact h₅
  · split
    · exact h₅
    · split
      next s₆ e₆ =>
        have h₆ := Evolves.of_snd (.trkRead h₅) e₆
        exact h₆
      next s₇ e₇ =>
        have h₇ := Evolves.of_snd (.trkRead h₅) e₇
        exact .emit (.updTrk h₇)
      next s₈ e₈ =>
        have h₈ := Evolves.of_snd (.trkRead h₅) e₈
        exact .emit (.updTrk h₈)

theorem OutOk.execMemWr {trk : ℕ} (h : Evolves s₀ s) : OutOk s₀ (execMemWr trk s) := by
  unfold Machine.execMemWr
  refine .next ?_
  refine .whenUp h fun _ h₅ => ?_
  split
  · exact h₅
  · split
    · exact h₅
    · dsimp only
      split
      · exact .emit (.updTrk h₅)
      · split
        next s₆ e₆ =>
          have h₆ := Evolves.of_snd (.trkWrite h₅) e₆
          exact h₆
        next s₇ e₇ =>
          have h₇ := Evolves.of_snd (.trkWrite h₅) e₇
          exact .emit (.updTrk (.meterWr h₇))
        next s₈ e₈ =>
          have h₈ := Evolves.of_snd (.trkWrite h₅) e₈
          exact .emit (.updTrk h₈)

theorem OutOk.execMemAtom {trk : ℕ} (h : Evolves s₀ s) : OutOk s₀ (execMemAtom trk s) := by
  unfold Machine.execMemAtom
  refine .next ?_
  refine .whenUp h fun _ h₅ => ?_
  split
  · exact h₅
  · split
    · exact h₅
    · split
      · dsimp only
        split
        next s₆ e₆ =>
          have h₆ := Evolves.of_snd (.trkRead h₅) e₆
          exact h₆
        next s₇ e₇ =>
          have h₇ := Evolves.of_snd (.trkRead h₅) e₇
          exact .emit (.updTrk h₇)
        next s₈ e₈ =>
          have h₈ := Evolves.of_snd (.trkRead h₅) e₈
          split
          · exact .emit (.updTrk h₈)
          · split
            next s₉ e₉ =>
              have h₉ := Evolves.of_snd (.trkWrite h₈) e₉
              exact h₉
            next s₁₀ e₁₀ =>
              have h₁₀ := Evolves.of_snd (.trkWrite h₈) e₁₀
              exact .emit (.updTrk (.meterWr h₁₀))
            next s₁₁ e₁₁ =>
              have h₁₁ := Evolves.of_snd (.trkWrite h₈) e₁₁
              exact .emit (.updTrk h₁₁)
      · exact h₅

theorem OutOk.execMemRdata {trk : ℕ} (h : Evolves s₀ s) : OutOk s₀ (execMemRdata trk s) := by
  unfold Machine.execMemRdata
  refine .next ?_
  refine .whenUp h fun _ h₅ => ?_
  split
  · exact h₅
  · split
    · exact h₅
    · split
      · split
        · exact .kick (.endWith h₅)
        · split
          · exact .kick (.sendCmp (.emit (.endTrk h₅)))
          · split
            · exact .kick (.endWith h₅)
            · exact .sendMem (.updTrk h₅)
      · exact .ite (.kick (.endWith h₅)) (.deliver h₅)
      · exact .kick (.engReady h₅)
      · exact .kick (.setDir (.endTrk h₅))

theorem Evolves.dirtyLost {t : Trk} {a : BitVec 10} (h : Evolves s₀ s) : Evolves s₀ (dirtyLost t a s) :=
  .kick (.endWith (.setDir (.ite (.emit (.discardDirty h)) (.discardDirty h))))

theorem Evolves.dropFwd {t : Trk} (h : Evolves s₀ s) : Evolves s₀ (dropFwd t s) := .updTrk h

theorem OutOk.execMemWack {trk : ℕ} (h : Evolves s₀ s) : OutOk s₀ (execMemWack trk s) := by
  unfold Machine.execMemWack
  refine .next ?_
  refine .whenUp h fun _ h₅ => ?_
  split
  · exact h₅
  · dsimp only
    split
    · exact h₅
    · split
      · refine .kick ?_
        refine .setDir ?_
        refine .endTrk ?_
        split
        · exact .ite h₅ (.discardDirty h₅)
        · exact h₅
      · split
        · exact .ite (.kick (.engReady (.dropFwd h₅))) (.dirtyLost h₅)
        · exact .kick (.engReady h₅)
      · split
        · exact .kick (.endWith (.setDir h₅))
        · refine .kick ?_
          refine .endWith ?_
          refine .setDir ?_
          split
          · exact .ite h₅ (.discardDirty h₅)
          · exact h₅
        · exact .kick (.endWith (.setDir (.ite h₅ (.discardDirty h₅))))
        · split
          · refine .kick ?_
            refine .endWith ?_
            refine .setDir ?_
            split
            · exact .discardDirty h₅
            · exact h₅
          · split
            · exact .kick (.endWith (.setDir h₅))
            · split
              · exact .kick (.endWith (.setDir h₅))
              · split
                next s₆ e₆ =>
                  have h₆ := Evolves.of_snd (.trkRead h₅) e₆
                  exact .emit (.updTrk (.setDir h₆))
                next s₇ e₇ =>
                  have h₇ := Evolves.of_snd (.trkRead h₅) e₇
                  exact h₇
                next s₈ e₈ =>
                  have h₈ := Evolves.of_snd (.trkRead h₅) e₈
                  exact .kick (.endWith (.setDir h₈))
        · exact .ite (.kick (.endWith h₅)) (.ite (.dirtyLost h₅) (.sendMem (.dropFwd h₅)))
        · split
          · exact .kick (.endWith h₅)
          · split
            · exact .kick (.sendCmp (.emit (.endTrk h₅)))
            · exact .kick (.endWith h₅)
        · exact .ite (.sendMem (.updTrk (.setDir (.dropFwd (.ite (.emit h₅) h₅))))) (.ite (.dirtyLost h₅) (.deliver
            (.dropFwd h₅)))
        · exact .kick (.endWith h₅)

theorem OutOk.execCmpAck {a : BitVec 10} {trk : ℕ} (h : Evolves s₀ s) : OutOk s₀ (execCmpAck a trk s) := by
  unfold Machine.execCmpAck
  refine .next ?_
  refine .whenUp h fun _ h₅ => ?_
  split
  · exact .ite (.kick (.endTrk h₅)) h₅
  · exact h₅

theorem OutOk.execRspStashOk {a : BitVec 10} {trk : ℕ} (h : Evolves s₀ s) : OutOk s₀ (execRspStashOk a trk s) := by
  unfold Machine.execRspStashOk
  refine .next ?_
  refine .whenUp h fun _ h₅ => ?_
  split
  · split
    · exact h₅
    · split
      · exact .kick (.endWith h₅)
      · exact .kick (.endWith (.setDir h₅))
  · exact h₅

theorem Evolves.stashRefused {a : BitVec 10} {trk : ℕ} (h : Evolves s₀ s) : Evolves s₀ (stashRefused a trk s) := by
  unfold Machine.stashRefused
  split
  · split
    · exact h
    · split
      · exact .ite (.sendMem (.updTrk h)) (.startSnoop (.updTrk h))
      · exact .kick (.endWith (.setDir h))
  · exact h

theorem Evolves.setLoss {l : LossList} (h : Evolves s₀ s) : Evolves s₀ (setLoss l s) := by
  unfold Machine.setLoss
  exact .frame h

theorem Evolves.listLoss {r : BitVec 6} {a : BitVec 10} {cause : BitVec 16} {line : ℕ} (h : Evolves s₀ s) :
    Evolves s₀ (listLoss r a cause line s) :=
  .ite (.updExt h) (.postEvent (.setLoss h))

theorem Evolves.declareLost {a : BitVec 10} {cause : BitVec 16} (h : Evolves s₀ s) : Evolves s₀ (declareLost a cause s) := by
  unfold Machine.declareLost
  split
  · exact h
  · dsimp only
    refine .foldl (.markFence (.postEvent (.detect (.frame h)))) fun _ _ h₅ => ?_
    split
    · exact .ite (.kick (.endTrk h₅)) (.ite (.updTrk h₅) (.ite (.rspI h₅) (.ite (.stashRefused h₅) h₅)))
    · exact h₅

theorem OutOk.execSnoopTimeout {a : BitVec 10} {trk : ℕ} (h : Evolves s₀ s) : OutOk s₀ (execSnoopTimeout a trk s) := by
  unfold Machine.execSnoopTimeout
  refine .next ?_
  refine .whenUp h fun _ h₅ => ?_
  split
  · exact .ite (.declareLost h₅) h₅
  · exact h₅

theorem OutOk.execGrantAckTimeout {a : BitVec 10} {trk : ℕ} (h : Evolves s₀ s) : OutOk s₀ (execGrantAckTimeout a trk s) := by
  unfold Machine.execGrantAckTimeout
  refine .next ?_
  refine .whenUp h fun _ h₅ => ?_
  split
  · exact .ite (.ite (.kick (.endTrk h₅)) (.declareLost h₅)) h₅
  · exact h₅

theorem OutOk.execMemoryTimeout {trk : ℕ} (h : Evolves s₀ s) : OutOk s₀ (execMemoryTimeout trk s) := by
  unfold Machine.execMemoryTimeout
  refine .next ?_
  refine .whenUp h fun _ h₅ => ?_
  split
  · exact .ite (.kick (.endWith (.detect h₅))) h₅
  · exact h₅

theorem Evolves.scanEntry {a : BitVec 10} {cause : BitVec 16} {r : BitVec 6} {d : DirEnt} (h : Evolves s₀ s) :
    Evolves s₀ (scanEntry a cause r d s) := by
  unfold Machine.scanEntry
  split
  · exact .setDir h
  · split
    · exact .ite (.setDir h) h
    · exact h
    · exact .ite (.setDir h) h
    · split
      · exact h
      · dsimp only
        split
        · exact .setDir h
        · split
          · split
            · exact .ite (.abandonLap (.setDir h)) (.setDir h)
            · exact .setDir h
          · exact .fenceExt (.listLoss (.setDir h))

theorem OutOk.execAgentLossScanEnd {a : BitVec 10} (h : Evolves s₀ s) : OutOk s₀ (execAgentLossScanEnd a s) := by
  unfold Machine.execAgentLossScanEnd
  refine .next ?_
  refine .whenUp h fun _ h₅ => ?_
  split
  · exact h₅
  · exact .kick (.recallExts (.frame (.foldl h₅ (fun _ _ => .scanEntry))))

theorem Evolves.homeAtomic {q : Rq} {off : ℕ} {op : AtomOp} (h : Evolves s₀ s) : Evolves s₀ (homeAtomic s q off op).2 := by
  unfold Machine.homeAtomic
  dsimp only
  split
  · exact h
  · split
    · exact .dropTicket h
    · split
      · exact .dropTicket h
      · split
        next s₁ e₁ =>
          have h₁ := Evolves.of_snd (.engTurn h) e₁
          exact h₁
        next s₂ e₂ =>
          have h₂ := Evolves.of_snd (.engTurn h) e₂
          exact .dropTicket h₂
        next s₃ e₃ =>
          have h₃ := Evolves.of_snd (.engTurn h) e₃
          exact .dropTicket h₃
        next s₄ e₄ =>
          have h₄ := Evolves.of_snd (.engTurn h) e₄
          split
          · exact .dropTicket (.viewFor h₄)
          · split
            next s₅ e₅ =>
              have h₅ := Evolves.of_snd (.memRead (.viewFor h₄)) e₅
              exact .holdAccess h₅
            next s₆ e₆ =>
              have h₆ := Evolves.of_snd (.memRead (.viewFor h₄)) e₆
              exact .dropTicket (.recUncorr h₆)
            next s₇ _ e₇ =>
              have h₇ := Evolves.of_snd (.memRead (.viewFor h₄)) e₇
              exact .dropTicket h₇
            next s₈ e₈ =>
              have h₈ := Evolves.of_snd (.memRead (.viewFor h₄)) e₈
              split
              · exact .dropTicket h₈
              · split
                next s₉ e₉ =>
                  have h₉ := WrOk.of_done (.writeAt h₈) e₉
                  split
                  next s₁₀ e₁₀ =>
                    have h₁₀ := Evolves.of_snd (.landWrite (.meterWr h₉)) e₁₀
                    exact h₁₀
                  next s₁₁ _ e₁₁ =>
                    have h₁₁ := Evolves.of_snd (.landWrite (.meterWr h₉)) e₁₁
                    dsimp only
                    split
                    · exact .updTrk h₁₁
                    · exact h₁₁
                · exact .holdAccess h₈
                · exact .dropTicket (.recUncorr h₈)
                · exact .dropTicket h₈

/-! ### Extent -/

theorem EffOk.bodyExtentAssign {a : Cmd} (h : Evolves s₀ s) : EffOk s₀ (bodyExtentAssign a s) := by
  unfold Machine.bodyExtentAssign
  split
  · exact .stat h
  · split
    · exact .stat h
    · exact .ite (.waitFor h) (.ok (.forExts h (fun _ _ => .updExt)))

theorem Evolves.scrubExt {idx : ℕ} (h : Evolves s₀ s) : Evolves s₀ (scrubExt idx s) := by
  unfold Machine.scrubExt
  dsimp only
  refine .foldl h fun _ _ h₄ => ?_
  split
  · exact .ite h₄ (.parts h₄ (.of_mem (.memClear h₄.store.mem)) h₄.tiles)
  · exact h₄

theorem Evolves.removeObjsIn {idx : ℕ} (h : Evolves s₀ s) : Evolves s₀ (removeObjsIn idx s) :=
  .foldl h (fun _ _ => .removeObj)

theorem Evolves.revokeExt {scrub : Bool} {idx : ℕ} (h : Evolves s₀ s) : Evolves s₀ (revokeExt scrub idx s) := by
  unfold Machine.revokeExt
  exact .ite (.scrubExt (.reapLaps (.removeObjsIn (.cancelTier (.frame (.updExt (.abandonLap h))))))) (.reapLaps
    (.removeObjsIn (.cancelTier (.frame (.updExt (.abandonLap h))))))

theorem Evolves.tryRevoke {o : Open} {idxs : List ℕ} {scrub : Bool} (h : Evolves s₀ s) :
    Evolves s₀ (tryRevoke o idxs scrub s).1 :=
  .ite_fst h (.ite_fst (.recallExts h) (.ite_fst h (.completeIf (.forExts h (fun _ _ => .revokeExt)))))

theorem EffOk.bodyExtentRevoke {a : Cmd} (h : Evolves s₀ s) : EffOk s₀ (bodyExtentRevoke a s) := by
  unfold Machine.bodyExtentRevoke
  split
  · exact .stat h
  · split
    · exact .stat h
    · exact .ite (.waitFor h) (.later (.addJob (.tryRevoke (.forExts h (fun _ _ => .updExt)))))

theorem EffOk.bodyExtentQuery {a : Cmd} (h : Evolves s₀ s) : EffOk s₀ (bodyExtentQuery a s) := .ite (.stat h) (.data h)

theorem EffOk.ackExt {r : BitVec 6} {idx through : ℕ} {accept : Bool} (h : Evolves s₀ s) :
    EffOk s₀ (ackExt s r idx through accept) := by
  unfold Machine.ackExt
  split
  · exact .stat h
  · exact .ite (.stat h) (.ite (.ok h) (.ite (.stat h) (.ok (.updExt (.setLoss h)))))

theorem EffOk.bodyLossAck {a : Cmd} (h : Evolves s₀ s) : EffOk s₀ (bodyLossAck a s) := by
  unfold Machine.bodyLossAck
  dsimp only
  split
  · exact .stat h
  · split
    · exact .ite (.stat h) (.data h)
    · split
      · exact .stat h
      · exact .ackExt h

/-! ### FabricBase -/

theorem Evolves.updPort {p : ℕ} {f : FPort → FPort} (h : Evolves s₀ s) : Evolves s₀ (updPort p f s) := by
  unfold Machine.updPort
  exact .frame h

theorem Evolves.setChan {c : Chan} (h : Evolves s₀ s) : Evolves s₀ (setChan c s) := by
  unfold Machine.setChan
  exact .frame h

theorem Evolves.closeFrame {f : GFrame} (h : Evolves s₀ s) : Evolves s₀ (closeFrame f s) := by
  unfold Machine.closeFrame
  exact .ite (.frame h) (.emit (.frame h))

theorem Evolves.packRecord {peloton dst : ℕ} {p : StorePkt} (h : Evolves s₀ s) : Evolves s₀ (packRecord peloton dst p s) := by
  unfold Machine.packRecord
  dsimp only
  split
  · dsimp only
    exact .ite (.closeFrame (.closeFrame h)) (.frame (.closeFrame h))
  · dsimp only
    exact .ite (.closeFrame h) (.frame h)

theorem Evolves.sendPkt {peloton dst : ℕ} {port : Option (Fin 24)} {p : StorePkt} (h : Evolves s₀ s) :
    Evolves s₀ (sendPkt peloton dst port p s) :=
  .ite (.emit h) (.packRecord h)

theorem Evolves.sendStore {source : BitVec 24} {peloton dst : ℕ} {rider : BitVec 6} {opa : Word} {data : List Byte}
    {flagged : Bool} {done : Option (BitVec 10 × BitVec 4 × ℕ)} (h : Evolves s₀ s) :
    Evolves s₀ (sendStore source peloton dst rider opa data flagged done s).2 :=
  .ite_snd h (.ite_snd h (.sendPkt (.setChan (.meterFab h))))

theorem Evolves.fenceDone {source : BitVec 24} (h : Evolves s₀ s) : Evolves s₀ (fenceDone source s) := by
  unfold Machine.fenceDone
  exact .frame h

theorem Evolves.fenceFrames {source : BitVec 24} (h : Evolves s₀ s) : Evolves s₀ (fenceFrames source s) :=
  .foldl h (fun _ _ => .closeFrame)

theorem Evolves.emitLoad {x : RLoad} (h : Evolves s₀ s) : Evolves s₀ (emitLoad x s) := .emit h

theorem Evolves.resendLoad {x : RLoad} (h : Evolves s₀ s) : Evolves s₀ (resendLoad x s) := by
  unfold Machine.resendLoad
  exact .ite (.emitLoad (.frame h)) (.frame h)

theorem Evolves.dropLoads {p : LoadBy → Bool} (h : Evolves s₀ s) : Evolves s₀ (dropLoads p s) := by
  unfold Machine.dropLoads
  exact .frame h

theorem Evolves.askRemote {peloton m : ℕ} {r : BitVec 6} {opa : Word} {who : LoadBy} (h : Evolves s₀ s) :
    Evolves s₀ (askRemote peloton m r opa who s) := by
  unfold Machine.askRemote
  exact .ite (.frame h) (.emitLoad (.frame h))

theorem Evolves.sendBlock {peloton : ℕ} {r : BitVec 6} {opa : Word} {a : Access} (h : Evolves s₀ s) :
    Evolves s₀ (sendBlock peloton r opa a s) := by
  unfold Machine.sendBlock
  exact .ite (.frame h) (.ite (.frame h) (.emit (.frame h)))

/-! ### Tile -/

theorem Evolves.leaveWait {t : BitVec 10} {c : BitVec 4} (h : Evolves s₀ s) : Evolves s₀ (leaveWait t c s) := by
  unfold Machine.leaveWait
  split
  · dsimp only
    split
    · exact .updCtx (.frame h)
    · exact .updCtx h
    · exact .updCtx h
    · exact h
  · exact h

theorem Evolves.progEnd {t : BitVec 10} {n : ℕ} (h : Evolves s₀ s) : Evolves s₀ (progEnd t n s) := by
  induction n generalizing s with
  | zero =>
    unfold Machine.progEnd
    exact h
  | succ n ih =>
    unfold Machine.progEnd
    split
    · exact h
    · split
      · exact .ite (ih (.ctxFault h)) (.ite h (.updCtx h))
      · exact h

theorem Evolves.stallCycles {t : BitVec 10} (h : Evolves s₀ s) : Evolves s₀ (stallCycles t s) := by
  unfold Machine.stallCycles
  exact .updTile (.takeFree h) (fun _ => .frame)

theorem Evolves.bankCycles {t : BitVec 10} (h : Evolves s₀ s) : Evolves s₀ (bankCycles t s) := by
  unfold Machine.bankCycles
  exact .updTile (.takeFree h) (fun _ => .frame)

theorem Evolves.endIssue {a : At} (h : Evolves s₀ s) : Evolves s₀ (endIssue a s) := by
  unfold Machine.endIssue
  split
  · exact h
  · exact .progEnd (.setCtxSt (.updCtx (.stallCycles h)))

theorem SlotOk.slotFault {a : At} {k : Ctx} {st : Status} (h : Evolves s₀ s) : SlotOk s₀ (slotFault a k st s) :=
  .done (.ctxFault h)

theorem Evolves.endTurn {a : At} (h : Evolves s₀ s) : Evolves s₀ (endTurn a s) := .updCtx h

theorem Evolves.block {a : At} {b : Block} (h : Evolves s₀ s) : Evolves s₀ (block a b s) := .endTurn (.updCtx h)

theorem Evolves.putReg {t : BitVec 10} {c : BitVec 4} {r : BitVec 5} {v : Word} (h : Evolves s₀ s) :
    Evolves s₀ (putReg t c r v s) :=
  .updCtx h

theorem Evolves.clientXlat {cl : XClient} {r : BitVec 6} {va : Word} {write : Bool} {acc : Option Access}
    (h : Evolves s₀ s) : Evolves s₀ (clientXlat s cl r va write acc).2 := by
  unfold Machine.clientXlat
  dsimp only
  split
  · dsimp only
    split
    · exact .giveWalkers (.dropWalk h)
    · exact h
  · split
    · exact .ite h (.updWalk (.queueWalk h))
    · split
      · dsimp only
        split
        · exact .giveWalkers (.dropWalk h)
        · exact h
      · dsimp only
        split
        · exact .giveWalkers (.dropWalk h)
        · exact h
      · split
        · exact .ite h (.updWalk (.queueWalk h))
        · split
          next s₁ e₁ =>
            have h₁ := OptSndOk.of_some (.xlatHit h) e₁
            dsimp only
            split
            · exact .giveWalkers (.dropWalk h₁)
            · exact h₁
          · split
            · exact .giveWalkers (.updWalk h)
            · exact .ite h (.updWalk (.queueWalk h))

theorem Evolves.accXlat {a : Access} {r : BitVec 6} {va : Word} {write : Bool} (h : Evolves s₀ s) :
    Evolves s₀ (accXlat s a r va write).2 := by
  unfold Machine.accXlat
  split
  next s₁ e₁ =>
    have h₁ := OptSndOk.of_some (.ite (.xlatHit h) .none) e₁
    exact h₁
  · exact .clientXlat h

theorem TileOk.cachePut {line : ℕ} {data : List Byte} {x : Tile} (h : TileOk s₀ x) : TileOk s₀ (cachePut line data x) := by
  unfold Machine.cachePut
  exact .frame h

theorem Evolves.afterStores {t : BitVec 10} {c : BitVec 4} (h : Evolves s₀ s) : Evolves s₀ (afterStores t c s) := by
  unfold Machine.afterStores
  split
  · exact h
  · split
    · exact .ite (.makeReady h) h
    · exact .ite (.makeReady (.updCtx (.fenceDone h))) h
    · exact h

theorem Evolves.dropStore {t : BitVec 10} {c : BitVec 4} {seq : ℕ} (h : Evolves s₀ s) : Evolves s₀ (dropStore t c seq s) :=
  .afterStores (.updCtx h)

theorem Evolves.refuseStore {t : BitVec 10} {c : BitVec 4} {e : StoreEnt} {st : Status} {dst : Option ℕ}
    (h : Evolves s₀ s) : Evolves s₀ (refuseStore t c e st dst s) :=
  .ctxFault (.dropStore (.updCtx h))

theorem Evolves.failAcc {a : Access} {st : Status} {off : ℕ} (h : Evolves s₀ s) : Evolves s₀ (failAcc a st off s) := by
  unfold Machine.failAcc
  split
  · split
    · exact .ite (.ctxFault (.updCtx h)) h
    · exact h
  · exact h

theorem Evolves.pumpStores {t : BitVec 10} {c : BitVec 4} {n : ℕ} (h : Evolves s₀ s) : Evolves s₀ (pumpStores t c n s) := by
  induction n generalizing s with
  | zero =>
    unfold Machine.pumpStores
    exact h
  | succ n ih =>
    unfold Machine.pumpStores
    split
    · split
      · exact h
      · dsimp only
        split
        next s₁ e₁ =>
          have h₁ := Evolves.of_snd (.clientXlat h) e₁
          exact h₁
        next s₂ e₂ =>
          have h₂ := Evolves.of_snd (.clientXlat h) e₂
          exact ih (.refuseStore h₂)
        next s₃ e₃ =>
          have h₃ := Evolves.of_snd (.clientXlat h) e₃
          exact ih (.refuseStore (.xlatFault h₃))
        next s₄ e₄ =>
          have h₄ := Evolves.of_snd (.clientXlat h) e₄
          split
          · exact ih (.updCtx h₄)
          · split
            · exact ih (.refuseStore h₄)
            · split
              · exact ih (.refuseStore (.badOpa h₄))
              · exact ih (.refuseStore h₄)
              · split
                · exact ih (.refuseStore h₄)
                · split
                  next s₅ e₅ =>
                    have h₅ := Evolves.of_snd (.sendStore h₄) e₅
                    exact ih (.updCtx (.ite (.updCtx h₅) h₅))
                  next s₆ e₆ =>
                    have h₆ := Evolves.of_snd (.sendStore h₄) e₆
                    exact h₆
                  next s₇ e₇ =>
                    have h₇ := Evolves.of_snd (.sendStore h₄) e₇
                    exact ih (.refuseStore h₇)
              · split
                · exact ih (.refuseStore h₄)
                · split
                  next s₈ e₈ =>
                    have h₈ := Evolves.of_snd (.sendStore h₄) e₈
                    exact ih (.updCtx (.ite (.updCtx h₈) h₈))
                  next s₉ e₉ =>
                    have h₉ := Evolves.of_snd (.sendStore h₄) e₉
                    exact h₉
                  next s₁₀ e₁₀ =>
                    have h₁₀ := Evolves.of_snd (.sendStore h₄) e₁₀
                    exact ih (.refuseStore h₁₀)
              · exact ih (.updCtx h₄)
    · exact h

theorem SlotOk.doStore {a : At} {k : Ctx} {va : Word} {data : List Byte} {flagged : Bool} (h : Evolves s₀ s) :
    SlotOk s₀ (doStore a k va data flagged s) :=
  .done (.pumpStores (.ite (.block (.foldl (.updTile h (fun _ => .cacheDrop)) (fun _ _ => .updCtx))) (.endTurn (.foldl
    (.updTile h (fun _ => .cacheDrop)) (fun _ _ => .updCtx)))))

theorem Evolves.issueAcc {t : BitVec 10} {c : BitVec 4} (h : Evolves s₀ s) : Evolves s₀ (issueAcc t c s) := by
  unfold Machine.issueAcc
  split
  · split
    · split
      · exact h
      · split
        next s₁ e₁ =>
          have h₁ := Evolves.of_snd (.clientXlat h) e₁
          exact h₁
        next s₂ e₂ =>
          have h₂ := Evolves.of_snd (.clientXlat h) e₂
          exact .failAcc h₂
        next s₃ e₃ =>
          have h₃ := Evolves.of_snd (.clientXlat h) e₃
          exact .failAcc (.xlatFault h₃)
        next s₄ e₄ =>
          have h₄ := Evolves.of_snd (.clientXlat h) e₄
          dsimp only
          split
          · split
            · exact .failAcc (.updCtx h₄)
            · exact .askRemote (.updCtx (.updCtx h₄))
          · split
            · exact .failAcc (.updCtx h₄)
            · exact .sendBlock (.updCtx (.updCtx h₄))
          · exact .updCtx h₄
    · exact h
  · exact h

theorem Evolves.accRead {a : Access} {r : BitVec 6} {va len : ℕ} (h : Evolves s₀ s) :
    Evolves s₀ (accRead s a r va len).2 := by
  unfold Machine.accRead
  refine .foldl_snd h fun _ _ h₃ => ?_
  split
  · dsimp only
    split
    next s₄ e₄ =>
      have h₄ := Evolves.of_snd (.accXlat h₃) e₄
      exact h₄
    next s₅ e₅ =>
      have h₅ := Evolves.of_snd (.accXlat h₃) e₅
      exact h₅
    next s₆ e₆ =>
      have h₆ := Evolves.of_snd (.accXlat h₃) e₆
      exact .xlatFault h₆
    next s₇ e₇ =>
      have h₇ := Evolves.of_snd (.accXlat h₃) e₇
      split
      · exact h₇
      · split
        · split
          next s₈ e₈ =>
            have h₈ := Evolves.of_snd (.homeRead h₇) e₈
            exact h₈
          · exact .homeRead h₇
        · split
          · exact h₇
          · exact h₇
        · exact h₇
        · exact .badOpa h₇
        · exact h₇
  · exact h₃

theorem Evolves.endLoad {a : Access} {sd : BitVec 5} {bs : List Byte} {line : Option (List Byte)} (h : Evolves s₀ s) :
    Evolves s₀ (endLoad a sd bs line s) := by
  unfold Machine.endLoad
  dsimp only
  refine .makeReady ?_
  refine .putReg ?_
  split
  · exact .ite h (.updTile h (fun _ => .cachePut))
  · exact h

theorem Evolves.localLoad {a : Access} {r : BitVec 6} {n : ℕ} {sd : BitVec 5} {cached : Bool} (h : Evolves s₀ s) :
    Evolves s₀ (localLoad a r n sd cached s) := by
  unfold Machine.localLoad
  dsimp only
  split
  next s₁ e₁ =>
    have h₁ := Evolves.of_snd (.accRead h) e₁
    exact h₁
  next s₂ e₂ =>
    have h₂ := Evolves.of_snd (.accRead h) e₂
    exact .failAcc h₂
  next s₃ e₃ =>
    have h₃ := Evolves.of_snd (.accRead h) e₃
    exact .ite (.endLoad h₃) (.endLoad h₃)

theorem Evolves.localAtom {a : Access} {r : BitVec 6} {op : AtomOp} {sd : BitVec 5} (h : Evolves s₀ s) :
    Evolves s₀ (localAtom a r op sd s) := by
  unfold Machine.localAtom
  dsimp only
  split
  next s₁ e₁ =>
    have h₁ := Evolves.of_snd (.accXlat h) e₁
    exact h₁
  next s₂ e₂ =>
    have h₂ := Evolves.of_snd (.accXlat h) e₂
    exact .failAcc h₂
  next s₃ e₃ =>
    have h₃ := Evolves.of_snd (.accXlat h) e₃
    exact .failAcc (.xlatFault h₃)
  next s₄ e₄ =>
    have h₄ := Evolves.of_snd (.accXlat h) e₄
    split
    · exact h₄
    · split
      · exact .failAcc h₄
      · split
        · split
          next s₅ e₅ =>
            have h₅ := Evolves.of_snd (.homeAtomic h₄) e₅
            exact .makeReady (.putReg h₅)
          next s₆ e₆ =>
            have h₆ := Evolves.of_snd (.homeAtomic h₄) e₆
            exact h₆
          next s₇ e₇ =>
            have h₇ := Evolves.of_snd (.homeAtomic h₄) e₇
            exact .failAcc h₇
        · split
          · exact .failAcc h₄
          · split
            · exact .failAcc h₄
            · exact .makeReady (.putReg (.syncWrite h₄))
            · exact .failAcc h₄
        · exact .failAcc h₄
        · exact .ite (.failAcc h₄) (.failAcc (.badOpa h₄))
        · exact .failAcc h₄

/-! ### TileMem -/

theorem SlotOk.loadOp {a : At} {cached : Bool} {size : BitVec 2} {sd : BitVec 5} {addr : AddrOp} {x : Tile} {p : Prog}
    {k : Ctx} (h : Evolves s₀ s) : SlotOk s₀ (loadOp a cached size sd addr x p k s) := by
  unfold Machine.loadOp
  dsimp only
  split
  · exact .done (.putReg (.updTile (.ite (.corrected (.updTile h (fun _ => .cacheDrop))) h) (fun _ => .cachePut)))
  · exact .done (.issueAcc (.updCtx (.block (.ite (.corrected (.updTile h (fun _ => .cacheDrop))) h))))

theorem SlotOk.storeOp {a : At} {flagged : Bool} {size : BitVec 2} {ss : BitVec 5} {addr : AddrOp} {_x : Tile}
    {_p : Prog} {k : Ctx} (h : Evolves s₀ s) : SlotOk s₀ (storeOp a flagged size ss addr _x _p k s) :=
  .doStore h

theorem SlotOk.atomOp {a : At} {code : BitVec 4} {size : BitVec 2} {sd : BitVec 5} {addr : AddrOp} {sa sb : BitVec 5}
    {_x : Tile} {p : Prog} {k : Ctx} (h : Evolves s₀ s) : SlotOk s₀ (atomOp a code size sd addr sa sb _x p k s) :=
  .ite .bad (.done (.issueAcc (.block (.updTile h (fun _ => .cacheDrop)))))

theorem Evolves.remoteLoad {a : Access} {n : ℕ} {sd : BitVec 5} {cached : Bool} {ret : RemoteRet} (h : Evolves s₀ s) :
    Evolves s₀ (remoteLoad a n sd cached ret s) :=
  .ite (.failAcc h) (.ite (.endLoad h) (.endLoad h))

theorem Evolves.loadReturn {t : BitVec 10} {c : BitVec 4} {remote : Option RemoteRet} (h : Evolves s₀ s) :
    Evolves s₀ (loadReturn t c remote s) := by
  unfold Machine.loadReturn
  split
  · split
    · split
      · exact .remoteLoad (.dropLoads h)
      · exact h
    · split
      · exact h
      · dsimp only
        split
        · split
          · exact .issueAcc h
          · split
            · exact .localLoad (.issueAcc h)
            · exact .localAtom (.issueAcc h)
            · exact .issueAcc h
        · exact .issueAcc h
    · exact h
  · exact h

theorem Evolves.landStore {t : BitVec 10} {c : BitVec 4} {seq : ℕ} {status : Status} (h : Evolves s₀ s) :
    Evolves s₀ (landStore t c seq status s) := by
  unfold Machine.landStore
  dsimp only
  split
  · split
    · exact .pumpStores h
    · split
      · exact .pumpStores h
      · split
        · exact .refuseStore (.pumpStores h)
        · split
          · exact .refuseStore (.pumpStores h)
          · split
            · split
              next s₁ e₁ =>
                have h₁ := Evolves.of_snd (.homeWrite (.pumpStores h)) e₁
                exact .dropStore (.ite (.updCtx h₁) h₁)
              next s₂ e₂ =>
                have h₂ := Evolves.of_snd (.homeWrite (.pumpStores h)) e₂
                exact h₂
              next s₃ e₃ =>
                have h₃ := Evolves.of_snd (.homeWrite (.pumpStores h)) e₃
                exact .refuseStore h₃
            · split
              · exact .refuseStore (.pumpStores h)
              · split
                · exact .refuseStore (.pumpStores h)
                · exact .dropStore (.ite (.updCtx (.syncWrite (.pumpStores h))) (.syncWrite (.pumpStores h)))
            · exact .refuseStore (.pumpStores h)
            · exact .refuseStore (.pumpStores h)
  · exact .pumpStores h

theorem SlotOk.fenceOp {a : At} {_x : Tile} {_p : Prog} {k : Ctx} (h : Evolves s₀ s) : SlotOk s₀ (fenceOp a _x _p k s) :=
  .ite (.done (.updCtx (.fenceDone (.fenceFrames h)))) (.done (.block (.fenceFrames h)))

theorem SlotOk.acqOp {a : At} {sa sb : BitVec 5} {_x : Tile} {_p : Prog} {k : Ctx} (h : Evolves s₀ s) :
    SlotOk s₀ (acqOp a sa sb _x _p k s) :=
  .done (.updTile h (fun _ => .acquire))

theorem SlotOk.signalOp {a : At} {add : Bool} {obj : BitVec 14} {ss : BitVec 5} {_x : Tile} {_p : Prog} {k : Ctx}
    (h : Evolves s₀ s) : SlotOk s₀ (signalOp a add obj ss _x _p k s) :=
  .done (.ite (.block (.updCtx h)) (.endTurn (.updCtx h)))

theorem Evolves.applySignal {t : BitVec 10} {c : BitVec 4} (h : Evolves s₀ s) : Evolves s₀ (applySignal t c s) := by
  unfold Machine.applySignal
  split
  · split
    · exact h
    · split
      · exact h
      · split
        · exact .afterStores (.updCtx h)
        · dsimp only
          split
          · exact .ctxFault (.afterStores (.updCtx h))
          · exact .afterStores (.ite (.syncAdd (.updCtx h)) (.syncWrite (.updCtx h)))
  · exact h

theorem SlotOk.waitOp {a : At} {obj : BitVec 14} {cmp : BitVec 2} {ss sa sb sl sd : BitVec 5} {x : Tile} {p : Prog}
    {k : Ctx} (h : Evolves s₀ s) : SlotOk s₀ (waitOp a obj cmp ss sa sb sl sd x p k s) := by
  unfold Machine.waitOp
  split
  · exact .bad
  · split
    · exact .slotFault h
    · exact .ite (.done (.endTurn (.putReg (.updTile h (fun _ => .acquire))))) (.done (.block (.frame h)))

theorem Evolves.waitExpires {t : BitVec 10} {c : BitVec 4} (h : Evolves s₀ s) : Evolves s₀ (waitExpires t c s) := by
  unfold Machine.waitExpires
  split
  · split
    · exact .ite h (.endCtxWait (.frame h))
    · exact h
  · exact h

/-! ### TileData -/

theorem TileOk.pannierWrite {off : ℕ} {bs : List Byte} {x : Tile} (h : TileOk s₀ x) : TileOk s₀ (pannierWrite off bs x) :=
  .of_pannier (.memWriteN h.pannier)

theorem TileOk.pannierBeat {n : BitVec 5} {off store : ℕ} {bs : List Byte} {x : Tile} (h : TileOk s₀ x) :
    TileOk s₀ (pannierBeat n off store bs x) :=
  .of_pannier (.memWriteN h.pannier)

theorem Evolves.pannierEcc {t : BitVec 10} (h : Evolves s₀ s) : Evolves s₀ (pannierEcc t s).2 :=
  .ite_snd h (.ite_snd (.corrected h) h)

theorem Evolves.bankMeets {t : BitVec 10} {off n : ℕ} (h : Evolves s₀ s) : Evolves s₀ (bankMeets t off n s) :=
  .ite (.bankCycles h) h

theorem SlotOk.pannierOp {a : At} {k : Ctx} {addr : AddrOp} {n align : ℕ} {read : Bool} {f : ℕ → State → State}
    (h : Evolves s₀ s) (hf : ∀ (a : ℕ) (t : State), Evolves s₀ t → Evolves s₀ (f a t)) :
    SlotOk s₀ (pannierOp a k addr n align read s f) := by
  unfold Machine.pannierOp
  dsimp only
  split
  · exact .slotFault h
  · split
    · exact .slotFault h
    · split
      · exact .done (hf _ _ (.bankMeets h))
      · split
        next s₁ e₁ =>
          have h₁ := Evolves.of_snd (.pannierEcc (.bankMeets h)) e₁
          exact .done (.ctxFaultAt h₁)
        next s₂ e₂ =>
          have h₂ := Evolves.of_snd (.pannierEcc (.bankMeets h)) e₂
          exact .done (hf _ _ h₂)

theorem SlotOk.ldPSlot {a : At} {size : BitVec 2} {sd : BitVec 5} {addr : AddrOp} {a₁ : Tile} {a₂ : Prog} {a₃ : Ctx}
    (h : Evolves s₀ s) : SlotOk s₀ (ldPSlot a size sd addr a₁ a₂ a₃ s) :=
  .pannierOp h (fun _ _ => .putReg)

theorem SlotOk.stPSlot {a : At} {size : BitVec 2} {ss : BitVec 5} {addr : AddrOp} {a₁ : Tile} {a₂ : Prog} {a₃ : Ctx}
    (h : Evolves s₀ s) : SlotOk s₀ (stPSlot a size ss addr a₁ a₂ a₃ s) :=
  .pannierOp h (fun _ _ h₁ => .updTile h₁ (fun _ => .pannierWrite))

theorem Evolves.putVec {a : At} {r : BitVec 5} {v : List (BitVec 32)} (h : Evolves s₀ s) : Evolves s₀ (putVec a r v s) :=
  .updCtx h

theorem SlotOk.vpackOp {a : At} {vs : BitVec 5} {addr : AddrOp} {fmt : BitVec 4} {gear : BitVec 2} {_x : Tile}
    {_p : Prog} {k : Ctx} (h : Evolves s₀ s) : SlotOk s₀ (vpackOp a vs addr fmt gear _x _p k s) := by
  unfold Machine.vpackOp
  split
  · exact .bad
  · split
    · exact .bad
    · exact .pannierOp h (fun _ _ h₁ => .updTile h₁ (fun _ => .pannierWrite))

theorem SlotOk.vldPSlot {a : At} {vd : BitVec 5} {addr : AddrOp} {a₁ : Tile} {a₂ : Prog} {a₃ : Ctx}
    (h : Evolves s₀ s) : SlotOk s₀ (vldPSlot a vd addr a₁ a₂ a₃ s) :=
  .pannierOp h (fun _ _ => .putVec)

theorem SlotOk.vstPSlot {a : At} {vs : BitVec 5} {addr : AddrOp} {a₁ : Tile} {a₂ : Prog} {a₃ : Ctx}
    (h : Evolves s₀ s) : SlotOk s₀ (vstPSlot a vs addr a₁ a₂ a₃ s) :=
  .pannierOp h (fun _ _ h₁ => .updTile h₁ (fun _ => .pannierWrite))

theorem TileOk.xaPut {r : ℕ} {v : List Machine.Acc} {x : Tile} (h : TileOk s₀ x) : TileOk s₀ (xaPut r v x) := by
  unfold Machine.xaPut
  exact .frame h

theorem SlotOk.xaSaveOp {a : At} {r : BitVec 3} {addr : AddrOp} {x : Tile} {p : Prog} {k : Ctx} (h : Evolves s₀ s) :
    SlotOk s₀ (xaSaveOp a r addr x p k s) :=
  .ite .bad (.pannierOp h fun _ _ h => h.updTile fun _ => .pannierWrite)

theorem SlotOk.xaMergeOp {a : At} {r : BitVec 3} {addr : AddrOp} {x : Tile} {p : Prog} {k : Ctx} (h : Evolves s₀ s) :
    SlotOk s₀ (xaMergeOp a r addr x p k s) :=
  .ite .bad (.pannierOp h fun _ _ h => h.updTile fun _ => .xaPut)

theorem SlotOk.scalarSlot {a : At} {code : BitVec 8} {sd sa sb : BitVec 5} {a₁ : Tile} {a₂ : Prog} {a₃ : Ctx}
    (h : Evolves s₀ s) : SlotOk s₀ (scalarSlot a code sd sa sb a₁ a₂ a₃ s) :=
  .done (.putReg h)

theorem Evolves.setJump {a : At} {target : BitVec 14} (h : Evolves s₀ s) : Evolves s₀ (setJump a target s) := .updCtx h

theorem SlotOk.branchSlot {a : At} {code : BitVec 4} {sa : BitVec 5} {target : BitVec 14} {a₁ : Tile} {a₂ : Prog}
    {a₃ : Ctx} (h : Evolves s₀ s) : SlotOk s₀ (branchSlot a code sa target a₁ a₂ a₃ s) :=
  .done (.ite (.setJump h) h)

theorem SlotOk.loopSlot {a : At} {code : BitVec 4} {sa : BitVec 5} {target : BitVec 14} {a₁ : Tile} {a₂ : Prog}
    {a₃ : Ctx} (h : Evolves s₀ s) : SlotOk s₀ (loopSlot a code sa target a₁ a₂ a₃ s) :=
  .done (.ite (.setJump (.updCtx h)) (.updCtx h))

theorem SlotOk.yieldSlot {a : At} {a₁ : Tile} {a₂ : Prog} {a₃ : Ctx} (h : Evolves s₀ s) :
    SlotOk s₀ (yieldSlot a a₁ a₂ a₃ s) :=
  .done (.endTurn h)

theorem SlotOk.haltSlot {a : At} {a₁ : Tile} {a₂ : Prog} {a₃ : Ctx} (h : Evolves s₀ s) :
    SlotOk s₀ (haltSlot a a₁ a₂ a₃ s) :=
  .done (.endTurn (.updCtx h))

theorem SlotOk.idSlot {a : At} {sd : BitVec 5} {a₁ : Tile} {a₂ : Prog} {a₃ : Ctx} (h : Evolves s₀ s) :
    SlotOk s₀ (idSlot a sd a₁ a₂ a₃ s) :=
  .done (.putReg h)

/-! ### Stream -/

theorem Evolves.updStream {t : BitVec 10} {n : BitVec 5} {f : Machine.Stream → Machine.Stream} (h : Evolves s₀ s) :
    Evolves s₀ (updStream t n f s) := by
  unfold Machine.updStream
  exact .updTile h (fun _ => .frame)

theorem Evolves.startStream {t : BitVec 10} {c : BitVec 4} {pc : ℕ} {n : BitVec 5} {desc : Word} (h : Evolves s₀ s) :
    Evolves s₀ (startStream t c pc n desc s) := by
  unfold Machine.startStream
  split
  · exact h
  · split
    · exact h
    · dsimp only
      split
      · exact .ctxFault h
      · split
        next s₁ e₁ =>
          have h₁ := Evolves.of_snd (.pannierEcc (.bankMeets h)) e₁
          exact .ctxFaultAt h₁
        next s₂ e₂ =>
          have h₂ := Evolves.of_snd (.pannierEcc (.bankMeets h)) e₂
          split
          · exact .ctxFault h₂
          · exact .ite (.ctxFault h₂) (.updTile h₂ (fun _ => .frame))

theorem Evolves.wakeStream {t : BitVec 10} {n : BitVec 5} (h : Evolves s₀ s) : Evolves s₀ (wakeStream t n s) := by
  unfold Machine.wakeStream
  refine .foldl h fun _ _ h₃ => ?_
  dsimp only
  split
  · split
    · split
      · exact h₃
      · split
        · exact .makeReady h₃
        · exact .ite h₃ (.startStream (.makeReady h₃))
    · exact h₃
  · exact h₃

theorem Evolves.endStream {t : BitVec 10} {n : BitVec 5} {st : Status} {signal : Bool} (h : Evolves s₀ s) :
    Evolves s₀ (endStream t n st signal s) := by
  unfold Machine.endStream
  split
  · exact h
  · exact .wakeStream (.ite (.signalField (.updStream (.dropLoads h))) (.updStream (.dropLoads h)))

theorem Evolves.failStream {t : BitVec 10} {n : BitVec 5} {st : Status} (h : Evolves s₀ s) :
    Evolves s₀ (failStream t n st s) := by
  unfold Machine.failStream
  split
  · exact h
  · exact .ite h (.ctxFault (.endStream h))

theorem Evolves.stopIdle {t : BitVec 10} (h : Evolves s₀ s) : Evolves s₀ (stopIdle t s) := by
  unfold Machine.stopIdle
  split
  · exact h
  · exact .foldl h (fun _ _ => .endStream)

theorem Evolves.nextBeat {t : BitVec 10} {z : Machine.Stream} (h : Evolves s₀ s) : Evolves s₀ (nextBeat t z s) :=
  .ite (.endStream (.updStream h)) (.stopIdle (.updStream h))

theorem Evolves.beat {t : BitVec 10} {z : Machine.Stream} {r : BitVec 6} {x : Tile}
    {ret : Option (List Byte × Status)} (h : Evolves s₀ s) : Evolves s₀ (beat t z r x ret s) := by
  unfold Machine.beat
  dsimp only
  split
  · exact h
  · split
    next s₁ e₁ =>
      have h₁ := Evolves.of_snd (.clientXlat h) e₁
      exact h₁
    next s₂ e₂ =>
      have h₂ := Evolves.of_snd (.clientXlat h) e₂
      exact .failStream h₂
    next s₃ e₃ =>
      have h₃ := Evolves.of_snd (.clientXlat h) e₃
      exact .failStream (.xlatFault h₃)
    next s₄ e₄ =>
      have h₄ := Evolves.of_snd (.clientXlat h) e₄
      split
      next s₅ e₅ =>
        have h₅ := Evolves.of_snd (.ite_snd (.pannierEcc h₄) h₄) e₅
        exact .failStream h₅
      next s₆ e₆ =>
        have h₆ := Evolves.of_snd (.ite_snd (.pannierEcc h₄) h₄) e₆
        split
        · split
          · split
            next s₇ e₇ =>
              have h₇ := Evolves.of_snd (.homeWrite h₆) e₇
              exact .nextBeat h₇
            next s₈ e₈ =>
              have h₈ := Evolves.of_snd (.homeWrite h₆) e₈
              exact h₈
            next s₉ e₉ =>
              have h₉ := Evolves.of_snd (.homeWrite h₆) e₉
              exact .failStream h₉
          · split
            next s₁₀ e₁₀ =>
              have h₁₀ := Evolves.of_snd (.homeRead h₆) e₁₀
              exact .nextBeat (.updTile h₁₀ (fun _ => .pannierBeat))
            next s₁₂ e₁₂ =>
              have h₁₂ := Evolves.of_snd (.homeRead h₆) e₁₂
              exact h₁₂
            next s₁₃ e₁₃ =>
              have h₁₃ := Evolves.of_snd (.homeRead h₆) e₁₃
              exact .failStream h₁₃
        · exact .failStream h₆
        · exact .failStream h₆
        · exact .failStream (.badOpa h₆)
        · split
          · split
            · split
              next s₁₄ e₁₄ =>
                have h₁₄ := Evolves.of_snd (.sendStore h₆) e₁₄
                exact .updStream h₁₄
              next s₁₅ e₁₅ =>
                have h₁₅ := Evolves.of_snd (.sendStore h₆) e₁₅
                exact h₁₅
              next s₁₆ e₁₆ =>
                have h₁₆ := Evolves.of_snd (.sendStore h₆) e₁₆
                exact .failStream h₁₆
            · exact .updStream (.askRemote h₆)
          · split
            · exact h₆
            · exact .ite (.dropLoads h₆) (.ite (.failStream (.dropLoads h₆)) (.ite (.nextBeat (.dropLoads h₆)) (.nextBeat
                (.updTile (.dropLoads h₆) (fun _ => .pannierBeat)))))
        · split
          · split
            · split
              next s₁₈ e₁₈ =>
                have h₁₈ := Evolves.of_snd (.sendStore h₆) e₁₈
                exact .updStream h₁₈
              next s₁₉ e₁₉ =>
                have h₁₉ := Evolves.of_snd (.sendStore h₆) e₁₉
                exact h₁₉
              next s₂₀ e₂₀ =>
                have h₂₀ := Evolves.of_snd (.sendStore h₆) e₂₀
                exact .failStream h₂₀
            · exact .updStream (.askRemote h₆)
          · split
            · exact h₆
            · exact .ite (.dropLoads h₆) (.ite (.failStream (.dropLoads h₆)) (.ite (.nextBeat (.dropLoads h₆)) (.nextBeat
                (.updTile (.dropLoads h₆) (fun _ => .pannierBeat)))))

theorem OutOk.execStreamBeatCompletion {t : BitVec 10} {n : BitVec 5} {remote : Option (List Byte × Status)}
    (h : Evolves s₀ s) : OutOk s₀ (execStreamBeatCompletion t n remote s) := by
  unfold Machine.execStreamBeatCompletion
  refine .next ?_
  refine .whenUp h fun _ h₅ => ?_
  split
  · split
    · exact .ite (.beat h₅) h₅
    · exact h₅
  · exact h₅

theorem SlotOk.streamOp {n : BitVec 5} {f : Tile → Ctx → State → State} {a : Tile} {a₁ : Prog} {a₂ : Ctx}
    (hf : ∀ (a : Tile) (b : Ctx) (t : State), TileOk s₀ a → Evolves s₀ t → Evolves s₀ (f a b t)) (h : TileOk s₀ a)
    (h' : Evolves s₀ s) : SlotOk s₀ (streamOp n f a a₁ a₂ s) :=
  .ite .bad (.done (hf _ _ _ h h'))

theorem SlotOk.strStartSlot {a : At} {n ss : BitVec 5} {a₁ : Tile} {a₂ : Prog} {a₃ : Ctx} (h : TileOk s₀ a₁)
    (h' : Evolves s₀ s) : SlotOk s₀ (strStartSlot a n ss a₁ a₂ a₃ s) :=
  .streamOp (fun _ _ _ _ h => .ite (.block h) (.startStream h)) h h'

theorem SlotOk.strWaitSlot {a : At} {n : BitVec 5} {a₁ : Tile} {a₂ : Prog} {a₃ : Ctx} (h : TileOk s₀ a₁)
    (h' : Evolves s₀ s) : SlotOk s₀ (strWaitSlot a n a₁ a₂ a₃ s) :=
  .streamOp (fun _ _ _ _ h => .ite (.block h) h) h h'

theorem SlotOk.strStopSlot {a : At} {n : BitVec 5} {a₁ : Tile} {a₂ : Prog} {a₃ : Ctx} (h : TileOk s₀ a₁)
    (h' : Evolves s₀ s) : SlotOk s₀ (strStopSlot a n a₁ a₂ a₃ s) :=
  .streamOp (fun _ _ _ _ h => .ite (.stopIdle (.updStream h)) h) h h'

theorem Evolves.wakeClient {cl : XClient} (h : Evolves s₀ s) : Evolves s₀ (wakeClient cl s) := by
  unfold Machine.wakeClient
  split
  · exact .foldl h (fun _ _ h₁ => .issueAcc (.pumpStores h₁))
  · exact h

theorem Evolves.walkReturn {wheel id : ℕ} (h : Evolves s₀ s) : Evolves s₀ (walkReturn wheel id s) := by
  unfold Machine.walkReturn
  split
  · exact h
  · dsimp only
    split
    · exact h
    · split
      · exact .wakeClient h
      · split
        · exact .wakeClient (.giveWalkers (.updWalk h))
        · split
          next s₁ e₁ =>
            have h₁ := Evolves.of_snd (.walkStep h) e₁
            exact .updWalk h₁
          next s₂ e₂ =>
            have h₂ := Evolves.of_snd (.walkStep h) e₂
            exact .updWalk h₂
          next s₃ e₃ =>
            have h₃ := Evolves.of_snd (.walkStep h) e₃
            exact .wakeClient (.giveWalkers (.updWalk (.fillLeaf h₃)))
          next s₄ _ e₄ =>
            have h₄ := Evolves.of_snd (.walkStep h) e₄
            exact .wakeClient (.giveWalkers (.updWalk h₄))

/-! ### Datapath -/

theorem SlotOk.dpOp {a : At} {cfg vd va vb vc sa : BitVec 5} {x : Tile} {p : Prog} {k : Ctx} (h : Evolves s₀ s) :
    SlotOk s₀ (dpOp a cfg vd va vb vc sa x p k s) := by
  unfold Machine.dpOp
  split
  · exact .bad
  · split
    · exact .bad
    · dsimp only
      refine .done ?_
      split
      · exact .putVec (.updTile h (fun _ => .frame))
      · exact .updTile h (fun _ => .frame)

/-! ### Matrix -/

theorem TileOk.accPut {t : ℕ} {v : List (BitVec 32)} {x : Tile} (h : TileOk s₀ x) : TileOk s₀ (accPut t v x) := by
  unfold Machine.accPut
  exact .frame h

theorem SlotOk.mmaOp {a : At} {t sd : BitVec 5} {x : Tile} {p : Prog} {k : Ctx} (h : Evolves s₀ s) :
    SlotOk s₀ (mmaOp a t sd x p k s) := by
  unfold Machine.mmaOp
  exact .ite .bad (.ite (.slotFault h) (.ite .held (.done (.updTile h (fun _ => .frame)))))

theorem Evolves.gearFaultAt {t : BitVec 10} {m : MmaOp} {e : ℕ × GearFault} {x : Tile} (h : Evolves s₀ s) :
    Evolves s₀ (gearFaultAt t m e x s) := by
  unfold Machine.gearFaultAt
  dsimp only
  refine .ctxFaultAt ?_
  split
  · exact .updTile h (fun _ => .frame)
  · exact h

theorem Evolves.runMma {t : BitVec 10} (h : Evolves s₀ s) : Evolves s₀ (runMma t s) := by
  unfold Machine.runMma
  split
  · exact h
  · split
    · exact h
    · dsimp only
      split
      · split
        · exact .ctxFaultAt (.updTile (.pannierEcc (.bankCycles h)) (fun _ h₄ => .accPut (.frame h₄)))
        · split
          · exact .stopIdle (.gearFaultAt (.updTile (.pannierEcc (.bankCycles h)) (fun _ h₅ => .accPut (.frame h₅))))
          · exact .updTile (.pannierEcc (.bankCycles h)) (fun _ h₆ => .accPut (.frame h₆))
      · split
        · exact .ctxFaultAt (.updTile (.pannierEcc h) (fun _ h₈ => .accPut (.frame h₈)))
        · split
          · exact .stopIdle (.gearFaultAt (.updTile (.pannierEcc h) (fun _ h₉ => .accPut (.frame h₉))))
          · exact .updTile (.pannierEcc h) (fun _ h₁₀ => .accPut (.frame h₁₀))

theorem SlotOk.accOp {a : At} {t : BitVec 5} {f : Tile → Ctx → State → State} {x : Tile} {p : Prog} {k : Ctx}
    (hf : ∀ (a : Tile) (b : Ctx) (t : State), TileOk s₀ a → Evolves s₀ t → Evolves s₀ (f a b t)) (h : TileOk s₀ x)
    (h' : Evolves s₀ s) : SlotOk s₀ (accOp a t f x p k s) :=
  .ite .bad (.ite .held (.done (hf _ _ _ h h')))

theorem SlotOk.accRdSlot {a : At} {vd t : BitVec 5} {r : BitVec 4} {a₁ : Tile} {a₂ : Prog} {a₃ : Ctx}
    (h : TileOk s₀ a₁) (h' : Evolves s₀ s) : SlotOk s₀ (accRdSlot a vd t r a₁ a₂ a₃ s) :=
  .accOp (fun _ _ _ _ h => .putVec h) h h'

theorem SlotOk.accWrSlot {a : At} {t : BitVec 5} {r : BitVec 4} {vs : BitVec 5} {a₁ : Tile} {a₂ : Prog} {a₃ : Ctx}
    (h : TileOk s₀ a₁) (h' : Evolves s₀ s) : SlotOk s₀ (accWrSlot a t r vs a₁ a₂ a₃ s) := by
  unfold Machine.accWrSlot
  exact .accOp (fun _ _ _ h₁ h₂ => .updTile h₂ (fun _ => .frame)) h h'

theorem SlotOk.accClrSlot {a : At} {t : BitVec 5} {a₁ : Tile} {a₂ : Prog} {a₃ : Ctx} (h : TileOk s₀ a₁)
    (h' : Evolves s₀ s) : SlotOk s₀ (accClrSlot a t a₁ a₂ a₃ s) :=
  .accOp (fun _ _ _ _ h => .updTile h (fun _ => .accPut)) h h'

/-- Every operation of a list leaves a later state. -/
def SlotsOk (fs : List SlotFn) : Prop := ∀ f ∈ fs, ∀ s₀ x p k s, TileOk s₀ x → Evolves s₀ s → SlotOk s₀ (f x p k s)

/-- The operation of a slot leaves a later state, whatever instruction gives it. -/
theorem slotFn_ok {i : Instr} {z : BSlot} {a : At} {f : SlotFn} (e : slotFn i = some (z, a, f)) : SlotsOk [f] := by
  intro g hg s₀ x p k s hx h
  obtain rfl := List.mem_singleton.mp hg
  unfold slotFn at e
  split at e <;> cases e
  · exact .loadOp h
  · exact .loadOp h
  · exact .storeOp h
  · exact .storeOp h
  · exact .atomOp h
  · exact .fenceOp h
  · exact .acqOp h
  · exact .signalOp h
  · exact .signalOp h
  · exact .waitOp h
  · exact .ldPSlot h
  · exact .stPSlot h
  · exact .vldPSlot h
  · exact .vstPSlot h
  · exact .vpackOp h
  · exact .xaSaveOp h
  · exact .xaMergeOp h
  · exact .mmaOp h
  · exact .accRdSlot hx h
  · exact .accWrSlot hx h
  · exact .accClrSlot hx h
  · exact .dpOp h
  · exact .scalarSlot h
  · exact .strStartSlot hx h
  · exact .strWaitSlot hx h
  · exact .strStopSlot hx h
  · exact .branchSlot h
  · exact .loopSlot h
  · exact .yieldSlot h
  · exact .haltSlot h
  · exact .idSlot h

theorem slotOp_ok {ops : List Instr} : SlotsOk (BSlot.all.filterMap (slotOp ops)) := by
  intro f hf
  obtain ⟨z, -, hz⟩ := List.mem_filterMap.mp hf
  unfold slotOp at hz
  obtain ⟨i, -, hi⟩ := List.exists_of_findSome?_eq_some hz
  split at hi
  next e =>
    split at hi
    · cases hi
      exact slotFn_ok e _ List.mem_cons_self
    · cases hi
  · cases hi

/-! ### TileIssue -/

theorem SlotOk.issueOps {a : At} {fs : List SlotFn} (hfs : SlotsOk fs) (h : Evolves s₀ s) : SlotOk s₀ (issueOps a fs s) := by
  induction fs generalizing s with
  | nil => exact .done h
  | cons f fs ih =>
    unfold Machine.issueOps
    split
    · exact .done h
    next x ex =>
      have hx : TileOk s₀ x := h.tiles x (List.mem_of_find?_eq_some ex)
      split
      next p k _ _ =>
        have hf : SlotOk s₀ (f x p k s) := hfs f List.mem_cons_self s₀ x p k s hx h
        split
        next e => exact ih (fun g hg => hfs g (List.mem_cons_of_mem _ hg)) (hf.of_done e)
        · exact hf
      · exact .done h

theorem Evolves.issueBundle {a : At} {k : Ctx} {ops : List Instr} (h : Evolves s₀ s) : Evolves s₀ (issueBundle a k ops s) := by
  unfold Machine.issueBundle
  extract_lets +onlyGivenNames _
  split
  · exact .ctxFaultAt h
  · extract_lets +onlyGivenNames s₁
    have h₁ : Evolves s₀ s₁ := .ite (.corrected h) h
    split
    next e => exact .endIssue (SlotOk.of_done (.issueOps slotOp_ok h₁.updCtx) e)
    · exact .updTile h₁ fun _ => .frame
    · exact .ctxFault h₁

theorem Evolves.issue {i : Instr} (h : Evolves s₀ s) : Evolves s₀ (issue i s) := by
  unfold Machine.issue
  refine .whenUp h fun _ h₃ => ?_
  split
  · exact h₃
  · dsimp only
    split
    · exact .progEnd h₃
    · split
      · exact .ite (.progEnd h₃) (.ite (.issueBundle (.progEnd h₃)) (.updCtx (.progEnd h₃)))
      · exact .progEnd h₃

/-! ### TileCtl -/

theorem Evolves.loadTile {p : Prog} {t : BitVec 10} (h : Evolves s₀ s) : Evolves s₀ (loadTile p t s) := by
  unfold Machine.loadTile
  split
  · exact .updTile h (fun _ => .frame)
  · exact .parts h h.store (.append h.tiles (.singleton (.frame .blank)))

theorem EffOk.loadImage {ts : List (BitVec 10)} {r : BitVec 6} {b : List Byte} (h : Evolves s₀ s) :
    EffOk s₀ (loadImage ts r b s) := by
  unfold Machine.loadImage
  split
  · exact .stat h
  · exact .ite (.stat h) (.ite (.stat h) (.ite (.stat h) (.ok (.foldl h (fun _ _ => .loadTile)))))

theorem EffOk.bodyTileLoad {a : Cmd} (h : Evolves s₀ s) : EffOk s₀ (bodyTileLoad a s) := by
  unfold Machine.bodyTileLoad
  dsimp only
  split
  · exact .stat h
  · split
    · exact .stat h
    · split
      next s₁ e₁ =>
        have h₁ := Evolves.of_snd (.homeReadN h) e₁
        exact .waitFor h₁
      next s₂ e₂ =>
        have h₂ := Evolves.of_snd (.homeReadN h) e₂
        exact .stat h₂
      next s₃ e₃ =>
        have h₃ := Evolves.of_snd (.homeReadN h) e₃
        split
        · exact .stat h₃
        · split
          · exact .stat h₃
          · split
            next s₄ e₄ =>
              have h₄ := Evolves.of_snd (.homeReadN h₃) e₄
              exact .waitFor h₄
            next s₅ e₅ =>
              have h₅ := Evolves.of_snd (.homeReadN h₃) e₅
              exact .stat h₅
            next s₆ e₆ =>
              have h₆ := Evolves.of_snd (.homeReadN h₃) e₆
              exact .loadImage h₆

theorem Evolves.haltCtx {t : BitVec 10} {c : BitVec 4} (h : Evolves s₀ s) : Evolves s₀ (haltCtx t c s) := by
  unfold Machine.haltCtx
  split
  · exact h
  · split
    · exact .setCtxSt (.updCtx h)
    · exact .setCtxSt h
    · exact .setCtxSt (.leaveWait h)
    · exact h

theorem Evolves.unloadTile {t : BitVec 10} (h : Evolves s₀ s) : Evolves s₀ (unloadTile t s) := by
  unfold Machine.unloadTile
  extract_lets +onlyGivenNames s₁ s₂ _
  have h₁ : TileOk s₀ s₁ := .blank
  have h₂ : Evolves s₀ s₂ := .updTile h (fun _ h₃ => .frame h₁)
  exact .frame h₂

theorem Evolves.stopStreams {t : BitVec 10} (h : Evolves s₀ s) : Evolves s₀ (stopStreams t s) := by
  unfold Machine.stopStreams
  exact .stopIdle (.updTile h (fun _ => .frame))

theorem Evolves.tryStop {o : Open} {ts : List (BitVec 10)} {mask : BitVec 16} {unload : Bool} (h : Evolves s₀ s) :
    Evolves s₀ (tryStop o ts mask unload s).1 :=
  .ite_fst h (.completeIf (.ite (.foldl h (fun _ _ => .unloadTile)) h))

theorem EffOk.bodyTileStop {a : Cmd} (h : Evolves s₀ s) : EffOk s₀ (bodyTileStop a s) :=
  .ite (.stat h) (.ite (.stat h) (.later (.addJob (.tryStop (.ite (.foldl (.foldl h (fun _ _ h₁ => .foldl h₁ (fun _ _
    => .haltCtx))) (fun _ _ => .stopStreams)) (.foldl h (fun _ _ h₄ => .foldl h₄ (fun _ _ => .haltCtx))))))))

theorem Evolves.startCtx {resume : Bool} {t : BitVec 10} {c : BitVec 4} (h : Evolves s₀ s) :
    Evolves s₀ (startCtx resume t c s) := by
  unfold Machine.startCtx
  dsimp only
  split
  · exact .setCtxSt (.updCtx h)
  · exact .updCtx h

theorem EffOk.bodyTileStart {a : Cmd} (h : Evolves s₀ s) : EffOk s₀ (bodyTileStart a s) :=
  .ite (.stat h) (.ite (.stat h) (.ite (.stat h) (.ite (.stat h) (.ok (.foldl (.foldl h (fun _ _ h₁ => .foldl h₁ (fun
    _ _ => .startCtx))) (fun _ _ => .progEnd))))))

theorem Evolves.fenceTile {t : BitVec 10} (h : Evolves s₀ s) : Evolves s₀ (fenceTile t s) := by
  unfold Machine.fenceTile
  split
  · exact h
  · exact .ite h (.unloadTile (.foldl h (fun _ _ => .ctxFault)))

theorem EffOk.bodySyncSet {a : Cmd} (h : Evolves s₀ s) : EffOk s₀ (bodySyncSet a s) := by
  unfold Machine.bodySyncSet
  dsimp only
  split
  · exact .stat h
  · split
    · exact .stat h
    · exact .ok (.syncWrite h)

theorem EffOk.bodySyncWait {a : Cmd} (h : Evolves s₀ s) : EffOk s₀ (bodySyncWait a s) := by
  unfold Machine.bodySyncWait
  dsimp only
  split
  · exact .stat h
  · split
    · exact .stat h
    · exact .ite (.res h) (.later (.frame h))

theorem Evolves.syncWaitExpires {src : Src} {tag : BitVec 32} (h : Evolves s₀ s) :
    Evolves s₀ (syncWaitExpires src tag s) := by
  unfold Machine.syncWaitExpires
  exact .foldl (.frame h) (fun _ _ => .endWait)

/-! ### Fabric -/

theorem Evolves.updWin {k : WKey} {f : Window → Window} (h : Evolves s₀ s) : Evolves s₀ (updWin k f s) := by
  unfold Machine.updWin
  exact .frame h

theorem Evolves.markSeq {k : WKey} {x : BitVec 32} {refused : Option Status} (h : Evolves s₀ s) :
    Evolves s₀ (markSeq k x refused s) :=
  .updWin h

theorem Evolves.sendAck {k : WKey} (h : Evolves s₀ s) : Evolves s₀ (sendAck k s) := by
  unfold Machine.sendAck
  split
  · exact .emit h
  · exact h

theorem Evolves.sendMark {p : StorePkt} (h : Evolves s₀ s) : Evolves s₀ (sendMark p s) := .ite h (.ite (.emit h) h)

theorem Evolves.applyStore {p : StorePkt} (h : Evolves s₀ s) : Evolves s₀ (applyStore p s).2.2 := by
  unfold Machine.applyStore
  split
  · exact h
  · dsimp only
    split
    · exact h
    · split
      · exact .ite_snd_snd h (.homeWriteN h)
      · split
        next s₁ e₁ =>
          have h₁ := Evolves.of_snd (.syncStore h) e₁
          exact h₁
        next s₂ e₂ =>
          have h₂ := Evolves.of_snd (.syncStore h) e₂
          exact h₂
      · exact h
      · exact .badOpa h
      · exact h

theorem Evolves.finishStore {p : StorePkt} {refused : Option Status} (h : Evolves s₀ s) :
    Evolves s₀ (finishStore p refused s) :=
  .ite (.sendMark (.sendAck (.markSeq h))) (.sendAck (.markSeq h))

theorem Evolves.tryFlags {k : WKey} {n : ℕ} (h : Evolves s₀ s) : Evolves s₀ (tryFlags k n s) := by
  induction n generalizing s with
  | zero =>
    unfold Machine.tryFlags
    exact h
  | succ n ih =>
    unfold Machine.tryFlags
    split
    · exact h
    · split
      · exact h
      · dsimp only
        split
        · exact h
        · split
          · exact ih (.finishStore (.updWin h))
          · split
            · exact ih (.finishStore (.updWin h))
            · split
              next s₁ e₁ =>
                have h₁ := Evolves.of_snd_snd (.applyStore h) e₁
                exact ih (.finishStore (.updWin h₁))
              next s₂ e₂ =>
                have h₂ := Evolves.of_snd_snd (.applyStore h) e₂
                exact ih (.finishStore (.updWin h₂))
              next s₃ e₃ =>
                have h₃ := Evolves.of_snd_snd (.applyStore h) e₃
                exact h₃

theorem OptSndOk.openWin {p : StorePkt} (h : Evolves s₀ s) : OptSndOk s₀ (openWin p s) := by
  unfold Machine.openWin
  split
  · exact .some (.frame h)
  · exact .ite (.some (.updWin h)) (.ite (.some h) (.ite (.some (.updWin h)) .none))

theorem Evolves.treatStore {p : StorePkt} {port : Fin 24} (h : Evolves s₀ s) : Evolves s₀ (treatStore p port s) := by
  unfold Machine.treatStore
  split
  · exact .tryFlags (.updWin h)
  · split
    next s₁ e₁ =>
      have h₁ := Evolves.of_snd_snd (.applyStore h) e₁
      exact .tryFlags (.finishStore h₁)
    next s₂ e₂ =>
      have h₂ := Evolves.of_snd_snd (.applyStore h) e₂
      exact .tryFlags (.finishStore h₂)
    next s₃ e₃ =>
      have h₃ := Evolves.of_snd_snd (.applyStore h) e₃
      exact .holdAt h₃

theorem Evolves.staleStore {p : StorePkt} (h : Evolves s₀ s) : Evolves s₀ (staleStore p s) := .emit h

theorem Evolves.storeArrives {p : StorePkt} {port : Fin 24} (h : Evolves s₀ s) : Evolves s₀ (storeArrives p port s) := by
  unfold Machine.storeArrives
  split
  · exact .emit h
  · split
    · exact h
    · split
      · exact .staleStore h
      · split
        · exact .holdAt h
        · split
          · exact h
          next s₁ e₁ =>
            have h₁ := OptSndOk.of_some (.openWin h) e₁
            exact .ite (.sendAck (.updPort h₁)) (.ite (.detect h₁) (.ite (.holdAt h₁) (.treatStore h₁)))

theorem Evolves.throughPort {port : Fin 24} {f : State → State} (h : Evolves s₀ s)
    (hf : ∀ (t : State), Evolves s₀ t → Evolves s₀ (f t)) : Evolves s₀ (throughPort port s f) :=
  .whenUp h (fun _ h₁ => .ite (hf _ h₁) h₁)

theorem Evolves.refuseRemote {t : BitVec 10} {c : BitVec 4} {seq : ℕ} {st : Status} (h : Evolves s₀ s) :
    Evolves s₀ (refuseRemote t c seq st s) := by
  unfold Machine.refuseRemote
  split
  · exact .refuseStore h
  · exact h

theorem Evolves.failSource {source : BitVec 24} {st : Status} (h : Evolves s₀ s) : Evolves s₀ (failSource source st s) := by
  unfold Machine.failSource
  exact .foldl (.frame h) (fun _ _ => .failStream)

theorem Evolves.endUnacked {u : Unacked} {st : Option Status} (h : Evolves s₀ s) : Evolves s₀ (endUnacked u st s) := by
  unfold Machine.endUnacked
  split
  · exact .dropStore h
  · exact .refuseRemote h
  · exact h
  · exact .failSource h

theorem Evolves.ackArrives {source : BitVec 24} {dst : ModuleRef} {base : BitVec 32} {landed : List (BitVec 32)}
    {refused : List (BitVec 32 × Status)} (h : Evolves s₀ s) :
    Evolves s₀ (ackArrives source dst base landed refused s) := by
  unfold Machine.ackArrives
  split
  · exact h
  · exact .foldl (.foldl (.setChan h) (fun _ _ => .endUnacked)) (fun _ _ h₂ => .foldl h₂ (fun _ _ h₃ => .ite (.pumpStores
      h₃) h₃))

theorem Evolves.fenceArrives {source : BitVec 16} {dst : BitVec 6} {txn seq epoch : BitVec 32} (h : Evolves s₀ s) :
    Evolves s₀ (fenceArrives source dst txn seq epoch s) := by
  unfold Machine.fenceArrives
  dsimp only
  split
  · exact .emit h
  · split
    · exact .emit h
    · exact .ite (.emit h) (.ite (.emit h) (.ite (.holdAt h) (.emit h)))

theorem Evolves.recTimeout {rider : BitVec 8} {source : BitVec 32} {addr : Word} {us : ℕ} {point unit : BitVec 16}
    (h : Evolves s₀ s) : Evolves s₀ (recTimeout rider source addr us point unit s) :=
  .detect h

theorem Evolves.closeChan {c : Chan} (h : Evolves s₀ s) : Evolves s₀ (closeChan c s) := by
  unfold Machine.closeChan
  dsimp only
  refine .emit ?_
  refine .foldl ?_ (fun _ _ => .endUnacked)
  split
  · exact .recTimeout (.setChan h)
  · exact .setChan h

theorem Evolves.retireWin {k : WKey} (h : Evolves s₀ s) : Evolves s₀ (retireWin k s) := by
  unfold Machine.retireWin
  split
  · exact .ite (.frame h) h
  · exact h

theorem OutOk.execGatewayBlockRead {opa : Word} {data : List Byte} {status : Status} (h : Evolves s₀ s) :
    OutOk s₀ (execGatewayBlockRead opa data status s) := by
  unfold Machine.execGatewayBlockRead
  refine .next ?_
  refine .whenUp h fun _ h₅ => ?_
  split
  · exact h₅
  · dsimp only
    refine .foldl (.frame h₅) fun _ _ h₉ => ?_
    split
    · split
      · exact .ite (.remoteLoad h₉) h₉
      · exact h₉
    · exact h₉

theorem OutOk.execFrameAgeExpiry {peloton : BitVec 8} {module : BitVec 6} (h : Evolves s₀ s) :
    OutOk s₀ (execFrameAgeExpiry peloton module s) := by
  unfold Machine.execFrameAgeExpiry
  refine .next ?_
  refine .whenUp h fun _ h₅ => ?_
  split
  · exact .closeFrame h₅
  · exact h₅

/-! ### Links -/

theorem Evolves.recPort {p : ℕ} (h : Evolves s₀ s) : Evolves s₀ (recPort p s) := .detect h

theorem Evolves.resendSnoops {old : State} {p : ℕ} (h : Evolves s₀ s) : Evolves s₀ (resendSnoops old p s) := by
  unfold Machine.resendSnoops
  exact .foldl h (fun _ _ h₁ => .ite (.frame h₁) h₁)

theorem Evolves.resendFrom {gone : Option (Fin 24) → Bool} (h : Evolves s₀ s) : Evolves s₀ (resendFrom gone s) := by
  unfold Machine.resendFrom
  exact .foldl (.foldl (.foldl h (fun _ _ h₁ => .foldl (.setChan h₁) (fun _ _ => .sendPkt))) (fun _ _ h₃ => .ite
    (.resendLoad h₃) h₃)) (fun _ _ h₄ => .ite (.emit (.frame h₄)) (.frame h₄))

theorem Evolves.portGone {p : ℕ} {f : FPort → FPort} (h : Evolves s₀ s) : Evolves s₀ (portGone p f s) :=
  .ite (.updPort h) (.resendSnoops (.resendFrom (.emit (.recPort (.updPort h)))))

theorem Evolves.startRetrain {p : ℕ} (h : Evolves s₀ s) : Evolves s₀ (startRetrain p s) :=
  .ite (.portGone h) (.portGone h)

theorem Evolves.onPort {port : Fin 24} {f : State → State} (h : Evolves s₀ s)
    (hf : ∀ (t : State), Evolves s₀ t → Evolves s₀ (f t)) : Evolves s₀ (onPort port s f) :=
  .whenUp h (fun _ h₁ => .ite h₁ (hf _ h₁))

theorem Evolves.replayFlit {p failed : ℕ} (h : Evolves s₀ s) : Evolves s₀ (replayFlit p failed s) := .updPort h

theorem Evolves.portComesUp {p : ℕ} (h : Evolves s₀ s) : Evolves s₀ (portComesUp p s) :=
  .ite h (.resendFrom (.emit (.recPort (.updPort h))))

theorem Evolves.onLd {port : Fin 24} {ld : BitVec 4} {f : Route → State → State} (h : Evolves s₀ s)
    (hf : ∀ (a : Route) (t : State), Evolves s₀ t → Evolves s₀ (f a t)) : Evolves s₀ (onLd port ld s f) := by
  unfold Machine.onLd
  refine .whenUp h fun _ h₃ => ?_
  split
  · exact h₃
  · split
    · exact hf _ _ h₃
    · exact h₃

theorem Evolves.cxlSay {port : Fin 24} {ld : BitVec 4} {what : String} {args : List ℕ} {data : List Byte}
    (h : Evolves s₀ s) : Evolves s₀ (cxlSay port ld what args data s) :=
  .emit h

theorem Evolves.cxlRefuse {port : Fin 24} {ld : BitVec 4} {what : String} (h : Evolves s₀ s) :
    Evolves s₀ (cxlRefuse port ld what s) :=
  .onLd h (fun _ _ => .cxlSay)

/-! ### Engine -/

theorem Evolves.updOp {id : ℕ} {f : EngOp → EngOp} (h : Evolves s₀ s) : Evolves s₀ (updOp id f s) := by
  unfold Machine.updOp
  exact .frame h

theorem Evolves.opRead {o : EngOp} {addr : Word} {len : ℕ} (h : Evolves s₀ s) : Evolves s₀ (opRead s o addr len).2 := by
  unfold Machine.opRead
  refine .foldl_snd h fun _ _ h₃ => ?_
  split
  · dsimp only
    split
    next s₄ e₄ =>
      have h₄ := Evolves.of_snd (.cmdAddr h₃) e₄
      exact h₄
    next s₅ e₅ =>
      have h₅ := Evolves.of_snd (.cmdAddr h₃) e₅
      exact h₅
    next s₆ e₆ =>
      have h₆ := Evolves.of_snd (.cmdAddr h₃) e₆
      exact h₆
    next s₇ e₇ =>
      have h₇ := Evolves.of_snd (.cmdAddr h₃) e₇
      split
      · split
        next s₈ e₈ =>
          have h₈ := Evolves.of_snd (.homeRead h₇) e₈
          exact h₈
        next s₉ e₉ =>
          have h₉ := Evolves.of_snd (.homeRead h₇) e₉
          exact h₉
        next s₁₀ e₁₀ =>
          have h₁₀ := Evolves.of_snd (.homeRead h₇) e₁₀
          exact h₁₀
      · split
        · exact h₇
        · exact h₇
      · exact h₇
      · exact .badOpa h₇
      · exact h₇
      · exact h₇
  · exact h₃

theorem Evolves.opWrite {o : EngOp} {addr : Word} {bs : List Byte} {whole : ℕ → ℕ → Bool} (h : Evolves s₀ s) :
    Evolves s₀ (opWrite s o addr bs whole).2 := by
  unfold Machine.opWrite
  refine .foldl_snd h fun _ _ h₃ => ?_
  dsimp only
  split
  · split
    next s₄ e₄ =>
      have h₄ := Evolves.of_snd (.cmdAddr h₃) e₄
      exact h₄
    next s₅ e₅ =>
      have h₅ := Evolves.of_snd (.cmdAddr h₃) e₅
      exact h₅
    next s₆ e₆ =>
      have h₆ := Evolves.of_snd (.cmdAddr h₃) e₆
      exact h₆
    next s₇ e₇ =>
      have h₇ := Evolves.of_snd (.cmdAddr h₃) e₇
      split
      · split
        next s₈ e₈ =>
          have h₈ := Evolves.of_snd (.homeWrite h₇) e₈
          exact .updOp h₈
        next s₉ e₉ =>
          have h₉ := Evolves.of_snd (.homeWrite h₇) e₉
          exact h₉
        next s₁₀ e₁₀ =>
          have h₁₀ := Evolves.of_snd (.homeWrite h₇) e₁₀
          exact h₁₀
      · split
        next s₁₁ e₁₁ =>
          have h₁₁ := Evolves.of_snd (.syncStore h₇) e₁₁
          exact .updOp h₁₁
        next s₁₂ e₁₂ =>
          have h₁₂ := Evolves.of_snd (.syncStore h₇) e₁₂
          exact h₁₂
      · exact h₇
      · exact .badOpa h₇
      · split
        next s₁₃ e₁₃ =>
          have h₁₃ := Evolves.of_snd (.sendStore h₇) e₁₃
          exact .updOp h₁₃
        next s₁₄ e₁₄ =>
          have h₁₄ := Evolves.of_snd (.sendStore h₇) e₁₄
          exact h₁₄
        next s₁₅ e₁₅ =>
          have h₁₅ := Evolves.of_snd (.sendStore h₇) e₁₅
          exact h₁₅
      · split
        next s₁₆ e₁₆ =>
          have h₁₆ := Evolves.of_snd (.sendStore h₇) e₁₆
          exact .updOp h₁₆
        next s₁₇ e₁₇ =>
          have h₁₇ := Evolves.of_snd (.sendStore h₇) e₁₇
          exact h₁₇
        next s₁₈ e₁₈ =>
          have h₁₈ := Evolves.of_snd (.sendStore h₇) e₁₈
          exact h₁₈
  · split
    next s₁₉ e₁₉ =>
      have h₁₉ := Evolves.of_snd (.cmdAddr h₃) e₁₉
      exact h₁₉
    next s₂₀ e₂₀ =>
      have h₂₀ := Evolves.of_snd (.cmdAddr h₃) e₂₀
      exact h₂₀
    next s₂₁ e₂₁ =>
      have h₂₁ := Evolves.of_snd (.cmdAddr h₃) e₂₁
      exact h₂₁
    next s₂₂ e₂₂ =>
      have h₂₂ := Evolves.of_snd (.cmdAddr h₃) e₂₂
      split
      · split
        next s₂₃ e₂₃ =>
          have h₂₃ := Evolves.of_snd (.homeWrite h₂₂) e₂₃
          exact .updOp h₂₃
        next s₂₄ e₂₄ =>
          have h₂₄ := Evolves.of_snd (.homeWrite h₂₂) e₂₄
          exact h₂₄
        next s₂₅ e₂₅ =>
          have h₂₅ := Evolves.of_snd (.homeWrite h₂₂) e₂₅
          exact h₂₅
      · split
        next s₂₆ e₂₆ =>
          have h₂₆ := Evolves.of_snd (.syncStore h₂₂) e₂₆
          exact .updOp h₂₆
        next s₂₇ e₂₇ =>
          have h₂₇ := Evolves.of_snd (.syncStore h₂₂) e₂₇
          exact h₂₇
      · exact h₂₂
      · exact .badOpa h₂₂
      · split
        next s₂₈ e₂₈ =>
          have h₂₈ := Evolves.of_snd (.sendStore h₂₂) e₂₈
          exact .updOp h₂₈
        next s₂₉ e₂₉ =>
          have h₂₉ := Evolves.of_snd (.sendStore h₂₂) e₂₉
          exact h₂₉
        next s₃₀ e₃₀ =>
          have h₃₀ := Evolves.of_snd (.sendStore h₂₂) e₃₀
          exact h₃₀
      · split
        next s₃₁ e₃₁ =>
          have h₃₁ := Evolves.of_snd (.sendStore h₂₂) e₃₁
          exact .updOp h₃₁
        next s₃₂ e₃₂ =>
          have h₃₂ := Evolves.of_snd (.sendStore h₂₂) e₃₂
          exact h₃₂
        next s₃₃ e₃₃ =>
          have h₃₃ := Evolves.of_snd (.sendStore h₂₂) e₃₃
          exact h₃₃
  · exact h₃

theorem Evolves.endOp {o : EngOp} {st : Status} {faultAddr : Word} (h : Evolves s₀ s) :
    Evolves s₀ (endOp o st faultAddr s) := by
  unfold Machine.endOp
  dsimp only
  split
  · exact .completeIf (.dropLoads (.dropHolds (.frame h)))
  · exact .completeIf (.dropLoads (.dropHolds (.frame h)))
  · exact .completeIf (.ite (.signalField (.dropLoads (.dropHolds (.frame h)))) (.dropLoads (.dropHolds (.frame h))))

theorem Evolves.failOp {o : EngOp} {st : Status} {addr : Word} (h : Evolves s₀ s) : Evolves s₀ (failOp o st addr s) := by
  unfold Machine.failOp
  split
  · exact .updOp h
  · split
    · exact .endOp (.frame h)
    · exact .endOp h

theorem Evolves.countWritten {o : EngOp} {n : ℕ} (h : Evolves s₀ s) : Evolves s₀ (countWritten o n s) := by
  unfold Machine.countWritten
  split
  · exact h
  · exact .frame h

theorem Evolves.advanceOp {o : EngOp} (h : Evolves s₀ s) : Evolves s₀ (advanceOp o s) :=
  .ite (.endOp (.updOp h)) (.updOp h)

theorem Evolves.writeBeat {o : EngOp} (h : Evolves s₀ s) : Evolves s₀ (writeBeat o s) := by
  unfold Machine.writeBeat
  dsimp only
  split
  · split
    next s₁ e₁ =>
      have h₁ := Evolves.of_snd (.opWrite h) e₁
      exact .advanceOp (.countWritten h₁)
    next s₂ e₂ =>
      have h₂ := Evolves.of_snd (.opWrite h) e₂
      exact .updOp (.countWritten h₂)
    next s₃ e₃ =>
      have h₃ := Evolves.of_snd (.opWrite h) e₃
      exact h₃
    next s₄ e₄ =>
      have h₄ := Evolves.of_snd (.opWrite h) e₄
      exact .failOp h₄
  · split
    next s₅ e₅ =>
      have h₅ := Evolves.of_snd (.opWrite h) e₅
      exact .advanceOp (.countWritten h₅)
    next s₆ e₆ =>
      have h₆ := Evolves.of_snd (.opWrite h) e₆
      exact .updOp (.countWritten h₆)
    next s₇ e₇ =>
      have h₇ := Evolves.of_snd (.opWrite h) e₇
      exact h₇
    next s₈ e₈ =>
      have h₈ := Evolves.of_snd (.opWrite h) e₈
      exact .failOp h₈
  · split
    next s₉ e₉ =>
      have h₉ := Evolves.of_snd (.opWrite h) e₉
      exact .advanceOp (.countWritten h₉)
    next s₁₀ e₁₀ =>
      have h₁₀ := Evolves.of_snd (.opWrite h) e₁₀
      exact .updOp (.countWritten h₁₀)
    next s₁₁ e₁₁ =>
      have h₁₁ := Evolves.of_snd (.opWrite h) e₁₁
      exact h₁₁
    next s₁₂ e₁₂ =>
      have h₁₂ := Evolves.of_snd (.opWrite h) e₁₂
      exact .failOp h₁₂
  · exact .advanceOp h
  · exact .advanceOp h
  · split
    · split
      next s₁₃ e₁₃ =>
        have h₁₃ := Evolves.of_snd (.opWrite h) e₁₃
        exact .advanceOp (.countWritten h₁₃)
      next s₁₄ e₁₄ =>
        have h₁₄ := Evolves.of_snd (.opWrite h) e₁₄
        exact .updOp (.countWritten h₁₄)
      next s₁₅ e₁₅ =>
        have h₁₅ := Evolves.of_snd (.opWrite h) e₁₅
        exact h₁₅
      next s₁₆ e₁₆ =>
        have h₁₆ := Evolves.of_snd (.opWrite h) e₁₆
        exact .failOp h₁₆
    · exact .failOp (.detect h)

theorem Evolves.gatherBeat {n : ℕ} {a : EngOp} {a₁ : Option RemoteRet} (h : Evolves s₀ s) :
    Evolves s₀ (gatherBeat n a a₁ s) := by
  induction n generalizing a a₁ s with
  | zero =>
    unfold Machine.gatherBeat
    exact h
  | succ n ih =>
    unfold Machine.gatherBeat
    split
    · exact .writeBeat h
    · dsimp only
      split
      next s₁ e₁ =>
        have h₁ := Evolves.of_snd (.opRead h) e₁
        exact ih (.updOp h₁)
      next s₂ e₂ =>
        have h₂ := Evolves.of_snd (.opRead h) e₂
        exact h₂
      next s₃ e₃ =>
        have h₃ := Evolves.of_snd (.opRead h) e₃
        exact .failOp h₃
      next s₄ e₄ =>
        have h₄ := Evolves.of_snd (.opRead h) e₄
        split
        · exact .askRemote (.updOp h₄)
        · split
          · exact h₄
          · exact .ite (.failOp (.dropLoads h₄)) (ih (.updOp (.dropLoads h₄)))

theorem Evolves.placed {o : EngOp} {go : State → State} (hg : ∀ (t : State), Evolves s₀ t → Evolves s₀ (go t))
    (h : Evolves s₀ s) : Evolves s₀ (Machine.placed o go s) := by
  unfold Machine.placed
  split
  · exact hg _ h
  · split
    next s₁ e₁ =>
      have h₁ := Evolves.of_snd (.cmdAddr h) e₁
      exact hg _ h₁
    next s₂ e₂ =>
      have h₂ := Evolves.of_snd (.cmdAddr h) e₂
      exact h₂
    next s₃ e₃ =>
      have h₃ := Evolves.of_snd (.cmdAddr h) e₃
      exact .failOp h₃
    next s₄ e₄ =>
      have h₄ := Evolves.of_snd (.cmdAddr h) e₄
      exact .failOp h₄

theorem Evolves.runBeat {o : EngOp} {ret : Option RemoteRet} (h : Evolves s₀ s) : Evolves s₀ (runBeat o ret s) := by
  unfold Machine.runBeat
  split
  · exact .failOp h
  · split
    · exact .failOp h
    · split
      · split
        · exact h
        · exact .ite h (.ite (.failOp h) (.advanceOp h))
      · exact .placed (fun _ => .gatherBeat) h

theorem OutOk.execEngineBeatCompletion {id : ℕ} {remote : Option RemoteRet} (h : Evolves s₀ s) :
    OutOk s₀ (execEngineBeatCompletion id remote s) := by
  unfold Machine.execEngineBeatCompletion
  refine .next ?_
  refine .whenUp h fun _ h₅ => ?_
  split
  · exact .ite h₅ (.runBeat h₅)
  · exact h₅

theorem Evolves.failLoad {x : RLoad} {st : Status} (h : Evolves s₀ s) : Evolves s₀ (failLoad x st s) := by
  unfold Machine.failLoad
  dsimp only
  split
  · split
    · exact .failAcc (.frame h)
    · exact .frame h
  · exact .failStream (.frame h)
  · split
    · exact .failOp (.frame h)
    · exact .frame h

theorem Evolves.failBlock {source : BitVec 24} {b : GBlock} {st : Status} (h : Evolves s₀ s) :
    Evolves s₀ (failBlock source b st s) := by
  unfold Machine.failBlock
  exact .foldl (.frame h) (fun _ _ => .failAcc)

theorem Evolves.limitEnds {source : BitVec 24} {dst : ModuleRef} {load : Option (BitVec 32)} (h : Evolves s₀ s) :
    Evolves s₀ (limitEnds source dst load s) := by
  unfold Machine.limitEnds
  dsimp only
  split
  · exact h
  · split
    · split
      · exact .closeChan (.failLoad h)
      · split
        · exact .closeChan (.failBlock h)
        · exact h
    · exact .ite (.closeChan h) h

theorem EffOk.startOp {o : EngOp} (h : Evolves s₀ s) : EffOk s₀ (startOp o s) := by
  unfold Machine.startOp
  exact .later (.frame h)

theorem EffOk.nmStart {c : Cmd} {op : ℕ} {kind : OpKind} {nd ns : ℕ} {form aligned : Bool} (h : Evolves s₀ s) :
    EffOk s₀ (nmStart c op kind nd ns form aligned s) :=
  .ite (.stat h) (.ite (.stat h) (.ite (.stat h) (.ite (.stat h) (.startOp h))))

theorem EffOk.bodyNmFill {a : Cmd} (h : Evolves s₀ s) : EffOk s₀ (bodyNmFill a s) := .nmStart h

theorem EffOk.bodyNmCopy {a : Cmd} (h : Evolves s₀ s) : EffOk s₀ (bodyNmCopy a s) := .nmStart h

theorem EffOk.bodyNmCompare {a : Cmd} (h : Evolves s₀ s) : EffOk s₀ (bodyNmCompare a s) := .nmStart h

theorem EffOk.bodyNmReduce {a : Cmd} (h : Evolves s₀ s) : EffOk s₀ (bodyNmReduce a s) := .nmStart h

theorem EffOk.bodyBulkWrite {a : Cmd} (h : Evolves s₀ s) : EffOk s₀ (bodyBulkWrite a s) := .startOp h

theorem EffOk.bodyBulkRead {a : Cmd} (h : Evolves s₀ s) : EffOk s₀ (bodyBulkRead a s) := .ite (.stat h) (.startOp h)

/-! ### Emb -/

theorem Evolves.setTable {t : EmbTable} (h : Evolves s₀ s) : Evolves s₀ (setTable t s) := by
  unfold Machine.setTable
  exact .frame h

theorem EffOk.bodyEmbTableDefine {a : Cmd} (h : Evolves s₀ s) : EffOk s₀ (bodyEmbTableDefine a s) := by
  unfold Machine.bodyEmbTableDefine
  exact .ite (.stat h) (.ite (.ite (.stat h) (.ok (.frame h))) (.ite (.stat h) (.ite (.stat h) (.ite (.stat h) (.ite (.stat
    h) (.ok (.setTable h)))))))

theorem Evolves.updBatch {k : BatchKey} {f : EmbBatch → EmbBatch} (h : Evolves s₀ s) : Evolves s₀ (updBatch k f s) := by
  unfold Machine.updBatch
  exact .frame h

theorem Evolves.endBatch {b : EmbBatch} {from_ : ℕ} {f : EmbFault} (h : Evolves s₀ s) :
    Evolves s₀ (endBatch b from_ f s) := by
  unfold Machine.endBatch
  exact .completeIf (.dropHolds (.frame h))

theorem Evolves.embAddr {b : EmbBatch} {a : Word} {write : Bool} (h : Evolves s₀ s) : Evolves s₀ (embAddr s b a write).2 := by
  unfold Machine.embAddr
  split
  next s₁ e₁ =>
    have h₁ := Evolves.of_snd (.cmdAddr h) e₁
    exact h₁
  next s₂ e₂ =>
    have h₂ := Evolves.of_snd (.cmdAddr h) e₂
    exact h₂
  next s₃ e₃ =>
    have h₃ := Evolves.of_snd (.cmdAddr h) e₃
    exact h₃
  next s₄ e₄ =>
    have h₄ := Evolves.of_snd (.cmdAddr h) e₄
    split
    · exact h₄
    · exact .badOpa h₄
    · exact h₄

theorem Evolves.embRead {b : EmbBatch} {a : Word} {len : ℕ} (h : Evolves s₀ s) : Evolves s₀ (embRead s b a len).2 := by
  unfold Machine.embRead
  refine .foldl_snd h fun _ _ h₃ => ?_
  split
  · dsimp only
    split
    next s₄ e₄ =>
      have h₄ := Evolves.of_snd (.embAddr h₃) e₄
      exact h₄
    next s₅ e₅ =>
      have h₅ := Evolves.of_snd (.embAddr h₃) e₅
      exact h₅
    next s₆ e₆ =>
      have h₆ := Evolves.of_snd (.embAddr h₃) e₆
      split
      next s₇ e₇ =>
        have h₇ := Evolves.of_snd (.homeRead h₆) e₇
        exact h₇
      next s₈ e₈ =>
        have h₈ := Evolves.of_snd (.homeRead h₆) e₈
        exact h₈
      next s₉ e₉ =>
        have h₉ := Evolves.of_snd (.homeRead h₆) e₉
        exact h₉
  · exact h₃

theorem Evolves.embWrite {b : EmbBatch} {a : ℕ} {bs : List Byte} (h : Evolves s₀ s) : Evolves s₀ (embWrite s b a bs).2.2 := by
  unfold Machine.embWrite
  refine .foldl_snd_snd h fun _ _ h₃ => ?_
  split
  · dsimp only
    split
    next s₄ e₄ =>
      have h₄ := Evolves.of_snd (.embAddr h₃) e₄
      exact h₄
    next s₅ e₅ =>
      have h₅ := Evolves.of_snd (.embAddr h₃) e₅
      exact h₅
    next s₆ e₆ =>
      have h₆ := Evolves.of_snd (.embAddr h₃) e₆
      split
      next s₇ e₇ =>
        have h₇ := Evolves.of_snd (.homeWrite h₆) e₇
        exact h₇
      next s₈ e₈ =>
        have h₈ := Evolves.of_snd (.homeWrite h₆) e₈
        exact h₈
      next s₉ e₉ =>
        have h₉ := Evolves.of_snd (.homeWrite h₆) e₉
        exact h₉
  · exact h₃

theorem Evolves.embReads {l : List (Word × ℕ)} {a : EmbBatch} (h : Evolves s₀ s) : Evolves s₀ (embReads l a s).2.2 := by
  induction l generalizing a s with
  | nil =>
    unfold Machine.embReads
    exact h
  | cons x xs ih =>
    unfold Machine.embReads
    split
    next s₁ e₁ =>
      have h₁ := Evolves.of_snd (.embRead h) e₁
      exact ih h₁
    next s₂ _ e₂ =>
      have h₂ := Evolves.of_snd (.embRead h) e₂
      exact h₂

theorem Evolves.retryLater {old new : State} (h : Evolves s₀ old) (h' : Evolves s₀ new) : Evolves s₀ (retryLater old new) :=
  ⟨fun hinv => { h'.keeps_inv hinv with errLog := (h.keeps_inv hinv).errLog, faults := (h.keeps_inv hinv).faults },
    h'.svn_le, h'.configSeq_le, h'.setSeq_le, h'.lastOrder_le, h'.bootCount_eq⟩

theorem Evolves.sendRuns {b : EmbBatch} {t : EmbTable} (h : Evolves s₀ s) : Evolves s₀ (sendRuns b t s) := by
  unfold Machine.sendRuns
  dsimp only
  refine .foldl h fun _ _ h₄ => ?_
  split
  · exact .updBatch h₄
  · split
    · exact .emit h₄
    · exact h₄

theorem Evolves.sendGradients {b : EmbBatch} {t : EmbTable} {gs : List (ℕ × List (BitVec 32))} (h : Evolves s₀ s) :
    Evolves s₀ (sendGradients b t gs s) := by
  unfold Machine.sendGradients
  dsimp only
  refine .foldl h fun _ _ h₄ => ?_
  split
  · exact h₄
  · split
    · exact .updBatch h₄
    · split
      · exact .emit h₄
      · exact h₄

theorem Evolves.spillBytes {n : ℕ} (h : Evolves s₀ s) : Evolves s₀ (spillBytes n s).2 := by
  unfold Machine.spillBytes
  exact .frame h

theorem Evolves.loadBatch {b : EmbBatch} (h : Evolves s₀ s) : Evolves s₀ (loadBatch b s) := by
  unfold Machine.loadBatch
  split
  · exact h
  · dsimp only
    split
    next s₁ e₁ =>
      have h₁ := Evolves.of_snd_snd (.embReads h) e₁
      exact .retryLater h h₁
    next s₂ e₂ =>
      have h₂ := Evolves.of_snd_snd (.embReads h) e₂
      exact .sendGradients (.sendRuns (.updBatch h₂))
    next s₃ e₃ =>
      have h₃ := Evolves.of_snd_snd (.embReads h) e₃
      split
      · split
        · split
          · exact .sendGradients (.sendRuns (.updBatch h₃))
          · split
            · split
              next s₄ e₄ =>
                have h₄ := Evolves.of_snd_snd (.embWrite (.spillBytes (.frame h₃))) e₄
                exact .retryLater (.frame h₃) h₄
              next s₅ e₅ =>
                have h₅ := Evolves.of_snd_snd (.embWrite (.spillBytes (.frame h₃))) e₅
                exact .sendGradients (.sendRuns (.updBatch h₅))
              next s₆ e₆ =>
                have h₆ := Evolves.of_snd_snd (.embWrite (.spillBytes (.frame h₃))) e₆
                exact .sendGradients (.sendRuns (.updBatch h₆))
            · exact .sendGradients (.sendRuns (.updBatch (.frame h₃)))
        · split
          · exact .sendGradients (.sendRuns (.updBatch h₃))
          · split
            · split
              next s₇ e₇ =>
                have h₇ := Evolves.of_snd_snd (.embWrite (.spillBytes (.frame h₃))) e₇
                exact .retryLater (.frame h₃) h₇
              next s₈ e₈ =>
                have h₈ := Evolves.of_snd_snd (.embWrite (.spillBytes (.frame h₃))) e₈
                exact .sendGradients (.sendRuns (.updBatch h₈))
              next s₉ e₉ =>
                have h₉ := Evolves.of_snd_snd (.embWrite (.spillBytes (.frame h₃))) e₉
                exact .sendGradients (.sendRuns (.updBatch h₉))
            · exact .sendGradients (.sendRuns (.updBatch (.frame h₃)))
      · split
        · exact .sendGradients (.sendRuns (.updBatch h₃))
        · split
          · split
            · split
              next s₁₀ e₁₀ =>
                have h₁₀ := Evolves.of_snd_snd (.embWrite (.spillBytes (.frame h₃))) e₁₀
                exact .retryLater (.frame h₃) h₁₀
              next s₁₁ e₁₁ =>
                have h₁₁ := Evolves.of_snd_snd (.embWrite (.spillBytes (.frame h₃))) e₁₁
                exact .sendGradients (.sendRuns (.updBatch h₁₁))
              next s₁₂ e₁₂ =>
                have h₁₂ := Evolves.of_snd_snd (.embWrite (.spillBytes (.frame h₃))) e₁₂
                exact .sendGradients (.sendRuns (.updBatch h₁₂))
            · exact .sendGradients (.sendRuns (.updBatch (.frame h₃)))
          · split
            · split
              next s₁₃ e₁₃ =>
                have h₁₃ := Evolves.of_snd_snd (.embWrite (.spillBytes (.frame h₃))) e₁₃
                exact .retryLater (.frame h₃) h₁₃
              next s₁₄ e₁₄ =>
                have h₁₄ := Evolves.of_snd_snd (.embWrite (.spillBytes (.frame h₃))) e₁₄
                exact .sendGradients (.sendRuns (.updBatch h₁₄))
              next s₁₅ e₁₅ =>
                have h₁₅ := Evolves.of_snd_snd (.embWrite (.spillBytes (.frame h₃))) e₁₅
                exact .sendGradients (.sendRuns (.updBatch h₁₅))
            · exact .sendGradients (.sendRuns (.updBatch (.frame h₃)))

theorem Evolves.readRow {b : EmbBatch} {t : EmbTable} {row : ℕ} (h : Evolves s₀ s) : Evolves s₀ (readRow s b t row).2 := by
  unfold Machine.readRow
  split
  · exact h
  · split
    · exact h
    · split
      · exact h
      · split
        next s₁ e₁ =>
          have h₁ := Evolves.of_snd (.homeReadN h) e₁
          exact h₁
        next s₂ e₂ =>
          have h₂ := Evolves.of_snd (.homeReadN h) e₂
          exact h₂
        next s₃ e₃ =>
          have h₃ := Evolves.of_snd (.homeReadN h) e₃
          exact h₃

theorem Evolves.recGear {b : EmbBatch} {off : ℕ} {e : GearFault} (h : Evolves s₀ s) : Evolves s₀ (recGear b off e s) :=
  .detect h

theorem Evolves.readRows {b : EmbBatch} {t : EmbTable} {l : List ℕ} (h : Evolves s₀ s) : Evolves s₀ (readRows b t l s).2 := by
  induction l generalizing s with
  | nil =>
    unfold Machine.readRows
    exact h
  | cons x xs ih =>
    unfold Machine.readRows
    split
    next s₁ e₁ =>
      have h₁ := Evolves.of_snd (.readRow h) e₁
      exact h₁
    next s₂ _ e₂ =>
      have h₂ := Evolves.of_snd (.readRow h) e₂
      split
      next s₃ e₃ =>
        have h₃ := Evolves.of_snd (ih h₂) e₃
        exact h₃
      · exact ih h₂

theorem Evolves.answerRow {t : EmbTable} {p : ℕ × RowGot} {acc : List EmbRow × EmbBatch × State}
    (h : Evolves s₀ acc.2.2) : Evolves s₀ (answerRow t p acc).2.2 := by
  unfold Machine.answerRow
  dsimp only
  split
  · exact h
  · exact h
  · exact h
  · split
    · exact h
    · split
      · exact .recGear h
      · exact h

theorem Evolves.deliverRows {k : BatchKey} {t : EmbTable} {m : ℕ} {rows : List EmbRow} (h : Evolves s₀ s) :
    Evolves s₀ (deliverRows k t m rows s) := by
  unfold Machine.deliverRows
  split
  · exact .updBatch h
  · split
    · exact .emit h
    · exact h

theorem Evolves.deliverPartial {k : BatchKey} {t : EmbTable} {m key : ℕ} {vs : List (BitVec 32)} (h : Evolves s₀ s) :
    Evolves s₀ (deliverPartial k t m key vs s) := by
  unfold Machine.deliverPartial
  split
  · exact .updBatch h
  · split
    · exact .emit h
    · exact h

theorem Evolves.countCoalesced {b : EmbBatch} {t : EmbTable} {rows : List (ℕ × ℕ)} (h : Evolves s₀ s) :
    Evolves s₀ (countCoalesced b t rows s) := by
  unfold Machine.countCoalesced
  exact .foldl h (fun _ _ => .frame)

theorem Evolves.stageRows {b : EmbBatch} {extra : ℕ} (h : Evolves s₀ s) : Evolves s₀ (stageRows b extra s).2 := by
  unfold Machine.stageRows
  split
  · exact h
  · split
    · exact h
    · dsimp only
      split
      next s₁ e₁ =>
        have h₁ := Evolves.of_snd_snd (.embWrite (.spillBytes h)) e₁
        exact h₁
      next s₂ e₂ =>
        have h₂ := Evolves.of_snd_snd (.embWrite (.spillBytes h)) e₂
        exact h₂
      next s₃ e₃ =>
        have h₃ := Evolves.of_snd_snd (.embWrite (.spillBytes h)) e₃
        exact h₃

theorem Evolves.answerLookup {b : EmbBatch} {t : EmbTable} {rows : List EmbRow} (h : Evolves s₀ s) :
    Evolves s₀ (answerLookup b t rows s) :=
  .foldl h (fun _ _ h₁ => .ite (.foldl (.deliverRows h₁) (fun _ _ => .deliverPartial)) (.deliverRows h₁))

theorem Evolves.serveBatch {b : EmbBatch} (h : Evolves s₀ s) : Evolves s₀ (serveBatch b s) := by
  unfold Machine.serveBatch
  split
  · exact h
  · dsimp only
    split
    · split
      · exact .foldl (.countCoalesced (.updBatch h)) (fun _ _ => .deliverRows)
      · split
        next s₅ e₅ =>
          have h₅ := Evolves.of_snd (.readRows h) e₅
          exact .retryLater h h₅
        next s₆ e₆ =>
          have h₆ := Evolves.of_snd (.readRows h) e₆
          split
          next s₈ e₈ =>
            have h₈ := Evolves.of_snd (.stageRows (.foldl_snd_snd h₆ (fun _ _ => .answerRow))) e₈
            exact .retryLater h h₈
          next s₁₀ e₁₀ =>
            have h₁₀ := Evolves.of_snd (.stageRows (.foldl_snd_snd h₆ (fun _ _ => .answerRow))) e₁₀
            exact .answerLookup (.countCoalesced (.updBatch h₁₀))
    · split
      · exact .foldl (.countCoalesced (.updBatch h)) (fun _ _ => .deliverRows)
      · split
        next s₁₃ e₁₃ =>
          have h₁₃ := Evolves.of_snd (.readRows h) e₁₃
          exact .retryLater h h₁₃
        next s₁₄ e₁₄ =>
          have h₁₄ := Evolves.of_snd (.readRows h) e₁₄
          split
          next s₁₆ e₁₆ =>
            have h₁₆ := Evolves.of_snd (.stageRows (.foldl_snd_snd h₁₄ (fun _ _ => .answerRow))) e₁₆
            exact .retryLater h h₁₆
          next s₁₈ e₁₈ =>
            have h₁₈ := Evolves.of_snd (.stageRows (.foldl_snd_snd h₁₄ (fun _ _ => .answerRow))) e₁₈
            exact .answerLookup (.countCoalesced (.updBatch h₁₈))

theorem Evolves.checkReceived {b : EmbBatch} {t : EmbTable} (h : Evolves s₀ s) : Evolves s₀ (checkReceived b t s).2 := by
  unfold Machine.checkReceived
  split
  · exact h
  · refine .foldl_snd h fun _ _ h₄ => ?_
    dsimp only
    split
    · exact h₄
    · exact .recGear h₄

theorem Evolves.sayVerdict {b : EmbBatch} (h : Evolves s₀ s) : Evolves s₀ (sayVerdict b s) := by
  unfold Machine.sayVerdict
  split
  · exact h
  · split
    · exact h
    · dsimp only
      split
      next s₁ e₁ =>
        have h₁ := Evolves.of_snd (.stageRows (.checkReceived h)) e₁
        exact .retryLater h h₁
      next s₂ e₂ =>
        have h₂ := Evolves.of_snd (.stageRows (.checkReceived h)) e₂
        refine .foldl (.updBatch h₂) fun _ _ h₅ => ?_
        split
        · exact h₅
        · split
          · exact .emit h₅
          · exact h₅

theorem Evolves.rowUpdate {b : EmbBatch} {t : EmbTable} {row : ℕ} (h : Evolves s₀ s) :
    Evolves s₀ (rowUpdate b t row s).2 := by
  unfold Machine.rowUpdate
  split
  · exact h
  · split
    · dsimp only
      split
      next s₁ e₁ =>
        have h₁ := Evolves.of_snd (.homeReadN h) e₁
        exact .retryLater h h₁
      next s₂ e₂ =>
        have h₂ := Evolves.of_snd (.homeReadN h) e₂
        exact h₂
      next s₃ e₃ =>
        have h₃ := Evolves.of_snd (.homeReadN h) e₃
        split
        · exact .recGear h₃
        · split
          · split
            next s₄ e₄ =>
              have h₄ := Evolves.of_snd (.homeReadN h₃) e₄
              exact .retryLater h h₄
            next s₅ e₅ =>
              have h₅ := Evolves.of_snd (.homeReadN h₃) e₅
              exact h₅
            next s₆ e₆ =>
              have h₆ := Evolves.of_snd (.homeReadN h₃) e₆
              exact h₆
          · exact h₃
    · exact h

/-- One write of a batch's list: to a share of the table, or by address. -/
theorem Evolves.batchWrite {b : EmbBatch} {a : ℕ} {bs : List Byte} (h : Evolves s₀ s) :
    Evolves s₀ (if b.key.update then
        match Machine.homeWriteN s (b.rq 0) a bs with
        | (.done, n, s) => (EmbWr.done, n, s)
        | (.wait, n, s) => (.wait, n, s)
        | (.fail st, n, s) => (.fail st a, n, s)
      else Machine.embWrite s b a bs).2.2 := by
  have hhome : Evolves s₀ (Machine.homeWriteN s (b.rq 0) a bs).2.2 := .homeWriteN h
  split
  · split <;> exact hhome.of_snd_snd ‹_›
  · exact .embWrite h

theorem Evolves.runWrites {b : EmbBatch} {l : List (ℕ × List Byte)} (h : Evolves s₀ s) :
    Evolves s₀ (runWrites b l s).2.2 := by
  induction l generalizing s with
  | nil => exact h
  | cons x xs ih =>
    obtain ⟨a, bs⟩ := x
    unfold Machine.runWrites
    extract_lets r
    have hr : Evolves s₀ r.2.2 := h.batchWrite
    clear_value r
    split
    · exact ih hr
    · exact hr

theorem Evolves.applyRows {b : EmbBatch} {t : EmbTable} {l : List ℕ} (h : Evolves s₀ s) :
    Evolves s₀ (applyRows b t l s).2.2.2.2 := by
  induction l generalizing s with
  | nil =>
    unfold Machine.applyRows
    exact h
  | cons x xs ih =>
    unfold Machine.applyRows
    split
    next s₁ e₁ =>
      have h₁ := Evolves.of_snd (.rowUpdate h) e₁
      split
      next s₂ e₂ =>
        have h₂ := Evolves.of_snd_snd (.runWrites h₁) e₂
        exact ih h₂
      next s₃ _ e₃ =>
        have h₃ := Evolves.of_snd_snd (.runWrites h₁) e₃
        exact h₃
    next s₄ _ e₄ =>
      have h₄ := Evolves.of_snd (.rowUpdate h) e₄
      exact h₄

theorem Evolves.failRow {b : EmbBatch} {undo : List (ℕ × List Byte)} {st : Status} {off : ℕ} (h : Evolves s₀ s) :
    Evolves s₀ (failRow b undo st off s) :=
  .endBatch (.runWrites h)

theorem Evolves.writeBatch {b : EmbBatch} (h : Evolves s₀ s) : Evolves s₀ (writeBatch b s) := by
  have hrun : Evolves s₀ (Machine.runWrites b b.todo s).2.2 := .runWrites h
  unfold Machine.writeBatch
  split
  · exact h
  next t _ =>
    dsimp only
    split
    next e => exact .failRow (hrun.of_snd_snd e)
    next e => exact .updBatch (hrun.of_snd_snd e)
    next s₁ e =>
      have hrows : Evolves s₀ (Machine.applyRows b t b.left s₁).2.2.2.2 := .applyRows (hrun.of_snd_snd e)
      split
      next e₂ =>
        rw [e₂] at hrows
        exact .failRow hrows
      next e₂ =>
        rw [e₂] at hrows
        exact .updBatch hrows
      next e₂ =>
        rw [e₂] at hrows
        exact .endBatch hrows

theorem Evolves.judgeBatch {b : EmbBatch} (h : Evolves s₀ s) : Evolves s₀ (judgeBatch b s) := by
  unfold Machine.judgeBatch
  split
  · exact h
  · exact .ite h (.ite (.endBatch h) (.writeBatch (.updBatch h)))

theorem Evolves.pumpBatch {k : BatchKey} (h : Evolves s₀ s) : Evolves s₀ (pumpBatch k s) := by
  unfold Machine.pumpBatch
  dsimp only
  split
  · split
    · refine .writeBatch ?_
      split
      · split
        · refine .judgeBatch ?_
          split
          · split
            · refine .sayVerdict ?_
              split
              · split
                · exact .ite (.serveBatch (.ite (.loadBatch h) h)) (.ite (.loadBatch h) h)
                · exact .ite (.serveBatch h) h
              · split
                · exact .ite (.loadBatch h) h
                · exact h
            · split
              · split
                · exact .ite (.serveBatch (.ite (.loadBatch h) h)) (.ite (.loadBatch h) h)
                · exact .ite (.serveBatch h) h
              · split
                · exact .ite (.loadBatch h) h
                · exact h
          · split
            · split
              · exact .ite (.serveBatch (.ite (.loadBatch h) h)) (.ite (.loadBatch h) h)
              · exact .ite (.serveBatch h) h
            · split
              · exact .ite (.loadBatch h) h
              · exact h
        · split
          · split
            · refine .sayVerdict ?_
              split
              · split
                · exact .ite (.serveBatch (.ite (.loadBatch h) h)) (.ite (.loadBatch h) h)
                · exact .ite (.serveBatch h) h
              · split
                · exact .ite (.loadBatch h) h
                · exact h
            · split
              · split
                · exact .ite (.serveBatch (.ite (.loadBatch h) h)) (.ite (.loadBatch h) h)
                · exact .ite (.serveBatch h) h
              · split
                · exact .ite (.loadBatch h) h
                · exact h
          · split
            · split
              · exact .ite (.serveBatch (.ite (.loadBatch h) h)) (.ite (.loadBatch h) h)
              · exact .ite (.serveBatch h) h
            · split
              · exact .ite (.loadBatch h) h
              · exact h
      · split
        · split
          · refine .sayVerdict ?_
            split
            · split
              · exact .ite (.serveBatch (.ite (.loadBatch h) h)) (.ite (.loadBatch h) h)
              · exact .ite (.serveBatch h) h
            · split
              · exact .ite (.loadBatch h) h
              · exact h
          · split
            · split
              · exact .ite (.serveBatch (.ite (.loadBatch h) h)) (.ite (.loadBatch h) h)
              · exact .ite (.serveBatch h) h
            · split
              · exact .ite (.loadBatch h) h
              · exact h
        · split
          · split
            · exact .ite (.serveBatch (.ite (.loadBatch h) h)) (.ite (.loadBatch h) h)
            · exact .ite (.serveBatch h) h
          · split
            · exact .ite (.loadBatch h) h
            · exact h
    · split
      · split
        · refine .judgeBatch ?_
          split
          · split
            · refine .sayVerdict ?_
              split
              · split
                · exact .ite (.serveBatch (.ite (.loadBatch h) h)) (.ite (.loadBatch h) h)
                · exact .ite (.serveBatch h) h
              · split
                · exact .ite (.loadBatch h) h
                · exact h
            · split
              · split
                · exact .ite (.serveBatch (.ite (.loadBatch h) h)) (.ite (.loadBatch h) h)
                · exact .ite (.serveBatch h) h
              · split
                · exact .ite (.loadBatch h) h
                · exact h
          · split
            · split
              · exact .ite (.serveBatch (.ite (.loadBatch h) h)) (.ite (.loadBatch h) h)
              · exact .ite (.serveBatch h) h
            · split
              · exact .ite (.loadBatch h) h
              · exact h
        · split
          · split
            · refine .sayVerdict ?_
              split
              · split
                · exact .ite (.serveBatch (.ite (.loadBatch h) h)) (.ite (.loadBatch h) h)
                · exact .ite (.serveBatch h) h
              · split
                · exact .ite (.loadBatch h) h
                · exact h
            · split
              · split
                · exact .ite (.serveBatch (.ite (.loadBatch h) h)) (.ite (.loadBatch h) h)
                · exact .ite (.serveBatch h) h
              · split
                · exact .ite (.loadBatch h) h
                · exact h
          · split
            · split
              · exact .ite (.serveBatch (.ite (.loadBatch h) h)) (.ite (.loadBatch h) h)
              · exact .ite (.serveBatch h) h
            · split
              · exact .ite (.loadBatch h) h
              · exact h
      · split
        · split
          · refine .sayVerdict ?_
            split
            · split
              · exact .ite (.serveBatch (.ite (.loadBatch h) h)) (.ite (.loadBatch h) h)
              · exact .ite (.serveBatch h) h
            · split
              · exact .ite (.loadBatch h) h
              · exact h
          · split
            · split
              · exact .ite (.serveBatch (.ite (.loadBatch h) h)) (.ite (.loadBatch h) h)
              · exact .ite (.serveBatch h) h
            · split
              · exact .ite (.loadBatch h) h
              · exact h
        · split
          · split
            · exact .ite (.serveBatch (.ite (.loadBatch h) h)) (.ite (.loadBatch h) h)
            · exact .ite (.serveBatch h) h
          · split
            · exact .ite (.loadBatch h) h
            · exact h
  · split
    · split
      · refine .judgeBatch ?_
        split
        · split
          · refine .sayVerdict ?_
            split
            · split
              · exact .ite (.serveBatch (.ite (.loadBatch h) h)) (.ite (.loadBatch h) h)
              · exact .ite (.serveBatch h) h
            · split
              · exact .ite (.loadBatch h) h
              · exact h
          · split
            · split
              · exact .ite (.serveBatch (.ite (.loadBatch h) h)) (.ite (.loadBatch h) h)
              · exact .ite (.serveBatch h) h
            · split
              · exact .ite (.loadBatch h) h
              · exact h
        · split
          · split
            · exact .ite (.serveBatch (.ite (.loadBatch h) h)) (.ite (.loadBatch h) h)
            · exact .ite (.serveBatch h) h
          · split
            · exact .ite (.loadBatch h) h
            · exact h
      · split
        · split
          · refine .sayVerdict ?_
            split
            · split
              · exact .ite (.serveBatch (.ite (.loadBatch h) h)) (.ite (.loadBatch h) h)
              · exact .ite (.serveBatch h) h
            · split
              · exact .ite (.loadBatch h) h
              · exact h
          · split
            · split
              · exact .ite (.serveBatch (.ite (.loadBatch h) h)) (.ite (.loadBatch h) h)
              · exact .ite (.serveBatch h) h
            · split
              · exact .ite (.loadBatch h) h
              · exact h
        · split
          · split
            · exact .ite (.serveBatch (.ite (.loadBatch h) h)) (.ite (.loadBatch h) h)
            · exact .ite (.serveBatch h) h
          · split
            · exact .ite (.loadBatch h) h
            · exact h
    · split
      · split
        · refine .sayVerdict ?_
          split
          · split
            · exact .ite (.serveBatch (.ite (.loadBatch h) h)) (.ite (.loadBatch h) h)
            · exact .ite (.serveBatch h) h
          · split
            · exact .ite (.loadBatch h) h
            · exact h
        · split
          · split
            · exact .ite (.serveBatch (.ite (.loadBatch h) h)) (.ite (.loadBatch h) h)
            · exact .ite (.serveBatch h) h
          · split
            · exact .ite (.loadBatch h) h
            · exact h
      · split
        · split
          · exact .ite (.serveBatch (.ite (.loadBatch h) h)) (.ite (.loadBatch h) h)
          · exact .ite (.serveBatch h) h
        · split
          · exact .ite (.loadBatch h) h
          · exact h

theorem Evolves.pumpBatches (h : Evolves s₀ s) : Evolves s₀ (pumpBatches s) := .foldl h (fun _ _ => .pumpBatch)

theorem Evolves.takeEmbViews {b : EmbBatch} {t : EmbTable} (h : Evolves s₀ s) : Evolves s₀ (takeEmbViews b t s) := by
  unfold Machine.takeEmbViews
  dsimp only
  refine .foldl h fun _ _ h₄ => ?_
  split
  · split
    · exact .takeView h₄
    · exact h₄
  · exact h₄

theorem EffOk.startBatch {b : EmbBatch} {t : EmbTable} (h : Evolves s₀ s) : EffOk s₀ (startBatch b t s) := by
  unfold Machine.startBatch
  exact .ite (.stat h) (.ite (.stat h) (.later (.pumpBatch (.takeEmbViews (.frame h)))))

theorem EffOk.bodyEmbLookup {a : Cmd} (h : Evolves s₀ s) : EffOk s₀ (bodyEmbLookup a s) := by
  unfold Machine.bodyEmbLookup
  split
  · exact .stat h
  · exact .ite (.stat h) (.ite (.stat h) (.startBatch h))

theorem EffOk.bodyEmbUpdate {c : Cmd} (h : Evolves s₀ s) : EffOk s₀ (bodyEmbUpdate c s) := by
  unfold Machine.bodyEmbUpdate
  split
  · exact .stat h
  next t i _ =>
    have hstart : Evolves s₀ (Machine.startBatch (embBatch c true i s.eng.nextOp) t s).st := EffOk.startBatch h
    refine .ite (.stat h) (.ite (.stat h) ?_)
    dsimp only
    split
    · exact hstart
    · exact hstart.frame

theorem Evolves.addEarly {k : BatchKey} {defTag : BitVec 32} {runs : List EmbRun}
    {parts : List (ℕ × ℕ × List (BitVec 32))} (h : Evolves s₀ s) : Evolves s₀ (addEarly k defTag runs parts s) := by
  unfold Machine.addEarly
  exact .frame h

theorem Evolves.runArrives {k : BatchKey} {run : EmbRun} (h : Evolves s₀ s) : Evolves s₀ (runArrives k run s) := by
  unfold Machine.runArrives
  split
  · exact .addEarly h
  · exact .pumpBatch (.updBatch h)

theorem Evolves.replyArrives {k : BatchKey} {defTag : BitVec 32} {from_ : ℕ} {f : EmbBatch → EmbBatch} {b : EmbBatch}
    (h : Evolves s₀ s) : Evolves s₀ (replyArrives k defTag from_ f b s) :=
  .pumpBatch (.updBatch h)

theorem Evolves.rowsArrive {k : BatchKey} {defTag : BitVec 32} {from_ : ℕ} {rows : List EmbRow} (h : Evolves s₀ s) :
    Evolves s₀ (rowsArrive k defTag from_ rows s) := by
  unfold Machine.rowsArrive
  split
  · exact h
  · exact .replyArrives h

theorem Evolves.partialArrives {k : BatchKey} {defTag : BitVec 32} {from_ key : ℕ} {values : List (BitVec 32)}
    (h : Evolves s₀ s) : Evolves s₀ (partialArrives k defTag from_ key values s) := by
  unfold Machine.partialArrives
  split
  · exact .addEarly h
  · exact .replyArrives h

theorem Evolves.verdictArrives {k : BatchKey} {from_ : ℕ} {f : EmbFault} (h : Evolves s₀ s) :
    Evolves s₀ (verdictArrives k from_ f s) :=
  .pumpBatch (.updBatch h)

theorem Evolves.limitExpires {k : BatchKey} (h : Evolves s₀ s) : Evolves s₀ (limitExpires k s) := by
  unfold Machine.limitExpires
  split
  · exact h
  · exact .ite h (.endBatch h)

theorem Evolves.embLost {module : ℕ} (h : Evolves s₀ s) : Evolves s₀ (embLost module s) := by
  unfold Machine.embLost
  refine .foldl h fun _ _ h₃ => ?_
  split
  · exact h₃
  · exact .ite (.endBatch h₃) h₃

theorem Evolves.dropEmb {r : Option (BitVec 6)} (h : Evolves s₀ s) : Evolves s₀ (dropEmb r s) := by
  unfold Machine.dropEmb
  exact .frame (.foldl h (fun _ _ => .endBatch))

/-! ### Identity -/

theorem Evolves.measure {m : Measure} (h : Evolves s₀ s) : Evolves s₀ (Machine.measure m s) := by
  unfold Machine.measure
  exact .frame h

theorem EffOk.withIdentity {e : Eff} (h : Evolves s₀ s) (h' : EffOk s₀ e) : EffOk s₀ (withIdentity s e) :=
  .ite h' (.stat h)

theorem EffOk.bodyAttest {a : Cmd} (h : Evolves s₀ s) : EffOk s₀ (bodyAttest a s) := .withIdentity h (.data h)

/-! ### Twin -/

theorem Evolves.setPair {st : BitVec 4} (h : Evolves s₀ s) : Evolves s₀ (setPair st s) := by
  unfold Machine.setPair
  exact .ite h (.alert (.frame h))

theorem Evolves.checkPaired (h : Evolves s₀ s) : Evolves s₀ (checkPaired s) := .ite (.setPair h) h

theorem Evolves.sendMeta (h : Evolves s₀ s) : Evolves s₀ (sendMeta s) := by
  unfold Machine.sendMeta
  exact .ite h (.ite h (.emit (.frame h)))

theorem Evolves.mirrorFrame {page : ℕ} (h : Evolves s₀ s) : Evolves s₀ (mirrorFrame page s).2 := by
  unfold Machine.mirrorFrame
  split
  · exact h
  · exact .frame h rfl

theorem Evolves.putFrame {f off : ℕ} {bs : List Byte} (h : Evolves s₀ s) : Evolves s₀ (putFrame f off bs s) := by
  unfold Machine.putFrame
  exact .parts h (.putBytes h.store) h.tiles

theorem Evolves.mirrorShadow {idx page : ℕ} (h : Evolves s₀ s) : Evolves s₀ (mirrorShadow idx page s).2 := by
  unfold Machine.mirrorShadow
  dsimp only
  split
  · exact h
  · dsimp only
    refine .updExt ?_
    refine .parts h ?_ h.tiles
    dsimp only
    split
    · exact .copyFrame (.newFrame h.store)
    · exact .newFrame h.store

theorem Evolves.openMirrorLap {idx : ℕ} {r : BitVec 6} {num : BitVec 32} {reserved : ℕ} (h : Evolves s₀ s) :
    Evolves s₀ (openMirrorLap idx r num reserved s) :=
  .updExt h

theorem Evolves.mirrorArrives {page off : ℕ} {data : List Byte} {ver : MirVer} (h : Evolves s₀ s) :
    Evolves s₀ (mirrorArrives page off data ver s) := by
  unfold Machine.mirrorArrives
  dsimp only
  split
  · exact h
  · split
    · exact h
    · split
      · exact .putFrame (.mirrorFrame h)
      · exact .putFrame (.mirrorShadow (.ite h (.openMirrorLap h)))
      · exact .ite h (.updExt (.putFrame (.frame h rfl)))

theorem Evolves.metaArrives {m : ExtMeta} (h : Evolves s₀ s) : Evolves s₀ (metaArrives m s) := by
  unfold Machine.metaArrives
  split
  · exact h
  · split
    · exact h
    · dsimp only
      refine .reapLaps ?_
      split
      · exact .updExt h
      · split
        · exact .openMirrorLap (.updExt h)
        · exact .abandonLap (.updExt h)

theorem Evolves.infoArrives {left : ℕ} {exts : List ExtMeta} (h : Evolves s₀ s) : Evolves s₀ (infoArrives left exts s) := by
  unfold Machine.infoArrives
  exact .checkPaired (.foldl (.frame h) (fun _ _ => .metaArrives))

theorem Evolves.mirrorMsg {m : MirMsg} (h : Evolves s₀ s) : Evolves s₀ (mirrorMsg m s) := by
  unfold Machine.mirrorMsg
  split
  · exact .mirrorArrives h
  · exact .infoArrives h

theorem Evolves.recordArrives {exts : List (ℕ × BitVec 32)} {shadows : List (ℕ × List Byte)} (h : Evolves s₀ s) :
    Evolves s₀ (recordArrives exts shadows s) := by
  unfold Machine.recordArrives
  exact .ite h (.emit (.frame (.foldl (.foldl h (fun _ _ => .openMirrorLap)) (fun _ _ h₂ => .putFrame (.mirrorShadow h₂)))))

theorem Evolves.switchMirror {e : ℕ × BitVec 32} (h : Evolves s₀ s) : Evolves s₀ (switchMirror e s) := by
  unfold Machine.switchMirror
  split
  · dsimp only
    split
    · exact .commitLap (.updExt h)
    · exact .switchLap (.updExt h)
  · exact h

theorem Evolves.markArrives {exts : List (ℕ × BitVec 32)} (h : Evolves s₀ s) : Evolves s₀ (markArrives exts s) := by
  unfold Machine.markArrives
  exact .ite h (.frame (.foldl h (fun _ _ => .switchMirror)))

theorem Evolves.stepJobs {f : Job → State → State × Option Job}
    (hf : ∀ (a : Job) (t : State), Evolves s₀ t → Evolves s₀ (f a t).1) (h : Evolves s₀ s) : Evolves s₀ (stepJobs f s) := by
  unfold Machine.stepJobs
  exact .foldl (.frame h) (fun _ _ h₁ => .addJob (hf _ _ h₁))

theorem Evolves.ackPrepared {exts : List (ℕ × BitVec 32)} (h : Evolves s₀ s) : Evolves s₀ (ackPrepared exts s) := by
  unfold Machine.ackPrepared
  refine .stepJobs (fun _ _ h₃ => ?_) h
  split
  · exact .ite_fst (.tryCommit h₃) h₃
  · exact .ite_fst (.tryRollback h₃) h₃
  · exact h₃

theorem Evolves.sendPage {page : ℕ} (h : Evolves s₀ s) : Evolves s₀ (sendPage page s) := by
  unfold Machine.sendPage
  split
  · dsimp only
    refine .foldl ?_ fun _ _ h₂ => ?_
    · split
      · split
        · refine .emit ?_
          split
          · exact .emit h
          · exact h
        · split
          · exact .emit h
          · exact h
      · split
        · exact .emit h
        · exact h
    · split
      · exact .emit h₂
      · exact h₂
  · exact h

theorem Evolves.resyncPage {page : ℕ} (h : Evolves s₀ s) : Evolves s₀ (resyncPage page s) := by
  unfold Machine.resyncPage
  split
  · exact .ite (.checkPaired (.sendMeta (.sendPage (.frame h)))) h
  · exact h

theorem Evolves.startResync (h : Evolves s₀ s) : Evolves s₀ (startResync s) := by
  unfold Machine.startResync
  exact .checkPaired (.sendMeta (.frame (.setPair h)))

theorem Evolves.takeNonce (h : Evolves s₀ s) : Evolves s₀ (takeNonce s).2 := by
  unfold Machine.takeNonce
  exact .frame h

theorem EffOk.bodyTandemPair {c : Cmd} (h : Evolves s₀ s) : EffOk s₀ (bodyTandemPair c s) := by
  unfold Machine.bodyTandemPair
  refine .withIdentity h (.ite (.stat h) (.ite (.stat h) ?_))
  split
  next e => exact .later (.emit (Evolves.of_snd (.takeNonce h) e).frame)

theorem Evolves.reportArrives {report nonce : List Byte} (h : Evolves s₀ s) : Evolves s₀ (reportArrives report nonce s) := by
  unfold Machine.reportArrives
  dsimp only
  split
  · exact .ite (.emit h) h
  · exact .ite (.ite (.emit h) h) (.ite (.startResync (.completeIf (.frame (.ite (.emit h) h)))) (.completeIf (.frame (.ite
      (.emit h) h))))

theorem Evolves.recLink {lanes : ℕ} (h : Evolves s₀ s) : Evolves s₀ (recLink lanes s) := .detect h

theorem Evolves.twinDown (h : Evolves s₀ s) : Evolves s₀ (twinDown s) := by
  unfold Machine.twinDown
  split
  · exact h
  · extract_lets +onlyGivenNames _ s₂
    have h₂ : Evolves s₀ s₂ := .recLink (.frame h)
    exact .ite (.setPair (.frame h₂)) h₂

theorem Evolves.twinUp {lanes : BitVec 32} (h : Evolves s₀ s) : Evolves s₀ (twinUp lanes s) := by
  unfold Machine.twinUp
  extract_lets +onlyGivenNames _
  split
  · exact h
  · extract_lets +onlyGivenNames _ _ s₄ s₅
    have h₄ : Evolves s₀ s₄ := .frame h
    have h₅ : Evolves s₀ s₅ := .ite (.recLink h₄) h₄
    exact .ite (.checkPaired (.sendMeta (.frame (.setPair h₅)))) h₅

theorem Evolves.mirrorWaitEnds {w : MirWaiter} (h : Evolves s₀ s) : Evolves s₀ (mirrorWaitEnds w s) := by
  unfold Machine.mirrorWaitEnds
  split
  · exact h
  · split
    · dsimp only
      split
      · refine .failOp ?_
        refine .stepJobs (fun _ _ h₅ => ?_) h
        split
        · exact .ite_fst (.completeIf (.forExts h₅ (fun _ _ => .setClosed))) h₅
        · exact h₅
      · split
        · split
          · refine .failRow ?_
            refine .stepJobs (fun _ _ h₁₁ => ?_) h
            split
            · exact .ite_fst (.completeIf (.forExts h₁₁ (fun _ _ => .setClosed))) h₁₁
            · exact h₁₁
          · refine .stepJobs (fun _ _ h₁₅ => ?_) h
            split
            · exact .ite_fst (.completeIf (.forExts h₁₅ (fun _ _ => .setClosed))) h₁₅
            · exact h₁₅
        · refine .stepJobs (fun _ _ h₁₉ => ?_) h
          split
          · exact .ite_fst (.completeIf (.forExts h₁₉ (fun _ _ => .setClosed))) h₁₉
          · exact h₁₉
    · split
      · split
        · exact .refuseStore h
        · split
          · exact .failAcc h
          · exact .failStream h
          · exact h
      · exact h

theorem Evolves.takeExt {clean : Bool} {x : Extent} (h : Evolves s₀ s) : Evolves s₀ (takeExt clean x s) := by
  unfold Machine.takeExt
  dsimp only
  split
  · split
    · exact .foldl (.foldl (.updExt (.ite (.abandonLap h) h)) (fun _ _ => .frame)) (fun _ _ => .setLoss)
    · split
      · exact .foldl (.foldl (.updExt (.ite (.abandonLap h) h)) (fun _ _ => .frame)) (fun _ _ => .setLoss)
      · exact .foldl (.foldl (.foldl (.updExt (.ite (.abandonLap h) h)) (fun _ _ => .frame)) (fun _ _ => .setLoss)) (fun _ _
          => .postEvent)
  · split
    · split
      · exact .foldl (.foldl (.updExt (.ite (.abandonLap h) h)) (fun _ _ => .frame)) (fun _ _ => .setLoss)
      · split
        · exact .foldl (.foldl (.updExt (.ite (.abandonLap h) h)) (fun _ _ => .frame)) (fun _ _ => .setLoss)
        · exact .foldl (.foldl (.foldl (.updExt (.ite (.abandonLap h) h)) (fun _ _ => .frame)) (fun _ _ => .setLoss)) (fun _
            _ => .postEvent)
    · split
      · exact .foldl (.foldl (.updExt (.ite (.abandonLap h) h)) (fun _ _ => .frame)) (fun _ _ => .setLoss)
      · split
        · exact .foldl (.foldl (.updExt (.ite (.abandonLap h) h)) (fun _ _ => .frame)) (fun _ _ => .setLoss)
        · exact .foldl (.foldl (.foldl (.updExt (.ite (.abandonLap h) h)) (fun _ _ => .frame)) (fun _ _ => .setLoss)) (fun _
            _ => .postEvent)

theorem Evolves.takeWindows (h : Evolves s₀ s) : Evolves s₀ (takeWindows s) := by
  unfold Machine.takeWindows
  exact .frame h

theorem Evolves.endMirror (h : Evolves s₀ s) : Evolves s₀ (endMirror s) := by
  unfold Machine.endMirror
  exact .frame h

theorem Evolves.takeOver {clean : Bool} (h : Evolves s₀ s) : Evolves s₀ (takeOver clean s) := by
  unfold Machine.takeOver
  split
  · exact h
  · extract_lets +onlyGivenNames s₄ _ s₈ s₉ s₁₁ _ s₁₃
    have h₄ : Evolves s₀ s₄ := .foldl h (fun _ _ h₅ => .foldl h₅ (fun _ _ => .switchMirror))
    have h₈ : Evolves s₀ s₈ := .frame h₄
    have h₉ : Evolves s₀ s₉ := .foldl h₈ (fun _ _ => .takeExt)
    have h₁₁ : Evolves s₀ s₁₁ := .dropHolds h₉
    have h₁₃ : Evolves s₀ s₁₃ := .endMirror (.frame h₁₁)
    exact .setPair (.takeWindows h₁₃)

theorem Evolves.stopAllTiles (h : Evolves s₀ s) : Evolves s₀ (stopAllTiles s) :=
  .foldl h (fun _ _ h₁ => .stopStreams (.foldl h₁ (fun _ _ => .haltCtx)))

theorem Evolves.unloadAll (h : Evolves s₀ s) : Evolves s₀ (unloadAll s) := .foldl h (fun _ _ => .unloadTile)

theorem EffOk.bodyTandemHandover {a : Cmd} (h : Evolves s₀ s) : EffOk s₀ (bodyTandemHandover a s) := by
  unfold Machine.bodyTandemHandover
  exact .ite (.stat h) (.ite (.stat h) (.ite (.stat h) (.later (.setPair (.frame (.stopAllTiles h))))))

theorem Evolves.handoverDone (h : Evolves s₀ s) : Evolves s₀ (handoverDone s) := by
  unfold Machine.handoverDone
  split
  · split
    · exact h
    · dsimp only
      split
      · exact .completeIf (.setPair (.frame (.sendMeta (.unloadAll (.foldl h (fun _ _ => .abandonLap))))))
      · exact .setPair (.frame (.sendMeta (.unloadAll (.foldl h (fun _ _ => .abandonLap)))))
  · exact .ite (.takeOver h) h

theorem Evolves.relayArrives {m : Relayed} {port : Fin 24} (h : Evolves s₀ s) : Evolves s₀ (relayArrives m port s) := by
  unfold Machine.relayArrives
  dsimp only
  split
  · exact h
  · split
    · exact .ite (.emit h) (.storeArrives h)
    · split
      · exact .ite (.refuseReq h) (.acceptReq h)
      · exact .refuseReq h
    · exact .ite (.emit h) (.fenceArrives h)

/-! ### Errors -/

theorem Evolves.endHome {w : ℕ} (h : Evolves s₀ s) : Evolves s₀ (endHome w s) := .kick (.foldl h (fun _ _ => .endWith))

theorem Evolves.endSyncBank {w : ℕ} (h : Evolves s₀ s) : Evolves s₀ (endSyncBank w s) := by
  unfold Machine.endSyncBank
  dsimp only
  refine .foldl (.frame h) fun _ _ h₄ => ?_
  split
  · exact .completeIf h₄
  · exact .ctxFault h₄

theorem Evolves.fenceChainring {w : ℕ} (h : Evolves s₀ s) : Evolves s₀ (fenceChainring w s) :=
  .foldl (.foldl (.endSyncBank (.endHome h)) (fun _ _ h₁ => .wakeClient (.dropWalk h₁))) (fun _ _ => .queueError)

theorem Evolves.fencePort {p : ℕ} (h : Evolves s₀ s) : Evolves s₀ (fencePort p s) := by
  unfold Machine.fencePort
  exact .portGone (.frame h)

theorem Evolves.fenceTandem (h : Evolves s₀ s) : Evolves s₀ (fenceTandem s) := by
  unfold Machine.fenceTandem
  exact .ite (.twinDown h) (.frame h)

theorem Evolves.fenceSaddlebag {k : ℕ} (h : Evolves s₀ s) : Evolves s₀ (fenceSaddlebag k s) :=
  .foldl (.foldl h (fun _ _ => .failRead)) (fun _ _ => .failProg)

theorem Evolves.fenceEffects {u : BitVec 16} (h : Evolves s₀ s) : Evolves s₀ (fenceEffects u s) := by
  unfold Machine.fenceEffects
  dsimp only
  split
  · exact .fenceTile h
  · exact .foldl h (fun _ _ => .fenceTile)
  · exact .fenceChainring h
  · exact .endHome h
  · exact .fencePort h
  · exact .fenceTandem h
  · exact .fenceSaddlebag h
  · exact h

theorem Evolves.fenceUnit {u : BitVec 16} {trigger : ℕ} (h : Evolves s₀ s) : Evolves s₀ (fenceUnit u trigger s) :=
  .ite h (.ite (.declareLost h) (.fenceEffects (.markFence h)))

theorem OutOk.execTileIssueWatchdog {tile : BitVec 10} (h : Evolves s₀ s) : OutOk s₀ (execTileIssueWatchdog tile s) := by
  unfold Machine.execTileIssueWatchdog
  refine .next ?_
  refine .whenUp h fun _ h₅ => ?_
  split
  · exact .ite (.fenceUnit h₅) h₅
  · exact h₅

theorem Evolves.recMgmt {unit : BitVec 16} {code : BitVec 4} {disagrees : Bool} (h : Evolves s₀ s) :
    Evolves s₀ (recMgmt unit code disagrees s) :=
  .writeRec h

theorem Evolves.mgmtSees {unit : BitVec 16} {code : BitVec 4} (h : Evolves s₀ s) : Evolves s₀ (mgmtSees unit code s) := by
  unfold Machine.mgmtSees
  exact .ite h (.ite (.alert (.recMgmt (.frame h))) (.recMgmt (.frame h)))

theorem Evolves.recPatrol {u : BitVec 16} {off : ℕ} (h : Evolves s₀ s) : Evolves s₀ (recPatrol u off s) := .detect h

theorem Evolves.patrolWord {off : ℕ} {found : Ecc} (h : Evolves s₀ s) : Evolves s₀ (patrolWord off found s) := by
  unfold Machine.patrolWord
  split
  · exact h
  · dsimp only
    split
    · exact h
    · split
      · split
        · exact .ite (.recPatrol (.alterWord (.ite (.alterWord h) h))) (.ite (.corrected (.frame (.alterWord (.ite
            (.alterWord h) h)))) (.alterWord (.ite (.alterWord h) h)))
        · exact .ite (.recPatrol (.alterWord h)) (.ite (.corrected (.frame (.alterWord h))) (.alterWord h))
      · split
        · exact .ite (.recPatrol (.ite (.alterWord h) h)) (.ite (.corrected (.frame (.ite (.alterWord h) h))) (.ite
            (.alterWord h) h))
        · exact .ite (.recPatrol h) (.ite (.corrected (.frame h)) h)

theorem Evolves.recUnfence {u : BitVec 16} {step : ℕ} (h : Evolves s₀ s) : Evolves s₀ (recUnfence u step s) := .writeRec h

theorem Evolves.mountState {k : ℕ} (h : Evolves s₀ s) : Evolves s₀ (mountState k s) := .setClusterState h

theorem Evolves.liftFence {u : BitVec 16} (h : Evolves s₀ s) : Evolves s₀ (liftFence u s) := by
  unfold Machine.liftFence
  dsimp only
  split
  · exact .ite (.frame h) (.portComesUp (.frame h))
  · exact .twinUp (.frame h)
  · exact .ite (.mountState (.frame h)) (.frame h)
  · exact .frame h
  · exact .frame h

theorem Evolves.clearSlice {w : ℕ} (h : Evolves s₀ s) : Evolves s₀ (clearSlice w s) := by
  unfold Machine.clearSlice
  exact .frame h

theorem Evolves.endCheck {x : Check} {failed : ℕ} {dirDouble : Bool} (h : Evolves s₀ s) :
    Evolves s₀ (endCheck x failed dirDouble s) := by
  unfold Machine.endCheck
  exact .ite (.completeIf (.recUnfence (.ite (.foldl (.frame h) (fun _ _ => .recPatrol)) (.frame h)))) (.completeIf
    (.recUnfence (.liftFence (.ite (.clearSlice (.foldl (.ite (.foldl (.frame h) (fun _ _ => .recPatrol)) (.frame h)) (fun _
    _ => .declareLost))) (.ite (.foldl (.frame h) (fun _ _ => .recPatrol)) (.frame h))))))

theorem OutOk.execUnfenceCheckComplete {unit : BitVec 16} {failedStep : BitVec 3} {dirDouble : Bool}
    (h : Evolves s₀ s) : OutOk s₀ (execUnfenceCheckComplete unit failedStep dirDouble s) := by
  unfold Machine.execUnfenceCheckComplete
  refine .next ?_
  refine .whenUp h fun _ h₅ => ?_
  split
  · exact .ite h₅ (.endCheck h₅)
  · exact h₅

theorem EffOk.bodyUnitUnfence {a : Cmd} (h : Evolves s₀ s) : EffOk s₀ (bodyUnitUnfence a s) := by
  unfold Machine.bodyUnitUnfence
  exact .ite (.stat h) (.ite (.ok h) (.ite (.stat h) (.ite (.ok (.recUnfence (.liftFence h))) (.later (.frame h)))))

theorem Evolves.topOf {l : Log} (h : Evolves s₀ s) : Evolves s₀ (topOf l s).2 := by
  unfold Machine.topOf
  split
  · exact h
  · exact .takeFree h

theorem EffOk.readLog {l : Log} {c : Cmd} (h : Evolves s₀ s) : EffOk s₀ (readLog l c s) := .data (.topOf h)

theorem EffOk.bodyErrLogRead {a : Cmd} (h : Evolves s₀ s) : EffOk s₀ (bodyErrLogRead a s) :=
  .ite (.stat h) (.ite (.ite (.stat h) (.readLog h)) (.readLog h))

theorem EffOk.bodyOdometerRead {a : Cmd} (h : Evolves s₀ s) : EffOk s₀ (bodyOdometerRead a s) :=
  .ite (.stat h) (.data (.topOf h))

theorem newest_length {α : Type} (cap : ℕ) (l : List α) : (newest cap l).length ≤ cap := by
  rw [newest, List.length_drop]
  omega

theorem Evolves.withOdometer {rs : List Rec} {n : ℕ} {bad : List ℕ} (h : Evolves s₀ s) (hrs : rs.length ≤ 131072) :
    Evolves s₀ { s with nv.odometer.recs := rs, nv.odoPos := n, nv.odoBad := bad } :=
  h.trans ⟨fun hinv => { hinv with odometer := hrs }, le_rfl, le_rfl, le_rfl, le_rfl, rfl⟩

theorem Evolves.odoWritten {seq : ℕ} {crcOk : Bool} (h : Evolves s₀ s) : Evolves s₀ (odoWritten seq crcOk s) := by
  unfold Machine.odoWritten
  extract_lets first
  split
  · exact h
  split
  · exact h
  · exact .withOdometer h (newest_length _ _)

theorem Evolves.armInj {c : Cmd} (h : Evolves s₀ s) : Evolves s₀ (armInj c s) := by
  unfold Machine.armInj
  dsimp only
  split
  · exact .frame (.writeRec h)
  · split
    · exact .alterWord (.frame (.writeRec h))
    · exact .frame (.writeRec h)

theorem EffOk.bodyInject {a : Cmd} (h : Evolves s₀ s) : EffOk s₀ (bodyInject a s) :=
  .withIdentity h (.checked h (fun _ => .ok (.armInj h)))

/-! ### Flash -/

theorem Evolves.moveUnit {k frame : ℕ} {unit : Fin 4} {place : FlashUnit} {us : List FlashUnit} (h : Evolves s₀ s) :
    Evolves s₀ (moveUnit k frame unit place us s) := by
  unfold Machine.moveUnit
  exact .frame h

theorem OutOk.execRelocationComplete {m : UnitMove} (h : Evolves s₀ s) : OutOk s₀ (execRelocationComplete m s) := by
  unfold Machine.execRelocationComplete
  refine .next ?_
  refine .onCluster h fun _ h₅ => ?_
  dsimp only
  split
  · exact h₅
  · exact .ite h₅ (.ite (.frame h₅) (.moveUnit h₅))

theorem Evolves.mountFails {k : ℕ} (h : Evolves s₀ s) : Evolves s₀ (mountFails k s) := .fenceUnit (.setClusterState h)

/-! ### Power -/

theorem StoreOk.keptStore {k : Option Kept} {st : Store} (h : StoreOk s₀ st) : StoreOk s₀ (keptStore k st) :=
  .of_mem (.filter h.mem)

/-- A reset keeps the boot flash and the odometer, and leaves every log of the package empty. -/
theorem Evolves.coldReset {cause : BitVec 32} {phase : Phase} (h : Evolves s₀ s) : Evolves s₀ (coldReset cause phase s) := by
  refine ⟨fun hinv => ?_, h.svn_le, h.configSeq_le, h.setSeq_le, h.lastOrder_le, h.bootCount_eq⟩
  obtain ⟨-, hA, hB, hstage, -, -, hodo, -, -⟩ := h.keeps_inv hinv
  exact
    { mem := h.store.keptStore hinv, slotA := hA, slotB := hB, staging := hstage, odometer := hodo
      panniers := fun _ hx => absurd hx List.not_mem_nil
      errLog := Nat.zero_le _
      faults := fun _ hp => absurd hp List.not_mem_nil
      tags := Nat.zero_le _ }

theorem Evolves.recCut {p : FlashProg} (h : Evolves s₀ s) : Evolves s₀ (recCut p s) := .writeRec h

theorem Evolves.sideDark (h : Evolves s₀ s) : Evolves s₀ (sideDark s) := by
  unfold Machine.sideDark
  exact .ite (.frame h) h

theorem Evolves.powerOff {cause : BitVec 32} (h : Evolves s₀ s) : Evolves s₀ (powerOff cause s) := by
  unfold Machine.powerOff
  exact .ite h (.sideDark (.frame (.coldReset (.foldl h (fun _ _ => .recCut)))))

theorem Evolves.bootTimeZero (h : Evolves s₀ s) : Evolves s₀ (bootTimeZero s) := by
  unfold Machine.bootTimeZero
  exact .frame h

theorem Evolves.powerOn (h : Evolves s₀ s) : Evolves s₀ (powerOn s) := by
  unfold Machine.powerOn
  exact .ite (.frame h) (.bootTimeZero (.frame h))

theorem Evolves.recPower {event limit idx : ℕ} {reading : BitVec 32} (h : Evolves s₀ s) :
    Evolves s₀ (recPower event limit idx reading s) :=
  .writeRec h

theorem Evolves.brakeOn (h : Evolves s₀ s) : Evolves s₀ (brakeOn s) := by
  unfold Machine.brakeOn
  dsimp only
  split
  · exact .frame h
  · exact .frame h
  · exact .frame h

theorem Evolves.emergencyBegins (h : Evolves s₀ s) : Evolves s₀ (emergencyBegins s) := by
  unfold Machine.emergencyBegins
  exact .frame h

theorem Evolves.engage {c : BrakeCause} {event limit idx : ℕ} {reading : BitVec 32} (h : Evolves s₀ s) :
    Evolves s₀ (engage c event limit idx reading s) := by
  unfold Machine.engage
  exact .ite h (.brakeOn (.ite (.recPower (.emergencyBegins (.frame h))) (.alert (.recPower (.emergencyBegins (.frame h))))))

theorem Evolves.brakeOff (h : Evolves s₀ s) : Evolves s₀ (brakeOff s) := by
  unfold Machine.brakeOff
  exact .ite (.recPower (.frame h)) h

theorem Evolves.endOverride {w : ℕ} {c : BrakeCause} (h : Evolves s₀ s) : Evolves s₀ (endOverride w c s) :=
  .ite h (.alert (.recPower h))

theorem OutOk.execInputPowerLimit {w : ℕ} (h : Evolves s₀ s) : OutOk s₀ (execInputPowerLimit w s) := by
  unfold Machine.execInputPowerLimit
  exact .next (.whenUp h (fun _ h₁ => .ite (.engage (.ite (.engage (.frame h₁)) (.frame h₁))) (.ite (.engage (.frame h₁))
    (.frame h₁))))

theorem Evolves.setTemp {i : ℕ} {temp : BitVec 16} (h : Evolves s₀ s) : Evolves s₀ (setTemp i temp s) := by
  unfold Machine.setTemp
  exact .frame h

theorem OutOk.execBrakeThreshold {sensor : Fin 104} {temp : BitVec 16} (h : Evolves s₀ s) :
    OutOk s₀ (execBrakeThreshold sensor temp s) := by
  unfold Machine.execBrakeThreshold
  refine .next ?_
  refine .whenUp h fun _ h₅ => ?_
  split
  · exact h₅
  · exact .ite h₅ (.engage (.setTemp h₅))

theorem Evolves.enterKick {cause : BitVec 4} (h : Evolves s₀ s) : Evolves s₀ (enterKick cause s) := by
  unfold Machine.enterKick
  exact .ite (.ite (.frame h) h) (.ite (.stopAllTiles (.frame h)) (.addJob (.tryStop (.stopAllTiles (.frame h)))))

theorem OutOk.execThermalTrip {sensor : Fin 104} {temp : BitVec 16} (h : Evolves s₀ s) :
    OutOk s₀ (execThermalTrip sensor temp s) := by
  unfold Machine.execThermalTrip
  refine .next ?_
  refine .whenUp h fun _ h₅ => ?_
  split
  · exact h₅
  · exact .ite h₅ (.alert (.recPower (.emergencyBegins (.enterKick (.setTemp h₅)))))

theorem OutOk.execMemoryOverTemperature {sensor : Fin 104} {temp : BitVec 16} (h : Evolves s₀ s) :
    OutOk s₀ (execMemoryOverTemperature sensor temp s) := by
  unfold Machine.execMemoryOverTemperature
  exact .next (.whenUp h (fun _ h₁ => .ite h₁ (.ite (.setTemp h₁) (.alert (.recPower (.emergencyBegins (.frame (.setTemp
    h₁))))))))

theorem Evolves.nandTemp {k : Fin 4} {temp : BitVec 16} (h : Evolves s₀ s) : Evolves s₀ (nandTemp k temp s) := by
  unfold Machine.nandTemp
  exact .frame (.setTemp h)

theorem OutOk.execMemoryTemperatureFall {sensor : Fin 104} {temp : BitVec 16} (h : Evolves s₀ s) :
    OutOk s₀ (execMemoryTemperatureFall sensor temp s) := by
  unfold Machine.execMemoryTemperatureFall
  exact .next (.whenUp h (fun _ h₁ => .ite (.ite h₁ (.ite (.setTemp h₁) (.alert (.recPower (.frame (.setTemp h₁)))))) (.ite
    (.nandTemp h₁) h₁)))

theorem Evolves.vfTick {spoke : Fin 16} {mhz pinW : ℕ} {temp : BitVec 16} (h : Evolves s₀ s) :
    Evolves s₀ (vfTick spoke mhz pinW temp s) := by
  unfold Machine.vfTick
  exact .ite (.frame (.setTemp h)) (.ite (.alert (.recPower (.emergencyBegins (.frame (.setTemp h))))) (.ite (.alert
    (.recPower (.frame (.setTemp h)))) (.frame (.setTemp h))))

theorem Evolves.linkWidth {tandem : Bool} {i : ℕ} {queued : Bool} (h : Evolves s₀ s) :
    Evolves s₀ (linkWidth tandem i queued s) := by
  unfold Machine.linkWidth
  exact .ite (.frame h) (.ite (.updPort h) h)

theorem Evolves.goFreewheel {wakeMs : ℕ} (h : Evolves s₀ s) : Evolves s₀ (goFreewheel wakeMs s) := by
  unfold Machine.goFreewheel
  exact .frame (.twinDown (.foldl h (fun _ _ => .portGone)))

theorem Evolves.leaveKick (h : Evolves s₀ s) : Evolves s₀ (leaveKick s) := by
  unfold Machine.leaveKick
  exact .frame h

theorem OptOk.stateReq {req wakeMs : ℕ} (h : Evolves s₀ s) : OptOk s₀ (stateReq req wakeMs s) := by
  unfold Machine.stateReq
  split
  · exact .some h
  · exact .ite (.some (.leaveKick h)) .none
  · exact .none
  · exact .some (.wakeUp h)
  · exact .some (.frame h)
  · exact .some h
  · exact .ite .none (.some (.goFreewheel h))
  · exact .ite .none (.some (.goFreewheel h))
  · exact .some (.frame h)
  · exact .some (.enterKick h)
  · exact .none

theorem Evolves.applyPolicy {p : Policy} (h : Evolves s₀ s) : Evolves s₀ (applyPolicy p s) := by
  unfold Machine.applyPolicy
  exact .ite (.frame h) (.frame h)

theorem EffOk.bodyPowerPolicy {a : Cmd} (h : Evolves s₀ s) : EffOk s₀ (bodyPowerPolicy a s) := by
  unfold Machine.bodyPowerPolicy
  dsimp only
  split
  · exact .stat h
  · split
    · exact .stat h
    next s₁ e₁ =>
      have h₁ := OptOk.of_some (.stateReq h) e₁
      exact .ok (.applyPolicy h₁)

theorem EffOk.bodyThermalQuery {a : Cmd} (h : Evolves s₀ s) : EffOk s₀ (bodyThermalQuery a s) := .data h

/-! ### Time -/

theorem Evolves.setAtEdge {w : Open × Word} (h : Evolves s₀ s) : Evolves s₀ (setAtEdge w s) := by
  unfold Machine.setAtEdge
  exact .ite (.completeIf h) (.completeIf (.frame h))

theorem Evolves.countTime {old : Word} (h : Evolves s₀ s) : Evolves s₀ (countTime old s) := by
  unfold Machine.countTime
  exact .frame h

theorem Evolves.ppsEdge (h : Evolves s₀ s) : Evolves s₀ (ppsEdge s) := by
  unfold Machine.ppsEdge
  split
  · exact h
  · refine .countTime ?_
    split
    · exact .frame h
    · exact .foldl (.frame h) (fun _ _ => .setAtEdge)

theorem EffOk.bodyTimeSet {a : Cmd} (h : Evolves s₀ s) : EffOk s₀ (bodyTimeSet a s) := by
  unfold Machine.bodyTimeSet
  exact .ite (.stat h) (.ite (.ok (.countTime (.frame h))) (.later (.frame h)))

theorem EffOk.readTrip {t : Trip} {to_ : Word} {prev : Bool} {rider : Option (BitVec 6)} (h : Evolves s₀ s) :
    EffOk s₀ (readTrip t to_ prev rider s) := by
  unfold Machine.readTrip
  dsimp only
  split
  · exact .data (.frame h)
  · split
    · exact .stat h
    · exact .data (.frame h)

theorem EffOk.bodyTripRead {a : Cmd} (h : Evolves s₀ s) : EffOk s₀ (bodyTripRead a s) := by
  unfold Machine.bodyTripRead
  dsimp only
  refine .withIdentity h ?_
  split
  · exact .stat h
  · split
    · split
      · split
        · exact .stat h
        · split
          · split
            · exact .readTrip h
            · exact .stat h
          · exact .readTrip h
      · split
        · exact .stat h
        · split
          · split
            · exact .readTrip h
            · exact .stat h
          · exact .readTrip h
    · split
      · exact .stat h
      · split
        · split
          · exact .readTrip h
          · exact .stat h
        · exact .readTrip h

/-! ### Force -/

theorem Evolves.endCmds {w : Scope} {st : Status} (h : Evolves s₀ s) : Evolves s₀ (endCmds w st s) := by
  unfold Machine.endCmds
  dsimp only
  refine .foldl ?_ (fun _ _ => .endWait)
  refine .foldl (.foldl (.foldl (.frame h) (fun _ _ => .completeIf)) (fun _ _ => .completeIf)) fun _ _ h₁₆ => ?_
  split
  · exact .completeIf (.forExts h₁₆ (fun _ _ => .setClosed))
  · split
    · exact .completeIf h₁₆
    · exact h₁₆

theorem Evolves.endEngines {w : Scope} {late : Bool} {st : Status} (h : Evolves s₀ s) :
    Evolves s₀ (endEngines w late st s) :=
  .foldl (.foldl h (fun _ _ => .endOp)) (fun _ _ => .endBatch)

theorem Evolves.forceTile {st : Status} {x : Tile} (h : Evolves s₀ s) : Evolves s₀ (forceTile st x s) := by
  unfold Machine.forceTile
  dsimp only
  refine .foldl ?_ (fun _ _ => .failStream)
  refine .foldl h fun _ _ h₆ => ?_
  split
  · exact h₆
  · refine .foldl ?_ (fun _ _ => .refuseStore)
    split
    · exact .ite h₆ (.failAcc h₆)
    · exact h₆

theorem Evolves.forceChans {w : Scope} {st : Status} (h : Evolves s₀ s) : Evolves s₀ (forceChans w st s) :=
  .foldl h (fun _ _ h₁ => .emit (.foldl (.setChan h₁) (fun _ _ => .endUnacked)))

theorem Evolves.forceFabric {w : Scope} {st : Status} (h : Evolves s₀ s) : Evolves s₀ (forceFabric w st s) := by
  unfold Machine.forceFabric
  exact .foldl (.foldl (.frame h) (fun _ _ => .finishStore)) (fun _ _ => .endWith)

theorem Evolves.forceOpen {w : Scope} {st : Status} (h : Evolves s₀ s) : Evolves s₀ (forceOpen w st s) := by
  unfold Machine.forceOpen
  exact .kick (.forceFabric (.dropLoads (.forceChans (.foldl (.frame (.endEngines (.endCmds h))) (fun _ _ => .forceTile)))))

/-! ### Compose -/

theorem Evolves.endHeld {b : Held} {st : Status} (h : Evolves s₀ s) : Evolves s₀ (endHeld b st s) := by
  unfold Machine.endHeld
  split
  · exact .refuseReq h
  · exact .emit h
  · exact .emit h

theorem Evolves.retryHeld {b : Held} (h : Evolves s₀ s) : Evolves s₀ (retryHeld b s) := by
  unfold Machine.retryHeld
  dsimp only
  split
  · exact .endHeld (.frame h)
  · split
    · exact h
    · split
      · exact .routeReq (.frame h)
      · exact .storeArrives (.frame h)
      · exact .fenceArrives (.frame h)

theorem Evolves.retryHeldAll (h : Evolves s₀ s) : Evolves s₀ (retryHeldAll s) := .foldl h (fun _ _ => .retryHeld)

theorem OutOk.execEpochHoldTimeout {i : ℕ} (h : Evolves s₀ s) : OutOk s₀ (execEpochHoldTimeout i s) := by
  unfold Machine.execEpochHoldTimeout
  refine .next ?_
  refine .whenUp h fun _ h₅ => ?_
  split
  · exact .endHeld (.frame h₅)
  · exact h₅

theorem Evolves.closeFor {o : Open} {c : Comp} (h : Evolves s₀ s) : Evolves s₀ (closeFor o c s) := by
  unfold Machine.closeFor
  exact .frame h

theorem EffOk.bodyCompose {a : Cmd} (h : Evolves s₀ s) : EffOk s₀ (bodyCompose a s) := by
  unfold Machine.bodyCompose
  refine .withIdentity h ?_
  split
  · exact .stat h
  · dsimp only
    split
    · exact .stat h
    · split
      · exact .stat h
      · exact .later (.ite (.closeFor h) (.frame h))

theorem EffOk.bodyComposeChunk {a : Cmd} (h : Evolves s₀ s) : EffOk s₀ (bodyComposeChunk a s) :=
  .ite (.stat h) (.bodyChunked (fun _ _ => .bodyCompose) h)

theorem OutOk.execCommandChunk {op : ChunkOp} {c : Cmd} (h : Evolves s₀ s) : OutOk s₀ (execCommandChunk op c s) := by
  unfold Machine.execCommandChunk
  refine .next ?_
  split
  · exact .runPacket (fun _ _ => .bodyComposeChunk) h
  · exact .runPacket (fun _ _ h₂ => .bodyChunked (fun _ _ => .bodyPrefetchSchedule) h₂) h

theorem Evolves.settleStore (h : Evolves s₀ s) : Evolves s₀ (settleStore s) := by
  unfold Machine.settleStore
  exact .frame (.foldl (.foldl (.cancelTier h) (fun _ _ => .removeObj)) (fun _ _ => .abandonLap))

theorem StoreOk.newStore {c : Comp} (h : Evolves s₀ s) : StoreOk s₀ (newStore c s) := .of_mem (.filter h.store.mem)

theorem Evolves.recPorts {old : List FPort} (h : Evolves s₀ s) : Evolves s₀ (recPorts old s) :=
  .foldl h (fun _ _ h₁ => .ite (.recPort h₁) h₁)

theorem Evolves.endRest {o : Open} (h : Evolves s₀ s) : Evolves s₀ (endRest o s) := by
  unfold Machine.endRest
  extract_lets +onlyGivenNames _ _ _ _ s₅ s₆ s₇ _ s₁₀
  have h₅ : Evolves s₀ s₅ := .frame h
  have h₆ : Evolves s₀ s₆ := .endEngines (.endCmds h₅)
  have h₇ : Evolves s₀ s₇ := .foldl h₆ (fun _ _ => .completeIf)
  have h₁₀ : Evolves s₀ s₁₀ := by
    unfold s₁₀
    split
    · exact .completeIf (.frame h₇)
    · exact h₇
  exact .frame h₁₀

theorem Evolves.noFaults (h : Evolves s₀ s) : Evolves s₀ { s with err.faults := [] } :=
  h.trans ⟨fun hinv => { hinv with faults := fun _ hp => absurd hp List.not_mem_nil }, le_rfl, le_rfl, le_rfl, le_rfl, rfl⟩

theorem Evolves.clearWork (h : Evolves s₀ s) : Evolves s₀ (clearWork s) := by
  unfold Machine.clearWork
  extract_lets +onlyGivenNames s₁ ws _ s₂
  have h₁ : Evolves s₀ s₁ := .dropEmb (.unloadAll h)
  have h₂ : Evolves s₀ s₂ := .foldl h₁.frame fun _ _ => .endWait
  exact h₂.noFaults.frame rfl

theorem Evolves.newPair {c : Comp} (h : Evolves s₀ s) : Evolves s₀ (newPair c s) := by
  unfold Machine.newPair
  exact .setPair (.frame h)

theorem Evolves.applyComp {c : Comp} (h : Evolves s₀ s) : Evolves s₀ (applyComp c s) := by
  unfold Machine.applyComp
  extract_lets +onlyGivenNames s₁ old _ s₂ s₃
  have h₁ : Evolves s₀ s₁ := .settleStore (.clearWork h)
  clear_value s₁
  have h₂ : Evolves s₀ s₂ := .newPair (h₁.parts (.newStore h₁) h₁.tiles)
  have h₃ : Evolves s₀ s₃ := .recPorts h₂
  exact .ite (.leaveKick h₃) h₃

theorem Evolves.switchComp {o : Open} {old : BitVec 32} {d : Drain} {c : Comp} (h : Evolves s₀ s) :
    Evolves s₀ (switchComp o old d c s) := by
  unfold Machine.switchComp
  exact .retryHeldAll (.completeIf (.writeRec (.frame h)))

theorem Evolves.bootComp {o : Open} {d : Drain} {c : Comp} (h : Evolves s₀ s) : Evolves s₀ (bootComp o d c s) :=
  .switchComp (.applyComp (.endRest h))

theorem Evolves.composeDrained (h : Evolves s₀ s) : Evolves s₀ (composeDrained s) := by
  unfold Machine.composeDrained
  split
  · exact .ite (.bootComp h) h
  · exact h

theorem Evolves.composeLimit (h : Evolves s₀ s) : Evolves s₀ (composeLimit s) := by
  unfold Machine.composeLimit
  split
  · exact .bootComp (.forceOpen h)
  · exact h

theorem Evolves.clearTiles {r : BitVec 6} (h : Evolves s₀ s) : Evolves s₀ (clearTiles r s) :=
  .foldl h (fun _ _ => .unloadTile)

theorem Evolves.clearLaps {r : BitVec 6} (h : Evolves s₀ s) : Evolves s₀ (clearLaps r s) :=
  .releaseMark (.releaseMark (.forExts h (fun _ _ h₁ => .closeRead (.abandonOwn h₁))))

theorem Evolves.clearXlat {r : BitVec 6} (h : Evolves s₀ s) : Evolves s₀ (clearXlat r s) := by
  unfold Machine.clearXlat
  exact .frame h

theorem Evolves.clearSync {r : BitVec 6} (h : Evolves s₀ s) : Evolves s₀ (clearSync r s) := by
  unfold Machine.clearSync
  split
  · exact h
  · exact .foldl h (fun _ _ => .syncZero)

theorem Evolves.clearScheds {r : BitVec 6} (h : Evolves s₀ s) : Evolves s₀ (clearScheds r s) :=
  .foldl h (fun _ _ => .removeSched)

theorem Evolves.clearRider {o : Open} {r : BitVec 6} (h : Evolves s₀ s) : Evolves s₀ (clearRider o r s) := by
  unfold Machine.clearRider
  extract_lets +onlyGivenNames s₁ s₂
  have h₁ : Evolves s₀ s₁ := .clearScheds (.dropEmb (.clearSync (.clearXlat (.clearLaps (.clearTiles h)))))
  have h₂ : Evolves s₀ s₂ := h₁.frame
  exact .completeIf (.retryHeldAll h₂)

theorem Evolves.tryReset {o : Open} {r : BitVec 6} (h : Evolves s₀ s) : Evolves s₀ (tryReset o r s).1 :=
  .ite_fst (.clearRider h) h

theorem EffOk.bodyRiderReset {a : Cmd} (h : Evolves s₀ s) : EffOk s₀ (bodyRiderReset a s) := by
  unfold Machine.bodyRiderReset
  exact .ite (.stat h) (.later (.addJob (.tryReset (.frame h))))

theorem Evolves.resetLimit {r : BitVec 6} (h : Evolves s₀ s) : Evolves s₀ (resetLimit r s) := by
  unfold Machine.resetLimit
  split
  · exact h
  · exact .clearRider (.forceOpen (.frame h))

/-! ### Quorum -/

theorem Evolves.acceptOrder {o : Order} (h : Evolves s₀ s) (hseq : s.nv.lastOrder < o.seq) : Evolves s₀ (acceptOrder o s) := by
  unfold Machine.acceptOrder
  refine .writeRec (h.trans ⟨fun hinv => { hinv with }, le_rfl, le_rfl, le_rfl, ?_, rfl⟩)
  exact Nat.le_of_lt hseq

theorem EffOk.bodyAdmit {c : Cmd} (h : Evolves s₀ s) : EffOk s₀ (bodyAdmit c s) := by
  unfold Machine.bodyAdmit
  refine .withIdentity h (.checked h fun hcs => ?_)
  simp only [List.forall_mem_cons, decide_eq_true_eq] at hcs
  obtain ⟨-, hseq, -⟩ := hcs
  exact .ok (h.acceptOrder hseq).frame

theorem Evolves.loseOwner {m : ℕ} (h : Evolves s₀ s) : Evolves s₀ (loseOwner m s) := by
  unfold Machine.loseOwner
  exact .foldl (.foldl (.foldl (.foldl (.frame h) (fun _ _ h₁ => .foldl h₁ (fun _ _ => .endUnacked))) (fun _ _ =>
    .failLoad)) (fun _ _ => .failOp)) (fun _ _ => .failStream)

theorem Evolves.redirectTo {m : ℕ} {twin : BitVec 8} (h : Evolves s₀ s) : Evolves s₀ (redirectTo m twin s) := by
  unfold Machine.redirectTo
  exact .foldl (.foldl (.frame h) (fun _ _ h₁ => .foldl (.setChan h₁) (fun _ _ h₂ => .ite (.sendPkt h₂) h₂))) (fun _ _ =>
    .resendLoad)

theorem Evolves.park {o : Open} (h : Evolves s₀ s) : Evolves s₀ (park o s) := by
  unfold Machine.park
  extract_lets +onlyGivenNames s₁ s₂ hs s₃
  have h₁ : Evolves s₀ s₁ := .forceOpen h
  have h₂ : Evolves s₀ s₂ := .endEngines h₁
  have h₃ : Evolves s₀ s₃ := .foldl h₂.frame fun _ _ => .endHeld
  exact .setPair (.enterKick (.unloadAll h₃))

theorem Evolves.expelOther {o : Order} {fp : Word} {twin : BitVec 8} (h : Evolves s₀ s) :
    Evolves s₀ (expelOther o fp twin s) := by
  unfold Machine.expelOther
  extract_lets +onlyGivenNames _ _ _ _ s₅ s₆
  have h₅ : Evolves s₀ s₅ := .frame h
  have h₆ : Evolves s₀ s₆ := .embLost h₅
  exact .ite (.ite (.setPair (.endMirror (.frame (.loseOwner h₆)))) (.frame (.loseOwner h₆))) (.ite (.takeOver (.frame (.ite
    h₆ (.redirectTo h₆)))) (.frame (.ite h₆ (.redirectTo h₆))))

theorem EffOk.bodyExpel {c : Cmd} (h : Evolves s₀ s) : EffOk s₀ (bodyExpel c s) := by
  unfold Machine.bodyExpel
  refine .withIdentity h (.checked h fun hcs => ?_)
  simp only [List.forall_mem_cons, decide_eq_true_eq] at hcs
  obtain ⟨-, hseq, -⟩ := hcs
  have horder : Evolves s₀ (Machine.acceptOrder (parseOrder c.payload) s) := h.acceptOrder hseq
  dsimp only
  split
  · exact .ok horder
  · exact .ok (.ite (.park horder) (.expelOther horder))

theorem EffOk.bodyManagerKeys {c : Cmd} (h : Evolves s₀ s) : EffOk s₀ (bodyManagerKeys c s) := by
  unfold Machine.bodyManagerKeys
  refine .withIdentity h (.checked h fun hcs => ?_)
  simp only [List.forall_mem_cons, decide_eq_true_eq] at hcs
  obtain ⟨-, hseq, -⟩ := hcs
  exact .ok (.writeRec (h.trans ⟨fun hinv => { hinv with }, le_rfl, le_rfl, Nat.le_of_lt hseq, le_rfl, rfl⟩))

/-! ### Firmware -/

theorem Evolves.recFw {event : ℕ} {value : BitVec 32} (h : Evolves s₀ s) : Evolves s₀ (recFw event value s) := .writeRec h

theorem Evolves.startParts {ms : Option (List Measure)} {parts : List ℕ} (h : Evolves s₀ s) :
    Evolves s₀ (startParts ms parts s) := by
  unfold Machine.startParts
  refine .foldl h fun _ _ h₃ => ?_
  split
  · exact .measure h₃
  · exact h₃

theorem wf_write {x : Slot} {off : ℕ} {bs : List Byte} (h : Memory.wf x.cells = true) :
    Memory.wf (x.write off bs).cells = true := by
  refine wf_memWriteN _ _ ?_
  split
  · rfl
  · exact h

theorem EffOk.bodyFwStage {c : Cmd} (h : Evolves s₀ s) : EffOk s₀ (bodyFwStage c s) := by
  unfold Machine.bodyFwStage
  refine .ite (.stat h) (.ite (.ok (h.trans ?_)) (.ite (.stat h) (.ite (.ok (h.trans ?_)) (.ok (h.trans ?_)))))
  · exact ⟨fun hinv => { hinv with staging := wf_write hinv.staging }, le_rfl, le_rfl, le_rfl, le_rfl, rfl⟩
  · exact ⟨fun hinv => { hinv with slotB := wf_write hinv.slotB }, le_rfl, le_rfl, le_rfl, le_rfl, rfl⟩
  · exact ⟨fun hinv => { hinv with slotA := wf_write hinv.slotA }, le_rfl, le_rfl, le_rfl, le_rfl, rfl⟩

theorem EffOk.installConfig (h : Evolves s₀ s) : EffOk s₀ (installConfig s) := by
  unfold Machine.installConfig
  extract_lets b x
  clear_value b
  refine .checked h fun hcs => ?_
  simp only [List.forall_mem_cons, decide_eq_true_eq] at hcs
  obtain ⟨-, -, hseq, -⟩ := hcs
  exact .ok (h.trans ⟨fun hinv => { hinv with }, le_rfl, Nat.le_of_lt hseq, le_rfl, le_rfl, rfl⟩)

theorem Evolves.beginAct {slot : Bool} {cmd : Option Open} {revert : Bool} (h : Evolves s₀ s) :
    Evolves s₀ (beginAct slot cmd revert s) := by
  unfold Machine.beginAct
  exact .frame h

theorem Evolves.startAct {slot : Bool} {cmd : Option Open} (h : Evolves s₀ s) : Evolves s₀ (startAct slot cmd s) :=
  .beginAct (.recFw h)

theorem Evolves.revertTrial (h : Evolves s₀ s) : Evolves s₀ (revertTrial s) := .ite (.beginAct h) (.recFw h)

theorem EffOk.bodyFwActivate {a : Cmd} (h : Evolves s₀ s) : EffOk s₀ (bodyFwActivate a s) := by
  unfold Machine.bodyFwActivate
  exact .ite (.stat h) (.ite (.installConfig h) (.ite (.stat h) (.ite (.ok (.ite (.frame h) h)) (.ite (.stat h) (.ite (.stat
    (.frame h)) (.later (.startAct h)))))))

theorem Evolves.whenFw {f : State → State} (h : Evolves s₀ s) (hf : ∀ (t : State), Evolves s₀ t → Evolves s₀ (f t)) :
    Evolves s₀ (whenFw s f) :=
  .ite (hf _ h) h

theorem Evolves.startDeferred (h : Evolves s₀ s) : Evolves s₀ (startDeferred s) := by
  unfold Machine.startDeferred
  exact .ite h (.ite (.startAct h) (.recFw (.frame h)))

theorem Evolves.bootConfig (h : Evolves s₀ s) : Evolves s₀ (bootConfig s) := by
  unfold Machine.bootConfig
  split
  · exact .frame h
  · exact .recFw (.frame h)

theorem Evolves.release (h : Evolves s₀ s) : Evolves s₀ (release s) := by
  unfold Machine.release
  dsimp only
  split
  · exact .completeIf (.ite (.recFw (.frame (.ite (.bootConfig h) h))) (.frame (.ite (.bootConfig h) h)))
  · exact .ite (.recFw (.frame (.ite (.bootConfig h) h))) (.frame (.ite (.bootConfig h) h))

theorem Evolves.coreStarted (h : Evolves s₀ s) : Evolves s₀ (coreStarted s) :=
  .ite (.startParts h) (.ite (.ite (.startParts h) (.ite (.startParts h) h)) (.startParts h))

theorem Evolves.nextStep (h : Evolves s₀ s) : Evolves s₀ (nextStep s) := by
  unfold Machine.nextStep
  exact .ite (.frame h) (.ite (.ite (.frame h) (.ite (.release h) (.frame h))) (.ite (.frame h) (.ite (.frame h) (.release
    h))))

theorem Evolves.stepDone {ok : Bool} (h : Evolves s₀ s) : Evolves s₀ (stepDone ok s) := by
  unfold Machine.stepDone
  exact .ite h (.ite (.nextStep (.coreStarted h)) (.ite h (.beginAct (.ite (.frame h) h))))

theorem Evolves.holdLimit (h : Evolves s₀ s) : Evolves s₀ (holdLimit s) := by
  unfold Machine.holdLimit
  refine .ite h ?_
  extract_lets +onlyGivenNames js s₁ s₂ ts cs p _ _ _ s₃ s₄ s₅
  have h₁ : Evolves s₀ s₁ := .endCmds h.frame
  have h₂ : Evolves s₀ s₂ := .foldl h₁ fun _ _ => .completeIf
  have h₃ : Evolves s₀ s₃ := h₂.frame
  have h₄ : Evolves s₀ s₄ := .foldl h₃ fun _ _ => .completeIf
  have h₅ : Evolves s₀ s₅ := .foldl h₄ fun _ _ => .completeIf
  clear_value p
  split
  · exact .completeIf h₅
  · exact h₅

theorem le_raised {a b : BitVec 32} : a.toNat ≤ (if a < b then b else a).toNat := by
  split
  next hlt => exact Nat.le_of_lt hlt
  · exact le_rfl

theorem Evolves.confirmTrial (h : Evolves s₀ s) : Evolves s₀ (confirmTrial s) :=
  .ite h (.recFw (h.trans ⟨fun hinv => { hinv with }, le_raised, le_rfl, le_rfl, le_rfl, rfl⟩))

theorem Evolves.packageStops (h : Evolves s₀ s) : Evolves s₀ (packageStops s) := by
  unfold Machine.packageStops
  exact .frame h

theorem Evolves.failover (h : Evolves s₀ s) : Evolves s₀ (failover s) := by
  unfold Machine.failover
  extract_lets +onlyGivenNames _
  split
  · exact .packageStops h
  · extract_lets +onlyGivenNames _ _ s₄
    have h₄ : Evolves s₀ s₄ := .alert (.recFw (.frame h))
    exact .ite h₄ (.ite (.release h₄) (.frame h₄))

theorem Evolves.headsetFails {b : ℕ} (h : Evolves s₀ s) : Evolves s₀ (headsetFails b s) := by
  unfold Machine.headsetFails
  exact .ite (.failover h) (.ite (.frame h) h)

theorem Evolves.coreFails {c : FwCore} (h : Evolves s₀ s) : Evolves s₀ (coreFails c s) := by
  unfold Machine.coreFails
  split
  · exact .fenceUnit h
  · exact .fenceUnit h
  · split
    · exact .headsetFails h
    · exact h

theorem Evolves.watchdog {c : FwCore} {compartment : BitVec 32} (h : Evolves s₀ s) :
    Evolves s₀ (watchdog c compartment s) := by
  unfold Machine.watchdog
  exact .ite h (.ite (.coreFails (.ite (.revertTrial (.frame (.startParts (.recFw h)))) (.frame (.startParts (.recFw h)))))
    (.ite (.revertTrial (.frame (.startParts (.recFw h)))) (.frame (.startParts (.recFw h)))))

theorem Evolves.hopFails {u : BitVec 16} (h : Evolves s₀ s) : Evolves s₀ (hopFails u s) := by
  unfold Machine.hopFails
  split
  · exact h
  · split
    · exact .fenceUnit h
    · exact .fenceUnit h
    · exact .fenceUnit h
    · exact .foldl h (fun _ _ => .fenceUnit)
    · exact .fenceUnit h
    · exact .fenceUnit h
    · exact .headsetFails h
    · exact h

/-- The state in which a boot has counted itself (R349). -/
def bootCounted (b : BootInfo) (s : State) : State :=
  { s with nv.bootCount := if b.countersOk then s.nv.bootCount + 1 else s.nv.bootCount }

theorem Evolves.bootIdentity {b : BootInfo} : Evolves (bootCounted b s) (bootIdentity b s) := by
  unfold Machine.bootIdentity
  extract_lets +onlyGivenNames _ _ s₁
  have h₁ : Evolves (bootCounted b s) s₁ := (Evolves.refl (bootCounted b s)).frame rfl
  exact .ite h₁ (.recFw h₁)

theorem Evolves.bootAborted (h : Evolves s₀ s) : Evolves s₀ (bootAborted s) := by
  unfold Machine.bootAborted
  split
  · exact .recFw (.frame h)
  · exact h

theorem Evolves.bootSlot (h : Evolves s₀ s) : Evolves s₀ (bootSlot s).2 := by
  unfold Machine.bootSlot
  extract_lets +onlyGivenNames _ _ _ s₄
  have h₄ : Evolves s₀ s₄ := .ite h (.ite (.recFw (.frame h)) (.frame h))
  exact .ite_snd h₄ (.ite_snd (.frame (.recFw h₄)) (.recFw h₄))

theorem Evolves.bootFences {us : List (BitVec 16)} (h : Evolves s₀ s) : Evolves s₀ (bootFences us s) :=
  .foldl h (fun _ _ h₁ => .ite (.ite (.mountFails h₁) h₁) (.fenceUnit h₁))

theorem Evolves.startFirmware {ms : Option (List Measure)} {b : BootInfo} (h : Evolves s₀ s) :
    Evolves s₀ (startFirmware ms b s) := by
  unfold Machine.startFirmware
  exact .frame (.bootFences (.bootConfig (.startParts h)))

theorem Evolves.awaitRecovery {b : BootInfo} (h : Evolves s₀ s) : Evolves s₀ (awaitRecovery b s) := by
  unfold Machine.awaitRecovery
  exact .frame (.bootFences h)

theorem Evolves.bootUp {b : BootInfo} : Evolves (bootCounted b (Machine.recFw 1 s.cause s)) (bootUp b s) := by
  have h₁ : Evolves (bootCounted b (Machine.recFw 1 s.cause s)) (Machine.bootAborted (Machine.bootIdentity b (Machine.recFw 1 s.cause s))) :=
    .bootAborted .bootIdentity
  unfold Machine.bootUp
  dsimp only
  split
  · exact .awaitRecovery h₁
  split
  next e => exact .startFirmware (Evolves.of_snd (.bootSlot h₁) e)
  next e => exact .awaitRecovery (Evolves.of_snd (.bootSlot h₁) e).frame

theorem Evolves.recoveryPiece {offset length : ℕ} {last : BitVec 8} {rsv : BitVec 56} {data : List Byte}
    (h : Evolves s₀ s) : Evolves s₀ (recoveryPiece offset length last rsv data s).2 := by
  unfold Machine.recoveryPiece
  split
  · exact h
  · split
    · exact h
    · split
      · exact .frame h
      · dsimp only
        split
        · exact .frame h
        · split
          · exact .frame h
          · exact .frame (.ite (.leaveKick (.writeRec (.startParts (.takeFree h)))) (.writeRec (.startParts (.takeFree h))))

/-! ### Sideband -/

theorem Evolves.whenBridge {f : State → State} (h : Evolves s₀ s)
    (hf : ∀ (t : State), Evolves s₀ t → Evolves s₀ (f t)) : Evolves s₀ (whenBridge s f) :=
  .ite (hf _ h) h

theorem Evolves.freeRecord (h : Evolves s₀ s) : Evolves s₀ (freeRecord s).2 := .foldl_snd h (fun _ _ => .takeFree)

theorem Evolves.odoRaw {p : ℕ} (h : Evolves s₀ s) : Evolves s₀ (odoRaw s p).2 := by
  unfold Machine.odoRaw
  split
  · exact h
  · split
    · exact .freeRecord h
    · split
      · exact h
      · exact h

theorem Evolves.odoRead {position count : ℕ} (h : Evolves s₀ s) : Evolves s₀ (odoRead position count s) :=
  .ite (.emit h) (.emit (.foldl_snd h (fun _ _ => .odoRaw)))

theorem Evolves.setEid {eid : BitVec 8} (h : Evolves s₀ s) : Evolves s₀ (setEid eid s) := by
  unfold Machine.setEid
  exact .ite (.emit h) (.emit (.frame h))

theorem Evolves.mctpVersion {ty : BitVec 8} (h : Evolves s₀ s) : Evolves s₀ (mctpVersion ty s) := .ite (.emit h) (.emit h)

theorem Evolves.vendorSupport {selector : BitVec 8} (h : Evolves s₀ s) : Evolves s₀ (vendorSupport selector s) :=
  .ite (.emit h) (.emit h)

theorem Evolves.loadTap {tap : Fin 12} {i : JInstr} (h : Evolves s₀ s) : Evolves s₀ (loadTap tap i s) := by
  unfold Machine.loadTap
  dsimp only
  split
  · exact .emit (.frame h)
  · exact .emit (.frame h)
  · exact .emit (.takeFree (.frame h))

theorem Evolves.setLane {lane : Fin 2} {up : Bool} (h : Evolves s₀ s) : Evolves s₀ (setLane lane up s) := by
  unfold Machine.setLane
  exact .frame h

/-! ### Regs -/

theorem Evolves.clearOnRead {r : RegName} (h : Evolves s₀ s) : Evolves s₀ (clearOnRead r s) := by
  unfold Machine.clearOnRead
  split
  · exact .frame h
  · exact .parts h h.store (.updIf h.tiles (fun _ => .frame))
  · exact .frame h
  · exact .frame h
  · exact .frame h
  · exact .frame h
  · exact .updPort h
  · exact .ite h (.frame h)
  · exact h

theorem Evolves.writeCohCtrl {w : ℕ} {v : Word} (h : Evolves s₀ s) : Evolves s₀ (writeCohCtrl w v s) := by
  unfold Machine.writeCohCtrl
  exact .frame h

theorem Evolves.writeFabricCtrl {v : Word} (h : Evolves s₀ s) : Evolves s₀ (writeFabricCtrl v s) := by
  unfold Machine.writeFabricCtrl
  exact .frame h

theorem Evolves.writeAgentCtrl {v : Word} (h : Evolves s₀ s) : Evolves s₀ (writeAgentCtrl v s) := .ite (.declareLost h) h

theorem Evolves.writeAlert {v : Word} {rising : BitVec 6} (h : Evolves s₀ s) : Evolves s₀ (writeAlert v rising s) := by
  unfold Machine.writeAlert
  exact .frame h

theorem Evolves.writeReg {r : RegName} {v : Word} (h : Evolves s₀ s) : Evolves s₀ (writeReg r v s) := by
  unfold Machine.writeReg
  split
  · exact .writeCohCtrl h
  · exact .writeFabricCtrl h
  · exact .writeAgentCtrl h
  · exact .writeAlert h
  · exact h

theorem EffOk.readCmd {c : Cmd} (h : Evolves s₀ s) : EffOk s₀ (readCmd c s) := by
  unfold Machine.readCmd
  split
  · exact .stat h
  · split
    · exact .ite (.stat h) (.res (.clearOnRead h))
    · exact .stat h

theorem EffOk.writeCmd {f : RegName → Word → State → State} {c : Cmd}
    (hf : ∀ (a : RegName) (b : Word) (t : State), Evolves s₀ t → Evolves s₀ (f a b t)) (h : Evolves s₀ s) :
    EffOk s₀ (writeCmd f c s) := by
  unfold Machine.writeCmd
  split
  · exact .stat h
  · exact .ite (.stat h) (.ok (.foldl h (fun _ _ h₁ => hf _ _ _ h₁)))

theorem EffOk.bodyRegRead {a : Cmd} (h : Evolves s₀ s) : EffOk s₀ (bodyRegRead a s) := .readCmd h

theorem EffOk.bodyRegWrite {a : Cmd} (h : Evolves s₀ s) : EffOk s₀ (bodyRegWrite a s) :=
  .writeCmd (fun _ _ _ => .writeReg) h

theorem EffOk.bodyCrCohCtrlWrite {a : Cmd} (h : Evolves s₀ s) : EffOk s₀ (bodyCrCohCtrlWrite a s) :=
  .writeCmd (fun _ _ _ => .writeReg) h

theorem EffOk.bodyHsFabricCtrlWrite {a : Cmd} (h : Evolves s₀ s) : EffOk s₀ (bodyHsFabricCtrlWrite a s) :=
  .writeCmd (fun _ _ _ => .writeReg) h

theorem EffOk.bodyLose {a : Cmd} (h : Evolves s₀ s) : EffOk s₀ (bodyLose a s) := .writeCmd (fun _ _ _ => .writeReg) h

theorem EffOk.bodyHsAlertClear {rising : BitVec 6} {a : Cmd} (h : Evolves s₀ s) : EffOk s₀ (bodyHsAlertClear rising a s) := by
  unfold Machine.bodyHsAlertClear
  refine .writeCmd (fun _ _ _ h₃ => ?_) h
  split
  · exact .writeAlert h₃
  · exact .writeReg h₃

theorem EffOk.bodyCrXlatStatusRead {a : Cmd} (h : Evolves s₀ s) : EffOk s₀ (bodyCrXlatStatusRead a s) := .readCmd h

theorem EffOk.bodyCrCohStatusRead {a : Cmd} (h : Evolves s₀ s) : EffOk s₀ (bodyCrCohStatusRead a s) := .readCmd h

theorem EffOk.bodySbFtlHealthRead {a : Cmd} (h : Evolves s₀ s) : EffOk s₀ (bodySbFtlHealthRead a s) := .readCmd h

theorem EffOk.bodyCrEmbStatusRead {a : Cmd} (h : Evolves s₀ s) : EffOk s₀ (bodyCrEmbStatusRead a s) := .readCmd h

theorem EffOk.bodyCrNmStatusRead {a : Cmd} (h : Evolves s₀ s) : EffOk s₀ (bodyCrNmStatusRead a s) := .readCmd h

theorem EffOk.bodySpTileCountersRead {a : Cmd} (h : Evolves s₀ s) : EffOk s₀ (bodySpTileCountersRead a s) := .readCmd h

theorem EffOk.bodyHsErrStatusRead {a : Cmd} (h : Evolves s₀ s) : EffOk s₀ (bodyHsErrStatusRead a s) := .readCmd h

theorem EffOk.bodyDlPortStatusRead {a : Cmd} (h : Evolves s₀ s) : EffOk s₀ (bodyDlPortStatusRead a s) := .readCmd h

/-! ### Settle -/

theorem EffOk.bodyOf {op : ℕ} {a : Cmd} (h : Evolves s₀ s) : EffOk s₀ (bodyOf op a s) := by
  unfold Machine.bodyOf
  split
  · exact .bodyHello h
  · exact .bodyRegRead h
  · exact .bodyRegWrite h
  · exact .bodyComposeChunk h
  · exact .bodyRiderReset h
  · exact .bodyQueueCreate h
  · exact .bodyQueueDestroy h
  · exact .bodyExtentAssign h
  · exact .bodyExtentRevoke h
  · exact .bodyExtentQuery h
  · exact .bodyLossAck h
  · exact .bodyPtBaseSet h
  · exact .bodyMapRange h
  · exact .bodyUnmapRange h
  · exact .bodyLapOpen h
  · exact .bodyLapBeginWrite h
  · exact .bodyLapCommit h
  · exact .bodyLapClose h
  · exact .bodyStageMark h
  · exact .bodyStageRollback h
  · exact .bodyObjPlace h
  · exact .bodyChunked (fun _ _ => .bodyPrefetchSchedule) h
  · exact .bodyPagePin h
  · exact .bodyPageEvict h
  · exact .bodyFlashTrim h
  · exact .bodyEmbTableDefine h
  · exact .bodyEmbLookup h
  · exact .bodyEmbUpdate h
  · exact .bodyNmFill h
  · exact .bodyNmCopy h
  · exact .bodyNmCompare h
  · exact .bodyNmReduce h
  · exact .bodyTileLoad h
  · exact .bodyTileStart h
  · exact .bodyTileStop h
  · exact .bodySyncSet h
  · exact .bodySyncWait h
  · exact .bodyBulkWrite h
  · exact .bodyBulkRead h
  · exact .bodyFwStage h
  · exact .bodyFwActivate h
  · exact .bodyAttest h
  · exact .bodyPowerPolicy h
  · exact .bodyThermalQuery h
  · exact .bodyErrLogRead h
  · exact .bodyInject h
  · exact .bodyOdometerRead h
  · exact .bodyUnitUnfence h
  · exact .bodyTandemPair h
  · exact .bodyTandemHandover h
  · exact .bodyExpel h
  · exact .bodyAdmit h
  · exact .bodyManagerKeys h
  · exact .bodyTripRead h
  · exact .bodyTimeSet h
  · exact .bodyNop h

theorem Evolves.startHeld {b : HeldCmd} (h : Evolves s₀ s) : Evolves s₀ (startHeld b s) :=
  .startCmd (fun _ _ => .bodyOf) h

theorem Evolves.rerunCmd {b : HeldCmd} (h : Evolves s₀ s) : Evolves s₀ (rerunCmd b s) := by
  unfold Machine.rerunCmd
  dsimp only
  split
  · exact h
  · split
    · exact .completeIf h
    · refine .finish ?_
      split
      · exact .bodyPrefetchSchedule h
      · exact .bodyOf h

theorem Evolves.pumpQueue {q : BitVec 13} {n : ℕ} (h : Evolves s₀ s) : Evolves s₀ (pumpQueue q n s) := by
  induction n generalizing s with
  | zero =>
    unfold Machine.pumpQueue
    exact h
  | succ n ih =>
    unfold Machine.pumpQueue
    split
    · exact h
    · split
      · exact h
      · exact .ite h (ih (.startHeld (.updQueue h)))

theorem Evolves.takeTurn {r : BitVec 6} {q : BitVec 13} (h : Evolves s₀ s) : Evolves s₀ (takeTurn r q s) := by
  unfold Machine.takeTurn
  exact .frame h

theorem Evolves.takeEntry {x : Queue} {slots : ℕ} {b : List Byte} (h : Evolves s₀ s) :
    Evolves s₀ (takeEntry x slots b s) :=
  .ite (.complete (.writeCounter (.updQueue h))) (.pumpQueue (.updQueue (.writeCounter (.updQueue h))))

theorem Evolves.fetchEntry {q : BitVec 13} (h : Evolves s₀ s) : Evolves s₀ (fetchEntry q s) := by
  unfold Machine.fetchEntry
  split
  · exact h
  · split
    · exact h
    · dsimp only
      split
      next s₁ e₁ =>
        have h₁ := Evolves.of_snd (.ringRead (.takeTurn h)) e₁
        exact h₁
      next s₂ e₂ =>
        have h₂ := Evolves.of_snd (.ringRead (.takeTurn h)) e₂
        exact .queueError h₂
      next s₃ e₃ =>
        have h₃ := Evolves.of_snd (.ringRead (.takeTurn h)) e₃
        split
        · exact .queueError h₃
        · split
          · exact h₃
          · split
            next s₄ e₄ =>
              have h₄ := Evolves.of_snd (.ringRead h₃) e₄
              exact h₄
            next s₅ e₅ =>
              have h₅ := Evolves.of_snd (.ringRead h₃) e₅
              exact .queueError h₅
            next s₆ e₆ =>
              have h₆ := Evolves.of_snd (.ringRead h₃) e₆
              exact .takeEntry h₆

theorem Evolves.pumpPort {n : ℕ} (h : Evolves s₀ s) : Evolves s₀ (pumpPort n s) := by
  induction n generalizing s with
  | zero =>
    unfold Machine.pumpPort
    exact h
  | succ n ih =>
    unfold Machine.pumpPort
    split
    · exact h
    · exact .ite (ih (.startHeld (.frame h))) h

theorem Evolves.stepJob {j : Job} (h : Evolves s₀ s) : Evolves s₀ (stepJob j s).1 := by
  unfold Machine.stepJob
  split
  · exact .tryRevoke h
  · exact .tryCommit h
  · exact .tryRollback h
  · split
    next s₁ e₁ =>
      have h₁ := OptOk.of_some (.tryDestroy h) e₁
      exact h₁
    · exact h
  · exact .tryStop h
  · exact h
  · exact .rerunCmd h

theorem Evolves.stepResets (h : Evolves s₀ s) : Evolves s₀ (stepResets s) := by
  unfold Machine.stepResets
  refine .foldl h fun _ _ h₃ => ?_
  split
  · exact .addJob (.tryReset (.frame h₃))
  · exact h₃

theorem Evolves.stepCompose (h : Evolves s₀ s) : Evolves s₀ (stepCompose s) := by
  unfold Machine.stepCompose
  split
  · exact .ite h (.closeFor h)
  · exact h

theorem Evolves.unlate (h : Evolves s₀ s) : Evolves s₀ (unlate s) := by
  unfold Machine.unlate
  exact .parts h h.store (.map h.tiles (fun _ h₁ => .ite (.frame h₁) h₁))

theorem Evolves.pumpTile {t : BitVec 10} (h : Evolves s₀ s) : Evolves s₀ (pumpTile t s) := by
  unfold Machine.pumpTile
  exact .stopIdle (.progEnd (.foldl h (fun _ _ h₁ => .issueAcc (.pumpStores h₁))))

theorem Evolves.pumpWalk {w : Walk} (h : Evolves s₀ s) : Evolves s₀ (pumpWalk w s) := by
  unfold Machine.pumpWalk
  dsimp only
  split
  · exact .giveWalkers (.dropWalk h)
  · split
    · exact h
    · split
      · exact .giveWalkers (.dropWalk h)
      · split
        · exact h
        · split
          · exact .giveWalkers (.dropWalk h)
          · split
            next s₁ e₁ =>
              have h₁ := Evolves.of_snd (.walkOn h) e₁
              exact .giveWalkers (.dropWalk (.fillLeaf h₁))
            next s₂ e₂ =>
              have h₂ := Evolves.of_snd (.walkOn h) e₂
              exact .giveWalkers (.dropWalk h₂)
            next s₃ e₃ =>
              have h₃ := Evolves.of_snd (.walkOn h) e₃
              exact .updWalk h₃
            next s₄ e₄ =>
              have h₄ := Evolves.of_snd (.walkOn h) e₄
              exact h₄

theorem Evolves.pumpWalks (h : Evolves s₀ s) : Evolves s₀ (pumpWalks s) := by
  unfold Machine.pumpWalks
  refine .foldl h fun _ _ h₃ => ?_
  split
  · exact .pumpWalk h₃
  · exact h₃

theorem Evolves.reapTickets (h : Evolves s₀ s) : Evolves s₀ (reapTickets s) := .foldl h (fun _ _ => .endTrk)

theorem Evolves.settle (h : Evolves s₀ s) : Evolves s₀ (settle s) := by
  unfold Machine.settle
  extract_lets +onlyGivenNames s₁ s₂ s₃ s₄ s₅ s₆ s₇ s₈ s₉
  have h₁ : Evolves s₀ s₁ := .kick (.unlate (.pumpTier (.reapTickets h)))
  have h₂ : Evolves s₀ s₂ := .foldl h₁ fun _ _ => .pumpTile
  have h₃ : Evolves s₀ s₃ := .foldl h₂ fun _ _ => .tryFlags
  have h₄ : Evolves s₀ s₄ := .flushFree (.stepCompose (.stepResets (.stepJobs (fun _ _ => .stepJob) (.pumpWalks h₃))))
  have h₅ : Evolves s₀ s₅ := .pumpBatches (.retryHeldAll h₄)
  have h₆ : Evolves s₀ s₆ := .pumpBells (.flushLate h₅.frame)
  have h₇ : Evolves s₀ s₇ := .foldl h₆ fun _ _ => .serveRing
  have h₈ : Evolves s₀ s₈ := .pumpPort h₇
  have h₉ : Evolves s₀ s₉ := .foldl h₈ fun _ _ h => .pumpPre (.releaseRuns (.pumpQueue h))
  exact .sendMeta h₉

theorem Evolves.catchUp (h : Evolves s₀ s) : Evolves s₀ (catchUp s) := by
  unfold Machine.catchUp
  exact .ite (.frame h) (.writeRec (.frame h))

theorem Evolves.tick (h : Evolves s₀ s) : Evolves s₀ (tick s) := by
  unfold Machine.tick
  exact .ite h (.countTime (.frame (.catchUp (.whenUp h (fun _ => .settle)))))

/-! ### Dispatch -/

theorem OutOk.exec {i : Instr} (hb : ∀ b, i ≠ .boot b) (h : Evolves s₀ s) : OutOk s₀ (exec i s) := by
  unfold Machine.exec
  split
  · exact .next (.runPacket (fun _ _ => .bodyNop) h)
  · exact .next (.runPacket (fun _ _ => .bodyHello) h)
  · exact .next (.runPacket (fun _ _ => .bodyRegRead) h)
  · exact .next (.runPacket (fun _ _ => .bodyRegWrite) h)
  · exact .next (.runPacket (fun _ _ => .bodyCrCohCtrlWrite) h)
  · exact .next (.runPacket (fun _ _ => .bodyHsFabricCtrlWrite) h)
  · exact .next (.runPacket (fun _ _ => .bodyLose) h)
  · exact .next (.runPacket (fun _ _ => .bodyHsAlertClear) h)
  · exact .next (.runPacket (fun _ _ => .bodyCrXlatStatusRead) h)
  · exact .next (.runPacket (fun _ _ => .bodyCrCohStatusRead) h)
  · exact .next (.runPacket (fun _ _ => .bodySbFtlHealthRead) h)
  · exact .next (.runPacket (fun _ _ => .bodyCrEmbStatusRead) h)
  · exact .next (.runPacket (fun _ _ => .bodyCrNmStatusRead) h)
  · exact .next (.runPacket (fun _ _ => .bodySpTileCountersRead) h)
  · exact .next (.runPacket (fun _ _ => .bodyHsErrStatusRead) h)
  · exact .next (.runPacket (fun _ _ => .bodyDlPortStatusRead) h)
  · exact .execCommandChunk h
  · exact .next (.runPacket (fun _ _ => .bodyComposeChunk) h)
  · exact .next (.whenUp h (fun _ => .composeDrained))
  · exact .next (.whenUp h (fun _ => .composeLimit))
  · exact .execEpochHoldTimeout h
  · exact .next (.runPacket (fun _ _ => .bodyRiderReset) h)
  · exact .next (.whenUp h (fun _ => .resetLimit))
  · exact .next (.runPacket (fun _ _ => .bodyQueueCreate) h)
  · exact .next (.runPacket (fun _ _ => .bodyQueueDestroy) h)
  · exact .next (.whenUp h (fun _ => .ringDoorbell))
  · exact .next (.whenUp h (fun _ => .cqHeadStore))
  · exact .next (.whenUp h (fun _ => .fetchEntry))
  · exact .next (.whenUp h (fun _ => .postReply))
  · exact .next (.runPacket (fun _ _ => .bodyExtentAssign) h)
  · exact .next (.runPacket (fun _ _ => .bodyExtentRevoke) h)
  · exact .next (.runPacket (fun _ _ => .bodyExtentQuery) h)
  · exact .next (.runPacket (fun _ _ => .bodyLossAck) h)
  · exact .next (.runPacket (fun _ _ => .bodyPtBaseSet) h)
  · exact .next (.runPacket (fun _ _ => .bodyMapRange) h)
  · exact .next (.runPacket (fun _ _ => .bodyUnmapRange) h)
  · exact .execUnmapEngineAck h
  · exact .next (.whenUp h (fun _ => .walkReturn))
  · exact .next (.runPacket (fun _ _ => .bodyLapOpen) h)
  · exact .next (.runPacket (fun _ _ => .bodyLapBeginWrite) h)
  · exact .next (.runPacket (fun _ _ => .bodyLapCommit) h)
  · exact .next (.runPacket (fun _ _ => .bodyLapClose) h)
  · exact .next (.runPacket (fun _ _ => .bodyStageMark) h)
  · exact .next (.runPacket (fun _ _ => .bodyStageRollback) h)
  · exact .next (.runPacket (fun _ _ => .bodyObjPlace) h)
  · exact .next (.runPacket (fun _ _ h₁ => .bodyChunked (fun _ _ => .bodyPrefetchSchedule) h₁) h)
  · exact .next (.runPacket (fun _ _ => .bodyPagePin) h)
  · exact .next (.runPacket (fun _ _ => .bodyPageEvict) h)
  · exact .next (.runPacket (fun _ _ => .bodyFlashTrim) h)
  · exact .next (.runPacket (fun _ _ => .bodyEmbTableDefine) h)
  · exact .next (.runPacket (fun _ _ => .bodyEmbLookup) h)
  · exact .next (.runPacket (fun _ _ => .bodyEmbUpdate) h)
  · exact .next (.whenUp h (fun _ => .runArrives))
  · exact .next (.whenUp h (fun _ => .rowsArrive))
  · exact .next (.whenUp h (fun _ => .partialArrives))
  · exact .next (.whenUp h (fun _ => .verdictArrives))
  · exact .next (.whenUp h (fun _ => .limitExpires))
  · exact .next (.runPacket (fun _ _ => .bodyNmFill) h)
  · exact .next (.runPacket (fun _ _ => .bodyNmCopy) h)
  · exact .next (.runPacket (fun _ _ => .bodyNmCompare) h)
  · exact .next (.runPacket (fun _ _ => .bodyNmReduce) h)
  · exact .execEngineBeatCompletion h
  · exact .next (.runPacket (fun _ _ => .bodyTileLoad) h)
  · exact .next (.runPacket (fun _ _ => .bodyTileStart) h)
  · exact .next (.runPacket (fun _ _ => .bodyTileStop) h)
  · exact .next (.runPacket (fun _ _ => .bodySyncSet) h)
  · exact .next (.runPacket (fun _ _ => .bodySyncWait) h)
  · exact .next (.whenUp h (fun _ => .syncWaitExpires))
  · exact .next (.runPacket (fun _ _ => .bodyBulkWrite) h)
  · exact .next (.runPacket (fun _ _ => .bodyBulkRead) h)
  · exact .next (.runPacket (fun _ _ => .bodyFwStage) h)
  · exact .next (.runPacket (fun _ _ => .bodyFwActivate) h)
  · exact .next (.whenFw h (fun _ => .startDeferred))
  · exact .next (.whenFw h (fun _ => .stepDone))
  · exact .next (.whenFw h (fun _ => .holdLimit))
  · exact .next (.whenFw h (fun _ => .confirmTrial))
  · exact .next (.runPacket (fun _ _ => .bodyAttest) h)
  · exact .next (.runPacket (fun _ _ => .bodyPowerPolicy) h)
  · exact .next (.runPacket (fun _ _ => .bodyThermalQuery) h)
  · exact .next (.runPacket (fun _ _ => .bodyErrLogRead) h)
  · exact .next (.runPacket (fun _ _ => .bodyInject) h)
  · exact .next (.runPacket (fun _ _ => .bodyOdometerRead) h)
  · exact .next (.runPacket (fun _ _ => .bodyUnitUnfence) h)
  · exact .execUnfenceCheckComplete h
  · exact .next (.runPacket (fun _ _ => .bodyTandemPair) h)
  · exact .next (.whenUp h (fun _ => .reportArrives))
  · exact .next (.runPacket (fun _ _ => .bodyTandemHandover) h)
  · exact .next (.whenUp h (fun _ => .handoverDone))
  · exact .next (.whenUp h (fun _ => .relayArrives))
  · exact .next (.runPacket (fun _ _ => .bodyExpel) h)
  · exact .next (.runPacket (fun _ _ => .bodyAdmit) h)
  · exact .next (.runPacket (fun _ _ => .bodyManagerKeys) h)
  · exact .next (.runPacket (fun _ _ => .bodyTripRead) h)
  · exact .next (.runPacket (fun _ _ => .bodyTimeSet) h)
  · exact .next (.whenUp h (fun _ h₁ => .foldl (.frame h₁) (fun _ _ => .completeIf)))
  · exact .next (.issue h)
  · exact .next (.issue h)
  · exact .next (.issue h)
  · exact .next (.issue h)
  · exact .next (.issue h)
  · exact .next (.issue h)
  · exact .next (.issue h)
  · exact .next (.issue h)
  · exact .next (.issue h)
  · exact .next (.issue h)
  · exact .next (.issue h)
  · exact .next (.issue h)
  · exact .next (.issue h)
  · exact .next (.issue h)
  · exact .next (.issue h)
  · exact .next (.issue h)
  · exact .next (.issue h)
  · exact .next (.issue h)
  · exact .next (.whenUp h (fun _ => .runMma))
  · exact .next (.issue h)
  · exact .next (.issue h)
  · exact .next (.issue h)
  · exact .next (.issue h)
  · exact .next (.issue h)
  · exact .next (.issue h)
  · exact .next (.issue h)
  · exact .next (.issue h)
  · exact .next (.issue h)
  · exact .next (.issue h)
  · exact .next (.issue h)
  · exact .next (.issue h)
  · exact .next (.issue h)
  · exact .next (.whenUp h (fun _ => .loadReturn))
  · exact .next (.whenUp h (fun _ => .landStore))
  · exact .execStreamBeatCompletion h
  · exact .next (.whenUp h (fun _ => .applySignal))
  · exact .next (.whenUp h (fun _ => .waitExpires))
  · exact .execTileIssueWatchdog h
  · exact .next (.whenUp h (fun _ => .acceptReq))
  · exact .next (.whenUp h (fun _ => .acceptReq))
  · exact .next (.whenUp h (fun _ => .acceptReq))
  · exact .next (.whenUp h (fun _ => .acceptReq))
  · exact .next (.whenUp h (fun _ => .acceptReq))
  · exact .next (.whenUp h (fun _ => .acceptReq))
  · exact .next (.whenUp h (fun _ => .acceptReq))
  · exact .next (.whenUp h (fun _ => .acceptReq))
  · exact .next (.whenUp h (fun _ => .acceptReq))
  · exact .next (.whenUp h (fun _ => .acceptReq))
  · exact .next (.whenUp h (fun _ => .rspI))
  · exact .execRspS h
  · exact .execRspX h
  · exact .execRspStashOk h
  · exact .next (.whenUp h (fun _ => .stashRefused))
  · exact .execDatFwd h
  · exact .execCmpAck h
  · exact .execMemRd h
  · exact .execMemWr h
  · exact .execMemAtom h
  · exact .execMemRdata h
  · exact .execMemWack h
  · exact .execSnoopTimeout h
  · exact .execGrantAckTimeout h
  · exact .execMemoryTimeout h
  · exact .execAgentLossScanEnd h
  · exact .next (.throughPort h (fun _ => .storeArrives))
  · exact .next (.throughPort h (fun _ => .storeArrives))
  · exact .next (.whenUp h (fun _ => .ackArrives))
  · exact .next (.whenUp h (fun _ h₁ => .sendAck (.sendAck h₁)))
  · exact .next (.whenUp h (fun _ => .fenceArrives))
  · exact .next (.whenUp h (fun _ h₁ => .emit (.frame (.updWin h₁))))
  · exact .next (.whenUp h (fun _ => .limitEnds))
  · exact .next (.whenUp h (fun _ h₁ => .retireWin (.retireWin h₁)))
  · exact .next h
  · exact .next (.throughPort h (fun _ h₁ => .foldl h₁ (fun _ _ => .storeArrives)))
  · exact .execGatewayBlockRead h
  · exact .execFrameAgeExpiry h
  · exact .next (.onPort h (fun _ h₁ => .ite h₁ (.ite (.startRetrain h₁) (.replayFlit h₁))))
  · exact .next (.onPort h (fun _ => .portComesUp))
  · exact .next (.onPort h (fun _ => .startRetrain))
  · exact .next (.onPort h (fun _ h₁ => .ite h₁ (.recPort (.updPort h₁))))
  · exact .next (.onPort h (fun _ h₁ => .ite h₁ (.updPort h₁)))
  · exact .next (.onPort h (fun _ h₁ => .ite h₁ (.foldl h₁ (fun _ _ => .declareLost))))
  · exact .next (.onLd h (fun _ _ => .cxlSay))
  · exact .next (.onLd h (fun _ _ => .cxlSay))
  · exact .next (.onLd h (fun _ _ => .cxlSay))
  · exact .next (.onLd h (fun _ _ => .cxlSay))
  · exact .next (.onLd h (fun _ _ h₁ => .cxlSay (.frame h₁)))
  · exact .next (.onLd h (fun _ _ => .cxlSay))
  · exact .next (.onLd h (fun _ _ => .cxlSay))
  · exact .next (.onLd h (fun _ _ => .cxlSay))
  · exact .next (.cxlRefuse h)
  · exact .next (.cxlRefuse h)
  · exact .next (.cxlRefuse h)
  · exact .next (.cxlRefuse h)
  · exact .next (.whenUp h (fun _ h₁ => .ite (.cxlSay h₁) h₁))
  · exact .next (.onLd h (fun _ _ => .cxlSay))
  · exact .next (.whenUp h (fun _ => .mirrorMsg))
  · exact .next (.whenUp h (fun _ => .frame))
  · exact .next (.whenUp h (fun _ => .recordArrives))
  · exact .next (.whenUp h (fun _ => .ackPrepared))
  · exact .next (.whenUp h (fun _ => .markArrives))
  · exact .next (.whenUp h (fun _ => .resyncPage))
  · exact .next (.whenUp h (fun _ => .twinDown))
  · exact .next (.whenUp h (fun _ => .twinUp))
  · exact .execGranuleCopyComplete h
  · exact .execFlashReadComplete h
  · exact .execFlashProgramComplete h
  · exact .execProgramFailure h
  · exact .execScheduleEntryStart h
  · exact .execScheduleFillComplete h
  · exact .execScheduleRelease h
  · exact .next (.onCluster h (fun _ h₁ => .frame (.queueReloc h₁)))
  · exact .next (.onCluster h (fun _ h₁ => .ite (.softBlock (.queueReloc (.frame h₁))) (.frame h₁)))
  · exact .execRelocationComplete h
  · exact .next (.onCluster h (fun _ h₁ => .ite h₁ (.recFlash (.recFlash (.frame h₁)))))
  · exact .next (.onCluster h (fun _ h₁ => .ite h₁ (.spareState (.recFlash (.takeSpare (.frame h₁))))))
  · exact .next (.whenUp h (fun _ h₁ => .ite h₁ (.ite (.mountState h₁) (.mountFails h₁))))
  · exact .next (.whenUp h (fun _ h₁ => .ite h₁ (.mountFails h₁)))
  · exact .next (.whenUp h (fun _ h₁ => .ite (.fenceUnit h₁) h₁))
  · exact .next (.whenFw h (fun _ => .hopFails))
  · exact .next (.whenFw h (fun _ => .watchdog))
  · exact .next (.whenUp h (fun _ => .mgmtSees))
  · exact .next (.whenUp h (fun _ h₁ => .ite (.patrolWord h₁) h₁))
  · exact .next (.odoWritten h)
  · exact absurd rfl (hb _)
  · exact .next (.whenUp h (fun _ h₁ => .ite h₁ (.ite (.alert (.recPower (.frame h₁))) (.engage (.frame h₁)))))
  · exact .next (.whenUp h (fun _ h₁ => .ite h₁ (.brakeOff (.alert (.recPower (.frame h₁))))))
  · exact .next (.ite h (.ite (.frame h) (.powerOff h)))
  · exact .next (.whenUp h (fun _ h₁ => .ite h₁ (.engage (.frame h₁))))
  · exact .next (.ite h (.frame (.powerOff h)))
  · exact .next (.whenUp h (fun _ h₁ => .ite h₁ (.engage (.frame h₁))))
  · exact .execInputPowerLimit h
  · exact .next (.whenUp h (fun _ h₁ => .ite h₁ (.brakeOff (.foldl (.frame h₁) (fun _ _ => .endOverride)))))
  · exact .execBrakeThreshold h
  · exact .execThermalTrip h
  · exact .next (.ite h (.frame (.powerOff (.recPower h))))
  · exact .execMemoryOverTemperature h
  · exact .next (.whenUp h (fun _ h₁ => .ite (.nandTemp h₁) h₁))
  · exact .next (.whenUp h (fun _ => .vfTick))
  · exact .next (.whenUp h (fun _ => .linkWidth))
  · exact .next (.whenUp h (fun _ h₁ => .ite (.frame h₁) h₁))
  · exact .next (.whenUp h (fun _ h₁ => .ite (.wakeUp h₁) h₁))
  · exact .next (.whenUp h (fun _ h₁ => .ite (.wakeUp h₁) h₁))
  · exact .next (.whenUp h (fun _ h₁ => .ite (.wakeUp h₁) h₁))
  · exact .next (.ite (.frame (.ite h (.coldReset h))) (.ite (.bootTimeZero (.frame h)) (.frame h)))
  · exact .next (.ite (.powerOn (.frame h)) h)
  · exact .next (.whenUp h (fun _ => .ppsEdge))
  · exact .next (.whenUp h (fun _ => .frame))
  · exact .next (.ite h (.emit (.recoveryPiece h)))
  · exact .next (.whenBridge h (fun _ => .odoRead))
  · exact .next (.whenBridge h (fun _ => .setEid))
  · exact .next (.whenBridge h (fun _ => .emit))
  · exact .next (.whenBridge h (fun _ => .mctpVersion))
  · exact .next (.whenBridge h (fun _ => .emit))
  · exact .next (.whenBridge h (fun _ => .vendorSupport))
  · exact .next (.whenBridge h (fun _ => .frame))
  · exact .next (.whenBridge h (fun _ => .loadTap))
  · exact .next (.whenBridge h (fun _ => .loadTap))
  · exact .next (.whenBridge h (fun _ => .loadTap))
  · exact .next (.whenBridge h (fun _ => .loadTap))
  · exact .next (.whenBridge h (fun _ => .loadTap))
  · exact .next (.whenBridge h (fun _ => .loadTap))
  · exact .next (.whenBridge h (fun _ => .loadTap))
  · exact .next (.whenBridge h (fun _ => .loadTap))
  · exact .next (.setLane h)
  · exact .next (.setLane h)
  · exact .next (.whenUp h (fun _ => .mirrorWaitEnds))
  · exact .next (.whenUp h (fun _ h₁ => .ite (.fenceUnit h₁) h₁))
  · exact .next (.whenUp h (fun _ h₁ => .ite h₁ (.alert (.recMgmt h₁))))
  · exact .next (.whenUp h (fun _ => .frame))
  · exact .next (.whenFw h (fun _ h₁ => .ite (.frame h₁) h₁))
  · exact .next (.ite (.powerOn h) h)
  · exact .next (.ite (.powerOn h) h)
  · exact .next (.sideDark (.frame h))
  · exact .next (.frame h)
  · exact .execMemoryTemperatureFall h
  · exact .next (.cxlRefuse h)
  · exact .next (.cxlRefuse h)
  · exact .next (.cxlRefuse h)
  · exact .next (.cxlRefuse h)
  · exact .next (.onLd h (fun _ _ => .cxlSay))

end Rules

end Sys2Proof.Proofs

/-! What a step leaves: a later state, or, when it boots, a state later than one that has counted the boot. -/

namespace Sys2Proof.Proofs

open Sys2Proof.Machine Sys2Proof.Claims Sys2Proof.Laws

-- Checked one after another, which keeps the memory of the check small.
set_option Elab.async false

theorem bootCounted_inv {b : BootInfo} {s : State} (h : Inv s) : Inv (bootCounted b s) := { h with }

/-- A boot from the released phase, after the log of its cause. -/
theorem execBoot_evolves {b : BootInfo} {s t : State} (e : exec (.boot b) s = .next t) :
    Evolves s t ∨ s.phase = .released ∧ Evolves (bootCounted b (recFw 1 s.cause s)) t := by
  replace e : (if s.phase = .released then bootUp b s else s) = t := Host.Outcome.next.inj e
  split at e
  next hphase => exact .inr ⟨hphase, e ▸ .bootUp⟩
  · exact .inl (e ▸ .refl s)

/-- A step leaves a later state, or it boots from the released phase and leaves a state later than one that counted the boot. -/
theorem step_evolves {s t : State} (e : step s = .next t) :
    Evolves s t ∨ ∃ b rest u, s.pending = .boot b :: rest ∧ s.phase = .released ∧ Evolves s u ∧ Evolves (bootCounted b u) t := by
  unfold step at e
  split at e
  · exact .inl (Host.Outcome.next.inj e ▸ .tick (.refl s))
  next c rest hpending =>
    have hrest : Evolves s { s with pending := rest } := .frame (.refl s)
    by_cases hb : ∃ b, c = .boot b
    · obtain ⟨b, rfl⟩ := hb
      rcases execBoot_evolves e with h | ⟨hphase, h⟩
      · exact .inl (hrest.trans h)
      · exact .inr ⟨b, rest, _, hpending, hphase, .recFw hrest, h⟩
    · have h := OutOk.exec (i := c) (fun b hc => hb ⟨b, hc⟩) hrest
      rw [e] at h
      cases h with | next h => exact .inl h

/-- Settles O59: a step leaves a later state, which keeps the invariant; a boot's count stands outside it. -/
theorem invariantKept : Obligations.InvariantKept := by
  intro s t hinv e
  rcases step_evolves e with h | ⟨b, rest, u, -, -, hu, h⟩
  · exact h.keeps_inv hinv
  · exact h.keeps_inv (bootCounted_inv (hu.keeps_inv hinv))

/-- Settles O60: no counter falls in a later state, and only a boot that counts itself moves the boot count. -/
theorem countersOnlyIncrease : Obligations.CountersOnlyIncrease := by
  intro s t e
  rcases step_evolves e with h | ⟨b, rest, u, hpending, hphase, hu, h⟩
  · exact ⟨h.svn_le, h.configSeq_le, h.setSeq_le, h.lastOrder_le, .inl h.bootCount_eq⟩
  · refine ⟨hu.svn_le.trans h.svn_le, hu.configSeq_le.trans h.configSeq_le, hu.setSeq_le.trans h.setSeq_le,
      hu.lastOrder_le.trans h.lastOrder_le, ?_⟩
    have hcount : t.nv.bootCount = if b.countersOk then u.nv.bootCount + 1 else u.nv.bootCount := h.bootCount_eq
    rw [hu.bootCount_eq] at hcount
    split at hcount
    · exact .inr ⟨hcount, b, rest, hpending, hphase⟩
    · exact .inl hcount

end Sys2Proof.Proofs
